-- ==== Sys2Proof/Word.lean ====
section
/-! DEFINITION. The word types of the part and their plainest arithmetic (R6, R143). -/

namespace Sys2Proof

/-- One byte of memory. -/
abbrev Byte := BitVec 8

/-- An x register, an address, a 64-bit CSR (R143). -/
abbrev Word := BitVec 64

/-- A lane of a v register, an f register, an instruction word (R143). -/
abbrev W32 := BitVec 32

/-- A register number as an encoding holds it. -/
abbrev RegIdx := BitVec 5

/-- A sparse table: key and value pairs, keys strictly rising. -/
abbrev Table (α : Type) := List (Nat × α)

end Sys2Proof
end

