-- ==== Sys2Proof/Syntax.lean ====
section
/-! DEFINITION. The instructions and events of the part: one constructor of `Instr` for each row of the opcode table.
A row that is an instruction carries its operand fields (R145 to R154, R141). A row that is an event of the part carries
the identities of what it acts on: a hart, an operation in flight, a home, a queue and so on. -/

namespace Sys2Proof

/-- The lane types of DV (R147). -/
inductive LaneTy where
  | i32 | n32 | f32
deriving DecidableEq, Repr

/-- The scopes of R90 and R149. -/
inductive Scope where
  | hart | core | cl | fd | md | sys
deriving DecidableEq, Repr

/-- The widths of lrx (R151). -/
inductive LrxW where
  | b | h | w | d | bu | hu | wu
deriving DecidableEq, Repr

/-- The base loads: RV64I, and FLW of RV64F, which writes an f register. -/
inductive LoadW where
  | b | h | w | d | bu | hu | wu | fw
deriving DecidableEq, Repr

/-- The base stores: RV64I, and FSW of RV64F, whose data is an f register. -/
inductive StoreW where
  | b | h | w | d | fw
deriving DecidableEq, Repr

/-- The RV64A read-modify-writes. -/
inductive AmoOp where
  | swap | add | xor | and | or | min | max | minu | maxu
deriving DecidableEq, Repr

/-- The six Zicsr forms; the `i` forms take the source field as a 5-bit immediate. -/
inductive CsrOp where
  | rw | rs | rc | rwi | rsi | rci
deriving DecidableEq, Repr

/-- Conditional branches of RV64I. -/
inductive BrOp where
  | eq | ne | lt | ge | ltu | geu
deriving DecidableEq, Repr

/-- Register-immediate operations of RV64I with a 12-bit immediate. -/
inductive ImmOp where
  | addi | slti | sltiu | xori | ori | andi | addiw
deriving DecidableEq, Repr

/-- Shifts by a 6-bit amount (RV64I, Zba slli.uw, Zbb rori). -/
inductive ShOp where
  | slli | srli | srai | rori | slliuw
deriving DecidableEq, Repr

/-- Word shifts by a 5-bit amount (RV64I, Zbb roriw). -/
inductive ShWOp where
  | slliw | srliw | sraiw | roriw
deriving DecidableEq, Repr

/-- Register-register operations of RV64I, M, Zba and Zbb. -/
inductive AluOp where
  | add | sub | sll | slt | sltu | xor | srl | sra | or | and
  | addw | subw | sllw | srlw | sraw
  | mul | mulh | mulhsu | mulhu | div | divu | rem | remu
  | mulw | divw | divuw | remw | remuw
  | sh1add | sh2add | sh3add | adduw | sh1adduw | sh2adduw | sh3adduw
  | andn | orn | xnor | max | maxu | min | minu | rol | ror | rolw | rorw
deriving DecidableEq, Repr

/-- One-operand operations of Zbb. -/
inductive UnOp where
  | clz | ctz | cpop | clzw | ctzw | cpopw | sextb | sexth | zexth | orcb | rev8
deriving DecidableEq, Repr

/-- RV64F operations on two f registers that round. -/
inductive FArith where
  | add | sub | mul | div
deriving DecidableEq, Repr

/-- RV64F fused operations. -/
inductive FFused where
  | madd | msub | nmsub | nmadd
deriving DecidableEq, Repr

/-- RV64F operations on two f registers that do not round. -/
inductive FPair where
  | sgnj | sgnjn | sgnjx | min | max
deriving DecidableEq, Repr

/-- RV64F comparisons. -/
inductive FCmp where
  | eq | lt | le
deriving DecidableEq, Repr

/-- The integer types of the RV64F conversions. -/
inductive FInt where
  | w | wu | l | lu
deriving DecidableEq, Repr

/-- The base computational instructions, branches, jumps and EBREAK (R141). Branch and jump immediates hold the offset
without its bit 0. -/
inductive BaseOp where
  | lui (rd : RegIdx) (imm : BitVec 20)
  | auipc (rd : RegIdx) (imm : BitVec 20)
  | jal (rd : RegIdx) (imm : BitVec 20)
  | jalr (rd rs1 : RegIdx) (imm : BitVec 12)
  | branch (c : BrOp) (rs1 rs2 : RegIdx) (imm : BitVec 12)
  | opImm (o : ImmOp) (rd rs1 : RegIdx) (imm : BitVec 12)
  | shift (o : ShOp) (rd rs1 : RegIdx) (sh : BitVec 6)
  | shiftW (o : ShWOp) (rd rs1 : RegIdx) (sh : BitVec 5)
  | alu (o : AluOp) (rd rs1 rs2 : RegIdx)
  | unary (o : UnOp) (rd rs1 : RegIdx)
  | farith (o : FArith) (rm : BitVec 3) (rd rs1 rs2 : RegIdx)
  | fsqrt (rm : BitVec 3) (rd rs1 : RegIdx)
  | ffused (o : FFused) (rm : BitVec 3) (rd rs1 rs2 rs3 : RegIdx)
  | fpair (o : FPair) (rd rs1 rs2 : RegIdx)
  | fcmp (o : FCmp) (rd rs1 rs2 : RegIdx)
  | fcvtToInt (t : FInt) (rm : BitVec 3) (rd rs1 : RegIdx)
  | fcvtFromInt (t : FInt) (rm : BitVec 3) (rd rs1 : RegIdx)
  | fmvXW (rd rs1 : RegIdx)
  | fmvWX (rd rs1 : RegIdx)
  | fclass (rd rs1 : RegIdx)
  | ebreak
deriving DecidableEq, Repr

/-- Where a granule is rebound to (R78, R80). -/
inductive RebindTo where
  | core (cluster pcore : Nat)
  | frame (va : Word)
deriving DecidableEq, Repr

/-- One entry of a core's spill ring (R215): a line write with its byte mask and tag, and the poison of what it writes (R395), or a
tail advance of a ring. -/
inductive SpillEnt where
  | line (va : Word) (mask : BitVec 64) (data : List Byte) (tag : Option (BitVec 16)) (poison : Bool)
  | advance (win ring n : Nat)
deriving DecidableEq, Repr


/-- Every row of the opcode table. Rows R150 to R154 and the base rows are instructions of a hart; the others are
events of the part. -/
inductive Instr where
  /-- R173. Adds vs1 and vs2 lane by lane in every active lane. -/
  | vadd (m : Bool) (ty : LaneTy) (vd vs1 vs2 : RegIdx)
  /-- R173. Subtracts vs2 from vs1 lane by lane in every active lane. -/
  | vsub (m : Bool) (ty : LaneTy) (vd vs1 vs2 : RegIdx)
  /-- R173. Multiplies vs1 by vs2 lane by lane in every active lane. -/
  | vmul (m : Bool) (ty : LaneTy) (vd vs1 vs2 : RegIdx)
  /-- R173. Computes vs1 times vs2 plus vd with one rounding in every active lane. -/
  | vmadd (m : Bool) (ty : LaneTy) (vd vs1 vs2 : RegIdx)
  /-- R173. Computes vs1 times vs2 minus vd with one rounding in every active lane. -/
  | vmsub (m : Bool) (ty : LaneTy) (vd vs1 vs2 : RegIdx)
  /-- R173. Writes the lane-wise minimum of vs1 and vs2. -/
  | vmin (m : Bool) (ty : LaneTy) (vd vs1 vs2 : RegIdx)
  /-- R173. Writes the lane-wise maximum of vs1 and vs2. -/
  | vmax (m : Bool) (ty : LaneTy) (vd vs1 vs2 : RegIdx)
  /-- R173. Writes the absolute value of each active lane of vs1. -/
  | vabs (m : Bool) (ty : LaneTy) (vd vs1 : RegIdx)
  /-- R173. Writes the negation of each active lane of vs1. -/
  | vneg (m : Bool) (ty : LaneTy) (vd vs1 : RegIdx)
  /-- R174. Bitwise AND of vs1 and vs2 in every active lane. -/
  | vand (m : Bool) (vd vs1 vs2 : RegIdx)
  /-- R174. Bitwise OR of vs1 and vs2 in every active lane. -/
  | vor (m : Bool) (vd vs1 vs2 : RegIdx)
  /-- R174. Bitwise XOR of vs1 and vs2 in every active lane. -/
  | vxor (m : Bool) (vd vs1 vs2 : RegIdx)
  /-- R174. Bitwise complement of vs1 in every active lane. -/
  | vnot (m : Bool) (vd vs1 : RegIdx)
  /-- R174. Shifts each lane of vs1 left by vs2 bits [4:0]. -/
  | vsll (m : Bool) (vd vs1 vs2 : RegIdx)
  /-- R174. Shifts each lane of vs1 right logically by vs2 bits [4:0]. -/
  | vsrl (m : Bool) (vd vs1 vs2 : RegIdx)
  /-- R174. Shifts each lane of vs1 right arithmetically by vs2 bits [4:0]. -/
  | vsra (m : Bool) (vd vs1 vs2 : RegIdx)
  /-- R175. Compares lanes for equality and writes all 16 bits of DXPW.MASK or DXPW.COND. -/
  | vcmpeq (m : Bool) (ty : LaneTy) (cond : Bool) (vs1 vs2 : RegIdx)
  /-- R175. Compares lanes for less-than and writes all 16 bits of MASK or COND. -/
  | vcmplt (m : Bool) (ty : LaneTy) (cond : Bool) (vs1 vs2 : RegIdx)
  /-- R175. Compares lanes for less-or-equal and writes all 16 bits of MASK or COND. -/
  | vcmple (m : Bool) (ty : LaneTy) (cond : Bool) (vs1 vs2 : RegIdx)
  /-- R176. Selects vs1 or vs2 per lane by DXPW.COND. -/
  | vsel (m : Bool) (vd vs1 vs2 : RegIdx)
  /-- R177. Writes the correctly rounded reciprocal of each active lane. -/
  | vrcp (m : Bool) (vd vs1 : RegIdx)
  /-- R177. Writes the correctly rounded reciprocal square root of each active lane. -/
  | vrsq (m : Bool) (vd vs1 : RegIdx)
  /-- R177. Writes the correctly rounded 2^x of each active lane. -/
  | vexp2 (m : Bool) (vd vs1 : RegIdx)
  /-- R177. Writes the correctly rounded log2 of each active lane. -/
  | vlog2 (m : Bool) (vd vs1 : RegIdx)
  /-- R178. Converts an unpacked element of format EF to a lane type. -/
  | vcvtToLaneType (m : Bool) (ty : LaneTy) (vd vs1 : RegIdx) (ef : BitVec 5)
  /-- R178. Converts a lane type to an unpacked narrow format without saturation. -/
  | vcvtToNarrow (m : Bool) (ty : LaneTy) (vd vs1 : RegIdx) (ef : BitVec 5)
  /-- R178. Converts a lane type to an unpacked narrow format with saturation. -/
  | vcvtToNarrowSat (m : Bool) (ty : LaneTy) (vd vs1 : RegIdx) (ef : BitVec 5)
  /-- R179. Quantises 16 FP32 lanes into one segment of a packed line and sets VQ and VTAG. -/
  | vquant (m : Bool) (q : BitVec 3) (vd vs1 rs2 : RegIdx)
  /-- R180. Decodes segment 0 of a packed register under its VTAG into FP32 lanes. -/
  | vdequant (m : Bool) (vd vs1 : RegIdx)
  /-- R181. Writes the largest absolute value over active lanes into every lane. -/
  | vamax (m : Bool) (vd vs1 : RegIdx)
  /-- R182. Sums the active lanes by the fixed pairwise tree into lane 0. -/
  | vredsum (m : Bool) (ty : LaneTy) (vd vs1 : RegIdx)
  /-- R182. Reduces the active lanes to their maximum in lane 0. -/
  | vredmax (m : Bool) (ty : LaneTy) (vd vs1 : RegIdx)
  /-- R182. Reduces the active lanes to their minimum in lane 0. -/
  | vredmin (m : Bool) (ty : LaneTy) (vd vs1 : RegIdx)
  /-- R183. Broadcasts x[rs1][31:0] into every active lane. -/
  | vbcast (m : Bool) (vd rs1 : RegIdx)
  /-- R183. Writes one lane of vs1, sign-extended, to an x register. -/
  | vextr (m : Bool) (rd vs1 : RegIdx) (lane : BitVec 4)
  /-- R183. Inserts x[rs1][31:0] into one lane of vd. -/
  | vins (m : Bool) (vd rs1 : RegIdx) (lane : BitVec 4)
  /-- R183. Permutes the lanes of vs1 by the indices in vs2. -/
  | vperm (m : Bool) (vd vs1 vs2 : RegIdx)
  /-- R183. Slides the lanes of vs1 by n positions. -/
  | vslide (m : Bool) (vd vs1 : RegIdx) (n : BitVec 5)
  /-- R183. Interleaves the low halves of vs1 and vs2. -/
  | vzip (m : Bool) (vd vs1 vs2 : RegIdx)
  /-- R183. De-interleaves the even lanes of vs1 and vs2. -/
  | vunzip (m : Bool) (vd vs1 vs2 : RegIdx)
  /-- R183. Copies vs1 to vd in every active lane and clears VQ and VTAG. -/
  | vmov (m : Bool) (vd vs1 : RegIdx)
  /-- R188. Relaxed scalar load of 1 to 8 bytes, extended to 64 bits. -/
  | lrx (w : LrxW) (rd rs1 : RegIdx) (off : BitVec 7)
  /-- R188. Relaxed scalar store of the low 1 to 8 bytes of x[rt]. -/
  | srx (w : BitVec 2) (rt rs1 : RegIdx) (off : BitVec 7)
  /-- R185. Loads a 64-byte line into the active lanes, plain or relaxed. -/
  | vld (rx : Bool) (v rs1 : RegIdx) (off : BitVec 7)
  /-- R185. Stores the active lanes of a v register as a line, with its tag when quantised and aligned. -/
  | vst (rx : Bool) (v rs1 : RegIdx) (off : BitVec 7)
  /-- R186. Strided load of one 4-byte word per active lane. -/
  | vlds (rx : Bool) (v rs1 rs2 : RegIdx)
  /-- R186. Strided store of one 4-byte word per active lane. -/
  | vsts (rx : Bool) (v rs1 rs2 : RegIdx)
  /-- R186. Indexed load of one 4-byte word per active lane. -/
  | vldx (rx : Bool) (v rs1 vs2 : RegIdx)
  /-- R186. Indexed store of one 4-byte word per active lane. -/
  | vstx (rx : Bool) (v rs1 vs2 : RegIdx)
  /-- R187. Reads a line and its tag and decodes one segment of elements into FP32 or integer lanes. -/
  | vldl (vd rs1 : RegIdx) (off : BitVec 7) (seg : BitVec 3)
  /-- R189. Loads a 1-to-32-bit element at a bit address into an x register. -/
  | ldbit (r rs1 rs2 : RegIdx) (w : BitVec 5)
  /-- R189. Stores a 1-to-32-bit element at a bit address. -/
  | stbit (r rs1 rs2 : RegIdx) (w : BitVec 5)
  /-- R189. Loads consecutive bit-granular elements into the active lanes. -/
  | vldbit (r rs1 rs2 : RegIdx) (w : BitVec 5)
  /-- R189. Stores the active lanes as consecutive bit-granular elements. -/
  | vstbit (r rs1 rs2 : RegIdx) (w : BitVec 5)
  /-- R190. Reads the 16-bit tag of a line into an x register. -/
  | ldtag (r rs1 : RegIdx) (off : BitVec 7)
  /-- R190. Writes the 16-bit tag of a line and leaves its data unchanged. -/
  | sttag (r rs1 : RegIdx) (off : BitVec 7)
  /-- R242. Holds later accesses until the R99 condition of the named scope holds. -/
  | fenceS (sc : Scope)
  /-- R243. Acquire load of one byte, sign-extended. -/
  | ldAqB (sc : Scope) (rd rs1 : RegIdx)
  /-- R243. Acquire load of two bytes, sign-extended. -/
  | ldAqH (sc : Scope) (rd rs1 : RegIdx)
  /-- R243. Acquire load of four bytes, sign-extended. -/
  | ldAqW (sc : Scope) (rd rs1 : RegIdx)
  /-- R243. Acquire load of eight bytes. -/
  | ldAqD (sc : Scope) (rd rs1 : RegIdx)
  /-- R243. Release store of one byte at the named scope. -/
  | stRlB (sc : Scope) (rs2 rs1 : RegIdx)
  /-- R243. Release store of two bytes at the named scope. -/
  | stRlH (sc : Scope) (rs2 rs1 : RegIdx)
  /-- R243. Release store of four bytes at the named scope. -/
  | stRlW (sc : Scope) (rs2 rs1 : RegIdx)
  /-- R243. Release store of eight bytes at the named scope. -/
  | stRlD (sc : Scope) (rs2 rs1 : RegIdx)
  /-- R244. Issues a 32-bit integer add at the home bank and marks rd pending. -/
  | baddW (sc : Scope) (rd rs1 rs2 : RegIdx)
  /-- R244. Issues a 64-bit integer add at the home bank and marks rd pending. -/
  | baddD (sc : Scope) (rd rs1 rs2 : RegIdx)
  /-- R244. Issues an FP32 add at the home bank. -/
  | bfadd (sc : Scope) (rd rs1 rs2 : RegIdx)
  /-- R244. Issues a signed 32-bit minimum at the home bank. -/
  | bminW (sc : Scope) (rd rs1 rs2 : RegIdx)
  /-- R244. Issues a signed 64-bit minimum at the home bank. -/
  | bminD (sc : Scope) (rd rs1 rs2 : RegIdx)
  /-- R244. Issues an unsigned 32-bit minimum at the home bank. -/
  | bminWu (sc : Scope) (rd rs1 rs2 : RegIdx)
  /-- R244. Issues an unsigned 64-bit minimum at the home bank. -/
  | bminDu (sc : Scope) (rd rs1 rs2 : RegIdx)
  /-- R244. Issues a signed 32-bit maximum at the home bank. -/
  | bmaxW (sc : Scope) (rd rs1 rs2 : RegIdx)
  /-- R244. Issues a signed 64-bit maximum at the home bank. -/
  | bmaxD (sc : Scope) (rd rs1 rs2 : RegIdx)
  /-- R244. Issues an unsigned 32-bit maximum at the home bank. -/
  | bmaxWu (sc : Scope) (rd rs1 rs2 : RegIdx)
  /-- R244. Issues an unsigned 64-bit maximum at the home bank. -/
  | bmaxDu (sc : Scope) (rd rs1 rs2 : RegIdx)
  /-- R244. Issues an FP32 minimum at the home bank. -/
  | bfmin (sc : Scope) (rd rs1 rs2 : RegIdx)
  /-- R244. Issues an FP32 maximum at the home bank. -/
  | bfmax (sc : Scope) (rd rs1 rs2 : RegIdx)
  /-- R244. Issues a 32-bit exchange at the home bank. -/
  | bxchgW (sc : Scope) (rd rs1 rs2 : RegIdx)
  /-- R244. Issues a 64-bit exchange at the home bank. -/
  | bxchgD (sc : Scope) (rd rs1 rs2 : RegIdx)
  /-- R244. Issues a 32-bit compare-and-swap at the home bank with the expected value from rd. -/
  | bcasW (sc : Scope) (rd rs1 rs2 : RegIdx)
  /-- R244. Issues a 64-bit compare-and-swap at the home bank with the expected value from rd. -/
  | bcasD (sc : Scope) (rd rs1 rs2 : RegIdx)
  /-- R245. Adds the active INT32 lanes of a v register into a line at the bank. -/
  | bvredAddI32 (sc : Scope) (rd rs1 rs2 : RegIdx)
  /-- R245. Adds the active FP32 lanes of a v register into a line at the bank. -/
  | bvredAddF32 (sc : Scope) (rd rs1 rs2 : RegIdx)
  /-- R245. Takes the lane-wise signed minimum into a line at the bank. -/
  | bvredMinI32 (sc : Scope) (rd rs1 rs2 : RegIdx)
  /-- R245. Takes the lane-wise FP32 minimum into a line at the bank. -/
  | bvredMinF32 (sc : Scope) (rd rs1 rs2 : RegIdx)
  /-- R245. Takes the lane-wise signed maximum into a line at the bank. -/
  | bvredMaxI32 (sc : Scope) (rd rs1 rs2 : RegIdx)
  /-- R245. Takes the lane-wise FP32 maximum into a line at the bank. -/
  | bvredMaxF32 (sc : Scope) (rd rs1 rs2 : RegIdx)
  /-- R246. Issues an enqueue of x[rs2] to a bank queue. -/
  | bqenq (sc : Scope) (rd rs1 rs2 : RegIdx)
  /-- R246. Issues a dequeue from a bank queue. -/
  | bqdeq (sc : Scope) (rd rs1 : RegIdx)
  /-- R246. Issues a length query of a bank queue. -/
  | bqlen (sc : Scope) (rd rs1 : RegIdx)
  /-- R251. Arrives at a barrier object with the identity and completes when the phase completes. -/
  | bar (sc : Scope) (rd rs1 : RegIdx)
  /-- R251. Arrives at a barrier object and completes when its first stage records it. -/
  | barrive (sc : Scope) (rd rs1 : RegIdx)
  /-- R251. Waits until the object's phase differs from the token in rd. -/
  | bwait (rd rs1 : RegIdx)
  /-- R251. Arrives with two INT32 lanes combined by wrapping sum. -/
  | barcSumI32 (sc : Scope) (rd rs1 rs2 : RegIdx)
  /-- R251. Arrives with two FP32 lanes combined by rounded sum. -/
  | barcSumF32 (sc : Scope) (rd rs1 rs2 : RegIdx)
  /-- R251. Arrives with two INT32 lanes combined by signed minimum. -/
  | barcMinI32 (sc : Scope) (rd rs1 rs2 : RegIdx)
  /-- R251. Arrives with two FP32 lanes combined by minimum. -/
  | barcMinF32 (sc : Scope) (rd rs1 rs2 : RegIdx)
  /-- R251. Arrives with two INT32 lanes combined by signed maximum. -/
  | barcMaxI32 (sc : Scope) (rd rs1 rs2 : RegIdx)
  /-- R251. Arrives with two FP32 lanes combined by maximum. -/
  | barcMaxF32 (sc : Scope) (rd rs1 rs2 : RegIdx)
  /-- R251. Arrives with an FP32 magnitude and completes with the combined maximum and its agreed S9. -/
  | barmax (sc : Scope) (rd rs1 rs2 : RegIdx)
  /-- R221. Waits until a register is not pending and acquires its operation. -/
  | fwait (rs1 : RegIdx)
  /-- R221. Writes 1 or 0 to rd according to whether rs1 is not pending. -/
  | ftest (rd rs1 : RegIdx)
  /-- R221. Requests cancellation of the operation pending in rs1 without waiting. -/
  | fcancel (rs1 : RegIdx)
  /-- R221. Moves a pending operation or value from rs1 to rd. -/
  | fpass (rd rs1 : RegIdx)
  /-- R221. Waits until every register named by the mask in x[rs1] is not pending. -/
  | fwaitall (rs1 : RegIdx)
  /-- R235. Releases, reads a message image and sends it to a mailbox. -/
  | send (sc : Scope) (rd rs1 rs2 : RegIdx)
  /-- R235. Releases and sends the 8-byte value of x[rs2] to a mailbox. -/
  | sendp (sc : Scope) (rd rs1 rs2 : RegIdx)
  /-- R237. Frees the held slot and takes the next message from the masked mailboxes, waiting if none. -/
  | recv (rd rs1 : RegIdx)
  /-- R237. Takes a message as recv does, with a time limit. -/
  | recvt (rd rs1 rs2 : RegIdx)
  /-- R238. Writes BETA, PRIO, EN and SLOTS of a mailbox of the hart's own window. -/
  | mbcfg (rs2 rs1 : RegIdx)
  /-- R238. Returns the slot address of the message at HEAD, or 0, without taking it. -/
  | mbpeek (rd rs1 : RegIdx)
  /-- R267. Sets the chisel workspace's DIM, MAP, EPS and TAU. -/
  | gbCfg (rs1 rs2 : RegIdx)
  /-- R268. Loads a message record as the workspace, setting DIM to its dimension. -/
  | gbLdf (rs1 : RegIdx)
  /-- R268. Adds a message record into the workspace at a block offset. -/
  | gbAddm (rs1 rs2 : RegIdx)
  /-- R268. Subtracts a message record from the workspace at a block offset. -/
  | gbSubm (rs1 rs2 : RegIdx)
  /-- R269. Writes into OUT the marginal of the workspace on one block by Schur complement. -/
  | gbElim (rs1 : RegIdx)
  /-- R272. Damps OUT against an edge record, gates it by TAU and delivers it to a mailbox. -/
  | gbEmit (rd rs2 rs1 : RegIdx)
  /-- R268. Optionally adds a record and copies the workspace belief into OUT. -/
  | gbBel (rs1 : RegIdx)
  /-- R271. Solves for the mean by Cholesky and stores it to memory. -/
  | gbMean (rs1 : RegIdx)
  /-- R274. Returns the residual of the hart's latest gb.emit once its step 3 is done. -/
  | gbRes (rd : RegIdx)
  /-- R275. Loads the whole workspace from a 512-byte image. -/
  | gbLdw (rs1 : RegIdx)
  /-- R275. Stores the whole workspace to a 512-byte image tagged 0x4000. -/
  | gbStw (rs1 : RegIdx)
  /-- R257. ORs x[rs1][31:0] into pw. -/
  | pwset (rs1 : RegIdx)
  /-- R257. Clears the bits of pw set in x[rs1][31:0]. -/
  | pwclr (rs1 : RegIdx)
  /-- R257. Sets pw bit d to the AND of pw bits a and b. -/
  | pwand (d a b : RegIdx)
  /-- R257. Sets pw bit d to the OR of pw bits a and b. -/
  | pwor (d a b : RegIdx)
  /-- R257. Sets pw bit d to the complement of pw bit a. -/
  | pwnot (d a : RegIdx)
  /-- R257. Writes the population count of pw AND x[rs1] to rd. -/
  | pwpop (rd rs1 : RegIdx)
  /-- R260. Moves a compact hart towards the home of x[rs1] by the exchange of R46. -/
  | migrate (rs1 : RegIdx)
  /-- R195. Requests the plinth of the hart's quarter for its group and marks rd pending. -/
  | tlease (rd : RegIdx)
  /-- R205. Sets mode, width, promotion interval, TRA and CHK for later tile commands. -/
  | tcfg (width : BitVec 2) (int : Bool) (plog2 : BitVec 3) (tra chk : Bool)
  /-- R202. Sets a ring descriptor's BASE and LINES with HEAD and TAIL zero. -/
  | tring (ring : BitVec 3) (rs1 rs2 : RegIdx)
  /-- R203. Releases at .cl and advances a ring's TAIL, waiting for room. -/
  | radv (ring : BitVec 3) (rs1 : RegIdx)
  /-- R208. Promotes and zeroes an accumulator. -/
  | tzero (acc : BitVec 2)
  /-- R206. Runs 1 to 16 passes with A row-major into an accumulator. -/
  | tmma (rd : RegIdx) (acc : BitVec 2) (ar br : BitVec 3) (passes1 : BitVec 4)
  /-- R206. Runs 1 to 16 passes with A K-major into an accumulator. -/
  | tmmat (rd : RegIdx) (acc : BitVec 2) (ar br : BitVec 3) (passes1 : BitVec 4)
  /-- R210. Loads participating accumulator cells from memory. -/
  | tldc (acc : BitVec 2) (ef : BitVec 5) (rs1 : RegIdx)
  /-- R211. Converts and stores participating cells with tags and a status word. -/
  | tstc (rd : RegIdx) (acc : BitVec 2) (ef : BitVec 5) (sat scale : Bool) (rs1 rs2 : RegIdx)
  /-- R212. Promotes all accumulators and returns the plinth status word. -/
  | tstat (rd : RegIdx)
  /-- R209. Saves all 8,192 cells of an accumulator raw to 32 KiB. -/
  | tsave (rd : RegIdx) (acc : BitVec 2) (rs1 : RegIdx)
  /-- R210. Loads all 8,192 cells of an accumulator from 32 KiB. -/
  | tload (rd : RegIdx) (acc : BitVec 2) (rs1 : RegIdx)
  /-- R228. Releases and runs a copy descriptor on the quarter's copy engine. -/
  | cpy (rd rs1 : RegIdx)
  /-- R228. Releases and copies n bytes between two addresses. -/
  | cpyd (rd rs1 rs2 : RegIdx) (n : BitVec 32)
  /-- R230. Releases, reads a transfer notice and writes it to a receiver window's kick register. -/
  | cpyk (rd rs1 rs2 : RegIdx)
  /-- R232. Fills the lines of a range into their homes' L2 slices. -/
  | pref (rd rs1 : RegIdx) (n : BitVec 32)
  /-- R254. Releases at .sys and enqueues a launch record to a device queue. -/
  | launch (rd rs1 : RegIdx) (q : BitVec 4)
  /-- R255. Marks a stop point; with a stop pending, stops and saves the named state. -/
  | phint (lrtoff : BitVec 18) (livex livev : BitVec 16)
  /-- R93. Plain base load, performed after every earlier access of the hart. -/
  | baseLoad (w : LoadW) (rd rs1 : RegIdx) (imm : BitVec 12)
  /-- R93. Plain base store, performed after every earlier access of the hart. -/
  | baseStore (w : StoreW) (rs1 rs2 : RegIdx) (imm : BitVec 12)
  /-- R104. RV64A atomic performed as one read-modify-write at its home port. -/
  | amo (op : AmoOp) (dbl aq rl : Bool) (rd rs1 rs2 : RegIdx)
  /-- R104. Load-reserved that sets the hart's reservation on the line at its port. -/
  | lr (dbl aq rl : Bool) (rd rs1 : RegIdx)
  /-- R104. Store-conditional that succeeds only while the reservation is valid. -/
  | sc (dbl aq rl : Bool) (rd rs1 rs2 : RegIdx)
  /-- R103. Base fence acting as fence.s.md, fence.s.sys or no operation. -/
  | fence (fm pred succ : BitVec 4) (rd rs1 : RegIdx)
  /-- R103. Acts as fence.s.md. -/
  | fenceTso (rd rs1 : RegIdx)
  /-- R103. Acts as fence.s.md and invalidates the core's instruction cache. -/
  | fenceI (imm : BitVec 12) (rd rs1 : RegIdx)
  /-- R141. Acts as fence.s.md and invalidates nothing. -/
  | sfenceVma (rs1 rs2 : RegIdx)
  /-- R155. Reads or writes a CSR, with Dexa CSR clamps and illegal addresses trapping. -/
  | csrAccess (op : CsrOp) (csr : BitVec 12) (rd src : RegIdx)
  /-- R164. A dxtstat read or W1C write waits for the group's earlier tile commands to retire. -/
  | dxtstatAccess (op : CsrOp) (rd src : RegIdx)
  /-- R188. The value of a relaxed or acquire load returns and is written to its destination. -/
  | relaxedLoadReturn (acc : Nat)
  /-- R96. A post-buffer entry begins to drain as one relaxed request to its home. -/
  | entryDrain (entry : Nat)
  /-- R96. An entry begins to drain 256 N-cycles after acceptance. -/
  | drainTimeout (entry : Nat)
  /-- R96. The home's acknowledgement frees a drained entry. -/
  | postBufferFree (entry : Nat)
  /-- R84. A descriptor half is written at the bank; EN = 0 fails the waiters. -/
  | queueDescriptorWrite (q : Nat) (half : Nat) (w : Word)
  /-- R80. The home rebinds a granule to a core or save frame and releases waiting requests. -/
  | granuleRebind (g : Nat) (dest : RebindTo)
  /-- R80. The old core acknowledges that accesses accepted at the entry are performed. -/
  | localRangeWithdrawAck (g : Nat)
  /-- R393. With no acknowledgement in 4,096 N-cycles the granule is taken as lost and moved poisoned. -/
  | rebindAckTimeout (g : Nat)
  /-- R215. A ring write or tail advance for a stopping group is appended to the spill ring. -/
  | spillRingAppend (entry : SpillEnt)
  /-- R224. The engine sends one read and one write request per N-cycle for its active commands. -/
  | engineElementTransfer (op : Nat)
  /-- R224. After all writes, the engine advances any ring and completes the future. -/
  | engineCommandComplete (op : Nat)
  /-- R236. A waiting send enters when room appears or EN becomes 1. -/
  | waitingSendEnter (mb : Nat)
  /-- R296. A graph node that launches a grid. -/
  | kern (node : Nat)
  /-- R296. A graph node that launches a pipeline. -/
  | pipe (node : Nat)
  /-- R296. A graph node that runs a copy descriptor. -/
  | copyNode (node : Nat)
  /-- R298. A graph node that re-arms a range or launches EXIT according to a word. -/
  | cond (node : Nat)
  /-- R296. A graph node that performs a SIGNAL operation. -/
  | signalNode (node : Nat)
  /-- R299. A graph node that appends an entry to a host ring and may interrupt. -/
  | hring (node : Nat)
  /-- R296. A graph node that waits on a word as WAITSIG does. -/
  | wait (node : Nat)
  /-- R296. A graph node that finishes at once. -/
  | join (node : Nat)
  /-- R297. A finished node releases and decrements and launches its successors. -/
  | nodeFinish (node : Nat)
  /-- R290. Binds a queue to a host slot and wakes its owner if needed. -/
  | mapQueue (slot : Nat)
  /-- R74. Invalidates memory-side TLB entries and completes when affected requests are performed. -/
  | htlbinv (w : Word)
  /-- R392. Makes the home re-walk selected held misses, replaying, failing or keeping them. -/
  | hmissdone (w : Word)
  /-- R426. Resumes a halted queue past the faulted packet. -/
  | qctlSkip (q : Nat)
  /-- R426. Resumes a halted queue by re-reading and re-checking the faulted packet. -/
  | qctlRecheck (q : Nat)
  /-- R28. Changes duty modes for later instances and may lock MDUTY. -/
  | mdutyWrite (w : Word)
  /-- R287. Sets the queue table address and may lock it, flushing held log records. -/
  | qtbaseWrite (w : Word)
  /-- R314. Changes an interface's network-select entry under the drain of R107. -/
  | nstdataWrite (w : Word)
  /-- R289. A doorbell write sets WRIDX of the mapped queue and wakes its owner. -/
  | widxWrite (n : Nat)
  /-- R323. The host commands a reported parked block to be swapped now. -/
  | hscmdSwap (w : Word)
  /-- R323. The host commands a reported block to stay parked for another PARKLIM. -/
  | hscmdLeave (w : Word)
  /-- R324. A submitted request moves a page to host ownership. -/
  | pgreqToHost (w : Word)
  /-- R324. A submitted request moves a page to device ownership. -/
  | pgreqToDevice (w : Word)
  /-- R327. Returns received-frame slots to an Ethernet port. -/
  | rxretWrite (n : Nat)
  /-- R283. Writes a reservation class's BURST and RATE at E0. -/
  | reservationTableWrite (w : Word)
  /-- R7. A write to a register with no behaviour of its own stores per its access codes. -/
  | registerWrite (off : Nat) (w : Word)
  /-- R321. A host BAR4 access through a MODE 0 aperture reaches a virtual address. -/
  | apertureVirtual (n : Nat) (off : Nat) (wr : Bool) (data : List Byte)
  /-- R321. A host BAR4 access through a MODE 1 aperture reaches MC DRAM below translation. -/
  | aperturePhysical (n : Nat) (off : Nat) (wr : Bool) (data : List Byte)
  /-- R321. A host BAR4 access through a MODE 2 aperture reaches a home control block. -/
  | apertureControl (n : Nat) (off : Nat) (wr : Bool) (data : List Byte)
  /-- R326. A copy to a transmit window sends one Ethernet frame. -/
  | ethTransmit (frame : List Byte)
  /-- R327. A received frame is written to a slot and enqueued to RXQ, or dropped. -/
  | ethReceive (frame : List Byte)
  /-- R394. A patrol pass scrubs storage and clears the bank's Bloom filter. -/
  | scrubPatrol (bank : Nat)
  /-- R396. A hart consuming poison leaves rotation while its registers are scrubbed. -/
  | poisonConsume (reg : Nat)
  /-- R401. An interface receiving a death notice holds flits crossing the dead link. -/
  | deathNotice (link : Nat)
  /-- R335. A power manager lowers or raises PLEVEL and CLEVEL to keep its limits. -/
  | powerThrottle (mw : Nat)
  /-- R330. A wave reaching a DARK site is adopted and forwarded, or absorbed. -/
  | waveArrival (origin : Nat) (hops : Nat)
  /-- R333. The origin edge writes and measures a site's configuration. -/
  | siteLoaded (conf : List Byte)
  /-- R436. A site that fails to train, lock or be reached in time takes a failure STATE. -/
  | bringupTimeout (st : Nat)
  /-- R441. The ROM verifies the staged image and writes it to a flash slot or refuses it. -/
  | recoveryGo (w : Word)
  /-- R146. A fetched word that is no instruction (unassigned op, bad field, bad CSR address) raises cause 2 at its own address. -/
  | illegalInstruction (bits : Word)
  /-- R369. A fetch from window space, an edge home or a host home, or one that fails its home's checks, raises cause 1 before any instruction is decoded. -/
  | instructionAccessFault (cause : Nat) (sub : Nat) (addr : Word)
  /-- R141. The base integer, M, Zba, Zbb and F computational instructions, branches and jumps execute on a hart. -/
  | baseArithmetic (op : BaseOp)
  /-- R284. Each class's token bucket at an interface or MC is refilled at RATE up to BURST. -/
  | tokenBucketRefill (c : Nat)
  /-- R267. Clears the workspace values, OUT and RES and sets LIVE to 0. -/
  | gbClr
  /-- R258. Ends the hart once its earlier accesses complete and frees its held slot. -/
  | gend
  /-- R259. Makes the hart ineligible until the other eligible harts issue or 60 A-cycles pass. -/
  | yield
  /-- R199. Ends the group's lease once earlier tile commands retire and clears the plinth state. -/
  | trelease
  /-- R141. Waits until an interrupt, a due boundary delivery or a stop request. -/
  | wfi
  /-- R368. From U-mode traps to S-mode; from S-mode hands the hart to firmware, which ends it. -/
  | ecall
  /-- R367. Returns from an S-mode handler as the base defines. -/
  | sret
  /-- R369. A due boundary delivery is taken at the hart's next eligible issue opportunity. -/
  | boundaryDelivery
  /-- R218. An asynchronous operation writes its value into rd and clears the pending bit in one event. -/
  | futureCompletion
  /-- R374. A failing operation writes its failure word into rd and leaves the pending bit set. -/
  | futureFailure
  /-- R92. A port's acknowledgement completes a plain access at its hart. -/
  | plainAcknowledgement
  /-- R72. A request arriving at its home is checked, translated and performed or held. -/
  | homeRequest
  /-- R114. A traced store waiting at a full ring proceeds once RDIDX advances. -/
  | tracedStoreResume
  /-- R49. A miss record reaching the core parks the requester's group. -/
  | missRecordAtCore
  /-- R449. The scheduler core serves a miss record in hardware mode. -/
  | missService
  /-- R51. The home replays a page's held accesses in the defined order once it is resident. -/
  | missListReplay
  /-- R83. The bank ALU performs an operation on a line as one read-modify-write. -/
  | bankOperation
  /-- R85. The bank enqueues a value, hands it to a waiting dequeuer or holds it. -/
  | queueEnqueue
  /-- R85. The bank dequeues an entry or holds the dequeuer. -/
  | queueDequeue
  /-- R85. The bank returns TAIL minus HEAD. -/
  | queueLength
  /-- R249. An arrival is recorded at an object's stage and may complete the phase. -/
  | barrierArrival
  /-- R249. A block's partial arrives at a grid object's bank. -/
  | gridArrival
  /-- R251. The object's holder tests PHASE against a bwait token. -/
  | bwaitTest
  /-- R60. A waiter's deadline loan takes effect on, or ends at, non-arrived members. -/
  | deadlineLoan
  /-- R45. A compact hart meeting the migration conditions leaves rotation and requests a slot. -/
  | migrationStart
  /-- R46. The target dispatcher reserves a slot and answers, or declines. -/
  | migrationSlotRequest
  /-- R46. The source core sends the context message, or resumes the hart on a decline. -/
  | migrationSlotReply
  /-- R46. The target core places the arriving hart in its run queue. -/
  | migrationContextArrival
  /-- R48. Every 256 N-cycles the dispatcher may move one ready compact hart from BUSY to IDLE. -/
  | loadBalance
  /-- R48. dxload is refreshed every 64 N-cycles. -/
  | dxloadRefresh
  /-- R54. A group's parking limit expires; a swap starts or the host is told. -/
  | parklimExpiry
  /-- R54. Stops, saves and rebinds a block, frees its cores and launches the next block. -/
  | swap
  /-- R54. A stopping hart that issues HINTDIST instructions without a phint is fully saved. -/
  | hintdistExpiry
  /-- R306. A stop request reaches a hart and applies at a phint, a wait or a full save. -/
  | stopRequest
  /-- R58. An absent block is re-admitted, restored and its held entries replayed. -/
  | blockReadmission
  /-- R304. An earlier-tagged block waiting 4,096 N-cycles makes the latest running block stop. -/
  | preemptPolicy
  /-- R295. The scheduler core offers a ready block to clusters and a dispatcher places it. -/
  | blockAdmit
  /-- R196. A lease ends 4,096 A-cycles after its grant and the plinth re-arbitrates. -/
  | leaseTimeExpiry
  /-- R198. After 16 A-cycles the winner's tlease futures complete with 0. -/
  | leaseHandover
  /-- R206. The plinth accepts a tile command once its lines, lease and cycles suffice. -/
  | tileCommandAccept
  /-- R206. A tile command retires, pops its ring lines and completes its future. -/
  | tileCommandRetire
  /-- R202. A tring takes effect after earlier tile commands naming the ring retire. -/
  | tringEffect
  /-- R226. A copy engine starts its earliest-tagged queued command. -/
  | engineCommandStart
  /-- R231. A kick enters the receiver window's notice queue or waits. -/
  | kickArrival
  /-- R231. The receiver's engine accepts a queued transfer notice. -/
  | noticeAccept
  /-- R235. A message arriving at a mailbox port is delivered, waits or fails on NOWAIT. -/
  | mailboxDelivery
  /-- R237. A recvt's limit passes and it returns 0. -/
  | recvtTimeout
  /-- R259. A yielding hart becomes eligible after 60 A-cycles. -/
  | yieldTimeout
  /-- R303. The scheduler core writes a LAUNCHG packet into a device queue, or refuses it. -/
  | deviceLaunchEnqueue
  /-- R293. A NOP packet completes at dispatch. -/
  | nop
  /-- R293. A packet that launches a grid from a launch record. -/
  | launchg
  /-- R301. A packet that places an actor pipeline's stages from sink to source. -/
  | launchp
  /-- R297. A packet that starts a command graph. -/
  | graph
  /-- R294. A packet that runs a copy descriptor on engine 0 of the destination's cluster. -/
  | copy
  /-- R293. A SIGNAL packet that writes VALUE to the signal word. -/
  | signalWrite
  /-- R293. A SIGNAL packet that adds VALUE to the signal word. -/
  | signalAdd
  /-- R293. A SIGNAL packet that takes the signed maximum into the signal word. -/
  | signalMax
  /-- R294. A packet that blocks its queue until a word satisfies a comparison. -/
  | waitsig
  /-- R293. A packet that stores VALUE at ADDR. -/
  | write
  /-- R294. A packet that runs an indirect buffer of packets. -/
  | ib
  /-- R294. A completed packet releases, adds to its CSIG words and counts DONE and LATE. -/
  | packetComplete
  /-- R294. A bank notice of a write to a watched line makes the scheduler core re-test. -/
  | watchedLineNotice
  /-- R299. After COALT µs with entries pending, the host ring interrupt is sent. -/
  | hringCoalesceTimer
  /-- R320. A delayed completion interrupt is sent at the end of its µs. -/
  | doorbellInterrupt
  /-- R290. Unbinds a queue from its host slot after pending index writes apply. -/
  | unmapQueue
  /-- R308. Stops a job's blocks and records a pipeline's channel contents with cut markers. -/
  | consistentCut
  /-- R89. The handler transfers a page's ownership between device and host. -/
  | pageMigration
  /-- R322. E0 writes a posting into the host service ring when it has room and interrupts. -/
  | hsPost
  /-- R322. A delayed host service ring interrupt is sent at the end of its µs. -/
  | hsInterrupt
  /-- R430. Fences a cluster's scheduler core until module reset. -/
  | fenceWrite
  /-- R434. Tears down every grid of one ASID across the module. -/
  | ctxdown
  /-- R334. Starts building a signed attestation report from the nonce and MEAS values. -/
  | attctlGo
  /-- R334. The attestation report is complete and DONE is set. -/
  | attestationDone
  /-- R283. Edge firmware copies the reservation table to every interface and MC. -/
  | reservationTableCopy
  /-- R423. A host port sends vector 0 for new log records at most once per ms. -/
  | errorInterrupt
  /-- R396. After 64 A-cycles the hart re-enters rotation and takes cause 56. -/
  | registerScrubDone
  /-- R399. A flit CRC error makes the receiver discard and request a replay. -/
  | linkCrcError
  /-- R400. A link is declared dead by both ends and edge firmware notifies every interface. -/
  | linkDead
  /-- R401. Edge firmware rewrites NST entries away from the dead link and held flits are released. -/
  | nstReroute
  /-- R401. A request unacknowledged 65,536 N-cycles after a notice fails with SUB 15. -/
  | requestLossTimeout
  /-- R408. The comparator releases one copy of a matching request pair. -/
  | comparatorMatch
  /-- R409. The trailing hart lags 65,536 A-cycles and a mismatch is declared. -/
  | trailingTimeout
  /-- R418. The scheduler core retires a physical core and rebinds its windows. -/
  | coreRetire
  /-- R415. A block's own tag passing now delivers cause 58 once when enabled. -/
  | deadlineMissDetect
  /-- R420. A hart waiting continuously for 1 ms gets a valid wait-table entry. -/
  | waitEntryValid
  /-- R421. Every 1 ms a grid is tested and a hung grid delivers cause 59. -/
  | hangTest
  /-- R428. Every 50 µs a scheduler core increments HBEAT. -/
  | heartbeat
  /-- R428. Every 50 µs the watcher reads its neighbour's HBEAT. -/
  | watcherRead
  /-- R328. Every site enters DARK and registers take their reset values. -/
  | moduleReset
  /-- R332. The boot ROM verifies firmware slots and releases the edge chiplets or enters recovery. -/
  | bootVerify
  /-- R329. All edge chiplets launch a bring-up wave at T0. -/
  | waveLaunch
  /-- R317. A site's clocks lock and its time counts are loaded. -/
  | siteLocked
  /-- R328. A site's links are trained and it enters TRAINED. -/
  | linkTrained
  /-- R17. E0 writes the home map and NST defaults into every interface. -/
  | named
  /-- R328. E0's ready broadcast brings every site to READY. -/
  | readyBroadcast
  /-- R438. Edge firmware restarts bring-up from DARK with ATTEMPT raised. -/
  | bringupRestart
  /-- R441. RECCTL.RESET performs a module reset. -/
  | recoveryReset
  /-- R441. The root of trust builds a signed recovery report. -/
  | recoveryReport
  /-- R445. On a fatal error firmware freezes the part and writes the cast dump. -/
  | fatalFreeze
  /-- R263. The shared chisel unit takes a queued chisel instruction, computes it for its occupancy and frees the unit and the waiting hart. -/
  | chiselUnitFinish
  /-- R286. A non-conforming request that has waited its resource's ageing time is served as conforming with its tag taken as now minus 0x4000. -/
  | requestAgeing
  /-- R441. Verification and flash writing of a staged image end, and PHASE becomes 3 (accepted) or 4 (refused). -/
  | recoveryVerifyDone
deriving DecidableEq, Repr

end Sys2Proof
end

