-- ==== Sys2Proof/WellFormed.lean ====
section
/-! DEFINITION. Which terms of `Instr` are instructions or events of the part: the field values that R146, R191, R216,
R241, R261 and R279 leave legal, and the identities of events within the part's counts (R15, R17, R19, R62). -/

namespace Sys2Proof

/-- A rounding mode field of RV64F that is not reserved (5 and 6 are reserved). -/
def rmOk (rm : BitVec 3) : Bool := rm != 5#3 && rm != 6#3

/-- The element format codes of R148 that name a format: 0 to 16. -/
def efOk (ef : BitVec 5) : Bool := decide (ef.toNat ≤ 16)

/-- The narrow formats that vcvt may write (R150): EF 0 to 5 and 8 to 15. -/
def efNarrowOk (ef : BitVec 5) : Bool := decide (ef.toNat ≤ 5) || (decide (8 ≤ ef.toNat) && decide (ef.toNat ≤ 15))

/-- The formats that tldc may read (R154): .i32, .bf16, .f16 and .f32. -/
def efLdcOk (ef : BitVec 5) : Bool := ef == 6#5 || ef == 14#5 || ef == 15#5 || ef == 16#5

/-- The tcfg fields that R205 leaves legal. -/
def tcfgOk (width : BitVec 2) (int : Bool) (plog2 : BitVec 3) : Bool :=
  width != 3#2 && !(width == 2#2 && int) && !(decide (3 < plog2.toNat) && !int) && plog2 != 7#3

/-- The base operations that the encodings of the base admit. -/
def BaseOp.wf : BaseOp → Bool
  | .farith _ rm _ _ _ => rmOk rm
  | .fsqrt rm _ _ => rmOk rm
  | .ffused _ rm _ _ _ _ => rmOk rm
  | .fcvtToInt _ rm _ _ => rmOk rm
  | .fcvtFromInt _ rm _ _ => rmOk rm
  | _ => true

/-- The number of clusters, memory chiplets, homes and so on (R15, R17, R19). -/
def nClusters : Nat := 384
/-- Memory chiplets (R15). -/
def nMcs : Nat := 192
/-- Sites (R14). -/
def nSites : Nat := 576
/-- Edge chiplets (R18). -/
def nEdges : Nat := 16
/-- Physical cores of a cluster (R19). -/
def nPcores : Nat := 100
/-- Named windows of a cluster (R19). -/
def nWindows : Nat := 96
/-- Queue records (R287). -/
def nQueues : Nat := 10240
/-- Host slots (R289). -/
def nSlots : Nat := 256

/-- A home number that R63 assigns to a CC or an MC. -/
def isChipletHome (h : Nat) : Bool := decide (h < nClusters + nMcs)

/-- The check of one term: an instruction's fields, or an event's identities. -/
def Instr.wf : Instr → Bool
  | .vabs _ ty _ _ => ty != .n32
  | .vneg _ ty _ _ => ty != .n32
  | .vcvtToLaneType _ _ _ _ ef => efOk ef
  | .vcvtToNarrow _ _ _ _ ef => efNarrowOk ef
  | .vcvtToNarrowSat _ _ _ _ ef => efNarrowOk ef
  | .ftest rd rs1 => rd != rs1
  | .tcfg width int plog2 _ _ => tcfgOk width int plog2
  | .tldc _ ef _ => efLdcOk ef
  | .tstc _ _ ef _ scale _ rs2 => efOk ef && (scale || rs2 == 0#5)
  | .pref _ _ n => n != 0#32
  | .fence fm pred succ _ _ => !(fm == 8#4 && pred == 3#4 && succ == 3#4)
  | .csrAccess _ csr _ _ => csr != 0x8C3#12
  | .baseArithmetic op => op.wf
  | .queueDescriptorWrite q half _ => decide (q < 4096) && decide (half < 2)
  | .granuleRebind g _ => decide (g < 17)
  | .localRangeWithdrawAck g => decide (g < 17)
  | .rebindAckTimeout g => decide (g < 17)
  | .waitingSendEnter mb => decide (mb < 32)
  | .mapQueue slot => decide (slot < nSlots)
  | .qctlSkip q => decide (q < nQueues)
  | .qctlRecheck q => decide (q < nQueues)
  | .widxWrite n => decide (n < 2 ^ 32)
  | .rxretWrite n => decide (n < 65536)
  | .registerWrite off _ => decide (off < 2 ^ 47)
  | .apertureVirtual n off wr data | .aperturePhysical n off wr data =>
    decide (n < 16) && decide (off + data.length ≤ 2 ^ 32) && decide (data.length ≤ if wr then 512 else 4096)
  | .apertureControl n off wr data =>
    decide (n < 18) && decide (off + data.length ≤ if n < 16 then 2 ^ 32 else 2 ^ 21) && decide (data.length ≤ if wr then 512 else 4096)
  | .ethReceive frame => decide (frame.length ≤ 9216)
  | .scrubPatrol bank => decide (bank < 32)
  | .deathNotice link => decide (link < nSites * 10)
  | .bringupTimeout st => decide (7 ≤ st) && decide (st ≤ 12)
  | .waveArrival origin _ => decide (origin < nEdges)
  | .tokenBucketRefill c => decide (c < 64)
  | _ => true

/-- The check of one event's subject: what the turn of the schedule names as the thing the event happens to, within the
part's counts. An instruction of a hart has no subject of its own (the hart that issues is `cur`). -/
def Instr.subjOk (i : Instr) (n : Nat) : Bool :=
  match i with
  | .entryDrain _ | .drainTimeout _ | .postBufferFree _ => decide (n < nClusters)
  | .loadBalance | .dxloadRefresh | .fenceWrite | .heartbeat | .watcherRead => decide (n < nClusters)
  | .qctlSkip _ | .qctlRecheck _ => decide (n < nClusters)
  | .tracedStoreResume | .missListReplay | .htlbinv _ | .hmissdone _ => isChipletHome n
  | .queueDescriptorWrite _ _ _ | .scrubPatrol _ => decide (n < nMcs)
  | .granuleRebind _ _ | .localRangeWithdrawAck _ | .rebindAckTimeout _ | .noticeAccept | .waitingSendEnter _ =>
    decide (n < nClusters * nWindows)
  | .spillRingAppend _ | .coreRetire | .chiselUnitFinish => decide (n < nClusters * nPcores)
  | .preemptPolicy => decide (n < 16)
  | .leaseTimeExpiry | .leaseHandover | .tileCommandAccept | .tileCommandRetire => decide (n < nClusters * 4)
  | .engineCommandStart | .engineElementTransfer _ | .engineCommandComplete _ => decide (n < nClusters * 4)
  | .nop | .launchg | .launchp | .graph | .copy | .signalWrite | .signalAdd | .signalMax | .waitsig | .write | .ib
  | .mapQueue _ | .unmapQueue => decide (n < nQueues)
  | .mdutyWrite _ | .qtbaseWrite _ | .nstdataWrite _ | .hscmdSwap _ | .hscmdLeave _ | .pgreqToHost _ | .pgreqToDevice _ | .attctlGo =>
    decide (n < 5)
  | .doorbellInterrupt | .widxWrite _ => decide (n < nSlots)
  | .ctxdown => decide (n < 65536)
  | .ethTransmit _ | .ethReceive _ => decide (n < 32)
  | .rxretWrite _ => decide (n < 160)
  | .reservationTableWrite _ => decide (n < 320)
  | .registerWrite _ _ => decide (n < 1024)
  | .apertureVirtual _ _ _ _ | .aperturePhysical _ _ _ _ | .apertureControl _ _ _ _ | .errorInterrupt => decide (n < 4)
  | .linkCrcError => decide (n < nSites * 10)
  | .linkDead => decide (n < nSites * 13 + nEdges)
  | .requestLossTimeout => decide (n < nSites + nEdges)
  | .deathNotice _ | .nstReroute | .siteLocked | .linkTrained | .siteLoaded _ | .bringupTimeout _ =>
    decide (n < nSites + nEdges)
  | .powerThrottle _ => decide (n < nEdges)
  | .waveArrival _ _ => decide (n < nSites)
  | .fatalFreeze => decide (1 ≤ n) && decide (n ≤ 5)
  | .tokenBucketRefill _ => decide (n < nSites + nEdges + nMcs)
  | _ => true

/-- A term that is an instruction or an event of the part. -/
abbrev Instr.WellFormed (i : Instr) : Prop := i.wf = true

end Sys2Proof
end

