-- ==== Sys2Proof/Decode.lean ====
section
/-! DEFINITION. Decoding and encoding of instruction words: the formats of R145, the opcode maps R150 to R154 with the
illegal words of R142, R146, R191, R216, R241, R261 and R279, and the ratified base of R141. Decoding is total: a word
that is no instruction decodes to `illegalInstruction`, which raises cause 2 (R373). -/

namespace Sys2Proof

/-- The six fields that every format of R145 and of the base is cut from: [31:25], [24:20], [19:15], [14:12], [11:7]
and the major opcode [6:0]. -/
structure Fields where
  op7 : BitVec 7
  rs2 : BitVec 5
  rs1 : BitVec 5
  f3 : BitVec 3
  rd : BitVec 5
  opc : BitVec 7
deriving DecidableEq, Repr

/-- The word that holds the fields. -/
def Fields.word (f : Fields) : W32 := f.op7 ++ f.rs2 ++ f.rs1 ++ f.f3 ++ f.rd ++ f.opc

/-- The fields of a word. -/
def fieldsOf (w : W32) : Fields where
  op7 := w.extractLsb' 25 7
  rs2 := w.extractLsb' 20 5
  rs1 := w.extractLsb' 15 5
  f3 := w.extractLsb' 12 3
  rd := w.extractLsb' 7 5
  opc := w.extractLsb' 0 7

/-- op6 of DV, in [31:26] (R145). -/
def Fields.op6 (f : Fields) : BitVec 6 := f.op7.extractLsb' 1 6
/-- m of DV, bit 25 (R145). -/
def Fields.m (f : Fields) : Bool := f.op7.getLsbD 0
/-- op5 of DM and DX, in [31:27] (R145). -/
def Fields.op5 (f : Fields) : BitVec 5 := f.op7.extractLsb' 2 5
/-- xw of DX, in [26:25] (R145). -/
def Fields.xw (f : Fields) : BitVec 2 := f.op7.extractLsb' 0 2
/-- off7 of DM, in [26:20] (R145). -/
def Fields.off7 (f : Fields) : BitVec 7 := f.xw ++ f.rs2
/-- The I-type immediate of the base, in [31:20]. -/
def Fields.immI (f : Fields) : BitVec 12 := f.op7 ++ f.rs2
/-- The S-type immediate of the base, in [31:25] and [11:7]. -/
def Fields.immS (f : Fields) : BitVec 12 := f.op7 ++ f.rd
/-- The U-type immediate of the base, in [31:12]. -/
def Fields.immU (f : Fields) : BitVec 20 := f.op7 ++ f.rs2 ++ f.rs1 ++ f.f3
/-- Offset bits [12:1] of a branch. -/
def Fields.immB (f : Fields) : BitVec 12 :=
  f.op7.extractLsb' 6 1 ++ f.rd.extractLsb' 0 1 ++ f.op7.extractLsb' 0 6 ++ f.rd.extractLsb' 1 4
/-- Offset bits [20:1] of JAL. -/
def Fields.immJ (f : Fields) : BitVec 20 :=
  f.op7.extractLsb' 6 1 ++ f.rs1 ++ f.f3 ++ f.rs2.extractLsb' 0 1 ++ f.op7.extractLsb' 0 6 ++ f.rs2.extractLsb' 1 4

/-- A Bool as a one-bit field. -/
def bit1 (b : Bool) : BitVec 1 := if b then 1#1 else 0#1

/-! ## Codes of fields -/

/-- R147. -/
def laneTyOf (ty : BitVec 3) : Option LaneTy :=
  match ty.toNat with
  | 0 => some .i32
  | 1 => some .n32
  | 2 => some .f32
  | _ => none
/-- R147. -/
def laneTyCode : LaneTy → BitVec 3
  | .i32 => 0#3
  | .n32 => 1#3
  | .f32 => 2#3

/-- R149. -/
def scopeOf (s : BitVec 3) : Option Scope :=
  match s.toNat with
  | 0 => some .hart
  | 1 => some .core
  | 2 => some .cl
  | 3 => some .fd
  | 4 => some .md
  | 5 => some .sys
  | _ => none
/-- R149. -/
def scopeCode : Scope → BitVec 3
  | .hart => 0#3
  | .core => 1#3
  | .cl => 2#3
  | .fd => 3#3
  | .md => 4#3
  | .sys => 5#3

/-- R151, lrx. -/
def lrxWOf (f : BitVec 3) : Option LrxW :=
  match f.toNat with
  | 0 => some .b
  | 1 => some .h
  | 2 => some .w
  | 3 => some .d
  | 4 => some .bu
  | 5 => some .hu
  | 6 => some .wu
  | _ => none
/-- R151, lrx. -/
def lrxWCode : LrxW → BitVec 3
  | .b => 0#3
  | .h => 1#3
  | .w => 2#3
  | .d => 3#3
  | .bu => 4#3
  | .hu => 5#3
  | .wu => 6#3

/-- Zicsr. -/
def csrOpOf (f : BitVec 3) : Option CsrOp :=
  match f.toNat with
  | 1 => some .rw
  | 2 => some .rs
  | 3 => some .rc
  | 5 => some .rwi
  | 6 => some .rsi
  | 7 => some .rci
  | _ => none
/-- Zicsr. -/
def csrOpCode : CsrOp → BitVec 3
  | .rw => 1#3
  | .rs => 2#3
  | .rc => 3#3
  | .rwi => 5#3
  | .rsi => 6#3
  | .rci => 7#3

/-- RV64I branches. -/
def brOpOf (f : BitVec 3) : Option BrOp :=
  match f.toNat with
  | 0 => some .eq
  | 1 => some .ne
  | 4 => some .lt
  | 5 => some .ge
  | 6 => some .ltu
  | 7 => some .geu
  | _ => none
/-- RV64I branches. -/
def brOpCode : BrOp → BitVec 3
  | .eq => 0#3
  | .ne => 1#3
  | .lt => 4#3
  | .ge => 5#3
  | .ltu => 6#3
  | .geu => 7#3

/-- RV64A, [31:27]. -/
def amoOpOf (f : BitVec 5) : Option AmoOp :=
  match f.toNat with
  | 0x00 => some .add
  | 0x01 => some .swap
  | 0x04 => some .xor
  | 0x08 => some .or
  | 0x0C => some .and
  | 0x10 => some .min
  | 0x14 => some .max
  | 0x18 => some .minu
  | 0x1C => some .maxu
  | _ => none
/-- RV64A, [31:27]. -/
def amoOpCode : AmoOp → BitVec 5
  | .add => 0x00#5
  | .swap => 0x01#5
  | .xor => 0x04#5
  | .or => 0x08#5
  | .and => 0x0C#5
  | .min => 0x10#5
  | .max => 0x14#5
  | .minu => 0x18#5
  | .maxu => 0x1C#5

/-- op7 and f3 of the register-register operations, and whether they stand in OP-32. -/
def aluCode : AluOp → Bool × BitVec 7 × BitVec 3
  | .add => (false, 0x00#7, 0#3)
  | .sub => (false, 0x20#7, 0#3)
  | .sll => (false, 0x00#7, 1#3)
  | .slt => (false, 0x00#7, 2#3)
  | .sltu => (false, 0x00#7, 3#3)
  | .xor => (false, 0x00#7, 4#3)
  | .srl => (false, 0x00#7, 5#3)
  | .sra => (false, 0x20#7, 5#3)
  | .or => (false, 0x00#7, 6#3)
  | .and => (false, 0x00#7, 7#3)
  | .addw => (true, 0x00#7, 0#3)
  | .subw => (true, 0x20#7, 0#3)
  | .sllw => (true, 0x00#7, 1#3)
  | .srlw => (true, 0x00#7, 5#3)
  | .sraw => (true, 0x20#7, 5#3)
  | .mul => (false, 0x01#7, 0#3)
  | .mulh => (false, 0x01#7, 1#3)
  | .mulhsu => (false, 0x01#7, 2#3)
  | .mulhu => (false, 0x01#7, 3#3)
  | .div => (false, 0x01#7, 4#3)
  | .divu => (false, 0x01#7, 5#3)
  | .rem => (false, 0x01#7, 6#3)
  | .remu => (false, 0x01#7, 7#3)
  | .mulw => (true, 0x01#7, 0#3)
  | .divw => (true, 0x01#7, 4#3)
  | .divuw => (true, 0x01#7, 5#3)
  | .remw => (true, 0x01#7, 6#3)
  | .remuw => (true, 0x01#7, 7#3)
  | .sh1add => (false, 0x10#7, 2#3)
  | .sh2add => (false, 0x10#7, 4#3)
  | .sh3add => (false, 0x10#7, 6#3)
  | .adduw => (true, 0x04#7, 0#3)
  | .sh1adduw => (true, 0x10#7, 2#3)
  | .sh2adduw => (true, 0x10#7, 4#3)
  | .sh3adduw => (true, 0x10#7, 6#3)
  | .andn => (false, 0x20#7, 7#3)
  | .orn => (false, 0x20#7, 6#3)
  | .xnor => (false, 0x20#7, 4#3)
  | .min => (false, 0x05#7, 4#3)
  | .minu => (false, 0x05#7, 5#3)
  | .max => (false, 0x05#7, 6#3)
  | .maxu => (false, 0x05#7, 7#3)
  | .rol => (false, 0x30#7, 1#3)
  | .ror => (false, 0x30#7, 5#3)
  | .rolw => (true, 0x30#7, 1#3)
  | .rorw => (true, 0x30#7, 5#3)

/-- The operations of the OP major opcode. -/
def aluOf (op7 : BitVec 7) (f3 : BitVec 3) : Option AluOp :=
  match op7.toNat, f3.toNat with
  | 0x00, 0 => some .add
  | 0x20, 0 => some .sub
  | 0x00, 1 => some .sll
  | 0x00, 2 => some .slt
  | 0x00, 3 => some .sltu
  | 0x00, 4 => some .xor
  | 0x00, 5 => some .srl
  | 0x20, 5 => some .sra
  | 0x00, 6 => some .or
  | 0x00, 7 => some .and
  | 0x01, 0 => some .mul
  | 0x01, 1 => some .mulh
  | 0x01, 2 => some .mulhsu
  | 0x01, 3 => some .mulhu
  | 0x01, 4 => some .div
  | 0x01, 5 => some .divu
  | 0x01, 6 => some .rem
  | 0x01, 7 => some .remu
  | 0x10, 2 => some .sh1add
  | 0x10, 4 => some .sh2add
  | 0x10, 6 => some .sh3add
  | 0x20, 7 => some .andn
  | 0x20, 6 => some .orn
  | 0x20, 4 => some .xnor
  | 0x05, 4 => some .min
  | 0x05, 5 => some .minu
  | 0x05, 6 => some .max
  | 0x05, 7 => some .maxu
  | 0x30, 1 => some .rol
  | 0x30, 5 => some .ror
  | _, _ => none

/-- The operations of the OP-32 major opcode. -/
def aluWOf (op7 : BitVec 7) (f3 : BitVec 3) : Option AluOp :=
  match op7.toNat, f3.toNat with
  | 0x00, 0 => some .addw
  | 0x20, 0 => some .subw
  | 0x00, 1 => some .sllw
  | 0x00, 5 => some .srlw
  | 0x20, 5 => some .sraw
  | 0x01, 0 => some .mulw
  | 0x01, 4 => some .divw
  | 0x01, 5 => some .divuw
  | 0x01, 6 => some .remw
  | 0x01, 7 => some .remuw
  | 0x04, 0 => some .adduw
  | 0x10, 2 => some .sh1adduw
  | 0x10, 4 => some .sh2adduw
  | 0x10, 6 => some .sh3adduw
  | 0x30, 1 => some .rolw
  | 0x30, 5 => some .rorw
  | _, _ => none

/-- RV64F integer types in [24:20]. -/
def fintOf (r : BitVec 5) : Option FInt :=
  match r.toNat with
  | 0 => some .w
  | 1 => some .wu
  | 2 => some .l
  | 3 => some .lu
  | _ => none
/-- RV64F integer types in [24:20]. -/
def fintCode : FInt → BitVec 5
  | .w => 0#5
  | .wu => 1#5
  | .l => 2#5
  | .lu => 3#5

/-! ## Decoding -/

/-- An instruction that R146 leaves legal, or nothing. -/
def legal (i : Instr) : Option Instr := if i.wf then some i else none

/-- The DV rows (R150). -/
def decodeV (f : Fields) : Option Instr :=
  let m := f.m
  let vd := f.rd
  let vs1 := f.rs1
  let vs2 := f.rs2
  let ty := laneTyOf f.f3
  let typed (g : LaneTy → Instr) : Option Instr := ty.bind fun t => legal (g t)
  let typed1 (g : LaneTy → Instr) : Option Instr := if vs2 = 0#5 then typed g else none
  let plain (i : Instr) : Option Instr := if f.f3 = 0#3 then some i else none
  let plain1 (i : Instr) : Option Instr := if vs2 = 0#5 then plain i else none
  let float1 (i : Instr) : Option Instr := if vs2 = 0#5 ∧ f.f3 = 2#3 then some i else none
  let cmp (g : LaneTy → Bool → Instr) : Option Instr :=
    if vd = 0#5 then typed (g · false) else if vd = 1#5 then typed (g · true) else none
  let lane (i : BitVec 4 → Instr) : Option Instr :=
    if vs2.getLsbD 4 then none else plain (i (vs2.extractLsb' 0 4))
  match f.op6.toNat with
  | 0x00 => typed (.vadd m · vd vs1 vs2)
  | 0x01 => typed (.vsub m · vd vs1 vs2)
  | 0x02 => typed (.vmul m · vd vs1 vs2)
  | 0x03 => typed (.vmadd m · vd vs1 vs2)
  | 0x04 => typed (.vmsub m · vd vs1 vs2)
  | 0x05 => typed (.vmin m · vd vs1 vs2)
  | 0x06 => typed (.vmax m · vd vs1 vs2)
  | 0x07 => typed1 (.vabs m · vd vs1)
  | 0x08 => typed1 (.vneg m · vd vs1)
  | 0x09 => plain (.vand m vd vs1 vs2)
  | 0x0A => plain (.vor m vd vs1 vs2)
  | 0x0B => plain (.vxor m vd vs1 vs2)
  | 0x0C => plain1 (.vnot m vd vs1)
  | 0x0D => plain (.vsll m vd vs1 vs2)
  | 0x0E => plain (.vsrl m vd vs1 vs2)
  | 0x0F => plain (.vsra m vd vs1 vs2)
  | 0x10 => cmp (.vcmpeq m · · vs1 vs2)
  | 0x11 => cmp (.vcmplt m · · vs1 vs2)
  | 0x12 => cmp (.vcmple m · · vs1 vs2)
  | 0x13 => plain (.vsel m vd vs1 vs2)
  | 0x14 => float1 (.vrcp m vd vs1)
  | 0x15 => float1 (.vrsq m vd vs1)
  | 0x16 => float1 (.vexp2 m vd vs1)
  | 0x17 => float1 (.vlog2 m vd vs1)
  | 0x18 => typed (.vcvtToLaneType m · vd vs1 vs2)
  | 0x19 => typed (.vcvtToNarrow m · vd vs1 vs2)
  | 0x1A => typed (.vcvtToNarrowSat m · vd vs1 vs2)
  | 0x1B => some (.vquant m f.f3 vd vs1 vs2)
  | 0x1C => float1 (.vdequant m vd vs1)
  | 0x1D => float1 (.vamax m vd vs1)
  | 0x1E => typed1 (.vredsum m · vd vs1)
  | 0x1F => typed1 (.vredmax m · vd vs1)
  | 0x20 => typed1 (.vredmin m · vd vs1)
  | 0x21 => plain1 (.vbcast m vd vs1)
  | 0x22 => lane (.vextr m vd vs1)
  | 0x23 => lane (.vins m vd vs1)
  | 0x24 => plain (.vperm m vd vs1 vs2)
  | 0x25 => plain (.vslide m vd vs1 vs2)
  | 0x26 => plain (.vzip m vd vs1 vs2)
  | 0x27 => plain (.vunzip m vd vs1 vs2)
  | 0x28 => plain1 (.vmov m vd vs1)
  | _ => none

/-- The DM and DX rows (R151). -/
def decodeM (f : Fields) : Option Instr :=
  let rt := f.rd
  let rs1 := f.rs1
  let rs2 := f.rs2
  let off := f.off7
  let rx (g : Bool → Instr) : Option Instr :=
    if f.f3 = 0#3 then some (g false) else if f.f3 = 1#3 then some (g true) else none
  let rxX (g : Bool → Instr) : Option Instr := if f.xw = 0#2 then rx g else none
  let zero (i : Instr) : Option Instr := if f.f3 = 0#3 then some i else none
  match f.op5.toNat with
  | 0x00 => (lrxWOf f.f3).map (.lrx · rt rs1 off)
  | 0x01 => if f.f3.getLsbD 2 then none else some (.srx (f.f3.extractLsb' 0 2) rt rs1 off)
  | 0x02 => rx (.vld · rt rs1 off)
  | 0x03 => rx (.vst · rt rs1 off)
  | 0x04 => rxX (.vlds · rt rs1 rs2)
  | 0x05 => rxX (.vsts · rt rs1 rs2)
  | 0x06 => rxX (.vldx · rt rs1 rs2)
  | 0x07 => rxX (.vstx · rt rs1 rs2)
  | 0x08 => some (.vldl rt rs1 off f.f3)
  | 0x09 => some (.ldbit rt rs1 rs2 (f.xw ++ f.f3))
  | 0x0A => some (.stbit rt rs1 rs2 (f.xw ++ f.f3))
  | 0x0B => some (.vldbit rt rs1 rs2 (f.xw ++ f.f3))
  | 0x0C => some (.vstbit rt rs1 rs2 (f.xw ++ f.f3))
  | 0x0D => zero (.ldtag rt rs1 off)
  | 0x0E => zero (.sttag rt rs1 off)
  | _ => none

/-- The DS rows (R152, R261). -/
def decodeS (f : Fields) : Option Instr :=
  let rd := f.rd
  let rs1 := f.rs1
  let rs2 := f.rs2
  let sc (g : Scope → Instr) : Option Instr := (scopeOf f.f3).map g
  let sc1 (g : Scope → Instr) : Option Instr := if rs2 = 0#5 then sc g else none
  let scSt (g : Scope → Instr) : Option Instr := if rd = 0#5 then sc g else none
  let no (i : Instr) : Option Instr := if f.f3 = 0#3 then legal i else none
  let no1 (i : Instr) : Option Instr := if rs2 = 0#5 then no i else none
  let no11 (i : Instr) : Option Instr := if rd = 0#5 then no1 i else none
  match f.op7.toNat with
  | 0x00 => if rd = 0#5 ∧ rs1 = 0#5 then sc1 .fenceS else none
  | 0x01 => sc1 (.ldAqB · rd rs1)
  | 0x02 => sc1 (.ldAqH · rd rs1)
  | 0x03 => sc1 (.ldAqW · rd rs1)
  | 0x04 => sc1 (.ldAqD · rd rs1)
  | 0x05 => scSt (.stRlB · rs2 rs1)
  | 0x06 => scSt (.stRlH · rs2 rs1)
  | 0x07 => scSt (.stRlW · rs2 rs1)
  | 0x08 => scSt (.stRlD · rs2 rs1)
  | 0x10 => sc (.baddW · rd rs1 rs2)
  | 0x11 => sc (.baddD · rd rs1 rs2)
  | 0x12 => sc (.bfadd · rd rs1 rs2)
  | 0x13 => sc (.bminW · rd rs1 rs2)
  | 0x14 => sc (.bminD · rd rs1 rs2)
  | 0x15 => sc (.bminWu · rd rs1 rs2)
  | 0x16 => sc (.bminDu · rd rs1 rs2)
  | 0x17 => sc (.bmaxW · rd rs1 rs2)
  | 0x18 => sc (.bmaxD · rd rs1 rs2)
  | 0x19 => sc (.bmaxWu · rd rs1 rs2)
  | 0x1A => sc (.bmaxDu · rd rs1 rs2)
  | 0x1B => sc (.bfmin · rd rs1 rs2)
  | 0x1C => sc (.bfmax · rd rs1 rs2)
  | 0x1D => sc (.bxchgW · rd rs1 rs2)
  | 0x1E => sc (.bxchgD · rd rs1 rs2)
  | 0x1F => sc (.bcasW · rd rs1 rs2)
  | 0x20 => sc (.bcasD · rd rs1 rs2)
  | 0x21 => sc (.bvredAddI32 · rd rs1 rs2)
  | 0x22 => sc (.bvredAddF32 · rd rs1 rs2)
  | 0x23 => sc (.bvredMinI32 · rd rs1 rs2)
  | 0x24 => sc (.bvredMinF32 · rd rs1 rs2)
  | 0x25 => sc (.bvredMaxI32 · rd rs1 rs2)
  | 0x26 => sc (.bvredMaxF32 · rd rs1 rs2)
  | 0x27 => sc (.bqenq · rd rs1 rs2)
  | 0x28 => sc1 (.bqdeq · rd rs1)
  | 0x29 => sc1 (.bqlen · rd rs1)
  | 0x30 => sc1 (.bar · rd rs1)
  | 0x31 => sc1 (.barrive · rd rs1)
  | 0x32 => no1 (.bwait rd rs1)
  | 0x33 => sc (.barcSumI32 · rd rs1 rs2)
  | 0x34 => sc (.barcSumF32 · rd rs1 rs2)
  | 0x35 => sc (.barcMinI32 · rd rs1 rs2)
  | 0x36 => sc (.barcMinF32 · rd rs1 rs2)
  | 0x37 => sc (.barcMaxI32 · rd rs1 rs2)
  | 0x38 => sc (.barcMaxF32 · rd rs1 rs2)
  | 0x39 => sc (.barmax · rd rs1 rs2)
  | 0x40 => no11 (.fwait rs1)
  | 0x41 => no1 (.ftest rd rs1)
  | 0x42 => no11 (.fcancel rs1)
  | 0x43 => no1 (.fpass rd rs1)
  | 0x44 => no11 (.fwaitall rs1)
  | 0x50 => sc (.send · rd rs1 rs2)
  | 0x51 => sc (.sendp · rd rs1 rs2)
  | 0x52 => no1 (.recv rd rs1)
  | 0x53 => no (.recvt rd rs1 rs2)
  | 0x54 => if rd = 0#5 then no (.mbcfg rs2 rs1) else none
  | 0x55 => no1 (.mbpeek rd rs1)
  | _ => none

/-- The DC rows (R153, R261, R279). -/
def decodeC (f : Fields) : Option Instr :=
  let rd := f.rd
  let rs1 := f.rs1
  let rs2 := f.rs2
  let ifz (b : Bool) (i : Instr) : Option Instr := if b && f.f3 == 0#3 then some i else none
  match f.op7.toNat with
  | 0x00 => ifz (rd == 0#5) (.gbCfg rs1 rs2)
  | 0x01 => ifz (rd == 0#5 && rs1 == 0#5 && rs2 == 0#5) .gbClr
  | 0x02 => ifz (rd == 0#5 && rs2 == 0#5) (.gbLdf rs1)
  | 0x03 => ifz (rd == 0#5) (.gbAddm rs1 rs2)
  | 0x04 => ifz (rd == 0#5) (.gbSubm rs1 rs2)
  | 0x05 => ifz (rd == 0#5 && rs2 == 0#5) (.gbElim rs1)
  | 0x06 => ifz true (.gbEmit rd rs2 rs1)
  | 0x07 => ifz (rd == 0#5 && rs2 == 0#5) (.gbBel rs1)
  | 0x08 => ifz (rd == 0#5 && rs2 == 0#5) (.gbMean rs1)
  | 0x09 => ifz (rs1 == 0#5 && rs2 == 0#5) (.gbRes rd)
  | 0x0A => ifz (rd == 0#5 && rs2 == 0#5) (.gbLdw rs1)
  | 0x0B => ifz (rd == 0#5 && rs2 == 0#5) (.gbStw rs1)
  | 0x20 => ifz (rd == 0#5 && rs2 == 0#5) (.pwset rs1)
  | 0x21 => ifz (rd == 0#5 && rs2 == 0#5) (.pwclr rs1)
  | 0x22 => ifz true (.pwand rd rs1 rs2)
  | 0x23 => ifz true (.pwor rd rs1 rs2)
  | 0x24 => ifz (rs2 == 0#5) (.pwnot rd rs1)
  | 0x25 => ifz (rs2 == 0#5) (.pwpop rd rs1)
  | 0x30 => ifz (rd == 0#5 && rs1 == 0#5 && rs2 == 0#5) .gend
  | 0x31 => ifz (rd == 0#5 && rs1 == 0#5 && rs2 == 0#5) .yield
  | 0x32 => ifz (rd == 0#5 && rs2 == 0#5) (.migrate rs1)
  | _ => none

/-- The D64 rows (R154, R205, R216, R241, R261): the fields of the low word, and ext32. -/
def decodeD64 (f : Fields) (e : BitVec 32) : Option Instr :=
  let rd := f.rd
  let rs1 := f.rs1
  let rs2 := f.rs2
  let ok (b : Bool) (used : Nat) (i : Instr) : Option Instr :=
    if b && f.f3 == 0#3 && decide (e.toNat < 2 ^ used) then legal i else none
  let acc := e.extractLsb' 0 2
  match f.op7.toNat with
  | 0x00 => ok (rs1 == 0#5 && rs2 == 0#5) 0 (.tlease rd)
  | 0x01 => ok (rd == 0#5 && rs1 == 0#5 && rs2 == 0#5) 0 .trelease
  | 0x02 => ok (rd == 0#5 && rs1 == 0#5 && rs2 == 0#5) 8
      (.tcfg (e.extractLsb' 0 2) (e.getLsbD 2) (e.extractLsb' 3 3) (e.getLsbD 6) (e.getLsbD 7))
  | 0x03 => ok (rd == 0#5) 3 (.tring (e.extractLsb' 0 3) rs1 rs2)
  | 0x04 => ok (rd == 0#5 && rs2 == 0#5) 3 (.radv (e.extractLsb' 0 3) rs1)
  | 0x05 => ok (rd == 0#5 && rs1 == 0#5 && rs2 == 0#5) 2 (.tzero acc)
  | 0x06 => ok (rs1 == 0#5 && rs2 == 0#5) 12
      (.tmma rd acc (e.extractLsb' 2 3) (e.extractLsb' 5 3) (e.extractLsb' 8 4))
  | 0x07 => ok (rs1 == 0#5 && rs2 == 0#5) 12
      (.tmmat rd acc (e.extractLsb' 2 3) (e.extractLsb' 5 3) (e.extractLsb' 8 4))
  | 0x08 => ok (rd == 0#5 && rs2 == 0#5) 7 (.tldc acc (e.extractLsb' 2 5) rs1)
  | 0x09 => ok true 9 (.tstc rd acc (e.extractLsb' 2 5) (e.getLsbD 7) (e.getLsbD 8) rs1 rs2)
  | 0x0A => ok (rs1 == 0#5 && rs2 == 0#5) 0 (.tstat rd)
  | 0x0B => ok (rs2 == 0#5) 2 (.tsave rd acc rs1)
  | 0x0C => ok (rs2 == 0#5) 2 (.tload rd acc rs1)
  | 0x20 => ok (rs2 == 0#5) 0 (.cpy rd rs1)
  | 0x21 => ok true 32 (.cpyd rd rs1 rs2 e)
  | 0x22 => ok true 0 (.cpyk rd rs1 rs2)
  | 0x23 => ok (rs2 == 0#5) 32 (.pref rd rs1 e)
  | 0x24 => ok (rs2 == 0#5) 4 (.launch rd rs1 (e.extractLsb' 0 4))
  | 0x25 => some (.phint (f.rs2 ++ f.rs1 ++ f.f3 ++ f.rd) (e.extractLsb' 0 16) (e.extractLsb' 16 16))
  | _ => none

/-- The base loads. -/
def decodeLoad (f : Fields) : Option Instr :=
  (match f.f3.toNat with
   | 0 => some LoadW.b
   | 1 => some LoadW.h
   | 2 => some LoadW.w
   | 3 => some LoadW.d
   | 4 => some LoadW.bu
   | 5 => some LoadW.hu
   | 6 => some LoadW.wu
   | _ => none).map fun w => .baseLoad w f.rd f.rs1 f.immI

/-- The base stores. -/
def decodeStore (f : Fields) : Option Instr :=
  (match f.f3.toNat with
   | 0 => some StoreW.b
   | 1 => some StoreW.h
   | 2 => some StoreW.w
   | 3 => some StoreW.d
   | _ => none).map fun w => .baseStore w f.rs1 f.rs2 f.immS

/-- OP-IMM of RV64I and Zbb. -/
def decodeOpImm (f : Fields) : Option Instr :=
  let imm (o : ImmOp) : Option Instr := some (.baseArithmetic (.opImm o f.rd f.rs1 f.immI))
  let sh := f.immI.extractLsb' 0 6
  let shift (o : ShOp) : Option Instr := some (.baseArithmetic (.shift o f.rd f.rs1 sh))
  let un (o : UnOp) : Option Instr := some (.baseArithmetic (.unary o f.rd f.rs1))
  match f.f3.toNat with
  | 0 => imm .addi
  | 2 => imm .slti
  | 3 => imm .sltiu
  | 4 => imm .xori
  | 6 => imm .ori
  | 7 => imm .andi
  | 1 =>
    match (f.immI.extractLsb' 6 6).toNat with
    | 0x00 => shift .slli
    | 0x18 =>
      match sh.toNat with
      | 0 => un .clz
      | 1 => un .ctz
      | 2 => un .cpop
      | 4 => un .sextb
      | 5 => un .sexth
      | _ => none
    | _ => none
  | _ =>
    match (f.immI.extractLsb' 6 6).toNat with
    | 0x00 => shift .srli
    | 0x10 => shift .srai
    | 0x18 => shift .rori
    | 0x0A => if sh = 0x07#6 then un .orcb else none
    | 0x1A => if sh = 0x38#6 then un .rev8 else none
    | _ => none

/-- OP-IMM-32 of RV64I, Zba and Zbb. -/
def decodeOpImm32 (f : Fields) : Option Instr :=
  let shW (o : ShWOp) : Option Instr := some (.baseArithmetic (.shiftW o f.rd f.rs1 f.rs2))
  let un (o : UnOp) : Option Instr := some (.baseArithmetic (.unary o f.rd f.rs1))
  match f.f3.toNat with
  | 0 => some (.baseArithmetic (.opImm .addiw f.rd f.rs1 f.immI))
  | 1 =>
    if f.immI.extractLsb' 6 6 = 0x02#6 then
      some (.baseArithmetic (.shift .slliuw f.rd f.rs1 (f.immI.extractLsb' 0 6)))
    else
      match f.op7.toNat with
      | 0x00 => shW .slliw
      | 0x30 =>
        match f.rs2.toNat with
        | 0 => un .clzw
        | 1 => un .ctzw
        | 2 => un .cpopw
        | _ => none
      | _ => none
  | 5 =>
    match f.op7.toNat with
    | 0x00 => shW .srliw
    | 0x20 => shW .sraiw
    | 0x30 => shW .roriw
    | _ => none
  | _ => none

/-- AMO, LR and SC of RV64A. -/
def decodeAmo (f : Fields) : Option Instr :=
  let aq := f.op7.getLsbD 1
  let rl := f.op7.getLsbD 0
  let go (dbl : Bool) : Option Instr :=
    match f.op5.toNat with
    | 0x02 => if f.rs2 = 0#5 then some (.lr dbl aq rl f.rd f.rs1) else none
    | 0x03 => some (.sc dbl aq rl f.rd f.rs1 f.rs2)
    | _ => (amoOpOf f.op5).map (.amo · dbl aq rl f.rd f.rs1 f.rs2)
  match f.f3.toNat with
  | 2 => go false
  | 3 => go true
  | _ => none

/-- OP-FP of RV64F. -/
def decodeFp (f : Fields) : Option Instr :=
  let fop (o : BaseOp) : Option Instr := legal (.baseArithmetic o)
  let rm := f.f3
  match f.op7.toNat with
  | 0x00 => fop (.farith .add rm f.rd f.rs1 f.rs2)
  | 0x04 => fop (.farith .sub rm f.rd f.rs1 f.rs2)
  | 0x08 => fop (.farith .mul rm f.rd f.rs1 f.rs2)
  | 0x0C => fop (.farith .div rm f.rd f.rs1 f.rs2)
  | 0x2C => if f.rs2 = 0#5 then fop (.fsqrt rm f.rd f.rs1) else none
  | 0x10 =>
    match f.f3.toNat with
    | 0 => fop (.fpair .sgnj f.rd f.rs1 f.rs2)
    | 1 => fop (.fpair .sgnjn f.rd f.rs1 f.rs2)
    | 2 => fop (.fpair .sgnjx f.rd f.rs1 f.rs2)
    | _ => none
  | 0x14 =>
    match f.f3.toNat with
    | 0 => fop (.fpair .min f.rd f.rs1 f.rs2)
    | 1 => fop (.fpair .max f.rd f.rs1 f.rs2)
    | _ => none
  | 0x50 =>
    match f.f3.toNat with
    | 0 => fop (.fcmp .le f.rd f.rs1 f.rs2)
    | 1 => fop (.fcmp .lt f.rd f.rs1 f.rs2)
    | 2 => fop (.fcmp .eq f.rd f.rs1 f.rs2)
    | _ => none
  | 0x60 => (fintOf f.rs2).bind fun t => fop (.fcvtToInt t rm f.rd f.rs1)
  | 0x68 => (fintOf f.rs2).bind fun t => fop (.fcvtFromInt t rm f.rd f.rs1)
  | 0x70 =>
    if f.rs2 = 0#5 then
      match f.f3.toNat with
      | 0 => fop (.fmvXW f.rd f.rs1)
      | 1 => fop (.fclass f.rd f.rs1)
      | _ => none
    else none
  | 0x78 => if f.rs2 = 0#5 ∧ f.f3 = 0#3 then fop (.fmvWX f.rd f.rs1) else none
  | _ => none

/-- The fused operations of RV64F: rs3 in [31:27], the format field [26:25] 0. -/
def decodeFused (o : FFused) (f : Fields) : Option Instr :=
  if f.xw = 0#2 then legal (.baseArithmetic (.ffused o f.f3 f.rd f.rs1 f.rs2 f.op5)) else none

/-- SYSTEM: ECALL, EBREAK, SRET, WFI, SFENCE.VMA and Zicsr. MRET belongs to a mode no kernel hart reaches (R368). -/
def decodeSystem (f : Fields) : Option Instr :=
  if f.f3 = 0#3 then
    if f.op7 = 0x09#7 then
      if f.rd = 0#5 then some (.sfenceVma f.rs1 f.rs2) else none
    else if f.rd = 0#5 ∧ f.rs1 = 0#5 then
      match f.immI.toNat with
      | 0x000 => some .ecall
      | 0x001 => some (.baseArithmetic .ebreak)
      | 0x102 => some .sret
      | 0x105 => some .wfi
      | _ => none
    else none
  else
    (csrOpOf f.f3).bind fun o =>
      if f.immI = 0x8C3#12 then some (.dxtstatAccess o f.rd f.rs1) else some (.csrAccess o f.immI f.rd f.rs1)

/-- MISC-MEM: FENCE, FENCE.TSO and FENCE.I. -/
def decodeMiscMem (f : Fields) : Option Instr :=
  let fm := f.op7.extractLsb' 3 4
  let pred := f.immI.extractLsb' 4 4
  let succ := f.immI.extractLsb' 0 4
  match f.f3.toNat with
  | 0 =>
    if fm = 8#4 ∧ pred = 3#4 ∧ succ = 3#4 then some (.fenceTso f.rd f.rs1)
    else some (.fence fm pred succ f.rd f.rs1)
  | 1 => some (.fenceI f.immI f.rd f.rs1)
  | _ => none

/-- A 32-bit word of the base or of custom-0 to custom-3, by its major opcode. -/
def decodeFields (f : Fields) : Option Instr :=
  match f.opc.toNat with
  | 0x0B => decodeV f
  | 0x2B => decodeM f
  | 0x5B => decodeS f
  | 0x7B => decodeC f
  | 0x03 => decodeLoad f
  | 0x07 => if f.f3 = 2#3 then some (.baseLoad .fw f.rd f.rs1 f.immI) else none
  | 0x0F => decodeMiscMem f
  | 0x13 => decodeOpImm f
  | 0x17 => some (.baseArithmetic (.auipc f.rd f.immU))
  | 0x1B => decodeOpImm32 f
  | 0x23 => decodeStore f
  | 0x27 => if f.f3 = 2#3 then some (.baseStore .fw f.rs1 f.rs2 f.immS) else none
  | 0x2F => decodeAmo f
  | 0x33 => (aluOf f.op7 f.f3).map fun o => .baseArithmetic (.alu o f.rd f.rs1 f.rs2)
  | 0x37 => some (.baseArithmetic (.lui f.rd f.immU))
  | 0x3B =>
    if f.op7 = 0x04#7 ∧ f.rs2 = 0#5 ∧ f.f3 = 4#3 then some (.baseArithmetic (.unary .zexth f.rd f.rs1))
    else (aluWOf f.op7 f.f3).map fun o => .baseArithmetic (.alu o f.rd f.rs1 f.rs2)
  | 0x43 => decodeFused .madd f
  | 0x47 => decodeFused .msub f
  | 0x4B => decodeFused .nmsub f
  | 0x4F => decodeFused .nmadd f
  | 0x53 => decodeFp f
  | 0x63 => (brOpOf f.f3).map fun c => .baseArithmetic (.branch c f.rs1 f.rs2 f.immB)
  | 0x67 => if f.f3 = 0#3 then some (.baseArithmetic (.jalr f.rd f.rs1 f.immI)) else none
  | 0x6F => some (.baseArithmetic (.jal f.rd f.immJ))
  | 0x73 => decodeSystem f
  | _ => none

/-- The D64 major opcode (R145). -/
def d64Opc : BitVec 7 := 0x3F#7

/-- Whether a low word belongs to the D64 form, whose instruction is 8 bytes long (R145). -/
def isD64 (lo : W32) : Bool := lo.extractLsb' 0 7 == d64Opc

/-- An instruction word as it stands in memory: 4 bytes, or 8 bytes low word first (R145). -/
inductive Enc where
  | w32 (w : W32)
  | w64 (lo ext : W32)
deriving DecidableEq, Repr

/-- The instruction of an encoding, where it is one. -/
def decodeEnc : Enc → Option Instr
  | .w32 w => decodeFields (fieldsOf w)
  | .w64 lo ext => if isD64 lo then decodeD64 (fieldsOf lo) ext else none

/-- What stands at an address: the low word, the following word, and whether the address is a multiple of 8. A D64 word
at 4 modulo 8 is illegal and its stval is the low word alone (R145, R370). -/
def decode (aligned8 : Bool) (lo ext : W32) : Instr :=
  if isD64 lo then
    if aligned8 then (decodeEnc (.w64 lo ext)).getD (.illegalInstruction (ext ++ lo))
    else .illegalInstruction (lo.setWidth 64)
  else (decodeEnc (.w32 lo)).getD (.illegalInstruction (lo.setWidth 64))

/-- Bytes of an instruction of the given low word. -/
def instrLen (lo : W32) : Nat := if isD64 lo then 8 else 4

/-- The decoder on the numbering of the opcode table: bits 31..0 are the low word, bits 63..32 ext32. -/
def decodeTableWord (nbits w : Nat) : Option Instr :=
  let w := w % 2 ^ nbits
  let lo := BitVec.ofNat 32 w
  let ext := BitVec.ofNat 32 (w / 2 ^ 32)
  if isD64 lo then decodeEnc (.w64 lo ext) else decodeEnc (.w32 lo)

/-! ## Encoding -/

/-- A 32-bit encoding from its fields. -/
def enc32 (op7 : BitVec 7) (rs2 rs1 : BitVec 5) (f3 : BitVec 3) (rd : BitVec 5) (opc : BitVec 7) : Option Enc :=
  some (.w32 (Fields.word ⟨op7, rs2, rs1, f3, rd, opc⟩))

/-- A DV word (R150). -/
def encV (op6 : BitVec 6) (m : Bool) (vs2 vs1 : BitVec 5) (ty : BitVec 3) (vd : BitVec 5) : Option Enc :=
  enc32 (op6 ++ bit1 m) vs2 vs1 ty vd 0x0B#7

/-- A DM word (R151). -/
def encDM (op5 : BitVec 5) (off : BitVec 7) (rs1 : BitVec 5) (f3 : BitVec 3) (rt : BitVec 5) : Option Enc :=
  enc32 (op5 ++ off.extractLsb' 5 2) (off.extractLsb' 0 5) rs1 f3 rt 0x2B#7

/-- A DX word (R151). -/
def encDX (op5 : BitVec 5) (xw : BitVec 2) (rs2 rs1 : BitVec 5) (f3 : BitVec 3) (rt : BitVec 5) : Option Enc :=
  enc32 (op5 ++ xw) rs2 rs1 f3 rt 0x2B#7

/-- A DS word (R152). -/
def encS (op7 : BitVec 7) (rs2 rs1 : BitVec 5) (sc : BitVec 3) (rd : BitVec 5) : Option Enc :=
  enc32 op7 rs2 rs1 sc rd 0x5B#7

/-- A DC word (R153). -/
def encC (op7 : BitVec 7) (rs2 rs1 rd : BitVec 5) : Option Enc := enc32 op7 rs2 rs1 0#3 rd 0x7B#7

/-- A D64 instruction (R154). -/
def encD (op7 : BitVec 7) (rs2 rs1 rd : BitVec 5) (ext : BitVec 32) : Option Enc :=
  some (.w64 (Fields.word ⟨op7, rs2, rs1, 0#3, rd, d64Opc⟩) ext)

/-- A word with an I-type immediate. -/
def encI (imm : BitVec 12) (rs1 : BitVec 5) (f3 : BitVec 3) (rd : BitVec 5) (opc : BitVec 7) : Option Enc :=
  enc32 (imm.extractLsb' 5 7) (imm.extractLsb' 0 5) rs1 f3 rd opc

/-- A word with an S-type immediate. -/
def encSt (imm : BitVec 12) (rs2 rs1 : BitVec 5) (f3 : BitVec 3) (opc : BitVec 7) : Option Enc :=
  enc32 (imm.extractLsb' 5 7) rs2 rs1 f3 (imm.extractLsb' 0 5) opc

/-- The f3 code of a base load, and its major opcode. -/
def loadCode : LoadW → BitVec 3 × BitVec 7
  | .b => (0#3, 0x03#7)
  | .h => (1#3, 0x03#7)
  | .w => (2#3, 0x03#7)
  | .d => (3#3, 0x03#7)
  | .bu => (4#3, 0x03#7)
  | .hu => (5#3, 0x03#7)
  | .wu => (6#3, 0x03#7)
  | .fw => (2#3, 0x07#7)

/-- The f3 code of a base store, and its major opcode. -/
def storeCode : StoreW → BitVec 3 × BitVec 7
  | .b => (0#3, 0x23#7)
  | .h => (1#3, 0x23#7)
  | .w => (2#3, 0x23#7)
  | .d => (3#3, 0x23#7)
  | .fw => (2#3, 0x27#7)

/-- The immediate and f3 of a shift by 6 bits, and its major opcode. -/
def shCode : ShOp → BitVec 6 × BitVec 3 × BitVec 7
  | .slli => (0x00#6, 1#3, 0x13#7)
  | .srli => (0x00#6, 5#3, 0x13#7)
  | .srai => (0x10#6, 5#3, 0x13#7)
  | .rori => (0x18#6, 5#3, 0x13#7)
  | .slliuw => (0x02#6, 1#3, 0x1B#7)

/-- op7 and f3 of a word shift. -/
def shWCode : ShWOp → BitVec 7 × BitVec 3
  | .slliw => (0x00#7, 1#3)
  | .srliw => (0x00#7, 5#3)
  | .sraiw => (0x20#7, 5#3)
  | .roriw => (0x30#7, 5#3)

/-- op7, rs2, f3 and major opcode of a one-operand operation. -/
def unCode : UnOp → BitVec 7 × BitVec 5 × BitVec 3 × BitVec 7
  | .clz => (0x30#7, 0#5, 1#3, 0x13#7)
  | .ctz => (0x30#7, 1#5, 1#3, 0x13#7)
  | .cpop => (0x30#7, 2#5, 1#3, 0x13#7)
  | .clzw => (0x30#7, 0#5, 1#3, 0x1B#7)
  | .ctzw => (0x30#7, 1#5, 1#3, 0x1B#7)
  | .cpopw => (0x30#7, 2#5, 1#3, 0x1B#7)
  | .sextb => (0x30#7, 4#5, 1#3, 0x13#7)
  | .sexth => (0x30#7, 5#5, 1#3, 0x13#7)
  | .zexth => (0x04#7, 0#5, 4#3, 0x3B#7)
  | .orcb => (0x14#7, 7#5, 5#3, 0x13#7)
  | .rev8 => (0x35#7, 24#5, 5#3, 0x13#7)

/-- f3 of an immediate operation and its major opcode. -/
def immCode : ImmOp → BitVec 3 × BitVec 7
  | .addi => (0#3, 0x13#7)
  | .slti => (2#3, 0x13#7)
  | .sltiu => (3#3, 0x13#7)
  | .xori => (4#3, 0x13#7)
  | .ori => (6#3, 0x13#7)
  | .andi => (7#3, 0x13#7)
  | .addiw => (0#3, 0x1B#7)

/-- The base computational encodings. -/
def encodeBase : BaseOp → Option Enc
  | .lui rd imm =>
    enc32 (imm.extractLsb' 13 7) (imm.extractLsb' 8 5) (imm.extractLsb' 3 5) (imm.extractLsb' 0 3) rd 0x37#7
  | .auipc rd imm =>
    enc32 (imm.extractLsb' 13 7) (imm.extractLsb' 8 5) (imm.extractLsb' 3 5) (imm.extractLsb' 0 3) rd 0x17#7
  | .jal rd imm =>
    enc32 (imm.extractLsb' 19 1 ++ imm.extractLsb' 4 6) (imm.extractLsb' 0 4 ++ imm.extractLsb' 10 1)
      (imm.extractLsb' 14 5) (imm.extractLsb' 11 3) rd 0x6F#7
  | .jalr rd rs1 imm => encI imm rs1 0#3 rd 0x67#7
  | .branch c rs1 rs2 imm =>
    enc32 (imm.extractLsb' 11 1 ++ imm.extractLsb' 4 6) rs2 rs1 (brOpCode c)
      (imm.extractLsb' 0 4 ++ imm.extractLsb' 10 1) 0x63#7
  | .opImm o rd rs1 imm => encI imm rs1 (immCode o).1 rd (immCode o).2
  | .shift o rd rs1 sh => encI ((shCode o).1 ++ sh) rs1 (shCode o).2.1 rd (shCode o).2.2
  | .shiftW o rd rs1 sh => enc32 (shWCode o).1 sh rs1 (shWCode o).2 rd 0x1B#7
  | .alu o rd rs1 rs2 => enc32 (aluCode o).2.1 rs2 rs1 (aluCode o).2.2 rd (if (aluCode o).1 then 0x3B#7 else 0x33#7)
  | .unary o rd rs1 => enc32 (unCode o).1 (unCode o).2.1 rs1 (unCode o).2.2.1 rd (unCode o).2.2.2
  | .farith o rm rd rs1 rs2 =>
    enc32 (match o with | .add => 0x00#7 | .sub => 0x04#7 | .mul => 0x08#7 | .div => 0x0C#7) rs2 rs1 rm rd 0x53#7
  | .fsqrt rm rd rs1 => enc32 0x2C#7 0#5 rs1 rm rd 0x53#7
  | .ffused o rm rd rs1 rs2 rs3 =>
    enc32 (rs3 ++ 0#2) rs2 rs1 rm rd
      (match o with | .madd => 0x43#7 | .msub => 0x47#7 | .nmsub => 0x4B#7 | .nmadd => 0x4F#7)
  | .fpair o rd rs1 rs2 =>
    match o with
    | .sgnj => enc32 0x10#7 rs2 rs1 0#3 rd 0x53#7
    | .sgnjn => enc32 0x10#7 rs2 rs1 1#3 rd 0x53#7
    | .sgnjx => enc32 0x10#7 rs2 rs1 2#3 rd 0x53#7
    | .min => enc32 0x14#7 rs2 rs1 0#3 rd 0x53#7
    | .max => enc32 0x14#7 rs2 rs1 1#3 rd 0x53#7
  | .fcmp o rd rs1 rs2 =>
    enc32 0x50#7 rs2 rs1 (match o with | .le => 0#3 | .lt => 1#3 | .eq => 2#3) rd 0x53#7
  | .fcvtToInt t rm rd rs1 => enc32 0x60#7 (fintCode t) rs1 rm rd 0x53#7
  | .fcvtFromInt t rm rd rs1 => enc32 0x68#7 (fintCode t) rs1 rm rd 0x53#7
  | .fmvXW rd rs1 => enc32 0x70#7 0#5 rs1 0#3 rd 0x53#7
  | .fmvWX rd rs1 => enc32 0x78#7 0#5 rs1 0#3 rd 0x53#7
  | .fclass rd rs1 => enc32 0x70#7 0#5 rs1 1#3 rd 0x53#7
  | .ebreak => enc32 0#7 1#5 0#5 0#3 0#5 0x73#7

/-- The AMO word of a width. -/
def encAmo (op5 : BitVec 5) (dbl aq rl : Bool) (rs2 rs1 rd : BitVec 5) : Option Enc :=
  enc32 (op5 ++ bit1 aq ++ bit1 rl) rs2 rs1 (if dbl then 3#3 else 2#3) rd 0x2F#7

/-- The encoding of an instruction (R145, R150 to R154, R141); events of the part, and the two rows that stand for
words that are no instruction, have none. -/
def encode : Instr → Option Enc
  | .vadd m ty vd vs1 vs2 => encV 0x00#6 m vs2 vs1 (laneTyCode ty) vd
  | .vsub m ty vd vs1 vs2 => encV 0x01#6 m vs2 vs1 (laneTyCode ty) vd
  | .vmul m ty vd vs1 vs2 => encV 0x02#6 m vs2 vs1 (laneTyCode ty) vd
  | .vmadd m ty vd vs1 vs2 => encV 0x03#6 m vs2 vs1 (laneTyCode ty) vd
  | .vmsub m ty vd vs1 vs2 => encV 0x04#6 m vs2 vs1 (laneTyCode ty) vd
  | .vmin m ty vd vs1 vs2 => encV 0x05#6 m vs2 vs1 (laneTyCode ty) vd
  | .vmax m ty vd vs1 vs2 => encV 0x06#6 m vs2 vs1 (laneTyCode ty) vd
  | .vabs m ty vd vs1 => encV 0x07#6 m 0#5 vs1 (laneTyCode ty) vd
  | .vneg m ty vd vs1 => encV 0x08#6 m 0#5 vs1 (laneTyCode ty) vd
  | .vand m vd vs1 vs2 => encV 0x09#6 m vs2 vs1 0#3 vd
  | .vor m vd vs1 vs2 => encV 0x0A#6 m vs2 vs1 0#3 vd
  | .vxor m vd vs1 vs2 => encV 0x0B#6 m vs2 vs1 0#3 vd
  | .vnot m vd vs1 => encV 0x0C#6 m 0#5 vs1 0#3 vd
  | .vsll m vd vs1 vs2 => encV 0x0D#6 m vs2 vs1 0#3 vd
  | .vsrl m vd vs1 vs2 => encV 0x0E#6 m vs2 vs1 0#3 vd
  | .vsra m vd vs1 vs2 => encV 0x0F#6 m vs2 vs1 0#3 vd
  | .vcmpeq m ty c vs1 vs2 => encV 0x10#6 m vs2 vs1 (laneTyCode ty) (0#4 ++ bit1 c)
  | .vcmplt m ty c vs1 vs2 => encV 0x11#6 m vs2 vs1 (laneTyCode ty) (0#4 ++ bit1 c)
  | .vcmple m ty c vs1 vs2 => encV 0x12#6 m vs2 vs1 (laneTyCode ty) (0#4 ++ bit1 c)
  | .vsel m vd vs1 vs2 => encV 0x13#6 m vs2 vs1 0#3 vd
  | .vrcp m vd vs1 => encV 0x14#6 m 0#5 vs1 2#3 vd
  | .vrsq m vd vs1 => encV 0x15#6 m 0#5 vs1 2#3 vd
  | .vexp2 m vd vs1 => encV 0x16#6 m 0#5 vs1 2#3 vd
  | .vlog2 m vd vs1 => encV 0x17#6 m 0#5 vs1 2#3 vd
  | .vcvtToLaneType m ty vd vs1 ef => encV 0x18#6 m ef vs1 (laneTyCode ty) vd
  | .vcvtToNarrow m ty vd vs1 ef => encV 0x19#6 m ef vs1 (laneTyCode ty) vd
  | .vcvtToNarrowSat m ty vd vs1 ef => encV 0x1A#6 m ef vs1 (laneTyCode ty) vd
  | .vquant m q vd vs1 rs2 => encV 0x1B#6 m rs2 vs1 q vd
  | .vdequant m vd vs1 => encV 0x1C#6 m 0#5 vs1 2#3 vd
  | .vamax m vd vs1 => encV 0x1D#6 m 0#5 vs1 2#3 vd
  | .vredsum m ty vd vs1 => encV 0x1E#6 m 0#5 vs1 (laneTyCode ty) vd
  | .vredmax m ty vd vs1 => encV 0x1F#6 m 0#5 vs1 (laneTyCode ty) vd
  | .vredmin m ty vd vs1 => encV 0x20#6 m 0#5 vs1 (laneTyCode ty) vd
  | .vbcast m vd rs1 => encV 0x21#6 m 0#5 rs1 0#3 vd
  | .vextr m rd vs1 lane => encV 0x22#6 m (0#1 ++ lane) vs1 0#3 rd
  | .vins m vd rs1 lane => encV 0x23#6 m (0#1 ++ lane) rs1 0#3 vd
  | .vperm m vd vs1 vs2 => encV 0x24#6 m vs2 vs1 0#3 vd
  | .vslide m vd vs1 n => encV 0x25#6 m n vs1 0#3 vd
  | .vzip m vd vs1 vs2 => encV 0x26#6 m vs2 vs1 0#3 vd
  | .vunzip m vd vs1 vs2 => encV 0x27#6 m vs2 vs1 0#3 vd
  | .vmov m vd vs1 => encV 0x28#6 m 0#5 vs1 0#3 vd
  | .lrx w rd rs1 off => encDM 0x00#5 off rs1 (lrxWCode w) rd
  | .srx w rt rs1 off => encDM 0x01#5 off rs1 (0#1 ++ w) rt
  | .vld rx v rs1 off => encDM 0x02#5 off rs1 (0#2 ++ bit1 rx) v
  | .vst rx v rs1 off => encDM 0x03#5 off rs1 (0#2 ++ bit1 rx) v
  | .vlds rx v rs1 rs2 => encDX 0x04#5 0#2 rs2 rs1 (0#2 ++ bit1 rx) v
  | .vsts rx v rs1 rs2 => encDX 0x05#5 0#2 rs2 rs1 (0#2 ++ bit1 rx) v
  | .vldx rx v rs1 vs2 => encDX 0x06#5 0#2 vs2 rs1 (0#2 ++ bit1 rx) v
  | .vstx rx v rs1 vs2 => encDX 0x07#5 0#2 vs2 rs1 (0#2 ++ bit1 rx) v
  | .vldl vd rs1 off seg => encDM 0x08#5 off rs1 seg vd
  | .ldbit r rs1 rs2 w => encDX 0x09#5 (w.extractLsb' 3 2) rs2 rs1 (w.extractLsb' 0 3) r
  | .stbit r rs1 rs2 w => encDX 0x0A#5 (w.extractLsb' 3 2) rs2 rs1 (w.extractLsb' 0 3) r
  | .vldbit r rs1 rs2 w => encDX 0x0B#5 (w.extractLsb' 3 2) rs2 rs1 (w.extractLsb' 0 3) r
  | .vstbit r rs1 rs2 w => encDX 0x0C#5 (w.extractLsb' 3 2) rs2 rs1 (w.extractLsb' 0 3) r
  | .ldtag r rs1 off => encDM 0x0D#5 off rs1 0#3 r
  | .sttag r rs1 off => encDM 0x0E#5 off rs1 0#3 r
  | .fenceS sc => encS 0x00#7 0#5 0#5 (scopeCode sc) 0#5
  | .ldAqB sc rd rs1 => encS 0x01#7 0#5 rs1 (scopeCode sc) rd
  | .ldAqH sc rd rs1 => encS 0x02#7 0#5 rs1 (scopeCode sc) rd
  | .ldAqW sc rd rs1 => encS 0x03#7 0#5 rs1 (scopeCode sc) rd
  | .ldAqD sc rd rs1 => encS 0x04#7 0#5 rs1 (scopeCode sc) rd
  | .stRlB sc rs2 rs1 => encS 0x05#7 rs2 rs1 (scopeCode sc) 0#5
  | .stRlH sc rs2 rs1 => encS 0x06#7 rs2 rs1 (scopeCode sc) 0#5
  | .stRlW sc rs2 rs1 => encS 0x07#7 rs2 rs1 (scopeCode sc) 0#5
  | .stRlD sc rs2 rs1 => encS 0x08#7 rs2 rs1 (scopeCode sc) 0#5
  | .baddW sc rd rs1 rs2 => encS 0x10#7 rs2 rs1 (scopeCode sc) rd
  | .baddD sc rd rs1 rs2 => encS 0x11#7 rs2 rs1 (scopeCode sc) rd
  | .bfadd sc rd rs1 rs2 => encS 0x12#7 rs2 rs1 (scopeCode sc) rd
  | .bminW sc rd rs1 rs2 => encS 0x13#7 rs2 rs1 (scopeCode sc) rd
  | .bminD sc rd rs1 rs2 => encS 0x14#7 rs2 rs1 (scopeCode sc) rd
  | .bminWu sc rd rs1 rs2 => encS 0x15#7 rs2 rs1 (scopeCode sc) rd
  | .bminDu sc rd rs1 rs2 => encS 0x16#7 rs2 rs1 (scopeCode sc) rd
  | .bmaxW sc rd rs1 rs2 => encS 0x17#7 rs2 rs1 (scopeCode sc) rd
  | .bmaxD sc rd rs1 rs2 => encS 0x18#7 rs2 rs1 (scopeCode sc) rd
  | .bmaxWu sc rd rs1 rs2 => encS 0x19#7 rs2 rs1 (scopeCode sc) rd
  | .bmaxDu sc rd rs1 rs2 => encS 0x1A#7 rs2 rs1 (scopeCode sc) rd
  | .bfmin sc rd rs1 rs2 => encS 0x1B#7 rs2 rs1 (scopeCode sc) rd
  | .bfmax sc rd rs1 rs2 => encS 0x1C#7 rs2 rs1 (scopeCode sc) rd
  | .bxchgW sc rd rs1 rs2 => encS 0x1D#7 rs2 rs1 (scopeCode sc) rd
  | .bxchgD sc rd rs1 rs2 => encS 0x1E#7 rs2 rs1 (scopeCode sc) rd
  | .bcasW sc rd rs1 rs2 => encS 0x1F#7 rs2 rs1 (scopeCode sc) rd
  | .bcasD sc rd rs1 rs2 => encS 0x20#7 rs2 rs1 (scopeCode sc) rd
  | .bvredAddI32 sc rd rs1 rs2 => encS 0x21#7 rs2 rs1 (scopeCode sc) rd
  | .bvredAddF32 sc rd rs1 rs2 => encS 0x22#7 rs2 rs1 (scopeCode sc) rd
  | .bvredMinI32 sc rd rs1 rs2 => encS 0x23#7 rs2 rs1 (scopeCode sc) rd
  | .bvredMinF32 sc rd rs1 rs2 => encS 0x24#7 rs2 rs1 (scopeCode sc) rd
  | .bvredMaxI32 sc rd rs1 rs2 => encS 0x25#7 rs2 rs1 (scopeCode sc) rd
  | .bvredMaxF32 sc rd rs1 rs2 => encS 0x26#7 rs2 rs1 (scopeCode sc) rd
  | .bqenq sc rd rs1 rs2 => encS 0x27#7 rs2 rs1 (scopeCode sc) rd
  | .bqdeq sc rd rs1 => encS 0x28#7 0#5 rs1 (scopeCode sc) rd
  | .bqlen sc rd rs1 => encS 0x29#7 0#5 rs1 (scopeCode sc) rd
  | .bar sc rd rs1 => encS 0x30#7 0#5 rs1 (scopeCode sc) rd
  | .barrive sc rd rs1 => encS 0x31#7 0#5 rs1 (scopeCode sc) rd
  | .bwait rd rs1 => encS 0x32#7 0#5 rs1 0#3 rd
  | .barcSumI32 sc rd rs1 rs2 => encS 0x33#7 rs2 rs1 (scopeCode sc) rd
  | .barcSumF32 sc rd rs1 rs2 => encS 0x34#7 rs2 rs1 (scopeCode sc) rd
  | .barcMinI32 sc rd rs1 rs2 => encS 0x35#7 rs2 rs1 (scopeCode sc) rd
  | .barcMinF32 sc rd rs1 rs2 => encS 0x36#7 rs2 rs1 (scopeCode sc) rd
  | .barcMaxI32 sc rd rs1 rs2 => encS 0x37#7 rs2 rs1 (scopeCode sc) rd
  | .barcMaxF32 sc rd rs1 rs2 => encS 0x38#7 rs2 rs1 (scopeCode sc) rd
  | .barmax sc rd rs1 rs2 => encS 0x39#7 rs2 rs1 (scopeCode sc) rd
  | .fwait rs1 => encS 0x40#7 0#5 rs1 0#3 0#5
  | .ftest rd rs1 => encS 0x41#7 0#5 rs1 0#3 rd
  | .fcancel rs1 => encS 0x42#7 0#5 rs1 0#3 0#5
  | .fpass rd rs1 => encS 0x43#7 0#5 rs1 0#3 rd
  | .fwaitall rs1 => encS 0x44#7 0#5 rs1 0#3 0#5
  | .send sc rd rs1 rs2 => encS 0x50#7 rs2 rs1 (scopeCode sc) rd
  | .sendp sc rd rs1 rs2 => encS 0x51#7 rs2 rs1 (scopeCode sc) rd
  | .recv rd rs1 => encS 0x52#7 0#5 rs1 0#3 rd
  | .recvt rd rs1 rs2 => encS 0x53#7 rs2 rs1 0#3 rd
  | .mbcfg rs2 rs1 => encS 0x54#7 rs2 rs1 0#3 0#5
  | .mbpeek rd rs1 => encS 0x55#7 0#5 rs1 0#3 rd
  | .gbCfg rs1 rs2 => encC 0x00#7 rs2 rs1 0#5
  | .gbClr => encC 0x01#7 0#5 0#5 0#5
  | .gbLdf rs1 => encC 0x02#7 0#5 rs1 0#5
  | .gbAddm rs1 rs2 => encC 0x03#7 rs2 rs1 0#5
  | .gbSubm rs1 rs2 => encC 0x04#7 rs2 rs1 0#5
  | .gbElim rs1 => encC 0x05#7 0#5 rs1 0#5
  | .gbEmit rd rs2 rs1 => encC 0x06#7 rs2 rs1 rd
  | .gbBel rs1 => encC 0x07#7 0#5 rs1 0#5
  | .gbMean rs1 => encC 0x08#7 0#5 rs1 0#5
  | .gbRes rd => encC 0x09#7 0#5 0#5 rd
  | .gbLdw rs1 => encC 0x0A#7 0#5 rs1 0#5
  | .gbStw rs1 => encC 0x0B#7 0#5 rs1 0#5
  | .pwset rs1 => encC 0x20#7 0#5 rs1 0#5
  | .pwclr rs1 => encC 0x21#7 0#5 rs1 0#5
  | .pwand d a b => encC 0x22#7 b a d
  | .pwor d a b => encC 0x23#7 b a d
  | .pwnot d a => encC 0x24#7 0#5 a d
  | .pwpop rd rs1 => encC 0x25#7 0#5 rs1 rd
  | .gend => encC 0x30#7 0#5 0#5 0#5
  | .yield => encC 0x31#7 0#5 0#5 0#5
  | .migrate rs1 => encC 0x32#7 0#5 rs1 0#5
  | .tlease rd => encD 0x00#7 0#5 0#5 rd 0#32
  | .trelease => encD 0x01#7 0#5 0#5 0#5 0#32
  | .tcfg width int plog2 tra chk =>
    encD 0x02#7 0#5 0#5 0#5 (0#24 ++ bit1 chk ++ bit1 tra ++ plog2 ++ bit1 int ++ width)
  | .tring ring rs1 rs2 => encD 0x03#7 rs2 rs1 0#5 (0#29 ++ ring)
  | .radv ring rs1 => encD 0x04#7 0#5 rs1 0#5 (0#29 ++ ring)
  | .tzero acc => encD 0x05#7 0#5 0#5 0#5 (0#30 ++ acc)
  | .tmma rd acc ar br p => encD 0x06#7 0#5 0#5 rd (0#20 ++ p ++ br ++ ar ++ acc)
  | .tmmat rd acc ar br p => encD 0x07#7 0#5 0#5 rd (0#20 ++ p ++ br ++ ar ++ acc)
  | .tldc acc ef rs1 => encD 0x08#7 0#5 rs1 0#5 (0#25 ++ ef ++ acc)
  | .tstc rd acc ef sat scale rs1 rs2 => encD 0x09#7 rs2 rs1 rd (0#23 ++ bit1 scale ++ bit1 sat ++ ef ++ acc)
  | .tstat rd => encD 0x0A#7 0#5 0#5 rd 0#32
  | .tsave rd acc rs1 => encD 0x0B#7 0#5 rs1 rd (0#30 ++ acc)
  | .tload rd acc rs1 => encD 0x0C#7 0#5 rs1 rd (0#30 ++ acc)
  | .cpy rd rs1 => encD 0x20#7 0#5 rs1 rd 0#32
  | .cpyd rd rs1 rs2 n => encD 0x21#7 rs2 rs1 rd n
  | .cpyk rd rs1 rs2 => encD 0x22#7 rs2 rs1 rd 0#32
  | .pref rd rs1 n => encD 0x23#7 0#5 rs1 rd n
  | .launch rd rs1 q => encD 0x24#7 0#5 rs1 rd (0#28 ++ q)
  | .phint lrtoff livex livev =>
    some (.w64 (Fields.word ⟨0x25#7, lrtoff.extractLsb' 13 5, lrtoff.extractLsb' 8 5, lrtoff.extractLsb' 5 3,
      lrtoff.extractLsb' 0 5, d64Opc⟩) (livev ++ livex))
  | .baseLoad w rd rs1 imm => encI imm rs1 (loadCode w).1 rd (loadCode w).2
  | .baseStore w rs1 rs2 imm => encSt imm rs2 rs1 (storeCode w).1 (storeCode w).2
  | .amo op dbl aq rl rd rs1 rs2 => encAmo (amoOpCode op) dbl aq rl rs2 rs1 rd
  | .lr dbl aq rl rd rs1 => encAmo 0x02#5 dbl aq rl 0#5 rs1 rd
  | .sc dbl aq rl rd rs1 rs2 => encAmo 0x03#5 dbl aq rl rs2 rs1 rd
  | .fence fm pred succ rd rs1 => encI (fm ++ pred ++ succ) rs1 0#3 rd 0x0F#7
  | .fenceTso rd rs1 => encI 0x833#12 rs1 0#3 rd 0x0F#7
  | .fenceI imm rd rs1 => encI imm rs1 1#3 rd 0x0F#7
  | .sfenceVma rs1 rs2 => enc32 0x09#7 rs2 rs1 0#3 0#5 0x73#7
  | .wfi => encI 0x105#12 0#5 0#3 0#5 0x73#7
  | .ecall => encI 0x000#12 0#5 0#3 0#5 0x73#7
  | .sret => encI 0x102#12 0#5 0#3 0#5 0x73#7
  | .csrAccess op csr rd src => encI csr src (csrOpCode op) rd 0x73#7
  | .dxtstatAccess op rd src => encI 0x8C3#12 src (csrOpCode op) rd 0x73#7
  | .baseArithmetic op => encodeBase op
  | _ => none

end Sys2Proof
end

