-- ==== Sys2Proof/Config.lean ====
section
/-! DEFINITION. What one part fixes and the spec does not give: opaque constants, so that no proof can see a value
(log 3, log 4). -/

namespace Sys2Proof

/-- The free values: what the spec says is undefined or does not state, by a counter of `State` (log 3). -/
opaque Config.freeWord : Nat → Word

/-- Whether EBREAK's trap writes its own address into stval, or 0: the base leaves it to the implementation (log 4). -/
opaque Config.breakTval : Bool

/-- The offset of a core's or a site's time count from E0's less 4 ns, to be taken modulo 9 (R317; log 4). -/
opaque Config.skew : Nat → Nat

/-- MODID.SILREV (R316; log 4). -/
opaque Config.silRev : BitVec 16

/-- Whether the ROM's key verifies an image's signature (R332; log 4). -/
opaque Config.sigValid : List Byte → Bool

/-- The security version that an image carries (R332; log 4). -/
opaque Config.imageSecver : List Byte → Nat

/-- The fused minimum security version (R332; log 4). -/
opaque Config.fusedMin : Nat

/-- The identity key's signature over a report (R334, R441; log 4). -/
opaque Config.sign : List Byte → List Byte

/-- The identity public key, 64 bytes (R334; log 4). -/
opaque Config.idKey : List Byte

/-- The vendor certificate held at report offset 0x8000 (R334; log 4). -/
opaque Config.cert : List Byte

/-- The boot ROM and fuse values that MEAS0 measures (R333; log 4). -/
opaque Config.romItems : List Byte

/-- The scheduler-core and home-logic firmware that MEAS2 measures (R333; log 4). -/
opaque Config.homeFirmware : List Byte

end Sys2Proof
end

