-- ==== Sys2Proof/Machine/Float.lean ====
section
/-! DEFINITION. Number formats and exact arithmetic (R117 to R131): a float is decoded to an exact value, computed on
exactly, and rounded once by the function the spec names. -/

namespace Sys2Proof.Machine

/-! ## Exact values -/

/-- A decoded value: a NaN (signalling or quiet), an infinity, or sign and magnitude `num / den` with `den` not 0. -/
inductive Ext where
  | nan (sig : Bool)
  | inf (neg : Bool)
  | fin (neg : Bool) (num den : Nat)
deriving DecidableEq, Repr

/-- Plus zero. -/
def Ext.zero : Ext := .fin false 0 1

/-- The exact value of an integer. -/
def Ext.ofInt (i : Int) : Ext := .fin (decide (i < 0)) i.natAbs 1

/-- Whether the value is a zero. -/
def Ext.isZero : Ext → Bool
  | .fin _ n _ => n == 0
  | _ => false

/-- Whether the value is a NaN. -/
def Ext.isNan : Ext → Bool
  | .nan _ => true
  | _ => false

/-- Whether the value is a signalling NaN. -/
def Ext.isSig : Ext → Bool
  | .nan s => s
  | _ => false

/-- Whether the value is an infinity. -/
def Ext.isInf : Ext → Bool
  | .inf _ => true
  | _ => false

/-- The sign bit; false for a NaN. -/
def Ext.isNeg : Ext → Bool
  | .nan _ => false
  | .inf n => n
  | .fin n _ _ => n

/-- Negation; a NaN stays. -/
def Ext.neg : Ext → Ext
  | .nan s => .nan s
  | .inf n => .inf (!n)
  | .fin n a b => .fin (!n) a b

/-- Magnitude; a NaN stays. -/
def Ext.abs : Ext → Ext
  | .nan s => .nan s
  | .inf _ => .inf false
  | .fin _ a b => .fin false a b

/-- `2 ^ e` for an integer `e`, as a numerator and a denominator. -/
def pow2Num (e : Int) : Nat := if e < 0 then 1 else 2 ^ e.toNat
/-- The denominator of `2 ^ e`. -/
def pow2Den (e : Int) : Nat := if e < 0 then 2 ^ (-e).toNat else 1

/-- The product with `2 ^ e`. -/
def Ext.scale (x : Ext) (e : Int) : Ext :=
  match x with
  | .fin s n d => .fin s (n * pow2Num e) (d * pow2Den e)
  | y => y

/-- `floor (log2 (num / den))` for a positive value. -/
def floorLog2 (num den : Nat) : Int :=
  let k : Int := (num.log2 : Int) - (den.log2 : Int)
  if num * pow2Den k < den * pow2Num k then k - 1 else k

/-- `-1`, `0` or `1` as `a` is below, equal to or above `b`; infinities at the ends, zeros equal, 0 for a NaN. -/
def Ext.cmp (a b : Ext) : Int :=
  match a, b with
  | .nan _, _ => 0
  | _, .nan _ => 0
  | .inf x, .inf y => if x == y then 0 else if x then -1 else 1
  | .inf x, _ => if x then -1 else 1
  | _, .inf y => if y then 1 else -1
  | .fin x n d, .fin y m e =>
    let l : Int := (if x then -1 else 1) * ((n * e : Nat) : Int)
    let r : Int := (if y then -1 else 1) * ((m * d : Nat) : Int)
    if l < r then -1 else if l = r then 0 else 1

/-! ## Rounding -/

/-- Rounding modes of the base (R130). -/
inductive Rm where
  | rne | rtz | rdn | rup | rmm
deriving DecidableEq, Repr

/-- The rounding mode that an rm or frm code names; 5, 6 and 7 name none. -/
def rmOf (c : BitVec 3) : Option Rm :=
  match c.toNat with
  | 0 => some .rne
  | 1 => some .rtz
  | 2 => some .rdn
  | 3 => some .rup
  | 4 => some .rmm
  | _ => none

/-- `num / den` rounded to an integer, for a value of sign `neg`, and whether it was exact. -/
def roundNat (rm : Rm) (neg : Bool) (num den : Nat) : Nat × Bool :=
  let q := num / den
  let r := num % den
  if r = 0 then (q, true)
  else
    let up : Bool :=
      match rm with
      | .rne => decide (den < 2 * r) || (decide (2 * r = den) && q % 2 == 1)
      | .rtz => false
      | .rdn => neg
      | .rup => !neg
      | .rmm => decide (den ≤ 2 * r)
    (if up then q + 1 else q, false)

/-- `num / den` divided by `2 ^ e` and rounded to an integer. -/
def roundAt (rm : Rm) (neg : Bool) (num den : Nat) (e : Int) : Nat × Bool :=
  roundNat rm neg (num * pow2Den e) (den * pow2Num e)

/-- The five flags of fflags (R132): NV, DZ, OF, UF and NX. -/
abbrev FFlags := BitVec 5
/-- Invalid operation. -/
def flagNV : FFlags := 0x10#5
/-- Division by zero. -/
def flagDZ : FFlags := 0x08#5
/-- Overflow. -/
def flagOF : FFlags := 0x04#5
/-- Underflow. -/
def flagUF : FFlags := 0x02#5
/-- Inexact. -/
def flagNX : FFlags := 0x01#5
/-- No flag. -/
def noFlags : FFlags := 0#5

/-- A binary float format (R119): fraction bits, bias, the code of the largest finite magnitude, the code of infinity
(if any) and of the canonical NaN (if any), and the width. -/
structure FFmt where
  mant : Nat
  bias : Nat
  maxCode : Nat
  infCode : Option Nat
  nanCode : Option Nat
  width : Nat
deriving DecidableEq, Repr

/-- binary32. -/
def fFP32 : FFmt := ⟨23, 127, 0x7F7FFFFF, some 0x7F800000, some 0x7FC00000, 32⟩
/-- BF16. -/
def fBF16 : FFmt := ⟨7, 127, 0x7F7F, some 0x7F80, some 0x7FC0, 16⟩
/-- binary16. -/
def fFP16 : FFmt := ⟨10, 15, 0x7BFF, some 0x7C00, some 0x7E00, 16⟩
/-- E5M2. -/
def fE5M2 : FFmt := ⟨2, 15, 0x7B, some 0x7C, some 0x7E, 8⟩
/-- E4M3. -/
def fE4M3 : FFmt := ⟨3, 7, 0x7E, none, some 0x7F, 8⟩
/-- E3M2. -/
def fE3M2 : FFmt := ⟨2, 3, 0x1F, none, none, 6⟩
/-- E2M3. -/
def fE2M3 : FFmt := ⟨3, 1, 0x1F, none, none, 6⟩
/-- E2M1. -/
def fE2M1 : FFmt := ⟨1, 1, 0x07, none, none, 4⟩

/-- The value of a code of a format (R119). Only an FP32 NaN is signalling (R120). -/
def FFmt.decode (F : FFmt) (code : Nat) : Ext :=
  let neg := code / 2 ^ (F.width - 1) % 2 == 1
  let c := code % 2 ^ (F.width - 1)
  let e := c / 2 ^ F.mant
  let f := c % 2 ^ F.mant
  if F.maxCode < c then
    if F.infCode = some c then .inf neg
    else .nan (decide (f < 2 ^ (F.mant - 1)) && F.width == 32)
  else if e = 0 then .fin neg f (2 ^ (F.bias + F.mant - 1))
  else
    let p : Int := (e : Int) - (F.bias : Int) - (F.mant : Int)
    .fin neg ((2 ^ F.mant + f) * pow2Num p) (pow2Den p)

/-- The sign bit of a format. -/
def FFmt.sign (F : FFmt) (neg : Bool) : Nat := if neg then 2 ^ (F.width - 1) else 0

/-- The canonical NaN of a format, or +0 where it has none (R121). -/
def FFmt.cnan (F : FFmt) : Nat := F.nanCode.getD 0

/-- The result of an overflow (R121; the base for the directed modes). -/
def FFmt.over (F : FFmt) (rm : Rm) (sat neg : Bool) : Nat :=
  let toMax : Bool :=
    match rm with
    | .rne => false
    | .rmm => false
    | .rtz => true
    | .rdn => !neg
    | .rup => neg
  if sat || toMax then F.sign neg + F.maxCode
  else
    match F.infCode with
    | some i => F.sign neg + i
    | none => if F.nanCode.isSome then F.cnan else F.sign neg + F.maxCode

/-- The conversion of a finite magnitude (R121 steps 1 and 2, the table's overflow rows): the code and the flags. -/
def FFmt.roundFin (F : FFmt) (rm : Rm) (sat neg : Bool) (num den : Nat) : Nat × FFlags :=
  if num = 0 then (F.sign neg, noFlags)
  else
    let e := floorLog2 num den
    let emin : Int := 1 - (F.bias : Int)
    let low : Int := emin - (F.mant : Int)
    let qe : Int := (if e < emin then emin else e) - (F.mant : Int)
    let r := roundAt rm neg num den qe
    let code := (qe - low).toNat * 2 ^ F.mant + r.1
    if F.maxCode < code then (F.over rm sat neg, flagOF ||| flagNX)
    else if r.2 then (F.sign neg + code, noFlags)
    else
      let t := roundAt rm neg num den (e - (F.mant : Int))
      let tiny : Bool := decide (e < emin) && !(decide (e = emin - 1) && decide (t.1 = 2 ^ (F.mant + 1)))
      (F.sign neg + code, if tiny then flagUF ||| flagNX else flagNX)

/-- The conversion of an exact value into a float format (R121). -/
def FFmt.round (F : FFmt) (rm : Rm) (sat : Bool) (x : Ext) : Nat × FFlags :=
  match x with
  | .nan s =>
    match F.nanCode with
    | some c => (c, if s then flagNV else noFlags)
    | none => (0, flagNV)
  | .inf neg =>
    if sat then (F.sign neg + F.maxCode, flagNV)
    else
      match F.infCode with
      | some i => (F.sign neg + i, noFlags)
      | none => (if F.nanCode.isSome then F.cnan else F.sign neg + F.maxCode, flagNV)
  | .fin neg num den => F.roundFin rm sat neg num den

/-- round_fp32 (R129), with a rounding mode and its flags. -/
def roundF32 (rm : Rm) (x : Ext) : W32 × FFlags :=
  let r := fFP32.round rm false x
  (BitVec.ofNat 32 r.1, r.2)

/-- The value of FP32 bits. -/
def f32 (w : W32) : Ext := fFP32.decode w.toNat
/-- The canonical NaN of FP32. -/
def nan32 : W32 := 0x7FC00000#32

/-! ## Exact operations -/

/-- The sign of an exact zero sum: minus only if both are minus, or in round-down when the signs differ. -/
def zeroSign (rm : Rm) (a b : Bool) : Bool := if a == b then a else rm == .rdn

/-- The exact sum, with the flags of the operands. `rm` decides the sign of an exact zero. -/
def Ext.add (rm : Rm) (a b : Ext) : Ext × FFlags :=
  match a, b with
  | .nan s, y => (.nan false, if s || y.isSig then flagNV else noFlags)
  | _, .nan s => (.nan false, if s then flagNV else noFlags)
  | .inf x, .inf y => if x == y then (.inf x, noFlags) else (.nan false, flagNV)
  | .inf x, _ => (.inf x, noFlags)
  | _, .inf y => (.inf y, noFlags)
  | .fin x n d, .fin y m e =>
    let l : Int := (if x then -1 else 1) * ((n * e : Nat) : Int)
    let r : Int := (if y then -1 else 1) * ((m * d : Nat) : Int)
    let t := l + r
    if t = 0 then
      (.fin (if n = 0 ∧ m = 0 then zeroSign rm x y else rm == .rdn) 0 1, noFlags)
    else (.fin (decide (t < 0)) t.natAbs (d * e), noFlags)

/-- The exact product, with the flags of the operands. -/
def Ext.mul (a b : Ext) : Ext × FFlags :=
  match a, b with
  | .nan s, y => (.nan false, if s || y.isSig then flagNV else noFlags)
  | _, .nan s => (.nan false, if s then flagNV else noFlags)
  | .inf x, y => if y.isZero then (.nan false, flagNV) else (.inf (x != y.isNeg), noFlags)
  | x, .inf y => if x.isZero then (.nan false, flagNV) else (.inf (y != x.isNeg), noFlags)
  | .fin x n d, .fin y m e => (.fin (x != y) (n * m) (d * e), noFlags)

/-- The exact quotient, with the flags of the operands. -/
def Ext.div (a b : Ext) : Ext × FFlags :=
  match a, b with
  | .nan s, y => (.nan false, if s || y.isSig then flagNV else noFlags)
  | _, .nan s => (.nan false, if s then flagNV else noFlags)
  | .inf x, .inf _ => (.nan false, if x then flagNV else flagNV)
  | .inf x, y => (.inf (x != y.isNeg), noFlags)
  | .fin x _ _, .inf y => (.fin (x != y) 0 1, noFlags)
  | .fin x n d, .fin y m e =>
    if m = 0 then
      if n = 0 then (.nan false, flagNV) else (.inf (x != y), flagDZ)
    else (.fin (x != y) (n * e) (d * m), noFlags)

/-- `a * b + c`, exact (the base's fused operations and R130): infinity times zero is invalid whatever `c` is. -/
def Ext.fma (rm : Rm) (a b c : Ext) : Ext × FFlags :=
  let p := a.mul b
  let r := p.1.add rm c
  (r.1, p.2 ||| r.2 ||| (if c.isSig then flagNV else noFlags))

/-- The largest natural number whose square is at most `n`, by Newton's iteration from above. -/
def isqrtFrom (n : Nat) : Nat → Nat → Nat
  | 0, x => x
  | k + 1, x =>
    let y := (x + n / x) / 2
    if y < x then isqrtFrom n k y else x

/-- The integer square root. -/
def isqrt (n : Nat) : Nat := if n = 0 then 0 else isqrtFrom n 64 (2 ^ (n.log2 / 2 + 1))

/-- Extra bits carried by an irrational result, so that one rounding of what is returned is one rounding of the
exact value: far below half a unit of any FP32 result. -/
def irrBits : Nat := 512

/-- A value just above `r / 2 ^ irrBits` when `exact` is false: between it and the next, so it rounds as the exact
irrational value does. -/
def sticky (neg : Bool) (r : Nat) (exact : Bool) : Ext :=
  if exact then .fin neg r (2 ^ irrBits) else .fin neg (2 * r + 1) (2 ^ (irrBits + 1))

/-- The square root of a positive value. -/
def sqrtPos (num den : Nat) : Ext :=
  let n := num * 2 ^ (2 * irrBits)
  let q := n / den
  let r := isqrt q
  sticky false r (decide (r * r * den = n))

/-- The square root with its special cases (base F). -/
def Ext.sqrt (a : Ext) : Ext × FFlags :=
  match a with
  | .nan s => (.nan false, if s then flagNV else noFlags)
  | .inf n => if n then (.nan false, flagNV) else (.inf false, noFlags)
  | .fin n x d =>
    if x = 0 then (.fin n 0 1, noFlags)
    else if n then (.nan false, flagNV)
    else (sqrtPos x d, noFlags)

/-- `1 / x` with the special cases of R131. -/
def Ext.rcp (a : Ext) : Ext × FFlags := Ext.div (.fin false 1 1) a

/-- `1 / sqrt x` with the special cases of R131. -/
def Ext.rsq (a : Ext) : Ext × FFlags :=
  match a with
  | .nan s => (.nan false, if s then flagNV else noFlags)
  | .inf n => if n then (.nan false, flagNV) else (.fin false 0 1, noFlags)
  | .fin n x d =>
    if x = 0 then (.inf n, flagDZ)
    else if n then (.nan false, flagNV)
    else (sqrtPos d x, noFlags)

/-- `2 ^ (f / 2 ^ k)` for `f < 2 ^ k`, in units of `2 ^ -irrBits`: the product of the square-root chain
`2 ^ (1/2), 2 ^ (1/4), …` over the bits of `f`, taken from the top. -/
def exp2Frac (f : Nat) : Nat → Nat → Nat → Nat
  | 0, _, acc => acc
  | k + 1, c, acc =>
    let c' := isqrt (c * 2 ^ irrBits)
    exp2Frac f k c' (if f / 2 ^ k % 2 = 1 then acc * c' / 2 ^ irrBits else acc)

/-- `2 ^ x` with the special cases of R131. Magnitudes past 2^10 give a power that rounds the same way. -/
def Ext.exp2 (a : Ext) : Ext × FFlags :=
  match a with
  | .nan s => (.nan false, if s then flagNV else noFlags)
  | .inf n => if n then (.fin false 0 1, noFlags) else (.inf false, noFlags)
  | .fin n x d =>
    if 1024 * d < x then
      if n then (.fin false 1 (2 ^ 1024), noFlags) else (.fin false (2 ^ 1024) 1, noFlags)
    else
      let i : Int := if n then -(((x + d - 1) / d : Nat) : Int) else ((x / d : Nat) : Int)
      let fr : Nat := if n then ((x + d - 1) / d) * d - x else x % d
      if fr = 0 then ((Ext.fin false 1 1).scale i, noFlags)
      else
        let k := d.log2
        ((sticky false (exp2Frac fr k (2 * 2 ^ irrBits) (2 ^ irrBits)) false).scale i, noFlags)

/-- The first bits of `log2 m` for `m` in `[1, 2)` given in units of `2 ^ -irrBits`, by repeated squaring. -/
def log2Frac : Nat → Nat → Nat → Nat
  | 0, _, acc => acc
  | k + 1, m, acc =>
    let s := m * m / 2 ^ irrBits
    if 2 * 2 ^ irrBits ≤ s then log2Frac k (s / 2) (2 * acc + 1) else log2Frac k s (2 * acc)

/-- `log2 x` with the special cases of R131. -/
def Ext.log2 (a : Ext) : Ext × FFlags :=
  match a with
  | .nan s => (.nan false, if s then flagNV else noFlags)
  | .inf n => if n then (.nan false, flagNV) else (.inf false, noFlags)
  | .fin n x d =>
    if x = 0 then (.inf true, flagDZ)
    else if n then (.nan false, flagNV)
    else
      let e := floorLog2 x d
      let num := x * pow2Den e
      let den := d * pow2Num e
      if num = den then (Ext.ofInt e, noFlags)
      else
        let bits := log2Frac 200 (num * 2 ^ irrBits / den) 0
        let t : Int := e * (2 ^ 201 : Nat) + (2 * bits + 1 : Nat)
        (.fin (decide (t < 0)) t.natAbs (2 ^ 201), noFlags)

/-- The lesser of two FP32 words by R83 and R130: −0 below +0, a NaN yields the other, two NaNs the canonical NaN. -/
def minF32 (a b : W32) : W32 :=
  let x := f32 a
  let y := f32 b
  if x.isNan then (if y.isNan then nan32 else b)
  else if y.isNan then a
  else if x.cmp y < 0 then a
  else if 0 < x.cmp y then b
  else if x.isNeg then a else b

/-- The greater of two FP32 words by R83 and R130. -/
def maxF32 (a b : W32) : W32 :=
  let x := f32 a
  let y := f32 b
  if x.isNan then (if y.isNan then nan32 else b)
  else if y.isNan then a
  else if x.cmp y < 0 then b
  else if 0 < x.cmp y then a
  else if x.isNeg then b else a

/-- FP32 add, rounded to nearest even (R83, R139). -/
def addF32 (a b : W32) : W32 := (roundF32 .rne ((f32 a).add .rne (f32 b)).1).1
/-- FP32 subtract, rounded to nearest even. -/
def subF32 (a b : W32) : W32 := (roundF32 .rne ((f32 a).add .rne (f32 b).neg).1).1
/-- FP32 multiply, rounded to nearest even. -/
def mulF32 (a b : W32) : W32 := (roundF32 .rne ((f32 a).mul (f32 b)).1).1
/-- FP32 divide, rounded to nearest even. -/
def divF32 (a b : W32) : W32 := (roundF32 .rne ((f32 a).div (f32 b)).1).1

/-! ## Integer conversions (R129) -/

/-- Clamps an integer to a range. -/
def clampInt (lo hi x : Int) : Int := if x < lo then lo else if hi < x then hi else x

/-- An exact value rounded to an integer. -/
def Ext.toInt (rm : Rm) (x : Ext) : Int × Bool :=
  match x with
  | .fin neg n d =>
    let r := roundNat rm neg n d
    (if neg then -(r.1 : Int) else (r.1 : Int), r.2)
  | _ => (0, true)

/-- cvt_int: to nearest even, clamped; NV for a NaN or a clamp, NX for a rounding without a clamp. -/
def cvtInt (lo hi : Int) (x : Ext) : Int × FFlags :=
  match x with
  | .nan _ => (0, flagNV)
  | .inf neg => (if neg then lo else hi, flagNV)
  | .fin _ _ _ =>
    let r := x.toInt .rne
    if r.1 < lo then (lo, flagNV) else if hi < r.1 then (hi, flagNV)
    else (r.1, if r.2 then noFlags else flagNX)

/-! ## DM8 (R122 to R124) -/

/-- rne_sig (R129) of a positive magnitude: rounded to `n` significant bits. -/
def rneSigMag (n : Nat) (num den : Nat) : Nat × Nat :=
  if num = 0 then (0, 1)
  else
    let e := floorLog2 num den - ((n : Int) - 1)
    let r := (roundAt .rne false num den e).1
    (r * pow2Num e, pow2Den e)

/-- rne_sig of a value; a zero result is +0. -/
def rneSig (n : Nat) (x : Ext) : Ext :=
  match x with
  | .fin s num den =>
    let r := rneSigMag n num den
    if r.1 = 0 then .zero else .fin s r.1 r.2
  | y => y

/-- The exact magnitude of a DM8 body (R122) as decade exponent and multiplier sixteenths, or nothing for the four
special bodies. -/
def dm8Parts (f : Nat) : Option (Int × Nat) :=
  if 0x40 ≤ f then some ((f / 16 % 4 : Nat) - 2, 16 + 9 * (f % 16))
  else if 0x20 ≤ f then
    let b := f / 4 % 8
    some (if b < 4 then (b : Int) - 6 else (b : Int) - 2, 16 + 36 * (f % 4))
  else if 0x10 ≤ f then
    let c := f % 16
    some (if c < 8 then (c : Int) - 14 else (c : Int) - 2, 16)
  else if 0x08 ≤ f then
    let d := f % 8
    some (if d < 4 then (d : Int) - 18 else (d : Int) + 10, 16)
  else if 0x04 ≤ f then
    some (if f = 4 then -20 else if f = 5 then -19 else if f = 6 then 18 else 19, 16)
  else none

/-- The decoded magnitude of a finite nonzero DM8 body: rounded to 16 significant bits (R123). -/
def dm8Mag (e : Int) (mul : Nat) : Nat × Nat :=
  if e < 0 then rneSigMag 16 mul (16 * 10 ^ (-e).toNat) else rneSigMag 16 (mul * 10 ^ e.toNat) 16

/-- dm8_decode (R123). -/
def dm8Decode (code : Nat) : Ext :=
  let neg := code / 128 % 2 == 1
  let f := code % 128
  match dm8Parts f with
  | some (e, m) =>
    let r := dm8Mag e m
    .fin neg r.1 r.2
  | none => if f = 0 then .fin neg 0 1 else if f = 2 then .inf neg else .nan false

/-- Whether `|a/b - x| < |a'/b' - x|`, or `=` for `2`, all positive: `0` nearer first, `1` nearer second, `2` tie. -/
def nearer (xn xd an ad bn bd : Nat) : Nat :=
  let da := (Int.natAbs ((an * xd : Nat) - (xn * ad : Nat) : Int)) * bd
  let db := (Int.natAbs ((bn * xd : Nat) - (xn * bd : Nat) : Int)) * ad
  if da < db then 0 else if da = db then 2 else 1

/-- The finite DM8 body nearest to a magnitude among the first `k` codes above 3; a tie goes to the code with bit 0
clear. -/
def dm8Nearest (xn xd : Nat) : Nat → Nat
  | 0 => 4
  | k + 1 =>
    let best := dm8Nearest xn xd k
    let c := k + 4
    match dm8Parts best, dm8Parts c with
    | some (e, m), some (e', m') =>
      let a := dm8Mag e m
      let b := dm8Mag e' m'
      match nearer xn xd a.1 a.2 b.1 b.2 with
      | 0 => best
      | 1 => c
      | _ => if c % 2 = 0 then c else best
    | _, _ => best

/-- The decoded value of 10^19. -/
def dm8Top : Nat × Nat := dm8Mag 19 16
/-- The decoded value of 10^-20. -/
def dm8Bottom : Nat × Nat := dm8Mag (-20) 16

/-- dm8_encode (R124): the code and the flags. From half the decoded 10^-20 up to below it NX alone is raised (log 135). -/
def dm8Encode (x : Ext) (sat : Bool) : Nat × FFlags :=
  match x with
  | .nan s => (0x03, if s then flagNV else noFlags)
  | .inf neg =>
    let sg := if neg then 0x80 else 0
    if sat then (sg + 0x07, flagNV) else (sg + 0x02, noFlags)
  | .fin neg n d =>
    let sg := if neg then 0x80 else 0
    if n = 0 then (sg, noFlags)
    else if 55 * 10 ^ 18 * d ≤ n then (sg + (if sat then 0x07 else 0x02), flagOF ||| flagNX)
    else if dm8Top.1 * d < n * dm8Top.2 then (sg + 0x07, flagNX)
    else if 2 * n * dm8Bottom.2 < dm8Bottom.1 * d then (sg, flagUF ||| flagNX)
    else
      let c := if n * dm8Bottom.2 ≤ dm8Bottom.1 * d then 4 else dm8Nearest n d 124
      let v := (dm8Parts c).map fun p => dm8Mag p.1 p.2
      let exact := match v with
        | some r => decide (r.1 * d = n * r.2)
        | none => false
      (sg + c, if exact then noFlags else flagNX)

/-! ## S9 scales and format codes (R125 to R129) -/

/-- The scale exponent k of an S9 (R125). -/
def s9K (s : Nat) : Int := if s / 2 % 256 < 128 then (s / 2 % 256 : Nat) else (s / 2 % 256 : Nat) - 256
/-- Whether an S9 is the invalid marker. -/
def s9Bad (s : Nat) : Bool := s % 512 == 0x101
/-- s9_value (R125): 2^k (1 + h/2). -/
def s9Value (s : Nat) : Ext := (Ext.fin false (2 + s % 2) 2).scale (s9K s)
/-- `x / s9_value s`. -/
def divS9 (x : Ext) (s : Nat) : Ext :=
  match x with
  | .fin neg n d => (Ext.fin neg (n * 2) (d * (2 + s % 2))).scale (-(s9K s))
  | y => y

/-- What an element code holds. -/
inductive ElemKind where
  | int (signed : Bool)
  | flt (F : FFmt)
  | dm8
deriving DecidableEq, Repr

/-- An element format: width in bits, kind and format code of R127 (0 where it has none). -/
structure ElemFmt where
  width : Nat
  kind : ElemKind
  code : Nat
deriving DecidableEq, Repr

/-- The format that a code of R127 names, raw and the chisel payload aside. -/
def fmtOfCode (c : Nat) : Option ElemFmt :=
  match c with
  | 0x01 => some ⟨8, .int true, c⟩
  | 0x02 => some ⟨8, .int false, c⟩
  | 0x03 => some ⟨4, .int true, c⟩
  | 0x04 => some ⟨4, .int false, c⟩
  | 0x05 => some ⟨32, .int true, c⟩
  | 0x06 => some ⟨32, .int false, c⟩
  | 0x07 => some ⟨16, .int true, c⟩
  | 0x10 => some ⟨8, .dm8, c⟩
  | 0x11 => some ⟨8, .flt fE4M3, c⟩
  | 0x12 => some ⟨8, .flt fE5M2, c⟩
  | 0x13 => some ⟨4, .flt fE2M1, c⟩
  | 0x14 => some ⟨6, .flt fE3M2, c⟩
  | 0x15 => some ⟨6, .flt fE2M3, c⟩
  | 0x16 => some ⟨16, .flt fBF16, c⟩
  | 0x17 => some ⟨16, .flt fFP16, c⟩
  | 0x18 => some ⟨32, .flt fFP32, c⟩
  | _ => none

/-- The element format that a 5-bit EF names (R148). -/
def fmtOfEF (ef : BitVec 5) : Option ElemFmt :=
  match ef.toNat with
  | 0 => fmtOfCode 0x01
  | 1 => fmtOfCode 0x02
  | 2 => fmtOfCode 0x03
  | 3 => fmtOfCode 0x04
  | 4 => fmtOfCode 0x07
  | 5 => some ⟨16, .int false, 0⟩
  | 6 => fmtOfCode 0x05
  | 7 => fmtOfCode 0x06
  | 8 => fmtOfCode 0x10
  | 9 => fmtOfCode 0x11
  | 10 => fmtOfCode 0x12
  | 11 => fmtOfCode 0x13
  | 12 => fmtOfCode 0x14
  | 13 => fmtOfCode 0x15
  | 14 => fmtOfCode 0x16
  | 15 => fmtOfCode 0x17
  | 16 => fmtOfCode 0x18
  | _ => none

/-- The least and greatest values of an integer format. -/
def intLo (signed : Bool) (w : Nat) : Int := if signed then -((2 ^ (w - 1) : Nat) : Int) else 0
/-- The greatest value of an integer format. -/
def intHi (signed : Bool) (w : Nat) : Int := if signed then ((2 ^ (w - 1) : Nat) : Int) - 1 else ((2 ^ w : Nat) : Int) - 1

/-- An element code read as an integer. -/
def intOf (signed : Bool) (w code : Nat) : Int :=
  if signed && decide (2 ^ (w - 1) ≤ code % 2 ^ w) then (code % 2 ^ w : Nat) - ((2 ^ w : Nat) : Int) else (code % 2 ^ w : Nat)

/-- The exact value of an element code. -/
def ElemFmt.decode (E : ElemFmt) (code : Nat) : Ext :=
  match E.kind with
  | .int s => Ext.ofInt (intOf s E.width code)
  | .flt F => F.decode (code % 2 ^ E.width)
  | .dm8 => dm8Decode (code % 256)

/-- An integer's bits in `w` bits (wrap_N). -/
def wrapNat (w : Nat) (x : Int) : Nat := (x % ((2 ^ w : Nat) : Int)).toNat

/-- The largest finite magnitude of a format, as s9_for takes it (R129). -/
def ElemFmt.largest (E : ElemFmt) : Nat × Nat :=
  match E.kind with
  | .int s => ((intHi s E.width).toNat, 1)
  | .flt F =>
    match F.decode F.maxCode with
    | .fin _ n d => (n, d)
    | _ => (0, 1)
  | .dm8 => dm8Top

/-- The candidate scales of s9_for in increasing order: the `i`-th valid S9. -/
def s9Nth (i : Nat) : Nat :=
  -- k = -128, h = 0 first, then k = -127 .. 127 with h = 0 and 1 (k = -128, h = 1 is the invalid marker)
  if i = 0 then 0x100
  else
    let j := i - 1
    let k : Int := (j / 2 : Nat) - 127
    2 * wrapNat 8 k + j % 2

/-- The first of the candidate scales from `i` on, at most `fuel` of them, that brings `n / d` within `(mn, md)`. -/
def s9Search (n d mn md : Nat) : Nat → Nat → Nat
  | 0, _ => 0x0FF
  | fuel + 1, i =>
    let s := s9Nth i
    match s9Value s with
    | .fin _ vn vd => if n * vd * md ≤ mn * vn * d then s else s9Search n d mn md fuel (i + 1)
    | _ => 0x0FF

/-- s9_for (R129). -/
def s9For (a : Ext) (E : ElemFmt) : Nat :=
  match a with
  | .fin _ n d =>
    if n = 0 then 0x000
    else
      let m := E.largest
      s9Search n d m.1 m.2 511 0
  | _ => 0x101

/-- Element `i` of width `w` of a line held as a number (R117). -/
def elemAt (line w i : Nat) : Nat := line / 2 ^ (w * i) % 2 ^ w

/-- Elements of width `w` in a 64-byte line (R117). -/
def elemsPerLine (w : Nat) : Nat := 512 / w

end Sys2Proof.Machine
end

