-- ==== Sys2Proof/Machine/State.lean ====
section
/-! DEFINITION. The state of the part: everything the spec gives the module, as plain data, and its value at module
reset. Identities (harts, groups, blocks, operations, accesses, entries) are numbers drawn from `nextId`; tables hold
only what exists. Memory is one list of cells in canonical form, keyed by physical location. -/

namespace Sys2Proof.Machine

/-! ## Small types -/

/-- Privilege modes (R141). A kernel hart is in U or S; M is hart firmware's (R368). -/
inductive Priv where
  | u | s | m
deriving DecidableEq, Repr

/-- What a request asks of its home (R72 step 5, R389). -/
inductive AccKind where
  | fetch | load | store | amo | bank
deriving DecidableEq, Repr

/-- How R374 item 3 replaces a failed register's word once a reader has trapped on it. -/
inductive FailHow where
  | status | launch | zero
deriving DecidableEq, Repr

/-- The state of an x register that is not ready (R217, R374, R171). -/
inductive RegState where
  /-- Holds the handle of operation `op`. -/
  | pending (op : Nat)
  /-- Holds the failure word of a failed operation. -/
  | failed (how : FailHow)
  /-- The destination of relaxed access `acc` whose value has not returned. -/
  | busy (acc : Nat)
deriving DecidableEq, Repr

/-- One v register: 16 lanes, its line tag VTAG and its quantised bit VQ (R143). -/
structure VReg where
  lanes : Vector W32 16
  tag : BitVec 16
  q : Bool
deriving DecidableEq, Repr

/-- All lanes 0, VTAG 0, VQ 0. -/
def VReg.zero : VReg := ⟨Vector.replicate 16 0#32, 0#16, false⟩

/-- One piece of an access, as a port performs it (R76, R92). -/
inductive Piece where
  /-- Reads `n` bytes and the tag of their line. -/
  | load (n : Nat)
  /-- Reads the 4 bytes at each of these offsets, as one access of their line (R186). -/
  | pick (offs : List Nat)
  /-- Writes the listed bytes (`none` leaves a byte), and the line's tag where one is given. -/
  | store (bytes : List (Option Byte)) (tag : Option (BitVec 16))
  /-- An RV64A read-modify-write (R104). -/
  | amo (op : AmoOp) (dbl : Bool) (v : Word)
  /-- LR: reads and reserves the line (R104). -/
  | lr (dbl : Bool)
  /-- SC: writes if the reservation holds (R104). -/
  | sc (dbl : Bool) (v : Word)
  /-- Writes elements, in order, as one access of `n` bytes (R88, R189): of each its first bit from the addressed word's, its
  width and its value. -/
  | bits (n : Nat) (els : List (Nat × Nat × W32))
  /-- Reads a message record: its header, then the rest of its L(D) bytes, up to `room` bytes in all (R268). -/
  | record (room : Nat)
  /-- The port's update of an ERRWORD (R378) for the failure that this word, ASYNC and address report; `low` is its BLOCK. What cannot
  be written is logged at `home` (R377). -/
  | errw (low home : Nat) (async : Bool) (word addr : Word)
deriving DecidableEq, Repr

/-- What a port answers for one piece. -/
inductive PieceAns where
  /-- Bytes read, the line's tag and whether any of it was poisoned (R395). -/
  | data (bytes : List Byte) (tag : BitVec 16) (poison : Bool)
  /-- A store or an SC performed; `ok` is false only for an SC that failed. -/
  | done (ok : Bool)
  /-- A fault acknowledgement: the cause, the SUB of R389 and the first byte of the failing piece. -/
  | fail (cause sub : Nat) (addr : Word)
deriving DecidableEq, Repr

/-- What a failure word names (R375): FORM and OP. -/
structure FormOp where
  form : Nat
  op : Nat
deriving DecidableEq, Repr

/-- The requester's identity carried in records and requests (R50, R62, R72): who asks, with which context. -/
structure Ctx where
  asid : BitVec 16
  priv : Priv
  /-- The hart the request is made for; none for scheduler cores, edge firmware and hosts. -/
  hart : Option Nat
  /-- The reservation class of what a packet asks for itself, its queue's (R294); a hart's requests have their launch's. -/
  cls : Nat
deriving DecidableEq, Repr

/-! ## Waiting and registers of a hart -/

/-- Why a hart is out of issue, with the wait-table kind of R420 and what it waits on. -/
structure WaitRec where
  kind : Nat
  obj : Word
  since : Nat
  /-- Its wait-table entry is valid (R420). -/
  listed : Bool
deriving DecidableEq, Repr

/-- The base S-mode CSRs of a hart (R366, R141). satp stays 0, and sie and sip read 0 since mideleg does, so none of them is
stored. -/
structure SCsrs where
  stvec : Word
  scounteren : Word
  sscratch : Word
  sepc : Word
  scause : Word
  stval : Word
  /-- sstatus.SIE, SPIE, SPP, FS, SUM, MXR. -/
  stSIE : Bool
  stSPIE : Bool
  stSPP : Bool
  stFS : BitVec 2
  stSUM : Bool
  stMXR : Bool
deriving DecidableEq, Repr

/-- dxvcnt (R156). -/
structure Vcnt where
  rows : Nat
  cols : Nat
  lanes : Nat
deriving DecidableEq, Repr

/-- dxmig (R44). -/
structure Mig where
  thresh : BitVec 16
  count : BitVec 16
  home : BitVec 10
deriving DecidableEq, Repr

/-- A failed, non-future delivery or another cause taken at an instruction boundary (R369). -/
structure Boundary where
  cause : Nat
  tval : Word
  /-- The address at fault, or 0 (R377). -/
  addr : Word
deriving DecidableEq, Repr

/-- Where a hart stands. -/
inductive HartStatus where
  /-- In a core's run queue. -/
  | present
  /-- Out of its core between the steps of a migration (R46); `stage` counts them. -/
  | moving (stage : Nat)
  /-- Saved with its group (R54, R418): its registers stand in its context slot. -/
  | saved
  /-- Placed, and held until every output channel of its pipeline stage is configured (R301). -/
  | unstarted
  /-- Ended by gend or by hart firmware (R258, R368). -/
  | ended
deriving DecidableEq, Repr

/-- How a hart that has met its stop is saved, once its loads have settled and its pair stands together (R255, R307, R410): in full,
or as a phint's masks and live-range table say. -/
inductive StopHow where
  | full
  | hint (livex livev : BitVec 16) (lrt : Option Word)
deriving DecidableEq, Repr

/-- The chisel workspace of a hart (R262). Matrices are row-major lists of FP32 bits. -/
structure Chisel where
  dim : Nat
  map : BitVec 8
  eps : W32
  tau : W32
  eta : Vector W32 8
  lam : Vector W32 64
  outdim : Nat
  oeta : Vector W32 8
  olam : Vector W32 64
  res : W32
  live : Bool
deriving DecidableEq, Repr

/-- A chisel workspace at launch (R262). -/
def Chisel.zero : Chisel where
  dim := 1
  map := 0x01#8
  eps := 0x35800000#32
  tau := 0#32
  eta := Vector.replicate 8 0#32
  lam := Vector.replicate 64 0#32
  outdim := 0
  oeta := Vector.replicate 8 0#32
  olam := Vector.replicate 64 0#32
  res := 0#32
  live := false

/-- The tcfg fields (R205). -/
structure Tcfg where
  width : BitVec 2
  int : Bool
  plog2 : BitVec 3
  tra : Bool
  chk : Bool
deriving DecidableEq, Repr

/-- The tcfg state of a plinth after a grant (R205). -/
def Tcfg.zero : Tcfg := ⟨0#2, false, 0#3, false, false⟩

/-- An entry of a load-value queue (R407): the registers that one instruction of the leading hart wrote from outside the
pair, as (number, value) of the x, f and v files, and what else the instruction changed in the hart. -/
structure LvqEnt where
  /-- It answers a request that left the pair. -/
  request : Bool
  xs : List (Nat × Word)
  fs : List (Nat × W32)
  vs : List (Nat × VReg)
  held : Word
  regs : Table RegState
  vbusy : Table Nat
  seq : BitVec 32
  vcnt : Option Vcnt
  pw : Option W32
  mig : Option Mig
  asid : Option (BitVec 16)
  chisel : Option Chisel
deriving DecidableEq, Repr

/-- A hart (R29, R30, R143, R155). -/
structure Hart where
  group : Nat
  hidx : Nat
  cluster : Nat
  pcore : Nat
  slot : Nat
  status : HartStatus
  full : Bool
  priv : Priv
  pc : Word
  x : Vector Word 32
  f : Vector W32 32
  v : Vector VReg 32
  pw : W32
  fflags : BitVec 5
  frm : BitVec 3
  csr : SCsrs
  asid : BitVec 16
  vcnt : Vcnt
  mig : Mig
  /-- x registers that are pending, failed or busy. -/
  regs : Table RegState
  /-- v registers that await relaxed loads, with the access. -/
  vbusy : Table Nat
  /-- Asynchronous issues, modulo 2^32 (R217). -/
  seq : BitVec 32
  /-- A-cycles counted up to `cycFrom`, and the A-cycle since which the count runs (R141). -/
  cycBase : Nat
  cycFrom : Nat
  instret : Nat
  /-- N-cycle of the last issue, if it has issued since it was placed on its core (R31). -/
  lastIssue : Option Nat
  /-- A-cycle since which the hart has been in rotation with the source operands of its next instruction available, as the part
  saw it at the last turn (R31, R32; log 1). -/
  ready : Option Nat
  /-- The line of the LR reservation (R104). -/
  resv : Option Nat
  /-- The held mailbox slot's address, or 0 (R237). -/
  heldSlot : Word
  /-- dxtime at which the limit of the waiting recvt ends, or 0 (R237, R305). -/
  recvEnd : Nat
  /-- Answers already received for the pieces of the instruction that is being performed (R93, R76). -/
  log : List PieceAns
  /-- The plain access that a home holds, if any (R31, R49). -/
  plainOut : Option Nat
  /-- Its answer on the way back. -/
  plainAns : Option PieceAns
  /-- A held fetch that its home has failed: cause, SUB and address (R392). -/
  fetchFail : Option (Nat × Nat × Word)
  /-- What the waiting fence, release or plain access still waits to see drained (R99). -/
  snap : Option (List Nat)
  wait : Option WaitRec
  /-- Boundary deliveries in order of detection (R369). -/
  due : List Boundary
  /-- A stop request waits (R54, R306). -/
  stopReq : Bool
  /-- The A-cycle in which the stop request came. -/
  stopAt : Nat
  /-- The stop request met a trap of the hart in one A-cycle, and so applies at an SRET to U-mode too (R387). -/
  stopSret : Bool
  /-- The stop applies: the hart issues nothing more, and is saved (R255, R306). -/
  stopping : Option StopHow
  /-- Instructions issued since launch, resumption or the last phint (R255). -/
  sinceHint : Nat
  /-- A-cycle at which a yield ends, and the harts it waits for (R259). -/
  yieldEnd : Option Nat
  yieldFor : List Nat
  /-- A-cycle at which a register scrub ends (R396). -/
  scrub : Option Nat
  /-- The target cluster of an exchange, and the physical core that a load balance has chosen (R46, R48). -/
  migTo : Option Nat
  migCore : Option Nat
  /-- Post-buffer entries of its cluster whose bytes a load of the hart has taken (R97, R112). -/
  saw : List Nat
  /-- C of the source core in the context message on its way (R46, R318). -/
  sentC : Nat
  chisel : Chisel
  /-- The partner of a redundant pair, and whether this hart trails (R406). -/
  pair : Option Nat
  trails : Bool
  /-- The load-value queue of a leading hart, oldest first (R407). -/
  lvq : List LvqEnt
  /-- The request this hart has placed in the comparator, with the A-cycle, and whether it has been released (R408). -/
  cmp : Option (List Word × Nat)
  released : Bool
deriving DecidableEq, Repr

/-! ## Barriers -/

/-- One hart's arrival recorded at a stage (R249): who, for which operation, with which combining code and lanes. -/
structure Arrival where
  hart : Nat
  op : Nat
  /-- The combining code of R248: 0 for bar and barrive. -/
  opc : Nat
  lanes : BitVec 64
  /-- The barmax format code, for the completion value of R251. -/
  fmt : Nat
  /-- The hart's context at issue, which a block's bank arrival carries where this arrival completes the stage (R249). -/
  ctx : Ctx
deriving DecidableEq, Repr

/-- A group barrier, a block barrier object or a block's stage of a grid object (R247, R249): its phase, the arrivals of
the phase in order of arrival, those that wait for the next phase, and the bwaits with their tokens. -/
structure BarObj where
  phase : BitVec 32
  value : BitVec 64
  arrivals : List Arrival
  later : List Arrival
  waits : List (Nat × BitVec 32)
deriving DecidableEq, Repr

/-- A barrier object at phase 0. -/
def BarObj.zero : BarObj := ⟨0#32, 0#64, [], [], []⟩

/-- A block's partial on its way to a grid object, or recorded there (R249 item 3). -/
structure GridArr where
  id : Nat
  block : Nat
  /-- The object's address. -/
  va : Word
  ctx : Ctx
  opc : Nat
  lanes : BitVec 64
  /-- The operations that complete with the phase, with the code and the barmax format of each. -/
  ops : List Arrival
  /-- Recorded at the object's bank; false while it travels or is held. -/
  atBank : Bool
deriving DecidableEq, Repr

/-! ## Groups, blocks and grids -/

/-- What a kernel header declares (R168). -/
structure Khdr where
  scratch : Nat
  hintdist : Nat
  barriers : Nat
  mboxmask : BitVec 32
  ringmask : BitVec 8
  compact : Bool
  /-- The 32 words of the mailbox table and the 8 entries (base, lines) of the ring table. -/
  mboxes : List Nat
  ringTab : List (Nat × Nat)
deriving DecidableEq, Repr

/-- The tile commands (R193). -/
inductive TileWhat where
  | cfg (c : Tcfg)
  | zero (acc : Nat)
  | mma (kmajor : Bool) (acc ar br passes : Nat)
  | ldc (acc : Nat) (ef : BitVec 5) (base : Word)
  | stc (acc : Nat) (ef : BitVec 5) (sat : Bool) (s9 : Nat) (base : Word)
  | stat
  | save (acc : Nat) (base : Word)
  | load (acc : Nat) (base : Word)
  /-- trelease: no tile command, but ordered among them (R199). -/
  | release
deriving DecidableEq, Repr

/-- A tile command issued to a plinth. -/
structure Tile where
  id : Nat
  group : Nat
  hart : Nat
  what : TileWhat
  /-- ROWS and COLS at issue, and the group's latest tcfg issued before it (R164, R206). -/
  rows : Nat
  cols : Nat
  cfg : Tcfg
  ctx : Ctx
  gate : List Nat
  fo : FormOp
  op : Option Nat
  accepted : Bool
  /-- A-cycle at which it retires once accepted. -/
  retireAt : Nat
  /-- Lines it takes from ring a and ring b. -/
  na : Nat
  nb : Nat
  /-- A held access of it that its home has failed: cause, SUB and address (R392). -/
  fail : Option (Nat × Nat × Word)
  /-- Lines that it has written so far. -/
  wrote : Nat
  /-- The instruction, x[rs1] and x[rs2] at issue (R305). -/
  bits : Word
  ra : Word
  rb : Word
deriving DecidableEq, Repr

/-- A group (R34). -/
structure Group where
  block : Nat
  index : Nat
  hpg : Nat
  /-- The window: 96 times its CC home's number, plus its number. -/
  win : Nat
  /-- Its run of data granules (R41). -/
  granLo : Nat
  granN : Nat
  harts : List Nat
  /-- Parked (R49), since which N-cycle, and its miss records not yet resident, as (home, STAMP). -/
  parked : Bool
  parkedSince : Nat
  misses : List (Nat × Nat)
  /-- Its parking limit's expiry has been reported or acted on (R54, R323). -/
  expired : Bool
  bar : BarObj
  /-- Its latest tcfg issued (R206). -/
  tcfgIssued : Tcfg
  /-- Tile commands it has issued and that have not retired (R164). -/
  tiles : List Nat
  /-- Loans: the tags lent to it, with the lending hart (R60). -/
  loans : List (Nat × BitVec 16)
  /-- Trap enables of R404: NOHANG is a disable, DLMISS and IOVF are enables. -/
  nohang : Bool
  dlmiss : Bool
  iovf : Bool
  ended : Bool
  /-- Where the group stands in a stop (R54, R418): 0 in place, 1 stopping, 2 saved with its leases, 3 its places are bound
  again and its state is being restored. -/
  away : Nat
  /-- Tile commands withdrawn at the stop (R214). -/
  withdrawn : List Tile
deriving DecidableEq, Repr

/-- Where a block stands (R54, R58). -/
inductive BlockStatus where
  /-- Waiting to be admitted for the first time. -/
  | ready
  | placed
  /-- A stop has been requested; `swapped` says that it leads to a swap. -/
  | stopping
  /-- Saved and off the cores. -/
  | absent
  /-- Placed again: its granules, leases and contexts are being restored (R58). -/
  | returning
  | done
deriving DecidableEq, Repr

/-- A block (R34). -/
structure Block where
  grid : Nat
  index : Nat
  status : BlockStatus
  /-- The cluster of its windows' home, and the cluster that holds it. -/
  home : Nat
  cluster : Nat
  groups : List Nat
  bars : Table BarObj
  /-- Its stages of grid objects, by address (R249). -/
  stages : Table BarObj
  /-- The absolute deadline tag and NODL (R39). -/
  tag : BitVec 16
  nodl : Bool
  /-- N-cycle at which the current stop was requested or the block began to wait. -/
  since : Nat
  /-- Causes 58 already delivered for it (R415). -/
  dlDelivered : Bool
  /-- The largest causal time its cores held at the stop (R318). -/
  stopC : Nat
  /-- Its swap is due (R54), and whether the host has commanded it (R323). -/
  swapCmd : Bool
  hostSwap : Bool
  /-- Windows moved with it: those whose groups all belong to it (R54). -/
  movedWins : List Nat
  /-- What the spill rings of its cores held when it left them (R215). -/
  spill : List SpillEnt
deriving DecidableEq, Repr

/-- What a grid's end completes (R294, R298, R303). -/
inductive GridFor where
  | none
  | packet (pk : Nat)
  | node (gr node : Nat)
  /-- A stage of a pipeline (R300). -/
  | stage (pipe : Nat)
deriving DecidableEq, Repr

/-- The fields of a launch record that the part keeps (R38). -/
structure Launch where
  entry : Word
  khdr : Word
  levels : List Word
  hpg : Nat
  gpb : Nat
  bpg : Nat
  deadline : Nat
  rclass : Nat
  redun : Bool
  parklim : Nat
  compact : Bool
  regclassRaw : Nat
  argp : Word
  savebase : Word
  savestride : Nat
deriving DecidableEq, Repr

/-- A grid (R34). -/
structure Grid where
  serial : Nat
  rec_ : Word
  asid : BitVec 16
  launch : Launch
  hdr : Khdr
  user : Nat
  blocks : List Nat
  ended : Nat
  done : GridFor
  /-- The cluster whose scheduler core owns it. -/
  owner : Nat
  /-- The absolute deadline tag (R39). -/
  tag : BitVec 16
  nodl : Bool
  failed : Bool
  /-- The waits, as (hart, start), on which it was last reported hung (R421). -/
  hung : List (Nat × Nat)
deriving DecidableEq, Repr

/-! ## Cores and windows -/

/-- A line held in an instruction cache, with the context and mode it was fetched for (R20, R103). -/
structure ILine where
  va : Word
  asid : BitVec 16
  priv : Priv
  bytes : List Byte
deriving DecidableEq, Repr

/-- A physical core (R20), by 100 times its cluster plus its number. -/
structure Core where
  /-- The window it holds. -/
  win : Option Nat
  /-- The causal-time counter as last raised; C is never below dxtime (R318). -/
  c : Nat
  icache : List ILine
  /-- The hart that waits for the chisel unit's present instruction to finish (none for a gb.emit), the A-cycle at which it
  finishes while the unit is taken, and the harts whose instructions have reached the unit, in order (R263). -/
  chisel : Option Nat
  chiselEnd : Option Nat
  chiselQ : List Nat
  spill : List SpillEnt
  retired : Bool
  /-- Lanes fused off, 0 or 8 (R417). -/
  lanesOut : Nat
  /-- The last instant a corrected-error record was sent, and the count folded since (R397). -/
  k1Last : Nat
  k1Count : Nat
  /-- The hart number issued last, and the A-cycle of that issue (R31, R32). No reset value is given: 15, after which the round
  starts at 0 (log 116). -/
  lastSlot : Nat
  lastAt : Option Nat
deriving DecidableEq, Repr

/-- A core that holds nothing. -/
def Core.free : Core := ⟨none, 0, [], none, none, [], [], false, 0, 0, 0, 15, none⟩

/-- What a window-map entry shows (R78). -/
inductive GranSt where
  | unbound
  | core (cluster pcore : Nat)
  | frame (va : Word)
  /-- Rebinding from the old binding to the new one since an N-cycle; `acked` once the old core's entry is withdrawn, or at
  once where the granule was in a frame (R80). -/
  | moving (old dest : RebindTo) (acked : Bool) (since : Nat)
deriving DecidableEq, Repr

/-- A ring descriptor (R201). -/
structure Ring where
  base : Word
  lines : Nat
  head : BitVec 32
  tail : BitVec 32
  /-- Lines claimed by accepted commands beyond HEAD (R206). -/
  claim : Nat
deriving DecidableEq, Repr

/-- A descriptor never set. -/
def Ring.zero : Ring := ⟨0#64, 0, 0#32, 0#32, 0⟩

/-- A transfer notice in a window's queue (R231): its 32 bytes and the kick's identity. -/
structure Notice where
  bytes : List Byte
  op : Nat
deriving DecidableEq, Repr

/-- A window (R41, R77), by 96 times its home plus its number. Its configuration words and slots are memory. -/
structure Window where
  grans : Table GranSt
  rings : Table Ring
  /-- Waiting sends: (mailbox, operation), in order of arrival (R236). -/
  sends : List (Nat × Nat)
  notices : List Notice
  /-- Kicks waiting for room (R231). -/
  kicks : List Notice
  /-- Messages hidden by a consistent cut (R308). -/
  hidden : List (Nat × Nat)
  /-- The block the window is assigned to, if any. -/
  assigned : Bool
deriving DecidableEq, Repr

/-- A window that nothing has been assigned to. -/
def Window.zero : Window := ⟨[], [], [], [], [], [], false⟩

/-! ## Accesses, entries and operations in flight -/

/-- Where the value of a relaxed load goes (R188, R243, R185, R186). -/
inductive LoadDst where
  | x (rd : RegIdx) (w : LrxW)
  | v (vd : RegIdx) (lanes : List Nat)
deriving DecidableEq, Repr

/-- How far one piece of an access has come. -/
inductive PieceSt where
  | todo
  | held
  | ans (a : PieceAns)
deriving DecidableEq, Repr

/-- One piece of an access at its virtual address. `inj` is the turn in which its request was injected (R105). -/
structure AccPiece where
  va : Word
  act : Piece
  st : PieceSt
  inj : Option Nat
  /-- It is the second part of an access that R76 splits; the first stands before it. -/
  rest : Bool
deriving DecidableEq, Repr

/-- A relaxed, release or acquire access that has not completed (R94). Stores here are those to window space. -/
structure Acc where
  hart : Nat
  dst : Option LoadDst
  pieces : List AccPiece
  ctx : Ctx
  gate : List Nat
  fo : FormOp
  /-- R307's KIND. -/
  kind : Nat
deriving DecidableEq, Repr

/-- An entry of a cluster's post buffer (R95). -/
structure PbEnt where
  cluster : Nat
  line : Word
  bytes : List (Option Byte)
  tag : Option (BitVec 16)
  owners : List Nat
  asid : BitVec 16
  priv : Priv
  since : Nat
  /-- What a release store in the entry waits for (R99). -/
  gate : List Nat
  /-- Harts with a release store of .fd or wider in the entry, not complete before the port's acknowledgement (R92). -/
  rel : List Nat
  /-- The turn in which its request was injected (R105). -/
  inj : Option Nat
  /-- Has begun to drain, has been sent, is held by a home, has been performed or has failed. -/
  draining : Bool
  sent : Bool
  held : Bool
  performed : Bool
deriving DecidableEq, Repr

/-- The bank operations of R244. -/
inductive BankFn where
  | add | min | minu | max | maxu | xchg | cas | fadd | fmin | fmax
deriving DecidableEq, Repr

/-- The combining operations of bvred (R245). -/
inductive VredFn where
  | addI | addF | minI | minF | maxI | maxF
deriving DecidableEq, Repr

/-- One copy descriptor as an engine holds it (R223): SRC, DST, log2 of the element, the dimensions as (EXTENT,
SSTRIDE, DSTRIDE) with entry 0 first, and the ring to advance. -/
structure Desc where
  src : Word
  dst : Word
  elog2 : Nat
  dims : List (Nat × Int × Int)
  radv : Option Nat
deriving DecidableEq, Repr

/-- What a copy engine's command does (R226). -/
inductive CopyWhat where
  /-- cpy: the descriptor's address; its words are read at the start (R228). -/
  | desc (va : Word)
  /-- cpyd, or a COPY packet or node with its descriptor already read. -/
  | plain (ds : List Desc)
  /-- pref (R232). -/
  | pref (va : Word) (n : Nat)
  /-- An accepted transfer notice of a window (R231). -/
  | notice (win : Nat) (bytes : List Byte)
deriving DecidableEq, Repr

/-- A copy engine's command: queued or active, with what it still has to move. -/
structure CopyCmd where
  id : Nat
  what : CopyWhat
  started : Bool
  /-- The descriptors still to run, the current element's index and the bytes written. -/
  todo : List Desc
  index : Nat
  bytes : Nat
  /-- pref: lines present. -/
  lines : Nat
  cancel : Bool
  /-- An element held by a home, with the side that is held. -/
  heldAt : Option Nat
  /-- The element read and waiting to be written, and the bytes of it that have been. -/
  buf : Option (List Byte × BitVec 16 × Bool)
  part : Nat
  ctx : Ctx
  /-- The issuing hart's cluster home, window home, effective tag and NODL at issue (R225, R226). -/
  clHome : Nat
  winHome : Nat
  tag : BitVec 16
  nodl : Bool
  /-- The operation whose future it completes, or the packet or node. -/
  op : Option Nat
  pk : GridFor
  /-- A failure met: cause, SUB and the address at fault. -/
  fail : Option (Nat × Nat × Word)
  /-- The notification still to be delivered waits at its mailbox (R231). -/
  notified : Bool
  arrived : Nat
  /-- An Ethernet transmit's bytes so far, and whether the frame has left (R326). -/
  frame : List Byte
  sent : Bool
  /-- Its ring has been advanced, by the engine or through the spill ring (R215, R227). -/
  advanced : Bool
  /-- Its notification, while it waits at a full mailbox (R231). -/
  noteOp : Option Nat
deriving DecidableEq, Repr

/-- What an asynchronous operation is (R217). -/
inductive OpKind where
  | bank (fn : BankFn) (dbl : Bool) (va : Word) (v e : Word)
  | vred (fn : VredFn) (va : Word) (lanes : List (Option W32))
  | enq (handle : Word) (v : Word)
  | deq (handle : Word)
  | len (handle : Word)
  /-- bar, barrive, barc and barmax: object, whether it completes on being recorded, code, lanes, format. -/
  | arrive (obj : Word) (early : Bool) (opc : Nat) (lanes : BitVec 64) (fmt : Nat)
  | bwait (obj : Word) (token : BitVec 32)
  | lease
  | tile
  | copy
  /-- cpyk: the notice's address and the kick register's. -/
  | kick (notice kreg : Word)
  /-- sendp, and a send whose image has been read: payload, LEN and USER. -/
  | send (mbox : Word) (nowait : Bool) (payload : List Byte) (len user : Nat)
  /-- send whose image is still to be read (R235). -/
  | sendImg (mbox : Word) (nowait : Bool) (img : Word)
  /-- gb.emit (R272). -/
  | emit (mbox : Word) (nowait : Bool) (edge : Word) (outdim : Nat) (eta : Vector W32 8) (lam : Vector W32 64) (tau : W32)
  /-- A message that has left its hart and waits at its mailbox: the slot's 256 bytes, LEN and the tag of its lines. -/
  | msg (mbox : Word) (nowait : Bool) (image : List Byte) (len : Nat) (tag : BitVec 16)
  | launch (rec_ : Word) (q : Nat)
  /-- A tring that waits for earlier tile commands naming its ring (R202). -/
  | tring (win ring : Nat) (base : Word) (lines : Nat)
deriving DecidableEq, Repr

/-- How far an operation has come. -/
inductive OpSt where
  /-- On its way; its gate may still hold it. -/
  | issued
  /-- In a home's miss list, or waiting for a granule that is being rebound. -/
  | held
  /-- Accepted by the unit that performs it, and waiting there. -/
  | waiting
  /-- Performed; its completion is on its way with this value. -/
  | done (v : Word)
  /-- Failed with cause, SUB and COUNT; the failure is on its way. -/
  | failed (cause sub count : Nat) (addr : Word)
deriving DecidableEq, Repr

/-- An asynchronous operation of a hart (R217). -/
structure Op where
  hart : Nat
  kind : OpKind
  st : OpSt
  fo : FormOp
  how : FailHow
  scope : Scope
  ctx : Ctx
  gate : List Nat
  /-- The snapshot of older post-buffer entries has been added to `gate` (R99). -/
  drained : Bool
  tag : BitVec 16
  nodl : Bool
  /-- The hart's cluster and window at issue. -/
  cluster : Nat
  win : Nat
  /-- Order of issue among the hart's sends (R239). -/
  since : Nat
  /-- The turn in which its request was injected (R105). -/
  inj : Option Nat
  /-- BETA as step 2 of a gb.emit has read it (R272). -/
  beta : Option Nat
deriving DecidableEq, Repr

/-- Whom a home answers for a request that it holds. -/
inductive Who where
  | plain (h : Nat)
  | acc (a piece : Nat)
  | entry (e : Nat)
  | op (o : Nat)
  | grid (g : Nat)
  | engine (e cmd : Nat) (write : Bool)
  | fetch (h : Nat)
  /-- A hart that stops at a phint, and reads its live-range table (R256). -/
  | table (h : Nat)
  /-- Tile command `id` of plinth `pi`, whose retirement waits for a page. -/
  | tile (pi id : Nat)
  /-- A scheduler core, which asks again (R449). -/
  | unit
  /-- A scheduler core's write, which the home performs at the replay (R49). -/
  | write
  /-- A posted write received at host port `p`, which the home performs at the replay (R49, R115). -/
  | host (p : Nat)
  /-- A read received at host port `p`, which the port asks again (R390). -/
  | hostRd (p : Nat)
deriving DecidableEq, Repr

/-- Why a home holds a request. -/
inductive HoldWhy where
  /-- The page is not resident (R49). -/
  | miss
  /-- The granule is being rebound (R80). -/
  | rebind (win g : Nat)
  /-- The requester's trace ring is full and TSTALL is set, or an earlier such request holds the page (R114). -/
  | ring
  /-- A write of HMISSDONE has selected the entry for another walk; `fail` is its FAIL bit (R392). -/
  | retry (fail : Bool)
  /-- The spill ring of the granule's core is full (R215): it waits until the ring's entries have been applied. -/
  | spill (win g : Nat)
  /-- The request or its response was lost on a dead link, and interface `iface` waits for it (R401). -/
  | lost (iface : Nat)
  /-- A unit's own miss or lost request has failed; the unit learns of it as it asks again (R392, R401). -/
  | gone (cause sub : Nat)
deriving DecidableEq, Repr

/-- What a traced store says of itself: log2 of its width, and whether it is an atomic's or an SC's (R114). -/
structure Traced where
  size : Nat
  atomic : Bool
deriving DecidableEq, Repr

/-- The page that a request meets: the home whose tables map it, its address there and the context it is mapped in. A granule in a
save frame is met at the frame's MC home (R79). -/
structure PageRef where
  home : Nat
  va : Word
  asid : BitVec 16
deriving DecidableEq, Repr

/-- What a host port answers (R321, R390). -/
inductive HostAns where
  | data (bytes : List Byte) (poison : Bool)
  /-- Unsupported Request. -/
  | unsupported
  /-- Completer Abort. -/
  | abort
  /-- An AER non-fatal error is signalled. -/
  | aer
deriving DecidableEq, Repr

/-- A request that a home holds (R49, R55, R114). -/
structure Held where
  home : Nat
  stamp : Nat
  /-- Its place in the order of R51: for a relaxed access the first STAMP among its hart's held ones of the page. -/
  first : Nat
  page : PageRef
  va : Word
  act : Piece
  kind : AccKind
  relaxed : Bool
  ctx : Ctx
  who : Who
  why : HoldWhy
  /-- N-cycle since which it is held, or at which HMISSDONE selected it. -/
  time : Nat
  /-- What a hart's plain store or atomic logs on a traced page. -/
  trace : Option Traced
  /-- It comes through a host port. -/
  fromHost : Bool
  /-- No valid leaf mapped its page when it missed, so that the page becomes resident through a fill (R87). -/
  unfilled : Bool
  /-- The service mode in which its miss began (R28): host-assisted when true. -/
  hostMode : Bool
deriving DecidableEq, Repr

/-! ## Homes, plinths, engines -/

/-- A leaf in a home's memory-side TLB (R74): log2 of the page, the page's first offset, the leaf. -/
structure TlbEnt where
  asid : BitVec 16
  log : Nat
  base : Nat
  leaf : Word
deriving DecidableEq, Repr

/-- The home logic of a CC or an MC. -/
structure HomeSt where
  ctxBase : Word
  missSeq : BitVec 32
  traceSeq : BitVec 32
  errSeq : BitVec 32
  tlb : List TlbEnt
deriving DecidableEq, Repr

/-- Home logic at module reset. -/
def HomeSt.zero : HomeSt := ⟨0#64, 0#32, 0#32, 0#32, []⟩

/-- One accumulator of a plinth (R192): values by 128 row + column, inner accumulators, pending flags, pass count. -/
structure Accum where
  c : Table W32
  inner : Table Ext
  pend : List Nat
  passes : Nat
deriving DecidableEq, Repr

/-- An accumulator of zeros. -/
def Accum.zero : Accum := ⟨[], [], [], 0⟩

/-- A group that waits on tlease (R197): its operations, its lost re-arbitrations, when it asked. -/
structure Waiter where
  group : Nat
  ops : List Nat
  lost : Nat
  since : Nat
deriving DecidableEq, Repr

/-- A plinth (R192), by 4 times its cluster plus its number. -/
structure Plinth where
  accs : Vector Accum 4
  cfg : Tcfg
  iovf : Bool
  chk : Bool
  holder : Option Nat
  cmdLeft : Nat
  /-- A-cycle at which the lease's 4,096 end. -/
  leaseEnd : Nat
  /-- A handover in progress: the winner's group and the A-cycle at which it holds (R198). -/
  handover : Option (Nat × Nat)
  waiters : List Waiter
  /-- Commands issued and not retired, in order. -/
  queue : List Tile
  /-- The hart that issued the lease's last accepted command, with FORM and OP of that command (R414). -/
  lastHart : Option (Nat × FormOp)
  /-- A-cycle until which accepted commands occupy the plinth, and whether the last was a matrix command (R213). -/
  busyTo : Nat
  lastMma : Bool
deriving DecidableEq, Repr

/-- A plinth at reset. -/
def Plinth.zero : Plinth :=
  ⟨Vector.replicate 4 Accum.zero, Tcfg.zero, false, false, none, 0, 0, none, [], [], none, 0, false⟩

/-! ## Miss records, queues, packets and graphs -/

/-- A miss record on its way to the requesting core and to the service agent (R49, R50). -/
structure MissRec where
  home : Nat
  stamp : Nat
  va : Word
  asid : BitVec 16
  ctx : Ctx
  /-- KIND of R50. -/
  kind : Nat
  time : Nat
  toCore : Bool
  toAgent : Bool
  /-- The service mode in which the miss began (R28): host-assisted when true. -/
  hostMode : Bool
deriving DecidableEq, Repr

/-- A packet that a scheduler core has taken and that has not completed (R292, R294). -/
structure Packet where
  queue : Nat
  /-- The ring index it was taken at. -/
  index : Nat
  /-- Its 64 bytes. -/
  bytes : List Byte
  tag : BitVec 16
  nodl : Bool
  /-- The IB packet it belongs to (R294). -/
  parent : Option Nat
  /-- An IB packet's next index and the packets of its buffer still running. -/
  ibNext : Nat
  ibOpen : Nat
  /-- Its work is done; PACKET_COMPLETE performs the steps of R294 item 3 and 4. -/
  finished : Bool
  /-- It has been performed (a WAITSIG or a COPY may still be waiting for its work). -/
  started : Bool
  failed : Bool
  /-- What its completion's release waits for, once that has begun (R294 item 3). -/
  gate : Option (List Nat)
deriving DecidableEq, Repr

/-- A node of a running graph (R297). -/
inductive NodeSt where
  | idle | launched | working | finished
  /-- Finished: its release waits for these entries (R297). -/
  | releasing (gate : List Nat)
  /-- An HRING node that has written its entry of the ring described at this location: its release waits for these entries
  (R299). -/
  | publishing (key : Nat) (gate : List Nat)
deriving DecidableEq, Repr

/-- A running command graph (R296 to R298). -/
structure GraphRun where
  pk : Nat
  table : Word
  nnodes : Nat
  nodes : Table NodeSt
  failed : Bool
deriving DecidableEq, Repr

/-- A pipeline being placed or running (R300, R301): its stages' grids by stage number, and the channels configured as
(stage, output). -/
structure PipeRun where
  prec : Word
  nstage : Nat
  rounds : Nat
  /-- The output channels of each stage, as (TSTAGE, TMBOX, ALLOW). -/
  outs : Table (List (Nat × Nat × Nat))
  grids : Table Nat
  configured : List (Nat × Nat)
  started : List Nat
  ended : Nat
  asid : BitVec 16
  done : GridFor
  failed : Bool
deriving DecidableEq, Repr

/-- What a scheduler core keeps of a queue beside its record in memory (R288, R426). -/
structure QueueSt where
  halted : Bool
  /-- The packet at which a WAITSIG or a SERIAL packet blocks the queue. -/
  block : Option Nat
  /-- N-cycle since which the queue has been empty (R290). -/
  emptySince : Nat
  /-- N-cycle since which its present head waits for dispatch (R286). -/
  headSince : Nat
  /-- Launches of the queue waiting for room (R303). -/
  launches : List Nat
deriving DecidableEq, Repr

/-- A line that a scheduler core watches at a bank, and for which packet or node (R294, R299). -/
structure Watch where
  va : Word
  /-- The line watched, by location div 64. -/
  line : Nat
  asid : BitVec 16
  pk : Option Nat
  node : Option (Nat × Nat)
  /-- The bank has seen a write; the notice is on its way. -/
  noticed : Bool
deriving DecidableEq, Repr

/-- A host ring's coalescing timer (R299). -/
structure HrTimer where
  rdesc : Word
  asid : BitVec 16
  due : Nat
deriving DecidableEq, Repr

/-- A job being stopped for a consistent cut (R308): a grid, or the pipeline record's run. -/
structure Cut where
  grid : Option Nat
  pipe : Option Nat
  /-- Stages stopped so far. -/
  stopped : List Nat
deriving DecidableEq, Repr

/-! ## Edge chiplets, sites, links, boot -/

/-- A field's power registers (R335). -/
structure Power where
  fplim : Nat
  fpwr : Nat
  tlim : Nat
  temp : BitVec 16
  mod : Bool
  therm : Bool
  pwr : Bool
  clevel : Nat
  plevel : Nat
  mvolt : Nat
  amps : Nat
deriving DecidableEq, Repr

/-- The power registers at module reset (R335). -/
def Power.zero : Power := ⟨1125, 0, 760, 0#16, false, false, false, 16, 16, 0, 0⟩

/-- An Ethernet port (R325 to R327). -/
structure Eth where
  rxbase : Word
  rxq : Word
  en : Bool
  log2n : Nat
  drops : Nat
  rxcnt : Nat
  txcnt : Nat
  /-- Slots in use. -/
  used : Nat
  /-- Frames sent: the wire's side of the port, latest last. -/
  sent : List (List Byte)
deriving DecidableEq, Repr

/-- A port at module reset. -/
def Eth.zero : Eth := ⟨0#64, 0#64, false, 0, 0, 0, 0, 0, []⟩

/-- A doorbell page and what its slot maps (R289, R320). -/
structure Slot where
  queue : Option Nat
  vec : Nat
  en : Bool
  /-- N-cycle of the last interrupt, and whether one is owed at the end of its µs. -/
  last : Option Nat
  owed : Bool
  /-- The queue whose unmap has unbound the slot, with the N-cycle of the unmap's step 3 once that is done (R290, R291). -/
  leaving : Option (Nat × Option Nat)
deriving DecidableEq, Repr

/-- A slot at module reset. -/
def Slot.zero : Slot := ⟨none, 0, false, none, false, none⟩

/-- A site or edge chiplet in bring-up (R328, R331). Values 14 and 15 of `st` are reserved. -/
structure Site where
  st : Nat
  wave : Nat
  links : Nat
  hops : Nat
  origin : Nat
  /-- Failed attempts to load or to train (R436). -/
  tries : Nat
  /-- N-cycle at which its clocks locked. -/
  since : Nat
  /-- Its count of device time is out of alignment (R438, R444; log 34). -/
  off : Bool
deriving DecidableEq, Repr

/-- A dark site. -/
def Site.dark : Site := ⟨0, 0, 0, 0, 0, 0, 0, false⟩

/-- A page migration in progress (R324, R89). -/
structure PgMig where
  note : Word
  asid : BitVec 16
  toDevice : Bool
  move : Bool
  loc : Bool
  hport : Nat
  frame : Nat
  va : Word
  step : Nat
  /-- The step's snapshot of post-buffer entries to drain. -/
  gate : List Nat
deriving DecidableEq, Repr

/-- A dead link (R400, R401): its number, the N-cycle of its death, the interfaces that have received the death notice, with the
N-cycle of the notice, and those whose NST has been rewritten since. -/
structure DeadLink where
  link : Nat
  since : Nat
  noticed : Table Nat
  rerouted : List Nat
deriving DecidableEq, Repr

/-- A memory chiplet's state beside its DRAM (R84, R398). Descriptors and waiters are by queue number, filters and
counters by bank. -/
structure Mc where
  queues : Table (BitVec 128)
  enqWait : Table (List Nat)
  deqWait : Table (List Nat)
  bloom : Table (List Nat)
  repeats : Table Nat
deriving DecidableEq, Repr

/-- A memory chiplet at module reset. -/
def Mc.zero : Mc := ⟨[], [], [], [], []⟩

/-- A cluster's dispatcher and scheduler core (R48, R404, R428 to R433). -/
structure Cluster where
  /-- dxload as last refreshed (R48). -/
  dxload : Word
  /-- The trap enable table (R404). -/
  enables : Table Word
  hbeat : Nat
  fenced : Bool
  /-- The HBEAT value the watcher last read and how often in a row it did (R428). -/
  watchSeen : Nat
  watchSame : Nat
  adopter : Option Nat
  /-- CTXDOWN.ASID, and the context of the tear-down in progress, while BUSY is 1 (R433). -/
  tdAsid : BitVec 16
  tdGo : Option (BitVec 16)
  /-- Slots reserved for arriving contexts (R46), as (physical core, hart). -/
  reserved : List (Nat × Nat)
  /-- Uncorrectable register reads: N-cycle and core (R418). -/
  ueTimes : List (Nat × Nat)
deriving DecidableEq, Repr

/-- A cluster at module reset. -/
def Cluster.zero : Cluster := ⟨0#64, [], 0, false, 0, 0, none, 0#16, none, [], []⟩

/-- The service ring's posting (R322): KIND, the home or cluster number, the 32-byte body. -/
structure Posting where
  kind : Nat
  src : Nat
  body : List Byte
deriving DecidableEq, Repr

/-- The module registers of E0 and of the booting edge. -/
structure Module where
  mduty : Nat
  mdutyLock : Bool
  qtbase : Word
  nstidx : Word
  attempt : Nat
  bootEdge : Bool
  /-- MODSTAT.STATE as last shown, for vector 1 (R320). -/
  shownState : Nat
  mplim : Nat
  mpwr : Nat
  mpeak : Nat
  /-- Module power as sampled over the last 10 ms: (N-cycle, mW). -/
  mpSamples : List (Nat × Nat)
  /-- N-cycle since which the module draws more than 15 kW, and the end of the last such excursion (R24). -/
  excFrom : Option Nat
  excEnd : Option Nat
  apers : Table Word
  /-- The MSI-X tables of the host ports as written (R320): by 4,096 times the port plus the doubleword. -/
  msix : Table Word
  hsbase : Word
  hswr : Nat
  hsrd : Nat
  hsctl : Nat
  hsLast : Option Nat
  hsOwed : Bool
  postings : List Posting
  pgreq : Table Word
  rtable : Table Word
  /-- The reservation table as the interfaces and MCs hold it (R283). -/
  rcopy : Table Word
  /-- Expiries reported to the host: (block, group, cluster) (R323). -/
  reports : List (Nat × Nat × Nat)
  meas : Table (List Byte)
  /-- Whether MDUTY, QTBASE and the reservation table have been measured (R333, MEAS5). -/
  measured : List Nat
  attnonce : Table Word
  /-- N-cycle of the latest tear-down of an ASID (R434, R435). -/
  downs : Table Nat
  attBusy : Bool
  attDone : Bool
  attFrom : List Byte
  report : List Byte
  /-- Records held until the log can take them, and LOST (R423). -/
  held : List (List Byte)
  lost : Nat
  health : Word
  /-- N-cycle of the last vector 0 of each port, the ports with records that are new since, and the interrupts that each owes for
  records logged with MDUTY.ERRCOL = 1 (R28, R423). -/
  v0Last : Table Nat
  v0New : List Nat
  v0Owed : Table Nat
  serial : Nat
  dirtyDead : Nat
deriving DecidableEq, Repr

/-- The flash, the root of trust and recovery mode (R332, R439 to R441). Images and the staging buffer are memory. -/
structure Boot where
  /-- Lengths of the images in slots A and B of E0's and of E8's flash: 2 edge + slot. -/
  slots : Table Nat
  selector : Table Nat
  /-- E0's own root of trust checks (R439). -/
  rotOk : Bool
  verified : Bool
  fwslot : Nat
  secver : Nat
  recovery : Bool
  phase : Nat
  reasonA : Nat
  reasonB : Nat
  recpage : Nat
  recnonce : Table Word
  recLen : Nat
  recSlot : Nat
  recReport : List Byte
  /-- N-cycle T0 of the wave launch (R329). -/
  t0 : Option Nat
  /-- Waves on their way: site, origin, hops. -/
  waves : List (Nat × Nat × Nat)
  /-- The configurations that the origin edges have written, by site (R333). -/
  confs : Table (List Byte)
deriving DecidableEq, Repr

/-! ## The schedule -/

/-- Which agent moves (log 1). -/
inductive Agent where
  /-- The hart with this number issues. -/
  | hart (h : Nat)
  /-- An event of the opcode table happens to this subject. -/
  | event (i : Instr) (subj : Nat)
deriving DecidableEq, Repr

/-- One turn of the schedule: N-cycles that pass first, then the agent. -/
structure Turn where
  dt : Nat
  agent : Agent
deriving DecidableEq, Repr

/-! ## The state -/

/-- The whole part. -/
structure State where
  /-- The schedule: which agent moves next, and after how long (log 1). -/
  tape : List Turn
  /-- The hart that issues: set by a hart's turn, and the one that issues when the schedule names no agent (log 1). -/
  cur : Nat
  /-- The subject of the event that happens (log 1). -/
  subj : Nat
  /-- Turns taken: the order in which requests were injected (R105). -/
  turnNo : Nat
  /-- Counter of free values (log 3). -/
  freeCtr : Nat
  /-- The next identity of anything in flight or launched (log 2). -/
  nextId : Nat
  /-- N-cycles since module reset (R5, R317). -/
  ncyc : Nat
  /-- DRAM per MC in GiB: 12 with ordering code F12, 16 with F16 (R1, R21). State.reset stands for F12: the model's choice (log 115). -/
  gib : Nat
  mem : List Host.Cell
  tags : Table (BitVec 16)
  /-- Poisoned words and lines, by their first byte's location (R394). -/
  poison : List Nat
  harts : Table Hart
  groups : Table Group
  blocks : Table Block
  grids : Table Grid
  cores : Table Core
  windows : Table Window
  plinths : Table Plinth
  engines : Table (List CopyCmd)
  pb : Table PbEnt
  accs : Table Acc
  ops : Table Op
  gridArrs : Table GridArr
  /-- Bwaits at grid objects: (operation, object, token) (R251). -/
  gridWaits : List (Nat × Word × BitVec 32)
  held : List Held
  missRecs : Table MissRec
  homes : Table HomeSt
  mcs : Table Mc
  clusters : Table Cluster
  queues : Table QueueSt
  packets : Table Packet
  graphs : Table GraphRun
  pipes : Table PipeRun
  watches : Table Watch
  timers : Table HrTimer
  cuts : Table Cut
  slots : Table Slot
  powers : Table Power
  eths : Table Eth
  mod : Module
  boot : Boot
  sites : Table Site
  homeMap : Table (BitVec 16)
  /-- NST entries that differ from bit 0 of the home: 1,024 times the interface plus the home (R314). -/
  nst : Table Bool
  deadLinks : List DeadLink
  /-- The N-cycles of a link's replays, of which those of the last ms count (R399). -/
  replays : Table (List Nat)
  /-- Homes for which a KIND 10 record has been written (R400). -/
  unreach : List Nat
  /-- Token buckets: 64 times the agent plus the class (R284). -/
  buckets : Table Nat
  /-- N-cycle up to which a bucket has been refilled. -/
  refilled : Table Nat
  /-- Requests that count as conforming through age (R286). -/
  aged : List Nat
  pgMigs : Table PgMig
  /-- Interrupts sent: (host port, vector), latest last. -/
  irqs : List (Nat × Nat)
  /-- What the host ports have answered, latest last. -/
  hostAns : List (Nat × HostAns)
  /-- The index of the fatal condition on which the part is frozen (R445). -/
  frozen : Option Nat
deriving DecidableEq, Repr

/-- Reasons a step can stop. -/
inductive Fault where
  /-- Raised by `step` when the schedule's next turn is no turn of the part: an instruction of a hart as an event, an
  ill-formed event or a subject outside the part's counts. Safe: no agent of the hardware acts so. -/
  | illFormedTurn
deriving DecidableEq, Repr

/-- Reasons an instruction has no meaning. -/
inductive Refusal where
  /-- Raised by an arm of `exec` that has no meaning yet. Safe. -/
  | notModelled (mnemonic : String)
deriving DecidableEq, Repr

/-- The module registers at module reset (R26, R287, R316, R321 to R335, R442). -/
def Module.zero : Module where
  mduty := 0
  mdutyLock := false
  qtbase := 0#64
  nstidx := 0#64
  attempt := 0
  bootEdge := false
  shownState := 0
  mplim := 15000
  mpwr := 0
  mpeak := 0
  mpSamples := []
  excFrom := none
  excEnd := none
  apers := []
  msix := []
  hsbase := 0#64
  hswr := 0
  hsrd := 0
  hsctl := 0
  hsLast := none
  hsOwed := false
  postings := []
  pgreq := []
  rtable := []
  rcopy := []
  reports := []
  meas := []
  measured := []
  attnonce := []
  downs := []
  attBusy := false
  attDone := false
  attFrom := []
  report := []
  held := []
  lost := 0
  health := 0#64
  v0Last := []
  v0New := []
  v0Owed := []
  serial := 0
  dirtyDead := 0

/-- The root of trust and the recovery registers at module reset (R440). -/
def Boot.zero : Boot where
  slots := []
  selector := []
  rotOk := true
  verified := false
  fwslot := 0
  secver := 0
  recovery := false
  phase := 0
  reasonA := 0
  reasonB := 0
  recpage := 0
  recnonce := []
  recLen := 0
  recSlot := 0
  recReport := []
  t0 := none
  waves := []
  confs := []

/-- The module right after module reset (R328): every site dark, every register at its reset value, nothing launched,
nothing in memory listed. It stands for ordering code F12 (log 115), and registers that the spec gives no reset value are 0 (log 19). -/
def State.reset : State where
  tape := []
  cur := 0
  subj := 0
  turnNo := 0
  freeCtr := 0
  nextId := 1
  ncyc := 0
  gib := 12
  mem := []
  tags := []
  poison := []
  harts := []
  groups := []
  blocks := []
  grids := []
  cores := []
  windows := []
  plinths := []
  engines := []
  pb := []
  accs := []
  ops := []
  gridArrs := []
  gridWaits := []
  held := []
  missRecs := []
  homes := []
  mcs := []
  clusters := []
  queues := []
  packets := []
  graphs := []
  pipes := []
  watches := []
  timers := []
  cuts := []
  slots := []
  powers := []
  eths := []
  mod := Module.zero
  boot := Boot.zero
  sites := []
  homeMap := []
  nst := []
  deadLinks := []
  replays := []
  unreach := []
  buckets := []
  refilled := []
  aged := []
  pgMigs := []
  irqs := []
  hostAns := []
  frozen := none

end Sys2Proof.Machine
end

