-- ==== Sys2Proof/Machine/Table.lean ====
section
/-! DEFINITION. Sparse tables, and memory: one list of cells in canonical form (addresses strictly rising, no cell that
holds what an unlisted address reads as). -/

namespace Sys2Proof.Machine

/-! ## Tables -/

/-- The entry of a key. -/
def tget {α : Type} (t : Table α) (k : Nat) : Option α :=
  match t with
  | [] => none
  | (i, v) :: r => if i = k then some v else tget r k

/-- The entry of a key, or a default. -/
def tgetD {α : Type} (t : Table α) (k : Nat) (d : α) : α := (tget t k).getD d

/-- Puts an entry, keeping the keys rising. -/
def tset {α : Type} (t : Table α) (k : Nat) (v : α) : Table α :=
  match t with
  | [] => [(k, v)]
  | (i, w) :: r => if k < i then (k, v) :: (i, w) :: r else if i = k then (k, v) :: r else (i, w) :: tset r k v

/-- Removes an entry. -/
def tdel {α : Type} (t : Table α) (k : Nat) : Table α :=
  match t with
  | [] => []
  | (i, w) :: r => if i = k then tdel r k else (i, w) :: tdel r k

/-- Changes an entry that exists. -/
def tmod {α : Type} (t : Table α) (k : Nat) (f : α → α) : Table α :=
  match t with
  | [] => []
  | (i, w) :: r => if i = k then (i, f w) :: r else (i, w) :: tmod r k f

/-- The keys. -/
def tkeys {α : Type} (t : Table α) : List Nat := t.map Prod.fst

/-! ## Memory -/

/-- What an unlisted location reads as: RAM after power-on holds no value of the spec's; the model takes 0 (log 5). -/
def unwritten : Byte := 0#8

/-- One byte. -/
def memGet (m : List Host.Cell) (k : Nat) : Byte :=
  match m with
  | [] => unwritten
  | (i, b) :: r => if i = k then b else memGet r k

/-- Writes one byte, keeping the canonical form. -/
def memSet (m : List Host.Cell) (k : Nat) (b : Byte) : List Host.Cell :=
  match m with
  | [] => if b = unwritten then [] else [(k, b)]
  | (i, c) :: r =>
    if k < i then (if b = unwritten then (i, c) :: r else (k, b) :: (i, c) :: r)
    else if i = k then (if b = unwritten then r else (k, b) :: r)
    else (i, c) :: memSet r k b

/-- Every listed address is above `lo`, addresses rise strictly, and no cell holds the unwritten byte. -/
def memWfFrom (lo : Option Nat) : List Host.Cell → Bool
  | [] => true
  | (i, b) :: r => (match lo with
      | none => true
      | some l => decide (l < i)) && b != unwritten && memWfFrom (some i) r

/-- The canonical form of memory. -/
def Memory.wf (m : List Host.Cell) : Bool := memWfFrom none m

/-- `n` bytes from a location on. -/
def memRead (m : List Host.Cell) (k : Nat) : Nat → List Byte
  | 0 => []
  | n + 1 => memGet m k :: memRead m (k + 1) n

/-- Writes bytes from a location on; `none` leaves a byte as it is. -/
def memWrite (m : List Host.Cell) (k : Nat) : List (Option Byte) → List Host.Cell
  | [] => m
  | none :: r => memWrite m (k + 1) r
  | some b :: r => memWrite (memSet m k b) (k + 1) r

/-- The number that bytes hold, the first lowest (R6). -/
def natOfBytes : List Byte → Nat
  | [] => 0
  | b :: r => b.toNat + 256 * natOfBytes r

/-- The `n` bytes of a number, the lowest first (R6). -/
def bytesOfNat : Nat → Nat → List Byte
  | 0, _ => []
  | n + 1, v => BitVec.ofNat 8 v :: bytesOfNat n (v / 256)

/-- Bits `[lo + n - 1 : lo]` of a number. -/
def bitsOf (v lo n : Nat) : Nat := v / 2 ^ lo % 2 ^ n

/-- A number with bits `[lo + n - 1 : lo]` replaced. -/
def putBits (v lo n f : Nat) : Nat := v - bitsOf v lo n * 2 ^ lo + f % 2 ^ n * 2 ^ lo

/-- Sign-extends the low `n` bits of a number to 64 bits. -/
def sextNat (n v : Nat) : Word :=
  if 2 ^ (n - 1) ≤ v % 2 ^ n then BitVec.ofNat 64 (v % 2 ^ n + (2 ^ 64 - 2 ^ n)) else BitVec.ofNat 64 (v % 2 ^ n)

/-- A Bool as 0 or 1. -/
def b2n (b : Bool) : Nat := if b then 1 else 0

end Sys2Proof.Machine
end

