-- ==== Sys2Proof/Machine/Access.lean ====
section
/-! DEFINITION. Accessors: the part's time, its numbers and addresses, the tables of `State`, and the registers of a
hart. Every read and write of a register goes through here. -/

namespace Sys2Proof.Machine

/-! ## Time (R5, R280, R317) -/

/-- N-cycles in one µs. -/
def usN : Nat := 1400
/-- N-cycles in one ms. -/
def msN : Nat := 1400000

/-- Device time at E0 in ns: the count starts at 0 at module reset and runs at 1 per ns, 5/7 ns to an N-cycle (R161). -/
def State.nsE0 (s : State) : Nat := s.ncyc * 5 / 7
/-- dxtime of a core or cluster: 0 at module reset, and within 4 ns of E0's after it (R161, R317). -/
def State.nsAt (s : State) (agent : Nat) : Nat := if s.ncyc = 0 then 0 else s.nsE0 + Config.skew agent % 9 - 4
/-- The A-cycle count (R5). -/
def State.acyc (s : State) : Nat := s.ncyc / 2
/-- The time base of deadline tags (R280). -/
def State.tagNow (s : State) : Nat := s.nsE0 / 64 % 65536

/-- The tag that a comparison uses (R281). -/
def State.effTag (s : State) (tag : BitVec 16) (nodl : Bool) : Nat :=
  if nodl then (s.tagNow + 0x7FFF) % 65536
  else
    let slack := (tag.toNat + 65536 - s.tagNow) % 65536
    if 0x8000 ≤ slack ∧ slack ≤ 0xC000 then (s.tagNow + 0xC000) % 65536 else tag.toNat

/-- Tag `a` is earlier than tag `b` (R280). -/
def tagEarlier (a b : Nat) : Bool :=
  let d := (b + 65536 - a) % 65536
  decide (1 ≤ d) && decide (d ≤ 0x7FFF)

/-! ## Addresses and homes (R62, R63) -/

/-- HOME of an address. -/
def vaHome (a : Word) : Nat := bitsOf a.toNat 47 10
/-- OFFSET of an address. -/
def vaOff (a : Word) : Nat := a.toNat % 2 ^ 47
/-- REGION of an address. -/
def vaRegion (a : Word) : Nat := bitsOf a.toNat 57 7
/-- Bits [56:0] of an address. -/
def vaLow (a : Word) : Nat := a.toNat % 2 ^ 57
/-- The address of an offset in a home. -/
def mkVa (home off : Nat) : Word := BitVec.ofNat 64 (2 ^ 47 * home + off)

/-- The address `n` bytes on, modulo 2^64. -/
def addrPlus (a : Word) (n : Nat) : Word := a + BitVec.ofNat 64 n

/-- A cluster home. -/
def isCC (h : Nat) : Bool := decide (h < 0x180)
/-- A memory chiplet's home. -/
def isMC (h : Nat) : Bool := decide (0x180 ≤ h) && decide (h < 0x240)
/-- An edge chiplet's home. -/
def isEdge (h : Nat) : Bool := decide (0x240 ≤ h) && decide (h < 0x250)
/-- A host home. -/
def isHost (h : Nat) : Bool := decide (0x3F0 ≤ h) && decide (h < 0x3F4)

/-- Where the window space of a CC home ends (R65). -/
def winEnd : Nat := 0x6000000
/-- Where the home control block begins (R65). -/
def ctlBase : Nat := 0x7FFFFFF00000

/-- An address in the window space of a CC home. -/
def inWindowSpace (a : Word) : Bool := isCC (vaHome a) && decide (vaOff a < winEnd)

/-- The line of an address. -/
def lineOf (a : Word) : Word := BitVec.ofNat 64 (a.toNat / 64 * 64)

/-- The MC whose DRAM holds a CC or MC home's frames and tables (R16, R65). -/
def nearMc (home : Nat) : Nat := if isCC home then home / 2 else home - 0x180
/-- The cluster whose scheduler core serves a home's misses (R27). -/
def serviceCluster (home : Nat) : Nat := if isCC home then home else 2 * (home - 0x180)

/-- The site of a chiplet's home: 24 y + x, or 576 + e for an edge chiplet (R14 to R18). -/
def siteOfHome (home : Nat) : Nat :=
  if isCC home then
    let n := home / 24
    let ry := home % 24 / 4
    let j := home % 4
    let c := if j = 0 then 0 else if j = 1 then 2 else if j = 2 then 3 else 5
    24 * (6 * (n / 4) + ry) + (6 * (n % 4) + c)
  else if isMC home then
    let m := home - 0x180
    let n := m / 12
    let ry := m % 12 / 2
    let c := if m % 2 = 0 then 1 else 4
    24 * (6 * (n / 4) + ry) + (6 * (n % 4) + c)
  else if isHost home then 576 + 4 * (home - 0x3F0)
  else 576 + (home - 0x240)

/-- The field of a CC or MC home's site (R14). -/
def fieldOfHome (home : Nat) : Nat := if isCC home then home / 24 else if isMC home then (home - 0x180) / 12 else 16

/-! ## Locations -/

/-- The location of a physical address in an MC's DRAM. -/
def dramKey (m p : Nat) : Nat := 2 ^ 48 * m + p
/-- The location of an offset in granule `g` held by a physical core (R41). -/
def coreKey (cluster pcore g off : Nat) : Nat := 2 ^ 56 + 2 ^ 14 * ((cluster * 100 + pcore) * 17 + g) + off
/-- The location of an offset in a core's mailbox store (R77). -/
def mboxKey (cluster pcore off : Nat) : Nat := 2 ^ 57 + 2 ^ 16 * (cluster * 100 + pcore) + off
/-- The location of an address in host memory behind a port (R321). -/
def hostKey (port a : Nat) : Nat := 2 ^ 58 + 2 ^ 47 * port + a
/-- The location of a mailbox slot of a window whose control granule is in a save frame (R55, R77). -/
def savedSlotKey (win off : Nat) : Nat := 2 ^ 59 + 2 ^ 16 * win + off
/-- The location of a byte of the staging buffer (R440). -/
def stagingKey (off : Nat) : Nat := 2 ^ 60 + off
/-- The location of a byte of a flash image (R332). -/
def flashKey (slot off : Nat) : Nat := 2 ^ 61 + 2 ^ 28 * slot + off
/-- The location of a byte of the cast dump kept in flash (R445). -/
def flashDumpKey (off : Nat) : Nat := 2 ^ 62 + off

/-- Locations with a code per 32-bit word: scratch and mailbox stores (R394). -/
def isCoreKey (k : Nat) : Bool := decide (2 ^ 56 ≤ k) && decide (k < 2 ^ 58)

/-! ## Entities -/

/-- A hart. -/
def State.hart? (s : State) (h : Nat) : Option Hart := tget s.harts h
/-- Puts a hart. -/
def State.setHart (s : State) (h : Nat) (x : Hart) : State := { s with harts := tset s.harts h x }
/-- Changes a hart that exists. -/
def State.modHart (s : State) (h : Nat) (f : Hart → Hart) : State := { s with harts := tmod s.harts h f }
/-- Changes a group that exists. -/
def State.modGroup (s : State) (g : Nat) (f : Group → Group) : State := { s with groups := tmod s.groups g f }
/-- Changes a block that exists. -/
def State.modBlock (s : State) (b : Nat) (f : Block → Block) : State := { s with blocks := tmod s.blocks b f }
/-- Changes a grid that exists. -/
def State.modGrid (s : State) (g : Nat) (f : Grid → Grid) : State := { s with grids := tmod s.grids g f }
/-- The group of a hart. -/
def State.groupOf? (s : State) (x : Hart) : Option Group := tget s.groups x.group
/-- The block of a hart. -/
def State.blockOf? (s : State) (x : Hart) : Option Block := (s.groupOf? x).bind fun g => tget s.blocks g.block
/-- The grid of a hart. -/
def State.gridOf? (s : State) (x : Hart) : Option Grid := (s.blockOf? x).bind fun b => tget s.grids b.grid
/-- A physical core. -/
def State.core (s : State) (c : Nat) : Core := tgetD s.cores c Core.free
/-- The chisel unit of a core computes an instruction of this hart (R263). -/
def Core.chiselFor (c : Core) (h : Nat) : Bool := c.chiselEnd.isSome && c.chisel == some h
/-- Changes a physical core. -/
def State.modCore (s : State) (c : Nat) (f : Core → Core) : State := { s with cores := tset s.cores c (f (s.core c)) }
/-- A window. -/
def State.window (s : State) (w : Nat) : Window := tgetD s.windows w Window.zero
/-- Changes a window. -/
def State.modWindow (s : State) (w : Nat) (f : Window → Window) : State :=
  { s with windows := tset s.windows w (f (s.window w)) }
/-- A plinth. -/
def State.plinth (s : State) (p : Nat) : Plinth := tgetD s.plinths p Plinth.zero
/-- Changes a plinth. -/
def State.modPlinth (s : State) (p : Nat) (f : Plinth → Plinth) : State :=
  { s with plinths := tset s.plinths p (f (s.plinth p)) }
/-- A home's logic. -/
def State.home (s : State) (h : Nat) : HomeSt := tgetD s.homes h HomeSt.zero
/-- Changes a home's logic. -/
def State.modHome (s : State) (h : Nat) (f : HomeSt → HomeSt) : State := { s with homes := tset s.homes h (f (s.home h)) }
/-- A memory chiplet. -/
def State.mc (s : State) (m : Nat) : Mc := tgetD s.mcs m Mc.zero
/-- Changes a memory chiplet. -/
def State.modMc (s : State) (m : Nat) (f : Mc → Mc) : State := { s with mcs := tset s.mcs m (f (s.mc m)) }
/-- A cluster. -/
def State.cluster (s : State) (k : Nat) : Cluster := tgetD s.clusters k Cluster.zero
/-- Changes a cluster. -/
def State.modCluster (s : State) (k : Nat) (f : Cluster → Cluster) : State :=
  { s with clusters := tset s.clusters k (f (s.cluster k)) }
/-- A site in bring-up. -/
def State.site (s : State) (i : Nat) : Site := tgetD s.sites i Site.dark
/-- Changes a site. -/
def State.modSite (s : State) (i : Nat) (f : Site → Site) : State := { s with sites := tset s.sites i (f (s.site i)) }
/-- A doorbell slot. -/
def State.slot (s : State) (i : Nat) : Slot := tgetD s.slots i Slot.zero
/-- Changes a doorbell slot. -/
def State.modSlot (s : State) (i : Nat) (f : Slot → Slot) : State := { s with slots := tset s.slots i (f (s.slot i)) }
/-- A field's power registers. -/
def State.power (s : State) (e : Nat) : Power := tgetD s.powers e Power.zero
/-- An Ethernet port. -/
def State.eth (s : State) (p : Nat) : Eth := tgetD s.eths p Eth.zero
/-- Changes an Ethernet port. -/
def State.modEth (s : State) (p : Nat) (f : Eth → Eth) : State := { s with eths := tset s.eths p (f (s.eth p)) }
/-- A queue's state at its scheduler core. -/
def State.queue (s : State) (q : Nat) : QueueSt := tgetD s.queues q ⟨false, none, 0, 0, []⟩
/-- Changes a queue's state. -/
def State.modQueue (s : State) (q : Nat) (f : QueueSt → QueueSt) : State :=
  { s with queues := tset s.queues q (f (s.queue q)) }
/-- Changes an operation in flight. -/
def State.modOp (s : State) (o : Nat) (f : Op → Op) : State := { s with ops := tmod s.ops o f }
/-- Changes the module registers. -/
def State.modMod (s : State) (f : Module → Module) : State := { s with mod := f s.mod }

/-- A new identity. -/
def State.fresh (s : State) : Nat × State := (s.nextId, { s with nextId := s.nextId + 1 })
/-- A free value (log 3). -/
def State.free (s : State) : Word × State := (Config.freeWord s.freeCtr, { s with freeCtr := s.freeCtr + 1 })

/-- One of the next free values. -/
def State.freeAt (s : State) (n : Nat) : Word := Config.freeWord (s.freeCtr + n)

/-- The next `n` free values are taken. -/
def State.skipFree (s : State) (n : Nat) : State := { s with freeCtr := s.freeCtr + n }

/-- The core that holds a hart. -/
def Hart.core (x : Hart) : Nat := x.cluster * 100 + x.pcore
/-- The window of the hart's group. -/
def State.winOf (s : State) (x : Hart) : Nat := match s.groupOf? x with
  | some g => g.win
  | none => 0
/-- The CC home of a window. -/
def winHome (w : Nat) : Nat := w / 96
/-- The number of a window in its home. -/
def winNum (w : Nat) : Nat := w % 96
/-- The base address of a window (R77, R159). -/
def winBase (w : Nat) : Word := mkVa (winHome w) (2 ^ 20 * winNum w)

/-! ## Registers (R143) -/

/-- Reads an x register: x0 reads 0. -/
def Hart.rx (x : Hart) (r : RegIdx) : Word := if r = 0#5 then 0#64 else x.x[r.toNat]'(r.isLt)
/-- Writes an x register: a write to x0 is discarded. -/
def Hart.wx (x : Hart) (r : RegIdx) (v : Word) : Hart :=
  if r = 0#5 then x else { x with x := x.x.set r.toNat v r.isLt }
/-- Reads an f register. -/
def Hart.rf (x : Hart) (r : RegIdx) : W32 := x.f[r.toNat]'(r.isLt)
/-- Writes an f register. -/
def Hart.wf (x : Hart) (r : RegIdx) (v : W32) : Hart := { x with f := x.f.set r.toNat v r.isLt }
/-- Reads a v register with its tag and quantised bit. -/
def Hart.rv (x : Hart) (r : RegIdx) : VReg := x.v[r.toNat]'(r.isLt)
/-- Writes a v register with its tag and quantised bit. -/
def Hart.wvq (x : Hart) (r : RegIdx) (v : VReg) : Hart := { x with v := x.v.set r.toNat v r.isLt }
/-- Writes a v register's lanes: VQ becomes 0 and VTAG 0x0000 (R143). -/
def Hart.wv (x : Hart) (r : RegIdx) (lanes : Vector W32 16) : Hart := x.wvq r ⟨lanes, 0#16, false⟩

/-- The lanes of a v register. -/
def Hart.lanes (x : Hart) (r : RegIdx) : Vector W32 16 := (x.rv r).lanes

/-- ORs flags into fflags (R132). -/
def Hart.orFlags (x : Hart) (f : FFlags) : Hart := { x with fflags := x.fflags ||| f }

/-- DXPW.MASK. -/
def Hart.mask (x : Hart) : BitVec 16 := x.pw.extractLsb' 0 16
/-- DXPW.COND. -/
def Hart.cond (x : Hart) : BitVec 16 := x.pw.extractLsb' 16 16

/-- The registers a compact hart has (R29, R144). -/
def compactReg (r : RegIdx) : Bool :=
  decide (r.toNat ≤ 2) || (decide (10 ≤ r.toNat) && decide (r.toNat ≤ 16))

/-- A new hart at launch (R39, R155, R365). -/
def Hart.launched (group hidx cluster pcore slot : Nat) (full : Bool) (entry argp sp : Word) (asid : BitVec 16)
    (stvec sscratch : Word) (acyc : Nat) (ncyc : Nat) : Hart where
  group := group
  hidx := hidx
  cluster := cluster
  pcore := pcore
  slot := slot
  status := .present
  full := full
  priv := .u
  pc := entry
  x := ((Vector.replicate 32 0#64).set 10 argp).set 2 sp
  f := Vector.replicate 32 0#32
  v := Vector.replicate 32 VReg.zero
  pw := 0#32
  fflags := 0#5
  frm := 0#3
  csr := {
    stvec := stvec
    scounteren := 0#64
    sscratch := sscratch
    sepc := 0#64
    scause := 0#64
    stval := 0#64
    stSIE := false
    stSPIE := false
    stSPP := false
    stFS := 0#2
    stSUM := false
    stMXR := false }
  asid := asid
  vcnt := ⟨64, 128, 16⟩
  mig := ⟨64#16, 0#16, 0#10⟩
  regs := []
  vbusy := []
  seq := 0#32
  cycBase := 0
  cycFrom := acyc
  instret := 0
  lastIssue := none
  ready := some (ncyc / 2)
  resv := none
  heldSlot := 0#64
  recvEnd := 0
  log := []
  plainOut := none
  plainAns := none
  fetchFail := none
  snap := none
  wait := none
  due := []
  stopReq := false
  stopAt := 0
  stopSret := false
  stopping := none
  sinceHint := 0
  yieldEnd := none
  yieldFor := []
  scrub := none
  migTo := none
  migCore := none
  saw := []
  sentC := 0
  chisel := Chisel.zero
  pair := none
  trails := false
  lvq := []
  cmp := none
  released := false

/-- At least 4 A-cycles have passed since the hart's last issue (R31). -/
def Hart.rested (x : Hart) (ncyc : Nat) : Bool := match x.lastIssue with
  | some t => decide (t / 2 + 4 ≤ ncyc / 2)
  | none => true

/-! ## Tags, poison and reservations by location -/

/-- The tag of the line at a location (R86). -/
def State.tagAt (s : State) (key : Nat) : BitVec 16 := tgetD s.tags (key / 64) 0#16
/-- Sets the tag of the line at a location; a tag of 0 is not listed. -/
def State.setTag (s : State) (key : Nat) (t : BitVec 16) : State :=
  { s with tags := if t = 0#16 then tdel s.tags (key / 64) else tset s.tags (key / 64) t }

/-- Sets the tags of every line that `n` bytes from a location on begin in. -/
def State.setTags (s : State) (key n : Nat) (t : BitVec 16) : State :=
  (List.range ((max n 1 + 63) / 64)).foldl (fun (a : State) i => a.setTag (key + 64 * i) t) s

/-- Gives every line of `n` bytes from a location on a tag, as a fill without tags leaves it (R87). -/
def State.fillTags (s : State) (key n : Nat) (t : BitVec 16) : State :=
  let s1 : State := { s with tags := s.tags.filter fun p => !(decide (key ≤ 64 * p.1) && decide (64 * p.1 < key + n)) }
  if t = 0#16 then s1 else s1.setTags key n t

/-- A bit of MDUTY: 0 MISSSVC, 1 SWAPDEC, 2 QSCHED, 3 PGMIG, 4 ERRCOL; true is host-assisted (R26). -/
def State.duty (s : State) (i : Nat) : Bool := bitsOf s.mod.mduty i 1 == 1

/-- The first byte of the protected unit that holds a location: a word of a core's store, a line elsewhere (R394). -/
def unitOf (key : Nat) : Nat := if isCoreKey key then key / 4 * 4 else key / 64 * 64

/-- The units that `n` bytes from a location on touch. -/
def unitsOf (key : Nat) : Nat → List Nat
  | 0 => []
  | n + 1 => unitsOf key n ++ (if (unitsOf key n).contains (unitOf (key + n)) then [] else [unitOf (key + n)])

/-- Whether any of `n` bytes from a location on is poisoned. -/
def State.poisoned (s : State) (key n : Nat) : Bool :=
  if s.poison.isEmpty then false else s.poison.any fun u => (unitsOf key n).contains u

/-- Poisons the unit of a location. -/
def State.addPoison (s : State) (key : Nat) : State :=
  if s.poison.contains (unitOf key) then s else { s with poison := unitOf key :: s.poison }

/-- A write of all of a unit's bytes clears its poison; a partial write leaves it (R394). -/
def State.unpoison (s : State) (key : Nat) (bytes : List (Option Byte)) : State :=
  if s.poison.isEmpty then s
  else
    let whole (u : Nat) : Bool :=
      let w := if isCoreKey u then 4 else 64
      decide (key ≤ u) && decide (u + w ≤ key + bytes.length)
        && ((bytes.drop (u - key)).take w).all Option.isSome
    { s with poison := s.poison.filter fun u => !(whole u) }

/-- Whether a write of `n` bytes from a location on is a write to a line. -/
def touchesLine (key n line : Nat) : Bool := decide (key / 64 ≤ line) && decide (line ≤ (key + (n - 1)) / 64)

/-- A write to a line ends every reservation on it (R104). -/
def State.clearResv (s : State) (key n : Nat) : State :=
  { s with harts := s.harts.map fun p => match p.2.resv with
      | some l => if touchesLine key n l then (p.1, { p.2 with resv := none }) else p
      | none => p }

/-- The bank tells a scheduler core of a write to a line it watches (R294, R299). -/
def State.noticeWatch (s : State) (key n : Nat) : State :=
  { s with watches := s.watches.map fun p => if touchesLine key n p.2.line then (p.1, { p.2 with noticed := true }) else p }

/-- A write performed at a port: the bytes, the poison they clear, the reservations they end, the watchers they wake. -/
def State.putMem (s : State) (key : Nat) (bytes : List (Option Byte)) : State :=
  (({ s with mem := memWrite s.mem key bytes }.unpoison key bytes).clearResv key bytes.length).noticeWatch key bytes.length

/-- `n` bytes at a location. -/
def State.bytesAt (s : State) (key n : Nat) : List Byte := memRead s.mem key n
/-- The number in `n` bytes at a location. -/
def State.natAt (s : State) (key n : Nat) : Nat := natOfBytes (s.bytesAt key n)
/-- Writes a number into `n` bytes at a location. -/
def State.putNat (s : State) (key n v : Nat) : State := s.putMem key ((bytesOfNat n v).map some)

end Sys2Proof.Machine
end

