-- ==== Sys2Proof/Machine/Shake.lean ====
section
/-! DEFINITION. SHAKE256 (FIPS 202), which R333 names for measurements. A lane of the Keccak state at (x, y) is entry
`x + 5 y`. -/

namespace Sys2Proof.Machine

/-- Lane `i` of a Keccak state. -/
def kLane (a : List Word) (i : Nat) : Word := a.getD i 0#64

/-- The rotation offsets of step rho, by lane. -/
def kRho : List Nat :=
  [0, 1, 62, 28, 27, 36, 44, 6, 55, 20, 3, 10, 43, 25, 39, 41, 45, 15, 21, 8, 18, 2, 61, 56, 14]

/-- The round constants of step iota. -/
def kRc : List Word :=
  [0x0000000000000001#64, 0x0000000000008082#64, 0x800000000000808A#64, 0x8000000080008000#64,
   0x000000000000808B#64, 0x0000000080000001#64, 0x8000000080008081#64, 0x8000000000008009#64,
   0x000000000000008A#64, 0x0000000000000088#64, 0x0000000080008009#64, 0x000000008000000A#64,
   0x000000008000808B#64, 0x800000000000008B#64, 0x8000000000008089#64, 0x8000000000008003#64,
   0x8000000000008002#64, 0x8000000000000080#64, 0x000000000000800A#64, 0x800000008000000A#64,
   0x8000000080008081#64, 0x8000000000008080#64, 0x0000000080000001#64, 0x8000000080008008#64]

/-- Step theta. -/
def kTheta (a : List Word) : List Word :=
  let c := (List.range 5).map fun x =>
    kLane a x ^^^ kLane a (x + 5) ^^^ kLane a (x + 10) ^^^ kLane a (x + 15) ^^^ kLane a (x + 20)
  (List.range 25).map fun i =>
    kLane a i ^^^ kLane c ((i + 4) % 5) ^^^ (kLane c ((i + 1) % 5)).rotateLeft 1

/-- Steps rho and pi: the lane that lands at (x, y) comes from (x + 3 y, x). -/
def kRhoPi (a : List Word) : List Word :=
  (List.range 25).map fun i =>
    let x := i % 5
    let y := i / 5
    let j := (x + 3 * y) % 5 + 5 * x
    (kLane a j).rotateLeft (kRho.getD j 0)

/-- Step chi. -/
def kChi (a : List Word) : List Word :=
  (List.range 25).map fun i =>
    let r := i / 5 * 5
    kLane a i ^^^ (~~~(kLane a (r + (i + 1) % 5)) &&& kLane a (r + (i + 2) % 5))

/-- One round with its constant. -/
def kRound (a : List Word) (rc : Word) : List Word :=
  match kChi (kRhoPi (kTheta a)) with
  | [] => []
  | l :: r => (l ^^^ rc) :: r

/-- Keccak-f[1600]. -/
def keccakF (a : List Word) : List Word := kRc.foldl kRound a

/-- The 8 bytes of a lane, lowest first. -/
def kLaneBytes (w : Word) : List Byte := (List.range 8).map fun i => w.extractLsb' (8 * i) 8

/-- The lane that 8 bytes hold. -/
def kBytesLane : List Byte → Word
  | [] => 0#64
  | b :: r => BitVec.ofNat 64 (b.toNat + 256 * (kBytesLane r).toNat)

/-- The lanes of a block of bytes. -/
def kLanes : Nat → List Byte → List Word
  | 0, _ => []
  | n + 1, bs => kBytesLane (bs.take 8) :: kLanes n (bs.drop 8)

/-- Absorbs `n` blocks of 136 bytes. -/
def kAbsorb : Nat → List Byte → List Word → List Word
  | 0, _, a => a
  | n + 1, bs, a =>
    let b := kLanes 17 (bs.take 136)
    kAbsorb n (bs.drop 136) (keccakF ((List.range 25).map fun i => kLane a i ^^^ kLane b i))

/-- Squeezes `n` blocks of 136 bytes. -/
def kSqueeze : Nat → List Word → List Byte
  | 0, _ => []
  | n + 1, a => (((a.take 17).map kLaneBytes).foldr (· ++ ·) []) ++ kSqueeze n (keccakF a)

/-- The message with SHAKE's suffix and padding, a multiple of 136 bytes. -/
def kPad (m : List Byte) : List Byte :=
  let z := 135 - m.length % 136
  if z = 0 then m ++ [0x9F#8] else m ++ [0x1F#8] ++ List.replicate (z - 1) 0#8 ++ [0x80#8]

/-- SHAKE256 with an output of `n` bytes. -/
def shake256 (m : List Byte) (n : Nat) : List Byte :=
  let p := kPad m
  (kSqueeze (n / 136 + 1) (kAbsorb (p.length / 136) p (List.replicate 25 0#64))).take n

end Sys2Proof.Machine
end

