-- ==== Sys2Proof/Machine/Home.lean ====
section
/-! DEFINITION. A home: translation (R67 to R76), window map and granules (R77 to R80), places, and the routes that
requests take to them (R62 to R66, R309 to R315, R400, R401). -/

namespace Sys2Proof.Machine

/-! ## Translation (R67 to R74, R389, R391) -/

/-- The cause of a failed request by its kind (R389); for a fetch cause 1 takes the place of 5 and 7. -/
def accCause : AccKind → Nat
  | .fetch => 1
  | .load => 5
  | _ => 7

/-- The bytes of a MC's DRAM (R1, R21). -/
def State.dramBytes (s : State) : Nat := 2 ^ 30 * s.gib

/-- What a home's translation answers. -/
inductive Xlat where
  /-- The leaf and log2 of its page. -/
  | leaf (e : Word) (log : Nat)
  | miss
  | fail (cause sub : Nat)
deriving DecidableEq, Repr

/-- A table read of 8 bytes in the home's DRAM: nothing if it lies beyond the DRAM or is poisoned (R391). -/
def State.tableRead (s : State) (home p : Nat) : Option Nat :=
  if s.dramBytes < p + 8 ∨ s.poisoned (dramKey (nearMc home) p) 8 then none
  else some (s.natAt (dramKey (nearMc home) p) 8)

/-- HCTXBASE.EN (R67). -/
def State.ctxEn (s : State) (home : Nat) : Bool := (s.home home).ctxBase.getLsbD 0

/-- The 16-byte context entry of an ASID: low and high halves (R68). -/
def State.ctxEntry (s : State) (home : Nat) (asid : BitVec 16) : Option (Nat × Nat) :=
  let base := 2 ^ 20 * bitsOf (s.home home).ctxBase.toNat 20 28 + 16 * asid.toNat
  (s.tableRead home base).bind fun lo => (s.tableRead home (base + 8)).map fun hi => (lo, hi)

/-- The region check of R73 for a request: nothing if it passes, else cause and SUB (R389). -/
def State.regionCheck (s : State) (home : Nat) (c : Ctx) (kind : AccKind) (va : Word) : Option (Nat × Nat) :=
  match s.ctxEntry home c.asid with
  | none => some (48, 6)
  | some (lo, hi) =>
    if lo % 2 = 0 then some (48, 6)
    else
      let rbt := 2 ^ 15 * bitsOf hi 11 33 + 16 * vaRegion va
      match s.tableRead home rbt, s.tableRead home (rbt + 8) with
      | some r, some l =>
        let x := r / 8 % 2 = 1
        let w := r / 4 % 2 = 1
        let rd := r / 2 % 2 = 1
        let perm : Bool := match kind with
          | .fetch => decide x
          | .load => decide rd
          | .store => decide w
          | .amo => decide rd && decide w
          | .bank => decide w
        if r % 2 = 1 ∧ r / 2 ^ 7 ≤ vaLow va ∧ vaLow va ≤ l / 2 ^ 7 ∧ perm then none
        else some (48, 11)
      | _, _ => some (48, 6)

/-- The leaf level of the walk (R69, R391). Codes 0b10 and 0b11 name neither a pointer nor a leaf, so that V says nothing of them
(log 117). -/
def leafEntry (kind : AccKind) (e log : Nat) : Xlat :=
  if bitsOf e 1 2 = 3 then .fail (accCause kind) 12
  else if bitsOf e 1 2 = 2 then .fail (accCause kind) 5
  else if e % 2 = 0 then .miss
  else if bitsOf e 1 2 = 1 then .leaf (BitVec.ofNat 64 e) log
  else .fail (accCause kind) 5

/-- The walk of R69. At level 2 a code 0b10 or 0b11 is a table error whatever V holds (log 117). -/
def State.walk (s : State) (home : Nat) (asid : BitVec 16) (kind : AccKind) (off : Nat) : Xlat :=
  let err : Xlat := .fail (accCause kind) 5
  match s.ctxEntry home asid with
  | none => .fail 48 6
  | some (lo, _) =>
    match s.tableRead home (2 ^ 15 * bitsOf lo 15 33 + 8 * bitsOf off 35 12) with
    | none => err
    | some e2 =>
      if 2 ≤ bitsOf e2 1 2 then err
      else if e2 % 2 = 0 then .miss
      else if bitsOf e2 1 2 ≠ 0 then err
      else
        match s.tableRead home (2 ^ 14 * bitsOf e2 14 34 + 8 * bitsOf off 24 11) with
        | none => err
        | some e1 =>
          if bitsOf e1 1 2 ≠ 0 then leafEntry kind e1 24
          else if e1 % 2 = 0 then .miss
          else if e1 / 8 % 2 = 0 then
            match s.tableRead home (2 ^ 11 * bitsOf e1 11 37 + 8 * bitsOf off 16 8) with
            | none => err
            | some e0 => leafEntry kind e0 16
          else
            match s.tableRead home (2 ^ 6 * bitsOf e1 6 42 + 8 * bitsOf off 21 3) with
            | none => err
            | some e0 => leafEntry kind e0 21

/-- What the service agent's walk finds (R449). -/
inductive LeafAt where
  /-- The leaf, where it stands in the home's DRAM, and log2 of its page. -/
  | leaf (at_ : Nat) (e : Word) (log : Nat)
  /-- A pointer with V = 0, or a home whose HCTXBASE.EN is 0. -/
  | none
  /-- What R391 refuses: SUB 12 for a page marked unavailable, 5 for a table error, 6 for an entry of the context (R389); with log2 of
  the page where the walk has come to its size, else of the 64 KiB unit. -/
  | bad (sub log : Nat)
deriving DecidableEq, Repr

/-- An entry in a leaf position, valid or not: a leaf, a pointer with V = 0, or an entry that R391 refuses. -/
def leafPos (p e log : Nat) : LeafAt :=
  if bitsOf e 1 2 = 1 then .leaf p (BitVec.ofNat 64 e) log
  else if bitsOf e 1 2 = 0 ∧ e % 2 = 0 then .none
  else .bad (if bitsOf e 1 2 = 3 then 12 else 5) log

/-- The walk of R69 down to the leaf entry, valid or not. -/
def State.leafAt (s : State) (home : Nat) (asid : BitVec 16) (off : Nat) : LeafAt :=
  if !(s.ctxEn home) then .none
  else
    match s.ctxEntry home asid with
    | none => .bad 6 16
    | some (lo, _) =>
      if lo % 2 = 0 then .bad 6 16
      else
        match s.tableRead home (2 ^ 15 * bitsOf lo 15 33 + 8 * bitsOf off 35 12) with
        | none => .bad 5 16
        | some e2 =>
          if 2 ≤ bitsOf e2 1 2 then .bad 5 16
          else if e2 % 2 = 0 then .none
          else if bitsOf e2 1 2 ≠ 0 then .bad 5 16
          else
            let p1 := 2 ^ 14 * bitsOf e2 14 34 + 8 * bitsOf off 24 11
            match s.tableRead home p1 with
            | none => .bad 5 16
            | some e1 =>
              if bitsOf e1 1 2 ≠ 0 then leafPos p1 e1 24
              else if e1 % 2 = 0 then .none
              else
                let big := bitsOf e1 3 1 = 1
                let p0 := if big then 2 ^ 6 * bitsOf e1 6 42 + 8 * bitsOf off 21 3
                  else 2 ^ 11 * bitsOf e1 11 37 + 8 * bitsOf off 16 8
                match s.tableRead home p0 with
                | none => .bad 5 (if big then 21 else 16)
                | some e0 => leafPos p0 e0 (if big then 21 else 16)

/-- Log2 of the page that holds an offset, as the tables give it; the 64 KiB unit where they give none. -/
def State.pageLog (s : State) (home : Nat) (asid : BitVec 16) (off : Nat) : Nat := match s.leafAt home asid off with
  | .leaf _ _ log => log
  | .bad _ log => log
  | .none => 16

/-- A TLB entry that covers an offset. -/
def tlbFind (tlb : List TlbEnt) (asid : BitVec 16) (off : Nat) : Option TlbEnt :=
  tlb.find? fun t => t.asid == asid && off / 2 ^ t.log == t.base

/-- The number of leaves a home's TLB holds (R74). -/
def tlbSize (home : Nat) : Nat := if isCC home then 4096 else 65536

/-- LOC of a leaf (R71). -/
def leafLoc (e : Word) : Bool := e.getLsbD 9
/-- T of a leaf. -/
def leafT (e : Word) : Bool := e.getLsbD 8
/-- H of a leaf. -/
def leafH (e : Word) : Bool := e.getLsbD 7
/-- TAGDEF of a leaf. -/
def leafTagdef (e : Word) : BitVec 16 := e.extractLsb' 48 16
/-- The first byte of a leaf's frame: FRAME in 64 KiB units with the low bits of a large page taken as 0 (R71). -/
def leafFrame (e : Word) (log : Nat) : Nat := 2 ^ 16 * bitsOf e.toNat 12 30 / 2 ^ log * 2 ^ log

/-- Whether a leaf lets a request pass (R72 step 5). -/
def leafPermits (e : Word) (c : Ctx) (kind : AccKind) : Bool :=
  (match kind with
    | .fetch => e.getLsbD 6
    | .load => e.getLsbD 4
    | .store => e.getLsbD 5
    | .amo => e.getLsbD 4 && e.getLsbD 5
    | .bank => e.getLsbD 5) && (e.getLsbD 3 || c.priv != .u)

/-- R72 steps 0 to 5 for a request to translated space. `fromHost` marks a request from a host home. The region check
(step 2) comes before the TLB lookup or walk (step 3). -/
def State.translate (s : State) (home : Nat) (c : Ctx) (kind : AccKind) (fromHost : Bool) (va : Word) : Xlat :=
  if !s.ctxEn home then .miss
  else
    match s.regionCheck home c kind va with
    | some (cause, sub) => .fail cause sub
    | none =>
      let x : Xlat := match tlbFind (s.home home).tlb c.asid (vaOff va) with
        | some t => .leaf t.leaf t.log
        | none => s.walk home c.asid kind (vaOff va)
      match x with
      | .leaf e log =>
        if leafH e && !fromHost then .miss
        else if !(leafH e) && fromHost then .fail 49 13
        else if leafPermits e c kind then .leaf e log
        else .fail 49 13
      | y => y

/-- A leaf that a walk has used stays in the home's TLB until HTLBINV names it (R74; log 6); a full TLB drops its oldest leaf
(log 118). -/
def State.tlbFill (s : State) (home : Nat) (asid : BitVec 16) (off : Nat) (e : Word) (log : Nat) : State :=
  match tlbFind (s.home home).tlb asid off with
  | some _ => s
  | none => s.modHome home fun h => { h with tlb := (⟨asid, log, off / 2 ^ log, e⟩ :: h.tlb).take (tlbSize home) }

/-- The TLB of a page's home takes the leaf that a request has used. -/
def State.tlbTake (s : State) : Option (PageRef × Word × Nat) → State
  | some (pg, e, log) => s.tlbFill pg.home pg.asid (vaOff pg.va) e log
  | none => s

/-- A write of HTLBINV (R74). -/
def State.htlbInv (s : State) (home : Nat) (w : Word) : State :=
  let allAsid := w.getLsbD 47
  let allPages := w.getLsbD 46
  let asid := w.extractLsb' 48 16
  let off := bitsOf w.toNat 0 46 * 2
  s.modHome home fun h =>
    { h with tlb := h.tlb.filter fun t =>
        !((allAsid || t.asid == asid) && (allPages || off / 2 ^ t.log == t.base)) }

/-! ## The meshes (R309, R312 to R314, R400, R401) -/

/-- The boundary site at which an edge chiplet attaches (R313). -/
def attachSite (e : Nat) : Nat :=
  if e < 4 then 6 * e + 2
  else if e < 8 then 24 * (6 * (e - 4) + 2) + 23
  else if e < 12 then 24 * 23 + (6 * (11 - e) + 2)
  else 24 * (6 * (15 - e) + 2)

/-- The grid site through which an interface reaches the meshes. -/
def gridSite (i : Nat) : Nat := if i < 576 then i else attachSite (i - 576)

/-- A link's number: 10 times its site, plus 5 for mesh Y, plus its direction (R397), named from its north or west end. -/
def linkId (mesh : Bool) (x y dir : Nat) : Nat :=
  if dir = 0 then 10 * (24 * (y - 1) + x) + 5 * b2n mesh + 2
  else if dir = 3 then 10 * (24 * y + (x - 1)) + 5 * b2n mesh + 1
  else 10 * (24 * y + x) + 5 * b2n mesh + dir

/-- The links of `n` hops along a row from (x, y), eastward or westward. -/
def rowLinks (mesh : Bool) (east : Bool) (y : Nat) : Nat → Nat → List Nat
  | 0, _ => []
  | n + 1, x => linkId mesh x y (if east then 1 else 3) :: rowLinks mesh east y n (if east then x + 1 else x - 1)

/-- The links of `n` hops along a column from (x, y), southward or northward. -/
def colLinks (mesh : Bool) (south : Bool) (x : Nat) : Nat → Nat → List Nat
  | 0, _ => []
  | n + 1, y => linkId mesh x y (if south then 2 else 0) :: colLinks mesh south x n (if south then y + 1 else y - 1)

/-- The links of the dimension-order route from one grid site to another: mesh X first in x, mesh Y first in y. -/
def pathLinks (mesh : Bool) (a b : Nat) : List Nat :=
  let x0 := a % 24
  let y0 := a / 24
  let x1 := b % 24
  let y1 := b / 24
  let nx := if x0 < x1 then x1 - x0 else x0 - x1
  let ny := if y0 < y1 then y1 - y0 else y0 - y1
  let r := if mesh then colLinks mesh (y0 < y1) x0 ny y0 ++ rowLinks mesh (x0 < x1) y1 nx x0
    else rowLinks mesh (x0 < x1) y0 nx x0 ++ colLinks mesh (y0 < y1) x1 ny y0
  r ++ [linkId mesh x1 y1 4]

/-- The links of the route between two interfaces; the last is the local port of a grid site, or an edge chiplet's own link. -/
def routeLinks (mesh : Bool) (a b : Nat) : List Nat :=
  let p := pathLinks mesh (gridSite a) (gridSite b)
  if b < 576 then p else p.dropLast ++ [10 * b + 5 * b2n mesh + 4]

/-- Whether a mesh's route between two interfaces is free of dead links. -/
def State.pathClear (s : State) (mesh : Bool) (a b : Nat) : Bool :=
  s.deadLinks.isEmpty || (routeLinks mesh a b).all fun l => !(s.deadLinks.any fun d => d.link == l)

/-- The mesh that an interface's NST selects for a home (R314). -/
def State.nstMesh (s : State) (iface home : Nat) : Bool := tgetD s.nst (1024 * iface + home) (home % 2 == 1)

/-- What becomes of a flit from an interface to a home. -/
inductive NetSt where
  | ok | lost | held | unreachable
deriving DecidableEq, Repr

/-- R400 and R401 for a flit injected now. -/
def State.net (s : State) (iface home : Nat) : NetSt :=
  let dst := siteOfHome home
  let m := s.nstMesh iface home
  if s.pathClear m iface dst then .ok
  else
    let on := s.deadLinks.filter fun d => (routeLinks m iface dst).contains d.link
    if on.any fun d => (tget d.noticed iface).isNone then .lost
    else if on.any fun d => !(d.rerouted.contains iface) then .held
    else .unreachable

/-! ## Places and routes -/

/-- Whether the home map has a valid entry for a home number (R313). -/
def State.homeValid (s : State) (home : Nat) : Bool := (tgetD s.homeMap home 0#16).getLsbD 15

/-- Where a request is performed. -/
inductive Place where
  /-- Memory, by the location of its first byte; a line of a host frame or of host memory has no sideband and reads the
  tag given. -/
  | mem (key : Nat) (noTag : Option (BitVec 16))
  /-- Control-granule space that reads 0 and ignores writes (R77). -/
  | zero
  /-- A mailbox configuration word: stores are ignored (R233). -/
  | conf (key : Nat)
  /-- A byte of a trace ring page, at an offset in it (R114). -/
  | trace (key off : Nat) (noTag : Option (BitVec 16))
  /-- The home control block, at an offset in it (R66). -/
  | ctl (home off : Nat)
  /-- An edge register (R315). -/
  | edge (e off : Nat)
  /-- An Ethernet transmit window (R326). -/
  | tx (port off : Nat)
deriving DecidableEq, Repr

/-- What becomes of a request on its way. -/
inductive Route where
  /-- It is performed at this place; with the T bit of its page, and the page, leaf and log2 of the page for the TLB. -/
  | at (p : Place) (traced : Bool) (fill : Option (PageRef × Word × Nat))
  | miss (page : PageRef)
  /-- An earlier request to its page is being replayed, or waits for its trace ring: it waits behind (R51, R114). -/
  | behind (page : PageRef) (why : HoldWhy)
  | rebind (win g : Nat)
  | fail (cause sub : Nat)
  /-- Its flit is lost on a dead link of which its interface has no notice yet (R401 item 4). -/
  | lost
  /-- Its interface holds it until the rerouting (R401 item 1). -/
  | netHeld
deriving DecidableEq, Repr

/-- A request as it leaves its requester. -/
structure Req where
  va : Word
  /-- Bytes of the piece. -/
  w : Nat
  kind : AccKind
  ctx : Ctx
  /-- It comes from a hart, through its core's local-range table (R42). -/
  direct : Bool
  /-- It comes from a copy engine (R315). -/
  engine : Bool
  /-- It comes from a host port (R72). -/
  fromHost : Bool
  /-- It is accepted as edge firmware's or as the watching scheduler core's (R321, R430). -/
  fw : Bool
deriving DecidableEq, Repr

/-- A hart's request. -/
def Req.hart (va : Word) (w : Nat) (kind : AccKind) (c : Ctx) : Req := ⟨va, w, kind, c, true, false, false, false⟩
/-- A request of a bank, a plinth or a scheduler core. -/
def Req.unit (va : Word) (w : Nat) (kind : AccKind) (c : Ctx) : Req := ⟨va, w, kind, c, false, false, false, false⟩
/-- A request of a copy engine. -/
def Req.copier (va : Word) (w : Nat) (kind : AccKind) (c : Ctx) : Req := ⟨va, w, kind, c, false, true, false, false⟩

/-- A scheduler core's context (R287, R294). -/
def schedCtx (asid : BitVec 16) : Ctx := ⟨asid, .s, none, 0⟩

/-- The granule of a window offset, and the offset in it; the mailbox slots go with the control granule, as 17 (R77). -/
def granOf (o : Nat) : Option (Nat × Nat) :=
  if o < 0x40000 then some (o / 0x4000, o % 0x4000)
  else if o < 0x44000 then some (16, o - 0x40000)
  else if 0x80000 ≤ o ∧ o < 0x90000 then some (17, o - 0x80000)
  else none

/-- The state of granule `g` of a window. -/
def State.gran (s : State) (w g : Nat) : GranSt := tgetD (s.window w).grans g .unbound

/-- What a control-granule offset is (R77): configuration words and the kick register, the trace page, the rest. Of the trace
page software writes the header's WRIDX, RDIDX, LOST and TSTALL; the rest of the header and the records are read-only (R114). -/
def controlPlace (o key : Nat) (noTag : Option (BitVec 16)) : Place :=
  if o < 0x100 then .conf key
  else if 0x1000 ≤ o ∧ o < 0x2000 then .trace key (o - 0x1000) noTag
  else .zero

/-- The place of offset `o` of granule `g` (17 for the slots) at location `key`. -/
def granPlace (g o key : Nat) (noTag : Option (BitVec 16)) : Place :=
  if g = 16 then controlPlace o key noTag else .mem key noTag

/-- The ASID of the block that a granule of a window belongs to: that of the group that has the granule, or any group of the
window for the control granule. -/
def State.winAsid (s : State) (w gr : Nat) : BitVec 16 :=
  match s.groups.find? fun p => p.2.win == w && !p.2.ended
      && (decide (16 ≤ gr) || (decide (p.2.granLo ≤ gr) && decide (gr < p.2.granLo + p.2.granN))) with
  | some (_, g) =>
    match (tget s.blocks g.block).bind fun b => tget s.grids b.grid with
    | some gr => gr.asid
    | none => 0#16
  | none => 0#16

/-- Whether a held request has been selected by HMISSDONE. -/
def Held.selected (e : Held) : Bool := e.why == .retry false || e.why == .retry true

/-- Whether the group of a request's hart is being stopped or is absent, so that its entries wait for its return (R52, R54). -/
def State.absentFor (s : State) (c : Ctx) : Bool :=
  match (c.hart.bind s.hart?).bind s.groupOf? with
  | some g => g.away != 0
  | none => false

/-- A page whose request is being replayed or waits for a trace ring, so that a later request to it waits behind (R51, R114). -/
def State.pageHold (s : State) (pg : PageRef) (log : Nat) : Option HoldWhy :=
  let on := s.held.filter fun e => e.page.home == pg.home && e.page.asid == pg.asid
    && vaOff e.page.va / 2 ^ log == vaOff pg.va / 2 ^ log
  if on.any fun e => e.why == .ring then some .ring
  else if on.any fun e => e.selected && !(s.absentFor e.ctx) then some (.retry false)
  else none

/-- A request of `w` bytes to translated space (R65, R72), at the page's address in its home. A request through a leaf whose
frame lies beyond the home's DRAM fails like a table error (log 119). -/
def State.routePage (s : State) (pg : PageRef) (c : Ctx) (kind : AccKind) (w : Nat) (fromHost : Bool) : Route :=
  match s.translate pg.home c kind fromHost pg.va with
  | .miss => .miss pg
  | .fail cause sub => .fail cause sub
  | .leaf e log =>
    match s.pageHold pg log with
    | some why => .behind pg why
    | none =>
      let a := leafFrame e log + vaOff pg.va % 2 ^ log
      if leafLoc e then
        .at (.mem (hostKey (bitsOf e.toNat 10 2) a) (some (leafTagdef e))) (leafT e) (some (pg, e, log))
      else if s.dramBytes < a + w then .fail (accCause kind) 5
      else .at (.mem (dramKey (nearMc pg.home) a) none) (leafT e) (some (pg, e, log))

/-- A request to `w` bytes of a save frame: it is handed to the frame's MC home, which takes it with the context of the
block's grid in S-mode (R42, R79). -/
def State.routeFrame (s : State) (asid : BitVec 16) (va : Word) (kind : AccKind) (w : Nat) : Route :=
  if !(s.homeValid (vaHome va)) then .fail (accCause kind) 1
  else s.routePage ⟨vaHome va, va, asid⟩ (schedCtx asid) kind w false

/-- Where offset `o` of granule `g` (17: the slots) of a window stands, for a request of `w` bytes. -/
def State.granRoute (s : State) (w g o : Nat) (kind : AccKind) (n : Nat) : Route :=
  let gi := if g = 17 then 16 else g
  match s.gran w gi with
  | .unbound => .fail (accCause kind) 3
  | .moving _ _ _ _ => .rebind w gi
  | .core cl pc => .at (granPlace g o (if g = 17 then mboxKey cl pc o else coreKey cl pc g o) none) false none
  | .frame va =>
    if g = 17 then .at (.mem (savedSlotKey w o) none) false none
    else match s.routeFrame (s.winAsid w g) (addrPlus va o) kind n with
      | .at (.mem k noTag) t fill => .at (granPlace g o k noTag) t fill
      | r => r

/-- Its location, where a unit of the part reaches it now. -/
def State.granKey (s : State) (w g o : Nat) : Option Nat := match s.granRoute w g o .store 1 with
  | .at (.mem k _) _ _ | .at (.conf k) _ _ | .at (.trace k _ _) _ _ => some k
  | _ => none

/-- A request that a CC home hands on is a new injection at that home (R79, R312). -/
def State.handOn (s : State) (home dest : Nat) (k : Route) : Route :=
  if home = dest then k
  else match s.net (siteOfHome home) dest with
    | .ok => k
    | .lost => .lost
    | .held => .netHeld
    | .unreachable => .fail 62 16

/-- The home at whose site a window's granule is served. -/
def State.granHome (s : State) (w g : Nat) : Nat := match s.gran w (if g = 17 then 16 else g) with
  | .core cl _ => cl
  | .frame va => if g = 17 then winHome w else vaHome va
  | _ => winHome w

/-- A hart's core serves a granule that it holds without the home (R42). -/
def State.localHit (s : State) (c : Ctx) (w g : Nat) : Bool :=
  match c.hart.bind s.hart? with
  | some x => s.gran w g == .core x.cluster x.pcore
  | none => false

/-- A hart's request to its own window (R371). -/
def State.ownWin (s : State) (r : Req) (w : Nat) : Bool := match r.ctx.hart.bind s.hart? with
  | some x => r.direct && s.winOf x == w
  | none => false

/-- A request to window space (R42, R73, R77 to R80, R371). An unbound control granule fails like an unbound data granule of
another window (log 120). -/
def State.routeWindow (s : State) (r : Req) (home : Nat) : Route :=
  let w := home * 96 + vaOff r.va / 2 ^ 20
  if r.kind = .fetch then .fail 1 0
  else
    match granOf (vaOff r.va % 2 ^ 20) with
    | none =>
      match (if s.ctxEn home then s.regionCheck home r.ctx r.kind r.va else none) with
      | some (cause, sub) => .fail cause sub
      | none => .fail (accCause r.kind) 3
    | some (g, o) =>
      let gi := if g = 17 then 16 else g
      let hit := r.direct && s.localHit r.ctx w gi
      match (if !hit && s.ctxEn home then s.regionCheck home r.ctx r.kind r.va else none) with
      | some (cause, sub) => .fail cause sub
      | none =>
        if s.gran w gi = .unbound ∧ s.ownWin r w ∧ g < 16 then .fail 50 0
        else
          let k := s.granRoute w g o r.kind r.w
          if hit then k else s.handOn home (s.granHome w g) k

/-- A request to an edge home (R315). -/
def routeEdge (r : Req) (e : Nat) : Route :=
  let o := vaOff r.va
  if r.kind = .fetch then .fail 1 0
  else if 0x1000000000 ≤ o ∧ o < 0x1200000000 then
    if r.engine && r.kind == .store then .at (.tx (2 * e + (o - 0x1000000000) / 0x100000000) (o % 0x100000000)) false none
    else .fail (accCause r.kind) 3
  else if 0x20000 ≤ o then .fail (accCause r.kind) 3
  else if r.ctx.priv = .u ∨ r.w ≠ 8 ∨ o % 8 ≠ 0 ∨ (r.kind ≠ .load ∧ r.kind ≠ .store) then .fail (accCause r.kind) 4
  else .at (.edge e o) false none

/-- A request to a home control block (R66): a host's reaches it through an aperture of MODE 2 alone, as edge firmware's (R321,
R389). An access to a tag alone (of no byte) reads 0 (R87). An aligned LR, SC or AMO of 8 bytes fails like an access of another
width, and a copy engine's aligned read or write of 8 bytes is accepted as its hart's (DESIGN CHOICE; log 139). -/
def routeCtl (r : Req) (home : Nat) : Route :=
  let o := vaOff r.va
  if r.fromHost ∧ !r.fw then .fail (accCause r.kind) 4
  else if r.w = 0 ∧ r.ctx.priv ≠ .u then .at .zero false none
  else if r.ctx.priv = .u ∨ r.w ≠ 8 ∨ o % 8 ≠ 0 ∨ (r.kind ≠ .load ∧ r.kind ≠ .store) then .fail (accCause r.kind) 4
  else .at (.ctl home (o - ctlBase)) false none

/-! ## Routes (R62, R64, R389) -/

/-- The home of the chiplet at a site. -/
def homeOfSite (i : Nat) : Nat :=
  if 576 ≤ i then 0x240 + (i - 576)
  else
    let c := i % 24 % 6
    let n := 4 * (i / 24 / 6) + i % 24 / 6
    let ry := i / 24 % 6
    if c = 1 ∨ c = 4 then 0x180 + 12 * n + 2 * ry + b2n (c == 4)
    else 24 * n + 4 * ry + (if c = 0 then 0 else if c = 2 then 1 else if c = 3 then 2 else 3)

/-- The home whose interface answers a request: a window's granule answers from where it is served. -/
def State.answersFrom (s : State) (va : Word) : Nat :=
  let home := vaHome va
  if isCC home && decide (vaOff va < winEnd) then
    match granOf (vaOff va % 2 ^ 20) with
    | some (g, _) => s.granHome (home * 96 + vaOff va / 2 ^ 20) g
    | none => home
  else home

/-- The response of a request comes back, on the mesh that the responding interface's NST selects for the home of the requester's
site (R312; log 138): it is lost on a dead link of which that interface has no notice, and where no route is left. -/
def State.responds (s : State) (iface : Nat) (va : Word) : Bool :=
  s.deadLinks.isEmpty || (match s.net (siteOfHome (s.answersFrom va)) (homeOfSite iface) with
    | .ok | .held => true
    | _ => false)

/-- The route of a request from an interface (R62, R64, R389). -/
def State.route (s : State) (r : Req) (iface : Nat) : Route :=
  let home := vaHome r.va
  let off := vaOff r.va
  let win := isCC home && decide (off < winEnd)
  let hit : Bool := win && r.direct && (match granOf (off % 2 ^ 20) with
    | some (g, _) => s.localHit r.ctx (home * 96 + off / 2 ^ 20) (if g = 17 then 16 else g)
    | none => false)
  if hit then s.routeWindow r home
  else if !s.homeValid home then .fail (accCause r.kind) 1
  else
    match s.net iface home with
    | .lost => .lost
    | .held => .netHeld
    | .unreachable => .fail 62 16
    | .ok =>
      if 2 ^ 47 < off + r.w then .fail (accCause r.kind) 2
      -- A host home has no sideband and no leaf: its lines' tags read as 0x0000 (log 121).
      else if isHost home then
        if r.kind = .fetch then .fail 1 0 else .at (.mem (hostKey (home - 0x3F0) off) (some 0#16)) false none
      else if isEdge home then routeEdge r (home - 0x240)
      else if ctlBase ≤ off then routeCtl r home
      else if win then s.routeWindow r home
      else s.routePage ⟨home, r.va, r.ctx.asid⟩ r.ctx r.kind r.w r.fromHost

end Sys2Proof.Machine
end

