-- ==== Sys2Proof/Machine/Miss.lean ====
section
/-! DEFINITION. One piece performed at a memory location (R83, R86, R92, R104, R394), requests that homes hold (R49, R50, R55, R114) and the accesses that scheduler cores and edge firmware make of
their own (R287, R294, R365). -/

namespace Sys2Proof.Machine

/-! ## Failure words -/

/-- A failure word (R375). -/
def failWord (fo : FormOp) (cause sub count : Nat) : Word :=
  BitVec.ofNat 64 (count % 2 ^ 32 + 2 ^ 32 * (sub % 256) + 2 ^ 40 * (cause % 64) + 2 ^ 46 * (fo.op % 128) + 2 ^ 53 * (fo.form % 8)
    + 0xFE * 2 ^ 56)

/-- FORM 7, OP 0: no instruction (R375). -/
def noForm : FormOp := ⟨7, 0⟩

/-! ## One piece at a memory location -/

/-- The new value of an RV64A read-modify-write of `w` bytes. -/
def amoNew (op : AmoOp) (w old v : Nat) : Nat :=
  let sgn (x : Nat) : Int := intOf true (8 * w) x
  let m := 2 ^ (8 * w)
  match op with
  | .swap => v % m
  | .add => (old + v) % m
  | .xor => Nat.xor old (v % m)
  | .and => Nat.land old (v % m)
  | .or => Nat.lor old (v % m)
  | .min => if sgn old ≤ sgn v then old else v % m
  | .max => if sgn v ≤ sgn old then old else v % m
  | .minu => if old ≤ v % m then old else v % m
  | .maxu => if v % m ≤ old then old else v % m

/-- Bytes of an RV64A access. -/
def dblBytes (dbl : Bool) : Nat := if dbl then 8 else 4

/-- L(d) (R265). -/
def recLen (d : Nat) : Nat := 16 + 4 * d + 2 * d * (d + 1)

/-- Bytes that a port reads of a message record whose D is `d` (R268): with D outside 1 to 8 the header alone. -/
def recordBytes (d : Nat) : Nat := if 1 ≤ d ∧ d ≤ 8 then recLen d else 16

/-- The bytes of a span after its elements have been written into it, in order: each the first bit, the width and the value. -/
def spanBytes (old : List Byte) (els : List (Nat × Nat × W32)) : List Byte :=
  bytesOfNat old.length (els.foldl (fun v e => putBits v e.1 e.2.1 e.2.2.toNat) (natOfBytes old))

/-- The bytes of a span of which the elements write every bit. -/
def spanCover (n : Nat) (els : List (Nat × Nat × W32)) : List (Option Byte) :=
  (List.range n).map fun i =>
    if (List.range 8).all fun b => els.any fun e => decide (e.1 ≤ 8 * i + b) && decide (8 * i + b < e.1 + e.2.1) then some 0#8 else none

/-- A piece at a memory location (R92). A read-modify-write of poisoned bytes changes nothing (R395). -/
def State.portMem (s : State) (key : Nat) (noTag : Option (BitVec 16)) (act : Piece) (hart : Option Nat) :
    PieceAns × State :=
  match act with
  | .load n => (.data (s.bytesAt key n) (noTag.getD (s.tagAt key)) (s.poisoned key n), s)
  | .pick offs =>
    (.data ((offs.map fun o => s.bytesAt (key + o) 4).foldr (· ++ ·) []) (noTag.getD (s.tagAt key))
      (offs.any fun o => s.poisoned (key + o) 4), s)
  | .store bytes tag =>
    let s1 := s.putMem key bytes
    (.done true, match tag with
      | some t => if noTag.isSome then s1 else s1.setTags key bytes.length t
      | none => s1)
  | .amo op dbl v =>
    let w := dblBytes dbl
    let old := s.natAt key w
    let ans : PieceAns := .data (s.bytesAt key w) 0#16 (s.poisoned key w)
    if s.poisoned key w then (ans, s) else (ans, s.putNat key w (amoNew op w old v.toNat))
  | .lr dbl =>
    let w := dblBytes dbl
    let ans : PieceAns := .data (s.bytesAt key w) 0#16 (s.poisoned key w)
    (ans, match hart with
      | some h => s.modHart h fun x => { x with resv := some (key / 64) }
      | none => s)
  | .sc dbl v =>
    let ok : Bool := match hart.bind s.hart? with
      | some x => x.resv == some (key / 64)
      | none => false
    let s1 := if ok then s.putNat key (dblBytes dbl) v.toNat else s
    (.done ok, match hart with
      | some h => s1.modHart h fun x => { x with resv := none }
      | none => s1)
  | .record room =>
    let n := min room (recordBytes (s.natAt key 1 % 16))
    (.data (s.bytesAt key n) (noTag.getD (s.tagAt key)) (s.poisoned key n), s)
  | .errw low _ async word _ =>
    let v := s.natAt key 4
    let cause := bitsOf word.toNat 40 6
    (.done true, s.putNat key 4 (if v = 0 then low % 2 ^ 24 + 2 ^ 24 * b2n async + 2 ^ 26 * cause else putBits v 25 1 1))
  | .bits n els =>
    -- A poisoned word of which it writes only a part stays poisoned (R394).
    (.done true, ({ s.putMem key ((spanBytes (s.bytesAt key n) els).map some) with poison := s.poison }).unpoison key (spanCover n els))

/-- Bytes of a piece. -/
def Piece.width : Piece → Nat
  | .load n => n
  | .pick offs => (offs.foldl max 0) + 4
  | .store b _ => b.length
  | .amo _ d _ => dblBytes d
  | .lr d => dblBytes d
  | .sc d _ => dblBytes d
  | .bits n _ => n
  | .record room => min room 16
  | .errw _ _ _ _ _ => 4

/-! ## Buckets (R284) -/

/-- The bucket agent of a memory chiplet: interfaces take the numbers below. -/
def mcAgent (m : Nat) : Nat := 592 + m

/-- A request of class `cl` and `n` bytes is judged at an agent: where it finds a token it is conforming, and takes one for each
64 bytes (R284); one that takes more than are left leaves none (DESIGN CHOICE; log 152). -/
def State.judge (s : State) (agent cl n : Nat) : Bool × State :=
  match tget s.buckets (64 * agent + cl) with
  | some t =>
    if 0 < t then (true, { s with buckets := tset s.buckets (64 * agent + cl) (t - (n + 63) / 64) }) else (false, s)
  | none => (false, s)

/-- The reservation class of a request: its launch's, for a packet's own its queue's (R294), and class 0 for firmware's (log 92). -/
def State.classOf (s : State) (c : Ctx) : Nat := match (c.hart.bind s.hart?).bind s.gridOf? with
  | some g => g.launch.rclass
  | none => c.cls

/-- RCLASS of a leaf (R71). -/
def leafClass (e : Word) : Nat := bitsOf e.toNat 42 6

/-- A request takes its tokens: of its launch's class at its interface, and of the page's class at the home's memory chiplet
(R71, R284). -/
def State.spend (s : State) (iface : Nat) (c : Ctx) (n : Nat) (fill : Option (PageRef × Word × Nat)) : State :=
  let s1 := (s.judge iface (s.classOf c) n).2
  match fill with
  | some (pg, e, _) => if leafLoc e then s1 else (s1.judge (mcAgent (nearMc pg.home)) (leafClass e) n).2
  | none => s1

/-! ## Misses and held requests -/

/-- Whether two held requests meet the same page of one home and context. -/
def State.samePage (s : State) (a b : Held) : Bool :=
  a.page.home == b.page.home && a.page.asid == b.page.asid
    && (let log := s.pageLog a.page.home a.page.asid (vaOff a.page.va)
        vaOff a.page.va / 2 ^ log == vaOff b.page.va / 2 ^ log)

/-- A request that a bank performs: an operation's, or a block's arrival at a grid object (R244, R246, R249, R251). -/
def Who.banks : Who → Bool
  | .op _ | .grid _ => true
  | _ => false

/-- STAMP order (R75): modulo 2^32 within a half-window of 2^31. -/
def stampBefore (a b : Nat) : Bool :=
  let d := (b % 2 ^ 32 + 2 ^ 32 - a % 2 ^ 32) % 2 ^ 32
  decide (0 < d) && decide (d < 2 ^ 31)

/-- A held request that is no miss-list entry: it came behind others of its page, and has no STAMP of its home's (R51). -/
def Held.late (e : Held) : Bool := decide (2 ^ 32 ≤ e.stamp)

/-- KIND of a miss record (R50): write, relaxed, fetch, bank operation. -/
def missKind (k : AccKind) (relaxed bank : Bool) : Nat :=
  (match k with
    | .fetch => 4
    | .load => 0
    | .store | .amo | .bank => 1) + 2 * b2n relaxed + 8 * b2n bank

/-- Whether a held request's requester is a hart whose group parks: engines and grid arrivals park nobody (R225, R249). -/
def Who.parks : Who → Bool
  | .grid _ => false
  | .engine _ _ _ => false
  | .unit | .write | .host _ | .hostRd _ => false
  | _ => true

/-- The interface that waits for a lost request or response (R401). -/
def Held.lostAt (e : Held) : Option Nat := match e.why with
  | .lost i => some i
  | _ => none

/-- A posted write received earlier at a port has not been performed: what the port received later waits (R115). -/
def State.hostBehind (s : State) (p : Nat) : Bool := s.held.any fun e => e.who == .host p && e.lostAt.isNone

/-- A request that a home holds, and neither a lost one nor a failure that a unit has still to learn of. -/
def Held.atHome (e : Held) : Bool := match e.why with
  | .lost _ | .gone _ _ => false
  | _ => true

/-- A held request's place in the order of R51: the first relaxed STAMP of its hart at the page, which stays with its later
ones when the earlier have replayed. -/
def State.firstOf (s : State) (pg : PageRef) (relaxed : Bool) (hart : Option Nat) (stamp : Nat) : Nat :=
  let log := s.pageLog pg.home pg.asid (vaOff pg.va)
  match s.held.find? fun e => relaxed && e.relaxed && e.atHome && e.ctx.hart == hart && e.page.home == pg.home && e.page.asid == pg.asid
      && vaOff e.page.va / 2 ^ log == vaOff pg.va / 2 ^ log with
  | some e => e.first
  | none => stamp

/-- A page that no valid leaf maps: it becomes resident through a fill (R87, R449). -/
def State.unfilled (s : State) (pg : PageRef) : Bool := match s.leafAt pg.home pg.asid (vaOff pg.va) with
  | .leaf _ e _ => !(e.getLsbD 0)
  | _ => true

/-- A residency miss (R49): the home keeps the request, stamps a record, and sends it to the requesting core and to the
service agent. -/
def State.holdMiss (s : State) (pg : PageRef) (r : Req) (act : Piece) (who : Who) (relaxed : Bool)
    (trace : Option Traced := none) : State :=
  let stamp := (s.home pg.home).missSeq
  let s1 := s.modHome pg.home fun h => { h with missSeq := h.missSeq + 1#32 }
  let e : Held :=
    { home := pg.home
      stamp := stamp.toNat
      first := s.firstOf pg relaxed r.ctx.hart stamp.toNat
      page := pg
      va := r.va
      act := act
      kind := r.kind
      relaxed := relaxed
      ctx := r.ctx
      who := who
      why := .miss
      time := s.ncyc
      trace := trace
      fromHost := r.fromHost
      unfilled := s.unfilled pg
      hostMode := s.duty 0 }
  let (id, s2) := s1.fresh
  let m : MissRec :=
    { home := pg.home
      stamp := stamp.toNat
      va := pg.va
      asid := pg.asid
      ctx := r.ctx
      kind := missKind r.kind relaxed (who.banks && relaxed)
      time := s.nsAt pg.home
      toCore := who.parks && r.ctx.hart.isSome
      toAgent := true
      hostMode := s.duty 0 }
  { s2 with held := s2.held ++ [e], missRecs := tset s2.missRecs id m }

/-- Keeps a request without a record: behind a rebinding, a trace ring, or a page's replay. It has no STAMP of its home's
and counts as later than every one. -/
def State.holdBehind (s : State) (pg : PageRef) (r : Req) (act : Piece) (who : Who) (relaxed : Bool) (why : HoldWhy)
    (trace : Option Traced := none) : State :=
  let stamp := 2 ^ 32 + s.ncyc
  { s with held := s.held ++
      [{ home := pg.home
         stamp := stamp
         first := s.firstOf pg relaxed r.ctx.hart stamp
         page := pg
         va := r.va
         act := act
         kind := r.kind
         relaxed := relaxed
         ctx := r.ctx
         who := who
         why := why
         time := s.ncyc
         trace := trace
         fromHost := r.fromHost
         unfilled := false
         hostMode := false }] }

/-! ## Error records (R397) -/

/-- The bytes of an error record (R397). -/
def errBytes (time paddr rep count home site : Nat) (mesh : Bool) (dir kind detail seq : Nat) : List Byte :=
  bytesOfNat 32 (seq % 2 ^ 32 + 2 ^ 32 * (detail % 2 ^ 32) + 2 ^ 64 * (kind % 256) + 2 ^ 72 * (dir % 8) + 2 ^ 75 * b2n mesh
    + 2 ^ 76 * (site % 1024) + 2 ^ 86 * (home % 1024) + 2 ^ 96 * (count % 2 ^ 32) + 2 ^ 128 * (rep % 2 ^ 16)
    + 2 ^ 144 * (paddr % 2 ^ 48) + 2 ^ 192 * (time % 2 ^ 64))

/-- The mode of error collection that stands when a record is logged decides how the ports tell of it: one vector 0 for it, or one
a ms while new records exist (R27, R28, R423). -/
def State.logTell (s : State) : State :=
  if s.duty 4 then s.modMod fun m => { m with v0Owed := (List.range 4).map fun p => (p, tgetD m.v0Owed p 0 + 1) }
  else s.modMod fun m => { m with v0New := [0, 1, 2, 3] }

/-- The booting edge takes a record, and holds 256 at the most before they go to memory (R423). -/
def State.takeRec (s : State) (bytes : List Byte) : State :=
  (s.modMod fun m =>
    if m.held.length < 256 then { m with held := m.held ++ [bytes] } else { m with lost := m.lost + 1 }).logTell

/-- A record of an event detected at a home, whose error sequence number it takes (R397), as the booting edge takes it. -/
def State.sendRec (s : State) (kind home detail paddr rep count : Nat) : State :=
  let h := s.home home
  let site := if home < 1008 then siteOfHome home else 0
  (s.modHome home fun x => { x with errSeq := x.errSeq + 1#32 }).takeRec
    (errBytes (s.nsAt home) paddr rep count home site false 0 kind detail h.errSeq.toNat)

/-- A table error also produces a KIND 6 record (R391). -/
def State.noteTable (s : State) (home sub : Nat) : State := if sub = 5 then s.sendRec 6 home 0 0 0 1 else s

/-- The page that a request to a window counts as while it waits at the CC home. -/
def Req.ownPage (r : Req) : PageRef := ⟨vaHome r.va, r.va, r.ctx.asid⟩

/-- A request, or its response, is lost on a dead link: its interface waits for it (R401). -/
def State.holdLost (s : State) (r : Req) (act : Piece) (who : Who) (relaxed : Bool) (iface : Nat) : State :=
  s.holdBehind r.ownPage r act who relaxed (.lost iface)

/-- What stands for a unit's own request to the 64 KiB of a page. -/
def State.unitHeld (s : State) (pg : PageRef) : Option Held := s.held.find? fun e =>
  e.who == .unit && e.page.home == pg.home && e.page.asid == pg.asid && vaOff e.page.va / 2 ^ 16 == vaOff pg.va / 2 ^ 16

/-- A unit of the part finds a page not resident: one request for it is held with a record, and the unit asks again. A failure that
it has learnt of is told no more. -/
def State.unitHold (s : State) (pg : PageRef) (r : Req) : State :=
  match s.unitHeld pg with
  | some e => if e.atHome || e.lostAt.isSome then s else { s with held := s.held.erase e }
  | none => s.holdMiss pg r (.load 8) .unit false

/-! ## Scheduler cores' and firmware's own accesses -/

/-- What comes of a scheduler core's access that does not reach its place now: a page that is not resident leaves one miss record; a
lost request is waited for; a table error is recorded (R391); a failure that the unit has learnt of is told no more. -/
def State.unitMiss (s : State) (c : Ctx) (kind : AccKind) (va : Word) : State :=
  let r := Req.unit va 8 kind c
  match s.route r (siteOfHome (vaHome va)) with
  | .miss pg => s.unitHold pg r
  | .lost =>
    (match s.unitHeld r.ownPage with
      | some e => if e.lostAt.isSome then s else { s with held := s.held.erase e }
      | none => s.holdLost r (.load 8) .unit false (siteOfHome (vaHome va)))
  | .fail _ sub => s.noteTable (vaHome va) sub
  | _ => s

/-- What a unit has still to learn of a request of its own to a page. -/
def State.unitFate (s : State) (pg : PageRef) : Option (Nat × Nat) := match s.unitHeld pg with
  | some e => (match e.why with
    | .gone cause sub => some (cause, sub)
    | _ => none)
  | none => none

/-- The location of `w` bytes that a scheduler core or edge firmware reaches with a context, or why not: a failure, or
nothing yet (a miss, a rebinding, a network hold). -/
def State.unitKey (s : State) (c : Ctx) (kind : AccKind) (va : Word) (w : Nat) : Except (Option (Nat × Nat)) Nat :=
  match s.route (Req.unit va w kind c) (siteOfHome (vaHome va)) with
  | .at (.mem k _) _ _ => .ok k
  | .at _ _ _ => .error (some (accCause kind, 3))
  | .fail cause sub => .error (some (cause, sub))
  | .miss pg => .error (s.unitFate pg)
  | .lost => .error (s.unitFate ⟨vaHome va, va, c.asid⟩)
  | _ => .error none

/-- A read of a scheduler core that failed is told no more, and a table error in it is recorded (R391, R392). -/
def State.sawAt (s : State) : Option (Ctx × Word) → State
  | some (c, va) => s.unitMiss c .load va
  | none => s

/-- A read of `w` bytes by a scheduler core as a number. -/
def State.unitRead (s : State) (c : Ctx) (va : Word) (w : Nat) : Except (Option (Nat × Nat)) Nat :=
  match s.unitKey c .load va w with
  | .ok k => if s.poisoned k w then .error (some (56, 14)) else .ok (s.natAt k w)
  | .error e => .error e

/-- What becomes of a scheduler core's write that cannot be performed: a report that it was to leave, or its own failure, goes to the
module log (R377 step 4). -/
def State.sendFail (s : State) (home : Nat) (act : Piece) (cause sub : Nat) (addr : Word) : State := match act with
  | .errw _ at_ _ word a => s.sendRec 16 at_ (word.toNat / 2 ^ 32) (a.toNat % 2 ^ 48) 0 1
  | _ => s.sendRec 16 home ((failWord ⟨5, 0⟩ cause sub 0).toNat / 2 ^ 32) (addr.toNat % 2 ^ 48) 0 1

/-- The kind of access that a scheduler core's write is. -/
def Piece.sendKind : Piece → AccKind
  | .errw _ _ _ _ _ => .amo
  | _ => .store

/-- The tokens of an access of `n` bytes that a scheduler core performs (R284, R294). -/
def State.unitSpend (s : State) (c : Ctx) (kind : AccKind) (va : Word) (n : Nat) : State :=
  match s.route (Req.unit va n kind c) (siteOfHome (vaHome va)) with
  | .at _ _ fill => s.spend (siteOfHome (vaHome va)) c n fill
  | _ => s

/-- A write that a scheduler core or edge firmware sends: its home performs it, or holds it and performs it at the replay (R49,
R55). -/
def State.unitSend (s : State) (c : Ctx) (va : Word) (act : Piece) : State :=
  let r := Req.unit va act.width act.sendKind c
  match s.route r (siteOfHome (vaHome va)) with
  | .at (.mem k noTag) _ fill => ((s.spend (siteOfHome (vaHome va)) c r.w fill).portMem k noTag act none).2
  | .miss pg => s.holdMiss pg r act .write false
  | .behind pg why => s.holdBehind pg r act .write false why
  | .rebind w g => s.holdBehind r.ownPage r act .write false (.rebind w g)
  | .netHeld => s.holdBehind r.ownPage r act .write false (.retry false)
  | .lost => s.holdLost r act .write false (siteOfHome (vaHome va))
  | .fail cause sub => (match act with
      | .errw _ _ _ _ _ => (s.noteTable (vaHome va) sub).sendFail (vaHome va) act cause sub va
      | _ => s.noteTable (vaHome va) sub)
  | .at _ _ _ => (match act with
      | .errw _ _ _ _ _ => s.sendFail (vaHome va) act 7 3 va
      | _ => s)

/-- A write of `w` bytes by a scheduler core. -/
def State.unitWrite (s : State) (c : Ctx) (va : Word) (w v : Nat) : State := s.unitSend c va (.store ((bytesOfNat w v).map some) none)

/-- The address of a byte of the region that starts at the queue table (R287, R422). -/
def State.qtVa (s : State) (off : Nat) : Word :=
  BitVec.ofNat 64 (off + 2 ^ 20 * bitsOf s.mod.qtbase.toNat 20 44)
/-- Whether QTBASE names an MC home (R365). -/
def State.qtValid (s : State) : Bool := isMC (vaHome s.mod.qtbase)
/-- A field of queue `q`'s record (R288): `n` bits from `lo`, as the scheduler cores read it. -/
def State.qfield (s : State) (q lo n : Nat) : Except (Option (Nat × Nat)) Nat :=
  if s.qtValid then
    match s.unitRead (schedCtx 0#16) (s.qtVa (64 * q + lo / 64 * 8)) 8 with
    | .ok v => .ok (bitsOf v (lo % 64) n)
    | .error e => .error e
  else .error (some (5, 3))
/-- A field of a queue record, 0 where it cannot be read. -/
def State.qfieldD (s : State) (q lo n : Nat) : Nat := match s.qfield q lo n with
  | .ok v => v
  | .error _ => 0
/-- Writes a field of a queue record: `n` bits, at most 32, from `lo`. -/
def State.qput (s : State) (q lo n v : Nat) : State :=
  if s.qtValid then
    s.unitSend (schedCtx 0#16) (s.qtVa (64 * q + lo / 64 * 8)) (.bits 8 [(lo % 64, n, BitVec.ofNat 32 v)])
  else s

end Sys2Proof.Machine
end

