-- ==== Sys2Proof/Machine/HomeCtl.lean ====
section
/-! DEFINITION. The home control block (R66): the window map and wait table as software reads them, HMISSDONE (R392), bank-queue
descriptors (R84), QCTL (R426), FENCE (R430) and CTXDOWN (R433). -/

namespace Sys2Proof.Machine

/-! ## The home control block (R66) -/

/-- A window-map entry as software reads it (R78). -/
def granEntry : GranSt → Nat
  | .unbound => 0
  | .core cl pc => 1 * 2 ^ 62 + 2 ^ 23 * cl + 2 ^ 16 * pc
  | .frame va => 2 * 2 ^ 62 + 2 ^ 14 * bitsOf va.toNat 14 43
  | .moving _ _ _ _ => 3 * 2 ^ 62

/-- KIND of a wait as the wait table lists it; 0 for what it lists not (R420). -/
def WaitRec.code (w : WaitRec) : Nat := if w.kind = 16 then 1 else if 1 ≤ w.kind ∧ w.kind ≤ 7 then w.kind else 0

/-- The wait-table entry of slot `s` of a core (R420): 0 for a hart of a group that is parked. -/
def State.waitEntry (s : State) (cluster pcore slot : Nat) : Nat :=
  match s.harts.find? fun p => p.2.cluster == cluster && p.2.pcore == pcore && p.2.slot == slot && p.2.status == .present
      && !p.2.trails with
  | some (_, x) =>
    match x.wait with
    | some w =>
      if w.listed then
        match s.groupOf? x, s.blockOf? x with
        | some g, some b => if g.parked then 0 else 2 ^ 40 * b.index + 2 ^ 33 * g.index + 2 ^ 29 * x.hidx + 2 ^ 24 * w.code + bitsOf w.obj.toNat 0 24
        | _, _ => 0
      else 0
    | none => 0
  | none => 0

/-- A map of one bit for each of a cluster's physical cores. -/
def State.coreMap (s : State) (cluster : Nat) (p : Core → Bool) : Nat :=
  (List.range 100).foldl (fun a c => if p (s.core (cluster * 100 + c)) then a + 2 ^ c else a) 0

/-- What a read of the control block returns (R66). -/
def State.ctlRead (s : State) (home o : Nat) : Nat :=
  let h := s.home home
  if o = 0x0 then h.ctxBase.toNat
  else if o = 0x10 then h.missSeq.toNat
  else if isCC home then
    let k := s.cluster home
    if 0x200 ≤ o ∧ o < 0x300 then (tgetD k.enables ((o - 0x200) / 8) 0#64).toNat
    else if o = 0x300 then k.hbeat % 2 ^ 64
    else if o = 0x308 then b2n k.fenced
    else if o = 0x500 then k.tdAsid.toNat + 2 ^ 17 * b2n k.tdGo.isSome
    else if o = 0x600 then s.coreMap home (fun c => c.lanesOut != 0) % 2 ^ 64
    else if o = 0x608 then s.coreMap home (fun c => c.lanesOut != 0) / 2 ^ 64
    else if o = 0x610 then s.coreMap home (fun c => c.retired) % 2 ^ 64
    else if o = 0x618 then s.coreMap home (fun c => c.retired) / 2 ^ 64
    else if 0x10000 ≤ o ∧ o < 0x13300 then
      let i := (o - 0x10000) / 8
      granEntry (s.gran (home * 96 + i / 17) (i % 17))
    else if 0x20000 ≤ o ∧ o < 0x23200 then
      let i := (o - 0x20000) / 8
      s.waitEntry home (i / 16) (i % 16)
    else 0
  else if 0x80000 ≤ o ∧ o < 0x90000 then
    let i := (o - 0x80000) / 8
    bitsOf (tgetD (s.mc (home - 0x180)).queues (i / 2) 0#128).toNat (64 * (i % 2)) 64
  else 0

/-- Whether HMISSDONE's fields select a held entry: its context, and the page that holds PAGE (R392). Where the tables
give no leaf for PAGE, the page is the 64 KiB unit. -/
def State.missSelected (s : State) (home : Nat) (w : Word) (e : Held) : Bool :=
  let asid := w.extractLsb' 48 16
  let off := 2 ^ 16 * bitsOf w.toNat 16 31
  let log := s.pageLog home asid off
  e.page.home == home && (e.why == .miss || e.why == .retry false)
    && (w.getLsbD 47 || (e.page.asid == asid && vaOff e.page.va / 2 ^ log == off / 2 ^ log))

/-- The page of a held entry has become resident by a fill from host memory, which carries no tags: every line of it takes the
leaf's TAGDEF (R87). -/
def State.hostFilled (s : State) (e : Held) : State := match s.leafAt e.page.home e.page.asid (vaOff e.page.va) with
  | .leaf _ lf log =>
    if lf.getLsbD 0 && !(leafLoc lf) then s.fillTags (dramKey (nearMc e.page.home) (leafFrame lf log)) (2 ^ log) (leafTagdef lf)
    else s
  | _ => s

/-- A write of HMISSDONE selects the entries that the home walks again (R392); MISS_LIST_REPLAY is that walk. Where the host
serves misses, it has filled the pages that had no valid leaf; the mode is the one in which each miss began (R27, R28, R363). -/
def State.hmissDone (s : State) (home : Nat) (w : Word) : State :=
  let new := s.held.filter fun e => s.missSelected home w e && e.why == .miss && e.unfilled && e.hostMode
  let s1 := new.foldl (fun (t : State) e => t.hostFilled e) s
  { s1 with held := s.held.map fun e => if s.missSelected home w e then
      { e with why := .retry (w.getLsbD 0), time := if e.why == .miss then s.ncyc else e.time } else e }

/-- Whether this cluster owns a queue (R288). -/
def State.ownsQueue (s : State) (cl q : Nat) : Bool :=
  s.qfieldD q 176 9 == cl || (decide (4096 ≤ q) && (q - 4096) / 16 == cl && s.qfieldD q 176 9 == cl)

/-- The IB packet of a queue whose buffer still has packets to take (R294). -/
def State.openBuffer (s : State) (q : Nat) : Option Nat := (s.packets.find? fun p =>
  let n := natOfBytes p.2.bytes
  p.2.queue == q && p.2.started && p.2.parent.isNone && bitsOf n 0 8 == 8 && decide (p.2.ibNext < bitsOf n 192 32)).map Prod.fst

/-- The scheduler core that does a cluster's work: its own, or the one that adopted it, in up to `n` steps (R429). -/
def State.coreFor (s : State) : Nat → Nat → Option Nat
  | 0, _ => none
  | n + 1, k => if (s.cluster k).fenced then (match (s.cluster k).adopter with
      | some a => s.coreFor n a
      | none => none)
    else some k

/-- Some scheduler core does a cluster's work: what a fenced one asks for is discarded (R430). -/
def State.coreServes (s : State) (k : Nat) : Bool := (s.coreFor 17 k).isSome

/-- QCTL with GO set (R426): resumes a halted queue of this cluster, past the faulted packet with SKIP: the packet at RDIDX, or
the next of the buffer of an IB. A launch whose packet is skipped runs nothing. -/
def State.qctl (s : State) (cl q : Nat) (skip : Bool) : State :=
  if (s.queue q).halted && s.ownsQueue cl q then
    let s1 := s.modQueue q fun x => { x with halted := false }
    if !skip then s1
    else
      match s.openBuffer q with
      | some i => { s1 with packets := tmod s1.packets i fun p => { p with ibNext := p.ibNext + 1 } }
      | none => (s1.qput q 64 32 (s.qfieldD q 64 32 + 1)).modQueue q fun x => { x with launches := x.launches.drop 1 }
  else s

/-- A write of half a bank-queue descriptor (R84). A write that disables the queue fails its waiters (SUB 9). -/
def State.queueDescWrite (s : State) (m q half : Nat) (w : Word) : State :=
  let d := tgetD (s.mc m).queues q 0#128
  let keep : Nat := if half = 0 then bitsOf w.toNat 0 1 + 2 ^ 6 * bitsOf w.toNat 6 41 + 2 ^ 53 * bitsOf w.toNat 53 5 else w.toNat
  let d' : BitVec 128 := BitVec.ofNat 128 (putBits d.toNat (64 * half) 64 keep)
  let s1 := s.modMc m fun x => { x with queues := tset x.queues q d' }
  if d'.getLsbD 0 then s1
  else
    let ws := tgetD (s.mc m).enqWait q [] ++ tgetD (s.mc m).deqWait q []
    let s2 := ws.foldl (fun (a : State) o => a.modOp o fun p => { p with st := .failed 7 9 0 0#64 }) s1
    s2.modMc m fun x => { x with enqWait := tdel x.enqWait q, deqWait := tdel x.deqWait q }

/-- A write of FENCE: only 1 acts (R430). -/
def State.fence (s : State) (cl : Nat) : State := s.modCluster cl fun k => { k with fenced := true }

/-- A write of CTXDOWN (R433): ASID takes the value; GO starts a tear-down of it unless one is in progress. -/
def State.ctxdownWrite (s : State) (cl : Nat) (w : Word) : State :=
  let a := w.extractLsb' 0 16
  s.modCluster cl fun k =>
    { k with tdAsid := a, tdGo := if k.tdGo.isSome then k.tdGo else if w.getLsbD 16 then some a else none }

/-- A write to the control block (R66). FENCE is accepted only from edge firmware or the watching core. -/
def State.ctlWrite (s : State) (home o : Nat) (w : Word) (fw : Bool) : State :=
  if o = 0x0 then
    s.modHome home fun h => { h with ctxBase := BitVec.ofNat 64 (2 ^ 20 * bitsOf w.toNat 20 28 + bitsOf w.toNat 0 1) }
  else if o = 0x8 then s.htlbInv home w
  else if o = 0x18 then s.hmissDone home w
  else if isCC home then
    if 0x200 ≤ o ∧ o < 0x300 then
      s.modCluster home fun k =>
        { k with enables := tset k.enables ((o - 0x200) / 8) (w &&& 0xFFFF00000000000F#64) }
    else if o = 0x308 then (if fw && w.getLsbD 0 then s.fence home else s)
    else if o = 0x400 then (if w.getLsbD 17 then s.qctl home (bitsOf w.toNat 0 14) (w.getLsbD 16) else s)
    else if o = 0x500 then s.ctxdownWrite home w
    else s
  else if 0x80000 ≤ o ∧ o < 0x90000 then
    let i := (o - 0x80000) / 8
    s.queueDescWrite (home - 0x180) (i / 2) (i % 2) w
  else s

end Sys2Proof.Machine
end

