-- ==== Sys2Proof/Machine/Edge.lean ====
section
/-! DEFINITION. The module log and the health word (R397, R405, R423, R424, R442, R443), measurements (R333), the host
service ring's postings (R322) and the registers of the edge homes (R26, R283, R287, R314 to R316, R320 to R335). -/

namespace Sys2Proof.Machine

/-! ## Error records and the module log -/

/-- The module log's offset in the reserved region (R422). -/
def logOff : Nat := 0x200000

/-- A write of scheduler cores or edge firmware to the reserved region (R422). -/
def State.qtWrite (s : State) (off : Nat) (bytes : List Byte) : State :=
  s.unitSend (schedCtx 0#16) (s.qtVa off) (.store (bytes.map some) none)

/-- QTBASE.LOCK (R287). -/
def State.qtLocked (s : State) : Bool := s.mod.qtbase.getLsbD 0

/-- Writes the records that the booting edge holds to the log in memory, once its header's page is resident (R423); where that page
cannot be reached they are dropped (log 137). -/
def State.logFlush (s : State) : State :=
  match s.unitRead (schedCtx 0#16) (s.qtVa logOff) 4 with
  | .ok i =>
    let n := s.mod.held.length
    let s1 := (List.range n).foldl (fun (t : State) j =>
      t.qtWrite (logOff + 64 + 32 * ((i + j) % 32766)) (s.mod.held.getD j [])) s
    (s1.qtWrite logOff (bytesOfNat 4 (i + n))).modMod fun m => { m with held := [] }
  | .error none => s.unitMiss (schedCtx 0#16) .load (s.qtVa logOff)
  | .error (some _) => (s.unitMiss (schedCtx 0#16) .load (s.qtVa logOff)).modMod fun m => { m with held := [] }

/-- Once QTBASE is locked, the records go to memory (R423). -/
def State.logOut (s : State) : State := if s.qtLocked then s.logFlush else s

/-- Enters a record in the module log (R423). -/
def State.logBytes (s : State) (bytes : List Byte) : State := (s.takeRec bytes).logOut

/-- A record of an event detected at a home, as the log takes it (R397, R423). -/
def State.logRec (s : State) (kind home detail paddr rep count : Nat) : State := (s.sendRec kind home detail paddr rep count).logOut

/-- A record of a link event (R397, R399, R400). -/
def State.logLink (s : State) (kind link detail : Nat) : State :=
  let h := s.home 0x3FF
  (s.modHome 0x3FF fun x => { x with errSeq := x.errSeq + 1#32 }).logBytes
    (errBytes s.nsE0 0 0 1 0x3FF (link / 10) (link / 5 % 2 == 1) (link % 5) kind detail h.errSeq.toNat)

/-! ## Health (R442, R443) -/

/-- A state that counts as a dead site (R442). -/
def deadSite (st : Nat) : Bool := st == 7 || st == 8 || st == 10 || st == 11 || st == 12

/-- Saturates at 255. -/
def sat255 (n : Nat) : Nat := if 255 < n then 255 else n

/-- Bits [55:0] of the health word from the state of the part; FWBAD is kept in the word itself. -/
def State.healthLow (s : State) : Nat :=
  sat255 (s.cores.filter fun p => p.2.lanesOut != 0).length
    + 2 ^ 8 * ((s.sites.filter fun p => deadSite p.2.st).length % 256)
    + 2 ^ 16 * ((s.cores.filter fun p => p.2.retired).length % 65536)
    + 2 ^ 32 * bitsOf s.mod.health.toNat 32 2
    + 2 ^ 40 * ((s.clusters.filter fun p => p.2.adopter.isSome).length % 256)
    + 2 ^ 48 * sat255 (s.deadLinks.length)

/-- Some quarter has a retired core and no free spare (R443). -/
def State.quarterShort (s : State) : Bool :=
  (s.cores.filter fun p => p.2.retired).any fun p =>
    let q := p.1 / 25
    (List.range 25).all fun i =>
      let c := s.core (25 * q + i)
      c.retired || c.win.isSome

/-- Brings the health word up to date, in the log's header too, and requests replacement where R443 says so. `hot` is
a repeating row's report of 1,024 or more. -/
def State.syncHealth (s : State) (hot : Bool) : State :=
  let low := s.healthLow
  let want : Bool := hot || s.mod.health.getLsbD 63 || bitsOf low 8 8 != 0 || bitsOf low 40 8 != 0 || bitsOf low 32 2 != 0
    || decide (16 < bitsOf low 48 8) || s.quarterShort
  let h := low + 2 ^ 62 * b2n (low != 0) + 2 ^ 63 * b2n want
  let s1 := s.modMod fun m => { m with health := BitVec.ofNat 64 h }
  let s2 := if want && !(s.mod.health.getLsbD 63) then s1.logRec 23 0x240 (h % 2 ^ 32) 0 0 1 else s1
  if s2.qtLocked then s2.qtWrite (logOff + 8) (bytesOfNat 8 h) else s2

/-! ## Measurements (R333) -/

/-- MEAS register `i`: 64 bytes, 0 at module reset. -/
def State.measOf (s : State) (i : Nat) : List Byte := tgetD s.mod.meas i (List.replicate 64 0#8)

/-- A measurement of item `d` extends register `i`. -/
def State.measure (s : State) (i : Nat) (d : List Byte) : State :=
  s.modMod fun m => { m with meas := tset m.meas i (shake256 (s.measOf i ++ shake256 d 64) 64) }

/-- Measures item `n` of MEAS5 once: 0 MDUTY, 1 QTBASE, 2 the reservation table. -/
def State.measure5 (s : State) (n : Nat) : State :=
  if s.mod.measured.contains n then s
  else
    let item : List Byte :=
      if n = 0 then bytesOfNat 8 (s.mod.mduty + 2 ^ 31 * b2n s.mod.mdutyLock)
      else if n = 1 then bytesOfNat 8 s.mod.qtbase.toNat
      else ((List.range 64).map fun c => bytesOfNat 8 (tgetD s.mod.rtable c 0#64).toNat).foldr (· ++ ·) []
    (s.measure 5 item).modMod fun m => { m with measured := m.measured ++ [n] }

/-! ## Duties and postings -/

/-- A posting for the host service ring (R322). -/
def State.post (s : State) (kind src : Nat) (body : List Byte) : State :=
  s.modMod fun m => { m with postings := m.postings ++ [⟨kind, src, body⟩] }

/-! ## Module identity and state (R316, R328) -/

/-- The booting edge (R315). -/
def State.bootingEdge (s : State) : Nat := if s.mod.bootEdge then 8 else 0

/-- A live site (R436). -/
def siteLive (st : Nat) : Bool := decide (st ≤ 6) || st == 9

/-- The lowest of a list of numbers, `d` if it is empty. -/
def leastOr (d : Nat) : List Nat → Nat
  | [] => d
  | a :: r => let m := leastOr d r
              if r.isEmpty then a else if a < m then a else m

/-- MODSTAT.STATE: the lowest STATE of any live site, or 13 once frozen (R316, R436). -/
def State.modState (s : State) : Nat :=
  if s.frozen.isSome then 13
  else if (s.sites.filter fun p => decide (p.1 < 576)).length < 576 then 0
  else leastOr 0 ((s.sites.filter fun p => decide (p.1 < 576) && siteLive p.2.st).map fun p => p.2.st)

/-- MODID (R316). -/
def State.modid (s : State) : Nat :=
  0xB024 + 2 ^ 16 * Config.silRev.toNat + 2 ^ 32 * (s.boot.fwslot % 2) + 2 ^ 40 * (s.gib % 256) + 2 ^ 48 * (s.boot.secver % 256)
/-- MODSTAT (R316). -/
def State.modstat (s : State) : Nat := s.modState + 2 ^ 4 * (s.mod.attempt % 256) + 2 ^ 12 * b2n s.mod.bootEdge

/-- Vector 1 on every port when MODSTAT.STATE has changed (R320). -/
def State.stateVector (s : State) : State :=
  if s.modState = s.mod.shownState then s
  else
    let s1 := s.modMod fun m => { m with shownState := s.modState }
    { s1 with irqs := s.irqs ++ [(0, 1), (1, 1), (2, 1), (3, 1)] }

/-- A site status word (R331). -/
def siteWord (x : Site) : Nat := x.st % 16 + 2 ^ 4 * (x.origin % 16) + 2 ^ 8 * (x.hops % 256) + 2 ^ 16 * (x.links % 16) + 2 ^ 20 * (x.wave % 256)

/-! ## Page migration requests and host commands (R323, R324) -/

/-- The submission of the request in PGREQ (R324): in hardware mode the transfer begins, else it is posted. -/
def State.pgreqSubmit (s : State) : State :=
  let d (i : Nat) : Nat := (tgetD s.mod.pgreq i 0#64).toNat
  let va := BitVec.ofNat 64 (d 0)
  if s.duty 3 then
    s.post 3 (serviceCluster (vaHome va)) (bytesOfNat 8 (d 0) ++ bytesOfNat 8 (d 1) ++ bytesOfNat 8 (d 2) ++ bytesOfNat 8 (d 3))
  else
    let (id, s1) := s.fresh
    let m : PgMig :=
      { note := BitVec.ofNat 64 (d 3)
        asid := BitVec.ofNat 16 (bitsOf (d 2) 48 16)
        toDevice := bitsOf (d 2) 42 1 == 1
        move := bitsOf (d 2) 41 1 == 1
        loc := bitsOf (d 2) 40 1 == 1
        hport := bitsOf (d 2) 38 2
        frame := bitsOf (d 2) 8 30
        va := va
        step := 0
        gate := [] }
    { s1 with pgMigs := tset s1.pgMigs id m }

/-- HSCMD (R323): OP 1 commands the swap of a reported block; OP 2 leaves it parked and lets its limit run again. -/
def State.hscmd (s : State) (w : Word) : State :=
  let serial := bitsOf w.toNat 35 29
  let bidx := bitsOf w.toNat 11 24
  let op := bitsOf w.toNat 0 4
  let hit (r : Nat × Nat × Nat) : Bool := match tget s.blocks r.1 with
    | some b => b.index == bidx && b.status == .placed && (match tget s.grids b.grid with
        | some g => g.serial == serial
        | none => false) && (match tget s.groups r.2.1 with
        | some g => g.parked
        | none => false)
    | none => false
  match s.mod.reports.find? hit with
  | none => s
  | some (b, g, _) =>
    let s1 := s.modMod fun m => { m with reports := m.reports.filter fun r => !(hit r) }
    if op = 1 then s1.modBlock b fun x => { x with swapCmd := true, hostSwap := true }
    else if op = 2 then s1.modGroup g fun x => { x with expired := false, parkedSince := s.ncyc }
    else s

/-! ## Edge registers -/

/-- The host port of an edge chiplet that has one (R18). -/
def portOfEdge (e : Nat) : Option Nat := if e % 4 = 0 then some (e / 4) else none

/-- The field whose rails an edge chiplet manages: the one it faces, or for the second edge chiplet of a corner field the inner
field diagonally inside it (R18). -/
def managedField (e : Nat) : Nat :=
  if e = 4 then 6 else if e = 8 then 10 else if e = 12 then 9 else if e = 15 then 5
  else if e < 4 then e else if e < 8 then 4 * (e - 4) + 3 else if e < 12 then 12 + (11 - e) else 4 * (15 - e)

/-- The edge chiplet that manages a field's rails. -/
def managerOf (f : Nat) : Nat := ((List.range 16).find? fun e => managedField e == f).getD 0

/-- A field is throttled while either of its levels is below 16 (R335). -/
def State.throttled (s : State) (f : Nat) : Bool :=
  decide ((s.power (managerOf f)).plevel < 16) || decide ((s.power (managerOf f)).clevel < 16)

/-- A number clamped into a range (R335). -/
def clampNat (lo hi x : Nat) : Nat := if x < lo then lo else if hi < x then hi else x

/-- Word `i` of a byte list. -/
def wordAt (bs : List Byte) (i : Nat) : Nat := natOfBytes ((bs.drop (8 * i)).take 8)

/-- What a read of an edge register returns (R315). -/
def State.edgeRead (s : State) (e o : Nat) : Nat :=
  let p := s.power e
  let be := e == s.bootingEdge
  if o = 0x0 then s.modid
  else if o = 0x400 then p.fplim
  else if o = 0x408 then p.fpwr % 2 ^ 32
  else if o = 0x410 then p.temp.toNat + 2 ^ 16 * p.tlim
  else if o = 0x418 then
    p.plevel + 2 ^ 8 * p.clevel + 2 ^ 16 * b2n p.pwr + 2 ^ 17 * b2n p.therm + 2 ^ 18 * b2n p.mod
  else if o = 0x420 then p.amps % 2 ^ 16 + 2 ^ 16 * (p.mvolt % 2 ^ 16)
  else if 0x600 ≤ o ∧ o < 0x680 then
    (match portOfEdge e with
      | some q => (tgetD s.mod.apers (16 * q + (o - 0x600) / 8) 0#64).toNat
      | none => 0)
  else if 0x800 ≤ o ∧ o < 0x880 then
    let x := s.eth (2 * e + (o - 0x800) / 0x40)
    let r := (o - 0x800) % 0x40
    if r = 0x00 then x.rxbase.toNat
    else if r = 0x08 then x.rxq.toNat
    else if r = 0x10 then x.log2n + 2 ^ 8 * b2n x.en
    else if r = 0x20 then x.rxcnt % 2 ^ 32 + 2 ^ 32 * (x.drops % 2 ^ 32)
    else if r = 0x28 then x.txcnt % 2 ^ 32
    else 0
  else if be && decide (0x3000 ≤ o) && decide (o < 0x3200) then wordAt (s.measOf ((o - 0x3000) / 64)) ((o - 0x3000) % 64 / 8)
  else if be && decide (0x3400 ≤ o) && decide (o < 0x3420) then (tgetD s.mod.attnonce ((o - 0x3400) / 8) 0#64).toNat
  else if be && o == 0x3420 then b2n s.mod.attBusy * 2 + b2n s.mod.attDone * 4
  else if be && decide (0x10000 ≤ o) && decide (o < 0x18000) then wordAt s.mod.report ((o - 0x10000) / 8)
  else if be && decide (0x18000 ≤ o) && decide (o < 0x20000) then
    (if o = 0x18000 then Config.cert.length else wordAt Config.cert ((o - 0x18008) / 8))
  else if e ≠ 0 then 0
  else if o = 0x8 then s.modstat
  else if o = 0x100 then s.mod.mduty + 2 ^ 31 * b2n s.mod.mdutyLock
  else if o = 0x108 then s.mod.qtbase.toNat
  else if o = 0x200 then s.mod.nstidx.toNat
  else if o = 0x208 then
    b2n (s.nstMesh (bitsOf s.mod.nstidx.toNat 0 10) (bitsOf s.mod.nstidx.toNat 32 10))
  else if o = 0x440 then s.mod.mplim
  else if o = 0x448 then s.mod.mpwr % 2 ^ 32 + 2 ^ 32 * (s.mod.mpeak % 2 ^ 32)
  else if o = 0x700 then s.mod.hsbase.toNat
  else if o = 0x708 then s.mod.hswr % 2 ^ 32
  else if o = 0x710 then s.mod.hsrd % 2 ^ 32
  else if o = 0x718 then s.mod.hsctl
  else if 0x1000 ≤ o ∧ o < 0x1200 then (tgetD s.mod.rtable ((o - 0x1000) / 8) 0#64).toNat
  else if 0x2000 ≤ o ∧ o < 0x2940 then
    let i := (o - 0x2000) / 4
    siteWord (s.site i) + 2 ^ 32 * siteWord (s.site (i + 1))
  else 0

/-- A write of QTBASE (R287): the lock is measured, and the log begins with its header at reset and the held records (R333, R423). -/
def State.qtbaseWrite (s : State) (w : Word) : State :=
  if s.qtLocked then s
  else
    let s1 := s.modMod fun m => { m with qtbase := w &&& 0xFFFFFFFFFFF00001#64 }
    if w.getLsbD 0 then
      let s2 := (s1.measure5 1).qtWrite logOff (List.replicate 64 0#8)
      let s3 := s2.logFlush
      (s3.qtWrite (logOff + 4) (bytesOfNat 4 s3.mod.lost)).qtWrite (logOff + 8) (bytesOfNat 8 s3.mod.health.toNat)
    else s1

/-- A write of MDUTY (R26). -/
def State.mdutyWrite (s : State) (w : Word) : State :=
  if s.mod.mdutyLock then s
  else
    let s1 := s.modMod fun m => { m with mduty := bitsOf w.toNat 0 5, mdutyLock := w.getLsbD 31 }
    if w.getLsbD 31 then s1.measure5 0 else s1

/-- A write of NSTDATA changes the entry that NSTIDX selects (R314). -/
def State.nstdataWrite (s : State) (w : Word) : State :=
  let i := bitsOf s.mod.nstidx.toNat 0 10
  let h := bitsOf s.mod.nstidx.toNat 32 10
  if 592 ≤ i then s else { s with nst := tset s.nst (1024 * i + h) (w.getLsbD 0) }

/-- The identity public key as the reports hold it: 64 bytes (R334, R441). -/
def idKey64 : List Byte := (Config.idKey ++ List.replicate 64 0#8).take 64

/-- A write of ATTCTL.GO (R334): a report begins from the current nonce and measurements; GO clears DONE. -/
def State.attGo (s : State) : State :=
  if s.mod.attBusy then s
  else
    let s1 := ((s.measure5 0).measure5 1).measure5 2
    let body := bytesOfNat 8 s1.modid ++ bytesOfNat 8 s1.modstat
      ++ ((List.range 4).map fun i => bytesOfNat 8 (tgetD s1.mod.attnonce i 0#64).toNat).foldr (· ++ ·) []
      ++ ((List.range 8).map s1.measOf).foldr (· ++ ·) [] ++ idKey64
    s1.modMod fun m => { m with attBusy := true, attDone := false, attFrom := body }

/-- A write of a reservation table entry (R283). -/
def State.rtableWrite (s : State) (c : Nat) (w : Word) : State :=
  s.modMod fun m => { m with rtable := tset m.rtable c (w &&& 0x0000FFFFFFFFFFFF#64) }

/-- Software returns received frames' slots (R327). -/
def State.rxretWrite (s : State) (port n : Nat) : State := s.modEth port fun x => { x with used := x.used - n }

/-- A write of an aligned 8-byte edge register (R315); an offset that is not listed ignores it. -/
def State.edgeWrite (s : State) (e o : Nat) (w : Word) : State :=
  let be := e == s.bootingEdge
  if o = 0x400 then
    let p : Power := s.power e
    { s with powers := tset s.powers e { p with fplim := clampNat 200 1500 (bitsOf w.toNat 0 16) } }
  else if o = 0x410 then
    let p : Power := s.power e
    { s with powers := tset s.powers e { p with tlim := clampNat 400 840 (bitsOf w.toNat 16 16) } }
  else if 0x600 ≤ o ∧ o < 0x680 then
    (match portOfEdge e with
      | some q => s.modMod fun m =>
          { m with apers := tset m.apers (16 * q + (o - 0x600) / 8) (w &&& 0xFFFFFFFFFFFF0007#64) }
      | none => s)
  else if 0x800 ≤ o ∧ o < 0x880 then
    let p := 2 * e + (o - 0x800) / 0x40
    let r := (o - 0x800) % 0x40
    if r = 0x00 then s.modEth p fun x => { x with rxbase := w }
    else if r = 0x08 then s.modEth p fun x => { x with rxq := w }
    else if r = 0x10 then s.modEth p fun x => { x with en := w.getLsbD 8, log2n := bitsOf w.toNat 0 5 }
    else if r = 0x18 then s.rxretWrite p (bitsOf w.toNat 0 16)
    else s
  else if be && decide (0x3400 ≤ o) && decide (o < 0x3420) then
    s.modMod fun m => { m with attnonce := tset m.attnonce ((o - 0x3400) / 8) w }
  else if be && o == 0x3420 then (if w.getLsbD 0 then s.attGo else s)
  else if e ≠ 0 then s
  else if o = 0x100 then s.mdutyWrite w
  else if o = 0x108 then s.qtbaseWrite w
  else if o = 0x200 then s.modMod fun m => { m with nstidx := w &&& 0x000003FF000003FF#64 }
  else if o = 0x208 then s.nstdataWrite w
  else if o = 0x440 then s.modMod fun m => { m with mplim := clampNat 2000 15000 (bitsOf w.toNat 0 16) }
  else if o = 0x700 then s.modMod fun m => { m with hsbase := w }
  else if o = 0x710 then s.modMod fun m => { m with hsrd := bitsOf w.toNat 0 32 }
  else if o = 0x718 then s.modMod fun m => { m with hsctl := (w &&& 0x07FF011F#64).toNat }
  else if o = 0x720 then s.hscmd w
  else if 0x740 ≤ o ∧ o < 0x760 then
    let s1 := s.modMod fun m => { m with pgreq := tset m.pgreq ((o - 0x740) / 8) w }
    if o = 0x758 then s1.pgreqSubmit else s1
  else if 0x1000 ≤ o ∧ o < 0x1200 then s.rtableWrite ((o - 0x1000) / 8) w
  else s

end Sys2Proof.Machine
end

