-- ==== Sys2Proof/Machine/Port.lean ====
section
/-! DEFINITION. Performing a request at its port: one piece at a place (R86, R92, R104, R394), residency misses and held
requests (R49, R50, R55), and the trace ring (R113, R114). -/

namespace Sys2Proof.Machine

/-! ## One piece at a place -/

/-- A piece where reads return a number and writes take one: registers. -/
def regPiece (act : Piece) (rd : Nat) (wr : Nat → State) (s : State) : PieceAns × State :=
  match act with
  | .load n => (.data (bytesOfNat n rd) 0#16 false, s)
  | .pick offs => (.data ((offs.map fun o => (bytesOfNat (o + 4) rd).drop o).foldr (· ++ ·) []) 0#16 false, s)
  | .store b _ => (.done true, wr (natOfBytes (b.map fun x => x.getD 0#8)))
  | .amo _ d _ => (.data (bytesOfNat (dblBytes d) rd) 0#16 false, s)
  | .lr d => (.data (bytesOfNat (dblBytes d) rd) 0#16 false, s)
  | .sc _ _ => (.done false, s)
  | .bits _ _ => (.done true, s)
  | .record room => (.data (bytesOfNat (min room 16) rd) 0#16 false, s)
  | .errw _ _ _ _ _ => (.done true, s)

/-- A byte of a trace ring page as software's write leaves it (R114): WRIDX, RDIDX, LOST and TSTALL are writable. -/
def traceByte (off : Nat) (old new : Byte) : Byte := if off < 12 then new else if off = 12 then new &&& 1#8 else old

/-- A piece at offset `off` of a trace ring page: what it writes of the read-only part keeps its value. -/
def State.portTrace (s : State) (key off : Nat) (noTag : Option (BitVec 16)) (act : Piece) (hart : Option Nat) : PieceAns × State :=
  let r := s.portMem key noTag act hart
  let n := act.width
  let old := s.bytesAt key n
  let new := r.2.bytesAt key n
  if old = new then r
  else (r.1, r.2.putMem key ((List.range n).map fun i => some (traceByte (off + i) (old.getD i 0#8) (new.getD i 0#8))))

/-- A piece at a place. -/
def State.portDo (s : State) (p : Place) (act : Piece) (c : Ctx) (fw : Bool) : PieceAns × State :=
  match p with
  | .mem key noTag => s.portMem key noTag act c.hart
  | .zero => regPiece act 0 (fun _ => s) s
  | .trace key off noTag => s.portTrace key off noTag act c.hart
  | .conf key => regPiece act (s.natAt key act.width) (fun _ => s) s
  | .ctl home off => regPiece act (s.ctlRead home off) (fun v => s.ctlWrite home off (BitVec.ofNat 64 v) fw) s
  | .edge e off => regPiece act (s.edgeRead e off) (fun v => s.edgeWrite e off (BitVec.ofNat 64 v)) s
  | .tx _ _ => (.done true, s)

/-! ## The trace ring (R113, R114) -/

/-- A record's bytes. -/
def traceBytes (time : Nat) (va : Word) (seq home srcHome srcWin group hidx size : Nat) (atomic : Bool) : List Byte :=
  bytesOfNat 32 (2 ^ 54 * b2n atomic + 2 ^ 55 * (size % 8) + 2 ^ 58 * (hidx % 16) + 2 ^ 62 * (group % 128)
    + 2 ^ 69 * (srcWin % 128) + 2 ^ 76 * (srcHome % 1024) + 2 ^ 86 * (home % 1024) + 2 ^ 96 * (seq % 2 ^ 32)
    + 2 ^ 128 * va.toNat + 2 ^ 192 * (time % 2 ^ 64))

/-- How the home's log write of a hart reaches the trace ring page of its window (R113). -/
def State.traceRoute (s : State) (x : Hart) : Route := s.granRoute (s.winOf x) 16 0x1000 .store 4096

/-- Where the trace ring page of a hart's window stands, if the log write reaches it now. -/
def State.tracePage (s : State) (x : Hart) : Option Nat := match s.traceRoute x with
  | .at (.trace k _ _) _ _ => some k
  | _ => none

/-- Whether a traced store waits at its home: its ring is full with TSTALL set, or the ring's page is being moved or is not
resident, so that the log write waits (R55, R113). A page that fails its checks takes no record (log 122). -/
def State.traceStalls (s : State) (x : Hart) : Bool :=
  match s.traceRoute x with
  | .fail _ _ => false
  | .at (.trace k _ _) _ _ =>
    let wr := s.natAt k 4
    let rd := s.natAt (k + 4) 4
    decide (126 ≤ (wr + 2 ^ 32 - rd) % 2 ^ 32) && s.natAt (k + 12) 1 % 2 == 1
  | _ => true

/-- The log write of a traced store by the home that performs it (R114): SIZE runs to 3, and what it holds for a wider store is a free value (log 3); record, header and the home's trace sequence number, as one operation. -/
def State.traceLog (s : State) (x : Hart) (home : Nat) (va : Word) (t : Traced) : State :=
  match s.tracePage x with
  | none => s
  | some k =>
    let seq := (s.home home).traceSeq
    let wr := s.natAt k 4
    let rd := s.natAt (k + 4) 4
    let full : Bool := decide (126 ≤ (wr + 2 ^ 32 - rd) % 2 ^ 32)
    let w := s.winOf x
    let gi := match s.groupOf? x with
      | some g => g.index
      | none => 0
    let fr : Word × State := if 3 < t.size then s.free else (BitVec.ofNat 64 t.size, s)
    let rec_ := traceBytes (s.nsAt home) va seq.toNat home (winHome w) (winNum w) gi x.hidx fr.1.toNat t.atomic
    let s1 := fr.2.putMem (k + 64 + 32 * (wr % 126)) (rec_.map some)
    let s2 := s1.putNat k 4 (wr + 1)
    let s3 := if full then s2.putNat (k + 8) 4 (s2.natAt (k + 8) 4 + 1) else s2
    s3.modHome home fun h => { h with traceSeq := h.traceSeq + 1#32 }

/-! ## Misses and held requests -/

/-- What comes of a request sent to its port. -/
inductive PortRes where
  | ans (a : PieceAns)
  /-- A home holds it, or its interface waits for a lost flit (R401), and answers later. -/
  | held
  /-- Its interface holds it back; it is sent again later. -/
  | wait
deriving DecidableEq, Repr

/-- A traced store waits for its trace ring's page: where the page is not resident, the home's log write asks for it (R113). -/
def State.traceMiss (s : State) (x : Hart) : State := match s.traceRoute x with
  | .miss pg => s.unitHold pg (Req.unit pg.va 8 .store (schedCtx pg.asid))
  | _ => s

/-- Whether a piece has stored what it was to store: not an SC that failed, nor a read-modify-write of poisoned bytes (R113, R395). -/
def Piece.stored (act : Piece) (a : PieceAns) : Bool := match act, a with
  | .store _ _, .done _ => true
  | .bits _ _, .done _ => true
  | .amo _ _ _, .data _ _ pz => !pz
  | .sc _ _, .done ok => ok
  | _, _ => false

/-- The home whose tables map a place. -/
def pageHome (fill : Option (PageRef × Word × Nat)) (va : Word) : Nat := match fill with
  | some (pg, _, _) => pg.home
  | none => vaHome va

/-- Bytes from an address to the end of its granule or page, as its port has it; a host home has neither. -/
def roomOf (va : Word) (fill : Option (PageRef × Word × Nat)) : Nat :=
  if inWindowSpace va then 2 ^ 14 - va.toNat % 2 ^ 14
  else match fill with
    | some (_, _, log) => 2 ^ log - va.toNat % 2 ^ log
    | none => 2 ^ 14

/-- A port reads a record up to the end of the granule or page, as one piece (R268; log 146). -/
def Piece.cut (room : Nat) : Piece → Piece
  | .record n => .record (min n room)
  | act => act

/-- Performs a request that has reached its place: the TLB takes the leaf, a traced store is logged before it is
acknowledged (R113). -/
def State.performAt (s : State) (p : Place) (fill : Option (PageRef × Word × Nat)) (r : Req) (act : Piece)
    (trace : Option Traced) (tbit : Bool) : PieceAns × State :=
  let (a, s2) := (s.tlbTake fill).portDo p (act.cut (roomOf r.va fill)) r.ctx r.fw
  match trace, r.ctx.hart.bind s.hart?, tbit with
  | some t, some x, true => (a, if act.stored a then s2.traceLog x (pageHome fill r.va) r.va t else s2)
  | _, _, _ => (a, s2)

/-! ## Order on the meshes (R105) -/

/-- A request that has been injected and has not reached its home: its place in the order of injection, its interface and what it
goes to at the home. -/
structure OnWay where
  key : Nat × Nat × Nat
  iface : Nat
  spot : Nat
deriving DecidableEq, Repr

/-- What a request of an address goes to at its home: the line. -/
def lineSpot (va : Word) : Nat := 2 * (va.toNat / 64)

/-- Order of injection: by turn, then by issue, then by piece. -/
def injBefore (a b : Nat × Nat × Nat) : Bool :=
  decide (a.1 < b.1) || (a.1 == b.1 && (decide (a.2.1 < b.2.1) || (a.2.1 == b.2.1 && decide (a.2.2 < b.2.2))))

/-- What an operation's request goes to at its bank: a line, or a bank queue. -/
def Op.spot (o : Op) : Option Nat := match o.kind with
  | .bank _ _ va _ _ | .vred _ va _ => some (lineSpot va)
  | .enq hd _ | .deq hd | .len hd => some (2 * (4096 * vaHome hd + hd.toNat % 4096) + 1)
  | .bwait obj _ => if obj.toNat < 64 then none else some (lineSpot obj)
  | _ => none

/-- The place of a requester in the order of injection; what is injected now comes after everything. -/
def State.injKey (s : State) (who : Who) : Option (Nat × Nat × Nat) := match who with
  | .acc id i => (tget s.accs id).bind fun a => (a.pieces[i]?).bind fun p => p.inj.map fun n => (n, id, i)
  | .entry id => (tget s.pb id).bind fun e => e.inj.map fun n => (n, id, 0)
  | .op id => (tget s.ops id).bind fun o => o.inj.map fun n => (n, id, 0)
  | _ => none

/-- A request of a hart that its core serves without the home enters no mesh (R42). -/
def State.onMesh (s : State) (c : Ctx) (va : Word) : Bool :=
  !(inWindowSpace va && (match granOf (vaOff va % 2 ^ 20) with
    | some (g, _) => s.localHit c (vaHome va * 96 + vaOff va / 2 ^ 20) (if g = 17 then 16 else g)
    | none => false))

/-- The requests on their way. -/
def State.onWay (s : State) : List OnWay :=
  (s.accs.map fun p =>
    let iface := match s.hart? p.2.hart with
      | some x => siteOfHome x.cluster
      | none => 0
    ((List.range p.2.pieces.length).zip p.2.pieces).filterMap fun q => match q.2.st, q.2.inj with
      | .todo, some n => if s.onMesh p.2.ctx q.2.va then some ⟨(n, p.1, q.1), iface, lineSpot q.2.va⟩ else none
      | _, _ => none).foldr (· ++ ·) []
  ++ s.pb.filterMap (fun p => match p.2.inj with
      | some n => if !p.2.performed && !p.2.held then some ⟨(n, p.1, 0), siteOfHome p.2.cluster, lineSpot p.2.line⟩ else none
      | none => none)
  ++ s.ops.filterMap (fun p => match p.2.inj, p.2.spot with
      | some n, some sp => if p.2.st == .issued then some ⟨(n, p.1, 0), siteOfHome p.2.cluster, sp⟩ else none
      | _, _ => none)

/-- No request that the interface injected before this one, for the same line or bank queue, is still on its way: the meshes
deliver them in that order (R105), and a bank performs them in order of arrival (R83, R108). Requests that go to different lines
are delivered in order too, and their ports perform them in any order (R94, R186; log 52). -/
def State.laneClear (s : State) (who : Who) (iface : Nat) (spot : Nat) : Bool :=
  !(s.onWay.any fun q => q.iface == iface && q.spot == spot
    && (match s.injKey who with
      | some k => injBefore q.key k
      | none => true))

/-! ## The spill ring (R215) -/

/-- The core whose spill ring takes a line write to a ring of a stopping group. -/
def State.spillLine (s : State) (va : Word) : Option Nat :=
  if !(inWindowSpace va) then none
  else
    let w := vaHome va * 96 + vaOff va / 2 ^ 20
    let g := vaOff va % 2 ^ 20 / 0x4000
    let stopping : Bool := s.groups.any fun p => p.2.win == w && !p.2.ended && p.2.away != 0 && decide (p.2.granLo ≤ g)
      && decide (g < p.2.granLo + p.2.granN)
    let inRing : Bool := (s.window w).rings.any fun p => decide ((va - p.2.base).toNat < 64 * p.2.lines)
    match s.gran w g with
    | .core cl pc => if stopping && inRing then some (100 * cl + pc) else none
    | _ => none

/-- The spill entry of a write within a line. -/
def lineEntry (t : Word) (bytes : List (Option Byte)) (tag : Option (BitVec 16)) (poison : Bool) : SpillEnt :=
  let o := t.toNat % 64
  let row := (List.replicate o none ++ bytes ++ List.replicate 64 none).take 64
  .line (lineOf t) (BitVec.ofNat 64 (row.foldr (fun b n => 2 * n + b2n b.isSome) 0)) (row.map fun b => b.getD 0#8) tag poison

/-- Why a write to a granule waits for the spill ring of a core: it is full, or an earlier write waits for it. -/
def State.spillFull (s : State) (core : Nat) (why : HoldWhy) : Bool :=
  decide (16 ≤ (s.core core).spill.length) || s.held.any fun e => e.why == why

/-- The lines that a write wrote take the poison of what was written (R395). -/
def State.poisonAt (s : State) (r : Req) (iface : Nat) : State := match s.route r iface with
  | .at (.mem k _) _ _ => (unitsOf k r.w).foldl (fun (u : State) x => u.addPoison x) s
  | _ => s

/-- A write that comes through the core's network interface for a ring of a stopping group is kept in the spill ring, or waits at
the CC home; `none` where it is none. An entry is a line write: an atomic, or a write of single bits, waits at the CC home with what
a full ring turns back (log 161). -/
def State.spillWrite (s : State) (r : Req) (act : Piece) (who : Who) (relaxed : Bool) : Option (PortRes × State) :=
  let why : HoldWhy := .spill (vaHome r.va * 96 + vaOff r.va / 2 ^ 20) (vaOff r.va % 2 ^ 20 / 0x4000)
  match act with
  | .amo _ _ _ | .sc _ _ | .bits _ _ =>
    if !(s.onMesh r.ctx r.va) then none
    else (s.spillLine r.va).map fun _ => (.held, s.holdBehind r.ownPage r act who relaxed why)
  | .store bytes tag =>
    if !(s.onMesh r.ctx r.va) then none
    else (s.spillLine r.va).map fun core =>
      if s.spillFull core why then (.held, s.holdBehind r.ownPage r act who relaxed why)
      else (.ans (.done true), s.modCore core fun k => { k with spill := k.spill ++ [lineEntry r.va bytes tag false] })
  | _ => none

/-! ## A request at its port -/

/-- Sends a request to its port and performs it there, or has it held (R49, R55, R72, R79, R114, R389). -/
def State.request (s : State) (r : Req) (act : Piece) (who : Who) (relaxed : Bool) (trace : Option Traced) (iface : Nat) :
    PortRes × State :=
  if s.onMesh r.ctx r.va && !(s.laneClear who iface (lineSpot r.va)) then (.wait, s)
  else
    match s.route r iface with
    | .fail cause sub => (.ans (.fail cause sub r.va), s.noteTable (vaHome r.va) sub)
    | .lost => (.held, s.holdLost r act who relaxed iface)
    | .netHeld => (.wait, s)
    | .miss pg => (.held, s.holdMiss pg r act who relaxed trace)
    | .behind pg why => (.held, s.holdBehind pg r act who relaxed why trace)
    | .rebind win g => (.held, s.holdBehind r.ownPage r act who relaxed (.rebind win g) trace)
    | .at p tbit fill =>
      match (if tbit && trace.isSome then (r.ctx.hart.bind s.hart?).filter s.traceStalls else none) with
      | some x => (.held, (s.traceMiss x).holdBehind r.ownPage r act who relaxed .ring trace)
      | none =>
        match s.spillWrite r act who relaxed with
        | some t => t
        | none =>
        let (a, s1) := (s.spend iface r.ctx r.w fill).performAt p fill r act trace tbit
        if s.onMesh r.ctx r.va && !(s.responds iface r.va) then (.held, s1.holdLost r act who relaxed iface) else (.ans a, s1)

end Sys2Proof.Machine
end

