-- ==== Sys2Proof/Machine/Mem.lean ====
section
/-! DEFINITION. A hart's accesses: failure words (R375), the split of R76, the migration counter (R44), the post buffer
(R95 to R97), what an access waits for (R93, R94, R99), plain accesses, relaxed accesses and the issue of asynchronous
operations (R217). -/

namespace Sys2Proof.Machine

/-! ## Words -/

/-- A handle (R217). -/
def handleWord (d64 : Bool) (op : Nat) (seq : BitVec 32) : Word :=
  BitVec.ofNat 64 (seq.toNat + 2 ^ 48 * (op % 128) + 2 ^ 55 * b2n d64 + 0xFD * 2 ^ 56)

/-- A status word (R220). -/
def statusWord (err can : Bool) (count : Nat) : Word :=
  BitVec.ofNat 64 (count % 2 ^ 48 + 2 ^ 62 * b2n can + 2 ^ 63 * b2n err)

/-- FORM and OP of an encoding (R375). Custom-0 has no FORM of its own and takes 7. -/
def formOfEnc : Option Enc → FormOp
  | none => noForm
  | some (.w64 lo _) => ⟨3, (lo.extractLsb' 25 7).toNat⟩
  | some (.w32 w) =>
    let o := w.extractLsb' 0 7
    if o = 0x2B#7 then ⟨0, (w.extractLsb' 27 5).toNat⟩
    else if o = 0x5B#7 then ⟨1, (w.extractLsb' 25 7).toNat⟩
    else if o = 0x7B#7 then ⟨2, (w.extractLsb' 25 7).toNat⟩
    else if o = 0x0B#7 then noForm
    else ⟨6, 0⟩

/-- FORM and OP of an instruction. -/
def formOf (i : Instr) : FormOp := formOfEnc (encode i)

/-- The instruction bits that stval shows (R370). -/
def bitsOfEnc : Option Enc → Word
  | none => 0#64
  | some (.w32 w) => w.setWidth 64
  | some (.w64 lo ext) => ext ++ lo

/-! ## Harts as requesters -/

/-- The context of a hart's requests (R62). -/
def Hart.ctx (x : Hart) (h : Nat) : Ctx := ⟨x.asid, x.priv, some h, 0⟩
/-- The interface at which a hart's requests enter the meshes. -/
def Hart.iface (x : Hart) : Nat := siteOfHome x.cluster
/-- dxtime as a hart reads it (R161, R317). -/
def State.timeOf (s : State) (x : Hart) : Nat := s.nsAt x.cluster
/-- The causal time of a core: never below its dxtime (R318). -/
def State.causal (s : State) (x : Hart) : Nat :=
  let c := (s.core x.core).c
  if c < s.timeOf x then s.timeOf x else c

/-- A group's effective deadline tag and NODL: the earliest of its own and its loans (R33, R60), each as it is taken in a
comparison (R281). -/
def State.groupTag (s : State) (g : Group) : BitVec 16 × Bool :=
  match tget s.blocks g.block with
  | none => (0#16, true)
  | some b =>
    g.loans.foldl (fun (acc : BitVec 16 × Bool) l =>
      if tagEarlier (s.effTag l.2 false) (s.effTag acc.1 acc.2) then (l.2, false) else acc) (b.tag, b.nodl)

/-- A hart's effective tag and NODL. -/
def State.tagOf (s : State) (x : Hart) : BitVec 16 × Bool := match s.groupOf? x with
  | some g => s.groupTag g
  | none => (0#16, true)

/-- The deadline class of a hart (R33): by the signed slack of its effective tag; 3 without a deadline. -/
def State.dlClass (s : State) (x : Hart) : Nat :=
  let t := s.tagOf x
  let now := s.timeOf x / 64 % 65536
  let slack := (t.1.toNat + 65536 - now) % 65536
  if t.2 then 3
  else if 0x8000 ≤ slack ∨ slack < 16 then 0 else if slack < 256 then 1 else if slack < 4096 then 2 else 3

/-! ## The split of R76 -/

/-- A piece of an access on its way to its port. -/
structure Want where
  va : Word
  act : Piece
  kind : AccKind
  /-- The first piece of its access, which R44 counts. -/
  first : Bool
deriving DecidableEq, Repr

/-- Bytes of the first piece of an access of `w` bytes, if it is split: up to the multiple of `w` inside it. An access
that would cross its home's end is not cut there: it fails whole (R389 SUB 2). -/
def cutAt (a : Word) (w : Nat) : Option Nat :=
  if a.toNat % w = 0 ∨ 2 ^ 47 < vaOff a + w then none else some (w - a.toNat % w)

/-- Bytes with nothing to write at the end are no part of a store. -/
def trimBytes (bs : List (Option Byte)) : List (Option Byte) := (bs.reverse.dropWhile Option.isNone).reverse

/-- The pieces of a load of the first `n` bytes of `w` at `a`. -/
def loadWants (a : Word) (w n : Nat) (kind : AccKind) : List Want :=
  match cutAt a w with
  | none => if n = 0 then [] else [⟨a, .load n, kind, true⟩]
  | some k =>
    if n = 0 then []
    else if n ≤ k then [⟨a, .load n, kind, true⟩]
    else [⟨a, .load k, kind, true⟩, ⟨addrPlus a k, .load (n - k), kind, false⟩]

/-- The pieces of a store of bytes at `a` by an access of `w` bytes, with the tag that a whole line carries. -/
def storeWants (a : Word) (w : Nat) (bytes : List (Option Byte)) (tag : Option (BitVec 16)) : List Want :=
  match cutAt a w with
  | none => let b := trimBytes bytes
            if b.isEmpty then [] else [⟨a, .store b tag, .store, true⟩]
  | some k =>
    let lo := trimBytes (bytes.take k)
    let hi := trimBytes (bytes.drop k)
    (if lo.isEmpty then [] else [⟨a, .store lo none, .store, true⟩])
      ++ (if hi.isEmpty then [] else [⟨addrPlus a k, .store hi none, .store, lo.isEmpty⟩])

/-- A piece that is never split: an atomic, an aligned synchronising access, a bit-granular element. -/
def oneWant (a : Word) (act : Piece) (kind : AccKind) : List Want := [⟨a, act, kind, true⟩]

/-- Bytes of answers joined in order. -/
def ansBytes : List PieceAns → List Byte
  | [] => []
  | .data b _ _ :: r => b ++ ansBytes r
  | _ :: r => ansBytes r

/-- Whether any answer carries poison (R395). -/
def ansPoison (as : List PieceAns) : Bool := as.any fun a => match a with
  | .data _ _ p => p
  | _ => false

/-- The tag of the first answer. -/
def ansTag : List PieceAns → BitVec 16
  | .data _ t _ :: _ => t
  | _ => 0#16

/-- An SC's success. -/
def ansOk : List PieceAns → Bool
  | .done ok :: _ => ok
  | _ => false

/-! ## The migration counter (R44) -/

/-- The home of an access is local to a cluster: its own or its near MC's. -/
def localHome (cluster home : Nat) : Bool := home == cluster || home == 0x180 + cluster / 2

/-- COUNT and HOME after an access to a home. -/
def Mig.count1 (m : Mig) (cluster home : Nat) : Mig :=
  if (isCC home || isMC home) && !localHome cluster home then
    if m.home = BitVec.ofNat 10 home then
      { m with count := if m.count = 0xFFFF#16 then m.count else m.count + 1#16 }
    else { m with home := BitVec.ofNat 10 home, count := 1#16 }
  else m

/-- Counts an access of a hart. -/
def State.countAccess (s : State) (h : Nat) (w : Want) : State :=
  if w.first then s.modHart h fun x => { x with mig := x.mig.count1 x.cluster (vaHome w.va) } else s

/-! ## The post buffer (R95 to R97) -/

/-- The offsets of the bytes that a piece reads without changing anything. -/
def Piece.reads : Piece → Option (List Nat)
  | .load n => some (List.range n)
  | .pick offs => some ((offs.map fun o => [o, o + 1, o + 2, o + 3]).foldr (· ++ ·) [])
  | _ => none

/-- Whether an entry holds any of the bytes at some offsets from `a`. -/
def PbEnt.touches (e : PbEnt) (a : Word) (offs : List Nat) : Bool :=
  offs.any fun i =>
    let b := addrPlus a i
    lineOf b == e.line && ((e.bytes[b.toNat % 64]?).getD none).isSome

/-- An entry that has not been performed. -/
def PbEnt.live (e : PbEnt) : Bool := !e.performed

/-- The live entries of a cluster's buffer, oldest first. -/
def State.pbOf (s : State) (cluster : Nat) : List (Nat × PbEnt) := s.pb.filter fun p => p.2.cluster == cluster && p.2.live

/-- The byte that the youngest of some entries gives an address. -/
def pbByte (es : List (Nat × PbEnt)) (a : Word) : Option Byte :=
  es.foldl (fun acc p => if p.2.line == lineOf a then
    match (p.2.bytes[a.toNat % 64]?).getD none with
    | some b => some b
    | none => acc
    else acc) none

/-- What the post buffer gives a load (R97). -/
inductive Fwd where
  /-- Every byte, from the youngest entries. -/
  | bytes (bs : List Byte)
  /-- The load waits for these entries. -/
  | after (ids : List Nat)
  | none
deriving DecidableEq, Repr

/-- R97 for the bytes at some offsets from `a`; a load that needs the line's tag never takes its bytes from the buffer (R187, R190), and
waits for every entry of the line. -/
def State.forward (s : State) (x : Hart) (a : Word) (offs : List Nat) (whole : Bool) : Fwd :=
  if inWindowSpace a then .none
  else
    let es := s.pbOf x.cluster
    if whole then
      let on := es.filter fun p => p.2.line == lineOf a
      if on.isEmpty then .none else .after (on.map Prod.fst)
    else
      let on := es.filter fun p => p.2.touches a offs
      if on.isEmpty then .none
      else if on.any fun p => p.2.asid != x.asid || p.2.priv != x.priv then .after (on.map Prod.fst)
      else
        let bs := offs.map fun i => pbByte on (addrPlus a i)
        if bs.all Option.isSome then .bytes (bs.map fun b => b.getD 0#8) else .after (on.map Prod.fst)

/-- The offsets of the bytes that a piece writes, or reads at its port for a reservation or an atomic. -/
def Piece.writes : Piece → List Nat
  | .store bs _ => (List.range bs.length).filter fun i => ((bs[i]?).getD none).isSome
  | .amo _ d _ => List.range (dblBytes d)
  | .lr d => List.range (dblBytes d)
  | .sc d _ => List.range (dblBytes d)
  | .bits n _ => List.range n
  | _ => []

/-- The entries of the hart's cluster that hold bytes which a plain store or atomic is about to write: it waits for them, so that
it follows them in coherence order (R100, R112; log 124). -/
def State.coveredBy (s : State) (x : Hart) (a : Word) (act : Piece) : List Nat :=
  if inWindowSpace a then [] else ((s.pbOf x.cluster).filter fun p => p.2.touches a act.writes).map Prod.fst

/-- The entries whose bytes a load takes (R97). -/
def State.givers (s : State) (x : Hart) (a : Word) (offs : List Nat) : List Nat :=
  ((s.pbOf x.cluster).filter fun p => p.2.touches a offs).map Prod.fst

/-- A hart notes the entries whose bytes it has taken (R112). -/
def Hart.sawAll (x : Hart) (ids : List Nat) : Hart := { x with saw := x.saw ++ ids.filter fun i => !(x.saw.contains i) }

/-- Begins the drain of entries. -/
def State.drain (s : State) (ids : List Nat) : State :=
  { s with pb := s.pb.map fun p => if ids.contains p.1 then (p.1, { p.2 with draining := true }) else p }

/-- Merges bytes into a line's bytes. -/
def mergeBytes (old new : List (Option Byte)) : List (Option Byte) :=
  (List.range 64).map fun i => match (new[i]?).getD none with
    | some b => some b
    | none => (old[i]?).getD none

/-- A piece's bytes at their places in its line. -/
def lineBytes (a : Word) (bytes : List (Option Byte)) : List (Option Byte) :=
  List.replicate (a.toNat % 64) none ++ bytes ++ List.replicate (64 - a.toNat % 64 - bytes.length) none

/-- Whether the buffer of a cluster has a free entry (R95). -/
def State.pbRoom (s : State) (cluster : Nat) : Bool := decide ((s.pb.filter fun p => p.2.cluster == cluster).length < 512)

/-- The youngest entry of a line that a store may merge into. A release that waits for an entry accepted after that one takes a
new entry, for entries of one home leave in order of acceptance and each would wait for the other (log 123). -/
def State.pbMerge (s : State) (x : Hart) (line : Word) (gate : List Nat) : Option Nat :=
  match (s.pbOf x.cluster).filter fun p => p.2.line == line with
  | [] => none
  | l =>
    match l.getLast? with
    | some (id, e) =>
      if !e.draining && e.asid == x.asid && e.priv == x.priv && gate.all fun g => decide (g < id) then some id else none
    | none => none

/-- Accepts one piece of a store into the buffer of the hart's cluster (R95); a piece that carries a tag takes a new
entry (R185). At 448 entries every entry begins to drain (R96). -/
def State.pbAccept (s : State) (h : Nat) (x : Hart) (a : Word) (bytes : List (Option Byte)) (tag : Option (BitVec 16))
    (gate : List Nat) (rel : Bool) : State :=
  let line := lineOf a
  let bs := lineBytes a bytes
  let rels := if rel then [h] else []
  let s1 : State := match (if tag.isSome then none else s.pbMerge x line gate) with
    | some id =>
      { s with pb := tmod s.pb id fun e =>
          { e with
            bytes := mergeBytes e.bytes bs
            owners := if e.owners.contains h then e.owners else e.owners ++ [h]
            gate := e.gate ++ gate
            rel := e.rel ++ rels } }
    | none =>
      let (id, s2) := s.fresh
      let e : PbEnt :=
        { cluster := x.cluster
          line := line
          bytes := bs
          tag := tag
          owners := [h]
          asid := x.asid
          priv := x.priv
          since := s.ncyc
          gate := gate
          rel := rels
          inj := none
          draining := false
          sent := false
          held := false
          performed := false }
      { s2 with pb := tset s2.pb id e }
  let n := (s1.pb.filter fun p => p.2.cluster == x.cluster).length
  if 448 ≤ n then s1.drain ((s1.pb.filter fun p => p.2.cluster == x.cluster).map Prod.fst) else s1

/-! ## What an access waits for -/

/-- Every piece of an access has its answer. -/
def Acc.performed (a : Acc) : Bool := a.pieces.all fun p => match p.st with
  | .ans _ => true
  | _ => false

/-- Whether an operation has not reached the unit that performs it. -/
def Op.travelling (o : Op) : Bool := match o.st with
  | .issued => true
  | .held => true
  | _ => false

/-- Whether an operation counts as an access that has not completed (R244): bank and queue operations until their
futures complete, arrivals and bwaits until their stage has them. -/
def Op.counts (o : Op) : Bool :=
  match o.kind with
  | .bank _ _ _ _ _ | .vred _ _ _ | .enq _ _ | .deq _ | .len _ => true
  | .arrive _ _ _ _ _ | .bwait _ _ => o.travelling
  | _ => false

/-- Something that a gate names is still under way: an access without all its answers, an entry that has not been
performed, an operation still travelling. -/
def State.liveId (s : State) (id : Nat) : Bool :=
  (match tget s.accs id with
    | some a => !a.performed
    | none => false)
    || (match tget s.pb id with
      | some e => e.live
      | none => false)
    || (match tget s.ops id with
      | some o => o.travelling
      | none => false)

/-- No part of a gate is still under way. -/
def State.gateClear (s : State) (gate : List Nat) : Bool := gate.all fun i => !s.liveId i

/-- The hart's relaxed, release and acquire accesses that have not completed (R92, R94). -/
def State.accsOf (s : State) (h : Nat) : List (Nat × Acc) := s.accs.filter fun p => p.2.hart == h
/-- The hart's own live entries, those held in a cluster that it has left among them (R98). -/
def State.entriesOf (s : State) (h : Nat) : List (Nat × PbEnt) := s.pb.filter fun p => p.2.live && p.2.owners.contains h
/-- The hart's operations. -/
def State.opsOf (s : State) (h : Nat) : List (Nat × Op) := s.ops.filter fun p => p.2.hart == h
/-- The hart's bank, queue and barrier requests that have not arrived. -/
def State.travelOf (s : State) (h : Nat) : List (Nat × Op) := (s.opsOf h).filter fun p => p.2.counts && p.2.travelling
/-- Entries with a release store of the hart that awaits its port (R92). -/
def State.relsOf (s : State) (h : Nat) : List (Nat × PbEnt) := s.pb.filter fun p => p.2.live && p.2.rel.contains h

/-- The number of the hart's outstanding accesses under R94 and R244. -/
def State.outstanding (s : State) (h : Nat) : Nat :=
  (s.accsOf h).length + ((s.opsOf h).filter fun p => p.2.counts).length + (s.relsOf h).length

/-- An acquire of the hart whose value has not returned holds every later access back (R101). -/
def State.acquiring (s : State) (h : Nat) : Bool := (s.accsOf h).any fun p => p.2.kind == 1

/-- Every earlier access of the hart is complete (the .cl condition of R99): what still stands against it. A bank or
barrier request that has arrived does not count. -/
def State.incomplete (s : State) (h : Nat) : List Nat :=
  (s.accsOf h).map Prod.fst ++ (s.travelOf h).map Prod.fst ++ (s.relsOf h).map Prod.fst

/-- The older entries that a scope drains (R99). -/
def State.olderEntries (s : State) (h : Nat) (x : Hart) (sc : Scope) : List Nat :=
  match sc with
  | .hart | .core | .cl => []
  | .fd => ((s.pbOf x.cluster).filter fun p =>
      p.2.owners.contains h || fieldOfHome (vaHome p.2.line) == fieldOfHome x.cluster).map Prod.fst
  | .md | .sys => (s.pbOf x.cluster).map Prod.fst

/-- Whether a scope waits for the hart's earlier accesses to complete. -/
def scopeWaits : Scope → Bool
  | .hart => false
  | _ => true

/-- A fence or a release that a hart performs itself (R99, R102): passes, or what to do while it waits. First every
earlier access completes, then the older entries of that instant drain. -/
def State.fenceGate (s : State) (h : Nat) (x : Hart) (sc : Scope) : Option State :=
  if !scopeWaits sc then none
  else
    match x.snap with
    | none =>
      if !(s.incomplete h).isEmpty then some s
      else
        let old := s.olderEntries h x sc
        if old.isEmpty then none else some ((s.drain old).modHart h fun y => { y with snap := some old })
    | some ids => if s.gateClear ids then none else some s

/-- A plain access waits until every earlier access of the hart has been performed (R93): passes, or what to do while
it waits. -/
def State.plainGate (s : State) (h : Nat) (x : Hart) : Option State :=
  if !x.log.isEmpty then none
  else
    let own := (s.entriesOf h).map Prod.fst
    let accs := (s.accsOf h).any fun p => !p.2.performed || p.2.kind == 1
    if accs || !(s.travelOf h).isEmpty || !own.isEmpty then some (s.drain own) else none

/-! ## Plain accesses (R91, R93) -/

/-- What a plain access has come to. -/
inductive Got where
  | done (as : List PieceAns) (s : State)
  | trap (cause sub : Nat) (addr : Word) (s : State)
  | wait (s : State)

/-- Keeps the answers of the pieces performed so far. -/
def State.keepLog (s : State) (h : Nat) (got : List PieceAns) : State := s.modHart h fun x => { x with log := got }

/-- The hart waits for an answer that comes later. -/
def State.awaitAns (s : State) (h id : Nat) (got : List PieceAns) : State :=
  s.modHart h fun x => { x with log := got, plainOut := some id }

/-- Sends the pieces of a plain access one after another, each once the one before it has been acknowledged. -/
def State.plainGo (s : State) (h : Nat) (trace : Option Traced) (tag : Bool) : List Want → List PieceAns → Got
  | [], got => .done got (s.keepLog h [])
  | w :: ws, got =>
    match s.hart? h with
    | none => .done got s
    | some x =>
      let f : Fwd := match w.act.reads with
        | some offs => s.forward x w.va offs tag
        | none => .none
      match f with
      | .bytes bs =>
        ((s.countAccess h w).modHart h fun y => y.sawAll (s.givers x w.va (w.act.reads.getD []))).plainGo h trace tag ws
          (got ++ [.data bs 0#16 false])
      | .after _ => .wait (s.keepLog h got)
      | .none =>
        if !(s.coveredBy x w.va w.act).isEmpty then .wait (s.keepLog h got)
        else
        let s1 := s.countAccess h w
        match s1.request (Req.hart w.va w.act.width w.kind (x.ctx h)) w.act (.plain h) false trace x.iface with
        | (.ans (.fail cause sub a), s2) => .trap cause sub a (s2.keepLog h [])
        | (.ans a, s2) => s2.plainGo h trace tag ws (got ++ [a])
        | (.held, s2) => let (id, s3) := s2.fresh
                         .wait (s3.awaitAns h id got)
        | (.wait, _) => .wait (s.keepLog h got)

/-- A plain access of the hart `h`: gated by R93, performed piece by piece, with its answers. -/
def State.plain (s : State) (h : Nat) (x : Hart) (trace : Option Traced) (tag : Bool) (ws : List Want) : Got :=
  if x.plainOut.isSome then .wait s
  else
    match s.plainGate h x with
    | some s1 => .wait s1
    | none =>
      match x.log.getLast? with
      | some (.fail cause sub a) => .trap cause sub a (s.keepLog h [])
      | _ => s.plainGo h trace tag (ws.drop x.log.length) x.log

/-! ## Relaxed accesses (R94, R188, R243) -/

/-- Two byte ranges overlap. -/
def overlaps (a : Word) (n : Nat) (b : Word) (m : Nat) : Bool :=
  decide ((b - a).toNat < n) || decide ((a - b).toNat < m)

/-- The addresses and widths that an operation of a bank acts on. -/
def Op.bytesAt (o : Op) : Option (Word × Nat) := match o.kind with
  | .bank _ d va _ _ => some (va, if d then 8 else 4)
  | .vred _ va _ => some (va, 64)
  | _ => none

/-- An earlier access of the hart that has not been performed overlaps these pieces, so that they wait (R94). -/
def State.conflicts (s : State) (h : Nat) (ws : List Want) : Bool :=
  ws.any fun w =>
    ((s.accsOf h).any fun p => p.2.pieces.any fun q => (match q.st with
        | .ans _ => false
        | _ => true) && overlaps w.va w.act.width q.va q.act.width)
      || ((s.travelOf h).any fun p => match p.2.bytesAt with
        | some (a, n) => overlaps w.va w.act.width a n
        | none => false)

/-- A relaxed access may issue (R94, R101). -/
def State.relaxedOk (s : State) (h : Nat) (ws : List Want) : Bool :=
  !s.acquiring h && decide (s.outstanding h < 8) && !s.conflicts h ws

/-- Marks where a load's value goes as busy (R188). -/
def Hart.markBusy (x : Hart) (id : Nat) : LoadDst → Hart
  | .x rd _ => if rd = 0#5 then x else { x with regs := tset x.regs rd.toNat (.busy id) }
  | .v vd _ => { x with vbusy := tset x.vbusy vd.toNat id }

/-- Issues a relaxed or acquire load: its pieces leave for their homes, or take their bytes from the post buffer at
once. -/
def State.loadIssue (s : State) (h : Nat) (x : Hart) (ws : List Want) (dst : LoadDst) (fo : FormOp) (kind : Nat) : State :=
  let (id, s1) := s.fresh
  let s2 := ws.foldl (fun (a : State) w => a.countAccess h w) s1
  let fw := ws.map fun w => (w, match w.act.reads with
    | some offs => s.forward x w.va offs false
    | none => Fwd.none)
  let pcs : List AccPiece := fw.map fun p => ⟨p.1.va, p.1.act, match p.2 with
    | .bytes bs => .ans (.data bs 0#16 false)
    | _ => .todo, none, !p.1.first⟩
  let gave := (fw.map fun p => match p.2 with
    | .bytes _ => s.givers x p.1.va (p.1.act.reads.getD [])
    | _ => []).flatten
  let gate := fw.foldl (fun g p => match p.2 with
    | .after ids => g ++ ids
    | _ => g) []
  let a : Acc := ⟨h, some dst, pcs, x.ctx h, gate, fo, kind⟩
  { s2 with accs := tset s2.accs id a }.modHart h fun y => (y.sawAll gave).markBusy id dst

/-- Issues a relaxed or release store: pieces to window space leave for their granules' ports, the others are accepted
by the post buffer. `gate` holds entries that a release waits for. -/
def State.storeIssue (s : State) (h : Nat) (x : Hart) (ws : List Want) (fo : FormOp) (gate : List Nat) (rel : Bool) : State :=
  let s1 := ws.foldl (fun (a : State) w => a.countAccess h w) s
  let win := ws.filter fun w => inWindowSpace w.va
  let s2 := (ws.filter fun w => !inWindowSpace w.va).foldl (fun (a : State) w => match w.act with
    | .store b t => a.pbAccept h x w.va b t gate rel
    | _ => a) s1
  if win.isEmpty then s2
  else
    let (id, s3) := s2.fresh
    let a : Acc := ⟨h, none, win.map fun w => ⟨w.va, w.act, .todo, none, !w.first⟩, x.ctx h, gate, fo, 8⟩
    { s3 with accs := tset s3.accs id a }

/-- The post buffer can take these pieces. -/
def State.storeRoom (s : State) (x : Hart) (ws : List Want) : Bool :=
  (ws.filter fun w => !inWindowSpace w.va).isEmpty
    || decide ((s.pb.filter fun p => p.2.cluster == x.cluster).length + ws.length ≤ 512)

/-! ## Asynchronous operations (R217) -/

/-- What an operation waits for before it is performed: the release of its scope (R109), the hart's own accesses to the same
bytes (R94, R108), and the other entries of its cluster on its lines, which it follows in coherence order (R100; log 124). -/
def State.opGate (s : State) (h : Nat) (x : Hart) (sc : Scope) (lines : List Word) : List Nat :=
  let own := ((s.pb.filter fun p => p.2.live && (p.2.cluster == x.cluster || p.2.owners.contains h)).filter fun p =>
    lines.contains p.2.line).map Prod.fst
  let same := ((s.accsOf h).filter fun p => p.2.pieces.any fun q => lines.contains (lineOf q.va)).map Prod.fst
  let prev := ((s.travelOf h).filter fun p => match p.2.bytesAt with
    | some (a, _) => lines.contains (lineOf a)
    | none => false).map Prod.fst
  own ++ same ++ prev ++ (if scopeWaits sc then s.incomplete h else [])

/-- What the instruction gives an operation at issue. -/
structure Issue where
  kind : OpKind
  how : FailHow
  scope : Scope
  /-- Lines that the operation itself touches. -/
  lines : List Word
  /-- It has a gate of its own: operations that perform no release (R109) have none. -/
  gated : Bool

/-- Starts an operation: it takes the issue count, which counts this issue too (log 125), and, unless rd is x0, leaves the handle
in rd and marks it pending. Answers its identity. -/
def State.opIssue (s : State) (h : Nat) (x : Hart) (rd : RegIdx) (fo : FormOp) (i : Issue) : Nat × State :=
  let (id, s1) := s.fresh
  let (tag, nodl) := s.tagOf x
  let gate := if i.gated then s.opGate h x i.scope i.lines else []
  let o : Op :=
    { hart := h
      kind := i.kind
      st := .issued
      fo := fo
      how := i.how
      scope := i.scope
      ctx := x.ctx h
      gate := gate
      drained := !i.gated
      tag := tag
      nodl := nodl
      cluster := x.cluster
      win := s.winOf x
      since := s.ncyc
      inj := none
      beta := none }
  let s2 : State := { s1 with ops := tset s1.ops id o }
  (id, (s2.drain gate).modHart h fun y =>
    let y1 : Hart := { y with seq := y.seq + 1#32 }
    if rd = 0#5 then y1
    else
      let y2 := y1.wx rd (handleWord (fo.form == 3) fo.op y1.seq)
      { y2 with regs := tset y2.regs rd.toNat (.pending id) })

/-- Whether an operation's release is done; the first time its gate is clear it takes the snapshot of the older
entries that its scope drains (R99). Answers whether it may be performed now. -/
def State.opReady (s : State) (o : Nat) : Bool × State :=
  match tget s.ops o with
  | none => (false, s)
  | some p =>
    if !s.gateClear p.gate then (false, s)
    else if p.drained then (true, s)
    else
      match s.hart? p.hart with
      | none => (true, s)
      | some x =>
        let old := s.olderEntries p.hart { x with cluster := p.cluster } p.scope
        let s1 := (s.drain old).modOp o fun q => { q with gate := old, drained := true }
        (old.isEmpty, s1)

/-- An operation's request leaves its interface: its release is done (R99, R105). -/
def State.opLeaves (s : State) (p : Op) : Bool :=
  s.gateClear p.gate && (p.drained || (match s.hart? p.hart with
    | some x => (s.olderEntries p.hart { x with cluster := p.cluster } p.scope).isEmpty
    | none => true))

/-- The address whose interface sends an operation's completion over the meshes: of a bank, a grid object's bank, a mailbox or a kick
register. What the cluster's own units complete needs no mesh (R312). -/
def OpKind.answersAt : OpKind → Option Word
  | .bank _ _ va _ _ | .vred _ va _ => some va
  | .enq hd _ | .deq hd | .len hd => some hd
  | .arrive obj _ _ _ _ | .bwait obj _ => if obj.toNat < 64 then none else some obj
  | .kick _ kreg => some kreg
  | .msg mbox _ _ _ _ => some mbox
  | _ => none

/-- The completion of an operation comes back to its cluster (R312). -/
def State.opResponds (s : State) (p : Op) : Option Word :=
  p.kind.answersAt.filter fun va => s.onMesh p.ctx va && !(s.responds (siteOfHome p.cluster) va)

/-- An operation's request or completion is lost: its interface waits for it (R401). -/
def State.opLost (s : State) (o : Nat) (p : Op) (va : Word) : State :=
  (s.holdLost (Req.unit va 8 .load p.ctx) (.load 8) (.op o) false (siteOfHome p.cluster)).modOp o fun q => { q with st := .held }

/-- An operation has been performed: its completion leaves with this value, unless it is lost on the way (R401). -/
def State.opDone (s : State) (o : Nat) (v : Word) : State :=
  match (tget s.ops o).bind fun p => (s.opResponds p).map fun va => (p, va) with
  | some (p, va) => s.opLost o p va
  | none => s.modOp o fun p => { p with st := .done v }
/-- An operation has failed: its failure leaves. -/
def State.opFail (s : State) (o : Nat) (cause sub count : Nat) (addr : Word) : State :=
  s.modOp o fun p => { p with st := .failed cause sub count addr }

end Sys2Proof.Machine
end

