-- ==== Sys2Proof/Machine/Report.lean ====
section
/-! DEFINITION. Mailboxes as their ports keep them (R233 to R236), the fault record and the chain of R377, and ERRWORD
(R378). -/

namespace Sys2Proof.Machine

/-! ## Mailboxes -/

/-- The location of a mailbox's configuration word. -/
def State.confKey (s : State) (w m : Nat) : Option Nat := s.granKey w 16 (8 * m)
/-- A mailbox's configuration word; 0, and so disabled, where the control granule cannot be reached. -/
def State.conf (s : State) (w m : Nat) : Nat := match s.confKey w m with
  | some k => s.natAt k 8
  | none => 0
/-- Writes a mailbox's configuration word. -/
def State.putConf (s : State) (w m v : Nat) : State := match s.confKey w m with
  | some k => s.putNat k 8 v
  | none => s

/-- Capacity less 1. -/
def cSlots (v : Nat) : Nat := bitsOf v 0 3
/-- EN. -/
def cEn (v : Nat) : Bool := bitsOf v 3 1 == 1
/-- PRIO. -/
def cPrio (v : Nat) : Nat := bitsOf v 4 2
/-- BETA. -/
def cBeta (v : Nat) : Nat := bitsOf v 8 8
/-- HEAD. -/
def cHead (v : Nat) : Nat := bitsOf v 16 8
/-- TAIL. -/
def cTail (v : Nat) : Nat := bitsOf v 24 8
/-- HELD. -/
def cHeld (v : Nat) : Nat := bitsOf v 32 8

/-- Bits set among the low `n`. -/
def popcountNat (v : Nat) : Nat → Nat
  | 0 => 0
  | n + 1 => popcountNat v n + bitsOf v n 1

/-- The delivery condition of R235. -/
def cRoom (v : Nat) : Bool :=
  cEn v && decide ((cTail v + 256 - cHead v) % 256 + popcountNat (cHeld v) 8 < cSlots v + 1)
    && bitsOf (cHeld v) (cTail v % 8) 1 == 0

/-- USER of a cut marker (R308). -/
def cutUser : Nat := 0xFFFFFFFE

/-- The 256 bytes of a slot (R234). -/
def slotImage (ctime len win home user : Nat) (payload : List Byte) : List Byte :=
  bytesOfNat 16 (ctime % 2 ^ 64 + 2 ^ 64 * (len % 256) + 2 ^ 79 * (win % 128) + 2 ^ 86 * (home % 1024) + 2 ^ 96 * (user % 2 ^ 32))
    ++ (payload ++ List.replicate 240 0#8).take 240

/-- The TAIL index from which a mailbox's messages are hidden, if a cut marker has arrived (R308). -/
def State.hiddenFrom (s : State) (w m : Nat) : Option Nat :=
  (((s.window w).hidden.find? fun p => p.1 == m)).map Prod.snd

/-- Whether a message waits at a mailbox for a receiver. -/
def State.mboxHas (s : State) (w m : Nat) : Bool :=
  let v := s.conf w m
  cEn v && cHead v != cTail v && s.hiddenFrom w m != some (cHead v)

/-- Sets the tags of a slot's four lines. -/
def State.setTags4 (s : State) (key : Nat) (t : BitVec 16) : State :=
  (((s.setTag key t).setTag (key + 64) t).setTag (key + 128) t).setTag (key + 192) t

/-- Delivers a slot image to a mailbox that has room: one indivisible step of its port (R235). -/
def State.deliver (s : State) (w m : Nat) (image : List Byte) (tag : BitVec 16) : State :=
  let v := s.conf w m
  let t := cTail v
  match s.granKey w 17 (0x800 * m + 0x100 * (t % 8)) with
  | none => s
  | some k =>
    let s1 := ((s.putMem k (image.map some)).setTags4 k tag).putConf w m (putBits v 24 8 (t + 1))
    if natOfBytes ((image.drop 12).take 4) = cutUser ∧ (s.hiddenFrom w m).isNone then
      s1.modWindow w fun x => { x with hidden := x.hidden ++ [(m, t)] }
    else s1

/-- Frees the slot at an address of this window, as a held one (R237). -/
def State.freeSlot (s : State) (w : Nat) (slot : Word) : State :=
  if slot = 0#64 then s
  else
    let m := bitsOf slot.toNat 11 5
    let i := bitsOf slot.toNat 8 3
    s.putConf w m (putBits (s.conf w m) (32 + i) 1 0)

/-! ## Host requests that fail (R321, R390) -/

/-- What a host port answers. -/
def State.hostSay (s : State) (p : Nat) (a : HostAns) : State := { s with hostAns := s.hostAns ++ [(p, a)] }

/-- A host request that the part refuses (R321): Unsupported Request to a read, a write discarded, and a KIND 7 record. -/
def State.hostRefuse (s : State) (p : Nat) (wr : Bool) : State :=
  let s1 := s.logRec 7 (0x240 + 4 * p) 0 0 0 1
  if wr then s1 else s1.hostSay p .unsupported

/-- A host request that fails (R390): Completer Abort to a read, a write discarded, an AER non-fatal error and a KIND 7 record. -/
def State.hostFail (s : State) (p : Nat) (wr : Bool) : State :=
  let s1 := s.logRec 7 (0x240 + 4 * p) 0 0 0 1
  (if wr then s1 else s1.hostSay p .abort).hostSay p .aer

/-! ## Reports (R377, R378) -/

/-- What a fault record says. -/
structure FaultRec where
  word : Word
  addr : Word
  async : Bool
  hidx : Nat
deriving DecidableEq, Repr

/-- CAUSE of a failure word. -/
def wordCause (w : Word) : Nat := bitsOf w.toNat 40 6

/-- A fault record's bytes. -/
def faultBytes (time block group : Nat) (r : FaultRec) : List Byte :=
  bytesOfNat 32 (2 ^ 24 * (r.hidx % 16) + 2 ^ 32 * (group % 128) + 2 ^ 39 * b2n r.async + 2 ^ 40 * (block % 2 ^ 24)
    + 2 ^ 64 * r.word.toNat + 2 ^ 128 * r.addr.toNat + 2 ^ 192 * (time % 2 ^ 64))

/-- Step 4 of R377: the module log (R424 KIND 16). -/
def State.reportLog (s : State) (home : Nat) (r : FaultRec) : State :=
  s.logRec 16 home (r.word.toNat / 2 ^ 32) (r.addr.toNat % 2 ^ 48) 0 1

/-- ERRWORD of a launch record (R378): the first failure writes it, a later one sets MORE, in one operation of its port. The home
performs it, or holds it and performs it at the replay (R49); where it cannot, the failure is entered in the module log. -/
def State.errWord (s : State) (asid : BitVec 16) (rec_ : Word) (home low : Nat) (r : FaultRec) : State :=
  s.unitSend (schedCtx asid) (addrPlus rec_ 124) (.errw low home r.async r.word r.addr)

/-- Step 3 of R377 while the grid has a block that has not ended, else step 4. -/
def State.reportGrid (s : State) (grid : Nat) (block : Nat) (home : Nat) (r : FaultRec) : State :=
  match tget s.grids grid with
  | none => s.reportLog home r
  | some g =>
    if g.ended < g.launch.bpg then s.errWord g.asid g.rec_ home block r else s.reportLog home r

/-- Whether mailbox 31 of a group takes a fault record now: a hart of it has not ended, its header declares the mailbox,
it is enabled and has room. -/
def State.groupMbox (s : State) (g : Group) (hdr : Khdr) : Bool :=
  (g.harts.any fun h => match s.hart? h with
    | some x => x.status != .ended
    | none => false)
    && hdr.mboxmask.getLsbD 31 && cRoom (s.conf g.win 31)

/-- The causal time of the agent that detects a failure of hart `hidx` of a group: that of the hart's core (R318, R377). -/
def State.ctimeOf (s : State) (g : Group) (hidx cluster : Nat) : Nat :=
  match g.harts.findSome? fun h => (s.hart? h).filter fun x => x.hidx == hidx with
  | some x => s.causal x
  | none => s.nsAt cluster

/-- Reports a failure of a hart of group `gi` from step 2 of R377 on. -/
def State.report (s : State) (gi : Nat) (r : FaultRec) : State :=
  match tget s.groups gi with
  | none => s.reportLog 0 r
  | some g =>
    match tget s.blocks g.block with
    | none => s.reportLog (winHome g.win) r
    | some b =>
      match tget s.grids b.grid with
      | none => s.reportLog b.cluster r
      | some gr =>
        if s.groupMbox g gr.hdr then
          let time := s.nsAt b.cluster
          s.deliver g.win 31
            (slotImage (s.ctimeOf g r.hidx b.cluster) 32 (winNum g.win) (winHome g.win) (wordCause r.word) (faultBytes time b.index g.index r)) 0#16
        else s.reportGrid b.grid b.index b.cluster r

/-- Adds a boundary delivery to a hart that has not ended (R369), or reports it from step 2. -/
def State.dueAt (s : State) (h : Nat) (cause : Nat) (word : Word) (addr : Word) : State :=
  match s.hart? h with
  | none => s
  | some x =>
    if x.status == .ended then s.report x.group ⟨word, addr, true, x.hidx⟩
    else s.modHart h fun y => { y with due := y.due ++ [⟨cause, word, addr⟩] }

end Sys2Proof.Machine
end

