-- ==== Sys2Proof/Machine/Bar.lean ====
section
/-! DEFINITION. Barrier objects (R247 to R252): the recording of arrivals at their stages, the combining of R250, the
completion of a phase, and grid objects at their banks. -/

namespace Sys2Proof.Machine

/-! ## Combining (R250) -/

/-- One lane of combine(opc, a, b). -/
def barLane (opc : Nat) (a b : W32) : W32 :=
  if opc = 1 then a + b
  else if opc = 2 then addF32 a b
  else if opc = 3 then (if a.toInt ≤ b.toInt then a else b)
  else if opc = 4 then minF32 a b
  else if opc = 5 then (if b.toInt ≤ a.toInt then a else b)
  else if opc = 6 then maxF32 a b
  else if opc = 7 then
    if (f32 a).isNan || (f32 b).isNan then nan32
    else
      let x := a &&& 0x7FFFFFFF#32
      let y := b &&& 0x7FFFFFFF#32
      if x < y then y else x
  else 0#32

/-- The identity of one lane. -/
def barIdent (opc : Nat) : W32 :=
  if opc = 2 then 0x80000000#32
  else if opc = 3 then 0x7FFFFFFF#32
  else if opc = 4 then 0x7F800000#32
  else if opc = 5 then 0x80000000#32
  else if opc = 6 then 0xFF800000#32
  else 0#32

/-- Both lanes. -/
def barCombine (opc : Nat) (a b : BitVec 64) : BitVec 64 :=
  barLane opc (a.extractLsb' 32 32) (b.extractLsb' 32 32) ++ barLane opc (a.extractLsb' 0 32) (b.extractLsb' 0 32)

/-- Combines contributions in order; a contribution of another operation is left out. -/
def barFold (opc : Nat) (cs : List (Nat × BitVec 64)) : BitVec 64 :=
  cs.foldl (fun acc c => if c.1 = opc then barCombine opc acc c.2 else acc) (barIdent opc ++ barIdent opc)

/-- The operation that a phase takes: that of its first combining contribution. -/
def barOpc (as : List Arrival) : Nat := match as.find? fun a => a.opc != 0 with
  | some a => a.opc
  | none => 0

/-- The format codes that barmax may name (R251). -/
def barmaxFmt (c : Nat) : Option ElemFmt :=
  if c = 0x05 ∨ c = 0x06 ∨ c = 0x18 ∨ c = 0x20 then none else fmtOfCode c

/-- What completes an arrival: its completion value, and the SUB of R380 that goes with it. -/
def barResult (a : Arrival) (opc : Nat) (value : BitVec 64) (phase : BitVec 32) : Word × Option Nat :=
  if a.opc = 0 then (phase.setWidth 64, none)
  else if a.opc ≠ opc then (value, some 4)
  else if a.opc = 7 then
    let mx := value.extractLsb' 0 32
    match barmaxFmt a.fmt with
    | some f => (mx ++ BitVec.ofNat 32 (s9For (f32 mx) f), none)
    | none => (mx ++ 0x101#32, some 5)
  else (value, none)

/-! ## Completion -/

/-- The failure of R379 that comes with a normal completion begins at step 2. -/
def State.softFail (s : State) (o sub : Nat) : State :=
  match tget s.ops o with
  | none => s
  | some p =>
    match s.hart? p.hart with
    | none => s
    | some x => s.report x.group ⟨failWord p.fo 60 sub 0, 0#64, true, x.hidx⟩

/-- Completes the operation of one arrival. -/
def State.finishArrival (s : State) (opc : Nat) (value : BitVec 64) (phase : BitVec 32) (a : Arrival) : State :=
  let (v, sub) := barResult a opc value phase
  let s1 := match sub with
    | some n => s.softFail a.op n
    | none => s
  match tget s1.ops a.op with
  | some p => if p.st == .waiting then s1.opDone a.op v else s1
  | none => s1

/-- Completes the bwaits that a new PHASE satisfies; answers those that stay. -/
def State.finishWaits (s : State) (phase : BitVec 32) : List (Nat × BitVec 32) → List (Nat × BitVec 32) × State
  | [] => ([], s)
  | (o, t) :: r =>
    let (keep, s1) := s.finishWaits phase r
    if phase = t then ((o, t) :: keep, s1) else (keep, s1.opDone o ((phase - t).setWidth 64))

/-- The harts of a group in HART order, and their places. -/
def State.groupOrder (s : State) (g : Group) : List Nat := g.harts.filter fun h => (s.hart? h).isSome

/-- The harts of a block in dxgid order. -/
def State.blockOrder (s : State) (b : Block) : List Nat :=
  (b.groups.map fun gi => match tget s.groups gi with
    | some g => s.groupOrder g
    | none => []).foldr (· ++ ·) []

/-- Every one of some harts has arrived or ended, and some hart has arrived (R249). -/
def State.allArrived (s : State) (hs : List Nat) (as : List Arrival) : Bool :=
  !as.isEmpty && hs.all fun h => (as.any fun a => a.hart == h) || (match s.hart? h with
    | some x => x.status == .ended
    | none => true)

/-- Arrivals in the order of some harts. -/
def sortArrivals (hs : List Nat) (as : List Arrival) : List Arrival :=
  (hs.map fun h => as.filter fun a => a.hart == h).foldr (· ++ ·) []

/-- Records an arrival in a stage: in the phase, or for the next one if its hart has arrived already. -/
def BarObj.add (b : BarObj) (a : Arrival) : BarObj × Bool :=
  if b.arrivals.any fun p => p.hart == a.hart then ({ b with later := b.later ++ [a] }, false)
  else ({ b with arrivals := b.arrivals ++ [a] }, true)

/-- The arrivals that join the new phase, one of each hart, and those that wait on. -/
def joinLater : List Arrival → List Arrival → List Arrival × List Arrival
  | [], js => (js, [])
  | a :: r, js =>
    if js.any fun p => p.hart == a.hart then
      let (j, l) := joinLater r js
      (j, a :: l)
    else joinLater r (js ++ [a])

/-- barrive completes once it is recorded, with the phase it joined (R251). -/
def State.earlyDone (s : State) (phase : BitVec 32) (a : Arrival) : State :=
  match tget s.ops a.op with
  | some p =>
    match p.kind with
    | .arrive _ true _ _ _ => if p.st == .waiting then s.opDone a.op (phase.setWidth 64) else s
    | _ => s
  | none => s

/-- Completes the phase of an object whose members have all arrived (R249), with its contributions in order. -/
def BarObj.complete (b : BarObj) (s : State) (order : List Arrival) : BarObj × State :=
  let opc := barOpc b.arrivals
  let value : BitVec 64 := if opc = 0 then 0#64 else barFold opc (order.map fun a => (a.opc, a.lanes))
  let s1 := b.arrivals.foldl (fun (t : State) a => t.finishArrival opc value b.phase a) s
  let ph := b.phase + 1#32
  let (keep, s2) := s1.finishWaits ph b.waits
  let (join, later) := joinLater b.later []
  let s3 := join.foldl (fun (t : State) a => t.earlyDone ph a) s2
  (⟨ph, value, join, later, keep⟩, s3)

/-- Completes a group barrier's phases where it can, `n` at the most: never while the group is parked, whose members count as
not arrived (R53). -/
def State.groupBarGo (s : State) (gi : Nat) : Nat → State
  | 0 => s
  | n + 1 =>
    match tget s.groups gi with
    | none => s
    | some g =>
      let hs := s.groupOrder g
      if !g.parked && s.allArrived hs g.bar.arrivals then
        let (b, s1) := g.bar.complete s (sortArrivals hs g.bar.arrivals)
        (s1.modGroup gi fun x => { x with bar := b }).groupBarGo gi n
      else s

/-- Completes a group barrier's phases where it can: a phase, and those that waiting arrivals complete in turn. -/
def State.syncGroupBar (s : State) (gi : Nat) : State := match tget s.groups gi with
  | none => s
  | some g => s.groupBarGo gi (g.bar.later.length + 1)

/-- Completes a block object's phases where it can, `n` at the most. -/
def State.blockBarGo (s : State) (bi i : Nat) : Nat → State
  | 0 => s
  | n + 1 =>
    match tget s.blocks bi with
    | none => s
    | some b =>
      let hs := s.blockOrder b
      let o := tgetD b.bars i BarObj.zero
      if s.allArrived hs o.arrivals then
        let (o', s1) := o.complete s (sortArrivals hs o.arrivals)
        (s1.modBlock bi fun x => { x with bars := tset x.bars i o' }).blockBarGo bi i n
      else s

/-- Completes a block object's phases where it can. -/
def State.syncBlockBar (s : State) (bi i : Nat) : State := match tget s.blocks bi with
  | none => s
  | some b => s.blockBarGo bi i ((tgetD b.bars i BarObj.zero).later.length + 1)

/-- The context that a block's bank arrival carries: of the hart that arrived last (R249). -/
def stageCtx (as : List Arrival) : Ctx := match as.getLast? with
  | some a => a.ctx
  | none => ⟨0#16, .u, none, 0⟩

/-- A block's stage of a grid object sends its one bank arrival once every hart has arrived (R249 item 3). A
contribution of another operation than the stage's keeps code 8, which no phase takes. -/
def State.syncStage (s : State) (bi va : Nat) : State :=
  match tget s.blocks bi with
  | none => s
  | some b =>
    let hs := s.blockOrder b
    let o := tgetD b.stages va BarObj.zero
    let sent : Bool := s.gridArrs.any fun p => p.2.block == bi && p.2.va.toNat == va
    if !sent && s.allArrived hs o.arrivals then
      let opc := barOpc o.arrivals
      let order := sortArrivals hs o.arrivals
      let part : BitVec 64 := if opc = 0 then 0#64 else barFold opc (order.map fun a => (a.opc, a.lanes))
      let ops := o.arrivals.map fun a => if a.opc ≠ 0 ∧ a.opc ≠ opc then { a with opc := 8 } else a
      let (id, s1) := s.fresh
      let ga : GridArr :=
        { id := id
          block := bi
          va := BitVec.ofNat 64 va
          ctx := stageCtx o.arrivals
          opc := opc
          lanes := part
          ops := ops
          atBank := false }
      let s2 : State := { s1 with gridArrs := tset s1.gridArrs id ga }
      s2.modBlock bi fun x => { x with stages := tset x.stages va { o with arrivals := [] } }
    else s

/-- PHASE of a grid object's line as a number. -/
def goPhase (v : Nat) : BitVec 32 := BitVec.ofNat 32 (v / 2 ^ 128)

/-- The phase in progress of a grid object as an arrival's context reaches it; nothing where the object's page is not at hand. -/
def State.phaseAt (s : State) (c : Ctx) (va : Word) : Option (BitVec 32) :=
  match ({ s with held := [] } : State).unitKey c .load va 64 with
  | .ok k => some (goPhase (s.natAt k 64))
  | _ => none

/-- A barrive recorded at a grid object's stage completes with the phase it joined, which is the object's PHASE. Where its page is not at
hand, it completes once the object's bank has it (log 126). -/
def State.joinDone (s : State) (va : Word) (a : Arrival) : State := match s.phaseAt a.ctx va with
  | some ph => s.earlyDone ph a
  | none => s

/-- The phase of a grid object has completed, or the arrival has failed: the arrivals that waited at the block's stage
join the next phase. -/
def State.reopenStage (s : State) (bi : Nat) (va : Word) : State :=
  match tget s.blocks bi with
  | none => s
  | some b =>
    let o := tgetD b.stages va.toNat BarObj.zero
    let (join, later) := joinLater o.later o.arrivals
    let s1 := join.foldl (fun (t : State) a => t.joinDone va a) s
    let s2 := s1.modBlock bi fun x => { x with stages := tset x.stages va.toNat { o with arrivals := join, later := later } }
    s2.syncStage bi va.toNat

/-- Brings every object that a block belongs to up to date: after a hart's end, a group's resumption. -/
def State.syncBars (s : State) (gi : Nat) : State :=
  match tget s.groups gi with
  | none => s
  | some g =>
    let s1 := s.syncGroupBar gi
    match tget s1.blocks g.block with
    | none => s1
    | some b =>
      let s2 := (tkeys b.bars).foldl (fun (t : State) i => t.syncBlockBar g.block i) s1
      (tkeys b.stages).foldl (fun (t : State) va => t.syncStage g.block va) s2

/-! ## Grid objects at their banks (R248, R249) -/


/-- Where a bank finds an object's line, or what stops the request. -/
inductive LineAt where
  | at (key : Nat)
  | fail (cause sub : Nat)
  | miss (page : PageRef)
  /-- It waits at the home behind a request that is replayed or waits for its trace ring (R51, R114). -/
  | behind (page : PageRef) (why : HoldWhy)
  /-- Its flit is lost on a dead link (R401). -/
  | lost
  | later
deriving DecidableEq, Repr

/-- The line of a request of `w` bytes to an MC home, with the kind it is checked as. -/
def State.bankLine (s : State) (c : Ctx) (kind : AccKind) (va : Word) (w iface : Nat) : LineAt × State :=
  match s.route (Req.unit va w kind c) iface with
  | .at (.mem k _) _ fill =>
    (.at k, s.tlbTake fill)
  | .at _ _ _ => (.fail (accCause kind) 3, s)
  | .fail cause sub => (.fail cause sub, s.noteTable (vaHome va) sub)
  | .miss pg => (.miss pg, s)
  | .behind pg why => (.behind pg why, s)
  | .rebind _ _ => (.later, s)
  | .lost => (.lost, s)
  | .netHeld => (.later, s)

/-- The operations of a grid arrival fail through their readers (R395, R390). -/
def State.failGridArr (s : State) (ga : GridArr) (cause sub : Nat) : State :=
  let s1 := ga.ops.foldl (fun (t : State) a => match tget t.ops a.op with
    | some p => if p.st == .waiting then t.opFail a.op cause sub 0 ga.va else t
    | none => t) s
  { s1 with gridArrs := tdel s1.gridArrs ga.id }.reopenStage ga.block ga.va

/-- Whether an address names the line of an object at location `k`, whose completing arrival named it by `va` in `asid`: the
same address in the same context, or another that leads to the same line. -/
def State.sameObject (s : State) (k : Nat) (va : Word) (asid : BitVec 16) (c : Ctx) (a : Word) : Bool :=
  (a == va && c.asid == asid) || (match ({ s with held := [] } : State).unitKey c .load a 64 with
    | .ok j => j == k
    | .error _ => false)

/-- Completes a grid object's phase: the partials in their order of arrival at the bank. -/
def State.completeGrid (s : State) (k : Nat) (va : Word) (asid : BitVec 16) (opc : Nat) (phase : BitVec 32) (line : Nat) : State :=
  let here := s.gridArrs.filter fun p => p.2.atBank && s.sameObject k va asid p.2.ctx p.2.va
  let value : BitVec 64 := if opc = 0 then 0#64 else barFold opc (here.map fun p => (p.2.opc, p.2.lanes))
  let ph := phase + 1#32
  let v' := value.toNat + 2 ^ 64 * bitsOf line 64 32 + 2 ^ 128 * ph.toNat
  let s1 := s.putNat k 64 v'
  let s2 := here.foldl (fun (t : State) p => p.2.ops.foldl (fun (u : State) a => u.finishArrival opc value phase a) t) s1
  let mine (w : Nat × Word × BitVec 32) : Bool := match tget s.ops w.1 with
    | some p => s.sameObject k va asid p.ctx w.2.1
    | none => false
  let (keep, s3) := s2.finishWaits ph ((s2.gridWaits.filter mine).map fun w => (w.1, w.2.2))
  let s4 : State :=
    { s3 with
      gridWaits := s3.gridWaits.filter fun w => !(mine w) || keep.any fun q => q.1 == w.1
      gridArrs := s3.gridArrs.filter fun p => !(here.any fun q => q.1 == p.1) }
  here.foldl (fun (t : State) p => t.reopenStage p.2.block p.2.va) s4

/-- A block's partial is performed at its object's bank (R249, R83). -/
def State.gridArrive (s : State) (ga : GridArr) (k : Nat) : State :=
  if s.poisoned k 64 then s.failGridArr ga 56 14
  else
    let line := s.natAt k 64
    let arrived := bitsOf line 96 32 + 1
    let expect := bitsOf line 64 32
    let opc := if bitsOf line 160 8 = 0 then ga.opc else bitsOf line 160 8
    let (id, s1) := s.fresh
    let s2 : State := { s1 with gridArrs := tset (tdel s1.gridArrs ga.id) id { ga with id := id, atBank := true } }
    let v' := putBits (putBits (line % 2 ^ 168) 96 32 arrived) 160 8 opc
    if expect ≤ arrived then s2.completeGrid k ga.va ga.ctx.asid opc (goPhase line) line
    else ga.ops.foldl (fun (t : State) a => t.earlyDone (goPhase line) a) (s2.putNat k 64 v')

/-! ## Arrivals and bwaits at their stages -/

/-- Records an arrival whose release is done at its first stage (R249). -/
def State.arrive (s : State) (o : Nat) (obj : Word) (opc : Nat) (lanes : BitVec 64) (fmt : Nat) : State :=
  match tget s.ops o with
  | none => s
  | some p =>
    match s.hart? p.hart with
    | none => s
    | some x =>
      match s.groupOf? x with
      | none => s
      | some g =>
        let a : Arrival := ⟨p.hart, o, opc, lanes, fmt, p.ctx⟩
        let s1 := s.modOp o fun q => { q with st := .waiting }
        if obj = 0#64 then
          let (b, now) := g.bar.add a
          let s2 := s1.modGroup x.group fun y => { y with bar := b }
          (if now then s2.earlyDone b.phase a else s2).syncGroupBar x.group
        else
          match tget s1.blocks g.block with
          | none => s1
          | some blk =>
            if obj.toNat ≤ 32 then
              let (b, now) := (tgetD blk.bars (obj.toNat - 1) BarObj.zero).add a
              let s2 := s1.modBlock g.block fun y => { y with bars := tset y.bars (obj.toNat - 1) b }
              (if now then s2.earlyDone b.phase a else s2).syncBlockBar g.block (obj.toNat - 1)
            else
              let va := obj.toNat
              let o0 := tgetD blk.stages va BarObj.zero
              let sent : Bool := s1.gridArrs.any fun q => q.2.block == g.block && q.2.va.toNat == va
              let (b, now) := if sent then ({ o0 with later := o0.later ++ [a] }, false) else o0.add a
              let s2 := s1.modBlock g.block fun y => { y with stages := tset y.stages va b }
              let s3 := if now then s2.joinDone obj a else s2
              s3.syncStage g.block va

/-- The holder of an object tests a bwait's token (R251): it completes at once, or waits there. -/
def State.bwaitTest (s : State) (o : Nat) (phase token : BitVec 32) : Option State :=
  if phase ≠ token then some (s.opDone o ((phase - token).setWidth 64)) else none

end Sys2Proof.Machine
end

