-- ==== Sys2Proof/Machine/Lease.lean ====
section
/-! DEFINITION. A plinth's accumulators (R192, R134 to R137) and its lease (R195 to R200). -/

namespace Sys2Proof.Machine

/-! ## Accumulators -/

/-- One accumulator. -/
def Plinth.acc (p : Plinth) (k : Nat) : Accum := p.accs[k % 4]'(Nat.mod_lt k (by decide))
/-- Puts one accumulator. -/
def Plinth.setAcc (p : Plinth) (k : Nat) (a : Accum) : Plinth :=
  { p with accs := p.accs.set (k % 4) a (Nat.mod_lt k (by decide)) }

/-- The bits of a cell. -/
def Accum.cell (a : Accum) (i : Nat) : W32 := tgetD a.c i 0#32
/-- Writes a cell; a cell of 0 is not listed. -/
def Accum.put (a : Accum) (i : Nat) (v : W32) : Accum :=
  { a with c := if v = 0#32 then tdel a.c i else tset a.c i v }
/-- The inner accumulator of a cell. -/
def Accum.innerOf (a : Accum) (i : Nat) : Ext := tgetD a.inner i Ext.zero

/-- C after a promotion (R134, R137), and whether an integer sum saturated. -/
def promoteCell (int : Bool) (c : W32) (inner : Ext) : W32 × Bool :=
  if int then
    let x := c.toInt + (inner.toInt .rne).1
    let y := clampInt (intLo true 32) (intHi true 32) x
    (BitVec.ofInt 32 y, y != x)
  else
    let r := (roundF32 .rne ((f32 c).add .rne inner).1).1
    (if r = 0x80000000#32 then 0#32 else r, false)

/-- Promotes the pending cells of an accumulator (R136, R206); answers whether IOVF is raised. -/
def Accum.promote (a : Accum) (int : Bool) : Accum × Bool :=
  let r := a.pend.foldl (fun (acc : Accum × Bool) i =>
    let (v, o) := promoteCell int (acc.1.cell i) (acc.1.innerOf i)
    (acc.1.put i v, acc.2 || o)) (a, false)
  ({ r.1 with inner := [], pend := [], passes := 0 }, r.2)

/-- Promotes one accumulator of a plinth. -/
def Plinth.promote (p : Plinth) (k : Nat) : Plinth :=
  let (a, o) := (p.acc k).promote p.cfg.int
  { p.setAcc k a with iovf := p.iovf || o }

/-- Promotes all four. -/
def Plinth.promoteAll (p : Plinth) : Plinth := (((p.promote 0).promote 1).promote 2).promote 3

/-- The accumulators, configuration and sticky bits at the grant of a new lease (R195, R198, R205). -/
def Plinth.clear (p : Plinth) : Plinth :=
  { p with
    accs := Vector.replicate 4 Accum.zero
    cfg := Tcfg.zero
    iovf := false
    chk := false }

/-! ## The lease -/

/-- The plinth of a group: that of the quarter of its window, in the cluster that holds its block (R192, R43). -/
def State.plinthOf (s : State) (g : Group) : Nat :=
  let cl := match tget s.blocks g.block with
    | some b => b.cluster
    | none => winHome g.win
  4 * cl + winNum g.win / 24

/-- Whether a group holds a plinth's lease. -/
def Plinth.heldBy (p : Plinth) (gi : Nat) : Bool := p.holder == some gi

/-- CYCLEFT (R196). -/
def State.cycLeft (s : State) (p : Plinth) : Nat := p.leaseEnd - s.acyc

/-- Cause 53 for a saturation that a command or a promotion has just recorded (R414). -/
def State.iovfTrap (s : State) (before after : Plinth) (h : Option (Nat × FormOp)) : State :=
  if !before.iovf && after.iovf then
    match h with
    | none => s
    | some (hh, fo) =>
      match (s.hart? hh).bind s.groupOf? with
      | some g => if g.iovf then s.dueAt hh 53 (failWord fo 53 0 0) 0#64 else s
      | none => s
  else s

/-- Fails a tile command that was never accepted (R382): the reader of its future, or step 2. -/
def State.failTile (s : State) (t : Tile) (cause sub : Nat) (addr : Word) : State :=
  let s1 := s.modGroup t.group fun g => { g with tiles := g.tiles.filter fun i => i != t.id }
  match t.op with
  | some o => s1.opFail o cause sub 0 addr
  | none =>
    let hidx := match s1.hart? t.hart with
      | some x => x.hidx
      | none => 0
    s1.report t.group ⟨failWord t.fo cause sub 0, addr, true, hidx⟩

/-- A candidate of a re-arbitration: its group, whether it waits, when it asked, its losses. -/
structure Cand where
  group : Nat
  waits : Bool
  since : Nat
  lost : Nat
  tag : Nat
  win : Nat
deriving DecidableEq, Repr

/-- Candidate `a` goes before candidate `b` (R197). -/
def candBefore (a b : Cand) : Bool :=
  let oa : Bool := a.waits && decide (23 ≤ a.lost)
  let ob : Bool := b.waits && decide (23 ≤ b.lost)
  if oa != ob then oa
  else if oa then decide (a.since < b.since)
  else if tagEarlier a.tag b.tag then true
  else if tagEarlier b.tag a.tag then false
  else if a.waits != b.waits then a.waits
  else if a.since ≠ b.since then decide (a.since < b.since)
  else decide (a.win < b.win)

/-- The first of the candidates. -/
def bestCand : List Cand → Option Cand
  | [] => none
  | c :: r => match bestCand r with
    | none => some c
    | some d => if candBefore d c then some d else some c

/-- A waiter takes part once the release of one of its tleases is done (R109); the scheduler core, which asks for a returning group
(R214), has none. -/
def State.asked (s : State) (w : Waiter) : Bool := w.ops.isEmpty || w.ops.any fun o => match tget s.ops o with
  | some p => s.gateClear p.gate
  | none => true

/-- A group as a candidate. -/
def State.cand (s : State) (gi : Nat) (waits : Bool) (since lost : Nat) : Option Cand :=
  (tget s.groups gi).map fun g =>
    let t := s.groupTag g
    ⟨gi, waits, since, lost, s.effTag t.1 t.2, g.win⟩

/-- A waiter as a candidate: every group that waits on tlease and is not parked (R197), saved or not; and a returning group for which
the scheduler core asks, which resumes only with its lease (R58, R214; log 127). -/
def State.waiterCand (s : State) (w : Waiter) : Option Cand :=
  let parked : Bool := match tget s.groups w.group with
    | some g => g.parked
    | none => false
  if parked && !w.ops.isEmpty then none else s.cand w.group true w.since w.lost

/-- Whether a queued command loses with its group's lease (R198 item 3, R382): one not accepted. A tstat asks for no lease
(R212) and stays. -/
def Plinth.loses (p : Plinth) (t : Tile) : Bool := !t.accepted && p.holder == some t.group && t.what != .stat

/-- Commands that a stop has withdrawn lose with a lease that their group was granted while it was saved, and loses before it is back
(R198 item 3). -/
def State.withdrawnLost (s : State) (p : Plinth) : List Tile := match p.holder.bind fun g => tget s.groups g with
  | some g => if g.away = 2 then g.withdrawn.filter fun t => t.what != .stat else []
  | none => []

/-- A group's withdrawn commands that have lost are gone. -/
def State.dropWithdrawn (s : State) (holder : Option Nat) (lost : List Tile) : State := match holder with
  | some gi => s.modGroup gi fun g => { g with withdrawn := g.withdrawn.filter fun t => !(lost.any fun u => u.id == t.id) }
  | none => s

/-- A lease is granted (R195, R205): the plinth's cleared state, the counts, and value 0 for the group's tleases. -/
def State.grant (s : State) (pi gi : Nat) : State :=
  let p := s.plinth pi
  let mine := p.waiters.filter fun w => w.group == gi
  let ops := (mine.map fun w => w.ops).foldr (· ++ ·) []
  let s1 := s.modPlinth pi fun q =>
    { q.clear with
      holder := some gi
      cmdLeft := 64
      leaseEnd := s.acyc + 4096
      handover := none
      lastHart := none
      waiters := q.waiters.filter fun w => w.group != gi }
  ops.foldl (fun (a : State) o => a.opDone o 0#64) s1

/-- Fails the commands that lose with their lease. -/
def State.failLosers (s : State) (lose : List Tile) : State :=
  (lose.filter fun t => t.what != .release).foldl (fun (a : State) t => a.failTile t 52 0 0#64) s

/-- Re-arbitrates a plinth (R197, R198): `keep` says that the holder is a candidate, `hand` that a lease has just ended, so
that another winner holds only after the handover; a plinth without a holder grants at once (R200). -/
def State.arbitrate (s : State) (pi : Nat) (keep hand : Bool) : State :=
  let p := s.plinth pi
  let ws := (p.waiters.filter s.asked).filterMap s.waiterCand
  let hs := match (if keep then p.holder else none) with
    | some gi => match s.cand gi false 0 0 with
      | some c => [c]
      | none => []
    | none => []
  let cand (w : Waiter) : Bool := ws.any fun d => d.group == w.group
  match bestCand (ws ++ hs) with
  | none =>
    s.modPlinth pi fun q => { q.clear with holder := none, cmdLeft := 0, leaseEnd := 0, handover := none }
  | some c =>
    if !c.waits then
      s.modPlinth pi fun q =>
        { q with
          cmdLeft := 64
          leaseEnd := s.acyc + 4096
          waiters := q.waiters.map fun w => if cand w then { w with lost := w.lost + 1 } else w }
    else
      let gone := s.withdrawnLost p
      let lose := p.queue.filter p.loses ++ gone
      let s1 := (s.dropWithdrawn p.holder gone).modPlinth pi fun q =>
        { q.clear with
          holder := none
          cmdLeft := 0
          leaseEnd := 0
          handover := some (c.group, s.acyc + 16)
          queue := q.queue.filter fun t => !(p.loses t)
          waiters := q.waiters.map fun w => if w.group == c.group then w else if cand w then { w with lost := w.lost + 1 } else w }
      let s2 := s1.failLosers lose
      if hand then s2 else s2.grant pi c.group

/-- A lease ends (R196, R197): its pending passes are promoted, and the plinth re-arbitrates. After a trelease the
group is no candidate and its commands that follow have no lease. -/
def State.endLease (s : State) (pi : Nat) (released : Bool) : State :=
  let p := s.plinth pi
  let p1 := p.promoteAll
  let s1 := (s.modPlinth pi fun _ => p1).iovfTrap p p1 p.lastHart
  if released then
    let lose := p1.queue.filter p1.loses
    let s2 := s1.modPlinth pi fun q =>
      { q.clear with holder := none, cmdLeft := 0, leaseEnd := 0, queue := q.queue.filter fun t => !(p1.loses t) }
    (s2.failLosers lose).arbitrate pi false true
  else s1.arbitrate pi true true

/-- A plinth without a holder re-arbitrates once a candidate appears (R200). -/
def State.wakePlinth (s : State) (pi : Nat) : State :=
  let p := s.plinth pi
  if p.holder.isNone && p.handover.isNone && (p.waiters.any fun w => s.asked w && (s.waiterCand w).isSome) then
    s.arbitrate pi false false
  else s

/-- The first command of a plinth's holder, accepted or not. -/
def Plinth.firstOf (p : Plinth) : Option Tile := p.queue.find? fun t => p.holder == some t.group

/-- A trelease acts once its release is done and every earlier command of its group has retired (R199, R109). -/
def State.tryRelease (s : State) (pi : Nat) : State :=
  let p := s.plinth pi
  match p.firstOf with
  | some t =>
    if t.what = .release ∧ s.gateClear t.gate then
      (s.modPlinth pi fun q => { q with queue := q.queue.filter fun u => u.id != t.id }).endLease pi true
    else s
  | none => s

end Sys2Proof.Machine
end

