-- ==== Sys2Proof/Machine/Life.lean ====
section
/-! DEFINITION. The ends of harts, groups, blocks and grids (R219, R249, R258, R368). -/

namespace Sys2Proof.Machine

/-- The work of a packet or node is done: its completion may follow (R294, R298). -/
def State.finishFor (s : State) (d : GridFor) : State :=
  match d with
  | .packet pk => { s with packets := tmod s.packets pk fun p => { p with finished := true } }
  | .node gr n => { s with graphs := tmod s.graphs gr fun g => { g with nodes := tset g.nodes n .finished } }
  | _ => s

/-- A stage of a pipeline has ended; with the last of them its packet or node is done (R301). -/
def State.stageDone (s : State) (pipe : Nat) : State :=
  match tget s.pipes pipe with
  | none => s
  | some p =>
    let s1 : State := { s with pipes := tmod s.pipes pipe fun q => { q with ended := q.ended + 1 } }
    if p.ended + 1 = p.nstage then s1.finishFor p.done else s1

/-- A grid's last block has ended. -/
def State.gridDone (s : State) (gr : Nat) : State :=
  match tget s.grids gr with
  | none => s
  | some g =>
    match g.done with
    | .stage pipe => s.stageDone pipe
    | d => s.finishFor d

/-- A block's last group has ended: its block objects and arrival records are discarded. -/
def State.blockDone (s : State) (bi : Nat) : State :=
  match tget s.blocks bi with
  | none => s
  | some b =>
    let s1 := s.modBlock bi fun x => { x with status := .done, bars := [], stages := [] }
    match tget s1.grids b.grid with
    | none => s1
    | some g =>
      let s2 := s1.modGrid b.grid fun x => { x with ended := x.ended + 1 }
      if g.ended + 1 = g.launch.bpg then s2.gridDone b.grid else s2

/-- Unbinds a group's data granules. -/
def State.freeGranules (s : State) (g : Group) : State :=
  s.modWindow g.win fun w =>
    { w with grans := w.grans.filter fun p => !(decide (g.granLo ≤ p.1) && decide (p.1 < g.granLo + g.granN)) }

/-- A group's last hart has ended (R258): its lease ends as by trelease, its wait for a lease is withdrawn, its slots and
data granules are freed. -/
def State.groupDone (s : State) (gi : Nat) : State :=
  match tget s.groups gi with
  | none => s
  | some g =>
    let pi := s.plinthOf g
    let rel : Tile :=
      { id := 0
        group := gi
        hart := 0
        what := .release
        rows := 0
        cols := 0
        cfg := g.tcfgIssued
        ctx := ⟨0#16, .u, none, 0⟩
        gate := []
        fo := noForm
        op := none
        accepted := false
        retireAt := 0
        na := 0
        nb := 0
        fail := none
        wrote := 0
        bits := 0#64
        ra := 0#64
        rb := 0#64 }
    let s1 := s.modPlinth pi fun p =>
      { p with
        waiters := p.waiters.filter fun w => w.group != gi
        handover := match p.handover with
          | some (w, t) => if w = gi then none else some (w, t)
          | none => none
        -- Commands that a stop had withdrawn run before it (R199).
        queue := p.queue ++ g.withdrawn ++ (if p.heldBy gi then [rel] else []) }
    let s2 := ((s1.tryRelease pi).wakePlinth pi).freeGranules g
    let s3 := s2.modGroup gi fun x => { x with ended := true, withdrawn := [] }
    let used : Bool := s3.groups.any fun p => p.2.win == g.win && !p.2.ended
    let s4 := if used then s3 else s3.modWindow g.win fun w => { w with assigned := false }
    match tget s4.blocks g.block with
    | none => s4
    | some b =>
      let all : Bool := b.groups.all fun i => match tget s4.groups i with
        | some x => x.ended
        | none => true
      if all then s4.blockDone g.block else s4

/-- A hart ends (R258, R368): its held slot is freed, deliveries still due go to step 2 (R376), it counts as arrived from
now on, and with the last hart of its group the group ends. -/
def State.endHart (s : State) (h : Nat) : State :=
  match s.hart? h with
  | none => s
  | some x =>
    let w := s.winOf x
    let trail (p : Nat × Hart) : Bool := p.2.pair == some h && p.2.trails
    let s1 : State :=
      { s with harts := s.harts.map fun p =>
          if p.1 = h then (h, { p.2 with status := .ended, heldSlot := 0#64, wait := none, regs := [], due := [], log := [] })
          else if trail p then (p.1, { p.2 with status := .ended })
          else p }
    let s2 := (x.due.foldl (fun (t : State) d => t.report x.group ⟨d.tval, d.addr, true, x.hidx⟩)
      (s1.freeSlot w x.heldSlot)).syncBars x.group
    match tget s2.groups x.group with
    | none => s2
    | some g =>
      let all : Bool := g.harts.all fun i => match s2.hart? i with
        | some y => y.status == .ended
        | none => true
      if all then s2.groupDone x.group else s2

end Sys2Proof.Machine
end

