-- ==== Sys2Proof/Machine/Operands.lean ====
section
/-! DEFINITION. Operand forms: immediates, memory operands of the Dexa formats (R145, R151, R189), lanes and their activity
(R143, R170), and the addresses of strided and indexed lanes (R186). -/

namespace Sys2Proof.Machine

/-! ## Immediates and addresses -/

/-- A 12-bit immediate, sign-extended. -/
def simm (imm : BitVec 12) : Word := imm.signExtend 64

/-- The immediate of LUI and AUIPC. -/
def uimm (imm : BitVec 20) : Word := (imm ++ 0#12).signExtend 64

/-- The byte offset of a branch, whose field holds it without bit 0. -/
def brOff (imm : BitVec 12) : Word := (imm ++ 0#1).signExtend 64

/-- The byte offset of JAL. -/
def jalOff (imm : BitVec 20) : Word := (imm ++ 0#1).signExtend 64

/-- The address of a base load or store. -/
def Hart.baseAddr (x : Hart) (rs1 : RegIdx) (imm : BitVec 12) : Word := x.rx rs1 + simm imm

/-- The address of a DM operand (R151): `scale` is 1 or 64. -/
def Hart.dmAddr (x : Hart) (rs1 : RegIdx) (off : BitVec 7) (scale : Nat) : Word :=
  x.rx rs1 + off.signExtend 64 * BitVec.ofNat 64 scale

/-- The first bit of a bit-granular operand (R189), as a bit address modulo 2^67. -/
def Hart.bitAddr (x : Hart) (rs1 rs2 : RegIdx) : Nat :=
  let b : Int := 8 * ((x.rx rs1).toNat : Int) + (x.rx rs2).toInt
  (b % (2 ^ 67 : Nat)).toNat

/-- The width of a bit-granular element (R189). -/
def bitWidth (w : BitVec 5) : Nat := w.toNat + 1

/-- Bytes of an lrx. -/
def lrxBytes : LrxW → Nat
  | .b | .bu => 1
  | .h | .hu => 2
  | .w | .wu => 4
  | .d => 8

/-- Whether an lrx sign-extends. -/
def lrxSigned : LrxW → Bool
  | .b | .h | .w | .d => true
  | _ => false

/-- Bytes of a base load. -/
def loadBytes : LoadW → Nat
  | .b | .bu => 1
  | .h | .hu => 2
  | .w | .wu | .fw => 4
  | .d => 8

/-- Bytes of a base store. -/
def storeBytes : StoreW → Nat
  | .b => 1
  | .h => 2
  | .w | .fw => 4
  | .d => 8

/-- A loaded number of `n` bytes as an x register holds it. -/
def extendTo (signed : Bool) (n v : Nat) : Word := if signed then sextNat (8 * n) v else BitVec.ofNat 64 v

/-- The value of an lrx (R188). -/
def lrxValue (k : LrxW) (bs : List Byte) : Word := extendTo (lrxSigned k) (lrxBytes k) (natOfBytes bs)

/-- The value of a base load into an x register. -/
def loadValue (k : LoadW) (bs : List Byte) : Word :=
  let signed : Bool := match k with
    | .bu | .hu | .wu => false
    | _ => true
  extendTo signed (loadBytes k) (natOfBytes bs)

/-- The low `n` bytes of a register as store data. -/
def storeData (v : Word) (n : Nat) : List (Option Byte) := (bytesOfNat n v.toNat).map some

/-! ## Lanes (R170) -/

/-- Lane `i` of a v register. -/
def Hart.lane (x : Hart) (r : RegIdx) (i : Nat) : W32 := (x.lanes r)[i % 16]'(Nat.mod_lt i (by decide))

/-- The activity bit of lane `i` (R170). -/
def Hart.act (x : Hart) (m : Bool) (i : Nat) : Bool := decide (i < x.vcnt.lanes) && (!m || x.mask.getLsbD i)

/-- The active lanes. -/
def Hart.active (x : Hart) (m : Bool) : List Nat := (List.range 16).filter (x.act m)

/-- Lanes from a function of the lane number. -/
def lanesOf (f : Nat → W32) : Vector W32 16 := Vector.ofFn fun i => f i.val

/-- Writes the active lanes of vd; inactive lanes keep their values (R170). -/
def Hart.putLanes (x : Hart) (m : Bool) (vd : RegIdx) (f : Nat → W32) : Hart :=
  x.wv vd (lanesOf fun i => if x.act m i then f i else x.lane vd i)

/-- Writes the active lanes of vd, and ORs into fflags the flags raised in them (R132). -/
def Hart.putLanesF (x : Hart) (m : Bool) (vd : RegIdx) (f : Nat → W32 × FFlags) : Hart :=
  (x.putLanes m vd fun i => (f i).1).orFlags ((x.active m).foldl (fun a i => a ||| (f i).2) noFlags)

/-- A v register's 512 bits as a number. -/
def Hart.lineNat (x : Hart) (r : RegIdx) : Nat :=
  (List.range 16).foldl (fun a i => a + (x.lane r i).toNat * 2 ^ (32 * i)) 0

/-- The 64 bytes of a v register, those of active lanes only. -/
def Hart.laneBytes (x : Hart) (r : RegIdx) (m : Bool) : List (Option Byte) :=
  ((List.range 16).map fun i =>
    if x.act m i then (bytesOfNat 4 (x.lane r i).toNat).map some else List.replicate 4 none).foldr (· ++ ·) []

/-- The tag that a vst carries (R185): only a whole, aligned, quantised line writes one. -/
def Hart.vstTag (x : Hart) (v : RegIdx) (a : Word) : Option (BitVec 16) :=
  if (x.rv v).q && a.toNat % 64 == 0 && (x.active false).length == 16 then some (x.rv v).tag else none

/-- Word `i` of a list of bytes. -/
def wordOfBytes (bs : List Byte) (i : Nat) : W32 := BitVec.ofNat 32 (natOfBytes ((bs.drop (4 * i)).take 4))

/-- The address of lane `i` of a strided operand (R186). -/
def Hart.strideAddr (x : Hart) (rs1 rs2 : RegIdx) (i : Nat) : Word := x.rx rs1 + BitVec.ofNat 64 i * x.rx rs2

/-- The address of lane `i` of an indexed operand (R186). -/
def Hart.indexAddr (x : Hart) (rs1 vs2 : RegIdx) (i : Nat) : Word := x.rx rs1 + (x.lane vs2 i).signExtend 64

/-- The lanes that one piece of a strided or indexed access takes: each with its address. -/
structure Gather where
  va : Word
  lanes : List (Nat × Word)
deriving DecidableEq, Repr

/-- Whether the 4 bytes at an address lie in one line. -/
def inLine4 (a : Word) : Bool := decide (a.toNat % 64 ≤ 60)

/-- The pieces of active lanes in lane order (R186): a lane joins the piece of the active lane before it when its bytes
lie in the same line. -/
def gather : List (Nat × Word) → List Gather
  | [] => []
  | (i, a) :: r =>
    match gather r with
    | g :: gs =>
      if inLine4 a && inLine4 g.va && lineOf a == lineOf g.va then ⟨a, (i, a) :: g.lanes⟩ :: gs
      else ⟨a, [(i, a)]⟩ :: g :: gs
    | [] => [⟨a, [(i, a)]⟩]

end Sys2Proof.Machine
end

