-- ==== Sys2Proof/Machine/Workspace.lean ====
section
/-! DEFINITION. What the chisel unit computes on a workspace, apart from any hart: the records (R265), belief, elimination and mean (R266
to R271), and the image of a workspace (R275). -/

namespace Sys2Proof.Machine

open Sys2Proof

/-! ## The workspace (R262) -/

/-- η[i]. -/
def Chisel.eta1 (c : Chisel) (i : Nat) : W32 := c.eta[i % 8]'(Nat.mod_lt i (by decide))
/-- Λ[i][j]. -/
def Chisel.lam1 (c : Chisel) (i j : Nat) : W32 := c.lam[(8 * i + j) % 64]'(Nat.mod_lt _ (by decide))

/-- A vector of 8 from a function. -/
def vec8 (f : Nat → W32) : Vector W32 8 := Vector.ofFn fun i => f i.val
/-- A symmetric matrix of 8 by 8 from its upper triangle. -/
def sym8 (f : Nat → Nat → W32) : Vector W32 64 := Vector.ofFn fun k =>
  let i := k.val / 8
  let j := k.val % 8
  if i ≤ j then f i j else f j i

/-- Entries at and above `d` are 0. -/
def Chisel.cut (c : Chisel) (d : Nat) : Chisel :=
  { c with
    dim := d
    eta := vec8 fun i => if i < d then c.eta1 i else 0#32
    lam := sym8 fun i j => if j < d then c.lam1 i j else 0#32 }

/-- A finite positive FP32 value, or a default (R267). -/
def positiveOr (d w : W32) : W32 := match f32 w with
  | .fin false n _ => if n = 0 then d else w
  | _ => d

/-- EPS and TAU as R267 stores them. -/
def epsOf (w : W32) : W32 := positiveOr 0x35800000#32 w
/-- TAU as R267 stores it. -/
def tauOf (w : W32) : W32 := positiveOr 0#32 w

/-- DIM as R267 stores it. -/
def dimOf (n : Nat) : Nat := if n = 0 then 1 else if 8 < n then 8 else n

/-- gb.cfg on a workspace (R267). -/
def Chisel.cfg (c : Chisel) (a b : Word) : Chisel :=
  let d := dimOf (bitsOf a.toNat 0 4)
  { c.cut d with
    map := a.extractLsb' 8 8 ||| 1#8
    eps := epsOf (b.extractLsb' 0 32)
    tau := tauOf (b.extractLsb' 32 32)
    live := true }

/-- gb.clr on a workspace (R267). -/
def Chisel.clr (c : Chisel) : Chisel :=
  { Chisel.zero with dim := c.dim, map := c.map, eps := c.eps, tau := c.tau }

/-! ## Records (R265) -/

/-- Index of entry (i, j), i ≤ j, of a packed upper triangle of `d` dimensions. -/
def packIx (d i j : Nat) : Nat := i * d - i * (i - 1) / 2 + j - i

/-- The pairs of an upper triangle in row order. -/
def triangle (d : Nat) : List (Nat × Nat) :=
  ((List.range d).map fun i => ((List.range d).filter fun j => decide (i ≤ j)).map fun j => (i, j)).foldr (· ++ ·) []

/-- D of a record's bytes. -/
def recD (bs : List Byte) : Nat := natOfBytes (bs.take 1) % 16
/-- η[i] of a record. -/
def recEta (bs : List Byte) (i : Nat) : W32 := wordOfBytes (bs.drop 16) i
/-- Λ[i][j], i ≤ j, of a record of `d` dimensions. -/
def recLam (bs : List Byte) (d i j : Nat) : W32 := wordOfBytes (bs.drop (16 + 4 * d)) (packIx d i j)

/-- Bytes of a record. -/
def recBytes (d : Nat) (vid iter : Nat) (eta : Nat → W32) (lam : Nat → Nat → W32) : List Byte :=
  bytesOfNat 4 d ++ bytesOfNat 4 vid ++ bytesOfNat 8 iter
    ++ ((List.range d).map fun i => bytesOfNat 4 (eta i).toNat).foldr (· ++ ·) []
    ++ ((triangle d).map fun p => bytesOfNat 4 (lam p.1 p.2).toNat).foldr (· ++ ·) []

/-- The number of values of a message of `d` dimensions. -/
def msgValues (d : Nat) : Nat := d + d * (d + 1) / 2

/-- Combines a record into the workspace at offset `o` (R268). -/
def Chisel.combine (c : Chisel) (f : W32 → W32 → W32) (o d : Nat) (bs : List Byte) : Chisel :=
  { c with
    eta := vec8 fun i => if o ≤ i ∧ i < o + d then f (c.eta1 i) (recEta bs (i - o)) else c.eta1 i
    lam := sym8 fun i j =>
      if o ≤ i ∧ i < o + d ∧ o ≤ j ∧ j < o + d then f (c.lam1 i j) (recLam bs d (i - o) (j - o)) else c.lam1 i j
    live := true }

/-- gb.ldf on a workspace. -/
def Chisel.load (c : Chisel) (d : Nat) (bs : List Byte) : Chisel :=
  { c with
    dim := d
    eta := vec8 fun i => if i < d then recEta bs i else 0#32
    lam := sym8 fun i j => if j < d then recLam bs d i j else 0#32
    live := true }

/-- OUT := the workspace (R268, and R269 with s = 0). -/
def Chisel.belief (c : Chisel) : Chisel :=
  { c with outdim := c.dim, oeta := c.eta, olam := c.lam, live := true }

/-! ## Elimination (R269 to R271) -/

/-- Square root, correctly rounded. -/
def sqrtF32 (a : W32) : W32 := (roundF32 .rne (f32 a).sqrt.1).1

/-- a >= b of FP32 values; false with a NaN. -/
def geF32 (a b : W32) : Bool := !(f32 a).isNan && !(f32 b).isNan && decide (0 ≤ (f32 a).cmp (f32 b))

/-- `v` less the products of a list, one after another: two roundings each. -/
def subProducts (v : W32) (ps : List (W32 × W32)) : W32 := ps.foldl (fun a p => subF32 a (mulF32 p.1 p.2)) v

/-- Entry (i, j) of a working matrix. -/
def mat (t : Table W32) (i j : Nat) : W32 := tgetD t (16 * i + j) 0#32

/-- One column of the Cholesky loop. -/
def cholCol (g : Nat → Nat → W32) (lim : W32) (ok : Bool) (s j : Nat) (l : Table W32) : Option (Table W32) :=
  let a := subProducts (g j j) ((List.range j).map fun k => (mat l j k, mat l j k))
  if !(geF32 a lim) || !ok then none
  else
    let d := sqrtF32 a
    let l0 := tset l (16 * j + j) d
    some (((List.range s).filter fun i => decide (j < i)).foldl (fun (m : Table W32) i =>
      let v := subProducts (g i j) ((List.range j).map fun k => (mat m i k, mat m j k))
      tset m (16 * i + j) (divF32 v d)) l0)

/-- The Cholesky factor of an s by s matrix, or nothing for a singular block (R270). -/
def cholesky (g : Nat → Nat → W32) (eps : W32) (s : Nat) : Option (Table W32) :=
  let dmax := (List.range s).foldl (fun m k => maxF32 m (g k k)) 0xFF800000#32
  let ok : Bool := match f32 dmax with
    | .fin neg n _ => !neg && n != 0
    | .inf neg => !neg
    | _ => false
  (List.range s).foldl (fun (acc : Option (Table W32)) j => acc.bind (cholCol g (mulF32 eps dmax) ok s j)) (some [])

/-- Forward substitution of the columns `w` (by row and column) with the factor `l`. -/
def forwardSub (l : Table W32) (s cols : Nat) (w : Nat → Nat → W32) : Table W32 :=
  (List.range cols).foldl (fun (m : Table W32) c => (List.range s).foldl (fun (n : Table W32) i =>
    let v := subProducts (w i c) ((List.range i).map fun k => (mat l i k, mat n k c))
    tset n (16 * i + c) (divF32 v (mat l i i))) m) []

/-- The dimensions of block `b` of MAP below DIM: nothing at or beyond the number of blocks. -/
def Chisel.block (c : Chisel) (b : Nat) : List Nat :=
  let starts := (List.range c.dim).filter fun i => i == 0 || c.map.getLsbD i
  match (starts.drop b) with
  | [] => []
  | lo :: r =>
    let hi := r.headD c.dim
    (List.range hi).filter fun i => decide (lo ≤ i)

/-- Entry `i` of a list of numbers. -/
def nth (l : List Nat) (i : Nat) : Nat := l.getD i 0

/-- gb.elim on a workspace, for the dimensions `ts` of its block; nothing for a singular block. -/
def Chisel.elim (c : Chisel) (ts : List Nat) : Option Chisel :=
  let ss := (List.range c.dim).filter fun i => !(ts.contains i)
  let s := ss.length
  let t := ts.length
  match cholesky (fun i j => c.lam1 (nth ss i) (nth ss j)) c.eps s with
  | none => none
  | some l =>
    let w := forwardSub l s (t + 1) fun i k => if k < t then c.lam1 (nth ss i) (nth ts k) else c.eta1 (nth ss i)
    let out (p q : Nat) : W32 :=
      subProducts (c.lam1 (nth ts p) (nth ts q)) ((List.range s).map fun k => (mat w k p, mat w k q))
    some { c with
      outdim := t
      oeta := vec8 fun p =>
        if p < t then subProducts (c.eta1 (nth ts p)) ((List.range s).map fun k => (mat w k p, mat w k t)) else 0#32
      olam := sym8 fun p q => if q < t then out p q else 0#32
      live := true }

/-- μ of gb.mean (R271); nothing for a singular block. -/
def Chisel.mean (c : Chisel) : Option (List W32) :=
  match cholesky c.lam1 c.eps c.dim with
  | none => none
  | some l =>
    let n := c.dim
    let y := forwardSub l n 1 fun i _ => c.eta1 i
    let mu := (List.range n).foldl (fun (m : Table W32) r =>
      let i := n - 1 - r
      let v := subProducts (mat y i 0) (((List.range n).filter fun k => decide (i < k)).map fun k => (mat l k i, tgetD m k 0#32))
      tset m i (divF32 v (mat l i i))) []
    some ((List.range n).map fun i => tgetD mu i 0#32)

/-! ## The image (R275) -/

/-- The 512 bytes of a workspace. -/
def Chisel.image (c : Chisel) : List Byte :=
  bytesOfNat 16 (c.dim % 16 + 2 ^ 16 * c.map.toNat + 2 ^ 24 * (c.outdim % 16) + 2 ^ 32 * c.eps.toNat + 2 ^ 64 * c.tau.toNat
      + 2 ^ 96 * c.res.toNat)
    ++ (c.eta.toList.map fun v => bytesOfNat 4 v.toNat).foldr (· ++ ·) []
    ++ ((triangle 8).map fun p => bytesOfNat 4 (c.lam1 p.1 p.2).toNat).foldr (· ++ ·) []
    ++ (c.oeta.toList.map fun v => bytesOfNat 4 v.toNat).foldr (· ++ ·) []
    ++ ((triangle 8).map fun p => bytesOfNat 4 (c.olam[(8 * p.1 + p.2) % 64]'(Nat.mod_lt _ (by decide))).toNat).foldr (· ++ ·) []
    ++ List.replicate 144 0#8

/-- The workspace that an image holds, with the limits of R267 and R262. -/
def chiselOf (bs : List Byte) (live : Bool) : Chisel :=
  let hd := natOfBytes (bs.take 16)
  let d := dimOf (bitsOf hd 0 4)
  let od := min (bitsOf hd 24 4) 8
  let at4 (byte i : Nat) : W32 := wordOfBytes (bs.drop byte) i
  { dim := d
    map := BitVec.ofNat 8 (bitsOf hd 16 8) ||| 1#8
    eps := epsOf (BitVec.ofNat 32 (bitsOf hd 32 32))
    tau := tauOf (BitVec.ofNat 32 (bitsOf hd 64 32))
    eta := vec8 fun i => if i < d then at4 16 i else 0#32
    lam := sym8 fun i j => if j < d then at4 48 (packIx 8 i j) else 0#32
    outdim := od
    oeta := vec8 fun i => if i < od then at4 192 i else 0#32
    olam := sym8 fun i j => if j < od then at4 224 (packIx 8 i j) else 0#32
    res := BitVec.ofNat 32 (bitsOf hd 96 32)
    live := live }

end Sys2Proof.Machine
end

