-- ==== Sys2Proof/Machine/Request.lean ====
section
/-! DEFINITION. What a request of a redundant pair carries, for the comparator (R408). -/

namespace Sys2Proof.Machine

open Sys2Proof

/-- A byte of a request's data, or 256 where the byte mask leaves it out. -/
def maskedByte (b : Option Byte) : Word := match b with
  | some v => v.setWidth 64
  | none => 256#64

/-- The low `n` bytes of a register. -/
def lowBytes (n : Nat) (v : Word) : Word := BitVec.ofNat 64 (v.toNat % 2 ^ (8 * n))

/-- Addresses and values of the active lanes of a store. -/
def Hart.lanesSent (x : Hart) (addr : Nat → Word) (v : RegIdx) : List Word :=
  ((x.active false).map fun i => [addr i, (x.lane v i).setWidth 64]).flatten

/-- The lanes of a vector reduction, with those that are not active left out. -/
def Hart.reducedLanes (x : Hart) (v : RegIdx) : List Word :=
  (List.range 16).map fun i => if x.act false i then (x.lane v i).setWidth 64 else 2 ^ 32

/-- The address, the width and byte mask, and the data of a request that are not the whole of the registers that its
instruction names; nothing where they are. -/
def requestData (i : Instr) (x : Hart) : Option (List Word) := match i with
  | .baseStore k rs1 rs2 imm => some [x.baseAddr rs1 imm, match k with
    | .fw => (x.rf rs2).setWidth 64
    | _ => lowBytes (storeBytes k) (x.rx rs2)]
  | .amo _ dbl _ _ _ rs1 rs2 | .sc dbl _ _ _ rs1 rs2 => some [x.rx rs1, lowBytes (if dbl then 8 else 4) (x.rx rs2)]
  | .srx k rt rs1 off => some [x.dmAddr rs1 off 1, lowBytes (2 ^ k.toNat) (x.rx rt)]
  | .stRlB _ rs2 rs1 => some [x.rx rs1, lowBytes 1 (x.rx rs2)]
  | .stRlH _ rs2 rs1 => some [x.rx rs1, lowBytes 2 (x.rx rs2)]
  | .stRlW _ rs2 rs1 => some [x.rx rs1, lowBytes 4 (x.rx rs2)]
  | .sttag r rs1 off => some [lineOf (x.dmAddr rs1 off 64), lowBytes 2 (x.rx r)]
  | .stbit r rs1 rs2 w =>
    some [x.rx rs1, x.rx rs2, BitVec.ofNat 64 ((x.rx r).toNat % 2 ^ bitWidth w)]
  | .vst _ v rs1 off =>
    let a := x.dmAddr rs1 off 64
    some (a :: (x.laneBytes v false).map maskedByte ++ (match x.vstTag v a with
      | some t => [t.setWidth 64]
      | none => []))
  | .vsts _ v rs1 rs2 => some (x.lanesSent (x.strideAddr rs1 rs2) v)
  | .vstx _ v rs1 vs2 => some (x.lanesSent (x.indexAddr rs1 vs2) v)
  | .vstbit r rs1 rs2 w =>
    some (x.rx rs1 :: x.rx rs2 :: (x.active false).map fun k => BitVec.ofNat 64 ((x.lane r k).toNat % 2 ^ bitWidth w))
  | .bvredAddI32 _ _ rs1 v | .bvredAddF32 _ _ rs1 v | .bvredMinI32 _ _ rs1 v | .bvredMinF32 _ _ rs1 v | .bvredMaxI32 _ _ rs1 v
  | .bvredMaxF32 _ _ rs1 v => some (x.rx rs1 :: x.reducedLanes v)
  | .bcasW _ rd rs1 rs2 | .bcasD _ rd rs1 rs2 => some [x.rx rs1, x.rx rs2, x.rx rd]
  | .gbMean rs1 => some (x.rx rs1 :: (match x.chisel.mean with
    | some mu => mu.map fun v => v.setWidth 64
    | none => []))
  | .gbStw rs1 => some (x.rx rs1 :: x.chisel.image.map fun b => b.setWidth 64)
  | .gbEmit _ rs2 rs1 =>
    let c := x.chisel
    some (x.rx rs1 :: x.rx rs2 :: BitVec.ofNat 64 c.outdim :: c.tau.setWidth 64
      :: (c.oeta.toList.map fun v => v.setWidth 64) ++ c.olam.toList.map fun v => v.setWidth 64)
  | _ => none

end Sys2Proof.Machine
end

