-- ==== Sys2Proof/Machine/Ops.lean ====
section
/-! DEFINITION. Taking an exception (R365 to R368) and returning from one, the checks of R372 that come before every
instruction's own, waiting (R31, R218), retirement, and the redundant pair's queues (R406 to R408). -/

namespace Sys2Proof.Machine

/-! ## Taking an exception -/

/-- Whether two hart numbers are the leading hart `h` and its trailing hart. -/
def inPair (h : Nat) (p : Nat × Hart) : Bool := p.1 == h || (p.2.trails && p.2.pair == some h)

/-- Changes a hart and, where it leads a redundant pair, its trailing hart too (R410). -/
def State.modPair (s : State) (h : Nat) (f : Hart → Hart) : State :=
  { s with harts := s.harts.map fun p => if inPair h p then (p.1, f p.2) else p }

/-- What a trap does to a hart's registers (R366, R367): sepc, scause and stval, SPP, SPIE and SIE, S-mode, pc from stvec;
the reservation ends and whatever the hart waited for is given up. A stop request of the same A-cycle stays, and applies at an SRET
to U-mode too (R387). -/
def Hart.trapped (x : Hart) (cause : Nat) (tval : Word) (ncyc : Nat) : Hart :=
  { x with
    stopSret := x.stopSret || (x.stopReq && x.stopAt == ncyc / 2)
    pc := x.csr.stvec
    priv := .s
    csr := { x.csr with
      sepc := x.pc
      scause := BitVec.ofNat 64 cause
      stval := tval
      stSPP := x.priv != .u
      stSPIE := x.csr.stSIE
      stSIE := false }
    resv := none
    log := []
    snap := none
    wait := none
    recvEnd := 0
    yieldEnd := none
    yieldFor := []
    migTo := none
    cmp := none
    released := false
    lastIssue := some ncyc }

/-- The causes whose stval is an address (R370). -/
def addressCause (c : Nat) : Bool := c == 1 || c == 4 || c == 5 || c == 6 || c == 7 || c == 48 || c == 49

/-- Hart firmware takes the hart (R368): the trap is reported as a fault record with ASYNC = 0, and the hart ends. -/
def State.fwEnd (s : State) (h : Nat) (cause sub count : Nat) (tval : Word) (fo : FormOp) : State :=
  match s.hart? h with
  | none => s
  | some x =>
    let addr : Word := if addressCause cause then tval else 0#64
    (s.report x.group ⟨failWord fo cause sub count, addr, false, x.hidx⟩).endHart h

/-- Whether no S-mode runtime is left to take a trap (R368). `sync` marks one raised by an instruction. -/
def Hart.noRuntime (x : Hart) (cause : Nat) (sync : Bool) : Bool :=
  (x.priv == .u && x.csr.stvec == 0#64)
    || (x.priv == .s && ((sync && x.pc == x.csr.stvec) || cause == 9))

/-- TAKING AN EXCEPTION (R365 to R368): in S-mode by the base rules, or by hart firmware. `sub` is the SUB that the cause's
chapter assigns. -/
def State.takeTrap (s : State) (h cause : Nat) (tval : Word) (sub : Nat) (fo : FormOp) (sync : Bool) : State :=
  match s.hart? h with
  | none => s
  | some x =>
    if x.noRuntime cause sync then
      s.fwEnd h cause sub (if cause = 8 ∨ cause = 9 then (x.rx 10#5).toNat % 2 ^ 32 else 0) tval fo
    else s.modPair h fun y => y.trapped cause tval s.ncyc

/-- RETURNING FROM ONE (R367): SRET as the base defines it. -/
def Hart.sret (x : Hart) : Hart :=
  { x with
    pc := x.csr.sepc
    priv := if x.csr.stSPP then .s else .u
    csr := { x.csr with stSIE := x.csr.stSPIE, stSPIE := true, stSPP := false } }

/-! ## Instructions of a hart -/

/-- What an instruction's own part comes to. -/
inductive Res where
  /-- It retires; the pc moves past it. -/
  | ok (s : State)
  /-- It retires and the pc goes elsewhere. -/
  | jump (pc : Word) (s : State)
  /-- It retires, and then this happens. -/
  | okThen (post : State → State) (s : State)
  /-- A precise trap with SUB for the record of R368; pieces already performed stay performed. -/
  | trap (cause : Nat) (tval : Word) (sub : Nat) (s : State)
  /-- The hart waits under R31: kind and object as the wait table shows them (R420), or a kind above 7 that it lists
  not. -/
  | wait (kind : Nat) (obj : Word) (s : State)

/-- How a redundant pair treats an instruction (R407). -/
inductive PairKind where
  /-- Each hart performs it on its own. -/
  | alone
  /-- Its result enters from outside the pair, through the load-value queue. -/
  | enters
  /-- Its request leaves the pair, through the comparator. -/
  | leaves
deriving DecidableEq, Repr

/-- The registers that an instruction names. -/
structure Names where
  /-- x fields that are sources. -/
  xr : List RegIdx
  /-- x fields that are destinations. -/
  xw : List RegIdx
  /-- v registers named. -/
  vs : List RegIdx
  /-- f registers named as sources. -/
  fs : List RegIdx
  /-- Open to full harts only (R144). -/
  full : Bool
  /-- x fields whose pending state is not waited for (R218). -/
  nowait : List RegIdx
  /-- x fields on whose failed state the instruction does not trap (R374). -/
  nofail : List RegIdx
  pair : PairKind
  /-- phint: it starts the count of R54 again. -/
  hint : Bool

/-- An instruction that names these x registers and no other. -/
def xNames (xr xw : List RegIdx) (pair : PairKind) : Names :=
  { xr := xr, xw := xw, vs := [], fs := [], full := false, nowait := [], nofail := [], pair := pair, hint := false }

/-- An instruction of full harts that names these x, v and f registers. -/
def vNames (xr xw vs fs : List RegIdx) (pair : PairKind) : Names :=
  { xr := xr, xw := xw, vs := vs, fs := fs, full := true, nowait := [], nofail := [], pair := pair, hint := false }

/-- Every x field. -/
def Names.xs (n : Names) : List RegIdx := n.xr ++ n.xw

/-- Whether the hart runs under the compact register class (R371). -/
def State.compactRules (s : State) (x : Hart) : Bool :=
  !x.full || (match s.gridOf? x with
    | some g => g.hdr.compact
    | none => false)

/-- The class check of R372: what R144 forbids to compact harts. -/
def Names.classOk (n : Names) (compact : Bool) : Bool :=
  !compact || (!n.full && n.vs.isEmpty && n.fs.isEmpty && n.xs.all compactReg)

/-- The lowest-numbered failed register that the instruction names and traps on (R374). -/
def Names.failed (n : Names) (x : Hart) : Option (RegIdx × FailHow) :=
  (List.range 32).foldl (fun acc i => match acc with
    | some a => some a
    | none =>
      let r : RegIdx := BitVec.ofNat 5 i
      if n.xs.contains r && !n.nofail.contains r then
        match tget x.regs i with
        | some (.failed how) => some (r, how)
        | _ => none
      else none) none

/-- Clears a failed register after a reader's trap (R374 item 3). -/
def Hart.clearFailed (x : Hart) (r : RegIdx) (how : FailHow) : Hart :=
  let count := (x.rx r).toNat % 2 ^ 32
  let v : Word := match how with
    | .status => statusWord true false count
    | .launch => statusWord true false 0
    | .zero => 0#64
  { x.wx r v with regs := tdel x.regs r.toNat }

/-- A named register that the instruction waits for: its number. -/
def Names.waitsOn (n : Names) (x : Hart) : Option Nat :=
  (List.range 32).find? fun i =>
    let r : RegIdx := BitVec.ofNat 5 i
    (n.xs.contains r && !n.nowait.contains r && (match tget x.regs i with
      | some (.pending _) => true
      | some (.busy _) => true
      | _ => false))
      || (n.vs.contains r && (tget x.vbusy i).isSome)

/-- The tile command of an operation, if it has not been accepted. -/
def State.tileOf (s : State) (o : Nat) : Option Tile :=
  s.plinths.foldl (fun acc p => match p.2.queue.find? fun t => t.op == some o && !t.accepted with
    | some t => some t
    | none => acc) none

/-- The ring whose lines a matrix command that is not accepted still lacks: ring a, or else ring b (R206, R420). -/
def State.awaitedRing (s : State) (t : Tile) : Option Nat :=
  match t.what, tget s.groups t.group with
  | .mma _ _ a b _, some g =>
    let lacks (n need : Nat) : Bool :=
      let r := tgetD (s.window g.win).rings n Ring.zero
      decide ((r.tail - r.head).toNat < need + r.claim)
    if lacks a (if a = b then t.na + t.nb else t.na) then some a
    else if a ≠ b ∧ lacks b t.nb then some b
    else none
  | _, _ => none

/-- Wait-table KIND and OBJ of a hart that waits on an operation's register (R420). Kind 10 is not listed; kind 16 is that of a
barrive, which the table lists as 1 and for which a hart lends nothing (R251). -/
def State.waitOnOp (s : State) (x : Hart) (o : Nat) : Nat × Word :=
  match tget s.ops o with
  | none => (10, 0#64)
  | some p =>
    match p.kind with
    | .arrive obj early _ _ _ => (if early then 16 else 1, obj)
    | .bwait obj _ => (1, obj)
    | .enq hd _ | .deq hd | .len hd => (3, hd)
    | .send m _ _ _ _ | .sendImg m _ _ | .emit m _ _ _ _ _ _ | .msg m _ _ _ _ => (4, m)
    | .lease => (5, BitVec.ofNat 64 (winNum (s.winOf x) / 24))
    | .tile =>
      match s.tileOf o with
      | some t => (match s.awaitedRing t with
        | some r => (7, BitVec.ofNat 64 r)
        | none => (10, 0#64))
      | none => (10, 0#64)
    | _ => (10, 0#64)

/-- The hart waits (R31); the same wait keeps its start. -/
def State.hartWait (s : State) (h kind : Nat) (obj : Word) : State :=
  s.modHart h fun x =>
    { x with
      wait := match x.wait with
        | some w => if w.kind = kind ∧ w.obj = obj then some w else some ⟨kind, obj, s.ncyc, false⟩
        | none => some ⟨kind, obj, s.ncyc, false⟩ }

/-- Retirement: the pc, instret, the count of R54, and nothing left of waiting. -/
def Hart.retired (x : Hart) (pc : Word) (hint : Bool) (ncyc : Nat) : Hart :=
  { x with
    pc := pc
    instret := (x.instret + 1) % 2 ^ 64
    wait := none
    snap := none
    log := []
    lastIssue := some ncyc
    sinceHint := if hint then 0 else x.sinceHint + 1 }

/-! ## Redundant pairs (R406 to R410) -/

/-- The fields of a request that the comparator compares (R408): the instruction, and what it sends. -/
def pairRequest (i : Instr) (n : Names) (x : Hart) : List Word :=
  bitsOfEnc (encode i) :: (requestData i x).getD (n.xr.map x.rx)

/-- The registers whose values changed. -/
def changed {α : Type} [DecidableEq α] (a b : List α) (i : Nat) : List (Nat × α) :=
  match a, b with
  | p :: r, q :: t => (if p = q then [] else [(i, q)]) ++ changed r t (i + 1)
  | _, _ => []

/-- A value that an instruction changed. -/
def ifChanged {α : Type} [DecidableEq α] (a b : α) : Option α := if a = b then none else some b

/-- What a leading hart's instruction brought into the pair: its destination registers, changed or not, and all else that
it changed. The v and f registers that a read names begin with its destination. -/
def lvqOf (n : Names) (x y : Hart) : LvqEnt :=
  let into (r : List RegIdx) : List RegIdx := if n.pair = .enters then r else []
  { request := n.pair == .leaves
    xs := changed x.x.toList y.x.toList 0 ++ n.xw.map fun r => (r.toNat, y.rx r)
    fs := changed x.f.toList y.f.toList 0 ++ (into n.fs).map fun r => (r.toNat, y.rf r)
    vs := changed x.v.toList y.v.toList 0 ++ (into (n.vs.take 1)).map fun r => (r.toNat, y.rv r)
    held := y.heldSlot
    regs := y.regs
    vbusy := y.vbusy
    seq := y.seq
    vcnt := ifChanged x.vcnt y.vcnt
    pw := ifChanged x.pw y.pw
    mig := ifChanged x.mig y.mig
    asid := ifChanged x.asid y.asid
    chisel := ifChanged x.chisel y.chisel }

/-- The trailing hart takes an entry in place of its own access: the registers, and what the part keeps of them. -/
def Hart.takeLvq (x : Hart) (e : LvqEnt) : Hart :=
  let x1 := e.xs.foldl (fun (a : Hart) p => a.wx (BitVec.ofNat 5 p.1) p.2) x
  let x2 := e.fs.foldl (fun (a : Hart) p => a.wf (BitVec.ofNat 5 p.1) p.2) x1
  let x3 := e.vs.foldl (fun (a : Hart) p => a.wvq (BitVec.ofNat 5 p.1) p.2) x2
  { x3 with
    regs := e.regs
    vbusy := e.vbusy
    seq := e.seq
    vcnt := e.vcnt.getD x3.vcnt
    pw := e.pw.getD x3.pw
    mig := e.mig.getD x3.mig
    asid := e.asid.getD x3.asid
    chisel := e.chisel.getD x3.chisel
    heldSlot := e.held
    cmp := none }

/-- After a leading hart's instruction retired: its results enter the queue. -/
def State.pushLvq (s : State) (h : Nat) (x : Hart) (n : Names) : State :=
  if n.pair = .alone ∨ x.pair.isNone then s
  else s.modHart h fun y => { y with lvq := y.lvq ++ [lvqOf n x y], cmp := none, released := false }

/-- The trailing hart of a leading one. -/
def State.trailOf (s : State) (h : Nat) : Option (Nat × Hart) := s.harts.find? fun p => p.2.trails && p.2.pair == some h

/-- How many instructions of the pair a hart is behind another: 2^64 less their difference where it is ahead. -/
def Hart.behind (y x : Hart) : Nat := (x.instret + 2 ^ 64 - y.instret) % 2 ^ 64

/-- Whether both harts of a pair stand at the same instruction: a leading hart's trap waits for that (R410), and what arrives from
outside reaches them together (R407). A hart without a partner always does. -/
def State.pairSynced (s : State) (h : Nat) (x : Hart) : Bool :=
  x.pair.isNone || (x.lvq.isEmpty && (match s.trailOf h with
    | some (_, y) => y.pc == x.pc && y.instret == x.instret
    | none => true))

/-- Whether a leading hart may perform an instruction now: its queue has room, and a request has been released (R407). -/
def Hart.pairGo (x : Hart) (k : PairKind) : Bool :=
  match k with
  | .alone => true
  | .enters => decide (x.lvq.length < 32)
  | .leaves => decide (x.lvq.length < 32) && x.released

/-- Places a hart's request in the comparator. -/
def State.placeRequest (s : State) (h : Nat) (x : Hart) (req : List Word) : State :=
  if x.cmp.isSome then s else s.modHart h fun y => { y with cmp := some (req, s.acyc) }

/-- Whether a trailing hart may go on at its instruction: at least 4 A-cycles after the leading hart issued there, and never ahead of it
(R406). Where the two stand at one instruction, the leading hart has issued it when its request has been placed. -/
def State.trailMay (s : State) (y : Hart) : Bool := match y.pair.bind s.hart? with
  | none => true
  | some x =>
    let d := y.behind x
    if d = 0 then (match x.cmp with
      | some (_, t) => decide (t + 4 ≤ s.acyc)
      | none => false)
    else if d = 1 then (match x.lastIssue with
      | some t => decide (t / 2 + 4 ≤ s.acyc)
      | none => true)
    else decide (d < 2 ^ 63)

/-! ## One instruction -/

/-- The outcome of an instruction's own part, for a hart that is no trailing hart. -/
def State.settle (s0 : State) (h : Nat) (x : Hart) (n : Names) (len : Nat) (fo : FormOp) (r : Res) : State :=
  match r with
  | .ok s => (s.modHart h fun y => y.retired (addrPlus x.pc len) n.hint s0.ncyc).pushLvq h x n
  | .jump pc s => (s.modHart h fun y => y.retired pc n.hint s0.ncyc).pushLvq h x n
  | .okThen post s => post ((s.modHart h fun y => y.retired (addrPlus x.pc len) n.hint s0.ncyc).pushLvq h x n)
  | .trap cause tval sub s =>
    if s.pairSynced h x then s.takeTrap h cause tval sub fo true else s0.hartWait h 15 0#64
  | .wait kind obj s => s.hartWait h kind obj

/-- A trailing hart: it takes results from the queue, places its requests, and waits for the leading hart to trap. -/
def State.trailRun (s : State) (h : Nat) (x : Hart) (i : Instr) (n : Names) (len : Nat) (body : State → Res) : State :=
  match n.pair with
  | .alone =>
    match body s with
    | .ok s1 => s1.modHart h fun y => y.retired (addrPlus x.pc len) n.hint s.ncyc
    | .jump pc s1 => s1.modHart h fun y => y.retired pc n.hint s.ncyc
    | .okThen _ s1 => s1.modHart h fun y => y.retired (addrPlus x.pc len) n.hint s.ncyc
    | .trap _ _ _ _ => s.hartWait h 15 0#64
    | .wait kind obj _ => s.hartWait h kind obj
  | k =>
    match x.pair.bind s.hart? with
    | none => s
    | some y =>
      match y.lvq.head?.filter fun e => e.request == (k == .leaves) with
      | some e =>
        let s1 := s.modHart h fun z => (z.takeLvq e).retired (addrPlus x.pc len) n.hint s.ncyc
        s1.modHart (x.pair.getD 0) fun z => { z with lvq := z.lvq.drop 1 }
      | none =>
        let s1 := if k = .leaves then s.placeRequest h x (pairRequest i n x) else s
        s1.hartWait h 15 0#64

/-- Runs an instruction of the hart `cur`: the register class, failed registers and waiting in the order of R372, then
its own part. The trailing hart of a pair takes no trap of its own: it waits for the leading one to take it with it (R410). -/
def runHart (i : Instr) (n : Names) (body : Nat → Hart → State → Res) (s : State) : State :=
  let h := s.cur
  match s.hart? h with
  | none => s
  | some x =>
    let enc := encode i
    let bits := bitsOfEnc enc
    let len := match enc with
      | some (.w64 _ _) => 8
      | _ => 4
    let fo := formOfEnc enc
    let fails := n.failed x
    if x.trails && (!(s.trailMay x) || !(n.classOk (s.compactRules x)) || fails.isSome) then s.hartWait h 15 0#64
    else if !n.classOk (s.compactRules x) then
      s.settle h x n len fo (.trap 50 (bits &&& 0xFFFFFFFF#64) 0 s)
    else
      match fails with
      | some (r, how) =>
        s.settle h x n len fo (.trap 60 (x.rx r) 0 (s.modPair h fun y => y.clearFailed r how))
      | none =>
        match n.waitsOn x with
        | some r =>
          let (k, obj) : Nat × Word := match tget x.regs r with
            | some (.pending o) => s.waitOnOp x o
            | _ => (10, 0#64)
          s.hartWait h k obj
        | none =>
          if x.trails then s.trailRun h x i n len (body h x)
          else if x.pair.isSome && !x.pairGo n.pair then
            let s1 := if n.pair = .leaves then s.placeRequest h x (pairRequest i n x) else s
            s1.hartWait h 15 0#64
          else s.settle h x n len fo (body h x s)

/-! ## Plain accesses in an instruction -/

/-- The detail word of cause 50 (R371). -/
def overUse (kind detail : Nat) : Word := BitVec.ofNat 64 (2 ^ 60 * kind + detail)

/-- stval of a failed plain access (R370, R371): the failing piece's address, or for an undeclared granule of the hart's own
window the detail word of KIND 1. -/
def accTval (cause : Nat) (a : Word) : Word := if cause = 50 then overUse 1 (vaLow a) else a

/-- The rest of an instruction once its plain access is done. -/
def Got.andThen (g : Got) (f : List PieceAns → State → Res) : Res :=
  match g with
  | .done as s => f as s
  | .trap cause sub a s => .trap cause (accTval cause a) sub s
  | .wait s => .wait 8 0#64 s

/-- The physical address of what a hart reads at an address, in the DRAM of a memory chiplet; 0 for what has none (R397). -/
def State.physAt (s : State) (h : Nat) (addr : Word) : Nat := match s.hart? h with
  | some x => (match ({ s with held := [] } : State).route (Req.hart addr 1 .load (x.ctx h)) x.iface with
    | .at (.mem k _) _ _ => if k < 2 ^ 56 then k % 2 ^ 48 else 0
    | _ => 0)
  | none => 0

/-- The hart that takes what befalls a hart from outside: the leading one of its pair (R410). -/
def State.leaderOf (s : State) (h : Nat) : Nat := match s.hart? h with
  | some x => if x.trails then x.pair.getD h else h
  | none => h

/-- A hart has consumed poison (R396): its slot leaves rotation for the scrub of 64 A-cycles, after which the boundary
delivery of cause 56 falls due; a KIND 5 record carries the address. Both harts of a pair go out for the scrub, and the leading one takes
the delivery (R410). -/
def State.consumePoison (s : State) (h0 : Nat) (fo : FormOp) (addr : Word) : State :=
  let h := s.leaderOf h0
  let word := failWord fo 56 14 0
  let s1 := (s.modPair h fun x => { x with scrub := some (s.acyc + 64) }).modHart h fun x => { x with due := x.due ++ [⟨56, word, addr⟩] }
  let home := match s.hart? h with
    | some x => x.cluster
    | none => 0
  s1.logRec 5 home (word.toNat / 2 ^ 32) (s.physAt h addr) 0 1

/-- FORM and OP of instructions of one encoding, for their operations and failures. -/
def foOf (i : Instr) : FormOp := formOf i

/-- The issue of an asynchronous operation: it waits for an acquire under way and, where it counts among the accesses of
R94, for one of the eight. -/
def asyncRes (s : State) (h : Nat) (x : Hart) (rd : RegIdx) (fo : FormOp) (limited : Bool) (i : Issue) : Res :=
  if s.acquiring h || (limited && decide (8 ≤ s.outstanding h)) then .wait 9 0#64 s
  else .ok (s.opIssue h x rd fo i).2

end Sys2Proof.Machine
end

