-- ==== Sys2Proof/Machine/Flags.lean ====
section
/-! DEFINITION. Every computation that raises floating-point flags (R120 to R124, R129 to R133): the scalar operations of
RV64F and the lane operations of the vector unit, each answering its result and the flags it raises. -/

namespace Sys2Proof.Machine

/-! ## Scalar RV64F (R130) -/

/-- A rounded FP32 result with the flags of its operands. -/
def roundOp (rm : Rm) (e : Ext × FFlags) : W32 × FFlags :=
  let r := roundF32 rm e.1
  (r.1, e.2 ||| r.2)

/-- FADD.S, FSUB.S, FMUL.S and FDIV.S. -/
def farithOp (o : FArith) (rm : Rm) (a b : W32) : W32 × FFlags :=
  match o with
  | .add => roundOp rm ((f32 a).add rm (f32 b))
  | .sub => roundOp rm ((f32 a).add rm (f32 b).neg)
  | .mul => roundOp rm ((f32 a).mul (f32 b))
  | .div => roundOp rm ((f32 a).div (f32 b))

/-- FSQRT.S. -/
def fsqrtOp (rm : Rm) (a : W32) : W32 × FFlags := roundOp rm (f32 a).sqrt

/-- FMADD.S, FMSUB.S, FNMSUB.S and FNMADD.S: one rounding. -/
def ffusedOp (o : FFused) (rm : Rm) (a b c : W32) : W32 × FFlags :=
  match o with
  | .madd => roundOp rm (Ext.fma rm (f32 a) (f32 b) (f32 c))
  | .msub => roundOp rm (Ext.fma rm (f32 a) (f32 b) (f32 c).neg)
  | .nmsub => roundOp rm (Ext.fma rm (f32 a).neg (f32 b) (f32 c))
  | .nmadd => roundOp rm (Ext.fma rm (f32 a).neg (f32 b) (f32 c).neg)

/-- NV where an operand is a signalling NaN. -/
def sigFlags (a b : W32) : FFlags := if (f32 a).isSig || (f32 b).isSig then flagNV else noFlags

/-- The minimum with its flags. -/
def fminOp (a b : W32) : W32 × FFlags := (minF32 a b, sigFlags a b)
/-- The maximum with its flags. -/
def fmaxOp (a b : W32) : W32 × FFlags := (maxF32 a b, sigFlags a b)

/-- The sign injections, FMIN.S and FMAX.S. -/
def fpairOp (o : FPair) (a b : W32) : W32 × FFlags :=
  let low := a &&& 0x7FFFFFFF#32
  let s := b &&& 0x80000000#32
  match o with
  | .sgnj => (low ||| s, noFlags)
  | .sgnjn => (low ||| (s ^^^ 0x80000000#32), noFlags)
  | .sgnjx => (a ^^^ s, noFlags)
  | .min => fminOp a b
  | .max => fmaxOp a b

/-- A comparison, false where an operand is a NaN: equality is quiet, the orders raise NV for any NaN (R175 and the
base). -/
def fcmpOp (o : FCmp) (a b : W32) : Bool × FFlags :=
  let x := f32 a
  let y := f32 b
  let nan := x.isNan || y.isNan
  match o with
  | .eq => (!nan && decide (x.cmp y = 0), sigFlags a b)
  | .lt => (!nan && decide (x.cmp y < 0), if nan then flagNV else noFlags)
  | .le => (!nan && decide (x.cmp y ≤ 0), if nan then flagNV else noFlags)

/-- Range of an integer type of the base's conversions. -/
def fintRange : FInt → Int × Int
  | .w => (intLo true 32, intHi true 32)
  | .wu => (intLo false 32, intHi false 32)
  | .l => (intLo true 64, intHi true 64)
  | .lu => (intLo false 64, intHi false 64)

/-- FCVT to an integer type: rounded, and clamped with NV; a NaN gives the greatest value. A 32-bit result is
sign-extended. -/
def fcvtToIntOp (t : FInt) (rm : Rm) (a : W32) : Word × FFlags :=
  let r := fintRange t
  let out (v : Int) : Word := match t with
    | .w | .wu => (BitVec.ofInt 32 v).signExtend 64
    | _ => BitVec.ofInt 64 v
  match f32 a with
  | .nan _ => (out r.2, flagNV)
  | .inf neg => (out (if neg then r.1 else r.2), flagNV)
  | .fin s n d =>
    let v := (Ext.fin s n d).toInt rm
    if v.1 < r.1 then (out r.1, flagNV)
    else if r.2 < v.1 then (out r.2, flagNV)
    else (out v.1, if v.2 then noFlags else flagNX)

/-- FCVT from an integer type. -/
def fcvtFromIntOp (t : FInt) (rm : Rm) (v : Word) : W32 × FFlags :=
  let i : Int := match t with
    | .w => (v.setWidth 32).toInt
    | .wu => ((v.setWidth 32).toNat : Int)
    | .l => v.toInt
    | .lu => (v.toNat : Int)
  roundF32 rm (Ext.ofInt i)

/-- FCLASS.S. -/
def fclassOp (a : W32) : Word :=
  let x := f32 a
  let sub := decide ((a &&& 0x7FFFFFFF#32).toNat < 0x00800000)
  let bit : Nat := match x with
    | .nan s => if s then 8 else 9
    | .inf n => if n then 0 else 7
    | .fin s n _ =>
      if n = 0 then (if s then 3 else 4)
      else if sub then (if s then 2 else 5)
      else (if s then 1 else 6)
  BitVec.ofNat 64 (2 ^ bit)

/-! ## Lane operations (R173) -/

/-- Round to nearest even: every vector operation rounds so (R130). -/
def vround (e : Ext × FFlags) : W32 × FFlags := roundOp .rne e

/-- vadd. -/
def laneAdd (ty : LaneTy) (a b : W32) : W32 × FFlags := match ty with
  | .f32 => vround ((f32 a).add .rne (f32 b))
  | _ => (a + b, noFlags)
/-- vsub. -/
def laneSub (ty : LaneTy) (a b : W32) : W32 × FFlags := match ty with
  | .f32 => vround ((f32 a).add .rne (f32 b).neg)
  | _ => (a - b, noFlags)
/-- vmul. -/
def laneMul (ty : LaneTy) (a b : W32) : W32 × FFlags := match ty with
  | .f32 => vround ((f32 a).mul (f32 b))
  | _ => (a * b, noFlags)
/-- vmadd. -/
def laneMadd (ty : LaneTy) (a b c : W32) : W32 × FFlags := match ty with
  | .f32 => vround (Ext.fma .rne (f32 a) (f32 b) (f32 c))
  | _ => (a * b + c, noFlags)
/-- vmsub. -/
def laneMsub (ty : LaneTy) (a b c : W32) : W32 × FFlags := match ty with
  | .f32 => vround (Ext.fma .rne (f32 a) (f32 b) (f32 c).neg)
  | _ => (a * b - c, noFlags)
/-- vmin. -/
def laneMin (ty : LaneTy) (a b : W32) : W32 × FFlags := match ty with
  | .f32 => fminOp a b
  | .i32 => (if a.toInt ≤ b.toInt then a else b, noFlags)
  | .n32 => (if a ≤ b then a else b, noFlags)
/-- vmax. -/
def laneMax (ty : LaneTy) (a b : W32) : W32 × FFlags := match ty with
  | .f32 => fmaxOp a b
  | .i32 => (if b.toInt ≤ a.toInt then a else b, noFlags)
  | .n32 => (if b ≤ a then a else b, noFlags)
/-- vabs. -/
def laneAbs (ty : LaneTy) (a : W32) : W32 × FFlags := match ty with
  | .f32 => if (f32 a).isNan then (nan32, sigFlags a a) else (a &&& 0x7FFFFFFF#32, noFlags)
  | _ => (if a.toInt < 0 then -a else a, noFlags)
/-- vneg. -/
def laneNeg (ty : LaneTy) (a : W32) : W32 × FFlags := match ty with
  | .f32 => if (f32 a).isNan then (nan32, sigFlags a a) else (a ^^^ 0x80000000#32, noFlags)
  | _ => (-a, noFlags)

/-- The comparisons of R175. -/
def laneCmp (o : FCmp) (ty : LaneTy) (a b : W32) : Bool × FFlags :=
  match ty with
  | .f32 => fcmpOp o a b
  | .i32 => (match o with
    | .eq => a == b
    | .lt => decide (a.toInt < b.toInt)
    | .le => decide (a.toInt ≤ b.toInt), noFlags)
  | .n32 => (match o with
    | .eq => a == b
    | .lt => decide (a < b)
    | .le => decide (a ≤ b), noFlags)

/-- vrcp (R131). -/
def laneRcp (a : W32) : W32 × FFlags := vround (f32 a).rcp
/-- vrsq (R131). -/
def laneRsq (a : W32) : W32 × FFlags := vround (f32 a).rsq
/-- vexp2 (R131). -/
def laneExp2 (a : W32) : W32 × FFlags := vround (f32 a).exp2
/-- vlog2 (R131). -/
def laneLog2 (a : W32) : W32 × FFlags := vround (f32 a).log2

/-! ## Conversions (R178 to R180, R187) -/

/-- Lane bits as a lane type's exact value. -/
def laneVal (ty : LaneTy) (a : W32) : Ext := match ty with
  | .i32 => Ext.ofInt a.toInt
  | .n32 => Ext.ofInt (a.toNat : Int)
  | .f32 => f32 a

/-- An exact value as a lane type. -/
def toLane (ty : LaneTy) (x : Ext) : W32 × FFlags := match ty with
  | .f32 => roundF32 .rne x
  | .i32 =>
    let r := cvtInt (intLo true 32) (intHi true 32) x
    (BitVec.ofInt 32 r.1, r.2)
  | .n32 =>
    let r := cvtInt (intLo false 32) (intHi false 32) x
    (BitVec.ofInt 32 r.1, r.2)

/-- vcvt to a lane type from format `ef` (R178). -/
def laneFromElem (ty : LaneTy) (ef : BitVec 5) (a : W32) : W32 × FFlags :=
  match fmtOfEF ef with
  | some E => toLane ty (E.decode a.toNat)
  | none => (0#32, noFlags)

/-- An exact value as an element of a format, saturating or not; an integer source of an integer format wraps where it
does not saturate (R178). -/
def ElemFmt.encode (E : ElemFmt) (sat fromInt : Bool) (x : Ext) : Nat × FFlags :=
  match E.kind with
  | .flt F => F.round .rne sat x
  | .dm8 => dm8Encode x sat
  | .int s =>
    if fromInt && !sat then (wrapNat E.width (x.toInt .rne).1, noFlags)
    else
      let r := cvtInt (intLo s E.width) (intHi s E.width) x
      (wrapNat E.width r.1, r.2)

/-- vcvt from a lane type to format `ef`, unpacked (R178). -/
def laneToElem (ty : LaneTy) (ef : BitVec 5) (sat : Bool) (a : W32) : W32 × FFlags :=
  match fmtOfEF ef with
  | some E =>
    let r := E.encode sat (ty != .f32) (laneVal ty a)
    (BitVec.ofNat 32 r.1, r.2)
  | none => (0#32, noFlags)

/-- The product of a value and a scale. -/
def mulS9 (x : Ext) (s : Nat) : Ext := (x.mul (s9Value s)).1

/-- vquant's target format by Q (R147). -/
def quantFmt (q : BitVec 3) : ElemFmt :=
  let pick (c : Nat) : ElemFmt := (fmtOfCode c).getD ⟨8, .int true, 1⟩
  match q.toNat with
  | 0 => pick 0x01
  | 1 => pick 0x03
  | 2 => pick 0x10
  | 3 => pick 0x11
  | 4 => pick 0x12
  | 5 => pick 0x13
  | 6 => pick 0x14
  | _ => pick 0x15

/-- A format that vquant can write. -/
def isQuantCode (c : Nat) : Bool :=
  c == 0x01 || c == 0x03 || c == 0x10 || c == 0x11 || c == 0x12 || c == 0x13 || c == 0x14 || c == 0x15

/-- One element of vquant (R179): the exact quotient, converted with saturation. -/
def quantElem (E : ElemFmt) (s9 : Nat) (a : W32) : Nat × FFlags := E.encode true false (divS9 (f32 a) s9)

/-- One lane of vdequant (R180). -/
def dequantElem (E : ElemFmt) (s9 code : Nat) : W32 × FFlags :=
  match E.decode code with
  | .nan _ => (nan32, noFlags)
  | x => roundF32 .rne (mulS9 x s9)

/-- One lane of vldl (R187): element `j` of a line with a tag. -/
def vldlElem (line : Nat) (tag : BitVec 16) (j : Nat) : W32 × FFlags :=
  let code := tag.toNat / 512
  let s9 := tag.toNat % 512
  match fmtOfCode code with
  | none => (if j < 16 then BitVec.ofNat 32 (elemAt line 32 j) else 0#32, noFlags)
  | some E =>
    if s9Bad s9 then (nan32, flagNV)
    else if elemsPerLine E.width ≤ j then (0#32, noFlags)
    else
      let e := elemAt line E.width j
      match E.kind with
      | .int s => if s9 = 0 then (BitVec.ofInt 32 (intOf s E.width e), noFlags) else roundF32 .rne (mulS9 (E.decode e) s9)
      | _ =>
        match E.decode e with
        | .nan sig => (nan32, if sig then flagNV else noFlags)
        | x => roundF32 .rne (mulS9 x s9)

/-! ## Reductions (R133, R182) -/

/-- One level of the fixed pairwise tree. -/
def treeLevel (op : W32 → W32 → W32 × FFlags) : List W32 → List W32 × FFlags
  | a :: b :: r =>
    let x := op a b
    let t := treeLevel op r
    (x.1 :: t.1, x.2 ||| t.2)
  | l => (l, noFlags)

/-- `n` levels of the tree. -/
def treeReduce (op : W32 → W32 → W32 × FFlags) : Nat → List W32 → W32 × FFlags
  | 0, l => (l.headD 0#32, noFlags)
  | n + 1, l =>
    let t := treeLevel op l
    let r := treeReduce op n t.1
    (r.1, t.2 ||| r.2)

/-- The 16 slots of a reduction: active lanes, and the identity elsewhere. -/
def Hart.slots (x : Hart) (m : Bool) (vs : RegIdx) (ident : W32) : List W32 :=
  (List.range 16).map fun i => if x.act m i then x.lane vs i else ident

/-- The identities of R133 and R182. -/
def sumIdent : LaneTy → W32
  | .f32 => 0x80000000#32
  | _ => 0#32
/-- The identity of a maximum. -/
def maxIdent : LaneTy → W32
  | .f32 => 0xFF800000#32
  | .i32 => 0x80000000#32
  | .n32 => 0#32
/-- The identity of a minimum. -/
def minIdent : LaneTy → W32
  | .f32 => 0x7F800000#32
  | .i32 => 0x7FFFFFFF#32
  | .n32 => 0xFFFFFFFF#32

/-- The largest magnitude of some lanes (R181, R179): +0 for none, the canonical NaN if one is a NaN. -/
def maxAbs (ls : List W32) : W32 :=
  if ls.any fun a => (f32 a).isNan then nan32
  else ls.foldl (fun acc a =>
    let b := a &&& 0x7FFFFFFF#32
    if acc < b then b else acc) 0#32

end Sys2Proof.Machine
end

