-- ==== Sys2Proof/Machine/BaseAlu.lean ====
section
/-! DEFINITION. BASE_ARITHMETIC: the computational instructions, branches, jumps and EBREAK of the base (R141): RV64I, M, Zba,
Zbb and RV64F. -/

namespace Sys2Proof.Machine

open Sys2Proof

/-! ## Integer operations -/

/-- A 32-bit result as an x register holds it. -/
def sext32 (v : W32) : Word := v.signExtend 64

/-- The low word of an x register. -/
def lo32 (v : Word) : W32 := v.setWidth 32

/-- Operations with a 12-bit immediate. -/
def immOp (o : ImmOp) (a i : Word) : Word :=
  match o with
  | .addi => a + i
  | .slti => BitVec.ofNat 64 (b2n (decide (a.toInt < i.toInt)))
  | .sltiu => BitVec.ofNat 64 (b2n (decide (a < i)))
  | .xori => a ^^^ i
  | .ori => a ||| i
  | .andi => a &&& i
  | .addiw => sext32 (lo32 a + lo32 i)

/-- Shifts by an immediate of 6 bits. -/
def shOp (o : ShOp) (a : Word) (n : Nat) : Word :=
  match o with
  | .slli => a <<< n
  | .srli => a >>> n
  | .srai => a.sshiftRight n
  | .rori => a.rotateRight n
  | .slliuw => (a &&& 0xFFFFFFFF#64) <<< n

/-- Word shifts by an immediate of 5 bits. -/
def shWOp (o : ShWOp) (a : W32) (n : Nat) : Word :=
  sext32 (match o with
    | .slliw => a <<< n
    | .srliw => a >>> n
    | .sraiw => a.sshiftRight n
    | .roriw => a.rotateRight n)

/-- DIV of `w` bits: by 0 it gives −1, and the overflow gives the dividend. -/
def divS (w : Nat) (a b : BitVec w) : BitVec w :=
  if b = 0#w then BitVec.allOnes w else BitVec.ofInt w (a.toInt.tdiv b.toInt)
/-- REM of `w` bits: by 0 it gives the dividend, and the overflow gives 0. -/
def remS (w : Nat) (a b : BitVec w) : BitVec w := if b = 0#w then a else BitVec.ofInt w (a.toInt.tmod b.toInt)
/-- DIVU of `w` bits. -/
def divU (w : Nat) (a b : BitVec w) : BitVec w := if b = 0#w then BitVec.allOnes w else BitVec.ofNat w (a.toNat / b.toNat)
/-- REMU of `w` bits. -/
def remU (w : Nat) (a b : BitVec w) : BitVec w := if b = 0#w then a else BitVec.ofNat w (a.toNat % b.toNat)

/-- Register-register operations of RV64I, M, Zba and Zbb. -/
def aluOp (o : AluOp) (a b : Word) : Word :=
  let n := b.toNat % 64
  let m := b.toNat % 32
  let aw := lo32 a
  let bw := lo32 b
  let z := a &&& 0xFFFFFFFF#64
  match o with
  | .add => a + b
  | .sub => a - b
  | .sll => a <<< n
  | .slt => BitVec.ofNat 64 (b2n (decide (a.toInt < b.toInt)))
  | .sltu => BitVec.ofNat 64 (b2n (decide (a < b)))
  | .xor => a ^^^ b
  | .srl => a >>> n
  | .sra => a.sshiftRight n
  | .or => a ||| b
  | .and => a &&& b
  | .addw => sext32 (aw + bw)
  | .subw => sext32 (aw - bw)
  | .sllw => sext32 (aw <<< m)
  | .srlw => sext32 (aw >>> m)
  | .sraw => sext32 (aw.sshiftRight m)
  | .mul => a * b
  | .mulh => BitVec.ofInt 64 (a.toInt * b.toInt / (2 ^ 64 : Nat))
  | .mulhsu => BitVec.ofInt 64 (a.toInt * (b.toNat : Int) / (2 ^ 64 : Nat))
  | .mulhu => BitVec.ofNat 64 (a.toNat * b.toNat / 2 ^ 64)
  | .div => divS 64 a b
  | .divu => divU 64 a b
  | .rem => remS 64 a b
  | .remu => remU 64 a b
  | .mulw => sext32 (aw * bw)
  | .divw => sext32 (divS 32 aw bw)
  | .divuw => sext32 (divU 32 aw bw)
  | .remw => sext32 (remS 32 aw bw)
  | .remuw => sext32 (remU 32 aw bw)
  | .sh1add => b + (a <<< 1)
  | .sh2add => b + (a <<< 2)
  | .sh3add => b + (a <<< 3)
  | .adduw => b + z
  | .sh1adduw => b + (z <<< 1)
  | .sh2adduw => b + (z <<< 2)
  | .sh3adduw => b + (z <<< 3)
  | .andn => a &&& ~~~b
  | .orn => a ||| ~~~b
  | .xnor => ~~~(a ^^^ b)
  | .max => if a.toInt < b.toInt then b else a
  | .maxu => if a < b then b else a
  | .min => if b.toInt < a.toInt then b else a
  | .minu => if b < a then b else a
  | .rol => a.rotateLeft n
  | .ror => a.rotateRight n
  | .rolw => sext32 (aw.rotateLeft m)
  | .rorw => sext32 (aw.rotateRight m)

/-- Zero bits above the highest set bit among the low `w`. -/
def clzNat (w v : Nat) : Nat := if v = 0 then w else w - 1 - v.log2

/-- Zero bits below the lowest set bit among the low `n`. -/
def ctzNat (v : Nat) : Nat → Nat
  | 0 => 0
  | n + 1 => if v % 2 = 1 then 0 else 1 + ctzNat (v / 2) n

/-- A byte of a word. -/
def byteOf (v : Word) (i : Nat) : Byte := v.extractLsb' (8 * i) 8

/-- One-operand operations of Zbb. -/
def unOp (o : UnOp) (a : Word) : Word :=
  match o with
  | .clz => BitVec.ofNat 64 (clzNat 64 a.toNat)
  | .ctz => BitVec.ofNat 64 (ctzNat a.toNat 64)
  | .cpop => BitVec.ofNat 64 (popcountNat a.toNat 64)
  | .clzw => BitVec.ofNat 64 (clzNat 32 (lo32 a).toNat)
  | .ctzw => BitVec.ofNat 64 (ctzNat (lo32 a).toNat 32)
  | .cpopw => BitVec.ofNat 64 (popcountNat (lo32 a).toNat 32)
  | .sextb => (a.setWidth 8).signExtend 64
  | .sexth => (a.setWidth 16).signExtend 64
  | .zexth => (a.setWidth 16).setWidth 64
  | .orcb => BitVec.ofNat 64 (natOfBytes ((List.range 8).map fun i => if byteOf a i = 0#8 then 0#8 else 0xFF#8))
  | .rev8 => BitVec.ofNat 64 (natOfBytes ((List.range 8).map fun i => byteOf a (7 - i)))

/-- Whether a branch is taken. -/
def brTaken (c : BrOp) (a b : Word) : Bool :=
  match c with
  | .eq => a == b
  | .ne => a != b
  | .lt => decide (a.toInt < b.toInt)
  | .ge => decide (b.toInt ≤ a.toInt)
  | .ltu => decide (a < b)
  | .geu => decide (b ≤ a)

/-! ## Registers named -/

/-- The registers that a base operation names. -/
def baseNames (op : BaseOp) : Names :=
  let fp (xr xw fs : List RegIdx) : Names := { xNames xr xw .alone with fs := fs }
  match op with
  | .lui rd _ => xNames [] [rd] .alone
  | .auipc rd _ => xNames [] [rd] .alone
  | .jal rd _ => xNames [] [rd] .alone
  | .jalr rd rs1 _ => xNames [rs1] [rd] .alone
  | .branch _ rs1 rs2 _ => xNames [rs1, rs2] [] .alone
  | .opImm _ rd rs1 _ => xNames [rs1] [rd] .alone
  | .shift _ rd rs1 _ => xNames [rs1] [rd] .alone
  | .shiftW _ rd rs1 _ => xNames [rs1] [rd] .alone
  | .alu _ rd rs1 rs2 => xNames [rs1, rs2] [rd] .alone
  | .unary _ rd rs1 => xNames [rs1] [rd] .alone
  | .farith _ _ rd rs1 rs2 => fp [] [] [rs1, rs2, rd]
  | .fsqrt _ rd rs1 => fp [] [] [rs1, rd]
  | .ffused _ _ rd rs1 rs2 rs3 => fp [] [] [rs1, rs2, rs3, rd]
  | .fpair _ rd rs1 rs2 => fp [] [] [rs1, rs2, rd]
  | .fcmp _ rd rs1 rs2 => fp [] [rd] [rs1, rs2]
  | .fcvtToInt _ _ rd rs1 => fp [] [rd] [rs1]
  | .fcvtFromInt _ _ rd rs1 => fp [rs1] [] [rd]
  | .fmvXW rd rs1 => fp [] [rd] [rs1]
  | .fmvWX rd rs1 => fp [rs1] [] [rd]
  | .fclass rd rs1 => fp [] [rd] [rs1]
  | .ebreak => xNames [] [] .alone

/-! ## Meanings -/

/-- The hart writes an x register and goes on. -/
def setX (s : State) (h : Nat) (rd : RegIdx) (v : Word) : Res := .ok (s.modHart h fun y => y.wx rd v)

/-- The hart writes an f register, and flags. -/
def setF (s : State) (h : Nat) (rd : RegIdx) (r : W32 × FFlags) : Res :=
  .ok (s.modHart h fun y => (y.wf rd r.1).orFlags r.2)

/-- The hart writes an x register, and flags. -/
def setXF (s : State) (h : Nat) (rd : RegIdx) (v : Word) (f : FFlags) : Res :=
  .ok (s.modHart h fun y => (y.wx rd v).orFlags f)

/-- A jump to an address that is no multiple of 4 traps with cause 0 (IALIGN is 32, R141). -/
def jumpTo (s : State) (h : Nat) (rd : RegIdx) (link target : Word) : Res :=
  if target.toNat % 4 = 0 then .jump target (s.modHart h fun y => y.wx rd link) else .trap 0 target 0 s

/-- The rounding mode of an instruction: its rm field, or frm (R130). -/
def Hart.rounding (x : Hart) (rm : BitVec 3) : Option Rm := if rm = 7#3 then rmOf x.frm else rmOf rm

/-- The outcome of a base operation of the hart `h`, whose registers stand in `x`. -/
def baseRes (op : BaseOp) (h : Nat) (x : Hart) (s : State) : Res :=
  let illegal : Res := .trap 2 (bitsOfEnc (encode (.baseArithmetic op))) 0 s
  let rounded (rm : BitVec 3) (f : Rm → Res) : Res := match x.rounding rm with
    | some m => f m
    | none => illegal
  match op with
  | .lui rd imm => setX s h rd (uimm imm)
  | .auipc rd imm => setX s h rd (x.pc + uimm imm)
  | .jal rd imm => jumpTo s h rd (addrPlus x.pc 4) (x.pc + jalOff imm)
  | .jalr rd rs1 imm => jumpTo s h rd (addrPlus x.pc 4) ((x.rx rs1 + simm imm) &&& ~~~1#64)
  | .branch c rs1 rs2 imm =>
    if brTaken c (x.rx rs1) (x.rx rs2) then jumpTo s h 0#5 0#64 (x.pc + brOff imm) else .ok s
  | .opImm o rd rs1 imm => setX s h rd (immOp o (x.rx rs1) (simm imm))
  | .shift o rd rs1 sh => setX s h rd (shOp o (x.rx rs1) sh.toNat)
  | .shiftW o rd rs1 sh => setX s h rd (shWOp o (lo32 (x.rx rs1)) sh.toNat)
  | .alu o rd rs1 rs2 => setX s h rd (aluOp o (x.rx rs1) (x.rx rs2))
  | .unary o rd rs1 => setX s h rd (unOp o (x.rx rs1))
  | .farith o rm rd rs1 rs2 => rounded rm fun m => setF s h rd (farithOp o m (x.rf rs1) (x.rf rs2))
  | .fsqrt rm rd rs1 => rounded rm fun m => setF s h rd (fsqrtOp m (x.rf rs1))
  | .ffused o rm rd rs1 rs2 rs3 => rounded rm fun m => setF s h rd (ffusedOp o m (x.rf rs1) (x.rf rs2) (x.rf rs3))
  | .fpair o rd rs1 rs2 => setF s h rd (fpairOp o (x.rf rs1) (x.rf rs2))
  | .fcmp o rd rs1 rs2 =>
    let r := fcmpOp o (x.rf rs1) (x.rf rs2)
    setXF s h rd (BitVec.ofNat 64 (b2n r.1)) r.2
  | .fcvtToInt t rm rd rs1 => rounded rm fun m =>
    let r := fcvtToIntOp t m (x.rf rs1)
    setXF s h rd r.1 r.2
  | .fcvtFromInt t rm rd rs1 => rounded rm fun m => setF s h rd (fcvtFromIntOp t m (x.rx rs1))
  | .fmvXW rd rs1 => setX s h rd (sext32 (x.rf rs1))
  | .fmvWX rd rs1 => setF s h rd (lo32 (x.rx rs1), noFlags)
  | .fclass rd rs1 => setX s h rd (fclassOp (x.rf rs1))
  | .ebreak => .trap 3 (if Config.breakTval then x.pc else 0#64) 0 s

/-- BASE_ARITHMETIC (R141): a base operation computes, branches, jumps or breaks. -/
def execBaseArithmetic (op : BaseOp) (s : State) : Host.Outcome State Fault Refusal :=
  .next (runHart (.baseArithmetic op) (baseNames op) (baseRes op) s)

end Sys2Proof.Machine
end

