-- ==== Sys2Proof/Machine/BaseMem.lean ====
section
/-! DEFINITION. BASE_LOAD, BASE_STORE, AMO, LR and SC: the base's accesses, plain (R91, R93), the atomics at their ports
(R104) and their aq and rl bits (R103). -/

namespace Sys2Proof.Machine

open Sys2Proof

/-- The end of an instruction that read bytes: its destination is written, or it has consumed poison (R396). -/
def readDone (h : Nat) (fo : FormOp) (a : Word) (wr : List Byte → Hart → Hart) (n : Nat) (as : List PieceAns) (t : State) :
    Res :=
  if ansPoison as then .ok ((t.modHart h (wr (List.replicate n 0#8))).consumePoison h fo a)
  else .ok (t.modHart h (wr (ansBytes as)))

/-- The end of an instruction that wrote. -/
def wroteDone (_ : List PieceAns) (t : State) : Res := .ok t

/-- Where a base load writes: an x register, or an f register for FLW. -/
def loadDest (k : LoadW) (rd : RegIdx) (bs : List Byte) (y : Hart) : Hart :=
  match k with
  | .fw => y.wf rd (BitVec.ofNat 32 (natOfBytes bs))
  | _ => y.wx rd (loadValue k bs)

/-- The registers that a base load names. -/
def loadNames (k : LoadW) (rd rs1 : RegIdx) : Names :=
  match k with
  | .fw => { xNames [rs1] [] .enters with fs := [rd] }
  | _ => xNames [rs1] [rd] .enters

/-- BASE_LOAD (R93): a base load, performed after every earlier access of the hart. -/
def execBaseLoad (k : LoadW) (rd rs1 : RegIdx) (imm : BitVec 12) (s : State) : Host.Outcome State Fault Refusal :=
  let i : Instr := .baseLoad k rd rs1 imm
  .next (runHart i (loadNames k rd rs1) (fun h x s =>
    let a := x.baseAddr rs1 imm
    let n := loadBytes k
    (s.plain h x none false (loadWants a n n .load)).andThen (readDone h (formOf i) a (loadDest k rd) n)) s)

/-- The data of a base store: an x register, or an f register for FSW. -/
def Hart.storeSrc (x : Hart) (k : StoreW) (rs2 : RegIdx) : Word :=
  match k with
  | .fw => (x.rf rs2).setWidth 64
  | _ => x.rx rs2

/-- The registers that a base store names. -/
def storeNames (k : StoreW) (rs1 rs2 : RegIdx) : Names :=
  match k with
  | .fw => { xNames [rs1] [] .leaves with fs := [rs2] }
  | _ => xNames [rs1, rs2] [] .leaves

/-- BASE_STORE (R93, R113): a base store. -/
def execBaseStore (k : StoreW) (rs1 rs2 : RegIdx) (imm : BitVec 12) (s : State) : Host.Outcome State Fault Refusal :=
  .next (runHart (.baseStore k rs1 rs2 imm) (storeNames k rs1 rs2) (fun h x s =>
    let n := storeBytes k
    let ws := storeWants (x.baseAddr rs1 imm) n (storeData (x.storeSrc k rs2) n) none
    (s.plain h x (some ⟨n.log2, false⟩) false ws).andThen wroteDone) s)

/-- The condition of the rl bit (R103): R99 at .md, before the access. Nothing where the access may go. -/
def State.rlGate (s : State) (h : Nat) (x : Hart) (rl : Bool) : Option State :=
  if rl && x.plainOut.isNone && x.log.isEmpty then s.fenceGate h x .md else none

/-- An RV64A access of one port: alignment, the rl bit, and the plain access. The aq bit asks no more, since no later access
of the hart issues before a plain access is acknowledged (R93). -/
def State.atomicRes (s : State) (h : Nat) (x : Hart) (a : Word) (dbl rl : Bool) (cause : Nat) (act : Piece) (kind : AccKind)
    (trace : Option Traced) (done : List PieceAns → State → Res) : Res :=
  if a.toNat % dblBytes dbl ≠ 0 then .trap cause a 0 s
  else
    match s.rlGate h x rl with
    | some s1 => .wait 8 0#64 s1
    | none => (s.plain h x trace false (oneWant a act kind)).andThen done

/-- What rd receives from an RV64A access: the old value, sign-extended. -/
def amoDest (dbl : Bool) (rd : RegIdx) (bs : List Byte) (y : Hart) : Hart :=
  y.wx rd (extendTo true (dblBytes dbl) (natOfBytes bs))

/-- Log2 of an RV64A width. -/
def dblLog (dbl : Bool) : Nat := if dbl then 3 else 2

/-- AMO (R104): one indivisible read-modify-write at the home port. -/
def execAmo (op : AmoOp) (dbl aq rl : Bool) (rd rs1 rs2 : RegIdx) (s : State) : Host.Outcome State Fault Refusal :=
  let i : Instr := .amo op dbl aq rl rd rs1 rs2
  .next (runHart i (xNames [rs1, rs2] [rd] .leaves) (fun h x s =>
    let a := x.rx rs1
    s.atomicRes h x a dbl rl 6 (.amo op dbl (x.rx rs2)) .amo (some ⟨dblLog dbl, true⟩)
      (readDone h (formOf i) a (amoDest dbl rd) (dblBytes dbl))) s)

/-- LR (R104): reads, and sets the hart's reservation on the line at its port. -/
def execLr (dbl aq rl : Bool) (rd rs1 : RegIdx) (s : State) : Host.Outcome State Fault Refusal :=
  let i : Instr := .lr dbl aq rl rd rs1
  .next (runHart i (xNames [rs1] [rd] .leaves) (fun h x s =>
    let a := x.rx rs1
    s.atomicRes h x a dbl rl 4 (.lr dbl) .load none
      (readDone h (formOf i) a (amoDest dbl rd) (dblBytes dbl))) s)

/-- SC (R104): stores and writes 0 if the reservation is still valid at the port, else writes 1. -/
def execSc (dbl aq rl : Bool) (rd rs1 rs2 : RegIdx) (s : State) : Host.Outcome State Fault Refusal :=
  .next (runHart (.sc dbl aq rl rd rs1 rs2) (xNames [rs1, rs2] [rd] .leaves) (fun h x s =>
    s.atomicRes h x (x.rx rs1) dbl rl 6 (.sc dbl (x.rx rs2)) .store (some ⟨dblLog dbl, true⟩)
      (fun as t => setX t h rd (BitVec.ofNat 64 (b2n (!ansOk as))))) s)

end Sys2Proof.Machine
end

