-- ==== Sys2Proof/Machine/Vector.lean ====
section
/-! DEFINITION. The vector unit's instructions, custom-0 (R170 to R183). -/

namespace Sys2Proof.Machine

open Sys2Proof

/-! ## Shapes -/

/-- The end of an instruction that changes only its hart. -/
def hartOk (s : State) (h : Nat) (f : Hart → Hart) : Res := .ok (s.modHart h f)

/-- A lane operation of two sources, with flags. -/
def lanes2 (m : Bool) (vd vs1 vs2 : RegIdx) (f : W32 → W32 → W32 × FFlags) (h : Nat) (x : Hart) (s : State) : Res :=
  hartOk s h fun y => y.putLanesF m vd fun i => f (x.lane vs1 i) (x.lane vs2 i)

/-- A lane operation of two sources and the previous vd, with flags. -/
def lanes3 (m : Bool) (vd vs1 vs2 : RegIdx) (f : W32 → W32 → W32 → W32 × FFlags) (h : Nat) (x : Hart) (s : State) : Res :=
  hartOk s h fun y => y.putLanesF m vd fun i => f (x.lane vs1 i) (x.lane vs2 i) (x.lane vd i)

/-- A lane operation of one source, with flags. -/
def lanes1 (m : Bool) (vd vs1 : RegIdx) (f : W32 → W32 × FFlags) (h : Nat) (x : Hart) (s : State) : Res :=
  hartOk s h fun y => y.putLanesF m vd fun i => f (x.lane vs1 i)

/-- A lane operation that raises no flag, from the lane's number. -/
def lanesPlain (m : Bool) (vd : RegIdx) (f : Hart → Nat → W32) (h : Nat) (x : Hart) (s : State) : Res :=
  hartOk s h fun y => y.putLanes m vd (f x)

/-- A comparison (R175): all 16 bits of MASK or COND are written. -/
def lanesCmp (o : FCmp) (m : Bool) (ty : LaneTy) (cond : Bool) (vs1 vs2 : RegIdx) (h : Nat) (x : Hart) (s : State) : Res :=
  let r (i : Nat) : Bool × FFlags := laneCmp o ty (x.lane vs1 i) (x.lane vs2 i)
  let bits : BitVec 16 := BitVec.ofNat 16 ((x.active m).foldl (fun a i => if (r i).1 then a + 2 ^ i else a) 0)
  let flags := (x.active m).foldl (fun a i => a ||| (r i).2) noFlags
  hartOk s h fun y =>
    { y with pw := if cond then bits ++ y.mask else y.cond ++ bits }.orFlags flags

/-- A reduction (R133, R182): lane 0 receives the result, the others 0. -/
def lanesReduce (m : Bool) (vd vs1 : RegIdx) (ident : W32) (f : W32 → W32 → W32 × FFlags) (h : Nat) (x : Hart) (s : State) :
    Res :=
  let r := treeReduce f 4 (x.slots m vs1 ident)
  hartOk s h fun y => (y.wv vd (lanesOf fun i => if i = 0 then r.1 else 0#32)).orFlags r.2

/-- The shift amount of a lane (R174). -/
def laneShift (b : W32) : Nat := b.toNat % 32

/-! ## Arithmetic (R173) -/

/-- VADD (R173). -/
def execVadd (m : Bool) (ty : LaneTy) (vd vs1 vs2 : RegIdx) (s : State) : Host.Outcome State Fault Refusal :=
  .next (runHart (.vadd m ty vd vs1 vs2) (vNames [] [] [vd, vs1, vs2] [] .alone) (lanes2 m vd vs1 vs2 (laneAdd ty)) s)

/-- VSUB (R173). -/
def execVsub (m : Bool) (ty : LaneTy) (vd vs1 vs2 : RegIdx) (s : State) : Host.Outcome State Fault Refusal :=
  .next (runHart (.vsub m ty vd vs1 vs2) (vNames [] [] [vd, vs1, vs2] [] .alone) (lanes2 m vd vs1 vs2 (laneSub ty)) s)

/-- VMUL (R173). -/
def execVmul (m : Bool) (ty : LaneTy) (vd vs1 vs2 : RegIdx) (s : State) : Host.Outcome State Fault Refusal :=
  .next (runHart (.vmul m ty vd vs1 vs2) (vNames [] [] [vd, vs1, vs2] [] .alone) (lanes2 m vd vs1 vs2 (laneMul ty)) s)

/-- VMADD (R173, R130): one rounding. -/
def execVmadd (m : Bool) (ty : LaneTy) (vd vs1 vs2 : RegIdx) (s : State) : Host.Outcome State Fault Refusal :=
  .next (runHart (.vmadd m ty vd vs1 vs2) (vNames [] [] [vd, vs1, vs2] [] .alone) (lanes3 m vd vs1 vs2 (laneMadd ty)) s)

/-- VMSUB (R173, R130): one rounding. -/
def execVmsub (m : Bool) (ty : LaneTy) (vd vs1 vs2 : RegIdx) (s : State) : Host.Outcome State Fault Refusal :=
  .next (runHart (.vmsub m ty vd vs1 vs2) (vNames [] [] [vd, vs1, vs2] [] .alone) (lanes3 m vd vs1 vs2 (laneMsub ty)) s)

/-- VMIN (R173, R130). -/
def execVmin (m : Bool) (ty : LaneTy) (vd vs1 vs2 : RegIdx) (s : State) : Host.Outcome State Fault Refusal :=
  .next (runHart (.vmin m ty vd vs1 vs2) (vNames [] [] [vd, vs1, vs2] [] .alone) (lanes2 m vd vs1 vs2 (laneMin ty)) s)

/-- VMAX (R173, R130). -/
def execVmax (m : Bool) (ty : LaneTy) (vd vs1 vs2 : RegIdx) (s : State) : Host.Outcome State Fault Refusal :=
  .next (runHart (.vmax m ty vd vs1 vs2) (vNames [] [] [vd, vs1, vs2] [] .alone) (lanes2 m vd vs1 vs2 (laneMax ty)) s)

/-- VABS (R173). -/
def execVabs (m : Bool) (ty : LaneTy) (vd vs1 : RegIdx) (s : State) : Host.Outcome State Fault Refusal :=
  .next (runHart (.vabs m ty vd vs1) (vNames [] [] [vd, vs1] [] .alone) (lanes1 m vd vs1 (laneAbs ty)) s)

/-- VNEG (R173). -/
def execVneg (m : Bool) (ty : LaneTy) (vd vs1 : RegIdx) (s : State) : Host.Outcome State Fault Refusal :=
  .next (runHart (.vneg m ty vd vs1) (vNames [] [] [vd, vs1] [] .alone) (lanes1 m vd vs1 (laneNeg ty)) s)

/-! ## Logic and shifts (R174) -/

/-- VAND (R174). -/
def execVand (m : Bool) (vd vs1 vs2 : RegIdx) (s : State) : Host.Outcome State Fault Refusal :=
  .next (runHart (.vand m vd vs1 vs2) (vNames [] [] [vd, vs1, vs2] [] .alone) (lanesPlain m vd fun x i => x.lane vs1 i &&& x.lane vs2 i) s)

/-- VOR (R174). -/
def execVor (m : Bool) (vd vs1 vs2 : RegIdx) (s : State) : Host.Outcome State Fault Refusal :=
  .next (runHart (.vor m vd vs1 vs2) (vNames [] [] [vd, vs1, vs2] [] .alone) (lanesPlain m vd fun x i => x.lane vs1 i ||| x.lane vs2 i) s)

/-- VXOR (R174). -/
def execVxor (m : Bool) (vd vs1 vs2 : RegIdx) (s : State) : Host.Outcome State Fault Refusal :=
  .next (runHart (.vxor m vd vs1 vs2) (vNames [] [] [vd, vs1, vs2] [] .alone) (lanesPlain m vd fun x i => x.lane vs1 i ^^^ x.lane vs2 i) s)

/-- VSLL (R174). -/
def execVsll (m : Bool) (vd vs1 vs2 : RegIdx) (s : State) : Host.Outcome State Fault Refusal :=
  .next (runHart (.vsll m vd vs1 vs2) (vNames [] [] [vd, vs1, vs2] [] .alone) (lanesPlain m vd fun x i => x.lane vs1 i <<< laneShift (x.lane vs2 i)) s)

/-- VSRL (R174). -/
def execVsrl (m : Bool) (vd vs1 vs2 : RegIdx) (s : State) : Host.Outcome State Fault Refusal :=
  .next (runHart (.vsrl m vd vs1 vs2) (vNames [] [] [vd, vs1, vs2] [] .alone) (lanesPlain m vd fun x i => x.lane vs1 i >>> laneShift (x.lane vs2 i)) s)

/-- VSRA (R174). -/
def execVsra (m : Bool) (vd vs1 vs2 : RegIdx) (s : State) : Host.Outcome State Fault Refusal :=
  .next (runHart (.vsra m vd vs1 vs2) (vNames [] [] [vd, vs1, vs2] [] .alone) (lanesPlain m vd fun x i => (x.lane vs1 i).sshiftRight (laneShift (x.lane vs2 i))) s)

/-- VNOT (R174). -/
def execVnot (m : Bool) (vd vs1 : RegIdx) (s : State) : Host.Outcome State Fault Refusal :=
  .next (runHart (.vnot m vd vs1) (vNames [] [] [vd, vs1] [] .alone) (lanesPlain m vd fun x i => ~~~(x.lane vs1 i)) s)

/-! ## Comparisons and selection (R175, R176) -/

/-- VCMPEQ (R175). -/
def execVcmpeq (m : Bool) (ty : LaneTy) (cond : Bool) (vs1 vs2 : RegIdx) (s : State) : Host.Outcome State Fault Refusal :=
  .next (runHart (.vcmpeq m ty cond vs1 vs2) (vNames [] [] [vs1, vs2] [] .alone) (lanesCmp .eq m ty cond vs1 vs2) s)

/-- VCMPLT (R175). -/
def execVcmplt (m : Bool) (ty : LaneTy) (cond : Bool) (vs1 vs2 : RegIdx) (s : State) : Host.Outcome State Fault Refusal :=
  .next (runHart (.vcmplt m ty cond vs1 vs2) (vNames [] [] [vs1, vs2] [] .alone) (lanesCmp .lt m ty cond vs1 vs2) s)

/-- VCMPLE (R175). -/
def execVcmple (m : Bool) (ty : LaneTy) (cond : Bool) (vs1 vs2 : RegIdx) (s : State) : Host.Outcome State Fault Refusal :=
  .next (runHart (.vcmple m ty cond vs1 vs2) (vNames [] [] [vs1, vs2] [] .alone) (lanesCmp .le m ty cond vs1 vs2) s)

/-- VSEL (R176). -/
def execVsel (m : Bool) (vd vs1 vs2 : RegIdx) (s : State) : Host.Outcome State Fault Refusal :=
  .next (runHart (.vsel m vd vs1 vs2) (vNames [] [] [vd, vs1, vs2] [] .alone) (lanesPlain m vd fun x i => if x.cond.getLsbD i then x.lane vs1 i else x.lane vs2 i) s)

/-! ## Functions (R177) -/

/-- VRCP (R177, R131). -/
def execVrcp (m : Bool) (vd vs1 : RegIdx) (s : State) : Host.Outcome State Fault Refusal :=
  .next (runHart (.vrcp m vd vs1) (vNames [] [] [vd, vs1] [] .alone) (lanes1 m vd vs1 laneRcp) s)

/-- VRSQ (R177, R131). -/
def execVrsq (m : Bool) (vd vs1 : RegIdx) (s : State) : Host.Outcome State Fault Refusal :=
  .next (runHart (.vrsq m vd vs1) (vNames [] [] [vd, vs1] [] .alone) (lanes1 m vd vs1 laneRsq) s)

/-- VEXP2 (R177, R131). -/
def execVexp2 (m : Bool) (vd vs1 : RegIdx) (s : State) : Host.Outcome State Fault Refusal :=
  .next (runHart (.vexp2 m vd vs1) (vNames [] [] [vd, vs1] [] .alone) (lanes1 m vd vs1 laneExp2) s)

/-- VLOG2 (R177, R131). -/
def execVlog2 (m : Bool) (vd vs1 : RegIdx) (s : State) : Host.Outcome State Fault Refusal :=
  .next (runHart (.vlog2 m vd vs1) (vNames [] [] [vd, vs1] [] .alone) (lanes1 m vd vs1 laneLog2) s)

/-! ## Conversion and block scaling (R178 to R181) -/

/-- VCVT_TO_LANE_TYPE (R178). -/
def execVcvtToLaneType (m : Bool) (ty : LaneTy) (vd vs1 : RegIdx) (ef : BitVec 5) (s : State) : Host.Outcome State Fault Refusal :=
  .next (runHart (.vcvtToLaneType m ty vd vs1 ef) (vNames [] [] [vd, vs1] [] .alone) (lanes1 m vd vs1 (laneFromElem ty ef)) s)

/-- VCVT_TO_NARROW (R178). -/
def execVcvtToNarrow (m : Bool) (ty : LaneTy) (vd vs1 : RegIdx) (ef : BitVec 5) (s : State) : Host.Outcome State Fault Refusal :=
  .next (runHart (.vcvtToNarrow m ty vd vs1 ef) (vNames [] [] [vd, vs1] [] .alone) (lanes1 m vd vs1 (laneToElem ty ef false)) s)

/-- VCVT_TO_NARROW_SAT (R178). -/
def execVcvtToNarrowSat (m : Bool) (ty : LaneTy) (vd vs1 : RegIdx) (ef : BitVec 5) (s : State) : Host.Outcome State Fault Refusal :=
  .next (runHart (.vcvtToNarrowSat m ty vd vs1 ef) (vNames [] [] [vd, vs1] [] .alone) (lanes1 m vd vs1 (laneToElem ty ef true)) s)

/-- The scale of a vquant and the flag that finding it raises (R179). -/
def Hart.quantScale (x : Hart) (m : Bool) (E : ElemFmt) (vs1 : RegIdx) (sel : Nat) : Nat × FFlags :=
  if bitsOf sel 9 1 = 1 then
    let a := f32 (maxAbs ((x.active m).map (x.lane vs1)))
    (s9For a E, match a with
      | .fin _ _ _ => noFlags
      | _ => flagNV)
  else (bitsOf sel 0 9, noFlags)

/-- The element that a vquant writes for lane `i`, with its flags: 0 for an inactive lane and under the invalid scale. -/
def Hart.quantAt (x : Hart) (m : Bool) (E : ElemFmt) (vs1 : RegIdx) (s9 i : Nat) : Nat × FFlags :=
  if x.act m i && !(s9Bad s9) then quantElem E s9 (x.lane vs1 i) else (0, noFlags)

/-- A line with its segment replaced (R179): element 16 SEG + i for every lane within the line, and zero padding. -/
def quantLine (E : ElemFmt) (seg : Nat) (f : Nat → Nat) (line : Nat) : Nat :=
  let r := (List.range 16).foldl (fun l i =>
    let j := 16 * seg + i
    if j < elemsPerLine E.width then putBits l (E.width * j) E.width (f i) else l) line
  if E.width = 6 then r % 2 ^ 510 else r

/-- VQUANT (R179): one segment of a packed line, with VQ and VTAG. -/
def quantHart (m : Bool) (q : BitVec 3) (vd vs1 rs2 : RegIdx) (x y : Hart) : Hart :=
  let E := quantFmt q
  let sel := (x.rx rs2).toNat
  let seg := bitsOf sel 16 3
  let sc := x.quantScale m E vs1 sel
  let f (i : Nat) : Nat × FFlags := x.quantAt m E vs1 sc.1 i
  let inLine := (List.range 16).filter fun i => decide (16 * seg + i < elemsPerLine E.width)
  let flags := inLine.foldl (fun a i => a ||| (f i).2) sc.2
  let line := quantLine E seg (fun i => (f i).1) (x.lineNat vd)
  let v : VReg :=
    ⟨lanesOf fun i => BitVec.ofNat 32 (bitsOf line (32 * i) 32), BitVec.ofNat 16 (E.code * 512 + sc.1), true⟩
  (y.wvq vd v).orFlags flags

/-- VQUANT (R179). -/
def execVquant (m : Bool) (q : BitVec 3) (vd vs1 rs2 : RegIdx) (s : State) : Host.Outcome State Fault Refusal :=
  .next (runHart (.vquant m q vd vs1 rs2) (vNames [rs2] [] [vd, vs1] [] .alone) (fun h x s => hartOk s h (quantHart m q vd vs1 rs2 x)) s)

/-- One lane of a vdequant (R180): the canonical NaN with NV where the register is not quantised under a valid tag. -/
def Hart.dequantAt (x : Hart) (vs1 : RegIdx) (i : Nat) : W32 × FFlags :=
  let r := x.rv vs1
  let code := r.tag.toNat / 512
  let s9 := r.tag.toNat % 512
  match fmtOfCode code with
  | some E =>
    if r.q && isQuantCode code && !(s9Bad s9) then dequantElem E s9 (elemAt (x.lineNat vs1) E.width i) else (nan32, flagNV)
  | none => (nan32, flagNV)

/-- VDEQUANT (R180). -/
def execVdequant (m : Bool) (vd vs1 : RegIdx) (s : State) : Host.Outcome State Fault Refusal :=
  .next (runHart (.vdequant m vd vs1) (vNames [] [] [vd, vs1] [] .alone) (fun h x s => hartOk s h fun y => y.putLanesF m vd (x.dequantAt vs1)) s)

/-- VAMAX (R181): the largest magnitude of the active lanes, in every lane. -/
def execVamax (m : Bool) (vd vs1 : RegIdx) (s : State) : Host.Outcome State Fault Refusal :=
  .next (runHart (.vamax m vd vs1) (vNames [] [] [vd, vs1] [] .alone) (fun h x s =>
    let ls := (x.active m).map (x.lane vs1)
    hartOk s h fun y =>
      (y.wv vd (lanesOf fun _ => maxAbs ls)).orFlags (if ls.any fun a => (f32 a).isSig then flagNV else noFlags)) s)

/-! ## Reductions (R182) -/

/-- VREDSUM (R182, R133). -/
def execVredsum (m : Bool) (ty : LaneTy) (vd vs1 : RegIdx) (s : State) : Host.Outcome State Fault Refusal :=
  .next (runHart (.vredsum m ty vd vs1) (vNames [] [] [vd, vs1] [] .alone) (lanesReduce m vd vs1 (sumIdent ty) (laneAdd ty)) s)

/-- VREDMAX (R182, R133). -/
def execVredmax (m : Bool) (ty : LaneTy) (vd vs1 : RegIdx) (s : State) : Host.Outcome State Fault Refusal :=
  .next (runHart (.vredmax m ty vd vs1) (vNames [] [] [vd, vs1] [] .alone) (lanesReduce m vd vs1 (maxIdent ty) (laneMax ty)) s)

/-- VREDMIN (R182, R133). -/
def execVredmin (m : Bool) (ty : LaneTy) (vd vs1 : RegIdx) (s : State) : Host.Outcome State Fault Refusal :=
  .next (runHart (.vredmin m ty vd vs1) (vNames [] [] [vd, vs1] [] .alone) (lanesReduce m vd vs1 (minIdent ty) (laneMin ty)) s)

/-! ## Moves and permutes (R183) -/

/-- VBCAST (R183). -/
def execVbcast (m : Bool) (vd rs1 : RegIdx) (s : State) : Host.Outcome State Fault Refusal :=
  .next (runHart (.vbcast m vd rs1) (vNames [rs1] [] [vd] [] .alone) (lanesPlain m vd fun x _ => lo32 (x.rx rs1)) s)

/-- VEXTR (R183): no v register is written. -/
def execVextr (m : Bool) (rd vs1 : RegIdx) (lane : BitVec 4) (s : State) : Host.Outcome State Fault Refusal :=
  .next (runHart (.vextr m rd vs1 lane) (vNames [] [rd] [vs1] [] .alone) (fun h x s =>
    setX s h rd (if x.act m lane.toNat then sext32 (x.lane vs1 lane.toNat) else 0#64)) s)

/-- VINS (R183). -/
def execVins (m : Bool) (vd rs1 : RegIdx) (lane : BitVec 4) (s : State) : Host.Outcome State Fault Refusal :=
  .next (runHart (.vins m vd rs1 lane) (vNames [rs1] [] [vd] [] .alone) (lanesPlain m vd fun x i => if i = lane.toNat then lo32 (x.rx rs1) else x.lane vd i) s)

/-- VPERM (R183). -/
def execVperm (m : Bool) (vd vs1 vs2 : RegIdx) (s : State) : Host.Outcome State Fault Refusal :=
  .next (runHart (.vperm m vd vs1 vs2) (vNames [] [] [vd, vs1, vs2] [] .alone) (lanesPlain m vd fun x i =>
    if (x.lane vs2 i).toNat < 16 then x.lane vs1 (x.lane vs2 i).toNat else 0#32) s)

/-- VSLIDE (R183). -/
def execVslide (m : Bool) (vd vs1 : RegIdx) (n : BitVec 5) (s : State) : Host.Outcome State Fault Refusal :=
  .next (runHart (.vslide m vd vs1 n) (vNames [] [] [vd, vs1] [] .alone) (lanesPlain m vd fun x i =>
    let j : Int := (i : Int) - n.toInt
    if 0 ≤ j ∧ j ≤ 15 then x.lane vs1 j.toNat else 0#32) s)

/-- VZIP (R183). -/
def execVzip (m : Bool) (vd vs1 vs2 : RegIdx) (s : State) : Host.Outcome State Fault Refusal :=
  .next (runHart (.vzip m vd vs1 vs2) (vNames [] [] [vd, vs1, vs2] [] .alone) (lanesPlain m vd fun x i => if i % 2 = 0 then x.lane vs1 (i / 2) else x.lane vs2 (i / 2)) s)

/-- VUNZIP (R183). -/
def execVunzip (m : Bool) (vd vs1 vs2 : RegIdx) (s : State) : Host.Outcome State Fault Refusal :=
  .next (runHart (.vunzip m vd vs1 vs2) (vNames [] [] [vd, vs1, vs2] [] .alone) (lanesPlain m vd fun x i => if i < 8 then x.lane vs1 (2 * i) else x.lane vs2 (2 * i - 16)) s)

/-- VMOV (R183): VQ and VTAG are cleared. -/
def execVmov (m : Bool) (vd vs1 : RegIdx) (s : State) : Host.Outcome State Fault Refusal :=
  .next (runHart (.vmov m vd vs1) (vNames [] [] [vd, vs1] [] .alone) (lanesPlain m vd fun x i => x.lane vs1 i) s)

end Sys2Proof.Machine
end

