-- ==== Sys2Proof/Machine/VecMem.lean ====
section
/-! DEFINITION. The memory and tag instructions, custom-1 (R184 to R190). -/

namespace Sys2Proof.Machine

open Sys2Proof

/-! ## Relaxed accesses -/

/-- A relaxed store's failure carries FORM 4 (R376). -/
def drainForm : FormOp := ⟨4, 0⟩

/-- Issues a relaxed load where R94 lets it. -/
def relaxedLoad (s : State) (h : Nat) (x : Hart) (ws : List Want) (dst : LoadDst) (fo : FormOp) (kind : Nat) : Res :=
  if s.relaxedOk h ws then .ok (s.loadIssue h x ws dst fo kind) else .wait 9 0#64 s

/-- Issues a relaxed store where R94 and the post buffer let it (R95). -/
def relaxedStore (s : State) (h : Nat) (x : Hart) (ws : List Want) : Res :=
  if s.relaxedOk h ws && s.storeRoom x ws then .ok (s.storeIssue h x ws drainForm [] false) else .wait 9 0#64 s

/-- A plain store of these pieces, of a traced width. -/
def plainStore (s : State) (h : Nat) (x : Hart) (size : Nat) (ws : List Want) : Res :=
  (s.plain h x (some ⟨size, false⟩) false ws).andThen wroteDone

/-! ## Relaxed scalar accesses (R188) -/

/-- LRX (R188). -/
def execLrx (k : LrxW) (rd rs1 : RegIdx) (off : BitVec 7) (s : State) : Host.Outcome State Fault Refusal :=
  let i : Instr := .lrx k rd rs1 off
  .next (runHart i (xNames [rs1] [rd] .enters) (fun h x s =>
    relaxedLoad s h x (loadWants (x.dmAddr rs1 off 1) (lrxBytes k) (lrxBytes k) .load) (.x rd k) (formOf i) 0) s)

/-- SRX (R188). -/
def execSrx (k : BitVec 2) (rt rs1 : RegIdx) (off : BitVec 7) (s : State) : Host.Outcome State Fault Refusal :=
  .next (runHart (.srx k rt rs1 off) (xNames [rs1, rt] [] .leaves) (fun h x s =>
    let n := 2 ^ k.toNat
    relaxedStore s h x (storeWants (x.dmAddr rs1 off 1) n (storeData (x.rx rt) n) none)) s)

/-! ## Lines (R185) -/

/-- Writes loaded words to the active lanes, in lane order. -/
def putWords (vd : RegIdx) (bs : List Byte) (y : Hart) : Hart := y.putLanes false vd (wordOfBytes bs)

/-- A load into a v register that consumed poison writes it 0 (R396). -/
def vreadDone (h : Nat) (fo : FormOp) (a : Word) (vd : RegIdx) (wr : List PieceAns → Hart → Hart) (as : List PieceAns)
    (t : State) : Res :=
  if ansPoison as then .ok ((t.modHart h fun y => y.wv vd (lanesOf fun _ => 0#32)).consumePoison h fo a)
  else .ok (t.modHart h (wr as))

/-- VLD (R185). -/
def execVld (rx : Bool) (v rs1 : RegIdx) (off : BitVec 7) (s : State) : Host.Outcome State Fault Refusal :=
  let i : Instr := .vld rx v rs1 off
  .next (runHart i (vNames [rs1] [] [v] [] .enters) (fun h x s =>
    let a := x.dmAddr rs1 off 64
    let ws := loadWants a 64 (4 * (x.active false).length) .load
    if rx then relaxedLoad s h x ws (.v v (x.active false)) (formOf i) 2
    else (s.plain h x none false ws).andThen (vreadDone h (formOf i) a v fun as => putWords v (ansBytes as))) s)

/-- VST (R185). -/
def execVst (rx : Bool) (v rs1 : RegIdx) (off : BitVec 7) (s : State) : Host.Outcome State Fault Refusal :=
  .next (runHart (.vst rx v rs1 off) (vNames [rs1] [] [v] [] .leaves) (fun h x s =>
    let a := x.dmAddr rs1 off 64
    let ws := storeWants a 64 (x.laneBytes v false) (x.vstTag v a)
    if rx then relaxedStore s h x ws else plainStore s h x 6 ws) s)

/-! ## Strided and indexed lanes (R186) -/

/-- The pieces of a load of one gathered group. -/
def Gather.loads (g : Gather) : List Want :=
  if inLine4 g.va then
    let lo := g.lanes.foldl (fun m l => min m (l.2.toNat % 64)) 63
    oneWant (addrPlus (lineOf g.va) lo) (.pick (g.lanes.map fun l => l.2.toNat % 64 - lo)) .load
  else loadWants g.va 4 4 .load

/-- Puts the bytes of a word at an offset of a list of bytes. -/
def putAt (bs : List (Option Byte)) (o : Nat) (w : List (Option Byte)) : List (Option Byte) := bs.take o ++ w ++ bs.drop (o + w.length)

/-- The pieces of a store of one gathered group: the highest lane that addresses a byte wins. -/
def Gather.stores (g : Gather) (val : Nat → W32) : List Want :=
  if inLine4 g.va then
    let lo := g.lanes.foldl (fun m l => min m (l.2.toNat % 64)) 63
    let bs := g.lanes.foldl (fun b l => putAt b (l.2.toNat % 64 - lo) (storeData ((val l.1).setWidth 64) 4))
      (List.replicate (64 - lo) none)
    oneWant (addrPlus (lineOf g.va) lo) (.store (trimBytes bs) none) .store
  else
    match g.lanes with
    | l :: _ => storeWants g.va 4 (storeData ((val l.1).setWidth 64) 4) none
    | [] => []

/-- The groups of the active lanes with these addresses. -/
def Hart.gathers (x : Hart) (addr : Nat → Word) : List Gather := gather ((x.active false).map fun i => (i, addr i))

/-- The pieces of a load of the active lanes. -/
def Hart.gatherLoads (x : Hart) (addr : Nat → Word) : List Want := ((x.gathers addr).map Gather.loads).foldr (· ++ ·) []

/-- The pieces of a store of the active lanes. -/
def Hart.scatterStores (x : Hart) (addr : Nat → Word) (v : RegIdx) : List Want :=
  ((x.gathers addr).map fun g => g.stores (x.lane v)).foldr (· ++ ·) []

/-- VLDS (R186). -/
def execVlds (rx : Bool) (v rs1 rs2 : RegIdx) (s : State) : Host.Outcome State Fault Refusal :=
  let i : Instr := .vlds rx v rs1 rs2
  .next (runHart i (vNames [rs1, rs2] [] [v] [] .enters) (fun h x s =>
    let ws := x.gatherLoads (x.strideAddr rs1 rs2)
    if rx then relaxedLoad s h x ws (.v v (x.active false)) (formOf i) 3
    else (s.plain h x none false ws).andThen (vreadDone h (formOf i) (x.rx rs1) v fun as => putWords v (ansBytes as))) s)

/-- VSTS (R186). -/
def execVsts (rx : Bool) (v rs1 rs2 : RegIdx) (s : State) : Host.Outcome State Fault Refusal :=
  .next (runHart (.vsts rx v rs1 rs2) (vNames [rs1, rs2] [] [v] [] .leaves) (fun h x s =>
    let ws := x.scatterStores (x.strideAddr rs1 rs2) v
    if rx then relaxedStore s h x ws else plainStore s h x 2 ws) s)

/-- VLDX (R186). -/
def execVldx (rx : Bool) (v rs1 vs2 : RegIdx) (s : State) : Host.Outcome State Fault Refusal :=
  let i : Instr := .vldx rx v rs1 vs2
  .next (runHart i (vNames [rs1] [] [v, vs2] [] .enters) (fun h x s =>
    let ws := x.gatherLoads (x.indexAddr rs1 vs2)
    if rx then relaxedLoad s h x ws (.v v (x.active false)) (formOf i) 4
    else (s.plain h x none false ws).andThen (vreadDone h (formOf i) (x.rx rs1) v fun as => putWords v (ansBytes as))) s)

/-- VSTX (R186). -/
def execVstx (rx : Bool) (v rs1 vs2 : RegIdx) (s : State) : Host.Outcome State Fault Refusal :=
  .next (runHart (.vstx rx v rs1 vs2) (vNames [rs1] [] [v, vs2] [] .leaves) (fun h x s =>
    let ws := x.scatterStores (x.indexAddr rs1 vs2) v
    if rx then relaxedStore s h x ws else plainStore s h x 2 ws) s)

/-! ## Lines through their tags (R187) -/

/-- What vldl writes: segment `seg` of a line under its tag, and the tag as VTAG. -/
def vldlHart (vd : RegIdx) (seg : BitVec 3) (as : List PieceAns) (y : Hart) : Hart :=
  let line := natOfBytes (ansBytes as)
  let tag := ansTag as
  let z := y.putLanesF false vd fun i => vldlElem line tag (16 * seg.toNat + i)
  z.wvq vd ⟨z.lanes vd, tag, false⟩

/-- VLDL (R187). -/
def execVldl (vd rs1 : RegIdx) (off : BitVec 7) (seg : BitVec 3) (s : State) : Host.Outcome State Fault Refusal :=
  let i : Instr := .vldl vd rs1 off seg
  .next (runHart i (vNames [rs1] [] [vd] [] .enters) (fun h x s =>
    let a := lineOf (x.dmAddr rs1 off 64)
    (s.plain h x none true (oneWant a (.load 64) .load)).andThen (vreadDone h (formOf i) a vd (vldlHart vd seg))) s)

/-! ## Bit-granular access (R189, R88) -/

/-- The address of the word that holds a bit. -/
def bitWord (b : Nat) : Word := BitVec.ofNat 64 (b / 32 * 4)

/-- The address of the byte that holds a bit. -/
def bitByte (b : Nat) : Word := BitVec.ofNat 64 (b / 8)

/-- Whether an element of `w` bits at bit `b` lies in window space. -/
def bitInside (b w : Nat) : Bool := inWindowSpace (bitWord b) && inWindowSpace (bitWord (b + w - 1))

/-- The first element that lies outside window space. -/
def bitOutside (w : Nat) (bs : List Nat) : Option Nat := bs.find? fun b => !(bitInside b w)

/-- The words that a span of bits touches, one piece for each granule in increasing address order. In the mailbox slots, which are bound
together, every multiple of 16 KiB counts as the end of a granule (DESIGN CHOICE; log 141). -/
def spanLoads (lo hi : Nat) : List Want :=
  let a := bitWord lo
  let n := (hi / 32 - lo / 32 + 1) * 4
  let room := 2 ^ 14 - a.toNat % 2 ^ 14
  if n ≤ room then oneWant a (.load n) .load
  else [⟨a, .load room, .load, true⟩, ⟨addrPlus a room, .load (n - room), .load, false⟩]

/-- An element (its first bit, its width, its value), cut where its two words lie in two granules. -/
def cutElem (e : Nat × Nat × W32) : List (Nat × Nat × W32) :=
  let room := 2 ^ 17 - e.1 % 2 ^ 17
  if e.2.1 ≤ room then [e] else [(e.1, room, e.2.2), (e.1 + room, e.2.1 - room, e.2.2 >>> room)]

/-- One piece that writes elements of one granule, in order. -/
def bitPiece (first : Bool) (es : List (Nat × Nat × W32)) : List Want := match es with
  | [] => []
  | e :: _ =>
    let w0 := e.1 / 32
    let last := es.foldl (fun m q => max m ((q.1 + q.2.1 - 1) / 32)) w0
    [⟨bitWord e.1, .bits (4 * (last - w0 + 1)) (es.map fun q => (q.1 - 32 * w0, q.2)), .store, first⟩]

/-- Log2 of the bytes that a piece of a bit-granular store touches, for its record on a traced page; above 3 for more than two words
(R114; DESIGN CHOICE, log 140). -/
def bitSize (ws : List Want) : Nat :=
  let n := ws.foldl (fun m w => max m w.act.width) 0
  if n ≤ 4 then 2 else if n ≤ 8 then 3 else 4

/-- A bit-granular plain store of these pieces. -/
def bitStore (s : State) (h : Nat) (x : Hart) (ws : List Want) : Res := plainStore s h x (bitSize ws) ws

/-- The pieces of a store of elements in increasing order: one for each granule of their span. -/
def bitStores (es : List (Nat × Nat × W32)) : List Want :=
  let ps := (es.map cutElem).flatten
  match ps with
  | [] => []
  | p :: _ =>
    let edge := (p.1 / 2 ^ 17 + 1) * 2 ^ 17
    bitPiece true (ps.filter fun q => decide (q.1 < edge)) ++ bitPiece false (ps.filter fun q => decide (edge ≤ q.1))

/-- An element of `w` bits at bit `b`, from the bytes of a span that begins with the word of bit `lo`. -/
def spanElem (bs : List Byte) (lo b w : Nat) : Nat := bitsOf (natOfBytes bs) (b - lo / 32 * 32) w

/-- LDBIT (R189). -/
def execLdbit (r rs1 rs2 : RegIdx) (w : BitVec 5) (s : State) : Host.Outcome State Fault Refusal :=
  let i : Instr := .ldbit r rs1 rs2 w
  .next (runHart i (xNames [rs1, rs2] [r] .enters) (fun h x s =>
    let b := x.bitAddr rs1 rs2
    let n := bitWidth w
    if !(bitInside b n) then .trap 5 (bitByte b) 0 s
    else
      (s.plain h x none false (spanLoads b (b + n - 1))).andThen fun as t =>
        if ansPoison as then .ok ((t.modHart h fun y => y.wx r 0#64).consumePoison h (formOf i) (bitByte b))
        else setX t h r (BitVec.ofNat 64 (spanElem (ansBytes as) b b n))) s)

/-- STBIT (R189). -/
def execStbit (r rs1 rs2 : RegIdx) (w : BitVec 5) (s : State) : Host.Outcome State Fault Refusal :=
  .next (runHart (.stbit r rs1 rs2 w) (xNames [rs1, rs2, r] [] .leaves) (fun h x s =>
    let b := x.bitAddr rs1 rs2
    let n := bitWidth w
    if !(bitInside b n) then .trap 7 (bitByte b) 0 s
    else bitStore s h x (bitStores [(b, n, lo32 (x.rx r))])) s)

/-- The first bits of the elements of the active lanes. -/
def Hart.laneBits (x : Hart) (b w : Nat) : List Nat := (x.active false).map fun i => b + i * w

/-- VLDBIT (R189). -/
def execVldbit (r rs1 rs2 : RegIdx) (w : BitVec 5) (s : State) : Host.Outcome State Fault Refusal :=
  let i : Instr := .vldbit r rs1 rs2 w
  .next (runHart i (vNames [rs1, rs2] [] [r] [] .enters) (fun h x s =>
    let b := x.bitAddr rs1 rs2
    let n := bitWidth w
    let bs := x.laneBits b n
    match bitOutside n bs with
    | some o => .trap 5 (bitByte o) 0 s
    | none =>
      (s.plain h x none false (spanLoads b (b + bs.length * n - 1))).andThen
        (vreadDone h (formOf i) (bitByte b) r fun as y =>
          y.putLanes false r fun k => BitVec.ofNat 32 (spanElem (ansBytes as) b (b + k * n) n))) s)

/-- VSTBIT (R189). -/
def execVstbit (r rs1 rs2 : RegIdx) (w : BitVec 5) (s : State) : Host.Outcome State Fault Refusal :=
  .next (runHart (.vstbit r rs1 rs2 w) (vNames [rs1, rs2] [] [r] [] .leaves) (fun h x s =>
    let b := x.bitAddr rs1 rs2
    let n := bitWidth w
    match bitOutside n (x.laneBits b n) with
    | some o => .trap 7 (bitByte o) 0 s
    | none =>
      bitStore s h x (bitStores ((x.active false).map fun k => (b + k * n, n, x.lane r k)))) s)

/-! ## Tags (R190) -/

/-- LDTAG (R190). -/
def execLdtag (r rs1 : RegIdx) (off : BitVec 7) (s : State) : Host.Outcome State Fault Refusal :=
  .next (runHart (.ldtag r rs1 off) (xNames [rs1] [r] .enters) (fun h x s =>
    (s.plain h x none true (oneWant (lineOf (x.dmAddr rs1 off 64)) (.load 0) .load)).andThen fun as t =>
      setX t h r ((ansTag as).setWidth 64)) s)

/-- STTAG (R190). -/
def execSttag (r rs1 : RegIdx) (off : BitVec 7) (s : State) : Host.Outcome State Fault Refusal :=
  .next (runHart (.sttag r rs1 off) (xNames [rs1, r] [] .leaves) (fun h x s =>
    plainStore s h x 1
      (oneWant (lineOf (x.dmAddr rs1 off 64)) (.store [] (some ((x.rx r).extractLsb' 0 16))) .store)) s)

end Sys2Proof.Machine
end

