-- ==== Sys2Proof/Machine/Order.lean ====
section
/-! DEFINITION. Fences (R102, R103, R242), acquire loads and release stores (R99, R101, R243). -/

namespace Sys2Proof.Machine

open Sys2Proof

/-! ## Fences -/

/-- A fence at a scope: the hart waits until the condition of R99 holds for every earlier access. -/
def fenceRes (sc : Scope) (done : State → Res) (h : Nat) (x : Hart) (s : State) : Res :=
  match s.fenceGate h x sc with
  | some s1 => .wait 10 0#64 s1
  | none => done s

/-- FENCE_S (R242). -/
def execFenceS (sc : Scope) (s : State) : Host.Outcome State Fault Refusal :=
  .next (runHart (.fenceS sc) (xNames [] [] .leaves) (fenceRes sc .ok) s)

/-- The scope of a FENCE by its sets (R103): nothing for an empty set; I or O asks for the system. -/
def fenceScope (pred succ : BitVec 4) : Option Scope :=
  if pred = 0#4 ∨ succ = 0#4 then none
  else if pred &&& 0xC#4 ≠ 0#4 ∨ succ &&& 0xC#4 ≠ 0#4 then some .sys
  else some .md

/-- FENCE (R103). Its register fields name no register. -/
def execFence (fm pred succ : BitVec 4) (rd rs1 : RegIdx) (s : State) : Host.Outcome State Fault Refusal :=
  .next (runHart (.fence fm pred succ rd rs1) (xNames [] [] .leaves) (fun h x s =>
    match fenceScope pred succ with
    | some sc => fenceRes sc .ok h x s
    | none => .ok s) s)

/-- FENCE_TSO (R103): fence.s.md. -/
def execFenceTso (rd rs1 : RegIdx) (s : State) : Host.Outcome State Fault Refusal :=
  .next (runHart (.fenceTso rd rs1) (xNames [] [] .leaves) (fenceRes .md .ok) s)

/-- FENCE_I (R103): fence.s.md, then the whole instruction cache of the hart's core is invalidated. -/
def execFenceI (imm : BitVec 12) (rd rs1 : RegIdx) (s : State) : Host.Outcome State Fault Refusal :=
  .next (runHart (.fenceI imm rd rs1) (xNames [] [] .leaves) (fun h x s =>
    fenceRes .md (fun t => .ok (t.modCore x.core fun c => { c with icache := [] })) h x s) s)

/-- SFENCE_VMA (R141): fence.s.md in S-mode, and nothing is invalidated; in U-mode an illegal instruction. -/
def execSfenceVma (rs1 rs2 : RegIdx) (s : State) : Host.Outcome State Fault Refusal :=
  let i : Instr := .sfenceVma rs1 rs2
  let user : Bool := match s.hart? s.cur with
    | some x => x.priv == .u
    | none => false
  .next (if user then runHart i (xNames [] [] .alone) (fun _ _ s => .trap 2 (bitsOfEnc (encode i)) 0 s) s
    else runHart i (xNames [rs1, rs2] [] .leaves) (fenceRes .md .ok) s)

/-! ## Acquires and releases -/

/-- An acquire load of an aligned address (R243). -/
def acquireRes (i : Instr) (k : LrxW) (rd rs1 : RegIdx) (h : Nat) (x : Hart) (s : State) : Res :=
  let a := x.rx rs1
  if a.toNat % lrxBytes k ≠ 0 then .trap 4 a 0 s
  else relaxedLoad s h x (oneWant a (.load (lrxBytes k)) .load) (.x rd k) (formOf i) 1

/-- A release store of an aligned address (R243, R99): every earlier access completes, the older entries of the scope
drain, and the store is performed after them. -/
def releaseRes (sc : Scope) (n : Nat) (rs2 rs1 : RegIdx) (h : Nat) (x : Hart) (s : State) : Res :=
  let a := x.rx rs1
  if a.toNat % n ≠ 0 then .trap 6 a 0 s
  else
    let ws := oneWant a (.store (storeData (x.rx rs2) n) none) .store
    if (scopeWaits sc && !(s.incomplete h).isEmpty) || !(s.relaxedOk h ws) || !(s.storeRoom x ws) then .wait 9 0#64 s
    else
      let old := s.olderEntries h x sc
      let wide : Bool := match sc with
        | .fd | .md | .sys => true
        | _ => false
      .ok ((s.drain old).storeIssue h x ws drainForm old wide)

/-- LD_AQ_B (R243). -/
def execLdAqB (sc : Scope) (rd rs1 : RegIdx) (s : State) : Host.Outcome State Fault Refusal :=
  let i : Instr := .ldAqB sc rd rs1
  .next (runHart i (xNames [rs1] [rd] .enters) (acquireRes i .b rd rs1) s)

/-- LD_AQ_H (R243). -/
def execLdAqH (sc : Scope) (rd rs1 : RegIdx) (s : State) : Host.Outcome State Fault Refusal :=
  let i : Instr := .ldAqH sc rd rs1
  .next (runHart i (xNames [rs1] [rd] .enters) (acquireRes i .h rd rs1) s)

/-- LD_AQ_W (R243). -/
def execLdAqW (sc : Scope) (rd rs1 : RegIdx) (s : State) : Host.Outcome State Fault Refusal :=
  let i : Instr := .ldAqW sc rd rs1
  .next (runHart i (xNames [rs1] [rd] .enters) (acquireRes i .w rd rs1) s)

/-- LD_AQ_D (R243). -/
def execLdAqD (sc : Scope) (rd rs1 : RegIdx) (s : State) : Host.Outcome State Fault Refusal :=
  let i : Instr := .ldAqD sc rd rs1
  .next (runHart i (xNames [rs1] [rd] .enters) (acquireRes i .d rd rs1) s)

/-- ST_RL_B (R243). -/
def execStRlB (sc : Scope) (rs2 rs1 : RegIdx) (s : State) : Host.Outcome State Fault Refusal :=
  .next (runHart (.stRlB sc rs2 rs1) (xNames [rs1, rs2] [] .leaves) (releaseRes sc 1 rs2 rs1) s)

/-- ST_RL_H (R243). -/
def execStRlH (sc : Scope) (rs2 rs1 : RegIdx) (s : State) : Host.Outcome State Fault Refusal :=
  .next (runHart (.stRlH sc rs2 rs1) (xNames [rs1, rs2] [] .leaves) (releaseRes sc 2 rs2 rs1) s)

/-- ST_RL_W (R243). -/
def execStRlW (sc : Scope) (rs2 rs1 : RegIdx) (s : State) : Host.Outcome State Fault Refusal :=
  .next (runHart (.stRlW sc rs2 rs1) (xNames [rs1, rs2] [] .leaves) (releaseRes sc 4 rs2 rs1) s)

/-- ST_RL_D (R243). -/
def execStRlD (sc : Scope) (rs2 rs1 : RegIdx) (s : State) : Host.Outcome State Fault Refusal :=
  .next (runHart (.stRlD sc rs2 rs1) (xNames [rs1, rs2] [] .leaves) (releaseRes sc 8 rs2 rs1) s)

end Sys2Proof.Machine
end

