-- ==== Sys2Proof/Machine/Bank.lean ====
section
/-! DEFINITION. The bank and queue instructions (R244 to R246): their checks at issue. The banks' own part is in
Machine/EvBank.lean. -/

namespace Sys2Proof.Machine

open Sys2Proof

/-- The checks of a bank address (R384): alignment, then an MC home. Nothing where it passes. -/
def bankAddr (a : Word) (n : Nat) (s : State) : Option Res :=
  if a.toNat % n ≠ 0 then some (.trap 6 a 0 s)
  else if !(isMC (vaHome a)) then some (.trap 7 a 0 s)
  else none

/-- The hart's remote-access counter takes note of a bank or queue request (R44). -/
def State.countHome (s : State) (h : Nat) (a : Word) : State :=
  s.modHart h fun x => { x with mig := x.mig.count1 x.cluster (vaHome a) }

/-- Issues a bank or queue request, which R44 counts once: where it issues. -/
def asyncCounted (s : State) (h : Nat) (x : Hart) (a : Word) (rd : RegIdx) (fo : FormOp) (i : Issue) : Res :=
  match asyncRes s h x rd fo true i with
  | .ok t => .ok (t.countHome h a)
  | r => r

/-- Issues a bank operation of `n` bytes (R244). -/
def bankRes (i : Instr) (sc : Scope) (rd rs1 : RegIdx) (n : Nat) (how : FailHow) (kind : Hart → OpKind) (h : Nat) (x : Hart)
    (s : State) : Res :=
  let a := x.rx rs1
  match bankAddr a n s with
  | some r => r
  | none => asyncCounted s h x a rd (formOf i) ⟨kind x, how, sc, [lineOf a], true⟩

/-- A bank operation on one word: the expected value of bcas is x[rd]. -/
def bankWord (i : Instr) (fn : BankFn) (dbl : Bool) (sc : Scope) (rd rs1 rs2 : RegIdx) : Nat → Hart → State → Res :=
  bankRes i sc rd rs1 (dblBytes dbl) .zero fun x => .bank fn dbl (x.rx rs1) (x.rx rs2) (x.rx rd)

/-- The active lanes of a bvred as the hart reads them at issue (R245). -/
def Hart.vredLanes (x : Hart) (vs2 : RegIdx) : List (Option W32) :=
  (List.range 16).map fun i => if x.act false i then some (x.lane vs2 i) else none

/-- A vector reduction into a line. -/
def bankVred (i : Instr) (fn : VredFn) (sc : Scope) (rd rs1 vs2 : RegIdx) : Nat → Hart → State → Res :=
  bankRes i sc rd rs1 64 .status fun x => .vred fn (x.rx rs1) (x.vredLanes vs2)

/-- Issues a queue operation. A handle with bits [46:12] set fails through the reader (R389 SUB 10). -/
def queueRes (i : Instr) (sc : Scope) (rd rs1 : RegIdx) (kind : Hart → OpKind) (h : Nat) (x : Hart) (s : State) : Res :=
  let hd := x.rx rs1
  if s.acquiring h || decide (8 ≤ s.outstanding h) then .wait 9 0#64 s
  else
    let (o, s1) := (s.countHome h hd).opIssue h x rd (formOf i) ⟨kind x, .zero, sc, [], true⟩
    .ok (if bitsOf hd.toNat 12 35 ≠ 0 then s1.opFail o 7 10 0 0#64 else s1)

/-! ## Words -/

/-- BADD_W (R244). -/
def execBaddW (sc : Scope) (rd rs1 rs2 : RegIdx) (s : State) : Host.Outcome State Fault Refusal :=
  let i : Instr := .baddW sc rd rs1 rs2
  .next (runHart i (xNames [rs1, rs2] [rd] .leaves) (bankWord i .add false sc rd rs1 rs2) s)

/-- BADD_D (R244). -/
def execBaddD (sc : Scope) (rd rs1 rs2 : RegIdx) (s : State) : Host.Outcome State Fault Refusal :=
  let i : Instr := .baddD sc rd rs1 rs2
  .next (runHart i (xNames [rs1, rs2] [rd] .leaves) (bankWord i .add true sc rd rs1 rs2) s)

/-- BFADD (R244). -/
def execBfadd (sc : Scope) (rd rs1 rs2 : RegIdx) (s : State) : Host.Outcome State Fault Refusal :=
  let i : Instr := .bfadd sc rd rs1 rs2
  .next (runHart i (xNames [rs1, rs2] [rd] .leaves) (bankWord i .fadd false sc rd rs1 rs2) s)

/-- BMIN_W (R244). -/
def execBminW (sc : Scope) (rd rs1 rs2 : RegIdx) (s : State) : Host.Outcome State Fault Refusal :=
  let i : Instr := .bminW sc rd rs1 rs2
  .next (runHart i (xNames [rs1, rs2] [rd] .leaves) (bankWord i .min false sc rd rs1 rs2) s)

/-- BMIN_D (R244). -/
def execBminD (sc : Scope) (rd rs1 rs2 : RegIdx) (s : State) : Host.Outcome State Fault Refusal :=
  let i : Instr := .bminD sc rd rs1 rs2
  .next (runHart i (xNames [rs1, rs2] [rd] .leaves) (bankWord i .min true sc rd rs1 rs2) s)

/-- BMIN_WU (R244). -/
def execBminWu (sc : Scope) (rd rs1 rs2 : RegIdx) (s : State) : Host.Outcome State Fault Refusal :=
  let i : Instr := .bminWu sc rd rs1 rs2
  .next (runHart i (xNames [rs1, rs2] [rd] .leaves) (bankWord i .minu false sc rd rs1 rs2) s)

/-- BMIN_DU (R244). -/
def execBminDu (sc : Scope) (rd rs1 rs2 : RegIdx) (s : State) : Host.Outcome State Fault Refusal :=
  let i : Instr := .bminDu sc rd rs1 rs2
  .next (runHart i (xNames [rs1, rs2] [rd] .leaves) (bankWord i .minu true sc rd rs1 rs2) s)

/-- BMAX_W (R244). -/
def execBmaxW (sc : Scope) (rd rs1 rs2 : RegIdx) (s : State) : Host.Outcome State Fault Refusal :=
  let i : Instr := .bmaxW sc rd rs1 rs2
  .next (runHart i (xNames [rs1, rs2] [rd] .leaves) (bankWord i .max false sc rd rs1 rs2) s)

/-- BMAX_D (R244). -/
def execBmaxD (sc : Scope) (rd rs1 rs2 : RegIdx) (s : State) : Host.Outcome State Fault Refusal :=
  let i : Instr := .bmaxD sc rd rs1 rs2
  .next (runHart i (xNames [rs1, rs2] [rd] .leaves) (bankWord i .max true sc rd rs1 rs2) s)

/-- BMAX_WU (R244). -/
def execBmaxWu (sc : Scope) (rd rs1 rs2 : RegIdx) (s : State) : Host.Outcome State Fault Refusal :=
  let i : Instr := .bmaxWu sc rd rs1 rs2
  .next (runHart i (xNames [rs1, rs2] [rd] .leaves) (bankWord i .maxu false sc rd rs1 rs2) s)

/-- BMAX_DU (R244). -/
def execBmaxDu (sc : Scope) (rd rs1 rs2 : RegIdx) (s : State) : Host.Outcome State Fault Refusal :=
  let i : Instr := .bmaxDu sc rd rs1 rs2
  .next (runHart i (xNames [rs1, rs2] [rd] .leaves) (bankWord i .maxu true sc rd rs1 rs2) s)

/-- BFMIN (R244). -/
def execBfmin (sc : Scope) (rd rs1 rs2 : RegIdx) (s : State) : Host.Outcome State Fault Refusal :=
  let i : Instr := .bfmin sc rd rs1 rs2
  .next (runHart i (xNames [rs1, rs2] [rd] .leaves) (bankWord i .fmin false sc rd rs1 rs2) s)

/-- BFMAX (R244). -/
def execBfmax (sc : Scope) (rd rs1 rs2 : RegIdx) (s : State) : Host.Outcome State Fault Refusal :=
  let i : Instr := .bfmax sc rd rs1 rs2
  .next (runHart i (xNames [rs1, rs2] [rd] .leaves) (bankWord i .fmax false sc rd rs1 rs2) s)

/-- BXCHG_W (R244). -/
def execBxchgW (sc : Scope) (rd rs1 rs2 : RegIdx) (s : State) : Host.Outcome State Fault Refusal :=
  let i : Instr := .bxchgW sc rd rs1 rs2
  .next (runHart i (xNames [rs1, rs2] [rd] .leaves) (bankWord i .xchg false sc rd rs1 rs2) s)

/-- BXCHG_D (R244). -/
def execBxchgD (sc : Scope) (rd rs1 rs2 : RegIdx) (s : State) : Host.Outcome State Fault Refusal :=
  let i : Instr := .bxchgD sc rd rs1 rs2
  .next (runHart i (xNames [rs1, rs2] [rd] .leaves) (bankWord i .xchg true sc rd rs1 rs2) s)

/-- BCAS_W (R244). -/
def execBcasW (sc : Scope) (rd rs1 rs2 : RegIdx) (s : State) : Host.Outcome State Fault Refusal :=
  let i : Instr := .bcasW sc rd rs1 rs2
  .next (runHart i (xNames [rs1, rs2] [rd] .leaves) (bankWord i .cas false sc rd rs1 rs2) s)

/-- BCAS_D (R244). -/
def execBcasD (sc : Scope) (rd rs1 rs2 : RegIdx) (s : State) : Host.Outcome State Fault Refusal :=
  let i : Instr := .bcasD sc rd rs1 rs2
  .next (runHart i (xNames [rs1, rs2] [rd] .leaves) (bankWord i .cas true sc rd rs1 rs2) s)

/-! ## Lines (R245) -/

/-- BVRED_ADD_I32 (R245): the rs2 field names v register vs2. -/
def execBvredAddI32 (sc : Scope) (rd rs1 rs2 : RegIdx) (s : State) : Host.Outcome State Fault Refusal :=
  let i : Instr := .bvredAddI32 sc rd rs1 rs2
  .next (runHart i (vNames [rs1] [rd] [rs2] [] .leaves) (bankVred i .addI sc rd rs1 rs2) s)

/-- BVRED_ADD_F32 (R245): the rs2 field names v register vs2. -/
def execBvredAddF32 (sc : Scope) (rd rs1 rs2 : RegIdx) (s : State) : Host.Outcome State Fault Refusal :=
  let i : Instr := .bvredAddF32 sc rd rs1 rs2
  .next (runHart i (vNames [rs1] [rd] [rs2] [] .leaves) (bankVred i .addF sc rd rs1 rs2) s)

/-- BVRED_MIN_I32 (R245): the rs2 field names v register vs2. -/
def execBvredMinI32 (sc : Scope) (rd rs1 rs2 : RegIdx) (s : State) : Host.Outcome State Fault Refusal :=
  let i : Instr := .bvredMinI32 sc rd rs1 rs2
  .next (runHart i (vNames [rs1] [rd] [rs2] [] .leaves) (bankVred i .minI sc rd rs1 rs2) s)

/-- BVRED_MIN_F32 (R245): the rs2 field names v register vs2. -/
def execBvredMinF32 (sc : Scope) (rd rs1 rs2 : RegIdx) (s : State) : Host.Outcome State Fault Refusal :=
  let i : Instr := .bvredMinF32 sc rd rs1 rs2
  .next (runHart i (vNames [rs1] [rd] [rs2] [] .leaves) (bankVred i .minF sc rd rs1 rs2) s)

/-- BVRED_MAX_I32 (R245): the rs2 field names v register vs2. -/
def execBvredMaxI32 (sc : Scope) (rd rs1 rs2 : RegIdx) (s : State) : Host.Outcome State Fault Refusal :=
  let i : Instr := .bvredMaxI32 sc rd rs1 rs2
  .next (runHart i (vNames [rs1] [rd] [rs2] [] .leaves) (bankVred i .maxI sc rd rs1 rs2) s)

/-- BVRED_MAX_F32 (R245): the rs2 field names v register vs2. -/
def execBvredMaxF32 (sc : Scope) (rd rs1 rs2 : RegIdx) (s : State) : Host.Outcome State Fault Refusal :=
  let i : Instr := .bvredMaxF32 sc rd rs1 rs2
  .next (runHart i (vNames [rs1] [rd] [rs2] [] .leaves) (bankVred i .maxF sc rd rs1 rs2) s)

/-! ## Queues (R246) -/

/-- BQENQ (R246). -/
def execBqenq (sc : Scope) (rd rs1 rs2 : RegIdx) (s : State) : Host.Outcome State Fault Refusal :=
  let i : Instr := .bqenq sc rd rs1 rs2
  .next (runHart i (xNames [rs1, rs2] [rd] .leaves) (queueRes i sc rd rs1 fun x => .enq (x.rx rs1) (x.rx rs2)) s)

/-- BQDEQ (R246). -/
def execBqdeq (sc : Scope) (rd rs1 : RegIdx) (s : State) : Host.Outcome State Fault Refusal :=
  let i : Instr := .bqdeq sc rd rs1
  .next (runHart i (xNames [rs1] [rd] .leaves) (queueRes i sc rd rs1 fun x => .deq (x.rx rs1)) s)

/-- BQLEN (R246). -/
def execBqlen (sc : Scope) (rd rs1 : RegIdx) (s : State) : Host.Outcome State Fault Refusal :=
  let i : Instr := .bqlen sc rd rs1
  .next (runHart i (xNames [rs1] [rd] .leaves) (queueRes i sc rd rs1 fun x => .len (x.rx rs1)) s)

end Sys2Proof.Machine
end

