-- ==== Sys2Proof/Machine/Barrier.lean ====
section
/-! DEFINITION. The barrier instructions (R247 to R251): their checks at issue. What their stages do is in Machine/Bar.lean
and in the events of Machine/EvBank.lean. -/

namespace Sys2Proof.Machine

open Sys2Proof

/-- BARRIERS of the hart's kernel header. -/
def State.barriersOf (s : State) (x : Hart) : Nat := match s.gridOf? x with
  | some g => g.hdr.barriers
  | none => 0

/-- The checks of a barrier object's name (R247, R384). -/
def State.barrierName (s : State) (x : Hart) (a : Word) : Option Res :=
  let n := a.toNat
  if n = 0 then none
  else if n < 64 then
    if 33 ≤ n ∨ s.barriersOf x < n then some (.trap 50 (overUse 2 (n % 2 ^ 32)) 0 s) else none
  else bankAddr a 64 s

/-- Issues an arrival (R249, R251). -/
def arriveRes (i : Instr) (sc : Scope) (rd rs1 : RegIdx) (early : Bool) (opc : Nat) (lanes : Hart → BitVec 64)
    (fmt : Hart → Nat) (h : Nat) (x : Hart) (s : State) : Res :=
  let a := x.rx rs1
  match s.barrierName x a with
  | some r => r
  | none => asyncRes s h x rd (formOf i) true ⟨.arrive a early opc (lanes x) (fmt x), .zero, sc, [], true⟩

/-- The identity, which bar and barrive contribute. -/
def noLanes (_ : Hart) : BitVec 64 := 0#64
/-- No format. -/
def noFmt (_ : Hart) : Nat := 0

/-- BAR (R251). -/
def execBar (sc : Scope) (rd rs1 : RegIdx) (s : State) : Host.Outcome State Fault Refusal :=
  let i : Instr := .bar sc rd rs1
  .next (runHart i (xNames [rs1] [rd] .leaves) (arriveRes i sc rd rs1 false 0 noLanes noFmt) s)

/-- BARRIVE (R251). -/
def execBarrive (sc : Scope) (rd rs1 : RegIdx) (s : State) : Host.Outcome State Fault Refusal :=
  let i : Instr := .barrive sc rd rs1
  .next (runHart i (xNames [rs1] [rd] .leaves) (arriveRes i sc rd rs1 true 0 noLanes noFmt) s)

/-- BWAIT (R251): the token is x[rd], read before the handle replaces it. It performs no release. -/
def execBwait (rd rs1 : RegIdx) (s : State) : Host.Outcome State Fault Refusal :=
  let i : Instr := .bwait rd rs1
  .next (runHart i (xNames [rs1, rd] [rd] .leaves) (fun h x s =>
    let a := x.rx rs1
    match s.barrierName x a with
    | some r => r
    | none =>
      if a.toNat < 64 then asyncRes s h x rd (formOf i) true ⟨.bwait a (lo32 (x.rx rd)), .zero, .hart, [], true⟩
      else asyncCounted s h x a rd (formOf i) ⟨.bwait a (lo32 (x.rx rd)), .zero, .hart, [lineOf a], true⟩) s)

/-- BARC_SUM_I32 (R251). -/
def execBarcSumI32 (sc : Scope) (rd rs1 rs2 : RegIdx) (s : State) : Host.Outcome State Fault Refusal :=
  let i : Instr := .barcSumI32 sc rd rs1 rs2
  .next (runHart i (xNames [rs1, rs2] [rd] .leaves) (arriveRes i sc rd rs1 false 1 (fun x => x.rx rs2) noFmt) s)

/-- BARC_SUM_F32 (R251). -/
def execBarcSumF32 (sc : Scope) (rd rs1 rs2 : RegIdx) (s : State) : Host.Outcome State Fault Refusal :=
  let i : Instr := .barcSumF32 sc rd rs1 rs2
  .next (runHart i (xNames [rs1, rs2] [rd] .leaves) (arriveRes i sc rd rs1 false 2 (fun x => x.rx rs2) noFmt) s)

/-- BARC_MIN_I32 (R251). -/
def execBarcMinI32 (sc : Scope) (rd rs1 rs2 : RegIdx) (s : State) : Host.Outcome State Fault Refusal :=
  let i : Instr := .barcMinI32 sc rd rs1 rs2
  .next (runHart i (xNames [rs1, rs2] [rd] .leaves) (arriveRes i sc rd rs1 false 3 (fun x => x.rx rs2) noFmt) s)

/-- BARC_MIN_F32 (R251). -/
def execBarcMinF32 (sc : Scope) (rd rs1 rs2 : RegIdx) (s : State) : Host.Outcome State Fault Refusal :=
  let i : Instr := .barcMinF32 sc rd rs1 rs2
  .next (runHart i (xNames [rs1, rs2] [rd] .leaves) (arriveRes i sc rd rs1 false 4 (fun x => x.rx rs2) noFmt) s)

/-- BARC_MAX_I32 (R251). -/
def execBarcMaxI32 (sc : Scope) (rd rs1 rs2 : RegIdx) (s : State) : Host.Outcome State Fault Refusal :=
  let i : Instr := .barcMaxI32 sc rd rs1 rs2
  .next (runHart i (xNames [rs1, rs2] [rd] .leaves) (arriveRes i sc rd rs1 false 5 (fun x => x.rx rs2) noFmt) s)

/-- BARC_MAX_F32 (R251). -/
def execBarcMaxF32 (sc : Scope) (rd rs1 rs2 : RegIdx) (s : State) : Host.Outcome State Fault Refusal :=
  let i : Instr := .barcMaxF32 sc rd rs1 rs2
  .next (runHart i (xNames [rs1, rs2] [rd] .leaves) (arriveRes i sc rd rs1 false 6 (fun x => x.rx rs2) noFmt) s)

/-- BARMAX (R251): lane 0 is the FP32 value x[rs2][31:0], and the format code is x[rs2][38:32]. -/
def execBarmax (sc : Scope) (rd rs1 rs2 : RegIdx) (s : State) : Host.Outcome State Fault Refusal :=
  let i : Instr := .barmax sc rd rs1 rs2
  .next (runHart i (xNames [rs1, rs2] [rd] .leaves)
    (arriveRes i sc rd rs1 false 7 (fun x => (lo32 (x.rx rs2)).setWidth 64) (fun x => bitsOf (x.rx rs2).toNat 32 7)) s)

end Sys2Proof.Machine
end

