-- ==== Sys2Proof/Machine/Future.lean ====
section
/-! DEFINITION. The future instructions (R218, R221, R222). -/

namespace Sys2Proof.Machine

open Sys2Proof

/-- Names of an instruction that looks at the state of rs1 alone: it never waits on rs1. -/
def futureNames (rd : List RegIdx) (rs1 : RegIdx) (nofail : Bool) : Names :=
  { xNames [rs1] rd .alone with nowait := [rs1], nofail := if nofail then [rs1] else [] }

/-- The register is the destination of a relaxed load whose value has not returned: it is waited for under R171. -/
def Hart.isBusy (x : Hart) (r : RegIdx) : Bool := match tget x.regs r.toNat with
  | some (.busy _) => true
  | _ => false

/-- The operation pending in a register. -/
def Hart.pendingOp (x : Hart) (r : RegIdx) : Option Nat := match tget x.regs r.toNat with
  | some (.pending o) => some o
  | _ => none

/-- FWAIT (R221): the wait on rs1 is that of every instruction. -/
def execFwait (rs1 : RegIdx) (s : State) : Host.Outcome State Fault Refusal :=
  .next (runHart (.fwait rs1) (xNames [rs1] [] .alone) (fun _ _ s => .ok s) s)

/-- FTEST (R221). -/
def execFtest (rd rs1 : RegIdx) (s : State) : Host.Outcome State Fault Refusal :=
  .next (runHart (.ftest rd rs1) (futureNames [rd] rs1 false) (fun h x s =>
    if x.isBusy rs1 then .wait 10 0#64 s
    else setX s h rd (if (x.pendingOp rs1).isSome then 0#64 else 1#64)) s)

/-- The registers that an fwaitall mask names: never x0, and not those that a compact hart lacks. -/
def maskRegs (mask : Word) (compact : Bool) : List Nat :=
  (List.range 32).filter fun i => decide (0 < i) && mask.getLsbD i && (!compact || compactReg (BitVec.ofNat 5 i))

/-- The first register of a list that has failed, with its failure (R374 item 6). -/
def Hart.firstFailed (x : Hart) (rs : List Nat) : Option (Nat × FailHow) :=
  rs.findSome? fun i => match tget x.regs i with
    | some (.failed how) => some (i, how)
    | _ => none

/-- The first register of a list that is pending, with its operation. -/
def Hart.firstPending (x : Hart) (rs : List Nat) : Option Nat :=
  rs.findSome? fun i => match tget x.regs i with
    | some (.pending o) => some o
    | _ => none

/-- FWAITALL (R221, R374). -/
def execFwaitall (rs1 : RegIdx) (s : State) : Host.Outcome State Fault Refusal :=
  .next (runHart (.fwaitall rs1) (xNames [rs1] [] .alone) (fun h x s =>
    let rs := maskRegs (x.rx rs1) (s.compactRules x)
    match x.firstFailed rs with
    | some (i, how) =>
      let r : RegIdx := BitVec.ofNat 5 i
      .trap 60 (x.rx r) 0 (s.modPair h fun y => y.clearFailed r how)
    | none =>
      match x.firstPending rs with
      | some o =>
        let w := s.waitOnOp x o
        .wait w.1 w.2 s
      | none => .ok s) s)

/-- What fpass does to the registers (R221, R374 item 5): value and state of rs1 go to rd, and rs1 becomes 0. With rd = x0
the operation is detached. -/
def Hart.fpass (x : Hart) (rd rs1 : RegIdx) : Hart :=
  if rd = rs1 then x
  else
    let y : Hart := (x.wx rd (x.rx rs1)).wx rs1 0#64
    match tget x.regs rs1.toNat with
    | some st => { y with regs := if rd = 0#5 then tdel x.regs rs1.toNat else tset (tdel x.regs rs1.toNat) rd.toNat st }
    | none => y

/-- FPASS (R221). -/
def execFpass (rd rs1 : RegIdx) (s : State) : Host.Outcome State Fault Refusal :=
  .next (runHart (.fpass rd rs1) (futureNames [rd] rs1 true) (fun h x s =>
    if x.isBusy rs1 then .wait 10 0#64 s else .ok (s.modHart h fun y => y.fpass rd rs1)) s)

/-! ## Cancellation (R222) -/

/-- The completion of a cancelled lease or launch. -/
def cancelWord : Word := 0x4000000000000000#64

/-- Takes an operation off the sends that wait at a mailbox. -/
def State.unwaitSend (s : State) (w o : Nat) : State :=
  match (s.window w).sends.find? fun p => p.2 == o with
  | none => s
  | some (m, _) =>
    let s1 := s.modWindow w fun x => { x with sends := x.sends.filter fun p => p.2 != o }
    let n := ((s1.window w).sends.filter fun p => p.1 == m).length
    s1.putConf w m (putBits (s1.conf w m) 40 8 (if 255 < n then 255 else n))

/-- The window that a mailbox's address lies in, and the mailbox (R233, R235): `none` where it names no configuration
word. -/
def mboxOf (a : Word) : Option (Nat × Nat) :=
  let o := vaOff a % 2 ^ 20
  if inWindowSpace a && decide (0x40000 ≤ o) && decide (o < 0x40100) && o % 8 == 0 then
    some (vaHome a * 96 + vaOff a / 2 ^ 20, (o - 0x40000) / 8)
  else none

/-- A request to cancel an operation: what can end at once ends; an engine's command stops at its next element. -/
def State.cancelOp (s : State) (o : Nat) : State :=
  match tget s.ops o with
  | none => s
  | some p =>
    match p.kind with
    | .copy =>
      if p.st == .issued || p.st == .waiting then
        { s with engines := s.engines.map fun e => (e.1, e.2.map fun c => if c.op = some o then { c with cancel := true } else c) }
      else s
    | .msg m _ _ _ tag =>
      if p.st == .waiting && tag == 0#16 then
        match mboxOf m with
        | some (w, _) => (s.unwaitSend w o).opDone o (statusWord false true 0)
        | none => s
      else s
    | .lease =>
      let pi := (s.plinths.find? fun q => q.2.waiters.any fun w => w.ops.contains o).map Prod.fst
      match pi with
      | some k =>
        (s.modPlinth k fun q =>
          { q with waiters := (q.waiters.map fun w => { w with ops := w.ops.filter fun i => i != o }).filter fun w => !w.ops.isEmpty }).opDone
          o cancelWord
      | none => s
    | .launch _ _ => if p.st == .issued || p.st == .waiting then s.opDone o cancelWord else s
    | _ => s

/-- FCANCEL (R221, R222, R374 item 4): it never waits, and has no effect on a register that is not pending. -/
def execFcancel (rs1 : RegIdx) (s : State) : Host.Outcome State Fault Refusal :=
  .next (runHart (.fcancel rs1) (futureNames [] rs1 true) (fun _ x s =>
    match x.pendingOp rs1 with
    | some o => .ok (s.cancelOp o)
    | none => .ok s) s)

end Sys2Proof.Machine
end

