-- ==== Sys2Proof/Machine/Mailbox.lean ====
section
/-! DEFINITION. The mailbox instructions (R235 to R238). Delivery at the mailbox's port is in Machine/EvQueue.lean. -/

namespace Sys2Proof.Machine

open Sys2Proof

/-! ## Sends -/

/-- The mailbox that a send names (R235, R383): NOWAIT in bit 0, bits [2:1] clear. -/
def sendTarget (a : Word) : Option (Word × Bool) :=
  let c := BitVec.ofNat 64 (a.toNat / 8 * 8)
  if bitsOf a.toNat 1 2 = 0 ∧ (mboxOf c).isSome then some (c, a.getLsbD 0) else none

/-- Issues a send. -/
def sendRes (i : Instr) (sc : Scope) (rd rs1 : RegIdx) (kind : Word → Bool → Hart → OpKind) (h : Nat) (x : Hart) (s : State) :
    Res :=
  let a := x.rx rs1
  match sendTarget a with
  | none => .trap 7 a 0 s
  | some (m, nowait) => asyncRes s h x rd (formOf i) false ⟨kind m nowait x, .status, sc, [], true⟩

/-- SEND (R235): the image at x[rs2] is read after the release. -/
def execSend (sc : Scope) (rd rs1 rs2 : RegIdx) (s : State) : Host.Outcome State Fault Refusal :=
  let i : Instr := .send sc rd rs1 rs2
  .next (runHart i (xNames [rs1, rs2] [rd] .leaves) (sendRes i sc rd rs1 fun m nw x => .sendImg m nw (x.rx rs2)) s)

/-- SENDP (R235): LEN 8, USER 0, the payload x[rs2]. -/
def execSendp (sc : Scope) (rd rs1 rs2 : RegIdx) (s : State) : Host.Outcome State Fault Refusal :=
  let i : Instr := .sendp sc rd rs1 rs2
  .next (runHart i (xNames [rs1, rs2] [rd] .leaves)
    (sendRes i sc rd rs1 fun m nw x => .send m nw (bytesOfNat 8 (x.rx rs2).toNat) 8 0) s)

/-! ## Receiving (R237) -/

/-- A hart's place among the receivers of its window: its effective tag, and since when it waits. -/
def State.recvRank (s : State) (x : Hart) : Nat × Nat :=
  let t := s.tagOf x
  (s.effTag t.1 t.2, match x.wait with
    | some w => if w.kind = 2 ∨ w.kind = 12 then w.since else s.ncyc
    | none => s.ncyc)

/-- Whether receiver `a` goes before receiver `b`. -/
def recvBefore (a b : Nat × Nat) : Bool := tagEarlier a.1 b.1 || (!(tagEarlier b.1 a.1) && decide (a.2 < b.2))

/-- Whether a hart waits in a recv or recvt whose mask holds a mailbox of its window. -/
def State.waitsAt (s : State) (w m : Nat) (x : Hart) : Bool :=
  s.winOf x == w && x.status == .present && !x.trails
    && (match s.groupOf? x with
      | some g => !g.parked
      | none => false)
    && (match x.wait with
      | some r => (r.kind == 2 || r.kind == 12) && r.obj.getLsbD m
      | none => false)

/-- The mailboxes of a mask from which a hart may take a message now: no other waiting hart goes before it there. -/
def State.recvFrom (s : State) (h : Nat) (x : Hart) (w : Nat) (mask : Word) : List Nat :=
  (List.range 32).filter fun m =>
    mask.getLsbD m && s.mboxHas w m
      && !(s.harts.any fun p => p.1 != h && s.waitsAt w m p.2 && recvBefore (s.recvRank p.2) (s.recvRank x))

/-- Of these mailboxes, the one with the highest PRIO, then the lowest number. -/
def State.bestMbox (s : State) (w : Nat) : List Nat → Option Nat
  | [] => none
  | m :: r => match s.bestMbox w r with
    | none => some m
    | some n => if cPrio (s.conf w m) < cPrio (s.conf w n) then some n else some m

/-- The address of a slot. -/
def slotAddr (w m i : Nat) : Word := addrPlus (winBase w) (0x80000 + 0x800 * m + 0x100 * i)

/-- C of a hart's core after it has taken a message, or any other thing, stamped `c` (R318). -/
def State.raiseC (s : State) (core agent c : Nat) : State :=
  s.modCore core fun k => { k with c := max (max k.c (s.nsAt agent)) (c + 1) }

/-- CTIME of a slot. -/
def State.slotCtime (s : State) (w m i : Nat) : Nat := match s.granKey w 17 (0x800 * m + 0x100 * i) with
  | some k => s.natAt k 8
  | none => 0

/-- Takes the message at HEAD of a mailbox. -/
def State.takeMsg (s : State) (h : Nat) (x : Hart) (rd : RegIdx) (w m : Nat) : State :=
  let v := s.conf w m
  let i := cHead v % 8
  let a := slotAddr w m i
  let s1 := s.putConf w m (putBits (putBits v 16 8 (cHead v + 1)) (32 + i) 1 1)
  (s1.raiseC x.core x.cluster (s.slotCtime w m i)).modHart h fun y => { y.wx rd a with heldSlot := a, recvEnd := 0 }

/-- recv and recvt: the hart's slot is freed, then a message is taken or the hart waits. `limit` is recvt's. -/
def recvRes (rd rs1 : RegIdx) (limit : Option Nat) (h : Nat) (x : Hart) (s : State) : Res :=
  let w := s.winOf x
  let s1 := (s.freeSlot w x.heldSlot).modHart h fun y => { y with heldSlot := 0#64 }
  let mask : Word := x.rx rs1 &&& 0xFFFFFFFF#64
  let zero (t : State) : Res := .ok (t.modHart h fun y => { y.wx rd 0#64 with recvEnd := 0 })
  let passed : Bool := limit.isSome && x.wait.isNone && x.recvEnd != 0 && decide (x.recvEnd < s.timeOf x)
  if mask = 0#64 ∨ passed then zero s1
  else
    match s1.bestMbox w (s1.recvFrom h x w mask) with
    | some m => .ok (s1.takeMsg h x rd w m)
    | none =>
      match limit with
      | none => .wait 2 mask s1
      | some n =>
        let due := if x.recvEnd = 0 then s.timeOf x + n else x.recvEnd
        if n = 0 ∨ due < s.timeOf x then zero s1
        else .wait (if 1000000000 < n then 2 else 12) mask (s1.modHart h fun y => { y with recvEnd := due })

/-- RECV (R237). -/
def execRecv (rd rs1 : RegIdx) (s : State) : Host.Outcome State Fault Refusal :=
  .next (runHart (.recv rd rs1) (xNames [rs1] [rd] .enters) (recvRes rd rs1 none) s)

/-- RECVT (R237). -/
def execRecvt (rd rs1 rs2 : RegIdx) (s : State) : Host.Outcome State Fault Refusal :=
  .next (runHart (.recvt rd rs1 rs2) (xNames [rs1, rs2] [rd] .enters) (fun h x s =>
    recvRes rd rs1 (some (x.rx rs2).toNat) h x s) s)

/-! ## Configuration (R238) -/

/-- The mailbox of the hart's own window that an address names. -/
def State.ownMbox (s : State) (x : Hart) (a : Word) : Option Nat := match mboxOf a with
  | some (w, m) => if w = s.winOf x then some m else none
  | none => none

/-- The control granule of a window can be reached. -/
def State.ctlReady (s : State) (w : Nat) : Bool := (s.granKey w 16 0).isSome

/-- MBCFG (R238): BETA, PRIO, EN and SLOTS from their places in x[rs2], as one step at the port. -/
def execMbcfg (rs2 rs1 : RegIdx) (s : State) : Host.Outcome State Fault Refusal :=
  .next (runHart (.mbcfg rs2 rs1) (xNames [rs1, rs2] [] .leaves) (fun _ x s =>
    let w := s.winOf x
    match s.ownMbox x (x.rx rs1) with
    | none => .trap 7 (x.rx rs1) 0 s
    | some m =>
      if !(s.ctlReady w) then .wait 10 0#64 s
      else
        let n := (x.rx rs2).toNat
        .ok (s.putConf w m (putBits (putBits (s.conf w m) 0 6 (bitsOf n 0 6)) 8 8 (bitsOf n 8 8)))) s)

/-- MBPEEK (R238): the address of the message at HEAD, or 0. -/
def execMbpeek (rd rs1 : RegIdx) (s : State) : Host.Outcome State Fault Refusal :=
  .next (runHart (.mbpeek rd rs1) (xNames [rs1] [rd] .enters) (fun h x s =>
    let w := s.winOf x
    match s.ownMbox x (x.rx rs1) with
    | none => .trap 5 (x.rx rs1) 0 s
    | some m =>
      if !(s.ctlReady w) then .wait 10 0#64 s
      else if s.mboxHas w m then
        let i := cHead (s.conf w m) % 8
        setX (s.raiseC x.core x.cluster (s.slotCtime w m i)) h rd (slotAddr w m i)
      else setX s h rd 0#64) s)

end Sys2Proof.Machine
end

