-- ==== Sys2Proof/Machine/Copy.lean ====
section
/-! DEFINITION. The instructions that hand work to copy engines and device queues: cpy, cpyd, cpyk, pref (R223 to R232) and
launch (R254). What the engines do is in Machine/EvEngine.lean. -/

namespace Sys2Proof.Machine

open Sys2Proof

/-- The copy engine of a hart (R226): that of its window's quarter, in its cluster. -/
def State.engineOf (s : State) (x : Hart) : Nat := 4 * x.cluster + winNum (s.winOf x) / 24

/-- The commands that an engine holds. -/
def State.engine (s : State) (e : Nat) : List CopyCmd := tgetD s.engines e []

/-- Changes an engine's commands. -/
def State.modEngine (s : State) (e : Nat) (f : List CopyCmd → List CopyCmd) : State :=
  { s with engines := tset s.engines e (f (s.engine e)) }

/-- An engine has room for one more queued command. -/
def State.engineRoom (s : State) (e : Nat) : Bool := decide (((s.engine e).filter fun c => !c.started).length < 16)

/-- A one-dimensional descriptor of `n` elements. -/
def lineDesc (src dst : Word) (elog2 n : Nat) : Desc := ⟨src, dst, elog2, [(n, (2 ^ elog2 : Nat), (2 ^ elog2 : Nat))], none⟩

/-- The descriptors that cpyd runs (R228): whole lines where both addresses are multiples of 64, then the rest in bytes. -/
def cpydDescs (src dst : Word) (n : Nat) : List Desc :=
  if src.toNat % 64 = 0 ∧ dst.toNat % 64 = 0 then
    let k := n / 64 * 64
    [lineDesc src dst 6 (n / 64), lineDesc (addrPlus src k) (addrPlus dst k) 0 (n % 64)]
  else [lineDesc src dst 0 n]

/-- A command as it enters an engine's queue. -/
def newCmd (id : Nat) (what : CopyWhat) (ctx : Ctx) (clHome winHome : Nat) (tag : BitVec 16) (nodl : Bool) (op : Option Nat)
    (pk : GridFor) (arrived : Nat) : CopyCmd :=
  { id := id
    what := what
    started := false
    todo := []
    index := 0
    bytes := 0
    lines := 0
    cancel := false
    heldAt := none
    buf := none
    part := 0
    ctx := ctx
    clHome := clHome
    winHome := winHome
    tag := tag
    nodl := nodl
    op := op
    pk := pk
    fail := none
    notified := false
    arrived := arrived
    frame := []
    sent := false
    advanced := false
    noteOp := none }

/-- Issues a command to the hart's engine; at a full queue the hart waits (R226). -/
def engineRes (i : Instr) (rd : RegIdx) (what : CopyWhat) (gated : Bool) (lines : List Word) (h : Nat) (x : Hart) (s : State) :
    Res :=
  let e := s.engineOf x
  if s.acquiring h || !(s.engineRoom e) then .wait 10 0#64 s
  else
    let (o, s1) := s.opIssue h x rd (formOf i) ⟨.copy, .status, .sys, lines, gated⟩
    let t := s.tagOf x
    .ok (s1.modEngine e fun cs =>
      cs ++ [newCmd o what (x.ctx h) x.cluster (winHome (s.winOf x)) t.1 t.2 (some o) .none s.ncyc])

/-- CPY (R228). -/
def execCpy (rd rs1 : RegIdx) (s : State) : Host.Outcome State Fault Refusal :=
  let i : Instr := .cpy rd rs1
  .next (runHart i (xNames [rs1] [rd] .leaves) (fun h x s =>
    let a := x.rx rs1
    if a.toNat % 16 ≠ 0 then .trap 4 a 0 s else engineRes i rd (.desc a) true [] h x s) s)

/-- CPYD (R228). -/
def execCpyd (rd rs1 rs2 : RegIdx) (n : BitVec 32) (s : State) : Host.Outcome State Fault Refusal :=
  let i : Instr := .cpyd rd rs1 rs2 n
  .next (runHart i (xNames [rs1, rs2] [rd] .leaves) (fun h x s =>
    engineRes i rd (.plain (cpydDescs (x.rx rs1) (x.rx rs2) n.toNat)) true [] h x s) s)

/-- The window of a kick register's address (R230): `none` where it names none. -/
def kickOf (a : Word) : Option Nat :=
  if inWindowSpace a && vaOff a % 2 ^ 20 == 0x40100 then some (vaHome a * 96 + vaOff a / 2 ^ 20) else none

/-- CPYK (R230). -/
def execCpyk (rd rs1 rs2 : RegIdx) (s : State) : Host.Outcome State Fault Refusal :=
  let i : Instr := .cpyk rd rs1 rs2
  .next (runHart i (xNames [rs1, rs2] [rd] .leaves) (fun h x s =>
    let a := x.rx rs1
    let k := x.rx rs2
    if a.toNat % 8 ≠ 0 then .trap 4 a 0 s
    else if (kickOf k).isNone then .trap 7 k 0 s
    else asyncRes s h x rd (formOf i) false ⟨.kick a k, .status, .sys, [], true⟩) s)

/-- PREF (R232): no release. -/
def execPref (rd rs1 : RegIdx) (n : BitVec 32) (s : State) : Host.Outcome State Fault Refusal :=
  let i : Instr := .pref rd rs1 n
  .next (runHart i (xNames [rs1] [rd] .leaves) (fun h x s =>
    engineRes i rd (.pref (x.rx rs1) n.toNat) false [] h x s) s)

/-- LAUNCH (R254): to device queue `q` of the hart's cluster, after the release of R109. -/
def execLaunch (rd rs1 : RegIdx) (q : BitVec 4) (s : State) : Host.Outcome State Fault Refusal :=
  let i : Instr := .launch rd rs1 q
  .next (runHart i (xNames [rs1] [rd] .leaves) (fun h x s =>
    let a := x.rx rs1
    if a.toNat % 128 ≠ 0 then .trap 4 a 0 s
    else asyncRes s h x rd (formOf i) false ⟨.launch a q.toNat, .launch, .sys, [], true⟩) s)

end Sys2Proof.Machine
end

