-- ==== Sys2Proof/Machine/PlinthOps.lean ====
section
/-! DEFINITION. The plinth instructions (R195 to R212): their checks at issue (R382), and how many lines a pass takes
(R204). What the plinth does is in Machine/EvPlinth.lean. -/

namespace Sys2Proof.Machine

open Sys2Proof

/-! ## The lines of a pass (R204) -/

/-- Element width of a class: WIDTH 0 is 8 bits, 1 is 4 bits, 2 is 16 bits (R154). -/
def classWidth (w : BitVec 2) : Nat := if w = 0#2 then 8 else if w = 1#2 then 4 else 16
/-- K-steps of a pass. -/
def classSteps (w : BitVec 2) : Nat := 512 / classWidth w

/-- The A lines of a pass that hold an element of a participating row, in order. -/
def linesA (kmajor : Bool) (w : BitVec 2) (rows : Nat) : List Nat :=
  if !kmajor then List.range rows
  else if classWidth w = 16 then (List.range 64).filter fun l => decide (32 * (l % 2) < rows)
  else List.range 64

/-- The B lines of a pass that hold an element of a participating column, in order. -/
def linesB (tra : Bool) (w : BitVec 2) (cols : Nat) : List Nat :=
  if tra then List.range cols
  else if classWidth w = 8 then (List.range 128).filter fun l => decide (64 * (l % 2) < cols)
  else if classWidth w = 4 then List.range 128
  else (List.range 128).filter fun l => decide (32 * (l % 4) < cols)

/-- Lines that `passes` passes take from ring a and from ring b. -/
def tileLines (kmajor : Bool) (c : Tcfg) (rows cols passes : Nat) : Nat × Nat :=
  (passes * (linesA kmajor c.width rows).length, passes * (linesB c.tra c.width cols).length)

/-! ## Checks -/

/-- The LINES of a ring of a window, with those of its latest tring that satisfies `of`, were it still to take effect (R202). -/
def State.ringLines (s : State) (w n : Nat) (of : Op → Bool) : Nat :=
  s.ops.foldl (fun a p => match p.2.kind with
    | .tring w' r _ l => if w' = w ∧ r = n ∧ of p.2 then l else a
    | _ => a) (tgetD (s.window w).rings n Ring.zero).lines

/-- A tring of this ring that satisfies `of` is still to take effect. -/
def State.tringPending (s : State) (w n : Nat) (of : Nat → Op → Bool) : Bool := s.ops.any fun p => match p.2.kind with
  | .tring w' r _ _ => w' == w && r == n && of p.1 p.2
  | _ => false

/-- The hart's own entries of the post buffers that hold a line of a span: a tile command on those bytes follows them (R94). -/
def State.spanEntries (s : State) (h : Nat) (base : Word) (n : Nat) : List Nat :=
  ((s.entriesOf h).filter fun p => overlaps base n p.2.line 64).map Prod.fst

/-- The bytes of memory that a tile command spans: 64 rows of a pitch of at most 512 bytes (R209). -/
def TileWhat.span : TileWhat → Option (Word × Nat)
  | .ldc _ _ base | .stc _ _ _ _ base | .save _ base | .load _ base => some (base, 64 * 512)
  | _ => none

/-- The group holds its plinth's lease, or waits on a tlease (R382). -/
def State.leaseOk (s : State) (x : Hart) : Bool := match s.groupOf? x with
  | none => false
  | some g =>
    let p := s.plinth (s.plinthOf g)
    p.heldBy x.group || p.waiters.any fun w => w.group == x.group

/-- The instruction bits that stval shows for causes 51 and 52 (R370). -/
def tileBits (i : Instr) : Word := bitsOfEnc (encode i)

/-- Hands a tile command to the plinth: behind the group's earlier ones, with ROWS and COLS of dxvcnt and the group's latest
tcfg (R164, R193, R206), after the .cl release of R109 and the hart's own stores to the bytes it moves (R94). Once a stop has reached
the group, a command goes behind those that the stop has withdrawn, and to the plinth after the group's return (R193, R214). -/
def State.tileIssue (s : State) (h : Nat) (x : Hart) (g : Group) (i : Instr) (what : TileWhat) (na nb : Nat)
    (op : Option Nat) : State :=
  let own := match what.span with
    | some (a, n) => s.spanEntries h a n
    | none => []
  let (id, s1) := s.fresh
  let w := bitsOfEnc (encode i)
  let t : Tile :=
    { id := id
      group := x.group
      hart := h
      what := what
      rows := x.vcnt.rows
      cols := x.vcnt.cols
      cfg := g.tcfgIssued
      ctx := x.ctx h
      gate := s.opGate h x .cl [] ++ own
      fo := formOf i
      op := op
      accepted := false
      retireAt := 0
      na := na
      nb := nb
      fail := none
      wrote := 0
      bits := w
      ra := x.rx (w.extractLsb' 15 5)
      rb := x.rx (w.extractLsb' 20 5) }
  let stopped : Bool := g.away != 0
  ((s1.drain own).modPlinth (s.plinthOf g) fun p => if stopped then p else { p with queue := p.queue ++ [t] }).modGroup x.group fun y =>
    { y with
      withdrawn := if stopped then y.withdrawn ++ [t] else y.withdrawn
      tiles := if what = .release then y.tiles else y.tiles ++ [id]
      tcfgIssued := match what with
        | .cfg c => c
        | _ => y.tcfgIssued }

/-- Issues a tile command without a future, once its lease check has passed. -/
def tileRes (i : Instr) (what : TileWhat) (h : Nat) (x : Hart) (s : State) : Res :=
  match s.groupOf? x with
  | none => .ok s
  | some g =>
    if !s.leaseOk x then .trap 52 (tileBits i) 0 s
    else if s.acquiring h then .wait 9 0#64 s
    else .ok (s.tileIssue h x g i what 0 0 none)

/-- Issues a tile command with a future. -/
def tileFuture (i : Instr) (rd : RegIdx) (how : FailHow) (what : TileWhat) (na nb : Nat) (h : Nat) (x : Hart) (g : Group)
    (s : State) : Res :=
  if s.acquiring h then .wait 9 0#64 s
  else
    let (o, s1) := s.opIssue h x rd (formOf i) ⟨.tile, how, .cl, [], false⟩
    .ok (s1.tileIssue h x g i what na nb (some o))

/-- A transfer between an accumulator and memory: the lease, then the alignment of x[rs1] (R209, R382). -/
def tileMem (i : Instr) (how : FailHow) (rd rs1 : RegIdx) (cause : Nat) (what : TileWhat) (h : Nat) (x : Hart) (s : State) : Res :=
  match s.groupOf? x with
  | none => .ok s
  | some g =>
    let a := x.rx rs1
    if !s.leaseOk x then .trap 52 (tileBits i) 0 s
    else if a.toNat % 64 ≠ 0 then .trap cause a 0 s
    else tileFuture i rd how what 0 0 h x g s

/-- Names of a plinth instruction: it is for full harts. -/
def tileNames (xr xw : List RegIdx) : Names := vNames xr xw [] [] .leaves

/-! ## Leases -/

/-- TLEASE (R195): 1 at once for the group that holds the lease; else the group waits for a grant. -/
def execTlease (rd : RegIdx) (s : State) : Host.Outcome State Fault Refusal :=
  let i : Instr := .tlease rd
  .next (runHart i (tileNames [] [rd]) (fun h x s =>
    match s.groupOf? x with
    | none => .ok s
    | some g =>
      if s.acquiring h then .wait 9 0#64 s
      else
        let pi := s.plinthOf g
        let (o, s1) := s.opIssue h x rd (formOf i) ⟨.lease, .zero, .cl, [], true⟩
        if (s.plinth pi).heldBy x.group then .ok (s1.opDone o 1#64)
        else if (s.plinth pi).waiters.any fun w => w.group == x.group then
          .ok ((s1.modOp o fun p => { p with st := .waiting }).modPlinth pi fun p =>
            { p with waiters := p.waiters.map fun w => if w.group == x.group then { w with ops := w.ops ++ [o] } else w })
        else
          let s2 := (s1.modOp o fun p => { p with st := .waiting }).modGroup x.group fun y => { y with tcfgIssued := Tcfg.zero }
          let s3 := s2.modPlinth pi fun p => { p with waiters := p.waiters ++ [⟨x.group, [o], 0, s.ncyc⟩] }
          .ok (s3.wakePlinth pi)) s)

/-- TRELEASE (R199): ordered behind the group's tile commands; no effect without a lease. -/
def execTrelease (s : State) : Host.Outcome State Fault Refusal :=
  let i : Instr := .trelease
  .next (runHart i (tileNames [] []) (fun h x s =>
    match s.groupOf? x with
    | none => .ok s
    | some g =>
      if s.acquiring h then .wait 9 0#64 s
      else if (s.plinth (s.plinthOf g)).heldBy x.group then
        .ok ((s.tileIssue h x g i .release 0 0 none).tryRelease (s.plinthOf g))
      else .ok s) s)

/-! ## Rings -/

/-- TCFG (R205). -/
def execTcfg (width : BitVec 2) (int : Bool) (plog2 : BitVec 3) (tra chk : Bool) (s : State) : Host.Outcome State Fault Refusal :=
  let i : Instr := .tcfg width int plog2 tra chk
  .next (runHart i (tileNames [] []) (tileRes i (.cfg ⟨width, int, plog2, tra, chk⟩)) s)

/-- Every granule that `n` lines from `base` touch is a data granule of one window of home `home`, bound to a core of
`cluster` (R202, R382). -/
def State.ringPlace (s : State) (home cluster : Nat) (base : Word) (n : Nat) : Bool :=
  let o := vaOff base % 2 ^ 20
  let w := vaHome base * 96 + vaOff base / 2 ^ 20
  inWindowSpace base && vaHome base == home && decide (o + 64 * n ≤ 0x40000)
    && ((List.range 16).filter fun g => decide (g * 0x4000 < o + 64 * n) && decide (o < (g + 1) * 0x4000)).all fun g =>
      match s.gran w g with
      | .core cl _ => cl == cluster
      | _ => false

/-- Sets a ring (R202). -/
def State.setRing (s : State) (w n : Nat) (base : Word) (lines : Nat) : State :=
  s.modWindow w fun x => { x with rings := tset x.rings n ⟨base, lines, 0#32, 0#32, 0⟩ }

/-- Tile commands that have not retired: in the plinths' queues, or withdrawn by a stop (R214). -/
def State.tilesOut (s : State) : List Tile :=
  (s.plinths.map fun p => p.2.queue).flatten ++ (s.groups.map fun p => p.2.withdrawn).flatten

/-- A tile command of a window's groups that has not retired names this ring (R202). -/
def State.ringNamed (s : State) (w n : Nat) : Bool := s.tilesOut.any fun t =>
  (match tget s.groups t.group with
    | some g => g.win == w
    | none => false)
    && (match t.what with
      | .mma _ _ ar br _ => ar == n || br == n
      | _ => false)

/-- TRING (R202): at once where no tile command names the ring and the release is done, else when the last has retired. -/
def execTring (ring : BitVec 3) (rs1 rs2 : RegIdx) (s : State) : Host.Outcome State Fault Refusal :=
  let i : Instr := .tring ring rs1 rs2
  .next (runHart i (tileNames [rs1, rs2] []) (fun h x s =>
    let base := x.rx rs1
    let n := (x.rx rs2).toNat
    let w := s.winOf x
    if n = 0 ∨ 4096 < n then .trap 2 (tileBits i) 0 s
    else if base.toNat % 64 ≠ 0 then .trap 4 base 0 s
    else if !(s.ringPlace (winHome w) x.cluster base n) then .trap 5 base 0 s
    else if s.acquiring h then .wait 9 0#64 s
    else
      let gate := s.opGate h x .cl []
      if gate.isEmpty && !(s.ringNamed w ring.toNat) && !(s.tringPending w ring.toNat fun _ _ => true) then
        .ok (s.setRing w ring.toNat base n)
      else
        let (id, s1) := s.fresh
        let tn := s.tagOf x
        let o : Op :=
          { hart := h
            kind := .tring w ring.toNat base n
            st := .waiting
            fo := formOf i
            how := .zero
            scope := .cl
            ctx := x.ctx h
            gate := gate
            drained := true
            tag := tn.1
            nodl := tn.2
            cluster := x.cluster
            win := w
            since := s.ncyc
            inj := none
            beta := none }
        .ok { s1 with ops := tset s1.ops id o }) s)

/-- RADV (R203): the release, then TAIL moves on; without room the hart waits. It follows the hart's own earlier tring of the ring
(R202). A ring with LINES = 0 is reported before a count that is too large. -/
def execRadv (ring : BitVec 3) (rs1 : RegIdx) (s : State) : Host.Outcome State Fault Refusal :=
  let i : Instr := .radv ring rs1
  .next (runHart i (tileNames [rs1] []) (fun h x s =>
    let w := s.winOf x
    let n := (x.rx rs1).toNat
    let k := ring.toNat
    let mine (o : Op) : Bool := o.hart == h
    let lines := s.ringLines w k mine
    if lines = 0 then .trap 50 (overUse 3 k) 0 s
    else if lines < n then .trap 2 (tileBits i) 0 s
    else if s.tringPending w k (fun _ o => mine o) then .wait 10 0#64 s
    else if s.acquiring h then .wait 9 0#64 s
    else
      match s.fenceGate h x .cl with
      | some s1 => .wait 8 0#64 s1
      | none =>
        let r := tgetD (s.window w).rings k Ring.zero
        if (r.tail - r.head).toNat + n ≤ r.lines then
          .ok (s.modWindow w fun y => { y with rings := tset y.rings k { r with tail := r.tail + BitVec.ofNat 32 n } })
        else .wait 6 (BitVec.ofNat 64 k) s) s)

/-! ## Tile commands -/

/-- TZERO (R208). -/
def execTzero (acc : BitVec 2) (s : State) : Host.Outcome State Fault Refusal :=
  let i : Instr := .tzero acc
  .next (runHart i (tileNames [] []) (tileRes i (.zero acc.toNat)) s)

/-- Issues a matrix multiply (R206): its rings' LINES, the lines it takes, the lease. -/
def mmaRes (i : Instr) (kmajor : Bool) (rd : RegIdx) (acc : BitVec 2) (ar br : BitVec 3) (passes1 : BitVec 4) (h : Nat) (x : Hart)
    (s : State) : Res :=
  match s.groupOf? x with
  | none => .ok s
  | some g =>
    let a := ar.toNat
    let b := br.toNat
    let la := s.ringLines g.win a fun _ => true
    let lb := s.ringLines g.win b fun _ => true
    let passes := passes1.toNat + 1
    let n := tileLines kmajor g.tcfgIssued x.vcnt.rows x.vcnt.cols passes
    if la = 0 then .trap 50 (overUse 3 a) 0 s
    else if lb = 0 then .trap 50 (overUse 3 b) 0 s
    else if (if a = b then decide (la < n.1 + n.2) else decide (la < n.1) || decide (lb < n.2)) then
      .trap 51 (tileBits i) 0 s
    else if !s.leaseOk x then .trap 52 (tileBits i) 0 s
    else tileFuture i rd .zero (.mma kmajor acc.toNat a b passes) n.1 n.2 h x g s

/-- TMMA (R206). -/
def execTmma (rd : RegIdx) (acc : BitVec 2) (ar br : BitVec 3) (passes1 : BitVec 4) (s : State) :
    Host.Outcome State Fault Refusal :=
  let i : Instr := .tmma rd acc ar br passes1
  .next (runHart i (tileNames [] [rd]) (mmaRes i false rd acc ar br passes1) s)

/-- TMMAT (R206): A is read K-major. -/
def execTmmat (rd : RegIdx) (acc : BitVec 2) (ar br : BitVec 3) (passes1 : BitVec 4) (s : State) :
    Host.Outcome State Fault Refusal :=
  let i : Instr := .tmmat rd acc ar br passes1
  .next (runHart i (tileNames [] [rd]) (mmaRes i true rd acc ar br passes1) s)

/-- TLDC (R209, R210): no future. -/
def execTldc (acc : BitVec 2) (ef : BitVec 5) (rs1 : RegIdx) (s : State) : Host.Outcome State Fault Refusal :=
  let i : Instr := .tldc acc ef rs1
  .next (runHart i (tileNames [rs1] []) (fun h x s =>
    let a := x.rx rs1
    if !s.leaseOk x then .trap 52 (tileBits i) 0 s
    else if a.toNat % 64 ≠ 0 then .trap 4 a 0 s
    else tileRes i (.ldc acc.toNat ef a) h x s) s)

/-- TSTC (R211): S9 is x[rs2][8:0] when SCALE is 1, and 0x000 otherwise. -/
def execTstc (rd : RegIdx) (acc : BitVec 2) (ef : BitVec 5) (sat scale : Bool) (rs1 rs2 : RegIdx) (s : State) :
    Host.Outcome State Fault Refusal :=
  let i : Instr := .tstc rd acc ef sat scale rs1 rs2
  let src := if scale then [rs1, rs2] else [rs1]
  .next (runHart i (tileNames src [rd]) (fun h x s =>
    let s9 := if scale then bitsOf (x.rx rs2).toNat 0 9 else 0
    tileMem i .zero rd rs1 6 (.stc acc.toNat ef sat s9 (x.rx rs1)) h x s) s)

/-- TSTAT (R212): it needs no lease. -/
def execTstat (rd : RegIdx) (s : State) : Host.Outcome State Fault Refusal :=
  let i : Instr := .tstat rd
  .next (runHart i (tileNames [] [rd]) (fun h x s =>
    match s.groupOf? x with
    | none => .ok s
    | some g => tileFuture i rd .zero .stat 0 0 h x g s) s)

/-- TSAVE (R209). -/
def execTsave (rd : RegIdx) (acc : BitVec 2) (rs1 : RegIdx) (s : State) : Host.Outcome State Fault Refusal :=
  let i : Instr := .tsave rd acc rs1
  .next (runHart i (tileNames [rs1] [rd]) (fun h x s => tileMem i .status rd rs1 6 (.save acc.toNat (x.rx rs1)) h x s) s)

/-- TLOAD (R209, R210). -/
def execTload (rd : RegIdx) (acc : BitVec 2) (rs1 : RegIdx) (s : State) : Host.Outcome State Fault Refusal :=
  let i : Instr := .tload rd acc rs1
  .next (runHart i (tileNames [rs1] [rd]) (fun h x s => tileMem i .status rd rs1 4 (.load acc.toNat (x.rx rs1)) h x s) s)

end Sys2Proof.Machine
end

