-- ==== Sys2Proof/Machine/Chisel.lean ====
section
/-! DEFINITION. The chisel instructions (R262 to R277, R385): records, the workspace and its image, elimination, and the issue
of gb.emit, whose later steps are in Machine/EvQueue.lean. -/

namespace Sys2Proof.Machine

open Sys2Proof

/-! ## The unit (R263, R277) -/

/-- Harts whose instructions wait for the unit of a core. -/
def State.unitQueue (s : State) (core : Nat) : List Nat := (s.core core).chiselQ.filter fun h => match s.hart? h with
  | some y => y.status == .present && (match y.wait with
    | some k => k.kind == 14
    | none => false)
  | none => false

/-- The hart's instruction may enter the unit now. -/
def State.unitFree (s : State) (h : Nat) (x : Hart) : Bool :=
  (s.core x.core).chiselEnd.isNone && (match s.unitQueue x.core with
    | [] => true
    | q :: _ => q == h)

/-- The unit takes an instruction of this many A-cycles; `waits` is the hart that waits for its end. -/
def State.unitTake (s : State) (core : Nat) (waits : Option Nat) (cost : Nat) : State :=
  s.modCore core fun c =>
    { c with
      chisel := waits
      chiselEnd := some (s.acyc + cost)
      chiselQ := c.chiselQ.filter fun i => waits != some i }

/-- An instruction has reached the unit and waits for it. -/
def unitWait (s : State) (h : Nat) (x : Hart) : Res :=
  let q := s.unitQueue x.core
  .wait 14 0#64 (s.modCore x.core fun c => { c with chiselQ := if q.contains h then q else q ++ [h] })

/-- An instruction that reaches the unit: what it does to the workspace, and its cost. -/
def unitRes (s : State) (h : Nat) (x : Hart) (cost : Nat) (f : Chisel → Chisel) : Res :=
  if s.unitFree h x then
    .ok ((s.unitTake x.core (some h) cost).modHart h fun y => { y with chisel := f y.chisel })
  else unitWait s h x

/-! ## Reads of records (R264, R268) -/

/-- The bytes of the record at an address that the post buffer is asked for (R97): as many as D gives, where the buffer or the port
shows it now; else as many as a record can have (log 145). -/
def State.peekLen (s : State) (h : Nat) (x : Hart) (a : Word) : Nat :=
  match (if inWindowSpace a then none else pbByte ((s.pbOf x.cluster).filter fun p => p.2.touches a [0]) a) with
  | some b => recordBytes (b.toNat % 16)
  | none =>
    match s.route (Req.hart a 4 .load (x.ctx h)) x.iface with
    | .at (.mem k _) _ _ => recordBytes (s.natAt k 1 % 16)
    | .fail _ _ => recordBytes 0
    | _ => recLen 8

/-- The record at an address: one read of its port, or from the post buffer (R97); a second piece where the port has cut it at the
end of a granule or a page. -/
def State.readRecord (s : State) (h : Nat) (x : Hart) (a : Word) : Got :=
  let start : Bool := x.log.isEmpty && x.plainOut.isNone
  match (if start then s.plainGate h x else none) with
  | some s1 => .wait s1
  | none =>
    let f : Fwd := if start then s.forward x a (List.range (s.peekLen h x a)) false else .none
    let w1 : Want := ⟨a, .record (recLen 8), .load, true⟩
    match f with
    | .bytes bs =>
      .done [.data bs 0#16 false]
        ((s.countAccess h w1).modHart h fun y => y.sawAll (s.givers x a (List.range (s.peekLen h x a))))
    | .after _ => .wait s
    | .none =>
      match s.plain h x none false [w1] with
      | .done as s1 =>
        let bs := ansBytes as
        let n := recordBytes (recD bs)
        if n ≤ bs.length then .done as s1
        else
          let s2 := s1.keepLog h (as.take 1)
          match s2.hart? h with
          | none => .done as s1
          | some y =>
            s2.plain h y none false [w1, ⟨addrPlus a bs.length, .load (n - bs.length), .load, false⟩]
      | r => r

/-- An instruction that reads a record: alignment, the read, `ok` of its D, and its effect in the unit. A poisoned record
combines nothing (R396). -/
def recordRes (i : Instr) (a : Word) (ok : Chisel → Nat → Bool) (f : Chisel → Nat → List Byte → Chisel) (h : Nat) (x : Hart)
    (s : State) : Res :=
  if a.toNat % 4 ≠ 0 then .trap 4 a 0 s
  else
    (s.readRecord h x a).andThen fun as s1 =>
      let bs := ansBytes as
      let d := recD bs
      if ansPoison as then .ok (s1.consumePoison h (formOf i) a)
      else if !(ok x.chisel d) then .trap 2 (bitsOfEnc (encode i)) 0 s1
      else if s1.unitFree h x then unitRes s1 h x (4 + (msgValues d + 3) / 4) fun c => f c d bs
      else unitWait (s1.keepLog h as) h x

/-! ## Instructions -/

/-- GB_CFG (R267). -/
def execGbCfg (rs1 rs2 : RegIdx) (s : State) : Host.Outcome State Fault Refusal :=
  .next (runHart (.gbCfg rs1 rs2) (xNames [rs1, rs2] [] .alone) (fun h x s =>
    unitRes s h x 4 fun c => c.cfg (x.rx rs1) (x.rx rs2)) s)

/-- GB_CLR (R267). -/
def execGbClr (s : State) : Host.Outcome State Fault Refusal :=
  .next (runHart .gbClr (xNames [] [] .alone) (fun h x s => unitRes s h x 4 Chisel.clr) s)

/-- GB_LDF (R268). -/
def execGbLdf (rs1 : RegIdx) (s : State) : Host.Outcome State Fault Refusal :=
  let i : Instr := .gbLdf rs1
  .next (runHart i (xNames [rs1] [] .enters) (fun h x s =>
    recordRes i (x.rx rs1) (fun _ d => decide (1 ≤ d) && decide (d ≤ 8)) (fun c d bs => c.load d bs) h x s) s)

/-- gb.addm and gb.subm (R268). -/
def blockRes (i : Instr) (f : W32 → W32 → W32) (rs1 rs2 : RegIdx) (h : Nat) (x : Hart) (s : State) : Res :=
  let o := (x.rx rs2).toNat
  recordRes i (x.rx rs1) (fun c d => decide (1 ≤ d) && decide (d ≤ 8) && decide (o + d ≤ c.dim))
    (fun c d bs => c.combine f o d bs) h x s

/-- GB_ADDM (R268). -/
def execGbAddm (rs1 rs2 : RegIdx) (s : State) : Host.Outcome State Fault Refusal :=
  let i : Instr := .gbAddm rs1 rs2
  .next (runHart i (xNames [rs1, rs2] [] .enters) (blockRes i addF32 rs1 rs2) s)

/-- GB_SUBM (R268). -/
def execGbSubm (rs1 rs2 : RegIdx) (s : State) : Host.Outcome State Fault Refusal :=
  let i : Instr := .gbSubm rs1 rs2
  .next (runHart i (xNames [rs1, rs2] [] .enters) (blockRes i subF32 rs1 rs2) s)

/-- GB_BEL (R268): with x[rs1] = 0 no record is read. -/
def execGbBel (rs1 : RegIdx) (s : State) : Host.Outcome State Fault Refusal :=
  let i : Instr := .gbBel rs1
  .next (runHart i (xNames [rs1] [] .enters) (fun h x s =>
    let a := x.rx rs1
    if a = 0#64 then unitRes s h x 4 Chisel.belief
    else recordRes i a (fun c d => d == c.dim) (fun c d bs => (c.combine addF32 0 d bs).belief) h x s) s)

/-- A-cycles of gb.elim (R277). -/
def elimCost (s t : Nat) : Nat :=
  8 + ((s * s * s - s) / 6 + (t + 1) * (s * (s - 1) / 2) + s * (t * (t + 3) / 2)) + 4 * (s * (s - 1) / 2 + (t + 1) * s) + 8 * s

/-- GB_ELIM (R269, R270). -/
def execGbElim (rs1 : RegIdx) (s : State) : Host.Outcome State Fault Refusal :=
  let i : Instr := .gbElim rs1
  .next (runHart i (xNames [rs1] [] .alone) (fun h x s =>
    let c := x.chisel
    let ts := c.block (x.rx rs1).toNat
    if ts.isEmpty then .trap 2 (bitsOfEnc (encode i)) 0 s
    else if !(s.unitFree h x) then unitWait s h x
    else
      match c.elim ts with
      | none => .trap 55 (bitsOfEnc (encode i)) 0 s
      | some c1 => unitRes s h x (elimCost (c.dim - ts.length) ts.length) fun _ => c1) s)

/-- A-cycles of gb.mean (R277). -/
def meanCost (n : Nat) : Nat :=
  8 + ((n * n * n - n) / 6 + n * (n - 1)) + 4 * (n * (n - 1) / 2 + 2 * n) + 8 * n

/-- The pieces of a write of bytes as an access of `w` bytes (R76), each with the tag that it gives its lines. -/
def spanWants (a : Word) (w : Nat) (bytes : List Byte) (tag : Option (BitVec 16)) : List Want :=
  match cutAt a w with
  | none => [⟨a, .store (bytes.map some) tag, .store, true⟩]
  | some k =>
    ⟨a, .store ((bytes.take k).map some) tag, .store, true⟩
      :: (if bytes.length ≤ k then [] else [⟨addrPlus a k, .store ((bytes.drop k).map some) tag, .store, false⟩])

/-- A plain store of the unit: where it is split, the second piece is checked before the first is performed, so that an instruction
that traps leaves memory unchanged (R385; log 147). The check writes nothing. -/
def State.spanStore (s : State) (h : Nat) (x : Hart) (size : Nat) (ws : List Want) : Got :=
  s.plain h x (some ⟨size, false⟩) false (((ws.drop 1).map fun w => ⟨w.va, .pick [], .store, false⟩) ++ ws)

/-- Log2 of the width by which the store of `n` values is split: the least power of two that holds them (R76; log 148). -/
def meanLog (n : Nat) : Nat := if n = 1 then 2 else if n = 2 then 3 else if n ≤ 4 then 4 else 5

/-- GB_MEAN (R271): one plain store of 4 × DIM bytes. -/
def execGbMean (rs1 : RegIdx) (s : State) : Host.Outcome State Fault Refusal :=
  .next (runHart (.gbMean rs1) (xNames [rs1] [] .leaves) (fun h x s =>
    let a := x.rx rs1
    if a.toNat % 4 ≠ 0 then .trap 6 a 0 s
    else if !(s.unitFree h x) then unitWait s h x
    else
      match x.chisel.mean with
      | none => .trap 55 (bitsOfEnc (encode (.gbMean rs1))) 0 s
      | some mu =>
        let bytes := (mu.map fun v => bytesOfNat 4 v.toNat).foldr (· ++ ·) []
        let size := meanLog x.chisel.dim
        (s.spanStore h x size (spanWants a (2 ^ size) bytes none)).andThen fun _ s1 =>
          .ok ((s1.unitTake x.core (some h) (meanCost x.chisel.dim)).modHart h fun y =>
            { y with chisel := { y.chisel with live := true } })) s)

/-- GB_RES (R274): waits for the hart's earlier gb.emit operations. -/
def execGbRes (rd : RegIdx) (s : State) : Host.Outcome State Fault Refusal :=
  .next (runHart (.gbRes rd) (xNames [] [rd] .enters) (fun h x s =>
    let open1 : Bool := (s.opsOf h).any fun p => match p.2.kind, p.2.st with
      | .emit _ _ _ _ _ _ _, .issued => true
      | .emit _ _ _ _ _ _ _, .held => true
      | _, _ => false
    if open1 then .wait 10 0#64 s
    else if !(s.unitFree h x) then unitWait s h x
    else .ok ((s.unitTake x.core (some h) 4).modHart h fun y =>
      { y.wx rd (y.chisel.res.setWidth 64) with chisel := { y.chisel with live := true } })) s)

/-- GB_LDW (R275): the image is read as one plain access. -/
def execGbLdw (rs1 : RegIdx) (s : State) : Host.Outcome State Fault Refusal :=
  let i : Instr := .gbLdw rs1
  .next (runHart i (xNames [rs1] [] .enters) (fun h x s =>
    let a := x.rx rs1
    if a.toNat % 64 ≠ 0 then .trap 4 a 0 s
    else
      (s.plain h x none false (loadWants a 512 512 .load)).andThen fun as s1 =>
        if ansPoison as then .ok (s1.consumePoison h (formOf i) a)
        else if s1.unitFree h x then unitRes s1 h x 26 fun _ => chiselOf (ansBytes as) true
        else unitWait (s1.keepLog h as) h x) s)

/-- GB_STW (R275): the image and the tags of its 8 lines, as one plain store; LIVE stays as it is. -/
def execGbStw (rs1 : RegIdx) (s : State) : Host.Outcome State Fault Refusal :=
  .next (runHart (.gbStw rs1) (xNames [rs1] [] .leaves) (fun h x s =>
    let a := x.rx rs1
    if a.toNat % 64 ≠ 0 then .trap 6 a 0 s
    else if !(s.unitFree h x) then unitWait s h x
    else
      (s.spanStore h x 9 (spanWants a 512 x.chisel.image (some 0x4000#16))).andThen fun _ s1 =>
        .ok (s1.unitTake x.core (some h) 4)) s)

/-- GB_EMIT (R272): the checks, and OUT and TAU as they stand at issue. -/
def execGbEmit (rd rs2 rs1 : RegIdx) (s : State) : Host.Outcome State Fault Refusal :=
  let i : Instr := .gbEmit rd rs2 rs1
  .next (runHart i (xNames [rs1, rs2] [rd] .leaves) (fun h x s =>
    let c := x.chisel
    let e := x.rx rs2
    if c.outdim = 0 then .trap 2 (bitsOfEnc (encode i)) 0 s
    else if e.toNat % 256 ≠ 0 then .trap 6 e 0 s
    else if !(inWindowSpace e && vaHome e == winHome (s.winOf x)) then .trap 7 e 0 s
    else
      match sendTarget (x.rx rs1) with
      | none => .trap 7 (x.rx rs1) 0 s
      | some (m, nowait) =>
        if s.acquiring h then .wait 9 0#64 s
        else
          let s1 := s.modHart h fun y => { y with chisel := { y.chisel with live := true } }
          asyncRes s1 h x rd (formOf i) false ⟨.emit m nowait e c.outdim c.oeta c.olam c.tau, .status, .md, [], true⟩) s)

end Sys2Proof.Machine
end

