-- ==== Sys2Proof/Machine/Csr.lean ====
section
/-! DEFINITION. CSR_ACCESS and DXTSTAT_ACCESS: the CSRs of the base (R141, R366) and of Dexa (R155 to R164). -/

namespace Sys2Proof.Machine

open Sys2Proof

/-! ## Values -/

/-- A bit at a place. -/
def bitAt (b : Bool) (i : Nat) : Nat := b2n b * 2 ^ i

/-- sstatus: SIE, SPIE, SPP, FS, SUM, MXR and SD; every other field reads 0, UXL among them (R365; log 20). -/
def SCsrs.sstatus (c : SCsrs) : Word :=
  BitVec.ofNat 64 (bitAt c.stSIE 1 + bitAt c.stSPIE 5 + bitAt c.stSPP 8 + 2 ^ 13 * c.stFS.toNat + bitAt c.stSUM 18
    + bitAt c.stMXR 19 + bitAt (c.stFS == 3#2) 63)

/-- A write of sstatus. -/
def SCsrs.setSstatus (c : SCsrs) (v : Word) : SCsrs :=
  { c with
    stSIE := v.getLsbD 1
    stSPIE := v.getLsbD 5
    stSPP := v.getLsbD 8
    stFS := v.extractLsb' 13 2
    stSUM := v.getLsbD 18
    stMXR := v.getLsbD 19 }

/-- dxvcnt (R156). -/
def Vcnt.word (v : Vcnt) : Word := BitVec.ofNat 64 (v.rows % 2 ^ 8 + 2 ^ 8 * (v.cols % 2 ^ 8) + 2 ^ 16 * (v.lanes % 2 ^ 5))

/-- A write of dxvcnt: each field within its bounds. -/
def vcntOf (v : Word) : Vcnt :=
  ⟨clampNat 1 64 (bitsOf v.toNat 0 8), clampNat 1 128 (bitsOf v.toNat 8 8), clampNat 1 16 (bitsOf v.toNat 16 5)⟩

/-- dxmig (R44). -/
def Mig.word (m : Mig) : Word := BitVec.ofNat 64 (m.thresh.toNat + 2 ^ 16 * m.count.toNat + 2 ^ 32 * m.home.toNat)

/-- dxgid (R34). -/
def State.dxgid (s : State) (x : Hart) : Word :=
  let g := match s.groupOf? x with
    | some g => g.index
    | none => 0
  let b := match s.blockOf? x with
    | some b => b.index
    | none => 0
  BitVec.ofNat 64 (x.hidx % 16 + 2 ^ 8 * (g % 128) + 2 ^ 32 * (b % 2 ^ 24))

/-- dxdl (R160): the block's own tag, the effective tag, NODL. -/
def State.dxdl (s : State) (x : Hart) : Word :=
  match s.blockOf? x with
  | none => 0#64
  | some b =>
    let e := s.tagOf x
    BitVec.ofNat 64 (b.tag.toNat + 2 ^ 16 * e.1.toNat + 2 ^ 32 * b2n b.nodl)

/-- dxfut (R162): pending registers, failed ones among them (R374). -/
def Hart.dxfut (x : Hart) : Word :=
  BitVec.ofNat 64 (x.regs.foldl (fun a p => match p.2 with
    | .busy _ => a
    | _ => a + 2 ^ (p.1 % 32)) 0)

/-- cycle: A-cycles, kept across migration and swap (R141). -/
def State.cycleOf (s : State) (x : Hart) : Nat := (x.cycBase + (s.acyc - x.cycFrom)) % 2 ^ 64

/-- dxtstat (R158). -/
def State.dxtstat (s : State) (x : Hart) : Word :=
  match s.groupOf? x with
  | none => 0#64
  | some g =>
    let p := s.plinth (s.plinthOf g)
    let mine := p.heldBy x.group
    BitVec.ofNat 64 (bitAt (mine && p.iovf) 1 + bitAt (mine && p.chk) 2 + 2 ^ 13 * (winNum g.win / 24 % 4) + bitAt mine 15
      + (if mine then 2 ^ 18 * (p.cmdLeft % 128) + 2 ^ 32 * (s.cycLeft p % 2 ^ 13) else 0))

/-! ## Reads -/

/-- mhartid (R141): the launch serial number, BLOCK, GROUP and HART. -/
def State.mhartid (s : State) (x : Hart) : Word :=
  let serial := match s.gridOf? x with
    | some g => g.serial
    | none => 0
  let b := match s.blockOf? x with
    | some b => b.index
    | none => 0
  let g := match s.groupOf? x with
    | some g => g.index
    | none => 0
  BitVec.ofNat 64 (x.hidx % 16 + 2 ^ 4 * (g % 128) + 2 ^ 11 * (b % 2 ^ 24) + 2 ^ 35 * (serial % 2 ^ 29))

/-- misa (R141): MXL for 64 bits, and I, M, A, F, S and U. -/
def misaWord : Word := BitVec.ofNat 64 (2 ^ 63 + 2 ^ 0 + 2 ^ 5 + 2 ^ 8 + 2 ^ 12 + 2 ^ 18 + 2 ^ 20)

/-- medeleg (R366): every cause but ECALL from S-mode and from M-mode. -/
def medelegWord : Word := ~~~(BitVec.ofNat 64 (2 ^ 9 + 2 ^ 11))

/-- The M-mode CSRs that the part describes (R141, R366): misa, medeleg, mideleg, pmpcfg, pmpaddr and mhartid. Writes are ignored. -/
def State.mcsrRead (s : State) (x : Hart) (a : Nat) : Option Word :=
  if x.priv ≠ .m then none
  else if a = 0x301 then some misaWord
  else if a = 0x302 then some medelegWord
  else if a = 0x303 ∨ (0x3A0 ≤ a ∧ a < 0x3F0) then some 0#64
  else if a = 0xF14 then some (s.mhartid x)
  else none

/-- Whether a mode may read a base counter: from U-mode, as scounteren lets it. -/
def counterOk (x : Hart) (i : Nat) : Bool := x.priv != .u || x.csr.scounteren.getLsbD i

/-- The value of a CSR, or nothing where the address names none or the mode may not read it (R155, R373). -/
def State.csrRead (s : State) (x : Hart) (a : Nat) : Option Word :=
  let sOnly (v : Word) : Option Word := if x.priv = .u then none else some v
  let counter (i v : Nat) : Option Word := if counterOk x i then some (BitVec.ofNat 64 v) else none
  match a with
  | 0x001 => some (x.fflags.setWidth 64)
  | 0x002 => some (x.frm.setWidth 64)
  | 0x003 => some ((x.frm ++ x.fflags).setWidth 64)
  | 0x100 => sOnly x.csr.sstatus
  | 0x104 => sOnly 0#64
  | 0x105 => sOnly x.csr.stvec
  | 0x106 => sOnly x.csr.scounteren
  | 0x140 => sOnly x.csr.sscratch
  | 0x141 => sOnly x.csr.sepc
  | 0x142 => sOnly x.csr.scause
  | 0x143 => sOnly x.csr.stval
  | 0x144 => sOnly 0#64
  | 0x180 => sOnly 0#64
  | 0x5C0 => sOnly (x.asid.setWidth 64)
  | 0x8C0 => some x.vcnt.word
  | 0x8C1 => some (x.pw.setWidth 64)
  | 0x8C2 => some x.mig.word
  | 0xC00 => counter 0 (s.cycleOf x)
  | 0xC01 => counter 1 (s.timeOf x)
  | 0xC02 => counter 2 x.instret
  | 0xCC0 => some (s.dxgid x)
  | 0xCC1 => some (winBase (s.winOf x))
  | 0xCC2 => some (s.cluster x.cluster).dxload
  | 0xCC3 => some (s.dxdl x)
  | 0xCC4 => some (BitVec.ofNat 64 (s.timeOf x))
  | 0xCC5 => some (BitVec.ofNat 64 (s.causal x))
  | 0xCC6 => some x.dxfut
  | _ => s.mcsrRead x a

/-! ## Writes -/

/-- A write of a CSR that may be written. satp keeps MODE Bare and 0; sie and sip are read-only zero; stvec supports MODE 0
only (R366). -/
def Hart.csrWrite (x : Hart) (a : Nat) (v : Word) : Hart :=
  match a with
  | 0x001 => { x with fflags := v.extractLsb' 0 5 }
  | 0x002 => { x with frm := v.extractLsb' 0 3 }
  | 0x003 => { x with fflags := v.extractLsb' 0 5, frm := v.extractLsb' 5 3 }
  | 0x100 => { x with csr := x.csr.setSstatus v }
  | 0x105 => { x with csr := { x.csr with stvec := v &&& ~~~3#64 } }
  | 0x106 => { x with csr := { x.csr with scounteren := v &&& 7#64 } }
  | 0x140 => { x with csr := { x.csr with sscratch := v } }
  | 0x141 => { x with csr := { x.csr with sepc := v &&& ~~~3#64 } }
  | 0x142 => { x with csr := { x.csr with scause := v } }
  | 0x143 => { x with csr := { x.csr with stval := v } }
  | 0x5C0 => { x with asid := v.extractLsb' 0 16 }
  | 0x8C0 => { x with vcnt := vcntOf v }
  | 0x8C1 => { x with pw := v.extractLsb' 0 32 }
  | 0x8C2 => { x with mig := { x.mig with thresh := v.extractLsb' 0 16, count := 0#16 } }
  | _ => x

/-! ## Forms -/

/-- Whether a form takes its source field as an immediate. -/
def csrImm : CsrOp → Bool
  | .rwi | .rsi | .rci => true
  | _ => false

/-- Whether a form writes: RS and RC only where the source field is not 0. -/
def csrWrites (o : CsrOp) (src : RegIdx) : Bool :=
  match o with
  | .rw | .rwi => true
  | _ => src != 0#5

/-- The source value of a form. -/
def Hart.csrSrc (x : Hart) (o : CsrOp) (src : RegIdx) : Word := if csrImm o then src.setWidth 64 else x.rx src

/-- The value that a form writes. -/
def csrNew (o : CsrOp) (old v : Word) : Word :=
  match o with
  | .rw | .rwi => v
  | .rs | .rsi => old ||| v
  | .rc | .rci => old &&& ~~~v

/-- The registers that a CSR form names. -/
def csrNames (o : CsrOp) (rd src : RegIdx) (p : PairKind) : Names := xNames (if csrImm o then [] else [src]) [rd] p

/-- How a redundant pair treats an access to a CSR (R407). -/
def csrPair (a : Nat) (wr : Bool) : PairKind :=
  if wr && (a == 0x8C0 || a == 0x8C1 || a == 0x8C2) then .leaves
  else if a == 0xC00 || a == 0xC01 || a == 0xCC2 || a == 0xCC3 || a == 0xCC4 || a == 0xCC5 || a == 0xCC6 then .enters
  else .alone

/-- CSR_ACCESS (R155): an access to an address that names no CSR, that the mode may not reach, or a write to a read-only
address is an illegal instruction, before any register is looked at (R373). -/
def execCsrAccess (op : CsrOp) (csr : BitVec 12) (rd src : RegIdx) (s : State) : Host.Outcome State Fault Refusal :=
  let i : Instr := .csrAccess op csr rd src
  let a := csr.toNat
  let wr := csrWrites op src
  let ok : Bool := match s.hart? s.cur with
    | some x => (s.csrRead x a).isSome && !(wr && decide (0xC00 ≤ a))
    | none => true
  .next (if ok then
      runHart i (csrNames op rd src (csrPair a wr)) (fun h x s =>
        let old := (s.csrRead x a).getD 0#64
        let v := csrNew op old (x.csrSrc op src)
        .ok (s.modHart h fun y => (if wr then y.csrWrite a v else y).wx rd old)) s
    else runHart i (xNames [] [] .alone) (fun _ _ s => .trap 2 (bitsOfEnc (encode i)) 0 s) s)

/-- Whether every tile command that the hart's group issued has retired (R164). -/
def State.tilesRetired (s : State) (x : Hart) : Bool := match s.groupOf? x with
  | some g => g.tiles.isEmpty
  | none => true

/-- DXTSTAT_ACCESS (R164): a read or a write of dxtstat waits until every tile command of the group has retired; writing 1
clears CHK and IOVF. -/
def execDxtstatAccess (op : CsrOp) (rd src : RegIdx) (s : State) : Host.Outcome State Fault Refusal :=
  let wr := csrWrites op src
  .next (runHart (.dxtstatAccess op rd src) (csrNames op rd src (if wr then .leaves else .enters)) (fun h x s =>
    if !s.tilesRetired x then .wait 10 0#64 s
    else
      let old := s.dxtstat x
      let v := csrNew op old (x.csrSrc op src)
      let s1 : State := match (if wr then s.groupOf? x else none) with
        | some g => s.modPlinth (s.plinthOf g) fun p =>
            if p.heldBy x.group then { p with iovf := p.iovf && !(v.getLsbD 1), chk := p.chk && !(v.getLsbD 2) } else p
        | none => s
      setX s1 h rd old) s)

end Sys2Proof.Machine
end

