-- ==== Sys2Proof/Machine/Context.lean ====
section
/-! DEFINITION. Context slots (R56, R255, R256, R305 to R307): what a stop saves of a hart, and what a restore brings back. -/

namespace Sys2Proof.Machine

open Sys2Proof

/-! ## Relaxed loads on their way -/

/-- Bytes that the answer of a piece holds. -/
def Piece.ansLen : Piece → Nat
  | .load n => n
  | .pick offs => 4 * offs.length
  | _ => 0

/-- The bytes of a load as far as its pieces are answered, in the order of its pieces. -/
def Acc.got (a : Acc) : List (Option Byte) :=
  (a.pieces.map fun p => match p.st with
    | .ans (.data b _ _) => b.map some
    | _ => List.replicate p.act.ansLen none).foldr (· ++ ·) []

/-- The value of the `j`-th lane of a load, if all of its bytes have come. -/
def laneGot (got : List (Option Byte)) (j : Nat) : Option W32 :=
  let b := (got.drop (4 * j)).take 4
  if b.length == 4 && b.all Option.isSome then some (BitVec.ofNat 32 (natOfBytes (b.map fun o => o.getD 0#8))) else none

/-- Writes lanes of a v register from a table of values; VQ becomes 0 and VTAG 0x0000 (R143). -/
def Hart.putSome (x : Hart) (vd : RegIdx) (vals : Table W32) : Hart :=
  x.wv vd (lanesOf fun i => tgetD vals i (x.lane vd i))

/-- The lanes of a load whose values have come. -/
def lanesGot (lanes : List Nat) (got : List (Option Byte)) : Table W32 :=
  (List.range lanes.length).foldl (fun (t : Table W32) j => match laneGot got j, lanes[j]? with
    | some v, some i => tset t i v
    | _, _ => t) []

/-- A home holds piece `i` of an access in its miss list. -/
def State.inMissList (s : State) (a i : Nat) : Bool :=
  s.held.any fun e => e.who == .acc a i && (e.why == .miss || e.selected)

/-- A relaxed load that a stop does not wait for (R307): its pieces are answered or in a miss list, and one is there. -/
def State.missHeld (s : State) (id : Nat) (a : Acc) : Bool :=
  let ps := (List.range a.pieces.length).zip a.pieces
  (ps.any fun q => s.inMissList id q.1) && ps.all fun q => match q.2.st with
    | .ans _ => true
    | _ => s.inMissList id q.1

/-- Every relaxed load has written its destination but those that a home holds in its miss list. -/
def State.loadsSettled (s : State) (h : Nat) : Bool := (s.accsOf h).all fun p => p.2.dst.isNone || s.missHeld p.1 p.2

/-- The entry of R307 for a held load. -/
def heldEntry (a : Acc) : Nat :=
  match a.dst with
  | none => 0
  | some (.x rd k) =>
    let f3 := if a.kind = 1 then (lrxBytes k).log2 else (lrxWCode k).toNat
    rd.toNat + f3 * 2 ^ 9 + 2 ^ 12 * (a.kind % 8) + 2 ^ 15
  | some (.v vd lanes) =>
    let got := a.got
    let open1 := (List.range lanes.length).foldl (fun n j => match laneGot got j with
      | some _ => n
      | none => n + 2 ^ (lanes.getD j 0 % 16)) 0
    vd.toNat + 2 ^ 5 + 2 ^ 12 * (a.kind % 8) + 2 ^ 15 + 2 ^ 32 * open1

/-- Lanes of held vector loads that have come are written before the save (R307). -/
def State.writeLanesGot (s : State) (h : Nat) : State :=
  (s.accsOf h).foldl (fun (t : State) p => match p.2.dst with
    | some (.v vd lanes) =>
      let vals := lanesGot lanes p.2.got
      if vals.isEmpty then t else t.modHart h fun x => x.putSome vd vals
    | _ => t) s

/-! ## The live-range table (R256) -/

/-- The word used with LRTOFF = 0 and for a full save. -/
def lrtAll : Nat := 0xFFFFFFFF * 2 ^ 32 + 15 * 2 ^ 8 + 7

/-- What a stop saves: full or at a phint, LIVEX, LIVEV, the live-range table. -/
structure SaveMask where
  full : Bool
  livex : BitVec 16
  livev : BitVec 16
  lrt : Nat
deriving DecidableEq, Repr

/-- A full save. -/
def SaveMask.all (isFull : Bool) : SaveMask := ⟨true, 0xFFFF#16, if isFull then 0xFFFF#16 else 0#16, lrtAll⟩

/-- x register `i` is saved: bit i div 2 of LIVEX names it, and a pending, failed or busy register is saved whatever the mask. -/
def SaveMask.keepX (m : SaveMask) (x : Hart) (i : Nat) : Bool :=
  (m.livex.getLsbD (i / 2) || (tget x.regs i).isSome) && (x.full || compactReg (BitVec.ofNat 5 i))

/-- v register `i` is saved. -/
def SaveMask.keepV (m : SaveMask) (x : Hart) (i : Nat) : Bool := x.full && (m.livev.getLsbD (i / 2) || (tget x.vbusy i).isSome)

/-! ## The slot (R305) -/

/-- Concatenates. -/
def joinBytes (l : List (List Byte)) : List Byte := l.foldr (· ++ ·) []

/-- fcsr. -/
def Hart.fcsr (x : Hart) : Nat := x.fflags.toNat + 2 ^ 5 * x.frm.toNat

/-- The number of a privilege mode. -/
def privCode : Priv → Nat
  | .u => 0
  | .s => 1
  | .m => 3

/-- The 4,096 bytes of a hart's context slot, but for what R305 puts in the slot of HART 0 at 0xE00. -/
def State.slotBytes (s : State) (h : Nat) (x : Hart) (pc : Word) (m : SaveMask) (parked : Bool) : List Byte :=
  let lx (i : Nat) : List Byte := bytesOfNat 8 (if m.keepX x i then (x.rx (BitVec.ofNat 5 i)).toNat else 0)
  let lf (i : Nat) : List Byte :=
    bytesOfNat 4 (if x.full && bitsOf m.lrt (32 + i) 1 == 1 then (x.rf (BitVec.ofNat 5 i)).toNat else 0)
  let vlast := bitsOf m.lrt 8 4
  let lv (i : Nat) : List Byte := joinBytes ((List.range 16).map fun l =>
    bytesOfNat 4 (if m.keepV x i && decide (l ≤ vlast) then (x.lane (BitVec.ofNat 5 i) l).toNat else 0))
  let lt (i : Nat) : List Byte :=
    let v := x.rv (BitVec.ofNat 5 i)
    bytesOfNat 4 (if m.keepV x i && bitsOf m.lrt 2 1 == 1 then v.tag.toNat + 2 ^ 16 * b2n v.q else 0)
  let c := x.csr
  let held := ((s.accsOf h).filter fun p => p.2.dst.isSome).map fun p => heldEntry p.2
  joinBytes
    [ bytesOfNat 8 pc.toNat
    , bytesOfNat 8 (privCode x.priv + b2n m.full * 4 + b2n (!x.full) * 8 + b2n parked * 16 + b2n x.chisel.live * 32
        + 2 ^ 16 * m.livex.toNat + 2 ^ 32 * m.livev.toNat)
    , bytesOfNat 8 x.dxfut.toNat
    , bytesOfNat 8 m.lrt
    , bytesOfNat 8 (if m.lrt % 2 = 1 then x.pw.toNat else 0)
    , bytesOfNat 8 (if x.full && bitsOf m.lrt 1 1 == 1 then x.fcsr else 0)
    , bytesOfNat 8 x.vcnt.word.toNat
    , bytesOfNat 8 x.mig.word.toNat
    , bytesOfNat 8 x.instret
    , bytesOfNat 8 (s.cycleOf x)
    , bytesOfNat 8 x.heldSlot.toNat
    , bytesOfNat 8 (b2n x.chisel.live)
    , bytesOfNat 8 x.recvEnd
    , List.replicate 24 0#8
    , joinBytes ((List.range 32).map lx)
    , joinBytes ((List.range 32).map lf)
    , joinBytes ((List.range 32).map lv)
    , joinBytes ((List.range 32).map lt)
    , (if x.chisel.live then x.chisel else x.chisel.clr).image
    , joinBytes ([c.sstatus.toNat, 0, c.stvec.toNat, c.scounteren.toNat, c.sscratch.toNat, c.sepc.toNat, c.scause.toNat,
        c.stval.toNat, 0, x.asid.toNat].map (bytesOfNat 8))
    , List.replicate (0xF88 - 0xCD0) 0#8
    , joinBytes ((List.range 8).map fun i => bytesOfNat 8 (held.getD i 0))
    , List.replicate 56 0#8 ]

/-- The address of a hart's context slot (R56): SAVEBASE + b × SAVESTRIDE + 4,096 × its place in dxgid order. -/
def State.slotVa (s : State) (x : Hart) : Option (BitVec 16 × Word) :=
  match s.groupOf? x, s.blockOf? x, s.gridOf? x with
  | some g, some b, some gr =>
    some (gr.asid, gr.launch.savebase
      + BitVec.ofNat 64 (b.index * gr.launch.savestride + 4096 * (g.index * gr.launch.hpg + x.hidx)))
  | _, _, _ => none

/-- A hart's context slot stands on a page that is not resident: it is asked for (R49). -/
def State.slotMiss (s : State) (x : Hart) : State := match s.slotVa x with
  | some (asid, va) => s.unitMiss (schedCtx asid) .store va
  | none => s

/-- Where a hart's context slot stands, if the scheduler core can reach it. -/
def State.slotKey (s : State) (x : Hart) : Option Nat :=
  match s.slotVa x with
  | none => none
  | some (asid, va) =>
    match s.unitKey (schedCtx asid) .store va 4096 with
    | .ok k => some k
    | .error _ => none

/-- Saves a hart and takes it off its core. A hart that waits at a barrier keeps waiting, and lending, while it is absent (R57,
R252). Without a slot that can be reached it stays; a slot whose page is not resident is asked for (R49). -/
def State.saveHart (s : State) (h : Nat) (pc : Word) (m : SaveMask) : State :=
  let s1 := s.writeLanesGot h
  match s1.hart? h with
  | none => s
  | some x =>
    match s1.slotKey x with
    | none => s.slotMiss x
    | some k =>
      let parked : Bool := match s1.groupOf? x with
        | some g => g.parked
        | none => false
      let s2 := s1.putMem k ((s1.slotBytes h x pc m parked).map some)
      { s2 with harts := s2.harts.map fun p =>
          if inPair h p then
            (p.1, { p.2 with
              status := .saved, resv := none, snap := none, wait := p.2.wait.filter fun r => r.kind == 1, yieldEnd := none, yieldFor := [], migTo := none,
              stopReq := false, stopSret := false, stopping := none, cmp := none, released := false, lvq := [] })
          else p }

/-! ## A stop (R54, R255, R306, R307, R410) -/

/-- A pair may stop: its queues are empty and the trailing hart has come to the leading hart's pc (R410). -/
def State.pairMayStop (s : State) (h : Nat) (x : Hart) : Bool := x.cmp.isNone && s.pairSynced h x

/-- A hart that can be saved where it stands: its loads have settled, and its pair stands together. -/
def State.mayStop (s : State) (h : Nat) (x : Hart) : Bool := s.loadsSettled h && s.pairMayStop h x

/-- A hart that stops at a phint cannot read its live-range table: the full save goes ahead, and the failure is reported from step 2
(R384). -/
def State.tableLost (s : State) (h : Nat) (x : Hart) (a : Word) : State :=
  ((s.modHart h fun y => { y with stopping := some .full }).report x.group ⟨failWord ⟨3, 0x25⟩ 60 11 0, a, true, x.hidx⟩).saveHart h
    x.pc (.all x.full)

/-- The stop applies at a phint (R255): the hart reads the live-range table as it reads other memory, so that a page that is not
resident is a miss (R49), and is saved as the table says; where the table cannot be read, in full. -/
def State.stopAtHint (s : State) (h : Nat) (x : Hart) (livex livev : BitVec 16) (lrt : Option Word) : State :=
  match lrt with
  | none => s.saveHart h x.pc ⟨false, livex, livev, lrtAll⟩
  | some a =>
    let r := Req.hart a 8 .load (x.ctx h)
    if s.held.any fun e => e.who == .table h then s
    else
      match s.route r x.iface with
      | .at (.mem k _) _ _ =>
        if !(s.responds x.iface a) then s.holdLost r (.load 8) (.table h) false x.iface
        else if s.poisoned k 8 then s.tableLost h x a
        else s.saveHart h x.pc ⟨false, livex, livev, s.natAt k 8⟩
      | .at _ _ _ => s.tableLost h x a
      | .fail _ sub => (s.noteTable (vaHome a) sub).tableLost h x a
      | .miss pg => s.holdMiss pg r (.load 8) (.table h) false
      | .behind pg why => s.holdBehind pg r (.load 8) (.table h) false why
      | .rebind w g => s.holdBehind r.ownPage r (.load 8) (.table h) false (.rebind w g)
      | .lost => s.holdLost r (.load 8) (.table h) false x.iface
      | .netHeld => s

/-- A hart that has met its stop is saved once it may be; one whose group has parked meanwhile is saved in full (R54). -/
def State.tryStop (s : State) (h : Nat) : State :=
  match s.hart? h with
  | none => s
  | some x =>
    let parked : Bool := match s.groupOf? x with
      | some g => g.parked
      | none => false
    if x.trails || x.status != .present || !(s.mayStop h x) then s
    else
      match x.stopping with
      | none => s
      | some .full => s.saveHart h x.pc (.all x.full)
      | some (.hint livex livev lrt) => if parked then s.saveHart h x.pc (.all x.full) else s.stopAtHint h x livex livev lrt

/-- A hart meets its stop: it issues nothing more, and is saved at once where it may be. -/
def State.stopNow (s : State) (h : Nat) (how : StopHow) : State :=
  (s.modHart h fun x => { x with stopping := some how }).tryStop h

/-! ## Restoring -/

/-- 8 bytes of a slot as a number. -/
def slotWord (bs : List Byte) (off : Nat) : Nat := natOfBytes ((bs.drop off).take 8)
/-- 4 bytes of a slot as a number. -/
def slotHalf (bs : List Byte) (off : Nat) : Nat := natOfBytes ((bs.drop off).take 4)

/-- The privilege mode of a number. -/
def privOf (n : Nat) : Priv := if n = 0 then .u else .s

/-- The registers of a hart from its slot: pending and failed ones by the dxfut that was saved, busy ones as they are. -/
def restoredRegs (old : Table RegState) (fut : Nat) : Table RegState :=
  (List.range 32).foldl (fun (t : Table RegState) i =>
    match tget old i with
    | some (.busy a) => tset t i (.busy a)
    | some r => if bitsOf fut i 1 = 1 then tset t i r else t
    | none => if 0 < i ∧ bitsOf fut i 1 = 1 then tset t i (.failed .zero) else t) []

/-- A hart as its context slot holds it (R305). -/
def Hart.restored (x : Hart) (bs : List Byte) (acyc : Nat) : Hart :=
  let live : Bool := bitsOf (slotWord bs 8) 5 1 == 1
  let fc := slotWord bs 0x28
  let mig := slotWord bs 0x38
  let csr : SCsrs :=
    { x.csr with
      stvec := BitVec.ofNat 64 (slotWord bs 0xC90)
      scounteren := BitVec.ofNat 64 (slotWord bs 0xC98)
      sscratch := BitVec.ofNat 64 (slotWord bs 0xCA0)
      sepc := BitVec.ofNat 64 (slotWord bs 0xCA8)
      scause := BitVec.ofNat 64 (slotWord bs 0xCB0)
      stval := BitVec.ofNat 64 (slotWord bs 0xCB8) }
  { x with
    status := .present
    pc := BitVec.ofNat 64 (slotWord bs 0)
    priv := privOf (slotWord bs 8 % 4)
    regs := restoredRegs x.regs (slotWord bs 0x10)
    pw := BitVec.ofNat 32 (slotWord bs 0x20)
    fflags := BitVec.ofNat 5 fc
    frm := BitVec.ofNat 3 (fc / 2 ^ 5)
    vcnt := vcntOf (BitVec.ofNat 64 (slotWord bs 0x30))
    mig := ⟨BitVec.ofNat 16 mig, BitVec.ofNat 16 (mig / 2 ^ 16), BitVec.ofNat 10 (mig / 2 ^ 32)⟩
    instret := slotWord bs 0x40
    cycBase := slotWord bs 0x48
    cycFrom := acyc
    heldSlot := BitVec.ofNat 64 (slotWord bs 0x50)
    recvEnd := slotWord bs 0x60
    x := (Vector.ofFn fun (i : Fin 32) => BitVec.ofNat 64 (slotWord bs (0x80 + 8 * i.val))).set 0 0#64
    f := Vector.ofFn fun (i : Fin 32) => BitVec.ofNat 32 (slotHalf bs (0x180 + 4 * i.val))
    v := Vector.ofFn fun (i : Fin 32) =>
      let t := slotHalf bs (0xA00 + 4 * i.val)
      ⟨Vector.ofFn fun (l : Fin 16) => BitVec.ofNat 32 (slotHalf bs (0x200 + 64 * i.val + 4 * l.val)), BitVec.ofNat 16 t,
        bitsOf t 16 1 == 1⟩
    chisel := if live then chiselOf ((bs.drop 0xA80).take 512) true else (chiselOf ((bs.drop 0xA80).take 512) false).clr
    csr := csr.setSstatus (BitVec.ofNat 64 (slotWord bs 0xC80))
    asid := BitVec.ofNat 16 (slotWord bs 0xCC8)
    sinceHint := 0
    wait := none
    ready := none
    lastIssue := none }

/-- Bytes as a reader takes them whose poisoned words read as 0 (R396). -/
def State.cleanBytes (s : State) (k n : Nat) : List Byte :=
  ((List.range (n / 4)).map fun i => if s.poisoned (k + 4 * i) 4 then List.replicate 4 0#8 else s.bytesAt (k + 4 * i) 4).foldr
    (· ++ ·) []

/-- Restores a saved hart; its trailing hart starts as a copy of it (R410). What the slot holds poisoned comes back as 0, and the
hart consumes it (R395, R396; log 154). -/
def State.restoreHart (s : State) (h : Nat) : State :=
  match s.hart? h with
  | none => s
  | some x =>
    match s.slotKey x with
    | none => s
    | some k =>
      let y := x.restored (s.cleanBytes k 4096) s.acyc
      let s0 := s.setHart h y
      let s1 := if s.poisoned k 4096 then s0.consumePoison h noForm ((s.slotVa x).map Prod.snd |>.getD 0#64) else s0
      let copy (z : Hart) : Hart :=
        { y with
          pair := some h
          trails := true
          slot := z.slot
          due := []
          log := []
          plainOut := none
          plainAns := none
          lvq := [] }
      { s1 with harts := s1.harts.map fun p => if p.2.trails && p.2.pair == some h then (p.1, copy p.2) else p }

/-- A scheduler core's write into a saved hart's slot, which a home performs, or holds and performs at the replay (R49). -/
def State.slotSend (s : State) (x : Hart) (off : Nat) (act : Piece) : State := match s.slotVa x with
  | some (asid, va) => s.unitSend (schedCtx asid) (addrPlus va off) act
  | none => s

/-- The residual of a gb.emit that goes on while its hart is saved goes to the workspace image in its slot (R272, R276), with LIVE set
(log 42). -/
def State.slotRes (s : State) (x : Hart) (res : W32) : State :=
  ((s.slotSend x 0xA8C (.store ((bytesOfNat 4 res.toNat).map some) none)).slotSend x 0x58 (.store ((bytesOfNat 8 1).map some) none)).slotSend
    x 8 (.bits 8 [(5, 1, 1#32)])

/-- A completion or failure for a saved hart goes to its slot (R219, R388): the register's value, and the pending bit. -/
def State.slotComplete (s : State) (x : Hart) (r : RegIdx) (v : Word) (pending : Bool) : State :=
  (s.slotSend x (0x80 + 8 * r.toNat) (.store ((bytesOfNat 8 v.toNat).map some) none)).slotSend x 0x10
    (.bits 8 [(r.toNat, 1, BitVec.ofNat 32 (b2n pending))])

end Sys2Proof.Machine
end

