-- ==== Sys2Proof/Machine/HartCtl.lean ====
section
/-! DEFINITION. Predicate word, hart control and system instructions (R141, R255 to R260, R366 to R368). -/

namespace Sys2Proof.Machine

open Sys2Proof

/-! ## Predicate word (R257) -/

/-- Changes pw. -/
def setPw (s : State) (h : Nat) (f : W32 → W32) : Res := .ok (s.modHart h fun x => { x with pw := f x.pw })

/-- Bit `d` of pw. -/
def pwBit (w : W32) (d : RegIdx) : Bool := w.getLsbD d.toNat

/-- pw with bit `d` replaced. -/
def pwPut (w : W32) (d : RegIdx) (b : Bool) : W32 :=
  let m : W32 := 1#32 <<< d.toNat
  if b then w ||| m else w &&& ~~~m

/-- PWSET. -/
def execPwset (rs1 : RegIdx) (s : State) : Host.Outcome State Fault Refusal :=
  .next (runHart (.pwset rs1) (xNames [rs1] [] .alone) (fun h x s => setPw s h fun w => w ||| lo32 (x.rx rs1)) s)

/-- PWCLR. -/
def execPwclr (rs1 : RegIdx) (s : State) : Host.Outcome State Fault Refusal :=
  .next (runHart (.pwclr rs1) (xNames [rs1] [] .alone) (fun h x s => setPw s h fun w => w &&& ~~~(lo32 (x.rx rs1))) s)

/-- PWAND. -/
def execPwand (d a b : RegIdx) (s : State) : Host.Outcome State Fault Refusal :=
  .next (runHart (.pwand d a b) (xNames [] [] .alone) (fun h _ s => setPw s h fun w => pwPut w d (pwBit w a && pwBit w b)) s)

/-- PWOR. -/
def execPwor (d a b : RegIdx) (s : State) : Host.Outcome State Fault Refusal :=
  .next (runHart (.pwor d a b) (xNames [] [] .alone) (fun h _ s => setPw s h fun w => pwPut w d (pwBit w a || pwBit w b)) s)

/-- PWNOT. -/
def execPwnot (d a : RegIdx) (s : State) : Host.Outcome State Fault Refusal :=
  .next (runHart (.pwnot d a) (xNames [] [] .alone) (fun h _ s => setPw s h fun w => pwPut w d (!(pwBit w a))) s)

/-- PWPOP. -/
def execPwpop (rd rs1 : RegIdx) (s : State) : Host.Outcome State Fault Refusal :=
  .next (runHart (.pwpop rd rs1) (xNames [rs1] [rd] .alone) (fun h x s =>
    setX s h rd (BitVec.ofNat 64 (popcountNat (x.pw &&& lo32 (x.rx rs1)).toNat 32))) s)

/-! ## Hart control -/

/-- GEND (R258): once every earlier access of the hart is complete, its slot is freed and it ends. -/
def execGend (s : State) : Host.Outcome State Fault Refusal :=
  .next (runHart .gend (xNames [] [] .leaves) (fun h _ s =>
    if (s.incomplete h).isEmpty then .okThen (fun t => t.endHart h) s else .wait 13 0#64 s) s)

/-- A hart in rotation: present, its group not parked, not out for a scrub, no plain access outstanding, no stop to be taken (R31,
R255). -/
def State.inRotation (s : State) (x : Hart) : Bool :=
  x.status == .present && x.scrub.isNone && x.plainOut.isNone && x.stopping.isNone
    && (match s.groupOf? x with
      | some g => !g.parked
      | none => false)

/-- A hart in rotation whose next issue opportunity has come: 4 A-cycles have passed since its last issue (R31). -/
def State.rotates (s : State) (x : Hart) : Bool := s.inRotation x && x.rested s.ncyc

/-- Whether a hart of a core is eligible (R31), but for a yield of its own: in rotation, with its next instruction's operands
available and nothing to wait for. -/
def State.eligible (s : State) (x : Hart) : Bool := s.rotates x && x.ready.isSome

/-- A yield is over: the hart counts as eligible from now on at the earliest (R32, R259). -/
def Hart.yieldDone (x : Hart) (acyc : Nat) : Hart :=
  { x with yieldEnd := none, yieldFor := [], ready := x.ready.map fun _ => acyc }

/-- YIELD (R259): out of issue until every hart that is eligible on the core now has issued or stopped being eligible, or
60 A-cycles have passed. -/
def execYield (s : State) : Host.Outcome State Fault Refusal :=
  .next (runHart .yield (xNames [] [] .alone) (fun h x s =>
    let others := (s.harts.filter fun p => p.1 != h && p.2.core == x.core && s.eligible p.2 && p.2.yieldEnd.isNone).map Prod.fst
    .ok (s.modHart h fun y =>
      { y with yieldEnd := if others.isEmpty then none else some (s.acyc + 60), yieldFor := others })) s)

/-! ## Migration (R45, R260) -/

/-- DXLOAD.FREE of a cluster as last refreshed. -/
def State.loadFree (s : State) (cl : Nat) : Nat := bitsOf (s.cluster cl).dxload.toNat 37 11

/-- The cluster that a home's accesses migrate to (R45). -/
def State.migTarget (s : State) (home : Nat) : Option Nat :=
  if isCC home then some home
  else if isMC home then
    let c := 2 * (home - 0x180)
    some (if s.loadFree c < s.loadFree (c + 1) then c + 1 else c)
  else none

/-- The conditions of R45 other than COUNT ≥ THRESH, which a migrate waits for too (R260; log 128). A plain access of which only the first piece is done is outstanding. -/
def State.migReady (s : State) (h : Nat) (x : Hart) : Bool :=
  !x.full && x.mig.thresh != 0#16 && x.log.isEmpty && x.status == .present && x.dxfut == 0#64 && decide (s.outstanding h = 0) && x.plainOut.isNone && x.priv == .u
    && !x.chisel.live && x.pair.isNone
    && (match s.groupOf? x with
      | some g => !g.parked
      | none => false)

/-- The entries of others whose bytes a hart has taken. -/
def State.othersSeen (s : State) (h : Nat) (x : Hart) : List Nat := x.saw.filter fun i => match tget s.pb i with
  | some e => !(e.owners.contains h)
  | none => false

/-- The post-buffer condition of R98. The entries of others whose bytes the hart has taken have been performed, so that its later
loads find them or something newer (R112); its own that a home holds replay before it resumes. -/
def State.entriesSettled (s : State) (h : Nat) : Bool :=
  ((s.entriesOf h).all fun p => p.2.held && !(s.held.any fun e => e.who == .entry p.1 && e.lostAt.isSome)) && (match s.hart? h with
    | some x => s.gateClear (s.othersSeen h x)
    | none => true)

/-- The entries that a hart's leaving waits for begin to drain. -/
def State.drainFor (s : State) (h : Nat) : State :=
  s.drain ((s.entriesOf h).map Prod.fst ++ (match s.hart? h with
    | some x => x.saw
    | none => []))

/-- Step 1 of R46: the hart leaves issue rotation and a slot is asked for at the target. A recvt that it waited in issues again with
a limit of its own (R237). -/
def State.startMigration (s : State) (h target : Nat) : State :=
  s.modHart h fun x => { x with
    status := .moving 0, migTo := some target, migCore := none, wait := none, yieldEnd := none, yieldFor := [], recvEnd := 0 }

/-- MIGRATE (R260): retires with no effect where the hart stays; waits for the conditions of R45 and R98; then the exchange. -/
def execMigrate (rs1 : RegIdx) (s : State) : Host.Outcome State Fault Refusal :=
  .next (runHart (.migrate rs1) (xNames [rs1] [] .alone) (fun h x s =>
    let a := x.rx rs1
    let home := vaHome a
    if !s.homeValid home then .trap 5 a 1 s
    else
      match s.migTarget home with
      | none => .ok s
      | some c =>
        if c = x.cluster ∨ x.full ∨ x.priv ≠ .u ∨ x.chisel.live ∨ x.pair.isSome then .ok s
        else if s.migReady h x && s.entriesSettled h then .okThen (fun t => t.startMigration h c) s
        else .wait 10 0#64 (s.drainFor h)) s)

/-! ## Pre-emption hints (R255) -/

/-- The address of a phint's live-range table. -/
def lrtAddr (pc : Word) (off : BitVec 18) : Option Word := if off = 0#18 then none else some (pc + off.signExtend 64 * 8#64)

/-- PHINT: starts the count of R54 again; with a stop request pending the hart stops before its next instruction, and is saved once
its relaxed loads have settled and its pair stands together (R307, R410). -/
def execPhint (lrtoff : BitVec 18) (livex livev : BitVec 16) (s : State) : Host.Outcome State Fault Refusal :=
  .next (runHart (.phint lrtoff livex livev) { xNames [] [] .leaves with hint := true } (fun h x s =>
    if !x.stopReq then .ok s
    else .okThen (fun t => t.stopNow h (.hint livex livev (lrtAddr x.pc lrtoff))) s) s)

/-! ## The base's system instructions -/

/-- WFI (R141): the hart waits; a boundary delivery that is due, or a stop request, ends the wait, and WFI retires. A stop is then
taken before the next instruction. -/
def execWfi (s : State) : Host.Outcome State Fault Refusal :=
  .next (runHart .wfi (xNames [] [] .alone) (fun h x s =>
    if x.stopReq then .okThen (fun t => t.stopNow h .full) s
    else if !x.due.isEmpty then .ok s
    else .wait 11 0#64 s) s)

/-- ECALL (R366, R368): cause 8 from U-mode, 9 from S-mode. -/
def execEcall (s : State) : Host.Outcome State Fault Refusal :=
  .next (runHart .ecall (xNames [] [] .alone) (fun _ x s => .trap (if x.priv = .u then 8 else 9) 0#64 0 s) s)

/-- SRET (R367): in U-mode it is illegal. A stop request that met a trap applies where it returns to U-mode (R387). -/
def execSret (s : State) : Host.Outcome State Fault Refusal :=
  let t := runHart .sret (xNames [] [] .alone) (fun h x s =>
    if x.priv = .u then .trap 2 (bitsOfEnc (encode .sret)) 0 s
    else .jump x.csr.sepc (s.modHart h Hart.sret)) s
  .next (match s.hart? s.cur, t.hart? s.cur with
    | some x, some y => if x.priv != .u && y.priv == .u && x.stopSret then t.stopNow s.cur .full else t
    | _, _ => t)

/-! ## Where no instruction is decoded -/

/-- Raises a trap for the hart `cur` before an instruction's own checks. -/
def raiseNow (s : State) (cause : Nat) (tval : Word) (sub : Nat) (fo : FormOp) : State :=
  match s.hart? s.cur with
  | none => s
  | some x =>
    if x.trails then s.hartWait s.cur 15 0#64
    else s.settle s.cur x (xNames [] [] .alone) 4 fo (.trap cause tval sub s)

/-- FORM and OP of a word that is no instruction: those of its opcode. -/
def illegalForm (bits : Word) : FormOp :=
  let lo := bits.extractLsb' 0 32
  if lo.extractLsb' 0 7 = 0x3F#7 then formOfEnc (some (.w64 lo (bits.extractLsb' 32 32))) else formOfEnc (some (.w32 lo))

/-- ILLEGAL_INSTRUCTION (R146, R373): cause 2 at the word's own address. -/
def execIllegalInstruction (bits : Word) (s : State) : Host.Outcome State Fault Refusal :=
  .next (raiseNow s 2 bits 0 (illegalForm bits))

/-- INSTRUCTION_ACCESS_FAULT (R369, R389): the fetch failed. -/
def execInstructionAccessFault (cause sub : Nat) (addr : Word) (s : State) : Host.Outcome State Fault Refusal :=
  .next (raiseNow s cause addr sub noForm)

end Sys2Proof.Machine
end

