-- ==== Sys2Proof/Machine/Retire.lean ====
section
/-! DEFINITION. The stop of a group (R54, R214), and the first step of a core's retirement (R405, R418). -/

namespace Sys2Proof.Machine

open Sys2Proof

/-! ## Stopping a group -/

/-- A group of the part that has not ended. -/
def State.liveGroup (s : State) (gi : Nat) : Bool := match tget s.groups gi with
  | some g => !g.ended
  | none => false

/-- A stop reaches a group: its commands that are not accepted are withdrawn (R214). -/
def State.stopGroup (s : State) (gi : Nat) : State :=
  match tget s.groups gi with
  | none => s
  | some g =>
    let out (t : Tile) : Bool := t.group == gi && !t.accepted
    let pi := s.plinthOf g
    let w := (s.plinth pi).queue.filter out
    (s.modPlinth pi fun p => { p with queue := p.queue.filter fun t => !(out t) }).modGroup gi fun x =>
      { x with away := 1, withdrawn := x.withdrawn ++ w }

/-! ## Retiring a core (R418) -/

/-- The block and the grid of a group. -/
def State.blockGrid (s : State) (gi : Nat) : Option (Nat × Block × Grid) :=
  (tget s.groups gi).bind fun g => (tget s.blocks g.block).bind fun b => (tget s.grids b.grid).map fun gr => (g.block, b, gr)

/-- A group whose block stays where it is. -/
def State.inPlace (s : State) (gi : Nat) : Bool := match s.blockGrid gi with
  | some (_, b, _) => b.status == .placed
  | none => false

/-- The harts that take a slot of a physical core: trailing harts among them, those whose context message is not
sent, and those that are coming back from their slots. -/
def State.coreHarts (s : State) (core : Nat) : List (Nat × Hart) := s.harts.filter fun p =>
  p.2.core == core && (match p.2.status with
    | .present | .unstarted => true
    | .moving n => decide (n ≠ 2)
    | .saved => (s.groupOf? p.2).map Group.away == some 3
    | _ => false)

/-- The groups that a core's retirement stops: those whose window it holds, and those with harts on it. -/
def State.coreGroups (s : State) (core : Nat) : List Nat := (s.groups.filter fun p =>
  !p.2.ended && ((s.core core).win == some p.2.win || (s.coreHarts core).any fun h => h.2.group == p.1)).map Prod.fst

/-- A core leaves service: its record (R405 KIND 14), which names the window that it holds (0 where it holds none: log 155), and the
health word (R442). -/
def State.retireMark (s : State) (core : Nat) : State :=
  if (s.core core).retired then s
  else
    let win := match (s.core core).win with
      | some w => winNum w
      | none => 0
    ((s.modCore core fun c => { c with retired := true }).logRec 14 (core / 100) (core % 100 + 2 ^ 8 * win) 0 0 1).syncHealth false

/-- A core's retirement begins (R418): nothing further is placed on it, and its groups are stopped. -/
def State.beginRetire (s : State) (core : Nat) : State :=
  if (s.core core).retired then s
  else
    let s1 := (s.retireMark core).modCluster (core / 100) fun k => { k with ueTimes := k.ueTimes.filter fun u => u.2 != core % 100 }
    ((s1.coreGroups core).filter s1.inPlace).foldl (fun (t : State) gi => match tget t.groups gi with
      | some g => if g.away = 0 then t.stopGroup gi else t
      | none => t) s1

end Sys2Proof.Machine
end

