-- ==== Sys2Proof/Machine/EvPlinth.lean ====
section
/-! DEFINITION. What a plinth does (R193 to R213, R134 to R137, R395, R413, R414): accepting a tile command, performing and
retiring it, the ends of leases, handovers, and trings that wait. -/

namespace Sys2Proof.Machine

open Sys2Proof

/-! ## Passes (R128, R134, R135, R137, R204) -/

/-- A line with its tag, as a pass takes it. -/
structure TLine where
  line : Nat
  tag : BitVec 16
  poison : Bool
deriving DecidableEq, Repr

/-- What R128 has against a line (R413): SUB 1 to 3, 0 for nothing. -/
def lineSub (c : Tcfg) (tag : BitVec 16) : Nat :=
  let code := tag.toNat / 512
  let s9 := tag.toNat % 512
  match fmtOfCode code with
  | none => 1
  | some E =>
    let isInt : Bool := match E.kind with
      | .int _ => true
      | _ => false
    if E.width ≠ classWidth c.width ∨ (isInt ∧ E.width = 16) then 1
    else if c.int && !isInt then 2
    else if s9Bad s9 || (isInt && s9 != 0) then 3
    else 0

/-- The exact value of element `j` of a line (R126). -/
def TLine.value (l : TLine) (w j : Nat) : Ext := match fmtOfCode (l.tag.toNat / 512) with
  | some E => mulS9 (E.decode (elemAt l.line w j)) (l.tag.toNat % 512)
  | none => .zero

/-- Where A's element of row `r` at K-step `k` stands: line and element (R204). -/
def posA (kmajor : Bool) (w : BitVec 2) (r k : Nat) : Nat × Nat :=
  if !kmajor then (r, k)
  else if classWidth w = 4 then (k / 2, k % 2 * 64 + r)
  else if classWidth w = 16 then (2 * k + r / 32, r % 32)
  else (k, r)

/-- Where B's element of column `c` at K-step `k` stands. -/
def posB (tra : Bool) (w : BitVec 2) (c k : Nat) : Nat × Nat :=
  if tra then (c, k)
  else if classWidth w = 4 then (k, c)
  else if classWidth w = 16 then (4 * k + c / 32, c % 32)
  else (2 * k + c / 64, c % 64)

/-- The element at a place among the lines that a pass has taken. -/
def elemOf (ls : Table TLine) (w : BitVec 2) (p : Nat × Nat) : Ext := match tget ls p.1 with
  | some l => l.value (classWidth w) p.2
  | none => .zero

/-- The exponent of the largest nonzero product. -/
def topExp : List Ext → Option Int
  | [] => none
  | .fin _ n d :: r =>
    if n = 0 then topExp r
    else
      let e := floorLog2 n d
      some (match topExp r with
        | some f => if e < f then f else e
        | none => e)
  | _ :: r => topExp r

/-- A product in quarters of `u`, truncated with its sticky quarter (R134). -/
def alignQuarter (u : Int) (p : Ext) : Int :=
  match p with
  | .fin s n d =>
    let x := n * pow2Den u
    let y := d * pow2Num u
    let q : Int := (4 * (x / y) + (if x % y = 0 then 0 else 1) : Nat)
    if s then -q else q
  | _ => 0

/-- The pass sum `s` of R134 and R135. -/
def passSum (ps : List Ext) : Ext :=
  let pos := ps.any fun p => p.isInf && !p.isNeg
  let neg := ps.any fun p => p.isInf && p.isNeg
  if ps.any Ext.isNan || (pos && neg) then .nan false
  else if pos then .inf false
  else if neg then .inf true
  else
    match topExp ps with
    | none => .zero
    | some e =>
      let u := e - 47
      let s := ps.foldl (fun a p => a + alignQuarter u p) 0
      if s = 0 then .zero else (Ext.ofInt s).scale (u - 2)

/-- The inner accumulator after a pass, and whether an integer one saturated (R134, R137). -/
def innerNext (int : Bool) (inner : Ext) (ps : List Ext) : Ext × Bool :=
  if int then
    let x := ps.foldl (fun a p => a + (p.toInt .rne).1) (inner.toInt .rne).1
    let y := clampInt (-(2 ^ 23 - 1)) (2 ^ 23 - 1) x
    (Ext.ofInt y, y != x)
  else (rneSig 40 (inner.add .rne (passSum ps)).1, false)

/-- The participating cells (R194), by 128 row + column. -/
def cellsOf (rows cols : Nat) : List Nat := ((List.range rows).map fun r => (List.range cols).map fun c => 128 * r + c).foldr (· ++ ·) []

/-- One pass on an accumulator, with the promotion it may complete; answers whether IOVF is raised. -/
def Accum.pass (a : Accum) (kmajor : Bool) (c : Tcfg) (rows cols : Nat) (la lb : Table TLine) : Accum × Bool :=
  let cells := cellsOf rows cols
  let r := cells.foldl (fun (acc : Table Ext × Bool) i =>
    let ps := (List.range (classSteps c.width)).map fun k =>
      ((elemOf la c.width (posA kmajor c.width (i / 128) k)).mul (elemOf lb c.width (posB c.tra c.width (i % 128) k))).1
    let n := innerNext c.int (tgetD acc.1 i Ext.zero) ps
    (tset acc.1 i n.1, acc.2 || n.2)) (a.inner, false)
  let a1 : Accum := { a with inner := r.1, pend := a.pend ++ cells.filter fun i => !(a.pend.contains i), passes := a.passes + 1 }
  if a1.passes = 2 ^ c.plog2.toNat then
    let p := a1.promote c.int
    (p.1, r.2 || p.2)
  else (a1, r.2)

/-- Poison in a line: every participating cell becomes the marker, and nothing of it stays pending (R395). -/
def Accum.spoil (a : Accum) (int : Bool) (rows cols : Nat) : Accum :=
  let cells := cellsOf rows cols
  let v : W32 := if int then 0x80000000#32 else nan32
  let b := cells.foldl (fun (x : Accum) i => x.put i v) a
  { b with inner := b.inner.filter fun p => !(cells.contains p.1), pend := b.pend.filter fun i => !(cells.contains i) }

/-! ## The plinth's reads and writes -/

/-- What the lines of a command came to. -/
inductive TRead where
  | got (ls : List TLine)
  /-- These lines came, then one failed at its port. -/
  | fail (ls : List TLine) (cause sub : Nat) (addr : Word)
  /-- A home holds one of them. -/
  | held
deriving DecidableEq, Repr

/-- A request of a plinth for one line. -/
def State.tileReq (s : State) (pi : Nat) (t : Tile) (va : Word) (act : Piece) (kind : AccKind) : PortRes × State :=
  s.request (Req.unit va 64 kind t.ctx) act (.tile pi t.id) false none (siteOfHome (pi / 4))

/-- Reads lines in order. -/
def State.tileRead (s : State) (pi : Nat) (t : Tile) : List Word → List TLine → TRead × State
  | [], got => (.got got, s)
  | a :: r, got =>
    match s.tileReq pi t a (.load 64) .load with
    | (.ans (.data b tag p), s1) => s1.tileRead pi t r (got ++ [⟨natOfBytes b, tag, p⟩])
    | (.ans (.fail cause sub addr), s1) => (.fail got cause sub addr, s1)
    | (_, s1) => (.held, s1)

/-- Writes lines in order from the one that the command has come to; nothing when all are written, else a failure, or 0 for
a line that a home holds. -/
def State.tileWrite (s : State) (pi : Nat) (t : Tile) : List (Word × List Byte × BitVec 16) → Option (Nat × Nat × Word) × State
  | [] => (none, s)
  | (a, b, tag) :: r =>
    match s.tileReq pi t a (.store (b.map some) (some tag)) .store with
    | (.ans (.fail cause sub addr), s1) => (some (cause, sub, addr), s1)
    | (.ans _, s1) =>
      (s1.modPlinth pi fun p => { p with queue := p.queue.map fun u => if u.id = t.id then { u with wrote := u.wrote + 1 } else u }).tileWrite
        pi t r
    | (_, s1) => (some (0, 0, a), s1)

/-! ## Lines of transfers (R209 to R211) -/

/-- Elements in a line of a format. -/
def ElemFmt.epl (E : ElemFmt) : Nat := elemsPerLine E.width
/-- Bytes from one row to the next. -/
def ElemFmt.pitch (E : ElemFmt) : Nat := 64 * ((128 + E.epl - 1) / E.epl)

/-- The lines of a transfer: row and line in the row, in order. -/
def rowLinesOf (rows perRow : Nat) : List (Nat × Nat) :=
  ((List.range rows).map fun r => (List.range perRow).map fun l => (r, l)).foldr (· ++ ·) []

/-- Lines of a row that hold a participating element. -/
def ElemFmt.used (E : ElemFmt) (cols : Nat) : Nat := (cols + E.epl - 1) / E.epl

/-- The bits that tldc writes for an element (R210). -/
def tldcBits (ef : BitVec 5) (e : Nat) : W32 :=
  if ef = 6#5 ∨ ef = 16#5 then BitVec.ofNat 32 e
  else match fmtOfEF ef with
    | some E => (match E.decode e with
      | .nan _ => nan32
      | x => (roundF32 .rne x).1)
    | none => 0#32

/-- One element of tstc (R211): its code, and NAN, INEXACT and OVF; an invalid conversion of a source that is no NaN counts as OVF
(log 136). -/
def tstcElem (E : ElemFmt) (int sat : Bool) (s9 : Nat) (c : W32) : Nat × Bool × Bool × Bool :=
  if s9Bad s9 then (0, true, false, false)
  else
    let cv : Ext := if int then Ext.ofInt c.toInt else f32 c
    let x := divS9 cv s9
    let whole : Bool := (x.toInt .rne).2
    let isInt : Bool := match E.kind with
      | .int _ => true
      | _ => false
    let wraps : Bool := isInt && int && whole && !sat
    let r := E.encode (sat && E.width != 32) wraps x
    let fl (f : FFlags) : Bool := r.2 &&& f != 0#5
    let gave : Bool := (E.decode r.1).isNan
    let lost : Bool := match E.kind with
      | .int s => wraps && Ext.cmp (Ext.ofInt (intOf s E.width r.1)) x != 0
      | _ => false
    (r.1, cv.isNan || gave, fl flagNX || lost, fl flagOF || (fl flagNV && !cv.isNan))

/-- AMAX (R211). -/
def amaxOf (int : Bool) (cs : List W32) : W32 :=
  if int then (roundF32 .rne (Ext.ofInt ((cs.foldl (fun m c => max m c.toInt.natAbs) 0 : Nat) : Int))).1 else maxAbs cs

/-- The 64 bytes of a line of elements. -/
def packLine (w : Nat) (es : List Nat) : List Byte :=
  bytesOfNat 64 ((List.range es.length).foldl (fun a i => a + es.getD i 0 % 2 ^ w * 2 ^ (w * i)) 0)

/-- What tstc writes: lines, and the completion value. -/
def tstcLines (a : Accum) (t : Tile) (E : ElemFmt) (int sat : Bool) (s9 : Nat) (base : Word) :
    List (Word × List Byte × BitVec 16) × Word :=
  let tag : BitVec 16 := if E.code = 0 then 0#16 else BitVec.ofNat 16 (E.code * 512 + s9)
  let conv (i : Nat) := tstcElem E int sat s9 (a.cell i)
  let lines := (rowLinesOf t.rows (E.used t.cols)).map fun p =>
    let es := (List.range E.epl).map fun j =>
      let c := p.2 * E.epl + j
      if c < t.cols then (conv (128 * p.1 + c)).1 else 0
    (addrPlus base (p.1 * E.pitch + 64 * p.2), packLine E.width es, tag)
  let cells := cellsOf t.rows t.cols
  let rs := cells.map conv
  let fl := b2n (rs.any fun r => r.2.2.2) + 2 * b2n (rs.any fun r => r.2.2.1)
    + 4 * b2n (s9Bad s9 || (rs.any fun r => r.2.1))
  (lines, amaxOf int (cells.map a.cell) ++ BitVec.ofNat 32 fl)

/-- What tsave writes. -/
def tsaveLines (a : Accum) (int : Bool) (base : Word) : List (Word × List Byte × BitVec 16) :=
  (rowLinesOf 64 8).map fun p =>
    (addrPlus base (512 * p.1 + 64 * p.2),
      packLine 32 ((List.range 16).map fun j => (a.cell (128 * p.1 + 16 * p.2 + j)).toNat),
      if int then 0x0A00#16 else 0x3000#16)

/-- Writes a cell from memory: inner accumulator and pending flag at 0. -/
def Accum.loadCells (a : Accum) (vals : List (Nat × W32)) : Accum :=
  let b := vals.foldl (fun (x : Accum) v => x.put v.1 v.2) a
  { b with
    inner := b.inner.filter fun p => !(vals.any fun v => v.1 == p.1)
    pend := b.pend.filter fun i => !(vals.any fun v => v.1 == i) }

/-! ## Costs and acceptance (R196, R206, R213) -/

/-- T of R213. -/
def passTime (w : BitVec 2) : Nat := if classWidth w = 16 then 128 else 64

/-- A command's cost. -/
def Tile.cost (t : Tile) : Nat :=
  match t.what with
  | .mma _ _ _ _ n => 12 + n * passTime t.cfg.width
  | .zero _ => 16
  | .ldc _ _ _ | .stc _ _ _ _ _ => 16 + 2 * t.rows
  | .save _ _ | .load _ _ => 272
  | _ => 4

/-- A matrix command. -/
def Tile.isMma (t : Tile) : Bool := match t.what with
  | .mma _ _ _ _ _ => true
  | _ => false

/-- The A-cycle at which an accepted command begins: when the plinth is free, less the overlap of R213. -/
def State.tileStart (s : State) (p : Plinth) (t : Tile) : Nat :=
  if p.busyTo ≤ s.acyc then s.acyc
  else if t.isMma && p.lastMma then max s.acyc (p.busyTo - 12)
  else p.busyTo

/-- Lines that a command takes, by ring. -/
def Tile.takes (t : Tile) : List (Nat × Nat) := match t.what with
  | .mma _ _ a b _ => if a = b then [(a, t.na + t.nb)] else [(a, t.na), (b, t.nb)]
  | _ => []

/-- The window of a tile command's group. -/
def State.tileWin (s : State) (t : Tile) : Nat := match tget s.groups t.group with
  | some g => g.win
  | none => 0

/-- The rings hold every line of a command beyond the lines claimed, and no tring of them is to come first (R202, R206). -/
def State.ringsReady (s : State) (t : Tile) : Bool :=
  let w := s.tileWin t
  t.takes.all fun p =>
    let r := tgetD (s.window w).rings p.1 Ring.zero
    !(s.tringPending w p.1 fun o _ => decide (o < t.id)) && decide (p.2 + r.claim ≤ (r.tail - r.head).toNat)

/-- Changes rings by what a command takes. -/
def State.modRings (s : State) (t : Tile) (f : Ring → Nat → Ring) : State :=
  let w := s.tileWin t
  t.takes.foldl (fun (a : State) p => a.modWindow w fun x =>
    { x with rings := tset x.rings p.1 (f (tgetD x.rings p.1 Ring.zero) p.2) }) s

/-- STATUS and TCFG as tstat reports them (R212), to a group that holds the lease or not. -/
def State.tstatWord (s : State) (pi : Nat) (t : Tile) : Word :=
  let p := s.plinth pi
  let mine := p.heldBy t.group
  BitVec.ofNat 64 (b2n (mine && p.iovf) * 2 + b2n (mine && p.chk) * 4 + 2 ^ 13 * (pi % 4) + 2 ^ 15 * b2n mine
    + (if mine then 2 ^ 18 * (p.cmdLeft % 128) + 2 ^ 32 * (s.cycLeft p % 2 ^ 13) else 0)
    + 2 ^ 48 * p.cfg.width.toNat + 2 ^ 50 * b2n p.cfg.int + 2 ^ 51 * p.cfg.plog2.toNat + 2 ^ 54 * b2n p.cfg.tra
    + 2 ^ 55 * b2n p.cfg.chk)

/-- A tile command leaves the plinth. -/
def State.dropTile (s : State) (pi : Nat) (t : Tile) : State :=
  (s.modPlinth pi fun p => { p with queue := p.queue.filter fun u => u.id != t.id }).modGroup t.group fun g =>
    { g with tiles := g.tiles.filter fun i => i != t.id }

/-- No accepted command is left in a plinth. -/
def Plinth.settled (p : Plinth) : Bool := p.queue.all fun t => !t.accepted

/-- A stop has reached the plinth's holder: the lease ends only once its accumulators are saved (R214). -/
def State.leaseKept (s : State) (p : Plinth) : Bool := match p.holder.bind fun g => tget s.groups g with
  | some g => g.away == 1 && !g.ended
  | none => false

/-- The lease has ended by its counts, and its accepted commands have retired (R196). -/
def State.leaseOver (s : State) (p : Plinth) : Bool :=
  p.holder.isSome && p.settled && !(s.leaseKept p) && (decide (p.cmdLeft = 0) || decide (p.leaseEnd ≤ s.acyc))

/-- Accepts the holder's next command. -/
def State.acceptTile (s : State) (pi : Nat) (t : Tile) : State :=
  let p := s.plinth pi
  let start := s.tileStart p t
  if p.leaseEnd < start + t.cost then (if p.settled then s.endLease pi false else s)
  else
    let fin := start + t.cost
    let s1 := s.modPlinth pi fun q =>
      { q with
        cmdLeft := q.cmdLeft - 1
        queue := q.queue.map fun u => if u.id = t.id then { u with accepted := true, retireAt := fin } else u
        lastHart := some (t.hart, t.fo)
        busyTo := fin
        lastMma := t.isMma }
    s1.modRings t fun r n => { r with claim := r.claim + n }

/-- A tstat of a group without the lease completes once its group has no earlier command (R212) and its release is done (R109). -/
def State.bareStat (s : State) (pi : Nat) : State :=
  let p := s.plinth pi
  let first (t : Tile) : Bool := match p.queue.find? fun u => u.group == t.group with
    | some u => u.id == t.id
    | none => false
  match p.queue.find? fun t => t.what == .stat && p.holder != some t.group && first t && s.gateClear t.gate with
  | some t =>
    let s1 := s.dropTile pi t
    match t.op with
    | some o => s1.opDone o (s.tstatWord pi t)
    | none => s1
  | none => s

/-- TILE_COMMAND_ACCEPT: the holder's first command that is not accepted, where R206 lets it. A plinth without a holder first
grants its lease to a waiter whose release is done. -/
def doTileAccept (s0 : State) : State :=
  let pi := s0.subj
  let s := (s0.tryRelease pi).wakePlinth pi
  let p := s.plinth pi
  if s.leaseOver p then s.endLease pi false
  else
    match p.queue.find? fun t => p.holder == some t.group && !t.accepted with
    | some t =>
      if t.what = .release then s.bareStat pi
      else if p.cmdLeft = 0 ∨ !(s.gateClear t.gate) ∨ !(s.ringsReady t) then s.bareStat pi
      else s.acceptTile pi t
    | none => s.bareStat pi

/-! ## Retirement -/

/-- A command retires: its lines are popped, its future completes or fails, a saturation is delivered, the lease ends with its
64th command, and a trelease behind it acts. -/
def State.retireTile (s : State) (pi : Nat) (t : Tile) (before : Plinth) (r : Except (Nat × Nat × Nat × Word) Word) : State :=
  let s1 := (s.dropTile pi t).modRings t fun x n => { x with head := x.head + BitVec.ofNat 32 n, claim := x.claim - n }
  let s2 := match t.op, r with
    | some o, .ok v => s1.opDone o v
    | some o, .error (cause, sub, count, a) => s1.opFail o cause sub count a
    | none, .ok _ => s1
    | none, .error (cause, sub, _, a) => s1.failTile t cause sub a
  let s3 := s2.iovfTrap before (s2.plinth pi) (some (t.hart, t.fo))
  let p := s3.plinth pi
  if s3.leaseOver p then s3.endLease pi false else s3.tryRelease pi

/-- A checksum mismatch of one pass (R411, R412): whether its repeat mismatches too, and SUB. -/
structure Misfit where
  again : Bool
  sub : Nat
deriving DecidableEq, Repr

/-- What a free value makes of the check of one pass: no fault of the hardware, or one (log 3). -/
def misfitOf (w : Word) : Option Misfit :=
  if w.getLsbD 63 then some ⟨w.getLsbD 62, 1 + bitsOf w.toNat 20 8 % 3⟩ else none

/-- A pass in float mode that meets a NaN, an infinite product or infinity times zero is not compared (R411). -/
def passCompared (kmajor : Bool) (c : Tcfg) (rows cols : Nat) (la lb : Table TLine) : Bool :=
  c.int || (cellsOf rows cols).all fun i => (List.range (classSteps c.width)).all fun k =>
    match ((elemOf la c.width (posA kmajor c.width (i / 128) k)).mul (elemOf lb c.width (posB c.tra c.width (i % 128) k))).1 with
    | .nan _ => false
    | .inf _ => false
    | _ => true

/-- A pass that mismatched on its repeat (R412). -/
def Accum.mismatch (a : Accum) (int : Bool) (rows cols : Nat) : Accum :=
  { a.spoil int rows cols with inner := [], pend := [], passes := 0 }

/-- The outcome of the passes of a matrix command on an accumulator: the accumulator, IOVF, a failure, the lines left, and how many
passes were repeated and matched. `mf` gives each pass, by the passes left after it, what its check finds. -/
def runPasses (kmajor : Bool) (t : Tile) (nA nB : List Nat) (mf : Nat → Option Misfit) : Nat → List TLine → Accum → Bool → Nat →
    Accum × Bool × Option (Nat × Nat) × List TLine × Nat
  | 0, ls, a, o, rep => (a, o, none, ls, rep)
  | n + 1, ls, a, o, rep =>
    let k := nA.length + nB.length
    let mine := ls.take k
    match mine.findSome? fun l =>
        if l.poison then some (56, 14)
        else if lineSub t.cfg l.tag = 0 then none else some (51, lineSub t.cfg l.tag) with
    | some (cause, sub) =>
      if cause = 56 then (a.spoil t.cfg.int t.rows t.cols, o, some (cause, sub), ls, rep) else (a, o, some (cause, sub), ls, rep)
    | none =>
      if mine.length < k then (a, o, none, ls, rep)
      else
        let put (ns : List Nat) (xs : List TLine) : Table TLine :=
          (ns.zip xs).foldl (fun (m : Table TLine) p => tset m p.1 p.2) []
        let la := put nA mine
        let lb := put nB (mine.drop nA.length)
        let bad := if passCompared kmajor t.cfg t.rows t.cols la lb then mf n else none
        let r := a.pass kmajor t.cfg t.rows t.cols la lb
        (match bad with
          | some m =>
            if m.again then (a.mismatch t.cfg.int t.rows t.cols, o, some (54, m.sub), ls, rep)
            else runPasses kmajor t nA nB mf n (ls.drop k) r.1 (o || r.2) (rep + 1)
          | none => runPasses kmajor t nA nB mf n (ls.drop k) r.1 (o || r.2) rep)

/-- The addresses of the lines that a matrix command takes, pass by pass: A lines, then B lines (R206). -/
def State.mmaAddrs (s : State) (t : Tile) (a b passes nA nB : Nat) : List Word :=
  let w := s.tileWin t
  let ra := tgetD (s.window w).rings a Ring.zero
  let rb := tgetD (s.window w).rings b Ring.zero
  let at_ (r : Ring) (i : Nat) : Word := addrPlus r.base (64 * ((r.head + BitVec.ofNat 32 i).toNat % r.lines))
  ((List.range passes).map fun p =>
    if a = b then (List.range (nA + nB)).map fun i => at_ ra (p * (nA + nB) + i)
    else ((List.range nA).map fun i => at_ ra (p * nA + i)) ++ (List.range nB).map fun i => at_ rb (p * nB + i)).foldr (· ++ ·) []

/-- What a checksum mismatch leaves beside the accumulator (R405, R412): DXTSTAT.CHK and a KIND 13 record, or a KIND 12 record;
each repeat takes another T A-cycles. -/
def State.noteMisfit (s : State) (pi : Nat) (t : Tile) (failed : Bool) (repeated : Nat) : State :=
  let w := s.tileWin t
  let core := match s.gran w 16 with
    | .core cl pc => some (100 * cl + pc)
    | _ => none
  let later (p : Plinth) : Plinth := { p with busyTo := p.busyTo + passTime t.cfg.width }
  let s1 := (List.range repeated).foldl (fun (u : State) _ => (u.modPlinth pi later).logRec 12 (pi / 4) (pi % 4) 0 0 1) s
  if failed then
    let s2 := (s1.modPlinth pi fun p => { later p with chk := true }).logRec 13 (pi / 4)
      (2 ^ 16 * (core.getD 0 % 100) + 2 ^ 8 * winNum w + pi % 4) 0 0 1
    -- The record names the core that holds the lessee's window, which the scheduler core retires (R418).
    match core with
    | some c => s2.beginRetire c
    | none => s2
  else s1

/-- A matrix command is performed and retires (R206, R395, R411 to R413). -/
def State.retireMma (s : State) (pi : Nat) (t : Tile) (kmajor : Bool) (acc a b passes : Nat) : State :=
  let before := s.plinth pi
  let nA := linesA kmajor t.cfg.width t.rows
  let nB := linesB t.cfg.tra t.cfg.width t.cols
  let go (ls : List TLine) (why : Option (Nat × Nat × Word)) (s0 : State) : State :=
    let s1 := if t.cfg.chk then s0.skipFree passes else s0
    let check (n : Nat) : Option Misfit := if t.cfg.chk then misfitOf (s0.freeAt n) else none
    let r := runPasses kmajor t nA nB check passes ls (before.acc acc) false 0
    let bad : Bool := match r.2.2.1 with
      | some (cause, _) => cause == 54
      | none => false
    let s2 := (s1.modPlinth pi fun p => { p.setAcc acc r.1 with iovf := p.iovf || r.2.1 }).noteMisfit pi t bad r.2.2.2.2
    let out : Except (Nat × Nat × Nat × Word) Word := match r.2.2.1, why with
      | some (cause, sub), _ => .error (cause, sub, 0, 0#64)
      | none, some (cause, sub, addr) => .error (cause, sub, 0, addr)
      | none, none => .ok (BitVec.ofNat 64 (2 ^ 16 * t.nb + t.na))
    s2.retireTile pi t before out
  match t.fail with
  | some (cause, sub, addr) => go [] (some (cause, sub, addr)) s
  | none =>
    match s.tileRead pi t (s.mmaAddrs t a b passes nA.length nB.length) [] with
    | (.got ls, s1) => go ls none s1
    | (.fail ls cause sub addr, s1) => go ls (some (cause, sub, addr)) s1
    | (.held, s1) => s1

/-- tldc and tload (R209, R210): every line is read before any cell is written, and a failure changes
nothing, the promotion included. -/
def State.retireLoad (s : State) (pi : Nat) (t : Tile) (acc : Nat) (addrs : List Word) (cells : List TLine → List (Nat × W32)) : State :=
  let before := s.plinth pi
  match t.fail with
  | some (cause, sub, addr) => s.retireTile pi t before (.error (cause, sub, 0, addr))
  | none =>
    match s.tileRead pi t addrs [] with
    | (.held, s1) => s1
    | (.fail _ cause sub addr, s1) => s1.retireTile pi t before (.error (cause, sub, 0, addr))
    | (.got ls, s1) =>
      if ls.any fun l => l.poison then s1.retireTile pi t before (.error (56, 14, 0, 0#64))
      else
        let s2 := s1.modPlinth pi fun p => p.promote acc
        (s2.modPlinth pi fun p => p.setAcc acc ((p.acc acc).loadCells (cells ls))).retireTile pi t before
          (.ok (statusWord false false 32768))

/-- tstc and tsave (R209, R211): the lines in order; a failure stops the command there. -/
def State.retireStore (s : State) (pi : Nat) (t : Tile) (acc : Nat) (out : Accum → List (Word × List Byte × BitVec 16) × Word) :
    State :=
  let before := s.plinth pi
  let s1 := s.modPlinth pi fun p => p.promote acc
  let o := out ((s1.plinth pi).acc acc)
  let fails (cause sub : Nat) (a : Word) (u : State) : State :=
    let n := match (u.plinth pi).queue.find? fun v => v.id == t.id with
      | some v => v.wrote
      | none => 0
    u.retireTile pi t before (.error (cause, sub, 64 * n, a))
  match t.fail with
  | some (cause, sub, addr) => fails cause sub addr s1
  | none =>
    match s1.tileWrite pi t (o.1.drop t.wrote) with
    | (none, s2) => s2.retireTile pi t before (.ok o.2)
    | (some (cause, sub, a), s2) => if cause = 0 then s2 else fails cause sub a s2

/-- tcfg promotes where MODE, WIDTH or P changes (R205). -/
def Plinth.takeCfg (p : Plinth) (c : Tcfg) : Plinth :=
  let q := if p.cfg.width != c.width || p.cfg.int != c.int || p.cfg.plog2 != c.plog2 then p.promoteAll else p
  { q with cfg := c }

/-- Performs and retires one accepted command. -/
def State.performTile (s : State) (pi : Nat) (t : Tile) : State :=
  let p := s.plinth pi
  match t.what with
  | .cfg c => (s.modPlinth pi fun q => q.takeCfg c).retireTile pi t p (.ok 0#64)
  | .zero k =>
    (s.modPlinth pi fun q =>
      let r := q.promote k
      r.setAcc k Accum.zero).retireTile pi t p (.ok 0#64)
  | .mma kmajor k a b n => s.retireMma pi t kmajor k a b n
  | .ldc k ef base =>
    let E := (fmtOfEF ef).getD ⟨32, .int true, 5⟩
    let ps := rowLinesOf t.rows (E.used t.cols)
    s.retireLoad pi t k (ps.map fun q => addrPlus base (q.1 * E.pitch + 64 * q.2)) fun ls =>
      ((ps.zip ls).map fun q => ((List.range E.epl).filter fun j => decide (q.1.2 * E.epl + j < t.cols)).map fun j =>
        (128 * q.1.1 + q.1.2 * E.epl + j, tldcBits ef (elemAt q.2.line E.width j))).foldr (· ++ ·) []
  | .load k base =>
    let ps := rowLinesOf 64 8
    s.retireLoad pi t k (ps.map fun q => addrPlus base (512 * q.1 + 64 * q.2)) fun ls =>
      ((ps.zip ls).map fun q => (List.range 16).map fun j =>
        (128 * q.1.1 + 16 * q.1.2 + j, BitVec.ofNat 32 (elemAt q.2.line 32 j))).foldr (· ++ ·) []
  | .stc k ef sat s9 base =>
    let E := (fmtOfEF ef).getD ⟨32, .int true, 5⟩
    s.retireStore pi t k fun a => tstcLines a t E p.cfg.int sat s9 base
  | .save k base => s.retireStore pi t k fun a => (tsaveLines a p.cfg.int base, statusWord false false 32768)
  | .stat =>
    let s1 := s.modPlinth pi Plinth.promoteAll
    s1.retireTile pi t p (.ok (s1.tstatWord pi t))
  | .release => s

/-- A home holds a line of this command. -/
def State.tileHeld (s : State) (pi : Nat) (t : Tile) : Bool := s.held.any fun e => e.who == .tile pi t.id

/-- TILE_COMMAND_RETIRE: the first accepted command, once its cost has passed. -/
def doTileRetire (s : State) : State :=
  let pi := s.subj
  match (s.plinth pi).queue.find? fun t => t.accepted with
  | some t => if t.retireAt ≤ s.acyc ∧ !(s.tileHeld pi t) then s.performTile pi t else s
  | none => s.tryRelease pi

/-! ## The ends of leases -/

/-- LEASE_TIME_EXPIRY: 4,096 A-cycles have passed since the grant (R196). -/
def doLeaseExpiry (s : State) : State :=
  let p := s.plinth s.subj
  if p.holder.isSome && p.settled && !(s.leaseKept p) && decide (p.leaseEnd ≤ s.acyc) then s.endLease s.subj false else s

/-- LEASE_HANDOVER: the 16 A-cycles have passed (R198). -/
def doLeaseHandover (s : State) : State :=
  match (s.plinth s.subj).handover with
  | some (g, t) => if t ≤ s.acyc then s.grant s.subj g else s
  | none => s

/-! ## Trings that wait (R202) -/

/-- TRING_EFFECT: the release is done, no earlier command names the ring, and no earlier tring of it waits. -/
def doTringEffect (s : State) : State :=
  match tget s.ops s.subj with
  | none => s
  | some o =>
    match o.kind with
    | .tring w n base lines =>
      let first : Bool := (s.ops.find? fun p => match p.2.kind with
        | .tring w' n' _ _ => w' == w && n' == n
        | _ => false).map Prod.fst == some s.subj
      let earlier : Bool := s.tilesOut.any fun t =>
        decide (t.id < s.subj) && s.tileWin t == w && (t.takes.any fun q => q.1 == n)
      if first && !earlier && s.gateClear o.gate then { s with ops := tdel s.ops s.subj }.setRing w n base lines else s
    | _ => s

/-! ## The events -/

/-- TILE_COMMAND_ACCEPT. -/
def execTileCommandAccept (s : State) : Host.Outcome State Fault Refusal := .next (doTileAccept s)

/-- TILE_COMMAND_RETIRE. -/
def execTileCommandRetire (s : State) : Host.Outcome State Fault Refusal := .next (doTileRetire s)

/-- LEASE_TIME_EXPIRY. -/
def execLeaseTimeExpiry (s : State) : Host.Outcome State Fault Refusal := .next (doLeaseExpiry s)

/-- LEASE_HANDOVER. -/
def execLeaseHandover (s : State) : Host.Outcome State Fault Refusal := .next (doLeaseHandover s)

/-- TRING_EFFECT. -/
def execTringEffect (s : State) : Host.Outcome State Fault Refusal := .next (doTringEffect s)

end Sys2Proof.Machine
end

