-- ==== Sys2Proof/Machine/EvHart.lean ====
section
/-! DEFINITION. Events at a hart (R31, R171, R218, R237, R259, R263, R369, R374 to R376, R388, R396, R406 to R410, R415, R420,
R421): what completes, fails or arrives there, and what is delivered at an instruction boundary. -/

namespace Sys2Proof.Machine

open Sys2Proof

/-! ## Eligibility (R31) -/

/-- A hart in rotation whose next issue opportunity has come, not yielding (R259), and not in the chisel unit (R263). -/
def State.mayIssue (s : State) (h : Nat) (x : Hart) : Bool :=
  s.rotates x
    && (x.yieldEnd.isNone || x.yieldFor.all fun i => match s.hart? i with
      | some y => !(s.eligible y)
      | none => true)
    && !(s.core x.core).chiselFor h

/-- The boundary delivery that a hart takes now (R369): one at a time, in order of detection, and none between the
pieces of an instruction. A wait under R31 does not hold it off, a yield's and the chisel unit's among them. A hart in WFI retires
it first; one in gend waits for its earlier accesses. -/
def State.boundaryNow (s : State) (h : Nat) (x : Hart) : Bool :=
  s.rotates x && !x.due.isEmpty && x.log.isEmpty && (x.priv == .u || (x.priv == .s && x.csr.stSIE)) && !x.trails && s.pairSynced h x
    && (match x.wait with
      | some w => w.kind != 11 && (w.kind != 13 || (s.incomplete h).isEmpty)
      | none => true)

/-! ## Boundary deliveries (R369) -/

/-- FORM and OP of a failure word. -/
def wordForm (w : Word) : FormOp := ⟨bitsOf w.toNat 53 3, bitsOf w.toNat 46 7⟩
/-- SUB of a failure word. -/
def wordSub (w : Word) : Nat := bitsOf w.toNat 32 8
/-- SUB of a delivery's own cause (R368): that of its word, which for cause 60 is another failure's. -/
def Boundary.sub (d : Boundary) : Nat := if d.cause = 60 then 0 else wordSub d.tval

/-- BOUNDARY_DELIVERY: the oldest delivery due is taken before the next instruction; WFI has retired by then. -/
def doBoundary (s : State) : State :=
  let h := s.subj
  match s.hart? h with
  | none => s
  | some x =>
    if !(s.boundaryNow h x) then s
    else
      match x.due with
      | [] => s
      | d :: r =>
        (s.modHart h fun y => { y with due := r }).takeTrap h d.cause d.tval d.sub (wordForm d.tval) false

/-! ## Futures (R218, R374) -/

/-- The register that holds an operation's handle. -/
def Hart.regOf (x : Hart) (o : Nat) : Option Nat := (x.regs.find? fun p => p.2 == .pending o).map Prod.fst

/-- A future completes in one event: the value and the register's state together. -/
def Hart.completed (x : Hart) (o : Nat) (v : Word) : Hart :=
  match x.regOf o with
  | some r => { x.wx (BitVec.ofNat 5 r) v with regs := tdel x.regs r }
  | none => x

/-- A future fails in one event: the failure word, with the register still marked. -/
def Hart.failedReg (x : Hart) (o : Nat) (w : Word) (how : FailHow) : Hart :=
  match x.regOf o with
  | some r => { x.wx (BitVec.ofNat 5 r) w with regs := tset x.regs r (.failed how) }
  | none => x

/-- An operation leaves the part. -/
def State.dropOp (s : State) (o : Nat) : State := { s with ops := tdel s.ops o }

/-- Gives a future's outcome to its hart, in its registers or its context slot (R219, R388). -/
def State.settleFuture (s : State) (o : Nat) (p : Op) (x : Hart) (v : Word) (fail : Option FailHow) : State :=
  let f (y : Hart) : Hart := match fail with
    | some how => y.failedReg o v how
    | none => y.completed o v
  let s1 : State := if x.status == .saved then
      (match x.regOf o with
        | some r => s.slotComplete x (BitVec.ofNat 5 r) v fail.isSome
        | none => s)
    else s
  (s1.modPair p.hart f).dropOp o

/-- FUTURE_COMPLETION: the completion of a performed operation reaches its register; a detached one, or one of an ended hart,
is discarded. -/
def doFutureCompletion (s : State) : State :=
  match tget s.ops s.subj with
  | none => s
  | some p =>
    match p.st with
    | .done v =>
      if !(s.gateClear p.gate) then s
      else
        match s.hart? p.hart with
        | none => s.dropOp s.subj
        | some x =>
          if x.status == .ended then s.dropOp s.subj
          else if s.pairSynced p.hart x then s.settleFuture s.subj p x v none
          else s
    | _ => s

/-- FUTURE_FAILURE: the failure of an operation reaches its register, or begins at step 2 of R377. -/
def doFutureFailure (s : State) : State :=
  match tget s.ops s.subj with
  | none => s
  | some p =>
    match p.st with
    | .failed cause sub count addr =>
      let word := failWord p.fo cause sub (min count 0xFFFFFFFF)
      (match s.hart? p.hart with
        | none => s.dropOp s.subj
        | some x =>
          if x.status == .ended ∨ (x.regOf s.subj).isNone then
            (s.report x.group ⟨word, addr, true, x.hidx⟩).dropOp s.subj
          else if s.pairSynced p.hart x then s.settleFuture s.subj p x word (some p.how)
          else s)
    | _ => s

/-! ## Relaxed loads (R171, R188, R376) -/

/-- The destination of a relaxed load takes its value; only where it still waits for this load. -/
def Hart.loaded (x : Hart) (id : Nat) (dst : LoadDst) (bytes : List Byte) : Hart :=
  match dst with
  | .x rd k =>
    if tget x.regs rd.toNat = some (.busy id) then { x.wx rd (lrxValue k bytes) with regs := tdel x.regs rd.toNat } else x
  | .v vd lanes =>
    if tget x.vbusy vd.toNat = some id then
      { x.putSome vd (lanesGot lanes (bytes.map some)) with vbusy := tdel x.vbusy vd.toNat }
    else x

/-- The destination of a load that fails or meets poison: 0, in all lanes for a v register (R376, R396). -/
def Hart.loadZero (x : Hart) (id : Nat) (dst : LoadDst) : Hart :=
  match dst with
  | .x rd _ =>
    if tget x.regs rd.toNat = some (.busy id) then { x.wx rd 0#64 with regs := tdel x.regs rd.toNat } else x
  | .v vd _ =>
    if tget x.vbusy vd.toNat = some id then
      { x.wv vd (Vector.replicate 16 0#32) with vbusy := tdel x.vbusy vd.toNat }
    else x

/-- The first failure among a load's answers. -/
def accFail (as : List PieceAns) : Option (Nat × Nat × Word) := as.findSome? fun a => match a with
  | .fail cause sub addr => some (cause, sub, addr)
  | _ => none

/-- The answers of an access's pieces. -/
def Acc.answers (a : Acc) : List PieceAns := a.pieces.filterMap fun p => match p.st with
  | .ans r => some r
  | _ => none

/-- An access leaves the part. -/
def State.dropAcc (s : State) (a : Nat) : State := { s with accs := tdel s.accs a }

/-- RELAXED_LOAD_RETURN: a load whose pieces are all answered writes its destination. -/
def doLoadReturn (id : Nat) (s : State) : State :=
  match tget s.accs id with
  | none => s
  | some a =>
    if !a.performed then s
    else
      match a.dst, s.hart? a.hart with
      | none, _ => s
      | some _, none => s.dropAcc id
      | some dst, some x =>
        if x.status == .ended then
          -- The failure of a load whose hart has ended goes to step 2 of R377 (R376).
          (match accFail a.answers with
            | some (cause, sub, addr) => (s.dropAcc id).report x.group ⟨failWord a.fo cause sub 0, addr, true, x.hidx⟩
            | none => s.dropAcc id)
        else if x.status == .saved ∨ !(s.pairSynced a.hart x) then s
        else
          let s1 := s.dropAcc id
          match accFail a.answers with
          | some (cause, sub, addr) =>
            (s1.modPair a.hart fun y => y.loadZero id dst).dueAt a.hart 60 (failWord a.fo cause sub 0) addr
          | none =>
            if ansPoison a.answers then
              (s1.modPair a.hart fun y => y.loadZero id dst).consumePoison a.hart a.fo ((a.pieces.map AccPiece.va).headD 0#64)
            else s1.modPair a.hart fun y => y.loaded id dst (ansBytes a.answers)

/-- PLAIN_ACKNOWLEDGEMENT: the answer to a plain access that a home held reaches its hart, which issues again. -/
def doPlainAck (s : State) : State :=
  s.modHart s.subj fun x => match x.plainOut, x.plainAns with
    | some _, some a => { x with log := x.log ++ [a], plainOut := none, plainAns := none }
    | _, _ => x

/-! ## Waits that end -/

/-- RECVT_TIMEOUT: the limit of a waiting recvt has passed (R237). -/
def doRecvtTimeout (s : State) : State :=
  match s.hart? s.subj with
  | none => s
  | some x =>
    if x.recvEnd ≠ 0 ∧ x.recvEnd < s.timeOf x then s.modHart s.subj fun y => { y with wait := none } else s

/-- YIELD_TIMEOUT: 60 A-cycles have passed (R259). -/
def doYieldTimeout (s : State) : State :=
  s.modHart s.subj fun x => match x.yieldEnd with
    | some t => if t ≤ s.acyc then x.yieldDone s.acyc else x
    | none => x

/-- CHISEL_UNIT_FINISH: the unit of a core has computed its instruction (R263). -/
def doChiselFinish (s : State) : State :=
  s.modCore s.subj fun c => match c.chiselEnd with
    | some t => if t ≤ s.acyc then { c with chisel := none, chiselEnd := none } else c
    | none => c

/-! ## Register errors and poison (R394, R396, R418) -/

/-- A CSR of a hart that an uncorrectable error has made 0, as a write of 0 leaves it; the counters and dxmig are 0 whole. -/
def Hart.zeroCsr (x : Hart) (a acyc : Nat) : Hart :=
  if a = 0xC00 then { x with cycBase := 0, cycFrom := acyc }
  else if a = 0xC02 then { x with instret := 0 }
  else if a = 0x8C2 then { x with mig := ⟨0#16, 0#16, 0#10⟩ }
  else x.csrWrite a 0#64

/-- A register of a hart by number that an uncorrectable error has made 0 (R394, R396): 0 to 31 x, 32 to 63 f, 64 to 95 v, and from 96 on
the CSRs by their address. -/
def Hart.zeroReg (x : Hart) (r acyc : Nat) : Hart :=
  let i : RegIdx := BitVec.ofNat 5 r
  if r < 32 then x.wx i 0#64
  else if r < 64 then x.wf i 0#32
  else if r < 96 then x.wv i (Vector.replicate 16 0#32)
  else x.zeroCsr (r - 96) acyc

/-- A line that the core's instruction cache holds for a hart. -/
def State.icacheFind (s : State) (x : Hart) (pc : Word) : Option ILine :=
  (s.core x.core).icache.find? fun l => l.va == lineOf pc && l.asid == x.asid && l.priv == x.priv

/-- FORM and OP of the instruction at a hart's pc (R375). -/
def State.formAt (s : State) (h : Nat) (x : Hart) : FormOp :=
  let of (line : List Byte) : FormOp :=
    let w (o : Nat) : W32 := BitVec.ofNat 32 (natOfBytes ((line.drop (x.pc.toNat % 64 + o)).take 4))
    formOf (decode (x.pc.toNat % 8 == 0) (w 0) (w 4))
  match s.icacheFind x x.pc with
  | some l => of l.bytes
  | none => match ({ s with held := [] } : State).route (Req.hart x.pc 4 .fetch (x.ctx h)) x.iface with
    | .at (.mem k _) _ _ => of (s.bytesAt (k / 64 * 64) 64)
    | _ => noForm

/-- N-cycles of 1 s. -/
def secN : Nat := 1000 * msN

/-- A register-read error counts against the core; with the fourth within 1 s the scheduler core retires it (R418). -/
def State.countUe (s : State) (core : Nat) : State :=
  let s1 := s.modCluster (core / 100) fun k => { k with ueTimes := k.ueTimes ++ [(s.ncyc, core % 100)] }
  let n := ((s1.cluster (core / 100)).ueTimes.filter fun u => u.2 == core % 100 && decide (s.ncyc < u.1 + secN)).length
  if 4 ≤ n then s1.beginRetire core else s1

/-- POISON_CONSUME: an uncorrectable error met in reading a register counts against the core, and the hart goes out for the scrub. The
instruction that read the register does not retire, and the failure word names it (R396). -/
def doPoisonConsume (reg : Nat) (s : State) : State :=
  match s.hart? s.subj with
  | none => s
  | some x =>
    if x.status == .present && x.scrub.isNone then
      ((s.modHart s.subj fun y => y.zeroReg reg s.acyc).consumePoison s.subj (s.formAt s.subj x) 0#64).countUe x.core
    else s

/-- REGISTER_SCRUB_DONE: after 64 A-cycles the hart re-enters rotation. -/
def doScrubDone (s : State) : State :=
  s.modHart s.subj fun x => match x.scrub with
    | some t => if t ≤ s.acyc then { x with scrub := none } else x
    | none => x

/-! ## Redundant pairs (R408, R409) -/

/-- Bytes of the instruction whose bits a request begins with. -/
def reqLen (bits : Word) : Nat := if bits.extractLsb' 0 7 = 0x3F#7 then 8 else 4

/-- A mismatch of a pair (R409): the request is discarded, the trailing hart becomes a copy of the leading one, which goes on at
`pc`, and cause 57 falls due; hart firmware takes a pair that stands in S-mode (R368). -/
def State.pairMismatch (s : State) (h : Nat) (x : Hart) (pc : Word) (bits : Word) (sub : Nat) : State :=
  let word := failWord (illegalForm bits) 57 sub 0
  let s1 := s.logRec 15 x.cluster (word.toNat / 2 ^ 32) 0 0 1
  let done : Hart := { x with cmp := none, released := false, lvq := [], pc := pc, wait := none }
  let copy (z : Hart) : Hart :=
    { done with
      pair := some h
      trails := true
      slot := z.slot
      due := []
      plainOut := none
      plainAns := none }
  let s2 : State :=
    { s1 with harts := s1.harts.map fun p =>
        if p.1 = h then (h, done) else if p.2.trails && p.2.pair == some h then (p.1, copy p.2) else p }
  if x.priv = .u then s2.dueAt h 57 word 0#64 else s2.fwEnd h 57 sub 0 word (illegalForm bits)

/-- The pc behind the request that a hart has placed. -/
def Hart.pcBehind (x : Hart) (bits : Word) : Word := addrPlus x.pc (reqLen bits)

/-- Whether a request is that of gend. -/
def isGend (a : List Word) : Bool := a.headD 0#64 == bitsOfEnc (encode .gend)

/-- Whether a hart has gone past the instruction at which the other stands. -/
def Hart.past (x y : Hart) : Bool := x.instret != y.instret && decide (y.behind x < 2 ^ 63)

/-- COMPARATOR_MATCH: the two requests of a pair are compared; equal ones are released (R408). A hart that has come to gend while the
other has gone on past that instruction without a request is a mismatch too (R409). -/
def doComparator (s : State) : State :=
  match s.hart? s.subj with
  | none => s
  | some x =>
    match s.trailOf s.subj with
    | some (_, y) =>
      if x.trails ∨ x.released then s
      else
        match x.cmp, y.cmp with
        | some (a, _), some (b, _) =>
          if a = b then s.modHart s.subj fun z => { z with released := true }
          else s.pairMismatch s.subj x (x.pcBehind (a.headD 0#64)) (a.headD 0#64) 1
        | some (a, _), none =>
          if isGend a && y.past x then s.pairMismatch s.subj x (x.pcBehind (a.headD 0#64)) (a.headD 0#64) 1 else s
        | none, some (b, _) =>
          if isGend b && x.past y then s.pairMismatch s.subj x x.pc (b.headD 0#64) 1 else s
        | none, none => s
    | none => s

/-- TRAILING_TIMEOUT: no request of the trailing hart 65,536 A-cycles after the leading hart's (R409). -/
def doTrailingTimeout (s : State) : State :=
  match s.hart? s.subj with
  | none => s
  | some x =>
    match x.cmp, s.trailOf s.subj with
    | some (a, t), some (_, y) =>
      if !x.trails && !x.released && y.cmp.isNone && decide (t + 65536 ≤ s.acyc) then
        s.pairMismatch s.subj x (x.pcBehind (a.headD 0#64)) (a.headD 0#64) 2
      else s
    | _, _ => s

/-! ## Deadlines and hangs (R415, R420, R421) -/

/-- DEADLINE_MISS_DETECT: the block's own tag is earlier than now, and its enable is set. -/
def doDeadlineMiss (s : State) : State :=
  match tget s.blocks s.subj with
  | none => s
  | some b =>
    let late : Bool := !b.nodl && tagEarlier b.tag.toNat s.tagNow && !b.dlDelivered
    if !late then s
    else
      match (s.blockOrder b).find? fun h => match s.hart? h with
        | some x => x.status != .ended
        | none => false with
      | none => s
      | some h =>
        match (s.hart? h).bind s.groupOf? with
        | some g =>
          if g.dlmiss then
            (s.modBlock s.subj fun y => { y with dlDelivered := true }).dueAt h 58 (failWord noForm 58 0 0) 0#64
          else s
        | none => s

/-- A hart whose wait may be listed: of a listed kind, in place, in a group that is not parked. -/
def State.listable (s : State) (x : Hart) : Bool :=
  x.status == .present && !x.trails && x.plainOut.isNone && x.yieldEnd.isNone
    && (match s.groupOf? x with
      | some g => !g.parked
      | none => false)
    && (match x.wait with
      | some r => r.code != 0
      | none => false)

/-- WAIT_ENTRY_VALID: a hart has waited for 1 ms on a kind that the wait table lists. -/
def doWaitEntry (s : State) : State :=
  match s.hart? s.subj with
  | none => s
  | some x =>
    if s.listable x then
      s.modHart s.subj fun y => { y with wait := y.wait.map fun r => if r.since + msN ≤ s.ncyc then { r with listed := true } else r }
    else s

/-- The harts of a grid, ended ones among them. -/
def State.gridAll (s : State) (g : Grid) : List (Nat × Hart) := s.harts.filter fun p =>
  !p.2.trails && (match s.groupOf? p.2 with
    | some q => g.blocks.contains q.block
    | none => false)

/-- The harts of a grid that have not ended. -/
def State.gridHarts (s : State) (g : Grid) : List (Nat × Hart) := (s.gridAll g).filter fun p => p.2.status != .ended

/-- An operation is of a kind on whose end a listed hart may wait (R420). -/
def OpKind.waited : OpKind → Bool
  | .arrive _ _ _ _ _ | .bwait _ _ | .enq _ _ | .deq _ | .len _ | .msg _ _ _ _ _ | .send _ _ _ _ _ | .sendImg _ _ _ | .emit _ _ _ _ _ _ _ => true
  | _ => false

/-- Some request of a hart has not been acknowledged, or an engine, a plinth or a bank still works for it (R421). -/
def State.busyFor (s : State) (h : Nat) (x : Hart) : Bool :=
  x.plainOut.isSome || !(s.accsOf h).isEmpty || !(s.entriesOf h).isEmpty
    || ((s.opsOf h).any fun p => match p.2.kind, p.2.st with
      | .tile, _ | .lease, _ | .tring _ _ _ _, _ => false
      | k, .waiting => !k.waited
      | _, _ => true)
    || (s.engines.any fun e => e.2.any fun c => c.ctx.hart == some h)
    || (s.plinths.any fun p => p.2.queue.any fun t => t.hart == h && t.accepted)

/-- HANG_TEST of a grid. -/
def doHangTest (s : State) : State :=
  match tget s.grids s.subj with
  | none => s
  | some g =>
    let hs := s.gridHarts g
    let excluded : Bool := hs.any fun p => match s.groupOf? p.2 with
      | some q => q.nohang || q.parked
      | none => false
    let away : Bool := g.blocks.any fun i => match tget s.blocks i with
      | some b => b.status != .placed && b.status != .done
      | none => false
    let listed : Bool := hs.all fun p => match p.2.wait with
      | some r => r.listed && s.listable p.2
      | none => false
    let mark := hs.map fun p => (p.1, match p.2.wait with
      | some r => r.since
      | none => 0)
    if hs.isEmpty || excluded || away || !listed || ((s.gridAll g).any fun p => s.busyFor p.1 p.2) || g.hung == mark then s
    else
      let s1 := s.modGrid s.subj fun y => { y with hung := mark }
      hs.foldl (fun (t : State) p => match p.2.wait with
        | some r => t.dueAt p.1 59 (failWord noForm 59 r.code (bitsOf r.obj.toNat 0 24)) 0#64
        | none => t) s1

/-! ## The events -/

/-- BOUNDARY_DELIVERY. -/
def execBoundaryDelivery (s : State) : Host.Outcome State Fault Refusal := .next (doBoundary s)
/-- FUTURE_COMPLETION. -/
def execFutureCompletion (s : State) : Host.Outcome State Fault Refusal := .next (doFutureCompletion s)
/-- FUTURE_FAILURE. -/
def execFutureFailure (s : State) : Host.Outcome State Fault Refusal := .next (doFutureFailure s)
/-- RELAXED_LOAD_RETURN. -/
def execRelaxedLoadReturn (acc : Nat) (s : State) : Host.Outcome State Fault Refusal := .next (doLoadReturn acc s)
/-- PLAIN_ACKNOWLEDGEMENT. -/
def execPlainAcknowledgement (s : State) : Host.Outcome State Fault Refusal := .next (doPlainAck s)
/-- RECVT_TIMEOUT. -/
def execRecvtTimeout (s : State) : Host.Outcome State Fault Refusal := .next (doRecvtTimeout s)
/-- YIELD_TIMEOUT. -/
def execYieldTimeout (s : State) : Host.Outcome State Fault Refusal := .next (doYieldTimeout s)
/-- CHISEL_UNIT_FINISH. -/
def execChiselUnitFinish (s : State) : Host.Outcome State Fault Refusal := .next (doChiselFinish s)
/-- POISON_CONSUME. -/
def execPoisonConsume (reg : Nat) (s : State) : Host.Outcome State Fault Refusal := .next (doPoisonConsume reg s)
/-- REGISTER_SCRUB_DONE. -/
def execRegisterScrubDone (s : State) : Host.Outcome State Fault Refusal := .next (doScrubDone s)
/-- COMPARATOR_MATCH. -/
def execComparatorMatch (s : State) : Host.Outcome State Fault Refusal := .next (doComparator s)
/-- TRAILING_TIMEOUT. -/
def execTrailingTimeout (s : State) : Host.Outcome State Fault Refusal := .next (doTrailingTimeout s)
/-- DEADLINE_MISS_DETECT. -/
def execDeadlineMissDetect (s : State) : Host.Outcome State Fault Refusal := .next (doDeadlineMiss s)
/-- WAIT_ENTRY_VALID. -/
def execWaitEntryValid (s : State) : Host.Outcome State Fault Refusal := .next (doWaitEntry s)
/-- HANG_TEST. -/
def execHangTest (s : State) : Host.Outcome State Fault Refusal := .next (doHangTest s)

end Sys2Proof.Machine
end

