-- ==== Sys2Proof/Machine/EvBank.lean ====
section
/-! DEFINITION. What the banks, the barrier stages and the grid objects do with the requests that reach them (R60, R83 to R85,
R244 to R252). -/

namespace Sys2Proof.Machine

open Sys2Proof

/-! ## Requests at a bank -/

/-- An operation meets a page that is not resident: its home keeps it, with a miss record of KIND bit 3 (R244). -/
def State.opMiss (s : State) (o : Nat) (p : Op) (pg : PageRef) (kind : AccKind) (va : Word) (n : Nat) : State :=
  (s.holdMiss pg (Req.unit va n kind p.ctx) (.load n) (.op o) true).modOp o fun q => { q with st := .held }

/-- An operation waits at its home behind another of the page (R51, R114). -/
def State.opBehind (s : State) (o : Nat) (p : Op) (pg : PageRef) (kind : AccKind) (va : Word) (n : Nat) (why : HoldWhy) : State :=
  (s.holdBehind pg (Req.unit va n kind p.ctx) (.load n) (.op o) true why).modOp o fun q => { q with st := .held }

/-- Brings an operation to a line of a bank, and performs it there: `act` answers the outcome at the line's location. -/
def State.atBank (s : State) (o : Nat) (p : Op) (kind : AccKind) (va : Word) (n : Nat) (act : Nat → State → State) : State :=
  match s.bankLine p.ctx kind va n (siteOfHome p.cluster) with
  | (.at k, s1) => if s1.poisoned k n then s1.opFail o 56 14 0 va else act k s1
  | (.fail cause sub, s1) => s1.opFail o (if cause = 5 then 7 else cause) sub 0 va
  | (.miss pg, s1) => s1.opMiss o p pg kind va n
  | (.behind pg why, s1) => s1.opBehind o p pg kind va n why
  | (.lost, s1) => s1.opLost o p va
  | (.later, s1) => s1

/-- No earlier request of the operation's interface for its line or bank queue is still on its way (R105). -/
def State.opLane (s : State) (o : Nat) (p : Op) : Bool := match p.spot with
  | some sp => s.laneClear (.op o) (siteOfHome p.cluster) sp
  | none => true

/-- Runs what an operation does at its unit, once it is on its way and its release is done (R99, R105, R109). -/
def State.whenReady (s : State) (o : Nat) (act : Op → State → State) : State :=
  match tget s.ops o with
  | some p =>
    if p.st == .issued && s.opLane o p then
      let r := s.opReady o
      if r.1 then act p r.2 else r.2
    else s
  | none => s

/-! ## Bank operations (R83, R244, R245) -/

/-- The new memory value of a bank operation on `w` bytes. -/
def bankNew (fn : BankFn) (w old v e : Nat) : Nat :=
  let m := 2 ^ (8 * w)
  let a := old % m
  let b := v % m
  let sgn (x : Nat) : Int := intOf true (8 * w) x
  let f (g : W32 → W32 → W32) : Nat := (g (BitVec.ofNat 32 a) (BitVec.ofNat 32 b)).toNat
  match fn with
  | .add => (a + b) % m
  | .min => if sgn a ≤ sgn b then a else b
  | .minu => if a ≤ b then a else b
  | .max => if sgn b ≤ sgn a then a else b
  | .maxu => if b ≤ a then a else b
  | .xchg => b
  | .cas => if a = e % m then b else a
  | .fadd => f addF32
  | .fmin => f minF32
  | .fmax => f maxF32

/-- The completion value: the old value, extended as R244 says. -/
def bankOld (fn : BankFn) (w old : Nat) : Word :=
  let signed : Bool := match fn with
    | .minu | .maxu | .fadd | .fmin | .fmax => false
    | _ => true
  if signed then sextNat (8 * w) old else BitVec.ofNat 64 old

/-- One lane of a vector reduction. -/
def vredLane (fn : VredFn) (a b : W32) : W32 :=
  match fn with
  | .addI => a + b
  | .addF => addF32 a b
  | .minI => if a.toInt ≤ b.toInt then a else b
  | .minF => minF32 a b
  | .maxI => if b.toInt ≤ a.toInt then a else b
  | .maxF => maxF32 a b

/-- The words of a line after a vector reduction: `none` leaves a word. -/
def vredLine (fn : VredFn) (line : List Byte) (lanes : List (Option W32)) : List (Option Byte) :=
  ((List.range 16).map fun i => match lanes.getD i none with
    | some v => (bytesOfNat 4 (vredLane fn (wordOfBytes line i) v).toNat).map some
    | none => List.replicate 4 none).foldr (· ++ ·) []

/-- A bank operation is performed at its bank. -/
def State.bankDo (s : State) (o : Nat) (p : Op) : State :=
  match p.kind with
  | .bank fn dbl va v e =>
    let w := dblBytes dbl
    s.atBank o p .bank va w fun k t =>
      let old := t.natAt k w
      (t.putNat k w (bankNew fn w old v.toNat e.toNat)).opDone o (bankOld fn w old)
  | .vred fn va lanes =>
    s.atBank o p .bank va 64 fun k t =>
      (t.putMem k (vredLine fn (t.bytesAt k 64) lanes)).opDone o
        (statusWord false false (4 * (lanes.filter Option.isSome).length))
  | _ => s

/-! ## Bank queues (R84, R85, R246) -/

/-- A queue's descriptor. -/
def State.bankQueue (s : State) (m q : Nat) : BitVec 128 := tgetD (s.mc m).queues q 0#128
/-- HEAD. -/
def bqHead (d : BitVec 128) : Nat := bitsOf d.toNat 64 32
/-- TAIL. -/
def bqTail (d : BitVec 128) : Nat := bitsOf d.toNat 96 32
/-- LOG2SIZE. -/
def bqLog (d : BitVec 128) : Nat := bitsOf d.toNat 53 5
/-- Entries held. -/
def bqLen (d : BitVec 128) : Nat := (bqTail d + 2 ^ 32 - bqHead d) % 2 ^ 32
/-- The queue can be used: EN is 1 and LOG2SIZE is 3 to 20. -/
def bqOk (d : BitVec 128) : Bool := d.getLsbD 0 && decide (3 ≤ bqLog d) && decide (bqLog d ≤ 20)
/-- Replaces HEAD. -/
def bqSetHead (d : BitVec 128) (h : Nat) : BitVec 128 := BitVec.ofNat 128 (putBits d.toNat 64 32 h)
/-- Replaces TAIL. -/
def bqSetTail (d : BitVec 128) (t : Nat) : BitVec 128 := BitVec.ofNat 128 (putBits d.toNat 96 32 t)

/-- The address of entry `i`, in the REGION and home of a handle. -/
def bqEntry (hd : Word) (d : BitVec 128) (i : Nat) : Word :=
  let size := 8 * 2 ^ bqLog d
  let base := 2 ^ 6 * bitsOf d.toNat 6 41 / size * size
  BitVec.ofNat 64 (2 ^ 47 * (hd.toNat / 2 ^ 47) + base + 8 * (i % 2 ^ bqLog d))

/-- Writes a queue's descriptor. -/
def State.putBankQueue (s : State) (m q : Nat) (d : BitVec 128) : State :=
  s.modMc m fun x => { x with queues := tset x.queues q d }

/-- What a handle names: the memory chiplet and the queue number. -/
def handleQueue (hd : Word) : Option (Nat × Nat) :=
  if isMC (vaHome hd) then some (vaHome hd - 0x180, hd.toNat % 4096) else none

/-- The waiters of a queue. -/
def State.enqWaiters (s : State) (m q : Nat) : List Nat := tgetD (s.mc m).enqWait q []
/-- The waiting dequeuers of a queue. -/
def State.deqWaiters (s : State) (m q : Nat) : List Nat := tgetD (s.mc m).deqWait q []

/-- A queue's enqueue takes its place: the value at TAIL; a dequeuer that waits gets it at once. -/
def State.enqPlace (s : State) (o m q k : Nat) (v : Word) : State :=
  let d := s.bankQueue m q
  let s1 := s.putNat k 8 v.toNat
  let d1 := bqSetTail d (bqTail d + 1)
  match s.deqWaiters m q with
  | w :: r =>
    (((s1.putBankQueue m q (bqSetHead d1 (bqHead d + 1))).modMc m fun x => { x with deqWait := tset x.deqWait q r }).opDone w v).opDone
      o 0#64
  | [] => (s1.putBankQueue m q d1).opDone o (BitVec.ofNat 64 (bqLen d1))

/-- An enqueue at its bank. -/
def State.enqDo (s : State) (o : Nat) (p : Op) (hd v : Word) : State :=
  match handleQueue hd with
  | none => s.opFail o 7 9 0 0#64
  | some (m, q) =>
    let d := s.bankQueue m q
    if !(bqOk d) then s.opFail o 7 9 0 0#64
    else if 2 ^ bqLog d ≤ bqLen d then
      (s.modOp o fun x => { x with st := .waiting }).modMc m fun x => { x with enqWait := tset x.enqWait q (tgetD x.enqWait q [] ++ [o]) }
    else s.atBank o p .amo (bqEntry hd d (bqTail d)) 8 fun k t => t.enqPlace o m q k v

/-- The oldest waiting enqueuer enters a queue that has room. -/
def State.enqNext (s : State) (m q : Nat) : State :=
  match s.enqWaiters m q with
  | [] => s
  | o :: r =>
    let d := s.bankQueue m q
    if 2 ^ bqLog d ≤ bqLen d then s
    else
      let s1 := (s.modMc m fun x => { x with enqWait := tset x.enqWait q r }).modOp o fun x => { x with st := .issued }
      match tget s1.ops o with
      | some p => (match p.kind with
        | .enq hd v => s1.enqDo o p hd v
        | _ => s1)
      | none => s1

/-- A dequeue at its bank. -/
def State.deqDo (s : State) (o : Nat) (p : Op) (hd : Word) : State :=
  match handleQueue hd with
  | none => s.opFail o 7 9 0 0#64
  | some (m, q) =>
    let d := s.bankQueue m q
    if !(bqOk d) then s.opFail o 7 9 0 0#64
    else if bqLen d = 0 then
      (s.modOp o fun x => { x with st := .waiting }).modMc m fun x => { x with deqWait := tset x.deqWait q (tgetD x.deqWait q [] ++ [o]) }
    else
      s.atBank o p .amo (bqEntry hd d (bqHead d)) 8 fun k t =>
        let v := BitVec.ofNat 64 (t.natAt k 8)
        ((t.putBankQueue m q (bqSetHead d (bqHead d + 1))).opDone o v).enqNext m q

/-- A length operation at its bank. -/
def State.lenDo (s : State) (o : Nat) (hd : Word) : State :=
  match handleQueue hd with
  | none => s.opFail o 7 9 0 0#64
  | some (m, q) =>
    let d := s.bankQueue m q
    if bqOk d then s.opDone o (BitVec.ofNat 64 (bqLen d)) else s.opFail o 7 9 0 0#64

/-- A queue request on its way to its bank (R389, R400, R401): `act` where it reaches it. -/
def State.queueReach (s : State) (o : Nat) (p : Op) (hd : Word) (act : State) : State :=
  if !(s.homeValid (vaHome hd)) then s.opFail o 7 1 0 hd
  else match s.net (siteOfHome p.cluster) (vaHome hd) with
    | .ok => act
    | .lost => s.opLost o p hd
    | .unreachable => s.opFail o 62 16 0 hd
    | .held => s

/-- A queue request reaches its bank. -/
def State.queueDo (s : State) (o : Nat) (p : Op) : State :=
  let go := s.queueReach o p
  match p.kind with
  | .enq hd v => go hd (s.enqDo o p hd v)
  | .deq hd => go hd (s.deqDo o p hd)
  | .len hd => go hd (s.lenDo o hd)
  | _ => s

/-! ## Barriers (R249, R251) -/

/-- The PHASE of an object held in the part, for a hart: the group's, or a block object's. -/
def State.heldPhase (s : State) (x : Hart) (obj : Nat) : BitVec 32 :=
  match s.groupOf? x with
  | none => 0#32
  | some g =>
    if obj = 0 then g.bar.phase
    else match tget s.blocks g.block with
      | some b => (tgetD b.bars (obj - 1) BarObj.zero).phase
      | none => 0#32

/-- A bwait reaches the holder of its object. -/
def State.bwaitDo (s : State) (o : Nat) (p : Op) (obj : Word) (token : BitVec 32) : State :=
  match s.hart? p.hart with
  | none => s
  | some x =>
    let n := obj.toNat
    if n < 64 then
      match s.bwaitTest o (s.heldPhase x n) token with
      | some t => t
      | none =>
        let s1 := s.modOp o fun q => { q with st := .waiting }
        if n = 0 then s1.modGroup x.group fun g => { g with bar := { g.bar with waits := g.bar.waits ++ [(o, token)] } }
        else
          match s1.groupOf? x with
          | some g => s1.modBlock g.block fun b =>
              let v := tgetD b.bars (n - 1) BarObj.zero
              { b with bars := tset b.bars (n - 1) { v with waits := v.waits ++ [(o, token)] } }
          | none => s1
    else
      s.atBank o p .load obj 64 fun k t =>
        match t.bwaitTest o (goPhase (t.natAt k 64)) token with
        | some u => u
        | none => { t.modOp o fun q => { q with st := .waiting } with gridWaits := t.gridWaits ++ [(o, obj, token)] }

/-- GRID_ARRIVAL: a block's partial reaches its object's bank. -/
def doGridArrival (s : State) : State :=
  match tget s.gridArrs s.subj with
  | none => s
  | some ga =>
    -- The block's CC home sends it (R249).
    let cl := match tget s.blocks ga.block with
      | some b => b.home
      | none => 0
    if ga.atBank || (s.held.any fun e => e.who == .grid ga.id) then s
    else
      match s.bankLine ga.ctx .bank ga.va 64 (siteOfHome cl) with
      | (.at k, s1) => s1.gridArrive ga k
      | (.fail cause sub, s1) => s1.failGridArr ga cause sub
      | (.miss pg, s1) => s1.holdMiss pg (Req.unit ga.va 64 .bank ga.ctx) (.load 64) (.grid ga.id) true
      | (.behind pg why, s1) => s1.holdBehind pg (Req.unit ga.va 64 .bank ga.ctx) (.load 64) (.grid ga.id) true why
      | (.lost, s1) => s1.holdLost (Req.unit ga.va 64 .bank ga.ctx) (.load 64) (.grid ga.id) true (siteOfHome cl)
      | (.later, s1) => s1

/-! ## Any operation at its unit -/

/-- Performs an operation whose release is done, of those that a bank or a barrier stage performs; the replay of a held one
comes here too (R51). -/
def State.performOp (s : State) (o : Nat) (p : Op) : State :=
  match p.kind with
  | .bank _ _ _ _ _ | .vred _ _ _ => s.bankDo o p
  | .enq _ _ | .deq _ | .len _ => s.queueDo o p
  | .arrive obj _ opc lanes fmt => s.arrive o obj opc lanes fmt
  | .bwait obj token => s.bwaitDo o p obj token
  | _ => s

/-- Operations of the kind that an event names. -/
def doOpEvent (ok : OpKind → Bool) (s : State) : State :=
  s.whenReady s.subj fun p t => if ok p.kind then t.performOp s.subj p else s

/-! ## Loans (R60) -/

/-- A hart waits at a barrier object (R251): it is blocked on the future of an operation of the object. -/
def Hart.barWait (x : Hart) : Option Word := match x.wait with
  | some r => if r.kind = 1 then some r.obj else none
  | none => none

/-- Some member of a group has not arrived among these arrivals. -/
def State.missing (s : State) (g : Group) (as : List Arrival) : Bool := g.harts.any fun h =>
  !(as.any fun a => a.hart == h) && (match s.hart? h with
    | some x => x.status != .ended
    | none => false)

/-- The groups with members that have not arrived at the object that a hart waits at. -/
def State.borrowers (s : State) (x : Hart) (obj : Nat) : List Nat :=
  match s.groupOf? x with
  | none => []
  | some g =>
    match tget s.blocks g.block with
    | none => []
    | some b =>
      let lacks (as : List Arrival) (gi : Nat) : Bool := match tget s.groups gi with
        | some q => s.missing q as
        | none => false
      if obj = 0 then (if s.missing g g.bar.arrivals then [x.group] else [])
      else if obj < 64 then b.groups.filter (lacks (tgetD b.bars (obj - 1) BarObj.zero).arrivals)
      else
        match tget s.grids b.grid with
        | none => []
        | some gr => (gr.blocks.map fun bi => match tget s.blocks bi with
            | some c =>
              if c.status == .done || (s.gridArrs.any fun p => p.2.block == bi && p.2.va.toNat == obj) then []
              else c.groups
            | none => []).foldr (· ++ ·) []

/-- The groups that a loan reaches, through at most `n` objects. -/
def State.loanReach (s : State) : Nat → List Nat → List Nat → List Nat
  | 0, _, seen => seen
  | n + 1, front, seen =>
    let next := (front.map fun gi => match tget s.groups gi with
      | some g => (g.harts.map fun h => match s.hart? h with
          | some x => (match x.barWait with
            | some o => s.borrowers x o.toNat
            | none => [])
          | none => []).foldr (· ++ ·) []
      | none => []).foldr (· ++ ·) []
    let new := (next.filter fun g => !(seen.contains g)).eraseDups
    if new.isEmpty then seen else s.loanReach n new (seen ++ new)

/-- DEADLINE_LOAN: the loans of one hart are brought up to date; those of a hart that no longer waits end. -/
def doDeadlineLoan (s : State) : State :=
  let h := s.subj
  let s1 : State := { s with groups := s.groups.map fun p => (p.1, { p.2 with loans := p.2.loans.filter fun l => l.1 != h }) }
  match s1.hart? h with
  | none => s1
  | some x =>
    match x.barWait with
    | none => s1
    | some o =>
      let t := s1.tagOf x
      if t.2 then s1
      else
        let gs := s1.borrowers x o.toNat
        (s1.loanReach 7 gs gs).foldl (fun (a : State) g => a.modGroup g fun y => { y with loans := y.loans ++ [(h, t.1)] }) s1

/-! ## The events -/

/-- BANK_OPERATION. -/
def execBankOperation (s : State) : Host.Outcome State Fault Refusal :=
  .next (doOpEvent (fun k => match k with
    | .bank _ _ _ _ _ | .vred _ _ _ => true
    | _ => false) s)

/-- QUEUE_ENQUEUE. -/
def execQueueEnqueue (s : State) : Host.Outcome State Fault Refusal :=
  .next (doOpEvent (fun k => match k with
    | .enq _ _ => true
    | _ => false) s)

/-- QUEUE_DEQUEUE. -/
def execQueueDequeue (s : State) : Host.Outcome State Fault Refusal :=
  .next (doOpEvent (fun k => match k with
    | .deq _ => true
    | _ => false) s)

/-- QUEUE_LENGTH. -/
def execQueueLength (s : State) : Host.Outcome State Fault Refusal :=
  .next (doOpEvent (fun k => match k with
    | .len _ => true
    | _ => false) s)

/-- BARRIER_ARRIVAL. -/
def execBarrierArrival (s : State) : Host.Outcome State Fault Refusal :=
  .next (doOpEvent (fun k => match k with
    | .arrive _ _ _ _ _ => true
    | _ => false) s)

/-- BWAIT_TEST. -/
def execBwaitTest (s : State) : Host.Outcome State Fault Refusal :=
  .next (doOpEvent (fun k => match k with
    | .bwait _ _ => true
    | _ => false) s)

/-- GRID_ARRIVAL. -/
def execGridArrival (s : State) : Host.Outcome State Fault Refusal := .next (doGridArrival s)

/-- DEADLINE_LOAN. -/
def execDeadlineLoan (s : State) : Host.Outcome State Fault Refusal := .next (doDeadlineLoan s)

/-- QUEUE_DESCRIPTOR_WRITE (R84): a half of a descriptor of memory chiplet `subj`. -/
def execQueueDescriptorWrite (q half : Nat) (w : Word) (s : State) : Host.Outcome State Fault Refusal :=
  .next (s.queueDescWrite s.subj q half w)

end Sys2Proof.Machine
end

