-- ==== Sys2Proof/Machine/Boot.lean ====
section
/-! DEFINITION. Module reset (R8, R328), the firmware slots (R332, R439) and the recovery window (R440, R441). -/

namespace Sys2Proof.Machine

/-- The health word of a part whose only loss is in its fuses: LANERED and DEGRADED (R417, R442). -/
def fusedHealth (cores : Table Core) : Word :=
  let n := sat255 (cores.filter fun p => p.2.lanesOut != 0).length
  BitVec.ofNat 64 (n + 2 ^ 62 * b2n (n != 0))

/-- MODULE RESET: every register at its reset value and every site DARK. What is no register stays: the contents of memories, flash
and host memory, the fuses, and the schedule. -/
def State.moduleReset (s : State) : State :=
  { State.reset with
    tape := s.tape
    cur := s.cur
    subj := s.subj
    freeCtr := s.freeCtr
    nextId := s.nextId
    gib := s.gib
    mem := s.mem
    tags := s.tags
    poison := s.poison
    cores := (s.cores.filter fun p => p.2.lanesOut != 0).map fun p => (p.1, { Core.free with lanesOut := p.2.lanesOut })
    boot := { Boot.zero with slots := s.boot.slots, selector := s.boot.selector, rotOk := s.boot.rotOk }
    mod := { Module.zero with health := fusedHealth s.cores }
    irqs := s.irqs
    hostAns := s.hostAns }

/-! ## Images -/

/-- The greatest length of an image (R440). -/
def imageMax : Nat := 67108864

/-- Why the ROM refuses an image, or 0: 1 its signature is not valid, 2 its security version is below the fused minimum, 4 its length
is out of range (R440). -/
def imageReason (len : Nat) (image : List Byte) : Nat :=
  if len = 0 ∨ imageMax < len then 4
  else if !(Config.sigValid image) then 1
  else if Config.imageSecver image < Config.fusedMin then 2
  else 0

/-- The booting edge's flash as the tables number it: 0 for E0's, 1 for E8's. -/
def State.flashOf (s : State) : Nat := b2n s.mod.bootEdge

/-- An image in a slot of the booting edge's flash: its length, and the image; nothing where no image can be read. -/
def State.slotImageOf (s : State) (slot : Nat) : Option (Nat × List Byte) :=
  (tget s.boot.slots (2 * s.flashOf + slot)).map fun n => (n, s.bytesAt (flashKey (2 * s.flashOf + slot) 0) (min n imageMax))

/-- Why the ROM refuses a slot: 3 where the flash is unreadable. -/
def State.slotReason (s : State) (slot : Nat) : Nat := match s.slotImageOf slot with
  | none => 3
  | some (n, image) => imageReason n image

/-! ## The recovery window (R440, R441) -/

/-- RECSTAT. -/
def State.recstat (s : State) : Nat := s.boot.phase % 8 + 2 ^ 8 * (s.boot.reasonA % 256) + 2 ^ 16 * (s.boot.reasonB % 256)

/-- The staged image is being verified or written, and stays as it is (log 159). -/
def State.recBusy (s : State) : Bool := s.boot.phase == 1 || s.boot.phase == 2

/-- RECCTL.GO: the verification of a staged image begins; it is ignored while one is under way. -/
def State.recGo (s : State) (w : Word) : State :=
  if !s.boot.recovery ∨ s.recBusy then s
  else { s with boot := { s.boot with phase := 1, recLen := bitsOf w.toNat 32 32, recSlot := bitsOf w.toNat 4 1 } }

/-- RECCTL.RESET. -/
def State.recReset (s : State) : State := if s.boot.recovery then s.moduleReset else s

/-- RECCTL.REPORT: the signed report of R441. -/
def State.recReport (s : State) : State :=
  if !s.boot.recovery then s
  else
    let nonce := ((List.range 4).map fun i => bytesOfNat 8 (tgetD s.boot.recnonce i 0#64).toNat).foldr (· ++ ·) []
    let body := bytesOfNat 8 s.modid ++ bytesOfNat 8 s.recstat ++ nonce ++ s.measOf 0 ++ idKey64
    let sig := (Config.sign body ++ List.replicate 29792 0#8).take 29792
    { s with boot := { s.boot with recReport := body ++ sig } }

/-- What an aligned 8-byte read of the recovery window returns. Until a report is built, its place shows the summary that a freeze has
put into the booting edge's flash (R445; log 158). -/
def State.recRead (s : State) (off : Nat) : Nat :=
  if off = 0x0 then s.recstat
  else if off = 0x10 then s.boot.recpage
  else if 0x100 ≤ off ∧ off < 0x120 then (tgetD s.boot.recnonce ((off - 0x100) / 8) 0#64).toNat
  else if 0x1000 ≤ off ∧ off < 0x9000 then
    (if s.boot.recReport.isEmpty then s.natAt (flashDumpKey (2 ^ 28 * s.flashOf + (off - 0x1000))) 8
    else wordAt s.boot.recReport ((off - 0x1000) / 8))
  else if 0x100000 ≤ off ∧ off < 0x200000 then s.natAt (stagingKey (2 ^ 20 * s.boot.recpage + (off - 0x100000))) 8
  else 0

/-- An aligned 8-byte write to the recovery window. -/
def State.recWrite (s : State) (off : Nat) (w : Word) : State :=
  if off = 0x8 then
    let s1 := if w.getLsbD 12 then s.recReport else s
    let s2 := if w.getLsbD 0 then s1.recGo w else s1
    if w.getLsbD 8 then s2.recReset else s2
  else if off = 0x10 then { s with boot := { s.boot with recpage := bitsOf w.toNat 0 6 } }
  else if 0x100 ≤ off ∧ off < 0x120 then { s with boot := { s.boot with recnonce := tset s.boot.recnonce ((off - 0x100) / 8) w } }
  else if 0x100000 ≤ off ∧ off < 0x200000 then if s.recBusy then s else s.putNat (stagingKey (2 ^ 20 * s.boot.recpage + (off - 0x100000))) 8 w.toNat
  else s

end Sys2Proof.Machine
end

