-- ==== Sys2Proof/Machine/EvHome.lean ====
section
/-! DEFINITION. What the homes and the post buffers do (R26 to R28, R49 to R53, R87, R94 to R97, R114, R376, R392, R449):
requests of relaxed accesses, drains, misses, their service and their replay. -/

namespace Sys2Proof.Machine

open Sys2Proof

/-! ## Requests as they leave again -/

/-- The interface of a cluster or of a hart that a context names. -/
def State.ctxIface (s : State) (c : Ctx) (d : Nat) : Nat := match c.hart.bind s.hart? with
  | some x => x.iface
  | none => d

/-- A request that a home holds, as it was sent. -/
def Held.req (e : Held) : Req :=
  let hart := Req.hart e.va e.act.width e.kind e.ctx
  match e.who with
  | .plain _ | .acc _ _ | .fetch _ | .table _ => hart
  | .entry _ => { hart with direct := false }
  | .host _ => { Req.unit e.va e.act.width e.kind e.ctx with fromHost := true }
  | .engine _ _ _ => Req.copier e.va e.act.width e.kind e.ctx
  | _ => { Req.unit e.va e.act.width e.kind e.ctx with fromHost := e.fromHost }

/-! ## Resumption (R51, R53) -/

/-- A group resumes once none of its misses is held. Its members count again at their barriers, and its wait for a lease
counts again at its plinth. -/
def State.tryResume (s : State) (gi : Nat) : State :=
  match tget s.groups gi with
  | none => s
  | some g =>
    let open1 := g.misses.filter fun m => s.held.any fun e => e.home == m.1 && e.stamp == m.2
    let gone : Bool := g.away != 0
    if !g.parked then s
    else if !open1.isEmpty ∨ gone then s.modGroup gi fun x => { x with misses := open1 }
    else
      -- A swap whose expiry falls in this N-cycle does not start (R54); a report of the expiry, and a command that answered it,
      -- count no more (R323).
      -- Another group of the block whose limit has expired keeps the swap due.
      let other : Bool := s.groups.any fun p => p.1 != gi && p.2.block == g.block && p.2.parked && p.2.expired && !p.2.ended
      let s0 : State := if g.expired && !other then s.modBlock g.block fun b =>
          if b.status == .placed && (b.hostSwap || b.since == s.ncyc) then { b with swapCmd := false, hostSwap := false } else b
        else s
      let s1 := (s0.modGroup gi fun x => { x with parked := false, misses := [], expired := false }).modMod fun m =>
        { m with reports := m.reports.filter fun r => r.2.1 != gi }
      -- A wait counts from now on (R420).
      let s2 : State := { s1 with harts := s1.harts.map fun p =>
          if p.2.group = gi then (p.1, { p.2 with wait := p.2.wait.map fun w => { w with since := s.ncyc } }) else p }
      (s2.syncBars gi).wakePlinth (s2.plinthOf g)

/-- The group of a request's hart resumes where it can. -/
def State.resumeFor (s : State) (c : Ctx) : State := match c.hart.bind s.hart? with
  | some x => s.tryResume x.group
  | none => s

/-! ## Answers -/

/-- The owners of a failed entry take their deliveries, and the entry counts as done (R376). -/
def State.failEntry (s : State) (id : Nat) (cause sub : Nat) : State :=
  match tget s.pb id with
  | none => s
  | some e =>
    let s1 := e.owners.foldl (fun (t : State) h => t.dueAt h 60 (failWord ⟨4, 0⟩ cause sub 0) e.line) s
    { s1 with pb := tmod s1.pb id fun x => { x with performed := true, held := false } }

/-- A window store of a hart has been performed, or has failed (R92, R376). -/
def State.settleAcc (s : State) (id : Nat) : State :=
  match tget s.accs id with
  | none => s
  | some a =>
    if a.dst.isSome ∨ !a.performed then s
    else
      let s1 := s.dropAcc id
      match accFail a.answers with
      | some (cause, sub, addr) => s1.dueAt a.hart 60 (failWord a.fo cause sub 0) addr
      | none => s1

/-- Sets how far one piece of an access has come. -/
def State.setPiece (s : State) (id i : Nat) (st : PieceSt) : State :=
  { s with accs := tmod s.accs id fun a =>
      { a with pieces := (a.pieces.zip (List.range a.pieces.length)).map fun p => if p.2 = i then { p.1 with st := st } else p.1 } }

/-- The cause of an operation whose held request fails: a bank, queue or barrier operation takes cause 7 in place of 5, and the read
of a send's image or of a notice keeps 5 (R389). -/
def State.opCause (s : State) (o cause : Nat) : Nat := match (tget s.ops o).map Op.kind with
  | some (.sendImg _ _ _) | some (.kick _ _) => cause
  | _ => if cause = 5 then 7 else cause

/-- Whom a home lets ask again; for the others it performs the request itself. -/
def Held.asksAgain (e : Held) : Bool := match e.who, e.act with
  | .plain _, _ | .acc _ _, _ | .entry _, _ | .write, _ | .host _, _ | .engine _ _ true, _ | .tile _ _, .store _ _ => false
  | _, _ => true

/-- The answer to a request that a home held reaches whoever asked: a value for accesses and entries; for a fetch, an engine
or a plinth the page is there, and it asks again. -/
def State.answerHeld (s : State) (e : Held) (a : PieceAns) : State :=
  match e.who with
  | .plain h => s.modHart h fun x => if x.plainOut.isSome then { x with plainAns := some a } else x
  | .acc id i => (s.setPiece id i (.ans a)).settleAcc id
  | .entry id =>
    (match a with
      | .fail cause sub _ => s.failEntry id cause sub
      | _ => { s with pb := tmod s.pb id fun x => { x with performed := true, held := false } })
  | .op o =>
    (match a with
      | .fail cause sub addr => s.opFail o (s.opCause o cause) sub 0 addr
      | _ => s)
  | .grid g =>
    (match a, tget s.gridArrs g with
      | .fail cause sub _, some ga => s.failGridArr ga cause sub
      | _, _ => s)
  | .engine en cmd write =>
    -- A write that its home has performed: the element goes on behind it, and its line takes the poison of what was read.
    let poison : Bool := write && (match a with
      | .done _ => (s.engine en).any fun c => c.id == cmd && (match c.buf with
        | some (_, _, z) => z
        | none => false)
      | _ => false)
    let t := if poison then s.poisonAt e.req (siteOfHome (en / 4)) else s
    { t with engines := tmod t.engines en fun cs => cs.map fun c => if c.id = cmd then
        (match a with
          | .fail cause sub addr => { c with heldAt := none, fail := some (cause, sub, addr) }
          | .done _ => { c with heldAt := none, part := if write then c.part + e.act.width else c.part }
          | _ => { c with heldAt := none })
      else c }
  | .fetch h => s.modHart h fun x =>
      { x with plainOut := none, fetchFail := match a with
          | .fail cause sub addr => some (cause, sub, addr)
          | _ => none }
  | .table h => (match a, s.hart? h with
      -- A live-range table that cannot be read: the full save goes ahead, and step 2 of R377 has the failure (R384).
      | .fail _ _ addr, some x =>
        (s.modHart h fun y => { y with stopping := y.stopping.map fun _ => .full }).report x.group
          ⟨failWord ⟨3, 0x25⟩ 60 11 0, addr, true, x.hidx⟩
      | _, _ => s)
  | .unit => (match a with
      | .fail cause sub _ => { s with held := s.held ++ [{ e with why := .gone cause sub }] }
      | _ => s)
  | .write => (match a with
      -- A scheduler core's own write that fails is entered in the module log (R377 step 4).
      | .fail cause sub addr => s.sendFail e.home e.act cause sub addr
      | _ => s)
  | .host p => (match a with
      | .fail _ _ _ => s.hostFail p true
      | _ => s)
  | .hostRd p => (match a with
      | .fail _ _ _ => s.hostFail p false
      | _ => s)
  | .tile pi id => s.modPlinth pi fun p =>
      { p with queue := p.queue.map fun t => if t.id = id then
          (match a with
            | .fail cause sub addr => { t with fail := some (cause, sub, addr) }
            | .done _ => if e.asksAgain then t else { t with wrote := t.wrote + 1 }
            | _ => t)
        else t }

/-- Takes a request off the homes' lists. -/
def State.dropHeld (s : State) (e : Held) : State := { s with held := s.held.erase e }

/-- Where a held request goes when the home takes it up again, past the others of its page that still wait. -/
def State.replayRoute (s : State) (e : Held) : Route :=
  ({ s with held := [] } : State).route e.req (s.ctxIface e.ctx (siteOfHome e.home))

/-- What a home does for a held request past the others that it holds. -/
def State.pastHeld (s : State) (f : State → State) : State :=
  let t := f { s with held := [] }
  { t with held := s.held ++ t.held }

/-- A held request goes to its port again (R51, R55, R114, R392): nothing where it must stay. `fail` says that it fails if
its page is still not resident. -/
def State.tryHeld (s : State) (e : Held) (fail : Bool) : Option State :=
  let s0 := s.dropHeld e
  let r := e.req
  match s0.replayRoute e with
  | .at p tbit fill =>
    let stalls : Bool := tbit && e.trace.isSome && (match e.ctx.hart.bind s.hart? with
      | some x => s0.traceStalls x
      | none => false)
    if stalls then none
    else
      match e.who with
      | .op o =>
        (match tget s0.ops o with
          | some q => some ((s0.modOp o fun x => { x with st := .issued }).pastHeld fun t => t.performOp o { q with st := .issued })
          | none => some s0)
      | .grid g => some (s0.pastHeld fun t => doGridArrival { t with subj := g })
      | _ =>
        if e.asksAgain then some (s0.answerHeld e (.done true))
        else
          let (a, s1) := s0.performAt p fill r e.act e.trace tbit
          some (s1.answerHeld e a)
  | .fail cause sub => some ((s0.noteTable (vaHome e.va) sub).answerHeld e (.fail cause sub e.va))
  | .miss pg =>
    -- A request that came behind others, and now finds the page gone, misses itself (R49).
    if fail then some (s0.answerHeld e (.fail (accCause e.kind) 12 e.va))
    else if e.late then some (s0.holdMiss pg r e.act e.who e.relaxed e.trace)
    else none
  | _ => none

/-! ## Relaxed requests (R94) -/

/-- The first piece of an access that is still to be performed, with its number. -/
def Acc.next (a : Acc) : Option (Nat × AccPiece) :=
  ((List.range a.pieces.length).zip a.pieces).find? fun p => p.2.st == .todo

/-- The piece that an event names: by its number plus 1, or with 0 the next one. -/
def Acc.pick (a : Acc) (k : Nat) : Option (Nat × AccPiece) :=
  if k = 0 then a.next
  else (a.pieces[k - 1]?).bind fun p => if p.st == .todo then some (k - 1, p) else none

/-- An earlier piece of the same access that overlaps this one has not been performed, or the first part of the split access whose
second part this is has not reached its home (R76, R186; log 52). -/
def Acc.behind (a : Acc) (i : Nat) (p : AccPiece) : Bool :=
  ((a.pieces.take i).any fun q => (match q.st with
      | .ans _ => false
      | _ => true) && overlaps p.va p.act.width q.va q.act.width)
    || p.rest && ((a.pieces.take i).getLast?.any fun q => q.st == .todo)

/-- Piece `k` of a relaxed, acquire or window access reaches its home; its pieces go in any order where none is behind another
(R186). -/
def State.accRequest (s : State) (id : Nat) (a : Acc) (k : Nat) : State :=
  match s.hart? a.hart, a.pick k with
  | some x, some (i, p) =>
    if a.behind i p ∨ !(s.gateClear a.gate) then s
    else
      let kind : AccKind := match p.act with
        | .store _ _ => .store
        | _ => .load
      match s.request (Req.hart p.va p.act.width kind a.ctx) p.act (.acc id i) true none x.iface with
      | (.ans r, s1) => (s1.setPiece id i (.ans r)).settleAcc id
      | (.held, s1) => s1.setPiece id i .held
      | (.wait, _) => s
  | _, _ => s

/-! ## The post buffer's drains (R95 to R97) -/

/-- Every earlier entry of the line has been performed, and every earlier entry of the home has reached it (R96). -/
def State.entryTurn (s : State) (id : Nat) (e : PbEnt) : Bool := s.pb.all fun p =>
  !(decide (p.1 < id) && p.2.cluster == e.cluster && p.2.live)
    || (p.2.line != e.line && (vaHome p.2.line != vaHome e.line || p.2.held))

/-- The run of bytes that an entry writes: the offset of the first, and the bytes. -/
def PbEnt.run (e : PbEnt) : Nat × List (Option Byte) :=
  let skip := (e.bytes.takeWhile Option.isNone).length
  (skip, trimBytes (e.bytes.drop skip))

/-- A drained entry reaches its home. -/
def State.entryRequest (s : State) (id : Nat) (e : PbEnt) : State :=
  if !e.sent ∨ e.held ∨ e.performed ∨ !(s.entryTurn id e) then s
  else
    let run := if e.tag.isSome then (0, e.bytes) else e.run
    let ctx : Ctx := ⟨e.asid, e.priv, e.owners.head?, 0⟩
    let va := addrPlus e.line run.1
    let r : Req := { Req.hart va run.2.length .store ctx with direct := false }
    match s.request r (.store run.2 e.tag) (.entry id) true none (siteOfHome e.cluster) with
    | (.ans (.fail cause sub _), s1) => s1.failEntry id cause sub
    | (.ans _, s1) => { s1 with pb := tmod s1.pb id fun x => { x with performed := true } }
    | (.held, s1) => { s1 with pb := tmod s1.pb id fun x => { x with held := true } }
    | (.wait, _) => s

/-- HOME_REQUEST: a relaxed access's piece, or a drained entry, reaches its home. The subject is the access's identity or the
entry's, plus 2^64 times the piece. -/
def doHomeRequest (s : State) : State :=
  let id := s.subj % 2 ^ 64
  match tget s.accs id with
  | some a => s.accRequest id a (s.subj / 2 ^ 64)
  | none =>
    match tget s.pb id with
    | some e => s.entryRequest id e
    | none => s

/-- The earlier entries of the line have left for the home (R96). -/
def State.lineTurn (s : State) (id : Nat) (e : PbEnt) : Bool := s.pb.all fun p =>
  !(decide (p.1 < id) && p.2.cluster == e.cluster && p.2.live && p.2.line == e.line) || p.2.sent

/-- ENTRY_DRAIN: an entry of the cluster leaves for its home, once what a release in it waits for is done and the earlier ones of its
line have left. -/
def doEntryDrain (id : Nat) (s : State) : State :=
  match tget s.pb id with
  | some e =>
    if e.cluster = s.subj ∧ s.gateClear e.gate ∧ s.lineTurn id e then
      { s with pb := tmod s.pb id fun x =>
          { x with draining := true, sent := true, inj := if x.sent then x.inj else some s.turnNo } }
    else s
  | none => s

/-- DRAIN_TIMEOUT: 256 N-cycles after its acceptance an entry begins to drain. -/
def doDrainTimeout (id : Nat) (s : State) : State :=
  match tget s.pb id with
  | some e => if e.cluster = s.subj ∧ e.since + 256 ≤ s.ncyc then s.drain [id] else s
  | none => s

/-- POST_BUFFER_FREE: the home's acknowledgement of an entry frees it. -/
def doPbFree (id : Nat) (s : State) : State :=
  match tget s.pb id with
  | some e => if e.cluster = s.subj ∧ e.performed then { s with pb := tdel s.pb id } else s
  | none => s

/-! ## Parking (R49, R53) -/

/-- A record leaves once both receivers have had it. -/
def State.keepRec (s : State) (id : Nat) (m : MissRec) : State :=
  if m.toCore || m.toAgent then { s with missRecs := tset s.missRecs id m } else { s with missRecs := tdel s.missRecs id }

/-- A parking group's exchanges whose context message is not sent are abandoned, with COUNT kept (R53). Where the
target has declined already and only its answer is under way, the decline stands and COUNT has become 0 (R46; DESIGN CHOICE, log 144). -/
def Hart.stay (x : Hart) : Hart := match x.status with
  | .moving n => if n < 2 then { x with status := .present, migTo := none, migCore := none } else x
  | _ => x

/-- MISS_RECORD_AT_CORE: the requester's group parks, or its parking takes one more miss. The members' reservations end (R104), and
no parked hart counts as waiting (R420). -/
def doMissAtCore (s : State) : State :=
  match tget s.missRecs s.subj with
  | none => s
  | some m =>
    if !m.toCore then s
    else
      let s1 := s.keepRec s.subj { m with toCore := false }
      match m.ctx.hart.bind s.hart? with
      | none => s1
      | some x =>
        let s2 := s1.modGroup x.group fun g =>
          { g with
            parked := true
            parkedSince := if g.parked then g.parkedSince else s.ncyc
            misses := g.misses ++ [(m.home, m.stamp)] }
        let stays (h : Nat) : Bool := match s2.hart? h with
          | some y => y.group == x.group && y.stay.status == .present
          | none => false
        let s3 : State :=
          { s2 with
            harts := s2.harts.map fun p => if p.2.group = x.group ∧ p.2.status ≠ .ended then 
              (p.1, { p.2.stay with resv := none, wait := p.2.wait.map fun w => { w with listed := false } }) else p
            clusters := s2.clusters.map fun k => (k.1, { k.2 with reserved := k.2.reserved.filter fun r => !(stays r.2) }) }
        s3.tryResume x.group

/-! ## Service (R27, R51, R449) -/

/-- The 32 bytes of a miss record (R50). -/
def State.missBytes (s : State) (m : MissRec) : List Byte :=
  let x := m.ctx.hart.bind s.hart?
  let g := x.bind s.groupOf?
  let b := x.bind s.blockOf?
  bytesOfNat 32 (m.va.toNat + 2 ^ 64 * (m.stamp % 2 ^ 32) + 2 ^ 104 * m.asid.toNat + 2 ^ 120 * (m.kind % 16)
    + 2 ^ 128 * (((g.map fun q => winHome q.win).getD 0) % 1024) + 2 ^ 138 * (((g.map Group.index).getD 0) % 128)
    + 2 ^ 145 * (((x.map Hart.hidx).getD 0) % 16) + 2 ^ 160 * (((b.map Block.index).getD 0) % 2 ^ 24)
    + 2 ^ 192 * (m.time % 2 ^ 64))

/-- Fills a page's frame with zeros and gives every line of it a tag (R449, R87). -/
def State.fillZero (s : State) (key n : Nat) (t : BitVec 16) : State :=
  let inside (k : Nat) : Bool := decide (key ≤ k) && decide (k < key + n)
  let s1 : State :=
    { s with
      mem := s.mem.filter fun c => !(inside c.1)
      poison := s.poison.filter fun u => !(inside u)
      harts := s.harts.map fun p => match p.2.resv with
        | some l => if inside (64 * l) then (p.1, { p.2 with resv := none }) else p
        | none => p
      watches := s.watches.map fun p => if inside (64 * p.2.line) then (p.1, { p.2 with noticed := true }) else p }
  s1.fillTags key n t

/-- HMISSDONE for the page of an address. -/
def missDoneWord (asid : BitVec 16) (va : Word) (fail : Bool) : Word :=
  BitVec.ofNat 64 (2 ^ 48 * asid.toNat + 2 ^ 16 * bitsOf (vaOff va) 16 31 + b2n fail)

/-- The scheduler core serves one miss record (R449): FAIL = 1 where the walk ends at a pointer with V = 0, a bare completion on a
table error. -/
def State.serveMiss (s : State) (m : MissRec) : State :=
  let asid := m.asid
  let retry (t : State) : State := t.hmissDone m.home (missDoneWord asid m.va false)
  match s.leafAt m.home asid (vaOff m.va) with
  | .none => s.hmissDone m.home (missDoneWord asid m.va true)
  | .bad _ _ => retry s
  | .leaf at_ e log =>
    if e.getLsbD 0 then (if leafH e then s else retry s)
    else if leafH e then s
    else
      let mc := nearMc m.home
      let s1 := if leafLoc e ∨ s.dramBytes < leafFrame e log + 2 ^ log then s
        else s.fillZero (dramKey mc (leafFrame e log)) (2 ^ log) (leafTagdef e)
      retry (s1.putNat (dramKey mc at_) 8 (e.toNat + 1))

/-- The effective tag of a miss record's group, the latest of all for a requester without one. -/
def State.missTag (s : State) (m : MissRec) : Nat := match (m.ctx.hart.bind s.hart?).map s.tagOf with
  | some t => s.effTag t.1 t.2
  | none => s.effTag 0#16 true

/-- Record `a` is served before record `b` (R51). -/
def State.missBefore (s : State) (a b : MissRec) : Bool :=
  let x := s.missTag a
  let y := s.missTag b
  tagEarlier x y || (!(tagEarlier y x) && stampBefore a.stamp b.stamp)

/-- MISS_SERVICE: a record reaches its agent: the host service ring, or the scheduler core of the home's cluster, which takes
the record of the earliest deadline first. -/
def doMissService (s : State) : State :=
  match tget s.missRecs s.subj with
  | none => s
  | some m =>
    if !m.toAgent then s
    else if !m.hostMode && !(s.coreServes (serviceCluster m.home)) then s
    else if m.hostMode then (s.post 1 m.home (s.missBytes m)).keepRec s.subj { m with toAgent := false }
    else
      let better : Bool := s.missRecs.any fun p => p.2.toAgent && !p.2.hostMode && p.1 != s.subj
        && serviceCluster p.2.home == serviceCluster m.home && s.missBefore p.2 m
      if better then s else (s.serveMiss m).keepRec s.subj { m with toAgent := false }

/-! ## Replay (R51, R52, R392) -/

/-- The identity of what waits, in order of issue. -/
def Who.order : Who → Nat
  | .plain h => h
  | .acc a _ => a
  | .entry e => e
  | .op o => o
  | .grid g => g
  | .engine _ c _ => c
  | .fetch h | .table h => h
  | .tile _ t => t
  | .unit | .write | .host _ | .hostRd _ => 0

/-- Held request `a` replays before `b`: plain accesses by STAMP, then each hart's relaxed ones in its issue order, the harts in
the order of their first. What came behind the page's miss list follows it, in the order of arrival. -/
def replayBefore (a b : Held) : Bool :=
  if a.late || b.late then (if a.late && b.late then decide (a.stamp < b.stamp) else !a.late)
  else if a.relaxed != b.relaxed then !a.relaxed
  else if !a.relaxed then stampBefore a.stamp b.stamp
  else if a.ctx.hart = b.ctx.hart then decide (a.who.order < b.who.order)
  else stampBefore a.first b.first

/-- The first of some held requests to replay. -/
def firstReplay : List Held → Option Held
  | [] => none
  | e :: r => match firstReplay r with
    | none => some e
    | some f => if replayBefore f e then some f else some e

/-- Why a selected request stays at its home. -/
def State.stayWhy (s : State) (e : Held) : HoldWhy :=
  match s.replayRoute e with
  | .at _ _ _ => .ring
  | .rebind w g => .rebind w g
  | .netHeld | .lost => e.why
  | _ => .miss

/-- MISS_LIST_REPLAY: the home's next selected entry meets the tables again; one whose page is still not resident stays
held. -/
def doReplay (s : State) : State :=
  match firstReplay (s.held.filter fun e => e.home == s.subj && e.selected && !(s.absentFor e.ctx)) with
  | none => s
  | some e =>
    match s.tryHeld e (e.why == .retry true) with
    | some s1 => s1.resumeFor e.ctx
    | none =>
      let s1 := match e.trace.bind fun _ => e.ctx.hart.bind s.hart? with
        | some x => s.traceMiss x
        | none => s
      { s1 with held := s1.held.map fun f => if f == e then { f with why := s.stayWhy e } else f }

/-- TRACED_STORE_RESUME: the first request that waits at a home for its trace ring, or behind one that does, goes on once the
ring has room. -/
def doTracedResume (s : State) : State :=
  match s.held.find? fun e => e.home == s.subj && e.why == .ring with
  | none => s
  | some _ =>
    let firsts := s.held.filter fun e => e.home == s.subj && e.why == .ring
      && ((s.held.find? fun f => f.home == e.home && f.why == .ring && s.samePage f e) == some e)
    (firsts.findSome? fun e => s.tryHeld e false).getD s

/-! ## The events -/

/-- HOME_REQUEST. -/
def execHomeRequest (s : State) : Host.Outcome State Fault Refusal := .next (doHomeRequest s)
/-- ENTRY_DRAIN. -/
def execEntryDrain (entry : Nat) (s : State) : Host.Outcome State Fault Refusal := .next (doEntryDrain entry s)
/-- DRAIN_TIMEOUT. -/
def execDrainTimeout (entry : Nat) (s : State) : Host.Outcome State Fault Refusal := .next (doDrainTimeout entry s)
/-- POST_BUFFER_FREE. -/
def execPostBufferFree (entry : Nat) (s : State) : Host.Outcome State Fault Refusal := .next (doPbFree entry s)
/-- MISS_RECORD_AT_CORE. -/
def execMissRecordAtCore (s : State) : Host.Outcome State Fault Refusal := .next (doMissAtCore s)
/-- MISS_SERVICE. -/
def execMissService (s : State) : Host.Outcome State Fault Refusal := .next (doMissService s)
/-- MISS_LIST_REPLAY. -/
def execMissListReplay (s : State) : Host.Outcome State Fault Refusal := .next (doReplay s)
/-- TRACED_STORE_RESUME. -/
def execTracedStoreResume (s : State) : Host.Outcome State Fault Refusal := .next (doTracedResume s)
/-- HTLBINV (R74). -/
def execHtlbinv (w : Word) (s : State) : Host.Outcome State Fault Refusal := .next (s.htlbInv s.subj w)
/-- HMISSDONE (R392). -/
def execHmissdone (w : Word) (s : State) : Host.Outcome State Fault Refusal := .next (s.hmissDone s.subj w)

end Sys2Proof.Machine
end

