-- ==== Sys2Proof/Machine/EvMigrate.lean ====
section
/-! DEFINITION. Migration and load balance (R44 to R48): the exchange that moves a compact hart to another core. -/

namespace Sys2Proof.Machine

open Sys2Proof

/-! ## Slots -/

/-- The slots of a physical core that are free: 16 in all, less those taken or reserved (R46). A retired core has none. -/
def State.freeSlots (s : State) (core : Nat) : Nat :=
  if (s.core core).retired then 0
  else 16 - (s.coreHarts core).length - ((s.cluster (core / 100)).reserved.filter fun r => r.1 == core % 100).length

/-- The lowest free slot number of a core. -/
def State.lowSlot (s : State) (core : Nat) : Nat :=
  ((List.range 16).find? fun i => !((s.coreHarts core).any fun p => p.2.slot == i)).getD 0

/-- Ready harts of a core. No count takes a trailing hart (R406). -/
def State.readyHarts (s : State) (core : Nat) : Nat := ((s.coreHarts core).filter fun p => !p.2.trails && s.eligible p.2).length

/-- The best of some numbers under an order, the earlier on ties. -/
def pickBy (better : Nat → Nat → Bool) : List Nat → Option Nat
  | [] => none
  | a :: r => match pickBy better r with
    | none => some a
    | some b => if better b a then some b else some a

/-- The physical core of a cluster with the fewest ready harts among those with a free slot; ties to the lower number. -/
def State.idleCore (s : State) (cl : Nat) : Option Nat :=
  (pickBy (fun a b => decide (s.readyHarts a < s.readyHarts b))
    (((List.range 100).map fun i => cl * 100 + i).filter fun c => decide (0 < s.freeSlots c))).map fun c => c % 100

/-- The physical core with the most ready harts; ties to the lower number. -/
def State.busyCore (s : State) (cl : Nat) : Nat :=
  ((pickBy (fun a b => decide (s.readyHarts b < s.readyHarts a)) ((List.range 100).map fun i => cl * 100 + i)).getD 0) % 100

/-- dxload as it stands (R48). Where no core of the cluster has a free slot, IDLE and MINRDY read 0 (DESIGN CHOICE; log 142). -/
def State.dxloadNow (s : State) (cl : Nat) : Word :=
  let busy := s.busyCore cl
  let free := (List.range 100).foldl (fun n i => n + s.freeSlots (cl * 100 + i)) 0
  let idle := (s.idleCore cl).getD 0
  let min := match s.idleCore cl with
    | some i => s.readyHarts (cl * 100 + i)
    | none => 0
  BitVec.ofNat 64 (busy + 2 ^ 8 * (s.readyHarts (cl * 100 + busy) % 32) + 2 ^ 16 * idle + 2 ^ 32 * (min % 32) + 2 ^ 37 * free)

/-- DXLOAD_REFRESH: every 64 N-cycles. -/
def doDxload (s : State) : State := s.modCluster s.subj fun k => { k with dxload := s.dxloadNow s.subj }

/-! ## The exchange (R46) -/

/-- MIGRATION_START: a compact hart whose COUNT has reached THRESH leaves rotation, where every condition of R45 holds now.
Where the target is the hart's own cluster, nothing happens and COUNT stays (DESIGN CHOICE; log 143). -/
def doMigrationStart (s : State) : State :=
  match s.hart? s.subj with
  | none => s
  | some x =>
    if x.mig.thresh ≠ 0#16 ∧ x.mig.thresh ≤ x.mig.count ∧ s.migReady s.subj x then
      match s.migTarget x.mig.home.toNat with
      | some c => if c = x.cluster then s else s.startMigration s.subj c
      | none => s
    else s

/-- Stage of a hart in the exchange. -/
def Hart.stage (x : Hart) : Option Nat := match x.status with
  | .moving n => some n
  | _ => none

/-- MIGRATION_SLOT_REQUEST: the target's dispatcher reserves a slot and answers, or declines: on the core that a load balance has
chosen, else on the one with the fewest ready harts. -/
def doSlotRequest (s : State) : State :=
  match s.hart? s.subj with
  | none => s
  | some x =>
    match x.stage, x.migTo with
    | some 0, some cl =>
      (match (match x.migCore with
          | some c => if 0 < s.freeSlots (cl * 100 + c) then some c else none
          | none => s.idleCore cl) with
        | some c =>
          (s.modCluster cl fun k => { k with reserved := k.reserved ++ [(c, s.subj)] }).modHart s.subj fun y =>
            { y with status := .moving 1 }
        | none => s.modHart s.subj fun y => { y with status := .moving 9 })
    | _, _ => s

/-- MIGRATION_SLOT_REPLY: declined, the hart goes on where it is with COUNT = 0; else its context message leaves, once each of
its post-buffer entries has been performed or is held (R98). -/
def doSlotReply (s : State) : State :=
  match s.hart? s.subj with
  | none => s
  | some x =>
    match x.stage with
    | some 9 => s.modHart s.subj fun y => { y with status := .present, migTo := none, migCore := none, mig := { y.mig with count := 0#16 } }
    | some 1 =>
      if s.entriesSettled s.subj then
        s.modHart s.subj fun y => { y with status := .moving 2, sentC := s.causal x, resv := none, saw := [] }
      else s.drainFor s.subj
    | _ => s

/-- MIGRATION_CONTEXT_ARRIVAL: the target core places the hart in its run queue. -/
def doContextArrival (s : State) : State :=
  match s.hart? s.subj with
  | none => s
  | some x =>
    match x.stage, x.migTo with
    | some 2, some cl =>
      (match (s.cluster cl).reserved.find? fun r => r.2 == s.subj with
        | some (c, _) =>
          let core := cl * 100 + c
          let s1 := s.modCluster cl fun k => { k with reserved := k.reserved.filter fun r => r.2 != s.subj }
          let slot := s1.lowSlot core
          (s1.raiseC core cl x.sentC).modHart s.subj fun y =>
            { y with
              status := .present
              cluster := cl
              pcore := c
              slot := slot
              mig := ⟨y.mig.thresh, 0#16, BitVec.ofNat 10 cl⟩
              migTo := none
              migCore := none
              sentC := 0
              chisel := y.chisel.clr
              ready := none }
        | none => s)
    | _, _ => s

/-! ## Load balance (R48) -/

/-- Hart `a` is moved before hart `b`: the latest effective deadline, ties to the higher hart number, which is its slot on the core
(R32). -/
def State.laterHart (s : State) (a b : Nat) : Bool :=
  let t (h : Nat) : Nat := match (s.hart? h).map s.tagOf with
    | some q => s.effTag q.1 q.2
    | none => 0
  let n (h : Nat) : Nat := ((s.hart? h).map Hart.slot).getD 0
  tagEarlier (t b) (t a) || (!(tagEarlier (t a) (t b)) && decide (n b < n a))

/-- LOAD_BALANCE: where MAXRDY exceeds MINRDY by 6, one ready compact hart leaves core BUSY for core IDLE, as dxload shows them. -/
def doLoadBalance (s : State) : State :=
  let cl := s.subj
  let d := (s.cluster cl).dxload.toNat
  let busy := cl * 100 + bitsOf d 0 7
  let idle := bitsOf d 16 7
  if bitsOf d 8 5 < bitsOf d 32 5 + 6 ∨ s.freeSlots (cl * 100 + idle) = 0 then s
  else
    let cs := ((s.coreHarts busy).filter fun p => s.eligible p.2 && s.migReady p.1 p.2).map Prod.fst
    match pickBy (fun a b => s.laterHart a b) cs with
    | some h => (s.startMigration h cl).modHart h fun x => { x with migCore := some idle }
    | none => s

/-! ## The events -/

/-- MIGRATION_START. -/
def execMigrationStart (s : State) : Host.Outcome State Fault Refusal := .next (doMigrationStart s)
/-- MIGRATION_SLOT_REQUEST. -/
def execMigrationSlotRequest (s : State) : Host.Outcome State Fault Refusal := .next (doSlotRequest s)
/-- MIGRATION_SLOT_REPLY. -/
def execMigrationSlotReply (s : State) : Host.Outcome State Fault Refusal := .next (doSlotReply s)
/-- MIGRATION_CONTEXT_ARRIVAL. -/
def execMigrationContextArrival (s : State) : Host.Outcome State Fault Refusal := .next (doContextArrival s)
/-- LOAD_BALANCE. -/
def execLoadBalance (s : State) : Host.Outcome State Fault Refusal := .next (doLoadBalance s)
/-- DXLOAD_REFRESH. -/
def execDxloadRefresh (s : State) : Host.Outcome State Fault Refusal := .next (doDxload s)

end Sys2Proof.Machine
end

