-- ==== Sys2Proof/Machine/Launch.lean ====
section
/-! DEFINITION. Launch records and kernel headers as scheduler cores and dispatchers read them (R36 to R39, R168, R386), new
grids, and the placing of a pipeline's stages (R300, R301). -/

namespace Sys2Proof.Machine

open Sys2Proof

/-! ## Reads -/

/-- What a scheduler core's read comes to. -/
inductive UnitGot where
  | got (bytes : List Byte)
  /-- It fails, with the address that does. -/
  | fail (cause sub : Nat) (va : Word)
  /-- Not now: the address that is not resident or not in reach. -/
  | later (va : Word)
deriving DecidableEq, Repr

/-- Reads `n` bytes with a context, line by line. -/
def State.unitBytes (s : State) (c : Ctx) : Nat → Word → Nat → UnitGot
  | 0, _, _ => .got []
  | f + 1, a, n =>
    if n = 0 then .got []
    else
      let k := min n (64 - a.toNat % 64)
      match s.unitKey c .load a k with
      | .error (some (cause, sub)) => .fail cause sub a
      | .error none => .later a
      | .ok key =>
        if s.poisoned key k then .fail 56 14 a
        else
          match s.unitBytes c f (addrPlus a k) (n - k) with
          | .got bs => .got (s.bytesAt key k ++ bs)
          | r => r

/-- Reads `n` bytes. -/
def State.readBytes (s : State) (c : Ctx) (a : Word) (n : Nat) : UnitGot := s.unitBytes c (n / 64 + 2) a n

/-- An address in the region that software reserves for the part (R422). -/
def State.reservedVa (s : State) (a : Word) : Bool :=
  s.qtValid && vaHome a == vaHome s.mod.qtbase && decide (vaOff (s.qtVa 0) ≤ vaOff a) && decide (vaOff a < vaOff (s.qtVa 0) + 2 ^ 27)

/-! ## Launch records (R36, R38, R386) -/

/-- A launch record from its 128 bytes. -/
def parseLaunch (bs : List Byte) : Launch :=
  let n := natOfBytes bs
  let f (lo len : Nat) : Nat := bitsOf n lo len
  { entry := BitVec.ofNat 64 (f 0 64)
    khdr := BitVec.ofNat 64 (f 64 64)
    levels := (List.range 8).map fun i => BitVec.ofNat 64 (f (128 + 64 * i) 64)
    hpg := f 640 16
    gpb := f 656 16
    bpg := f 672 32
    deadline := f 704 16
    rclass := f 720 6
    redun := f 728 1 == 1
    parklim := f 736 32
    compact := f 768 8 == 1
    regclassRaw := f 768 8
    argp := BitVec.ofNat 64 (f 832 64)
    savebase := BitVec.ofNat 64 (f 896 64)
    savestride := f 960 32 }

/-- A level's EXTENT. -/
def lvlExtent (w : Word) : Nat := bitsOf w.toNat 0 16
/-- A level's DOMAIN. -/
def lvlDomain (w : Word) : Nat := bitsOf w.toNat 16 3
/-- A level's SCOPE. -/
def lvlScope (w : Word) : Nat := bitsOf w.toNat 19 3

/-- Numbers that do not decrease. -/
def rising : List Nat → Bool
  | a :: b :: r => decide (a ≤ b) && rising (b :: r)
  | _ => true

/-- The constraints of R36. -/
def levelsOk (l : Launch) : Bool :=
  let used := l.levels.takeWhile fun w => lvlExtent w != 0
  let rest := l.levels.drop used.length
  let prod (p : Nat → Bool) : Nat := used.foldl (fun n w => if p (lvlDomain w) then n * lvlExtent w else n) 1
  rest.all (fun w => lvlExtent w == 0)
    && rising (used.map lvlDomain)
    && used.all (fun w => decide (lvlDomain w ≤ 3) && decide (lvlDomain w + 1 ≤ lvlScope w) && decide (lvlScope w ≤ 5))
    && prod (· == 0) == l.hpg && prod (· == 1) == l.gpb && prod (2 ≤ ·) == l.bpg

/-- The ranges of R38. -/
def rangesOk (rec_ : Word) (l : Launch) : Bool :=
  decide (rec_.toNat % 128 = 0) && decide (l.regclassRaw ≤ 1) && decide (1 ≤ l.bpg) && decide (l.bpg ≤ 16777216)
    && decide (1 ≤ l.gpb) && decide (l.gpb ≤ 96) && decide (1 ≤ l.hpg) && decide (l.hpg ≤ 16) && decide (l.deadline ≤ 0x7FFF)
    && isMC (vaHome l.savebase) && decide (l.savebase.toNat % 65536 = 0) && decide (l.savestride % 65536 = 0)

/-- The SUB of R380 under which a record is refused (R386): the lowest that applies. -/
def launchSub (rec_ : Word) (l : Launch) (k : Khdr) (stage : Bool) : Option Nat :=
  if !(levelsOk l) then some 6
  else if !(rangesOk rec_ l) then some 7
  else if l.compact && !k.compact then some 8
  else if l.savestride < 4096 * l.hpg * l.gpb + 524288 + 278528 * l.gpb then some 9
  else if l.redun && decide (8 < l.hpg) then some 10
  else if 262144 < k.scratch then some 12
  else if stage && l.bpg != 1 then some 14
  else none

/-- A kernel header from its 64 bytes and the two tables (R168). -/
def parseKhdr (hd mb rg : List Byte) : Khdr :=
  let n := natOfBytes hd
  { scratch := bitsOf n 288 32
    hintdist := bitsOf n 272 16
    barriers := bitsOf n 264 8
    mboxmask := BitVec.ofNat 32 (bitsOf n 352 32)
    ringmask := BitVec.ofNat 8 (bitsOf n 344 8)
    compact := bitsOf n 256 8 == 1
    mboxes := (List.range 32).map fun m => natOfBytes ((mb.drop (4 * m)).take 4)
    ringTab := (List.range 8).map fun r =>
      (natOfBytes ((rg.drop (16 * r)).take 4), natOfBytes ((rg.drop (16 * r + 4)).take 4)) }

/-- What the reading of a launch record comes to. -/
inductive LaunchGot where
  | ready (l : Launch) (k : Khdr)
  | refused (sub : Nat)
  /-- A read that fails. -/
  | fault (c : Ctx) (va : Word)
  | later (c : Ctx) (va : Word)
deriving DecidableEq, Repr

/-- Reads and checks a launch record with one context, and its kernel header with the grid's. -/
def State.readLaunch (s : State) (c : Ctx) (asid : BitVec 16) (rec_ : Word) (stage : Bool) : LaunchGot :=
  let gc := schedCtx asid
  match s.readBytes c rec_ 128 with
  | .fail _ _ va => .fault c va
  | .later va => .later c va
  | .got bs =>
    let l := parseLaunch bs
    match s.readBytes gc l.khdr 64 with
    | .fail _ _ va => .fault gc va
    | .later va => .later gc va
    | .got hd =>
      let n := natOfBytes hd
      let mo := bitsOf n 384 32
      let ro := bitsOf n 416 32
      match s.readBytes gc (addrPlus l.khdr mo) (if mo = 0 then 0 else 128), s.readBytes gc (addrPlus l.khdr ro) (if ro = 0 then 0 else 128) with
      | .got mb, .got rg =>
        let k := parseKhdr hd mb rg
        (match launchSub rec_ l k stage with
          | some sub => .refused sub
          | none => .ready l k)
      | .later va, _ => .later gc va
      | _, .later va => .later gc va
      | .fail _ _ va, _ => .fault gc va
      | _, .fail _ _ va => .fault gc va

/-- A refused record (R386): step 3 of R377, with BLOCK holding SUB. -/
def State.refuseLaunch (s : State) (asid : BitVec 16) (rec_ : Word) (cl sub : Nat) : State :=
  s.errWord asid rec_ cl sub ⟨failWord ⟨5, 0⟩ 60 sub 0, rec_, true, 0⟩

/-- A new grid (R39): its blocks are ready, and carry the deadline that counts from now. -/
def State.newGrid (s : State) (asid : BitVec 16) (rec_ : Word) (l : Launch) (k : Khdr) (done : GridFor) (owner : Nat) : Nat × State :=
  let id := s.nextId
  let serial := (s.mod.serial + 1) % 2 ^ 29
  let nodl : Bool := l.deadline == 0
  let tag := BitVec.ofNat 16 (s.tagNow + (if nodl then 0x7FFF else l.deadline))
  let ids := (List.range l.bpg).map fun i => id + 1 + i
  let g : Grid :=
    { serial := serial
      rec_ := rec_
      asid := asid
      launch := l
      hdr := k
      user := 0
      blocks := ids
      ended := 0
      done := done
      owner := owner
      tag := tag
      nodl := nodl
      failed := false
      hung := [] }
  let blk (i : Nat) : Block :=
    { grid := id
      index := i
      status := .ready
      home := 0
      cluster := 0
      groups := []
      bars := []
      stages := []
      tag := tag
      nodl := nodl
      since := s.ncyc
      dlDelivered := false
      stopC := 0
      swapCmd := false
      hostSwap := false
      movedWins := []
      spill := [] }
  (id, { (s.modMod fun m => { m with serial := serial }) with
    nextId := id + 1 + l.bpg
    grids := tset s.grids id g
    blocks := (List.range l.bpg).foldl (fun (t : Table Block) i => tset t (id + 1 + i) (blk i)) s.blocks })

/-! ## Pipelines (R300, R301) -/

/-- The pipeline that a grid is a stage of, and its stage number. -/
def State.stageOf (s : State) (gr : Grid) : Option (Nat × PipeRun × Nat) := match gr.done with
  | .stage p =>
    (tget s.pipes p).bind fun r =>
      (r.grids.find? fun q => (tget s.grids q.2).map Grid.serial == some gr.serial).map fun q => (p, r, q.1)
  | _ => none

/-- The grid and block of a stage that has been placed. -/
def State.stageBlock (s : State) (r : PipeRun) (st : Nat) : Option (Grid × Block) :=
  (tget r.grids st).bind fun g => (tget s.grids g).bind fun gr =>
    (gr.blocks.head?.bind fun b => tget s.blocks b).bind fun b => if b.status == .ready then none else some (gr, b)

/-- A stage's block is offered once every higher stage has been placed. -/
def State.stageDue (s : State) (gr : Grid) : Bool := match s.stageOf gr with
  | some (_, r, st) => r.grids.all fun q => decide (q.1 ≤ st) || (s.stageBlock r q.1).isSome
  | none => true

/-- An output channel to be configured: stage, output, where its address is written, and the target's window and mailbox with
ALLOW. -/
structure Channel where
  stage : Nat
  out : Nat
  argp : Word
  win : Nat
  mbox : Nat
  allow : Nat

/-- The output channels that can be configured now and are not. -/
def State.openChannels (s : State) (r : PipeRun) : List Channel :=
  (r.outs.map fun o => match s.stageBlock r o.1 with
    | none => []
    | some (gr, _) => ((List.range o.2.length).zip o.2).filterMap fun c =>
      if r.configured.contains (o.1, c.1) then none
      else
        (s.stageBlock r c.2.1).bind fun t => (t.2.groups.head?.bind fun g => tget s.groups g).map fun g =>
          (⟨o.1, c.1, addrPlus gr.launch.argp (8 * c.1), g.win, c.2.2.1, c.2.2.2⟩ : Channel)).foldr (· ++ ·) []

/-- Configures one channel. -/
def State.openChannel (s : State) (pipe : Nat) (asid : BitVec 16) (c : Channel) : State :=
  let v := s.conf c.win c.mbox
  let s1 := s.putConf c.win c.mbox (putBits (putBits v 0 3 (c.allow - 1)) 3 1 1)
  let s2 := s1.unitWrite (schedCtx asid) c.argp 8 (addrPlus (winBase c.win) (0x40000 + 8 * c.mbox)).toNat
  { s2 with pipes := tmod s2.pipes pipe fun q => { q with configured := q.configured ++ [(c.stage, c.out)] } }

/-- The harts of a stage begin. -/
def State.startStage (s : State) (pipe st : Nat) : State :=
  let s1 : State := { s with pipes := tmod s.pipes pipe fun q => { q with started := q.started ++ [st] } }
  let gid := (tget s.pipes pipe).bind fun r => tget r.grids st
  let mine (x : Hart) : Bool := ((tget s.groups x.group).bind fun g => (tget s.blocks g.block).map Block.grid) == gid && gid.isSome
  { s1 with harts := s1.harts.map fun p =>
      if p.2.status == .unstarted && mine p.2 then (p.1, { p.2 with status := .present, ready := some s.acyc }) else p }

/-- The stages whose channels are all configured and which have not begun. -/
def State.startable (s : State) (r : PipeRun) : List Nat := (r.outs.filter fun o =>
  (s.stageBlock r o.1).isSome && !(r.started.contains o.1)
    && (List.range o.2.length).all fun i => r.configured.contains (o.1, i)).map Prod.fst

/-- What follows the placing of a stage's block (R301): ROUNDS, the channels, and the stages that begin; `old` where an address
is not in reach. -/
def State.stagePlaced (s old : State) (gr : Grid) : State :=
  match s.stageOf gr with
  | none => s
  | some (p, r, _) =>
    let c := schedCtx gr.asid
    let cs := s.openChannels r
    let rounds := addrPlus gr.launch.argp 64
    match (rounds :: cs.map Channel.argp).find? fun va => match s.unitKey c .store va 8 with
        | .error none => true
        | _ => false with
    | some va => old.unitMiss c .store va
    | none =>
      let s1 := cs.foldl (fun (t : State) x => t.openChannel p gr.asid x) (s.unitWrite c rounds 8 r.rounds)
      match tget s1.pipes p with
      | some r1 => (s1.startable r1).foldl (fun (t : State) st => t.startStage p st) s1
      | none => s1

end Sys2Proof.Machine
end

