-- ==== Sys2Proof/Machine/EvSwap.lean ====
section
/-! DEFINITION. Placement, stops, swaps, re-admission and the retirement of cores (R37 to R43, R54 to R58, R80, R214, R215,
R295, R304 to R307, R387, R393, R404, R418, R419). -/

namespace Sys2Proof.Machine

open Sys2Proof

/-! ## The save area (R56) -/

/-- The start of a block's save area. -/
def Grid.area (g : Grid) (b : Block) : Word := addrPlus g.launch.savebase (b.index * g.launch.savestride)
/-- Bytes of a block's context slots. -/
def Grid.ctxBytes (g : Grid) : Nat := 4096 * g.launch.hpg * g.launch.gpb
/-- The accumulators of plinth `p`. -/
def Grid.accVa (g : Grid) (b : Block) (p : Nat) : Word := addrPlus (g.area b) (g.ctxBytes + 131072 * p)
/-- The frame at place `i` of a group: its data granules in order, and its window's control granule at place 16. -/
def Grid.frameVa (g : Grid) (b : Block) (gidx i : Nat) : Word :=
  addrPlus (g.area b) (g.ctxBytes + 524288 + 278528 * gidx + 16384 * i)

/-- The 4 KiB parts of `n` bytes. -/
def chunksOf (va : Word) (n : Nat) : List Word := (List.range (n / 4096)).map fun i => addrPlus va (4096 * i)

/-- The first of some 4 KiB parts that a scheduler core cannot write, with why: a failure, or nothing yet. -/
def State.blocked (s : State) (asid : BitVec 16) (vas : List Word) : Option (Option (Nat × Nat) × Word) :=
  vas.findSome? fun va => match s.unitKey (schedCtx asid) .store va 4096 with
    | .ok _ => none
    | .error e => some (e, va)

/-! ## Groups and their granules -/

/-- The windows of some groups. -/
def State.winsOf (s : State) (gs : List Nat) : List Nat :=
  gs.foldl (fun l gi => match tget s.groups gi with
    | some g => if l.contains g.win then l else l ++ [g.win]
    | none => l) []

/-- The live groups of a block. -/
def State.blockGroups (s : State) (b : Block) : List Nat := b.groups.filter s.liveGroup

/-- Every live group of a window is among these. -/
def State.ownsWindow (s : State) (gs : List Nat) (w : Nat) : Bool :=
  s.groups.all fun p => p.2.ended || p.2.win != w || gs.contains p.1

/-- The granules that go with some groups: (window, granule, group index, place in its area). Control granules go where every
group of the window goes, in the area of the first of these that has the window (DESIGN CHOICE; log 150). -/
def State.granulesOf (s : State) (gs : List Nat) : List (Nat × Nat × Nat × Nat) :=
  let data := (gs.map fun gi => match tget s.groups gi with
    | some g => (List.range g.granN).map fun i => (g.win, g.granLo + i, g.index, i)
    | none => []).foldr (· ++ ·) []
  let ctl := ((s.winsOf gs).filter (s.ownsWindow gs)).map fun w =>
    (w, 16, ((gs.findSome? fun gi => match tget s.groups gi with
      | some g => if g.win = w then some g.index else none
      | none => none).getD 0), 16)
  data ++ ctl

/-- Sets the binding of a granule. -/
def State.setGran (s : State) (w g : Nat) (st : GranSt) : State := s.modWindow w fun x => { x with grans := tset x.grans g st }

/-- A granule is bound to a core. -/
def GranSt.onCore : GranSt → Bool
  | .core _ _ => true
  | _ => false
/-- A granule is bound to a save frame. -/
def GranSt.inFrame : GranSt → Bool
  | .frame _ => true
  | _ => false

/-- Begins the rebinding of a granule (R80 step 1 and 2): a granule in a frame has no local-range entry to withdraw. -/
def State.beginMove (s : State) (w g : Nat) (dest : RebindTo) : State :=
  match s.gran w g with
  | .core cl pc => s.setGran w g (.moving (.core cl pc) dest false s.ncyc)
  | .frame va => s.setGran w g (.moving (.frame va) dest true s.ncyc)
  | _ => s

/-! ## Stopping groups (R54, R214) -/

/-- What a stop writes for a block: its harts' context slots, its leases' accumulators, its granules' frames. -/
def State.saveParts (s : State) (gr : Grid) (b : Block) (gs : List Nat) : List Word :=
  let slots := (gs.map fun gi => match tget s.groups gi with
    | some g => (s.groupOrder g).filterMap fun h => ((s.hart? h).bind s.slotVa).map Prod.snd
    | none => []).foldr (· ++ ·) []
  let accs := (gs.map fun gi => match tget s.groups gi with
    | some g => if (s.plinth (s.plinthOf g)).heldBy gi then chunksOf (gr.accVa b (winNum g.win / 24)) 131072 else []
    | none => []).foldr (· ++ ·) []
  let frames := ((s.granulesOf gs).map fun q => chunksOf (gr.frameVa b q.2.2.1 q.2.2.2) 16384).foldr (· ++ ·) []
  slots ++ accs ++ frames

/-- What the scheduler core reaches of a block's save area to save or restore leases and harts: the slots and the accumulators. -/
def State.slotParts (s : State) (gr : Grid) (b : Block) (gs : List Nat) : List Word :=
  (gs.map fun gi => match tget s.groups gi with
    | some g => addrPlus (gr.area b) (4096 * (g.index * gr.launch.hpg)) ::
        ((s.groupOrder g).filterMap fun h => ((s.hart? h).bind s.slotVa).map Prod.snd)
          ++ chunksOf (gr.accVa b (winNum g.win / 24)) 131072
    | none => []).foldr (· ++ ·) []

/-- A swap or a pre-emption is abandoned with the failure of its save area (R393). -/
def State.abandon (s : State) (bi cause sub : Nat) (va : Word) : State :=
  match tget s.blocks bi with
  | none => s
  | some b => (s.modBlock bi fun x => { x with swapCmd := false, hostSwap := false }).reportGrid b.grid b.index b.cluster
      ⟨failWord noForm cause sub 0, va, true, 0⟩

/-- A stop request goes to a block that is to be swapped (R54 step 1). -/
def State.beginSwap (s : State) (bi : Nat) : State :=
  match tget s.blocks bi with
  | none => s
  | some b =>
    match tget s.grids b.grid with
    | none => s
    | some gr =>
      let gs := s.blockGroups b
      if b.status != .placed || gs.any fun gi => match tget s.groups gi with
          | some g => g.away != 0
          | none => false then s
      else
        match s.blocked gr.asid (s.saveParts gr b gs) with
        | some (some (cause, sub), va) => s.abandon bi cause sub va
        | some (none, va) => (s.modBlock bi fun x => { x with swapCmd := true }).unitMiss (schedCtx gr.asid) .store va
        | none =>
          gs.foldl (fun (t : State) gi => t.stopGroup gi)
            (s.modBlock bi fun x => { x with status := .stopping, swapCmd := false, hostSwap := false, since := s.ncyc })

/-- The header of a hart's kernel. -/
def State.hdrOf (s : State) (x : Hart) : Khdr := match s.gridOf? x with
  | some g => g.hdr
  | none => bareHdr0
where bareHdr0 : Khdr := ⟨0, 0, 0, 0#32, 0#8, false, [], []⟩

/-- A hart waits under R31 (R306): on its plain access, on what its instruction waits for, or for its chisel instruction to finish
(R263). In WFI a stop ends the wait. -/
def State.waitsUnder31 (s : State) (h : Nat) (x : Hart) : Bool :=
  x.plainOut.isSome || (s.core x.core).chiselFor h || (match x.wait with
    | some w => w.kind != 11
    | none => false)

/-- A hart waits in gend, and every earlier access of it is complete. -/
def State.gendDue (s : State) (h : Nat) (x : Hart) : Bool := (match x.wait with
  | some w => w.kind == 13
  | none => false) && (s.incomplete h).isEmpty

/-- STOP_REQUEST: the stop of a hart whose group is stopping (R54, R306, R387). -/
def doStopRequest (s : State) : State :=
  let h := s.subj
  match s.hart? h with
  | none => s
  | some x =>
    match s.groupOf? x with
    | none => s
    | some g =>
      if g.away ≠ 1 ∨ x.trails then s
      else if x.status == .unstarted then s.saveHart h x.pc (.all x.full)
      else if x.status != .present then s
      else if g.parked then (if s.mayStop h x then s.saveHart h x.pc (.all x.full) else s)
      else if x.stopping.isSome then s.tryStop h
      else
        let asked (y : Hart) : Hart := { y with stopReq := true, stopAt := if y.stopReq then y.stopAt else s.acyc }
        let trapped : Bool := x.priv == .s && x.pc == x.csr.stvec && x.lastIssue.any fun t => t / 2 == s.acyc
        if s.boundaryNow h x || trapped then s.modPair h fun y => { asked y with stopSret := true }
        -- A gend whose accesses are complete retires first, and its hart is not saved (R387).
        else if s.waitsUnder31 h x && !(s.gendDue h x) && s.mayStop h x then s.saveHart h x.pc (.all x.full)
        else s.modPair h asked

/-- HINTDIST_EXPIRY: HINTDIST instructions without a phint bring a full save (R54, R307, R410). -/
def doHintdist (s : State) : State :=
  let h := s.subj
  match s.hart? h with
  | none => s
  | some x =>
    if x.stopReq && x.status == .present && !x.trails && decide ((s.hdrOf x).hintdist ≤ x.sinceHint) && x.log.isEmpty
        && x.plainOut.isNone && x.stopping.isNone && !(s.gendDue h x) then
      s.stopNow h .full
    else s

/-! ## Leases (R214, R305) -/

/-- Every hart of some groups is saved or has ended. -/
def State.allSaved (s : State) (gs : List Nat) : Bool := gs.all fun gi => match tget s.groups gi with
  | some g => g.harts.all fun h => match s.hart? h with
    | some x => x.status == .saved || x.status == .ended
    | none => true
  | none => true

/-- No accepted command of a group is left, and no handover to it is under way. -/
def State.tilesDone (s : State) (gs : List Nat) : Bool := gs.all fun gi => match tget s.groups gi with
  | some g =>
    let p := s.plinth (s.plinthOf g)
    !(p.queue.any fun t => t.group == gi) && (match p.handover with
      | some (w, _) => w != gi
      | none => true)
  | none => true

/-- The ext32 bits of a tcfg. -/
def Tcfg.byte (c : Tcfg) : Nat := c.width.toNat + b2n c.int * 4 + c.plog2.toNat * 8 + b2n c.tra * 64 + b2n c.chk * 128
/-- The tcfg of its ext32 bits. -/
def tcfgOfByte (n : Nat) : Tcfg :=
  ⟨BitVec.ofNat 2 n, bitsOf n 2 1 == 1, BitVec.ofNat 3 (n / 8), bitsOf n 6 1 == 1, bitsOf n 7 1 == 1⟩

/-- Writes a line with its tag as a scheduler core. -/
def State.putLine (s : State) (asid : BitVec 16) (l : Word × List Byte × BitVec 16) : State :=
  match s.unitKey (schedCtx asid) .store l.1 64 with
  | .ok k => (s.putMem k (l.2.1.map some)).setTag k l.2.2
  | .error _ => s

/-- The context slot of HART 0 of a group. -/
def State.slot0 (s : State) (gr : Grid) (b : Block) (g : Group) : Option Nat :=
  match s.unitKey (schedCtx gr.asid) .store (addrPlus (gr.area b) (4096 * (g.index * gr.launch.hpg))) 4096 with
  | .ok k => some k
  | .error _ => none

/-- The withdrawn commands as the slot holds them. -/
def withdrawnBytes (l : List Tile) : List Byte := joinBytes (l.map fun t =>
  bytesOfNat 8 t.bits.toNat ++ bytesOfNat 8 t.ra.toNat ++ bytesOfNat 8 (t.rb.toNat % 2 ^ 48 + 2 ^ 48 * (t.cols % 256) + 2 ^ 56 * (t.rows % 256)))

/-- Saves a group's lease: the accumulators in the block's area, tcfg, IOVF and CHK and the withdrawn commands in the slot of
HART 0, which shows 16 of them, though the model keeps any number (R305; DESIGN CHOICE, log 151); then the lease ends. -/
def State.saveLease (s : State) (gr : Grid) (b : Block) (gi : Nat) : State :=
  match tget s.groups gi with
  | none => s
  | some g =>
    let pi := s.plinthOf g
    let p := s.plinth pi
    let held := p.heldBy gi
    let q := if held then p.promoteAll else p
    let s1 := if held then (s.modPlinth pi fun _ => q).iovfTrap p q p.lastHart else s
    let s2 : State := if held then
        (List.range 4).foldl (fun (t : State) k =>
          (tsaveLines (q.acc k) q.cfg.int (addrPlus (gr.accVa b (pi % 4)) (32768 * k))).foldl (fun (u : State) l => u.putLine gr.asid l) t) s1
      else s1
    let word := (if held then q.cfg.byte + 2 ^ 8 * b2n q.iovf + 2 ^ 9 * b2n q.chk + 2 ^ 10 else 0) + 2 ^ 11 * min g.withdrawn.length 16
    let s3 := match s2.slot0 gr b g with
      | some k => s2.putMem (k + 0xE00) ((bytesOfNat 8 word ++ withdrawnBytes (g.withdrawn.take 16)).map some)
      | none => s2
    let s4 := if held then s3.endLease pi true else s3
    s4.modGroup gi fun x => { x with away := 2 }

/-! ## Rebinding (R80, R393) -/

/-- The location at an offset of a granule that stands at one end of a rebinding, with the tag that its lines read as where they
hold none. -/
def State.endAt (s : State) (w g : Nat) (at_ : RebindTo) (o : Nat) : Option (Nat × Option (BitVec 16)) :=
  match at_ with
  | .core cl pc => some (coreKey cl pc g o, none)
  | .frame va => match s.routeFrame (s.winAsid w g) (addrPlus va o) .store 4096 with
    | .at (.mem k noTag) _ _ => some (k, noTag)
    | _ => none

/-- Copies `n` bytes with their tags and poison; a poisoned line stays poisoned whatever the unit of protection. Lines of a host
frame read one tag and keep none (R87). -/
def State.copyRange (s : State) (src : Nat) (srcTag : Option (BitVec 16)) (dst : Nat) (dstTag : Option (BitVec 16)) (n : Nat) : State :=
  let inR (b k : Nat) : Bool := decide (b ≤ k) && decide (k < b + n)
  let m0 := s.mem.filter fun c => !(inR dst c.1)
  let m1 := (s.mem.filter fun c => inR src c.1).foldl (fun m c => memSet m (c.1 - src + dst) c.2) m0
  let t0 := s.tags.filter fun p => !(inR dst (64 * p.1))
  let t1 := if srcTag.isSome ∨ dstTag.isSome then t0
    else (s.tags.filter fun p => inR src (64 * p.1)).foldl (fun t p => tset t ((64 * p.1 - src + dst) / 64) p.2) t0
  let bad := (List.range (n / 64)).filter fun i => s.poisoned (src + 64 * i) 64
  let s1 : State :=
    { s with
      mem := m1
      tags := t1
      poison := s.poison.filter fun u => !(inR dst u)
      harts := s.harts.map fun p => match p.2.resv with
        | some l => if inR src (64 * l) || inR dst (64 * l) then (p.1, { p.2 with resv := none }) else p
        | none => p }
  let s2 := match srcTag, dstTag with
    | some t, none => s1.fillTags dst n t
    | _, _ => s1
  bad.foldl (fun (t : State) i => (List.range 16).foldl (fun (u : State) j => u.addPoison (dst + 64 * i + 4 * j)) t) s2

/-- Poisons `n` bytes at a location, with tags of 0. -/
def State.loseRange (s : State) (dst n : Nat) : State :=
  let inR (k : Nat) : Bool := decide (dst ≤ k) && decide (k < dst + n)
  let s1 : State := { s with tags := s.tags.filter fun p => !(inR (64 * p.1)) }
  (List.range (n / 4)).foldl (fun (t : State) i => t.addPoison (dst + 4 * i)) s1

/-- The location of mailbox slots at one end of a rebinding. -/
def slotsAt (w : Nat) : RebindTo → Nat
  | .core cl pc => mboxKey cl pc 0
  | .frame _ => savedSlotKey w 0

/-- Moves a granule's contents from one end to the other, with the mailbox slots of a control granule; `lost` says that the
contents are lost. -/
def State.moveGran (s : State) (w g : Nat) (old dest : RebindTo) (lost : Bool) : State :=
  let s1 := (List.range 4).foldl (fun (t : State) i =>
    match t.endAt w g old (4096 * i), t.endAt w g dest (4096 * i) with
    | some a, some b => if lost then t.loseRange b.1 4096 else t.copyRange a.1 a.2 b.1 b.2 4096
    | none, some b => t.loseRange b.1 4096
    | _, none => t) s
  if g = 16 then
    (if lost then s1.loseRange (slotsAt w dest) 65536 else s1.copyRange (slotsAt w old) none (slotsAt w dest) none 65536)
  else s1

/-- The requests that wait for one reason go to their port, in their order of arrival. -/
def State.releaseWhy (s : State) (why : HoldWhy) : State :=
  (s.held.filter fun e => e.why == why).foldl (fun (t : State) e =>
    if t.held.contains e then
      match t.tryHeld e false with
      | some u => u
      | none => { t with held := t.held.map fun f => if f == e then { f with why := t.stayWhy e } else f }
    else t) s

/-- The requests that wait for a granule go to its new port (R80 step 5). -/
def State.releaseGran (s : State) (w g : Nat) : State := s.releaseWhy (.rebind w g)

/-- The requests that a full spill ring has turned back to the home follow once its entries have been applied (R215). -/
def State.releaseSpill (s : State) (gs : List Nat) : State :=
  (s.granulesOf gs).foldl (fun (t : State) q => t.releaseWhy (.spill q.1 q.2.1)) s

/-- The binding at the end of a rebinding. -/
def reboundTo : RebindTo → GranSt
  | .core cl pc => .core cl pc
  | .frame va => .frame va

/-- What stands against reaching a save frame at one end of a rebinding (R389). -/
def State.frameBlocked (s : State) (w g : Nat) (at_ : RebindTo) : Option (Option (Nat × Nat) × Word) :=
  match at_ with
  | .core _ _ => none
  | .frame va => s.blocked (s.winAsid w g) (chunksOf va 16384)

/-- The block of a group that has a granule. -/
def State.granBlock (s : State) (w g : Nat) : Option Nat :=
  (s.groups.find? fun p => p.2.win == w && !p.2.ended
    && (decide (16 ≤ g) || (decide (p.2.granLo ≤ g) && decide (g < p.2.granLo + p.2.granN)))).map fun p => p.2.block

/-- A swap that has begun is abandoned (R393): no stop stands any more, and BLOCK_READMISSION brings back what has been saved. -/
def State.swapBack (s : State) (bi cause sub : Nat) (va : Word) : State :=
  match tget s.blocks bi with
  | none => s
  | some b =>
    if b.status == .stopping then
      let gs := s.blockGroups b
      let s1 := gs.foldl (fun (t : State) gi => t.modGroup gi fun x => { x with away := 3 }) s
      let s2 : State := { s1 with harts := s1.harts.map fun p => if gs.contains p.2.group && p.2.status != .saved then
          (p.1, { p.2 with stopReq := false, stopSret := false, stopping := none }) else p }
      (s2.modBlock bi fun x => { x with status := .returning }).abandon bi cause sub va
    else s

/-- A frame has failed a check: the granule stays on its old core, and the swap is abandoned. -/
def State.swapFails (s : State) (w g : Nat) (old : RebindTo) (cause sub : Nat) (va : Word) : State :=
  let s1 := (s.setGran w g (reboundTo old)).releaseGran w g
  match s1.granBlock w g with
  | some bi => s1.swapBack bi cause sub va
  | none => s1

/-- GRANULE_REBIND: the home moves a granule and binds it (R80 steps 3 to 5). -/
def doRebind (g : Nat) (dest : RebindTo) (s : State) : State :=
  let w := s.subj
  let asid := s.winAsid w g
  match s.gran w g with
  | .moving old target true _ =>
    if target ≠ dest then s
    else
      match s.frameBlocked w g target, s.frameBlocked w g old with
      | some (some (cause, sub), a), _ =>
        (match old with
          | .core _ _ => s.swapFails w g old cause sub a
          | .frame _ => s)
      | some (none, a), _ => s.unitMiss (schedCtx asid) .store a
      | _, some (none, a) => s.unitMiss (schedCtx asid) .store a
      | _, _ => ((s.moveGran w g old target false).setGran w g (reboundTo target)).releaseGran w g
  | _ => s

/-- LOCAL_RANGE_WITHDRAW_ACK: the old core has performed every access accepted at the entry (R80 step 2). -/
def doWithdrawAck (g : Nat) (s : State) : State :=
  match s.gran s.subj g with
  | .moving old dest false since => s.setGran s.subj g (.moving old dest true since)
  | _ => s

/-- The harts that a lost core held end (R419): those that take its slots, but for the saved ones, whose contexts are in memory. -/
def State.loseHarts (s : State) (core : Nat) : State :=
  ((s.coreHarts core).filter fun p => p.2.status != .saved && !p.2.trails).foldl (fun (t : State) p =>
    (t.report p.2.group ⟨failWord noForm 56 18 0, 0#64, true, p.2.hidx⟩).endHart p.1) s

/-- A granule's contents stand on a core: it is bound there, or is to leave and the core has not acknowledged. -/
def GranSt.heldBy (cl pc : Nat) : GranSt → Bool
  | .core a b => a == cl && b == pc
  | .moving (.core a b) _ false _ => a == cl && b == pc
  | _ => false

/-- A core is lost (R419): its granules are poisoned where they stand, and move so; its harts end, and it leaves service (R418). -/
def State.loseCore (s : State) (cl pc : Nat) : State :=
  let core := 100 * cl + pc
  let gs := (s.windows.map fun p => (p.2.grans.filter fun q => q.2.heldBy cl pc).map Prod.fst).foldr (· ++ ·) []
  let s1 := gs.foldl (fun (t : State) g =>
    let u := t.loseRange (coreKey cl pc g 0) 16384
    if g = 16 then u.loseRange (mboxKey cl pc 0) 65536 else u) s
  (s1.loseHarts core).beginRetire core

/-- REBIND_ACK_TIMEOUT: 4,096 N-cycles without an acknowledgement: the granule's contents are lost, and its core with them (R393, R419).
The new frame is checked as in any rebinding: one that fails a check leaves the granule, poisoned, on its old core. -/
def doRebindTimeout (g : Nat) (s : State) : State :=
  let w := s.subj
  match s.gran w g with
  | .moving old dest false since =>
    if since + 4096 ≤ s.ncyc then
      let lost (t : State) : State :=
        let t1 := t.logRec 11 (winHome w) 0 0 0 1
        match old with
        | .core cl pc => t1.loseCore cl pc
        | .frame _ => t1
      match s.frameBlocked w g dest with
      | some (none, a) => s.unitMiss (schedCtx (s.winAsid w g)) .store a
      | some (some (cause, sub), a) => (lost s).swapFails w g old cause sub a
      | none => lost (((s.moveGran w g old dest true).setGran w g (reboundTo dest)).releaseGran w g)
    else s
  | _ => s

/-! ## Cores for windows (R43) -/

/-- A core's window goes back: it held no live state. -/
def State.unbindCore (s : State) (core : Nat) : State :=
  match (s.core core).win with
  | none => s
  | some w => (s.modCore core fun c => { c with win := none }).modWindow w fun x => { x with grans := [] }

/-- The core that a window of quarter `q` binds to in a cluster: the lowest-numbered one that holds no window and has `need`
free slots; where there is none, one whose window is assigned to no block. -/
def State.freeCore (s : State) (cl q need : Nat) : Option Nat :=
  let cs := (List.range 25).map fun i => 100 * cl + 25 * q + i
  match cs.find? fun c => (s.core c).win.isNone && !(s.core c).retired && decide (need ≤ s.freeSlots c) with
  | some c => some c
  | none => cs.find? fun c => !(s.core c).retired && decide (need ≤ s.freeSlots c) && (match (s.core c).win with
    | some w => !(s.window w).assigned
    | none => true)

/-- A core has been taken for a window: where it was the last spare of a quarter with a retired core, replacement is requested (R443). -/
def State.noteSpares (s : State) : State := if s.quarterShort && !(s.mod.health.getLsbD 63) then s.syncHealth false else s

/-- Takes a core for a window. -/
def State.takeCore (s : State) (core w : Nat) : State := (s.unbindCore core).modCore core fun c => { c with win := some w }

/-- The core that holds a window's control granule. -/
def State.winCore (s : State) (w : Nat) : Option Nat := match s.gran w 16 with
  | .core cl pc => some (100 * cl + pc)
  | _ => none

/-! ## Placing a group (R40, R41, R168, R201, R365, R404) -/

/-- The lowest run of `n` free data granules of a window. -/
def State.freeRun (s : State) (w n : Nat) : Option Nat :=
  (List.range (17 - n)).find? fun lo => (List.range n).all fun i => s.gran w (lo + i) == .unbound

/-- A live group of a window has declared one of these rings. -/
def State.ringClash (s : State) (w : Nat) (mask : BitVec 8) : Bool := s.groups.any fun p =>
  p.2.win == w && !p.2.ended && (match (tget s.blocks p.2.block).bind fun b => tget s.grids b.grid with
    | some g => g.hdr.ringmask &&& mask != 0#8
    | none => false)

/-- Data granules of a group. -/
def Khdr.grans (k : Khdr) : Nat := (k.scratch + 0x3FFF) / 0x4000
/-- Hart slots of a group: a redundant pair takes two (R406). -/
def Launch.slots (l : Launch) : Nat := if l.redun then 2 * l.hpg else l.hpg

/-- Where the next group of a grid goes in a cluster: window, core and first granule. A window that no block has may be unbound and
bound again (R43). -/
def State.pickPlace (s : State) (cl : Nat) (gr : Grid) : Option (Nat × Nat × Nat) :=
  let need := gr.launch.slots
  let n := gr.hdr.grans
  let at_ (i : Nat) : Option (Nat × Nat × Nat) :=
    let w := 96 * cl + i
    let anew : Option (Nat × Nat × Nat) := if n ≤ 16 then (s.freeCore cl (i / 24) need).map fun c => (w, c, 0) else none
    match s.winCore w with
    | some c =>
      if c / 100 ≠ cl ∨ (s.core c).retired then (if (s.window w).assigned then none else anew)
      else if need ≤ s.freeSlots c ∧ !(s.ringClash w gr.hdr.ringmask) then (s.freeRun w n).map fun lo => (w, c, lo)
      else none
    | none => if (s.window w).assigned ∨ s.gran w 16 ≠ .unbound then none else anew
  (((List.range 96).filterMap at_).foldl (fun best p => match best with
    | none => some p
    | some q => if s.readyHarts p.2.1 < s.readyHarts q.2.1 then some p else some q) none)

/-- The address of an ASID's entry of the runtime vector table (R365). -/
def State.runtimeVa (s : State) (asid : BitVec 16) : Word := s.qtVa (0x100000 + 16 * asid.toNat)

/-- The runtime vector of an ASID: stvec and sscratch (R365). -/
def State.runtimeOf (s : State) (asid : BitVec 16) : Word × Word :=
  let rd (o : Nat) : Nat := match s.unitRead (schedCtx 0#16) (addrPlus (s.runtimeVa asid) o) 8 with
    | .ok v => v
    | .error _ => 0
  if s.qtValid && rd 0 % 4 == 0 then (BitVec.ofNat 64 (rd 0), BitVec.ofNat 64 (rd 8)) else (0#64, 0#64)

/-- The trap enables of an ASID at a home: bit 2 NOHANG, bit 1 DLMISS, bit 0 IOVF. -/
def State.enablesOf (s : State) (home : Nat) (asid : BitVec 16) : Nat :=
  match (List.range 32).findSome? fun i =>
      let e := tgetD (s.cluster home).enables i 0#64
      if e.getLsbD 3 && e.extractLsb' 48 16 == asid then some e else none with
  | some e => e.toNat % 8
  | none => 0

/-- A window's first assignment: its configuration words and descriptors start at 0. -/
def State.assignWindow (s : State) (w core : Nat) : State :=
  let s1 : State :=
    if s.winCore w = some core then s
    else
      let s0 := match s.winCore w with
        | some c => s.unbindCore c
        | none => s
      (s0.takeCore core w).setGran w 16 (.core (core / 100) (core % 100))
  if (s.window w).assigned then s1
  else
    let s2 := s1.modWindow w fun x => { x with rings := [], notices := [], hidden := [], assigned := true }
    s2.putMem (coreKey (core / 100) (core % 100) 16 0) ((List.replicate 256 0#8).map some)

/-- Initialises the mailboxes and rings that a header declares. -/
def State.initGroup (s : State) (k : Khdr) (w lo : Nat) : State :=
  let s1 := (List.range 32).foldl (fun (t : State) m =>
    if k.mboxmask.getLsbD m then
      let e := k.mboxes.getD m 0
      t.putConf w m (putBits (t.conf w m) 0 16 (bitsOf e 0 3 + 8 + bitsOf e 4 2 * 16 + bitsOf e 8 8 * 256))
    else t) s
  let ring (r : Table Ring) (n : Nat) : Table Ring :=
    let e := k.ringTab.getD n (0, 0)
    if k.ringmask.getLsbD n then tset r n { Ring.zero with base := addrPlus (winBase w) (0x4000 * lo + e.1), lines := e.2 } else r
  s1.modWindow w fun x => { x with rings := (List.range 8).foldl ring x.rings }

/-- One hart of a new group; a redundant launch adds its trailing hart. -/
def State.addHart (s : State) (gi i core : Nat) (gr : Grid) (sp stvec sscratch : Word) (hold : Bool) : State :=
  let (id, s1) := s.fresh
  let mk (slot : Nat) : Hart :=
    let x := Hart.launched gi i (core / 100) (core % 100) slot (!gr.launch.compact) gr.launch.entry gr.launch.argp sp gr.asid stvec
      sscratch s.acyc s.ncyc
    { x with status := if hold then .unstarted else .present }
  let lead := mk (s1.lowSlot core)
  if gr.launch.redun then
    let s2 := s1.setHart id { lead with pair := some id }
    let (id2, s3) := s2.fresh
    let trail := mk (s3.lowSlot core)
    let s4 := (s3.setHart id2 { trail with pair := some id, trails := true }).modHart id fun x => { x with pair := some id2 }
    s4.modGroup gi fun g => { g with harts := g.harts ++ [id] }
  else (s1.setHart id lead).modGroup gi fun g => { g with harts := g.harts ++ [id] }

/-- Whether the harts of a grid wait for their stage's channels (R301). -/
def State.stageHolds (s : State) (gr : Grid) : Bool := match gr.done with
  | .stage p => (match tget s.pipes p with
    | some r => r.grids.any fun q => (tget s.grids q.2).map Grid.serial == some gr.serial && !(r.started.contains q.1)
    | none => false)
  | _ => false

/-- Places group `i` of a block at a place that the dispatcher has chosen. -/
def State.placeGroup (s : State) (bi i : Nat) (gr : Grid) (p : Nat × Nat × Nat) (hold : Bool) : State :=
  let (w, core, lo) := p
  let n := gr.hdr.grans
  let s1 := s.assignWindow w core
  let s2 := (List.range n).foldl (fun (t : State) j => t.setGran w (lo + j) (.core (core / 100) (core % 100))) s1
  let s3 := s2.initGroup gr.hdr w lo
  let (gi, s4) := s3.fresh
  let en := s.enablesOf (winHome w) gr.asid
  let g : Group :=
    { block := bi
      index := i
      hpg := gr.launch.hpg
      win := w
      granLo := lo
      granN := n
      harts := []
      parked := false
      parkedSince := 0
      misses := []
      expired := false
      bar := BarObj.zero
      tcfgIssued := Tcfg.zero
      tiles := []
      loans := []
      nohang := bitsOf en 2 1 == 1
      dlmiss := bitsOf en 1 1 == 1
      iovf := bitsOf en 0 1 == 1
      ended := false
      away := 0
      withdrawn := [] }
  let s5 := ({ s4 with groups := tset s4.groups gi g }).modBlock bi fun b => { b with groups := b.groups ++ [gi] }
  let sp := if n = 0 then winBase w else addrPlus (winBase w) (0x4000 * (lo + n))
  let (stvec, sscratch) := s.runtimeOf gr.asid
  (List.range gr.launch.hpg).foldl (fun (t : State) h => t.addHart gi h core gr sp stvec sscratch hold) s5

/-- Places groups `i` on of a block whole, or not at all (R40). -/
def State.placeFrom (s : State) (cl bi : Nat) (gr : Grid) (hold : Bool) : Nat → Nat → Option State
  | 0, _ => some s
  | n + 1, i => (s.pickPlace cl gr).bind fun p => (s.placeGroup bi i gr p hold).placeFrom cl bi gr hold n (i + 1)

/-! ## Admission (R295) -/

/-- The distance between fields. -/
def fieldDist (a b : Nat) : Nat :=
  let d (x y : Nat) : Nat := if x < y then y - x else x - y
  d (a % 4) (b % 4) + d (a / 4) (b / 4)

/-- Sorts by decreasing DXLOAD.FREE, ties to the lower number. -/
def State.byFree (s : State) (l : List Nat) : List Nat :=
  l.foldl (fun out c =>
    let before := out.takeWhile fun d => decide (s.loadFree c ≤ s.loadFree d)
    before ++ [c] ++ out.drop before.length) []

/-- Fields in order of distance from one, that field first. -/
def fieldsFrom (f : Nat) : List Nat :=
  ((List.range 7).map fun d => (List.range 16).filter fun g => fieldDist f g == d).foldr (· ++ ·) []

/-- The order in which a cluster's scheduler core offers a block. -/
def State.offers (s : State) (own : Nat) : List Nat :=
  own :: ((fieldsFrom (own / 24)).map fun f =>
    s.byFree (((List.range 24).map fun i => 24 * f + i).filter fun c => c != own)).foldr (· ++ ·) []

/-- The product of the extents of a grid's field-domain levels (R35, R37). -/
def Grid.fieldExt (g : Grid) : Nat := g.launch.levels.foldl (fun n l =>
  if bitsOf l.toNat 16 3 = 2 ∧ l.toNat % 65536 ≠ 0 then n * (l.toNat % 65536) else n) 1

/-- The field that has taken the first block of a block's field set, if the block belongs to one. -/
def State.setField (s : State) (gr : Grid) (index : Nat) : Option Nat :=
  let e := gr.fieldExt
  if e < 2 then none
  else gr.blocks.findSome? fun bi => match tget s.blocks bi with
    | some b => if b.index / e = index / e ∧ b.status != .ready then some (b.cluster / 24) else none
    | none => none

/-- The clusters to which a block is offered. -/
def State.offersFor (s : State) (gr : Grid) (b : Block) : List Nat :=
  match s.setField gr b.index with
  | some f => (s.offers gr.owner).filter fun c => c / 24 == f
  | none => s.offers gr.owner

/-- A block's effective tag: the earliest of its own and its groups' loans (R60). -/
def State.blockTag (s : State) (b : Block) : Nat :=
  let own := s.effTag b.tag b.nodl
  b.groups.foldl (fun t gi => match tget s.groups gi with
    | some g => let q := s.groupTag g
                let u := s.effTag q.1 q.2
                if tagEarlier u t then u else t
    | none => t) own

/-- The grid belongs to a job that is being cut, or has been cut and not restarted (R308). -/
def State.inCut (s : State) (grid : Nat) : Bool := s.cuts.any fun c => c.2.grid == some grid
  || (match c.2.pipe.bind fun p => tget s.pipes p with
    | some p => p.grids.any fun q => q.2 == grid
    | none => false)

/-- An absent block whose held misses have all become resident (R58): none of its groups' held requests still waits for its
page. A job being cut stays away until the cut is complete (R308). -/
def State.canReturn (s : State) (bi : Nat) (b : Block) : Bool :=
  b.status == .absent
    && !(s.held.any fun e => e.why == .miss && (match (e.ctx.hart.bind s.hart?).bind s.groupOf? with
      | some g => g.block == bi
      | none => false))
    && !(s.inCut b.grid)

/-- N-cycle since which a block that is ready waits for a place: it became ready with the last of its pages (R58, R304). -/
def State.readySince (s : State) (b : Block) : Nat :=
  (s.held.filter fun e => e.selected && (match (e.ctx.hart.bind s.hart?).bind s.groupOf? with
    | some g => (tget s.blocks g.block) == some b
    | none => false)).foldl (fun n e => max n e.time) b.since

/-- Blocks that wait for a place with a scheduler core. -/
def State.waitingBlocks (s : State) (own : Nat) : List (Nat × Block) := s.blocks.filter fun p =>
  ((p.2.status == .ready && !(s.inCut p.2.grid)) || s.canReturn p.1 p.2) && (match tget s.grids p.2.grid with
    | some g => g.owner == own && s.stageDue g
    | none => false)

/-- No block waits with the same scheduler core with an earlier effective tag. -/
def State.isFirst (s : State) (bi : Nat) (b : Block) : Bool :=
  match tget s.grids b.grid with
  | none => false
  | some g => !((s.waitingBlocks g.owner).any fun p => p.1 != bi && tagEarlier (s.blockTag p.2) (s.blockTag b))

/-- BLOCK_ADMIT: a new block goes to the first cluster that can place it whole. -/
def doBlockAdmit (s : State) : State :=
  let bi := s.subj
  match tget s.blocks bi with
  | none => s
  | some b =>
    match tget s.grids b.grid with
    | none => s
    | some gr =>
      let runtimeAway : Bool := s.qtValid && (match s.unitKey (schedCtx 0#16) .load (s.runtimeVa gr.asid) 16 with
        | .error none => true
        | _ => false)
      if b.status != .ready || s.inCut b.grid || !(s.stageDue gr) || !(s.isFirst bi b) || !(s.coreServes gr.owner) then s
      else if runtimeAway then s.unitMiss (schedCtx 0#16) .load (s.runtimeVa gr.asid)
      else
        ((s.offersFor gr b).findSome? fun cl =>
          (s.placeFrom cl bi gr (s.stageHolds gr) gr.launch.gpb 0).map fun t =>
            ((t.modBlock bi fun x => { x with status := .placed, home := cl, cluster := cl }).stagePlaced s gr).noteSpares).getD s

/-! ## The spill ring (R215) -/

/-- Whether a spill entry is of a group of a block. -/
def State.spillFor (s : State) (b : Block) (e : SpillEnt) : Bool :=
  let w : Nat := match e with
    | .line va _ _ _ _ => vaHome va * 96 + vaOff va / 2 ^ 20
    | .advance w _ _ => w
  b.groups.any fun gi => match tget s.groups gi with
    | some g => g.win == w && (match e with
      | .line va _ _ _ _ =>
        let k := vaOff va % 2 ^ 20 / 0x4000
        decide (g.granLo ≤ k) && decide (k < g.granLo + g.granN)
      | .advance _ _ _ => true)
    | none => false

/-- Applies a spill entry to the restored granules and descriptors. -/
def State.applySpill (s : State) (e : SpillEnt) : State :=
  match e with
  | .advance w n k => s.modWindow w fun x =>
      { x with rings := tmod x.rings n fun r => { r with tail := r.tail + BitVec.ofNat 32 k } }
  | .line va mask data tag poison =>
    let w := vaHome va * 96 + vaOff va / 2 ^ 20
    match granOf (vaOff va % 2 ^ 20) with
    | some (g, o) =>
      (match s.granKey w g o with
        | some k =>
          let bytes := (List.range 64).map fun i => if mask.getLsbD i then some (data.getD i 0#8) else none
          let s1 := s.putMem k bytes
          let s2 := if poison then ((List.range 64).filter fun i => mask.getLsbD i).foldl (fun (u : State) i => u.addPoison (unitOf (k + i))) s1
            else s1
          match tag with
          | some t => s2.setTag k t
          | none => s2
        | none => s)
    | none => s

/-- What the spill rings hold for a block is applied: what it took along when it left its cores, then what came later. -/
def State.spillBack (s : State) (bi : Nat) (b : Block) : State :=
  let cores := (s.cores.filter fun p => !p.2.spill.isEmpty).map Prod.fst
  let out := (cores.map fun c => (s.core c).spill.filter (s.spillFor b)).foldr (· ++ ·) []
  let s1 := cores.foldl (fun (t : State) c => t.modCore c fun k => { k with spill := k.spill.filter fun e => !(s.spillFor b e) }) s
  ((b.spill ++ out).foldl (fun (t : State) e => t.applySpill e) s1).modBlock bi fun x => { x with spill := [] }

/-! ## Swap (R54) -/

/-- Every post-buffer entry of these groups' harts has been performed or is held (R98). -/
def State.entriesCalm (s : State) (gs : List Nat) : Bool := gs.all fun gi => match tget s.groups gi with
  | some g => g.harts.all s.entriesSettled
  | none => true

/-- Begins the drain of these groups' entries. -/
def State.drainGroups (s : State) (gs : List Nat) : State := gs.foldl (fun (t : State) gi => match tget t.groups gi with
  | some g => g.harts.foldl (fun (u : State) h => u.drainFor h) t
  | none => t) s

/-- Every group of a list is at a stage of its stop. -/
def State.allAway (s : State) (gs : List Nat) (n : Nat) : Bool := gs.all fun gi => match tget s.groups gi with
  | some g => g.away == n
  | none => true

/-- The saved block leaves its cores: what their spill rings hold for it goes with it, and the cores of the windows that moved
are free. -/
def State.leaveCores (s : State) (bi : Nat) (b : Block) : State :=
  let cores := (b.groups.filterMap fun gi => (tget s.groups gi).map Group.win).filterMap fun w =>
    (s.cores.find? fun p => p.2.win == some w).map Prod.fst
  let all := cores.eraseDups
  let out := (all.map fun c => (s.core c).spill.filter (s.spillFor b)).foldr (· ++ ·) []
  let s1 := all.foldl (fun (t : State) c => t.modCore c fun k =>
    { k with
      spill := k.spill.filter fun e => !(s.spillFor b e)
      win := match k.win with
        | some w => if (s.gran w 16).inFrame then none else some w
        | none => none }) s
  s1.modBlock bi fun x => { x with spill := x.spill ++ out }

/-- Rebinds the granules of saved groups to the frames of their block. -/
def State.toFrames (s : State) (gr : Grid) (b : Block) (gs : List Nat) : State :=
  (s.granulesOf gs).foldl (fun (t : State) q =>
    if (t.gran q.1 q.2.1).onCore then t.beginMove q.1 q.2.1 (.frame (gr.frameVa b q.2.2.1 q.2.2.2)) else t) s

/-- SWAP: the next stage of a block's swap that is due. -/
def doSwap (s : State) : State :=
  let bi := s.subj
  match tget s.blocks bi with
  | none => s
  | some b =>
    match tget s.grids b.grid with
    | none => s
    | some gr =>
      let gs := s.blockGroups b
      if !(s.coreServes b.cluster) then s
      else if b.status == .placed then (if b.swapCmd && b.since != s.ncyc then s.beginSwap bi else s)
      else if b.status != .stopping then s
      else if !(s.allSaved gs) then
        -- A save area that fails a check now abandons the swap, as a frame does (R393; log 156).
        (match s.blocked gr.asid (s.slotParts gr b gs) with
          | some (some (cause, sub), va) => s.swapBack bi cause sub va
          | _ => s)
      else if s.allAway gs 1 then
        (if s.tilesDone gs then
          match s.blocked gr.asid (s.slotParts gr b gs) with
          | some (none, va) => s.unitMiss (schedCtx gr.asid) .store va
          | some (some (cause, sub), va) => s.swapBack bi cause sub va
          | none =>
            let s1 := gs.foldl (fun (t : State) gi => t.saveLease gr b gi) s
            (s1.drainGroups b.groups).toFrames gr b gs
        else s)
      else
        let gone : Bool := (s.granulesOf gs).all fun q => (s.gran q.1 q.2.1).inFrame
        if gone && s.entriesCalm b.groups then
          let c := gs.foldl (fun n gi => match tget s.groups gi with
            | some g => g.harts.foldl (fun m h => match s.hart? h with
              | some x => max m (s.causal x)
              | none => m) n
            | none => n) 0
          (s.leaveCores bi b).modBlock bi fun x =>
            { x with
              status := .absent
              since := s.ncyc
              stopC := c
              movedWins := (s.winsOf gs).filter (s.ownsWindow gs) }
        else s

/-- PARKLIM_EXPIRY: a group has been parked for PARKLIM µs (R27, R28, R54). The swap begins after this N-cycle: a resumption in it
wins. -/
def doParklim (s : State) : State :=
  match tget s.groups s.subj with
  | none => s
  | some g =>
    match (tget s.blocks g.block).bind fun b => (tget s.grids b.grid).map fun gr => (b, gr) with
    | none => s
    | some (b, gr) =>
      let lim := gr.launch.parklim
      let us := if lim = 0 then 1 else lim
      if !(s.coreServes b.cluster) || !g.parked || g.expired || g.away != 0 || b.status != .placed || lim == 0xFFFFFFFF
          || decide (s.ncyc < g.parkedSince + us * usN) then s
      else
        let s1 := s.modGroup s.subj fun x => { x with expired := true }
        if s.duty 1 then
          (s1.post 2 b.cluster (bytesOfNat 32 (2 ^ 4 * g.index + 2 ^ 11 * b.index + 2 ^ 35 * (gr.serial % 2 ^ 29)))).modMod fun m =>
            { m with reports := m.reports ++ [(g.block, s.subj, b.cluster)] }
        else s1.modBlock g.block fun x => { x with swapCmd := true, since := if x.swapCmd then x.since else s.ncyc }

/-- PREEMPT_POLICY: the running block of a field that has the latest effective tag stops for a ready block that has waited 4,096
N-cycles without a place, with a tag earlier by 0x0100 or more (R304). The ready blocks that count are those whose grids the field's
scheduler cores own (DESIGN CHOICE; log 153). -/
def doPreempt (s : State) : State :=
  let f := s.subj
  let running := s.blocks.filter fun p => p.2.cluster / 24 == f && p.2.status == .placed && !p.2.swapCmd
  match running.foldl (fun (best : Option (Nat × Block)) p => match best with
      | none => some p
      | some q => if tagEarlier (s.blockTag q.2) (s.blockTag p.2) then some p else some q) none with
  | none => s
  | some (bi, b) =>
    let t := s.blockTag b
    let waits (p : Nat × Block) : Bool :=
      let d := (t + 65536 - s.blockTag p.2) % 65536
      decide (0x100 ≤ d) && decide (d ≤ 0x7FFF) && decide (s.readySince p.2 + 4096 ≤ s.ncyc)
    let some1 : Bool := ((List.range 24).map fun i => s.waitingBlocks (24 * f + i)).any fun l => l.any waits
    if some1 then s.beginSwap bi else s

/-! ## Return (R52, R58, R214, R215, R418) -/

/-- Hart slots that the live harts of groups need on a core. -/
def State.slotsFor (s : State) (gs : List Nat) (w : Nat) (redun : Bool) : Nat :=
  gs.foldl (fun n gi => match tget s.groups gi with
    | some g => if g.win = w then n + (g.harts.filter fun h => match s.hart? h with
        | some x => x.status != .ended
        | none => false).length * (if redun then 2 else 1)
      else n
    | none => n) 0

/-- Puts the saved harts of a group on a core, each with the lowest free slot. -/
def State.seatHarts (s : State) (gi core : Nat) : State :=
  let s0 := s.modGroup gi fun g => { g with away := 3 }
  (s0.harts.filter fun p => p.2.group == gi && p.2.status == .saved).foldl (fun (t : State) p =>
    let t0 := t.modHart p.1 fun x => { x with cluster := core / 100, pcore := core % 100, slot := 16 }
    let n := t0.lowSlot core
    t0.modHart p.1 fun x => { x with slot := n }) s0

/-- The windows of saved groups get cores of a cluster: the core that still holds a shared window, or one that R43 gives. -/
def State.seatWindows (s : State) (cl : Nat) (gs : List Nat) (redun : Bool) : List Nat → Option State
  | [] => some s
  | w :: r =>
    let need := s.slotsFor gs w redun
    let put (t : State) (c : Nat) : State := gs.foldl (fun (u : State) gi => match tget u.groups gi with
      | some g => if g.win = w then u.seatHarts gi c else u
      | none => u) t
    match s.gran w 16 with
    | .core k pc =>
      let c := 100 * k + pc
      if k = cl ∧ !(s.core c).retired ∧ need ≤ s.freeSlots c then (put s c).seatWindows cl gs redun r else none
    | .frame _ =>
      (match s.freeCore cl (winNum w / 24) need with
        | some c => (put (s.takeCore c w) c).seatWindows cl gs redun r
        | none => none)
    | _ => none

/-- The core of a window while its granules return. -/
def State.coreOfWin (s : State) (w : Nat) : Option Nat := (s.cores.find? fun p => p.2.win == some w).map Prod.fst

/-- Rebinds the granules of returning groups to the cores that their windows have been given. -/
def State.toCores (s : State) (gs : List Nat) : State :=
  (s.granulesOf gs).foldl (fun (t : State) q => match t.coreOfWin q.1 with
    | some c => if (t.gran q.1 q.2.1).inFrame then t.beginMove q.1 q.2.1 (.core (c / 100) (c % 100)) else t
    | none => t) s

/-- What the slot of HART 0 says of a group's lease at the stop; nothing where it is poisoned. -/
def State.slot0Word (s : State) (gr : Grid) (b : Block) (gi : Nat) : Nat := match (tget s.groups gi).bind (s.slot0 gr b) with
  | some k => if s.poisoned (k + 0xE00) 8 then 0 else s.natAt (k + 0xE00) 8
  | none => 0

/-- A returning group asks for the lease it held; answers whether it has what it needs. -/
def State.regainLease (s : State) (gr : Grid) (b : Block) (gi : Nat) : Bool × State :=
  match tget s.groups gi with
  | none => (true, s)
  | some g =>
    let pi := s.plinthOf g
    let p := s.plinth pi
    let asks : Bool := p.waiters.any fun w => w.group == gi && w.ops.isEmpty
    if (bitsOf (s.slot0Word gr b gi) 10 1 = 0 ∧ !asks) ∨ p.heldBy gi then (true, s)
    else if asks then
      let s1 := s.wakePlinth pi
      ((s1.plinth pi).heldBy gi, s1)
    else
      let s1 := (s.modPlinth pi fun q => { q with waiters := q.waiters ++ [⟨gi, [], 0, s.ncyc⟩] }).wakePlinth pi
      ((s1.plinth pi).heldBy gi, s1)

/-- The accumulators, tcfg, IOVF and CHK of a group come back, and its lease counts start at 64 and 4,096. An accumulator with a
poisoned line stays 0, as a tload that meets one changes nothing, and step 3 of R377 has the failure (R395; log 154). -/
def State.loadLease (s : State) (gr : Grid) (b : Block) (gi : Nat) : State :=
  match tget s.groups gi with
  | none => s
  | some g =>
    let v := s.slot0Word gr b gi
    if bitsOf v 10 1 = 0 then s
    else
      let pi := s.plinthOf g
      let word (k r l j : Nat) : W32 :=
        match s.unitKey (schedCtx gr.asid) .load (addrPlus (gr.accVa b (pi % 4)) (32768 * k + 512 * r + 64 * l)) 64 with
        | .ok a => BitVec.ofNat 32 (s.natAt (a + 4 * j) 4)
        | .error _ => 0#32
      let acc (k : Nat) : Accum := Accum.zero.loadCells
        (((List.range 64).map fun r => ((List.range 8).map fun l => (List.range 16).map fun j =>
          (128 * r + 16 * l + j, word k r l j)).foldr (· ++ ·) []).foldr (· ++ ·) [])
      let bad (k : Nat) : Bool := (chunksOf (addrPlus (gr.accVa b (pi % 4)) (32768 * k)) 32768).any fun va =>
        match s.unitKey (schedCtx gr.asid) .load va 4096 with
        | .ok a => s.poisoned a 4096
        | .error _ => false
      let ks := (List.range 4).filter fun k => !(bad k)
      let s1 := if ks.length = 4 then s
        else s.reportGrid b.grid b.index b.cluster ⟨failWord noForm 56 14 0, gr.accVa b (pi % 4), true, 0⟩
      s1.modPlinth pi fun p =>
        { ks.foldl (fun (q : Plinth) k => q.setAcc k (acc k)) p with
          cfg := tcfgOfByte (v % 256)
          iovf := bitsOf v 8 1 == 1
          chk := bitsOf v 9 1 == 1
          cmdLeft := 64
          leaseEnd := s.acyc + 4096 }

/-- The withdrawn commands of a group go to its plinth again, in order. -/
def State.resubmit (s : State) (gi : Nat) : State :=
  match tget s.groups gi with
  | none => s
  | some g =>
    (s.modPlinth (s.plinthOf g) fun p => { p with queue := p.queue ++ g.withdrawn }).modGroup gi fun x => { x with withdrawn := [] }

/-- Replays the held requests of returning harts that HMISSDONE has selected, in the order of R51. -/
def State.replayFor (s : State) (gs : List Nat) : Nat → State
  | 0 => s
  | n + 1 =>
    let mine (e : Held) : Bool := e.selected && (match e.ctx.hart.bind s.hart? with
      | some x => gs.contains x.group
      | none => false)
    match firstReplay (s.held.filter mine) with
    | none => s
    | some e =>
      (match s.tryHeld e (e.why == HoldWhy.retry true) with
        | some s1 => s1
        | none => { s with held := s.held.map fun f => if f == e then { f with why := s.stayWhy e } else f }).replayFor gs n

/-- The harts of returning groups come back from their slots, and loads answered meanwhile are written into them. -/
def State.restoreGroup (s : State) (gr : Grid) (stopC gi : Nat) : State :=
  match tget s.groups gi with
  | none => s
  | some g =>
    let back := g.harts.filter fun h => match s.hart? h with
      | some x => x.status == .saved
      | none => false
    let s1 := back.foldl (fun (t : State) h =>
      let t1 := t.restoreHart h
      match t1.hart? h with
      | some x => t1.raiseC x.core x.cluster stopC
      | none => t1) (s.modGroup gi fun x => { x with away := 0 })
    let s2 := s1.accs.foldl (fun (t : State) a => if back.contains a.2.hart then doLoadReturn a.1 t else t) s1
    let s3 := if s.stageHolds gr then
        back.foldl (fun (t : State) h => t.modPair h fun x => { x with status := .unstarted }) s2
      else s2
    (s3.tryResume gi).wakePlinth (s3.plinthOf g)

/-- What is due once the granules of returning groups are on their cores, and their slots and accumulators can be read: leases first,
then the accumulators, the spill entries, the withdrawn commands, the held requests and the harts. A save area that fails a check keeps
the groups away (log 156). -/
def State.comeBack (s : State) (bi : Nat) (gs : List Nat) : State :=
  match tget s.blocks bi with
  | none => s
  | some b =>
    match tget s.grids b.grid with
    | none => s
    | some gr =>
      let on : Bool := ((s.granulesOf gs).all fun q => (s.gran q.1 q.2.1).onCore) && (s.winsOf gs).all fun w => (s.gran w 16).onCore
      if !on then s
      else match s.blocked gr.asid (s.slotParts gr b gs) with
      | some (_, va) => s.unitMiss (schedCtx gr.asid) .store va
      | none =>
        let r := gs.foldl (fun (acc : Bool × State) gi =>
          let q := acc.2.regainLease gr b gi
          (acc.1 && q.1, q.2)) (true, s)
        if !r.1 then r.2
        else
          let s1 := gs.foldl (fun (t : State) gi => t.loadLease gr b gi) r.2
          let s2 := s1.spillBack bi b
          let s3 := gs.foldl (fun (t : State) gi => t.resubmit gi) s2
          let s4 := gs.foldl (fun (t : State) gi => t.modGroup gi fun x => { x with away := 0 }) s3
          let s5 := (s4.releaseSpill gs).replayFor gs s4.held.length
          gs.foldl (fun (t : State) gi => t.restoreGroup gr b.stopC gi) s5

/-- Waiters for a lease follow their groups to another cluster's plinth. A lease that such a group has been granted while it was saved
ends here, and the scheduler core asks for it there (R58). -/
def State.moveWaiters (s : State) (old new : Nat) (gs : List Nat) : State :=
  if old = new then s
  else
    (List.range 4).foldl (fun (t : State) q =>
      let p := t.plinth (4 * old + q)
      let ws := p.waiters.filter fun w => gs.contains w.group
      let held := (p.holder.toList.filter gs.contains).map fun gi => (⟨gi, [], 0, s.ncyc⟩ : Waiter)
      let t1 := (t.modPlinth (4 * old + q) fun x =>
        { x with
          waiters := x.waiters.filter fun w => !(gs.contains w.group)
          handover := x.handover.filter fun v => !(gs.contains v.1) }).modPlinth (4 * new + q) fun x => { x with waiters := x.waiters ++ held ++ ws }
      if held.isEmpty then t1.wakePlinth (4 * old + q) else t1.endLease (4 * old + q) true) s

/-- BLOCK_READMISSION: an absent block gets a place, its original cluster first; a returning one comes back. -/
def doReadmission (s : State) : State :=
  let bi := s.subj
  match tget s.blocks bi with
  | none => s
  | some b =>
    match tget s.grids b.grid with
    | none => s
    | some gr =>
      let gs := s.blockGroups b
      if b.status == .returning then
        let s1 := (s.toCores gs).comeBack bi gs
        if s1.allAway gs 0 then s1.modBlock bi fun x => { x with status := .placed } else s1
      else if !(s.coreServes gr.owner) || !(s.canReturn bi b) || !(s.isFirst bi b) then s
      else
        let offers := b.home :: (s.offersFor gr b).filter fun c => c != b.home
        match offers.findSome? fun cl => (s.seatWindows cl gs gr.launch.redun (s.winsOf gs)).map fun t => (cl, t) with
        | none => s
        | some (cl, t) =>
          let t1 := (t.moveWaiters b.cluster cl gs).modBlock bi fun x => { x with status := .returning, cluster := cl }
          (t1.toCores gs).noteSpares

/-! ## Retirement of a core (R418) -/

/-- The core that takes over: of the same quarter, by R43. -/
def State.spareFor (s : State) (core need : Nat) : Option Nat := s.freeCore (core / 100) (core % 100 / 25) need

/-- The window of a retired core moves to another core, with its groups. -/
def State.moveCore (s : State) (core c : Nat) (gs : List Nat) : State :=
  let k0 := s.core core
  let s1 : State := match k0.win with
    | some w =>
      let t := (s.modCore core fun k => { k with win := none, spill := [] }).takeCore c w
      let t1 := (t.modCore c fun k => { k with spill := k0.spill }).raiseC c (c / 100) (k0.c - 1)
      (List.range 17).foldl (fun (u : State) g => u.beginMove w g (.core (c / 100) (c % 100))) t1
    | none => s
  gs.foldl (fun (t : State) gi => t.seatHarts gi c) s1

/-- No core of the quarter is free: the window stays in save frames, and its groups wait. -/
def State.parkCore (s : State) (core : Nat) (gs : List Nat) : State :=
  let s1 := gs.foldl (fun (t : State) gi => match t.blockGrid gi with
    | some (_, b, gr) => t.toFrames gr b [gi]
    | none => t) s
  match (s.core core).win, gs.head? with
  | some w, some gi =>
    (match s1.blockGrid gi, tget s1.groups gi with
      | some (_, b, gr), some g =>
        if (s1.gran w 16).onCore ∧ s1.ownsWindow gs w then s1.beginMove w 16 (.frame (gr.frameVa b g.index 16)) else s1
      | _, _ => s1)
  | _, _ => s1

/-- The first group of a retired core whose stop has not begun: one whose migrating hart has come to it since. -/
def State.lateGroup (s : State) (gs : List Nat) : Option Nat := gs.find? fun gi => (tget s.groups gi).any fun g => g.away == 0

/-- CORE_RETIRE: the next stage of a core's retirement that is due. Its first is the command of edge firmware; the other cases of R418
begin it where they arise. -/
def doCoreRetire (s : State) : State :=
  let core := s.subj
  if !(s.core core).retired then s.beginRetire core
  else
    let back := (s.groups.filter fun p => p.2.away == 3 && s.inPlace p.1 && (match tget s.blocks p.2.block with
      | some b => b.cluster == core / 100
      | none => false)).map Prod.fst
    if !back.isEmpty then
      back.foldl (fun (t : State) gi => match tget t.groups gi with
        | some g => t.comeBack g.block [gi]
        | none => t) s
    else
      let gs := (s.coreGroups core).filter s.inPlace
      match s.lateGroup gs with
      | some gi => s.stopGroup gi
      | none =>
        if gs.isEmpty || !(s.allSaved gs) then s
        else if s.allAway gs 2 then
          let need := gs.foldl (fun n gi => match s.blockGrid gi, tget s.groups gi with
            | some (_, _, gr), some g => n + s.slotsFor [gi] g.win gr.launch.redun
            | _, _ => n) 0
          match s.spareFor core need with
          | some c => (s.moveCore core c gs).noteSpares
          | none => s.parkCore core gs
        else if s.tilesDone gs then
          -- A part of a save area whose page is not resident is asked for (R49).
          match gs.findSome? fun gi => (s.blockGrid gi).bind fun q =>
            (s.blocked q.2.2.asid (s.slotParts q.2.2 q.2.1 [gi])).map fun e => (q.2.2.asid, e.2) with
          | some (asid, va) => s.unitMiss (schedCtx asid) .store va
          | none =>
            gs.foldl (fun (t : State) gi => match t.blockGrid gi, tget t.groups gi with
              | some (_, b, gr), some g => if g.away = 1 then t.saveLease gr b gi else t
              | _, _ => t) s
        else s

/-! ## The events -/

/-- GRANULE_REBIND. -/
def execGranuleRebind (g : Nat) (dest : RebindTo) (s : State) : Host.Outcome State Fault Refusal := .next (doRebind g dest s)
/-- LOCAL_RANGE_WITHDRAW_ACK. -/
def execLocalRangeWithdrawAck (g : Nat) (s : State) : Host.Outcome State Fault Refusal := .next (doWithdrawAck g s)
/-- REBIND_ACK_TIMEOUT. -/
def execRebindAckTimeout (g : Nat) (s : State) : Host.Outcome State Fault Refusal := .next (doRebindTimeout g s)
/-- PARKLIM_EXPIRY. -/
def execParklimExpiry (s : State) : Host.Outcome State Fault Refusal := .next (doParklim s)
/-- SWAP. -/
def execSwap (s : State) : Host.Outcome State Fault Refusal := .next (doSwap s)
/-- HINTDIST_EXPIRY. -/
def execHintdistExpiry (s : State) : Host.Outcome State Fault Refusal := .next (doHintdist s)
/-- STOP_REQUEST. -/
def execStopRequest (s : State) : Host.Outcome State Fault Refusal := .next (doStopRequest s)
/-- BLOCK_READMISSION. -/
def execBlockReadmission (s : State) : Host.Outcome State Fault Refusal := .next (doReadmission s)
/-- PREEMPT_POLICY. -/
def execPreemptPolicy (s : State) : Host.Outcome State Fault Refusal := .next (doPreempt s)
/-- BLOCK_ADMIT. -/
def execBlockAdmit (s : State) : Host.Outcome State Fault Refusal := .next (doBlockAdmit s)
/-- CORE_RETIRE. -/
def execCoreRetire (s : State) : Host.Outcome State Fault Refusal := .next (doCoreRetire s)

end Sys2Proof.Machine
end

