-- ==== Sys2Proof/Machine/EvEngine.lean ====
section
/-! DEFINITION. The copy engines (R215, R222 to R232, R326, R395, R403): starting a command, moving its elements, advancing its
ring, notifying and completing. -/

namespace Sys2Proof.Machine

open Sys2Proof

/-! ## Descriptors (R223, R224) -/

/-- A signed 44-bit field. -/
def int44 (n : Nat) : Int := if n < 2 ^ 43 then n else (n : Int) - 2 ^ 44

/-- A descriptor from its 208 bytes; `none` for an ELOG2 of 7 or an NDIM − 1 of 12 to 15. Entries from NDIM on are ignored. -/
def parseDesc (bs : List Byte) : Option Desc :=
  let ent (d : Nat) : Nat := natOfBytes ((bs.drop (16 + 16 * d)).take 16)
  let e0 := ent 0
  let ndim := bitsOf e0 124 4 + 1
  let elog2 := bitsOf e0 120 3
  if elog2 = 7 ∨ 12 < ndim then none
  else
    let e1 := ent 1
    some
      { src := BitVec.ofNat 64 (natOfBytes (bs.take 8))
        dst := BitVec.ofNat 64 (natOfBytes ((bs.drop 8).take 8))
        elog2 := elog2
        dims := (List.range ndim).map fun d => (bitsOf (ent d) 0 32, int44 (bitsOf (ent d) 32 44), int44 (bitsOf (ent d) 76 44))
        radv := if 1 < ndim ∧ bitsOf e1 127 1 = 1 then some (bitsOf e1 124 3) else none }

/-- Elements of a descriptor. -/
def Desc.count (d : Desc) : Nat := d.dims.foldl (fun n x => n * x.1) 1
/-- Bytes of a descriptor. -/
def Desc.total (d : Desc) : Nat := d.count * 2 ^ d.elog2

/-- The offsets of element `i`: i[0] varies fastest. -/
def dimOffs : List (Nat × Int × Int) → Nat → Int × Int
  | [], _ => (0, 0)
  | (e, ss, ds) :: r, i =>
    let o := dimOffs r (i / e)
    let k : Int := (i % e : Nat)
    (o.1 + k * ss, o.2 + k * ds)

/-- Source and destination of element `i`. -/
def Desc.at (d : Desc) (i : Nat) : Word × Word :=
  let o := dimOffs d.dims i
  (d.src + BitVec.ofInt 64 o.1, d.dst + BitVec.ofInt 64 o.2)

/-! ## Commands -/

/-- The cluster of an engine. -/
def engCluster (e : Nat) : Nat := e / 4

/-- A command of an engine. -/
def State.cmd (s : State) (e id : Nat) : Option CopyCmd := (s.engine e).find? fun c => c.id == id
/-- Changes a command. -/
def State.modCmd (s : State) (e id : Nat) (f : CopyCmd → CopyCmd) : State :=
  s.modEngine e fun cs => cs.map fun c => if c.id = id then f c else c

/-- A command fails at an address: it moves nothing further. -/
def State.cmdFail (s : State) (e id cause sub : Nat) (addr : Word) : State :=
  s.modCmd e id fun c => { c with fail := some (cause, sub, addr), buf := none }

/-- A request of an engine for a command. -/
def State.engReq (s : State) (e : Nat) (c : CopyCmd) (va : Word) (act : Piece) (write : Bool) : PortRes × State :=
  s.request (Req.copier va act.width (if write then .store else .load) c.ctx) act (.engine e c.id write) false none
    (siteOfHome (engCluster e))

/-- What a read of an engine comes to. -/
inductive EngRead where
  | got (bytes : List Byte) (tag : BitVec 16) (poison : Bool)
  | fail (cause sub : Nat) (addr : Word)
  | held
  | later
deriving DecidableEq, Repr

/-- Reads pieces one after another at their ports. -/
def State.engRead (s : State) (e : Nat) (c : CopyCmd) : List Want → List PieceAns → EngRead × State
  | [], got => (.got (ansBytes got) (ansTag got) (ansPoison got), s)
  | w :: r, got =>
    match s.engReq e c w.va w.act false with
    | (.ans (.fail cause sub a), s1) => (.fail cause sub a, s1)
    | (.ans a, s1) => s1.engRead e c r (got ++ [a])
    | (.held, s1) => (.held, s1)
    | (.wait, s1) => (.later, s1)

/-- The lines of `n` bytes at an address, each a piece of its own. -/
def lineWants (va : Word) (n : Nat) : List Want :=
  (List.range (n / 16)).map fun i => ⟨addrPlus va (16 * i), .load 16, .load, i == 0⟩

/-! ## Starting (R226 to R229) -/

/-- Earlier tags first; ties to the earlier arrival. -/
def State.firstCmd (s : State) : List CopyCmd → Option CopyCmd
  | [] => none
  | c :: r => match s.firstCmd r with
    | none => some c
    | some d => if tagEarlier (s.effTag d.tag d.nodl) (s.effTag c.tag c.nodl) then some d else some c

/-- A queued command's release is done (R109); only cpy and cpyd perform one here. -/
def State.cmdReady (s : State) (c : CopyCmd) : Bool × State := match c.op with
  | some o => (match tget s.ops o with
    | some p => (match p.kind with
      | .copy => s.opReady o
      | _ => (true, s))
    | none => (true, s))
  | none => (true, s)

/-- The window and ring that a descriptor advances: its destination lies in a data granule bound to a core of the cluster. -/
def State.radvRing (s : State) (cl : Nat) (d : Desc) : Option (Nat × Nat) :=
  match d.radv with
  | none => none
  | some n =>
    let w := vaHome d.dst * 96 + vaOff d.dst / 2 ^ 20
    let g := vaOff d.dst % 2 ^ 20 / 0x4000
    if inWindowSpace d.dst ∧ g < 16 then
      match s.gran w g with
      | .core k _ => if k = cl then some (w, n) else none
      | _ => none
    else none

/-- Lines that started commands are still to add to a ring. -/
def State.radvPending (s : State) (w n : Nat) : Nat :=
  s.engines.foldl (fun a p => p.2.foldl (fun b c => if c.started && !c.advanced && c.fail.isNone then
    (match c.todo with
      | d :: _ => if s.radvRing (p.1 / 4) d = some (w, n) then b + d.total / 64 else b
      | [] => b)
    else b) a) 0

/-- The transmit window that an address lies in: port and offset. -/
def txWindow (va : Word) : Option (Nat × Nat) :=
  if isEdge (vaHome va) ∧ 0x1000000000 ≤ vaOff va ∧ vaOff va < 0x1200000000 then
    some (2 * (vaHome va - 0x240) + (vaOff va - 0x1000000000) / 0x100000000, vaOff va % 0x100000000)
  else none

/-- A started command that sends a frame: its port. Its first descriptor starts at the transmit window (R326), and the rest of a cpyd
follows in it (R228). -/
def CopyCmd.txPort (c : CopyCmd) : Option Nat := match c.todo with
  | d :: _ => (txWindow d.dst).map Prod.fst
  | [] => none

/-- What a command has done so far, as its COUNT has it: lines present for a pref, else bytes written; a frame writes nothing before it
has left (R224, R232, R326, R375). -/
def CopyCmd.written (c : CopyCmd) : Nat := match c.what with
  | .pref _ _ => c.lines
  | _ => if c.txPort.isSome && !c.sent then 0 else c.bytes + c.part

/-- The descriptors of a command as it starts, or what is against them. -/
inductive Starting where
  | run (ds : List Desc)
  | fail (cause sub : Nat) (addr : Word)
  /-- It waits in the queue. -/
  | later
deriving DecidableEq, Repr

/-- The checks of R223, R227, R326 and R403 at the start of a command. -/
def State.startDescs (s : State) (e : Nat) (ds : List Desc) : Starting :=
  let total := ds.foldl (fun n d => n + d.total) 0
  match ds with
  | [] => .run []
  | d :: _ =>
    if isEdge (vaHome d.dst) then
      -- No data granule stands at a transmit window, and so no ring (R227).
      if total ≠ 0 ∧ d.radv.isSome then .fail 60 2 0#64
      else
        (match txWindow d.dst with
          | some (_, 0) => if 1 ≤ total ∧ total ≤ 9212 then .run ds else .fail 7 8 d.dst
          | _ => .fail 7 8 d.dst)
    else if total = 0 then .run ds
    else if d.radv.isNone then .run ds
    else if total % 64 ≠ 0 then .fail 60 2 0#64
    else
      match s.radvRing (engCluster e) d with
      | none => .fail 60 2 0#64
      | some (w, n) =>
        let r := tgetD (s.window w).rings n Ring.zero
        if (r.tail - r.head).toNat + s.radvPending w n + total / 64 ≤ r.lines then .run ds else .later

/-- The bytes of a notice's fields. -/
def noticeField (bs : List Byte) (lo n : Nat) : Nat := bitsOf (natOfBytes bs) lo n

/-- What a command runs: its descriptors, read where they stand. -/
def State.cmdDescs (s : State) (e : Nat) (c : CopyCmd) : Starting × State :=
  let read (va : Word) (f : Desc → Desc) : Starting × State :=
    match s.engRead e c (lineWants va 208) [] with
    | (.got bs _ _, s1) => (match parseDesc bs with
      | some d => (s1.startDescs e [f d], s1)
      | none => (.fail 60 1 0#64, s1))
    | (.fail cause sub a, s1) => (.fail cause sub a, s1)
    | (.held, s1) => (.later, s1.modCmd e c.id fun x => { x with heldAt := some 0 })
    | (.later, s1) => (.later, s1)
  match c.what with
  | .desc va => read va fun d => d
  | .plain ds => (s.startDescs e ds, s)
  | .pref _ _ => (.run [], s)
  | .notice _ bs =>
    let src := BitVec.ofNat 64 (noticeField bs 0 64)
    let desc := BitVec.ofNat 64 (noticeField bs 64 64)
    let dst := BitVec.ofNat 64 (noticeField bs 128 64)
    if desc = 0#64 then
      let ds := cpydDescs src dst (noticeField bs 192 32)
      (s.startDescs e ds, s)
    else read desc fun d => { d with src := src, dst := dst }

/-! ## The end of a command (R220, R377) -/

/-- A packet's or node's copy that failed is entered in the module log, and its work is done (R377 step 4). -/
def State.failPk (s : State) (cl : Nat) (d : GridFor) (cause sub count : Nat) (addr : Word) : State :=
  (s.reportLog cl ⟨failWord ⟨5, 0⟩ cause sub count, addr, true, 0⟩).finishFor d

/-- A command leaves its engine with its outcome: a failure and its address, or what it has done. -/
def State.endCmd (s : State) (e : Nat) (c : CopyCmd) : State :=
  let s1 := s.modEngine e fun cs => cs.filter fun x => x.id != c.id
  match c.fail, c.op with
  | some (cause, sub, addr), some o => s1.opFail o cause sub c.written addr
  | some (cause, sub, addr), none => s1.failPk (engCluster e) c.pk cause sub c.written addr
  | none, some o => s1.opDone o (statusWord false c.cancel c.written)
  | none, none => s1.finishFor c.pk

/-! ## Starts (R226) -/

/-- ENGINE_COMMAND_START: the engine takes the queued command with the earliest tag, of those whose release is done. One that was
cancelled while it waited ends with CAN = 1 and COUNT 0 (R222). -/
def doEngineStart (s : State) : State :=
  let e := s.subj
  let queued := (s.engine e).filter fun c => !c.started
  let r := queued.foldl (fun (acc : List CopyCmd × State) c =>
    let q := acc.2.cmdReady c
    (if q.1 then acc.1 ++ [c] else acc.1, q.2)) ([], s)
  let s0 := r.2
  if 4 ≤ ((s0.engine e).filter fun c => c.started).length then s0
  else
    match s0.firstCmd r.1 with
    | none => s0
    | some c =>
      if c.cancel then s0.endCmd e c
      else if c.heldAt.isSome then s0
      else
        match s0.cmdDescs e c with
        | (.run ds, s1) => s1.modCmd e c.id fun x => { x with started := true, todo := ds.filter fun d => d.total != 0 }
        | (.fail cause sub a, s1) => (s1.modCmd e c.id fun x => { x with started := true }).cmdFail e c.id cause sub a
        | (.later, s1) => s1

/-! ## The spill ring (R215) -/

/-- The core whose spill ring takes an advance of a ring of a stopping group; `none` where the ring is in reach. -/
def State.spillAdvance (s : State) (w n : Nat) : Option Nat :=
  let stopping : Bool := s.groups.any fun p => p.2.win == w && !p.2.ended && p.2.away != 0 && (match (tget s.blocks p.2.block).bind
      fun b => tget s.grids b.grid with
    | some g => g.hdr.ringmask.getLsbD n
    | none => false)
  match s.gran w 16 with
  | .core cl pc => if stopping then some (100 * cl + pc) else none
  | _ => none

/-! ## Elements (R224, R225, R395, R403) -/

/-- Whether a command may write at an address (R225). -/
def CopyCmd.mayWrite (c : CopyCmd) (va : Word) : Bool :=
  let h := vaHome va
  (h == c.clHome && decide (vaOff va < ctlBase)) || (h == c.winHome && inWindowSpace va) || (h == 0x180 + c.clHome / 2 && decide (vaOff va < ctlBase))
    || isHost h

/-- The present element is done. -/
def CopyCmd.step (c : CopyCmd) : CopyCmd :=
  match c.todo with
  | [] => c
  | d :: r =>
    let last : Bool := decide (d.count ≤ c.index + 1)
    { c with
      bytes := c.bytes + 2 ^ d.elog2
      part := 0
      buf := none
      heldAt := none
      index := if last && !r.isEmpty then 0 else c.index + 1
      todo := if last && !r.isEmpty then r else c.todo }

/-- Every element of a command has been moved. -/
def CopyCmd.moved (c : CopyCmd) : Bool := match c.todo with
  | [] => true
  | d :: r => r.isEmpty && decide (d.count ≤ c.index)

/-- What is left of a list of pieces once their first `n` bytes are written. -/
def restWants : Nat → List Want → List Want
  | _, [] => []
  | n, w :: r => if n = 0 then w :: r else restWants (n - w.act.width) r

/-- The pieces of the present element that are still to be written. A whole line carries its tag (R224). -/
def CopyCmd.pieces (c : CopyCmd) : List Want := match c.todo, c.buf with
  | d :: _, some (b, g, _) =>
    let (a, t) := d.at c.index
    let es := 2 ^ d.elog2
    restWants c.part (storeWants t es (b.map some) (if es = 64 ∧ a.toNat % 64 = 0 ∧ t.toNat % 64 = 0 then some g else none))
  | _, _ => []

/-- Why a write to an address waits for a spill ring. -/
def spillWhy (va : Word) : HoldWhy := .spill (vaHome va * 96 + vaOff va / 2 ^ 20) (vaOff va % 2 ^ 20 / 0x4000)

/-- A piece of an element has been written. -/
def State.wrotePiece (s : State) (e : Nat) (c : CopyCmd) (w : Want) : State :=
  s.modCmd e c.id fun x => { x with part := x.part + w.act.width }

/-- Writes pieces of an element in order, with the poison `pz` of what was read; `some` where one fails or stays. One for a ring of a
stopping group is the spill ring's, or waits at the CC home where that is full (R215). -/
def State.engWrite (s : State) (e : Nat) (c : CopyCmd) (pz : Bool) : List Want → Option EngRead × State
  | [] => (none, s)
  | w :: r =>
    let q : Req := Req.copier w.va w.act.width .store c.ctx
    match s.spillLine w.va with
    | some core =>
      if s.spillFull core (spillWhy w.va) then (some .held, s.holdBehind q.ownPage q w.act (.engine e c.id true) false (spillWhy w.va))
      else (some .later, s)
    | none =>
      match s.engReq e c w.va w.act true with
      | (.ans (.fail cause sub a), s1) => (some (.fail cause sub a), s1)
      | (.ans _, s1) => ((if pz then s1.poisonAt q (siteOfHome (engCluster e)) else s1).wrotePiece e c w).engWrite e c pz r
      | (.held, s1) => (some .held, s1)
      | (.wait, s1) => (some .later, s1)

/-- Moves one element of a command: the read is performed before the write. -/
def State.moveElem (s : State) (e : Nat) (c : CopyCmd) (d : Desc) : State :=
  let (a, t) := d.at c.index
  let es := 2 ^ d.elog2
  let tx := c.txPort.isSome
  let r : EngRead × State := match c.buf with
    | some (b, g, p) => (.got b g p, s)
    | none =>
      if !tx && isEdge (vaHome t) then (.fail 7 8 t, s)
      else if !tx && !(c.mayWrite t) then (.fail 7 7 t, s)
      else s.engRead e c (loadWants a es es .load) []
  match r with
  | (.fail cause sub va, s1) => s1.cmdFail e c.id cause sub va
  | (.held, s1) => s1.modCmd e c.id fun x => { x with heldAt := some 0 }
  | (.later, s1) => s1
  | (.got b g p, s1) =>
    if tx then s1.modCmd e c.id fun x => { x.step with frame := x.frame ++ b }
    else
      let s2 := s1.modCmd e c.id fun x => { x with buf := some (b, g, p) }
      match s2.engWrite e c p ({ c with buf := some (b, g, p) } : CopyCmd).pieces with
      | (none, s3) => s3.modCmd e c.id CopyCmd.step
      | (some (.fail cause sub va), s3) => s3.cmdFail e c.id cause sub va
      | (some .held, s3) => s3.modCmd e c.id fun x => { x with heldAt := some 1 }
      | (some _, s3) => s3

/-- pref: the lines of a range. -/
def prefLines (va : Word) (n : Nat) : Nat := if n = 0 then 0 else (va.toNat % 64 + n + 63) / 64

/-- One line of a pref: it is filled where its page lets a hart read it, and skipped otherwise (R232). -/
def State.prefElem (s : State) (e : Nat) (c : CopyCmd) (va : Word) : State :=
  let line := addrPlus (lineOf va) (64 * c.index)
  let next (t : State) (present : Bool) : State := t.modCmd e c.id fun x =>
    { x with index := x.index + 1, lines := if present then x.lines + 1 else x.lines }
  let inside : Bool := vaHome line == vaHome va && decide (vaOff (lineOf va) + 64 * c.index < 2 ^ 47)
    && (isCC (vaHome va) || isMC (vaHome va)) && !(inWindowSpace line) && decide (vaOff line < ctlBase)
  if !inside then next s false
  else
    match s.route (Req.copier line 64 .load c.ctx) (siteOfHome (engCluster e)) with
    | .at (.mem _ none) _ (some f) => next (s.tlbTake (some f)) true
    | .netHeld => s
    | .fail _ sub => next (s.noteTable (vaHome line) sub) false
    | _ => next s false

/-- ENGINE_ELEMENT_TRANSFER: the next element, or the next line of a pref, of a command that runs. -/
def doEngineElem (id : Nat) (s : State) : State :=
  let e := s.subj
  match s.cmd e id with
  | none => s
  | some c =>
    if !c.started || c.heldAt.isSome || c.fail.isSome || (c.cancel && c.buf.isNone) then s
    else
      match c.what with
      | .pref va n => if c.index < prefLines va n then s.prefElem e c va else s
      | _ =>
        match c.todo with
        | [] => s
        | d :: _ => if c.moved then s else s.moveElem e c d

/-- The engine's command whose next act is a spill entry of a core: a line of its element, or its tail advance. -/
def State.spillTurn (s : State) (core : Nat) (entry : SpillEnt) (e : Nat) (c : CopyCmd) : Bool :=
  c.started && c.heldAt.isNone && c.fail.isNone && (match entry, c.todo with
    | .line _ _ _ _ _, _ => (match c.pieces, c.buf with
      | w :: _, some (_, _, z) => (match w.act with
        | .store b tag => s.spillLine w.va == some core && !(s.spillFull core (spillWhy w.va)) && entry == lineEntry w.va b tag z
        | _ => false)
      | _, _ => false)
    | .advance w n k, d :: _ => c.moved && !c.advanced && !c.cancel && s.radvRing (engCluster e) d == some (w, n) && k == d.total / 64
        && s.spillAdvance w n == some core
    | .advance _ _ _, [] => false)

/-- A command's spill entry is in the ring. -/
def CopyCmd.spilled (c : CopyCmd) (entry : SpillEnt) : CopyCmd := match entry with
  | .line _ _ _ _ _ => (match c.pieces with
    | [w] => { c with part := c.part + w.act.width }.step
    | w :: _ => { c with part := c.part + w.act.width }
    | [] => c)
  | .advance _ _ _ => { c with advanced := true }

/-- SPILL_RING_APPEND: the core's network interface keeps a line write or a tail advance of an engine for a ring of a stopping
group (R215). -/
def doSpill (entry : SpillEnt) (s : State) : State :=
  let core := s.subj
  if 16 ≤ (s.core core).spill.length then s
  else
    match s.engines.findSome? fun p => (p.2.find? fun c => s.spillTurn core entry p.1 c).map fun c => (p.1, c) with
    | none => s
    | some (e, c) => (s.modCore core fun k => { k with spill := k.spill ++ [entry] }).modCmd e c.id fun x => x.spilled entry

/-! ## Completion (R220, R224, R227, R231) -/

/-- The window of a kick's sender. -/
def State.opWin (s : State) (o : Option Nat) : Nat := match o.bind fun i => tget s.ops i with
  | some p => p.win
  | none => 0

/-- The notification of a pull at its mailbox's port (R231): delivered at once, or it waits there as a send does. -/
def State.notifyAt (s : State) (e : Nat) (c : CopyCmd) (w : Nat) (bs : List Byte) : State :=
  let m := noticeField bs 235 5
  let sw := s.opWin c.op
  let image := slotImage (s.nsAt (engCluster e)) 32 (winNum sw) (winHome sw) (noticeField bs 240 16) bs
  let ahead : Bool := (s.window w).sends.any fun p => p.1 == m
  if cRoom (s.conf w m) && !ahead then (s.deliver w m image 0#16).modCmd e c.id fun x => { x with notified := true }
  else
    let (id, s1) := s.fresh
    let o : Op :=
      { hart := c.ctx.hart.getD 0
        kind := .msg (addrPlus (winBase w) (0x40000 + 8 * m)) false image 32 0#16
        st := .waiting
        fo := noForm
        how := .status
        scope := .sys
        ctx := c.ctx
        gate := []
        drained := true
        tag := c.tag
        nodl := c.nodl
        cluster := engCluster e
        win := sw
        since := s.ncyc
        inj := none
        beta := none }
    let s2 : State := { s1 with ops := tset s1.ops id o }
    ((s2.modWindow w fun x => { x with sends := x.sends ++ [(m, id)] }).putConf w m
      (putBits (s2.conf w m) 40 8 (min 255 (bitsOf (s2.conf w m) 40 8 + 1)))).modCmd e c.id fun x =>
      { x with notified := true, noteOp := some id }

/-- The notification of a pull goes to its mailbox's port: as a request of the engine's, it may fail, or wait at its home (R240, R403). -/
def State.notify (s : State) (e : Nat) (c : CopyCmd) (w : Nat) (bs : List Byte) : State :=
  let va := addrPlus (winBase w) (0x40000 + 8 * noticeField bs 235 5)
  let r : Req := Req.copier va 8 .store c.ctx
  let iface := siteOfHome (engCluster e)
  let who : Who := .engine e c.id false
  let held (t : State) : State := t.modCmd e c.id fun x => { x with heldAt := some 1 }
  match s.route r iface with
  | .at _ _ _ => s.notifyAt e c w bs
  | .fail cause sub => (s.noteTable (vaHome va) sub).cmdFail e c.id cause sub va
  | .lost => held (s.holdLost r (.load 8) who false iface)
  | .miss pg => held (s.holdMiss pg r (.load 8) who false)
  | .behind pg why => held (s.holdBehind pg r (.load 8) who false why)
  | .rebind w2 g => held (s.holdBehind r.ownPage r (.load 8) who false (.rebind w2 g))
  | .netHeld => s

/-- ENGINE_COMMAND_COMPLETE: after every write, the ring is advanced, the receiver notified, and the future completes. -/
def doEngineComplete (id : Nat) (s : State) : State :=
  let e := s.subj
  match s.cmd e id with
  | none => s
  | some c =>
    if !c.started || c.heldAt.isSome then s
    else if c.fail.isSome then s.endCmd e c
    else
      match c.what with
      | .pref va n => if c.cancel || decide (prefLines va n ≤ c.index) then s.endCmd e c else s
      | _ =>
        if c.cancel && c.buf.isNone && !c.moved then s.endCmd e c
        else if !c.moved || (c.txPort.isSome && !c.sent && decide (0 < c.bytes)) then s
        else
          let adv : Option (Nat × Nat × Nat) := match c.todo with
            | d :: _ => if c.advanced then none else d.radv.map fun n =>
                (vaHome d.dst * 96 + vaOff d.dst / 2 ^ 20, n, d.total / 64)
            | [] => none
          match adv with
          | some (w, n, k) =>
            let r := tgetD (s.window w).rings n Ring.zero
            if !(s.gran w 16).onCore || (s.spillAdvance w n).isSome || decide (r.lines < (r.tail - r.head).toNat + k) then s
            else
              (s.modWindow w fun x => { x with rings := tset x.rings n { r with tail := r.tail + BitVec.ofNat 32 k } }).modCmd e id
                fun x => { x with advanced := true }
          | none =>
            match c.what with
            | .notice w bs =>
              if noticeField bs 234 1 = 1 ∧ !c.notified then s.notify e c w bs
              else
                (match c.noteOp.bind fun o => tget s.ops o with
                  | some p => if p.st == .waiting then s else s.endCmd e { c with cancel := false }
                  | none => s.endCmd e { c with cancel := false })
            | _ => s.endCmd e { c with cancel := false }

/-! ## The events -/

/-- ENGINE_COMMAND_START. -/
def execEngineCommandStart (s : State) : Host.Outcome State Fault Refusal := .next (doEngineStart s)
/-- ENGINE_ELEMENT_TRANSFER. -/
def execEngineElementTransfer (op : Nat) (s : State) : Host.Outcome State Fault Refusal := .next (doEngineElem op s)
/-- ENGINE_COMMAND_COMPLETE. -/
def execEngineCommandComplete (op : Nat) (s : State) : Host.Outcome State Fault Refusal := .next (doEngineComplete op s)
/-- SPILL_RING_APPEND. -/
def execSpillRingAppend (entry : SpillEnt) (s : State) : Host.Outcome State Fault Refusal := .next (doSpill entry s)

end Sys2Proof.Machine
end

