-- ==== Sys2Proof/Machine/EvQueue.lean ====
section
/-! DEFINITION. Messages and kicks on their way (R230, R231, R235, R236, R239, R240, R272, R273, R402): mailbox delivery,
waiting sends, the damping of gb.emit, kick registers and the acceptance of notices. -/

namespace Sys2Proof.Machine

open Sys2Proof

/-! ## The operation's own reads and writes -/

/-- What an operation's access comes to. -/
inductive OpGot where
  | got (bytes : List Byte) (poison : Bool)
  | fail (cause sub : Nat) (addr : Word)
  | held
  | later
deriving DecidableEq, Repr

/-- Reads pieces for an operation, in its hart's context. -/
def State.opRead (s : State) (o : Nat) (p : Op) : List Want → List PieceAns → OpGot × State
  | [], got => (.got (ansBytes got) (ansPoison got), s)
  | w :: r, got =>
    match s.request (Req.hart w.va w.act.width w.kind p.ctx) w.act (.op o) false none (siteOfHome p.cluster) with
    | (.ans (.fail cause sub a), s1) => (.fail cause sub a, s1)
    | (.ans a, s1) => s1.opRead o p r (got ++ [a])
    | (.held, s1) => (.held, s1.modOp o fun q => { q with st := .held })
    | (.wait, s1) => (.later, s1)

/-- The pieces of `n` bytes at an address, cut at lines. -/
def linePieces (a : Word) : Nat → Nat → List Want
  | 0, _ => []
  | f + 1, n =>
    if n = 0 then []
    else
      let k := min n (64 - a.toNat % 64)
      ⟨a, .load k, .load, false⟩ :: linePieces (addrPlus a k) f (n - k)

/-! ## Delivery (R235, R236, R239, R402) -/

/-- A send that has not left its hart yet. -/
def Op.leaving (p : Op) : Bool := p.travelling && (match p.kind with
  | .send _ _ _ _ _ | .sendImg _ _ _ | .emit _ _ _ _ _ _ _ => true
  | _ => false)

/-- An earlier send of the same hart that this one waits behind: one that has not left, or a message on its way to the same
mailbox. -/
def State.sendBehind (s : State) (o : Nat) (p : Op) (mbox : Word) : Bool :=
  s.ops.any fun q => decide (q.1 < o) && q.2.hart == p.hart && (q.2.leaving || (q.2.travelling && (match q.2.kind with
    | .msg m _ _ _ _ => m == mbox
    | _ => false)))

/-- A message waits at its mailbox's port, and WAITS counts it. -/
def State.waitSend (s : State) (o w m : Nat) (image : List Byte) (mbox : Word) (nowait : Bool) (len : Nat) (tag : BitVec 16) : State :=
  let s1 := s.modOp o fun q => { q with kind := .msg mbox nowait image len tag, st := .waiting }
  let s2 := s1.modWindow w fun x => { x with sends := x.sends ++ [(m, o)] }
  s2.putConf w m (putBits (s2.conf w m) 40 8 (min 255 (bitsOf (s2.conf w m) 40 8 + 1)))

/-- What becomes of an operation's request on its way to a port that performs it by `act`: it fails, waits at its home, or is sent
again later. -/
def State.opRoute (s : State) (o : Nat) (p : Op) (r : Req) (act : Place → State) : State :=
  let held (t : State) : State := t.modOp o fun q => { q with st := .held }
  match s.route r (siteOfHome p.cluster) with
  | .at pl _ _ => act pl
  | .fail cause sub => (s.noteTable (vaHome r.va) sub).opFail o cause sub 0 r.va
  | .lost => held (s.holdLost r (.load 8) (.op o) false (siteOfHome p.cluster))
  | .miss pg => held (s.holdMiss pg r (.load 8) (.op o) false)
  | .behind pg why => held (s.holdBehind pg r (.load 8) (.op o) false why)
  | .rebind w g => held (s.holdBehind r.ownPage r (.load 8) (.op o) false (.rebind w g))
  | .netHeld => s

/-- A message arrives at its mailbox's port. With NOWAIT it is judged by the delivery condition alone (R402). -/
def State.arriveMsg (s : State) (o : Nat) (p : Op) (mbox : Word) (nowait : Bool) (image : List Byte) (len : Nat) (tag : BitVec 16) :
    State :=
  match mboxOf mbox with
  | none => s.opFail o 7 3 0 mbox
  | some (w, m) =>
    (s.modOp o fun q => { q with kind := .msg mbox nowait image len tag }).opRoute o p (Req.hart mbox 8 .store p.ctx) fun _ =>
      let ahead : Bool := (s.window w).sends.any fun q => q.1 == m
      if cRoom (s.conf w m) && !ahead then (s.deliver w m image tag).opDone o (statusWord false false len)
      else if nowait then
        -- Room that has appeared is the waiting sends' first (R236, R239).
        (if cRoom (s.conf w m) then s.modOp o fun q => { q with kind := .msg mbox nowait image len tag } else s.opFail o 61 17 0 mbox)
      else s.waitSend o w m image mbox nowait len tag

/-- The slot that a message of an operation fills: CTIME is the causal time of the sender's core (R318). -/
def State.slotFor (s : State) (p : Op) (len user : Nat) (payload : List Byte) : List Byte :=
  let c := match s.hart? p.hart with
    | some x => s.causal x
    | none => s.nsAt p.cluster
  slotImage c len (winNum p.win) (winHome p.win) user payload

/-- A send reads its image, after its release. -/
def State.sendImage (s : State) (o : Nat) (p : Op) (mbox : Word) (nowait : Bool) (img : Word) : State :=
  match s.opRead o p (linePieces img 2 16) [] with
  | (.got hd pz, s1) =>
    let len := natOfBytes ((hd.drop 8).take 1)
    let user := natOfBytes ((hd.drop 12).take 4)
    if pz then s1.opFail o 56 14 0 img
    else if 240 < len then s1.opFail o 60 3 0 img
    else
      (match s1.opRead o p (linePieces (addrPlus img 16) 5 len) [] with
        | (.got body pz2, s2) =>
          if pz2 then s2.opFail o 56 14 0 img
          else s2.arriveMsg o p mbox nowait (s2.slotFor p len user body) len 0#16
        | (.fail cause sub a, s2) => s2.opFail o cause sub 0 a
        | (_, s2) => s2)
  | (.fail cause sub a, s1) => s1.opFail o cause sub 0 a
  | (_, s1) => s1

/-! ## gb.emit (R272) -/

/-- What the damping of a message comes to: the values sent, RES, and whether the record held a previous message. -/
structure Damped where
  outs : List W32
  res : W32
  prevOk : Bool

/-- The values of a message in order: η, then the packed upper Λ. -/
def outValues (t : Nat) (eta : Vector W32 8) (lam : Vector W32 64) : List W32 :=
  ((List.range t).map fun i => eta[i % 8]'(Nat.mod_lt i (by decide)))
    ++ (triangle t).map fun q => lam[(8 * q.1 + q.2) % 64]'(Nat.mod_lt _ (by decide))

/-- PREV's values in the same order. -/
def prevValues (t : Nat) (rec_ : List Byte) : List W32 :=
  ((List.range t).map fun i => recEta rec_ i) ++ (triangle t).map fun q => recLam rec_ t q.1 q.2

/-- β / 256 as FP32: exact. -/
def betaF32 (n : Nat) : W32 := (roundF32 .rne (.fin false n 256)).1

/-- |a| of an FP32 value. -/
def absF32 (a : W32) : W32 := a &&& 0x7FFFFFFF#32

/-- The computation of R272. -/
def damp (beta : Nat) (t : Nat) (eta : Vector W32 8) (lam : Vector W32 64) (prev : List Byte) : Damped :=
  let prevOk : Bool := recD prev == t
  let ns := outValues t eta lam
  let rs := prevValues t prev
  let w := betaF32 beta
  let a := betaF32 (256 - beta)
  let outs := if prevOk ∧ 0 < beta then (ns.zip rs).map fun q => addF32 (mulF32 a q.1) (mulF32 w q.2) else ns
  let res := (outs.zip rs).foldl (fun (acc : W32) q => addF32 acc (absF32 (subF32 q.1 (if prevOk then q.2 else 0#32)))) 0#32
  ⟨outs, res, prevOk⟩

/-- The record of R265 that is sent; its reserved fields are 0 (R9). -/
def emitRecord (t : Nat) (d : Damped) (prev : List Byte) : List Byte :=
  let iter := if d.prevOk then natOfBytes ((prev.drop 8).take 4) + 1 else 0
  bytesOfNat 4 t ++ (prev.drop 4).take 4 ++ bytesOfNat 4 iter ++ List.replicate 4 0#8 ++ (d.outs.map fun v => bytesOfNat 4 v.toNat).foldr (· ++ ·) []

/-- a < b of FP32 values; false with a NaN. -/
def ltF32 (a b : W32) : Bool := !(f32 a).isNan && !(f32 b).isNan && decide ((f32 a).cmp (f32 b) < 0)

/-- Bytes of PREV, and the offsets of RES and SENT in an edge record (R266). -/
def edgePrevLen : Nat := 192
/-- RES. -/
def edgeRes : Nat := 192
/-- SENT. -/
def edgeSent : Nat := 196

/-- Step 3 of R272 at the record's port: the read, the computation and the write are one access. It sets RES and,
as every chisel operation does, LIVE, even where a gb.clr has come since the gb.emit issued (DESIGN CHOICE; log 163). -/
def State.emitEdge (s : State) (o : Nat) (p : Op) (mbox : Word) (nowait : Bool) (edge : Word) (t : Nat) (eta : Vector W32 8)
    (lam : Vector W32 64) (tau : W32) (beta k : Nat) : State :=
  let bs := s.bytesAt k 256
  if s.poisoned k 256 then s.opFail o 56 14 0 edge
  else
    let prev := bs.take edgePrevLen
    let d := damp beta t eta lam prev
    let core := match s.hart? p.hart with
      | some x => x.core
      | none => 0
    let saved (u : State) : State := match u.hart? p.hart with
      | some x => if x.status == .saved then u.slotRes x d.res else u
      | none => u
    let tell (u : State) : State := (saved (u.modPair p.hart fun y => { y with chisel := { y.chisel with res := d.res, live := true } })).unitTake
      core none (8 + 4 * msgValues t)
    -- RES, and 0 in the reserved bytes (R9).
    let withRes (b : List Byte) : List Byte :=
      b.take edgeRes ++ bytesOfNat 4 d.res.toNat ++ (b.drop (edgeRes + 4)).take 4 ++ List.replicate 56 0#8
    if d.prevOk && tau != 0#32 && ltF32 d.res tau then
      ((tell s).putMem k ((withRes bs).map some)).opDone o (statusWord false false 0)
    else
      let msg := emitRecord t d prev
      let sent := natOfBytes ((bs.drop edgeSent).take 4) + 1
      let body := msg ++ bs.drop msg.length
      let body2 := body.take edgeSent ++ bytesOfNat 4 sent ++ body.drop (edgeSent + 4)
      let u := (tell s).putMem k ((withRes body2).map some)
      u.modOp o fun q =>
        { q with kind := .msg mbox nowait (u.slotFor p (recLen t) d.res.toNat msg) (recLen t) 0x4000#16 }

/-- Step 2 of a gb.emit, BETA from the configuration word at its port; then step 3, the edge record at its own, once the unit is
free. -/
def State.emitGo (s : State) (o : Nat) (p : Op) (mbox : Word) (nowait : Bool) (edge : Word) (t : Nat) (eta : Vector W32 8)
    (lam : Vector W32 64) (tau : W32) : State :=
  match p.beta with
  | none => s.opRoute o p (Req.hart mbox 8 .load p.ctx) fun _ => match mboxOf mbox with
    | some (w, m) => s.modOp o fun q => { q with beta := some (cBeta (s.conf w m)) }
    | none => s
  | some beta =>
    let free : Bool := match s.hart? p.hart with
      | some x => (s.core x.core).chiselEnd.isNone && (s.unitQueue x.core).isEmpty
      | none => true
    if !free then s
    else s.opRoute o p (Req.hart edge 256 .amo p.ctx) fun pl => match pl with
      | .mem k _ => s.emitEdge o p mbox nowait edge t eta lam tau beta k
      | _ => s.opFail o 7 3 0 edge

/-- MAILBOX_DELIVERY: a message whose release is done, with no earlier send of its hart before it, reaches its mailbox. -/
def doMailboxDelivery (s : State) : State :=
  let o := s.subj
  s.whenReady o fun p t =>
    match p.kind with
    | .send mbox nowait payload len user =>
      if t.sendBehind o p mbox then t else t.arriveMsg o p mbox nowait (t.slotFor p len user payload) len 0#16
    | .sendImg mbox nowait img => if t.sendBehind o p mbox then t else t.sendImage o p mbox nowait img
    | .emit mbox nowait edge d eta lam tau =>
      if t.sendBehind o p mbox then t else t.emitGo o p mbox nowait edge d eta lam tau
    | .msg mbox nowait image len tag => if t.sendBehind o p mbox then t else t.arriveMsg o p mbox nowait image len tag
    | _ => t

/-- WAITING_SEND_ENTER: the first send that waits at the mailbox enters as room appears (R236). -/
def doWaitingSendEnter (mb : Nat) (s : State) : State :=
  let w := s.subj
  match (s.window w).sends.find? fun p => p.1 == mb with
  | none => s
  | some (_, o) =>
    if !(cRoom (s.conf w mb)) then s
    else
      match tget s.ops o with
      | some p =>
        (match p.kind with
          | .msg _ _ image len tag => ((s.unwaitSend w o).deliver w mb image tag).opDone o (statusWord false false len)
          | _ => s)
      | none => s.unwaitSend w o

/-! ## Kicks (R230, R231, R240) -/

/-- KICK_ARRIVAL: the notice is read and the kick written to its register: it enters the window's queue of 16, or waits. -/
def doKickArrival (s : State) : State :=
  let o := s.subj
  s.whenReady o fun p t =>
    match p.kind with
    | .kick notice kreg =>
      (match t.opRead o p (linePieces notice 2 32) [] with
        | (.got bs pz, t1) =>
          if pz then t1.opFail o 56 14 0 notice
          else t1.opRoute o p (Req.hart kreg 32 .store p.ctx) fun _ =>
            let w := vaHome kreg * 96 + vaOff kreg / 2 ^ 20
            let x := t1.window w
            if x.notices.length < 16 ∧ x.kicks.isEmpty then
              (t1.modWindow w fun y => { y with notices := y.notices ++ [⟨bs, o⟩] }).modOp o fun q => { q with st := .waiting }
            else
              (t1.modWindow w fun y => { y with kicks := y.kicks ++ [⟨bs, o⟩] }).modOp o fun q => { q with st := .waiting }
        | (.fail cause sub a, t1) => t1.opFail o cause sub 0 a
        | (_, t1) => t1)
    | _ => t

/-- NOTICE_ACCEPT: the engine of the window's quarter, in the cluster that holds the window, accepts its first notice. -/
def doNoticeAccept (s : State) : State :=
  let w := s.subj
  let x := s.window w
  match s.gran w 16, x.notices with
  | .core cl _, n :: rest =>
    let e := 4 * cl + winNum w / 24
    if !(s.engineRoom e) then s
    else
      match tget s.ops n.op with
      | none => s.modWindow w fun y => { y with notices := rest ++ y.kicks.take 1, kicks := y.kicks.drop 1 }
      | some p =>
        let (id, s1) := s.fresh
        let s2 := s1.modWindow w fun y => { y with notices := rest ++ y.kicks.take 1, kicks := y.kicks.drop 1 }
        s2.modEngine e fun cs => cs ++ [newCmd id (.notice w n.bytes) p.ctx cl (winHome w) p.tag p.nodl (some n.op) .none s.ncyc]
  | _, _ => s

/-! ## The events -/

/-- MAILBOX_DELIVERY. -/
def execMailboxDelivery (s : State) : Host.Outcome State Fault Refusal := .next (doMailboxDelivery s)
/-- WAITING_SEND_ENTER. -/
def execWaitingSendEnter (mb : Nat) (s : State) : Host.Outcome State Fault Refusal := .next (doWaitingSendEnter mb s)
/-- KICK_ARRIVAL. -/
def execKickArrival (s : State) : Host.Outcome State Fault Refusal := .next (doKickArrival s)
/-- NOTICE_ACCEPT. -/
def execNoticeAccept (s : State) : Host.Outcome State Fault Refusal := .next (doNoticeAccept s)

end Sys2Proof.Machine
end

