-- ==== Sys2Proof/Machine/EvGraph.lean ====
section
/-! DEFINITION. Queues, packets, command graphs, host rings and pipelines as the scheduler cores perform them (R287 to R303,
R308, R425 to R427). -/

namespace Sys2Proof.Machine

open Sys2Proof

/-! ## What packets and nodes ask for (R293, R296) -/

/-- The work of a packet or of a node. -/
inductive Work where
  | nop
  | launch (rec_ : Word) (asid : Option (BitVec 16))
  | pipe (prec : Word)
  | graph (table : Word) (n : Nat)
  | copy (desc : Word)
  | signal (op : Nat) (va v : Word)
  | wait (cmp : Nat) (va v : Word)
  | write (log : Nat) (va v : Word)
  | ib (va : Word) (n : Nat)
  | cond (cmp : Nat) (va v : Word) (first last exit : Nat)
  | hring (rdesc src : Word) (flush : Bool)
  /-- An unassigned KIND. -/
  | unassigned
deriving DecidableEq, Repr

/-- A packet's work. -/
def packetWork (bs : List Byte) : Work :=
  let n := natOfBytes bs
  let f (lo len : Nat) : Nat := bitsOf n lo len
  let w (lo : Nat) : Word := BitVec.ofNat 64 (f lo 64)
  let k := f 0 8
  if k = 0 then .nop
  else if k = 1 then .launch (w 128) (if f 208 1 = 1 then some (BitVec.ofNat 16 (f 192 16)) else none)
  else if k = 2 then .pipe (w 128)
  else if k = 3 then .graph (w 128) (f 192 16)
  else if k = 4 then .copy (w 128)
  else if k = 5 then .signal (f 256 2) (w 128) (w 192)
  else if k = 6 then .wait (f 256 3) (w 128) (w 192)
  else if k = 7 then .write (f 256 2) (w 128) (w 192)
  else if k = 8 then .ib (w 128) (f 192 32)
  else .unassigned

/-- A node's work. -/
def nodeWork (bs : List Byte) : Work :=
  let n := natOfBytes bs
  let f (lo len : Nat) : Nat := bitsOf n lo len
  let w (lo : Nat) : Word := BitVec.ofNat 64 (f lo 64)
  let k := f 0 8
  if k = 0x10 then .launch (w 128) none
  else if k = 0x11 then .pipe (w 128)
  else if k = 0x12 then .copy (w 128)
  else if k = 0x13 then .cond (f 256 3) (w 128) (w 192) (f 272 16) (f 288 16) (f 304 16)
  else if k = 0x14 then .signal (f 256 2) (w 128) (w 192)
  else if k = 0x15 then .hring (w 128) (w 192) (f 256 1 == 1)
  else if k = 0x16 then .wait (f 256 3) (w 128) (w 192)
  else if k = 0x17 then .nop
  else .unassigned

/-- Successors of a node. -/
def nodeSuccs (bs : List Byte) : List Nat := (List.range 4).map fun i => bitsOf (natOfBytes bs) (64 + 16 * i) 16

/-- PREDS of a node. -/
def nodePreds (bs : List Byte) : Nat := bitsOf (natOfBytes bs) 16 16

/-- Whether a word satisfies a comparison (R293). -/
def cmpHolds (cmp : Nat) (word v : Word) : Bool :=
  if cmp = 0 then word == v
  else if cmp = 1 then word != v
  else if cmp = 2 then decide (v.toInt ≤ word.toInt)
  else decide (word.toInt < v.toInt)

/-! ## Capability checks (R425) -/

/-- What a check comes to. -/
inductive Check where
  | pass
  /-- With the read that failed, where one did. -/
  | fault (sub : Nat) (saw : Option (Ctx × Word))
  | later (c : Ctx) (va : Word)
deriving DecidableEq, Repr

/-- The first check that does not pass. -/
def Check.and (a b : Check) : Check := match a with
  | .pass => b
  | r => r

/-- The first of a list that does not pass. -/
def checkAll : List Check → Check
  | [] => .pass
  | a :: r => a.and (checkAll r)

/-- A test with its SUB. -/
def checkIf (bad : Bool) (sub : Nat) : Check := if bad then .fault sub none else .pass

/-- Bytes that must be readable (SUB 2), and a check of them. -/
def State.checkRead (s : State) (c : Ctx) (va : Word) (n : Nat) (f : List Byte → Check) : Check :=
  match s.readBytes c va n with
  | .got bs => f bs
  | .fail _ _ a => .fault 2 (some (c, a))
  | .later a => .later c a

/-- Output channels of a stage entry: (TSTAGE, TMBOX, ALLOW). -/
def stageOuts (bs : List Byte) : List (Nat × Nat × Nat) :=
  let n := natOfBytes bs
  (List.range (bitsOf n 64 4)).map fun i =>
    let o := bitsOf n (128 + 16 * i) 16
    (bitsOf o 10 6, bitsOf o 5 5, bitsOf o 0 4)

/-- A pipeline record (SUB 7): header, entries, and the mailboxes that the target stages declare. -/
def State.checkPipe (s : State) (c : Ctx) (prec : Word) : Check :=
  s.checkRead c prec 64 fun hd =>
    let n := bitsOf (natOfBytes hd) 0 6 + 1
    let entry (i : Nat) : Word := addrPlus prec (64 + 64 * i)
    let declares (t m : Nat) : Check :=
      s.checkRead c (entry t) 64 fun e => s.checkRead c (BitVec.ofNat 64 (natOfBytes (e.take 8))) 128 fun r =>
        s.checkRead c (parseLaunch r).khdr 64 fun h => checkIf (bitsOf (natOfBytes h) (352 + m) 1 == 0) 7
    checkAll ((List.range n).map fun i =>
      s.checkRead c (entry i) 64 fun e =>
        (checkIf (decide (8 < bitsOf (natOfBytes e) 64 4)) 7).and
          ((s.checkRead c (BitVec.ofNat 64 (natOfBytes (e.take 8))) 128 fun _ => .pass).and
            (checkAll ((stageOuts e).map fun o =>
              (checkIf (o.2.2 == 0 || decide (8 < o.2.2) || decide (n ≤ o.1)) 7).and (declares o.1 o.2.1)))))

/-- The address of a signal word, or of a WRITE's `w` bytes (SUB 6, SUB 9). -/
def State.checkWord (s : State) (va : Word) (w : Nat) (codeOk dest : Bool) : Check :=
  (checkIf (!(isMC (vaHome va)) || decide (va.toNat % w ≠ 0) || !codeOk) 6).and (checkIf (dest && s.reservedVa va) 9)

/-- A copy that writes in the reserved region, with any byte of any element (R422). -/
def State.copyReserved (s : State) (bs : List Byte) : Bool := match parseDesc bs with
  | some d => (List.range d.count).any fun i => s.reservedVa (d.at i).2 || s.reservedVa (addrPlus (d.at i).2 (2 ^ d.elog2 - 1))
  | none => false

/-- The checks of one packet's or node's own work, a graph's nodes aside. -/
def State.checkWork (s : State) (c : Ctx) (inIb : Bool) (w : Work) : Check :=
  match w with
  | .nop => .pass
  | .unassigned => .fault 3 none
  | .launch r _ => s.checkRead c r 128 fun _ => .pass
  | .pipe p => s.checkPipe c p
  | .copy d => s.checkRead c d 208 fun bs => checkIf (s.copyReserved bs) 9
  | .signal op va _ => s.checkWord va 8 (decide (op ≤ 2)) true
  | .wait cmp va _ => s.checkWord va 8 (decide (cmp ≤ 3)) false
  | .write lg va _ => s.checkWord va (2 ^ lg) true true
  | .ib va n => checkIf (inIb || n == 0 || decide (65536 < n) || decide (va.toNat % 64 ≠ 0)) 4
  | .cond cmp va _ _ _ _ => s.checkWord va 8 (decide (cmp ≤ 3)) false
  | .hring rd _ _ =>
    (checkIf (decide (rd.toNat % 64 ≠ 0) || !(isMC (vaHome rd))) 8).and ((checkIf (s.reservedVa rd) 9).and
      (s.checkRead c rd 64 fun bs =>
        let n := natOfBytes bs
        checkIf (!(isHost (vaHome (BitVec.ofNat 64 (bitsOf n 0 64)))) || decide (bitsOf n 128 5 = 0) || decide (16 < bitsOf n 128 5)) 8))
  | .graph t n => checkIf (n == 0 || decide (t.toNat % 64 ≠ 0)) 5

/-- The address of a node. -/
def nodeVa (table : Word) (i : Nat) : Word := addrPlus table (64 * i)

/-- The checks of one node of a table of `n` (SUB 5, and those of its work). -/
def State.checkNode (s : State) (c : Ctx) (table : Word) (n i : Nat) : Check :=
  s.checkRead c (nodeVa table i) 64 fun bs =>
    let w := nodeWork bs
    let far (x : Nat) : Bool := x != 0xFFFF && decide (n ≤ x)
    let range : Bool := match w with
      | .cond _ _ _ first last exit => far first || far last || far exit || decide (last < first)
      | _ => false
    (checkIf (w == .unassigned || (nodeSuccs bs).any far || range) 5).and (s.checkWork c false w)

/-- The checks of a packet. -/
def State.checkPacket (s : State) (c : Ctx) (inIb : Bool) (w : Work) : Check :=
  (s.checkWork c inIb w).and (match w with
    | .graph t n => checkAll ((List.range n).map fun i => s.checkNode c t n i)
    | _ => .pass)

/-! ## Queues (R287, R288, R292) -/

/-- The cluster that owns a queue. -/
def State.qOwner (s : State) (q : Nat) : Nat := if 4096 ≤ q then (q - 4096) / 16 else s.qfieldD q 176 9

/-- The scheduler core that serves a queue now: its owner's, or the adopter of a failed one (R429). -/
def State.qServer (s : State) (q : Nat) : Option Nat := s.coreFor 17 (s.qOwner q)

/-- The context of the accesses that a queue's packets make themselves (R294). -/
def State.qCtx (s : State) (q : Nat) : Ctx := { schedCtx (BitVec.ofNat 16 (s.qfieldD q 240 16)) with cls := s.qfieldD q 160 6 }

/-- A capability fault (R426): the queue halts, and a KIND 17 record is logged. -/
def State.capFault (s : State) (q k sub : Nat) : State :=
  (s.modQueue q fun x => { x with halted := true }).logRec 17 k (2 ^ 16 * q + sub) 0 0 1

/-- SUB 1 of R425. -/
def State.queueBad (s : State) (q : Nat) : Bool :=
  let lg := s.qfieldD q 128 5
  decide (lg < 4) || decide (20 < lg) || s.qfieldD q 0 12 != 0 || decide (383 < s.qfieldD q 176 9)
    || (s.qfieldD q 203 1 == 1) != decide (4096 ≤ q)

/-- The packet that a queue's scheduler core would take next. -/
inductive Head where
  | none
  | fault (sub : Nat) (saw : Option (Ctx × Word))
  | later (c : Ctx) (va : Word)
  | pk (parent : Option Nat) (bytes : List Byte)
deriving DecidableEq, Repr

/-- The IB packet of a queue whose buffer still has packets to take. -/
def State.openIb (s : State) (q : Nat) : Option (Nat × Packet × Word) := s.packets.findSome? fun p =>
  if p.2.queue = q ∧ p.2.started then
    match packetWork p.2.bytes with
    | .ib va n => if p.2.parent.isNone ∧ p.2.ibNext < n then some (p.1, p.2, va) else none
    | _ => none
  else none

/-- Whether every earlier packet of the queue has completed, the IB that a packet belongs to aside. -/
def State.queueCalm (s : State) (q : Nat) (parent : Option Nat) : Bool := s.packets.all fun p => p.2.queue != q || parent == some p.1

/-- A packet that has SERIAL set waits (R292). -/
def State.serialOk (s : State) (q : Nat) (parent : Option Nat) (bs : List Byte) : Head :=
  if bitsOf (natOfBytes bs) 8 1 = 1 ∧ !(s.queueCalm q parent) then .none else .pk parent bs

/-- The next packet of a queue. In host-assisted mode a scheduler core runs only the software queues that are mapped (R27). -/
def State.headPacket (s : State) (q : Nat) : Head :=
  let st := s.queue q
  if st.halted || st.block.isSome || !s.qtValid then .none
  else
    match s.readBytes (schedCtx 0#16) (s.qtVa (64 * q)) 64 with
    | .fail _ _ va => .fault 2 (some (schedCtx 0#16, va))
    | .later va => .later (schedCtx 0#16) va
    | .got _ =>
      let c := s.qCtx q
      match s.openIb q with
      | some (id, p, va) =>
        if s.queueBad q then .fault 1 none
        else
        (match s.readBytes c (addrPlus va (64 * p.ibNext)) 64 with
          | .fail _ _ a => .fault 2 (some (c, a))
          | .later a => .later c a
          | .got bs => s.serialOk q (some id) bs)
      | none =>
        let rd := s.qfieldD q 64 32
        if rd = s.qfieldD q 96 32 ∨ (s.duty 2 ∧ q < 4096 ∧ s.qfieldD q 200 1 = 0) then .none
        else if s.queueBad q then .fault 1 none
        else
          match s.readBytes c (addrPlus (BitVec.ofNat 64 (s.qfieldD q 0 64)) (64 * (rd % 2 ^ s.qfieldD q 128 5))) 64 with
          | .fail _ _ a => .fault 2 (some (c, a))
          | .later a => .later c a
          | .got bs => s.serialOk q none bs

/-- The absolute tag and NODL of a packet that is taken now (R281, R294): an IB's packets have the IB's. -/
def State.packetTag (s : State) (q : Nat) (parent : Option Nat) (bs : List Byte) : BitVec 16 × Bool :=
  match parent.bind fun i => tget s.packets i with
  | some p => (p.tag, p.nodl)
  | none =>
    let dlovr := bitsOf (natOfBytes bs) 16 16
    let rel := if dlovr = 0 then s.qfieldD q 144 16 else dlovr
    (BitVec.ofNat 16 (s.tagNow + (if rel = 0 then 0x7FFF else rel)), rel == 0)

/-- How a queue's head packet stands in the dispatch of a scheduler core (R282, R284, R286): conforming in its queue's class, its
tag, whether it does not conform and has waited for the ageing time of 8,192 N-cycles, and since when it waits. -/
structure HeadRank where
  conforming : Bool
  tag : Nat
  aged : Bool
  since : Nat

/-- The rank of a queue's head packet with core `k`; `none` where no packet can be taken. -/
def State.headRank (s : State) (k q : Nat) : Option HeadRank := match s.headPacket q with
  | .pk parent bs =>
    let t := s.packetTag q parent bs
    let st := s.queue q
    let own := (s.judge (siteOfHome k) (s.qfieldD q 160 6) 64).1
    let aged : Bool := !own && decide (st.headSince + 8192 ≤ s.ncyc)
    some
      { conforming := aged || own
        tag := if aged then (s.tagNow + 0xC000) % 65536 else s.effTag t.1 t.2
        aged := aged
        since := st.headSince }
  | _ => none

/-- Head `a` goes before head `b`. -/
def headBefore (a b : HeadRank) : Bool :=
  (a.conforming && !b.conforming)
    || (a.conforming == b.conforming
      && (tagEarlier a.tag b.tag
        || (!(tagEarlier b.tag a.tag) && ((a.aged && !b.aged) || (a.aged && b.aged && decide (a.since < b.since))))))

/-- No other queue that the core knows of has a head packet that goes first. -/
def State.headFirst (s : State) (k q : Nat) : Bool := match s.headRank k q with
  | some r => !(s.queues.any fun p => p.1 != q && s.qServer p.1 == some k && (match s.headRank k p.1 with
    | some b => headBefore b r
    | none => false))
  | none => true

/-- What a packet's event finds: a state that it leaves, or the packet to perform. -/
inductive Selected where
  | leave (s : State)
  | go (k : Nat) (parent : Option Nat) (bytes : List Byte) (w : Work) (c : Ctx)

/-- The packet at the head of the queue, checked; a capability fault halts the queue whatever packet was expected. -/
def State.selectPacket (s : State) (q : Nat) : Selected :=
  match s.qServer q with
  | none => .leave s
  | some k =>
    match s.headPacket q with
    | .none => .leave s
    | .fault sub saw => .leave ((s.sawAt saw).capFault q k sub)
    | .later c va => .leave (s.unitMiss c .load va)
    | .pk parent bs =>
      let c := s.qCtx q
      let w := packetWork bs
      if !(s.headFirst k q) then .leave s
      else match s.checkPacket c parent.isSome w with
      | .pass => .go k parent bs w c
      | .fault sub saw => .leave ((s.sawAt saw).capFault q k sub)
      | .later c2 va => .leave (s.unitMiss c2 .load va)

/-- A scheduler core journals a packet before it takes any step of it (R431): its 64 bytes in the core's journal. The format is the
firmware's, and this one the model's choice (log 160). -/
def State.journal (s : State) (k id : Nat) (bs : List Byte) : State := s.qtWrite (0x400000 + 0x2000 * k + 64 * (id % 128)) bs

/-- Takes a packet (R294 step 1), once it stands in the journal: its absolute tag, and RDIDX or the buffer's next index. The request
for it takes its token of the queue's class (R284). -/
def State.takePacket (s : State) (q : Nat) (parent : Option Nat) (bs : List Byte) : Nat × State :=
  let s0 := match s.qServer q with
    | some k => ((s.judge (siteOfHome k) (s.qfieldD q 160 6) 64).2).journal k s.nextId bs
    | none => s
  let (id, s1) := s0.fresh
  let rd := s.qfieldD q 64 32
  let own := s.packetTag q parent bs
  let p : Packet :=
    { queue := q
      index := match parent.bind fun i => tget s.packets i with
        | some b => b.ibNext
        | none => rd
      bytes := bs
      tag := own.1
      nodl := own.2
      parent := parent
      ibNext := 0
      ibOpen := 0
      finished := false
      started := true
      failed := false
      gate := none }
  let s2 : State := { s1.modQueue q (fun x => { x with headSince := s.ncyc }) with packets := tset s1.packets id p }
  match parent with
  | some i => (id, { s2 with packets := tmod s2.packets i fun x => { x with ibNext := x.ibNext + 1, ibOpen := x.ibOpen + 1 } })
  | none => (id, (s2.qput q 64 32 (rd + 1)).modQueue q fun x => { x with emptySince := s.ncyc })

/-- A packet that was refused finishes, and never counts as LATE (R427). -/
def State.refusePacket (s : State) (pk : Nat) : State := { s with packets := tmod s.packets pk fun p => { p with failed := true } }

/-- The work of a packet or node is done, or has been refused. -/
def State.refuseFor (s : State) (d : GridFor) : State := match d with
  | .packet pk => (s.refusePacket pk).finishFor d
  | d => s.finishFor d

/-! ## Work (R294) -/

/-- The bank adds, writes or takes the maximum of a signal word, for a scheduler core. -/
def signalNew (op old v : Nat) : Nat :=
  if op = 0 then v
  else if op = 1 then (old + v) % 2 ^ 64
  else if (BitVec.ofNat 64 old).toInt ≤ (BitVec.ofNat 64 v).toInt then v else old

/-- Queues with a packet that watches this line and which are not mapped have their wake latch set (R291). -/
def State.wakeLatch (s : State) (key : Nat) : State :=
  s.watches.foldl (fun (t : State) w =>
    if w.2.line = key / 64 then
      match w.2.pk.bind fun i => tget t.packets i with
      | some p => if t.qfieldD p.queue 200 1 = 0 ∨ t.qfieldD p.queue 202 1 = 1 then t.qput p.queue 201 1 1 else t
      | none => t
    else t) s

/-- A write of a scheduler core to one word: nothing where it must wait, else the state after it, or after its failure (which
ends at step 4 of R377). -/
def State.unitStore (s : State) (c : Ctx) (k : Nat) (kind : AccKind) (va : Word) (w : Nat) (f : Nat → Nat) (d : GridFor) : State :=
  match s.unitKey c kind va w with
  | .ok key => ((((s.unitSpend c kind va w).putNat key w (f (s.natAt key w))).wakeLatch key)).finishFor d
  | .error (some (cause, sub)) => (s.unitMiss c kind va).failPk k d cause sub 0 va
  | .error none => s

/-- Whether a word is in reach: the address that is not, otherwise. -/
def State.unreached (s : State) (c : Ctx) (kind : AccKind) (va : Word) (w : Nat) : Bool := match s.unitKey c kind va w with
  | .error none => true
  | _ => false

/-- The engine that runs a copy (R294): engine 0 of the cluster whose homes hold the destination, else of the owner's. -/
def copyEngine (k : Nat) (dst : Word) : Nat :=
  let h := vaHome dst
  if isCC h then 4 * h else if isMC h then 4 * (2 * (h - 0x180)) else 4 * k

/-- Gives a copy to its engine. -/
def State.giveCopy (s : State) (e : Nat) (c : Ctx) (desc : Word) (tag : BitVec 16) (nodl : Bool) (d : GridFor) : State :=
  let (id, s1) := s.fresh
  s1.modEngine e fun cs => cs ++ [newCmd id (.desc desc) c (e / 4) (e / 4) tag nodl none d s.ncyc]

/-- A wait's test now: it finishes, or its line is watched. -/
def State.waitTest (s : State) (c : Ctx) (k cmp : Nat) (va v : Word) (pk : Option Nat) (node : Option (Nat × Nat)) (d : GridFor) : State :=
  match s.unitKey c .load va 8 with
  | .ok key =>
    if cmpHolds cmp (BitVec.ofNat 64 (s.natAt key 8)) v then (s.unitSpend c .load va 8).finishFor d
    else
      let (id, s1) := (s.unitSpend c .load va 8).fresh
      let w : Watch := ⟨va, key / 64, c.asid, pk, node, false⟩
      let s2 : State := { s1 with watches := tset s1.watches id w }
      (match pk.bind fun i => tget s2.packets i with
        | some p => s2.modQueue p.queue fun x => { x with block := pk }
        | none => s2)
  | .error (some (cause, sub)) => (s.unitMiss c .load va).failPk k d cause sub 0 va
  | .error none => s

/-- A pipeline's stages with their records and channels, read and checked before any is placed (R427). -/
inductive PipeGot where
  | ready (rounds : Nat) (stages : List (Word × Launch × Khdr × List (Nat × Nat × Nat)))
  | refused (rec_ : Word) (sub : Nat)
  | fault (c : Ctx) (va : Word)
  | later (c : Ctx) (va : Word)

/-- Reads a pipeline record's stages from number `i` on. -/
def State.readStages (s : State) (c : Ctx) (prec : Word) (rounds : Nat) : Nat → Nat → PipeGot
  | 0, _ => .ready rounds []
  | n + 1, i =>
    match s.readBytes c (addrPlus prec (64 + 64 * i)) 64 with
    | .fail _ _ va => .fault c va
    | .later va => .later c va
    | .got e =>
      let r := BitVec.ofNat 64 (natOfBytes (e.take 8))
      match s.readLaunch c c.asid r true with
      | .fault c2 va => .fault c2 va
      | .later c2 va => .later c2 va
      | .refused sub => .refused r sub
      | .ready l k =>
        match s.readStages c prec rounds n (i + 1) with
        | .ready rd l2 => .ready rd ((r, l, k, stageOuts e) :: l2)
        | x => x

/-- Reads a pipeline record. -/
def State.readPipe (s : State) (c : Ctx) (prec : Word) : PipeGot :=
  match s.readBytes c prec 64 with
  | .fail _ _ va => .fault c va
  | .later va => .later c va
  | .got hd => s.readStages c prec (bitsOf (natOfBytes hd) 32 32) (bitsOf (natOfBytes hd) 0 6 + 1) 0

/-- The tokens of the reads of a launch record and of its kernel header. -/
def State.launchSpend (s : State) (c : Ctx) (rec_ khdr : Word) : State := (s.unitSpend c .load rec_ 128).unitSpend c .load khdr 64

/-- Starts a pipeline (R300, R301): a grid for each stage, in State.pipes, with ROUNDS and the stage's output channels. Their blocks are
placed from the last stage to stage 0 (State.stageDue), a stage's ROUNDS stands at ARGP + 64, and a channel whose two ends are placed
is configured with SLOTS = ALLOW − 1 and EN = 1 and its address put at ARGP + 8i (State.openChannel). The harts of a stage begin only
once every output of it is configured (State.startable). -/
def State.startPipe (s : State) (asid : BitVec 16) (k : Nat) (prec : Word) (rounds : Nat)
    (stages : List (Word × Launch × Khdr × List (Nat × Nat × Nat))) (d : GridFor) : State :=
  let sched := schedCtx asid
  let (id, s1) := (stages.foldl (fun (t : State) x => t.launchSpend sched x.1 x.2.1.khdr) s).fresh
  let num := (List.range stages.length).zip stages
  let (grids, s2) := num.foldl (fun (acc : Table Nat × State) x =>
    let (i, r, l, h, _) := x
    let (g, t) := acc.2.newGrid asid r l h (.stage id) k
    (tset acc.1 i g, t)) (([] : Table Nat), s1)
  let run : PipeRun :=
    { prec := prec
      nstage := stages.length
      rounds := rounds
      outs := num.map fun x => (x.1, x.2.2.2.2)
      grids := grids
      configured := []
      started := []
      ended := 0
      asid := asid
      done := d
      failed := false }
  { s2 with pipes := tset s2.pipes id run }

/-! ## Packets -/

/-- DEVICE_LAUNCH_ENQUEUE (R254, R303): the scheduler core writes the launch's packet into its device queue, or refuses it. -/
def doDeviceLaunch (s : State) : State :=
  let o := s.subj
  s.whenReady o fun p t =>
    match p.kind with
    | .launch rec_ i =>
      let q := 4096 + 16 * p.cluster + i
      let refuse (u : State) : State :=
        ((u.modOp o fun x => { x with fo := ⟨5, 0⟩ }).opFail o 60 13 0 0#64).logRec 17 p.cluster (2 ^ 16 * q + 1) 0 0 1
      (match t.qServer q with
        | none => t
        | some _ =>
          if tget t.mod.downs p.ctx.asid.toNat = some t.ncyc then t.opDone o (statusWord false true 0)
          else if !t.qtValid then refuse t
          else
            (match t.readBytes (schedCtx 0#16) (t.qtVa (64 * q)) 64 with
              | .later va => t.unitMiss (schedCtx 0#16) .load va
              | .fail _ _ va => refuse (t.unitMiss (schedCtx 0#16) .load va)
              | .got _ =>
                if t.queueBad q then refuse t
                else
                  let wr := t.qfieldD q 96 32
                  let n := (wr + 2 ^ 32 - t.qfieldD q 64 32) % 2 ^ 32
                  let c := t.qCtx q
                  let va := addrPlus (BitVec.ofNat 64 (t.qfieldD q 0 64)) (64 * (wr % 2 ^ t.qfieldD q 128 5))
                  let body := 1 + 2 ^ 128 * rec_.toNat + 2 ^ 192 * p.ctx.asid.toNat + 2 ^ 208
                  if 2 ^ t.qfieldD q 128 5 ≤ n then t
                  else
                    (match t.unitKey c .store va 64 with
                      | .error none => t.unitMiss c .store va
                      | .error (some (cause, sub)) => ((t.unitMiss c .store va).modOp o fun x => { x with fo := ⟨5, 0⟩ }).opFail o cause sub 0 va
                      | .ok key =>
                        let t1 := ((t.putNat key 64 body).qput q 96 32 (wr + 1)).modQueue q fun x =>
                          { x with launches := x.launches ++ [o], headSince := if n = 0 then t.ncyc else x.headSince }
                        let t2 := if t1.qfieldD q 200 1 = 0 ∨ t1.qfieldD q 202 1 = 1 then t1.qput q 201 1 1 else t1
                        t2.modOp o fun x => { x with st := .waiting, since := t.ncyc })))
    | _ => t

/-- NOP: it completes at dispatch. -/
def doNop (s : State) : State :=
  match s.selectPacket s.subj with
  | .leave t => t
  | .go _ parent bs .nop _ => let (pk, s1) := s.takePacket s.subj parent bs
                              s1.finishFor (.packet pk)
  | _ => s

/-- The launch at the head of a device queue: its operation, if it still waits. -/
def State.deviceLaunch (s : State) (q : Nat) : Option (Option Nat) :=
  if q < 4096 then none
  else
    match (s.queue q).launches with
    | [] => none
    | o :: _ => some (match tget s.ops o with
      | some p => if p.st == .waiting then some o else none
      | none => none)

/-- A launch instruction's record has reached its scheduler core in this N-cycle: a tear-down that comes in it goes first (R435). -/
def State.justArrived (s : State) (dev : Option (Option Nat)) : Bool := match dev with
  | some (some o) => (match tget s.ops o with
    | some p => p.since == s.ncyc
    | none => false)
  | _ => false

/-- LAUNCHG: a grid from a launch record; a launch instruction's future completes when its packet is taken (R303), and a launch
that was cancelled before runs nothing (R222). -/
def doLaunchg (s : State) : State :=
  let q := s.subj
  match s.selectPacket q with
  | .leave t => t
  | .go k parent bs (.launch rec_ own) c =>
    let asid := own.getD c.asid
    let dev := s.deviceLaunch q
    if s.justArrived dev then s
    else
    let taken : Nat × State := s.takePacket q parent bs
    let pk := taken.1
    let s1 := if dev.isSome then taken.2.modQueue q fun x => { x with launches := x.launches.drop 1 } else taken.2
    if dev = some none then s1.refuseFor (.packet pk)
    else
      (match s.readLaunch c asid rec_ false with
        | .later c2 va => s.unitMiss c2 .load va
        | .fault c2 va => (s.unitMiss c2 .load va).capFault q k 2
        | .refused sub =>
          (match dev with
            | some (some o) => ((s1.modOp o fun x => { x with fo := ⟨5, 0⟩ }).opFail o 60 sub 0 0#64).refuseFor (.packet pk)
            | _ => (s1.refuseLaunch asid rec_ k sub).refuseFor (.packet pk))
        | .ready l h =>
          let (g, s2) := (s1.launchSpend c rec_ l.khdr).newGrid asid rec_ l h (.packet pk) k
          (match dev with
            | some (some o) => s2.opDone o (BitVec.ofNat 64 ((tget s2.grids g).map Grid.serial |>.getD 0))
            | _ => s2))
  | _ => s

/-- LAUNCHP: the stages of a pipeline (R300, R301), which State.startPipe starts. -/
def doLaunchp (s : State) : State :=
  let q := s.subj
  match s.selectPacket q with
  | .leave t => t
  | .go k parent bs (.pipe prec) c =>
    let (pk, s1) := s.takePacket q parent bs
    (match s.readPipe c prec with
      | .later c2 va => s.unitMiss c2 .load va
      | .fault c2 va => (s.unitMiss c2 .load va).capFault q k 2
      | .refused r sub => (s1.refuseLaunch c.asid r k sub).refuseFor (.packet pk)
      | .ready rounds st => s1.startPipe c.asid k prec rounds st (.packet pk))
  | _ => s

/-- Writes COUNT of a node. -/
def State.putCount (s : State) (c : Ctx) (table : Word) (i n : Nat) : State := s.unitWrite c (addrPlus (nodeVa table i) 4) 2 n

/-- PREDS of a node as memory holds it. -/
def State.predsOf (s : State) (c : Ctx) (table : Word) (i : Nat) : Nat := match s.unitRead c (addrPlus (nodeVa table i) 2) 2 with
  | .ok v => v
  | .error _ => 0

/-- GRAPH: COUNT := PREDS in every node, and the nodes without predecessors are launched. -/
def doGraph (s : State) : State :=
  let q := s.subj
  match s.selectPacket q with
  | .leave t => t
  | .go _ parent bs (.graph table n) c =>
    (match (List.range n).find? fun i => s.unreached c .store (nodeVa table i) 64 with
      | some i => s.unitMiss c .store (nodeVa table i)
      | none =>
        let (pk, s1) := s.takePacket q parent bs
        let (g, s2) := s1.fresh
        let s3 := (List.range n).foldl (fun (t : State) i => t.putCount c table i (t.predsOf c table i)) s2
        let first := (List.range n).filter fun i => s.predsOf c table i == 0
        let run : GraphRun := ⟨pk, table, n, first.map fun i => (i, NodeSt.launched), false⟩
        if first.isEmpty then s3.finishFor (.packet pk) else { s3 with graphs := tset s3.graphs g run })
  | _ => s

/-- COPY. -/
def doCopyPacket (s : State) : State :=
  let q := s.subj
  match s.selectPacket q with
  | .leave t => t
  | .go k parent bs (.copy desc) c =>
    (match s.readBytes c desc 16 with
      | .got hd =>
        let e := copyEngine k (BitVec.ofNat 64 (natOfBytes (hd.drop 8)))
        if s.engineRoom e then
          let (pk, s1) := s.takePacket q parent bs
          (match tget s1.packets pk with
            | some p => s1.giveCopy e c desc p.tag p.nodl (.packet pk)
            | none => s1)
        else s
      | _ => s)
  | _ => s

/-- SIGNAL of one OP. -/
def doSignal (op : Nat) (s : State) : State :=
  let q := s.subj
  match s.selectPacket q with
  | .leave t => t
  | .go k parent bs (.signal o va v) c =>
    if o ≠ op then s
    else if s.unreached c .bank va 8 then s.unitMiss c .bank va
    else
      let (pk, s1) := s.takePacket q parent bs
      s1.unitStore c k .bank va 8 (fun old => signalNew op old v.toNat) (.packet pk)
  | _ => s

/-- WAITSIG: it blocks every later packet of its queue until its word satisfies the comparison. -/
def doWaitsig (s : State) : State :=
  let q := s.subj
  match s.selectPacket q with
  | .leave t => t
  | .go k parent bs (.wait cmp va v) c =>
    if s.unreached c .load va 8 then s.unitMiss c .load va
    else
      let (pk, s1) := s.takePacket q parent bs
      s1.waitTest c k cmp va v (some pk) none (.packet pk)
  | _ => s

/-- WRITE. -/
def doWrite (s : State) : State :=
  let q := s.subj
  match s.selectPacket q with
  | .leave t => t
  | .go k parent bs (.write lg va v) c =>
    if s.unreached c .store va (2 ^ lg) then s.unitMiss c .store va
    else
      let (pk, s1) := s.takePacket q parent bs
      s1.unitStore c k .store va (2 ^ lg) (fun _ => v.toNat) (.packet pk)
  | _ => s

/-- IB: its packets run before the next packet of the queue. -/
def doIb (s : State) : State :=
  match s.selectPacket s.subj with
  | .leave t => t
  | .go _ parent bs (.ib _ _) _ => (s.takePacket s.subj parent bs).2
  | _ => s

/-- The packet's work is done; for an IB, every packet of its buffer has completed. -/
def Packet.complete (p : Packet) : Bool := match packetWork p.bytes with
  | .ib _ n => p.finished || (p.ibNext == n && p.ibOpen == 0)
  | _ => p.finished

/-- Adds 1 at the bank to a completion counter, if there is one. -/
def State.addCsig (s : State) (c : Ctx) (k : Nat) (a : Word) : State :=
  if a = 0#64 then s
  else
    match s.unitKey c .bank a 8 with
    | .ok key => ((s.unitSpend c .bank a 8).putNat key 8 (s.natAt key 8 + 1)).wakeLatch key
    | .error (some (cause, sub)) => (s.unitMiss c .bank a).reportLog k ⟨failWord ⟨5, 0⟩ cause sub 0, a, true, 0⟩
    | .error none => s

/-- The port sends a slot's completion interrupt, or owes it (R320). -/
def State.slotInterrupt (s : State) (i : Nat) : State :=
  let x := s.slot i
  if !x.en then s
  else
    let free : Bool := match x.last with
      | some t => decide (t + usN ≤ s.ncyc)
      | none => true
    if free then
      let s1 := s.modSlot i fun y => { y with last := some s.ncyc, owed := false }
      { s1 with irqs := s1.irqs ++ [(i / 64, x.vec)] }
    else s.modSlot i fun y => { y with owed := true }

/-- What a release of a scheduler core waits for (R99, R294, R297, R299; log 129): at .md every entry of its cluster that is older. At .sys the
completion of a PCIe read also follows the posted writes, which are performed as they are sent; so both wait for the same. -/
def State.coreGate (s : State) (k : Nat) (_sys : Bool) : List Nat := (s.pbOf k).map Prod.fst

/-- PACKET_COMPLETE (R294 steps 3 and 4). -/
def doPacketComplete (s : State) : State :=
  let pk := s.subj
  match tget s.packets pk with
  | none => s
  | some p =>
    let q := p.queue
    match s.qServer q with
    | none => s
    | some k =>
      if !p.complete then s
      else
        let c := s.qCtx q
        let gate := p.gate.getD (s.coreGate k (bitsOf (natOfBytes p.bytes) 9 1 == 1))
        if !(s.gateClear gate) then
          { s.drain gate with packets := tmod s.packets pk fun x => { x with gate := some gate } }
        else
        let csig := BitVec.ofNat 64 (bitsOf (natOfBytes p.bytes) 64 64)
        let qsig := if p.parent.isSome then 0#64 else BitVec.ofNat 64 (s.qfieldD q 320 64)
        match [csig, qsig].find? fun a => a != 0#64 && s.unreached c .bank a 8 with
        | some a => s.unitMiss c .bank a
        | none =>
          let s1 := (s.addCsig c k csig).addCsig c k qsig
          let s2 : State := { s1 with packets := tdel s1.packets pk }
          let s3 := s2.modQueue q fun x => { x with block := if x.block = some pk then none else x.block }
          match p.parent with
          | some i => { s3 with packets := tmod s3.packets i fun x => { x with ibOpen := x.ibOpen - 1 } }
          | none =>
            let late : Bool := !p.nodl && !p.failed && tagEarlier p.tag.toNat s.tagNow
            let s4 := s3.qput q 288 32 (s3.qfieldD q 288 32 + 1)
            let s5 := if late then s4.qput q 256 32 (s4.qfieldD q 256 32 + 1) else s4
            (match (List.range nSlots).find? fun i => (s5.slot i).queue == some q with
              | some i => s5.slotInterrupt i
              | none => s5)

/-! ## Command graphs (R296 to R298) -/

/-- The queue and the context of a graph's nodes. -/
def State.graphCtx (s : State) (g : GraphRun) : Option (Packet × Nat × Ctx) :=
  (tget s.packets g.pk).bind fun p => (s.qServer p.queue).map fun k => (p, k, s.qCtx p.queue)

/-- Changes a graph's nodes. -/
def State.modGraph (s : State) (gi : Nat) (f : GraphRun → GraphRun) : State := { s with graphs := tmod s.graphs gi f }

/-- A graph with no node left ends: its packet is done, or, if a node faulted, its queue halts at the packet, which stands at RDIDX or,
inside an IB, at the buffer's next index (R426). -/
def State.graphEnd (s : State) (gi : Nat) : State :=
  match tget s.graphs gi with
  | none => s
  | some g =>
    if !g.nodes.isEmpty then s
    else
      let s1 : State := { s with graphs := tdel s.graphs gi }
      if !g.failed then s1.finishFor (.packet g.pk)
      else
        match tget s1.packets g.pk with
        | none => s1
        | some p =>
          let s2 : State := { s1 with packets := tdel s1.packets g.pk }
          let s3 := match p.parent with
            | some i =>
              { s2 with packets := tmod s2.packets i fun b => { b with ibNext := p.index, ibOpen := b.ibOpen - 1 } }
            | none => s2.qput p.queue 64 32 p.index
          s3.modQueue p.queue fun x => { x with halted := true }

/-- A graph faults at a node: it launches no further node (R426). -/
def State.graphFault (s : State) (gi q k sub : Nat) : State :=
  ((s.modGraph gi fun g => { g with failed := true, nodes := g.nodes.filter fun n => n.2 != NodeSt.launched }).logRec 17 k
    (2 ^ 16 * q + sub) 0 0 1).graphEnd gi

/-- Runs a launched node: its checks again, then its work. -/
def runNode (gi i : Nat) (act : Work → Packet → Nat → Ctx → State → State) (s : State) : State :=
  match tget s.graphs gi with
  | none => s
  | some g =>
    match s.graphCtx g with
    | none => s
    | some (p, k, c) =>
      if tget g.nodes i ≠ some .launched then s
      else
        match s.checkNode c g.table g.nnodes i with
        | .fault sub saw => (s.sawAt saw).graphFault gi p.queue k sub
        | .later c2 va => s.unitMiss c2 .load va
        | .pass =>
          match s.readBytes c (nodeVa g.table i) 64 with
          | .got bs => act (nodeWork bs) p k c s
          | _ => s

/-- The node works: the read of its entry has taken its tokens. -/
def State.nodeWorks (s : State) (c : Ctx) (gi i : Nat) : State := match tget s.graphs gi with
  | some g => (s.unitSpend c .load (nodeVa g.table i) 64).modGraph gi fun g => { g with nodes := tset g.nodes i .working }
  | none => s

/-- KERN. -/
def doKern (i : Nat) (s : State) : State :=
  runNode s.subj i (fun w p k c t =>
    match w with
    | .launch rec_ _ =>
      (match t.readLaunch c c.asid rec_ false with
        | .later c2 va => t.unitMiss c2 .load va
        | .fault c2 va => (t.unitMiss c2 .load va).graphFault t.subj p.queue k 2
        | .refused sub => ((t.nodeWorks c t.subj i).refuseLaunch c.asid rec_ k sub).finishFor (.node t.subj i)
        | .ready l h => (((t.nodeWorks c t.subj i).launchSpend c rec_ l.khdr).newGrid c.asid rec_ l h (.node t.subj i) k).2)
    | _ => t) s

/-- PIPE. -/
def doPipeNode (i : Nat) (s : State) : State :=
  runNode s.subj i (fun w p k c t =>
    match w with
    | .pipe prec =>
      (match t.readPipe c prec with
        | .later c2 va => t.unitMiss c2 .load va
        | .fault c2 va => (t.unitMiss c2 .load va).graphFault t.subj p.queue k 2
        | .refused r sub => ((t.nodeWorks c t.subj i).refuseLaunch c.asid r k sub).finishFor (.node t.subj i)
        | .ready rounds st => (t.nodeWorks c t.subj i).startPipe c.asid k prec rounds st (.node t.subj i))
    | _ => t) s

/-- COPY as a node. -/
def doCopyNode (i : Nat) (s : State) : State :=
  runNode s.subj i (fun w p k c t =>
    match w with
    | .copy desc =>
      (match t.readBytes c desc 16 with
        | .got hd =>
          let e := copyEngine k (BitVec.ofNat 64 (natOfBytes (hd.drop 8)))
          if t.engineRoom e then (t.nodeWorks c t.subj i).giveCopy e c desc p.tag p.nodl (.node t.subj i) else t
        | _ => t)
    | _ => t) s

/-- SIGNAL as a node. -/
def doSignalNode (i : Nat) (s : State) : State :=
  runNode s.subj i (fun w _ k c t =>
    match w with
    | .signal op va v =>
      if t.unreached c .bank va 8 then t.unitMiss c .bank va
      else (t.nodeWorks c t.subj i).unitStore c k .bank va 8 (fun old => signalNew op old v.toNat) (.node t.subj i)
    | _ => t) s

/-- WAIT. -/
def doWaitNode (i : Nat) (s : State) : State :=
  runNode s.subj i (fun w _ k c t =>
    match w with
    | .wait cmp va v =>
      if t.unreached c .load va 8 then t.unitMiss c .load va
      else (t.nodeWorks c t.subj i).waitTest c k cmp va v none (some (t.subj, i)) (.node t.subj i)
    | _ => t) s

/-- JOIN: it finishes at once. -/
def doJoin (i : Nat) (s : State) : State :=
  runNode s.subj i (fun w _ _ c t =>
    match w with
    | .nop => (t.nodeWorks c t.subj i).finishFor (.node t.subj i)
    | _ => t) s

/-- Decrements COUNT of a node and launches it at 0. -/
def State.decNode (s : State) (gi : Nat) (c : Ctx) (table : Word) (i : Nat) : State :=
  if i = 0xFFFF then s
  else
    let va := addrPlus (nodeVa table i) 4
    match s.unitRead c va 2 with
    | .ok n =>
      let m := (n + 65535) % 65536
      let s1 := s.unitWrite c va 2 m
      if m = 0 then s1.modGraph gi fun g => { g with nodes := tset g.nodes i .launched } else s1
    | .error _ => s

/-- NODE_FINISH (R297): the release, and the successors in SUCC0 to SUCC3 order. -/
def doNodeFinish (i : Nat) (s : State) : State :=
  let gi := s.subj
  match tget s.graphs gi with
  | none => s
  | some g =>
    match s.graphCtx g with
    | none => s
    | some (p, k, c) =>
      let gate : Option (List Nat) := match tget g.nodes i with
        | some .finished => some (s.coreGate k false)
        | some (.releasing l) => some l
        | _ => none
      match gate with
      | none => s
      | some l =>
      if !(s.gateClear l) then (s.drain l).modGraph gi fun x => { x with nodes := tset x.nodes i (.releasing l) }
      else if g.failed then (s.modGraph gi fun x => { x with nodes := tdel x.nodes i }).graphEnd gi
      else
        match s.readBytes c (nodeVa g.table i) 64 with
        | .later va => s.unitMiss c .load va
        | .fail _ _ va =>
          ((s.unitMiss c .load va).modGraph gi fun x => { x with nodes := tdel x.nodes i }).graphFault gi p.queue k 2
        | .got bs =>
          let succs := (nodeSuccs bs).filter fun x => decide (x < g.nnodes)
          match succs.find? fun x => s.unreached c .store (nodeVa g.table x) 8 with
          | some x => s.unitMiss c .store (nodeVa g.table x)
          | none =>
            let s1 := s.modGraph gi fun x => { x with nodes := tdel x.nodes i }
            (succs.foldl (fun (t : State) x => t.decNode gi c g.table x) s1).graphEnd gi

/-- COND (R298): once no other node of the range runs, its read and its re-arm are one step. -/
def doCond (i : Nat) (s : State) : State :=
  runNode s.subj i (fun w _ k c t =>
    let gi := t.subj
    match w, tget t.graphs gi with
    | .cond cmp va v first last exit, some g =>
      let others : Bool := g.nodes.any fun n => n.1 != i && decide (first ≤ n.1) && decide (n.1 ≤ last)
      let range := (List.range g.nnodes).filter fun j => decide (first ≤ j) && decide (j ≤ last)
      if others then t
      else
        (match t.unitKey c .load va 8, range.find? fun j => t.unreached c .store (nodeVa g.table j) 8 with
          | .error none, _ => t.unitMiss c .load va
          | _, some j => t.unitMiss c .store (nodeVa g.table j)
          | .error (some (cause, sub)), _ =>
            (((t.unitMiss c .load va).reportLog k ⟨failWord ⟨5, 0⟩ cause sub 0, va, true, 0⟩).modGraph gi fun x => { x with nodes := tdel x.nodes i }).graphEnd gi
          | .ok key, none =>
            let t1 := (t.unitSpend c .load va 8).modGraph gi fun x => { x with nodes := tdel x.nodes i }
            if cmpHolds cmp (BitVec.ofNat 64 (t.natAt key 8)) v then
              let t2 := range.foldl (fun (u : State) j => u.putCount c g.table j (u.predsOf c g.table j)) t1
              (if first < g.nnodes then t2.modGraph gi fun x => { x with nodes := tset x.nodes first .launched } else t2).graphEnd gi
            else if exit < g.nnodes ∧ t.unreached c .store (nodeVa g.table exit) 8 then t.unitMiss c .store (nodeVa g.table exit)
            else (if exit < g.nnodes then t1.decNode gi c g.table exit else t1).graphEnd gi)
    | _, _ => t) s

/-! ## Host rings (R299) -/

/-- The fields of a host ring's descriptor, from its 64 bytes as a number. -/
structure Hring where
  base : Word
  wr : Nat
  rd : Nat
  log : Nat
  vec : Nat
  coaln : Nat
  coalt : Nat
  pend : Nat
  irqs : Nat

/-- Reads a descriptor. -/
def hringOf (n : Nat) : Hring :=
  { base := BitVec.ofNat 64 (bitsOf n 0 64)
    wr := bitsOf n 64 32
    rd := bitsOf n 96 32
    log := bitsOf n 128 5
    vec := bitsOf n 144 11
    coaln := bitsOf n 160 16
    coalt := bitsOf n 176 16
    pend := bitsOf n 192 32
    irqs := bitsOf n 224 32 }

/-- Sends a ring's vector: PEND becomes 0 and IRQS rises; its timer is over. -/
def State.hringIrq (s : State) (key : Nat) (rdesc : Word) (asid : BitVec 16) : State :=
  let h := hringOf (s.natAt key 64)
  let s1 := (s.putNat (key + 24) 4 0).putNat (key + 28) 4 (h.irqs + 1)
  { s1 with
    irqs := s1.irqs ++ [(vaHome h.base - 0x3F0, h.vec)]
    timers := s1.timers.filter fun t => !(t.2.rdesc == rdesc && t.2.asid == asid) }

/-- Step 3 and 4 of R299, once the release is done: WRIDX and PEND rise, and the vector is sent where it is due. -/
def State.hringRaise (s : State) (gi i : Nat) (c : Ctx) (rdesc : Word) (flush : Bool) (key : Nat) : State :=
  let h := hringOf (s.natAt key 64)
  let pend := (h.pend + 1) % 2 ^ 32
  let s2 := (s.putNat (key + 8) 4 (h.wr + 1)).putNat (key + 24) 4 pend
  let s3 : State :=
    if pend = 1 ∧ h.coalt ≠ 0 then
      let (id, t) := s2.fresh
      let tm : HrTimer := ⟨rdesc, c.asid, s.ncyc + h.coalt * usN⟩
      { t with timers := tset (t.timers.filter fun x => !(x.2.rdesc == rdesc && x.2.asid == c.asid)) id tm }
    else s2
  let send : Bool := decide (max 1 h.coaln ≤ pend) || (flush && decide (0 < pend))
  (if send then s3.hringIrq key rdesc c.asid else s3).finishFor (.node gi i)

/-- A node has written its entry of a ring and has not raised WRIDX yet. -/
def State.hringBusy (s : State) (key : Nat) : Bool := s.graphs.any fun g => g.2.nodes.any fun n => match n.2 with
  | .publishing k _ => k == key
  | _ => false

/-- One entry is appended and released, or the node waits for room and watches the descriptor's line. Where it can do neither now,
`back` says what stays. -/
def State.hringGo (s : State) (gi i k : Nat) (c : Ctx) (rdesc src : Word) (flush : Bool) (back : State → State) : State :=
  match s.unitKey c .store rdesc 64 with
  | .error none => back (s.unitMiss c .store rdesc)
  | .error (some (cause, sub)) => ((s.unitMiss c .store rdesc).nodeWorks c gi i).failPk k (.node gi i) cause sub 0 rdesc
  | .ok key =>
    let h := hringOf (s.natAt key 64)
    if s.hringBusy key then back s
    else if (h.wr + 2 ^ 32 - h.rd) % 2 ^ 32 = 2 ^ h.log then
      let (id, s1) := (s.nodeWorks c gi i).fresh
      let w : Watch := ⟨rdesc, key / 64, c.asid, none, some (gi, i), false⟩
      { s1 with watches := tset s1.watches id w }
    else
      let dst := addrPlus h.base (32 * (h.wr % 2 ^ h.log))
      match s.readBytes c src 24, s.unitKey c .store dst 32 with
      | .later va, _ => back (s.unitMiss c .load va)
      | _, .error none => back (s.unitMiss c .store dst)
      | .fail cause sub va, _ => ((s.unitMiss c .load va).nodeWorks c gi i).failPk k (.node gi i) cause sub 0 va
      | _, .error (some (cause, sub)) => ((s.unitMiss c .store dst).nodeWorks c gi i).failPk k (.node gi i) cause sub 0 dst
      | .got bs, .ok dk =>
        let s1 := ((((s.nodeWorks c gi i).unitSpend c .load rdesc 64).unitSpend c .load src 24).unitSpend c .store dst 32).putMem dk ((bs ++ bytesOfNat 8 (h.wr + 1)).map some)
        let gate := s1.coreGate k true
        if s1.gateClear gate then s1.hringRaise gi i c rdesc flush key
        else (s1.drain gate).modGraph gi fun x => { x with nodes := tset x.nodes i (.publishing key gate) }

/-- An HRING node whose entry is written goes on once its release is done. -/
def State.hringGoOn (s : State) (gi i key : Nat) (gate : List Nat) : State :=
  match (tget s.graphs gi).bind fun g => (s.graphCtx g).map fun x => (g, x) with
  | none => s
  | some (g, _, k, c) =>
    if !(s.gateClear gate) then s
    else
      match s.readBytes c (nodeVa g.table i) 64 with
      | .later va => s.unitMiss c .load va
      | .fail cause sub va => (s.unitMiss c .load va).failPk k (.node gi i) cause sub 0 va
      | .got bs => match nodeWork bs with
        | .hring rd _ flush => s.hringRaise gi i c rd flush key
        | _ => s.finishFor (.node gi i)

/-- HRING. -/
def doHring (i : Nat) (s : State) : State :=
  match (tget s.graphs s.subj).bind fun g => tget g.nodes i with
  | some (.publishing key gate) => s.hringGoOn s.subj i key gate
  | _ => runNode s.subj i (fun w _ k c t =>
    match w with
    | .hring rd src flush => t.hringGo t.subj i k c rd src flush fun u => u
    | _ => t) s

/-- HRING_COALESCE_TIMER. -/
def doHringTimer (s : State) : State :=
  match tget s.timers s.subj with
  | none => s
  | some t =>
    if s.ncyc < t.due then s
    else
      let c := schedCtx t.asid
      match s.unitKey c .store t.rdesc 64 with
      | .error none => s.unitMiss c .store t.rdesc
      | .error (some _) => { s.unitMiss c .store t.rdesc with timers := tdel s.timers s.subj }
      | .ok key =>
        if (hringOf (s.natAt key 64)).pend = 0 then { s with timers := tdel s.timers s.subj }
        else s.hringIrq key t.rdesc t.asid

/-- WATCHED_LINE_NOTICE: the bank has told the scheduler core of a write to a line it watches, and the condition is tested
again. -/
def doWatched (s : State) : State :=
  let id := s.subj
  match tget s.watches id with
  | none => s
  | some w =>
    if !w.noticed then s
    else
      let off : State := { s with watches := tdel s.watches id }
      let still : State := { s with watches := tmod s.watches id fun x => { x with noticed := false } }
      match w.pk, w.node with
      | some pk, _ =>
        (match tget s.packets pk with
          | none => off
          | some p =>
            (match packetWork p.bytes, s.unitRead (s.qCtx p.queue) w.va 8 with
              | .wait cmp _ v, .ok n => (if cmpHolds cmp (BitVec.ofNat 64 n) v then off.finishFor (.packet pk) else still).unitSpend (s.qCtx p.queue) .load w.va 8
              | .wait _ _ _, .error none => s.unitMiss (s.qCtx p.queue) .load w.va
              | .wait _ _ _, .error (some (cause, sub)) =>
                (off.unitMiss (s.qCtx p.queue) .load w.va).failPk (s.qOwner p.queue) (.packet pk) cause sub 0 w.va
              | _, _ => off))
      | none, some (gi, i) =>
        (match (tget s.graphs gi).bind fun g => (s.graphCtx g).map fun x => (g, x) with
          | none => off
          | some (g, _, k, c) =>
            (match s.readBytes c (nodeVa g.table i) 64 with
              | .later va => s.unitMiss c .load va
              | .fail cause sub va => (off.unitMiss c .load va).failPk k (.node gi i) cause sub 0 va
              | .got bs =>
                (match nodeWork bs, s.unitRead c w.va 8 with
                  | .wait cmp _ v, .ok n => (if cmpHolds cmp (BitVec.ofNat 64 n) v then off.finishFor (.node gi i) else still).unitSpend c .load w.va 8
                  | .wait _ _ _, .error none => s.unitMiss c .load w.va
                  | .wait _ _ _, .error (some (cause, sub)) => (off.unitMiss c .load w.va).failPk k (.node gi i) cause sub 0 w.va
                  | .hring rd src flush, _ =>
                    off.hringGo gi i k c rd src flush fun t => { t with watches := tset t.watches id w }
                  | _, _ => off.finishFor (.node gi i))))
      | none, none => off

/-! ## Host slots (R289 to R291, R320, R426) -/

/-- The queue's record is in reach of the scheduler cores. -/
def State.recordReady (s : State) (q : Nat) : Bool := s.qtValid && !(s.unreached (schedCtx 0#16) .store (s.qtVa (64 * q)) 64)

/-- A queue holds packets. -/
def State.hasPackets (s : State) (q : Nat) : Bool := s.qfieldD q 64 32 != s.qfieldD q 96 32

/-- In hardware mode (R27, R290) a scheduler core maps, of its software queues with packets, the one whose head has the earliest tag; ties go to
the higher PRIO, then to the lower number. -/
def State.mapFirst (s : State) (q : Nat) : Bool :=
  let tag (i : Nat) : Option Nat := match s.headPacket i with
    | .pk parent bs => let t := s.packetTag i parent bs
                       some (s.effTag t.1 t.2)
    | _ => none
  let before (i : Nat) : Bool := match tag i, tag q with
    | some a, some b =>
      let pa := s.qfieldD i 168 2
      let pb := s.qfieldD q 168 2
      tagEarlier a b || (!(tagEarlier b a) && (decide (pb < pa) || (pa == pb && decide (i < q))))
    | some _, none => true
    | none, _ => false
  s.hasPackets q && !((List.range 4096).any fun i => i != q && s.hasPackets i && s.qfieldD i 200 1 == 0
    && s.qServer i == s.qServer q && before i)

/-- A queue's scheduler core is woken: it knows of the queue from now on. -/
def State.wakeOwner (s : State) (q : Nat) : State :=
  if (tget s.queues q).isSome then s else s.modQueue q fun x => { x with emptySince := s.ncyc, headSince := s.ncyc }

/-- The slot's earlier queue is forgotten. -/
def Slot.bind (x : Slot) (q : Nat) : Slot := { x with queue := some q, leaving := none }

/-- MAP_QUEUE (R290): the owner of a queue with packets, or with its wake latch set, is woken. -/
def doMap (slot : Nat) (s : State) : State :=
  let q := s.subj
  if !(s.recordReady q) then (if s.qtValid then s.unitMiss (schedCtx 0#16) .store (s.qtVa (64 * q)) else s)
  else if (s.slot slot).queue.isSome || s.qfieldD q 200 1 == 1 || s.qfieldD q 202 1 == 1 then s
  else if !(s.duty 2) && (decide (4096 ≤ q) || !(s.mapFirst q)) then s
  else
    let s1 := ((s.modSlot slot fun x => x.bind q).qput q 200 1 1).qput q 192 8 slot
    if s.qfieldD q 201 1 = 1 ∨ s.hasPackets q then (s1.qput q 201 1 0).wakeOwner q else s1

/-- Whether some other queue with packets waits for a slot. -/
def State.slotWanted (s : State) (q : Nat) : Bool := (List.range 4096).any fun i =>
  i != q && s.qfieldD i 200 1 == 0 && s.hasPackets i

/-- UNMAP_QUEUE (R290). Step 1 unbinds the slot; in hardware mode the queue has been empty for 100 µs and another waits. Step 3
follows at the queue's next such event, once the writes that the slot accepted have been applied. -/
def doUnmap (s : State) : State :=
  let q := s.subj
  if !(s.recordReady q) || s.qfieldD q 200 1 == 0 then s
  else if s.qfieldD q 202 1 = 1 then
    let i := s.qfieldD q 192 8
    ((s.modSlot i fun x => if x.leaving = some (q, none) then { x with leaving := some (q, some s.ncyc) } else x).qput q 200 1 0).qput q 202 1 0
  else
    let idle : Bool := s.qfieldD q 64 32 == s.qfieldD q 96 32 && decide ((s.queue q).emptySince + 100 * usN ≤ s.ncyc) && s.slotWanted q
    if !(s.duty 2) && !idle then s
    else
      let i := s.qfieldD q 192 8
      (s.modSlot i fun x => if x.queue = some q then { x with queue := none, leaving := some (q, none) } else x).qput q 202 1 1

/-- The queue that a write to a slot names: the mapped one, or one whose unmap is under way or does its step 3 in this N-cycle
(R291). -/
def State.slotQueue (s : State) (i : Nat) : Option Nat := match (s.slot i).queue, (s.slot i).leaving with
  | some q, _ => some q
  | none, some (q, none) => some q
  | none, some (q, some t) => if t = s.ncyc then some q else none
  | none, none => none

/-- WIDX_WRITE (R289): a write to a slot that maps no queue is discarded; any other wakes the queue's owner. -/
def doWidx (n : Nat) (s : State) : State :=
  match s.slotQueue s.subj with
  | none => s
  | some q =>
    if !(s.recordReady q) then (if s.qtValid then s.unitMiss (schedCtx 0#16) .store (s.qtVa (64 * q)) else s)
    else
      let s1 := ((s.qput q 96 32 n).wakeOwner q).modQueue q fun x => { x with headSince := if s.hasPackets q then x.headSince else s.ncyc }
      if s1.qfieldD q 202 1 = 1 ∨ s1.qfieldD q 200 1 = 0 then s1.qput q 201 1 1 else s1

/-- QCTL on a queue whose record must be in reach (R426). -/
def State.qctlOn (s : State) (cl q : Nat) (skip : Bool) : State :=
  if s.recordReady q then s.qctl cl q skip
  else if s.qtValid then s.unitMiss (schedCtx 0#16) .store (s.qtVa (64 * q))
  else s

/-- QCTL_SKIP. -/
def doQctlSkip (q : Nat) (s : State) : State := s.qctlOn s.subj q true
/-- QCTL_RECHECK. -/
def doQctlRecheck (q : Nat) (s : State) : State := s.qctlOn s.subj q false

/-- DOORBELL_INTERRUPT: the interrupt owed at the end of the slot's µs. -/
def doDoorbell (s : State) : State :=
  let i := s.subj
  let x := s.slot i
  match x.owed, x.last with
  | true, some t => if t + usN ≤ s.ncyc then s.slotInterrupt i else s
  | _, _ => s

/-! ## Consistent cuts (R308) -/

/-- The input mailboxes of a stage, as (window, mailbox). -/
def State.stageInputs (s : State) (r : PipeRun) (st : Nat) : List (Nat × Nat) :=
  match (s.stageBlock r st).bind fun b => (b.2.groups.head?.bind fun g => tget s.groups g) with
  | none => []
  | some g => (r.outs.map fun o => (o.2.filter fun c => c.1 == st).map fun c => (g.win, c.2.1)).foldr (· ++ ·) []

/-- A stage that no channel leads to; stage 0 where every stage has one. -/
def PipeRun.isSource (r : PipeRun) (st : Nat) : Bool :=
  let fed (i : Nat) : Bool := r.outs.any fun o => o.2.any fun c => c.1 == i
  !(fed st) || (st == 0 && (List.range r.nstage).all fed)

/-- Cut markers have arrived in every input mailbox of a stage. -/
def State.cutArrived (s : State) (r : PipeRun) (st : Nat) : Bool :=
  r.isSource st || (s.stageInputs r st).all fun m => (s.hiddenFrom m.1 m.2).isSome

/-- Sends a cut marker to a mailbox for a stopped stage of window `sw`: it waits there as a send does. -/
def State.sendMarker (s : State) (k sw w m : Nat) : State :=
  let image := slotImage (s.nsAt k) 0 (winNum sw) (winHome sw) cutUser []
  let ahead : Bool := (s.window w).sends.any fun p => p.1 == m
  if cRoom (s.conf w m) && !ahead then s.deliver w m image 0#16
  else
    let (id, s1) := s.fresh
    let o : Op :=
      { hart := 0
        kind := .msg (addrPlus (winBase w) (0x40000 + 8 * m)) false image 0 0#16
        st := .waiting
        fo := noForm
        how := .status
        scope := .sys
        ctx := schedCtx 0#16
        gate := []
        drained := true
        tag := 0#16
        nodl := true
        cluster := k
        win := sw
        since := s.ncyc
        inj := none
        beta := none }
    let s2 : State := { s1 with ops := tset s1.ops id o }
    s2.waitSend id w m image (addrPlus (winBase w) (0x40000 + 8 * m)) false 0 0#16

/-- Sends the cut markers of a stage's output channels. -/
def State.sendMarkers (s : State) (r : PipeRun) (st : Nat) : State :=
  match (s.stageBlock r st).bind fun b => (b.2.groups.head?.bind fun g => tget s.groups g).map fun g => (b.1.owner, g.win) with
  | none => s
  | some (k, sw) => ((tget r.outs st).getD []).foldl (fun (t : State) c =>
    match (t.stageBlock r c.1).bind fun b => (b.2.groups.head?.bind fun g => tget t.groups g) with
    | some g => t.sendMarker k sw g.win c.2.1
    | none => t) s

/-- The messages of a mailbox from HEAD to TAIL: their 256 bytes and tag. -/
def State.mboxMessages (s : State) (w m : Nat) : List (List Byte × BitVec 16) :=
  let v := s.conf w m
  (List.range ((cTail v + 256 - cHead v) % 256)).filterMap fun i =>
    (s.granKey w 17 (0x800 * m + 0x100 * ((cHead v + i) % 8))).map fun k => (s.bytesAt k 256, s.tagAt k)

/-- USER of a slot image. -/
def imageUser (b : List Byte) : Nat := natOfBytes ((b.drop 12).take 4)

/-- Removes the cut markers of a mailbox and releases what they hid, in its order of delivery. -/
def State.dropMarkers (s : State) (w m : Nat) : State :=
  let keep := (s.mboxMessages w m).filter fun x => imageUser x.1 != cutUser
  let v := s.conf w m
  let late := (s.window w).sends.filter fun p => p.1 == m && (match tget s.ops p.2 with
    | some o => (match o.kind with
      | .msg _ _ im _ _ => imageUser im == cutUser
      | _ => false)
    | none => false)
  let s1 := late.foldl (fun (t : State) p => (t.unwaitSend w p.2).dropOp p.2) s
  let s2 := ((List.range keep.length).zip keep).foldl (fun (t : State) x =>
    match t.granKey w 17 (0x800 * m + 0x100 * ((cHead v + x.1) % 8)) with
    | some k => (t.putMem k (x.2.1.map some)).setTags4 k x.2.2
    | none => t) s1
  (s2.putConf w m (putBits (s2.conf w m) 24 8 (cHead v + keep.length))).modWindow w fun x =>
    { x with hidden := x.hidden.filter fun p => p.1 != m }

/-- A block is off its cores, or has ended. -/
def blockStopped (b : Block) : Bool := b.status == .absent || b.status == .done || b.status == .ready

/-- Goes on with a pipeline's cut: stages whose inputs all have markers are stopped, and stopped stages send theirs. -/
def State.cutStages (s : State) (id : Nat) (r : PipeRun) : State :=
  (List.range r.nstage).foldl (fun (t : State) st =>
    match tget t.cuts id, t.stageBlock r st with
    | some c, some (gr, b) =>
      if c.stopped.contains st || !(t.cutArrived r st) then t
      else if blockStopped b then
        let t1 := t.sendMarkers r st
        { t1 with cuts := tmod t1.cuts id fun x => { x with stopped := x.stopped ++ [st] } }
      else
        (match gr.blocks.head? with
          | some bi => if b.status == .placed then t.beginSwap bi else t
          | none => t)
    | _, _ => t) s

/-- Stops the blocks of a grid. -/
def State.cutGrid (s : State) (g : Grid) : State := g.blocks.foldl (fun (t : State) bi =>
  match tget t.blocks bi with
  | some b => if b.status == .placed then t.beginSwap bi else t
  | none => t) s

/-- CONSISTENT_CUT: the scheduler cores begin a job's cut, go on with it, or restart the job once it is complete. -/
def doCut (s : State) : State :=
  let id := s.subj
  match tget s.cuts id, tget s.grids id, tget s.pipes id with
  | none, some g, _ =>
    (match g.done with
      | .stage _ => s
      | _ => if g.ended < g.launch.bpg then ({ s with cuts := tset s.cuts id ⟨some id, none, []⟩ }).cutGrid g else s)
  | none, none, some r =>
    if (List.range r.nstage).all fun st => (s.stageBlock r st).isSome then
      ({ s with cuts := tset s.cuts id ⟨none, some id, []⟩ }).cutStages id r
    else s
  | some _, some g, _ =>
    if g.blocks.all fun bi => match tget s.blocks bi with
        | some b => blockStopped b
        | none => true then { s with cuts := tdel s.cuts id }
    else s.cutGrid g
  | some c, none, some r =>
    if c.stopped.contains (r.nstage - 1) then
      let ms := ((List.range r.nstage).map fun st => s.stageInputs r st).foldr (· ++ ·) []
      { ms.foldl (fun (t : State) m => t.dropMarkers m.1 m.2) s with cuts := tdel s.cuts id }
    else s.cutStages id r
  | _, none, none => s

/-! ## The events -/

/-- DEVICE_LAUNCH_ENQUEUE. -/
def execDeviceLaunchEnqueue (s : State) : Host.Outcome State Fault Refusal := .next (doDeviceLaunch s)
/-- NOP. -/
def execNop (s : State) : Host.Outcome State Fault Refusal := .next (doNop s)
/-- LAUNCHG. -/
def execLaunchg (s : State) : Host.Outcome State Fault Refusal := .next (doLaunchg s)
/-- LAUNCHP. -/
def execLaunchp (s : State) : Host.Outcome State Fault Refusal := .next (doLaunchp s)
/-- GRAPH. -/
def execGraph (s : State) : Host.Outcome State Fault Refusal := .next (doGraph s)
/-- COPY. -/
def execCopy (s : State) : Host.Outcome State Fault Refusal := .next (doCopyPacket s)
/-- SIGNAL, OP 0 (R293). -/
def execSignalWrite (s : State) : Host.Outcome State Fault Refusal := .next (doSignal 0 s)
/-- SIGNAL, OP 1 (R293). -/
def execSignalAdd (s : State) : Host.Outcome State Fault Refusal := .next (doSignal 1 s)
/-- SIGNAL, OP 2 (R293). -/
def execSignalMax (s : State) : Host.Outcome State Fault Refusal := .next (doSignal 2 s)
/-- WAITSIG. -/
def execWaitsig (s : State) : Host.Outcome State Fault Refusal := .next (doWaitsig s)
/-- WRITE. -/
def execWrite (s : State) : Host.Outcome State Fault Refusal := .next (doWrite s)
/-- IB. -/
def execIb (s : State) : Host.Outcome State Fault Refusal := .next (doIb s)
/-- PACKET_COMPLETE. -/
def execPacketComplete (s : State) : Host.Outcome State Fault Refusal := .next (doPacketComplete s)
/-- WATCHED_LINE_NOTICE. -/
def execWatchedLineNotice (s : State) : Host.Outcome State Fault Refusal := .next (doWatched s)
/-- KERN. -/
def execKern (node : Nat) (s : State) : Host.Outcome State Fault Refusal := .next (doKern node s)
/-- PIPE. -/
def execPipe (node : Nat) (s : State) : Host.Outcome State Fault Refusal := .next (doPipeNode node s)
/-- COPY as a node. -/
def execCopyNode (node : Nat) (s : State) : Host.Outcome State Fault Refusal := .next (doCopyNode node s)
/-- COND. -/
def execCond (node : Nat) (s : State) : Host.Outcome State Fault Refusal := .next (doCond node s)
/-- SIGNAL as a node. -/
def execSignalNode (node : Nat) (s : State) : Host.Outcome State Fault Refusal := .next (doSignalNode node s)
/-- HRING. -/
def execHring (node : Nat) (s : State) : Host.Outcome State Fault Refusal := .next (doHring node s)
/-- WAIT. -/
def execWait (node : Nat) (s : State) : Host.Outcome State Fault Refusal := .next (doWaitNode node s)
/-- JOIN. -/
def execJoin (node : Nat) (s : State) : Host.Outcome State Fault Refusal := .next (doJoin node s)
/-- NODE_FINISH. -/
def execNodeFinish (node : Nat) (s : State) : Host.Outcome State Fault Refusal := .next (doNodeFinish node s)
/-- HRING_COALESCE_TIMER. -/
def execHringCoalesceTimer (s : State) : Host.Outcome State Fault Refusal := .next (doHringTimer s)
/-- MAP_QUEUE. -/
def execMapQueue (slot : Nat) (s : State) : Host.Outcome State Fault Refusal := .next (doMap slot s)
/-- UNMAP_QUEUE. -/
def execUnmapQueue (s : State) : Host.Outcome State Fault Refusal := .next (doUnmap s)
/-- WIDX_WRITE, behind what the slot's port has received earlier (R115). -/
def execWidxWrite (n : Nat) (s : State) : Host.Outcome State Fault Refusal :=
  .next (if s.hostBehind (s.subj / 64) then s else doWidx n s)
/-- QCTL_SKIP. -/
def execQctlSkip (q : Nat) (s : State) : Host.Outcome State Fault Refusal := .next (doQctlSkip q s)
/-- QCTL_RECHECK. -/
def execQctlRecheck (q : Nat) (s : State) : Host.Outcome State Fault Refusal := .next (doQctlRecheck q s)
/-- DOORBELL_INTERRUPT. -/
def execDoorbellInterrupt (s : State) : Host.Outcome State Fault Refusal := .next (doDoorbell s)
/-- CONSISTENT_CUT. -/
def execConsistentCut (s : State) : Host.Outcome State Fault Refusal := .next (doCut s)

end Sys2Proof.Machine
end

