-- ==== Sys2Proof/Machine/EvHost.lean ====
section
/-! DEFINITION. What a host and S-mode software do through the edge chiplets (R7, R26, R28, R287, R314, R315, R320 to R324, R390):
register writes, the host service ring, page migration and the apertures. -/

namespace Sys2Proof.Machine

open Sys2Proof

/-! ## Registers -/

/-- The edge chiplets have authenticated their firmware, and so answer at their registers (R328). -/
def State.edgeUp (s : State) : Bool := s.boot.verified

/-- Every site is READY, so that hosts' other requests are served (R328). -/
def State.hostUp (s : State) : Bool := s.modState == 6

/-- The edge chiplets accept a register write now. It comes from `src`: 0 is software or firmware, `1 + p` a host through the BAR2 of
port `p`, whose writes are performed in order of receipt (R115, R320). -/
def State.edgeFree (s : State) (src : Nat) : Bool := s.edgeUp && (src == 0 || !(s.hostBehind (src - 1)))

/-- MDUTY_WRITE. -/
def doMdutyWrite (w : Word) (s : State) : State := if s.edgeFree s.subj then s.mdutyWrite w else s
/-- QTBASE_WRITE. -/
def doQtbaseWrite (w : Word) (s : State) : State := if s.edgeFree s.subj then s.qtbaseWrite w else s
/-- NSTDATA_WRITE. Every flit injected before has been delivered when the change is accepted (R107). -/
def doNstdataWrite (w : Word) (s : State) : State := if s.edgeFree s.subj then s.nstdataWrite w else s

/-- A write to a doorbell page or to the MSI-X table of port `p` (R320). -/
def State.bar0Write (s : State) (p off : Nat) (w : Word) : State :=
  if off < 0x40000 then
    let i := 64 * p + off / 0x1000
    if off % 0x1000 = 0 then doWidx (bitsOf w.toNat 0 32) { s with subj := i }
    else if off % 0x1000 = 8 then s.modSlot i fun x => { x with en := w.getLsbD 11, vec := bitsOf w.toNat 0 11 }
    else s
  else if 0x100000 ≤ off ∧ off < 0x108000 then
    s.modMod fun m => { m with msix := tset m.msix (4096 * p + (off - 0x100000) / 8) w }
  else s

/-- What a host reads of the BAR0 of port `p` (R320). No interrupt stays pending in the part, and so the pending-bit array reads 0
(log 132). -/
def State.bar0Read (s : State) (p off : Nat) : Nat :=
  if off < 0x40000 then
    let x := s.slot (64 * p + off / 0x1000)
    if off % 0x1000 = 0 then (match x.queue with
      | some q => s.qfieldD q 64 32
      | none => 0)
    else if off % 0x1000 = 8 then 2 ^ 11 * b2n x.en + x.vec
    else 0
  else if 0x100000 ≤ off ∧ off < 0x108000 then (tgetD s.mod.msix (4096 * p + (off - 0x100000) / 8) 0#64).toNat
  else 0

/-- The doublewords of an access, with what it writes of each: `none` leaves a byte. -/
def dwordsOf (off : Nat) (data : List Byte) : List (Nat × List (Option Byte)) :=
  (List.range ((off % 8 + data.length + 7) / 8)).map fun i =>
    (off / 8 * 8 + 8 * i, (List.range 8).map fun j => if 8 * i + j < off % 8 then none else data[8 * i + j - off % 8]?)

/-- A doubleword with the bytes written replaced. -/
def mergeWord (old : Nat) (bs : List (Option Byte)) : Word :=
  BitVec.ofNat 64 (natOfBytes (((bytesOfNat 8 old).zip bs).map fun q => q.2.getD q.1))

/-- The bytes of registers that an access reads, doubleword by doubleword. -/
def regBytes (read : Nat → Nat) (off len : Nat) : List Byte :=
  ((((List.range ((off % 8 + len + 7) / 8)).map fun i => bytesOfNat 8 (read (off / 8 * 8 + 8 * i))).foldr (· ++ ·) []).drop
    (off % 8)).take len

/-- A request that is not served, before READY or in recovery mode: Unsupported Request to a read, a write discarded (R328, R440). -/
def State.hostNone (s : State) (p : Nat) (wr : Bool) : State := if wr then s else s.hostSay p .unsupported

/-- A host's access to BAR0 of port `p`, or to the recovery window: performed doubleword by doubleword (log 157). The low half of a
doorbell page's first doubleword is WIDX, and a write elsewhere in it rings no doorbell. -/
def State.bar0Access (s : State) (p off : Nat) (wr : Bool) (data : List Byte) : State :=
  if wr then (dwordsOf off data).foldl (fun (t : State) q =>
      if q.1 < 0x40000 ∧ q.1 % 0x1000 = 0 ∧ (q.2.take 4).all Option.isNone then t
      else t.bar0Write p q.1 (mergeWord (t.bar0Read p q.1) q.2)) s
  else s.hostSay p (.data (regBytes (s.bar0Read p) off data.length) false)

/-- A host's access to the recovery window (R440). -/
def State.recAccess (s : State) (p off : Nat) (wr : Bool) (data : List Byte) : State :=
  if wr then (dwordsOf off data).foldl (fun (t : State) q => t.recWrite q.1 (mergeWord (t.recRead q.1) q.2)) s
  else s.hostSay p (.data (regBytes s.recRead off data.length) false)

/-- A host's access to an edge register through BAR2: one that is not an aligned 8-byte access fails (R315, R390). -/
def State.bar2Access (s : State) (p off : Nat) (wr : Bool) (data : List Byte) : State :=
  if off % 8 ≠ 0 ∨ data.length ≠ 8 then s.hostFail p wr
  else if wr then s.edgeWrite (off / 0x20000) (off % 0x20000) (BitVec.ofNat 64 (natOfBytes data))
  else s.hostSay p (.data (bytesOfNat 8 (s.edgeRead (off / 0x20000) (off % 0x20000))) false)

/-- A host's access to BAR0 or, with `two`, to BAR2 of a port (R320, R328). In recovery mode the BAR2 of the booting edge's port alone
answers (R440); a frozen part answers reads through BAR2, and Completer Abort to others (R445). A port's accesses are performed in
order of receipt (R115). -/
def State.barAccess (s : State) (two : Bool) (off : Nat) (wr : Bool) (data : List Byte) : State :=
  let p := s.subj
  if s.boot.recovery then (if two ∧ p = s.bootingEdge / 4 then s.recAccess p off wr data else s.hostNone p wr)
  else if s.frozen.isSome then
    (if two ∧ wr = false ∧ off % 8 = 0 ∧ data.length = 8 then s.bar2Access p off wr data
    else if wr then s else s.hostSay p .abort)
  else if !s.edgeUp || (!two && !s.hostUp) then s.hostNone p wr
  else if s.hostBehind p then s
  else if two then s.bar2Access p off wr data
  else s.bar0Access p off wr data

/-! ## Configuration space (R319) -/

/-- The doublewords of a host port's configuration space that identify its function, at the places of the PCIe header (log 130):
device and vendor, class and revision, subsystem. -/
def State.pcieConfig (s : State) (off : Nat) : Nat :=
  if off = 0x00 then 2 ^ 16 * 0xB024 + 0x1E6D
  else if off = 0x08 then 2 ^ 8 * 0x120000 + Config.silRev.toNat % 256
  else if off = 0x2C then 2 ^ 16 * (if s.gib = 16 then 0x0C16 else 0x0C12) + 0x1E6D
  else 0

/-- MSI-X vectors of a host port's function. -/
def msixVectors : Nat := 2048

/-- Where BAR2 stands beside BAR0 among the offsets of a host home's register writes. -/
def bar2At : Nat := 0x200000

/-- REGISTER_WRITE: an aligned 8-byte write to a register of the home named: an edge home's, a home control block's, and for a host
home 0x3F0 + p one that port `p` receives, at its BAR0 or from `bar2At` on at its BAR2. -/
def doRegisterWrite (off : Nat) (w : Word) (s : State) : State :=
  let h := s.subj
  if off % 8 ≠ 0 then s
  else if isHost h then
    (if off < 2 * bar2At then
      { s with subj := h - 0x3F0 }.barAccess (decide (bar2At ≤ off)) (off % bar2At) true (bytesOfNat 8 w.toNat)
    else s)
  else if isEdge h then (if s.edgeUp && decide (off < 0x20000) then s.edgeWrite (h - 0x240) off w else s)
  else if isCC h || isMC h then (if off < 0x100000 then s.ctlWrite h off w false else s)
  else s

/-- HSCMD with OP 1. -/
def doHscmdSwap (w : Word) (s : State) : State := if s.edgeFree s.subj ∧ bitsOf w.toNat 0 4 = 1 then s.hscmd w else s
/-- HSCMD with OP 2. -/
def doHscmdLeave (w : Word) (s : State) : State := if s.edgeFree s.subj ∧ bitsOf w.toNat 0 4 = 2 then s.hscmd w else s

/-- DIR of the request in PGREQ. -/
def State.pgreqDir (s : State) : Nat := bitsOf (tgetD s.mod.pgreq 2 0#64).toNat 42 1

/-- A write of PGREQ's last dword submits the request. -/
def State.pgreqWrite (s : State) (w : Word) : State := (s.modMod fun m => { m with pgreq := tset m.pgreq 3 w }).pgreqSubmit

/-- PGREQ with DIR 0. -/
def doPgreqToHost (w : Word) (s : State) : State := if s.edgeFree s.subj ∧ s.pgreqDir = 0 then s.pgreqWrite w else s
/-- PGREQ with DIR 1. -/
def doPgreqToDevice (w : Word) (s : State) : State := if s.edgeFree s.subj ∧ s.pgreqDir = 1 then s.pgreqWrite w else s

/-! ## Page migration (R89, R324) -/

/-- SUB of a page whose translation fails for a migration (R389): nothing where a leaf is found. -/
def State.pageSub (s : State) (home : Nat) (asid : BitVec 16) (off : Nat) : Option Nat :=
  match s.leafAt home asid off with
  | .none => some 12
  | .bad sub _ => some sub
  | .leaf _ _ _ => none

/-- The location of a frame's first byte. -/
def frameBase (home : Nat) (loc : Bool) (hport frame log : Nat) : Nat :=
  let a := 2 ^ 16 * frame / 2 ^ log * 2 ^ log
  if loc then hostKey hport a else dramKey (nearMc home) a

/-- HTLBINV for one page. -/
def State.dropLeaf (s : State) (home : Nat) (asid : BitVec 16) (off log : Nat) : State := s.modHome home fun h =>
  { h with tlb := h.tlb.filter fun t => !(t.asid == asid && off / 2 ^ log == t.base * 2 ^ t.log / 2 ^ log) }

/-- The completion of a migration: a KIND 4 posting with STATUS. -/
def State.pgDone (s : State) (id : Nat) (m : PgMig) (status : Nat) : State :=
  ({ s with pgMigs := tdel s.pgMigs id }).post 4 (serviceCluster (vaHome m.va))
    ((bytesOfNat 8 m.note.toNat ++ bytesOfNat 8 m.va.toNat ++ bytesOfNat 4 status ++ List.replicate 12 0#8).take 32)

/-- Copies a page to its new frame, keeping tags: those of a host frame are its leaf's TAGDEF. -/
def State.movePage (s : State) (home : Nat) (m : PgMig) (leaf log : Nat) : State :=
  let e := BitVec.ofNat 64 leaf
  let src := frameBase home (leafLoc e) (bitsOf leaf 10 2) (bitsOf leaf 12 30) log
  let dst := frameBase home m.loc m.hport m.frame log
  if src = dst then s
  else
    let tagOf (loc : Bool) : Option (BitVec 16) := if loc then some (leafTagdef e) else none
    s.copyRange src (tagOf (leafLoc e)) dst (tagOf m.loc) (2 ^ log)

/-- PAGE_MIGRATION: the handler's next step of a transfer in progress. -/
def doPageMigration (s : State) : State :=
  let id := s.subj
  match tget s.pgMigs id with
  | none => s
  | some m =>
    let home := vaHome m.va
    let off := vaOff m.va
    if !(s.coreServes (serviceCluster home)) then s
    else if m.step ≠ 0 then (if s.gateClear m.gate then s.pgDone id m 0 else s)
    else if !(isCC home || isMC home) || !(s.homeValid home) then s.pgDone id m (2 + 1)
    else if inWindowSpace m.va || decide (ctlBase ≤ off) then s.pgDone id m (2 + 3)
    else
      match s.pageSub home m.asid off, s.leafAt home m.asid off with
      | some sub, _ => (s.noteTable home sub).pgDone id m (2 + sub)
      | none, .none | none, .bad _ _ => s.pgDone id m (2 + 12)
      | none, .leaf p e log =>
        let leaf := e.toNat
        let dst := 2 ^ 16 * m.frame / 2 ^ log * 2 ^ log
        if (bitsOf leaf 7 1 == 1) != m.toDevice then s.pgDone id m 1
        else if m.move && !m.loc && decide (s.dramBytes < dst + 2 ^ log) then s.pgDone id m (2 + 5)
        else
          let s1 := if m.move then s.movePage home m leaf log else s
          let framed := if m.move then
            putBits (putBits (putBits leaf 12 30 m.frame) 10 2 m.hport) 9 1 (b2n m.loc) else leaf
          let s2 := (s1.putNat (dramKey (nearMc home) p) 8 (putBits framed 7 1 (b2n (!m.toDevice)))).dropLeaf home m.asid off log
          if m.toDevice then
            let page := 2 ^ 16 * bitsOf off 16 31 + 2 ^ 48 * m.asid.toNat
            (s2.hmissDone home (BitVec.ofNat 64 page)).pgDone id m 0
          else
            let gate := (s2.pb.filter fun e => e.2.cluster == serviceCluster home && e.2.live).map Prod.fst
            let s3 := s2.drain gate
            { s3 with pgMigs := tset s3.pgMigs id { m with step := 1, gate := gate } }

/-! ## The host service ring (R322) -/

/-- The ring's LOG2N, EN and VEC. -/
def State.hsLog (s : State) : Nat := bitsOf s.mod.hsctl 0 5

/-- The ring can take an entry. -/
def State.hsRoom (s : State) : Bool :=
  bitsOf s.mod.hsctl 8 1 == 1 && decide (1 ≤ s.hsLog) && decide (s.hsLog ≤ 16)
    && (s.mod.hswr + 2 ^ 32 - s.mod.hsrd) % 2 ^ 32 != 2 ^ s.hsLog

/-- Sends the ring's vector on the host port of HSBASE's home; there is none where HSBASE names another home (log 133). -/
def State.hsSend (s : State) : State :=
  let s1 := s.modMod fun m => { m with hsLast := some s.ncyc, hsOwed := false }
  if isHost (vaHome s.mod.hsbase) then
    { s1 with irqs := s1.irqs ++ [(vaHome s.mod.hsbase - 0x3F0, bitsOf s.mod.hsctl 16 11)] }
  else s1

/-- The µs after the ring's last interrupt is over. -/
def State.hsFree (s : State) : Bool := match s.mod.hsLast with
  | some t => decide (t + usN ≤ s.ncyc)
  | none => true

/-- HS_POST: the oldest posting is written into the ring. -/
def doHsPost (s : State) : State :=
  match s.mod.postings with
  | [] => s
  | p :: rest =>
    if !(s.hsRoom) then s
    else
      let n := s.mod.hswr
      let body := (p.body ++ List.replicate 32 0#8).take 32
      let bytes := bytesOfNat 4 p.kind ++ bytesOfNat 2 p.src ++ List.replicate 10 0#8 ++ body ++ List.replicate 8 0#8
        ++ bytesOfNat 8 (n + 1)
      let a := addrPlus s.mod.hsbase (64 * (n % 2 ^ s.hsLog))
      let s1 := s.unitSend (schedCtx 0#16) a (.store (bytes.map some) none)
      let s2 := s1.modMod fun m => { m with hswr := (n + 1) % 2 ^ 32, postings := rest }
      if s2.hsFree then s2.hsSend else s2.modMod fun m => { m with hsOwed := true }

/-- HS_INTERRUPT: the interrupt owed at the end of the µs. -/
def doHsInterrupt (s : State) : State := if s.mod.hsOwed && s.hsFree then s.hsSend else s

/-! ## Apertures (R321, R390) -/

/-- APERn of port `p`. -/
def State.aper (s : State) (p n : Nat) : Word := tgetD s.mod.apers (16 * p + n) 0#64
/-- MODE of an aperture, or nothing where it acts as disabled. -/
def aperMode (w : Word) : Option Nat := if w.getLsbD 0 ∧ bitsOf w.toNat 1 2 ≠ 3 then some (bitsOf w.toNat 1 2) else none
/-- VABASE. -/
def aperBase (w : Word) : Nat := bitsOf w.toNat 32 32

/-- The pieces of a host access, cut at lines. -/
def hostPieces : Nat → Word → List Byte → List (Word × List Byte)
  | 0, _, _ => []
  | f + 1, a, d =>
    if d.isEmpty then []
    else
      let k := min d.length (64 - a.toNat % 64)
      (a, d.take k) :: hostPieces f (addrPlus a k) (d.drop k)

/-- The pieces of a host's access. -/
def hostCut (a : Word) (d : List Byte) : List (Word × List Byte) := hostPieces (d.length / 64 + 2) a d

/-- A host port's request (R72). -/
def hostReq (va : Word) (n : Nat) (wr : Bool) (asid : BitVec 16) : Req :=
  ⟨va, n, if wr then .store else .load, schedCtx asid, false, false, true, false⟩

/-- One piece of a host's posted write reaches its home, which performs it, or holds it and performs it at the replay (R49, R115). -/
def State.hostWrite (s : State) (p : Nat) (asid : BitVec 16) (iface : Nat) (x : Word × List Byte) : State :=
  let q := hostReq x.1 x.2.length true asid
  let act : Piece := .store (x.2.map some) none
  match s.route q iface with
  | .at pl _ fill => (s.performAt pl fill q act none false).2
  | .miss pg => s.holdMiss pg q act (.host p) false
  | .behind pg why => s.holdBehind pg q act (.host p) false why
  | .rebind w g => s.holdBehind q.ownPage q act (.host p) false (.rebind w g)
  | .lost => s.holdLost q act (.host p) false iface
  | _ => s.holdBehind q.ownPage q act (.host p) false (.retry false)

/-- Performs the pieces of a host's read, all of which their homes can perform now. -/
def State.hostReads (s : State) (p : Nat) (asid : BitVec 16) (iface : Nat) : List (Word × List Byte) → List Byte → Bool → State
  | [], got, pz => s.hostSay p (.data got pz)
  | (a, d) :: r, got, pz =>
    let q := hostReq a d.length false asid
    match s.route q iface with
    | .at pl _ fill =>
      (match s.performAt pl fill q (.load d.length) none false with
        | (.data b _ z, s1) => s1.hostReads p asid iface r (got ++ b) (pz || z)
        | (_, s1) => s1)
    | _ => s

/-- Why a piece of a host's access fails at its home, with the home (R389). -/
def Route.fails : Route → Option Nat
  | .fail _ sub => some sub
  | _ => none

/-- A host's access to a virtual address, in pieces. One that a home fails fails as a whole (R390). A read waits at its port until
every piece can be performed, and asks for a page that is not resident; the reads of a port that come later wait behind it (log 149). -/
def State.hostGo (s : State) (p : Nat) (wr : Bool) (asid : BitVec 16) (iface : Nat) (pcs : List (Word × List Byte)) : State :=
  let way (x : Word × List Byte) : Route := s.route (hostReq x.1 x.2.length wr asid) iface
  match pcs.findSome? fun x => (way x).fails.map fun sub => (x.1, sub) with
  | some (a, sub) => (s.noteTable (vaHome a) sub).hostFail p wr
  | none =>
    if wr then pcs.foldl (fun (t : State) x => t.hostWrite p asid iface x) s
    else if s.held.any fun e => e.who == .hostRd p then s
    else
      let lost (x : Word × List Byte) : State := s.holdLost (hostReq x.1 8 false asid) (.load 8) (.hostRd p) false iface
      match pcs.find? fun x => match way x with
          | .at _ _ _ => false
          | _ => true with
      | none => (match pcs.find? fun x => !(s.responds iface x.1) with
        | some x => lost x
        | none => s.hostReads p asid iface pcs [] false)
      | some x => (match way x with
        | .miss pg => s.holdMiss pg (hostReq x.1 8 false asid) (.load 8) (.hostRd p) false
        | .lost => lost x
        | _ => s)

/-- Where the cast dump stands in the reserved region (R422). -/
def dumpOff : Nat := 0x4000000
/-- The size of the cast dump (R422). -/
def dumpSize : Nat := 0x4000000

/-- The apertures are served. -/
def State.apersUp (s : State) : Bool := s.frozen.isNone && s.hostUp

/-- A host request to a part that does not serve the apertures: before READY it completes with Unsupported Request; on a frozen part
(R445) aperture 15 of port 0 reads the cast dump, and anything else completes with Completer Abort. -/
def State.downHost (s : State) (p n off : Nat) (wr : Bool) (len : Nat) : State :=
  if s.frozen.isNone then s.hostNone p wr
  else if wr then s
  else if n = 15 ∧ p = 0 ∧ off + len ≤ dumpSize then
    let one (i : Nat) : Option Byte := match s.unitKey (schedCtx 0#16) .load (s.qtVa (dumpOff + off + i)) 1 with
      | .ok k => some (memGet s.mem k)
      | .error _ => none
    s.hostSay p (match (List.range len).mapM one with
      | some b => .data b false
      | none => .abort)
  else s.hostSay p .abort

/-- A host request to an aperture: where the part serves apertures, and nothing that the port received earlier holds it back (R115),
the mode of the aperture takes it; a disabled one refuses it. -/
def State.aperGo (s : State) (n off : Nat) (wr : Bool) (len mode : Nat) (go : Nat → Nat → State) : State :=
  let p := s.subj
  if !s.apersUp then s.downHost p n off wr len
  else if s.hostBehind p then s
  else
    match aperMode (s.aper p n) with
    | none => s.hostRefuse p wr
    | some m => if m = mode then go p (aperBase (s.aper p n)) else s

/-- APERTURE_VIRTUAL: MODE 0. A page that is not resident holds a posted write at its home until it is (R49). -/
def doAperVirtual (n off : Nat) (wr : Bool) (data : List Byte) (s : State) : State :=
  s.aperGo n off wr data.length 0 fun p base =>
    s.hostGo p wr ((s.aper p n).extractLsb' 16 16) (576 + 4 * p) (hostCut (BitVec.ofNat 64 (2 ^ 32 * base + off)) data)

/-- APERTURE_PHYSICAL: MODE 1. -/
def doAperPhysical (n off : Nat) (wr : Bool) (data : List Byte) (s : State) : State :=
  s.aperGo n off wr data.length 1 fun p base =>
    let home := bitsOf base 15 10
    let a := (2 ^ 32 * bitsOf base 0 15 + off) % 2 ^ 48
    if !(isMC home) || decide (s.dramBytes < a + data.length) then s.hostRefuse p wr
    else
      let k := dramKey (home - 0x180) a
      if wr then s.putMem k (data.map some) else s.hostSay p (.data (s.bytesAt k data.length) (s.poisoned k data.length))

/-- APERTURE_CONTROL: MODE 2, accepted as if edge firmware issued it. An access of another width or alignment than 8 bytes fails
(R66, R389). In the places of apertures 16 and 17 stand the port's BAR0 and BAR2. -/
def doAperControl (n off : Nat) (wr : Bool) (data : List Byte) (s : State) : State :=
  if 16 ≤ n then s.barAccess (n == 17) off wr data
  else s.aperGo n off wr data.length 2 fun p base =>
    let home := bitsOf base 0 10
    if !(isCC home || isMC home) || decide (0x100000 < off + data.length) then s.hostRefuse p wr
    else if off % 8 ≠ 0 ∨ data.length ≠ 8 then s.hostFail p wr
    else if wr then s.ctlWrite home off (BitVec.ofNat 64 (natOfBytes data)) true
    else s.hostSay p (.data (bytesOfNat 8 (s.ctlRead home off)) false)

/-! ## The events -/

/-- MDUTY_WRITE. -/
def execMdutyWrite (w : Word) (s : State) : Host.Outcome State Fault Refusal := .next (doMdutyWrite w s)
/-- QTBASE_WRITE. -/
def execQtbaseWrite (w : Word) (s : State) : Host.Outcome State Fault Refusal := .next (doQtbaseWrite w s)
/-- NSTDATA_WRITE. -/
def execNstdataWrite (w : Word) (s : State) : Host.Outcome State Fault Refusal := .next (doNstdataWrite w s)
/-- REGISTER_WRITE. -/
def execRegisterWrite (off : Nat) (w : Word) (s : State) : Host.Outcome State Fault Refusal := .next (doRegisterWrite off w s)
/-- HSCMD_SWAP. -/
def execHscmdSwap (w : Word) (s : State) : Host.Outcome State Fault Refusal := .next (doHscmdSwap w s)
/-- HSCMD_LEAVE. -/
def execHscmdLeave (w : Word) (s : State) : Host.Outcome State Fault Refusal := .next (doHscmdLeave w s)
/-- PGREQ_TO_HOST. -/
def execPgreqToHost (w : Word) (s : State) : Host.Outcome State Fault Refusal := .next (doPgreqToHost w s)
/-- PGREQ_TO_DEVICE. -/
def execPgreqToDevice (w : Word) (s : State) : Host.Outcome State Fault Refusal := .next (doPgreqToDevice w s)
/-- PAGE_MIGRATION. -/
def execPageMigration (s : State) : Host.Outcome State Fault Refusal := .next (doPageMigration s)
/-- HS_POST. -/
def execHsPost (s : State) : Host.Outcome State Fault Refusal := .next (doHsPost s)
/-- HS_INTERRUPT. -/
def execHsInterrupt (s : State) : Host.Outcome State Fault Refusal := .next (doHsInterrupt s)
/-- APERTURE_VIRTUAL. -/
def execApertureVirtual (n off : Nat) (wr : Bool) (data : List Byte) (s : State) : Host.Outcome State Fault Refusal :=
  .next (doAperVirtual n off wr data s)
/-- APERTURE_PHYSICAL. -/
def execAperturePhysical (n off : Nat) (wr : Bool) (data : List Byte) (s : State) : Host.Outcome State Fault Refusal :=
  .next (doAperPhysical n off wr data s)
/-- APERTURE_CONTROL. -/
def execApertureControl (n off : Nat) (wr : Bool) (data : List Byte) (s : State) : Host.Outcome State Fault Refusal :=
  .next (doAperControl n off wr data s)

end Sys2Proof.Machine
end

