-- ==== Sys2Proof/Machine/EvEdge.lean ====
section
/-! DEFINITION. The edge chiplets' other work: Ethernet (R325 to R327), the reservation table and token buckets (R283, R284,
R286), power management (R24, R335) and attestation (R333, R334). -/

namespace Sys2Proof.Machine

open Sys2Proof

/-! ## Ethernet -/

/-- One bit of the CRC of IEEE 802.3 (log 131). -/
def crcBit (c : W32) : W32 := if c.getLsbD 0 then (c >>> 1) ^^^ 0xEDB88320#32 else c >>> 1

/-- One byte of it. -/
def crcByte (c : W32) (b : Byte) : W32 := (List.range 8).foldl (fun a _ => crcBit a) (c ^^^ b.zeroExtend 32)

/-- The FCS of a frame, as it stands on the wire (R325). -/
def fcs (f : List Byte) : List Byte := bytesOfNat 4 (~~~(f.foldl crcByte 0xFFFFFFFF#32)).toNat

/-- A frame as it leaves the MAC: padded to 60 bytes. -/
def padFrame (f : List Byte) : List Byte := f ++ List.replicate (60 - f.length) 0#8

/-- A command whose frame is complete and has not left. -/
def CopyCmd.frameReady (c : CopyCmd) (port : Nat) : Bool :=
  c.started && c.txPort == some port && c.moved && !c.sent && c.fail.isNone && !c.frame.isEmpty

/-- A command to a port that has not sent its frame: later ones of its engine wait behind it. -/
def CopyCmd.framePending (c : CopyCmd) (port : Nat) : Bool := c.started && c.txPort == some port && !c.sent && c.fail.isNone

/-- The engine whose next frame to a port is the one given. -/
def State.frameEngine (s : State) (port : Nat) (frame : List Byte) : Option (Nat × Nat) := s.engines.findSome? fun p =>
  match p.2.find? fun c => c.framePending port with
  | some c => if c.frameReady port && padFrame c.frame == frame then some (p.1, c.id) else none
  | none => none

/-- ETH_TRANSMIT. -/
def doEthTransmit (frame : List Byte) (s : State) : State :=
  let port := s.subj
  match s.frameEngine port frame with
  | none => s
  | some (e, id) =>
    (s.modCmd e id fun c => { c with sent := true }).modEth port fun x =>
      { x with txcnt := (x.txcnt + 1) % 2 ^ 32, sent := x.sent ++ [frame ++ fcs frame] }

/-- The context of an Ethernet port's writes: edge firmware's (R422). -/
def ethCtx : Ctx := schedCtx 0#16

/-- The lines of a received frame's slot: the header line and the frame. -/
def slotLines (base : Word) (time : Nat) (frame : List Byte) : List (Word × List Byte) :=
  let hd := bytesOfNat 2 frame.length ++ List.replicate 6 0#8 ++ bytesOfNat 8 time ++ List.replicate 48 0#8
  (base, hd) :: (List.range ((frame.length + 63) / 64)).map fun i => (addrPlus base (64 + 64 * i), (frame.drop (64 * i)).take 64)

/-- Drops a frame and counts it. -/
def State.dropFrame (s : State) (port : Nat) : State := s.modEth port fun x => { x with drops := (x.drops + 1) % 2 ^ 32 }

/-- The enqueue that announces a frame, as a bqenq that releases at .md. -/
def State.announce (s : State) (hd v : Word) : State :=
  let (id, s1) := s.fresh
  let o : Op :=
    { hart := 0
      kind := .enq hd v
      st := .issued
      fo := noForm
      how := .status
      scope := .md
      ctx := ethCtx
      gate := []
      drained := true
      tag := 0#16
      nodl := true
      cluster := 0
      win := 0
      since := s.ncyc
      inj := none
      beta := none }
  { s1 with ops := tset s1.ops id o }

/-- ETH_RECEIVE: a frame of 64 to 9,216 bytes with its FCS is written to its slot without it and announced, or dropped and counted:
where the FCS is bad, or every slot is in use (R325, R327). -/
def doEthReceive (wire : List Byte) (s : State) : State :=
  let port := s.subj
  let x := s.eth port
  let frame := wire.take (wire.length - 4)
  if !x.en || x.log2n == 0 || decide (16 < x.log2n) then s
  else if decide (wire.length < 64) || wire.drop (wire.length - 4) != fcs frame || decide (2 ^ x.log2n ≤ x.used) then s.dropFrame port
  else
    let k := x.rxcnt % 2 ^ x.log2n
    let ls := slotLines (addrPlus x.rxbase (16384 * k)) (s.nsAt (576 + port / 2)) frame
    match ls.find? fun l => s.unreached ethCtx .store l.1 l.2.length with
    | some l => s.unitMiss ethCtx .store l.1
    | none =>
      if ls.any fun l => match s.unitKey ethCtx .store l.1 l.2.length with
          | .ok _ => false
          | .error _ => true then s.dropFrame port
      else
        let s1 := ls.foldl (fun (t : State) l => match t.unitKey ethCtx .store l.1 l.2.length with
          | .ok key => (t.putMem key (l.2.map some)).setTag key 0#16
          | .error _ => t) s
        (s1.modEth port fun y => { y with rxcnt := (y.rxcnt + 1) % 2 ^ 32, used := y.used + 1 }).announce x.rxq
          (BitVec.ofNat 64 (2 ^ 16 * k + frame.length))

/-- RXRET_WRITE: the subject is 32 times the write's source, plus the port. -/
def doRxret (n : Nat) (s : State) : State := if s.edgeFree (s.subj / 32) then s.rxretWrite (s.subj % 32) n else s

/-! ## Reservation classes (R283, R284, R286) -/

/-- RESERVATION_TABLE_WRITE: the subject is 64 times the write's source, plus the class of the entry. -/
def doRtableWrite (w : Word) (s : State) : State := if s.edgeFree (s.subj / 64) then s.rtableWrite (s.subj % 64) w else s

/-- RESERVATION_TABLE_COPY: the interfaces and memory chiplets take the table. -/
def doRtableCopy (s : State) : State := s.modMod fun m => { m with rcopy := m.rtable }

/-- TOKEN_BUCKET_REFILL: a class's bucket of one agent is brought up to now, at RATE for each whole µs, to BURST at most. -/
def doRefill (c : Nat) (s : State) : State :=
  let k := 64 * s.subj + c
  let e := (tgetD s.mod.rcopy c 0#64).toNat
  let from_ := tgetD s.refilled k 0
  let us := (s.ncyc - from_) / usN
  let n := min (bitsOf e 32 16) (tgetD s.buckets k 0 + bitsOf e 0 32 * us)
  { s with buckets := tset s.buckets k n, refilled := tset s.refilled k (from_ + us * usN) }

/-- The ageing time of the resource that a request waits for (R286): a router output before its injection; after it the L2 bank of its
home, or a host port's outbound side. -/
def ageingTime (injected : Bool) : Nat := if injected then 1024 else 512

/-- A request of a context finds no token at its interface (R284). -/
def State.tokenless (s : State) (iface : Nat) (c : Ctx) : Bool := !((s.judge iface (s.classOf c) 64).1)

/-- Of a non-conforming request: the N-cycle since which it waits, and the ageing time of what it waits for. -/
def State.waitsSince (s : State) (id : Nat) : Option (Nat × Nat) :=
  match tget s.ops id, tget s.pb id with
  | some o, _ => if o.travelling && s.tokenless (siteOfHome o.cluster) o.ctx then some (o.since, ageingTime o.inj.isSome) else none
  | none, some e =>
    if e.live && s.tokenless (siteOfHome e.cluster) ⟨e.asid, e.priv, e.owners.head?, 0⟩ then some (e.since, ageingTime e.inj.isSome)
    else none
  | none, none => none

/-- REQUEST_AGEING: a non-conforming request that has waited for the ageing time of its resource counts as conforming from now on. -/
def doAgeing (s : State) : State :=
  match s.waitsSince s.subj with
  | some (t, age) => if t + age ≤ s.ncyc ∧ !(s.aged.contains s.subj) then { s with aged := s.aged ++ [s.subj] } else s
  | none => s

/-! ## Power (R24, R335) -/

/-- TEMP as a number of 1/8 °C. -/
def Power.tempInt (p : Power) : Int := p.temp.toInt

/-- The field is over a limit by power, by temperature, and the module over its own or over the envelope. -/
def Power.over (p : Power) (mpwr mplim : Nat) (env : Bool) : Bool × Bool × Bool :=
  (decide (1000 * p.fplim < p.fpwr), decide ((p.tlim : Int) < p.tempInt), env || decide (1000 * mplim < mpwr))

/-- Every limit holds with 5 % margin. -/
def Power.margin (p : Power) (mpwr mplim : Nat) : Bool :=
  decide (100 * p.fpwr ≤ 95 * (1000 * p.fplim)) && decide (100 * p.tempInt ≤ 95 * (p.tlim : Int)) && decide (100 * mpwr ≤ 95 * (1000 * mplim))

/-- One step of a manager: PLEVEL falls first, and CLEVEL only once it is 1; they rise in the reverse order. -/
def Power.manage (p : Power) (mpwr mplim : Nat) (env : Bool) : Power :=
  let (a, b, c) := p.over mpwr mplim env
  if a || b || c then
    let q : Power := { p with pwr := p.pwr || a, therm := p.therm || b, mod := p.mod || c }
    if 1 < p.plevel then { q with plevel := p.plevel - 1 }
    else if 1 < p.clevel then { q with clevel := p.clevel - 1 }
    else q
  else if p.margin mpwr mplim then
    let q : Power := if p.clevel < 16 then { p with clevel := p.clevel + 1 } else if p.plevel < 16 then { p with plevel := p.plevel + 1 } else p
    if q.clevel = 16 ∧ q.plevel = 16 then { q with pwr := false, therm := false, mod := false } else q
  else p

/-- The module's power: the sum of its fields'. -/
def State.modulePower (s : State) : Nat := (List.range 16).foldl (fun n e => n + (s.power e).fpwr) 0

/-- An excursion above 15 kW begins, goes on or ends with a sample of the module's power in mW (R24). -/
def State.excursion (s : State) (m : Nat) : State := s.modMod fun x =>
  if 15000000 < m then { x with excFrom := some (x.excFrom.getD s.ncyc) }
  else { x with excFrom := none, excEnd := if x.excFrom.isSome then some s.ncyc else x.excEnd }

/-- The module is outside the envelope of R24: above 18 kW, in an excursion of more than 10 ms, or in one that has begun within
90 ms of the last. -/
def State.overEnvelope (s : State) (m : Nat) : Bool :=
  decide (18000000 < m) || (match s.mod.excFrom with
    | some t => decide (t + 10 * msN ≤ s.ncyc) || (match s.mod.excEnd with
        | some e => decide (t < e + 90 * msN)
        | none => false)
    | none => false)

/-- POWER_THROTTLE: the manager of a field samples its power, temperature, voltage and current (measured values: the last three
are free values, log 3) and takes one step. The subject is the edge chiplet; the field is the one it manages (R18). -/
def doPower (mw : Nat) (s : State) : State :=
  let e := s.subj
  let (t, s1) := s.free
  let (v, s2) := s1.free
  let (i, s3) := s2.free
  let p0 : Power := s3.power e
  let p1 : Power := { p0 with fpwr := mw, temp := t.extractLsb' 0 16, mvolt := bitsOf v.toNat 0 16, amps := bitsOf i.toNat 0 16 }
  let s4 : State := { s3 with powers := tset s3.powers e p1 }
  let m := s4.modulePower
  let recent := (s4.mod.mpSamples.filter fun x => decide (s4.ncyc ≤ x.1 + 10 * msN)) ++ [(s4.ncyc, m)]
  let s5 := (s4.modMod fun x =>
    { x with mpwr := m / 1000, mpSamples := recent, mpeak := recent.foldl (fun a y => max a y.2) 0 / 1000 }).excursion m
  { s5 with powers := tset s5.powers e (p1.manage m s5.mod.mplim (s5.overEnvelope m)) }

/-! ## Attestation (R334) -/

/-- ATTCTL_GO. -/
def doAttGo (s : State) : State := if s.edgeFree s.subj then s.attGo else s

/-- ATTESTATION_DONE: the report and its signature stand, and DONE is set. -/
def doAttDone (s : State) : State :=
  if !s.mod.attBusy then s
  else
    let sig := (Config.sign s.mod.attFrom ++ List.replicate 29792 0#8).take 29792
    s.modMod fun m => { m with report := m.attFrom ++ sig, attBusy := false, attDone := true }

/-! ## The events -/

/-- ETH_TRANSMIT. -/
def execEthTransmit (frame : List Byte) (s : State) : Host.Outcome State Fault Refusal := .next (doEthTransmit frame s)
/-- ETH_RECEIVE. -/
def execEthReceive (frame : List Byte) (s : State) : Host.Outcome State Fault Refusal := .next (doEthReceive frame s)
/-- RXRET_WRITE. -/
def execRxretWrite (n : Nat) (s : State) : Host.Outcome State Fault Refusal := .next (doRxret n s)
/-- RESERVATION_TABLE_WRITE. -/
def execReservationTableWrite (w : Word) (s : State) : Host.Outcome State Fault Refusal := .next (doRtableWrite w s)
/-- RESERVATION_TABLE_COPY. -/
def execReservationTableCopy (s : State) : Host.Outcome State Fault Refusal := .next (doRtableCopy s)
/-- TOKEN_BUCKET_REFILL. -/
def execTokenBucketRefill (c : Nat) (s : State) : Host.Outcome State Fault Refusal := .next (doRefill c s)
/-- REQUEST_AGEING. -/
def execRequestAgeing (s : State) : Host.Outcome State Fault Refusal := .next (doAgeing s)
/-- POWER_THROTTLE. -/
def execPowerThrottle (mw : Nat) (s : State) : Host.Outcome State Fault Refusal := .next (doPower mw s)
/-- ATTCTL_GO. -/
def execAttctlGo (s : State) : Host.Outcome State Fault Refusal := .next (doAttGo s)
/-- ATTESTATION_DONE. -/
def execAttestationDone (s : State) : Host.Outcome State Fault Refusal := .next (doAttDone s)

end Sys2Proof.Machine
end

