-- ==== Sys2Proof/Machine/EvFail.lean ====
section
/-! DEFINITION. Failures of links, storage and scheduler cores, the tear-down of a context, and fatal errors (R394, R398 to R401,
R423, R428 to R435, R442 to R446). -/

namespace Sys2Proof.Machine

open Sys2Proof

/-! ## Links (R399 to R401) -/

/-- A link as routes name it: from its north or west end. -/
def canonLink (l : Nat) : Nat :=
  let x := l / 10 % 24
  let y := l / 10 / 24
  let mesh : Bool := l / 5 % 2 == 1
  let dir := l % 5
  if (dir = 0 ∧ y = 0) ∨ (dir = 3 ∧ x = 0) then l else linkId mesh x y dir

/-- LINK_CRC_ERROR: one more replay on a link; the 64th within 1 ms is recorded. -/
def doLinkCrc (s : State) : State :=
  let l := s.subj
  let now := ((tgetD s.replays l []).filter fun t => decide (s.ncyc < t + msN)) ++ [s.ncyc]
  if 64 ≤ now.length then { s with replays := tset s.replays l [] }.logLink 8 l 0
  else { s with replays := tset s.replays l now }

/-- A link, or the local port of a site, is declared dead; a KIND 9 record is sent. -/
def State.killLink (s : State) (n : Nat) : State :=
  let l := canonLink n
  if s.deadLinks.any fun d => d.link == l then s
  else
    let d : DeadLink := ⟨l, s.ncyc, [], []⟩
    ({ s with deadLinks := s.deadLinks ++ [d] }.logLink 9 n 0).syncHealth false

/-- The grid neighbours of a site: north, east, south, west, by direction. -/
def neighbours (i : Nat) : List (Nat × Nat) :=
  let x := i % 24
  let y := i / 24
  (if 0 < y then [(0, i - 24)] else []) ++ (if x < 23 then [(1, i + 1)] else []) ++ (if y < 23 then [(2, i + 24)] else [])
    ++ (if 0 < x then [(3, i - 1)] else [])

/-- Every link and the local port of a site, on both meshes; an edge chiplet has one link on each. -/
def siteLinks (i : Nat) : List Nat :=
  if nSites ≤ i then [10 * i + 4, 10 * i + 9]
  else (((neighbours i).map Prod.fst ++ [4]).map fun dir => [10 * i + dir, 10 * i + 5 + dir]).foldr (· ++ ·) []

/-- The links of a mesh across the seams that the border router of a site stands at: six for each (R311). -/
def seamLinks (mesh : Bool) (i : Nat) : List Nat :=
  let x := i % 24
  let y := i / 24
  let six := List.range 6
  let col (x0 : Nat) : List Nat := six.map fun k => linkId mesh x0 (6 * (y / 6) + k) 1
  let row (y0 : Nat) : List Nat := six.map fun k => linkId mesh (6 * (x / 6) + k) y0 2
  (if x % 6 = 5 ∧ x < 23 then col x else []) ++ (if x % 6 = 0 ∧ 0 < x then col (x - 1) else [])
    ++ (if y % 6 = 5 ∧ y < 23 then row y else []) ++ (if y % 6 = 0 ∧ 0 < y then row (y - 1) else [])

/-- The links that a death makes dead (R400): below 5,760 the link's own; then the chiplet of a site, all of that site's; then the
border router of a site on mesh X, and on mesh Y, all across its seams; then an edge chiplet, its link on each mesh. -/
def deadOf (n : Nat) : List Nat :=
  if n < 10 * nSites then [n]
  else if n < 11 * nSites then siteLinks (n - 10 * nSites)
  else if 13 * nSites ≤ n then siteLinks (nSites + (n - 13 * nSites))
  else seamLinks (decide (12 * nSites ≤ n)) ((n - 11 * nSites) % nSites)

/-- LINK_DEAD: what has died is declared dead. -/
def doLinkDead (s : State) : State := (deadOf s.subj).foldl State.killLink s

/-- DEATH_NOTICE: an interface receives the notice of a dead link. -/
def doDeathNotice (link : Nat) (s : State) : State :=
  let i := s.subj
  { s with deadLinks := s.deadLinks.map fun d =>
      if d.link = canonLink link ∧ (tget d.noticed i).isNone then { d with noticed := tset d.noticed i s.ncyc } else d }

/-- The NST entries of an interface that cross a dead link and whose other mesh is clear, turned to that mesh. -/
def State.turnEntry (s : State) (i h : Nat) : State :=
  let m := s.nstMesh i h
  let dst := siteOfHome h
  if s.homeValid h && !(s.pathClear m i dst) && s.pathClear (!m) i dst then { s with nst := tset s.nst (1024 * i + h) (!m) } else s

/-- A home that neither mesh reaches from an interface is recorded once (R400). -/
def State.noteUnreached (s : State) (i h : Nat) : State :=
  let dst := siteOfHome h
  if s.homeValid h && !(s.pathClear false i dst) && !(s.pathClear true i dst) && !(s.unreach.contains h) then
    { s with unreach := s.unreach ++ [h] }.logRec 10 h 0 0 0 1
  else s

/-- NST_REROUTE: edge firmware rewrites the entries of one interface, and what the interface held is released. -/
def doReroute (s : State) : State :=
  if s.deadLinks.isEmpty then s
  else
    let i := s.subj
    let s1 := (List.range 1024).foldl (fun (t : State) h => t.turnEntry i h) s
    let s2 : State :=
      { s1 with deadLinks := s1.deadLinks.map fun d => if d.rerouted.contains i then d else { d with rerouted := d.rerouted ++ [i] } }
    (List.range 1024).foldl (fun (t : State) h => t.noteUnreached i h) s2

/-- An interface has had notice, at the time `t` or later, of a link that died, and 65,536 N-cycles have passed since (R401). -/
def State.lossDue (s : State) (i t : Nat) : Bool := s.deadLinks.any fun d => match tget d.noticed i with
  | some n => decide (t ≤ n) && decide (n + 65536 ≤ s.ncyc)
  | none => false

/-- The lost requests that interface `i` waits for, in the order in which they were lost. -/
def State.lostOf (s : State) (i : Nat) : List Held := s.held.filter fun e => e.lostAt == some i

/-- REQUEST_LOSS_TIMEOUT: the first of an interface's lost requests whose time is over fails with cause 62, SUB 15 (R401). -/
def doLoss (s : State) : State :=
  match (s.lostOf s.subj).find? fun e => s.lossDue s.subj e.time with
  | none => s
  | some e => (s.dropHeld e).answerHeld e (.fail 62 15 e.va)

/-! ## Scrubbing (R394, R397, R398) -/

/-- The three bits of a row in a bank's filter. -/
def bloomBits (r : Nat) : List Nat := [0x9E3779, 0x85EBCB, 0xC2B2AF].map fun m => r * m % 2 ^ 24 / 2 ^ 12

/-- A power of two from 16 on. -/
def repeatMark (n : Nat) : Bool := (List.range 12).any fun i => n == 2 ^ (i + 4)

/-- A corrected error of a slice bank at a physical address. -/
def State.correctedLine (s : State) (m bank a : Nat) : State :=
  let x := s.mc m
  let set := tgetD x.bloom bank []
  let bits := bloomBits (bitsOf a 12 24)
  let rep := tgetD x.repeats bank 0
  if bits.all set.contains then
    let r1 := if rep < 65535 then rep + 1 else rep
    let s1 := s.modMc m fun y => { y with repeats := tset y.repeats bank r1 }
    if r1 ≠ rep ∧ repeatMark r1 then
      let s2 := s1.logRec 3 (0x180 + m) (bitsOf a 12 24) a r1 1
      if 1024 ≤ r1 then s2.syncHealth true else s2
    else s1
  else
    (s.modMc m fun y => { y with bloom := tset y.bloom bank (set ++ bits.filter fun b => !(set.contains b)) }).logRec 2 (0x180 + m) 0 a
      rep 1

/-- A corrected error in a core's scratch or mailbox store: at most one record per ms. -/
def State.correctedWord (s : State) (core : Nat) : State :=
  let c := s.core core
  if c.k1Last = 0 ∨ c.k1Last + msN ≤ s.ncyc then
    (s.modCore core fun y => { y with k1Last := s.ncyc, k1Count := 0 }).logRec 1 (core / 100) 0 0 0 (c.k1Count + 1)
  else s.modCore core fun y => { y with k1Count := c.k1Count + 1 }

/-- An uncorrectable line or word is written back poisoned; the record has the repeat counter of the line's bank. -/
def State.uncorrectable (s : State) (home key pa rep : Nat) : State := (s.addPoison key).logRec 4 home 0 pa rep 1

/-- One error that a pass finds: where, and whether it can be corrected, are free values (log 3). -/
def State.scrubOne (s : State) (m bank : Nat) (w : Word) : State :=
  let n := w.toNat
  if w.getLsbD 62 then
    let cl := 2 * m + bitsOf n 61 1
    let pc := bitsOf n 40 16 % 100
    let key := if w.getLsbD 60 then mboxKey cl pc (bitsOf n 2 14 * 4) else coreKey cl pc (bitsOf n 20 8 % 17) (bitsOf n 2 12 * 4)
    if w.getLsbD 63 then s.uncorrectable cl key 0 0 else s.correctedWord (100 * cl + pc)
  else
    -- A line of the bank: address bits [10:6] are its number (R82).
    let a := n % s.dramBytes / 2048 * 2048 + 64 * bank
    if w.getLsbD 63 then s.uncorrectable (0x180 + m) (dramKey m a) a (tgetD (s.mc m).repeats bank 0) else s.correctedLine m bank a

/-- The errors of a pass, one after another. -/
def State.scrubMany (s : State) (m bank : Nat) : Nat → State
  | 0 => s
  | n + 1 =>
    let r := s.free
    (r.2.scrubOne m bank r.1).scrubMany m bank n

/-- SCRUB_PATROL: a pass of a bank, and of the stores of the two clusters near its chiplet; the bank's filter is cleared. -/
def doScrub (bank : Nat) (s : State) : State :=
  let m := s.subj
  let r := s.free
  (r.2.scrubMany m bank (bitsOf r.1.toNat 0 8)).modMc m fun y => { y with bloom := tdel y.bloom bank }

/-! ## Scheduler cores (R428 to R432) -/

/-- A cluster whose site is live in the part. -/
def State.clusterLive (s : State) (k : Nat) : Bool := !(deadSite (s.site (siteOfHome k)).st)

/-- HEARTBEAT. -/
def doHeartbeat (s : State) : State :=
  let k := s.subj
  if (s.cluster k).fenced || !(s.clusterLive k) then s
  else s.modCluster k fun x => { x with hbeat := (x.hbeat + 1) % 2 ^ 64 }

/-- The cluster `d` places to the east in the row of a cluster, from the easternmost to the westernmost. -/
def eastOf (k d : Nat) : Nat :=
  let n := k / 24
  let p := (4 * (n % 4) + k % 4 + d) % 16
  24 * (n / 4 * 4 + p / 4) + k % 24 / 4 * 4 + p % 4

/-- The watcher of a cluster: the next to the east that is neither retired nor failed. -/
def State.watcherOf (s : State) (k : Nat) : Option Nat := ((List.range 15).map fun i => eastOf k (i + 1)).find? fun w =>
  s.clusterLive w && !(s.cluster w).fenced

/-- An adopter performs a copy packet of the failed core again from its start (R431); the copy that an engine already has goes on for
nobody. -/
def State.redoCopy (s : State) (w pk : Nat) (p : Packet) : State :=
  match packetWork p.bytes with
  | .copy desc =>
    if p.finished then s
    else
      let s1 : State :=
        { s with engines := s.engines.map fun e => (e.1, e.2.map fun c => if c.pk = .packet pk then { c with pk := .none } else c) }
      let c := s1.qCtx p.queue
      (match s1.readBytes c desc 16 with
        | .got hd => s1.giveCopy (copyEngine w (BitVec.ofNat 64 (natOfBytes (hd.drop 8)))) c desc p.tag p.nodl (.packet pk)
        | .fail cause sub va => (s1.unitMiss c .load va).failPk w (.packet pk) cause sub 0 va
        | .later va => s1.unitMiss c .load va)
  | _ => s

/-- A packet whose effect is uncertain after an adoption: a SIGNAL that adds (R431). -/
def State.uncertain (s : State) (w : Nat) (p : Packet) : State :=
  match packetWork p.bytes with
  | .signal 1 _ _ => s.logRec 19 w (2 ^ 16 * p.queue + bitsOf (natOfBytes p.bytes) 0 8) 0 0 1
  | _ => s

/-- The watcher adopts a failed core (R429), which takes over every packet that the core served before it was fenced (R431). -/
def State.adopt (s : State) (k w : Nat) : State :=
  let before := s.modCluster k fun x => { x with fenced := false }
  let mine := s.packets.filter fun p => before.qServer p.2.queue == some k
  let s1 := s.fence k
  let s2 := (List.range nQueues).foldl (fun (t : State) q => if t.qfieldD q 176 9 = k then t.qput q 176 9 w else t) s1
  let s3 : State := { s2 with grids := s2.grids.map fun g => if g.2.owner = k then (g.1, { g.2 with owner := w }) else g }
  let s4 := s3.modCluster k fun x => { x with adopter := some w }
  let s5 := mine.foldl (fun (t : State) p => (t.redoCopy w p.1 p.2).uncertain w p.2) s4
  (s5.logRec 18 w (2 ^ 16 * w + k) 0 0 1).syncHealth false

/-- WATCHER_READ: the watcher of a cluster reads its HBEAT; the third read in a row that returns the same value fails it. -/
def doWatcher (s : State) : State :=
  let k := s.subj
  let c := s.cluster k
  if c.adopter.isSome || !(s.clusterLive k) then s
  else
    match s.watcherOf k with
    | none => s
    | some w =>
      let n := if c.hbeat = c.watchSeen then c.watchSame + 1 else 1
      let s1 := s.modCluster k fun x => { x with watchSeen := c.hbeat, watchSame := n }
      if 3 ≤ n then s1.adopt k w else s1

/-- FENCE_WRITE: the watcher or edge firmware fences a scheduler core. -/
def doFence (s : State) : State := s.fence s.subj

/-! ## Tearing down a context (R433 to R435) -/

/-- A packet never counts as late once its grid has been torn down (R427, R434). -/
def State.unlate (s : State) (d : GridFor) : State :=
  match d with
  | .packet pk => s.refusePacket pk
  | .stage p =>
    (match (tget s.pipes p).map PipeRun.done with
      | some (.packet pk) => s.refusePacket pk
      | _ => s)
  | _ => s

/-- Harts end without a record, and what they still have under way is discarded, but for entries of the post buffers. -/
def State.killHarts (s : State) (dead : Nat → Bool) : State :=
  let deadOp (o : Nat) : Bool := match tget s.ops o with
    | some p => dead p.hart
    | none => false
  let deadCtx (c : Ctx) : Bool := match c.hart with
    | some h => dead h
    | none => false
  let keeps (e : Held) : Bool := match e.who with
    | .entry _ | .engine _ _ _ | .unit => true
    | _ => !(deadCtx e.ctx)
  let live (l : List Nat) : List Nat := l.filter fun o => !(deadOp o)
  { s with
    harts := s.harts.map fun p => if dead p.1 then
        (p.1, { p.2 with
          status := .ended
          regs := []
          vbusy := []
          due := []
          log := []
          wait := none
          plainOut := none
          plainAns := none
          heldSlot := 0#64
          scrub := none })
      else p
    ops := s.ops.filter fun p => !(dead p.2.hart)
    accs := s.accs.filter fun p => !(dead p.2.hart)
    held := s.held.filter keeps
    missRecs := s.missRecs.filter fun p => !(deadCtx p.2.ctx)
    gridArrs := s.gridArrs.filter fun p => !(deadCtx p.2.ctx)
    gridWaits := s.gridWaits.filter fun w => !(deadOp w.1)
    mcs := s.mcs.map fun p =>
      (p.1, { p.2 with
        enqWait := p.2.enqWait.map fun q => (q.1, live q.2)
        deqWait := p.2.deqWait.map fun q => (q.1, live q.2) })
    windows := s.windows.map fun p => (p.1, { p.2 with sends := p.2.sends.filter fun q => !(deadOp q.2) })
    cores := s.cores.map fun p =>
      (p.1, { p.2 with
        chisel := match p.2.chisel with
          | some h => if dead h then none else some h
          | none => none
        chiselQ := p.2.chiselQ.filter fun h => !(dead h) })
    clusters := s.clusters.map fun p => (p.1, { p.2 with reserved := p.2.reserved.filter fun r => !(dead r.2) }) }

/-- A group of a torn-down grid ends: its commands that no plinth has accepted are discarded, its lease ends as under trelease. -/
def State.killGroup (s : State) (gi : Nat) : State :=
  let s1 : State :=
    { s with plinths := s.plinths.map fun p =>
        (p.1, { p.2 with queue := p.2.queue.filter fun t => t.group != gi || t.accepted }) }
  (s1.modGroup gi fun g => { g with misses := [], withdrawn := [], parked := false }).groupDone gi

/-- Unbinds a window that no group uses any more. -/
def State.freeWindow (s : State) (w : Nat) : State :=
  if s.groups.any fun p => p.2.win == w && !p.2.ended then s
  else
    { s with
      windows := tset s.windows w Window.zero
      cores := s.cores.map fun p => if p.2.win = some w then (p.1, { p.2 with win := none }) else p }

/-- Tears down one grid (R434 items 2 and 3). -/
def State.killGrid (s : State) (gi : Nat) (g : Grid) : State :=
  if g.ended = g.launch.bpg then s
  else
    let groups := (s.groups.filter fun p => !p.2.ended && g.blocks.contains p.2.block).map Prod.fst
    let wins := s.winsOf groups
    let dead (h : Nat) : Bool := match s.hart? h with
      | some x => groups.contains x.group
      | none => false
    let s1 := (s.unlate g.done).killHarts dead
    let s2 := groups.foldl (fun (t : State) i => t.killGroup i) s1
    let s3 := g.blocks.foldl (fun (t : State) b => match tget t.blocks b with
      | some x => if x.status == .done then t else t.blockDone b
      | none => t) s2
    let s4 := wins.foldl (fun (t : State) w => t.freeWindow w) s3
    { s4 with
      cuts := s4.cuts.filter fun c => c.2.grid != some gi
      mod := { s4.mod with reports := s4.mod.reports.filter fun r => !(g.blocks.contains r.1) } }

/-- CTXDOWN: the tear-down of one ASID that a cluster's register has started. -/
def doCtxdown (s : State) : State :=
  let a := s.subj
  match s.clusters.find? fun p => p.2.tdGo == some (BitVec.ofNat 16 a) with
  | none => s
  | some (k, _) =>
    let asked := s.ops.filter fun p => (match p.2.kind with
      | .launch _ _ => true
      | _ => false) && p.2.st == .waiting && p.2.ctx.asid.toNat == a
    let s1 := asked.foldl (fun (t : State) p => t.opDone p.1 (statusWord false true 0)) s
    let s2 := (s1.grids.filter fun g => g.2.asid.toNat == a).foldl (fun (t : State) g => t.killGrid g.1 g.2) s1
    let s3 := (s2.modMod fun m => { m with downs := tset m.downs a s.ncyc }).logRec 22 k a 0 0 1
    { s3 with clusters := s3.clusters.map fun p => if p.2.tdGo = some (BitVec.ofNat 16 a) then (p.1, { p.2 with tdGo := none }) else p }

/-! ## Vector 0 (R423) -/

/-- ERROR_INTERRUPT: a host port sends vector 0: after a record with MDUTY.ERRCOL = 1, else at most once per ms while new records
exist. -/
def doErrorIrq (s : State) : State :=
  let p := s.subj
  let free : Bool := match tget s.mod.v0Last p with
    | some t => decide (t + msN ≤ s.ncyc)
    | none => true
  let send (t : State) : State := { t with irqs := t.irqs ++ [(p, 0)] }
  if 0 < tgetD s.mod.v0Owed p 0 then send (s.modMod fun m => { m with v0Owed := tset m.v0Owed p (tgetD m.v0Owed p 0 - 1) })
  else if s.mod.v0New.contains p && free then
    send (s.modMod fun m => { m with v0New := m.v0New.filter fun q => q != p, v0Last := tset m.v0Last p s.ncyc })
  else s

/-! ## Fatal errors and the cast dump (R444 to R446) -/

/-- A section of the cast dump: its code and its items. -/
structure DumpSec where
  code : Nat
  items : List (List Byte)

/-- `n` bytes of the reserved region from an offset on. -/
def State.qtBytes (s : State) (off n : Nat) : List Byte := match s.unitKey (schedCtx 0#16) .load (s.qtVa off) n with
  | .ok k => s.bytesAt k n
  | .error _ => List.replicate n 0#8

/-- Section 1: MODID, MODSTAT, HEALTH and the power registers of every field. -/
def State.dumpSummary (s : State) : DumpSec :=
  let words := [s.modid, s.modstat, s.mod.health.toNat]
    ++ ((List.range nEdges).map fun e => [0x400, 0x408, 0x410, 0x418, 0x420].map fun o => s.edgeRead e o).foldr (· ++ ·) []
    ++ [s.edgeRead 0 0x440, s.edgeRead 0 0x448]
  ⟨1, words.map (bytesOfNat 8)⟩

/-- Section 2: the site status words. -/
def State.dumpSites (s : State) : DumpSec := ⟨2, (List.range (nSites + nEdges)).map fun i => bytesOfNat 4 (siteWord (s.site i))⟩

/-- Section 3: the module log in record order. -/
def State.dumpLog (s : State) : DumpSec :=
  let n := natOfBytes (s.qtBytes logOff 4)
  let first := n - 32766
  ⟨3, (List.range (n - first)).map fun i => s.qtBytes (logOff + 64 + 32 * ((first + i) % 32766)) 32⟩

/-- Section 4: queue records that are mapped, halted or not empty. -/
def State.dumpQueues (s : State) : DumpSec :=
  ⟨4, ((List.range nQueues).filter fun q => s.qfieldD q 200 1 == 1 || (s.queue q).halted || s.qfieldD q 64 32 != s.qfieldD q 96 32).map
    fun q => bytesOfNat 8 q ++ s.qtBytes (64 * q) 64⟩

/-- Section 5: the journals. -/
def State.dumpJournals (s : State) : DumpSec := ⟨5, (List.range nClusters).map fun k => s.qtBytes (0x400000 + 0x2000 * k) 8192⟩

/-- Section 6: hart contexts: trap handlers first, then parked harts, then those listed in a wait table, then the rest. -/
def State.dumpHarts (s : State) : DumpSec :=
  let all := s.harts.filter fun p => p.2.status != .ended && !p.2.trails
  let parked (x : Hart) : Bool := match s.groupOf? x with
    | some g => g.parked
    | none => false
  let listed (x : Hart) : Bool := match x.wait with
    | some w => w.listed
    | none => false
  let rank (x : Hart) : Nat := if x.priv = .s then 0 else if parked x then 1 else if listed x then 2 else 3
  let sorted := ((List.range 4).map fun r => all.filter fun p => rank p.2 == r).foldr (· ++ ·) []
  ⟨6, (sorted.take 1024).map fun p =>
    bytesOfNat 8 (s.mhartid p.2).toNat ++ bytesOfNat 8 p.2.cluster ++ bytesOfNat 8 p.2.pcore ++ List.replicate 40 0#8
      ++ s.slotBytes p.1 p.2 p.2.pc (.all p.2.full) (parked p.2)⟩

/-- Section 7: the window maps of the live clusters' homes. -/
def State.dumpMaps (s : State) : DumpSec :=
  ⟨7, ((List.range nClusters).filter s.clusterLive).map fun k =>
    joinBytes ((List.range (17 * nWindows)).map fun i => bytesOfNat 8 (granEntry (s.gran (k * 96 + i / 17) (i % 17))))⟩

/-- The items of a section that fit in `room` bytes. -/
def fitItems : Nat → List (List Byte) → List (List Byte)
  | _, [] => []
  | room, b :: r => if b.length ≤ room then b :: fitItems (room - b.length) r else []

/-- The entries and the bodies of sections that start at an offset of the dump. -/
def layDump : Nat → List DumpSec → List Byte × List Byte
  | _, [] => ([], [])
  | off, d :: r =>
    let items := fitItems (dumpSize - off) d.items
    let body := joinBytes items
    let rest := layDump (off + body.length) r
    (bytesOfNat 4 d.code ++ bytesOfNat 4 0 ++ bytesOfNat 8 off ++ bytesOfNat 8 body.length ++ bytesOfNat 8 items.length ++ rest.1,
      body ++ rest.2)

/-- The cast dump of some sections. -/
def State.castDump (s : State) (cause : Nat) (secs : List DumpSec) : List Byte :=
  let n := secs.length
  let l := layDump (64 + 32 * n) secs
  bytesOfNat 8 0x4353414432345742 ++ bytesOfNat 4 n ++ bytesOfNat 4 cause ++ bytesOfNat 8 s.nsE0 ++ List.replicate 40 0#8
    ++ l.1 ++ l.2

/-- Whether a row has no cluster left: the third fatal condition. -/
def State.rowGone (s : State) (k : Nat) : Bool := (List.range 16).all fun i =>
  !(s.clusterLive (eastOf k i)) || (s.cluster (eastOf k i)).fenced

/-- Poison at some lines of the reserved region from an offset on. -/
def State.regionPoisoned (s : State) (off lines : Nat) : Bool := !s.poison.isEmpty && (List.range lines).any fun i =>
  match s.unitKey (schedCtx 0#16) .load (s.qtVa (off + 64 * i)) 64 with
  | .ok k => s.poison.contains (unitOf k)
  | .error _ => false

/-- The booting edge chiplet has died: its links are dead (R400). -/
def State.bootingDead (s : State) : Bool := s.deadLinks.any fun d => (siteLinks (nSites + s.bootingEdge)).contains d.link

/-- A live site's count of device time is out of alignment (R438, R444). -/
def State.misaligned (s : State) : Bool := s.sites.any fun p => p.2.off && !(deadSite p.2.st)

/-- The fatal conditions of R444: after READY the booting edge fails, or a time is found out of alignment; poison in the queue table or
the journals; a row without a cluster; the current of the core rail. -/
def State.isFatal (s : State) (cause : Nat) : Bool :=
  if cause = 1 then s.modState == 6 && s.bootingDead
  else if cause = 2 then s.qtValid && (s.regionPoisoned 0 16384 || s.regionPoisoned 0x400000 49152)
  else if cause = 3 then (List.range nClusters).any s.rowGone
  else if cause = 4 then
    decide (26000 < (List.range nEdges).foldl (fun n e => n + (s.power e).amps) 0)
      && (List.range nEdges).all fun e => (s.power e).plevel == 1 && (s.power e).clevel == 1
  else s.modState == 6 && s.misaligned

/-- The reserved region can be written: QTBASE is locked and its MC is live. -/
def State.dumpInMemory (s : State) : Bool :=
  s.qtLocked && s.qtValid && !(deadSite (s.site (siteOfHome (vaHome s.mod.qtbase))).st)
    && (match s.unitKey (schedCtx 0#16) .store (s.qtVa dumpOff) 64 with
      | .ok _ => true
      | .error _ => false)

/-- Writes bytes into the reserved region from an offset on, 4 KiB at a time. -/
def State.qtFill (s : State) : Nat → Nat → List Byte → State
  | 0, _, _ => s
  | f + 1, off, bs => if bs.isEmpty then s else (s.qtWrite off (bs.take 4096)).qtFill f (off + 4096) (bs.drop 4096)

/-- FATAL_FREEZE: the fatal condition `subj` freezes the part: every site FROZEN, the cast dump written, vector 0 on every port. -/
def doFreeze (s : State) : State :=
  let cause := s.subj
  if !(s.isFatal cause) then s
  else
    let t : State :=
      { s with
        frozen := some cause
        sites := (List.range (nSites + nEdges)).map fun i => (i, { s.site i with st := 13 }) }.stateVector
    let full := t.castDump cause
      [t.dumpSummary, t.dumpSites, t.dumpLog, t.dumpQueues, t.dumpJournals, t.dumpHarts, t.dumpMaps]
    let short := t.castDump cause [t.dumpSummary, t.dumpSites]
    let u := if s.dumpInMemory then t.qtFill (dumpSize / 4096) dumpOff full
      else { t with mem := memWrite t.mem (flashDumpKey (2 ^ 28 * s.flashOf)) (short.map some) }
    { u with irqs := u.irqs ++ [(0, 0), (1, 0), (2, 0), (3, 0)] }

/-! ## The events -/

/-- LINK_CRC_ERROR. -/
def execLinkCrcError (s : State) : Host.Outcome State Fault Refusal := .next (doLinkCrc s)
/-- LINK_DEAD. -/
def execLinkDead (s : State) : Host.Outcome State Fault Refusal := .next (doLinkDead s)
/-- DEATH_NOTICE. -/
def execDeathNotice (link : Nat) (s : State) : Host.Outcome State Fault Refusal := .next (doDeathNotice link s)
/-- NST_REROUTE. -/
def execNstReroute (s : State) : Host.Outcome State Fault Refusal := .next (doReroute s)
/-- REQUEST_LOSS_TIMEOUT. -/
def execRequestLossTimeout (s : State) : Host.Outcome State Fault Refusal := .next (doLoss s)
/-- SCRUB_PATROL. -/
def execScrubPatrol (bank : Nat) (s : State) : Host.Outcome State Fault Refusal := .next (doScrub bank s)
/-- HEARTBEAT. -/
def execHeartbeat (s : State) : Host.Outcome State Fault Refusal := .next (doHeartbeat s)
/-- WATCHER_READ. -/
def execWatcherRead (s : State) : Host.Outcome State Fault Refusal := .next (doWatcher s)
/-- FENCE_WRITE. -/
def execFenceWrite (s : State) : Host.Outcome State Fault Refusal := .next (doFence s)
/-- CTXDOWN. -/
def execCtxdown (s : State) : Host.Outcome State Fault Refusal := .next (doCtxdown s)
/-- ERROR_INTERRUPT. -/
def execErrorInterrupt (s : State) : Host.Outcome State Fault Refusal := .next (doErrorIrq s)
/-- FATAL_FREEZE. -/
def execFatalFreeze (s : State) : Host.Outcome State Fault Refusal := .next (doFreeze s)

end Sys2Proof.Machine
end

