-- ==== Sys2Proof/Machine/EvBoot.lean ====
section
/-! DEFINITION. Module reset, bring-up, boot and recovery as they happen (R17, R313, R314, R328 to R333, R436 to R441). -/

namespace Sys2Proof.Machine

open Sys2Proof

/-! ## Boot (R332, R439) -/

/-- A record of firmware about a site or a slot. -/
def State.logSite (s : State) (kind site detail : Nat) : State :=
  let be := 0x240 + s.bootingEdge
  let h := s.home be
  (s.modHome be fun x => { x with errSeq := x.errSeq + 1#32 }).logBytes
    (errBytes s.nsE0 0 0 1 be site false 0 kind detail h.errSeq.toNat)

/-- A slot is refused: its record and its FWBAD bit. -/
def State.refuseSlot (s : State) (slot reason : Nat) : State :=
  let s1 := s.logSite 21 (576 + s.bootingEdge) (2 ^ 8 * slot + reason)
  (s1.modMod fun m => { m with health := m.health ||| BitVec.ofNat 64 (2 ^ (32 + slot)) }).syncHealth false

/-- The ROM boots from a slot that it has verified. -/
def State.bootFrom (s : State) (slot : Nat) : State :=
  match s.slotImageOf slot with
  | none => s
  | some (_, image) =>
    let s1 := (((s.measure 0 Config.romItems).measure 1 image).measure 2 Config.homeFirmware).modMod fun m => { m with attempt := 1 }
    { s1 with boot := { s1.boot with verified := true, fwslot := slot, secver := Config.imageSecver image } }

/-- BOOT_VERIFY: the booting edge tries the slot that its selector names, then the other; with both refused the part enters recovery
mode. -/
def doBootVerify (s0 : State) : State :=
  if s0.boot.verified ∨ s0.boot.recovery then s0
  else
    let s := if s0.boot.rotOk then s0 else s0.modMod fun m => { m with bootEdge := true }
    let a := tgetD s.boot.selector s.flashOf 0 % 2
    let b := 1 - a
    let ra := s.slotReason a
    if ra = 0 then s.bootFrom a
    else
      let s1 := s.refuseSlot a ra
      let rb := s.slotReason b
      if rb = 0 then s1.bootFrom b
      else
        let s2 := (s1.refuseSlot b rb).measure 0 Config.romItems
        { s2 with boot := { s2.boot with
            recovery := true
            phase := 0
            reasonA := if a = 0 then ra else rb
            reasonB := if a = 0 then rb else ra } }

/-! ## Waves (R329, R330) -/

/-- The six boundary sites of the field edge that an edge chiplet faces (R18). -/
def seededSites (e : Nat) : List Nat := (List.range 6).map fun i =>
  if e < 4 then 6 * e + i
  else if e < 8 then 24 * (6 * (e - 4) + i) + 23
  else if e < 12 then 24 * 23 + (6 * (11 - e) + i)
  else 24 * (6 * (15 - e) + i)

/-- WAVE_LAUNCH: every edge chiplet launches its wave at T0. -/
def doWaveLaunch (s : State) : State :=
  if !s.boot.verified ∨ s.boot.t0.isSome then s
  else
    let waves := ((List.range nEdges).map fun e => (seededSites e).map fun x => (x, e, 1)).foldr (· ++ ·) []
    let s1 : State := { s with boot := { s.boot with t0 := some s.ncyc, waves := waves } }
    (List.range nEdges).foldl (fun (t : State) e => t.modSite (576 + e) fun x =>
      { x with st := 1, wave := s.mod.attempt, origin := e }) s1

/-- A wave goes before another to its site: fewer hops, then the lower origin. -/
def waveFirst (a b : Nat × Nat × Nat) : Bool :=
  decide (a.2.2 < b.2.2) || (a.2.2 == b.2.2 && (a.1 != b.1 || decide (a.2.1 ≤ b.2.1)))

/-- WAVE_ARRIVAL: a DARK site adopts the wave and forwards it; another absorbs it. -/
def doWaveArrival (origin hops : Nat) (s : State) : State :=
  let w : Nat × Nat × Nat := (s.subj, origin, hops)
  let due : Bool := match s.boot.t0 with
    | some t => decide (t + hops * usN ≤ s.ncyc)
    | none => false
  if !(s.boot.waves.contains w) || !due || !(s.boot.waves.all fun v => waveFirst w v) then s
  else
    let rest := s.boot.waves.erase w
    if (s.site s.subj).st ≠ 0 then { s with boot := { s.boot with waves := rest } }
    else
      let out := ((neighbours s.subj).filter fun n => (s.site n.2).st == 0).map fun n => (n.2, origin, hops + 1)
      let s1 : State := { s with boot := { s.boot with waves := rest ++ out.filter fun v => !(rest.contains v) } }
      (s1.modSite s.subj fun x => { x with st := 1, wave := s.mod.attempt, hops := hops, origin := origin }).stateVector

/-! ## From SEEDED to READY (R328, R333) -/

/-- SITE_LOCKED: the clocks are locked and the count of device time is loaded; whether firmware finds it aligned is a free value
(log 34). -/
def doLocked (s : State) : State :=
  if (s.site s.subj).st = 1 then
    let r := s.free
    (r.2.modSite s.subj fun x => { x with st := 2, tries := 0, since := s.ncyc, off := r.1.getLsbD 0 }).stateVector
  else s

/-- A site that has locked its clocks, or that has failed for good. -/
def pastLocked (st : Nat) : Bool := st != 0 && st != 1

/-- A link between neighbours is trained on both meshes: it is not dead, and the neighbour has not failed. -/
def State.linkUp (s : State) (i dir n : Nat) : Bool :=
  !(deadSite (s.site n).st) && (s.deadLinks.all fun d => d.link != canonLink (10 * i + dir) && d.link != canonLink (10 * i + 5 + dir))

/-- LINK_TRAINED: the site and every neighbour are LOCKED, and every link to a neighbour that has not failed is trained on both
meshes; a site in LINKFAIL goes on without its dead links (R328, R436). -/
def doTrained (s : State) : State :=
  let i := s.subj
  let ns := if i < nSites then neighbours i else []
  let whole : Bool := ns.all fun n => deadSite (s.site n.2).st || s.linkUp i n.1 n.2
  if (((s.site i).st = 2 ∧ whole) ∨ (s.site i).st = 9) ∧ (ns.all fun n => pastLocked (s.site n.2).st) then
    let links := ns.foldl (fun a n => if s.linkUp i n.1 n.2 then a + 2 ^ n.1 else a) 0
    (s.modSite i fun x => { x with st := if x.st = 9 then 9 else 3, links := links, tries := 0 }).stateVector
  else s

/-- SITE_LOADED: the origin edge has written a site's configuration and measured it. -/
def doLoaded (conf : List Byte) (s : State) : State :=
  let i := s.subj
  if (s.site i).st = 3 ∨ (s.site i).st = 9 then
    let s1 : State := { s with boot := { s.boot with confs := tset s.boot.confs i conf } }
    (s1.modSite i fun x => { x with st := 4 }).stateVector
  else s

/-- Marks a failed site with its record. -/
def State.failSite (s : State) (i st : Nat) : State :=
  let s1 := s.modSite i fun x => { x with st := st, tries := 0 }
  (s1.logSite 20 i (siteWord (s1.site i))).syncHealth false

/-- The site of a compute chiplet's near memory chiplet (R16). -/
def nearSite (i : Nat) : Nat := match i % 24 % 6 with
  | 0 => i + 1
  | 2 => i - 1
  | 3 => i + 1
  | 5 => i - 1
  | _ => i

/-- A compute chiplet whose near memory chiplet is not live is retired (R437). -/
def State.retireOrphan (s : State) (i : Nat) : State :=
  if deadSite (s.site (nearSite i)).st && !(deadSite (s.site i).st) then s.failSite i 12 else s

/-- A home map entry (R313). -/
def mapEntry (home : Nat) : BitVec 16 :=
  let i := siteOfHome home
  let g := gridSite i
  BitVec.ofNat 16 (2 ^ 15 + 2 ^ 14 * b2n (decide (576 ≤ i)) + 2 ^ 5 * (g / 24) + g % 24)

/-- The homes that R63 assigns: clusters, memory chiplets, edges, host ports. -/
def assignedHomes : List Nat := List.range (nClusters + nMcs + nEdges) ++ (List.range 4).map fun p => 0x3F0 + p

/-- Every site in one state moves to the next. -/
def State.advance (s : State) (a b : Nat) : State :=
  let up (p : Nat × Site) : Nat × Site := if p.2.st = a then (p.1, { p.2 with st := b }) else p
  { s with sites := s.sites.map up }.stateVector

/-- A site in a failure state. -/
def failedState (st : Nat) : Bool := decide (7 ≤ st) && decide (st ≤ 12)

/-- The bring-up attempt starts again (R438): an edge chiplet but the booting one has failed, or more than 16 sites have, or a time is
out of alignment, and it is not the fourth attempt. -/
def State.mustRestart (s : State) : Bool :=
  decide (s.mod.attempt < 4)
    && (((List.range nEdges).any fun e => e != s.bootingEdge && failedState (s.site (576 + e)).st)
      || decide (16 < ((List.range nSites).filter fun i => failedState (s.site i).st).length)
      || s.misaligned)

/-- NAMED: every site is LOADED; E0 writes the home map and the NST defaults into every interface, which know every dead link, and
they are measured. -/
def doNamed (s : State) : State :=
  let ready : Bool := (List.range (nSites + nEdges)).all fun i => (s.site i).st == 4 || deadSite (s.site i).st
  if !ready || s.mustRestart then s
  else
    let s1 := (List.range nSites).foldl (fun (t : State) i => t.retireOrphan i) s
    let map : Table (BitVec 16) := (assignedHomes.filter fun h => !(deadSite (s1.site (siteOfHome h)).st)).map fun h => (h, mapEntry h)
    let s2 := (s1.boot.confs.filter fun p => !(deadSite (s1.site p.1).st)).foldl (fun (t : State) p => t.measure 3 p.2) s1
    let all := List.range (nSites + nEdges)
    let s3 : State :=
      { s2 with
        homeMap := map
        nst := []
        deadLinks := s2.deadLinks.map fun d => { d with noticed := all.map fun i => (i, s.ncyc), rerouted := all } }
    let s4 := if s3.deadLinks.isEmpty then s3
      else all.foldl (fun (t : State) i => (List.range 1024).foldl (fun (u : State) h => u.turnEntry i h) t) s3
    let item := joinBytes ((List.range 1024).map fun h => bytesOfNat 2 (tgetD map h 0#16).toNat)
      ++ joinBytes ((List.range 1024).map fun h => bytesOfNat 1 (h % 2))
    let s5 := s4.measure 4 item
    s5.advance 4 5

/-- READY_BROADCAST. -/
def doReady (s : State) : State :=
  let ready : Bool := (List.range (nSites + nEdges)).all fun i => (s.site i).st == 5 || deadSite (s.site i).st
  if !ready || s.mustRestart then s else s.advance 5 6

/-! ## Bring-up failures (R436 to R438) -/

/-- A time of the bring-up after T0 has passed. -/
def State.pastT0 (s : State) (n : Nat) : Bool := match s.boot.t0 with
  | some t => decide (t + n ≤ s.ncyc)
  | none => false

/-- A site that has locked its clocks and has not failed. -/
def State.lockedLive (s : State) (i : Nat) : Bool := pastLocked (s.site i).st && !(deadSite (s.site i).st)

/-- The neighbours of a site have locked their clocks, a ms ago and more, but for those that have failed or that no wave has reached. -/
def State.lockedLong (s : State) (ns : List Nat) : Bool :=
  (ns.any s.lockedLive) && ns.all fun n => (s.site n).st != 1 && (!(s.lockedLive n) || decide ((s.site n).since + msN ≤ s.ncyc))

/-- One more attempt of a site has failed; with the last allowed it takes a failure STATE. -/
def State.tryFail (s : State) (i st limit : Nat) : State :=
  let n := (s.site i).tries + 1
  if limit ≤ n then s.failSite i st else s.modSite i fun x => { x with tries := n }

/-- Every link and the local port of a dead chiplet are dead (R400). -/
def State.killSite (s : State) (i : Nat) : State := (siteLinks i).foldl State.killLink s

/-- The link that stays untrained (R436 STATE 9): which one is a free value (log 3). -/
def State.linkFail (s : State) (i : Nat) : State :=
  let r := s.free
  if nSites ≤ i then r.2
  else
    let ns := neighbours i
    let dir := (ns.getD (bitsOf r.1.toNat 0 8 % ns.length) (4, i)).1
    r.2.killLink (10 * i + 5 * bitsOf r.1.toNat 8 1 + dir)

/-- BRINGUP_TIMEOUT: a site that fails to train, lock, load or be reached in time takes a failure STATE. -/
def doBringupTimeout (st : Nat) (s : State) : State :=
  let i := s.subj
  let x := s.site i
  let ns := if i < nSites then (neighbours i).map Prod.snd else seededSites (i - nSites)
  let r : State :=
    if st = 7 then
      (if x.st ≤ 2 ∧ s.lockedLong ns then (s.failSite i 7).killSite i else s)
    else if st = 8 then
      (if x.st = 1 ∧ s.pastT0 (x.hops * usN + 200 * usN) then (s.failSite i 8).killSite i else s)
    else if st = 9 then
      (if x.st ≠ 2 then s
      else
        let t := s.tryFail i 9 3
        if (t.site i).st = 9 then t.linkFail i else t)
    else if st = 10 then (if x.st = 3 ∨ x.st = 9 then s.tryFail i 10 2 else s)
    else if st = 11 then
      (if x.st = 0 ∧ s.pastT0 msN ∧ i < nSites ∧ (ns.all fun n => (s.site n).st == 7) then (s.failSite i 11).killSite i else s)
    else if i < nSites then s.retireOrphan i
    else s
  { r with subj := i }.stateVector

/-- BRINGUP_RESTART: an attempt that R438 rejects starts again from DARK, four times at most. -/
def doRestart (s : State) : State :=
  if s.boot.t0.isNone ∨ s.modState = 6 ∨ !s.mustRestart then s
  else
    let s1 := s.modMod fun m => { m with attempt := m.attempt + 1 }
    { s1 with
      sites := []
      deadLinks := []
      replays := []
      homeMap := []
      nst := []
      boot := { s1.boot with t0 := none, waves := [], confs := [] } }.stateVector.syncHealth false

/-! ## Recovery (R441) -/

/-- RECOVERY_VERIFY_DONE: the verification of a staged image ends, and an image that passes is then written: PHASE 2 while the flash is
written, 3 once it is; 4 for a refused one. -/
def doRecoveryDone (s : State) : State :=
  let slot := s.boot.recSlot
  if !s.boot.recovery then s
  else if s.boot.phase = 1 then
    let reason := imageReason s.boot.recLen (s.bytesAt (stagingKey 0) (min s.boot.recLen imageMax))
    if reason = 0 then { s with boot := { s.boot with phase := 2 } }
    else { s with boot := { s.boot with
      phase := 4
      reasonA := if slot = 0 then reason else s.boot.reasonA
      reasonB := if slot = 1 then reason else s.boot.reasonB } }
  else if s.boot.phase = 2 then
    let k := 2 * s.flashOf + slot
    let image := s.bytesAt (stagingKey 0) s.boot.recLen
    { s with
      mem := memWrite s.mem (flashKey k 0) (image.map some)
      boot := { s.boot with
        phase := 3
        slots := tset s.boot.slots k s.boot.recLen
        selector := tset s.boot.selector s.flashOf slot } }
  else s

/-! ## The events -/

/-- MODULE_RESET. -/
def execModuleReset (s : State) : Host.Outcome State Fault Refusal := .next s.moduleReset
/-- BOOT_VERIFY. -/
def execBootVerify (s : State) : Host.Outcome State Fault Refusal := .next (doBootVerify s)
/-- WAVE_LAUNCH. -/
def execWaveLaunch (s : State) : Host.Outcome State Fault Refusal := .next (doWaveLaunch s)
/-- WAVE_ARRIVAL. -/
def execWaveArrival (origin hops : Nat) (s : State) : Host.Outcome State Fault Refusal := .next (doWaveArrival origin hops s)
/-- SITE_LOCKED. -/
def execSiteLocked (s : State) : Host.Outcome State Fault Refusal := .next (doLocked s)
/-- LINK_TRAINED. -/
def execLinkTrained (s : State) : Host.Outcome State Fault Refusal := .next (doTrained s)
/-- SITE_LOADED. -/
def execSiteLoaded (conf : List Byte) (s : State) : Host.Outcome State Fault Refusal := .next (doLoaded conf s)
/-- NAMED. -/
def execNamed (s : State) : Host.Outcome State Fault Refusal := .next (doNamed s)
/-- READY_BROADCAST. -/
def execReadyBroadcast (s : State) : Host.Outcome State Fault Refusal := .next (doReady s)
/-- BRINGUP_TIMEOUT. -/
def execBringupTimeout (st : Nat) (s : State) : Host.Outcome State Fault Refusal := .next (doBringupTimeout st s)
/-- BRINGUP_RESTART. -/
def execBringupRestart (s : State) : Host.Outcome State Fault Refusal := .next (doRestart s)
/-- RECOVERY_GO. -/
def execRecoveryGo (w : Word) (s : State) : Host.Outcome State Fault Refusal := .next (s.recGo w)
/-- RECOVERY_RESET. -/
def execRecoveryReset (s : State) : Host.Outcome State Fault Refusal := .next s.recReset
/-- RECOVERY_REPORT. -/
def execRecoveryReport (s : State) : Host.Outcome State Fault Refusal := .next s.recReport
/-- RECOVERY_VERIFY_DONE. -/
def execRecoveryVerifyDone (s : State) : Host.Outcome State Fault Refusal := .next (doRecoveryDone s)

end Sys2Proof.Machine
end

