-- ==== Sys2Proof/Machine/Dispatch.lean ====
section
/-! DEFINITION. One arm for each row of the opcode table: a direct call of its meaning. -/

namespace Sys2Proof.Machine

open Sys2Proof

def exec (i : Instr) (s : State) : Host.Outcome State Fault Refusal :=
  match i with
  | .vadd m ty vd vs1 vs2 => Sys2Proof.Machine.execVadd m ty vd vs1 vs2 s
  | .vsub m ty vd vs1 vs2 => Sys2Proof.Machine.execVsub m ty vd vs1 vs2 s
  | .vmul m ty vd vs1 vs2 => Sys2Proof.Machine.execVmul m ty vd vs1 vs2 s
  | .vmadd m ty vd vs1 vs2 => Sys2Proof.Machine.execVmadd m ty vd vs1 vs2 s
  | .vmsub m ty vd vs1 vs2 => Sys2Proof.Machine.execVmsub m ty vd vs1 vs2 s
  | .vmin m ty vd vs1 vs2 => Sys2Proof.Machine.execVmin m ty vd vs1 vs2 s
  | .vmax m ty vd vs1 vs2 => Sys2Proof.Machine.execVmax m ty vd vs1 vs2 s
  | .vabs m ty vd vs1 => Sys2Proof.Machine.execVabs m ty vd vs1 s
  | .vneg m ty vd vs1 => Sys2Proof.Machine.execVneg m ty vd vs1 s
  | .vand m vd vs1 vs2 => Sys2Proof.Machine.execVand m vd vs1 vs2 s
  | .vor m vd vs1 vs2 => Sys2Proof.Machine.execVor m vd vs1 vs2 s
  | .vxor m vd vs1 vs2 => Sys2Proof.Machine.execVxor m vd vs1 vs2 s
  | .vnot m vd vs1 => Sys2Proof.Machine.execVnot m vd vs1 s
  | .vsll m vd vs1 vs2 => Sys2Proof.Machine.execVsll m vd vs1 vs2 s
  | .vsrl m vd vs1 vs2 => Sys2Proof.Machine.execVsrl m vd vs1 vs2 s
  | .vsra m vd vs1 vs2 => Sys2Proof.Machine.execVsra m vd vs1 vs2 s
  | .vcmpeq m ty cond vs1 vs2 => Sys2Proof.Machine.execVcmpeq m ty cond vs1 vs2 s
  | .vcmplt m ty cond vs1 vs2 => Sys2Proof.Machine.execVcmplt m ty cond vs1 vs2 s
  | .vcmple m ty cond vs1 vs2 => Sys2Proof.Machine.execVcmple m ty cond vs1 vs2 s
  | .vsel m vd vs1 vs2 => Sys2Proof.Machine.execVsel m vd vs1 vs2 s
  | .vrcp m vd vs1 => Sys2Proof.Machine.execVrcp m vd vs1 s
  | .vrsq m vd vs1 => Sys2Proof.Machine.execVrsq m vd vs1 s
  | .vexp2 m vd vs1 => Sys2Proof.Machine.execVexp2 m vd vs1 s
  | .vlog2 m vd vs1 => Sys2Proof.Machine.execVlog2 m vd vs1 s
  | .vcvtToLaneType m ty vd vs1 ef => Sys2Proof.Machine.execVcvtToLaneType m ty vd vs1 ef s
  | .vcvtToNarrow m ty vd vs1 ef => Sys2Proof.Machine.execVcvtToNarrow m ty vd vs1 ef s
  | .vcvtToNarrowSat m ty vd vs1 ef => Sys2Proof.Machine.execVcvtToNarrowSat m ty vd vs1 ef s
  | .vquant m q vd vs1 rs2 => Sys2Proof.Machine.execVquant m q vd vs1 rs2 s
  | .vdequant m vd vs1 => Sys2Proof.Machine.execVdequant m vd vs1 s
  | .vamax m vd vs1 => Sys2Proof.Machine.execVamax m vd vs1 s
  | .vredsum m ty vd vs1 => Sys2Proof.Machine.execVredsum m ty vd vs1 s
  | .vredmax m ty vd vs1 => Sys2Proof.Machine.execVredmax m ty vd vs1 s
  | .vredmin m ty vd vs1 => Sys2Proof.Machine.execVredmin m ty vd vs1 s
  | .vbcast m vd rs1 => Sys2Proof.Machine.execVbcast m vd rs1 s
  | .vextr m rd vs1 lane => Sys2Proof.Machine.execVextr m rd vs1 lane s
  | .vins m vd rs1 lane => Sys2Proof.Machine.execVins m vd rs1 lane s
  | .vperm m vd vs1 vs2 => Sys2Proof.Machine.execVperm m vd vs1 vs2 s
  | .vslide m vd vs1 n => Sys2Proof.Machine.execVslide m vd vs1 n s
  | .vzip m vd vs1 vs2 => Sys2Proof.Machine.execVzip m vd vs1 vs2 s
  | .vunzip m vd vs1 vs2 => Sys2Proof.Machine.execVunzip m vd vs1 vs2 s
  | .vmov m vd vs1 => Sys2Proof.Machine.execVmov m vd vs1 s
  | .lrx w rd rs1 off => Sys2Proof.Machine.execLrx w rd rs1 off s
  | .srx w rt rs1 off => Sys2Proof.Machine.execSrx w rt rs1 off s
  | .vld rx v rs1 off => Sys2Proof.Machine.execVld rx v rs1 off s
  | .vst rx v rs1 off => Sys2Proof.Machine.execVst rx v rs1 off s
  | .vlds rx v rs1 rs2 => Sys2Proof.Machine.execVlds rx v rs1 rs2 s
  | .vsts rx v rs1 rs2 => Sys2Proof.Machine.execVsts rx v rs1 rs2 s
  | .vldx rx v rs1 vs2 => Sys2Proof.Machine.execVldx rx v rs1 vs2 s
  | .vstx rx v rs1 vs2 => Sys2Proof.Machine.execVstx rx v rs1 vs2 s
  | .vldl vd rs1 off seg => Sys2Proof.Machine.execVldl vd rs1 off seg s
  | .ldbit r rs1 rs2 w => Sys2Proof.Machine.execLdbit r rs1 rs2 w s
  | .stbit r rs1 rs2 w => Sys2Proof.Machine.execStbit r rs1 rs2 w s
  | .vldbit r rs1 rs2 w => Sys2Proof.Machine.execVldbit r rs1 rs2 w s
  | .vstbit r rs1 rs2 w => Sys2Proof.Machine.execVstbit r rs1 rs2 w s
  | .ldtag r rs1 off => Sys2Proof.Machine.execLdtag r rs1 off s
  | .sttag r rs1 off => Sys2Proof.Machine.execSttag r rs1 off s
  | .fenceS sc => Sys2Proof.Machine.execFenceS sc s
  | .ldAqB sc rd rs1 => Sys2Proof.Machine.execLdAqB sc rd rs1 s
  | .ldAqH sc rd rs1 => Sys2Proof.Machine.execLdAqH sc rd rs1 s
  | .ldAqW sc rd rs1 => Sys2Proof.Machine.execLdAqW sc rd rs1 s
  | .ldAqD sc rd rs1 => Sys2Proof.Machine.execLdAqD sc rd rs1 s
  | .stRlB sc rs2 rs1 => Sys2Proof.Machine.execStRlB sc rs2 rs1 s
  | .stRlH sc rs2 rs1 => Sys2Proof.Machine.execStRlH sc rs2 rs1 s
  | .stRlW sc rs2 rs1 => Sys2Proof.Machine.execStRlW sc rs2 rs1 s
  | .stRlD sc rs2 rs1 => Sys2Proof.Machine.execStRlD sc rs2 rs1 s
  | .baddW sc rd rs1 rs2 => Sys2Proof.Machine.execBaddW sc rd rs1 rs2 s
  | .baddD sc rd rs1 rs2 => Sys2Proof.Machine.execBaddD sc rd rs1 rs2 s
  | .bfadd sc rd rs1 rs2 => Sys2Proof.Machine.execBfadd sc rd rs1 rs2 s
  | .bminW sc rd rs1 rs2 => Sys2Proof.Machine.execBminW sc rd rs1 rs2 s
  | .bminD sc rd rs1 rs2 => Sys2Proof.Machine.execBminD sc rd rs1 rs2 s
  | .bminWu sc rd rs1 rs2 => Sys2Proof.Machine.execBminWu sc rd rs1 rs2 s
  | .bminDu sc rd rs1 rs2 => Sys2Proof.Machine.execBminDu sc rd rs1 rs2 s
  | .bmaxW sc rd rs1 rs2 => Sys2Proof.Machine.execBmaxW sc rd rs1 rs2 s
  | .bmaxD sc rd rs1 rs2 => Sys2Proof.Machine.execBmaxD sc rd rs1 rs2 s
  | .bmaxWu sc rd rs1 rs2 => Sys2Proof.Machine.execBmaxWu sc rd rs1 rs2 s
  | .bmaxDu sc rd rs1 rs2 => Sys2Proof.Machine.execBmaxDu sc rd rs1 rs2 s
  | .bfmin sc rd rs1 rs2 => Sys2Proof.Machine.execBfmin sc rd rs1 rs2 s
  | .bfmax sc rd rs1 rs2 => Sys2Proof.Machine.execBfmax sc rd rs1 rs2 s
  | .bxchgW sc rd rs1 rs2 => Sys2Proof.Machine.execBxchgW sc rd rs1 rs2 s
  | .bxchgD sc rd rs1 rs2 => Sys2Proof.Machine.execBxchgD sc rd rs1 rs2 s
  | .bcasW sc rd rs1 rs2 => Sys2Proof.Machine.execBcasW sc rd rs1 rs2 s
  | .bcasD sc rd rs1 rs2 => Sys2Proof.Machine.execBcasD sc rd rs1 rs2 s
  | .bvredAddI32 sc rd rs1 rs2 => Sys2Proof.Machine.execBvredAddI32 sc rd rs1 rs2 s
  | .bvredAddF32 sc rd rs1 rs2 => Sys2Proof.Machine.execBvredAddF32 sc rd rs1 rs2 s
  | .bvredMinI32 sc rd rs1 rs2 => Sys2Proof.Machine.execBvredMinI32 sc rd rs1 rs2 s
  | .bvredMinF32 sc rd rs1 rs2 => Sys2Proof.Machine.execBvredMinF32 sc rd rs1 rs2 s
  | .bvredMaxI32 sc rd rs1 rs2 => Sys2Proof.Machine.execBvredMaxI32 sc rd rs1 rs2 s
  | .bvredMaxF32 sc rd rs1 rs2 => Sys2Proof.Machine.execBvredMaxF32 sc rd rs1 rs2 s
  | .bqenq sc rd rs1 rs2 => Sys2Proof.Machine.execBqenq sc rd rs1 rs2 s
  | .bqdeq sc rd rs1 => Sys2Proof.Machine.execBqdeq sc rd rs1 s
  | .bqlen sc rd rs1 => Sys2Proof.Machine.execBqlen sc rd rs1 s
  | .bar sc rd rs1 => Sys2Proof.Machine.execBar sc rd rs1 s
  | .barrive sc rd rs1 => Sys2Proof.Machine.execBarrive sc rd rs1 s
  | .bwait rd rs1 => Sys2Proof.Machine.execBwait rd rs1 s
  | .barcSumI32 sc rd rs1 rs2 => Sys2Proof.Machine.execBarcSumI32 sc rd rs1 rs2 s
  | .barcSumF32 sc rd rs1 rs2 => Sys2Proof.Machine.execBarcSumF32 sc rd rs1 rs2 s
  | .barcMinI32 sc rd rs1 rs2 => Sys2Proof.Machine.execBarcMinI32 sc rd rs1 rs2 s
  | .barcMinF32 sc rd rs1 rs2 => Sys2Proof.Machine.execBarcMinF32 sc rd rs1 rs2 s
  | .barcMaxI32 sc rd rs1 rs2 => Sys2Proof.Machine.execBarcMaxI32 sc rd rs1 rs2 s
  | .barcMaxF32 sc rd rs1 rs2 => Sys2Proof.Machine.execBarcMaxF32 sc rd rs1 rs2 s
  | .barmax sc rd rs1 rs2 => Sys2Proof.Machine.execBarmax sc rd rs1 rs2 s
  | .fwait rs1 => Sys2Proof.Machine.execFwait rs1 s
  | .ftest rd rs1 => Sys2Proof.Machine.execFtest rd rs1 s
  | .fcancel rs1 => Sys2Proof.Machine.execFcancel rs1 s
  | .fpass rd rs1 => Sys2Proof.Machine.execFpass rd rs1 s
  | .fwaitall rs1 => Sys2Proof.Machine.execFwaitall rs1 s
  | .send sc rd rs1 rs2 => Sys2Proof.Machine.execSend sc rd rs1 rs2 s
  | .sendp sc rd rs1 rs2 => Sys2Proof.Machine.execSendp sc rd rs1 rs2 s
  | .recv rd rs1 => Sys2Proof.Machine.execRecv rd rs1 s
  | .recvt rd rs1 rs2 => Sys2Proof.Machine.execRecvt rd rs1 rs2 s
  | .mbcfg rs2 rs1 => Sys2Proof.Machine.execMbcfg rs2 rs1 s
  | .mbpeek rd rs1 => Sys2Proof.Machine.execMbpeek rd rs1 s
  | .gbCfg rs1 rs2 => Sys2Proof.Machine.execGbCfg rs1 rs2 s
  | .gbLdf rs1 => Sys2Proof.Machine.execGbLdf rs1 s
  | .gbAddm rs1 rs2 => Sys2Proof.Machine.execGbAddm rs1 rs2 s
  | .gbSubm rs1 rs2 => Sys2Proof.Machine.execGbSubm rs1 rs2 s
  | .gbElim rs1 => Sys2Proof.Machine.execGbElim rs1 s
  | .gbEmit rd rs2 rs1 => Sys2Proof.Machine.execGbEmit rd rs2 rs1 s
  | .gbBel rs1 => Sys2Proof.Machine.execGbBel rs1 s
  | .gbMean rs1 => Sys2Proof.Machine.execGbMean rs1 s
  | .gbRes rd => Sys2Proof.Machine.execGbRes rd s
  | .gbLdw rs1 => Sys2Proof.Machine.execGbLdw rs1 s
  | .gbStw rs1 => Sys2Proof.Machine.execGbStw rs1 s
  | .pwset rs1 => Sys2Proof.Machine.execPwset rs1 s
  | .pwclr rs1 => Sys2Proof.Machine.execPwclr rs1 s
  | .pwand d a b => Sys2Proof.Machine.execPwand d a b s
  | .pwor d a b => Sys2Proof.Machine.execPwor d a b s
  | .pwnot d a => Sys2Proof.Machine.execPwnot d a s
  | .pwpop rd rs1 => Sys2Proof.Machine.execPwpop rd rs1 s
  | .migrate rs1 => Sys2Proof.Machine.execMigrate rs1 s
  | .tlease rd => Sys2Proof.Machine.execTlease rd s
  | .tcfg width int plog2 tra chk => Sys2Proof.Machine.execTcfg width int plog2 tra chk s
  | .tring ring rs1 rs2 => Sys2Proof.Machine.execTring ring rs1 rs2 s
  | .radv ring rs1 => Sys2Proof.Machine.execRadv ring rs1 s
  | .tzero acc => Sys2Proof.Machine.execTzero acc s
  | .tmma rd acc ar br passes1 => Sys2Proof.Machine.execTmma rd acc ar br passes1 s
  | .tmmat rd acc ar br passes1 => Sys2Proof.Machine.execTmmat rd acc ar br passes1 s
  | .tldc acc ef rs1 => Sys2Proof.Machine.execTldc acc ef rs1 s
  | .tstc rd acc ef sat scale rs1 rs2 => Sys2Proof.Machine.execTstc rd acc ef sat scale rs1 rs2 s
  | .tstat rd => Sys2Proof.Machine.execTstat rd s
  | .tsave rd acc rs1 => Sys2Proof.Machine.execTsave rd acc rs1 s
  | .tload rd acc rs1 => Sys2Proof.Machine.execTload rd acc rs1 s
  | .cpy rd rs1 => Sys2Proof.Machine.execCpy rd rs1 s
  | .cpyd rd rs1 rs2 n => Sys2Proof.Machine.execCpyd rd rs1 rs2 n s
  | .cpyk rd rs1 rs2 => Sys2Proof.Machine.execCpyk rd rs1 rs2 s
  | .pref rd rs1 n => Sys2Proof.Machine.execPref rd rs1 n s
  | .launch rd rs1 q => Sys2Proof.Machine.execLaunch rd rs1 q s
  | .phint lrtoff livex livev => Sys2Proof.Machine.execPhint lrtoff livex livev s
  | .baseLoad w rd rs1 imm => Sys2Proof.Machine.execBaseLoad w rd rs1 imm s
  | .baseStore w rs1 rs2 imm => Sys2Proof.Machine.execBaseStore w rs1 rs2 imm s
  | .amo op dbl aq rl rd rs1 rs2 => Sys2Proof.Machine.execAmo op dbl aq rl rd rs1 rs2 s
  | .lr dbl aq rl rd rs1 => Sys2Proof.Machine.execLr dbl aq rl rd rs1 s
  | .sc dbl aq rl rd rs1 rs2 => Sys2Proof.Machine.execSc dbl aq rl rd rs1 rs2 s
  | .fence fm pred succ rd rs1 => Sys2Proof.Machine.execFence fm pred succ rd rs1 s
  | .fenceTso rd rs1 => Sys2Proof.Machine.execFenceTso rd rs1 s
  | .fenceI imm rd rs1 => Sys2Proof.Machine.execFenceI imm rd rs1 s
  | .sfenceVma rs1 rs2 => Sys2Proof.Machine.execSfenceVma rs1 rs2 s
  | .csrAccess op csr rd src => Sys2Proof.Machine.execCsrAccess op csr rd src s
  | .dxtstatAccess op rd src => Sys2Proof.Machine.execDxtstatAccess op rd src s
  | .relaxedLoadReturn acc => Sys2Proof.Machine.execRelaxedLoadReturn acc s
  | .entryDrain entry => Sys2Proof.Machine.execEntryDrain entry s
  | .drainTimeout entry => Sys2Proof.Machine.execDrainTimeout entry s
  | .postBufferFree entry => Sys2Proof.Machine.execPostBufferFree entry s
  | .queueDescriptorWrite q half w => Sys2Proof.Machine.execQueueDescriptorWrite q half w s
  | .granuleRebind g dest => Sys2Proof.Machine.execGranuleRebind g dest s
  | .localRangeWithdrawAck g => Sys2Proof.Machine.execLocalRangeWithdrawAck g s
  | .rebindAckTimeout g => Sys2Proof.Machine.execRebindAckTimeout g s
  | .spillRingAppend entry => Sys2Proof.Machine.execSpillRingAppend entry s
  | .engineElementTransfer op => Sys2Proof.Machine.execEngineElementTransfer op s
  | .engineCommandComplete op => Sys2Proof.Machine.execEngineCommandComplete op s
  | .waitingSendEnter mb => Sys2Proof.Machine.execWaitingSendEnter mb s
  | .kern node => Sys2Proof.Machine.execKern node s
  | .pipe node => Sys2Proof.Machine.execPipe node s
  | .copyNode node => Sys2Proof.Machine.execCopyNode node s
  | .cond node => Sys2Proof.Machine.execCond node s
  | .signalNode node => Sys2Proof.Machine.execSignalNode node s
  | .hring node => Sys2Proof.Machine.execHring node s
  | .wait node => Sys2Proof.Machine.execWait node s
  | .join node => Sys2Proof.Machine.execJoin node s
  | .nodeFinish node => Sys2Proof.Machine.execNodeFinish node s
  | .mapQueue slot => Sys2Proof.Machine.execMapQueue slot s
  | .htlbinv w => Sys2Proof.Machine.execHtlbinv w s
  | .hmissdone w => Sys2Proof.Machine.execHmissdone w s
  | .qctlSkip q => Sys2Proof.Machine.execQctlSkip q s
  | .qctlRecheck q => Sys2Proof.Machine.execQctlRecheck q s
  | .mdutyWrite w => Sys2Proof.Machine.execMdutyWrite w s
  | .qtbaseWrite w => Sys2Proof.Machine.execQtbaseWrite w s
  | .nstdataWrite w => Sys2Proof.Machine.execNstdataWrite w s
  | .widxWrite n => Sys2Proof.Machine.execWidxWrite n s
  | .hscmdSwap w => Sys2Proof.Machine.execHscmdSwap w s
  | .hscmdLeave w => Sys2Proof.Machine.execHscmdLeave w s
  | .pgreqToHost w => Sys2Proof.Machine.execPgreqToHost w s
  | .pgreqToDevice w => Sys2Proof.Machine.execPgreqToDevice w s
  | .rxretWrite n => Sys2Proof.Machine.execRxretWrite n s
  | .reservationTableWrite w => Sys2Proof.Machine.execReservationTableWrite w s
  | .registerWrite off w => Sys2Proof.Machine.execRegisterWrite off w s
  | .apertureVirtual n off wr data => Sys2Proof.Machine.execApertureVirtual n off wr data s
  | .aperturePhysical n off wr data => Sys2Proof.Machine.execAperturePhysical n off wr data s
  | .apertureControl n off wr data => Sys2Proof.Machine.execApertureControl n off wr data s
  | .ethTransmit frame => Sys2Proof.Machine.execEthTransmit frame s
  | .ethReceive frame => Sys2Proof.Machine.execEthReceive frame s
  | .scrubPatrol bank => Sys2Proof.Machine.execScrubPatrol bank s
  | .poisonConsume reg => Sys2Proof.Machine.execPoisonConsume reg s
  | .deathNotice link => Sys2Proof.Machine.execDeathNotice link s
  | .powerThrottle mw => Sys2Proof.Machine.execPowerThrottle mw s
  | .waveArrival origin hops => Sys2Proof.Machine.execWaveArrival origin hops s
  | .siteLoaded conf => Sys2Proof.Machine.execSiteLoaded conf s
  | .bringupTimeout st => Sys2Proof.Machine.execBringupTimeout st s
  | .recoveryGo w => Sys2Proof.Machine.execRecoveryGo w s
  | .illegalInstruction bits => Sys2Proof.Machine.execIllegalInstruction bits s
  | .instructionAccessFault cause sub addr => Sys2Proof.Machine.execInstructionAccessFault cause sub addr s
  | .baseArithmetic op => Sys2Proof.Machine.execBaseArithmetic op s
  | .tokenBucketRefill c => Sys2Proof.Machine.execTokenBucketRefill c s
  | .gbClr => Sys2Proof.Machine.execGbClr s
  | .gend => Sys2Proof.Machine.execGend s
  | .yield => Sys2Proof.Machine.execYield s
  | .trelease => Sys2Proof.Machine.execTrelease s
  | .wfi => Sys2Proof.Machine.execWfi s
  | .ecall => Sys2Proof.Machine.execEcall s
  | .sret => Sys2Proof.Machine.execSret s
  | .boundaryDelivery => Sys2Proof.Machine.execBoundaryDelivery s
  | .futureCompletion => Sys2Proof.Machine.execFutureCompletion s
  | .futureFailure => Sys2Proof.Machine.execFutureFailure s
  | .plainAcknowledgement => Sys2Proof.Machine.execPlainAcknowledgement s
  | .homeRequest => Sys2Proof.Machine.execHomeRequest s
  | .tracedStoreResume => Sys2Proof.Machine.execTracedStoreResume s
  | .missRecordAtCore => Sys2Proof.Machine.execMissRecordAtCore s
  | .missService => Sys2Proof.Machine.execMissService s
  | .missListReplay => Sys2Proof.Machine.execMissListReplay s
  | .bankOperation => Sys2Proof.Machine.execBankOperation s
  | .queueEnqueue => Sys2Proof.Machine.execQueueEnqueue s
  | .queueDequeue => Sys2Proof.Machine.execQueueDequeue s
  | .queueLength => Sys2Proof.Machine.execQueueLength s
  | .barrierArrival => Sys2Proof.Machine.execBarrierArrival s
  | .gridArrival => Sys2Proof.Machine.execGridArrival s
  | .bwaitTest => Sys2Proof.Machine.execBwaitTest s
  | .deadlineLoan => Sys2Proof.Machine.execDeadlineLoan s
  | .migrationStart => Sys2Proof.Machine.execMigrationStart s
  | .migrationSlotRequest => Sys2Proof.Machine.execMigrationSlotRequest s
  | .migrationSlotReply => Sys2Proof.Machine.execMigrationSlotReply s
  | .migrationContextArrival => Sys2Proof.Machine.execMigrationContextArrival s
  | .loadBalance => Sys2Proof.Machine.execLoadBalance s
  | .dxloadRefresh => Sys2Proof.Machine.execDxloadRefresh s
  | .parklimExpiry => Sys2Proof.Machine.execParklimExpiry s
  | .swap => Sys2Proof.Machine.execSwap s
  | .hintdistExpiry => Sys2Proof.Machine.execHintdistExpiry s
  | .stopRequest => Sys2Proof.Machine.execStopRequest s
  | .blockReadmission => Sys2Proof.Machine.execBlockReadmission s
  | .preemptPolicy => Sys2Proof.Machine.execPreemptPolicy s
  | .blockAdmit => Sys2Proof.Machine.execBlockAdmit s
  | .leaseTimeExpiry => Sys2Proof.Machine.execLeaseTimeExpiry s
  | .leaseHandover => Sys2Proof.Machine.execLeaseHandover s
  | .tileCommandAccept => Sys2Proof.Machine.execTileCommandAccept s
  | .tileCommandRetire => Sys2Proof.Machine.execTileCommandRetire s
  | .tringEffect => Sys2Proof.Machine.execTringEffect s
  | .engineCommandStart => Sys2Proof.Machine.execEngineCommandStart s
  | .kickArrival => Sys2Proof.Machine.execKickArrival s
  | .noticeAccept => Sys2Proof.Machine.execNoticeAccept s
  | .mailboxDelivery => Sys2Proof.Machine.execMailboxDelivery s
  | .recvtTimeout => Sys2Proof.Machine.execRecvtTimeout s
  | .yieldTimeout => Sys2Proof.Machine.execYieldTimeout s
  | .deviceLaunchEnqueue => Sys2Proof.Machine.execDeviceLaunchEnqueue s
  | .nop => Sys2Proof.Machine.execNop s
  | .launchg => Sys2Proof.Machine.execLaunchg s
  | .launchp => Sys2Proof.Machine.execLaunchp s
  | .graph => Sys2Proof.Machine.execGraph s
  | .copy => Sys2Proof.Machine.execCopy s
  | .signalWrite => Sys2Proof.Machine.execSignalWrite s
  | .signalAdd => Sys2Proof.Machine.execSignalAdd s
  | .signalMax => Sys2Proof.Machine.execSignalMax s
  | .waitsig => Sys2Proof.Machine.execWaitsig s
  | .write => Sys2Proof.Machine.execWrite s
  | .ib => Sys2Proof.Machine.execIb s
  | .packetComplete => Sys2Proof.Machine.execPacketComplete s
  | .watchedLineNotice => Sys2Proof.Machine.execWatchedLineNotice s
  | .hringCoalesceTimer => Sys2Proof.Machine.execHringCoalesceTimer s
  | .doorbellInterrupt => Sys2Proof.Machine.execDoorbellInterrupt s
  | .unmapQueue => Sys2Proof.Machine.execUnmapQueue s
  | .consistentCut => Sys2Proof.Machine.execConsistentCut s
  | .pageMigration => Sys2Proof.Machine.execPageMigration s
  | .hsPost => Sys2Proof.Machine.execHsPost s
  | .hsInterrupt => Sys2Proof.Machine.execHsInterrupt s
  | .fenceWrite => Sys2Proof.Machine.execFenceWrite s
  | .ctxdown => Sys2Proof.Machine.execCtxdown s
  | .attctlGo => Sys2Proof.Machine.execAttctlGo s
  | .attestationDone => Sys2Proof.Machine.execAttestationDone s
  | .reservationTableCopy => Sys2Proof.Machine.execReservationTableCopy s
  | .errorInterrupt => Sys2Proof.Machine.execErrorInterrupt s
  | .registerScrubDone => Sys2Proof.Machine.execRegisterScrubDone s
  | .linkCrcError => Sys2Proof.Machine.execLinkCrcError s
  | .linkDead => Sys2Proof.Machine.execLinkDead s
  | .nstReroute => Sys2Proof.Machine.execNstReroute s
  | .requestLossTimeout => Sys2Proof.Machine.execRequestLossTimeout s
  | .comparatorMatch => Sys2Proof.Machine.execComparatorMatch s
  | .trailingTimeout => Sys2Proof.Machine.execTrailingTimeout s
  | .coreRetire => Sys2Proof.Machine.execCoreRetire s
  | .deadlineMissDetect => Sys2Proof.Machine.execDeadlineMissDetect s
  | .waitEntryValid => Sys2Proof.Machine.execWaitEntryValid s
  | .hangTest => Sys2Proof.Machine.execHangTest s
  | .heartbeat => Sys2Proof.Machine.execHeartbeat s
  | .watcherRead => Sys2Proof.Machine.execWatcherRead s
  | .moduleReset => Sys2Proof.Machine.execModuleReset s
  | .bootVerify => Sys2Proof.Machine.execBootVerify s
  | .waveLaunch => Sys2Proof.Machine.execWaveLaunch s
  | .siteLocked => Sys2Proof.Machine.execSiteLocked s
  | .linkTrained => Sys2Proof.Machine.execLinkTrained s
  | .named => Sys2Proof.Machine.execNamed s
  | .readyBroadcast => Sys2Proof.Machine.execReadyBroadcast s
  | .bringupRestart => Sys2Proof.Machine.execBringupRestart s
  | .recoveryReset => Sys2Proof.Machine.execRecoveryReset s
  | .recoveryReport => Sys2Proof.Machine.execRecoveryReport s
  | .fatalFreeze => Sys2Proof.Machine.execFatalFreeze s
  | .chiselUnitFinish => Sys2Proof.Machine.execChiselUnitFinish s
  | .requestAgeing => Sys2Proof.Machine.execRequestAgeing s
  | .recoveryVerifyDone => Sys2Proof.Machine.execRecoveryVerifyDone s

end Sys2Proof.Machine
end

