-- ==== Sys2Proof/Machine/Issue.lean ====
section
/-! DEFINITION. What a hart's turn does (R31, R32, R369, R372): eligibility and the choice among the harts of a core, boundary
deliveries, the fetch and the decoding of the next instruction, and what an event's turn does. -/

namespace Sys2Proof.Machine

/-! ## Events and instructions -/

/-- Whether a term is an event of the part, and no instruction of a hart. -/
def isEvent (i : Instr) : Bool :=
  (encode i).isNone && (match i with
    | .illegalInstruction _ => false
    | .instructionAccessFault _ _ _ => false
    | _ => true)

/-! ## Fetch (R20, R103, R372) -/

/-- What a fetch gives. -/
inductive Fetched where
  /-- The low word, and the word after it. -/
  | words (lo ext : W32) (s : State)
  | fail (cause sub : Nat) (addr : Word) (s : State)
  /-- Nothing to run in this turn. -/
  | idle (s : State)

/-- The words at an address from its line's bytes. -/
def wordsOf (pc : Word) (line : List Byte) (s : State) : Fetched :=
  let o := pc.toNat % 64
  .words (BitVec.ofNat 32 (natOfBytes ((line.drop o).take 4))) (BitVec.ofNat 32 (natOfBytes ((line.drop (o + 4)).take 4))) s

/-- A hart fetches the instruction at its pc: from its core's instruction cache, or from the home (R372 item 1). A fetch is not
counted in dxmig: R44 speaks of the accesses that a hart performs, and does not say that its fetches are among them (log 134). -/
def State.fetch (s : State) (h : Nat) (x : Hart) : Fetched :=
  match s.icacheFind x x.pc with
  | some l => wordsOf x.pc l.bytes s
  | none =>
    let r := Req.hart x.pc 4 .fetch (x.ctx h)
    let out (t : State) : State := t.modHart h fun y => { y with plainOut := some t.nextId }
    match s.route r x.iface with
    | .at (.mem k _) _ fill =>
      let base := k / 64 * 64
      if !(s.responds x.iface x.pc) then .idle (out (s.holdLost r (.load 4) (.fetch h) false x.iface))
      else if s.poisoned base 64 then .idle (s.consumePoison h noForm x.pc)
      else
        let line := s.bytesAt base 64
        let s1 := s.tlbTake fill
        let l : ILine := ⟨lineOf x.pc, x.asid, x.priv, line⟩
        wordsOf x.pc line (s1.modCore x.core fun c => { c with icache := (l :: c.icache).take 512 })
    | .at _ _ _ => .fail 1 0 x.pc s
    | .fail cause sub => .fail cause sub x.pc (s.noteTable (vaHome x.pc) sub)
    | .miss pg => .idle (out (s.holdMiss pg r (.load 4) (.fetch h) false))
    | .behind pg why => .idle (out (s.holdBehind pg r (.load 4) (.fetch h) false why))
    | .lost => .idle (out (s.holdLost r (.load 4) (.fetch h) false x.iface))
    | _ => .idle s

/-! ## One attempt at the next instruction (R31) -/

/-- What an attempt of a hart comes to: it stays waiting, or its instruction issues. -/
inductive Attempt where
  | waits (s : State)
  | issues (o : Host.Outcome State Fault Refusal)

/-- Whether an instruction of the hart `x` has issued in a state: it has retired, trapped, ended or left, sent a plain access or a
part of one, taken the snapshot that it waits for, or entered the comparator. What only registers a wait has not (R31). -/
def Hart.issuedIn (x : Hart) (h : Nat) (t : State) : Bool := match t.hart? h with
  | none => true
  | some y => y.instret != x.instret || y.pc != x.pc || y.priv != x.priv || y.status != x.status || y.csr != x.csr
      || y.plainOut.isSome || y.log.length != x.log.length || y.snap != x.snap || y.cmp != x.cmp

/-- What a fetch and the execution of what it gives come to. -/
def Hart.attemptOf (x : Hart) (h : Nat) (f : Fetched) : Attempt :=
  match f with
  | .idle t => .waits t
  | .fail cause sub a t => .issues (exec (.instructionAccessFault cause sub a) t)
  | .words lo ext t =>
    match exec (decode (x.pc.toNat % 8 == 0) lo ext) t with
    | .next u => if x.issuedIn h u then .issues (.next u) else .waits u
    | o => .issues o

/-- The hart `cur` attempts its next instruction; one whose fetch a home has failed takes that fault. -/
def State.attempt (s : State) (x : Hart) : Attempt :=
  match x.fetchFail with
  | some (cause, sub, a) =>
    .issues (exec (.instructionAccessFault cause sub a) (s.modHart s.cur fun y => { y with fetchFail := none }))
  | none => x.attemptOf s.cur (s.fetch s.cur x)

/-! ## Which hart of a core issues (R31, R32) -/

/-- The A-cycle since which a hart is eligible. -/
def State.eligSince (s : State) (x : Hart) : Nat :=
  let r := x.ready.getD s.acyc
  match x.lastIssue with
  | some t => max r (t / 2 + 4)
  | none => r

/-- The harts of a core that are eligible beside one. -/
def State.rivals (s : State) (h : Nat) (x : Hart) : List Hart :=
  (s.harts.filter fun p => p.1 != h && p.2.core == x.core && p.2.ready.isSome && s.mayIssue p.1 p.2
    && !(s.boundaryNow p.1 p.2)).map Prod.snd

/-- A hart became eligible before another, or with it and stands before it by class, then by number. -/
def State.eligBefore (s : State) (a b : Hart) : Bool :=
  decide (s.eligSince a < s.eligSince b) || (s.eligSince a == s.eligSince b
    && (decide (s.dlClass a < s.dlClass b) || (s.dlClass a == s.dlClass b && decide (a.slot < b.slot))))

/-- The queue position q of a hart among the eligible ones. -/
def State.queuePos (s : State) (all : List Hart) (x : Hart) : Nat := (all.filter fun y => s.eligBefore y x).length

/-- How far a hart number lies behind the last issued one, wrapping at 16. -/
def State.turnOf (s : State) (x : Hart) : Nat := (x.slot + 31 - (s.core x.core).lastSlot) % 16

/-- The core chooses the hart in this A-cycle (R32), and has issued nothing in it (R31). -/
def State.chosen (s : State) (h : Nat) (x : Hart) : Bool :=
  let others := s.rivals h x
  let all := x :: others
  (s.core x.core).lastAt != some s.acyc
    && (others.isEmpty || if all.any fun y => decide (15 ≤ s.acyc - s.eligSince y + s.queuePos all y) then s.queuePos all x == 0
      else all.all fun y => decide (s.dlClass x < s.dlClass y) || (s.dlClass x == s.dlClass y && decide (s.turnOf x ≤ s.turnOf y)))

/-- The core has issued an instruction of a hart. -/
def State.tookSlot (s : State) (x : Hart) (acyc : Nat) : State :=
  s.modCore x.core fun c => { c with lastSlot := x.slot, lastAt := some acyc }

/-- The turn of the hart `cur`. -/
def issue (s : State) : Host.Outcome State Fault Refusal :=
  match s.hart? s.cur with
  | none => .next s
  | some x =>
    if s.frozen.isSome then .next s
    else if x.stopping.isSome then .next (s.tryStop s.cur)
    else if s.boundaryNow s.cur x && x.fetchFail.isNone then exec .boundaryDelivery { s with subj := s.cur }
    else if !(s.mayIssue s.cur x) then .next s
    else
      match s.attempt x with
      | .waits t => .next t
      | .issues o =>
        if s.chosen s.cur x then
          match o with
          | .next t => .next (t.tookSlot x s.acyc)
          | o => o
        else .next s

/-! ## What stands since the last turn -/

/-- Numbers the requests that have left since the last turn, in the order of their injection (R105). What leaves has its release
behind it. -/
def State.inject (s : State) : State :=
  let now (i : Option Nat) : Option Nat := some (i.getD s.turnNo)
  { s with
    turnNo := s.turnNo + 1
    accs := s.accs.map fun p =>
      if s.gateClear p.2.gate then
        (p.1, { p.2 with pieces := ((List.range p.2.pieces.length).zip p.2.pieces).map fun q =>
          if q.2.st == .todo && !(p.2.behind q.1 q.2) then { q.2 with inj := now q.2.inj } else q.2 })
      else p
    ops := s.ops.map fun p =>
      if p.2.st == .issued && s.opLeaves p.2 then (p.1, { p.2 with inj := now p.2.inj, drained := true }) else p }

/-- Whether a hart's next instruction could issue as the part stands, but for a yield: its operands are there, and it waits for
nothing (R31). -/
def State.canIssue (s : State) (h : Nat) (x : Hart) : Bool :=
  s.inRotation x && !(s.core x.core).chiselFor h
    && (match ({ s with cur := h } : State).attempt x with
      | .waits _ => false
      | .issues _ => true)

/-- Since when each hart has been able to issue, as the last turn has left the part. -/
def State.markReady (s : State) : State :=
  { s with harts := s.harts.map fun p =>
      (p.1, { p.2 with ready := if s.canIssue p.1 p.2 then some (p.2.ready.getD s.acyc) else none }) }

/-- Whether a hart has stayed eligible without issuing since another's yield (R259). -/
def State.staysEligible (s : State) (y : Hart) (i : Nat) : Bool := match s.hart? i with
  | some x => s.eligible x && (match x.lastIssue, y.lastIssue with
      | some a, some b => decide (a ≤ b)
      | _, _ => true)
  | none => false

/-- A yield waits no more for harts that have issued or stopped being eligible (R259). -/
def State.endYields (s : State) : State :=
  { s with harts := s.harts.map fun p =>
      if p.2.yieldEnd.isSome then
        let l := p.2.yieldFor.filter (s.staysEligible p.2)
        if l.isEmpty then (p.1, p.2.yieldDone s.acyc) else (p.1, { p.2 with yieldFor := l })
      else p }

/-- What the last turn has left: requests injected, harts eligible, yields ended (log 1). -/
def State.refresh (s : State) : State := s.inject.markReady.endYields

/-- What still happens to a frozen part (R445): module reset, and host requests. -/
def whileFrozen (i : Instr) : Bool := match i with
  | .moduleReset => true
  | .apertureVirtual _ _ _ _ | .aperturePhysical _ _ _ _ | .apertureControl _ _ _ _ => true
  | _ => false

/-- The turn of an event. -/
def happen (i : Instr) (subj : Nat) (s : State) : Host.Outcome State Fault Refusal :=
  if isEvent i && i.wf && i.subjOk subj then
    (if s.frozen.isSome && !(whileFrozen i) then .next s else exec i { s with subj := subj })
  else .fault .illFormedTurn

/-- N-cycles that pass where the schedule names no turn: one issue opportunity (R31). -/
def idleN : Nat := 8

/-- The turn that the schedule names next, or the hart `cur`'s own. -/
def turn (s0 : State) : Host.Outcome State Fault Refusal :=
  let s := s0.refresh
  match s.tape with
  | [] => issue { s with ncyc := s.ncyc + idleN }
  | t :: r =>
    let s1 : State := { s with tape := r, ncyc := s.ncyc + t.dt }
    match t.agent with
    | .hart h => issue { s1 with cur := h }
    | .event i n => happen i n s1

/-! ## Placing one instruction (log 7) -/

/-- The header of a kernel that declares nothing. -/
def bareHdr : Khdr := ⟨0, 0, 32, 0#32, 0#8, false, [], []⟩

/-- The launch record of one full hart. -/
def bareLaunch (entry : Word) : Launch where
  entry := entry
  khdr := 0#64
  levels := []
  hpg := 1
  gpb := 1
  bpg := 1
  deadline := 0
  rclass := 0
  redun := false
  parklim := 0xFFFFFFFF
  compact := false
  regclassRaw := 0
  argp := 0#64
  savebase := 0#64
  savestride := 0

/-- The group of one hart in window 0 of cluster 0. -/
def bareGroup (block hart ncyc : Nat) : Group where
  block := block
  index := 0
  hpg := 1
  win := 0
  granLo := 0
  granN := 1
  harts := [hart]
  parked := false
  parkedSince := ncyc
  misses := []
  expired := false
  bar := BarObj.zero
  tcfgIssued := Tcfg.zero
  tiles := []
  loans := []
  nohang := false
  dlmiss := false
  iovf := false
  ended := false
  away := 0
  withdrawn := []

/-- The block of that group. -/
def bareBlock (grid group ncyc : Nat) : Block where
  grid := grid
  index := 0
  status := .placed
  home := 0
  cluster := 0
  groups := [group]
  bars := []
  stages := []
  tag := 0#16
  nodl := true
  since := ncyc
  dlDelivered := false
  stopC := 0
  swapCmd := false
  hostSwap := false
  movedWins := []
  spill := []

/-- The grid of that block. -/
def bareGrid (entry : Word) (block : Nat) : Grid where
  serial := 0
  rec_ := 0#64
  asid := 0#16
  launch := bareLaunch entry
  hdr := bareHdr
  user := 0
  blocks := [block]
  ended := 0
  done := .none
  owner := 0
  tag := 0#16
  nodl := true
  failed := false
  hung := []

/-- Where the placed instruction stands: the first byte of MC home 0x180, in the 16 MiB frame at 16 MiB of MC 0. -/
def placedAt : Word := mkVa 0x180 0

/-- The tables of MC home 0x180 that map it for ASID 0, and the instruction's bytes: (DRAM address, width, value). -/
def placedCells (nbits w : Nat) : List (Nat × Nat × Nat) :=
  [ (0x100000, 8, 0x200000 + 1), (0x100008, 8, 0x220000 / 2 ^ 15 * 2 ^ 11),
    (0x200000, 8, 0x210000 + 1),
    (0x210000, 8, 0x100 * 2 ^ 12 + 123),
    (0x220000, 8, 0xF), (0x220008, 8, (2 ^ 57 - 1) * 2 ^ 7),
    (0x1000000, 8, w % 2 ^ nbits) ]

/-- Launches one full hart whose first instruction is the one given (R38, R39): its grid, block and group, window 0 of
cluster 0 bound to core 0 with granule 0, the home map entries of homes 0 and 0x180, and the tables that map the
instruction. The hart is `cur`, and the schedule names no turn before its own. -/
def State.placeHart (s : State) (nbits w : Nat) : State :=
  let h := s.nextId
  let hart := { Hart.launched (h + 1) 0 0 0 0 true placedAt 0#64 (winBase 0 + 0x4000#64) 0#16 0#64 0#64 s.acyc s.ncyc with lastIssue := none }
  let home : HomeSt := { s.home 0x180 with ctxBase := 0x100001#64, tlb := [] }
  let win : Window := { s.window 0 with grans := [(0, .core 0 0), (16, .core 0 0)], assigned := true }
  let core0 : Core := { s.core 0 with win := some 0, icache := [] }
  { s with
    tape := []
    cur := h
    frozen := none
    nextId := h + 4
    harts := tset s.harts h hart
    groups := tset s.groups (h + 1) (bareGroup (h + 2) h s.ncyc)
    blocks := tset s.blocks (h + 2) (bareBlock (h + 3) (h + 1) s.ncyc)
    grids := tset s.grids (h + 3) (bareGrid placedAt (h + 2))
    windows := tset s.windows 0 win
    cores := tset s.cores 0 core0
    homes := tset s.homes 0x180 home
    homeMap := tset (tset s.homeMap 0 0x8000#16) 0x180 0x8001#16
    poison := []
    deadLinks := []
    mem := (placedCells nbits w).foldl
      (fun m c => memWrite m (dramKey 0 c.1) ((bytesOfNat c.2.1 c.2.2).map some)) s.mem }

end Sys2Proof.Machine
end

