-- ==== Sys2Proof/Machine/Step.lean ====
section
/-! DEFINITION. One step: the turn that the schedule names (Machine/Issue.lean). -/

namespace Sys2Proof.Machine

/-- One step of the part: the next turn of the schedule, or the hart `cur`'s own turn where it names none (log 1). -/
def step (s : State) : Host.Outcome State Fault Refusal := turn s

/-- The state in which the very next step fetches and runs one instruction: a hart has been launched on it (log 7). -/
def State.withFetchWord (s : State) (nbits w : Nat) : State := s.placeHart nbits w

end Sys2Proof.Machine
end

