-- ==== Sys2Proof/Safety.lean ====
section
/-! DEFINITION. What counts as a safe state of a run, and the words in which the statements about single instructions are
made: when the hart `cur` stands ready at an instruction, what it is for it to retire there, and the invariant that every
step keeps. -/

namespace Sys2Proof.Machine

open Sys2Proof

/-! ## The invariant of a run -/

/-- The invariant that every step keeps: memory lists rising addresses, and no byte that an unlisted address reads as. -/
def State.Inv (s : State) : Prop := Memory.wf s.mem = true

/-- An outcome that keeps the invariant: a step that stops leaves no state. -/
def Safe (o : Host.Outcome State Fault Refusal) : Prop := match o with
  | .next t => t.Inv
  | .fault _ => True
  | .refused _ => True

/-! ## A hart at an instruction -/

/-- Bytes of an instruction (R142). -/
def Instr.len (i : Instr) : Nat := match encode i with
  | some (.w64 _ _) => 8
  | _ => 4

/-- The hart `cur`, `x`, is about to perform an instruction that names the registers `n`, and nothing of R372 stands before
the instruction's own meaning: its register class has the instruction, none of the registers named is pending, failed or
busy, but for those on which the instruction neither waits nor traps, and it is no half of a redundant pair. -/
structure Ready (s : State) (x : Hart) (n : Names) : Prop where
  hart : s.hart? s.cur = some x
  cls : n.classOk (s.compactRules x) = true
  regs : ∀ r ∈ n.xs, match tget x.regs r.toNat with
    | none => True
    | some (.failed _) => r ∈ n.nofail
    | some _ => r ∈ n.nowait
  vregs : ∀ r ∈ n.vs, tget x.vbusy r.toNat = none
  lone : x.pair = none
  leads : x.trails = false

/-- From `s` the instruction `i` of the hart `cur` retires: the hart goes on behind it as `y`, with one more instruction
counted and no wait left. Nothing else of the part changes: no other hart, no byte of memory, no register of another
unit. -/
def Retires (i : Instr) (s : State) (x y : Hart) : Prop :=
  exec i s = .next (s.modHart s.cur fun _ => y.retired (addrPlus x.pc (Instr.len i)) false s.ncyc)

/-- As `Retires`, for an instruction after which the hart goes on at `pc`. -/
def RetiresTo (i : Instr) (s : State) (pc : Word) (y : Hart) : Prop :=
  exec i s = .next (s.modHart s.cur fun _ => y.retired pc false s.ncyc)

/-- From `s` the instruction `i` of the hart `cur` ends in the trap `cause` with this stval, and SUB for a record of R368. -/
def Traps (i : Instr) (s : State) (cause : Nat) (tval : Word) (sub : Nat) : Prop :=
  exec i s = .next (s.takeTrap s.cur cause tval sub (formOf i) true)

/-! ## The operations on lanes (R173 to R183) -/

/-- What an operation on lanes reads and writes: the masked form, the destination, its v and x sources, and for each lane
the value and the flags that it raises. -/
structure LaneForm where
  m : Bool
  vd : RegIdx
  vs : List RegIdx
  xs : List RegIdx
  val : Hart → Nat → W32 × FFlags

/-- A value that raises no flag. -/
def quiet (v : W32) : W32 × FFlags := (v, noFlags)

/-- The operations on lanes that write the active lanes of vd one by one. -/
def laneForm : Instr → Option LaneForm
  | .vadd m ty vd a b => some ⟨m, vd, [a, b], [], fun x k => laneAdd ty (x.lane a k) (x.lane b k)⟩
  | .vsub m ty vd a b => some ⟨m, vd, [a, b], [], fun x k => laneSub ty (x.lane a k) (x.lane b k)⟩
  | .vmul m ty vd a b => some ⟨m, vd, [a, b], [], fun x k => laneMul ty (x.lane a k) (x.lane b k)⟩
  | .vmadd m ty vd a b => some ⟨m, vd, [a, b], [], fun x k => laneMadd ty (x.lane a k) (x.lane b k) (x.lane vd k)⟩
  | .vmsub m ty vd a b => some ⟨m, vd, [a, b], [], fun x k => laneMsub ty (x.lane a k) (x.lane b k) (x.lane vd k)⟩
  | .vmin m ty vd a b => some ⟨m, vd, [a, b], [], fun x k => laneMin ty (x.lane a k) (x.lane b k)⟩
  | .vmax m ty vd a b => some ⟨m, vd, [a, b], [], fun x k => laneMax ty (x.lane a k) (x.lane b k)⟩
  | .vabs m ty vd a => some ⟨m, vd, [a], [], fun x k => laneAbs ty (x.lane a k)⟩
  | .vneg m ty vd a => some ⟨m, vd, [a], [], fun x k => laneNeg ty (x.lane a k)⟩
  | .vand m vd a b => some ⟨m, vd, [a, b], [], fun x k => quiet (x.lane a k &&& x.lane b k)⟩
  | .vor m vd a b => some ⟨m, vd, [a, b], [], fun x k => quiet (x.lane a k ||| x.lane b k)⟩
  | .vxor m vd a b => some ⟨m, vd, [a, b], [], fun x k => quiet (x.lane a k ^^^ x.lane b k)⟩
  | .vnot m vd a => some ⟨m, vd, [a], [], fun x k => quiet (~~~(x.lane a k))⟩
  | .vsll m vd a b => some ⟨m, vd, [a, b], [], fun x k => quiet (x.lane a k <<< ((x.lane b k).toNat % 32))⟩
  | .vsrl m vd a b => some ⟨m, vd, [a, b], [], fun x k => quiet (x.lane a k >>> ((x.lane b k).toNat % 32))⟩
  | .vsra m vd a b => some ⟨m, vd, [a, b], [], fun x k => quiet ((x.lane a k).sshiftRight ((x.lane b k).toNat % 32))⟩
  | .vsel m vd a b => some ⟨m, vd, [a, b], [], fun x k => quiet (if x.cond.getLsbD k then x.lane a k else x.lane b k)⟩
  | .vrcp m vd a => some ⟨m, vd, [a], [], fun x k => laneRcp (x.lane a k)⟩
  | .vrsq m vd a => some ⟨m, vd, [a], [], fun x k => laneRsq (x.lane a k)⟩
  | .vexp2 m vd a => some ⟨m, vd, [a], [], fun x k => laneExp2 (x.lane a k)⟩
  | .vlog2 m vd a => some ⟨m, vd, [a], [], fun x k => laneLog2 (x.lane a k)⟩
  | .vcvtToLaneType m ty vd a ef => some ⟨m, vd, [a], [], fun x k => laneFromElem ty ef (x.lane a k)⟩
  | .vcvtToNarrow m ty vd a ef => some ⟨m, vd, [a], [], fun x k => laneToElem ty ef false (x.lane a k)⟩
  | .vcvtToNarrowSat m ty vd a ef => some ⟨m, vd, [a], [], fun x k => laneToElem ty ef true (x.lane a k)⟩
  | .vdequant m vd a => some ⟨m, vd, [a], [], fun x k => x.dequantAt a k⟩
  | .vbcast m vd r => some ⟨m, vd, [], [r], fun x _ => quiet ((x.rx r).setWidth 32)⟩
  | .vins m vd r lane =>
    some ⟨m, vd, [], [r], fun x k => quiet (if k = lane.toNat then (x.rx r).setWidth 32 else x.lane vd k)⟩
  | .vperm m vd a b =>
    some ⟨m, vd, [a, b], [], fun x k =>
      quiet (if (x.lane b k).toNat < 16 then x.lane a (x.lane b k).toNat else 0#32)⟩
  | .vslide m vd a n =>
    some ⟨m, vd, [a], [], fun x k =>
      quiet (if 0 ≤ (k : Int) - n.toInt ∧ (k : Int) - n.toInt ≤ 15 then x.lane a ((k : Int) - n.toInt).toNat else 0#32)⟩
  | .vzip m vd a b => some ⟨m, vd, [a, b], [], fun x k => quiet (if k % 2 = 0 then x.lane a (k / 2) else x.lane b (k / 2))⟩
  | .vunzip m vd a b => some ⟨m, vd, [a, b], [], fun x k => quiet (if k < 8 then x.lane a (2 * k) else x.lane b (2 * k - 16))⟩
  | .vmov m vd a => some ⟨m, vd, [a], [], fun x k => quiet (x.lane a k)⟩
  | _ => none

/-! ## The computational instructions of the base (R141) -/

/-- The base operations that write an x register and go on: the register, the value, and the flags raised. A conversion with
a rounding mode that is none has no value. -/
def baseWritesX (x : Hart) : BaseOp → Option (RegIdx × Word × FFlags)
  | .lui rd imm => some (rd, (imm ++ 0#12).signExtend 64, noFlags)
  | .auipc rd imm => some (rd, x.pc + (imm ++ 0#12).signExtend 64, noFlags)
  | .opImm o rd rs1 imm => some (rd, immOp o (x.rx rs1) (imm.signExtend 64), noFlags)
  | .shift o rd rs1 sh => some (rd, shOp o (x.rx rs1) sh.toNat, noFlags)
  | .shiftW o rd rs1 sh => some (rd, shWOp o ((x.rx rs1).setWidth 32) sh.toNat, noFlags)
  | .alu o rd rs1 rs2 => some (rd, aluOp o (x.rx rs1) (x.rx rs2), noFlags)
  | .unary o rd rs1 => some (rd, unOp o (x.rx rs1), noFlags)
  | .fcmp o rd rs1 rs2 =>
    some (rd, if (fcmpOp o (x.rf rs1) (x.rf rs2)).1 then 1#64 else 0#64, (fcmpOp o (x.rf rs1) (x.rf rs2)).2)
  | .fcvtToInt t rm rd rs1 => (x.rounding rm).map fun m => (rd, fcvtToIntOp t m (x.rf rs1))
  | .fmvXW rd rs1 => some (rd, (x.rf rs1).signExtend 64, noFlags)
  | .fclass rd rs1 => some (rd, fclassOp (x.rf rs1), noFlags)
  | _ => none

/-- The base operations that write an f register: the register, the value, and the flags raised. -/
def baseWritesF (x : Hart) : BaseOp → Option (RegIdx × W32 × FFlags)
  | .farith o rm rd rs1 rs2 => (x.rounding rm).map fun m => (rd, farithOp o m (x.rf rs1) (x.rf rs2))
  | .fsqrt rm rd rs1 => (x.rounding rm).map fun m => (rd, fsqrtOp m (x.rf rs1))
  | .ffused o rm rd rs1 rs2 rs3 => (x.rounding rm).map fun m => (rd, ffusedOp o m (x.rf rs1) (x.rf rs2) (x.rf rs3))
  | .fpair o rd rs1 rs2 => some (rd, fpairOp o (x.rf rs1) (x.rf rs2))
  | .fcvtFromInt t rm rd rs1 => (x.rounding rm).map fun m => (rd, fcvtFromIntOp t m (x.rx rs1))
  | .fmvWX rd rs1 => some (rd, (x.rx rs1).setWidth 32, noFlags)
  | _ => none

/-- The jumps, and the branches that are taken: the register that takes the return address, and the target. -/
def baseJumps (x : Hart) : BaseOp → Option (RegIdx × Word)
  | .jal rd imm => some (rd, x.pc + (imm ++ 0#1).signExtend 64)
  | .jalr rd rs1 imm => some (rd, (x.rx rs1 + imm.signExtend 64) &&& ~~~1#64)
  | .branch c rs1 rs2 imm =>
    if brTaken c (x.rx rs1) (x.rx rs2) then some (0#5, x.pc + (imm ++ 0#1).signExtend 64) else none
  | _ => none

/-- The operations whose rounding mode field, or frm where the field says so, names no rounding mode. -/
def baseUnrounded (x : Hart) : BaseOp → Bool
  | .farith _ rm _ _ _ | .fsqrt rm _ _ | .ffused _ rm _ _ _ _ | .fcvtToInt _ rm _ _ | .fcvtFromInt _ rm _ _ =>
    (x.rounding rm).isNone
  | _ => false

/-! ## Accesses that go to their port at once -/

/-- Nothing of the hart `cur`, `x`, holds a plain access back (R93, R101): every earlier access has been performed, no entry of
its own stands in a post buffer, no bank operation of its own is on its way, and no piece of the access has gone before. -/
structure PlainReady (s : State) (x : Hart) : Prop where
  out : x.plainOut = none
  log : x.log = []
  accs : ∀ p ∈ s.accs, p.2.hart = s.cur → p.2.performed = true ∧ p.2.kind ≠ 1
  entries : ∀ p ∈ s.pb, p.2.live = true → s.cur ∉ p.2.owners
  travel : s.travelOf s.cur = []

/-- The `w` bytes at `va` that the hart `cur`, `x`, asks for are memory from the location `key` on, of a page that is resident
and not traced, and no held request of the page goes before. Where the request crosses a mesh, no earlier request of the interface to
its line is still on its way (R105), and its response comes back (R401). `tag` is the tag that its lines read as where they have no
sideband (R88). -/
structure Reaches (s : State) (x : Hart) (va : Word) (w : Nat) (kind : AccKind) (key : Nat) (tag : Option (BitVec 16)) : Prop where
  route : ∃ fill, s.route (Req.hart va w kind (x.ctx s.cur)) x.iface = .at (.mem key tag) false fill
  lane : s.onMesh (x.ctx s.cur) va = true → s.laneClear (.plain s.cur) x.iface (lineSpot va) = true
  back : s.onMesh (x.ctx s.cur) va = true → s.responds x.iface va = true

/-- Nothing stands before a plain store or atomic at `va`: no entry of its cluster's post buffer holds a byte that it writes (R100,
R112; log 124), and its line is none of a ring whose group is being stopped (R215). -/
structure Writable (s : State) (x : Hart) (va : Word) (act : Piece) : Prop where
  uncovered : s.coveredBy x va act = []
  unspilled : s.spillLine va = none

/-- The post buffer of the hart's cluster gives a read of these bytes nothing, and does not hold it back (R97). -/
def Unbuffered (s : State) (x : Hart) (va : Word) (act : Piece) (whole : Bool) : Prop :=
  ∀ offs, act.reads = some offs → s.forward x va offs whole = .none

/-- No entry of the cluster's post buffer stands for the line of an address. -/
def NoEntry (s : State) (x : Hart) (va : Word) : Prop :=
  ∀ p ∈ s.pb, p.2.cluster = x.cluster → p.2.live = true → p.2.line ≠ lineOf va

/-- `t` is `s` after a plain read at `va` of the hart `cur`, `x`: its remote-access counter has taken note; the home's TLB and the
interface's tokens may have changed, and nothing else has: no other hart, no byte of memory, no tag. -/
structure AfterRead (s t : State) (x : Hart) (va : Word) : Prop where
  rest : t = { s with harts := t.harts, homes := t.homes, buckets := t.buckets }
  others : ∀ h, h ≠ s.cur → t.hart? h = s.hart? h
  hart : t.hart? s.cur = some { x with mig := x.mig.count1 x.cluster (vaHome va) }

/-- A hart after a store of `n` bytes from a location on: its reservation on a line that they lie in has ended (R104). -/
def Hart.unreserve (z : Hart) (key n : Nat) : Hart :=
  match z.resv with
  | some l => if key / 64 ≤ l ∧ l ≤ (key + (n - 1)) / 64 then { z with resv := none } else z
  | none => z

/-- The bytes that a store writes: a byte that it leaves alone is `none`. -/
def written (bytes : List (Option Byte)) (key a : Nat) : Option Byte :=
  if a < key then none else (bytes[a - key]?).getD none

/-- `t` is `s` after a plain store at `va` of the hart `cur`, `x`, that wrote these bytes from the location `key` on and, where it
carries one, the tag of its lines: no other byte of memory has changed, no other tag, and of the harts only the counter of
this one and reservations on its lines. -/
structure AfterWrite (s t : State) (x : Hart) (va : Word) (key : Nat) (bytes : List (Option Byte)) (tag : Option (BitVec 16)) :
    Prop where
  rest : t = { s with
    harts := t.harts, homes := t.homes, buckets := t.buckets, mem := t.mem, poison := t.poison, watches := t.watches
    tags := t.tags }
  mem : ∀ a, memGet t.mem a = (written bytes key a).getD (memGet s.mem a)
  tags : ∀ l, tgetD t.tags l 0#16 = match tag with
    | some g => if key / 64 ≤ l ∧ l < key / 64 + (max bytes.length 1 + 63) / 64 then g else tgetD s.tags l 0#16
    | none => tgetD s.tags l 0#16
  others : ∀ h, h ≠ s.cur → t.hart? h = (s.hart? h).map fun z => z.unreserve key bytes.length
  hart : t.hart? s.cur = some (({ x with mig := x.mig.count1 x.cluster (vaHome va) } : Hart).unreserve key bytes.length)

/-- The instruction `i` of the hart `cur`, `x`, has left `t`, and retires with what `g` does to the hart. -/
def RetiresIn (i : Instr) (s t : State) (x : Hart) (g : Hart → Hart) : Prop :=
  exec i s = .next (t.modHart s.cur fun y => (g y).retired (addrPlus x.pc (Instr.len i)) false s.ncyc)

/-- The instruction `i` of the hart `cur`, `x`, has left `t`, in which the hart stands as it is to be, and retires there. -/
def RetiresAt (i : Instr) (s t : State) (x : Hart) : Prop := RetiresIn i s t x fun y => y

/-- The bytes that a piece reads from a location on. -/
def pieceBytes (s : State) (key : Nat) : Piece → List Byte
  | .load n => memRead s.mem key n
  | .pick offs => (offs.map fun o => memRead s.mem (key + o) 4).foldr (· ++ ·) []
  | _ => []

/-- None of the bytes that a piece reads is poisoned. -/
def clean (s : State) (key : Nat) : Piece → Bool
  | .load n => !(s.poisoned key n)
  | .pick offs => offs.all fun o => !(s.poisoned (key + o) 4)
  | _ => true

/-- A plain read of Dexa's: the registers that it names, its pieces, whether it needs its line's tag, and what the bytes and
the tag do to the hart. -/
structure ReadForm where
  names : Names
  wants : List Want
  whole : Bool
  dest : List Byte → BitVec 16 → Hart → Hart

/-- A v register whose active lanes take the words of a list of bytes; VQ and VTAG are cleared. -/
def Hart.laneLoad (y : Hart) (vd : RegIdx) (val : Nat → W32) : Hart :=
  let w : VReg := ⟨Vector.ofFn fun (k : Fin 16) => if y.act false k.val then val k.val else y.lane vd k.val, 0#16, false⟩
  { y with v := y.v.set vd.toNat w vd.isLt }

/-- The plain reads of R185 to R190. -/
def readForm (x : Hart) : Instr → Option ReadForm
  | .vld false v rs1 off =>
    some ⟨vNames [rs1] [] [v] [] .enters,
      loadWants (x.rx rs1 + off.signExtend 64 * 64#64) 64 (4 * (x.active false).length) .load, false,
      fun bs _ y => y.laneLoad v (wordOfBytes bs)⟩
  | .vlds false v rs1 rs2 =>
    some ⟨vNames [rs1, rs2] [] [v] [] .enters, x.gatherLoads (fun k => x.rx rs1 + BitVec.ofNat 64 k * x.rx rs2), false,
      fun bs _ y => y.laneLoad v (wordOfBytes bs)⟩
  | .vldx false v rs1 vs2 =>
    some ⟨vNames [rs1] [] [v, vs2] [] .enters, x.gatherLoads (fun k => x.rx rs1 + (x.lane vs2 k).signExtend 64), false,
      fun bs _ y => y.laneLoad v (wordOfBytes bs)⟩
  | .vldl vd rs1 off seg =>
    some ⟨vNames [rs1] [] [vd] [] .enters, oneWant (lineOf (x.rx rs1 + off.signExtend 64 * 64#64)) (.load 64) .load, true,
      fun bs tag y => vldlHart vd seg [.data bs tag false] y⟩
  | .ldtag r rs1 off =>
    some ⟨xNames [rs1] [r] .enters, oneWant (lineOf (x.rx rs1 + off.signExtend 64 * 64#64)) (.load 0) .load, true,
      fun _ tag y => y.wx r (tag.setWidth 64)⟩
  | .ldbit r rs1 rs2 w =>
    let b := x.bitAddr rs1 rs2
    let n := w.toNat + 1
    if bitInside b n then
      some ⟨xNames [rs1, rs2] [r] .enters, spanLoads b (b + n - 1), false,
        fun bs _ y => y.wx r (BitVec.ofNat 64 (spanElem bs b b n))⟩
    else none
  | .vldbit r rs1 rs2 w =>
    let b := x.bitAddr rs1 rs2
    let n := w.toNat + 1
    if (x.laneBits b n).all fun o => bitInside o n then
      some ⟨vNames [rs1, rs2] [] [r] [] .enters, spanLoads b (b + (x.laneBits b n).length * n - 1), false,
        fun bs _ y => y.laneLoad r fun k => BitVec.ofNat 32 (spanElem bs b (b + k * n) n)⟩
    else none
  | _ => none

/-- A plain store of Dexa's: the registers that it names and its pieces. -/
structure WriteForm where
  names : Names
  wants : List Want

/-- The plain stores of R185 to R190. -/
def writeForm (x : Hart) : Instr → Option WriteForm
  | .vst false v rs1 off =>
    let a := x.rx rs1 + off.signExtend 64 * 64#64
    some ⟨vNames [rs1] [] [v] [] .leaves, storeWants a 64 (x.laneBytes v false) (x.vstTag v a)⟩
  | .vsts false v rs1 rs2 =>
    some ⟨vNames [rs1, rs2] [] [v] [] .leaves, x.scatterStores (fun k => x.rx rs1 + BitVec.ofNat 64 k * x.rx rs2) v⟩
  | .vstx false v rs1 vs2 =>
    some ⟨vNames [rs1] [] [v, vs2] [] .leaves, x.scatterStores (fun k => x.rx rs1 + (x.lane vs2 k).signExtend 64) v⟩
  | .sttag r rs1 off =>
    some ⟨xNames [rs1, r] [] .leaves,
      oneWant (lineOf (x.rx rs1 + off.signExtend 64 * 64#64)) (.store [] (some ((x.rx r).setWidth 16))) .store⟩
  | .stbit r rs1 rs2 w =>
    let b := x.bitAddr rs1 rs2
    let n := w.toNat + 1
    if bitInside b n then
      some ⟨xNames [rs1, rs2, r] [] .leaves, bitStores [(b, n, (x.rx r).setWidth 32)]⟩ else none
  | .vstbit r rs1 rs2 w =>
    let b := x.bitAddr rs1 rs2
    let n := w.toNat + 1
    if (x.laneBits b n).all fun o => bitInside o n then
      some ⟨vNames [rs1, rs2] [] [r] [] .leaves,
        bitStores ((x.active false).map fun k => (b + k * n, n, x.lane r k))⟩
    else none
  | _ => none

/-- The bytes that a store's piece writes at a location: bit-granular elements replace their bits of the words around them. -/
def stores (s : State) (key : Nat) : Piece → List (Option Byte)
  | .store bytes _ => bytes
  | .bits n els => (spanBytes (memRead s.mem key n) els).map some
  | _ => []

/-- The tag that a store's piece carries. -/
def storeTag : Piece → Option (BitVec 16)
  | .store _ tag => tag
  | _ => none

/-! ## Relaxed accesses (R94, R188, R243) -/

/-- A relaxed load: the registers that it names, its pieces, where its value goes, and its KIND of R307. `width` is what its
address must be a multiple of. -/
structure RelaxedForm where
  names : Names
  wants : List Want
  dest : LoadDst
  kind : Nat
  addr : Word
  width : Nat

/-- The relaxed and acquire loads of R185, R186, R188 and R243. -/
def relaxedForm (x : Hart) : Instr → Option RelaxedForm
  | .lrx k rd rs1 off =>
    let a := x.rx rs1 + off.signExtend 64
    some ⟨xNames [rs1] [rd] .enters, loadWants a (lrxBytes k) (lrxBytes k) .load, .x rd k, 0, a, 1⟩
  | .vld true v rs1 off =>
    let a := x.rx rs1 + off.signExtend 64 * 64#64
    some ⟨vNames [rs1] [] [v] [] .enters, loadWants a 64 (4 * (x.active false).length) .load, .v v (x.active false), 2, a, 1⟩
  | .vlds true v rs1 rs2 =>
    some ⟨vNames [rs1, rs2] [] [v] [] .enters, x.gatherLoads (fun k => x.rx rs1 + BitVec.ofNat 64 k * x.rx rs2),
      .v v (x.active false), 3, 0#64, 1⟩
  | .vldx true v rs1 vs2 =>
    some ⟨vNames [rs1] [] [v, vs2] [] .enters, x.gatherLoads (fun k => x.rx rs1 + (x.lane vs2 k).signExtend 64),
      .v v (x.active false), 4, 0#64, 1⟩
  | .ldAqB _ rd rs1 => some ⟨xNames [rs1] [rd] .enters, oneWant (x.rx rs1) (.load 1) .load, .x rd .b, 1, x.rx rs1, 1⟩
  | .ldAqH _ rd rs1 => some ⟨xNames [rs1] [rd] .enters, oneWant (x.rx rs1) (.load 2) .load, .x rd .h, 1, x.rx rs1, 2⟩
  | .ldAqW _ rd rs1 => some ⟨xNames [rs1] [rd] .enters, oneWant (x.rx rs1) (.load 4) .load, .x rd .w, 1, x.rx rs1, 4⟩
  | .ldAqD _ rd rs1 => some ⟨xNames [rs1] [rd] .enters, oneWant (x.rx rs1) (.load 8) .load, .x rd .d, 1, x.rx rs1, 8⟩
  | _ => none

/-- The remote-access counter after the accesses of these pieces (R44): one count for each whole access. -/
def Hart.counted (x : Hart) (ws : List Want) : Hart :=
  ws.foldl (fun (y : Hart) w => if w.first then { y with mig := y.mig.count1 y.cluster (vaHome w.va) } else y) x

/-- A piece of a relaxed load as it sets out: the post buffer answers it at once where it holds all its bytes (R97). -/
def setsOut (s : State) (x : Hart) (w : Want) : AccPiece :=
  ⟨w.va, w.act, match w.act.reads with
    | some offs => (match s.forward x w.va offs false with
      | .bytes bs => .ans (.data bs 0#16 false)
      | _ => .todo)
    | none => .todo, none, !w.first⟩

/-- The post-buffer entries whose bytes a piece of a relaxed load takes as it sets out. -/
def takesFrom (s : State) (x : Hart) (w : Want) : List Nat :=
  match w.act.reads with
  | some offs => (match s.forward x w.va offs false with
    | .bytes _ => s.givers x w.va offs
    | _ => [])
  | none => []

/-- The post-buffer entries that a piece of a relaxed load waits for (R97). -/
def waitsFor (s : State) (x : Hart) (w : Want) : List Nat :=
  match w.act.reads with
  | some offs => (match s.forward x w.va offs false with
    | .after ids => ids
    | _ => [])
  | none => []

/-- `s` with a relaxed load of the hart `cur` under way, under the next identity. -/
def State.withLoad (s : State) (x : Hart) (ws : List Want) (dst : LoadDst) (fo : FormOp) (kind : Nat) : State :=
  { s with
    nextId := s.nextId + 1
    accs := tset s.accs s.nextId
      ⟨s.cur, some dst, ws.map (setsOut s x), x.ctx s.cur, (ws.map (waitsFor s x)).flatten, fo, kind⟩ }

/-- A relaxed or release store: the registers that it names, its pieces, and for a release its scope. -/
structure PostForm where
  names : Names
  wants : List Want
  rel : Option Scope
  addr : Word
  width : Nat

/-- The relaxed and release stores of R185, R186, R188 and R243. -/
def postForm (x : Hart) : Instr → Option PostForm
  | .srx k rt rs1 off =>
    let a := x.rx rs1 + off.signExtend 64
    let n := 2 ^ k.toNat
    some ⟨xNames [rs1, rt] [] .leaves, storeWants a n ((bytesOfNat n (x.rx rt).toNat).map some) none, none, a, 1⟩
  | .vst true v rs1 off =>
    let a := x.rx rs1 + off.signExtend 64 * 64#64
    some ⟨vNames [rs1] [] [v] [] .leaves, storeWants a 64 (x.laneBytes v false) (x.vstTag v a), none, a, 1⟩
  | .vsts true v rs1 rs2 =>
    some ⟨vNames [rs1, rs2] [] [v] [] .leaves, x.scatterStores (fun k => x.rx rs1 + BitVec.ofNat 64 k * x.rx rs2) v, none,
      0#64, 1⟩
  | .vstx true v rs1 vs2 =>
    some ⟨vNames [rs1] [] [v, vs2] [] .leaves, x.scatterStores (fun k => x.rx rs1 + (x.lane vs2 k).signExtend 64) v, none,
      0#64, 1⟩
  | .stRlB sc rs2 rs1 => some ⟨xNames [rs1, rs2] [] .leaves, relWants x 1 rs2 rs1, some sc, x.rx rs1, 1⟩
  | .stRlH sc rs2 rs1 => some ⟨xNames [rs1, rs2] [] .leaves, relWants x 2 rs2 rs1, some sc, x.rx rs1, 2⟩
  | .stRlW sc rs2 rs1 => some ⟨xNames [rs1, rs2] [] .leaves, relWants x 4 rs2 rs1, some sc, x.rx rs1, 4⟩
  | .stRlD sc rs2 rs1 => some ⟨xNames [rs1, rs2] [] .leaves, relWants x 8 rs2 rs1, some sc, x.rx rs1, 8⟩
  | _ => none
where
  /-- The one piece of a release store. -/
  relWants (x : Hart) (n : Nat) (rs2 rs1 : RegIdx) : List Want :=
    oneWant (x.rx rs1) (.store ((bytesOfNat n (x.rx rs2).toNat).map some) none) .store

/-! ## Asynchronous operations (R217) -/

/-- What an asynchronous instruction asks for: the registers that it names, its destination, whether it counts among the
eight of R94, the address whose home R44 counts, what it gives its operation, and the trap that it raises instead. -/
structure OpForm where
  names : Names
  rd : RegIdx
  limited : Bool
  counts : Option Word
  issue : Issue
  trap : Option (Nat × Word)

/-- The trap of a bank address (R384): cause 6 where it is no multiple of `n`, cause 7 where its home is no MC. -/
def bankTrap (a : Word) (n : Nat) : Option (Nat × Word) :=
  if a.toNat % n ≠ 0 then some (6, a) else if vaHome a < 0x180 ∨ 0x240 ≤ vaHome a then some (7, a) else none

/-- The trap of a barrier object's name (R247, R384): cause 50 with KIND 2 for a block barrier that the kernel has not. -/
def barrierTrap (s : State) (x : Hart) (a : Word) : Option (Nat × Word) :=
  if a.toNat = 0 then none
  else if a.toNat < 64 then
    if 33 ≤ a.toNat ∨ s.barriersOf x < a.toNat then some (50, BitVec.ofNat 64 (2 ^ 60 * 2 + a.toNat)) else none
  else bankTrap a 64

/-- A bank operation on a word of `n` bytes. -/
def bankForm (x : Hart) (sc : Scope) (rd rs1 rs2 : RegIdx) (fn : BankFn) (dbl : Bool) : OpForm :=
  let a := x.rx rs1
  ⟨xNames [rs1, rs2] [rd] .leaves, rd, true, some a, ⟨.bank fn dbl a (x.rx rs2) (x.rx rd), .zero, sc, [lineOf a], true⟩,
    bankTrap a (if dbl then 8 else 4)⟩

/-- A bank operation on a line. -/
def vredForm (x : Hart) (sc : Scope) (rd rs1 vs2 : RegIdx) (fn : VredFn) : OpForm :=
  let a := x.rx rs1
  let lanes := (List.range 16).map fun k => if k < x.vcnt.lanes then some (x.lane vs2 k) else none
  ⟨vNames [rs1] [rd] [vs2] [] .leaves, rd, true, some a, ⟨.vred fn a lanes, .status, sc, [lineOf a], true⟩, bankTrap a 64⟩

/-- A queue operation. -/
def queueForm (x : Hart) (sc : Scope) (rd rs1 : RegIdx) (xs : List RegIdx) (k : OpKind) : OpForm :=
  ⟨xNames xs [rd] .leaves, rd, true, some (x.rx rs1), ⟨k, .zero, sc, [], true⟩, none⟩

/-- An arrival at a barrier. -/
def arriveForm (s : State) (x : Hart) (sc : Scope) (rd rs1 : RegIdx) (xs : List RegIdx) (early : Bool) (opc : Nat)
    (lanes : BitVec 64) (fmt : Nat) : OpForm :=
  ⟨xNames xs [rd] .leaves, rd, true, none, ⟨.arrive (x.rx rs1) early opc lanes fmt, .zero, sc, [], true⟩,
    barrierTrap s x (x.rx rs1)⟩

/-- A send. -/
def sendForm (x : Hart) (sc : Scope) (rd rs1 rs2 : RegIdx) (k : Word → Bool → OpKind) : OpForm :=
  let a := x.rx rs1
  let m := BitVec.ofNat 64 (a.toNat / 8 * 8)
  let ok : Bool := decide (a.toNat / 2 % 4 = 0) && (mboxOf m).isSome
  ⟨xNames [rs1, rs2] [rd] .leaves, rd, false, none, ⟨k m (a.getLsbD 0), .status, sc, [], true⟩, if ok then none else some (7, a)⟩

/-- The asynchronous instructions of R235, R244 to R246, R230, R251 and R254. -/
def opForm (s : State) (x : Hart) : Instr → Option OpForm
  | .baddW sc rd a b => some (bankForm x sc rd a b .add false)
  | .baddD sc rd a b => some (bankForm x sc rd a b .add true)
  | .bfadd sc rd a b => some (bankForm x sc rd a b .fadd false)
  | .bminW sc rd a b => some (bankForm x sc rd a b .min false)
  | .bminD sc rd a b => some (bankForm x sc rd a b .min true)
  | .bminWu sc rd a b => some (bankForm x sc rd a b .minu false)
  | .bminDu sc rd a b => some (bankForm x sc rd a b .minu true)
  | .bmaxW sc rd a b => some (bankForm x sc rd a b .max false)
  | .bmaxD sc rd a b => some (bankForm x sc rd a b .max true)
  | .bmaxWu sc rd a b => some (bankForm x sc rd a b .maxu false)
  | .bmaxDu sc rd a b => some (bankForm x sc rd a b .maxu true)
  | .bfmin sc rd a b => some (bankForm x sc rd a b .fmin false)
  | .bfmax sc rd a b => some (bankForm x sc rd a b .fmax false)
  | .bxchgW sc rd a b => some (bankForm x sc rd a b .xchg false)
  | .bxchgD sc rd a b => some (bankForm x sc rd a b .xchg true)
  | .bcasW sc rd a b => some (bankForm x sc rd a b .cas false)
  | .bcasD sc rd a b => some (bankForm x sc rd a b .cas true)
  | .bvredAddI32 sc rd a v => some (vredForm x sc rd a v .addI)
  | .bvredAddF32 sc rd a v => some (vredForm x sc rd a v .addF)
  | .bvredMinI32 sc rd a v => some (vredForm x sc rd a v .minI)
  | .bvredMinF32 sc rd a v => some (vredForm x sc rd a v .minF)
  | .bvredMaxI32 sc rd a v => some (vredForm x sc rd a v .maxI)
  | .bvredMaxF32 sc rd a v => some (vredForm x sc rd a v .maxF)
  | .bqenq sc rd a b => some (queueForm x sc rd a [a, b] (.enq (x.rx a) (x.rx b)))
  | .bqdeq sc rd a => some (queueForm x sc rd a [a] (.deq (x.rx a)))
  | .bqlen sc rd a => some (queueForm x sc rd a [a] (.len (x.rx a)))
  | .bar sc rd a => some (arriveForm s x sc rd a [a] false 0 0#64 0)
  | .barrive sc rd a => some (arriveForm s x sc rd a [a] true 0 0#64 0)
  | .barcSumI32 sc rd a b => some (arriveForm s x sc rd a [a, b] false 1 (x.rx b) 0)
  | .barcSumF32 sc rd a b => some (arriveForm s x sc rd a [a, b] false 2 (x.rx b) 0)
  | .barcMinI32 sc rd a b => some (arriveForm s x sc rd a [a, b] false 3 (x.rx b) 0)
  | .barcMinF32 sc rd a b => some (arriveForm s x sc rd a [a, b] false 4 (x.rx b) 0)
  | .barcMaxI32 sc rd a b => some (arriveForm s x sc rd a [a, b] false 5 (x.rx b) 0)
  | .barcMaxF32 sc rd a b => some (arriveForm s x sc rd a [a, b] false 6 (x.rx b) 0)
  | .barmax sc rd a b =>
    some (arriveForm s x sc rd a [a, b] false 7 (((x.rx b).setWidth 32).setWidth 64) ((x.rx b).toNat / 2 ^ 32 % 2 ^ 7))
  | .bwait rd a =>
    let obj := x.rx a
    let far : Bool := decide (64 ≤ obj.toNat)
    some ⟨xNames [a, rd] [rd] .leaves, rd, true, if far then some obj else none,
      ⟨.bwait obj ((x.rx rd).setWidth 32), .zero, .hart, if far then [lineOf obj] else [], true⟩, barrierTrap s x obj⟩
  | .send sc rd a b => some (sendForm x sc rd a b fun m nw => .sendImg m nw (x.rx b))
  | .sendp sc rd a b => some (sendForm x sc rd a b fun m nw => .send m nw (bytesOfNat 8 (x.rx b).toNat) 8 0)
  | .cpyk rd a b =>
    some ⟨xNames [a, b] [rd] .leaves, rd, false, none, ⟨.kick (x.rx a) (x.rx b), .status, .sys, [], true⟩,
      if (x.rx a).toNat % 8 ≠ 0 then some (4, x.rx a)
      else if (kickOf (x.rx b)).isNone then some (7, x.rx b) else none⟩
  | .launch rd a q =>
    some ⟨xNames [a] [rd] .leaves, rd, false, none, ⟨.launch (x.rx a) q.toNat, .launch, .sys, [], true⟩,
      if (x.rx a).toNat % 128 ≠ 0 then some (4, x.rx a) else none⟩
  | _ => none

/-- The operation that an issue starts. -/
def opOf (s : State) (x : Hart) (fo : FormOp) (p : Issue) : Op where
  hart := s.cur
  kind := p.kind
  st := .issued
  fo := fo
  how := p.how
  scope := p.scope
  ctx := ⟨x.asid, x.priv, some s.cur, 0⟩
  gate := if p.gated then s.opGate s.cur x p.scope p.lines else []
  drained := !p.gated
  tag := (s.tagOf x).1
  nodl := (s.tagOf x).2
  cluster := x.cluster
  win := s.winOf x
  since := s.ncyc
  inj := none
  beta := none

/-- `s` with an operation of the hart `cur` under way, under the next identity; the post-buffer entries that it waits for begin to
drain. -/
def State.withOp (s : State) (x : Hart) (fo : FormOp) (p : Issue) : State :=
  { s with
    nextId := s.nextId + 1
    ops := tset s.ops s.nextId (opOf s x fo p)
    pb := s.pb.map fun q => if (opOf s x fo p).gate.contains q.1 then (q.1, { q.2 with draining := true }) else q }

/-- The hart after it has issued the operation `id` (R217): one more issued, and the handle pending in rd unless that is x0. -/
def Hart.issued (x : Hart) (rd : RegIdx) (fo : FormOp) (id : Nat) : Hart :=
  let handle : Word := 0xFD#8 ++ (if fo.form = 3 then 1#1 else 0#1) ++ BitVec.ofNat 7 fo.op ++ 0#16 ++ (x.seq + 1#32)
  { x with
    seq := x.seq + 1#32
    x := if rd = 0#5 then x.x else x.x.set rd.toNat handle rd.isLt
    regs := if rd = 0#5 then x.regs else tset x.regs rd.toNat (.pending id) }

/-- The remote-access counter after a request to the home of an address. -/
def Hart.countedTo (x : Hart) : Option Word → Hart
  | some a => { x with mig := x.mig.count1 x.cluster (vaHome a) }
  | none => x

/-- An operation on a queue whose handle has a bit of [46:12] set, which names no queue (R246, R389). -/
def badHandle : OpKind → Bool
  | .enq h _ | .deq h | .len h => h.toNat / 2 ^ 12 % 2 ^ 35 != 0
  | _ => false

/-! ## Copy engines, plinths and the chisel unit -/

/-- What an instruction for a copy engine asks for: the registers that it names, its destination, the command, whether its
operation has a release of its own, and the trap that it raises instead. -/
structure EngineForm where
  names : Names
  rd : RegIdx
  what : CopyWhat
  gated : Bool
  trap : Option (Nat × Word)

/-- The instructions of R228 and R232. -/
def engineForm (x : Hart) : Instr → Option EngineForm
  | .cpy rd a =>
    some ⟨xNames [a] [rd] .leaves, rd, .desc (x.rx a), true, if (x.rx a).toNat % 16 ≠ 0 then some (4, x.rx a) else none⟩
  | .cpyd rd a b n => some ⟨xNames [a, b] [rd] .leaves, rd, .plain (cpydDescs (x.rx a) (x.rx b) n.toNat), true, none⟩
  | .pref rd a n => some ⟨xNames [a] [rd] .leaves, rd, .pref (x.rx a) n.toNat, false, none⟩
  | _ => none

/-- `s` with a command of the hart behind the others of its engine: that of the quarter of its window, in its cluster (R226). -/
def State.withCmd (s : State) (x : Hart) (what : CopyWhat) (op : Nat) : State :=
  let e := 4 * x.cluster + s.winOf x % 96 / 24
  { s with engines := tset s.engines e (tgetD s.engines e [] ++
      [newCmd op what ⟨x.asid, x.priv, some s.cur, 0⟩ x.cluster (s.winOf x / 96) (s.tagOf x).1 (s.tagOf x).2 (some op) .none
        s.ncyc]) }

/-- What a tile instruction asks for: the registers that it names, the command, the lines that it takes, its future, and the trap
that it raises instead. -/
structure TileForm where
  names : Names
  what : TileWhat
  na : Nat
  nb : Nat
  future : Option (RegIdx × FailHow)
  trap : Option (Nat × Word)

/-- Cause 52 for a group that neither holds its plinth's lease nor waits for it (R382). -/
def leaseTrap (s : State) (x : Hart) (i : Instr) : Option (Nat × Word) :=
  if s.leaseOk x then none else some (52, bitsOfEnc (encode i))

/-- A transfer between an accumulator and memory: the lease, then the alignment of its address. -/
def tileMemForm (s : State) (x : Hart) (i : Instr) (what : TileWhat) (xs : List RegIdx) (a : Word) (cause : Nat)
    (future : Option (RegIdx × FailHow)) : TileForm :=
  ⟨tileNames xs (future.toList.map Prod.fst), what, 0, 0, future,
    if s.leaseOk x then if a.toNat % 64 ≠ 0 then some (cause, a) else none else some (52, bitsOfEnc (encode i))⟩

/-- A matrix multiply: cause 50 with KIND 3 for a ring without lines, 51 for one with fewer than the command takes. -/
def mmaForm (s : State) (x : Hart) (g : Group) (i : Instr) (kmajor : Bool) (rd : RegIdx) (acc : BitVec 2) (ar br : BitVec 3)
    (p : BitVec 4) : TileForm :=
  let la := s.ringLines g.win ar.toNat fun _ => true
  let lb := s.ringLines g.win br.toNat fun _ => true
  let n := tileLines kmajor g.tcfgIssued x.vcnt.rows x.vcnt.cols (p.toNat + 1)
  let few : Bool := if ar = br then decide (la < n.1 + n.2) else decide (la < n.1) || decide (lb < n.2)
  ⟨tileNames [] [rd], .mma kmajor acc.toNat ar.toNat br.toNat (p.toNat + 1), n.1, n.2, some (rd, .zero),
    if la = 0 then some (50, BitVec.ofNat 64 (2 ^ 60 * 3 + ar.toNat))
    else if lb = 0 then some (50, BitVec.ofNat 64 (2 ^ 60 * 3 + br.toNat))
    else if few then some (51, bitsOfEnc (encode i))
    else leaseTrap s x i⟩

/-- The tile commands (R205 to R212). -/
def tileForm (s : State) (x : Hart) (g : Group) : Instr → Option TileForm
  | .tcfg w int pl tra chk =>
    some ⟨tileNames [] [], .cfg ⟨w, int, pl, tra, chk⟩, 0, 0, none, leaseTrap s x (.tcfg w int pl tra chk)⟩
  | .tzero acc => some ⟨tileNames [] [], .zero acc.toNat, 0, 0, none, leaseTrap s x (.tzero acc)⟩
  | .tldc acc ef a => some (tileMemForm s x (.tldc acc ef a) (.ldc acc.toNat ef (x.rx a)) [a] (x.rx a) 4 none)
  | .tmma rd acc ar br p => some (mmaForm s x g (.tmma rd acc ar br p) false rd acc ar br p)
  | .tmmat rd acc ar br p => some (mmaForm s x g (.tmmat rd acc ar br p) true rd acc ar br p)
  | .tstc rd acc ef sat scale a b =>
    some (tileMemForm s x (.tstc rd acc ef sat scale a b)
      (.stc acc.toNat ef sat (if scale then (x.rx b).toNat % 2 ^ 9 else 0) (x.rx a)) (if scale then [a, b] else [a]) (x.rx a) 6
      (some (rd, .zero)))
  | .tstat rd => some ⟨tileNames [] [rd], .stat, 0, 0, some (rd, .zero), none⟩
  | .tsave rd acc a =>
    some (tileMemForm s x (.tsave rd acc a) (.save acc.toNat (x.rx a)) [a] (x.rx a) 6 (some (rd, .status)))
  | .tload rd acc a =>
    some (tileMemForm s x (.tload rd acc a) (.load acc.toNat (x.rx a)) [a] (x.rx a) 4 (some (rd, .status)))
  | _ => none

/-- `s` with a tile command under the next identity, behind its plinth's others, or behind those that a stop has withdrawn from its
group (R193, R214), and among its group's: with ROWS and COLS of dxvcnt
and the latest tcfg issued before it (R164, R193, R206), after its .cl release (R109) and the hart's own entries that hold bytes which it
moves, which begin to drain (R94). -/
def State.withTile (s : State) (x : Hart) (g : Group) (i : Instr) (F : TileForm) (op : Option Nat) : State :=
  let w := bitsOfEnc (encode i)
  let own := match F.what.span with
    | some (a, n) => s.spanEntries s.cur a n
    | none => []
  let t : Tile :=
    { id := s.nextId
      group := x.group
      hart := s.cur
      what := F.what
      rows := x.vcnt.rows
      cols := x.vcnt.cols
      cfg := g.tcfgIssued
      ctx := ⟨x.asid, x.priv, some s.cur, 0⟩
      gate := s.opGate s.cur x .cl [] ++ own
      fo := formOf i
      op := op
      accepted := false
      retireAt := 0
      na := F.na
      nb := F.nb
      fail := none
      wrote := 0
      bits := w
      ra := x.rx (w.extractLsb' 15 5)
      rb := x.rx (w.extractLsb' 20 5) }
  let pi := s.plinthOf g
  { s with
    nextId := s.nextId + 1
    pb := s.pb.map fun q => if own.contains q.1 then (q.1, { q.2 with draining := true }) else q
    plinths := tset s.plinths pi (if g.away = 0 then { s.plinth pi with queue := (s.plinth pi).queue ++ [t] } else s.plinth pi)
    groups := tmod s.groups x.group fun y => { y with
      withdrawn := if g.away = 0 then y.withdrawn else y.withdrawn ++ [t]
      tiles := if F.what = .release then y.tiles else y.tiles ++ [s.nextId]
      tcfgIssued := match F.what with
        | .cfg c => c
        | _ => y.tcfgIssued } }

/-- `s` with the chisel unit of the hart's core busy with its instruction for this many A-cycles (R263, R277). -/
def State.withUnit (s : State) (x : Hart) (cost : Nat) : State :=
  s.modCore x.core fun c =>
    { c with chisel := some s.cur, chiselEnd := some (s.ncyc / 2 + cost), chiselQ := c.chiselQ.filter fun h => some s.cur != some h }

/-- An instruction of the chisel unit that reads no memory: the registers that it names, its A-cycles, and what it does to the
workspace. -/
structure UnitForm where
  names : Names
  cost : Nat
  work : Chisel → Chisel

/-- The instructions of R267 to R270 that read no memory, where their block is not singular. -/
def unitForm (x : Hart) : Instr → Option UnitForm
  | .gbCfg a b => some ⟨xNames [a, b] [] .alone, 4, fun c => c.cfg (x.rx a) (x.rx b)⟩
  | .gbClr => some ⟨xNames [] [] .alone, 4, fun c =>
      { Chisel.zero with dim := c.dim, map := c.map, eps := c.eps, tau := c.tau }⟩
  | .gbBel a =>
    if x.rx a = 0#64 then
      some ⟨xNames [a] [] .enters, 4, fun c => { c with outdim := c.dim, oeta := c.eta, olam := c.lam, live := true }⟩
    else none
  | .gbElim a =>
    let ts := x.chisel.block (x.rx a).toNat
    if ts = [] then none
    else (x.chisel.elim ts).map fun c => ⟨xNames [a] [] .alone, elimCost (x.chisel.dim - ts.length) ts.length, fun _ => c⟩
  | _ => none

/-- An instruction of the chisel unit that reads a record of `d` dimensions: the registers that it names, the record's address,
whether it takes such a record, and what the bytes do to the workspace. -/
structure RecordForm where
  names : Names
  addr : Word
  takes : Nat → Bool
  work : Nat → List Byte → Chisel → Chisel

/-- The instructions of R268 that read a record. -/
def recordForm (x : Hart) : Instr → Option RecordForm
  | .gbLdf a => some ⟨xNames [a] [] .enters, x.rx a, fun d => decide (1 ≤ d ∧ d ≤ 8), fun d bs c => c.load d bs⟩
  | .gbAddm a b =>
    some ⟨xNames [a, b] [] .enters, x.rx a, fun d => decide (1 ≤ d ∧ d ≤ 8 ∧ (x.rx b).toNat + d ≤ x.chisel.dim),
      fun d bs c => c.combine addF32 (x.rx b).toNat d bs⟩
  | .gbSubm a b =>
    some ⟨xNames [a, b] [] .enters, x.rx a, fun d => decide (1 ≤ d ∧ d ≤ 8 ∧ (x.rx b).toNat + d ≤ x.chisel.dim),
      fun d bs c => c.combine subF32 (x.rx b).toNat d bs⟩
  | .gbBel a =>
    if x.rx a = 0#64 then none
    else some ⟨xNames [a] [] .enters, x.rx a, fun d => decide (d = x.chisel.dim), fun d bs c => (c.combine addF32 0 d bs).belief⟩
  | _ => none

end Sys2Proof.Machine
end

