-- ==== Sys2Proof/Certificates/Slice0/Obligations.lean ====
section
/-! DEFINITION. The statements about the model. -/

open Sys2Proof Sys2Proof.Machine

/-! ## Lanes -/

/-- R170, R173 to R178, R180, R183: an operation on lanes writes each active lane of vd with its value and ORs the flags of the
active lanes into fflags; inactive lanes keep their value, VQ and VTAG of vd are cleared, and nothing else changes. -/
def Obligations.LaneOperations : Prop :=
  ∀ (i : Instr) (L : LaneForm) (s : State) (x : Hart), laneForm i = some L →
    Ready s x (vNames L.xs [] (L.vd :: L.vs) [] .alone) →
    Retires i s x { x with
      v := x.v.set L.vd.toNat
        ⟨Vector.ofFn fun (k : Fin 16) => if x.act L.m k.val then (L.val x k.val).1 else x.lane L.vd k.val, 0#16, false⟩
        L.vd.isLt
      fflags := x.fflags ||| (x.active L.m).foldl (fun a k => a ||| (L.val x k).2) noFlags }

/-- R175: a lane comparison writes all 16 bits of DXPW.MASK or of DXPW.COND, 1 exactly for the active lanes in which it holds, and
ORs the flags of the active lanes into fflags. -/
def Obligations.LaneComparisons : Prop :=
  ∀ (i : Instr) (o : FCmp) (m cond : Bool) (ty : LaneTy) (a b : RegIdx) (s : State) (x : Hart),
    i = (match o with
      | .eq => .vcmpeq m ty cond a b
      | .lt => .vcmplt m ty cond a b
      | .le => .vcmple m ty cond a b) →
    Ready s x (vNames [] [] [a, b] [] .alone) →
    ∃ bits : BitVec 16,
      (∀ k, k < 16 → bits.getLsbD k = (x.act m k && (laneCmp o ty (x.lane a k) (x.lane b k)).1)) ∧
      Retires i s x { x with
        pw := if cond then bits ++ x.pw.extractLsb' 0 16 else x.pw.extractLsb' 16 16 ++ bits
        fflags := x.fflags ||| (x.active m).foldl (fun f k => f ||| (laneCmp o ty (x.lane a k) (x.lane b k)).2) noFlags }

/-- R133, R181, R182: a reduction combines the active lanes in pairs as a tree, an inactive lane standing as the identity, and writes
lane 0 with the result and the others with 0; vamax writes the largest magnitude of the active lanes to every lane. -/
def Obligations.LaneReductions : Prop :=
  ∀ (i : Instr) (m : Bool) (ty : LaneTy) (vd a : RegIdx) (ident : W32) (f : W32 → W32 → W32 × FFlags) (s : State) (x : Hart),
    Ready s x (vNames [] [] [vd, a] [] .alone) →
    ((i, ident, f) = (.vredsum m ty vd a, sumIdent ty, laneAdd ty) ∨ (i, ident, f) = (.vredmax m ty vd a, maxIdent ty, laneMax ty) ∨
        (i, ident, f) = (.vredmin m ty vd a, minIdent ty, laneMin ty) →
      Retires i s x { x with
        v := x.v.set vd.toNat
          ⟨Vector.ofFn fun (k : Fin 16) => if k.val = 0 then (treeReduce f 4 (x.slots m a ident)).1 else 0#32, 0#16, false⟩
          vd.isLt
        fflags := x.fflags ||| (treeReduce f 4 (x.slots m a ident)).2 }) ∧
    Retires (.vamax m vd a) s x { x with
      v := x.v.set vd.toNat
        ⟨Vector.ofFn fun (_ : Fin 16) => maxAbs ((x.active m).map (x.lane a)), 0#16, false⟩ vd.isLt
      fflags := x.fflags ||| (if ((x.active m).map (x.lane a)).any fun l => (f32 l).isSig then flagNV else noFlags) }

/-- R179, R183: vquant writes one segment of the packed line in vd, sets VQ, and leaves in VTAG the element format's code and the
scale; vextr writes x[rd] with an active lane, sign-extended, and with 0 for an inactive one. -/
def Obligations.QuantAndExtract : Prop :=
  ∀ (m : Bool) (q : BitVec 3) (vd a r rd : RegIdx) (lane : BitVec 4) (s : State) (x : Hart),
    let E := quantFmt q
    let sel := (x.rx r).toNat
    let seg := sel / 2 ^ 16 % 2 ^ 3
    let sc := x.quantScale m E a sel
    let line := quantLine E seg (fun k => (x.quantAt m E a sc.1 k).1) (x.lineNat vd)
    let inLine := (List.range 16).filter fun k => decide (16 * seg + k < elemsPerLine E.width)
    (Ready s x (vNames [r] [] [vd, a] [] .alone) →
      Retires (.vquant m q vd a r) s x { x with
        v := x.v.set vd.toNat
          ⟨Vector.ofFn fun (k : Fin 16) => BitVec.ofNat 32 (line / 2 ^ (32 * k.val)), BitVec.ofNat 16 (E.code * 512 + sc.1), true⟩
          vd.isLt
        fflags := x.fflags ||| inLine.foldl (fun f k => f ||| (x.quantAt m E a sc.1 k).2) sc.2 }) ∧
    (Ready s x (vNames [] [rd] [a] [] .alone) →
      Retires (.vextr m rd a lane) s x
        (x.wx rd (if x.act m lane.toNat then (x.lane a lane.toNat).signExtend 64 else 0#64)))

/-- R257: the predicate word's instructions set and clear bits by x[rs1], combine single bits, and count the bits of
pw AND x[rs1]. -/
def Obligations.PredicateWord : Prop :=
  ∀ (d a b rd rs1 : RegIdx) (s : State) (x : Hart),
    (Ready s x (xNames [rs1] [] .alone) →
      Retires (.pwset rs1) s x { x with pw := x.pw ||| (x.rx rs1).setWidth 32 } ∧
      Retires (.pwclr rs1) s x { x with pw := x.pw &&& ~~~((x.rx rs1).setWidth 32) }) ∧
    (Ready s x (xNames [] [] .alone) →
      (∃ w : W32, (∀ k, k < 32 → w.getLsbD k = if k = d.toNat then x.pw.getLsbD a.toNat && x.pw.getLsbD b.toNat
          else x.pw.getLsbD k) ∧ Retires (.pwand d a b) s x { x with pw := w }) ∧
      (∃ w : W32, (∀ k, k < 32 → w.getLsbD k = if k = d.toNat then x.pw.getLsbD a.toNat || x.pw.getLsbD b.toNat
          else x.pw.getLsbD k) ∧ Retires (.pwor d a b) s x { x with pw := w }) ∧
      (∃ w : W32, (∀ k, k < 32 → w.getLsbD k = if k = d.toNat then !x.pw.getLsbD a.toNat else x.pw.getLsbD k) ∧
        Retires (.pwnot d a) s x { x with pw := w })) ∧
    (Ready s x (xNames [rs1] [rd] .alone) →
      Retires (.pwpop rd rs1) s x
        (x.wx rd (BitVec.ofNat 64 ((List.range 32).countP fun k => x.pw.getLsbD k && (x.rx rs1).getLsbD k))))

/-! ## The base -/

/-- R141: the base's integer operations, comparisons, conversions and moves into x registers write rd, x0 discarding it, and OR
the flags they raise into fflags; nothing else changes. -/
def Obligations.BaseWritesX : Prop :=
  ∀ (op : BaseOp) (s : State) (x : Hart) (rd : RegIdx) (v : Word) (fl : FFlags),
    Ready s x (baseNames op) → baseWritesX x op = some (rd, v, fl) →
    Retires (.baseArithmetic op) s x
      { x with x := if rd = 0#5 then x.x else x.x.set rd.toNat v rd.isLt, fflags := x.fflags ||| fl }

/-- R141, R130: the base's floating-point operations write f[rd] and OR the flags they raise into fflags. -/
def Obligations.BaseWritesF : Prop :=
  ∀ (op : BaseOp) (s : State) (x : Hart) (rd : RegIdx) (v : W32) (fl : FFlags),
    Ready s x (baseNames op) → baseWritesF x op = some (rd, v, fl) →
    Retires (.baseArithmetic op) s x { x with f := x.f.set rd.toNat v rd.isLt, fflags := x.fflags ||| fl }

/-- R141: JAL, JALR and a taken branch go to their target and leave the address of the next instruction in rd; a target that is
no multiple of 4 traps with cause 0 instead (PRESUMED, log 21); a branch that is not taken goes on. -/
def Obligations.BaseJumps : Prop :=
  ∀ (op : BaseOp) (s : State) (x : Hart), Ready s x (baseNames op) →
    (∀ rd pc, baseJumps x op = some (rd, pc) → pc.toNat % 4 = 0 →
      RetiresTo (.baseArithmetic op) s pc
        { x with x := if rd = 0#5 then x.x else x.x.set rd.toNat (addrPlus x.pc 4) rd.isLt }) ∧
    (∀ rd pc, baseJumps x op = some (rd, pc) → pc.toNat % 4 ≠ 0 → Traps (.baseArithmetic op) s 0 pc 0) ∧
    (∀ c rs1 rs2 imm, op = .branch c rs1 rs2 imm → brTaken c (x.rx rs1) (x.rx rs2) = false →
      Retires (.baseArithmetic op) s x x)

/-- R141, R373: an operation that names no rounding mode is an illegal instruction, and EBREAK takes a breakpoint trap. -/
def Obligations.BaseTraps : Prop :=
  ∀ (op : BaseOp) (s : State) (x : Hart), Ready s x (baseNames op) →
    (baseUnrounded x op = true → Traps (.baseArithmetic op) s 2 (bitsOfEnc (encode (.baseArithmetic op))) 0) ∧
    (op = .ebreak → Traps (.baseArithmetic op) s 3 (if Config.breakTval then x.pc else 0#64) 0)

/-! ## Plain accesses -/

/-- R141, R143: x0 reads as zero and discards writes; every other x register holds what was written last, and a write leaves the
others. -/
def Obligations.RegisterZero : Prop :=
  ∀ (x : Hart) (r : RegIdx) (v : Word),
    x.rx 0#5 = 0#64 ∧ x.wx 0#5 v = x ∧ (r ≠ 0#5 → (x.wx r v).rx r = v) ∧ ∀ q, q ≠ r → (x.wx r v).rx q = x.rx q

/-- R141, R93, R97: an aligned base load whose bytes are resident memory and stand in no post buffer, and which nothing holds back,
reads them and writes rd, sign- or zero-extended as its form says, or f[rd] for FLW; no byte of memory changes, no tag, no other
register and no other hart. -/
def Obligations.BaseLoads : Prop :=
  ∀ (k : LoadW) (rd rs1 : RegIdx) (imm : BitVec 12) (s : State) (x : Hart) (key : Nat) (tag : Option (BitVec 16)),
    let va := x.rx rs1 + imm.signExtend 64
    let n := loadBytes k
    let v := natOfBytes (memRead s.mem key n)
    Ready s x (loadNames k rd rs1) → PlainReady s x → NoEntry s x va → va.toNat % n = 0 →
    Reaches s x va n .load key tag → s.poisoned key n = false →
    ∃ t, AfterRead s t x va ∧
      RetiresIn (.baseLoad k rd rs1 imm) s t x fun y => match k with
        | .b | .h | .w | .d => y.wx rd (((BitVec.ofNat 64 v).setWidth (8 * n)).signExtend 64)
        | .bu | .hu | .wu => y.wx rd (BitVec.ofNat 64 v)
        | .fw => y.wf rd (BitVec.ofNat 32 v)

/-- R141, R93: an aligned base store whose bytes are resident memory, untraced, and which nothing holds back, writes the low bytes of
x[rs2], or f[rs2] for FSW, at its address, lowest byte first; every other byte of memory is unchanged, and every register. -/
def Obligations.BaseStores : Prop :=
  ∀ (k : StoreW) (rs1 rs2 : RegIdx) (imm : BitVec 12) (s : State) (x : Hart) (key : Nat) (tag : Option (BitVec 16)),
    let va := x.rx rs1 + imm.signExtend 64
    let n := storeBytes k
    let v : Word := match k with
      | .fw => (x.rf rs2).setWidth 64
      | _ => x.rx rs2
    s.Inv → Ready s x (storeNames k rs1 rs2) → PlainReady s x → va.toNat % n = 0 → Reaches s x va n .store key tag →
    Writable s x va (.store ((bytesOfNat n v.toNat).map some) none) →
    ∃ t, AfterWrite s t x va key ((bytesOfNat n v.toNat).map some) none ∧ RetiresAt (.baseStore k rs1 rs2 imm) s t x

/-- R104: an atomic whose address is a multiple of its width reads the old value into rd and writes the new one, in one
step at its home; LR reserves its line, and SC stores and answers 0 where the reservation stands, and 1 else. An address that is no
multiple of the width traps with cause 6, or 4 for LR. -/
def Obligations.Atomics : Prop :=
  ∀ (dbl aq rl : Bool) (rd rs1 rs2 : RegIdx) (op : AmoOp) (s : State) (x : Hart) (key : Nat) (tag : Option (BitVec 16)),
    let va := x.rx rs1
    let n := if dbl then 8 else 4
    let old := natOfBytes (memRead s.mem key n)
    let oldX : Word := ((BitVec.ofNat 64 old).setWidth (8 * n)).signExtend 64
    (Ready s x (xNames [rs1, rs2] [rd] .leaves) → va.toNat % n ≠ 0 →
      Traps (.amo op dbl aq rl rd rs1 rs2) s 6 va 0 ∧ Traps (.sc dbl aq rl rd rs1 rs2) s 6 va 0) ∧
    (Ready s x (xNames [rs1] [rd] .leaves) → va.toNat % n ≠ 0 → Traps (.lr dbl aq rl rd rs1) s 4 va 0) ∧
    (s.Inv → PlainReady s x → va.toNat % n = 0 → s.poisoned key n = false → (rl = true → s.fenceGate s.cur x .md = none) →
      (Ready s x (xNames [rs1, rs2] [rd] .leaves) → Reaches s x va n .amo key tag → Writable s x va (.amo op dbl (x.rx rs2)) →
        ∃ t, AfterWrite s t x va key ((bytesOfNat n (amoNew op n old (x.rx rs2).toNat)).map some) none ∧
          RetiresIn (.amo op dbl aq rl rd rs1 rs2) s t x fun y => y.wx rd oldX) ∧
      (Ready s x (xNames [rs1] [rd] .leaves) → Reaches s x va n .load key tag → Writable s x va (.lr dbl) →
        ∃ t, AfterRead s t x va ∧
          RetiresIn (.lr dbl aq rl rd rs1) s t x fun y => { y.wx rd oldX with resv := some (key / 64) }) ∧
      (Ready s x (xNames [rs1, rs2] [rd] .leaves) → Reaches s x va n .store key tag → Writable s x va (.sc dbl (x.rx rs2)) →
        x.resv = some (key / 64) →
        ∃ t, AfterWrite s t x va key ((bytesOfNat n (x.rx rs2).toNat).map some) none ∧
          RetiresIn (.sc dbl aq rl rd rs1 rs2) s t x fun y => { y.wx rd 0#64 with resv := none }) ∧
      (Ready s x (xNames [rs1, rs2] [rd] .leaves) → Reaches s x va n .store key tag → Writable s x va (.sc dbl (x.rx rs2)) →
        x.resv ≠ some (key / 64) →
        ∃ t, AfterRead s t x va ∧
          RetiresIn (.sc dbl aq rl rd rs1 rs2) s t x fun y => { y.wx rd 1#64 with resv := none }))

/-- R185 to R187, R189, R190: a plain vector, bit-granular or tag read of one piece that is resident memory, and which nothing holds
back, gives its destination the bytes and the tag there; no byte of memory changes. -/
def Obligations.PlainReads : Prop :=
  ∀ (i : Instr) (s : State) (x : Hart) (F : ReadForm) (va : Word) (act : Piece) (key : Nat) (tag : Option (BitVec 16)),
    readForm x i = some F → Ready s x F.names → PlainReady s x → F.wants = [⟨va, act, .load, true⟩] →
    Unbuffered s x va act F.whole → Reaches s x va act.width .load key tag → clean s key act = true →
    ∃ t, AfterRead s t x va ∧ RetiresIn i s t x (F.dest (pieceBytes s key act) (tag.getD (tgetD s.tags (key / 64) 0#16)))

/-- R185, R186, R189, R190: a plain vector, bit-granular or tag store of one piece that is resident memory with a sideband, untraced, and
which nothing holds back, writes its bytes, and its tag where it carries one; nothing else changes. -/
def Obligations.PlainWrites : Prop :=
  ∀ (i : Instr) (s : State) (x : Hart) (F : WriteForm) (va : Word) (act : Piece) (key : Nat),
    writeForm x i = some F → s.Inv → Ready s x F.names → PlainReady s x → F.wants = [⟨va, act, .store, true⟩] →
    Reaches s x va act.width .store key none → Writable s x va act →
    ∃ t, AfterWrite s t x va key (stores s key act) (storeTag act) ∧ RetiresAt i s t x

/-- R76: an access whose address is no multiple of its width is cut at the multiple inside it, and the halves are performed
in order of address; an aligned one is one piece, and so is one that would cross the end of its home. -/
def Obligations.AccessSplit : Prop :=
  ∀ (va : Word) (w : Nat) (kind : AccKind), 0 < w →
    ((va.toNat % w = 0 ∨ 2 ^ 47 < va.toNat % 2 ^ 47 + w) → loadWants va w w kind = [⟨va, .load w, kind, true⟩]) ∧
    (va.toNat % w ≠ 0 → va.toNat % 2 ^ 47 + w ≤ 2 ^ 47 →
      loadWants va w w kind =
        [⟨va, .load (w - va.toNat % w), kind, true⟩,
          ⟨va + BitVec.ofNat 64 (w - va.toNat % w), .load (va.toNat % w), kind, false⟩])

/-! ## Relaxed accesses -/

/-- R94, R97, R101, R188, R243: a relaxed or acquire load that the rules of overlap and of eight let go is under way when it
retires: its pieces stand in the state, answered by the post buffer where that holds all their bytes, its destination is busy, and no
byte of memory has changed. An acquire load whose address is no multiple of its width traps with cause 4. -/
def Obligations.RelaxedLoads : Prop :=
  ∀ (i : Instr) (s : State) (x : Hart) (F : RelaxedForm), relaxedForm x i = some F → Ready s x F.names →
    (F.addr.toNat % F.width = 0 → s.relaxedOk s.cur F.wants = true →
      RetiresIn i s (s.withLoad x F.wants F.dest (formOf i) F.kind) x fun _ =>
        ((x.counted F.wants).sawAll (F.wants.map (takesFrom s x)).flatten).markBusy s.nextId F.dest) ∧
    (F.addr.toNat % F.width ≠ 0 → Traps i s 4 F.addr 0)

/-- R94, R95, R99, R243: a relaxed store that its rules let go retires once the post buffer has taken its pieces, or, in window
space, once they are on their way; a release waits at issue until every earlier access is complete (the model's reading, log 22), and its
entry then waits for the older entries of its scope. No byte of memory has changed then, and a line that had no entry has one of the hart's in its cluster's
post buffer. A release store whose address is no multiple of its width traps with cause 6. -/
def Obligations.RelaxedStores : Prop :=
  ∀ (i : Instr) (s : State) (x : Hart) (F : PostForm), postForm x i = some F → Ready s x F.names →
    (F.addr.toNat % F.width = 0 → s.relaxedOk s.cur F.wants = true → s.storeRoom x F.wants = true →
      ((F.rel = none ∨ F.rel = some .hart ∨ s.incomplete s.cur = []) → ∃ t, exec i s = .next t ∧ t.mem = s.mem ∧ t.tags = s.tags ∧
        t.hart? s.cur = some ((x.counted F.wants).retired (addrPlus x.pc (Instr.len i)) false s.ncyc) ∧
        ∀ w ∈ F.wants,
          (inWindowSpace w.va = false → (∀ v ∈ F.wants, ∀ e ∈ s.pb, e.2.line ≠ lineOf v.va) →
            ∃ e ∈ t.pb, e.2.cluster = x.cluster ∧ e.2.line = lineOf w.va ∧ s.cur ∈ e.2.owners) ∧
          (inWindowSpace w.va = true → ∃ a ∈ t.accs, a.2.hart = s.cur ∧ a.2.dst = none ∧
            ∃ p ∈ a.2.pieces, p.va = w.va ∧ p.act = w.act ∧ p.st = .todo)) ∧
      (F.rel = none → RetiresAt i s (s.storeIssue s.cur x F.wants ⟨4, 0⟩ [] false) x) ∧
      (∀ sc, F.rel = some sc → (sc = .hart ∨ s.incomplete s.cur = []) →
        RetiresAt i s ((s.drain (s.olderEntries s.cur x sc)).storeIssue s.cur x F.wants ⟨4, 0⟩ (s.olderEntries s.cur x sc)
          (sc = .fd || sc = .md || sc = .sys)) x)) ∧
    (F.addr.toNat % F.width = 0 → ∀ sc, F.rel = some sc → sc ≠ .hart → s.incomplete s.cur ≠ [] →
      exec i s = .next (s.hartWait s.cur 9 0#64)) ∧
    (F.addr.toNat % F.width ≠ 0 → Traps i s 6 F.addr 0)

/-- R99, R102, R103, R242: a fence retires once every earlier access of its hart is complete and the older post-buffer entries of
its scope have drained; fence.i then empties the core's instruction cache, and SFENCE.VMA is illegal in U-mode. -/
def Obligations.Fences : Prop :=
  ∀ (s : State) (x : Hart) (sc : Scope) (fm pred succ : BitVec 4) (imm : BitVec 12) (rd rs1 rs2 : RegIdx),
    (Ready s x (xNames [] [] .leaves) →
      (s.fenceGate s.cur x sc = none → Retires (.fenceS sc) s x x) ∧
      ((pred = 0#4 ∨ succ = 0#4) → Retires (.fence fm pred succ rd rs1) s x x) ∧
      ((pred.getLsbD 3 || pred.getLsbD 2 || succ.getLsbD 3 || succ.getLsbD 2) = true → s.fenceGate s.cur x .sys = none →
        Retires (.fence fm pred succ rd rs1) s x x) ∧
      (s.fenceGate s.cur x .md = none →
        ((pred.getLsbD 3 || pred.getLsbD 2 || succ.getLsbD 3 || succ.getLsbD 2) = false →
          Retires (.fence fm pred succ rd rs1) s x x) ∧
        Retires (.fenceTso rd rs1) s x x ∧
        RetiresAt (.fenceI imm rd rs1) s (s.modCore x.core fun c => { c with icache := [] }) x)) ∧
    (Ready s x (xNames [rs1, rs2] [] .leaves) → x.priv ≠ .u → s.fenceGate s.cur x .md = none →
      Retires (.sfenceVma rs1 rs2) s x x) ∧
    (Ready s x (xNames [] [] .alone) → x.priv = .u →
      Traps (.sfenceVma rs1 rs2) s 2 (bitsOfEnc (encode (.sfenceVma rs1 rs2))) 0) ∧
    (s.fenceGate s.cur x sc = none ↔
      sc = .hart ∨ match x.snap with
        | none => s.incomplete s.cur = [] ∧ s.olderEntries s.cur x sc = []
        | some ids => ∀ e ∈ ids, s.liveId e = false)

/-! ## Asynchronous operations -/

/-- R217, R230, R235, R244 to R246, R251, R254: an asynchronous instruction retires at once; its operation is under way with its
release still to come, rd is pending and holds the handle, and the hart has issued one more; a queue operation
whose handle names no queue has failed with cause 7 and SUB 10. Nothing else changes but the
draining of the entries that the release waits for, and the hart's remote-access counter. -/
def Obligations.AsyncIssue : Prop :=
  ∀ (i : Instr) (s : State) (x : Hart) (F : OpForm), opForm s x i = some F → Ready s x F.names → F.trap = none →
    s.acquiring s.cur = false → (F.limited = true → s.outstanding s.cur < 8) →
    (badHandle F.issue.kind = false →
      RetiresIn i s (s.withOp x (formOf i) F.issue) x fun _ => (x.countedTo F.counts).issued F.rd (formOf i) s.nextId) ∧
    (badHandle F.issue.kind = true →
      RetiresIn i s ((s.withOp x (formOf i) F.issue).opFail s.nextId 7 10 0 0#64) x fun _ =>
        (x.countedTo F.counts).issued F.rd (formOf i) s.nextId)

/-- R230, R235, R247, R254, R384: an operand that names no place the operation could act on traps before anything is issued: cause 6
for a bank address that is misaligned, 7 for one outside the MCs, for no mailbox and for no kick register, 4 for a misaligned launch
record or notice, and 50 for a barrier number that the kernel has not. -/
def Obligations.AsyncTraps : Prop :=
  ∀ (i : Instr) (s : State) (x : Hart) (F : OpForm) (cause : Nat) (tval : Word), opForm s x i = some F → Ready s x F.names →
    F.trap = some (cause, tval) → Traps i s cause tval 0

/-- R226, R228, R230, R232: cpy, cpyd and pref retire once their command stands in the queue of the hart's copy engine, with their
future pending in rd; a full queue of 16 holds them back, and a descriptor at no multiple of 16 traps with cause 4. -/
def Obligations.EngineIssue : Prop :=
  ∀ (i : Instr) (s : State) (x : Hart) (F : EngineForm), engineForm x i = some F → Ready s x F.names →
    (F.trap = none → s.acquiring s.cur = false →
      let e := 4 * x.cluster + s.winOf x % 96 / 24
      let waiting := (tgetD s.engines e []).countP fun c => !c.started
      (waiting < 16 →
        RetiresIn i s ((s.withOp x (formOf i) ⟨.copy, .status, .sys, [], F.gated⟩).withCmd x F.what s.nextId) x (fun _ =>
          x.issued F.rd (formOf i) s.nextId) ∧
        ∃ t c o, exec i s = .next t ∧ t.mem = s.mem ∧
          t.hart? s.cur = some ((x.issued F.rd (formOf i) s.nextId).retired (addrPlus x.pc (Instr.len i)) false s.ncyc) ∧
          tgetD t.engines e [] = tgetD s.engines e [] ++ [c] ∧ c.what = F.what ∧ c.op = some s.nextId ∧ c.started = false ∧
          tget t.ops s.nextId = some o ∧ o.st = .issued) ∧
      (16 ≤ waiting → exec i s = .next (s.hartWait s.cur 10 0#64))) ∧
    (∀ cause tval, F.trap = some (cause, tval) → Traps i s cause tval 0)

/-- R164, R193, R205 to R212, R382: a tile instruction of a group with its plinth's lease, or that waits for it, retires once its command
stands behind the plinth's others, or, once a stop has reached the group, behind those that the stop has withdrawn, with its future
pending in rd where it has one; the checks of R382 come first. -/
def Obligations.TileCommands : Prop :=
  ∀ (i : Instr) (s : State) (x : Hart) (g : Group) (F : TileForm), tileForm s x g i = some F → s.groupOf? x = some g →
    Ready s x F.names → s.acquiring s.cur = false →
    (F.trap = none → F.future = none → RetiresAt i s (s.withTile x g i F none) x) ∧
    (∀ rd how, F.trap = none → F.future = some (rd, how) →
      RetiresIn i s ((s.withOp x (formOf i) ⟨.tile, how, .cl, [], false⟩).withTile x g i F (some s.nextId)) x fun _ =>
        x.issued rd (formOf i) s.nextId) ∧
    (∀ cause tval, F.trap = some (cause, tval) → Traps i s cause tval 0)

/-- R195, R199, R200: tlease answers 1 to the group that holds the lease, and grants a lease that nobody holds at once, with value 0;
behind another holder the group waits, one wait for all its harts. trelease without a lease has no effect; with one, and nothing before it, it ends the lease. -/
def Obligations.Leases : Prop :=
  ∀ (rd : RegIdx) (s : State) (x : Hart) (g : Group), s.groupOf? x = some g → s.acquiring s.cur = false →
    let pi := s.plinthOf g
    let p := s.plinth pi
    let i : Instr := .tlease rd
    let s1 := s.withOp x (formOf i) ⟨.lease, .zero, .cl, [], true⟩
    (Ready s x (tileNames [] [rd]) →
      (p.holder = some x.group →
        RetiresIn i s (s1.opDone s.nextId 1#64) x fun _ => x.issued rd (formOf i) s.nextId) ∧
      (p.holder = none → p.handover = none → p.waiters = [] → g.parked = false → g.away ≠ 2 → s.opGate s.cur x .cl [] = [] →
        ∃ t o, exec i s = .next t ∧
          t.hart? s.cur = some ((x.issued rd (formOf i) s.nextId).retired (addrPlus x.pc (Instr.len i)) false s.ncyc) ∧
          (t.plinth pi).holder = some x.group ∧ (t.plinth pi).cmdLeft = 64 ∧ (t.plinth pi).leaseEnd = s.acyc + 4096 ∧
          tget t.ops s.nextId = some o ∧ o.st = .done 0#64) ∧
      (∀ h, p.holder = some h → h ≠ x.group → (∀ w ∈ p.waiters, w.group ≠ x.group) →
        RetiresIn i s
          ((s1.modOp s.nextId fun o => { o with st := .waiting }).modGroup x.group (fun y => { y with tcfgIssued := Tcfg.zero })
            |>.modPlinth pi fun q => { q with waiters := q.waiters ++ [⟨x.group, [s.nextId], 0, s.ncyc⟩] }) x
          fun _ => x.issued rd (formOf i) s.nextId) ∧
      (p.holder ≠ some x.group → (∃ w ∈ p.waiters, w.group = x.group) →
        RetiresIn i s ((s1.modOp s.nextId fun o => { o with st := .waiting }).modPlinth pi fun q =>
          { q with waiters := q.waiters.map fun w => if w.group = x.group then { w with ops := w.ops ++ [s.nextId] } else w }) x
          fun _ => x.issued rd (formOf i) s.nextId)) ∧
    (Ready s x (tileNames [] []) →
      (p.holder ≠ some x.group → Retires .trelease s x x) ∧
      (p.holder = some x.group →
        RetiresAt .trelease s ((s.withTile x g .trelease ⟨tileNames [] [], .release, 0, 0, none, none⟩ none).tryRelease pi) x))

/-- R202, R203, R382: tring sets a ring to an empty stretch of lines, at once where no tile command names it and the release is
done; radv moves TAIL on where there is room. The checks come first: cause 2 for a count outside 1 to 4096 or above LINES, 4 for a
base at no multiple of 64, 5 for lines that are not in bound data granules of the window's home, 50 for a ring without lines. -/
def Obligations.Rings : Prop :=
  ∀ (ring : BitVec 3) (rs1 rs2 : RegIdx) (s : State) (x : Hart),
    let w := s.winOf x
    let k := ring.toNat
    let r := tgetD (s.window w).rings k Ring.zero
    (Ready s x (tileNames [rs1, rs2] []) →
      let i : Instr := .tring ring rs1 rs2
      let base := x.rx rs1
      let n := (x.rx rs2).toNat
      ((n = 0 ∨ 4096 < n) → Traps i s 2 (bitsOfEnc (encode i)) 0) ∧
      (1 ≤ n → n ≤ 4096 → base.toNat % 64 ≠ 0 → Traps i s 4 base 0) ∧
      (1 ≤ n → n ≤ 4096 → base.toNat % 64 = 0 → s.ringPlace (w / 96) x.cluster base n = false → Traps i s 5 base 0) ∧
      (1 ≤ n → n ≤ 4096 → base.toNat % 64 = 0 → s.ringPlace (w / 96) x.cluster base n = true → s.acquiring s.cur = false →
        s.opGate s.cur x .cl [] = [] → s.ringNamed w k = false → (s.tringPending w k fun _ _ => true) = false →
        RetiresAt i s (s.modWindow w fun v => { v with rings := tset v.rings k ⟨base, n, 0#32, 0#32, 0⟩ }) x)) ∧
    (Ready s x (tileNames [rs1] []) →
      let i : Instr := .radv ring rs1
      let n := (x.rx rs1).toNat
      let mine (o : Op) : Bool := o.hart == s.cur
      let lines := s.ringLines w k mine
      (lines = 0 → Traps i s 50 (BitVec.ofNat 64 (2 ^ 60 * 3 + k)) 0) ∧
      (0 < lines → lines < n → Traps i s 2 (bitsOfEnc (encode i)) 0) ∧
      (0 < lines → n ≤ lines → (s.tringPending w k fun _ o => mine o) = false → s.acquiring s.cur = false →
        s.fenceGate s.cur x .cl = none → (r.tail - r.head).toNat + n ≤ r.lines →
        RetiresAt i s (s.modWindow w fun v => { v with rings := tset v.rings k { r with tail := r.tail + BitVec.ofNat 32 n } }) x))

/-! ## The chisel unit -/

/-- R263, R267 to R270, R274, R277: an instruction of the chisel unit that reads no memory takes the unit of its core when that is free,
and changes the hart's workspace alone; gb.res writes RES to rd, and a block that is not there, or a singular one, traps with cause 2 or
55. -/
def Obligations.ChiselUnit : Prop :=
  ∀ (i : Instr) (s : State) (x : Hart),
    (∀ F : UnitForm, unitForm x i = some F → Ready s x F.names → s.unitFree s.cur x = true →
      RetiresIn i s (s.withUnit x F.cost) x fun y => { y with chisel := F.work x.chisel }) ∧
    (∀ rd, Ready s x (xNames [] [rd] .enters) → s.unitFree s.cur x = true →
      (∀ p ∈ s.ops, p.2.hart = s.cur → (∀ m nw e d a b t, p.2.kind ≠ .emit m nw e d a b t)) →
      RetiresIn (.gbRes rd) s (s.withUnit x 4) x fun y =>
        { y.wx rd (x.chisel.res.setWidth 64) with chisel := { x.chisel with live := true } }) ∧
    (∀ a, Ready s x (xNames [a] [] .alone) →
      let j : Instr := .gbElim a
      (x.chisel.block (x.rx a).toNat = [] → Traps j s 2 (bitsOfEnc (encode j)) 0) ∧
      (x.chisel.block (x.rx a).toNat ≠ [] → s.unitFree s.cur x = true → x.chisel.elim (x.chisel.block (x.rx a).toNat) = none →
        Traps j s 55 (bitsOfEnc (encode j)) 0))

/-- R264, R265, R268: an instruction that combines a message record reads it as one plain access and gives its unit the record; a record
whose D it does not take is an illegal instruction, and an address at no multiple of 4 traps with cause 4. -/
def Obligations.ChiselRecords : Prop :=
  ∀ (i : Instr) (s : State) (x : Hart) (F : RecordForm) (key : Nat) (tag : Option (BitVec 16)), recordForm x i = some F →
    Ready s x F.names →
    let d := natOfBytes (memRead s.mem key 1) % 16
    let n := recordBytes d
    let bs := memRead s.mem key n
    (F.addr.toNat % 4 ≠ 0 → Traps i s 4 F.addr 0) ∧
    (F.addr.toNat % 4 = 0 → PlainReady s x →
      s.forward x F.addr (List.range (s.peekLen s.cur x F.addr)) false = .none →
      Reaches s x F.addr 16 .load key tag →
      (∀ fill, s.route (Req.hart F.addr 16 .load (x.ctx s.cur)) x.iface = .at (.mem key tag) false fill → n ≤ roomOf F.addr fill) →
      s.poisoned key n = false →
      (F.takes d = true → s.unitFree s.cur x = true →
        ∃ t, AfterRead s t x F.addr ∧
          RetiresIn i s (t.withUnit x (4 + (d + d * (d + 1) / 2 + 3) / 4)) x fun y => { y with chisel := F.work d bs x.chisel }) ∧
      (F.takes d = false → ∃ t, AfterRead s t x F.addr ∧
        exec i s = .next (t.takeTrap s.cur 2 (bitsOfEnc (encode i)) 0 (formOf i) true)))

/-- R271, R275, R377: gb.mean stores the means of the workspace, gb.ldw takes a workspace from its image and gb.stw leaves one,
each as one plain access; a singular workspace traps with cause 55, and an address at no multiple of 4, or of 64, with cause 6, or 4 for
gb.ldw. -/
def Obligations.ChiselImages : Prop :=
  ∀ (a : RegIdx) (s : State) (x : Hart) (key : Nat),
    let va := x.rx a
    let imageTag := some (0x4000#16)
    (Ready s x (xNames [a] [] .leaves) →
      (va.toNat % 4 ≠ 0 → Traps (.gbMean a) s 6 va 0) ∧
      (va.toNat % 4 = 0 → s.unitFree s.cur x = true → x.chisel.mean = none →
        Traps (.gbMean a) s 55 (bitsOfEnc (encode (.gbMean a))) 0) ∧
      (∀ mu, va.toNat % 4 = 0 → s.unitFree s.cur x = true → x.chisel.mean = some mu →
        let bytes := (mu.map fun v => bytesOfNat 4 v.toNat).foldr (· ++ ·) []
        (∀ k, cutAt va (2 ^ meanLog x.chisel.dim) = some k → bytes.length ≤ k) → s.Inv → PlainReady s x →
        Reaches s x va (Piece.store (bytes.map some) none).width .store key none → Writable s x va (.store (bytes.map some) none) →
        ∃ t, AfterWrite s t x va key (bytes.map some) none ∧
          RetiresIn (.gbMean a) s (t.withUnit x (meanCost x.chisel.dim)) x fun y =>
            { y with chisel := { y.chisel with live := true } }) ∧
      (va.toNat % 64 ≠ 0 → Traps (.gbStw a) s 6 va 0) ∧
      (va.toNat % 64 = 0 → s.unitFree s.cur x = true → cutAt va 512 = none → s.Inv → PlainReady s x →
        Reaches s x va (Piece.store (x.chisel.image.map some) imageTag).width .store key none →
        Writable s x va (.store (x.chisel.image.map some) imageTag) →
        ∃ t, AfterWrite s t x va key (x.chisel.image.map some) imageTag ∧ RetiresAt (.gbStw a) s (t.withUnit x 4) x)) ∧
    (Ready s x (xNames [a] [] .enters) →
      (va.toNat % 64 ≠ 0 → Traps (.gbLdw a) s 4 va 0) ∧
      (∀ tag, va.toNat % 64 = 0 → s.unitFree s.cur x = true → cutAt va 512 = none → PlainReady s x →
        Unbuffered s x va (.load 512) false → Reaches s x va 512 .load key tag → s.poisoned key 512 = false →
        ∃ t, AfterRead s t x va ∧
          RetiresIn (.gbLdw a) s (t.withUnit x 26) x fun y => { y with chisel := chiselOf (memRead s.mem key 512) true }))

/-- R217, R272, R383: gb.emit takes OUT and TAU as they stand, marks rd pending and goes on; without OUT it is illegal, and an edge
record that is misaligned, one outside the window space of the hart's window home, and an address that names no mailbox trap with causes
6, 7 and 7. -/
def Obligations.GbEmit : Prop :=
  ∀ (rd rs2 rs1 : RegIdx) (s : State) (x : Hart),
    let i : Instr := .gbEmit rd rs2 rs1
    let e := x.rx rs2
    let c := x.chisel
    Ready s x (xNames [rs1, rs2] [rd] .leaves) →
    (c.outdim = 0 → Traps i s 2 (bitsOfEnc (encode i)) 0) ∧
    (c.outdim ≠ 0 → e.toNat % 256 ≠ 0 → Traps i s 6 e 0) ∧
    (c.outdim ≠ 0 → e.toNat % 256 = 0 → (inWindowSpace e && vaHome e == winHome (s.winOf x)) = false → Traps i s 7 e 0) ∧
    (c.outdim ≠ 0 → e.toNat % 256 = 0 → (inWindowSpace e && vaHome e == winHome (s.winOf x)) = true →
      (sendTarget (x.rx rs1) = none → Traps i s 7 (x.rx rs1) 0) ∧
      (∀ m nowait, sendTarget (x.rx rs1) = some (m, nowait) → s.acquiring s.cur = false →
        RetiresIn i s (s.withOp x (formOf i) ⟨.emit m nowait e c.outdim c.oeta c.olam c.tau, .status, .md, [], true⟩) x fun _ =>
          ({ x with chisel := { c with live := true } } : Hart).issued rd (formOf i) s.nextId))

/-! ## Futures, mailboxes and hart control -/

/-- R221: fwait retires once its register is not pending; ftest writes 1 or 0 as it is not or is pending; fpass hands the
value and the state of a register on and leaves 0; fcancel asks for the operation's end and never waits; fwaitall retires once no register
of its mask is pending or failed. -/
def Obligations.Futures : Prop :=
  ∀ (rd rs1 : RegIdx) (s : State) (x : Hart),
    (Ready s x (xNames [rs1] [] .alone) → Retires (.fwait rs1) s x x) ∧
    (Ready s x (futureNames [rd] rs1 false) → x.isBusy rs1 = false →
      (x.pendingOp rs1 = none → Retires (.ftest rd rs1) s x (x.wx rd 1#64)) ∧
      (∀ o, x.pendingOp rs1 = some o → Retires (.ftest rd rs1) s x (x.wx rd 0#64))) ∧
    (Ready s x (futureNames [rd] rs1 true) → x.isBusy rs1 = false →
      (rd = rs1 → Retires (.fpass rd rs1) s x x) ∧
      (rd ≠ rs1 → tget x.regs rs1.toNat = none → Retires (.fpass rd rs1) s x ((x.wx rd (x.rx rs1)).wx rs1 0#64)) ∧
      (∀ st, rd ≠ rs1 → tget x.regs rs1.toNat = some st →
        Retires (.fpass rd rs1) s x { (x.wx rd (x.rx rs1)).wx rs1 0#64 with
          regs := if rd = 0#5 then tdel x.regs rs1.toNat else tset (tdel x.regs rs1.toNat) rd.toNat st })) ∧
    (Ready s x (futureNames [] rs1 true) →
      (x.pendingOp rs1 = none → Retires (.fcancel rs1) s x x) ∧
      (∀ o, x.pendingOp rs1 = some o → RetiresAt (.fcancel rs1) s (s.cancelOp o) x)) ∧
    (Ready s x (xNames [rs1] [] .alone) →
      let named (k : Nat) : Bool := decide (0 < k) && (x.rx rs1).getLsbD k && (!s.compactRules x || compactReg (BitVec.ofNat 5 k))
      ((∀ k, k < 32 → named k = true → ∀ st, tget x.regs k = some st → ∃ l, st = .busy l) →
        Retires (.fwaitall rs1) s x x) ∧
      (∀ k how, k < 32 → named k = true → tget x.regs k = some (.failed how) →
        (∀ j, j < k → named j = true → ∀ h, tget x.regs j ≠ some (.failed h)) →
        exec (.fwaitall rs1) s = .next ((s.modPair s.cur fun y => y.clearFailed (BitVec.ofNat 5 k) how).takeTrap s.cur 60
          (x.rx (BitVec.ofNat 5 k)) 0 (formOf (.fwaitall rs1)) true)))

/-- R237: recv and recvt free the slot that the hart holds and take the next message, giving its slot's address; with an empty mask,
for a recvt that polls, and for one whose limit has passed, the answer is 0 and nothing is waited for. -/
def Obligations.Receive : Prop :=
  ∀ (i : Instr) (rd rs1 rs2 : RegIdx) (s : State) (x : Hart) (n : Names),
    ((i, n) = (.recv rd rs1, xNames [rs1] [rd] .enters) ∨ (i, n) = (.recvt rd rs1 rs2, xNames [rs1, rs2] [rd] .enters)) →
    Ready s x n →
    let w := s.winOf x
    let mask : Word := x.rx rs1 &&& 0xFFFFFFFF#64
    let s1 := (s.freeSlot w x.heldSlot).modHart s.cur fun y => { y with heldSlot := 0#64 }
    let passed : Prop := i = .recvt rd rs1 rs2 ∧ x.wait = none ∧ x.recvEnd ≠ 0 ∧ x.recvEnd < s.timeOf x
    (mask = 0#64 ∨ passed → RetiresIn i s s1 x fun y => { y.wx rd 0#64 with recvEnd := 0 }) ∧
    (∀ m, mask ≠ 0#64 → ¬passed → s1.bestMbox w (s1.recvFrom s.cur x w mask) = some m →
      let v := s1.conf w m
      let a := slotAddr w m (cHead v % 8)
      RetiresIn i s
        ((s1.putConf w m (putBits (putBits v 16 8 (cHead v + 1)) (32 + cHead v % 8) 1 1)).raiseC x.core x.cluster
          (s1.slotCtime w m (cHead v % 8))) x
        fun y => { y.wx rd a with heldSlot := a, recvEnd := 0 }) ∧
    (mask ≠ 0#64 → s1.bestMbox w (s1.recvFrom s.cur x w mask) = none →
      (i = .recvt rd rs1 rs2 → x.rx rs2 = 0#64 → RetiresIn i s s1 x fun y => { y.wx rd 0#64 with recvEnd := 0 }) ∧
      (i = .recv rd rs1 → exec i s = .next (s1.hartWait s.cur 2 mask)))

/-- R238, R383: mbcfg writes BETA, PRIO, EN and SLOTS of a mailbox of the hart's own window from their places in x[rs2] and leaves
the rest of its word; mbpeek gives the address of the message at HEAD, or 0, and takes nothing; any other address traps with cause 7, or 5
for mbpeek. -/
def Obligations.Mailboxes : Prop :=
  ∀ (rd rs1 rs2 : RegIdx) (s : State) (x : Hart),
    let w := s.winOf x
    let a := x.rx rs1
    (Ready s x (xNames [rs1, rs2] [] .leaves) →
      (s.ownMbox x a = none → Traps (.mbcfg rs2 rs1) s 7 a 0) ∧
      (∀ m, s.ownMbox x a = some m → s.ctlReady w = true →
        let n := (x.rx rs2).toNat
        RetiresAt (.mbcfg rs2 rs1) s
          (s.putConf w m (putBits (putBits (s.conf w m) 0 6 (n % 2 ^ 6)) 8 8 (n / 2 ^ 8 % 2 ^ 8))) x)) ∧
    (Ready s x (xNames [rs1] [rd] .enters) →
      (s.ownMbox x a = none → Traps (.mbpeek rd rs1) s 5 a 0) ∧
      (∀ m, s.ownMbox x a = some m → s.ctlReady w = true →
        (s.mboxHas w m = true →
          RetiresIn (.mbpeek rd rs1) s (s.raiseC x.core x.cluster (s.slotCtime w m (cHead (s.conf w m) % 8))) x fun y =>
            y.wx rd (slotAddr w m (cHead (s.conf w m) % 8))) ∧
        (s.mboxHas w m = false → Retires (.mbpeek rd rs1) s x (x.wx rd 0#64))))

/-- R141, R255, R258 to R260: gend ends the hart once its earlier accesses are complete; yield stands aside for the eligible harts of the
core; a migrate that cannot or need not move has no effect, and one that may move starts the exchange; a phint without a stop request has
no effect but the count, and with one the hart stops behind it; WFI retires when a delivery is due. -/
def Obligations.HartControl : Prop :=
  ∀ (s : State) (x : Hart),
    (Ready s x (xNames [] [] .leaves) → s.incomplete s.cur = [] →
      exec .gend s = .next ((s.modHart s.cur fun y => y.retired (addrPlus x.pc 4) false s.ncyc).endHart s.cur)) ∧
    (Ready s x (xNames [] [] .alone) →
      let others := (s.harts.filter fun p => p.1 != s.cur && p.2.core == x.core && s.eligible p.2 && p.2.yieldEnd.isNone).map Prod.fst
      (others = [] → Retires .yield s x { x with yieldEnd := none, yieldFor := [] }) ∧
      (others ≠ [] → Retires .yield s x { x with yieldEnd := some (s.acyc + 60), yieldFor := others }) ∧
      (x.stopReq = false → x.due ≠ [] → Retires .wfi s x x) ∧
      (x.stopReq = false → x.due = [] → exec .wfi s = .next (s.hartWait s.cur 11 0#64)) ∧
      (x.stopReq = true →
        exec .wfi s = .next ((s.modHart s.cur fun _ => x.retired (addrPlus x.pc 4) false s.ncyc).stopNow s.cur .full))) ∧
    (∀ rs1, Ready s x (xNames [rs1] [] .alone) →
      let home := vaHome (x.rx rs1)
      (s.homeValid home = false → Traps (.migrate rs1) s 5 (x.rx rs1) 1) ∧
      (s.homeValid home = true →
        (s.migTarget home = none → Retires (.migrate rs1) s x x) ∧
        (∀ c, s.migTarget home = some c →
          (c = x.cluster ∨ x.full = true ∨ x.priv ≠ .u ∨ x.chisel.live = true → Retires (.migrate rs1) s x x) ∧
          (c ≠ x.cluster → x.full = false → x.priv = .u → x.chisel.live = false → s.migReady s.cur x = true →
            s.entriesSettled s.cur = true →
            exec (.migrate rs1) s = .next
              ((s.modHart s.cur fun y => y.retired (addrPlus x.pc 4) false s.ncyc).startMigration s.cur c) ∧
            ∃ t, exec (.migrate rs1) s = .next t ∧ t.hart? s.cur = some { x.retired (addrPlus x.pc 4) false s.ncyc with
              status := .moving 0, migTo := some c, migCore := none, wait := none, yieldEnd := none, yieldFor := [], recvEnd := 0 })))) ∧
    (∀ off lx lv, Ready s x { xNames [] [] .leaves with hint := true } →
      (x.stopReq = false →
        exec (.phint off lx lv) s = .next (s.modHart s.cur fun _ => x.retired (addrPlus x.pc 8) true s.ncyc) ∧
        ∃ t, exec (.phint off lx lv) s = .next t ∧ t.hart? s.cur = some { x with
          pc := addrPlus x.pc 8
          instret := (x.instret + 1) % 2 ^ 64
          wait := none
          snap := none
          log := []
          lastIssue := some s.ncyc
          sinceHint := 0 }) ∧
      (x.stopReq = true →
        exec (.phint off lx lv) s = .next ((s.modHart s.cur fun _ => x.retired (addrPlus x.pc 8) true s.ncyc).stopNow s.cur
          (.hint lx lv (lrtAddr x.pc off)))))

/-! ## CSRs -/

/-- R141, R155: a CSR form writes rd with the CSR's old value, and the CSR with the form's new one where it writes; an access to an
address that names no CSR or that the mode may not reach, and a write to a read-only address, is an illegal instruction. -/
def Obligations.CsrAccess : Prop :=
  ∀ (op : CsrOp) (csr : BitVec 12) (rd src : RegIdx) (s : State) (x : Hart), s.hart? s.cur = some x →
    let i : Instr := .csrAccess op csr rd src
    let a := csr.toNat
    let writes : Bool := match op with
      | .rw | .rwi => true
      | _ => src != 0#5
    let v : Word := match op with
      | .rwi | .rsi | .rci => src.setWidth 64
      | _ => x.rx src
    (∀ old, s.csrRead x a = some old → (writes = false ∨ a < 0xC00) → Ready s x (csrNames op rd src (csrPair a writes)) →
      let new : Word := match op with
        | .rw | .rwi => v
        | .rs | .rsi => old ||| v
        | .rc | .rci => old &&& ~~~v
      Retires i s x ((if writes then x.csrWrite a new else x).wx rd old)) ∧
    ((s.csrRead x a = none ∨ (writes = true ∧ 0xC00 ≤ a)) → Ready s x (xNames [] [] .alone) →
      Traps i s 2 (bitsOfEnc (encode i)) 0)

/-- R44, R155 to R157, R163, R366: what a write leaves in a CSR: each field of dxvcnt within 1 and its maximum, 32 bits of dxpw, THRESH of
dxmig with its count at 0, 16 bits of dxasid, and stvec with MODE 0; the S-mode CSRs are closed to U-mode, and the unassigned addresses
name nothing. -/
def Obligations.CsrFields : Prop :=
  ∀ (s : State) (x : Hart) (v : Word) (a : Nat),
    (x.csrWrite 0x8C0 v).vcnt =
      ⟨max 1 (min 64 (v.toNat % 2 ^ 8)), max 1 (min 128 (v.toNat / 2 ^ 8 % 2 ^ 8)), max 1 (min 16 (v.toNat / 2 ^ 16 % 2 ^ 5))⟩ ∧
    s.csrRead (x.csrWrite 0x8C1 v) 0x8C1 = some (v &&& 0xFFFFFFFF#64) ∧
    (x.csrWrite 0x8C2 v).mig = ⟨v.extractLsb' 0 16, 0#16, x.mig.home⟩ ∧
    (x.priv ≠ .u → s.csrRead (x.csrWrite 0x5C0 v) 0x5C0 = some (v &&& 0xFFFF#64)) ∧
    (x.priv ≠ .u → s.csrRead (x.csrWrite 0x105 v) 0x105 = some (v &&& ~~~3#64)) ∧
    (x.priv = .u → (0x100 ≤ a ∧ a ≤ 0x180 ∨ a = 0x5C0) → s.csrRead x a = none) ∧
    ((0x8C3 < a ∧ a ≤ 0x8FF ∨ 0xCC6 < a ∧ a ≤ 0xCFF ∨ 0x5C0 < a ∧ a ≤ 0x5FF) → s.csrRead x a = none)

/-- R158, R164: an access to dxtstat waits until the group's tile commands have retired, and gives the plinth's number, whether the
group holds the lease and, where it does, the lease's remains and IOVF and CHK, its other bits being 0; a write clears IOVF and CHK where it
stores 1, and, by a group without the lease, nothing (DEDUCED, log 41). -/
def Obligations.DxtstatAccess : Prop :=
  ∀ (op : CsrOp) (rd src : RegIdx) (s : State) (x : Hart) (g : Group), s.groupOf? x = some g →
    let i : Instr := .dxtstatAccess op rd src
    let writes := csrWrites op src
    let pi := s.plinthOf g
    let p := s.plinth pi
    let mine := p.heldBy x.group
    let old := s.dxtstat x
    let new := csrNew op old (x.csrSrc op src)
    Ready s x (csrNames op rd src (if writes then .leaves else .enters)) →
    (g.tiles ≠ [] → exec i s = .next (s.hartWait s.cur 10 0#64)) ∧
    (g.tiles = [] → writes = false → Retires i s x (x.wx rd old)) ∧
    (g.tiles = [] → writes = true →
      RetiresIn i s (s.modPlinth pi fun q =>
          if q.heldBy x.group then { q with iovf := q.iovf && !(new.getLsbD 1), chk := q.chk && !(new.getLsbD 2) } else q) x
        fun y => y.wx rd old) ∧
    old.getLsbD 1 = (mine && p.iovf) ∧ old.getLsbD 2 = (mine && p.chk) ∧
    old.extractLsb' 13 2 = BitVec.ofNat 2 (winNum g.win / 24) ∧ old.getLsbD 15 = mine ∧
    old.extractLsb' 18 7 = BitVec.ofNat 7 (if mine then p.cmdLeft else 0) ∧
    old.extractLsb' 32 13 = BitVec.ofNat 13 (if mine then p.leaseEnd - s.acyc else 0) ∧
    old.getLsbD 0 = false ∧ old.extractLsb' 3 10 = 0#10 ∧ old.extractLsb' 16 2 = 0#2 ∧ old.extractLsb' 25 7 = 0#7 ∧
    old.extractLsb' 45 19 = 0#19

/-! ## Exceptions -/

/-- R366, R367: a trap taken by the runtime saves pc, cause and stval, moves SIE to SPIE and the mode to SPP, and goes to stvec in
S-mode; the registers, and what is pending in them, stay, and no other hart but its trailing one changes, nor anything else. -/
def Obligations.TrapEntry : Prop :=
  ∀ (s : State) (h cause : Nat) (tval : Word) (sub : Nat) (fo : FormOp) (sync : Bool) (x : Hart), s.hart? h = some x →
    let t := s.takeTrap h cause tval sub fo sync
    ((x.priv = .u → x.csr.stvec ≠ 0#64) →
      (x.priv = .s → (sync = true → x.pc ≠ x.csr.stvec) ∧ cause ≠ 9) →
      (∃ y, t.hart? h = some y ∧ y.pc = x.csr.stvec ∧ y.priv = .s ∧
        y.csr = { x.csr with
          sepc := x.pc, scause := BitVec.ofNat 64 cause, stval := tval, stSPP := x.priv != .u, stSPIE := x.csr.stSIE, stSIE := false } ∧
        y.x = x.x ∧ y.f = x.f ∧ y.v = x.v ∧ y.fflags = x.fflags ∧ y.pw = x.pw ∧ y.regs = x.regs ∧ y.seq = x.seq ∧
        y.instret = x.instret ∧ y.resv = none) ∧
      (∀ j z, j ≠ h → s.hart? j = some z → (z.trails && z.pair == some h) = false → t.hart? j = some z) ∧
      { t with harts := s.harts } = s)

/-- R368, R375, R409: where no runtime is left to take it, hart firmware reports the trap as a fault record with ASYNC 0 and ends the
hart; so it does with the mismatch of a pair whose leading hart stands in S-mode, once that is logged. -/
def Obligations.FirmwareEnd : Prop :=
  ∀ (s : State) (h cause : Nat) (tval : Word) (sub : Nat) (fo : FormOp) (sync : Bool) (x : Hart), s.hart? h = some x →
    (((x.priv = .u ∧ x.csr.stvec = 0#64) ∨ (x.priv = .s ∧ ((sync = true ∧ x.pc = x.csr.stvec) ∨ cause = 9))) →
      s.takeTrap h cause tval sub fo sync =
        (s.report x.group
          ⟨failWord fo cause sub (if cause = 8 ∨ cause = 9 then (x.rx 10#5).toNat % 2 ^ 32 else 0),
            if cause = 1 ∨ cause = 4 ∨ cause = 5 ∨ cause = 6 ∨ cause = 7 ∨ cause = 48 ∨ cause = 49 then tval else 0#64,
            false, x.hidx⟩).endHart h) ∧
    (∀ (pc bits : Word), x.priv = .s →
      let s1 := s.logRec 15 x.cluster ((failWord (illegalForm bits) 57 sub 0).toNat / 2 ^ 32) 0 0 1
      ∃ (t : State) (y : Hart), t.hart? h = some y ∧ y.group = x.group ∧ y.hidx = x.hidx ∧ y.pc = pc ∧ { t with harts := s1.harts } = s1 ∧
        s.pairMismatch h x pc bits sub = (t.report x.group ⟨failWord (illegalForm bits) 57 sub 0, 0#64, false, x.hidx⟩).endHart h)

/-- R141, R142, R366, R367, R370: ECALL traps with cause 8 from U-mode and 9 from S-mode; SRET goes to sepc in the mode of SPP, with SIE
from SPIE, and where it returns to U-mode a stop that met the handler applies (R387); a word that is no instruction traps with cause 2, and a failed fetch with its cause at the address. -/
def Obligations.SystemInstructions : Prop :=
  ∀ (s : State) (x : Hart),
    (Ready s x (xNames [] [] .alone) →
      Traps .ecall s (if x.priv = .u then 8 else 9) 0#64 0 ∧
      (x.priv = .u → Traps .sret s 2 (bitsOfEnc (encode .sret)) 0) ∧
      (x.priv ≠ .u →
        let y : Hart := { x with
          priv := if x.csr.stSPP then .s else .u
          csr := { x.csr with stSIE := x.csr.stSPIE, stSPIE := true, stSPP := false } }
        (x.stopSret = false ∨ x.csr.stSPP = true → RetiresTo .sret s x.csr.sepc y) ∧
        (x.stopSret = true → x.csr.stSPP = false →
          exec .sret s = .next ((s.modHart s.cur fun _ => y.retired x.csr.sepc false s.ncyc).stopNow s.cur .full)))) ∧
    (s.hart? s.cur = some x → x.pair = none → x.trails = false →
      (∀ bits, exec (.illegalInstruction bits) s = .next (s.takeTrap s.cur 2 bits 0 (illegalForm bits) true)) ∧
      (∀ cause sub a, exec (.instructionAccessFault cause sub a) s = .next (s.takeTrap s.cur cause a sub noForm true)))

/-- R371, R372, R374: before its own meaning, an instruction that a compact hart may not use traps with cause 50, and one that names
a failed register traps with cause 60 and the failure word, the register becoming its status word or 0; the operations of the base stand for
all. -/
def Obligations.CheckOrder : Prop :=
  ∀ (op : BaseOp) (s : State) (x : Hart), s.hart? s.cur = some x → x.pair = none → x.trails = false →
    let i : Instr := .baseArithmetic op
    let n := baseNames op
    (n.classOk (s.compactRules x) = false → Traps i s 50 (bitsOfEnc (encode i) &&& 0xFFFFFFFF#64) 0) ∧
    (∀ r how, n.classOk (s.compactRules x) = true → r ∈ n.xs → tget x.regs r.toNat = some (.failed how) →
      (∀ q ∈ n.xs, q.toNat < r.toNat → ∀ h, tget x.regs q.toNat ≠ some (.failed h)) →
      exec i s = .next ((s.modHart s.cur fun y => { y.wx r (match how with
            | .status => statusWord true false ((y.rx r).toNat % 2 ^ 32)
            | .launch => statusWord true false 0
            | .zero => 0#64) with regs := tdel y.regs r.toNat }).takeTrap s.cur 60 (x.rx r) 0 (formOf i) true))

/-! ## Words, steps and the whole part -/

/-- R145 to R154: the instructions of a few words, written out from their encodings. -/
def Obligations.DecodedWords : Prop :=
  -- custom-0: op6 0x00, m 0, vs2 v3, vs1 v2, ty 2, vd v1
  decodeEnc (.w32 0b00000000001100010010000010001011#32) = some (.vadd false .f32 1#5 2#5 3#5) ∧
  -- custom-1: op5 0x00, off7 16, rs1 x11, w 3, rt x10
  decodeEnc (.w32 0b00000001000001011011010100101011#32) = some (.lrx .d 10#5 11#5 16#7) ∧
  -- custom-2: op7 0x50, rs2 x12, rs1 x11, scope 4, rd x10: the send.md of R235
  decodeEnc (.w32 0xA0C5C55B#32) = some (.send .md 10#5 11#5 12#5) ∧
  -- custom-3: op7 0x31: the yield of R259
  decodeEnc (.w32 0x6200007B#32) = some .yield ∧
  -- D64: op7 0x00, rd x10, ext32 0
  decodeEnc (.w64 0b00000000000000000000010100111111#32 0#32) = some (.tlease 10#5) ∧
  -- the base: addi x10, x11, -1
  decodeEnc (.w32 0b11111111111101011000010100010011#32) = some (.baseArithmetic (.opImm .addi 10#5 11#5 0xFFF#12))

/-- R141, R145 to R154: decoding the encoding of any well-formed instruction gives the instruction back, with each of its operands at every
value, so two instructions never share a word. -/
def Obligations.DecodeEncode : Prop :=
  ∀ (i : Instr) (e : Enc), i.wf = true → encode i = some e →
    decodeEnc e = some i ∧ (∀ j, j.wf = true → encode j = some e → j = i) ∧
    (match e with
      | .w32 w => decodeTableWord 32 w.toNat = some i
      | .w64 lo ext => decodeTableWord 64 (ext.toNat * 2 ^ 32 + lo.toNat) = some i)

/-- R142, R145, R146, R370: a word whose bits [1:0] are not 11 is no instruction, nor is a D64 word that does not stand at a multiple of 8,
nor a custom-0 word of an unassigned op6 or of a reserved type, nor a custom-2 word of a reserved scope; every word decodes to the instruction
whose encoding it is, or to the illegal instruction that holds exactly its bits. -/
def Obligations.IllegalWords : Prop :=
  ∀ (aligned8 : Bool) (lo ext : W32),
    let f := fieldsOf lo
    (lo.extractLsb' 0 2 ≠ 3#2 → decode aligned8 lo ext = .illegalInstruction (lo.setWidth 64)) ∧
    (f.opc = 0x3F#7 → decode false lo ext = .illegalInstruction (lo.setWidth 64)) ∧
    (f.opc = 0x0B#7 → (0x28#6 < f.op6 ∨ (f.op6 < 7#6 ∧ 2#3 < f.f3)) →
      decode aligned8 lo ext = .illegalInstruction (lo.setWidth 64)) ∧
    (f.opc = 0x5B#7 → 0x10#7 ≤ f.op7 → f.op7 ≤ 0x29#7 → 5#3 < f.f3 →
      decode aligned8 lo ext = .illegalInstruction (lo.setWidth 64)) ∧
    (f.opc ≠ 0x3F#7 →
      encode (decode aligned8 lo ext) = some (.w32 lo) ∨ decode aligned8 lo ext = .illegalInstruction (lo.setWidth 64)) ∧
    (f.opc = 0x3F#7 →
      encode (decode true lo ext) = some (.w64 lo ext) ∨ decode true lo ext = .illegalInstruction (ext ++ lo))

/-- R31, R32, R142, R372: where the schedule names no turn, or names this hart's, and the hart may issue with no delivery due, a step
fetches the words at its pc, from the core's instruction cache or from memory, and runs exactly the instruction that they decode to. What
it leaves stands where the core chooses the hart, and then the core has issued; an instruction that would issue when the core chooses
another hart leaves nothing, and one that only begins to wait takes no issue slot. N-cycles have passed, what the last turn left has been
noted, and the line that was fetched stands in the cache (log 1). -/
def Obligations.StepRunsDecoded : Prop :=
  ∀ (s s1 : State) (x : Hart),
    ((s.tape = [] ∧ s1 = { s.refresh with ncyc := s.ncyc + 8 }) ∨
      (∃ dt h r, s.tape = ⟨dt, .hart h⟩ :: r ∧ s1 = { s.refresh with tape := r, ncyc := s.ncyc + dt, cur := h })) →
    s1.hart? s1.cur = some x → s1.frozen = none → s1.mayIssue s1.cur x = true → x.fetchFail = none →
    s1.boundaryNow s1.cur x = false →
    let o := x.pc.toNat % 64
    let word (line : List Byte) (at4 : Nat) : W32 := BitVec.ofNat 32 (natOfBytes ((line.drop at4).take 4))
    let i (line : List Byte) : Instr := decode (x.pc.toNat % 8 == 0) (word line o) (word line (o + 4))
    let runs (line : List Byte) (t : State) : Prop :=
      (∀ u, exec (i line) t = .next u → x.issuedIn s1.cur u = true →
        (s1.chosen s1.cur x = true → step s = .next (u.tookSlot x (s1.ncyc / 2))) ∧
        (s1.chosen s1.cur x = false → step s = .next s1)) ∧
      (∀ u, exec (i line) t = .next u → x.issuedIn s1.cur u = false → step s = .next u) ∧
      (∀ f, exec (i line) t = .fault f → s1.chosen s1.cur x = true → step s = .fault f)
    (∀ l, s1.icacheFind x x.pc = some l → runs l.bytes s1) ∧
    (∀ k tag traced fill, s1.icacheFind x x.pc = none →
      s1.route (Req.hart x.pc 4 .fetch (x.ctx s1.cur)) x.iface = .at (.mem k tag) traced fill →
      s1.poisoned (k / 64 * 64) 64 = false → s1.responds x.iface x.pc = true →
      let line := memRead s1.mem (k / 64 * 64) 64
      let s2 := match fill with
        | some (pg, e, log) => s1.tlbFill pg.home pg.asid (vaOff pg.va) e log
        | none => s1
      runs line (s2.modCore x.core fun c =>
        { c with icache := (⟨lineOf x.pc, x.asid, x.priv, line⟩ :: c.icache).take 512 }))

/-- Log 1, R445: a turn that names an event and what it happens to is that event there and then; a part that is frozen performs module
reset and the hosts' requests alone. This is how the model lets the part's agents move. -/
def Obligations.EventTurns : Prop :=
  ∀ (s : State) (dt n : Nat) (i : Instr) (r : List Turn), s.tape = ⟨dt, .event i n⟩ :: r →
    encode i = none → (∀ bits, i ≠ .illegalInstruction bits) → (∀ c u a, i ≠ .instructionAccessFault c u a) →
    i.wf = true → i.subjOk n = true →
    let s1 : State := { s.refresh with tape := r, ncyc := s.ncyc + dt }
    (s.frozen = none → step s = exec i { s1 with subj := n }) ∧
    (s.frozen ≠ none → step s = if whileFrozen i then exec i { s1 with subj := n } else .next s1)

/-- R8, R19, R328: after module reset every site is DARK; nothing is launched, and no queue, slot or packet, no window, home map or
translation is set up, nothing waits and no link is dead; memory lists nothing, and every byte of it reads as 0 (log 5). -/
def Obligations.ResetState : Prop :=
  State.reset.Inv ∧ State.reset.mem = [] ∧ (∀ k, memGet State.reset.mem k = 0#8) ∧
  State.reset.harts = [] ∧ State.reset.groups = [] ∧ State.reset.blocks = [] ∧ State.reset.grids = [] ∧
  State.reset.queues = [] ∧ State.reset.slots = [] ∧ State.reset.packets = [] ∧ State.reset.graphs = [] ∧
  State.reset.windows = [] ∧ State.reset.homes = [] ∧ State.reset.nst = [] ∧ State.reset.deadLinks = [] ∧
  State.reset.pb = [] ∧ State.reset.held = [] ∧ State.reset.ops = [] ∧ State.reset.accs = [] ∧
  (∀ i, (State.reset.site i).st = 0) ∧ State.reset.homeMap = [] ∧ State.reset.frozen = none ∧ State.reset.ncyc = 0

/-- The memory's canonical form is kept by every step of every state: of an instruction, of an event, of a fetch, of a trap. -/
def Obligations.StepKeepsInv : Prop :=
  ∀ s t : State, s.Inv → step s = .next t → t.Inv

/-! ## Events

Every event is performed there and then by the turn that names it (`Obligations.EventTurns`); its subject is `s.subj`. -/

/-- R31, R141, R237, R259, R369, R396, R420: at a hart, the oldest delivery due is taken at its boundary; a held access's answer
lets it issue again; the limit of a recvt, the 60 A-cycles of a yield and the 64 of a scrub end its wait; an uncorrectable error sets
its register or CSR to 0, puts it out for the scrub and delivers cause 56 with the form of the instruction at its pc, and the fourth within
1 s begins the retirement of its core; and a wait of 1 ms is listed. -/
def Obligations.HartEvents : Prop :=
  ∀ (s : State) (x : Hart), s.hart? s.subj = some x →
    let h := s.subj
    let becomes (i : Instr) (y : Hart) : Prop := exec i s = .next (s.modHart h fun _ => y)
    (∀ d r, s.boundaryNow h x = true → x.due = d :: r →
      exec .boundaryDelivery s = .next
        ((s.modHart h fun _ => { x with due := r }).takeTrap h d.cause d.tval d.sub (wordForm d.tval) false)) ∧
    (∀ k a, x.plainOut = some k → x.plainAns = some a →
      becomes .plainAcknowledgement { x with log := x.log ++ [a], plainOut := none, plainAns := none }) ∧
    (x.recvEnd ≠ 0 → x.recvEnd < s.timeOf x → becomes .recvtTimeout { x with wait := none }) ∧
    (∀ t, x.yieldEnd = some t → t ≤ s.acyc → becomes .yieldTimeout { x with yieldEnd := none, yieldFor := [], ready := x.ready.map fun _ => s.acyc }) ∧
    (∀ t, x.scrub = some t → t ≤ s.acyc → becomes .registerScrubDone { x with scrub := none }) ∧
    (∀ (r : RegIdx) (a : Nat), x.status = .present → x.scrub = none → x.trails = false →
      let out (reg : Nat) (y : Hart) : Prop :=
        let t := (s.modHart h fun _ => y).consumePoison h (s.formAt h x) 0#64
        let u := t.modCluster (x.core / 100) fun k => { k with ueTimes := k.ueTimes ++ [(s.ncyc, x.core % 100)] }
        let lately := ((u.cluster (x.core / 100)).ueTimes.filter fun w => w.2 == x.core % 100 && decide (s.ncyc < w.1 + secN)).length
        exec (.poisonConsume reg) s = .next (if 4 ≤ lately then u.beginRetire x.core else u) ∧
        ∃ z, t.hart? h = some z ∧ z.scrub = some (s.acyc + 64) ∧
          z.due = y.due ++ [⟨56, failWord (s.formAt h x) 56 14 0, 0#64⟩] ∧ z.pc = y.pc ∧ z.x = y.x ∧ z.f = y.f ∧ z.v = y.v
      out r.toNat (x.wx r 0#64) ∧ out (r.toNat + 32) (x.wf r 0#32) ∧
      out (r.toNat + 64) (x.wv r (Vector.replicate 16 0#32)) ∧
      (a ≠ 0xC00 → a ≠ 0xC02 → a ≠ 0x8C2 → out (a + 96) (x.csrWrite a 0#64))) ∧
    (∀ w, s.listable x = true → x.wait = some w → w.since + msN ≤ s.ncyc →
      becomes .waitEntryValid { x with wait := some { w with listed := true } })

/-- R171, R188, R218, R263, R374 to R376, R408, R409, R415, R421: a future's value and its register's state change in one event, a
failure leaves its word in the register with the failure kept, and a completion for a hart that has ended is dropped; a relaxed load
that every piece has answered writes its destination. The chisel unit that has finished is free; equal requests of a pair are released,
unequal ones, a gend that the other has gone past, and a request that the trailing hart has not matched in 65,536 A-cycles are a
mismatch; a late block's deadline is
delivered once, where its group asks for it; and a grid all of whose harts wait, with nothing in the part at work for them, is told
so. -/
def Obligations.FutureEvents : Prop :=
  (∀ (s : State) (x : Hart),
      (∀ p, tget s.ops s.subj = some p → s.hart? p.hart = some x →
        (∀ v, p.st = .done v → s.gateClear p.gate = true →
          (x.status = .ended → exec .futureCompletion s = .next { s with ops := tdel s.ops s.subj }) ∧
          (∀ r, x.status = .present → s.pairSynced p.hart x = true → x.regOf s.subj = some r →
            exec .futureCompletion s = .next
              { s.modPair p.hart fun y => y.completed s.subj v with ops := tdel s.ops s.subj } ∧
            x.completed s.subj v = { x.wx (BitVec.ofNat 5 r) v with regs := tdel x.regs r })) ∧
        (∀ cause sub count a, p.st = .failed cause sub count a →
          let w := failWord p.fo cause sub (min count 0xFFFFFFFF)
          (x.status = .ended ∨ x.regOf s.subj = none →
            exec .futureFailure s = .next ((s.report x.group ⟨w, a, true, x.hidx⟩).dropOp s.subj)) ∧
          (∀ r, x.status = .present → s.pairSynced p.hart x = true → x.regOf s.subj = some r →
            exec .futureFailure s = .next
              { s.modPair p.hart fun y => y.failedReg s.subj w p.how with ops := tdel s.ops s.subj } ∧
            x.failedReg s.subj w p.how = { x.wx (BitVec.ofNat 5 r) w with regs := tset x.regs r (.failed p.how) }))) ∧
      (∀ id a dst cause sub addr, tget s.accs id = some a → a.performed = true → a.dst = some dst → s.hart? a.hart = some x →
        x.status = .ended → accFail a.answers = some (cause, sub, addr) →
        exec (.relaxedLoadReturn id) s = .next
          (({ s with accs := tdel s.accs id } : State).report x.group ⟨failWord a.fo cause sub 0, addr, true, x.hidx⟩)) ∧
      (∀ id a dst, tget s.accs id = some a → a.performed = true → a.dst = some dst → s.hart? a.hart = some x → x.status = .present →
        s.pairSynced a.hart x = true →
        let s1 : State := { s with accs := tdel s.accs id }
        (accFail a.answers = none → ansPoison a.answers = false →
          exec (.relaxedLoadReturn id) s = .next (s1.modPair a.hart fun y => y.loaded id dst (ansBytes a.answers))) ∧
        (∀ cause sub addr, accFail a.answers = some (cause, sub, addr) →
          exec (.relaxedLoadReturn id) s = .next
            ((s1.modPair a.hart fun y => y.loadZero id dst).dueAt a.hart 60 (failWord a.fo cause sub 0) addr)) ∧
        (∀ rd k v, tget x.regs rd.toNat = some (.busy id) →
          (x.loaded id (.x rd k) v = { x.wx rd (lrxValue k v) with regs := tdel x.regs rd.toNat }) ∧
          (x.loadZero id (.x rd k) = { x.wx rd 0#64 with regs := tdel x.regs rd.toNat })) ∧
        (∀ vd ls v, tget x.vbusy vd.toNat = some id →
          (x.loaded id (.v vd ls) v = { x.putSome vd (lanesGot ls (v.map some)) with vbusy := tdel x.vbusy vd.toNat }) ∧
          (x.loadZero id (.v vd ls) = { x.wv vd (Vector.replicate 16 0#32) with vbusy := tdel x.vbusy vd.toNat })))) ∧
  (∀ (s : State) (x y : Hart) (j : Nat) (b : Block) (gr : Grid),
      (∀ t, (s.core s.subj).chiselEnd = some t → t ≤ s.acyc →
        exec .chiselUnitFinish s = .next (s.modCore s.subj fun c => { c with chisel := none, chiselEnd := none })) ∧
      (s.hart? s.subj = some x → s.trailOf s.subj = some (j, y) → x.trails = false → x.released = false → ∀ a t, x.cmp = some (a, t) →
        (∀ c u, y.cmp = some (c, u) →
          (a = c → exec .comparatorMatch s = .next (s.modHart s.subj fun z => { z with released := true })) ∧
          (a ≠ c → exec .comparatorMatch s = .next (s.pairMismatch s.subj x (x.pcBehind (a.headD 0#64)) (a.headD 0#64) 1))) ∧
        (y.cmp = none → isGend a = true → y.past x = true →
          exec .comparatorMatch s = .next (s.pairMismatch s.subj x (x.pcBehind (a.headD 0#64)) (a.headD 0#64) 1)) ∧
        (y.cmp = none → t + 65536 ≤ s.acyc →
          exec .trailingTimeout s = .next (s.pairMismatch s.subj x (x.pcBehind (a.headD 0#64)) (a.headD 0#64) 2))) ∧
      (s.hart? s.subj = some x → s.trailOf s.subj = some (j, y) → x.trails = false → x.released = false → x.cmp = none →
        ∀ c u, y.cmp = some (c, u) → isGend c = true → x.past y = true →
          exec .comparatorMatch s = .next (s.pairMismatch s.subj x x.pc (c.headD 0#64) 1)) ∧
      (∀ h g, tget s.blocks s.subj = some b → b.nodl = false → b.dlDelivered = false → tagEarlier b.tag.toNat s.tagNow = true →
        (s.blockOrder b).head? = some h → s.hart? h = some x → x.status ≠ .ended → s.groupOf? x = some g →
        exec .deadlineMissDetect s = .next (if g.dlmiss then
          (s.modBlock s.subj fun c => { c with dlDelivered := true }).dueAt h 58 (failWord noForm 58 0 0) 0#64 else s)) ∧
      (∀ h w g, tget s.grids s.subj = some gr → s.gridHarts gr = [(h, x)] → s.groupOf? x = some g → g.nohang = false → x.wait = some w →
        w.listed = true → s.listable x = true → (∀ p ∈ s.gridAll gr, s.busyFor p.1 p.2 = false) → gr.hung ≠ [(h, w.since)] →
        (∀ i ∈ gr.blocks, ∀ c, tget s.blocks i = some c → c.status = .placed ∨ c.status = .done) →
        exec .hangTest s = .next
          ((s.modGrid s.subj fun q => { q with hung := [(h, w.since)] }).dueAt h 59
            (failWord noForm 59 w.code (bitsOf w.obj.toNat 0 24)) 0#64)))

/-- R83 to R85, R244 to R246, R251: at its bank an operation reads its line and writes the new value in one step, and completes with the
old value; a queue places an entry at TAIL or takes the one at HEAD, and gives its length; a queue that is not enabled fails cause 7
SUB 9; a bwait whose token is not the object's phase completes. -/
def Obligations.BankEvents : Prop :=
  ∀ (s : State) (p : Op), tget s.ops s.subj = some p → p.st = .issued → s.opLane s.subj p = true → s.gateClear p.gate = true →
    p.drained = true →
    let o := s.subj
    let iface := siteOfHome p.cluster
    let here (kind : AccKind) (va : Word) (n k : Nat) (t : State) : Prop :=
      s.bankLine p.ctx kind va n iface = (.at k, t) ∧ t.poisoned k n = false
    (∀ fn dbl va v e k t, p.kind = .bank fn dbl va v e → here .bank va (dblBytes dbl) k t →
      exec .bankOperation s = .next
        ((t.putNat k (dblBytes dbl) (bankNew fn (dblBytes dbl) (t.natAt k (dblBytes dbl)) v.toNat e.toNat)).opDone o
          (bankOld fn (dblBytes dbl) (t.natAt k (dblBytes dbl))))) ∧
    (∀ fn va lanes k t, p.kind = .vred fn va lanes → here .bank va 64 k t →
      exec .bankOperation s = .next
        ((t.putMem k (vredLine fn (t.bytesAt k 64) lanes)).opDone o
          (statusWord false false (4 * (lanes.filter Option.isSome).length)))) ∧
    (∀ (h v : Word), isMC (vaHome h) = true → s.homeValid (vaHome h) = true → s.net iface (vaHome h) = .ok →
      let m := vaHome h - 0x180
      let q := h.toNat % 4096
      let d := s.bankQueue m q
      (bqOk d = false →
        (p.kind = .enq h v → exec .queueEnqueue s = .next (s.opFail o 7 9 0 0#64)) ∧
        (p.kind = .deq h → exec .queueDequeue s = .next (s.opFail o 7 9 0 0#64)) ∧
        (p.kind = .len h → exec .queueLength s = .next (s.opFail o 7 9 0 0#64))) ∧
      (bqOk d = true →
        (p.kind = .len h → exec .queueLength s = .next (s.opDone o (BitVec.ofNat 64 (bqLen d)))) ∧
        (p.kind = .enq h v → 2 ^ bqLog d ≤ bqLen d →
          exec .queueEnqueue s = .next ((s.modOp o fun x => { x with st := .waiting }).modMc m fun x =>
            { x with enqWait := tset x.enqWait q (tgetD x.enqWait q [] ++ [o]) })) ∧
        (∀ k t, p.kind = .enq h v → bqLen d < 2 ^ bqLog d → here .amo (bqEntry h d (bqTail d)) 8 k t →
          t.bankQueue m q = d → t.deqWaiters m q = [] →
          exec .queueEnqueue s = .next
            (((t.putNat k 8 v.toNat).putBankQueue m q (bqSetTail d (bqTail d + 1))).opDone o
              (BitVec.ofNat 64 (bqLen (bqSetTail d (bqTail d + 1)))))) ∧
        (p.kind = .deq h → bqLen d = 0 →
          exec .queueDequeue s = .next ((s.modOp o fun x => { x with st := .waiting }).modMc m fun x =>
            { x with deqWait := tset x.deqWait q (tgetD x.deqWait q [] ++ [o]) })) ∧
        (∀ k t, p.kind = .deq h → bqLen d ≠ 0 → here .amo (bqEntry h d (bqHead d)) 8 k t → t.enqWaiters m q = [] →
          exec .queueDequeue s = .next
            ((t.putBankQueue m q (bqSetHead d (bqHead d + 1))).opDone o (BitVec.ofNat 64 (t.natAt k 8)))))) ∧
    (∀ x g token, s.hart? p.hart = some x → s.groupOf? x = some g → p.kind = .bwait 0#64 token →
      (g.bar.phase ≠ token →
        exec .bwaitTest s = .next (s.opDone o ((g.bar.phase - token).setWidth 64))) ∧
      (g.bar.phase = token →
        exec .bwaitTest s = .next ((s.modOp o fun q => { q with st := .waiting }).modGroup x.group fun y =>
          { y with bar := { y.bar with waits := y.bar.waits ++ [(o, token)] } })))

/-- R60, R83, R84, R248, R249: an arrival stands in its barrier until the last hart has arrived, and then completes the phase; a block's
partial counts at its grid object, and the last one completes the phase there; a write of half a queue's descriptor that disables it
fails its waiters with cause 7 SUB 9; and a hart that waits at a barrier lends its deadline to the groups that it waits for. -/
def Obligations.BarrierEvents : Prop :=
  ∀ (s : State) (x : Hart) (g : Group),
    (∀ p opc lanes fmt, tget s.ops s.subj = some p → p.st = .issued → s.gateClear p.gate = true → p.drained = true →
      p.kind = .arrive 0#64 false opc lanes fmt → s.hart? p.hart = some x → s.groupOf? x = some g → g.parked = false →
      g.bar.later = [] →
      (∀ a ∈ g.bar.arrivals, a.hart ≠ p.hart) →
      let bar : BarObj := { g.bar with arrivals := g.bar.arrivals ++ [⟨p.hart, s.subj, opc, lanes, fmt, p.ctx⟩] }
      let t := (s.modOp s.subj fun q => { q with st := .waiting }).modGroup x.group fun y => { y with bar := bar }
      (s.allArrived (s.groupOrder g) bar.arrivals = false → exec .barrierArrival s = .next t) ∧
      (s.allArrived (s.groupOrder g) bar.arrivals = true →
        let done := bar.complete t (sortArrivals (s.groupOrder g) bar.arrivals)
        exec .barrierArrival s = .next (done.2.modGroup x.group fun y => { y with bar := done.1 }) ∧
        done.1.phase = g.bar.phase + 1#32)) ∧
    (∀ ga b k t, tget s.gridArrs s.subj = some ga → ga.atBank = false →
      (∀ e ∈ s.held, e.who ≠ .grid ga.id) → tget s.blocks ga.block = some b →
      s.bankLine ga.ctx .bank ga.va 64 (siteOfHome b.home) = (.at k, t) → t.poisoned k 64 = false →
      let line := t.natAt k 64
      let arrived := bitsOf line 96 32 + 1
      let opc := if bitsOf line 160 8 = 0 then ga.opc else bitsOf line 160 8
      let u : State := { t with
        nextId := t.nextId + 1
        gridArrs := tset (tdel t.gridArrs ga.id) t.nextId { ga with id := t.nextId, atBank := true } }
      (arrived < bitsOf line 64 32 →
        exec .gridArrival s = .next (ga.ops.foldl (fun (v : State) a => v.earlyDone (goPhase line) a)
          (u.putNat k 64 (putBits (putBits (line % 2 ^ 168) 96 32 arrived) 160 8 opc)))) ∧
      (bitsOf line 64 32 ≤ arrived →
        exec .gridArrival s = .next (u.completeGrid k ga.va ga.ctx.asid opc (goPhase line) line))) ∧
    (∀ (q : Nat) (w : Word),
      let m := s.subj
      let d := s.bankQueue m q
      let lo := BitVec.ofNat 128
        (putBits d.toNat 0 64 (bitsOf w.toNat 0 1 + 2 ^ 6 * bitsOf w.toNat 6 41 + 2 ^ 53 * bitsOf w.toNat 53 5))
      let hi := BitVec.ofNat 128 (putBits d.toNat 64 64 w.toNat)
      (lo.getLsbD 0 = true → exec (.queueDescriptorWrite q 0 w) s = .next (s.putBankQueue m q lo)) ∧
      (hi.getLsbD 0 = true → exec (.queueDescriptorWrite q 1 w) s = .next (s.putBankQueue m q hi)) ∧
      (lo.getLsbD 0 = false →
        exec (.queueDescriptorWrite q 0 w) s = .next
          ((((s.enqWaiters m q ++ s.deqWaiters m q).foldl (fun (a : State) o => a.opFail o 7 9 0 0#64) (s.putBankQueue m q lo))).modMc
            m fun y => { y with enqWait := tdel y.enqWait q, deqWait := tdel y.deqWait q }))) ∧
    (s.hart? s.subj = some x →
      let t : State := { s with groups := s.groups.map fun p => (p.1, { p.2 with loans := p.2.loans.filter fun l => l.1 != s.subj }) }
      (x.barWait = none → exec .deadlineLoan s = .next t) ∧
      (∀ obj, x.barWait = some obj → (t.tagOf x).2 = false →
        exec .deadlineLoan s = .next ((t.loanReach 7 (t.borrowers x obj.toNat) (t.borrowers x obj.toNat)).foldl
          (fun (a : State) i => a.modGroup i fun y => { y with loans := y.loans ++ [(s.subj, (t.tagOf x).1)] }) t)))

/-- R26 to R28, R49 to R53, R74, R94 to R97, R114, R376, R392, R449: a piece and a drained entry reach their home and are answered or
kept; an entry leaves once its release is done, or after 256 N-cycles, and is freed once acknowledged; a miss parks its requester's group
and reaches the service ring, or the scheduler core, which makes the page of an invalid leaf resident and zero and fails a pointer that
stands for none; a selected entry goes to its port again or stays held; a request that a full trace ring held goes on; and HTLBINV and
HMISSDONE act on the home's TLB and its list. -/
def Obligations.HomeEvents : Prop :=
  ∀ (s : State),
    let id := s.subj % 2 ^ 64
    (∀ a i p x, tget s.accs id = some a → a.pick (s.subj / 2 ^ 64) = some (i, p) → a.behind i p = false → s.gateClear a.gate = true →
      s.hart? a.hart = some x →
      let kind : AccKind := match p.act with
        | .store _ _ => .store
        | _ => .load
      let out := s.request (Req.hart p.va p.act.width kind a.ctx) p.act (.acc id i) true none x.iface
      (∀ r t, out = (.ans r, t) → exec .homeRequest s = .next ((t.setPiece id i (.ans r)).settleAcc id)) ∧
      (∀ t, out = (.held, t) → exec .homeRequest s = .next (t.setPiece id i .held))) ∧
    (∀ e, tget s.accs id = none → tget s.pb id = some e → e.sent = true → e.held = false → e.performed = false →
      s.entryTurn id e = true →
      let run := if e.tag.isSome then (0, e.bytes) else e.run
      let r : Req := { Req.hart (addrPlus e.line run.1) run.2.length .store ⟨e.asid, e.priv, e.owners.head?, 0⟩ with direct := false }
      let out := s.request r (.store run.2 e.tag) (.entry id) true none (siteOfHome e.cluster)
      (∀ ok t, out = (.ans (.done ok), t) →
        exec .homeRequest s = .next { t with pb := tmod t.pb id fun y => { y with performed := true } }) ∧
      (∀ cause sub a t, out = (.ans (.fail cause sub a), t) → exec .homeRequest s = .next (t.failEntry id cause sub)) ∧
      (∀ t, out = (.held, t) → exec .homeRequest s = .next { t with pb := tmod t.pb id fun y => { y with held := true } })) ∧
    (∀ id e, tget s.pb id = some e → e.cluster = s.subj →
      (s.gateClear e.gate = true → s.lineTurn id e = true →
        exec (.entryDrain id) s = .next { s with pb := tmod s.pb id fun y => { y with draining := true, sent := true, inj := if y.sent then y.inj else some s.turnNo } }) ∧
      (e.since + 256 ≤ s.ncyc →
        exec (.drainTimeout id) s = .next
          { s with pb := s.pb.map fun q => if [id].contains q.1 then (q.1, { q.2 with draining := true }) else q }) ∧
      (e.performed = true → exec (.postBufferFree id) s = .next { s with pb := tdel s.pb id })) ∧
    (∀ m x g, tget s.missRecs s.subj = some m → m.toCore = true → m.ctx.hart.bind s.hart? = some x → s.groupOf? x = some g →
      (∃ e ∈ s.held, e.home = m.home ∧ e.stamp = m.stamp) →
      ∃ t g', exec .missRecordAtCore s = .next t ∧ tget t.groups x.group = some g' ∧ g'.parked = true ∧
        g'.parkedSince = (if g.parked then g.parkedSince else s.ncyc) ∧ (m.home, m.stamp) ∈ g'.misses ∧ t.mem = s.mem) ∧
    (∀ m, tget s.missRecs s.subj = some m → m.toAgent = true →
      let asid := m.asid
      let off := vaOff m.va
      (m.hostMode = true →
        exec .missService s = .next ((s.post 1 m.home (s.missBytes m)).keepRec s.subj { m with toAgent := false })) ∧
      (m.hostMode = false → s.coreServes (serviceCluster m.home) = true → (∀ q ∈ s.missRecs, q.2.toAgent = true → q.2.hostMode = false → q.1 = s.subj) →
        (s.leafAt m.home asid off = .none →
          exec .missService s = .next
            ((s.hmissDone m.home (missDoneWord asid m.va true)).keepRec s.subj { m with toAgent := false })) ∧
        (∀ at_ e log, s.leafAt m.home asid off = .leaf at_ e log → e.getLsbD 0 = false → leafH e = false → leafLoc e = false →
          leafFrame e log + 2 ^ log ≤ s.dramBytes →
          exec .missService s = .next
            ((((s.fillZero (dramKey (nearMc m.home) (leafFrame e log)) (2 ^ log) (leafTagdef e)).putNat (dramKey (nearMc m.home) at_) 8
              (e.toNat + 1)).hmissDone m.home (missDoneWord asid m.va false)).keepRec s.subj { m with toAgent := false })))) ∧
    (∀ e, firstReplay (s.held.filter fun f => f.home == s.subj && f.selected && !(s.absentFor f.ctx)) = some e →
      (∀ t, s.tryHeld e (e.why == .retry true) = some t → exec .missListReplay s = .next (t.resumeFor e.ctx)) ∧
      (s.tryHeld e (e.why == .retry true) = none → e.trace = none →
        exec .missListReplay s = .next { s with held := s.held.map fun f => if f == e then { f with why := s.stayWhy e } else f })) ∧
    (∀ e t, s.held.filter (fun f => f.home == s.subj && f.why == .ring) = [e] → s.tryHeld e false = some t →
      exec .tracedStoreResume s = .next t) ∧
    (∀ w : Word,
      exec (.htlbinv w) s = .next (s.modHome s.subj fun h => { h with tlb := h.tlb.filter fun t =>
        !((w.getLsbD 47 || t.asid == w.extractLsb' 48 16) &&
          (w.getLsbD 46 || bitsOf w.toNat 0 46 * 2 / 2 ^ t.log == t.base)) }) ∧
      ∃ t, exec (.hmissdone w) s = .next t ∧ t.mem = s.mem ∧
        t.held = s.held.map fun e => if s.missSelected s.subj w e then { e with why := .retry (w.getLsbD 0), time := if e.why = .miss then s.ncyc else e.time }
          else e)

/-- R44 to R48, R80, R98: a granule whose old entry is withdrawn is moved and bound to its new place, and what waited for it goes on; the
core's acknowledgement withdraws the entry, and 4,096 N-cycles without one lose the granule's contents, and its core with the core's
other granules and its harts; a migration leaves rotation at
its threshold, reserves a slot, or is declined and goes on with COUNT 0, sends its context once its entries are settled, and arrives
with its counter's home the new cluster; DXLOAD is refreshed, and the latest ready hart of the busiest core moves where the difference
is 6. -/
def Obligations.MoveEvents : Prop :=
  ∀ (s : State) (x : Hart),
    let h := s.subj
    (∀ g old dest since, s.gran s.subj g = .moving old dest true since →
      s.frameBlocked s.subj g dest = none → s.frameBlocked s.subj g old = none →
      exec (.granuleRebind g dest) s = .next
        (((s.moveGran s.subj g old dest false).setGran s.subj g (reboundTo dest)).releaseGran s.subj g)) ∧
    (∀ g old dest since, s.gran s.subj g = .moving old dest false since →
      exec (.localRangeWithdrawAck g) s = .next (s.setGran s.subj g (.moving old dest true since)) ∧
      (since + 4096 ≤ s.ncyc → s.frameBlocked s.subj g dest = none →
        let t := (((s.moveGran s.subj g old dest true).setGran s.subj g (reboundTo dest)).releaseGran s.subj g).logRec 11 (winHome s.subj)
          0 0 0 1
        (∀ va, old = .frame va → exec (.rebindAckTimeout g) s = .next t) ∧
        (∀ cl pc, old = .core cl pc → exec (.rebindAckTimeout g) s = .next (t.loseCore cl pc)) ∧
        (∀ cl pc, t.loseCore cl pc =
          ((((t.windows.map fun p => (p.2.grans.filter fun q => q.2.heldBy cl pc).map Prod.fst).foldr (· ++ ·) []).foldl
            (fun (v : State) k =>
              let u := v.loseRange (coreKey cl pc k 0) 16384
              if k = 16 then u.loseRange (mboxKey cl pc 0) 65536 else u) t).loseHarts (100 * cl + pc)).beginRetire (100 * cl + pc)))) ∧
    (s.hart? h = some x →
      let becomes (i : Instr) (t : State) (y : Hart) : Prop := exec i s = .next (t.modHart h fun _ => y)
      (∀ c, x.mig.thresh ≠ 0#16 → x.mig.thresh ≤ x.mig.count → s.migReady h x = true → s.migTarget x.mig.home.toNat = some c →
        c ≠ x.cluster →
        becomes .migrationStart s
          { x with status := .moving 0, migTo := some c, migCore := none, wait := none, yieldEnd := none, yieldFor := [], recvEnd := 0 }) ∧
      (∀ cl, x.status = .moving 0 → x.migTo = some cl → x.migCore = none →
        (∀ c, s.idleCore cl = some c →
          becomes .migrationSlotRequest (s.modCluster cl fun k => { k with reserved := k.reserved ++ [(c, h)] })
            { x with status := .moving 1 }) ∧
        (s.idleCore cl = none → becomes .migrationSlotRequest s { x with status := .moving 9 })) ∧
      (x.status = .moving 9 →
        becomes .migrationSlotReply s { x with status := .present, migTo := none, migCore := none, mig := { x.mig with count := 0#16 } }) ∧
      (x.status = .moving 1 →
        (s.entriesSettled h = true →
          becomes .migrationSlotReply s { x with status := .moving 2, sentC := s.causal x, resv := none, saw := [] }) ∧
        (s.entriesSettled h = false → exec .migrationSlotReply s = .next (s.drainFor h))) ∧
      (∀ cl c, x.status = .moving 2 → x.migTo = some cl → ((s.cluster cl).reserved.find? fun r => r.2 == h) = some (c, h) →
        let t := s.modCluster cl fun k => { k with reserved := k.reserved.filter fun r => r.2 != h }
        becomes .migrationContextArrival (t.raiseC (cl * 100 + c) cl x.sentC)
          { x with
            status := .present
            cluster := cl
            pcore := c
            slot := t.lowSlot (cl * 100 + c)
            mig := ⟨x.mig.thresh, 0#16, BitVec.ofNat 10 cl⟩
            migTo := none
            migCore := none
            sentC := 0
            chisel := x.chisel.clr
            ready := none })) ∧
    (let d := (s.cluster h).dxload.toNat
     let busy := h * 100 + bitsOf d 0 7
     exec .dxloadRefresh s = .next (s.modCluster h fun k => { k with dxload := s.dxloadNow h }) ∧
     ((bitsOf d 8 5 < bitsOf d 32 5 + 6 ∨ s.freeSlots (h * 100 + bitsOf d 16 7) = 0) → exec .loadBalance s = .next s) ∧
     (∀ j, bitsOf d 32 5 + 6 ≤ bitsOf d 8 5 → s.freeSlots (h * 100 + bitsOf d 16 7) ≠ 0 →
       pickBy (fun a b => s.laterHart a b)
         (((s.coreHarts busy).filter fun p => s.eligible p.2 && s.migReady p.1 p.2).map Prod.fst) = some j →
       exec .loadBalance s = .next ((s.startMigration j h).modHart j fun y => { y with migCore := some (bitsOf d 16 7) })))

/-- R27, R28, R40, R43, R52, R54, R58, R214, R215, R255, R295, R304 to R307, R387, R418: a stop saves a hart that waits or is parked
where it stands and asks a running one to stop at its next hint, and HINTDIST instructions without one save it whole; a parked group's
limit is reported, or starts its block's swap; a swap saves the leases once its harts are saved, and leaves the cores once its granules
are in their frames; a waiting block with an earlier deadline stops the latest one of its field; a block is placed whole on the first
cluster with room, and returns to one; a core that leaves service stops the groups that it holds; and a stopping group's ring writes go
to its core's spill ring. -/
def Obligations.StopEvents : Prop :=
  ∀ (s : State) (x : Hart) (g : Group) (b : Block) (gr : Grid),
    let h := s.subj
    (s.hart? h = some x → s.groupOf? x = some g → x.status = .present → x.trails = false → x.stopping = none →
      let asked (y : Hart) : Hart := { y with stopReq := true, stopAt := if y.stopReq then y.stopAt else s.acyc }
      let saved : Prop := exec .stopRequest s = .next (s.saveHart h x.pc (.all x.full))
      (g.away = 1 →
        (g.parked = true → s.mayStop h x = true → saved) ∧
        (g.parked = false →
          (s.boundaryNow h x = true ∨ (x.priv = .s ∧ x.pc = x.csr.stvec ∧ ∃ t, x.lastIssue = some t ∧ t / 2 = s.acyc) →
            exec .stopRequest s = .next (s.modPair h fun y => { asked y with stopSret := true })) ∧
          (s.boundaryNow h x = false → x.priv = .u →
            ((s.core x.core).chiselFor h = true ∨ (∃ k, x.plainOut = some k) ∨
                (∃ w, x.wait = some w ∧ w.kind ≠ 11 ∧ (w.kind = 13 → s.incomplete h ≠ [])) →
              (∀ w, x.wait = some w → w.kind ≠ 13) ∨ s.incomplete h ≠ [] → s.mayStop h x = true → saved) ∧
            (x.wait = none → x.plainOut = none → (s.core x.core).chiselFor h = false →
              exec .stopRequest s = .next (s.modPair h asked)) ∧
            (∀ w, x.wait = some w → w.kind = 13 → s.incomplete h = [] → exec .stopRequest s = .next (s.modPair h asked))))) ∧
      (x.stopReq = true → (s.hdrOf x).hintdist ≤ x.sinceHint → x.log = [] → x.plainOut = none →
        ((∀ w, x.wait = some w → w.kind ≠ 13) ∨ s.incomplete h ≠ []) →
        let y : Hart := { x with stopping := some .full }
        let t := s.modHart h fun _ => y
        (t.mayStop h y = true → exec .hintdistExpiry s = .next (t.saveHart h x.pc (.all x.full))) ∧
        (t.mayStop h y = false → exec .hintdistExpiry s = .next t))) ∧
    (tget s.groups h = some g → tget s.blocks g.block = some b → tget s.grids b.grid = some gr → g.parked = true → g.expired = false →
      g.away = 0 → b.status = .placed → s.coreServes b.cluster = true → gr.launch.parklim ≠ 0xFFFFFFFF →
      g.parkedSince + (if gr.launch.parklim = 0 then 1 else gr.launch.parklim) * usN ≤ s.ncyc →
      let t := s.modGroup h fun y => { y with expired := true }
      (s.duty 1 = false → exec .parklimExpiry s = .next (t.modBlock g.block fun y =>
        { y with swapCmd := true, since := if y.swapCmd then y.since else s.ncyc })) ∧
      (s.duty 1 = true →
        exec .parklimExpiry s = .next
          ((t.post 2 b.cluster (bytesOfNat 32 (2 ^ 4 * g.index + 2 ^ 11 * b.index + 2 ^ 35 * (gr.serial % 2 ^ 29)))).modMod fun m =>
            { m with reports := m.reports ++ [(g.block, h, b.cluster)] }))) ∧
    (tget s.blocks h = some b → tget s.grids b.grid = some gr →
      let gs := s.blockGroups b
      (b.status = .placed → b.swapCmd = true → b.since ≠ s.ncyc → s.coreServes b.cluster = true →
        exec .swap s = .next (s.beginSwap h)) ∧
      (b.status = .stopping → s.allSaved gs = true → s.coreServes b.cluster = true →
        (s.allAway gs 1 = true → s.tilesDone gs = true →
          (s.blocked gr.asid (s.slotParts gr b gs) = none →
            exec .swap s = .next ((((gs.foldl (fun (t : State) gi => t.saveLease gr b gi) s).drainGroups b.groups)).toFrames gr b gs)) ∧
          (∀ va, s.blocked gr.asid (s.slotParts gr b gs) = some (none, va) →
            exec .swap s = .next (s.unitMiss (schedCtx gr.asid) .store va)) ∧
          (∀ cause sub va, s.blocked gr.asid (s.slotParts gr b gs) = some (some (cause, sub), va) →
            exec .swap s = .next (s.swapBack h cause sub va))) ∧
        (s.allAway gs 1 = false → (∀ q ∈ s.granulesOf gs, (s.gran q.1 q.2.1).inFrame = true) → s.entriesCalm b.groups = true →
          ∃ t c, exec .swap s = .next t ∧ t = (s.leaveCores h b).modBlock h fun y =>
            { y with status := .absent, since := s.ncyc, stopC := c, movedWins := (s.winsOf gs).filter (s.ownsWindow gs) })) ∧
      (b.status = .ready → s.inCut b.grid = false → s.stageDue gr = true → s.isFirst h b = true → s.coreServes gr.owner = true →
        (s.qtValid = true → s.unitKey (schedCtx 0#16) .load (s.runtimeVa gr.asid) 16 ≠ .error none) →
        ∀ cl r t, s.offersFor gr b = cl :: r → s.placeFrom cl h gr (s.stageHolds gr) gr.launch.gpb 0 = some t →
          exec .blockAdmit s = .next
            (((t.modBlock h fun y => { y with status := .placed, home := cl, cluster := cl }).stagePlaced s gr).noteSpares)) ∧
      (b.status ≠ .returning → s.canReturn h b = true → s.isFirst h b = true → s.coreServes gr.owner = true →
        ∀ t, s.seatWindows b.home gs gr.launch.redun (s.winsOf gs) = some t →
          exec .blockReadmission s = .next
            ((((t.moveWaiters b.cluster b.home gs).modBlock h fun y => { y with status := .returning, cluster := b.home }).toCores
              gs).noteSpares)) ∧
      (b.status = .returning →
        let t := (s.toCores gs).comeBack h gs
        (t.allAway gs 0 = true → exec .blockReadmission s = .next (t.modBlock h fun y => { y with status := .placed })) ∧
        (t.allAway gs 0 = false → exec .blockReadmission s = .next t))) ∧
    (∀ bi wi wb, (s.blocks.filter fun p => p.2.cluster / 24 == h && p.2.status == .placed && !p.2.swapCmd) = [(bi, b)] →
      (∃ i, i < 24 ∧ (wi, wb) ∈ s.waitingBlocks (24 * h + i)) → s.readySince wb + 4096 ≤ s.ncyc →
      0x100 ≤ (s.blockTag b + 65536 - s.blockTag wb) % 65536 → (s.blockTag b + 65536 - s.blockTag wb) % 65536 ≤ 0x7FFF →
      exec .preemptPolicy s = .next (s.beginSwap bi)) ∧
    ((s.core h).retired = false →
      let t := (s.retireMark h).modCluster (h / 100) fun k => { k with ueTimes := k.ueTimes.filter fun u => u.2 != h % 100 }
      ((t.coreGroups h).filter t.inPlace = [] → exec .coreRetire s = .next t) ∧
      (∀ gi q, (t.coreGroups h).filter t.inPlace = [gi] → tget t.groups gi = some q → q.away = 0 →
        exec .coreRetire s = .next (t.stopGroup gi))) ∧
    (∀ e c (va : Word) n (r : List Want) (read : List Byte) tag rtag (poison first : Bool), s.engines = [(e, [c])] →
      (s.core h).spill.length < 16 → c.started = true → c.heldAt = none → c.fail = none → c.buf = some (read, rtag, poison) →
      c.pieces = ⟨va, .store n tag, .store, first⟩ :: r → s.spillLine va = some h →
      s.spillFull h (.spill (vaHome va * 96 + vaOff va / 2 ^ 20) (vaOff va % 2 ^ 20 / 0x4000)) = false →
      let entry := lineEntry va n tag poison
      let wrote : CopyCmd := { c with part := c.part + n.length }
      exec (.spillRingAppend entry) s = .next
        ((s.modCore h fun k => { k with spill := k.spill ++ [entry] }).modCmd e c.id fun _ => if r = [] then wrote.step else wrote))

/-- R109, R193 to R206, R212, R224 to R227, R230, R231, R235, R236, R240: a plinth accepts its holder's next command when its release is
done, its rings hold its lines and the lease lasts as long, and performs and retires it once its cost has passed; a lease ends by its
time, and the winner holds it after the handover; a tring that waited sets its ring; an engine starts a command, moves it element by
element, and completes it with the bytes moved; and a message or a kick enters its mailbox or its queue, or waits there for room. -/
def Obligations.UnitEvents : Prop :=
  ∀ (s : State),
    let u := s.subj
    let p := s.plinth u
    (∀ t r, p.queue = t :: r → p.holder = some t.group → t.accepted = false → t.what ≠ .release → s.leaseOver p = false →
      p.cmdLeft ≠ 0 → s.gateClear t.gate = true → s.ringsReady t = true → s.tileStart p t + t.cost ≤ p.leaseEnd →
      let fin := s.tileStart p t + t.cost
      exec .tileCommandAccept s = .next ((s.modPlinth u fun q =>
        { q with
          cmdLeft := q.cmdLeft - 1
          queue := q.queue.map fun v => if v.id = t.id then { v with accepted := true, retireAt := fin } else v
          lastHart := some (t.hart, t.fo)
          busyTo := fin
          lastMma := t.isMma }).modRings t fun r n => { r with claim := r.claim + n })) ∧
    (∀ t, (p.queue.find? fun v => v.accepted) = some t → t.retireAt ≤ s.acyc → (∀ e ∈ s.held, e.who ≠ .tile u t.id) →
      (∀ c, t.what = .cfg c →
        exec .tileCommandRetire s = .next ((s.modPlinth u fun q => q.takeCfg c).retireTile u t p (.ok 0#64))) ∧
      (∀ k, t.what = .zero k →
        exec .tileCommandRetire s = .next ((s.modPlinth u fun q => (q.promote k).setAcc k Accum.zero).retireTile u t p (.ok 0#64))) ∧
      (t.what = .stat →
        let t1 := s.modPlinth u Plinth.promoteAll
        exec .tileCommandRetire s = .next (t1.retireTile u t p (.ok (t1.tstatWord u t)))) ∧
      (∀ km k a b n ls t1, t.what = .mma km k a b n → t.fail = none → t.cfg.chk = false →
        s.tileRead u t (s.mmaAddrs t a b n (linesA km t.cfg.width t.rows).length (linesB t.cfg.tra t.cfg.width t.cols).length) [] =
          (.got ls, t1) →
        let r := runPasses km t (linesA km t.cfg.width t.rows) (linesB t.cfg.tra t.cfg.width t.cols) (fun _ => none) n ls
          (p.acc k) false 0
        r.2.2.1 = none → r.2.2.2.2 = 0 →
        exec .tileCommandRetire s = .next
          ((t1.modPlinth u fun q => { q.setAcc k r.1 with iovf := q.iovf || r.2.1 }).retireTile u t p
            (.ok (BitVec.ofNat 64 (2 ^ 16 * t.nb + t.na)))))) ∧
    (∀ g, p.holder = some g → p.settled = true → s.leaseKept p = false → p.leaseEnd ≤ s.acyc → exec .leaseTimeExpiry s = .next (s.endLease u false)) ∧
    (∀ g t, p.handover = some (g, t) → t ≤ s.acyc →
      exec .leaseHandover s = .next (s.grant u g) ∧
      ((s.grant u g).plinth u).holder = some g ∧ ((s.grant u g).plinth u).cmdLeft = 64 ∧
      ((s.grant u g).plinth u).leaseEnd = s.acyc + 4096) ∧
    (∀ o w n base lines, tget s.ops u = some o → o.kind = .tring w n base lines → s.gateClear o.gate = true →
      (∀ q ∈ s.ops, ∀ b l, q.2.kind = .tring w n b l → q.1 = u) →
      (∀ t ∈ s.tilesOut, t.id < u → s.tileWin t = w → ∀ k ∈ t.takes, k.1 ≠ n) →
      exec .tringEffect s = .next ({ s with ops := tdel s.ops u }.setRing w n base lines)) ∧
    (∀ c, s.engine u = [c] → s.cmdReady c = (true, s) → c.started = false →
      (∀ o, c.cancel = true → c.fail = none → c.op = some o →
        exec .engineCommandStart s = .next
          ((s.modEngine u fun cs => cs.filter fun x => x.id != c.id).opDone o (statusWord false true c.written))) ∧
      (∀ ds t, c.cancel = false → c.heldAt = none → s.cmdDescs u c = (.run ds, t) →
        exec .engineCommandStart s = .next (t.modCmd u c.id fun x =>
          { x with started := true, todo := ds.filter fun d => d.total != 0 })) ∧
      (∀ cause sub a t, c.cancel = false → c.heldAt = none → s.cmdDescs u c = (.fail cause sub a, t) →
        exec .engineCommandStart s = .next ((t.modCmd u c.id fun x => { x with started := true }).cmdFail u c.id cause sub a))) ∧
    (∀ id c ds d r, s.cmd u id = some c → c.what = .plain ds → c.started = true → c.heldAt = none → c.fail = none →
      c.cancel = false → c.todo = d :: r →
      (c.moved = false → c.txPort = none → c.buf = none → isEdge (vaHome (d.at c.index).2) = false →
        (c.mayWrite (d.at c.index).2 = false →
          exec (.engineElementTransfer id) s = .next (s.cmdFail u c.id 7 7 (d.at c.index).2)) ∧
        (∀ b tag t t2, c.mayWrite (d.at c.index).2 = true →
          s.engRead u c (loadWants (d.at c.index).1 (2 ^ d.elog2) (2 ^ d.elog2) .load) [] = (.got b tag false, t) →
          let t1 := t.modCmd u c.id fun x => { x with buf := some (b, tag, false) }
          let y : CopyCmd := { c with buf := some (b, tag, false) }
          let whole : Bool := 2 ^ d.elog2 == 64 && (d.at c.index).1.toNat % 64 == 0 && (d.at c.index).2.toNat % 64 == 0
          (c.part = 0 → y.pieces = storeWants (d.at c.index).2 (2 ^ d.elog2) (b.map some) (if whole then some tag else none)) ∧
          (t1.engWrite u c false y.pieces = (none, t2) →
            exec (.engineElementTransfer id) s = .next (t2.modCmd u c.id CopyCmd.step)))) ∧
      (∀ o, c.moved = true → c.txPort = none → d.radv = none → c.op = some o →
        exec (.engineCommandComplete id) s = .next
          ((s.modEngine u fun cs => cs.filter fun x => x.id != c.id).opDone o
            (statusWord false false (c.bytes + c.part))))) ∧
    (∀ o, tget s.ops u = some o → o.st = .issued → s.opLane u o = true → s.gateClear o.gate = true →
      o.drained = true →
      (∀ mbox nowait payload len user w m k tb fill, o.kind = .send mbox nowait payload len user → s.sendBehind u o mbox = false →
        mboxOf mbox = some (w, m) →
        let image := s.slotFor o len user payload
        (s.modOp u fun q => { q with kind := .msg mbox nowait image len 0#16 }).route (Req.hart mbox 8 .store o.ctx)
          (siteOfHome o.cluster) = .at k tb fill →
        (cRoom (s.conf w m) = true → (∀ q ∈ (s.window w).sends, q.1 ≠ m) →
          exec .mailboxDelivery s = .next ((s.deliver w m image 0#16).opDone u (statusWord false false len))) ∧
        (cRoom (s.conf w m) = false → nowait = true → exec .mailboxDelivery s = .next (s.opFail u 61 17 0 mbox)) ∧
        (cRoom (s.conf w m) = false → nowait = false →
          exec .mailboxDelivery s = .next (s.waitSend u w m image mbox nowait len 0#16))) ∧
      (∀ notice kreg bs t k tb fill, o.kind = .kick notice kreg → s.opRead u o (linePieces notice 2 32) [] = (.got bs false, t) →
        t.route (Req.hart kreg 32 .store o.ctx) (siteOfHome o.cluster) = .at k tb fill →
        let w := vaHome kreg * 96 + vaOff kreg / 2 ^ 20
        ((t.window w).notices.length < 16 → (t.window w).kicks = [] →
          exec .kickArrival s = .next
            ((t.modWindow w fun y => { y with notices := y.notices ++ [⟨bs, u⟩] }).modOp u fun q => { q with st := .waiting })) ∧
        (16 ≤ (t.window w).notices.length →
          exec .kickArrival s = .next
            ((t.modWindow w fun y => { y with kicks := y.kicks ++ [⟨bs, u⟩] }).modOp u fun q => { q with st := .waiting })))) ∧
    (∀ mb o p mbox nowait image len tag, ((s.window u).sends.find? fun q => q.1 == mb) = some (mb, o) → cRoom (s.conf u mb) = true →
      tget s.ops o = some p → p.kind = .msg mbox nowait image len tag →
      exec (.waitingSendEnter mb) s = .next (((s.unwaitSend u o).deliver u mb image tag).opDone o (statusWord false false len))) ∧
    (∀ cl pc n rest p, s.gran u 16 = .core cl pc → (s.window u).notices = n :: rest →
      s.engineRoom (4 * cl + winNum u / 24) = true → tget s.ops n.op = some p →
      exec .noticeAccept s = .next
        ((({ s with nextId := s.nextId + 1 } : State).modWindow u fun y =>
          { y with notices := rest ++ y.kicks.take 1, kicks := y.kicks.drop 1 }).modEngine (4 * cl + winNum u / 24) fun cs =>
            cs ++ [newCmd s.nextId (.notice u n.bytes) p.ctx cl (winHome u) p.tag p.nodl (some n.op) .none s.ncyc]))

/-- R254, R287, R292 to R294, R299, R303, R425 to R427: a scheduler core takes the packet at its queue's head once its checks pass and does
its work: a grid, a pipeline or a graph is launched, or refused; a copy goes to its engine; a signal or a write changes its word; a WAITSIG
finishes or watches its line, and is tested again on a write there; an IB's packets follow; a fault of the checks halts the queue with its
SUB; a launch instruction's packet enters its device queue; and a finished packet's counters rise. -/
def Obligations.PacketEvents : Prop :=
  ∀ (s : State) (k : Nat) (parent : Option Nat) (bs : List Byte),
    let q := s.subj
    let c := s.qCtx q
    let pk := (s.takePacket q parent bs).1
    let t := (s.takePacket q parent bs).2
    (s.qServer q = some k → s.headPacket q = .pk parent bs → s.headFirst k q = true →
      (∀ sub saw, s.checkPacket c parent.isSome (packetWork bs) = .fault sub saw → ∀ i ∈ [Instr.nop, .launchg, .launchp, .graph, .copy,
          .signalWrite, .signalAdd, .signalMax, .waitsig, .write, .ib], exec i s = .next ((s.sawAt saw).capFault q k sub)) ∧
      (s.checkPacket c parent.isSome (packetWork bs) = .pass →
        (packetWork bs = .nop → exec .nop s = .next (t.finishFor (.packet pk))) ∧
        (∀ r own, packetWork bs = .launch r own → s.deviceLaunch q = none →
          (∀ l h, s.readLaunch c (own.getD c.asid) r false = .ready l h →
            exec .launchg s = .next ((t.launchSpend c r l.khdr).newGrid (own.getD c.asid) r l h (.packet pk) k).2) ∧
          (∀ sub, s.readLaunch c (own.getD c.asid) r false = .refused sub →
            exec .launchg s = .next ((t.refuseLaunch (own.getD c.asid) r k sub).refuseFor (.packet pk)))) ∧
        (∀ r rounds st, packetWork bs = .pipe r → s.readPipe c r = .ready rounds st →
          exec .launchp s = .next (t.startPipe c.asid k r rounds st (.packet pk))) ∧
        (∀ table n, packetWork bs = .graph table n → (∀ i, i < n → s.unreached c .store (nodeVa table i) 64 = false) →
          let first := (List.range n).filter fun i => s.predsOf c table i == 0
          let u := (List.range n).foldl (fun (v : State) i => v.putCount c table i (v.predsOf c table i)) { t with nextId := t.nextId + 1 }
          (first = [] → exec .graph s = .next (u.finishFor (.packet pk))) ∧
          (first ≠ [] → exec .graph s = .next { u with
            graphs := tset u.graphs t.nextId ⟨pk, table, n, first.map fun i => (i, NodeSt.launched), false⟩ })) ∧
        (∀ d hd p, packetWork bs = .copy d → s.readBytes c d 16 = .got hd →
          s.engineRoom (copyEngine k (BitVec.ofNat 64 (natOfBytes (hd.drop 8)))) = true → tget t.packets pk = some p →
          exec .copy s = .next
            (t.giveCopy (copyEngine k (BitVec.ofNat 64 (natOfBytes (hd.drop 8)))) c d p.tag p.nodl (.packet pk))) ∧
        (∀ op va v key, packetWork bs = .signal op va v → s.unreached c .bank va 8 = false → t.unitKey c .bank va 8 = .ok key →
          let out (new : Nat) : Host.Outcome State Fault Refusal :=
            .next ((((t.unitSpend c .bank va 8).putNat key 8 new).wakeLatch key).finishFor (.packet pk))
          (op = 0 → exec .signalWrite s = out v.toNat) ∧
          (op = 1 → exec .signalAdd s = out ((t.natAt key 8 + v.toNat) % 2 ^ 64)) ∧
          (op = 2 → exec .signalMax s =
            out (if (BitVec.ofNat 64 (t.natAt key 8)).toInt ≤ v.toInt then v.toNat else t.natAt key 8))) ∧
        (∀ cmp va v key, packetWork bs = .wait cmp va v → s.unreached c .load va 8 = false → t.unitKey c .load va 8 = .ok key →
          let r := t.unitSpend c .load va 8
          (cmpHolds cmp (BitVec.ofNat 64 (t.natAt key 8)) v = true → exec .waitsig s = .next (r.finishFor (.packet pk))) ∧
          (∀ p, cmpHolds cmp (BitVec.ofNat 64 (t.natAt key 8)) v = false → tget r.packets pk = some p →
            exec .waitsig s = .next
              (({ r with
                nextId := r.nextId + 1
                watches := tset r.watches r.nextId ⟨va, key / 64, c.asid, some pk, none, false⟩ } : State).modQueue p.queue fun x =>
                  { x with block := some pk }))) ∧
        (∀ lg va v key, packetWork bs = .write lg va v → s.unreached c .store va (2 ^ lg) = false →
          t.unitKey c .store va (2 ^ lg) = .ok key →
          exec .write s = .next
            ((((t.unitSpend c .store va (2 ^ lg)).putNat key (2 ^ lg) v.toNat).wakeLatch key).finishFor (.packet pk))) ∧
        (∀ va n, packetWork bs = .ib va n → exec .ib s = .next t))) ∧
    (∀ p, tget s.packets q = some p → s.qServer p.queue = some k → p.complete = true →
      s.gateClear (p.gate.getD (s.coreGate k (bitsOf (natOfBytes p.bytes) 9 1 == 1))) = true →
      let cq := s.qCtx p.queue
      let csig := BitVec.ofNat 64 (bitsOf (natOfBytes p.bytes) 64 64)
      let qsig := if p.parent.isSome then 0#64 else BitVec.ofNat 64 (s.qfieldD p.queue 320 64)
      (csig ≠ 0#64 → s.unreached cq .bank csig 8 = false) → (qsig ≠ 0#64 → s.unreached cq .bank qsig 8 = false) →
      let s1 := (s.addCsig cq k csig).addCsig cq k qsig
      let s3 := ({ s1 with packets := tdel s1.packets q } : State).modQueue p.queue fun x =>
        { x with block := if x.block = some q then none else x.block }
      (∀ i, p.parent = some i →
        exec .packetComplete s = .next { s3 with packets := tmod s3.packets i fun x => { x with ibOpen := x.ibOpen - 1 } }) ∧
      (p.parent = none →
        let s4 := s3.qput p.queue 288 32 (s3.qfieldD p.queue 288 32 + 1)
        let s5 := if !p.nodl && !p.failed && tagEarlier p.tag.toNat s.tagNow then
          s4.qput p.queue 256 32 (s4.qfieldD p.queue 256 32 + 1) else s4
        (∀ i, i < nSlots → (s5.slot i).queue ≠ some p.queue) → exec .packetComplete s = .next s5)) ∧
    (∀ o r i rb key, tget s.ops q = some o → o.st = .issued → s.gateClear o.gate = true → o.drained = true → o.kind = .launch r i →
      s.opLane q o = true →
      let dq := 4096 + 16 * o.cluster + i
      let wr := s.qfieldD dq 96 32
      let va := addrPlus (BitVec.ofNat 64 (s.qfieldD dq 0 64)) (64 * (wr % 2 ^ s.qfieldD dq 128 5))
      s.qServer dq = some k → tget s.mod.downs o.ctx.asid.toNat ≠ some s.ncyc → s.qtValid = true →
      s.readBytes (schedCtx 0#16) (s.qtVa (64 * dq)) 64 = .got rb → s.queueBad dq = false →
      let n := (wr + 2 ^ 32 - s.qfieldD dq 64 32) % 2 ^ 32
      n < 2 ^ s.qfieldD dq 128 5 → s.unitKey (s.qCtx dq) .store va 64 = .ok key →
      let t1 := ((s.putNat key 64 (1 + 2 ^ 128 * r.toNat + 2 ^ 192 * o.ctx.asid.toNat + 2 ^ 208)).qput dq 96 32 (wr + 1)).modQueue dq
        fun x => { x with launches := x.launches ++ [q], headSince := if n = 0 then s.ncyc else x.headSince }
      let t2 := if t1.qfieldD dq 200 1 = 0 ∨ t1.qfieldD dq 202 1 = 1 then t1.qput dq 201 1 1 else t1
      exec .deviceLaunchEnqueue s = .next (t2.modOp q fun x => { x with st := .waiting, since := s.ncyc })) ∧
    (∀ w i p cmp va v n, tget s.watches q = some w → w.noticed = true → w.pk = some i → tget s.packets i = some p →
      packetWork p.bytes = .wait cmp va v → s.unitRead (s.qCtx p.queue) w.va 8 = .ok n →
      (cmpHolds cmp (BitVec.ofNat 64 n) v = true →
        exec .watchedLineNotice s = .next
          (({ s with watches := tdel s.watches q }.finishFor (.packet i)).unitSpend (s.qCtx p.queue) .load w.va 8)) ∧
      (cmpHolds cmp (BitVec.ofNat 64 n) v = false →
        exec .watchedLineNotice s = .next
          (({ s with watches := tmod s.watches q fun x => { x with noticed := false } } : State).unitSpend (s.qCtx p.queue) .load w.va 8)))

/-- R296 to R299, R308, R426, R427: a launched node whose checks pass does its work: a kernel, a pipeline, a copy, a signal, a wait, a
host-ring entry, a join at once, and a COND that re-arms its range or leaves by its exit; a fault of its checks stops the graph; a
finished node counts down its successors; a coalescing timer sends its ring's vector; and a cut stops a job's blocks until all of
them are away. -/
def Obligations.NodeEvents : Prop :=
  ∀ (s : State) (g : GraphRun) (p : Packet) (k i : Nat) (c : Ctx) (bs : List Byte),
    let gi := s.subj
    let w := nodeWork bs
    let works := (s.unitSpend c .load (nodeVa g.table i) 64).modGraph gi fun x => { x with nodes := tset x.nodes i .working }
    let me : GridFor := .node gi i
    (tget s.graphs gi = some g → s.graphCtx g = some (p, k, c) →
      (tget g.nodes i = some .launched →
        (∀ sub saw, s.checkNode c g.table g.nnodes i = .fault sub saw → ∀ e ∈ [Instr.kern i, .pipe i, .copyNode i, .cond i, .signalNode i,
            .hring i, .wait i, .join i], exec e s = .next ((s.sawAt saw).graphFault gi p.queue k sub)) ∧
        (s.checkNode c g.table g.nnodes i = .pass → s.readBytes c (nodeVa g.table i) 64 = .got bs →
          (∀ r own, w = .launch r own →
            (∀ l h, s.readLaunch c c.asid r false = .ready l h → exec (.kern i) s = .next ((works.launchSpend c r l.khdr).newGrid c.asid r l h me k).2) ∧
            (∀ sub, s.readLaunch c c.asid r false = .refused sub →
              exec (.kern i) s = .next ((works.refuseLaunch c.asid r k sub).finishFor me))) ∧
          (∀ r rounds st, w = .pipe r → s.readPipe c r = .ready rounds st →
            exec (.pipe i) s = .next (works.startPipe c.asid k r rounds st me)) ∧
          (∀ d hd, w = .copy d → s.readBytes c d 16 = .got hd →
            s.engineRoom (copyEngine k (BitVec.ofNat 64 (natOfBytes (hd.drop 8)))) = true →
            exec (.copyNode i) s = .next
              (works.giveCopy (copyEngine k (BitVec.ofNat 64 (natOfBytes (hd.drop 8)))) c d p.tag p.nodl me)) ∧
          (∀ op va v key, w = .signal op va v → s.unreached c .bank va 8 = false → works.unitKey c .bank va 8 = .ok key →
            exec (.signalNode i) s = .next
              ((((works.unitSpend c .bank va 8).putNat key 8 (signalNew op (works.natAt key 8) v.toNat)).wakeLatch key).finishFor me)) ∧
          (∀ cmp va v key, w = .wait cmp va v → s.unreached c .load va 8 = false → works.unitKey c .load va 8 = .ok key →
            let r := works.unitSpend c .load va 8
            (cmpHolds cmp (BitVec.ofNat 64 (works.natAt key 8)) v = true → exec (.wait i) s = .next (r.finishFor me)) ∧
            (cmpHolds cmp (BitVec.ofNat 64 (works.natAt key 8)) v = false →
              exec (.wait i) s = .next { r with
                nextId := r.nextId + 1
                watches := tset r.watches r.nextId ⟨va, key / 64, c.asid, none, some (gi, i), false⟩ })) ∧
          (w = .nop → exec (.join i) s = .next (works.finishFor me)) ∧
          (∀ rd src flush key, w = .hring rd src flush → s.unitKey c .store rd 64 = .ok key → s.hringBusy key = false →
            let h := hringOf (s.natAt key 64)
            ((h.wr + 2 ^ 32 - h.rd) % 2 ^ 32 = 2 ^ h.log →
              exec (.hring i) s = .next { works with
                nextId := works.nextId + 1
                watches := tset works.watches works.nextId ⟨rd, key / 64, c.asid, none, some (gi, i), false⟩ }) ∧
            (∀ b dk, (h.wr + 2 ^ 32 - h.rd) % 2 ^ 32 ≠ 2 ^ h.log → s.readBytes c src 24 = .got b →
              s.unitKey c .store (addrPlus h.base (32 * (h.wr % 2 ^ h.log))) 32 = .ok dk →
              let t := (((works.unitSpend c .load rd 64).unitSpend c .load src 24).unitSpend c .store
                (addrPlus h.base (32 * (h.wr % 2 ^ h.log))) 32).putMem dk ((b ++ bytesOfNat 8 (h.wr + 1)).map some)
              let gate := t.coreGate k true
              (t.gateClear gate = true → exec (.hring i) s = .next (t.hringRaise gi i c rd flush key)) ∧
              (t.gateClear gate = false →
                exec (.hring i) s = .next ((t.drain gate).modGraph gi fun x => { x with nodes := tset x.nodes i (.publishing key gate) })))) ∧
          (∀ cmp va v first last exit key, w = .cond cmp va v first last exit → s.unitKey c .load va 8 = .ok key →
            (∀ n ∈ g.nodes, first ≤ n.1 → n.1 ≤ last → n.1 = i) →
            (∀ j, j < g.nnodes → first ≤ j → j ≤ last → s.unreached c .store (nodeVa g.table j) 8 = false) →
            let t := (s.unitSpend c .load va 8).modGraph gi fun x => { x with nodes := tdel x.nodes i }
            (cmpHolds cmp (BitVec.ofNat 64 (s.natAt key 8)) v = true → first < g.nnodes →
              exec (.cond i) s = .next
                ((((((List.range g.nnodes).filter fun j => decide (first ≤ j) && decide (j ≤ last)).foldl
                  (fun (u : State) j => u.putCount c g.table j (u.predsOf c g.table j)) t)).modGraph gi fun x =>
                    { x with nodes := tset x.nodes first .launched }).graphEnd gi)) ∧
            (cmpHolds cmp (BitVec.ofNat 64 (s.natAt key 8)) v = false → exit < g.nnodes →
              s.unreached c .store (nodeVa g.table exit) 8 = false →
              exec (.cond i) s = .next ((t.decNode gi c g.table exit).graphEnd gi))))) ∧
      (∀ key gate rd src flush, tget g.nodes i = some (.publishing key gate) → s.gateClear gate = true →
        s.readBytes c (nodeVa g.table i) 64 = .got bs → w = .hring rd src flush →
        let h := hringOf (s.natAt key 64)
        let pend := (h.pend + 1) % 2 ^ 32
        let t := (s.putNat (key + 8) 4 (h.wr + 1)).putNat (key + 24) 4 pend
        h.coalt = 0 → exec (.hring i) s = .next
          ((if max 1 h.coaln ≤ pend ∨ (flush = true ∧ 0 < pend) then t.hringIrq key rd c.asid else t).finishFor me)) ∧
      (tget g.nodes i = some .finished → s.gateClear (s.coreGate k false) = false →
        exec (.nodeFinish i) s = .next
          ((s.drain (s.coreGate k false)).modGraph gi fun x => { x with nodes := tset x.nodes i (.releasing (s.coreGate k false)) })) ∧
      (tget g.nodes i = some .finished → s.gateClear (s.coreGate k false) = true → g.failed = false → s.readBytes c (nodeVa g.table i) 64 = .got bs →
        (∀ x ∈ nodeSuccs bs, x < g.nnodes → s.unreached c .store (nodeVa g.table x) 8 = false) →
        exec (.nodeFinish i) s = .next
          (((((nodeSuccs bs).filter fun x => decide (x < g.nnodes)).foldl (fun (t : State) x => t.decNode gi c g.table x)
            (s.modGraph gi fun x => { x with nodes := tdel x.nodes i }))).graphEnd gi))) ∧
    (∀ t key, tget s.timers gi = some t → t.due ≤ s.ncyc → s.unitKey (schedCtx t.asid) .store t.rdesc 64 = .ok key →
      ((hringOf (s.natAt key 64)).pend = 0 → exec .hringCoalesceTimer s = .next { s with timers := tdel s.timers gi }) ∧
      ((hringOf (s.natAt key 64)).pend ≠ 0 → exec .hringCoalesceTimer s = .next (s.hringIrq key t.rdesc t.asid))) ∧
    (∀ gr pk, tget s.grids gi = some gr → gr.done = .packet pk →
      (tget s.cuts gi = none → gr.ended < gr.launch.bpg →
        exec .consistentCut s = .next ({ s with cuts := tset s.cuts gi ⟨some gi, none, []⟩ }.cutGrid gr)) ∧
      (∀ cu, tget s.cuts gi = some cu → (∀ b ∈ gr.blocks, ∀ x, tget s.blocks b = some x → blockStopped x = true) →
        exec .consistentCut s = .next { s with cuts := tdel s.cuts gi }))

/-- R26, R287, R289 to R291, R314, R315, R320 to R324, R426: a queue is mapped into a free slot, is unmapped in two steps, and a write to
its slot sets its write index; QCTL lets a halted queue go on; a slot sends the interrupt it owes; the duty, queue-table and next-step
registers take what is written until they are locked; a host's register writes reach the edge chiplet, its port, a home, or in recovery mode the recovery window; a host
command swaps a reported block or leaves it parked; a request to migrate a page is posted or its transfer begins, and the transfer
rewrites the page's leaf; a posting enters the host ring; and the apertures read and write. -/
def Obligations.HostEvents : Prop :=
  ∀ (s : State) (w : Word) (n slot : Nat),
    let q := s.subj
    (s.recordReady q = true → (s.slot slot).queue = none → s.qfieldD q 200 1 = 0 → s.qfieldD q 202 1 = 0 →
      (s.duty 2 = true ∨ s.mapFirst q = true) →
      let t := ((s.modSlot slot fun x => x.bind q).qput q 200 1 1).qput q 192 8 slot
      (s.qfieldD q 201 1 = 0 → s.hasPackets q = false → exec (.mapQueue slot) s = .next t) ∧
      ((s.qfieldD q 201 1 = 1 ∨ s.hasPackets q = true) → exec (.mapQueue slot) s = .next ((t.qput q 201 1 0).wakeOwner q))) ∧
    (s.recordReady q = true → s.qfieldD q 200 1 = 1 →
      let i := s.qfieldD q 192 8
      (s.qfieldD q 202 1 = 0 → s.duty 2 = true → (s.slot i).queue = some q →
        exec .unmapQueue s = .next ((s.modSlot i fun x =>
          if x.queue = some q then { x with queue := none, leaving := some (q, none) } else x).qput q 202 1 1)) ∧
      (s.qfieldD q 202 1 = 1 → (s.slot i).leaving = some (q, none) →
        exec .unmapQueue s = .next (((s.modSlot i fun x =>
          if x.leaving = some (q, none) then { x with leaving := some (q, some s.ncyc) } else x).qput q 200 1 0).qput q 202 1 0))) ∧
    (∀ k, (s.slot q).queue = some k → s.recordReady k = true →
      let t := ((s.qput k 96 32 n).wakeOwner k).modQueue k fun x => { x with headSince := if s.hasPackets k then x.headSince else s.ncyc }
      t.qfieldD k 202 1 = 0 → t.qfieldD k 200 1 = 1 → exec (.widxWrite n) s = .next t) ∧
    ((s.slot q).queue = none → (s.slot q).leaving = none → exec (.widxWrite n) s = .next s) ∧
    (s.recordReady n = true → (s.queue n).halted = true → s.ownsQueue q n = true →
      let t := s.modQueue n fun x => { x with halted := false }
      exec (.qctlRecheck n) s = .next t ∧
      (s.openBuffer n = none → exec (.qctlSkip n) s = .next
        ((t.qput n 64 32 (s.qfieldD n 64 32 + 1)).modQueue n fun x => { x with launches := x.launches.drop 1 }))) ∧
    (∀ t, (s.slot q).en = true → (s.slot q).owed = true → (s.slot q).last = some t → t + usN ≤ s.ncyc →
      let u := s.modSlot q fun y => { y with last := some s.ncyc, owed := false }
      exec .doorbellInterrupt s = .next { u with irqs := u.irqs ++ [(q / 64, (s.slot q).vec)] }) ∧
    (s.edgeFree q = true →
      (s.mod.mdutyLock = false →
        let t := s.modMod fun m => { m with mduty := bitsOf w.toNat 0 5, mdutyLock := w.getLsbD 31 }
        exec (.mdutyWrite w) s = .next (if w.getLsbD 31 then t.measure5 0 else t)) ∧
      (s.mod.mdutyLock = true → exec (.mdutyWrite w) s = .next s) ∧
      (s.qtLocked = true → exec (.qtbaseWrite w) s = .next s) ∧
      (s.qtLocked = false → w.getLsbD 0 = false →
        exec (.qtbaseWrite w) s = .next (s.modMod fun m => { m with qtbase := w &&& 0xFFFFFFFFFFF00001#64 })) ∧
      (bitsOf s.mod.nstidx.toNat 0 10 < 592 → exec (.nstdataWrite w) s = .next
        { s with nst := tset s.nst (1024 * bitsOf s.mod.nstidx.toNat 0 10 + bitsOf s.mod.nstidx.toNat 32 10) (w.getLsbD 0) })) ∧
    (n % 8 = 0 →
      (isEdge q = true → s.edgeUp = true → n < 0x20000 → exec (.registerWrite n w) s = .next (s.edgeWrite (q - 0x240) n w)) ∧
      (isHost q = true → s.boot.recovery = false → s.frozen = none → s.edgeUp = true → s.hostBehind (q - 0x3F0) = false →
        let t : State := { s with subj := q - 0x3F0 }
        (s.hostUp = true → n < bar2At → exec (.registerWrite n w) s = .next (t.bar0Write (q - 0x3F0) n w)) ∧
        (bar2At ≤ n → n < 2 * bar2At →
          exec (.registerWrite n w) s = .next (t.edgeWrite ((n - bar2At) / 0x20000) ((n - bar2At) % 0x20000) w))) ∧
      (isHost q = true → s.boot.recovery = true → q - 0x3F0 = s.bootingEdge / 4 → bar2At ≤ n → n < 2 * bar2At →
        exec (.registerWrite n w) s = .next (({ s with subj := q - 0x3F0 } : State).recWrite (n - bar2At) w)) ∧
      ((isCC q || isMC q) = true → n < 0x100000 → exec (.registerWrite n w) s = .next (s.ctlWrite q n w false))) ∧
    (∀ b g c blk gr grp, s.edgeFree q = true → s.mod.reports = [(b, g, c)] → tget s.blocks b = some blk → tget s.grids blk.grid = some gr →
      tget s.groups g = some grp → blk.status = .placed → grp.parked = true → blk.index = bitsOf w.toNat 11 24 →
      gr.serial = bitsOf w.toNat 35 29 →
      let t := s.modMod fun m => { m with reports := [] }
      (bitsOf w.toNat 0 4 = 1 → exec (.hscmdSwap w) s = .next (t.modBlock b fun x => { x with swapCmd := true, hostSwap := true })) ∧
      (bitsOf w.toNat 0 4 = 2 → exec (.hscmdLeave w) s = .next
        (t.modGroup g fun x => { x with expired := false, parkedSince := s.ncyc }))) ∧
    (s.edgeFree q = true →
      let t := s.modMod fun m => { m with pgreq := tset m.pgreq 3 w }
      let d (i : Nat) : Nat := (tgetD t.mod.pgreq i 0#64).toNat
      let out (o : Host.Outcome State Fault Refusal) (dev : Bool) : Prop :=
        (s.duty 3 = true → o = .next (t.post 3 (serviceCluster (vaHome (BitVec.ofNat 64 (d 0))))
          (bytesOfNat 8 (d 0) ++ bytesOfNat 8 (d 1) ++ bytesOfNat 8 (d 2) ++ bytesOfNat 8 (d 3)))) ∧
        (s.duty 3 = false → ∃ m : PgMig, o = .next { t with nextId := t.nextId + 1, pgMigs := tset t.pgMigs t.nextId m } ∧
          m.va = BitVec.ofNat 64 (d 0) ∧ m.toDevice = dev ∧ m.frame = bitsOf (d 2) 8 30 ∧ m.step = 0)
      (bitsOf (tgetD s.mod.pgreq 2 0#64).toNat 42 1 = 0 → out (exec (.pgreqToHost w) s) false) ∧
      (bitsOf (tgetD s.mod.pgreq 2 0#64).toNat 42 1 = 1 → out (exec (.pgreqToDevice w) s) true)) ∧
    (∀ m, tget s.pgMigs q = some m → s.coreServes (serviceCluster (vaHome m.va)) = true →
      (m.step ≠ 0 → s.gateClear m.gate = true → exec .pageMigration s = .next (s.pgDone q m 0)) ∧
      (∀ p e log, m.step = 0 → (isCC (vaHome m.va) || isMC (vaHome m.va)) = true → s.homeValid (vaHome m.va) = true →
        inWindowSpace m.va = false → vaOff m.va < ctlBase → s.leafAt (vaHome m.va) m.asid (vaOff m.va) = .leaf p e log →
        m.move = false →
        let home := vaHome m.va
        let t := (s.putNat (dramKey (nearMc home) p) 8 (putBits e.toNat 7 1 (b2n (!m.toDevice)))).dropLeaf home m.asid (vaOff m.va) log
        (bitsOf e.toNat 7 1 = 1 → m.toDevice = true →
          exec .pageMigration s = .next
            ((t.hmissDone home (BitVec.ofNat 64 (2 ^ 16 * bitsOf (vaOff m.va) 16 31 + 2 ^ 48 * m.asid.toNat))).pgDone q m 0)) ∧
        (bitsOf e.toNat 7 1 = 0 → m.toDevice = false →
          let gate := (t.pb.filter fun x => x.2.cluster == serviceCluster home && x.2.live).map Prod.fst
          let u := t.drain gate
          exec .pageMigration s = .next { u with pgMigs := tset u.pgMigs q { m with step := 1, gate := gate } }))) ∧
    (∀ p rest, s.mod.postings = p :: rest → s.hsRoom = true →
      let k := s.mod.hswr
      let bytes := bytesOfNat 4 p.kind ++ bytesOfNat 2 p.src ++ List.replicate 10 0#8 ++ (p.body ++ List.replicate 32 0#8).take 32
        ++ List.replicate 8 0#8 ++ bytesOfNat 8 (k + 1)
      let t := (s.unitSend (schedCtx 0#16) (addrPlus s.mod.hsbase (64 * (k % 2 ^ s.hsLog))) (.store (bytes.map some) none)).modMod fun m =>
        { m with hswr := (k + 1) % 2 ^ 32, postings := rest }
      exec .hsPost s = .next (if t.hsFree then t.hsSend else t.modMod fun m => { m with hsOwed := true })) ∧
    (s.mod.hsOwed = true → s.hsFree = true → isHost (vaHome s.mod.hsbase) = true →
      let t := s.modMod fun m => { m with hsLast := some s.ncyc, hsOwed := false }
      exec .hsInterrupt s = .next
        { t with irqs := t.irqs ++ [(vaHome s.mod.hsbase - 0x3F0, bitsOf s.mod.hsctl 16 11)] }) ∧
    (∀ off wr data, s.apersUp = true → s.hostBehind q = false →
      let a := s.aper q n
      (∀ x pl k f, aperMode a = some 0 → hostCut (BitVec.ofNat 64 (2 ^ 32 * aperBase a + off)) data = [x] →
        let r := hostReq x.1 x.2.length wr (a.extractLsb' 16 16)
        s.route r (576 + 4 * q) = .at pl k f →
        (wr = true → exec (.apertureVirtual n off wr data) s = .next (s.performAt pl f r (.store (x.2.map some) none) none false).2) ∧
        (∀ b g z t, wr = false → (∀ e ∈ s.held, e.who ≠ .hostRd q) → s.responds (576 + 4 * q) x.1 = true → s.performAt pl f r (.load x.2.length) none false = (.data b g z, t) →
          exec (.apertureVirtual n off wr data) s = .next (t.hostSay q (.data b z)))) ∧
      (aperMode a = some 1 →
        let home := bitsOf (aperBase a) 15 10
        let at_ := (2 ^ 32 * bitsOf (aperBase a) 0 15 + off) % 2 ^ 48
        let k := dramKey (home - 0x180) at_
        (isMC home = true → at_ + data.length ≤ s.dramBytes →
          (wr = true → exec (.aperturePhysical n off wr data) s = .next (s.putMem k (data.map some))) ∧
          (wr = false → exec (.aperturePhysical n off wr data) s = .next
            (s.hostSay q (.data (s.bytesAt k data.length) (s.poisoned k data.length))))) ∧
        (isMC home = false → exec (.aperturePhysical n off wr data) s = .next (s.hostRefuse q wr))) ∧
      (aperMode a = some 2 → n < 16 →
        let home := bitsOf (aperBase a) 0 10
        (isCC home || isMC home) = true → off % 8 = 0 → data.length = 8 → off + 8 ≤ 0x100000 →
        (wr = true → exec (.apertureControl n off wr data) s = .next (s.ctlWrite home off (BitVec.ofNat 64 (natOfBytes data)) true)) ∧
        (wr = false → exec (.apertureControl n off wr data) s = .next
          (s.hostSay q (.data (bytesOfNat 8 (s.ctlRead home off)) false)))))

/-- R24, R283, R284, R286, R325 to R327, R334, R335, R394, R397 to R401, R423, R428 to R434, R444: the edge chiplets' and firmware's work
goes on. A complete frame leaves its port with its check sequence, a received one is dropped and counted or enters its slot and is
announced; the reservation table is written and copied, a bucket is refilled and a request ages; a power manager takes one step;
an attestation report begins and ends; vector 0 is sent; a link's replays within 1 ms are counted, a link or all the links of a chiplet die, a notice arrives, an interface
turns to its other mesh, and a lost request fails; a scrubbing pass clears its bank's filter; a scheduler core beats, is watched,
adopted or fenced; a context is torn down; and a fatal error freezes the part. -/
def Obligations.EdgeEvents : Prop :=
  ∀ (s : State) (w : Word) (frame : List Byte) (n : Nat),
    let p := s.subj
    (∀ e id, s.frameEngine p frame = some (e, id) →
      exec (.ethTransmit frame) s = .next ((s.modCmd e id fun c => { c with sent := true }).modEth p fun x =>
        { x with txcnt := (x.txcnt + 1) % 2 ^ 32, sent := x.sent ++ [frame ++ fcs frame] })) ∧
    (let x := s.eth p
      let body := frame.take (frame.length - 4)
      let good := 64 ≤ frame.length ∧ frame.drop (frame.length - 4) = fcs body ∧ x.used < 2 ^ x.log2n
      x.en = true → 1 ≤ x.log2n → x.log2n ≤ 16 →
        (¬ good → exec (.ethReceive frame) s = .next (s.modEth p fun y => { y with drops := (y.drops + 1) % 2 ^ 32 })) ∧
        (good →
          let k := x.rxcnt % 2 ^ x.log2n
          let ls := slotLines (addrPlus x.rxbase (16384 * k)) (s.nsAt (576 + p / 2)) body
          (∀ l ∈ ls, ∃ key, s.unitKey ethCtx .store l.1 l.2.length = .ok key) →
          exec (.ethReceive frame) s = .next (((ls.foldl (fun (t : State) l => match t.unitKey ethCtx .store l.1 l.2.length with
              | .ok key => (t.putMem key (l.2.map some)).setTag key 0#16
              | .error _ => t) s).modEth p fun y => { y with rxcnt := (y.rxcnt + 1) % 2 ^ 32, used := y.used + 1 }).announce x.rxq
            (BitVec.ofNat 64 (2 ^ 16 * k + body.length))))) ∧
    (s.edgeFree (p / 32) = true → exec (.rxretWrite n) s = .next (s.modEth (p % 32) fun y => { y with used := y.used - n })) ∧
    (s.edgeFree (p / 64) = true → exec (.reservationTableWrite w) s = .next
      (s.modMod fun m => { m with rtable := tset m.rtable (p % 64) (w &&& 0x0000FFFFFFFFFFFF#64) })) ∧
    exec .reservationTableCopy s = .next (s.modMod fun m => { m with rcopy := m.rtable }) ∧
    (let e := (tgetD s.mod.rcopy n 0#64).toNat
      let us := (s.ncyc - tgetD s.refilled (64 * p + n) 0) / usN
      exec (.tokenBucketRefill n) s = .next { s with
        buckets := tset s.buckets (64 * p + n) (min (bitsOf e 32 16) (tgetD s.buckets (64 * p + n) 0 + bitsOf e 0 32 * us))
        refilled := tset s.refilled (64 * p + n) (tgetD s.refilled (64 * p + n) 0 + us * usN) }) ∧
    (∀ t age, s.waitsSince p = some (t, age) → t + age ≤ s.ncyc → s.aged.contains p = false →
      exec .requestAgeing s = .next { s with aged := s.aged ++ [p] }) ∧
    (∃ t, exec (.powerThrottle n) s = .next t ∧ t.freeCtr = s.freeCtr + 3 ∧ (t.power p).fpwr = n ∧
      t.mod.mpwr = ((List.range 16).foldl (fun a e => a + (if e = p then n else (s.power e).fpwr)) 0) / 1000 ∧
      (1000 * (s.power p).fplim < n → (t.power p).pwr = true ∧
        (1 < (s.power p).plevel → (t.power p).plevel = (s.power p).plevel - 1 ∧ (t.power p).clevel = (s.power p).clevel) ∧
        ((s.power p).plevel ≤ 1 → 1 < (s.power p).clevel →
          (t.power p).plevel = (s.power p).plevel ∧ (t.power p).clevel = (s.power p).clevel - 1))) ∧
    (s.edgeFree p = true → s.mod.attBusy = false → ∃ t, exec .attctlGo s = .next t ∧ t.mod.attBusy = true ∧ t.mod.attDone = false ∧ t.mem = s.mem) ∧
    (s.mod.attBusy = true → exec .attctlGo s = .next s ∧
      ∃ sig, sig.length = 29792 ∧ exec .attestationDone s = .next (s.modMod fun m =>
        { m with report := m.attFrom ++ sig, attBusy := false, attDone := true })) ∧
    (0 < tgetD s.mod.v0Owed p 0 →
      let t := s.modMod fun m => { m with v0Owed := tset m.v0Owed p (tgetD m.v0Owed p 0 - 1) }
      exec .errorInterrupt s = .next { t with irqs := t.irqs ++ [(p, 0)] }) ∧
    (tgetD s.mod.v0Owed p 0 = 0 → s.mod.v0New.contains p = true → (∀ t, tget s.mod.v0Last p = some t → t + msN ≤ s.ncyc) →
      let t := s.modMod fun m => { m with v0New := m.v0New.filter fun q => q != p, v0Last := tset m.v0Last p s.ncyc }
      exec .errorInterrupt s = .next { t with irqs := t.irqs ++ [(p, 0)] }) ∧
    (let now := ((tgetD s.replays p []).filter fun t => decide (s.ncyc < t + msN)) ++ [s.ncyc];
      (now.length < 64 → exec .linkCrcError s = .next { s with replays := tset s.replays p now }) ∧
      (64 ≤ now.length → exec .linkCrcError s = .next (({ s with replays := tset s.replays p [] } : State).logLink 8 p 0))) ∧
    exec .linkDead s = .next ((deadOf p).foldl State.killLink s) ∧
    (p < 5760 → (∀ d ∈ s.deadLinks, d.link ≠ canonLink p) → exec .linkDead s = .next
      ((({ s with deadLinks := s.deadLinks ++ [⟨canonLink p, s.ncyc, [], []⟩] } : State).logLink 9 p 0).syncHealth false)) ∧
    (∀ i t, p = 5760 + i → i < 576 → exec .linkDead s = .next t →
      ∀ dir mesh, (dir = 4 ∨ ∃ m ∈ neighbours i, m.1 = dir) → mesh < 2 →
        t.deadLinks.any (fun d => d.link == canonLink (10 * i + 5 * mesh + dir)) = true) ∧
    (∀ d, s.deadLinks = [d] → d.link = canonLink n → tget d.noticed p = none →
      exec (.deathNotice n) s = .next { s with deadLinks := [{ d with noticed := tset d.noticed p s.ncyc }] }) ∧
    (∀ t, s.deadLinks ≠ [] → t = (List.range 1024).foldl (fun (u : State) h => u.turnEntry p h) s →
      exec .nstReroute s = .next ((List.range 1024).foldl (fun (u : State) h => u.noteUnreached p h) { t with
        deadLinks := t.deadLinks.map fun d => if d.rerouted.contains p then d else { d with rerouted := d.rerouted ++ [p] } })) ∧
    (∀ e, (s.lostOf p).find? (fun x => s.lossDue p x.time) = some e →
      exec .requestLossTimeout s = .next ((s.dropHeld e).answerHeld e (.fail 62 15 e.va))) ∧
    (exec (.scrubPatrol n) s = .next
      ((({ s with freeCtr := s.freeCtr + 1 } : State).scrubMany p n (bitsOf (Config.freeWord s.freeCtr).toNat 0 8)).modMc p fun y =>
        { y with bloom := tdel y.bloom n })) ∧
    ((s.cluster p).fenced = false → s.clusterLive p = true →
      exec .heartbeat s = .next (s.modCluster p fun x => { x with hbeat := (x.hbeat + 1) % 2 ^ 64 })) ∧
    (∀ k, (s.cluster p).adopter = none → s.clusterLive p = true → s.watcherOf p = some k →
      ((s.cluster p).hbeat ≠ (s.cluster p).watchSeen →
        exec .watcherRead s = .next (s.modCluster p fun x => { x with watchSeen := (s.cluster p).hbeat, watchSame := 1 })) ∧
      ((s.cluster p).hbeat = (s.cluster p).watchSeen →
        let t := s.modCluster p fun x => { x with watchSeen := (s.cluster p).hbeat, watchSame := (s.cluster p).watchSame + 1 }
        ((s.cluster p).watchSame < 2 → exec .watcherRead s = .next t) ∧
        (2 ≤ (s.cluster p).watchSame → exec .watcherRead s = .next (t.adopt p k)))) ∧
    exec .fenceWrite s = .next (s.modCluster p fun x => { x with fenced := true }) ∧
    (∀ k c, (s.clusters.find? fun x => x.2.tdGo == some (BitVec.ofNat 16 p)) = some (k, c) →
      (∀ o ∈ s.ops, ∀ r i, o.2.kind = .launch r i → o.2.ctx.asid.toNat ≠ p) →
      (∀ g ∈ s.grids, g.2.asid.toNat = p → g.2.ended = g.2.launch.bpg) →
      let t := (s.modMod fun m => { m with downs := tset m.downs p s.ncyc }).logRec 22 k p 0 0 1
      exec .ctxdown s = .next { t with
        clusters := t.clusters.map fun x => if x.2.tdGo = some (BitVec.ofNat 16 p) then (x.1, { x.2 with tdGo := none }) else x }) ∧
    (s.isFatal p = true → ∃ t, exec .fatalFreeze s = .next t ∧ t.frozen = some p ∧ t.modState = 13 ∧
      ∀ i, i < 592 → (t.site i).st = 13) ∧
    (s.isFatal p = false → exec .fatalFreeze s = .next s)

/-- R16, R328 to R333, R436 to R441: a module reset keeps the memories and forgets the rest; the booting edge runs an image that it has
verified, or enters recovery mode where it refuses both; the waves start, and the first to reach a dark site seeds it; a seeded site
locks, trains its links, is loaded and, once all are, named and ready; a site that is late fails or is tried again; an attempt that
fails too widely starts over; and in recovery mode an image is staged, verified and written, and the report is signed. -/
def Obligations.BootEvents : Prop :=
  ∀ (s : State) (w : Word) (n o : Nat) (conf : List Byte),
    let i := s.subj
    let x := s.site i
    (∃ t, exec .moduleReset s = .next t ∧ t.mem = s.mem ∧ t.tags = s.tags ∧ t.poison = s.poison ∧
      t.mod = { State.reset.mod with health := fusedHealth s.cores } ∧ t.harts = [] ∧
      t.sites = [] ∧ t.queues = [] ∧ t.boot.slots = s.boot.slots ∧ t.boot.selector = s.boot.selector ∧ t.boot.verified = false ∧
      t.boot.recovery = false) ∧
    (s.boot.verified = false → s.boot.recovery = false → s.boot.rotOk = true →
      let a := tgetD s.boot.selector s.flashOf 0 % 2
      (s.slotReason a = 0 →
        ∃ t, exec .bootVerify s = .next t ∧ t.boot.verified = true ∧ t.boot.fwslot = a ∧ t.mod.attempt = 1 ∧ t.mem = s.mem) ∧
      (s.slotReason a ≠ 0 → s.slotReason (1 - a) ≠ 0 →
        ∃ t, exec .bootVerify s = .next t ∧ t.boot.recovery = true ∧ t.boot.verified = false ∧ t.boot.phase = 0 ∧
          t.boot.reasonA = s.slotReason 0 ∧ t.boot.reasonB = s.slotReason 1)) ∧
    (s.boot.verified = true → s.boot.t0 = none → ∃ t, exec .waveLaunch s = .next t ∧ t.boot.t0 = some s.ncyc ∧
      (∀ e, e < 16 → ∀ y ∈ seededSites e, (y, e, 1) ∈ t.boot.waves) ∧ ∀ e, e < 16 → (t.site (576 + e)).st = 1) ∧
    (∀ t0, s.boot.waves = [(i, o, n)] → s.boot.t0 = some t0 → t0 + n * usN ≤ s.ncyc →
      (x.st ≠ 0 → exec (.waveArrival o n) s = .next { s with boot := { s.boot with waves := [] } }) ∧
      (x.st = 0 →
        let out := ((neighbours i).filter fun m => (s.site m.2).st == 0).map fun m => (m.2, o, n + 1)
        exec (.waveArrival o n) s = .next
          ((({ s with boot := { s.boot with waves := out } } : State).modSite i fun y =>
            { y with st := 1, wave := s.mod.attempt, hops := n, origin := o }).stateVector))) ∧
    (x.st = 1 → exec .siteLocked s = .next (({ s with freeCtr := s.freeCtr + 1 } : State).modSite i fun y =>
      { y with st := 2, tries := 0, since := s.ncyc, off := (Config.freeWord s.freeCtr).getLsbD 0 }).stateVector) ∧
    (x.st ≠ 1 → exec .siteLocked s = .next s) ∧
    (i < 576 → x.st = 2 → s.deadLinks = [] → (∀ m ∈ neighbours i, (s.site m.2).st = 2) →
      ∃ t, exec .linkTrained s = .next t.stateVector ∧ t = s.modSite i fun y =>
        { y with st := if y.st = 9 then 9 else 3, links := (neighbours i).foldl (fun a m => a + 2 ^ m.1) 0, tries := 0 }) ∧
    (x.st = 3 → exec (.siteLoaded conf) s = .next
      ((({ s with boot := { s.boot with confs := tset s.boot.confs i conf } } : State).modSite i fun y => { y with st := 4 }).stateVector)) ∧
    ((∀ j, j < 592 → (s.site j).st = 4) → s.misaligned = false → s.deadLinks = [] →
      ∃ t, exec .named s = .next t ∧ (∀ j, j < 592 → (t.site j).st = 5) ∧ t.nst = [] ∧
        t.homeMap = assignedHomes.map fun h => (h, mapEntry h)) ∧
    ((∀ j, j < 592 → (s.site j).st = 5) → s.misaligned = false → ∃ t, exec .readyBroadcast s = .next t ∧ ∀ j, j < 592 → (t.site j).st = 6) ∧
    (x.st = 1 → s.pastT0 (x.hops * usN + 200 * usN) = true →
      exec (.bringupTimeout 8) s = .next (({ (s.failSite i 8).killSite i with subj := i } : State).stateVector)) ∧
    (x.st = 3 → (x.tries = 0 →
        exec (.bringupTimeout 10) s = .next (s.modSite i fun y => { y with tries := 1 }).stateVector) ∧
      (1 ≤ x.tries → exec (.bringupTimeout 10) s = .next (({ s.failSite i 10 with subj := i } : State).stateVector))) ∧
    (∀ t0 e, s.boot.t0 = some t0 → s.mod.attempt < 4 → s.modState ≠ 6 → e < 16 → e ≠ s.bootingEdge → (s.site (576 + e)).st = 12 →
      ∃ t, exec .bringupRestart s = .next t ∧ t.mod.attempt = s.mod.attempt + 1 ∧ t.sites = [] ∧ t.deadLinks = [] ∧ t.homeMap = [] ∧
        t.nst = [] ∧ t.boot.t0 = none ∧ t.boot.waves = []) ∧
    (s.boot.recovery = true →
      (s.boot.phase ≠ 1 → s.boot.phase ≠ 2 → exec (.recoveryGo w) s = .next
        { s with boot := { s.boot with phase := 1, recLen := bitsOf w.toNat 32 32, recSlot := bitsOf w.toNat 4 1 } }) ∧
      ((s.boot.phase = 1 ∨ s.boot.phase = 2) → exec (.recoveryGo w) s = .next s) ∧
      exec .recoveryReset s = .next s.moduleReset ∧
      (∃ sig, sig.length = 29792 ∧ exec .recoveryReport s = .next { s with boot := { s.boot with
        recReport := bytesOfNat 8 s.modid ++ bytesOfNat 8 s.recstat
          ++ ((List.range 4).map fun j => bytesOfNat 8 (tgetD s.boot.recnonce j 0#64).toNat).foldr (· ++ ·) []
          ++ s.measOf 0 ++ idKey64 ++ sig } }) ∧
      (s.boot.phase = 1 →
        let r := imageReason s.boot.recLen (s.bytesAt (stagingKey 0) (min s.boot.recLen imageMax))
        (r = 0 → exec .recoveryVerifyDone s = .next { s with boot := { s.boot with phase := 2 } }) ∧
        (r ≠ 0 → exec .recoveryVerifyDone s = .next { s with boot := { s.boot with
          phase := 4
          reasonA := if s.boot.recSlot = 0 then r else s.boot.reasonA
          reasonB := if s.boot.recSlot = 1 then r else s.boot.reasonB } })) ∧
      (s.boot.phase = 2 →
        let k := 2 * s.flashOf + s.boot.recSlot
        exec .recoveryVerifyDone s = .next { s with
          mem := memWrite s.mem (flashKey k 0) ((s.bytesAt (stagingKey 0) s.boot.recLen).map some)
          boot := { s.boot with
            phase := 3
            slots := tset s.boot.slots k s.boot.recLen
            selector := tset s.boot.selector s.flashOf s.boot.recSlot } }))
end

