-- ==== Sys2Proof/Laws/State.lean ====
section
/-! SUPPORT. What each update of the state leaves as it was: one lemma per field and update, true by computation. -/

namespace Sys2Proof.Machine

/-! ### `State.modHart` -/

section
variable (s : State) (h : Nat) (f : Hart → Hart)

@[simp] theorem State.modHart_tape : (s.modHart h f).tape = s.tape := rfl
@[simp] theorem State.modHart_cur : (s.modHart h f).cur = s.cur := rfl
@[simp] theorem State.modHart_subj : (s.modHart h f).subj = s.subj := rfl
@[simp] theorem State.modHart_turnNo : (s.modHart h f).turnNo = s.turnNo := rfl
@[simp] theorem State.modHart_freeCtr : (s.modHart h f).freeCtr = s.freeCtr := rfl
@[simp] theorem State.modHart_nextId : (s.modHart h f).nextId = s.nextId := rfl
@[simp] theorem State.modHart_ncyc : (s.modHart h f).ncyc = s.ncyc := rfl
@[simp] theorem State.modHart_gib : (s.modHart h f).gib = s.gib := rfl
@[simp] theorem State.modHart_mem : (s.modHart h f).mem = s.mem := rfl
@[simp] theorem State.modHart_tags : (s.modHart h f).tags = s.tags := rfl
@[simp] theorem State.modHart_poison : (s.modHart h f).poison = s.poison := rfl
@[simp] theorem State.modHart_groups : (s.modHart h f).groups = s.groups := rfl
@[simp] theorem State.modHart_blocks : (s.modHart h f).blocks = s.blocks := rfl
@[simp] theorem State.modHart_grids : (s.modHart h f).grids = s.grids := rfl
@[simp] theorem State.modHart_cores : (s.modHart h f).cores = s.cores := rfl
@[simp] theorem State.modHart_windows : (s.modHart h f).windows = s.windows := rfl
@[simp] theorem State.modHart_plinths : (s.modHart h f).plinths = s.plinths := rfl
@[simp] theorem State.modHart_engines : (s.modHart h f).engines = s.engines := rfl
@[simp] theorem State.modHart_pb : (s.modHart h f).pb = s.pb := rfl
@[simp] theorem State.modHart_accs : (s.modHart h f).accs = s.accs := rfl
@[simp] theorem State.modHart_ops : (s.modHart h f).ops = s.ops := rfl
@[simp] theorem State.modHart_gridArrs : (s.modHart h f).gridArrs = s.gridArrs := rfl
@[simp] theorem State.modHart_gridWaits : (s.modHart h f).gridWaits = s.gridWaits := rfl
@[simp] theorem State.modHart_held : (s.modHart h f).held = s.held := rfl
@[simp] theorem State.modHart_missRecs : (s.modHart h f).missRecs = s.missRecs := rfl
@[simp] theorem State.modHart_homes : (s.modHart h f).homes = s.homes := rfl
@[simp] theorem State.modHart_mcs : (s.modHart h f).mcs = s.mcs := rfl
@[simp] theorem State.modHart_clusters : (s.modHart h f).clusters = s.clusters := rfl
@[simp] theorem State.modHart_queues : (s.modHart h f).queues = s.queues := rfl
@[simp] theorem State.modHart_packets : (s.modHart h f).packets = s.packets := rfl
@[simp] theorem State.modHart_graphs : (s.modHart h f).graphs = s.graphs := rfl
@[simp] theorem State.modHart_pipes : (s.modHart h f).pipes = s.pipes := rfl
@[simp] theorem State.modHart_watches : (s.modHart h f).watches = s.watches := rfl
@[simp] theorem State.modHart_timers : (s.modHart h f).timers = s.timers := rfl
@[simp] theorem State.modHart_cuts : (s.modHart h f).cuts = s.cuts := rfl
@[simp] theorem State.modHart_slots : (s.modHart h f).slots = s.slots := rfl
@[simp] theorem State.modHart_powers : (s.modHart h f).powers = s.powers := rfl
@[simp] theorem State.modHart_eths : (s.modHart h f).eths = s.eths := rfl
@[simp] theorem State.modHart_mod : (s.modHart h f).mod = s.mod := rfl
@[simp] theorem State.modHart_boot : (s.modHart h f).boot = s.boot := rfl
@[simp] theorem State.modHart_sites : (s.modHart h f).sites = s.sites := rfl
@[simp] theorem State.modHart_homeMap : (s.modHart h f).homeMap = s.homeMap := rfl
@[simp] theorem State.modHart_nst : (s.modHart h f).nst = s.nst := rfl
@[simp] theorem State.modHart_deadLinks : (s.modHart h f).deadLinks = s.deadLinks := rfl
@[simp] theorem State.modHart_replays : (s.modHart h f).replays = s.replays := rfl
@[simp] theorem State.modHart_unreach : (s.modHart h f).unreach = s.unreach := rfl
@[simp] theorem State.modHart_buckets : (s.modHart h f).buckets = s.buckets := rfl
@[simp] theorem State.modHart_refilled : (s.modHart h f).refilled = s.refilled := rfl
@[simp] theorem State.modHart_aged : (s.modHart h f).aged = s.aged := rfl
@[simp] theorem State.modHart_pgMigs : (s.modHart h f).pgMigs = s.pgMigs := rfl
@[simp] theorem State.modHart_irqs : (s.modHart h f).irqs = s.irqs := rfl
@[simp] theorem State.modHart_hostAns : (s.modHart h f).hostAns = s.hostAns := rfl
@[simp] theorem State.modHart_frozen : (s.modHart h f).frozen = s.frozen := rfl

end

/-! ### `State.setHart` -/

section
variable (s : State) (h : Nat) (x : Hart)

@[simp] theorem State.setHart_tape : (s.setHart h x).tape = s.tape := rfl
@[simp] theorem State.setHart_cur : (s.setHart h x).cur = s.cur := rfl
@[simp] theorem State.setHart_subj : (s.setHart h x).subj = s.subj := rfl
@[simp] theorem State.setHart_turnNo : (s.setHart h x).turnNo = s.turnNo := rfl
@[simp] theorem State.setHart_freeCtr : (s.setHart h x).freeCtr = s.freeCtr := rfl
@[simp] theorem State.setHart_nextId : (s.setHart h x).nextId = s.nextId := rfl
@[simp] theorem State.setHart_ncyc : (s.setHart h x).ncyc = s.ncyc := rfl
@[simp] theorem State.setHart_gib : (s.setHart h x).gib = s.gib := rfl
@[simp] theorem State.setHart_mem : (s.setHart h x).mem = s.mem := rfl
@[simp] theorem State.setHart_tags : (s.setHart h x).tags = s.tags := rfl
@[simp] theorem State.setHart_poison : (s.setHart h x).poison = s.poison := rfl
@[simp] theorem State.setHart_groups : (s.setHart h x).groups = s.groups := rfl
@[simp] theorem State.setHart_blocks : (s.setHart h x).blocks = s.blocks := rfl
@[simp] theorem State.setHart_grids : (s.setHart h x).grids = s.grids := rfl
@[simp] theorem State.setHart_cores : (s.setHart h x).cores = s.cores := rfl
@[simp] theorem State.setHart_windows : (s.setHart h x).windows = s.windows := rfl
@[simp] theorem State.setHart_plinths : (s.setHart h x).plinths = s.plinths := rfl
@[simp] theorem State.setHart_engines : (s.setHart h x).engines = s.engines := rfl
@[simp] theorem State.setHart_pb : (s.setHart h x).pb = s.pb := rfl
@[simp] theorem State.setHart_accs : (s.setHart h x).accs = s.accs := rfl
@[simp] theorem State.setHart_ops : (s.setHart h x).ops = s.ops := rfl
@[simp] theorem State.setHart_gridArrs : (s.setHart h x).gridArrs = s.gridArrs := rfl
@[simp] theorem State.setHart_gridWaits : (s.setHart h x).gridWaits = s.gridWaits := rfl
@[simp] theorem State.setHart_held : (s.setHart h x).held = s.held := rfl
@[simp] theorem State.setHart_missRecs : (s.setHart h x).missRecs = s.missRecs := rfl
@[simp] theorem State.setHart_homes : (s.setHart h x).homes = s.homes := rfl
@[simp] theorem State.setHart_mcs : (s.setHart h x).mcs = s.mcs := rfl
@[simp] theorem State.setHart_clusters : (s.setHart h x).clusters = s.clusters := rfl
@[simp] theorem State.setHart_queues : (s.setHart h x).queues = s.queues := rfl
@[simp] theorem State.setHart_packets : (s.setHart h x).packets = s.packets := rfl
@[simp] theorem State.setHart_graphs : (s.setHart h x).graphs = s.graphs := rfl
@[simp] theorem State.setHart_pipes : (s.setHart h x).pipes = s.pipes := rfl
@[simp] theorem State.setHart_watches : (s.setHart h x).watches = s.watches := rfl
@[simp] theorem State.setHart_timers : (s.setHart h x).timers = s.timers := rfl
@[simp] theorem State.setHart_cuts : (s.setHart h x).cuts = s.cuts := rfl
@[simp] theorem State.setHart_slots : (s.setHart h x).slots = s.slots := rfl
@[simp] theorem State.setHart_powers : (s.setHart h x).powers = s.powers := rfl
@[simp] theorem State.setHart_eths : (s.setHart h x).eths = s.eths := rfl
@[simp] theorem State.setHart_mod : (s.setHart h x).mod = s.mod := rfl
@[simp] theorem State.setHart_boot : (s.setHart h x).boot = s.boot := rfl
@[simp] theorem State.setHart_sites : (s.setHart h x).sites = s.sites := rfl
@[simp] theorem State.setHart_homeMap : (s.setHart h x).homeMap = s.homeMap := rfl
@[simp] theorem State.setHart_nst : (s.setHart h x).nst = s.nst := rfl
@[simp] theorem State.setHart_deadLinks : (s.setHart h x).deadLinks = s.deadLinks := rfl
@[simp] theorem State.setHart_replays : (s.setHart h x).replays = s.replays := rfl
@[simp] theorem State.setHart_unreach : (s.setHart h x).unreach = s.unreach := rfl
@[simp] theorem State.setHart_buckets : (s.setHart h x).buckets = s.buckets := rfl
@[simp] theorem State.setHart_refilled : (s.setHart h x).refilled = s.refilled := rfl
@[simp] theorem State.setHart_aged : (s.setHart h x).aged = s.aged := rfl
@[simp] theorem State.setHart_pgMigs : (s.setHart h x).pgMigs = s.pgMigs := rfl
@[simp] theorem State.setHart_irqs : (s.setHart h x).irqs = s.irqs := rfl
@[simp] theorem State.setHart_hostAns : (s.setHart h x).hostAns = s.hostAns := rfl
@[simp] theorem State.setHart_frozen : (s.setHart h x).frozen = s.frozen := rfl

end

/-! ### `State.modGroup` -/

section
variable (s : State) (g : Nat) (f : Group → Group)

@[simp] theorem State.modGroup_tape : (s.modGroup g f).tape = s.tape := rfl
@[simp] theorem State.modGroup_cur : (s.modGroup g f).cur = s.cur := rfl
@[simp] theorem State.modGroup_subj : (s.modGroup g f).subj = s.subj := rfl
@[simp] theorem State.modGroup_turnNo : (s.modGroup g f).turnNo = s.turnNo := rfl
@[simp] theorem State.modGroup_freeCtr : (s.modGroup g f).freeCtr = s.freeCtr := rfl
@[simp] theorem State.modGroup_nextId : (s.modGroup g f).nextId = s.nextId := rfl
@[simp] theorem State.modGroup_ncyc : (s.modGroup g f).ncyc = s.ncyc := rfl
@[simp] theorem State.modGroup_gib : (s.modGroup g f).gib = s.gib := rfl
@[simp] theorem State.modGroup_mem : (s.modGroup g f).mem = s.mem := rfl
@[simp] theorem State.modGroup_tags : (s.modGroup g f).tags = s.tags := rfl
@[simp] theorem State.modGroup_poison : (s.modGroup g f).poison = s.poison := rfl
@[simp] theorem State.modGroup_harts : (s.modGroup g f).harts = s.harts := rfl
@[simp] theorem State.modGroup_blocks : (s.modGroup g f).blocks = s.blocks := rfl
@[simp] theorem State.modGroup_grids : (s.modGroup g f).grids = s.grids := rfl
@[simp] theorem State.modGroup_cores : (s.modGroup g f).cores = s.cores := rfl
@[simp] theorem State.modGroup_windows : (s.modGroup g f).windows = s.windows := rfl
@[simp] theorem State.modGroup_plinths : (s.modGroup g f).plinths = s.plinths := rfl
@[simp] theorem State.modGroup_engines : (s.modGroup g f).engines = s.engines := rfl
@[simp] theorem State.modGroup_pb : (s.modGroup g f).pb = s.pb := rfl
@[simp] theorem State.modGroup_accs : (s.modGroup g f).accs = s.accs := rfl
@[simp] theorem State.modGroup_ops : (s.modGroup g f).ops = s.ops := rfl
@[simp] theorem State.modGroup_gridArrs : (s.modGroup g f).gridArrs = s.gridArrs := rfl
@[simp] theorem State.modGroup_gridWaits : (s.modGroup g f).gridWaits = s.gridWaits := rfl
@[simp] theorem State.modGroup_held : (s.modGroup g f).held = s.held := rfl
@[simp] theorem State.modGroup_missRecs : (s.modGroup g f).missRecs = s.missRecs := rfl
@[simp] theorem State.modGroup_homes : (s.modGroup g f).homes = s.homes := rfl
@[simp] theorem State.modGroup_mcs : (s.modGroup g f).mcs = s.mcs := rfl
@[simp] theorem State.modGroup_clusters : (s.modGroup g f).clusters = s.clusters := rfl
@[simp] theorem State.modGroup_queues : (s.modGroup g f).queues = s.queues := rfl
@[simp] theorem State.modGroup_packets : (s.modGroup g f).packets = s.packets := rfl
@[simp] theorem State.modGroup_graphs : (s.modGroup g f).graphs = s.graphs := rfl
@[simp] theorem State.modGroup_pipes : (s.modGroup g f).pipes = s.pipes := rfl
@[simp] theorem State.modGroup_watches : (s.modGroup g f).watches = s.watches := rfl
@[simp] theorem State.modGroup_timers : (s.modGroup g f).timers = s.timers := rfl
@[simp] theorem State.modGroup_cuts : (s.modGroup g f).cuts = s.cuts := rfl
@[simp] theorem State.modGroup_slots : (s.modGroup g f).slots = s.slots := rfl
@[simp] theorem State.modGroup_powers : (s.modGroup g f).powers = s.powers := rfl
@[simp] theorem State.modGroup_eths : (s.modGroup g f).eths = s.eths := rfl
@[simp] theorem State.modGroup_mod : (s.modGroup g f).mod = s.mod := rfl
@[simp] theorem State.modGroup_boot : (s.modGroup g f).boot = s.boot := rfl
@[simp] theorem State.modGroup_sites : (s.modGroup g f).sites = s.sites := rfl
@[simp] theorem State.modGroup_homeMap : (s.modGroup g f).homeMap = s.homeMap := rfl
@[simp] theorem State.modGroup_nst : (s.modGroup g f).nst = s.nst := rfl
@[simp] theorem State.modGroup_deadLinks : (s.modGroup g f).deadLinks = s.deadLinks := rfl
@[simp] theorem State.modGroup_replays : (s.modGroup g f).replays = s.replays := rfl
@[simp] theorem State.modGroup_unreach : (s.modGroup g f).unreach = s.unreach := rfl
@[simp] theorem State.modGroup_buckets : (s.modGroup g f).buckets = s.buckets := rfl
@[simp] theorem State.modGroup_refilled : (s.modGroup g f).refilled = s.refilled := rfl
@[simp] theorem State.modGroup_aged : (s.modGroup g f).aged = s.aged := rfl
@[simp] theorem State.modGroup_pgMigs : (s.modGroup g f).pgMigs = s.pgMigs := rfl
@[simp] theorem State.modGroup_irqs : (s.modGroup g f).irqs = s.irqs := rfl
@[simp] theorem State.modGroup_hostAns : (s.modGroup g f).hostAns = s.hostAns := rfl
@[simp] theorem State.modGroup_frozen : (s.modGroup g f).frozen = s.frozen := rfl

end

/-! ### `State.modBlock` -/

section
variable (s : State) (b : Nat) (f : Block → Block)

@[simp] theorem State.modBlock_tape : (s.modBlock b f).tape = s.tape := rfl
@[simp] theorem State.modBlock_cur : (s.modBlock b f).cur = s.cur := rfl
@[simp] theorem State.modBlock_subj : (s.modBlock b f).subj = s.subj := rfl
@[simp] theorem State.modBlock_turnNo : (s.modBlock b f).turnNo = s.turnNo := rfl
@[simp] theorem State.modBlock_freeCtr : (s.modBlock b f).freeCtr = s.freeCtr := rfl
@[simp] theorem State.modBlock_nextId : (s.modBlock b f).nextId = s.nextId := rfl
@[simp] theorem State.modBlock_ncyc : (s.modBlock b f).ncyc = s.ncyc := rfl
@[simp] theorem State.modBlock_gib : (s.modBlock b f).gib = s.gib := rfl
@[simp] theorem State.modBlock_mem : (s.modBlock b f).mem = s.mem := rfl
@[simp] theorem State.modBlock_tags : (s.modBlock b f).tags = s.tags := rfl
@[simp] theorem State.modBlock_poison : (s.modBlock b f).poison = s.poison := rfl
@[simp] theorem State.modBlock_harts : (s.modBlock b f).harts = s.harts := rfl
@[simp] theorem State.modBlock_groups : (s.modBlock b f).groups = s.groups := rfl
@[simp] theorem State.modBlock_grids : (s.modBlock b f).grids = s.grids := rfl
@[simp] theorem State.modBlock_cores : (s.modBlock b f).cores = s.cores := rfl
@[simp] theorem State.modBlock_windows : (s.modBlock b f).windows = s.windows := rfl
@[simp] theorem State.modBlock_plinths : (s.modBlock b f).plinths = s.plinths := rfl
@[simp] theorem State.modBlock_engines : (s.modBlock b f).engines = s.engines := rfl
@[simp] theorem State.modBlock_pb : (s.modBlock b f).pb = s.pb := rfl
@[simp] theorem State.modBlock_accs : (s.modBlock b f).accs = s.accs := rfl
@[simp] theorem State.modBlock_ops : (s.modBlock b f).ops = s.ops := rfl
@[simp] theorem State.modBlock_gridArrs : (s.modBlock b f).gridArrs = s.gridArrs := rfl
@[simp] theorem State.modBlock_gridWaits : (s.modBlock b f).gridWaits = s.gridWaits := rfl
@[simp] theorem State.modBlock_held : (s.modBlock b f).held = s.held := rfl
@[simp] theorem State.modBlock_missRecs : (s.modBlock b f).missRecs = s.missRecs := rfl
@[simp] theorem State.modBlock_homes : (s.modBlock b f).homes = s.homes := rfl
@[simp] theorem State.modBlock_mcs : (s.modBlock b f).mcs = s.mcs := rfl
@[simp] theorem State.modBlock_clusters : (s.modBlock b f).clusters = s.clusters := rfl
@[simp] theorem State.modBlock_queues : (s.modBlock b f).queues = s.queues := rfl
@[simp] theorem State.modBlock_packets : (s.modBlock b f).packets = s.packets := rfl
@[simp] theorem State.modBlock_graphs : (s.modBlock b f).graphs = s.graphs := rfl
@[simp] theorem State.modBlock_pipes : (s.modBlock b f).pipes = s.pipes := rfl
@[simp] theorem State.modBlock_watches : (s.modBlock b f).watches = s.watches := rfl
@[simp] theorem State.modBlock_timers : (s.modBlock b f).timers = s.timers := rfl
@[simp] theorem State.modBlock_cuts : (s.modBlock b f).cuts = s.cuts := rfl
@[simp] theorem State.modBlock_slots : (s.modBlock b f).slots = s.slots := rfl
@[simp] theorem State.modBlock_powers : (s.modBlock b f).powers = s.powers := rfl
@[simp] theorem State.modBlock_eths : (s.modBlock b f).eths = s.eths := rfl
@[simp] theorem State.modBlock_mod : (s.modBlock b f).mod = s.mod := rfl
@[simp] theorem State.modBlock_boot : (s.modBlock b f).boot = s.boot := rfl
@[simp] theorem State.modBlock_sites : (s.modBlock b f).sites = s.sites := rfl
@[simp] theorem State.modBlock_homeMap : (s.modBlock b f).homeMap = s.homeMap := rfl
@[simp] theorem State.modBlock_nst : (s.modBlock b f).nst = s.nst := rfl
@[simp] theorem State.modBlock_deadLinks : (s.modBlock b f).deadLinks = s.deadLinks := rfl
@[simp] theorem State.modBlock_replays : (s.modBlock b f).replays = s.replays := rfl
@[simp] theorem State.modBlock_unreach : (s.modBlock b f).unreach = s.unreach := rfl
@[simp] theorem State.modBlock_buckets : (s.modBlock b f).buckets = s.buckets := rfl
@[simp] theorem State.modBlock_refilled : (s.modBlock b f).refilled = s.refilled := rfl
@[simp] theorem State.modBlock_aged : (s.modBlock b f).aged = s.aged := rfl
@[simp] theorem State.modBlock_pgMigs : (s.modBlock b f).pgMigs = s.pgMigs := rfl
@[simp] theorem State.modBlock_irqs : (s.modBlock b f).irqs = s.irqs := rfl
@[simp] theorem State.modBlock_hostAns : (s.modBlock b f).hostAns = s.hostAns := rfl
@[simp] theorem State.modBlock_frozen : (s.modBlock b f).frozen = s.frozen := rfl

end

/-! ### `State.modGrid` -/

section
variable (s : State) (g : Nat) (f : Grid → Grid)

@[simp] theorem State.modGrid_tape : (s.modGrid g f).tape = s.tape := rfl
@[simp] theorem State.modGrid_cur : (s.modGrid g f).cur = s.cur := rfl
@[simp] theorem State.modGrid_subj : (s.modGrid g f).subj = s.subj := rfl
@[simp] theorem State.modGrid_turnNo : (s.modGrid g f).turnNo = s.turnNo := rfl
@[simp] theorem State.modGrid_freeCtr : (s.modGrid g f).freeCtr = s.freeCtr := rfl
@[simp] theorem State.modGrid_nextId : (s.modGrid g f).nextId = s.nextId := rfl
@[simp] theorem State.modGrid_ncyc : (s.modGrid g f).ncyc = s.ncyc := rfl
@[simp] theorem State.modGrid_gib : (s.modGrid g f).gib = s.gib := rfl
@[simp] theorem State.modGrid_mem : (s.modGrid g f).mem = s.mem := rfl
@[simp] theorem State.modGrid_tags : (s.modGrid g f).tags = s.tags := rfl
@[simp] theorem State.modGrid_poison : (s.modGrid g f).poison = s.poison := rfl
@[simp] theorem State.modGrid_harts : (s.modGrid g f).harts = s.harts := rfl
@[simp] theorem State.modGrid_groups : (s.modGrid g f).groups = s.groups := rfl
@[simp] theorem State.modGrid_blocks : (s.modGrid g f).blocks = s.blocks := rfl
@[simp] theorem State.modGrid_cores : (s.modGrid g f).cores = s.cores := rfl
@[simp] theorem State.modGrid_windows : (s.modGrid g f).windows = s.windows := rfl
@[simp] theorem State.modGrid_plinths : (s.modGrid g f).plinths = s.plinths := rfl
@[simp] theorem State.modGrid_engines : (s.modGrid g f).engines = s.engines := rfl
@[simp] theorem State.modGrid_pb : (s.modGrid g f).pb = s.pb := rfl
@[simp] theorem State.modGrid_accs : (s.modGrid g f).accs = s.accs := rfl
@[simp] theorem State.modGrid_ops : (s.modGrid g f).ops = s.ops := rfl
@[simp] theorem State.modGrid_gridArrs : (s.modGrid g f).gridArrs = s.gridArrs := rfl
@[simp] theorem State.modGrid_gridWaits : (s.modGrid g f).gridWaits = s.gridWaits := rfl
@[simp] theorem State.modGrid_held : (s.modGrid g f).held = s.held := rfl
@[simp] theorem State.modGrid_missRecs : (s.modGrid g f).missRecs = s.missRecs := rfl
@[simp] theorem State.modGrid_homes : (s.modGrid g f).homes = s.homes := rfl
@[simp] theorem State.modGrid_mcs : (s.modGrid g f).mcs = s.mcs := rfl
@[simp] theorem State.modGrid_clusters : (s.modGrid g f).clusters = s.clusters := rfl
@[simp] theorem State.modGrid_queues : (s.modGrid g f).queues = s.queues := rfl
@[simp] theorem State.modGrid_packets : (s.modGrid g f).packets = s.packets := rfl
@[simp] theorem State.modGrid_graphs : (s.modGrid g f).graphs = s.graphs := rfl
@[simp] theorem State.modGrid_pipes : (s.modGrid g f).pipes = s.pipes := rfl
@[simp] theorem State.modGrid_watches : (s.modGrid g f).watches = s.watches := rfl
@[simp] theorem State.modGrid_timers : (s.modGrid g f).timers = s.timers := rfl
@[simp] theorem State.modGrid_cuts : (s.modGrid g f).cuts = s.cuts := rfl
@[simp] theorem State.modGrid_slots : (s.modGrid g f).slots = s.slots := rfl
@[simp] theorem State.modGrid_powers : (s.modGrid g f).powers = s.powers := rfl
@[simp] theorem State.modGrid_eths : (s.modGrid g f).eths = s.eths := rfl
@[simp] theorem State.modGrid_mod : (s.modGrid g f).mod = s.mod := rfl
@[simp] theorem State.modGrid_boot : (s.modGrid g f).boot = s.boot := rfl
@[simp] theorem State.modGrid_sites : (s.modGrid g f).sites = s.sites := rfl
@[simp] theorem State.modGrid_homeMap : (s.modGrid g f).homeMap = s.homeMap := rfl
@[simp] theorem State.modGrid_nst : (s.modGrid g f).nst = s.nst := rfl
@[simp] theorem State.modGrid_deadLinks : (s.modGrid g f).deadLinks = s.deadLinks := rfl
@[simp] theorem State.modGrid_replays : (s.modGrid g f).replays = s.replays := rfl
@[simp] theorem State.modGrid_unreach : (s.modGrid g f).unreach = s.unreach := rfl
@[simp] theorem State.modGrid_buckets : (s.modGrid g f).buckets = s.buckets := rfl
@[simp] theorem State.modGrid_refilled : (s.modGrid g f).refilled = s.refilled := rfl
@[simp] theorem State.modGrid_aged : (s.modGrid g f).aged = s.aged := rfl
@[simp] theorem State.modGrid_pgMigs : (s.modGrid g f).pgMigs = s.pgMigs := rfl
@[simp] theorem State.modGrid_irqs : (s.modGrid g f).irqs = s.irqs := rfl
@[simp] theorem State.modGrid_hostAns : (s.modGrid g f).hostAns = s.hostAns := rfl
@[simp] theorem State.modGrid_frozen : (s.modGrid g f).frozen = s.frozen := rfl

end

/-! ### `State.modCore` -/

section
variable (s : State) (c : Nat) (f : Core → Core)

@[simp] theorem State.modCore_tape : (s.modCore c f).tape = s.tape := rfl
@[simp] theorem State.modCore_cur : (s.modCore c f).cur = s.cur := rfl
@[simp] theorem State.modCore_subj : (s.modCore c f).subj = s.subj := rfl
@[simp] theorem State.modCore_turnNo : (s.modCore c f).turnNo = s.turnNo := rfl
@[simp] theorem State.modCore_freeCtr : (s.modCore c f).freeCtr = s.freeCtr := rfl
@[simp] theorem State.modCore_nextId : (s.modCore c f).nextId = s.nextId := rfl
@[simp] theorem State.modCore_ncyc : (s.modCore c f).ncyc = s.ncyc := rfl
@[simp] theorem State.modCore_gib : (s.modCore c f).gib = s.gib := rfl
@[simp] theorem State.modCore_mem : (s.modCore c f).mem = s.mem := rfl
@[simp] theorem State.modCore_tags : (s.modCore c f).tags = s.tags := rfl
@[simp] theorem State.modCore_poison : (s.modCore c f).poison = s.poison := rfl
@[simp] theorem State.modCore_harts : (s.modCore c f).harts = s.harts := rfl
@[simp] theorem State.modCore_groups : (s.modCore c f).groups = s.groups := rfl
@[simp] theorem State.modCore_blocks : (s.modCore c f).blocks = s.blocks := rfl
@[simp] theorem State.modCore_grids : (s.modCore c f).grids = s.grids := rfl
@[simp] theorem State.modCore_windows : (s.modCore c f).windows = s.windows := rfl
@[simp] theorem State.modCore_plinths : (s.modCore c f).plinths = s.plinths := rfl
@[simp] theorem State.modCore_engines : (s.modCore c f).engines = s.engines := rfl
@[simp] theorem State.modCore_pb : (s.modCore c f).pb = s.pb := rfl
@[simp] theorem State.modCore_accs : (s.modCore c f).accs = s.accs := rfl
@[simp] theorem State.modCore_ops : (s.modCore c f).ops = s.ops := rfl
@[simp] theorem State.modCore_gridArrs : (s.modCore c f).gridArrs = s.gridArrs := rfl
@[simp] theorem State.modCore_gridWaits : (s.modCore c f).gridWaits = s.gridWaits := rfl
@[simp] theorem State.modCore_held : (s.modCore c f).held = s.held := rfl
@[simp] theorem State.modCore_missRecs : (s.modCore c f).missRecs = s.missRecs := rfl
@[simp] theorem State.modCore_homes : (s.modCore c f).homes = s.homes := rfl
@[simp] theorem State.modCore_mcs : (s.modCore c f).mcs = s.mcs := rfl
@[simp] theorem State.modCore_clusters : (s.modCore c f).clusters = s.clusters := rfl
@[simp] theorem State.modCore_queues : (s.modCore c f).queues = s.queues := rfl
@[simp] theorem State.modCore_packets : (s.modCore c f).packets = s.packets := rfl
@[simp] theorem State.modCore_graphs : (s.modCore c f).graphs = s.graphs := rfl
@[simp] theorem State.modCore_pipes : (s.modCore c f).pipes = s.pipes := rfl
@[simp] theorem State.modCore_watches : (s.modCore c f).watches = s.watches := rfl
@[simp] theorem State.modCore_timers : (s.modCore c f).timers = s.timers := rfl
@[simp] theorem State.modCore_cuts : (s.modCore c f).cuts = s.cuts := rfl
@[simp] theorem State.modCore_slots : (s.modCore c f).slots = s.slots := rfl
@[simp] theorem State.modCore_powers : (s.modCore c f).powers = s.powers := rfl
@[simp] theorem State.modCore_eths : (s.modCore c f).eths = s.eths := rfl
@[simp] theorem State.modCore_mod : (s.modCore c f).mod = s.mod := rfl
@[simp] theorem State.modCore_boot : (s.modCore c f).boot = s.boot := rfl
@[simp] theorem State.modCore_sites : (s.modCore c f).sites = s.sites := rfl
@[simp] theorem State.modCore_homeMap : (s.modCore c f).homeMap = s.homeMap := rfl
@[simp] theorem State.modCore_nst : (s.modCore c f).nst = s.nst := rfl
@[simp] theorem State.modCore_deadLinks : (s.modCore c f).deadLinks = s.deadLinks := rfl
@[simp] theorem State.modCore_replays : (s.modCore c f).replays = s.replays := rfl
@[simp] theorem State.modCore_unreach : (s.modCore c f).unreach = s.unreach := rfl
@[simp] theorem State.modCore_buckets : (s.modCore c f).buckets = s.buckets := rfl
@[simp] theorem State.modCore_refilled : (s.modCore c f).refilled = s.refilled := rfl
@[simp] theorem State.modCore_aged : (s.modCore c f).aged = s.aged := rfl
@[simp] theorem State.modCore_pgMigs : (s.modCore c f).pgMigs = s.pgMigs := rfl
@[simp] theorem State.modCore_irqs : (s.modCore c f).irqs = s.irqs := rfl
@[simp] theorem State.modCore_hostAns : (s.modCore c f).hostAns = s.hostAns := rfl
@[simp] theorem State.modCore_frozen : (s.modCore c f).frozen = s.frozen := rfl

end

/-! ### `State.modWindow` -/

section
variable (s : State) (w : Nat) (f : Window → Window)

@[simp] theorem State.modWindow_tape : (s.modWindow w f).tape = s.tape := rfl
@[simp] theorem State.modWindow_cur : (s.modWindow w f).cur = s.cur := rfl
@[simp] theorem State.modWindow_subj : (s.modWindow w f).subj = s.subj := rfl
@[simp] theorem State.modWindow_turnNo : (s.modWindow w f).turnNo = s.turnNo := rfl
@[simp] theorem State.modWindow_freeCtr : (s.modWindow w f).freeCtr = s.freeCtr := rfl
@[simp] theorem State.modWindow_nextId : (s.modWindow w f).nextId = s.nextId := rfl
@[simp] theorem State.modWindow_ncyc : (s.modWindow w f).ncyc = s.ncyc := rfl
@[simp] theorem State.modWindow_gib : (s.modWindow w f).gib = s.gib := rfl
@[simp] theorem State.modWindow_mem : (s.modWindow w f).mem = s.mem := rfl
@[simp] theorem State.modWindow_tags : (s.modWindow w f).tags = s.tags := rfl
@[simp] theorem State.modWindow_poison : (s.modWindow w f).poison = s.poison := rfl
@[simp] theorem State.modWindow_harts : (s.modWindow w f).harts = s.harts := rfl
@[simp] theorem State.modWindow_groups : (s.modWindow w f).groups = s.groups := rfl
@[simp] theorem State.modWindow_blocks : (s.modWindow w f).blocks = s.blocks := rfl
@[simp] theorem State.modWindow_grids : (s.modWindow w f).grids = s.grids := rfl
@[simp] theorem State.modWindow_cores : (s.modWindow w f).cores = s.cores := rfl
@[simp] theorem State.modWindow_plinths : (s.modWindow w f).plinths = s.plinths := rfl
@[simp] theorem State.modWindow_engines : (s.modWindow w f).engines = s.engines := rfl
@[simp] theorem State.modWindow_pb : (s.modWindow w f).pb = s.pb := rfl
@[simp] theorem State.modWindow_accs : (s.modWindow w f).accs = s.accs := rfl
@[simp] theorem State.modWindow_ops : (s.modWindow w f).ops = s.ops := rfl
@[simp] theorem State.modWindow_gridArrs : (s.modWindow w f).gridArrs = s.gridArrs := rfl
@[simp] theorem State.modWindow_gridWaits : (s.modWindow w f).gridWaits = s.gridWaits := rfl
@[simp] theorem State.modWindow_held : (s.modWindow w f).held = s.held := rfl
@[simp] theorem State.modWindow_missRecs : (s.modWindow w f).missRecs = s.missRecs := rfl
@[simp] theorem State.modWindow_homes : (s.modWindow w f).homes = s.homes := rfl
@[simp] theorem State.modWindow_mcs : (s.modWindow w f).mcs = s.mcs := rfl
@[simp] theorem State.modWindow_clusters : (s.modWindow w f).clusters = s.clusters := rfl
@[simp] theorem State.modWindow_queues : (s.modWindow w f).queues = s.queues := rfl
@[simp] theorem State.modWindow_packets : (s.modWindow w f).packets = s.packets := rfl
@[simp] theorem State.modWindow_graphs : (s.modWindow w f).graphs = s.graphs := rfl
@[simp] theorem State.modWindow_pipes : (s.modWindow w f).pipes = s.pipes := rfl
@[simp] theorem State.modWindow_watches : (s.modWindow w f).watches = s.watches := rfl
@[simp] theorem State.modWindow_timers : (s.modWindow w f).timers = s.timers := rfl
@[simp] theorem State.modWindow_cuts : (s.modWindow w f).cuts = s.cuts := rfl
@[simp] theorem State.modWindow_slots : (s.modWindow w f).slots = s.slots := rfl
@[simp] theorem State.modWindow_powers : (s.modWindow w f).powers = s.powers := rfl
@[simp] theorem State.modWindow_eths : (s.modWindow w f).eths = s.eths := rfl
@[simp] theorem State.modWindow_mod : (s.modWindow w f).mod = s.mod := rfl
@[simp] theorem State.modWindow_boot : (s.modWindow w f).boot = s.boot := rfl
@[simp] theorem State.modWindow_sites : (s.modWindow w f).sites = s.sites := rfl
@[simp] theorem State.modWindow_homeMap : (s.modWindow w f).homeMap = s.homeMap := rfl
@[simp] theorem State.modWindow_nst : (s.modWindow w f).nst = s.nst := rfl
@[simp] theorem State.modWindow_deadLinks : (s.modWindow w f).deadLinks = s.deadLinks := rfl
@[simp] theorem State.modWindow_replays : (s.modWindow w f).replays = s.replays := rfl
@[simp] theorem State.modWindow_unreach : (s.modWindow w f).unreach = s.unreach := rfl
@[simp] theorem State.modWindow_buckets : (s.modWindow w f).buckets = s.buckets := rfl
@[simp] theorem State.modWindow_refilled : (s.modWindow w f).refilled = s.refilled := rfl
@[simp] theorem State.modWindow_aged : (s.modWindow w f).aged = s.aged := rfl
@[simp] theorem State.modWindow_pgMigs : (s.modWindow w f).pgMigs = s.pgMigs := rfl
@[simp] theorem State.modWindow_irqs : (s.modWindow w f).irqs = s.irqs := rfl
@[simp] theorem State.modWindow_hostAns : (s.modWindow w f).hostAns = s.hostAns := rfl
@[simp] theorem State.modWindow_frozen : (s.modWindow w f).frozen = s.frozen := rfl

end

/-! ### `State.modPlinth` -/

section
variable (s : State) (p : Nat) (f : Plinth → Plinth)

@[simp] theorem State.modPlinth_tape : (s.modPlinth p f).tape = s.tape := rfl
@[simp] theorem State.modPlinth_cur : (s.modPlinth p f).cur = s.cur := rfl
@[simp] theorem State.modPlinth_subj : (s.modPlinth p f).subj = s.subj := rfl
@[simp] theorem State.modPlinth_turnNo : (s.modPlinth p f).turnNo = s.turnNo := rfl
@[simp] theorem State.modPlinth_freeCtr : (s.modPlinth p f).freeCtr = s.freeCtr := rfl
@[simp] theorem State.modPlinth_nextId : (s.modPlinth p f).nextId = s.nextId := rfl
@[simp] theorem State.modPlinth_ncyc : (s.modPlinth p f).ncyc = s.ncyc := rfl
@[simp] theorem State.modPlinth_gib : (s.modPlinth p f).gib = s.gib := rfl
@[simp] theorem State.modPlinth_mem : (s.modPlinth p f).mem = s.mem := rfl
@[simp] theorem State.modPlinth_tags : (s.modPlinth p f).tags = s.tags := rfl
@[simp] theorem State.modPlinth_poison : (s.modPlinth p f).poison = s.poison := rfl
@[simp] theorem State.modPlinth_harts : (s.modPlinth p f).harts = s.harts := rfl
@[simp] theorem State.modPlinth_groups : (s.modPlinth p f).groups = s.groups := rfl
@[simp] theorem State.modPlinth_blocks : (s.modPlinth p f).blocks = s.blocks := rfl
@[simp] theorem State.modPlinth_grids : (s.modPlinth p f).grids = s.grids := rfl
@[simp] theorem State.modPlinth_cores : (s.modPlinth p f).cores = s.cores := rfl
@[simp] theorem State.modPlinth_windows : (s.modPlinth p f).windows = s.windows := rfl
@[simp] theorem State.modPlinth_engines : (s.modPlinth p f).engines = s.engines := rfl
@[simp] theorem State.modPlinth_pb : (s.modPlinth p f).pb = s.pb := rfl
@[simp] theorem State.modPlinth_accs : (s.modPlinth p f).accs = s.accs := rfl
@[simp] theorem State.modPlinth_ops : (s.modPlinth p f).ops = s.ops := rfl
@[simp] theorem State.modPlinth_gridArrs : (s.modPlinth p f).gridArrs = s.gridArrs := rfl
@[simp] theorem State.modPlinth_gridWaits : (s.modPlinth p f).gridWaits = s.gridWaits := rfl
@[simp] theorem State.modPlinth_held : (s.modPlinth p f).held = s.held := rfl
@[simp] theorem State.modPlinth_missRecs : (s.modPlinth p f).missRecs = s.missRecs := rfl
@[simp] theorem State.modPlinth_homes : (s.modPlinth p f).homes = s.homes := rfl
@[simp] theorem State.modPlinth_mcs : (s.modPlinth p f).mcs = s.mcs := rfl
@[simp] theorem State.modPlinth_clusters : (s.modPlinth p f).clusters = s.clusters := rfl
@[simp] theorem State.modPlinth_queues : (s.modPlinth p f).queues = s.queues := rfl
@[simp] theorem State.modPlinth_packets : (s.modPlinth p f).packets = s.packets := rfl
@[simp] theorem State.modPlinth_graphs : (s.modPlinth p f).graphs = s.graphs := rfl
@[simp] theorem State.modPlinth_pipes : (s.modPlinth p f).pipes = s.pipes := rfl
@[simp] theorem State.modPlinth_watches : (s.modPlinth p f).watches = s.watches := rfl
@[simp] theorem State.modPlinth_timers : (s.modPlinth p f).timers = s.timers := rfl
@[simp] theorem State.modPlinth_cuts : (s.modPlinth p f).cuts = s.cuts := rfl
@[simp] theorem State.modPlinth_slots : (s.modPlinth p f).slots = s.slots := rfl
@[simp] theorem State.modPlinth_powers : (s.modPlinth p f).powers = s.powers := rfl
@[simp] theorem State.modPlinth_eths : (s.modPlinth p f).eths = s.eths := rfl
@[simp] theorem State.modPlinth_mod : (s.modPlinth p f).mod = s.mod := rfl
@[simp] theorem State.modPlinth_boot : (s.modPlinth p f).boot = s.boot := rfl
@[simp] theorem State.modPlinth_sites : (s.modPlinth p f).sites = s.sites := rfl
@[simp] theorem State.modPlinth_homeMap : (s.modPlinth p f).homeMap = s.homeMap := rfl
@[simp] theorem State.modPlinth_nst : (s.modPlinth p f).nst = s.nst := rfl
@[simp] theorem State.modPlinth_deadLinks : (s.modPlinth p f).deadLinks = s.deadLinks := rfl
@[simp] theorem State.modPlinth_replays : (s.modPlinth p f).replays = s.replays := rfl
@[simp] theorem State.modPlinth_unreach : (s.modPlinth p f).unreach = s.unreach := rfl
@[simp] theorem State.modPlinth_buckets : (s.modPlinth p f).buckets = s.buckets := rfl
@[simp] theorem State.modPlinth_refilled : (s.modPlinth p f).refilled = s.refilled := rfl
@[simp] theorem State.modPlinth_aged : (s.modPlinth p f).aged = s.aged := rfl
@[simp] theorem State.modPlinth_pgMigs : (s.modPlinth p f).pgMigs = s.pgMigs := rfl
@[simp] theorem State.modPlinth_irqs : (s.modPlinth p f).irqs = s.irqs := rfl
@[simp] theorem State.modPlinth_hostAns : (s.modPlinth p f).hostAns = s.hostAns := rfl
@[simp] theorem State.modPlinth_frozen : (s.modPlinth p f).frozen = s.frozen := rfl

end

/-! ### `State.modHome` -/

section
variable (s : State) (h : Nat) (f : HomeSt → HomeSt)

@[simp] theorem State.modHome_tape : (s.modHome h f).tape = s.tape := rfl
@[simp] theorem State.modHome_cur : (s.modHome h f).cur = s.cur := rfl
@[simp] theorem State.modHome_subj : (s.modHome h f).subj = s.subj := rfl
@[simp] theorem State.modHome_turnNo : (s.modHome h f).turnNo = s.turnNo := rfl
@[simp] theorem State.modHome_freeCtr : (s.modHome h f).freeCtr = s.freeCtr := rfl
@[simp] theorem State.modHome_nextId : (s.modHome h f).nextId = s.nextId := rfl
@[simp] theorem State.modHome_ncyc : (s.modHome h f).ncyc = s.ncyc := rfl
@[simp] theorem State.modHome_gib : (s.modHome h f).gib = s.gib := rfl
@[simp] theorem State.modHome_mem : (s.modHome h f).mem = s.mem := rfl
@[simp] theorem State.modHome_tags : (s.modHome h f).tags = s.tags := rfl
@[simp] theorem State.modHome_poison : (s.modHome h f).poison = s.poison := rfl
@[simp] theorem State.modHome_harts : (s.modHome h f).harts = s.harts := rfl
@[simp] theorem State.modHome_groups : (s.modHome h f).groups = s.groups := rfl
@[simp] theorem State.modHome_blocks : (s.modHome h f).blocks = s.blocks := rfl
@[simp] theorem State.modHome_grids : (s.modHome h f).grids = s.grids := rfl
@[simp] theorem State.modHome_cores : (s.modHome h f).cores = s.cores := rfl
@[simp] theorem State.modHome_windows : (s.modHome h f).windows = s.windows := rfl
@[simp] theorem State.modHome_plinths : (s.modHome h f).plinths = s.plinths := rfl
@[simp] theorem State.modHome_engines : (s.modHome h f).engines = s.engines := rfl
@[simp] theorem State.modHome_pb : (s.modHome h f).pb = s.pb := rfl
@[simp] theorem State.modHome_accs : (s.modHome h f).accs = s.accs := rfl
@[simp] theorem State.modHome_ops : (s.modHome h f).ops = s.ops := rfl
@[simp] theorem State.modHome_gridArrs : (s.modHome h f).gridArrs = s.gridArrs := rfl
@[simp] theorem State.modHome_gridWaits : (s.modHome h f).gridWaits = s.gridWaits := rfl
@[simp] theorem State.modHome_held : (s.modHome h f).held = s.held := rfl
@[simp] theorem State.modHome_missRecs : (s.modHome h f).missRecs = s.missRecs := rfl
@[simp] theorem State.modHome_mcs : (s.modHome h f).mcs = s.mcs := rfl
@[simp] theorem State.modHome_clusters : (s.modHome h f).clusters = s.clusters := rfl
@[simp] theorem State.modHome_queues : (s.modHome h f).queues = s.queues := rfl
@[simp] theorem State.modHome_packets : (s.modHome h f).packets = s.packets := rfl
@[simp] theorem State.modHome_graphs : (s.modHome h f).graphs = s.graphs := rfl
@[simp] theorem State.modHome_pipes : (s.modHome h f).pipes = s.pipes := rfl
@[simp] theorem State.modHome_watches : (s.modHome h f).watches = s.watches := rfl
@[simp] theorem State.modHome_timers : (s.modHome h f).timers = s.timers := rfl
@[simp] theorem State.modHome_cuts : (s.modHome h f).cuts = s.cuts := rfl
@[simp] theorem State.modHome_slots : (s.modHome h f).slots = s.slots := rfl
@[simp] theorem State.modHome_powers : (s.modHome h f).powers = s.powers := rfl
@[simp] theorem State.modHome_eths : (s.modHome h f).eths = s.eths := rfl
@[simp] theorem State.modHome_mod : (s.modHome h f).mod = s.mod := rfl
@[simp] theorem State.modHome_boot : (s.modHome h f).boot = s.boot := rfl
@[simp] theorem State.modHome_sites : (s.modHome h f).sites = s.sites := rfl
@[simp] theorem State.modHome_homeMap : (s.modHome h f).homeMap = s.homeMap := rfl
@[simp] theorem State.modHome_nst : (s.modHome h f).nst = s.nst := rfl
@[simp] theorem State.modHome_deadLinks : (s.modHome h f).deadLinks = s.deadLinks := rfl
@[simp] theorem State.modHome_replays : (s.modHome h f).replays = s.replays := rfl
@[simp] theorem State.modHome_unreach : (s.modHome h f).unreach = s.unreach := rfl
@[simp] theorem State.modHome_buckets : (s.modHome h f).buckets = s.buckets := rfl
@[simp] theorem State.modHome_refilled : (s.modHome h f).refilled = s.refilled := rfl
@[simp] theorem State.modHome_aged : (s.modHome h f).aged = s.aged := rfl
@[simp] theorem State.modHome_pgMigs : (s.modHome h f).pgMigs = s.pgMigs := rfl
@[simp] theorem State.modHome_irqs : (s.modHome h f).irqs = s.irqs := rfl
@[simp] theorem State.modHome_hostAns : (s.modHome h f).hostAns = s.hostAns := rfl
@[simp] theorem State.modHome_frozen : (s.modHome h f).frozen = s.frozen := rfl

end

/-! ### `State.modMc` -/

section
variable (s : State) (m : Nat) (f : Mc → Mc)

@[simp] theorem State.modMc_tape : (s.modMc m f).tape = s.tape := rfl
@[simp] theorem State.modMc_cur : (s.modMc m f).cur = s.cur := rfl
@[simp] theorem State.modMc_subj : (s.modMc m f).subj = s.subj := rfl
@[simp] theorem State.modMc_turnNo : (s.modMc m f).turnNo = s.turnNo := rfl
@[simp] theorem State.modMc_freeCtr : (s.modMc m f).freeCtr = s.freeCtr := rfl
@[simp] theorem State.modMc_nextId : (s.modMc m f).nextId = s.nextId := rfl
@[simp] theorem State.modMc_ncyc : (s.modMc m f).ncyc = s.ncyc := rfl
@[simp] theorem State.modMc_gib : (s.modMc m f).gib = s.gib := rfl
@[simp] theorem State.modMc_mem : (s.modMc m f).mem = s.mem := rfl
@[simp] theorem State.modMc_tags : (s.modMc m f).tags = s.tags := rfl
@[simp] theorem State.modMc_poison : (s.modMc m f).poison = s.poison := rfl
@[simp] theorem State.modMc_harts : (s.modMc m f).harts = s.harts := rfl
@[simp] theorem State.modMc_groups : (s.modMc m f).groups = s.groups := rfl
@[simp] theorem State.modMc_blocks : (s.modMc m f).blocks = s.blocks := rfl
@[simp] theorem State.modMc_grids : (s.modMc m f).grids = s.grids := rfl
@[simp] theorem State.modMc_cores : (s.modMc m f).cores = s.cores := rfl
@[simp] theorem State.modMc_windows : (s.modMc m f).windows = s.windows := rfl
@[simp] theorem State.modMc_plinths : (s.modMc m f).plinths = s.plinths := rfl
@[simp] theorem State.modMc_engines : (s.modMc m f).engines = s.engines := rfl
@[simp] theorem State.modMc_pb : (s.modMc m f).pb = s.pb := rfl
@[simp] theorem State.modMc_accs : (s.modMc m f).accs = s.accs := rfl
@[simp] theorem State.modMc_ops : (s.modMc m f).ops = s.ops := rfl
@[simp] theorem State.modMc_gridArrs : (s.modMc m f).gridArrs = s.gridArrs := rfl
@[simp] theorem State.modMc_gridWaits : (s.modMc m f).gridWaits = s.gridWaits := rfl
@[simp] theorem State.modMc_held : (s.modMc m f).held = s.held := rfl
@[simp] theorem State.modMc_missRecs : (s.modMc m f).missRecs = s.missRecs := rfl
@[simp] theorem State.modMc_homes : (s.modMc m f).homes = s.homes := rfl
@[simp] theorem State.modMc_clusters : (s.modMc m f).clusters = s.clusters := rfl
@[simp] theorem State.modMc_queues : (s.modMc m f).queues = s.queues := rfl
@[simp] theorem State.modMc_packets : (s.modMc m f).packets = s.packets := rfl
@[simp] theorem State.modMc_graphs : (s.modMc m f).graphs = s.graphs := rfl
@[simp] theorem State.modMc_pipes : (s.modMc m f).pipes = s.pipes := rfl
@[simp] theorem State.modMc_watches : (s.modMc m f).watches = s.watches := rfl
@[simp] theorem State.modMc_timers : (s.modMc m f).timers = s.timers := rfl
@[simp] theorem State.modMc_cuts : (s.modMc m f).cuts = s.cuts := rfl
@[simp] theorem State.modMc_slots : (s.modMc m f).slots = s.slots := rfl
@[simp] theorem State.modMc_powers : (s.modMc m f).powers = s.powers := rfl
@[simp] theorem State.modMc_eths : (s.modMc m f).eths = s.eths := rfl
@[simp] theorem State.modMc_mod : (s.modMc m f).mod = s.mod := rfl
@[simp] theorem State.modMc_boot : (s.modMc m f).boot = s.boot := rfl
@[simp] theorem State.modMc_sites : (s.modMc m f).sites = s.sites := rfl
@[simp] theorem State.modMc_homeMap : (s.modMc m f).homeMap = s.homeMap := rfl
@[simp] theorem State.modMc_nst : (s.modMc m f).nst = s.nst := rfl
@[simp] theorem State.modMc_deadLinks : (s.modMc m f).deadLinks = s.deadLinks := rfl
@[simp] theorem State.modMc_replays : (s.modMc m f).replays = s.replays := rfl
@[simp] theorem State.modMc_unreach : (s.modMc m f).unreach = s.unreach := rfl
@[simp] theorem State.modMc_buckets : (s.modMc m f).buckets = s.buckets := rfl
@[simp] theorem State.modMc_refilled : (s.modMc m f).refilled = s.refilled := rfl
@[simp] theorem State.modMc_aged : (s.modMc m f).aged = s.aged := rfl
@[simp] theorem State.modMc_pgMigs : (s.modMc m f).pgMigs = s.pgMigs := rfl
@[simp] theorem State.modMc_irqs : (s.modMc m f).irqs = s.irqs := rfl
@[simp] theorem State.modMc_hostAns : (s.modMc m f).hostAns = s.hostAns := rfl
@[simp] theorem State.modMc_frozen : (s.modMc m f).frozen = s.frozen := rfl

end

/-! ### `State.modCluster` -/

section
variable (s : State) (k : Nat) (f : Cluster → Cluster)

@[simp] theorem State.modCluster_tape : (s.modCluster k f).tape = s.tape := rfl
@[simp] theorem State.modCluster_cur : (s.modCluster k f).cur = s.cur := rfl
@[simp] theorem State.modCluster_subj : (s.modCluster k f).subj = s.subj := rfl
@[simp] theorem State.modCluster_turnNo : (s.modCluster k f).turnNo = s.turnNo := rfl
@[simp] theorem State.modCluster_freeCtr : (s.modCluster k f).freeCtr = s.freeCtr := rfl
@[simp] theorem State.modCluster_nextId : (s.modCluster k f).nextId = s.nextId := rfl
@[simp] theorem State.modCluster_ncyc : (s.modCluster k f).ncyc = s.ncyc := rfl
@[simp] theorem State.modCluster_gib : (s.modCluster k f).gib = s.gib := rfl
@[simp] theorem State.modCluster_mem : (s.modCluster k f).mem = s.mem := rfl
@[simp] theorem State.modCluster_tags : (s.modCluster k f).tags = s.tags := rfl
@[simp] theorem State.modCluster_poison : (s.modCluster k f).poison = s.poison := rfl
@[simp] theorem State.modCluster_harts : (s.modCluster k f).harts = s.harts := rfl
@[simp] theorem State.modCluster_groups : (s.modCluster k f).groups = s.groups := rfl
@[simp] theorem State.modCluster_blocks : (s.modCluster k f).blocks = s.blocks := rfl
@[simp] theorem State.modCluster_grids : (s.modCluster k f).grids = s.grids := rfl
@[simp] theorem State.modCluster_cores : (s.modCluster k f).cores = s.cores := rfl
@[simp] theorem State.modCluster_windows : (s.modCluster k f).windows = s.windows := rfl
@[simp] theorem State.modCluster_plinths : (s.modCluster k f).plinths = s.plinths := rfl
@[simp] theorem State.modCluster_engines : (s.modCluster k f).engines = s.engines := rfl
@[simp] theorem State.modCluster_pb : (s.modCluster k f).pb = s.pb := rfl
@[simp] theorem State.modCluster_accs : (s.modCluster k f).accs = s.accs := rfl
@[simp] theorem State.modCluster_ops : (s.modCluster k f).ops = s.ops := rfl
@[simp] theorem State.modCluster_gridArrs : (s.modCluster k f).gridArrs = s.gridArrs := rfl
@[simp] theorem State.modCluster_gridWaits : (s.modCluster k f).gridWaits = s.gridWaits := rfl
@[simp] theorem State.modCluster_held : (s.modCluster k f).held = s.held := rfl
@[simp] theorem State.modCluster_missRecs : (s.modCluster k f).missRecs = s.missRecs := rfl
@[simp] theorem State.modCluster_homes : (s.modCluster k f).homes = s.homes := rfl
@[simp] theorem State.modCluster_mcs : (s.modCluster k f).mcs = s.mcs := rfl
@[simp] theorem State.modCluster_queues : (s.modCluster k f).queues = s.queues := rfl
@[simp] theorem State.modCluster_packets : (s.modCluster k f).packets = s.packets := rfl
@[simp] theorem State.modCluster_graphs : (s.modCluster k f).graphs = s.graphs := rfl
@[simp] theorem State.modCluster_pipes : (s.modCluster k f).pipes = s.pipes := rfl
@[simp] theorem State.modCluster_watches : (s.modCluster k f).watches = s.watches := rfl
@[simp] theorem State.modCluster_timers : (s.modCluster k f).timers = s.timers := rfl
@[simp] theorem State.modCluster_cuts : (s.modCluster k f).cuts = s.cuts := rfl
@[simp] theorem State.modCluster_slots : (s.modCluster k f).slots = s.slots := rfl
@[simp] theorem State.modCluster_powers : (s.modCluster k f).powers = s.powers := rfl
@[simp] theorem State.modCluster_eths : (s.modCluster k f).eths = s.eths := rfl
@[simp] theorem State.modCluster_mod : (s.modCluster k f).mod = s.mod := rfl
@[simp] theorem State.modCluster_boot : (s.modCluster k f).boot = s.boot := rfl
@[simp] theorem State.modCluster_sites : (s.modCluster k f).sites = s.sites := rfl
@[simp] theorem State.modCluster_homeMap : (s.modCluster k f).homeMap = s.homeMap := rfl
@[simp] theorem State.modCluster_nst : (s.modCluster k f).nst = s.nst := rfl
@[simp] theorem State.modCluster_deadLinks : (s.modCluster k f).deadLinks = s.deadLinks := rfl
@[simp] theorem State.modCluster_replays : (s.modCluster k f).replays = s.replays := rfl
@[simp] theorem State.modCluster_unreach : (s.modCluster k f).unreach = s.unreach := rfl
@[simp] theorem State.modCluster_buckets : (s.modCluster k f).buckets = s.buckets := rfl
@[simp] theorem State.modCluster_refilled : (s.modCluster k f).refilled = s.refilled := rfl
@[simp] theorem State.modCluster_aged : (s.modCluster k f).aged = s.aged := rfl
@[simp] theorem State.modCluster_pgMigs : (s.modCluster k f).pgMigs = s.pgMigs := rfl
@[simp] theorem State.modCluster_irqs : (s.modCluster k f).irqs = s.irqs := rfl
@[simp] theorem State.modCluster_hostAns : (s.modCluster k f).hostAns = s.hostAns := rfl
@[simp] theorem State.modCluster_frozen : (s.modCluster k f).frozen = s.frozen := rfl

end

/-! ### `State.modSite` -/

section
variable (s : State) (i : Nat) (f : Site → Site)

@[simp] theorem State.modSite_tape : (s.modSite i f).tape = s.tape := rfl
@[simp] theorem State.modSite_cur : (s.modSite i f).cur = s.cur := rfl
@[simp] theorem State.modSite_subj : (s.modSite i f).subj = s.subj := rfl
@[simp] theorem State.modSite_turnNo : (s.modSite i f).turnNo = s.turnNo := rfl
@[simp] theorem State.modSite_freeCtr : (s.modSite i f).freeCtr = s.freeCtr := rfl
@[simp] theorem State.modSite_nextId : (s.modSite i f).nextId = s.nextId := rfl
@[simp] theorem State.modSite_ncyc : (s.modSite i f).ncyc = s.ncyc := rfl
@[simp] theorem State.modSite_gib : (s.modSite i f).gib = s.gib := rfl
@[simp] theorem State.modSite_mem : (s.modSite i f).mem = s.mem := rfl
@[simp] theorem State.modSite_tags : (s.modSite i f).tags = s.tags := rfl
@[simp] theorem State.modSite_poison : (s.modSite i f).poison = s.poison := rfl
@[simp] theorem State.modSite_harts : (s.modSite i f).harts = s.harts := rfl
@[simp] theorem State.modSite_groups : (s.modSite i f).groups = s.groups := rfl
@[simp] theorem State.modSite_blocks : (s.modSite i f).blocks = s.blocks := rfl
@[simp] theorem State.modSite_grids : (s.modSite i f).grids = s.grids := rfl
@[simp] theorem State.modSite_cores : (s.modSite i f).cores = s.cores := rfl
@[simp] theorem State.modSite_windows : (s.modSite i f).windows = s.windows := rfl
@[simp] theorem State.modSite_plinths : (s.modSite i f).plinths = s.plinths := rfl
@[simp] theorem State.modSite_engines : (s.modSite i f).engines = s.engines := rfl
@[simp] theorem State.modSite_pb : (s.modSite i f).pb = s.pb := rfl
@[simp] theorem State.modSite_accs : (s.modSite i f).accs = s.accs := rfl
@[simp] theorem State.modSite_ops : (s.modSite i f).ops = s.ops := rfl
@[simp] theorem State.modSite_gridArrs : (s.modSite i f).gridArrs = s.gridArrs := rfl
@[simp] theorem State.modSite_gridWaits : (s.modSite i f).gridWaits = s.gridWaits := rfl
@[simp] theorem State.modSite_held : (s.modSite i f).held = s.held := rfl
@[simp] theorem State.modSite_missRecs : (s.modSite i f).missRecs = s.missRecs := rfl
@[simp] theorem State.modSite_homes : (s.modSite i f).homes = s.homes := rfl
@[simp] theorem State.modSite_mcs : (s.modSite i f).mcs = s.mcs := rfl
@[simp] theorem State.modSite_clusters : (s.modSite i f).clusters = s.clusters := rfl
@[simp] theorem State.modSite_queues : (s.modSite i f).queues = s.queues := rfl
@[simp] theorem State.modSite_packets : (s.modSite i f).packets = s.packets := rfl
@[simp] theorem State.modSite_graphs : (s.modSite i f).graphs = s.graphs := rfl
@[simp] theorem State.modSite_pipes : (s.modSite i f).pipes = s.pipes := rfl
@[simp] theorem State.modSite_watches : (s.modSite i f).watches = s.watches := rfl
@[simp] theorem State.modSite_timers : (s.modSite i f).timers = s.timers := rfl
@[simp] theorem State.modSite_cuts : (s.modSite i f).cuts = s.cuts := rfl
@[simp] theorem State.modSite_slots : (s.modSite i f).slots = s.slots := rfl
@[simp] theorem State.modSite_powers : (s.modSite i f).powers = s.powers := rfl
@[simp] theorem State.modSite_eths : (s.modSite i f).eths = s.eths := rfl
@[simp] theorem State.modSite_mod : (s.modSite i f).mod = s.mod := rfl
@[simp] theorem State.modSite_boot : (s.modSite i f).boot = s.boot := rfl
@[simp] theorem State.modSite_homeMap : (s.modSite i f).homeMap = s.homeMap := rfl
@[simp] theorem State.modSite_nst : (s.modSite i f).nst = s.nst := rfl
@[simp] theorem State.modSite_deadLinks : (s.modSite i f).deadLinks = s.deadLinks := rfl
@[simp] theorem State.modSite_replays : (s.modSite i f).replays = s.replays := rfl
@[simp] theorem State.modSite_unreach : (s.modSite i f).unreach = s.unreach := rfl
@[simp] theorem State.modSite_buckets : (s.modSite i f).buckets = s.buckets := rfl
@[simp] theorem State.modSite_refilled : (s.modSite i f).refilled = s.refilled := rfl
@[simp] theorem State.modSite_aged : (s.modSite i f).aged = s.aged := rfl
@[simp] theorem State.modSite_pgMigs : (s.modSite i f).pgMigs = s.pgMigs := rfl
@[simp] theorem State.modSite_irqs : (s.modSite i f).irqs = s.irqs := rfl
@[simp] theorem State.modSite_hostAns : (s.modSite i f).hostAns = s.hostAns := rfl
@[simp] theorem State.modSite_frozen : (s.modSite i f).frozen = s.frozen := rfl

end

/-! ### `State.modSlot` -/

section
variable (s : State) (i : Nat) (f : Slot → Slot)

@[simp] theorem State.modSlot_tape : (s.modSlot i f).tape = s.tape := rfl
@[simp] theorem State.modSlot_cur : (s.modSlot i f).cur = s.cur := rfl
@[simp] theorem State.modSlot_subj : (s.modSlot i f).subj = s.subj := rfl
@[simp] theorem State.modSlot_turnNo : (s.modSlot i f).turnNo = s.turnNo := rfl
@[simp] theorem State.modSlot_freeCtr : (s.modSlot i f).freeCtr = s.freeCtr := rfl
@[simp] theorem State.modSlot_nextId : (s.modSlot i f).nextId = s.nextId := rfl
@[simp] theorem State.modSlot_ncyc : (s.modSlot i f).ncyc = s.ncyc := rfl
@[simp] theorem State.modSlot_gib : (s.modSlot i f).gib = s.gib := rfl
@[simp] theorem State.modSlot_mem : (s.modSlot i f).mem = s.mem := rfl
@[simp] theorem State.modSlot_tags : (s.modSlot i f).tags = s.tags := rfl
@[simp] theorem State.modSlot_poison : (s.modSlot i f).poison = s.poison := rfl
@[simp] theorem State.modSlot_harts : (s.modSlot i f).harts = s.harts := rfl
@[simp] theorem State.modSlot_groups : (s.modSlot i f).groups = s.groups := rfl
@[simp] theorem State.modSlot_blocks : (s.modSlot i f).blocks = s.blocks := rfl
@[simp] theorem State.modSlot_grids : (s.modSlot i f).grids = s.grids := rfl
@[simp] theorem State.modSlot_cores : (s.modSlot i f).cores = s.cores := rfl
@[simp] theorem State.modSlot_windows : (s.modSlot i f).windows = s.windows := rfl
@[simp] theorem State.modSlot_plinths : (s.modSlot i f).plinths = s.plinths := rfl
@[simp] theorem State.modSlot_engines : (s.modSlot i f).engines = s.engines := rfl
@[simp] theorem State.modSlot_pb : (s.modSlot i f).pb = s.pb := rfl
@[simp] theorem State.modSlot_accs : (s.modSlot i f).accs = s.accs := rfl
@[simp] theorem State.modSlot_ops : (s.modSlot i f).ops = s.ops := rfl
@[simp] theorem State.modSlot_gridArrs : (s.modSlot i f).gridArrs = s.gridArrs := rfl
@[simp] theorem State.modSlot_gridWaits : (s.modSlot i f).gridWaits = s.gridWaits := rfl
@[simp] theorem State.modSlot_held : (s.modSlot i f).held = s.held := rfl
@[simp] theorem State.modSlot_missRecs : (s.modSlot i f).missRecs = s.missRecs := rfl
@[simp] theorem State.modSlot_homes : (s.modSlot i f).homes = s.homes := rfl
@[simp] theorem State.modSlot_mcs : (s.modSlot i f).mcs = s.mcs := rfl
@[simp] theorem State.modSlot_clusters : (s.modSlot i f).clusters = s.clusters := rfl
@[simp] theorem State.modSlot_queues : (s.modSlot i f).queues = s.queues := rfl
@[simp] theorem State.modSlot_packets : (s.modSlot i f).packets = s.packets := rfl
@[simp] theorem State.modSlot_graphs : (s.modSlot i f).graphs = s.graphs := rfl
@[simp] theorem State.modSlot_pipes : (s.modSlot i f).pipes = s.pipes := rfl
@[simp] theorem State.modSlot_watches : (s.modSlot i f).watches = s.watches := rfl
@[simp] theorem State.modSlot_timers : (s.modSlot i f).timers = s.timers := rfl
@[simp] theorem State.modSlot_cuts : (s.modSlot i f).cuts = s.cuts := rfl
@[simp] theorem State.modSlot_powers : (s.modSlot i f).powers = s.powers := rfl
@[simp] theorem State.modSlot_eths : (s.modSlot i f).eths = s.eths := rfl
@[simp] theorem State.modSlot_mod : (s.modSlot i f).mod = s.mod := rfl
@[simp] theorem State.modSlot_boot : (s.modSlot i f).boot = s.boot := rfl
@[simp] theorem State.modSlot_sites : (s.modSlot i f).sites = s.sites := rfl
@[simp] theorem State.modSlot_homeMap : (s.modSlot i f).homeMap = s.homeMap := rfl
@[simp] theorem State.modSlot_nst : (s.modSlot i f).nst = s.nst := rfl
@[simp] theorem State.modSlot_deadLinks : (s.modSlot i f).deadLinks = s.deadLinks := rfl
@[simp] theorem State.modSlot_replays : (s.modSlot i f).replays = s.replays := rfl
@[simp] theorem State.modSlot_unreach : (s.modSlot i f).unreach = s.unreach := rfl
@[simp] theorem State.modSlot_buckets : (s.modSlot i f).buckets = s.buckets := rfl
@[simp] theorem State.modSlot_refilled : (s.modSlot i f).refilled = s.refilled := rfl
@[simp] theorem State.modSlot_aged : (s.modSlot i f).aged = s.aged := rfl
@[simp] theorem State.modSlot_pgMigs : (s.modSlot i f).pgMigs = s.pgMigs := rfl
@[simp] theorem State.modSlot_irqs : (s.modSlot i f).irqs = s.irqs := rfl
@[simp] theorem State.modSlot_hostAns : (s.modSlot i f).hostAns = s.hostAns := rfl
@[simp] theorem State.modSlot_frozen : (s.modSlot i f).frozen = s.frozen := rfl

end

/-! ### `State.modEth` -/

section
variable (s : State) (p : Nat) (f : Eth → Eth)

@[simp] theorem State.modEth_tape : (s.modEth p f).tape = s.tape := rfl
@[simp] theorem State.modEth_cur : (s.modEth p f).cur = s.cur := rfl
@[simp] theorem State.modEth_subj : (s.modEth p f).subj = s.subj := rfl
@[simp] theorem State.modEth_turnNo : (s.modEth p f).turnNo = s.turnNo := rfl
@[simp] theorem State.modEth_freeCtr : (s.modEth p f).freeCtr = s.freeCtr := rfl
@[simp] theorem State.modEth_nextId : (s.modEth p f).nextId = s.nextId := rfl
@[simp] theorem State.modEth_ncyc : (s.modEth p f).ncyc = s.ncyc := rfl
@[simp] theorem State.modEth_gib : (s.modEth p f).gib = s.gib := rfl
@[simp] theorem State.modEth_mem : (s.modEth p f).mem = s.mem := rfl
@[simp] theorem State.modEth_tags : (s.modEth p f).tags = s.tags := rfl
@[simp] theorem State.modEth_poison : (s.modEth p f).poison = s.poison := rfl
@[simp] theorem State.modEth_harts : (s.modEth p f).harts = s.harts := rfl
@[simp] theorem State.modEth_groups : (s.modEth p f).groups = s.groups := rfl
@[simp] theorem State.modEth_blocks : (s.modEth p f).blocks = s.blocks := rfl
@[simp] theorem State.modEth_grids : (s.modEth p f).grids = s.grids := rfl
@[simp] theorem State.modEth_cores : (s.modEth p f).cores = s.cores := rfl
@[simp] theorem State.modEth_windows : (s.modEth p f).windows = s.windows := rfl
@[simp] theorem State.modEth_plinths : (s.modEth p f).plinths = s.plinths := rfl
@[simp] theorem State.modEth_engines : (s.modEth p f).engines = s.engines := rfl
@[simp] theorem State.modEth_pb : (s.modEth p f).pb = s.pb := rfl
@[simp] theorem State.modEth_accs : (s.modEth p f).accs = s.accs := rfl
@[simp] theorem State.modEth_ops : (s.modEth p f).ops = s.ops := rfl
@[simp] theorem State.modEth_gridArrs : (s.modEth p f).gridArrs = s.gridArrs := rfl
@[simp] theorem State.modEth_gridWaits : (s.modEth p f).gridWaits = s.gridWaits := rfl
@[simp] theorem State.modEth_held : (s.modEth p f).held = s.held := rfl
@[simp] theorem State.modEth_missRecs : (s.modEth p f).missRecs = s.missRecs := rfl
@[simp] theorem State.modEth_homes : (s.modEth p f).homes = s.homes := rfl
@[simp] theorem State.modEth_mcs : (s.modEth p f).mcs = s.mcs := rfl
@[simp] theorem State.modEth_clusters : (s.modEth p f).clusters = s.clusters := rfl
@[simp] theorem State.modEth_queues : (s.modEth p f).queues = s.queues := rfl
@[simp] theorem State.modEth_packets : (s.modEth p f).packets = s.packets := rfl
@[simp] theorem State.modEth_graphs : (s.modEth p f).graphs = s.graphs := rfl
@[simp] theorem State.modEth_pipes : (s.modEth p f).pipes = s.pipes := rfl
@[simp] theorem State.modEth_watches : (s.modEth p f).watches = s.watches := rfl
@[simp] theorem State.modEth_timers : (s.modEth p f).timers = s.timers := rfl
@[simp] theorem State.modEth_cuts : (s.modEth p f).cuts = s.cuts := rfl
@[simp] theorem State.modEth_slots : (s.modEth p f).slots = s.slots := rfl
@[simp] theorem State.modEth_powers : (s.modEth p f).powers = s.powers := rfl
@[simp] theorem State.modEth_mod : (s.modEth p f).mod = s.mod := rfl
@[simp] theorem State.modEth_boot : (s.modEth p f).boot = s.boot := rfl
@[simp] theorem State.modEth_sites : (s.modEth p f).sites = s.sites := rfl
@[simp] theorem State.modEth_homeMap : (s.modEth p f).homeMap = s.homeMap := rfl
@[simp] theorem State.modEth_nst : (s.modEth p f).nst = s.nst := rfl
@[simp] theorem State.modEth_deadLinks : (s.modEth p f).deadLinks = s.deadLinks := rfl
@[simp] theorem State.modEth_replays : (s.modEth p f).replays = s.replays := rfl
@[simp] theorem State.modEth_unreach : (s.modEth p f).unreach = s.unreach := rfl
@[simp] theorem State.modEth_buckets : (s.modEth p f).buckets = s.buckets := rfl
@[simp] theorem State.modEth_refilled : (s.modEth p f).refilled = s.refilled := rfl
@[simp] theorem State.modEth_aged : (s.modEth p f).aged = s.aged := rfl
@[simp] theorem State.modEth_pgMigs : (s.modEth p f).pgMigs = s.pgMigs := rfl
@[simp] theorem State.modEth_irqs : (s.modEth p f).irqs = s.irqs := rfl
@[simp] theorem State.modEth_hostAns : (s.modEth p f).hostAns = s.hostAns := rfl
@[simp] theorem State.modEth_frozen : (s.modEth p f).frozen = s.frozen := rfl

end

/-! ### `State.modQueue` -/

section
variable (s : State) (q : Nat) (f : QueueSt → QueueSt)

@[simp] theorem State.modQueue_tape : (s.modQueue q f).tape = s.tape := rfl
@[simp] theorem State.modQueue_cur : (s.modQueue q f).cur = s.cur := rfl
@[simp] theorem State.modQueue_subj : (s.modQueue q f).subj = s.subj := rfl
@[simp] theorem State.modQueue_turnNo : (s.modQueue q f).turnNo = s.turnNo := rfl
@[simp] theorem State.modQueue_freeCtr : (s.modQueue q f).freeCtr = s.freeCtr := rfl
@[simp] theorem State.modQueue_nextId : (s.modQueue q f).nextId = s.nextId := rfl
@[simp] theorem State.modQueue_ncyc : (s.modQueue q f).ncyc = s.ncyc := rfl
@[simp] theorem State.modQueue_gib : (s.modQueue q f).gib = s.gib := rfl
@[simp] theorem State.modQueue_mem : (s.modQueue q f).mem = s.mem := rfl
@[simp] theorem State.modQueue_tags : (s.modQueue q f).tags = s.tags := rfl
@[simp] theorem State.modQueue_poison : (s.modQueue q f).poison = s.poison := rfl
@[simp] theorem State.modQueue_harts : (s.modQueue q f).harts = s.harts := rfl
@[simp] theorem State.modQueue_groups : (s.modQueue q f).groups = s.groups := rfl
@[simp] theorem State.modQueue_blocks : (s.modQueue q f).blocks = s.blocks := rfl
@[simp] theorem State.modQueue_grids : (s.modQueue q f).grids = s.grids := rfl
@[simp] theorem State.modQueue_cores : (s.modQueue q f).cores = s.cores := rfl
@[simp] theorem State.modQueue_windows : (s.modQueue q f).windows = s.windows := rfl
@[simp] theorem State.modQueue_plinths : (s.modQueue q f).plinths = s.plinths := rfl
@[simp] theorem State.modQueue_engines : (s.modQueue q f).engines = s.engines := rfl
@[simp] theorem State.modQueue_pb : (s.modQueue q f).pb = s.pb := rfl
@[simp] theorem State.modQueue_accs : (s.modQueue q f).accs = s.accs := rfl
@[simp] theorem State.modQueue_ops : (s.modQueue q f).ops = s.ops := rfl
@[simp] theorem State.modQueue_gridArrs : (s.modQueue q f).gridArrs = s.gridArrs := rfl
@[simp] theorem State.modQueue_gridWaits : (s.modQueue q f).gridWaits = s.gridWaits := rfl
@[simp] theorem State.modQueue_held : (s.modQueue q f).held = s.held := rfl
@[simp] theorem State.modQueue_missRecs : (s.modQueue q f).missRecs = s.missRecs := rfl
@[simp] theorem State.modQueue_homes : (s.modQueue q f).homes = s.homes := rfl
@[simp] theorem State.modQueue_mcs : (s.modQueue q f).mcs = s.mcs := rfl
@[simp] theorem State.modQueue_clusters : (s.modQueue q f).clusters = s.clusters := rfl
@[simp] theorem State.modQueue_packets : (s.modQueue q f).packets = s.packets := rfl
@[simp] theorem State.modQueue_graphs : (s.modQueue q f).graphs = s.graphs := rfl
@[simp] theorem State.modQueue_pipes : (s.modQueue q f).pipes = s.pipes := rfl
@[simp] theorem State.modQueue_watches : (s.modQueue q f).watches = s.watches := rfl
@[simp] theorem State.modQueue_timers : (s.modQueue q f).timers = s.timers := rfl
@[simp] theorem State.modQueue_cuts : (s.modQueue q f).cuts = s.cuts := rfl
@[simp] theorem State.modQueue_slots : (s.modQueue q f).slots = s.slots := rfl
@[simp] theorem State.modQueue_powers : (s.modQueue q f).powers = s.powers := rfl
@[simp] theorem State.modQueue_eths : (s.modQueue q f).eths = s.eths := rfl
@[simp] theorem State.modQueue_mod : (s.modQueue q f).mod = s.mod := rfl
@[simp] theorem State.modQueue_boot : (s.modQueue q f).boot = s.boot := rfl
@[simp] theorem State.modQueue_sites : (s.modQueue q f).sites = s.sites := rfl
@[simp] theorem State.modQueue_homeMap : (s.modQueue q f).homeMap = s.homeMap := rfl
@[simp] theorem State.modQueue_nst : (s.modQueue q f).nst = s.nst := rfl
@[simp] theorem State.modQueue_deadLinks : (s.modQueue q f).deadLinks = s.deadLinks := rfl
@[simp] theorem State.modQueue_replays : (s.modQueue q f).replays = s.replays := rfl
@[simp] theorem State.modQueue_unreach : (s.modQueue q f).unreach = s.unreach := rfl
@[simp] theorem State.modQueue_buckets : (s.modQueue q f).buckets = s.buckets := rfl
@[simp] theorem State.modQueue_refilled : (s.modQueue q f).refilled = s.refilled := rfl
@[simp] theorem State.modQueue_aged : (s.modQueue q f).aged = s.aged := rfl
@[simp] theorem State.modQueue_pgMigs : (s.modQueue q f).pgMigs = s.pgMigs := rfl
@[simp] theorem State.modQueue_irqs : (s.modQueue q f).irqs = s.irqs := rfl
@[simp] theorem State.modQueue_hostAns : (s.modQueue q f).hostAns = s.hostAns := rfl
@[simp] theorem State.modQueue_frozen : (s.modQueue q f).frozen = s.frozen := rfl

end

/-! ### `State.modOp` -/

section
variable (s : State) (o : Nat) (f : Op → Op)

@[simp] theorem State.modOp_tape : (s.modOp o f).tape = s.tape := rfl
@[simp] theorem State.modOp_cur : (s.modOp o f).cur = s.cur := rfl
@[simp] theorem State.modOp_subj : (s.modOp o f).subj = s.subj := rfl
@[simp] theorem State.modOp_turnNo : (s.modOp o f).turnNo = s.turnNo := rfl
@[simp] theorem State.modOp_freeCtr : (s.modOp o f).freeCtr = s.freeCtr := rfl
@[simp] theorem State.modOp_nextId : (s.modOp o f).nextId = s.nextId := rfl
@[simp] theorem State.modOp_ncyc : (s.modOp o f).ncyc = s.ncyc := rfl
@[simp] theorem State.modOp_gib : (s.modOp o f).gib = s.gib := rfl
@[simp] theorem State.modOp_mem : (s.modOp o f).mem = s.mem := rfl
@[simp] theorem State.modOp_tags : (s.modOp o f).tags = s.tags := rfl
@[simp] theorem State.modOp_poison : (s.modOp o f).poison = s.poison := rfl
@[simp] theorem State.modOp_harts : (s.modOp o f).harts = s.harts := rfl
@[simp] theorem State.modOp_groups : (s.modOp o f).groups = s.groups := rfl
@[simp] theorem State.modOp_blocks : (s.modOp o f).blocks = s.blocks := rfl
@[simp] theorem State.modOp_grids : (s.modOp o f).grids = s.grids := rfl
@[simp] theorem State.modOp_cores : (s.modOp o f).cores = s.cores := rfl
@[simp] theorem State.modOp_windows : (s.modOp o f).windows = s.windows := rfl
@[simp] theorem State.modOp_plinths : (s.modOp o f).plinths = s.plinths := rfl
@[simp] theorem State.modOp_engines : (s.modOp o f).engines = s.engines := rfl
@[simp] theorem State.modOp_pb : (s.modOp o f).pb = s.pb := rfl
@[simp] theorem State.modOp_accs : (s.modOp o f).accs = s.accs := rfl
@[simp] theorem State.modOp_gridArrs : (s.modOp o f).gridArrs = s.gridArrs := rfl
@[simp] theorem State.modOp_gridWaits : (s.modOp o f).gridWaits = s.gridWaits := rfl
@[simp] theorem State.modOp_held : (s.modOp o f).held = s.held := rfl
@[simp] theorem State.modOp_missRecs : (s.modOp o f).missRecs = s.missRecs := rfl
@[simp] theorem State.modOp_homes : (s.modOp o f).homes = s.homes := rfl
@[simp] theorem State.modOp_mcs : (s.modOp o f).mcs = s.mcs := rfl
@[simp] theorem State.modOp_clusters : (s.modOp o f).clusters = s.clusters := rfl
@[simp] theorem State.modOp_queues : (s.modOp o f).queues = s.queues := rfl
@[simp] theorem State.modOp_packets : (s.modOp o f).packets = s.packets := rfl
@[simp] theorem State.modOp_graphs : (s.modOp o f).graphs = s.graphs := rfl
@[simp] theorem State.modOp_pipes : (s.modOp o f).pipes = s.pipes := rfl
@[simp] theorem State.modOp_watches : (s.modOp o f).watches = s.watches := rfl
@[simp] theorem State.modOp_timers : (s.modOp o f).timers = s.timers := rfl
@[simp] theorem State.modOp_cuts : (s.modOp o f).cuts = s.cuts := rfl
@[simp] theorem State.modOp_slots : (s.modOp o f).slots = s.slots := rfl
@[simp] theorem State.modOp_powers : (s.modOp o f).powers = s.powers := rfl
@[simp] theorem State.modOp_eths : (s.modOp o f).eths = s.eths := rfl
@[simp] theorem State.modOp_mod : (s.modOp o f).mod = s.mod := rfl
@[simp] theorem State.modOp_boot : (s.modOp o f).boot = s.boot := rfl
@[simp] theorem State.modOp_sites : (s.modOp o f).sites = s.sites := rfl
@[simp] theorem State.modOp_homeMap : (s.modOp o f).homeMap = s.homeMap := rfl
@[simp] theorem State.modOp_nst : (s.modOp o f).nst = s.nst := rfl
@[simp] theorem State.modOp_deadLinks : (s.modOp o f).deadLinks = s.deadLinks := rfl
@[simp] theorem State.modOp_replays : (s.modOp o f).replays = s.replays := rfl
@[simp] theorem State.modOp_unreach : (s.modOp o f).unreach = s.unreach := rfl
@[simp] theorem State.modOp_buckets : (s.modOp o f).buckets = s.buckets := rfl
@[simp] theorem State.modOp_refilled : (s.modOp o f).refilled = s.refilled := rfl
@[simp] theorem State.modOp_aged : (s.modOp o f).aged = s.aged := rfl
@[simp] theorem State.modOp_pgMigs : (s.modOp o f).pgMigs = s.pgMigs := rfl
@[simp] theorem State.modOp_irqs : (s.modOp o f).irqs = s.irqs := rfl
@[simp] theorem State.modOp_hostAns : (s.modOp o f).hostAns = s.hostAns := rfl
@[simp] theorem State.modOp_frozen : (s.modOp o f).frozen = s.frozen := rfl

end

/-! ### `State.modMod` -/

section
variable (s : State) (f : Module → Module)

@[simp] theorem State.modMod_tape : (s.modMod f).tape = s.tape := rfl
@[simp] theorem State.modMod_cur : (s.modMod f).cur = s.cur := rfl
@[simp] theorem State.modMod_subj : (s.modMod f).subj = s.subj := rfl
@[simp] theorem State.modMod_turnNo : (s.modMod f).turnNo = s.turnNo := rfl
@[simp] theorem State.modMod_freeCtr : (s.modMod f).freeCtr = s.freeCtr := rfl
@[simp] theorem State.modMod_nextId : (s.modMod f).nextId = s.nextId := rfl
@[simp] theorem State.modMod_ncyc : (s.modMod f).ncyc = s.ncyc := rfl
@[simp] theorem State.modMod_gib : (s.modMod f).gib = s.gib := rfl
@[simp] theorem State.modMod_mem : (s.modMod f).mem = s.mem := rfl
@[simp] theorem State.modMod_tags : (s.modMod f).tags = s.tags := rfl
@[simp] theorem State.modMod_poison : (s.modMod f).poison = s.poison := rfl
@[simp] theorem State.modMod_harts : (s.modMod f).harts = s.harts := rfl
@[simp] theorem State.modMod_groups : (s.modMod f).groups = s.groups := rfl
@[simp] theorem State.modMod_blocks : (s.modMod f).blocks = s.blocks := rfl
@[simp] theorem State.modMod_grids : (s.modMod f).grids = s.grids := rfl
@[simp] theorem State.modMod_cores : (s.modMod f).cores = s.cores := rfl
@[simp] theorem State.modMod_windows : (s.modMod f).windows = s.windows := rfl
@[simp] theorem State.modMod_plinths : (s.modMod f).plinths = s.plinths := rfl
@[simp] theorem State.modMod_engines : (s.modMod f).engines = s.engines := rfl
@[simp] theorem State.modMod_pb : (s.modMod f).pb = s.pb := rfl
@[simp] theorem State.modMod_accs : (s.modMod f).accs = s.accs := rfl
@[simp] theorem State.modMod_ops : (s.modMod f).ops = s.ops := rfl
@[simp] theorem State.modMod_gridArrs : (s.modMod f).gridArrs = s.gridArrs := rfl
@[simp] theorem State.modMod_gridWaits : (s.modMod f).gridWaits = s.gridWaits := rfl
@[simp] theorem State.modMod_held : (s.modMod f).held = s.held := rfl
@[simp] theorem State.modMod_missRecs : (s.modMod f).missRecs = s.missRecs := rfl
@[simp] theorem State.modMod_homes : (s.modMod f).homes = s.homes := rfl
@[simp] theorem State.modMod_mcs : (s.modMod f).mcs = s.mcs := rfl
@[simp] theorem State.modMod_clusters : (s.modMod f).clusters = s.clusters := rfl
@[simp] theorem State.modMod_queues : (s.modMod f).queues = s.queues := rfl
@[simp] theorem State.modMod_packets : (s.modMod f).packets = s.packets := rfl
@[simp] theorem State.modMod_graphs : (s.modMod f).graphs = s.graphs := rfl
@[simp] theorem State.modMod_pipes : (s.modMod f).pipes = s.pipes := rfl
@[simp] theorem State.modMod_watches : (s.modMod f).watches = s.watches := rfl
@[simp] theorem State.modMod_timers : (s.modMod f).timers = s.timers := rfl
@[simp] theorem State.modMod_cuts : (s.modMod f).cuts = s.cuts := rfl
@[simp] theorem State.modMod_slots : (s.modMod f).slots = s.slots := rfl
@[simp] theorem State.modMod_powers : (s.modMod f).powers = s.powers := rfl
@[simp] theorem State.modMod_eths : (s.modMod f).eths = s.eths := rfl
@[simp] theorem State.modMod_boot : (s.modMod f).boot = s.boot := rfl
@[simp] theorem State.modMod_sites : (s.modMod f).sites = s.sites := rfl
@[simp] theorem State.modMod_homeMap : (s.modMod f).homeMap = s.homeMap := rfl
@[simp] theorem State.modMod_nst : (s.modMod f).nst = s.nst := rfl
@[simp] theorem State.modMod_deadLinks : (s.modMod f).deadLinks = s.deadLinks := rfl
@[simp] theorem State.modMod_replays : (s.modMod f).replays = s.replays := rfl
@[simp] theorem State.modMod_unreach : (s.modMod f).unreach = s.unreach := rfl
@[simp] theorem State.modMod_buckets : (s.modMod f).buckets = s.buckets := rfl
@[simp] theorem State.modMod_refilled : (s.modMod f).refilled = s.refilled := rfl
@[simp] theorem State.modMod_aged : (s.modMod f).aged = s.aged := rfl
@[simp] theorem State.modMod_pgMigs : (s.modMod f).pgMigs = s.pgMigs := rfl
@[simp] theorem State.modMod_irqs : (s.modMod f).irqs = s.irqs := rfl
@[simp] theorem State.modMod_hostAns : (s.modMod f).hostAns = s.hostAns := rfl
@[simp] theorem State.modMod_frozen : (s.modMod f).frozen = s.frozen := rfl

end

/-! ### `State.setTag` -/

section
variable (s : State) (k : Nat) (t : BitVec 16)

@[simp] theorem State.setTag_tape : (s.setTag k t).tape = s.tape := rfl
@[simp] theorem State.setTag_cur : (s.setTag k t).cur = s.cur := rfl
@[simp] theorem State.setTag_subj : (s.setTag k t).subj = s.subj := rfl
@[simp] theorem State.setTag_turnNo : (s.setTag k t).turnNo = s.turnNo := rfl
@[simp] theorem State.setTag_freeCtr : (s.setTag k t).freeCtr = s.freeCtr := rfl
@[simp] theorem State.setTag_nextId : (s.setTag k t).nextId = s.nextId := rfl
@[simp] theorem State.setTag_ncyc : (s.setTag k t).ncyc = s.ncyc := rfl
@[simp] theorem State.setTag_gib : (s.setTag k t).gib = s.gib := rfl
@[simp] theorem State.setTag_mem : (s.setTag k t).mem = s.mem := rfl
@[simp] theorem State.setTag_poison : (s.setTag k t).poison = s.poison := rfl
@[simp] theorem State.setTag_harts : (s.setTag k t).harts = s.harts := rfl
@[simp] theorem State.setTag_groups : (s.setTag k t).groups = s.groups := rfl
@[simp] theorem State.setTag_blocks : (s.setTag k t).blocks = s.blocks := rfl
@[simp] theorem State.setTag_grids : (s.setTag k t).grids = s.grids := rfl
@[simp] theorem State.setTag_cores : (s.setTag k t).cores = s.cores := rfl
@[simp] theorem State.setTag_windows : (s.setTag k t).windows = s.windows := rfl
@[simp] theorem State.setTag_plinths : (s.setTag k t).plinths = s.plinths := rfl
@[simp] theorem State.setTag_engines : (s.setTag k t).engines = s.engines := rfl
@[simp] theorem State.setTag_pb : (s.setTag k t).pb = s.pb := rfl
@[simp] theorem State.setTag_accs : (s.setTag k t).accs = s.accs := rfl
@[simp] theorem State.setTag_ops : (s.setTag k t).ops = s.ops := rfl
@[simp] theorem State.setTag_gridArrs : (s.setTag k t).gridArrs = s.gridArrs := rfl
@[simp] theorem State.setTag_gridWaits : (s.setTag k t).gridWaits = s.gridWaits := rfl
@[simp] theorem State.setTag_held : (s.setTag k t).held = s.held := rfl
@[simp] theorem State.setTag_missRecs : (s.setTag k t).missRecs = s.missRecs := rfl
@[simp] theorem State.setTag_homes : (s.setTag k t).homes = s.homes := rfl
@[simp] theorem State.setTag_mcs : (s.setTag k t).mcs = s.mcs := rfl
@[simp] theorem State.setTag_clusters : (s.setTag k t).clusters = s.clusters := rfl
@[simp] theorem State.setTag_queues : (s.setTag k t).queues = s.queues := rfl
@[simp] theorem State.setTag_packets : (s.setTag k t).packets = s.packets := rfl
@[simp] theorem State.setTag_graphs : (s.setTag k t).graphs = s.graphs := rfl
@[simp] theorem State.setTag_pipes : (s.setTag k t).pipes = s.pipes := rfl
@[simp] theorem State.setTag_watches : (s.setTag k t).watches = s.watches := rfl
@[simp] theorem State.setTag_timers : (s.setTag k t).timers = s.timers := rfl
@[simp] theorem State.setTag_cuts : (s.setTag k t).cuts = s.cuts := rfl
@[simp] theorem State.setTag_slots : (s.setTag k t).slots = s.slots := rfl
@[simp] theorem State.setTag_powers : (s.setTag k t).powers = s.powers := rfl
@[simp] theorem State.setTag_eths : (s.setTag k t).eths = s.eths := rfl
@[simp] theorem State.setTag_mod : (s.setTag k t).mod = s.mod := rfl
@[simp] theorem State.setTag_boot : (s.setTag k t).boot = s.boot := rfl
@[simp] theorem State.setTag_sites : (s.setTag k t).sites = s.sites := rfl
@[simp] theorem State.setTag_homeMap : (s.setTag k t).homeMap = s.homeMap := rfl
@[simp] theorem State.setTag_nst : (s.setTag k t).nst = s.nst := rfl
@[simp] theorem State.setTag_deadLinks : (s.setTag k t).deadLinks = s.deadLinks := rfl
@[simp] theorem State.setTag_replays : (s.setTag k t).replays = s.replays := rfl
@[simp] theorem State.setTag_unreach : (s.setTag k t).unreach = s.unreach := rfl
@[simp] theorem State.setTag_buckets : (s.setTag k t).buckets = s.buckets := rfl
@[simp] theorem State.setTag_refilled : (s.setTag k t).refilled = s.refilled := rfl
@[simp] theorem State.setTag_aged : (s.setTag k t).aged = s.aged := rfl
@[simp] theorem State.setTag_pgMigs : (s.setTag k t).pgMigs = s.pgMigs := rfl
@[simp] theorem State.setTag_irqs : (s.setTag k t).irqs = s.irqs := rfl
@[simp] theorem State.setTag_hostAns : (s.setTag k t).hostAns = s.hostAns := rfl
@[simp] theorem State.setTag_frozen : (s.setTag k t).frozen = s.frozen := rfl

end

/-! ### `State.modPair` -/

section
variable (s : State) (h : Nat) (f : Hart → Hart)

@[simp] theorem State.modPair_tape : (s.modPair h f).tape = s.tape := rfl
@[simp] theorem State.modPair_cur : (s.modPair h f).cur = s.cur := rfl
@[simp] theorem State.modPair_subj : (s.modPair h f).subj = s.subj := rfl
@[simp] theorem State.modPair_turnNo : (s.modPair h f).turnNo = s.turnNo := rfl
@[simp] theorem State.modPair_freeCtr : (s.modPair h f).freeCtr = s.freeCtr := rfl
@[simp] theorem State.modPair_nextId : (s.modPair h f).nextId = s.nextId := rfl
@[simp] theorem State.modPair_ncyc : (s.modPair h f).ncyc = s.ncyc := rfl
@[simp] theorem State.modPair_gib : (s.modPair h f).gib = s.gib := rfl
@[simp] theorem State.modPair_mem : (s.modPair h f).mem = s.mem := rfl
@[simp] theorem State.modPair_tags : (s.modPair h f).tags = s.tags := rfl
@[simp] theorem State.modPair_poison : (s.modPair h f).poison = s.poison := rfl
@[simp] theorem State.modPair_groups : (s.modPair h f).groups = s.groups := rfl
@[simp] theorem State.modPair_blocks : (s.modPair h f).blocks = s.blocks := rfl
@[simp] theorem State.modPair_grids : (s.modPair h f).grids = s.grids := rfl
@[simp] theorem State.modPair_cores : (s.modPair h f).cores = s.cores := rfl
@[simp] theorem State.modPair_windows : (s.modPair h f).windows = s.windows := rfl
@[simp] theorem State.modPair_plinths : (s.modPair h f).plinths = s.plinths := rfl
@[simp] theorem State.modPair_engines : (s.modPair h f).engines = s.engines := rfl
@[simp] theorem State.modPair_pb : (s.modPair h f).pb = s.pb := rfl
@[simp] theorem State.modPair_accs : (s.modPair h f).accs = s.accs := rfl
@[simp] theorem State.modPair_ops : (s.modPair h f).ops = s.ops := rfl
@[simp] theorem State.modPair_gridArrs : (s.modPair h f).gridArrs = s.gridArrs := rfl
@[simp] theorem State.modPair_gridWaits : (s.modPair h f).gridWaits = s.gridWaits := rfl
@[simp] theorem State.modPair_held : (s.modPair h f).held = s.held := rfl
@[simp] theorem State.modPair_missRecs : (s.modPair h f).missRecs = s.missRecs := rfl
@[simp] theorem State.modPair_homes : (s.modPair h f).homes = s.homes := rfl
@[simp] theorem State.modPair_mcs : (s.modPair h f).mcs = s.mcs := rfl
@[simp] theorem State.modPair_clusters : (s.modPair h f).clusters = s.clusters := rfl
@[simp] theorem State.modPair_queues : (s.modPair h f).queues = s.queues := rfl
@[simp] theorem State.modPair_packets : (s.modPair h f).packets = s.packets := rfl
@[simp] theorem State.modPair_graphs : (s.modPair h f).graphs = s.graphs := rfl
@[simp] theorem State.modPair_pipes : (s.modPair h f).pipes = s.pipes := rfl
@[simp] theorem State.modPair_watches : (s.modPair h f).watches = s.watches := rfl
@[simp] theorem State.modPair_timers : (s.modPair h f).timers = s.timers := rfl
@[simp] theorem State.modPair_cuts : (s.modPair h f).cuts = s.cuts := rfl
@[simp] theorem State.modPair_slots : (s.modPair h f).slots = s.slots := rfl
@[simp] theorem State.modPair_powers : (s.modPair h f).powers = s.powers := rfl
@[simp] theorem State.modPair_eths : (s.modPair h f).eths = s.eths := rfl
@[simp] theorem State.modPair_mod : (s.modPair h f).mod = s.mod := rfl
@[simp] theorem State.modPair_boot : (s.modPair h f).boot = s.boot := rfl
@[simp] theorem State.modPair_sites : (s.modPair h f).sites = s.sites := rfl
@[simp] theorem State.modPair_homeMap : (s.modPair h f).homeMap = s.homeMap := rfl
@[simp] theorem State.modPair_nst : (s.modPair h f).nst = s.nst := rfl
@[simp] theorem State.modPair_deadLinks : (s.modPair h f).deadLinks = s.deadLinks := rfl
@[simp] theorem State.modPair_replays : (s.modPair h f).replays = s.replays := rfl
@[simp] theorem State.modPair_unreach : (s.modPair h f).unreach = s.unreach := rfl
@[simp] theorem State.modPair_buckets : (s.modPair h f).buckets = s.buckets := rfl
@[simp] theorem State.modPair_refilled : (s.modPair h f).refilled = s.refilled := rfl
@[simp] theorem State.modPair_aged : (s.modPair h f).aged = s.aged := rfl
@[simp] theorem State.modPair_pgMigs : (s.modPair h f).pgMigs = s.pgMigs := rfl
@[simp] theorem State.modPair_irqs : (s.modPair h f).irqs = s.irqs := rfl
@[simp] theorem State.modPair_hostAns : (s.modPair h f).hostAns = s.hostAns := rfl
@[simp] theorem State.modPair_frozen : (s.modPair h f).frozen = s.frozen := rfl

end

/-! ### `Hart.wf` -/

section
variable (x : Hart) (r : RegIdx) (v : W32)

@[simp] theorem Hart.wf_group : (x.wf r v).group = x.group := rfl
@[simp] theorem Hart.wf_hidx : (x.wf r v).hidx = x.hidx := rfl
@[simp] theorem Hart.wf_cluster : (x.wf r v).cluster = x.cluster := rfl
@[simp] theorem Hart.wf_pcore : (x.wf r v).pcore = x.pcore := rfl
@[simp] theorem Hart.wf_slot : (x.wf r v).slot = x.slot := rfl
@[simp] theorem Hart.wf_status : (x.wf r v).status = x.status := rfl
@[simp] theorem Hart.wf_full : (x.wf r v).full = x.full := rfl
@[simp] theorem Hart.wf_priv : (x.wf r v).priv = x.priv := rfl
@[simp] theorem Hart.wf_pc : (x.wf r v).pc = x.pc := rfl
@[simp] theorem Hart.wf_x : (x.wf r v).x = x.x := rfl
@[simp] theorem Hart.wf_v : (x.wf r v).v = x.v := rfl
@[simp] theorem Hart.wf_pw : (x.wf r v).pw = x.pw := rfl
@[simp] theorem Hart.wf_fflags : (x.wf r v).fflags = x.fflags := rfl
@[simp] theorem Hart.wf_frm : (x.wf r v).frm = x.frm := rfl
@[simp] theorem Hart.wf_csr : (x.wf r v).csr = x.csr := rfl
@[simp] theorem Hart.wf_asid : (x.wf r v).asid = x.asid := rfl
@[simp] theorem Hart.wf_vcnt : (x.wf r v).vcnt = x.vcnt := rfl
@[simp] theorem Hart.wf_mig : (x.wf r v).mig = x.mig := rfl
@[simp] theorem Hart.wf_regs : (x.wf r v).regs = x.regs := rfl
@[simp] theorem Hart.wf_vbusy : (x.wf r v).vbusy = x.vbusy := rfl
@[simp] theorem Hart.wf_seq : (x.wf r v).seq = x.seq := rfl
@[simp] theorem Hart.wf_cycBase : (x.wf r v).cycBase = x.cycBase := rfl
@[simp] theorem Hart.wf_cycFrom : (x.wf r v).cycFrom = x.cycFrom := rfl
@[simp] theorem Hart.wf_instret : (x.wf r v).instret = x.instret := rfl
@[simp] theorem Hart.wf_lastIssue : (x.wf r v).lastIssue = x.lastIssue := rfl
@[simp] theorem Hart.wf_ready : (x.wf r v).ready = x.ready := rfl
@[simp] theorem Hart.wf_resv : (x.wf r v).resv = x.resv := rfl
@[simp] theorem Hart.wf_heldSlot : (x.wf r v).heldSlot = x.heldSlot := rfl
@[simp] theorem Hart.wf_recvEnd : (x.wf r v).recvEnd = x.recvEnd := rfl
@[simp] theorem Hart.wf_log : (x.wf r v).log = x.log := rfl
@[simp] theorem Hart.wf_plainOut : (x.wf r v).plainOut = x.plainOut := rfl
@[simp] theorem Hart.wf_plainAns : (x.wf r v).plainAns = x.plainAns := rfl
@[simp] theorem Hart.wf_fetchFail : (x.wf r v).fetchFail = x.fetchFail := rfl
@[simp] theorem Hart.wf_snap : (x.wf r v).snap = x.snap := rfl
@[simp] theorem Hart.wf_wait : (x.wf r v).wait = x.wait := rfl
@[simp] theorem Hart.wf_due : (x.wf r v).due = x.due := rfl
@[simp] theorem Hart.wf_stopReq : (x.wf r v).stopReq = x.stopReq := rfl
@[simp] theorem Hart.wf_stopAt : (x.wf r v).stopAt = x.stopAt := rfl
@[simp] theorem Hart.wf_stopSret : (x.wf r v).stopSret = x.stopSret := rfl
@[simp] theorem Hart.wf_stopping : (x.wf r v).stopping = x.stopping := rfl
@[simp] theorem Hart.wf_sinceHint : (x.wf r v).sinceHint = x.sinceHint := rfl
@[simp] theorem Hart.wf_yieldEnd : (x.wf r v).yieldEnd = x.yieldEnd := rfl
@[simp] theorem Hart.wf_yieldFor : (x.wf r v).yieldFor = x.yieldFor := rfl
@[simp] theorem Hart.wf_scrub : (x.wf r v).scrub = x.scrub := rfl
@[simp] theorem Hart.wf_migTo : (x.wf r v).migTo = x.migTo := rfl
@[simp] theorem Hart.wf_migCore : (x.wf r v).migCore = x.migCore := rfl
@[simp] theorem Hart.wf_saw : (x.wf r v).saw = x.saw := rfl
@[simp] theorem Hart.wf_sentC : (x.wf r v).sentC = x.sentC := rfl
@[simp] theorem Hart.wf_chisel : (x.wf r v).chisel = x.chisel := rfl
@[simp] theorem Hart.wf_pair : (x.wf r v).pair = x.pair := rfl
@[simp] theorem Hart.wf_trails : (x.wf r v).trails = x.trails := rfl
@[simp] theorem Hart.wf_lvq : (x.wf r v).lvq = x.lvq := rfl
@[simp] theorem Hart.wf_cmp : (x.wf r v).cmp = x.cmp := rfl
@[simp] theorem Hart.wf_released : (x.wf r v).released = x.released := rfl

end

/-! ### `Hart.wvq` -/

section
variable (x : Hart) (r : RegIdx) (v : VReg)

@[simp] theorem Hart.wvq_group : (x.wvq r v).group = x.group := rfl
@[simp] theorem Hart.wvq_hidx : (x.wvq r v).hidx = x.hidx := rfl
@[simp] theorem Hart.wvq_cluster : (x.wvq r v).cluster = x.cluster := rfl
@[simp] theorem Hart.wvq_pcore : (x.wvq r v).pcore = x.pcore := rfl
@[simp] theorem Hart.wvq_slot : (x.wvq r v).slot = x.slot := rfl
@[simp] theorem Hart.wvq_status : (x.wvq r v).status = x.status := rfl
@[simp] theorem Hart.wvq_full : (x.wvq r v).full = x.full := rfl
@[simp] theorem Hart.wvq_priv : (x.wvq r v).priv = x.priv := rfl
@[simp] theorem Hart.wvq_pc : (x.wvq r v).pc = x.pc := rfl
@[simp] theorem Hart.wvq_x : (x.wvq r v).x = x.x := rfl
@[simp] theorem Hart.wvq_f : (x.wvq r v).f = x.f := rfl
@[simp] theorem Hart.wvq_pw : (x.wvq r v).pw = x.pw := rfl
@[simp] theorem Hart.wvq_fflags : (x.wvq r v).fflags = x.fflags := rfl
@[simp] theorem Hart.wvq_frm : (x.wvq r v).frm = x.frm := rfl
@[simp] theorem Hart.wvq_csr : (x.wvq r v).csr = x.csr := rfl
@[simp] theorem Hart.wvq_asid : (x.wvq r v).asid = x.asid := rfl
@[simp] theorem Hart.wvq_vcnt : (x.wvq r v).vcnt = x.vcnt := rfl
@[simp] theorem Hart.wvq_mig : (x.wvq r v).mig = x.mig := rfl
@[simp] theorem Hart.wvq_regs : (x.wvq r v).regs = x.regs := rfl
@[simp] theorem Hart.wvq_vbusy : (x.wvq r v).vbusy = x.vbusy := rfl
@[simp] theorem Hart.wvq_seq : (x.wvq r v).seq = x.seq := rfl
@[simp] theorem Hart.wvq_cycBase : (x.wvq r v).cycBase = x.cycBase := rfl
@[simp] theorem Hart.wvq_cycFrom : (x.wvq r v).cycFrom = x.cycFrom := rfl
@[simp] theorem Hart.wvq_instret : (x.wvq r v).instret = x.instret := rfl
@[simp] theorem Hart.wvq_lastIssue : (x.wvq r v).lastIssue = x.lastIssue := rfl
@[simp] theorem Hart.wvq_ready : (x.wvq r v).ready = x.ready := rfl
@[simp] theorem Hart.wvq_resv : (x.wvq r v).resv = x.resv := rfl
@[simp] theorem Hart.wvq_heldSlot : (x.wvq r v).heldSlot = x.heldSlot := rfl
@[simp] theorem Hart.wvq_recvEnd : (x.wvq r v).recvEnd = x.recvEnd := rfl
@[simp] theorem Hart.wvq_log : (x.wvq r v).log = x.log := rfl
@[simp] theorem Hart.wvq_plainOut : (x.wvq r v).plainOut = x.plainOut := rfl
@[simp] theorem Hart.wvq_plainAns : (x.wvq r v).plainAns = x.plainAns := rfl
@[simp] theorem Hart.wvq_fetchFail : (x.wvq r v).fetchFail = x.fetchFail := rfl
@[simp] theorem Hart.wvq_snap : (x.wvq r v).snap = x.snap := rfl
@[simp] theorem Hart.wvq_wait : (x.wvq r v).wait = x.wait := rfl
@[simp] theorem Hart.wvq_due : (x.wvq r v).due = x.due := rfl
@[simp] theorem Hart.wvq_stopReq : (x.wvq r v).stopReq = x.stopReq := rfl
@[simp] theorem Hart.wvq_stopAt : (x.wvq r v).stopAt = x.stopAt := rfl
@[simp] theorem Hart.wvq_stopSret : (x.wvq r v).stopSret = x.stopSret := rfl
@[simp] theorem Hart.wvq_stopping : (x.wvq r v).stopping = x.stopping := rfl
@[simp] theorem Hart.wvq_sinceHint : (x.wvq r v).sinceHint = x.sinceHint := rfl
@[simp] theorem Hart.wvq_yieldEnd : (x.wvq r v).yieldEnd = x.yieldEnd := rfl
@[simp] theorem Hart.wvq_yieldFor : (x.wvq r v).yieldFor = x.yieldFor := rfl
@[simp] theorem Hart.wvq_scrub : (x.wvq r v).scrub = x.scrub := rfl
@[simp] theorem Hart.wvq_migTo : (x.wvq r v).migTo = x.migTo := rfl
@[simp] theorem Hart.wvq_migCore : (x.wvq r v).migCore = x.migCore := rfl
@[simp] theorem Hart.wvq_saw : (x.wvq r v).saw = x.saw := rfl
@[simp] theorem Hart.wvq_sentC : (x.wvq r v).sentC = x.sentC := rfl
@[simp] theorem Hart.wvq_chisel : (x.wvq r v).chisel = x.chisel := rfl
@[simp] theorem Hart.wvq_pair : (x.wvq r v).pair = x.pair := rfl
@[simp] theorem Hart.wvq_trails : (x.wvq r v).trails = x.trails := rfl
@[simp] theorem Hart.wvq_lvq : (x.wvq r v).lvq = x.lvq := rfl
@[simp] theorem Hart.wvq_cmp : (x.wvq r v).cmp = x.cmp := rfl
@[simp] theorem Hart.wvq_released : (x.wvq r v).released = x.released := rfl

end

/-! ### `Hart.wv` -/

section
variable (x : Hart) (r : RegIdx) (v : Vector W32 16)

@[simp] theorem Hart.wv_group : (x.wv r v).group = x.group := rfl
@[simp] theorem Hart.wv_hidx : (x.wv r v).hidx = x.hidx := rfl
@[simp] theorem Hart.wv_cluster : (x.wv r v).cluster = x.cluster := rfl
@[simp] theorem Hart.wv_pcore : (x.wv r v).pcore = x.pcore := rfl
@[simp] theorem Hart.wv_slot : (x.wv r v).slot = x.slot := rfl
@[simp] theorem Hart.wv_status : (x.wv r v).status = x.status := rfl
@[simp] theorem Hart.wv_full : (x.wv r v).full = x.full := rfl
@[simp] theorem Hart.wv_priv : (x.wv r v).priv = x.priv := rfl
@[simp] theorem Hart.wv_pc : (x.wv r v).pc = x.pc := rfl
@[simp] theorem Hart.wv_x : (x.wv r v).x = x.x := rfl
@[simp] theorem Hart.wv_f : (x.wv r v).f = x.f := rfl
@[simp] theorem Hart.wv_pw : (x.wv r v).pw = x.pw := rfl
@[simp] theorem Hart.wv_fflags : (x.wv r v).fflags = x.fflags := rfl
@[simp] theorem Hart.wv_frm : (x.wv r v).frm = x.frm := rfl
@[simp] theorem Hart.wv_csr : (x.wv r v).csr = x.csr := rfl
@[simp] theorem Hart.wv_asid : (x.wv r v).asid = x.asid := rfl
@[simp] theorem Hart.wv_vcnt : (x.wv r v).vcnt = x.vcnt := rfl
@[simp] theorem Hart.wv_mig : (x.wv r v).mig = x.mig := rfl
@[simp] theorem Hart.wv_regs : (x.wv r v).regs = x.regs := rfl
@[simp] theorem Hart.wv_vbusy : (x.wv r v).vbusy = x.vbusy := rfl
@[simp] theorem Hart.wv_seq : (x.wv r v).seq = x.seq := rfl
@[simp] theorem Hart.wv_cycBase : (x.wv r v).cycBase = x.cycBase := rfl
@[simp] theorem Hart.wv_cycFrom : (x.wv r v).cycFrom = x.cycFrom := rfl
@[simp] theorem Hart.wv_instret : (x.wv r v).instret = x.instret := rfl
@[simp] theorem Hart.wv_lastIssue : (x.wv r v).lastIssue = x.lastIssue := rfl
@[simp] theorem Hart.wv_ready : (x.wv r v).ready = x.ready := rfl
@[simp] theorem Hart.wv_resv : (x.wv r v).resv = x.resv := rfl
@[simp] theorem Hart.wv_heldSlot : (x.wv r v).heldSlot = x.heldSlot := rfl
@[simp] theorem Hart.wv_recvEnd : (x.wv r v).recvEnd = x.recvEnd := rfl
@[simp] theorem Hart.wv_log : (x.wv r v).log = x.log := rfl
@[simp] theorem Hart.wv_plainOut : (x.wv r v).plainOut = x.plainOut := rfl
@[simp] theorem Hart.wv_plainAns : (x.wv r v).plainAns = x.plainAns := rfl
@[simp] theorem Hart.wv_fetchFail : (x.wv r v).fetchFail = x.fetchFail := rfl
@[simp] theorem Hart.wv_snap : (x.wv r v).snap = x.snap := rfl
@[simp] theorem Hart.wv_wait : (x.wv r v).wait = x.wait := rfl
@[simp] theorem Hart.wv_due : (x.wv r v).due = x.due := rfl
@[simp] theorem Hart.wv_stopReq : (x.wv r v).stopReq = x.stopReq := rfl
@[simp] theorem Hart.wv_stopAt : (x.wv r v).stopAt = x.stopAt := rfl
@[simp] theorem Hart.wv_stopSret : (x.wv r v).stopSret = x.stopSret := rfl
@[simp] theorem Hart.wv_stopping : (x.wv r v).stopping = x.stopping := rfl
@[simp] theorem Hart.wv_sinceHint : (x.wv r v).sinceHint = x.sinceHint := rfl
@[simp] theorem Hart.wv_yieldEnd : (x.wv r v).yieldEnd = x.yieldEnd := rfl
@[simp] theorem Hart.wv_yieldFor : (x.wv r v).yieldFor = x.yieldFor := rfl
@[simp] theorem Hart.wv_scrub : (x.wv r v).scrub = x.scrub := rfl
@[simp] theorem Hart.wv_migTo : (x.wv r v).migTo = x.migTo := rfl
@[simp] theorem Hart.wv_migCore : (x.wv r v).migCore = x.migCore := rfl
@[simp] theorem Hart.wv_saw : (x.wv r v).saw = x.saw := rfl
@[simp] theorem Hart.wv_sentC : (x.wv r v).sentC = x.sentC := rfl
@[simp] theorem Hart.wv_chisel : (x.wv r v).chisel = x.chisel := rfl
@[simp] theorem Hart.wv_pair : (x.wv r v).pair = x.pair := rfl
@[simp] theorem Hart.wv_trails : (x.wv r v).trails = x.trails := rfl
@[simp] theorem Hart.wv_lvq : (x.wv r v).lvq = x.lvq := rfl
@[simp] theorem Hart.wv_cmp : (x.wv r v).cmp = x.cmp := rfl
@[simp] theorem Hart.wv_released : (x.wv r v).released = x.released := rfl

end

/-! ### `Hart.orFlags` -/

section
variable (x : Hart) (g : FFlags)

@[simp] theorem Hart.orFlags_group : (x.orFlags g).group = x.group := rfl
@[simp] theorem Hart.orFlags_hidx : (x.orFlags g).hidx = x.hidx := rfl
@[simp] theorem Hart.orFlags_cluster : (x.orFlags g).cluster = x.cluster := rfl
@[simp] theorem Hart.orFlags_pcore : (x.orFlags g).pcore = x.pcore := rfl
@[simp] theorem Hart.orFlags_slot : (x.orFlags g).slot = x.slot := rfl
@[simp] theorem Hart.orFlags_status : (x.orFlags g).status = x.status := rfl
@[simp] theorem Hart.orFlags_full : (x.orFlags g).full = x.full := rfl
@[simp] theorem Hart.orFlags_priv : (x.orFlags g).priv = x.priv := rfl
@[simp] theorem Hart.orFlags_pc : (x.orFlags g).pc = x.pc := rfl
@[simp] theorem Hart.orFlags_x : (x.orFlags g).x = x.x := rfl
@[simp] theorem Hart.orFlags_f : (x.orFlags g).f = x.f := rfl
@[simp] theorem Hart.orFlags_v : (x.orFlags g).v = x.v := rfl
@[simp] theorem Hart.orFlags_pw : (x.orFlags g).pw = x.pw := rfl
@[simp] theorem Hart.orFlags_frm : (x.orFlags g).frm = x.frm := rfl
@[simp] theorem Hart.orFlags_csr : (x.orFlags g).csr = x.csr := rfl
@[simp] theorem Hart.orFlags_asid : (x.orFlags g).asid = x.asid := rfl
@[simp] theorem Hart.orFlags_vcnt : (x.orFlags g).vcnt = x.vcnt := rfl
@[simp] theorem Hart.orFlags_mig : (x.orFlags g).mig = x.mig := rfl
@[simp] theorem Hart.orFlags_regs : (x.orFlags g).regs = x.regs := rfl
@[simp] theorem Hart.orFlags_vbusy : (x.orFlags g).vbusy = x.vbusy := rfl
@[simp] theorem Hart.orFlags_seq : (x.orFlags g).seq = x.seq := rfl
@[simp] theorem Hart.orFlags_cycBase : (x.orFlags g).cycBase = x.cycBase := rfl
@[simp] theorem Hart.orFlags_cycFrom : (x.orFlags g).cycFrom = x.cycFrom := rfl
@[simp] theorem Hart.orFlags_instret : (x.orFlags g).instret = x.instret := rfl
@[simp] theorem Hart.orFlags_lastIssue : (x.orFlags g).lastIssue = x.lastIssue := rfl
@[simp] theorem Hart.orFlags_ready : (x.orFlags g).ready = x.ready := rfl
@[simp] theorem Hart.orFlags_resv : (x.orFlags g).resv = x.resv := rfl
@[simp] theorem Hart.orFlags_heldSlot : (x.orFlags g).heldSlot = x.heldSlot := rfl
@[simp] theorem Hart.orFlags_recvEnd : (x.orFlags g).recvEnd = x.recvEnd := rfl
@[simp] theorem Hart.orFlags_log : (x.orFlags g).log = x.log := rfl
@[simp] theorem Hart.orFlags_plainOut : (x.orFlags g).plainOut = x.plainOut := rfl
@[simp] theorem Hart.orFlags_plainAns : (x.orFlags g).plainAns = x.plainAns := rfl
@[simp] theorem Hart.orFlags_fetchFail : (x.orFlags g).fetchFail = x.fetchFail := rfl
@[simp] theorem Hart.orFlags_snap : (x.orFlags g).snap = x.snap := rfl
@[simp] theorem Hart.orFlags_wait : (x.orFlags g).wait = x.wait := rfl
@[simp] theorem Hart.orFlags_due : (x.orFlags g).due = x.due := rfl
@[simp] theorem Hart.orFlags_stopReq : (x.orFlags g).stopReq = x.stopReq := rfl
@[simp] theorem Hart.orFlags_stopAt : (x.orFlags g).stopAt = x.stopAt := rfl
@[simp] theorem Hart.orFlags_stopSret : (x.orFlags g).stopSret = x.stopSret := rfl
@[simp] theorem Hart.orFlags_stopping : (x.orFlags g).stopping = x.stopping := rfl
@[simp] theorem Hart.orFlags_sinceHint : (x.orFlags g).sinceHint = x.sinceHint := rfl
@[simp] theorem Hart.orFlags_yieldEnd : (x.orFlags g).yieldEnd = x.yieldEnd := rfl
@[simp] theorem Hart.orFlags_yieldFor : (x.orFlags g).yieldFor = x.yieldFor := rfl
@[simp] theorem Hart.orFlags_scrub : (x.orFlags g).scrub = x.scrub := rfl
@[simp] theorem Hart.orFlags_migTo : (x.orFlags g).migTo = x.migTo := rfl
@[simp] theorem Hart.orFlags_migCore : (x.orFlags g).migCore = x.migCore := rfl
@[simp] theorem Hart.orFlags_saw : (x.orFlags g).saw = x.saw := rfl
@[simp] theorem Hart.orFlags_sentC : (x.orFlags g).sentC = x.sentC := rfl
@[simp] theorem Hart.orFlags_chisel : (x.orFlags g).chisel = x.chisel := rfl
@[simp] theorem Hart.orFlags_pair : (x.orFlags g).pair = x.pair := rfl
@[simp] theorem Hart.orFlags_trails : (x.orFlags g).trails = x.trails := rfl
@[simp] theorem Hart.orFlags_lvq : (x.orFlags g).lvq = x.lvq := rfl
@[simp] theorem Hart.orFlags_cmp : (x.orFlags g).cmp = x.cmp := rfl
@[simp] theorem Hart.orFlags_released : (x.orFlags g).released = x.released := rfl

end

/-! ### `Hart.retired` -/

section
variable (x : Hart) (p : Word) (t : Bool) (n : Nat)

@[simp] theorem Hart.retired_group : (x.retired p t n).group = x.group := rfl
@[simp] theorem Hart.retired_hidx : (x.retired p t n).hidx = x.hidx := rfl
@[simp] theorem Hart.retired_cluster : (x.retired p t n).cluster = x.cluster := rfl
@[simp] theorem Hart.retired_pcore : (x.retired p t n).pcore = x.pcore := rfl
@[simp] theorem Hart.retired_slot : (x.retired p t n).slot = x.slot := rfl
@[simp] theorem Hart.retired_status : (x.retired p t n).status = x.status := rfl
@[simp] theorem Hart.retired_full : (x.retired p t n).full = x.full := rfl
@[simp] theorem Hart.retired_priv : (x.retired p t n).priv = x.priv := rfl
@[simp] theorem Hart.retired_x : (x.retired p t n).x = x.x := rfl
@[simp] theorem Hart.retired_f : (x.retired p t n).f = x.f := rfl
@[simp] theorem Hart.retired_v : (x.retired p t n).v = x.v := rfl
@[simp] theorem Hart.retired_pw : (x.retired p t n).pw = x.pw := rfl
@[simp] theorem Hart.retired_fflags : (x.retired p t n).fflags = x.fflags := rfl
@[simp] theorem Hart.retired_frm : (x.retired p t n).frm = x.frm := rfl
@[simp] theorem Hart.retired_csr : (x.retired p t n).csr = x.csr := rfl
@[simp] theorem Hart.retired_asid : (x.retired p t n).asid = x.asid := rfl
@[simp] theorem Hart.retired_vcnt : (x.retired p t n).vcnt = x.vcnt := rfl
@[simp] theorem Hart.retired_mig : (x.retired p t n).mig = x.mig := rfl
@[simp] theorem Hart.retired_regs : (x.retired p t n).regs = x.regs := rfl
@[simp] theorem Hart.retired_vbusy : (x.retired p t n).vbusy = x.vbusy := rfl
@[simp] theorem Hart.retired_seq : (x.retired p t n).seq = x.seq := rfl
@[simp] theorem Hart.retired_cycBase : (x.retired p t n).cycBase = x.cycBase := rfl
@[simp] theorem Hart.retired_cycFrom : (x.retired p t n).cycFrom = x.cycFrom := rfl
@[simp] theorem Hart.retired_ready : (x.retired p t n).ready = x.ready := rfl
@[simp] theorem Hart.retired_resv : (x.retired p t n).resv = x.resv := rfl
@[simp] theorem Hart.retired_heldSlot : (x.retired p t n).heldSlot = x.heldSlot := rfl
@[simp] theorem Hart.retired_recvEnd : (x.retired p t n).recvEnd = x.recvEnd := rfl
@[simp] theorem Hart.retired_plainOut : (x.retired p t n).plainOut = x.plainOut := rfl
@[simp] theorem Hart.retired_plainAns : (x.retired p t n).plainAns = x.plainAns := rfl
@[simp] theorem Hart.retired_fetchFail : (x.retired p t n).fetchFail = x.fetchFail := rfl
@[simp] theorem Hart.retired_due : (x.retired p t n).due = x.due := rfl
@[simp] theorem Hart.retired_stopReq : (x.retired p t n).stopReq = x.stopReq := rfl
@[simp] theorem Hart.retired_stopAt : (x.retired p t n).stopAt = x.stopAt := rfl
@[simp] theorem Hart.retired_stopSret : (x.retired p t n).stopSret = x.stopSret := rfl
@[simp] theorem Hart.retired_stopping : (x.retired p t n).stopping = x.stopping := rfl
@[simp] theorem Hart.retired_yieldEnd : (x.retired p t n).yieldEnd = x.yieldEnd := rfl
@[simp] theorem Hart.retired_yieldFor : (x.retired p t n).yieldFor = x.yieldFor := rfl
@[simp] theorem Hart.retired_scrub : (x.retired p t n).scrub = x.scrub := rfl
@[simp] theorem Hart.retired_migTo : (x.retired p t n).migTo = x.migTo := rfl
@[simp] theorem Hart.retired_migCore : (x.retired p t n).migCore = x.migCore := rfl
@[simp] theorem Hart.retired_saw : (x.retired p t n).saw = x.saw := rfl
@[simp] theorem Hart.retired_sentC : (x.retired p t n).sentC = x.sentC := rfl
@[simp] theorem Hart.retired_chisel : (x.retired p t n).chisel = x.chisel := rfl
@[simp] theorem Hart.retired_pair : (x.retired p t n).pair = x.pair := rfl
@[simp] theorem Hart.retired_trails : (x.retired p t n).trails = x.trails := rfl
@[simp] theorem Hart.retired_lvq : (x.retired p t n).lvq = x.lvq := rfl
@[simp] theorem Hart.retired_cmp : (x.retired p t n).cmp = x.cmp := rfl
@[simp] theorem Hart.retired_released : (x.retired p t n).released = x.released := rfl
@[simp] theorem Hart.retired_pc : (x.retired p t n).pc = p := rfl
@[simp] theorem Hart.retired_wait : (x.retired p t n).wait = none := rfl
@[simp] theorem Hart.retired_instret : (x.retired p t n).instret = (x.instret + 1) % 2 ^ 64 := rfl

end

/-! ### `Hart.trapped` -/

section
variable (x : Hart) (c : Nat) (t : Word) (n : Nat)

@[simp] theorem Hart.trapped_group : (x.trapped c t n).group = x.group := rfl
@[simp] theorem Hart.trapped_hidx : (x.trapped c t n).hidx = x.hidx := rfl
@[simp] theorem Hart.trapped_cluster : (x.trapped c t n).cluster = x.cluster := rfl
@[simp] theorem Hart.trapped_pcore : (x.trapped c t n).pcore = x.pcore := rfl
@[simp] theorem Hart.trapped_slot : (x.trapped c t n).slot = x.slot := rfl
@[simp] theorem Hart.trapped_status : (x.trapped c t n).status = x.status := rfl
@[simp] theorem Hart.trapped_full : (x.trapped c t n).full = x.full := rfl
@[simp] theorem Hart.trapped_x : (x.trapped c t n).x = x.x := rfl
@[simp] theorem Hart.trapped_f : (x.trapped c t n).f = x.f := rfl
@[simp] theorem Hart.trapped_v : (x.trapped c t n).v = x.v := rfl
@[simp] theorem Hart.trapped_pw : (x.trapped c t n).pw = x.pw := rfl
@[simp] theorem Hart.trapped_fflags : (x.trapped c t n).fflags = x.fflags := rfl
@[simp] theorem Hart.trapped_frm : (x.trapped c t n).frm = x.frm := rfl
@[simp] theorem Hart.trapped_asid : (x.trapped c t n).asid = x.asid := rfl
@[simp] theorem Hart.trapped_vcnt : (x.trapped c t n).vcnt = x.vcnt := rfl
@[simp] theorem Hart.trapped_mig : (x.trapped c t n).mig = x.mig := rfl
@[simp] theorem Hart.trapped_regs : (x.trapped c t n).regs = x.regs := rfl
@[simp] theorem Hart.trapped_vbusy : (x.trapped c t n).vbusy = x.vbusy := rfl
@[simp] theorem Hart.trapped_seq : (x.trapped c t n).seq = x.seq := rfl
@[simp] theorem Hart.trapped_cycBase : (x.trapped c t n).cycBase = x.cycBase := rfl
@[simp] theorem Hart.trapped_cycFrom : (x.trapped c t n).cycFrom = x.cycFrom := rfl
@[simp] theorem Hart.trapped_instret : (x.trapped c t n).instret = x.instret := rfl
@[simp] theorem Hart.trapped_ready : (x.trapped c t n).ready = x.ready := rfl
@[simp] theorem Hart.trapped_heldSlot : (x.trapped c t n).heldSlot = x.heldSlot := rfl
@[simp] theorem Hart.trapped_plainOut : (x.trapped c t n).plainOut = x.plainOut := rfl
@[simp] theorem Hart.trapped_plainAns : (x.trapped c t n).plainAns = x.plainAns := rfl
@[simp] theorem Hart.trapped_fetchFail : (x.trapped c t n).fetchFail = x.fetchFail := rfl
@[simp] theorem Hart.trapped_due : (x.trapped c t n).due = x.due := rfl
@[simp] theorem Hart.trapped_stopReq : (x.trapped c t n).stopReq = x.stopReq := rfl
@[simp] theorem Hart.trapped_stopAt : (x.trapped c t n).stopAt = x.stopAt := rfl
@[simp] theorem Hart.trapped_stopping : (x.trapped c t n).stopping = x.stopping := rfl
@[simp] theorem Hart.trapped_sinceHint : (x.trapped c t n).sinceHint = x.sinceHint := rfl
@[simp] theorem Hart.trapped_scrub : (x.trapped c t n).scrub = x.scrub := rfl
@[simp] theorem Hart.trapped_migCore : (x.trapped c t n).migCore = x.migCore := rfl
@[simp] theorem Hart.trapped_saw : (x.trapped c t n).saw = x.saw := rfl
@[simp] theorem Hart.trapped_sentC : (x.trapped c t n).sentC = x.sentC := rfl
@[simp] theorem Hart.trapped_chisel : (x.trapped c t n).chisel = x.chisel := rfl
@[simp] theorem Hart.trapped_pair : (x.trapped c t n).pair = x.pair := rfl
@[simp] theorem Hart.trapped_trails : (x.trapped c t n).trails = x.trails := rfl
@[simp] theorem Hart.trapped_lvq : (x.trapped c t n).lvq = x.lvq := rfl
@[simp] theorem Hart.trapped_pc : (x.trapped c t n).pc = x.csr.stvec := rfl
@[simp] theorem Hart.trapped_priv : (x.trapped c t n).priv = .s := rfl

end

/-! ### `Hart.sret` -/

section
variable (x : Hart) 

@[simp] theorem Hart.sret_group : (x.sret).group = x.group := rfl
@[simp] theorem Hart.sret_hidx : (x.sret).hidx = x.hidx := rfl
@[simp] theorem Hart.sret_cluster : (x.sret).cluster = x.cluster := rfl
@[simp] theorem Hart.sret_pcore : (x.sret).pcore = x.pcore := rfl
@[simp] theorem Hart.sret_slot : (x.sret).slot = x.slot := rfl
@[simp] theorem Hart.sret_status : (x.sret).status = x.status := rfl
@[simp] theorem Hart.sret_full : (x.sret).full = x.full := rfl
@[simp] theorem Hart.sret_x : (x.sret).x = x.x := rfl
@[simp] theorem Hart.sret_f : (x.sret).f = x.f := rfl
@[simp] theorem Hart.sret_v : (x.sret).v = x.v := rfl
@[simp] theorem Hart.sret_pw : (x.sret).pw = x.pw := rfl
@[simp] theorem Hart.sret_fflags : (x.sret).fflags = x.fflags := rfl
@[simp] theorem Hart.sret_frm : (x.sret).frm = x.frm := rfl
@[simp] theorem Hart.sret_asid : (x.sret).asid = x.asid := rfl
@[simp] theorem Hart.sret_vcnt : (x.sret).vcnt = x.vcnt := rfl
@[simp] theorem Hart.sret_mig : (x.sret).mig = x.mig := rfl
@[simp] theorem Hart.sret_regs : (x.sret).regs = x.regs := rfl
@[simp] theorem Hart.sret_vbusy : (x.sret).vbusy = x.vbusy := rfl
@[simp] theorem Hart.sret_seq : (x.sret).seq = x.seq := rfl
@[simp] theorem Hart.sret_cycBase : (x.sret).cycBase = x.cycBase := rfl
@[simp] theorem Hart.sret_cycFrom : (x.sret).cycFrom = x.cycFrom := rfl
@[simp] theorem Hart.sret_instret : (x.sret).instret = x.instret := rfl
@[simp] theorem Hart.sret_lastIssue : (x.sret).lastIssue = x.lastIssue := rfl
@[simp] theorem Hart.sret_ready : (x.sret).ready = x.ready := rfl
@[simp] theorem Hart.sret_resv : (x.sret).resv = x.resv := rfl
@[simp] theorem Hart.sret_heldSlot : (x.sret).heldSlot = x.heldSlot := rfl
@[simp] theorem Hart.sret_recvEnd : (x.sret).recvEnd = x.recvEnd := rfl
@[simp] theorem Hart.sret_log : (x.sret).log = x.log := rfl
@[simp] theorem Hart.sret_plainOut : (x.sret).plainOut = x.plainOut := rfl
@[simp] theorem Hart.sret_plainAns : (x.sret).plainAns = x.plainAns := rfl
@[simp] theorem Hart.sret_fetchFail : (x.sret).fetchFail = x.fetchFail := rfl
@[simp] theorem Hart.sret_snap : (x.sret).snap = x.snap := rfl
@[simp] theorem Hart.sret_wait : (x.sret).wait = x.wait := rfl
@[simp] theorem Hart.sret_due : (x.sret).due = x.due := rfl
@[simp] theorem Hart.sret_stopReq : (x.sret).stopReq = x.stopReq := rfl
@[simp] theorem Hart.sret_stopAt : (x.sret).stopAt = x.stopAt := rfl
@[simp] theorem Hart.sret_stopSret : (x.sret).stopSret = x.stopSret := rfl
@[simp] theorem Hart.sret_stopping : (x.sret).stopping = x.stopping := rfl
@[simp] theorem Hart.sret_sinceHint : (x.sret).sinceHint = x.sinceHint := rfl
@[simp] theorem Hart.sret_yieldEnd : (x.sret).yieldEnd = x.yieldEnd := rfl
@[simp] theorem Hart.sret_yieldFor : (x.sret).yieldFor = x.yieldFor := rfl
@[simp] theorem Hart.sret_scrub : (x.sret).scrub = x.scrub := rfl
@[simp] theorem Hart.sret_migTo : (x.sret).migTo = x.migTo := rfl
@[simp] theorem Hart.sret_migCore : (x.sret).migCore = x.migCore := rfl
@[simp] theorem Hart.sret_saw : (x.sret).saw = x.saw := rfl
@[simp] theorem Hart.sret_sentC : (x.sret).sentC = x.sentC := rfl
@[simp] theorem Hart.sret_chisel : (x.sret).chisel = x.chisel := rfl
@[simp] theorem Hart.sret_pair : (x.sret).pair = x.pair := rfl
@[simp] theorem Hart.sret_trails : (x.sret).trails = x.trails := rfl
@[simp] theorem Hart.sret_lvq : (x.sret).lvq = x.lvq := rfl
@[simp] theorem Hart.sret_cmp : (x.sret).cmp = x.cmp := rfl
@[simp] theorem Hart.sret_released : (x.sret).released = x.released := rfl

end

/-! ### `Hart.wx` -/

section
variable (x : Hart) (r : RegIdx) (v : Word)

@[simp] theorem Hart.wx_group : (x.wx r v).group = x.group := by unfold Hart.wx; split <;> rfl
@[simp] theorem Hart.wx_hidx : (x.wx r v).hidx = x.hidx := by unfold Hart.wx; split <;> rfl
@[simp] theorem Hart.wx_cluster : (x.wx r v).cluster = x.cluster := by unfold Hart.wx; split <;> rfl
@[simp] theorem Hart.wx_pcore : (x.wx r v).pcore = x.pcore := by unfold Hart.wx; split <;> rfl
@[simp] theorem Hart.wx_slot : (x.wx r v).slot = x.slot := by unfold Hart.wx; split <;> rfl
@[simp] theorem Hart.wx_status : (x.wx r v).status = x.status := by unfold Hart.wx; split <;> rfl
@[simp] theorem Hart.wx_full : (x.wx r v).full = x.full := by unfold Hart.wx; split <;> rfl
@[simp] theorem Hart.wx_priv : (x.wx r v).priv = x.priv := by unfold Hart.wx; split <;> rfl
@[simp] theorem Hart.wx_pc : (x.wx r v).pc = x.pc := by unfold Hart.wx; split <;> rfl
@[simp] theorem Hart.wx_f : (x.wx r v).f = x.f := by unfold Hart.wx; split <;> rfl
@[simp] theorem Hart.wx_v : (x.wx r v).v = x.v := by unfold Hart.wx; split <;> rfl
@[simp] theorem Hart.wx_pw : (x.wx r v).pw = x.pw := by unfold Hart.wx; split <;> rfl
@[simp] theorem Hart.wx_fflags : (x.wx r v).fflags = x.fflags := by unfold Hart.wx; split <;> rfl
@[simp] theorem Hart.wx_frm : (x.wx r v).frm = x.frm := by unfold Hart.wx; split <;> rfl
@[simp] theorem Hart.wx_csr : (x.wx r v).csr = x.csr := by unfold Hart.wx; split <;> rfl
@[simp] theorem Hart.wx_asid : (x.wx r v).asid = x.asid := by unfold Hart.wx; split <;> rfl
@[simp] theorem Hart.wx_vcnt : (x.wx r v).vcnt = x.vcnt := by unfold Hart.wx; split <;> rfl
@[simp] theorem Hart.wx_mig : (x.wx r v).mig = x.mig := by unfold Hart.wx; split <;> rfl
@[simp] theorem Hart.wx_regs : (x.wx r v).regs = x.regs := by unfold Hart.wx; split <;> rfl
@[simp] theorem Hart.wx_vbusy : (x.wx r v).vbusy = x.vbusy := by unfold Hart.wx; split <;> rfl
@[simp] theorem Hart.wx_seq : (x.wx r v).seq = x.seq := by unfold Hart.wx; split <;> rfl
@[simp] theorem Hart.wx_cycBase : (x.wx r v).cycBase = x.cycBase := by unfold Hart.wx; split <;> rfl
@[simp] theorem Hart.wx_cycFrom : (x.wx r v).cycFrom = x.cycFrom := by unfold Hart.wx; split <;> rfl
@[simp] theorem Hart.wx_instret : (x.wx r v).instret = x.instret := by unfold Hart.wx; split <;> rfl
@[simp] theorem Hart.wx_lastIssue : (x.wx r v).lastIssue = x.lastIssue := by unfold Hart.wx; split <;> rfl
@[simp] theorem Hart.wx_ready : (x.wx r v).ready = x.ready := by unfold Hart.wx; split <;> rfl
@[simp] theorem Hart.wx_resv : (x.wx r v).resv = x.resv := by unfold Hart.wx; split <;> rfl
@[simp] theorem Hart.wx_heldSlot : (x.wx r v).heldSlot = x.heldSlot := by unfold Hart.wx; split <;> rfl
@[simp] theorem Hart.wx_recvEnd : (x.wx r v).recvEnd = x.recvEnd := by unfold Hart.wx; split <;> rfl
@[simp] theorem Hart.wx_log : (x.wx r v).log = x.log := by unfold Hart.wx; split <;> rfl
@[simp] theorem Hart.wx_plainOut : (x.wx r v).plainOut = x.plainOut := by unfold Hart.wx; split <;> rfl
@[simp] theorem Hart.wx_plainAns : (x.wx r v).plainAns = x.plainAns := by unfold Hart.wx; split <;> rfl
@[simp] theorem Hart.wx_fetchFail : (x.wx r v).fetchFail = x.fetchFail := by unfold Hart.wx; split <;> rfl
@[simp] theorem Hart.wx_snap : (x.wx r v).snap = x.snap := by unfold Hart.wx; split <;> rfl
@[simp] theorem Hart.wx_wait : (x.wx r v).wait = x.wait := by unfold Hart.wx; split <;> rfl
@[simp] theorem Hart.wx_due : (x.wx r v).due = x.due := by unfold Hart.wx; split <;> rfl
@[simp] theorem Hart.wx_stopReq : (x.wx r v).stopReq = x.stopReq := by unfold Hart.wx; split <;> rfl
@[simp] theorem Hart.wx_stopAt : (x.wx r v).stopAt = x.stopAt := by unfold Hart.wx; split <;> rfl
@[simp] theorem Hart.wx_stopSret : (x.wx r v).stopSret = x.stopSret := by unfold Hart.wx; split <;> rfl
@[simp] theorem Hart.wx_stopping : (x.wx r v).stopping = x.stopping := by unfold Hart.wx; split <;> rfl
@[simp] theorem Hart.wx_sinceHint : (x.wx r v).sinceHint = x.sinceHint := by unfold Hart.wx; split <;> rfl
@[simp] theorem Hart.wx_yieldEnd : (x.wx r v).yieldEnd = x.yieldEnd := by unfold Hart.wx; split <;> rfl
@[simp] theorem Hart.wx_yieldFor : (x.wx r v).yieldFor = x.yieldFor := by unfold Hart.wx; split <;> rfl
@[simp] theorem Hart.wx_scrub : (x.wx r v).scrub = x.scrub := by unfold Hart.wx; split <;> rfl
@[simp] theorem Hart.wx_migTo : (x.wx r v).migTo = x.migTo := by unfold Hart.wx; split <;> rfl
@[simp] theorem Hart.wx_migCore : (x.wx r v).migCore = x.migCore := by unfold Hart.wx; split <;> rfl
@[simp] theorem Hart.wx_saw : (x.wx r v).saw = x.saw := by unfold Hart.wx; split <;> rfl
@[simp] theorem Hart.wx_sentC : (x.wx r v).sentC = x.sentC := by unfold Hart.wx; split <;> rfl
@[simp] theorem Hart.wx_chisel : (x.wx r v).chisel = x.chisel := by unfold Hart.wx; split <;> rfl
@[simp] theorem Hart.wx_pair : (x.wx r v).pair = x.pair := by unfold Hart.wx; split <;> rfl
@[simp] theorem Hart.wx_trails : (x.wx r v).trails = x.trails := by unfold Hart.wx; split <;> rfl
@[simp] theorem Hart.wx_lvq : (x.wx r v).lvq = x.lvq := by unfold Hart.wx; split <;> rfl
@[simp] theorem Hart.wx_cmp : (x.wx r v).cmp = x.cmp := by unfold Hart.wx; split <;> rfl
@[simp] theorem Hart.wx_released : (x.wx r v).released = x.released := by unfold Hart.wx; split <;> rfl

end

end Sys2Proof.Machine
end

