-- ==== Sys2Proof/Laws/Table.lean ====
section
/-! SUPPORT. Laws of the sparse tables and of memory: reading after writing, and the canonical form that every memory
operation keeps. -/

namespace Sys2Proof.Machine

/-! ## Tables -/

section Tables
variable {α : Type} (t : Table α) (k j : Nat) (v : α) (f : α → α)

@[simp] theorem tget_tset_same : tget (tset t k v) k = some v := by
  induction t with
  | nil => simp [tset, tget]
  | cons p r ih =>
    obtain ⟨i, w⟩ := p
    by_cases h : k < i
    · simp [tset, tget, h]
    · by_cases e : i = k <;> simp [tset, tget, h, e, ih]

theorem tget_tset_ne (h : j ≠ k) : tget (tset t k v) j = tget t j := by
  induction t with
  | nil => simp [tset, tget, Ne.symm h]
  | cons p r ih =>
    obtain ⟨i, w⟩ := p
    by_cases h1 : k < i
    · simp [tset, tget, h1, Ne.symm h]
    · by_cases e : i = k
      · subst e
        simp [tset, tget, Ne.symm h]
      · simp [tset, tget, h1, e, ih]

@[simp] theorem tgetD_tset_same (d : α) : tgetD (tset t k v) k d = v := by simp [tgetD]

theorem tgetD_tset_ne (d : α) (h : j ≠ k) : tgetD (tset t k v) j d = tgetD t j d := by simp [tgetD, tget_tset_ne _ _ _ _ h]

@[simp] theorem tget_tmod_same : tget (tmod t k f) k = (tget t k).map f := by
  induction t with
  | nil => rfl
  | cons p r ih =>
    obtain ⟨i, w⟩ := p
    by_cases e : i = k <;> simp [tmod, tget, e, ih]

theorem tget_tmod_ne (h : j ≠ k) : tget (tmod t k f) j = tget t j := by
  induction t with
  | nil => rfl
  | cons p r ih =>
    obtain ⟨i, w⟩ := p
    by_cases e : i = k
    · subst e
      simp [tmod, tget, Ne.symm h]
    · simp [tmod, tget, e, ih]

@[simp] theorem tget_tdel_same : tget (tdel t k) k = none := by
  induction t with
  | nil => rfl
  | cons p r ih =>
    obtain ⟨i, w⟩ := p
    by_cases e : i = k
    · simp [tdel, e, ih]
    · simp [tdel, tget, e, ih]

theorem tget_tdel_ne (h : j ≠ k) : tget (tdel t k) j = tget t j := by
  induction t with
  | nil => rfl
  | cons p r ih =>
    obtain ⟨i, w⟩ := p
    by_cases e : i = k
    · subst e
      simp [tdel, tget, Ne.symm h, ih]
    · simp [tdel, tget, e, ih]

end Tables

/-! ## One byte of memory -/

theorem memGet_memSet_ne (m : List Host.Cell) (k j : Nat) (b : Byte) (h : j ≠ k) : memGet (memSet m k b) j = memGet m j := by
  induction m with
  | nil => by_cases e : b = unwritten <;> simp [memSet, memGet, e, Ne.symm h]
  | cons p r ih =>
    obtain ⟨i, c⟩ := p
    by_cases h1 : k < i
    · by_cases e : b = unwritten <;> simp [memSet, memGet, h1, e, Ne.symm h]
    · by_cases e : i = k
      · subst e
        by_cases u : b = unwritten <;> simp [memSet, memGet, u, Ne.symm h]
      · simp [memSet, memGet, h1, e, ih]

/-- Below a bound that the list's addresses exceed, nothing is listed. -/
theorem memGet_below (m : List Host.Cell) (l k : Nat) (w : memWfFrom (some l) m = true) (h : k ≤ l) : memGet m k = unwritten := by
  induction m generalizing l with
  | nil => rfl
  | cons p r ih =>
    obtain ⟨i, c⟩ := p
    simp only [memWfFrom, Bool.and_eq_true, decide_eq_true_eq, bne_iff_ne] at w
    have hik : i ≠ k := by omega
    simp only [memGet, hik, if_false]
    exact ih i w.2 (by omega)

theorem memGet_memSet_same (lo : Option Nat) (m : List Host.Cell) (k : Nat) (b : Byte) (w : memWfFrom lo m = true) :
    memGet (memSet m k b) k = b := by
  induction m generalizing lo with
  | nil => by_cases e : b = unwritten <;> simp [memSet, memGet, e]
  | cons p r ih =>
    obtain ⟨i, c⟩ := p
    simp only [memWfFrom, Bool.and_eq_true] at w
    by_cases h1 : k < i
    · by_cases e : b = unwritten
      · have hik : i ≠ k := by omega
        simp [memSet, memGet, h1, e, hik, memGet_below r i k w.2 (by omega)]
      · simp [memSet, memGet, h1, e]
    · by_cases e : i = k
      · subst e
        by_cases u : b = unwritten
        · simp [memSet, u, memGet_below r i i w.2 (le_refl i)]
        · simp [memSet, memGet, u]
      · simp [memSet, memGet, h1, e, ih (some i) w.2]

/-! ## The canonical form -/

/-- A weaker bound. -/
theorem memWfFrom_mono (lo : Option Nat) (l : Nat) (m : List Host.Cell) (w : memWfFrom (some l) m = true)
    (h : ∀ n, lo = some n → n ≤ l) : memWfFrom lo m = true := by
  cases m with
  | nil => rfl
  | cons p r =>
    obtain ⟨i, c⟩ := p
    simp only [memWfFrom, Bool.and_eq_true, decide_eq_true_eq] at w ⊢
    refine ⟨⟨?_, w.1.2⟩, w.2⟩
    cases lo with
    | none => rfl
    | some n => have := h n rfl; simp; omega

/-- An address may follow a bound. -/
def aboveLo (lo : Option Nat) (k : Nat) : Bool := match lo with
  | none => true
  | some l => decide (l < k)

theorem memWfFrom_cons (lo : Option Nat) (i : Nat) (b : Byte) (r : List Host.Cell) :
    memWfFrom lo ((i, b) :: r) = (aboveLo lo i && b != unwritten && memWfFrom (some i) r) := rfl

theorem memSet_wfFrom (lo : Option Nat) (m : List Host.Cell) (k : Nat) (b : Byte) (w : memWfFrom lo m = true)
    (h : ∀ n, lo = some n → n < k) : memWfFrom lo (memSet m k b) = true := by
  induction m generalizing lo with
  | nil =>
    by_cases e : b = unwritten
    · simp [memSet, e, memWfFrom]
    · have hlo : aboveLo lo k = true := by cases lo with
        | none => rfl
        | some n => simpa [aboveLo] using h n rfl
      simp [memSet, e, memWfFrom_cons, hlo, memWfFrom]
  | cons p r ih =>
    obtain ⟨i, c⟩ := p
    have w' := w
    simp only [memWfFrom_cons, Bool.and_eq_true] at w'
    by_cases h1 : k < i
    · by_cases e : b = unwritten
      · simp [memSet, h1, e, w]
      · have hlo : aboveLo lo k = true := by cases lo with
          | none => rfl
          | some n => simpa [aboveLo] using h n rfl
        simp only [memSet, h1, e, if_true, if_false, memWfFrom_cons, Bool.and_eq_true]
        exact ⟨⟨hlo, by simpa using e⟩, ⟨by simpa [aboveLo] using h1, w'.1.2⟩, w'.2⟩
    · by_cases e : i = k
      · subst e
        by_cases u : b = unwritten
        · simp only [memSet, lt_irrefl, if_false, if_true, u]
          exact memWfFrom_mono lo i r w'.2 (fun n hn => le_of_lt (h n hn))
        · simp only [memSet, lt_irrefl, if_false, if_true, u, memWfFrom_cons, Bool.and_eq_true]
          exact ⟨⟨w'.1.1, by simpa using u⟩, w'.2⟩
      · have hk : i < k := by omega
        simp only [memSet, h1, e, if_false, memWfFrom_cons, Bool.and_eq_true]
        exact ⟨w'.1, ih (some i) w'.2 (fun n hn => by cases hn; exact hk)⟩

/-- Writing one byte keeps the canonical form. -/
theorem memSet_wf (m : List Host.Cell) (k : Nat) (b : Byte) (w : Memory.wf m = true) : Memory.wf (memSet m k b) = true :=
  memSet_wfFrom none m k b w (fun _ h => by cases h)

/-- Writing bytes keeps the canonical form. -/
theorem memWrite_wf (bs : List (Option Byte)) (m : List Host.Cell) (k : Nat) (w : Memory.wf m = true) :
    Memory.wf (memWrite m k bs) = true := by
  induction bs generalizing m k with
  | nil => exact w
  | cons o r ih =>
    cases o with
    | none => exact ih m (k + 1) w
    | some b => exact ih (memSet m k b) (k + 1) (memSet_wf m k b w)

/-- Removing listed bytes keeps the canonical form. -/
theorem filter_wfFrom (p : Host.Cell → Bool) (lo : Option Nat) (m : List Host.Cell) (w : memWfFrom lo m = true) :
    memWfFrom lo (m.filter p) = true := by
  induction m generalizing lo with
  | nil => rfl
  | cons c r ih =>
    obtain ⟨i, b⟩ := c
    simp only [memWfFrom, Bool.and_eq_true] at w
    by_cases h : p (i, b) = true
    · simp only [List.filter_cons, h, if_true, memWfFrom, Bool.and_eq_true]
      exact ⟨w.1, ih (some i) w.2⟩
    · simp only [List.filter_cons, h]
      refine ih lo (memWfFrom_mono lo i r w.2 (fun n hn => ?_))
      subst hn
      have := w.1.1
      simp only [decide_eq_true_eq] at this
      omega

theorem filter_wf (p : Host.Cell → Bool) (m : List Host.Cell) (w : Memory.wf m = true) : Memory.wf (m.filter p) = true :=
  filter_wfFrom p none m w

/-! ## Many bytes -/

theorem memGet_memWrite_below (bs : List (Option Byte)) (m : List Host.Cell) (k j : Nat) (h : j < k) :
    memGet (memWrite m k bs) j = memGet m j := by
  induction bs generalizing m k with
  | nil => rfl
  | cons o r ih =>
    cases o with
    | none => exact ih m (k + 1) (by omega)
    | some b =>
      simp only [memWrite]
      rw [ih _ (k + 1) (by omega), memGet_memSet_ne _ _ _ _ (by omega)]

/-- Bytes outside the written ones keep their values. -/
theorem memGet_memWrite_outside (bs : List (Option Byte)) (m : List Host.Cell) (k j : Nat) (h : j < k ∨ k + bs.length ≤ j) :
    memGet (memWrite m k bs) j = memGet m j := by
  induction bs generalizing m k with
  | nil => rfl
  | cons o r ih =>
    simp only [List.length_cons] at h
    cases o with
    | none => exact ih m (k + 1) (by omega)
    | some b =>
      simp only [memWrite]
      rw [ih _ (k + 1) (by omega), memGet_memSet_ne _ _ _ _ (by omega)]

/-- A written byte reads back. -/
theorem memGet_memWrite_inside (bs : List (Option Byte)) (m : List Host.Cell) (k i : Nat) (b : Byte) (w : Memory.wf m = true)
    (h : bs[i]? = some (some b)) : memGet (memWrite m k bs) (k + i) = b := by
  induction bs generalizing m k i with
  | nil => simp at h
  | cons o r ih =>
    cases i with
    | zero =>
      simp only [List.getElem?_cons_zero, Option.some.injEq] at h
      subst h
      simp only [memWrite, Nat.add_zero]
      rw [memGet_memWrite_below _ _ _ _ (by omega)]
      exact memGet_memSet_same none m k b w
    | succ n =>
      simp only [List.getElem?_cons_succ] at h
      have e : k + (n + 1) = k + 1 + n := by omega
      cases o with
      | none =>
        simp only [memWrite, e]
        exact ih m (k + 1) n w h
      | some c =>
        simp only [memWrite, e]
        exact ih (memSet m k c) (k + 1) n (memSet_wf m k c w) h

end Sys2Proof.Machine
end

