-- ==== Sys2Proof/Laws/Run.lean ====
section
/-! SUPPORT. What running an instruction of a ready hart comes to: its own part, settled. -/

namespace Sys2Proof.Machine

open Sys2Proof

theorem tmod_tmod {α : Type} (t : Table α) (k : Nat) (f g : α → α) : tmod (tmod t k f) k g = tmod t k fun x => g (f x) := by
  induction t with
  | nil => rfl
  | cons p r ih =>
    simp only [tmod]
    by_cases h : p.1 = k
    · simp [h, tmod]
    · simp [h, tmod, ih]

/-- Changing an entry by a function, and setting it to the function's value, are one. -/
theorem tmod_const {α : Type} (t : Table α) (k : Nat) (f : α → α) (v : α) (h : tget t k = some v) :
    tmod t k f = tmod t k fun _ => f v := by
  induction t with
  | nil => rfl
  | cons p r ih =>
    simp only [tget] at h
    simp only [tmod]
    by_cases hk : p.1 = k
    · rw [if_pos hk] at h
      simp only [hk, if_true, Option.some.inj h]
    · rw [if_neg hk] at h
      simp only [hk, if_false, ih h]

theorem State.modHart_modHart (s : State) (h : Nat) (f g : Hart → Hart) :
    (s.modHart h f).modHart h g = s.modHart h fun x => g (f x) := by
  unfold State.modHart
  simp only [tmod_tmod]

theorem State.modHart_const {s : State} {h : Nat} {x : Hart} (hx : s.hart? h = some x) (f : Hart → Hart) :
    s.modHart h f = s.modHart h fun _ => f x := by
  unfold State.modHart
  rw [tmod_const s.harts h f x hx]

theorem State.hart?_modHart {s : State} {h : Nat} {x : Hart} (hx : s.hart? h = some x) (f : Hart → Hart) :
    (s.modHart h f).hart? h = some (f x) := by
  unfold State.hart? at hx
  unfold State.modHart State.hart?
  rw [tget_tmod_same, hx]
  rfl

theorem State.hart?_modHart_ne (s : State) {h j : Nat} (f : Hart → Hart) (hj : j ≠ h) :
    (s.modHart h f).hart? j = s.hart? j := tget_tmod_ne _ _ _ _ hj

/-- No register named has failed. -/
theorem Ready.failed_none {s : State} {x : Hart} {n : Names} (r : Ready s x n) : n.failed x = none := by
  unfold Names.failed
  suffices h : ∀ l : List Nat, (∀ i ∈ l, i < 32) → l.foldl (fun acc i => match acc with
      | some a => some a
      | none =>
        if n.xs.contains (BitVec.ofNat 5 i) && !n.nofail.contains (BitVec.ofNat 5 i) then
          match tget x.regs i with
          | some (.failed how) => some (BitVec.ofNat 5 i, how)
          | _ => none
        else none) (none : Option (RegIdx × FailHow)) = none from
    h _ (fun i hi => List.mem_range.mp hi)
  intro l
  induction l with
  | nil => exact fun _ => rfl
  | cons i l ih =>
    intro hl
    rw [List.foldl_cons]
    have hi : i < 32 := hl i List.mem_cons_self
    have e : (if n.xs.contains (BitVec.ofNat 5 i) && !n.nofail.contains (BitVec.ofNat 5 i) then
          match tget x.regs i with
          | some (.failed how) => some (BitVec.ofNat 5 i, how)
          | _ => none
        else (none : Option (RegIdx × FailHow))) = none := by
      split
      · rename_i hc
        simp only [Bool.and_eq_true, Bool.not_eq_true', List.contains_eq_mem, decide_eq_true_eq, decide_eq_false_iff_not] at hc
        have := r.regs _ hc.1
        rw [BitVec.toNat_ofNat, Nat.mod_eq_of_lt (by omega)] at this
        split
        · rename_i how hw
          rw [hw] at this
          exact absurd this hc.2
        · rfl
      · rfl
    simp only [e]
    exact ih fun j hj => hl j (List.mem_cons_of_mem _ hj)

/-- No register named is waited for. -/
theorem Ready.waitsOn_none {s : State} {x : Hart} {n : Names} (r : Ready s x n) : n.waitsOn x = none := by
  unfold Names.waitsOn
  rw [List.find?_eq_none]
  intro i hi
  have hi : i < 32 := List.mem_range.mp hi
  have e : (BitVec.ofNat 5 i).toNat = i := by
    rw [BitVec.toNat_ofNat, Nat.mod_eq_of_lt (by omega)]
  simp only [Bool.not_eq_true]
  rw [Bool.or_eq_false_iff]
  constructor
  · by_cases hm : BitVec.ofNat 5 i ∈ n.xs
    · have h := r.regs _ hm
      rw [e] at h
      cases hr : tget x.regs i with
      | none => simp
      | some st =>
        rw [hr] at h
        cases st <;> simp_all
    · simp [hm]
  · by_cases hm : BitVec.ofNat 5 i ∈ n.vs
    · have h := r.vregs _ hm
      rw [e] at h
      simp [h]
    · simp [hm]

/-- A ready hart performs its instruction's own part (R372). -/
theorem runHart_ready {s : State} {x : Hart} {n : Names} (r : Ready s x n) (i : Instr) (body : Nat → Hart → State → Res) :
    runHart i n body s = s.settle s.cur x n (Instr.len i) (formOf i) (body s.cur x s) := by
  unfold runHart Instr.len formOf
  simp only [r.hart, r.cls, r.failed_none, r.waitsOn_none, r.leads, r.lone, Bool.not_true, Bool.false_eq_true, if_false,
    Option.isSome_none, Bool.false_and]
  all_goals rfl

theorem State.pushLvq_lone (s : State) (h : Nat) {x : Hart} (hx : x.pair = none) (n : Names) : s.pushLvq h x n = s := by
  unfold State.pushLvq
  rw [if_pos (Or.inr (by rw [hx]; rfl))]

/-- The instruction retires where its own part goes on. -/
theorem settle_ok {s : State} {x : Hart} {n : Names} (r : Ready s x n) (len : Nat) (fo : FormOp) (t : State) :
    s.settle s.cur x n len fo (.ok t) = t.modHart s.cur fun y => y.retired (addrPlus x.pc len) n.hint s.ncyc :=
  State.pushLvq_lone _ _ r.lone _

/-- The instruction retires elsewhere. -/
theorem settle_jump {s : State} {x : Hart} {n : Names} (r : Ready s x n) (len : Nat) (fo : FormOp) (pc : Word) (t : State) :
    s.settle s.cur x n len fo (.jump pc t) = t.modHart s.cur fun y => y.retired pc n.hint s.ncyc :=
  State.pushLvq_lone _ _ r.lone _

/-- The instruction traps. -/
theorem settle_trap {s : State} {x : Hart} {n : Names} (r : Ready s x n) (len : Nat) (fo : FormOp) (cause : Nat) (tval : Word)
    (sub : Nat) (t : State) : s.settle s.cur x n len fo (.trap cause tval sub t) = t.takeTrap s.cur cause tval sub fo true := by
  have e : t.pairSynced s.cur x = true := by
    unfold State.pairSynced
    rw [r.lone]
    rfl
  show (if t.pairSynced s.cur x then _ else _) = _
  rw [if_pos e]

/-- An instruction that changes its hart alone, of a ready hart. -/
theorem retires_of {i : Instr} {s : State} {x : Hart} {n : Names} {body : Nat → Hart → State → Res} {f : Hart → Hart}
    (he : exec i s = .next (runHart i n body s)) (r : Ready s x n) (hint : n.hint = false)
    (hb : body s.cur x s = .ok (s.modHart s.cur f)) : Retires i s x (f x) := by
  unfold Retires
  rw [he, runHart_ready r, hb, settle_ok r, State.modHart_modHart, hint, State.modHart_const r.hart]

end Sys2Proof.Machine
end

