-- ==== Sys2Proof/Laws/Access.lean ====
section
/-! SUPPORT. A plain access of one piece that reaches memory: what it answers and what it leaves (R93). -/

namespace Sys2Proof.Machine

open Sys2Proof

/-- Changing something of harts that their other fields do not see. -/
theorem tget_map {α : Type} (t : Table α) (f : α → α) (k : Nat) :
    tget (t.map fun p => (p.1, f p.2)) k = (tget t k).map f := by
  induction t with
  | nil => rfl
  | cons p r ih =>
    simp only [List.map_cons, tget]
    by_cases h : p.1 = k
    · simp [h]
    · simp [h, ih]

theorem State.clearResv_harts (s : State) (key n : Nat) :
    (s.clearResv key n).harts = s.harts.map fun p => (p.1, p.2.unreserve key n) := by
  unfold State.clearResv Hart.unreserve touchesLine
  simp only
  congr 1
  funext p
  cases p.2.resv with
  | none => rfl
  | some l =>
    simp only [Bool.and_eq_true, decide_eq_true_eq]
    split <;> rfl

theorem State.hart?_clearResv (s : State) (key n h : Nat) :
    (s.clearResv key n).hart? h = (s.hart? h).map fun z => z.unreserve key n := by
  unfold State.hart?
  rw [State.clearResv_harts]
  exact tget_map s.harts (fun z => z.unreserve key n) h

/-- Nothing holds a plain access of this hart back. -/
theorem PlainReady.gate {s : State} {x : Hart} (p : PlainReady s x) : s.plainGate s.cur x = none := by
  unfold State.plainGate
  have h1 : s.entriesOf s.cur = [] := by
    unfold State.entriesOf
    rw [List.filter_eq_nil_iff]
    intro q hq
    simp only [Bool.and_eq_true, not_and]
    intro hl hc
    exact p.entries q hq hl (List.contains_iff_mem.mp hc)
  have h2 : ((s.accsOf s.cur).any fun q => !q.2.performed || q.2.kind == 1) = false := by
    rw [List.any_eq_false]
    intro q hq
    simp only [State.accsOf, List.mem_filter, beq_iff_eq] at hq
    obtain ⟨a, b⟩ := p.accs q hq.1 hq.2
    simp [a, b]
  simp [p.log, h1, h2, p.travel]

theorem tlbFill_rest (s : State) (home : Nat) (asid : BitVec 16) (off : Nat) (e : Word) (log : Nat) :
    s.tlbFill home asid off e log = { s with homes := (s.tlbFill home asid off e log).homes } := by
  unfold State.tlbFill
  split <;> rfl

theorem tlbTake_rest (s : State) (fill : Option (PageRef × Word × Nat)) :
    s.tlbTake fill = { s with homes := (s.tlbTake fill).homes } := by
  cases fill with
  | none => rfl
  | some f => exact tlbFill_rest s _ _ _ _ _

theorem judge_rest (s : State) (i cl n : Nat) : (s.judge i cl n).2 = { s with buckets := (s.judge i cl n).2.buckets } := by
  unfold State.judge
  split
  · split <;> rfl
  · rfl

theorem spend_rest (s : State) (i : Nat) (c : Ctx) (n : Nat) (fill : Option (PageRef × Word × Nat)) :
    s.spend i c n fill = { s with buckets := (s.spend i c n fill).buckets } := by
  unfold State.spend
  extract_lets t
  have ht : t = { s with buckets := t.buckets } := judge_rest _ _ _ _
  split
  · rename_i pg e log
    split
    · exact ht
    · have hj := judge_rest t (mcAgent (nearMc pg.home)) (leafClass e) n
      generalize (t.judge (mcAgent (nearMc pg.home)) (leafClass e) n).2 = u at hj
      rw [hj, ht]
  · exact ht

/-! ### The remote-access counter of a hart, which no route sees -/

section
variable (s : State) (h : Nat) (g : Hart → Mig)

theorem mig_hart (k : Nat) : (s.modHart h fun x => { x with mig := g x }).hart? k
    = (s.hart? k).map fun x => { x with mig := if k = h then g x else x.mig } := by
  by_cases e : k = h
  · subst e
    cases hx : s.hart? k with
    | none =>
      have : ∀ t : Table Hart, tget t k = none → tget (tmod t k fun x => { x with mig := g x }) k = none := by
        intro t
        induction t with
        | nil => exact fun a => a
        | cons p r ih =>
          intro a
          simp only [tget] at a
          split at a
          · cases a
          · rename_i ne
            simp only [tmod, if_neg ne, tget]
            exact ih a
      exact this s.harts hx
    | some x => simp [State.hart?_modHart hx]
  · rw [State.hart?_modHart_ne s _ e]
    cases s.hart? k <;> simp [e]

/-- What does not see the counter of a hart is as before. -/
theorem mig_seen {β : Type} (o : Option Nat) (P : Hart → β) (d : β) (hp : ∀ x m, P { x with mig := m } = P x) :
    (match o.bind (s.modHart h fun x => { x with mig := g x }).hart? with
      | some x => P x
      | none => d) = (match o.bind s.hart? with
      | some x => P x
      | none => d) := by
  cases o with
  | none => rfl
  | some k =>
    simp only [Option.bind_some, mig_hart]
    cases s.hart? k <;> simp [hp]

theorem mig_localHit (c : Ctx) (w gr : Nat) : (s.modHart h fun x => { x with mig := g x }).localHit c w gr = s.localHit c w gr :=
  mig_seen s h g c.hart (fun x => s.gran w gr == .core x.cluster x.pcore) false fun _ _ => rfl

theorem mig_absent (c : Ctx) : (s.modHart h fun x => { x with mig := g x }).absentFor c = s.absentFor c := by
  unfold State.absentFor
  cases c.hart with
  | none => rfl
  | some k =>
    simp only [Option.bind_some, mig_hart]
    cases s.hart? k <;> rfl

theorem mig_pageHold (pg : PageRef) (log : Nat) :
    (s.modHart h fun x => { x with mig := g x }).pageHold pg log = s.pageHold pg log := by
  unfold State.pageHold
  simp only [mig_absent]
  rfl

theorem mig_routePage (pg : PageRef) (c : Ctx) (kind : AccKind) (w : Nat) (fh : Bool) :
    (s.modHart h fun x => { x with mig := g x }).routePage pg c kind w fh = s.routePage pg c kind w fh := by
  unfold State.routePage
  simp only [mig_pageHold]
  rfl

theorem mig_granRoute (w gr o : Nat) (kind : AccKind) (n : Nat) :
    (s.modHart h fun x => { x with mig := g x }).granRoute w gr o kind n = s.granRoute w gr o kind n := by
  unfold State.granRoute State.routeFrame
  simp only [mig_routePage]
  rfl

theorem mig_ownWin (r : Req) (w : Nat) : (s.modHart h fun x => { x with mig := g x }).ownWin r w = s.ownWin r w :=
  mig_seen s h g r.ctx.hart (fun x => r.direct && s.winOf x == w) false fun _ _ => rfl

theorem mig_routeWindow (r : Req) (home : Nat) :
    (s.modHart h fun x => { x with mig := g x }).routeWindow r home = s.routeWindow r home := by
  unfold State.routeWindow
  simp only [mig_localHit, mig_granRoute, mig_ownWin]
  rfl

theorem mig_route (r : Req) (i : Nat) : (s.modHart h fun x => { x with mig := g x }).route r i = s.route r i := by
  unfold State.route
  simp only [mig_localHit, mig_routeWindow, mig_routePage]
  rfl

theorem mig_onMesh (c : Ctx) (va : Word) : (s.modHart h fun x => { x with mig := g x }).onMesh c va = s.onMesh c va := by
  unfold State.onMesh
  simp only [mig_localHit]

theorem mig_onWay : (s.modHart h fun x => { x with mig := g x }).onWay = s.onWay := by
  unfold State.onWay
  simp only [mig_onMesh]
  refine congrArg₂ (· ++ ·) (congrArg₂ (· ++ ·) (congrArg _ (List.map_congr_left fun p _ => ?_)) rfl) rfl
  rw [mig_hart]
  cases s.hart? p.2.hart <;> rfl

theorem mig_laneClear (who : Who) (i spot : Nat) :
    (s.modHart h fun x => { x with mig := g x }).laneClear who i spot = s.laneClear who i spot := by
  unfold State.laneClear
  rw [mig_onWay]
  rfl

end

/-- Counting an access changes one hart's counter. -/
theorem count_first (s : State) (h : Nat) (w : Want) (hw : w.first = true) :
    s.countAccess h w = s.modHart h fun x => { x with mig := x.mig.count1 x.cluster (vaHome w.va) } := by
  unfold State.countAccess
  rw [if_pos hw]

/-- A state that differs from `s` in the counter of the hart, the TLB and the tokens. -/
theorem afterRead_mk {s : State} {x : Hart} (hx : s.hart? s.cur = some x) (va : Word) (w : Want) (hw : w.first = true) (he : w.va = va)
    (i : Nat) (c : Ctx) (n : Nat) (fill : Option (PageRef × Word × Nat)) :
    AfterRead s (((s.countAccess s.cur w).spend i c n fill).tlbTake fill) x va := by
  subst he
  have hc := count_first s s.cur w hw
  have key : ∀ t : State, t = { s.countAccess s.cur w with buckets := t.buckets, homes := t.homes } → AfterRead s t x w.va := by
    intro t ht
    rw [hc] at ht
    have hh : t.harts = (s.modHart s.cur fun x => { x with mig := x.mig.count1 x.cluster (vaHome w.va) }).harts := by rw [ht]
    constructor
    · rw [ht]
      rfl
    · intro h hn
      show tget t.harts h = _
      rw [hh]
      exact State.hart?_modHart_ne s _ hn
    · show tget t.harts s.cur = _
      rw [hh]
      exact State.hart?_modHart hx _
  refine key _ ?_
  have b := spend_rest (s.countAccess s.cur w) i c n fill
  have a := tlbTake_rest ((s.countAccess s.cur w).spend i c n fill) fill
  generalize ((s.countAccess s.cur w).spend i c n fill).tlbTake fill = t at a
  generalize (s.countAccess s.cur w).spend i c n fill = u at a b
  rw [a, b]

/-- A piece at memory is answered: it never fails. -/
theorem portMem_ok (s : State) (key : Nat) (tag : Option (BitVec 16)) (act : Piece) (hart : Option Nat) :
    ∀ c sub a, (s.portMem key tag act hart).1 ≠ .fail c sub a := by
  intro c sub a
  unfold State.portMem
  cases act <;> simp only <;> first | (simp; done) | (split <;> simp)

/-- No entry of a load's line stands in the buffer, so that it gives the load nothing. -/
theorem unbuffered_of {s : State} {x : Hart} {va : Word} {act : Piece} (hn : NoEntry s x va) (whole : Bool)
    (hl : ∀ offs, act.reads = some offs → ∀ o ∈ offs, lineOf (addrPlus va o) = lineOf va) : Unbuffered s x va act whole := by
  intro offs ha
  unfold State.forward
  split
  · rfl
  · have hline : ∀ q ∈ s.pbOf x.cluster, q.2.line ≠ lineOf va := by
      intro q hq
      simp only [State.pbOf, List.mem_filter, Bool.and_eq_true, beq_iff_eq] at hq
      exact hn q hq.1 hq.2.1 hq.2.2
    have h1 : (s.pbOf x.cluster).filter (fun q => q.2.line == lineOf va) = [] := by
      rw [List.filter_eq_nil_iff]
      intro q hq
      simp [hline q hq]
    have h2 : (s.pbOf x.cluster).filter (fun q => q.2.touches va offs) = [] := by
      rw [List.filter_eq_nil_iff]
      intro q hq
      unfold PbEnt.touches
      simp only [Bool.not_eq_true, List.any_eq_false]
      intro o ho
      rw [hl offs ha o ho, Bool.and_eq_false_iff]
      exact Or.inl (beq_eq_false_iff_ne.mpr fun e => hline q hq e.symm)
    cases whole <;> simp [h1, h2]

/-- Whether a piece may be kept for a spill ring: it writes. -/
def spills : Piece → Bool
  | .store _ _ | .amo _ _ _ | .sc _ _ | .bits _ _ => true
  | _ => false

/-- What may go to its port at once: no entry holds a byte that it writes, and where it stores, its line is not spilled. -/
def Clear (s : State) (x : Hart) (va : Word) (act : Piece) : Prop :=
  s.coveredBy x va act = [] ∧ (spills act = true → s.spillLine va = none)

/-- A piece that writes nothing may go. -/
theorem clear_quiet {s : State} {x : Hart} {va : Word} {act : Piece} (h : act.writes = []) (k : spills act = false) :
    Clear s x va act := by
  refine ⟨?_, fun e => absurd e (by simp [k])⟩
  unfold State.coveredBy
  split
  · rfl
  · have : (s.pbOf x.cluster).filter (fun p => p.2.touches va act.writes) = [] := by
      rw [List.filter_eq_nil_iff, h]
      intro q _
      simp [PbEnt.touches]
    rw [this]
    rfl

/-- A piece that only reads may go. -/
theorem clear_reads {s : State} {x : Hart} {va : Word} {act : Piece} (h : act.reads.isSome) : Clear s x va act := by
  cases act <;> first | exact clear_quiet rfl rfl | (simp [Piece.reads] at h)

/-- A piece before which nothing stands may go. -/
theorem Writable.clear {s : State} {x : Hart} {va : Word} {act : Piece} (w : Writable s x va act) : Clear s x va act :=
  ⟨w.uncovered, fun _ => w.unspilled⟩

/-- The plain access of one piece (R93): its port answers, in a state after the counter, the TLB and the tokens. -/
theorem plain_cut {s : State} {x : Hart} {va : Word} {act : Piece} {kind : AccKind} {key : Nat} {tag : Option (BitVec 16)}
    (hx : s.hart? s.cur = some x) (p : PlainReady s x) (r : Reaches s x va act.width kind key tag) (cl : Clear s x va act)
    (trace : Option Traced) (whole : Bool) (hfw : Unbuffered s x va act whole) :
    ∃ s1 fill, s.route (Req.hart va act.width kind (x.ctx s.cur)) x.iface = .at (.mem key tag) false fill ∧ AfterRead s s1 x va ∧
      s.plain s.cur x trace whole [⟨va, act, kind, true⟩]
        = .done [(s1.portMem key tag (act.cut (roomOf va fill)) (some s.cur)).1]
          ((s1.portMem key tag (act.cut (roomOf va fill)) (some s.cur)).2.keepLog s.cur []) := by
  obtain ⟨fill, hr⟩ := r.route
  let w : Want := ⟨va, act, kind, true⟩
  refine ⟨_, fill, hr, afterRead_mk hx va w rfl rfl x.iface (x.ctx s.cur) act.width fill, ?_⟩
  have hc := count_first s s.cur w rfl
  have hroute : (s.countAccess s.cur w).route (Req.hart va act.width kind (x.ctx s.cur)) x.iface = .at (.mem key tag) false fill := by
    rw [hc, mig_route, hr]
  have hmesh : (s.countAccess s.cur w).onMesh (x.ctx s.cur) va = s.onMesh (x.ctx s.cur) va := by rw [hc, mig_onMesh]
  have hlane : (s.onMesh (x.ctx s.cur) va && !((s.countAccess s.cur w).laneClear (.plain s.cur) x.iface (lineSpot va))) = false := by
    rw [hc, mig_laneClear]
    cases hm : s.onMesh (x.ctx s.cur) va with
    | false => rfl
    | true => simp [r.lane hm]
  have hback : (s.onMesh (x.ctx s.cur) va && !((s.countAccess s.cur w).responds x.iface va)) = false := by
    have e : (s.countAccess s.cur w).responds x.iface va = s.responds x.iface va := by rw [hc]; rfl
    rw [e]
    cases hm : s.onMesh (x.ctx s.cur) va with
    | false => rfl
    | true => simp [r.back hm]
  have hspill : (s.countAccess s.cur w).spillWrite (Req.hart va act.width kind (x.ctx s.cur)) act (.plain s.cur) false = none := by
    have e (h : spills act = true) : (s.countAccess s.cur w).spillLine va = none := by rw [hc]; exact cl.2 h
    unfold State.spillWrite
    cases act <;> first
      | rfl
      | simp only [show ∀ n, (Req.hart va n kind (x.ctx s.cur)).va = va from fun _ => rfl, e rfl, Option.map_none, ite_self]
  have hreq : (s.countAccess s.cur w).request (Req.hart va act.width kind (x.ctx s.cur)) act (.plain s.cur) false trace x.iface
      = (.ans ((((s.countAccess s.cur w).spend x.iface (x.ctx s.cur) act.width fill).tlbTake fill).portMem key tag (act.cut (roomOf va fill)) (some s.cur)).1,
        ((((s.countAccess s.cur w).spend x.iface (x.ctx s.cur) act.width fill).tlbTake fill).portMem key tag (act.cut (roomOf va fill)) (some s.cur)).2) := by
    unfold State.request
    have e1 : (Req.hart va act.width kind (x.ctx s.cur)).va = va := rfl
    have e2 : (Req.hart va act.width kind (x.ctx s.cur)).ctx = x.ctx s.cur := rfl
    have e3 : (Req.hart va act.width kind (x.ctx s.cur)).w = act.width := rfl
    simp only [e1, e2, e3, hmesh, hlane, hback, hroute, hspill, Bool.false_and, Bool.false_eq_true, if_false]
    unfold State.performAt
    cases trace with
    | none => rfl
    | some t =>
      simp only [State.portDo, Req.hart]
      split
      · rename_i h1 h2 h3
        exact absurd h3 (by simp)
      · rfl
  have hcov : (!(s.coveredBy x va act).isEmpty) = false := by rw [cl.1]; rfl
  unfold State.plain
  rw [if_neg (by rw [p.out]; simp), p.gate]
  simp only [p.log, List.getLast?_nil, List.length_nil, List.drop_zero, State.plainGo, hx, hcov, Bool.false_eq_true, if_false]
  have hreq' := hreq
  simp only [w] at hreq'
  have hcase : act.reads = none ∨ ∃ offs, act.reads = some offs := by cases act.reads <;> simp
  have fin : ∀ pm : PieceAns × State, (∀ c sub a, pm.1 ≠ .fail c sub a) →
      (match ((PortRes.ans pm.1, pm.2) : PortRes × State) with
        | (.ans (.fail cause sub a), s2) => Got.trap cause sub a (s2.keepLog s.cur [])
        | (.ans a, s2) => s2.plainGo s.cur trace whole [] ([] ++ [a])
        | (.held, s2) => let (id, s3) := s2.fresh
                         .wait (s3.awaitAns s.cur id [])
        | (.wait, _) => .wait (s.keepLog s.cur [])) = .done [pm.1] (pm.2.keepLog s.cur []) := by
    intro pm hok
    obtain ⟨a, s2⟩ := pm
    cases a with
    | fail c sub a => exact absurd rfl (hok c sub a)
    | data b t q => rfl
    | done ok => rfl
  obtain ha | ⟨offs, ha⟩ := hcase
  · simp only [ha]
    rw [hreq']
    exact fin (State.portMem _ key tag (act.cut (roomOf va fill)) (some s.cur)) (portMem_ok _ _ _ _ _)
  · simp only [ha, hfw offs ha]
    rw [hreq']
    exact fin (State.portMem _ key tag (act.cut (roomOf va fill)) (some s.cur)) (portMem_ok _ _ _ _ _)

/-- The plain access of one piece that is no record's (R93): its port answers, in a state after the counter, the TLB and the tokens. -/
theorem plain_one {s : State} {x : Hart} {va : Word} {act : Piece} {kind : AccKind} {key : Nat} {tag : Option (BitVec 16)}
    (hx : s.hart? s.cur = some x) (p : PlainReady s x) (r : Reaches s x va act.width kind key tag) (cl : Clear s x va act)
    (trace : Option Traced) (whole : Bool) (hfw : Unbuffered s x va act whole) (hc : ∀ room, act.cut room = act) :
    ∃ s1, AfterRead s s1 x va ∧
      s.plain s.cur x trace whole [⟨va, act, kind, true⟩]
        = .done [(s1.portMem key tag act (some s.cur)).1] ((s1.portMem key tag act (some s.cur)).2.keepLog s.cur []) := by
  obtain ⟨s1, fill, _, ha, hp⟩ := plain_cut hx p r cl trace whole hfw
  rw [hc] at hp
  exact ⟨s1, ha, hp⟩

/-- The bytes of a piece inside one line are of that line. -/
theorem lineOf_inside (a : Word) (o n : Nat) (h : a.toNat % 64 + n ≤ 64) (ho : o < n) : lineOf (addrPlus a o) = lineOf a := by
  have e : (addrPlus a o).toNat = a.toNat + o := by
    unfold addrPlus
    rw [BitVec.toNat_add, BitVec.toNat_ofNat]
    have := a.isLt
    omega
  unfold lineOf
  rw [e]
  congr 1
  omega

theorem memGet_memWrite (bs : List (Option Byte)) (m : List Host.Cell) (k a : Nat) (w : Memory.wf m = true) :
    memGet (memWrite m k bs) a = (written bs k a).getD (memGet m a) := by
  induction bs generalizing m k with
  | nil => simp [memWrite, written]
  | cons o r ih =>
    have hw : written (o :: r) k a = if a = k then o else written r (k + 1) a := by
      unfold written
      by_cases h : a < k
      · simp [h, Nat.ne_of_lt h, Nat.lt_succ_of_lt h]
      · by_cases e : a = k
        · simp [e]
        · have h1 : ¬ a < k + 1 := by omega
          simp only [h, h1, e, if_false]
          rw [show a - k = (a - (k + 1)) + 1 by omega]
          rfl
    rw [hw]
    have below : a = k → written r (k + 1) a = none := fun e => by simp [written, e]
    cases o with
    | none =>
      simp only [memWrite]
      rw [ih m (k + 1) w]
      by_cases e : a = k
      · rw [below e, if_pos e]
      · rw [if_neg e]
    | some b =>
      simp only [memWrite]
      rw [ih _ (k + 1) (memSet_wf m k b w)]
      by_cases e : a = k
      · rw [below e, if_pos e, e]
        exact memGet_memSet_same none m k b w
      · rw [if_neg e, memGet_memSet_ne m k a b e]

theorem State.putMem_mem (s : State) (key : Nat) (bytes : List (Option Byte)) : (s.putMem key bytes).mem = memWrite s.mem key bytes := by
  unfold State.putMem State.noticeWatch State.clearResv State.unpoison
  split <;> rfl

theorem State.putMem_rest (s : State) (key : Nat) (bytes : List (Option Byte)) :
    s.putMem key bytes = { s with
      mem := memWrite s.mem key bytes
      poison := (s.putMem key bytes).poison
      watches := (s.putMem key bytes).watches
      harts := (s.clearResv key bytes.length).harts } := by
  unfold State.putMem State.noticeWatch State.clearResv State.unpoison
  split <;> rfl

theorem State.putMem_hart (s : State) (key : Nat) (bytes : List (Option Byte)) (h : Nat) :
    (s.putMem key bytes).hart? h = (s.hart? h).map fun z => z.unreserve key bytes.length := by
  rw [← State.hart?_clearResv]
  unfold State.hart?
  rw [State.putMem_rest]

/-- A store's write, after its access. -/
theorem afterWrite {s s1 : State} {x : Hart} {va : Word} (a : AfterRead s s1 x va) (w : s.Inv) (key : Nat)
    (bytes : List (Option Byte)) : AfterWrite s (s1.putMem key bytes) x va key bytes none := by
  have hm : s1.mem = s.mem := by rw [a.rest]
  have ht : s1.tags = s.tags := by rw [a.rest]
  have b := State.putMem_rest s1 key bytes
  constructor
  · have c := a.rest
    generalize s1.putMem key bytes = t at b
    generalize (s1.clearResv key bytes.length).harts = hs at b
    rw [c] at b
    rw [b]
  · intro j
    rw [State.putMem_mem, hm]
    exact memGet_memWrite _ _ _ _ w
  · intro l
    rw [b]
    simp only [ht]
  · intro h hn
    rw [State.putMem_hart, a.others h hn]
  · rw [State.putMem_hart, a.hart]
    rfl

theorem State.setTag_tags (s : State) (key : Nat) (g : BitVec 16) (l : Nat) :
    tgetD (s.setTag key g).tags l 0#16 = if l = key / 64 then g else tgetD s.tags l 0#16 := by
  unfold State.setTag tgetD
  by_cases h : l = key / 64
  · subst h
    by_cases g0 : g = 0#16
    · simp [g0, tget_tdel_same]
    · simp [g0, tget_tset_same]
  · by_cases g0 : g = 0#16
    · simp [g0, h, tget_tdel_ne]
    · simp [g0, h, tget_tset_ne]

theorem State.setTags_tags (s : State) (key n : Nat) (g : BitVec 16) (l : Nat) :
    tgetD (s.setTags key n g).tags l 0#16
      = if key / 64 ≤ l ∧ l < key / 64 + (max n 1 + 63) / 64 then g else tgetD s.tags l 0#16 := by
  unfold State.setTags
  generalize (max n 1 + 63) / 64 = m
  induction m with
  | zero => simp
  | succ m ih =>
    rw [List.range_succ, List.foldl_append, List.foldl_cons, List.foldl_nil, State.setTag_tags, ih]
    have e : (key + 64 * m) / 64 = key / 64 + m := by omega
    rw [e]
    by_cases h1 : l = key / 64 + m
    · rw [if_pos h1, if_pos (by omega)]
    · rw [if_neg h1]
      by_cases h2 : key / 64 ≤ l ∧ l < key / 64 + m
      · rw [if_pos h2, if_pos (by omega)]
      · rw [if_neg h2, if_neg (by omega)]

theorem State.setTags_rest (s : State) (key n : Nat) (g : BitVec 16) :
    s.setTags key n g = { s with tags := (s.setTags key n g).tags } := by
  unfold State.setTags
  generalize List.range ((max n 1 + 63) / 64) = l
  have : ∀ a : State, l.foldl (fun (a : State) i => a.setTag (key + 64 * i) g) a
      = { a with tags := (l.foldl (fun (a : State) i => a.setTag (key + 64 * i) g) a).tags } := by
    induction l with
    | nil => exact fun a => rfl
    | cons i l ih =>
      intro a
      rw [List.foldl_cons]
      have b := ih (a.setTag (key + 64 * i) g)
      generalize l.foldl (fun (a : State) i => a.setTag (key + 64 * i) g) (a.setTag (key + 64 * i) g) = t at b
      rw [b]
      rfl
  exact this s

/-- A store that carries a tag. -/
theorem afterTag {s s1 : State} {x : Hart} {va : Word} {key : Nat} {bytes : List (Option Byte)}
    (a : AfterWrite s s1 x va key bytes none) (g : BitVec 16) :
    AfterWrite s (s1.setTags key bytes.length g) x va key bytes (some g) := by
  have r := State.setTags_rest s1 key bytes.length g
  have q := State.setTags_tags s1 key bytes.length g
  generalize s1.setTags key bytes.length g = t at r q
  constructor
  · have c := a.rest
    generalize t.tags = tt at r
    rw [r, c]
  · intro b
    rw [r]
    exact a.mem b
  · intro l
    rw [q l, a.tags l]
  · intro h hn
    rw [r]
    exact a.others h hn
  · rw [r]
    exact a.hart

/-- An instruction that has done its part in a state where the hart stands. -/
theorem retiresIn_of {i : Instr} {s t : State} {x : Hart} {n : Names} {body : Nat → Hart → State → Res} {g : Hart → Hart}
    (he : exec i s = .next (runHart i n body s)) (r : Ready s x n) (hint : n.hint = false)
    (hb : body s.cur x s = .ok ((t.keepLog s.cur []).modHart s.cur g))
    (hg : ∀ (y : Hart) pc, (g { y with log := [] }).retired pc false s.ncyc = (g y).retired pc false s.ncyc) :
    RetiresIn i s t x g := by
  unfold RetiresIn
  rw [he, runHart_ready r, hb, settle_ok r, State.modHart_modHart, hint]
  unfold State.keepLog
  rw [State.modHart_modHart]
  congr 2
  funext y
  exact hg y _

theorem retiresAt_of {i : Instr} {s t : State} {x : Hart} {n : Names} {body : Nat → Hart → State → Res}
    (he : exec i s = .next (runHart i n body s)) (r : Ready s x n) (hint : n.hint = false)
    (hb : body s.cur x s = .ok (t.keepLog s.cur [])) : RetiresAt i s t x := by
  unfold RetiresAt RetiresIn
  rw [he, runHart_ready r, hb, settle_ok r, hint]
  unfold State.keepLog
  rw [State.modHart_modHart]
  rfl

theorem traps_of {i : Instr} {s : State} {x : Hart} {n : Names} {body : Nat → Hart → State → Res} {cause : Nat} {tval : Word}
    {sub : Nat} (he : exec i s = .next (runHart i n body s)) (r : Ready s x n)
    (hb : body s.cur x s = .trap cause tval sub s) : Traps i s cause tval sub := by
  unfold Traps
  rw [he, runHart_ready r, hb, settle_trap r]

theorem wx_retired (y : Hart) (r : RegIdx) (v pc : Word) (n : Nat) :
    ((({ y with log := [] } : Hart).wx r v)).retired pc false n = (y.wx r v).retired pc false n := by
  unfold Hart.wx
  split <;> rfl

theorem loadWants_one {a : Word} {w : Nat} (h : a.toNat % w = 0) (hw : 0 < w) :
    loadWants a w w .load = [⟨a, .load w, .load, true⟩] := by
  unfold loadWants cutAt
  rw [if_pos (Or.inl h)]
  simp
  omega

end Sys2Proof.Machine
end

