-- ==== Sys2Proof/Laws/Inv.lean ====
section
/-! SUPPORT. The invariant of Safety.lean through the shapes that the model is written in: outcomes of instructions, folds and
choices, and the few operations that write memory. -/

namespace Sys2Proof.Machine

/-! ## Outcomes -/

/-- Every state in the outcome of an instruction's own part keeps the invariant. -/
def Res.Inv : Res → Prop
  | .ok s => s.Inv
  | .jump _ s => s.Inv
  | .okThen post s => s.Inv ∧ ∀ t : State, t.Inv → (post t).Inv
  | .trap _ _ _ s => s.Inv
  | .wait _ _ s => s.Inv

/-- Every state in the outcome of a plain access keeps it. -/
def Got.Inv : Got → Prop
  | .done _ s => s.Inv
  | .trap _ _ _ s => s.Inv
  | .wait s => s.Inv

/-- Every state in what a fetch gives keeps it. -/
def Fetched.Inv : Fetched → Prop
  | .words _ _ s => s.Inv
  | .fail _ _ _ s => s.Inv
  | .idle s => s.Inv

/-- The state in which a packet is left where it is keeps it. -/
def Selected.Inv : Selected → Prop
  | .leave s => s.Inv
  | .go _ _ _ _ _ => True

theorem Selected.inv_leave {s : State} (h : s.Inv) : (Selected.leave s).Inv := h
theorem Selected.inv_go {k : Nat} {p : Option Nat} {b : List Byte} {w : Work} {c : Ctx} : (Selected.go k p b w c).Inv := trivial
theorem selLeave_inv {x : Selected} {s : State} (h : x.Inv) (e : x = .leave s) : s.Inv := by
  subst e
  exact h
theorem Res.inv_ok {s : State} (h : s.Inv) : (Res.ok s).Inv := h
theorem Res.inv_jump {s : State} {a : Word} (h : s.Inv) : (Res.jump a s).Inv := h
theorem Res.inv_trap {s : State} {a b : Nat} {v : Word} (h : s.Inv) : (Res.trap a v b s).Inv := h
theorem Res.inv_wait {s : State} {a : Nat} {v : Word} (h : s.Inv) : (Res.wait a v s).Inv := h
theorem Res.inv_okThen {s : State} {p : State → State} (h : s.Inv) (k : ∀ t : State, t.Inv → (p t).Inv) : (Res.okThen p s).Inv := ⟨h, k⟩
theorem Got.inv_done {s : State} {l : List PieceAns} (h : s.Inv) : (Got.done l s).Inv := h
theorem Got.inv_trap {s : State} {a b : Nat} {v : Word} (h : s.Inv) : (Got.trap a b v s).Inv := h
theorem Got.inv_wait {s : State} (h : s.Inv) : (Got.wait s).Inv := h
theorem Fetched.inv_words {s : State} {a b : W32} (h : s.Inv) : (Fetched.words a b s).Inv := h
theorem Fetched.inv_fail {s : State} {a b : Nat} {v : Word} (h : s.Inv) : (Fetched.fail a b v s).Inv := h
theorem Fetched.inv_idle {s : State} (h : s.Inv) : (Fetched.idle s).Inv := h
theorem safe_next {s : State} (h : s.Inv) : Safe (.next s) := h
theorem safe_fault {f : Fault} : Safe (.fault f) := trivial

/-- The state beside a value keeps it. -/
def SndInv {α : Type} (p : α × State) : Prop := p.2.Inv

theorem sndInv_mk {α : Type} {a : α} {s : State} (h : s.Inv) : SndInv (a, s) := h
theorem snd_inv {α : Type} {p : α × State} (h : SndInv p) : p.2.Inv := h
theorem fstInv_mk {α : Type} {a : α} {s : State} (h : s.Inv) : (s, a).1.Inv := h
theorem pair_inv {α : Type} {p : α × State} {a : α} {s : State} (h : SndInv p) (e : p = (a, s)) : s.Inv := by
  subst e
  exact h
/-- A state that may be absent keeps it. -/
def OptInv : Option State → Prop
  | some s => s.Inv
  | none => True
/-- An instruction's outcome that may be absent keeps it. -/
def OptResInv : Option Res → Prop
  | some r => r.Inv
  | none => True
theorem optInv_some {s : State} (h : s.Inv) : OptInv (some s) := h
theorem optInv_none : OptInv none := trivial
theorem optResInv_some {r : Res} (h : r.Inv) : OptResInv (some r) := h
theorem optResInv_none : OptResInv none := trivial
theorem some_inv {o : Option State} {s : State} (h : OptInv o) (e : o = some s) : s.Inv := by
  subst e
  exact h
theorem someRes_inv {o : Option Res} {r : Res} (h : OptResInv o) (e : o = some r) : r.Inv := by
  subst e
  exact h
/-- A state beside a value, that may be absent, keeps it. -/
def OptSndInv {α : Type} : Option (α × State) → Prop
  | some p => SndInv p
  | none => True
theorem optSndInv_some {α : Type} {p : α × State} (h : SndInv p) : OptSndInv (some p) := h
theorem optSndInv_none {α : Type} : OptSndInv (none : Option (α × State)) := trivial
theorem someSnd_inv {α : Type} {o : Option (α × State)} {p : α × State} (h : OptSndInv o) (e : o = some p) : SndInv p := by
  subst e
  exact h
theorem optMap_sndInv {α β : Type} {o : Option β} {f : β → α × State} (h : ∀ b, SndInv (f b)) : OptSndInv (o.map f) := by
  cases o with
  | none => trivial
  | some b => exact h b
theorem gotDone_inv {g : Got} {l : List PieceAns} {s : State} (h : g.Inv) (e : g = .done l s) : s.Inv := by
  subst e
  exact h
theorem resOk_inv {r : Res} {s : State} (h : r.Inv) (e : r = .ok s) : s.Inv := by
  subst e
  exact h

/-! ## Choices and folds -/

theorem ite_inv {c : Prop} [Decidable c] {a b : State} (h : c → a.Inv) (k : ¬c → b.Inv) : (if c then a else b).Inv := by
  split <;> simp_all
theorem ite_resInv {c : Prop} [Decidable c] {a b : Res} (h : c → a.Inv) (k : ¬c → b.Inv) : (if c then a else b).Inv := by
  split <;> simp_all
theorem ite_gotInv {c : Prop} [Decidable c] {a b : Got} (h : c → a.Inv) (k : ¬c → b.Inv) : (if c then a else b).Inv := by
  split <;> simp_all
theorem ite_fetchedInv {c : Prop} [Decidable c] {a b : Fetched} (h : c → a.Inv) (k : ¬c → b.Inv) : (if c then a else b).Inv := by
  split <;> simp_all
theorem ite_sndInv {α : Type} {c : Prop} [Decidable c] {a b : α × State} (h : c → SndInv a) (k : ¬c → SndInv b) :
    SndInv (if c then a else b) := by
  split <;> simp_all
theorem ite_optInv {c : Prop} [Decidable c] {a b : Option State} (h : c → OptInv a) (k : ¬c → OptInv b) :
    OptInv (if c then a else b) := by
  split <;> simp_all
theorem ite_optResInv {c : Prop} [Decidable c] {a b : Option Res} (h : c → OptResInv a) (k : ¬c → OptResInv b) :
    OptResInv (if c then a else b) := by
  split <;> simp_all
theorem ite_optSndInv {α : Type} {c : Prop} [Decidable c] {a b : Option (α × State)} (h : c → OptSndInv a) (k : ¬c → OptSndInv b) :
    OptSndInv (if c then a else b) := by
  split <;> simp_all
theorem ite_selInv {c : Prop} [Decidable c] {a b : Selected} (h : c → a.Inv) (k : ¬c → b.Inv) : (if c then a else b).Inv := by
  split <;> simp_all
theorem ite_safe {c : Prop} [Decidable c] {a b : Host.Outcome State Fault Refusal} (h : c → Safe a) (k : ¬c → Safe b) :
    Safe (if c then a else b) := by
  split <;> simp_all

theorem foldl_inv {α : Type} {g : State → α → State} {l : List α} {s : State} (h : s.Inv)
    (k : ∀ (t : State) (a : α), t.Inv → (g t a).Inv) : (l.foldl g s).Inv := by
  induction l generalizing s with
  | nil => exact h
  | cons a r ih => exact ih (k s a h)
theorem foldl_sndInv {α β : Type} {g : β × State → α → β × State} {l : List α} {p : β × State} (h : SndInv p)
    (k : ∀ (t : β × State) (a : α), SndInv t → SndInv (g t a)) : SndInv (l.foldl g p) := by
  induction l generalizing p with
  | nil => exact h
  | cons a r ih => exact ih (k p a h)
theorem foldl_fstInv {α β : Type} {g : State × β → α → State × β} {l : List α} {p : State × β} (h : p.1.Inv)
    (k : ∀ (t : State × β) (a : α), t.1.Inv → (g t a).1.Inv) : (l.foldl g p).1.Inv := by
  induction l generalizing p with
  | nil => exact h
  | cons a r ih => exact ih (k p a h)

/-- The first of some states that is there, or the state itself. -/
theorem getD_findSome_inv {α : Type} {f : α → Option State} {l : List α} {s : State} (h : s.Inv)
    (k : ∀ (a : α) (t : State), f a = some t → t.Inv) : ((l.findSome? f).getD s).Inv := by
  cases e : l.findSome? f with
  | none => exact h
  | some t =>
    obtain ⟨a, _, ha⟩ := List.exists_of_findSome?_eq_some e
    exact k a t ha

/-! ## Updates -/

theorem inv_mem {t : State} (h : t.Inv) : Memory.wf t.mem = true := h
/-- A state put together field by field: its memory decides. -/
theorem inv_mk
    {f_tape : List Turn}
    {f_cur : Nat}
    {f_subj : Nat}
    {f_turnNo : Nat}
    {f_freeCtr : Nat}
    {f_nextId : Nat}
    {f_ncyc : Nat}
    {f_gib : Nat}
    {f_mem : List Host.Cell}
    {f_tags : Table (BitVec 16)}
    {f_poison : List Nat}
    {f_harts : Table Hart}
    {f_groups : Table Group}
    {f_blocks : Table Block}
    {f_grids : Table Grid}
    {f_cores : Table Core}
    {f_windows : Table Window}
    {f_plinths : Table Plinth}
    {f_engines : Table (List CopyCmd)}
    {f_pb : Table PbEnt}
    {f_accs : Table Acc}
    {f_ops : Table Op}
    {f_gridArrs : Table GridArr}
    {f_gridWaits : List (Nat × Word × BitVec 32)}
    {f_held : List Held}
    {f_missRecs : Table MissRec}
    {f_homes : Table HomeSt}
    {f_mcs : Table Mc}
    {f_clusters : Table Cluster}
    {f_queues : Table QueueSt}
    {f_packets : Table Packet}
    {f_graphs : Table GraphRun}
    {f_pipes : Table PipeRun}
    {f_watches : Table Watch}
    {f_timers : Table HrTimer}
    {f_cuts : Table Cut}
    {f_slots : Table Slot}
    {f_powers : Table Power}
    {f_eths : Table Eth}
    {f_mod : Module}
    {f_boot : Boot}
    {f_sites : Table Site}
    {f_homeMap : Table (BitVec 16)}
    {f_nst : Table Bool}
    {f_deadLinks : List DeadLink}
    {f_replays : Table (List Nat)}
    {f_unreach : List Nat}
    {f_buckets : Table Nat}
    {f_refilled : Table Nat}
    {f_aged : List Nat}
    {f_pgMigs : Table PgMig}
    {f_irqs : List (Nat × Nat)}
    {f_hostAns : List (Nat × HostAns)}
    {f_frozen : Option Nat}
    (h : Memory.wf f_mem = true) :
    State.Inv (State.mk f_tape f_cur f_subj f_turnNo f_freeCtr f_nextId f_ncyc f_gib f_mem f_tags f_poison f_harts
      f_groups f_blocks f_grids f_cores f_windows f_plinths f_engines f_pb f_accs f_ops f_gridArrs f_gridWaits f_held
      f_missRecs f_homes f_mcs f_clusters f_queues f_packets f_graphs f_pipes f_watches f_timers f_cuts f_slots
      f_powers f_eths f_mod f_boot f_sites f_homeMap f_nst f_deadLinks f_replays f_unreach f_buckets f_refilled f_aged
      f_pgMigs f_irqs f_hostAns f_frozen) := h

/-- An update that leaves memory as it was. -/
theorem inv_of_mem {s t : State} (h : s.Inv) (e : t.mem = s.mem) : t.Inv := by
  unfold State.Inv at *
  rw [e]
  exact h

end Sys2Proof.Machine
end

