-- ==== Sys2Proof/Laws/Issue.lean ====
section
/-! SUPPORT. Issuing: what relaxed loads, fences and asynchronous operations leave of the state (R94, R99, R217). -/

namespace Sys2Proof.Machine

open Sys2Proof

/-- Counting for several pieces changes one hart. -/
theorem modHart_fold {α} (s : State) (h : Nat) (ws : List α) (g : α → Hart → Hart) (s0 : State → α → State)
   (hs : ∀ (s : State) w, s0 s w = s.modHart h (g w)) : ws.foldl s0 s = s.modHart h fun x => ws.foldl (fun y w => g w y) x := by
  induction ws generalizing s with
  | nil =>
    show s = s.modHart h fun x => x
    unfold State.modHart
    have : ∀ (t : Table Hart), tmod t h (fun x => x) = t := by
      intro t
      induction t with
      | nil => rfl
      | cons p r ih => simp only [tmod]; split <;> simp [ih]
    rw [this]
  | cons w ws ih => rw [List.foldl_cons, hs, ih, State.modHart_modHart]; rfl

/-- Counting an access changes one hart (R44). -/
theorem count_mod (s : State) (h : Nat) (w : Want) : s.countAccess h w = s.modHart h fun x => if w.first then { x with mig := x.mig.count1 x.cluster (vaHome w.va) } else x := by
  unfold State.countAccess
  split
  · rfl
  · unfold State.modHart
    have : ∀ (t : Table Hart), tmod t h (fun x => x) = t := by
      intro t
      induction t with
      | nil => rfl
      | cons p r ih => simp only [tmod]; split <;> simp [ih]
    rw [this]

/-- Counting the accesses of all pieces. -/
theorem counts_mod (s : State) (h : Nat) (ws : List Want) : ws.foldl (fun (a : State) w => a.countAccess h w) s = s.modHart h fun x => x.counted ws :=
  modHart_fold s h ws (fun w x => if w.first then { x with mig := x.mig.count1 x.cluster (vaHome w.va) } else x) _ (fun s w => count_mod s h w)

/-- The entries that pieces wait for, joined. -/
theorem gate_flat (l : List (Want × Fwd)) (g : List Nat) : l.foldl (fun g p => match p.2 with
    | Fwd.after ids => g ++ ids
    | _ => g) g = g ++ (l.map fun p => match p.2 with
    | Fwd.after ids => ids
    | _ => []).flatten := by
  induction l generalizing g with
  | nil => simp
  | cons p l ih => 
    rw [List.foldl_cons, ih]
    rcases p with ⟨w, f⟩
    cases f <;> simp

/-- Issuing a relaxed load (R94, R97, R188): the load under way, and its hart. -/
theorem loadIssue_eq (s : State) (x : Hart) (ws dst fo kind) (hx : s.hart? s.cur = some x) :
   s.loadIssue s.cur x ws dst fo kind = (s.withLoad x ws dst fo kind).modHart s.cur fun _ =>
     ((x.counted ws).sawAll (ws.map (takesFrom s x)).flatten).markBusy s.nextId dst := by
  have key : ∀ pcs gate gave, pcs = ws.map (setsOut s x) → gate = (ws.map (waitsFor s x)).flatten →
      gave = (ws.map (takesFrom s x)).flatten →
      ({ ({s with nextId := s.nextId+1} : State).modHart s.cur (fun x => x.counted ws) with accs := tset (({s with nextId := s.nextId+1} : State).modHart s.cur (fun x => x.counted ws)).accs s.nextId (⟨s.cur, some dst, pcs, x.ctx s.cur, gate, fo, kind⟩ : Acc)} : State).modHart s.cur (fun y => (y.sawAll gave).markBusy s.nextId dst)
        = (s.withLoad x ws dst fo kind).modHart s.cur fun _ => ((x.counted ws).sawAll (ws.map (takesFrom s x)).flatten).markBusy s.nextId dst := by
    intro pcs gate gave h1 h2 h3
    subst h1 h2 h3
    show ((s.withLoad x ws dst fo kind).modHart s.cur _).modHart s.cur _ = _
    have hx' : (s.withLoad x ws dst fo kind).hart? s.cur = some x := hx
    rw [State.modHart_modHart]
    exact State.modHart_const hx' _
  unfold State.loadIssue State.fresh
  simp only [counts_mod]
  refine key _ _ _ ?_ ?_ ?_
  · rw [List.map_map]
    refine List.map_congr_left fun w _ => ?_
    simp only [Function.comp, setsOut]
    cases w.act.reads <;> rfl
  · refine (gate_flat _ _).trans ?_
    rw [List.nil_append, List.map_map]
    congr 1
    refine List.map_congr_left fun w _ => ?_
    simp only [Function.comp, waitsFor]
    cases w.act.reads <;> rfl
  · rw [List.map_map]
    congr 1
    refine List.map_congr_left fun w _ => ?_
    simp only [Function.comp, takesFrom]
    cases w.act.reads <;> rfl

/-- An instruction that leaves its hart changed in another state. -/
theorem settle_in {s t : State} {x : Hart} {n : Names} (r : Ready s x n) (hint : n.hint = false) (i) (g : Hart → Hart) {body : Nat → Hart → State → Res}
    (he : exec i s = .next (runHart i n body s)) (hb : body s.cur x s = .ok (t.modHart s.cur g)) : RetiresIn i s t x g := by
  unfold RetiresIn
  rw [he, runHart_ready r, hb, settle_ok r, State.modHart_modHart, hint]

/-- An instruction that leaves another state. -/
theorem settle_at {s t : State} {x : Hart} {n : Names} (r : Ready s x n) (hint : n.hint = false) (i) {body : Nat → Hart → State → Res}
    (he : exec i s = .next (runHart i n body s)) (hb : body s.cur x s = .ok t) : RetiresAt i s t x := by
  unfold RetiresAt RetiresIn
  rw [he, runHart_ready r, hb, settle_ok r, hint]

/-- A fence whose condition holds. -/
theorem fence_ok {s : State} {x : Hart} {n} {i : Instr} {sc : Scope} {body : Nat → Hart → State → Res} (r : Ready s x n) (hint : n.hint = false) (hg : s.fenceGate s.cur x sc = none) 
   (he : exec i s = .next (runHart i n body s)) (hb : body s.cur x s = fenceRes sc .ok s.cur x s) : Retires i s x x := by
  unfold Retires
  rw [he, runHart_ready r, hb, fenceRes, hg, settle_ok r, hint, State.modHart_const r.hart]

/-- An instruction with no effect of its own. -/
theorem ok_ok {s : State} {x : Hart} {n} {i : Instr} {body : Nat → Hart → State → Res} (r : Ready s x n) (hint : n.hint = false)
   (he : exec i s = .next (runHart i n body s)) (hb : body s.cur x s = .ok s) : Retires i s x x := by
  unfold Retires
  rw [he, runHart_ready r, hb, settle_ok r, hint, State.modHart_const r.hart]

/-- The layout of a handle (R217). -/
theorem handle_eq (seq : BitVec 32) (fo : FormOp) : handleWord (fo.form == 3) fo.op seq = (0xFD#8 ++ (if fo.form = 3 then 1#1 else 0#1) ++ BitVec.ofNat 7 fo.op ++ 0#16 ++ seq : Word) := by
  unfold handleWord
  have app : ∀ {n m : Nat} (a : BitVec n) (b : BitVec m), (a ++ b).toNat = 2 ^ m * a.toNat + b.toNat := by
    intro n m a b
    rw [BitVec.toNat_append, ← Nat.shiftLeft_add_eq_or_of_lt b.isLt, Nat.shiftLeft_eq, Nat.mul_comm]
  apply BitVec.eq_of_toNat_eq
  have hs := seq.isLt
  simp only [app, BitVec.toNat_ofNat]
  have hb : (if fo.form = 3 then 1#1 else 0#1).toNat = b2n (fo.form == 3) := by by_cases h : fo.form = 3 <;> simp [h, b2n]
  rw [hb]
  have h2 : b2n (fo.form == 3) ≤ 1 := by unfold b2n; split <;> omega
  omega

/-- Issuing an operation (R217): the operation under way, and its hart. -/
theorem withOp_eq (s : State) (x : Hart) (rd fo p) (va : Option Word) (hx : s.hart? s.cur = some x) (z : State) (hz : z = match va with | some a => s.countHome s.cur a | none => s) :
   (z.opIssue s.cur x rd fo p).2 = (s.withOp x fo p).modHart s.cur fun _ => (x.countedTo va).issued rd fo s.nextId := by
  have key : ∀ f : Hart → Hart, ((s.withOp x fo p).modHart s.cur f).modHart s.cur (fun y =>
    let y1 : Hart := { y with seq := y.seq + 1#32 }
    if rd = 0#5 then y1
    else
      let y2 := y1.wx rd (handleWord (fo.form == 3) fo.op y1.seq)
      { y2 with regs := tset y2.regs rd.toNat (.pending s.nextId) }) = (s.withOp x fo p).modHart s.cur fun _ => (f x).issued rd fo s.nextId := by
    intro f
    have hx' : (s.withOp x fo p).hart? s.cur = some x := hx
    rw [State.modHart_modHart, State.modHart_const hx']
    congr 1
    funext _
    unfold Hart.issued
    simp only [Hart.wx, handle_eq]
    split <;> rfl
  cases va with
  | some a =>
    simp only at hz
    subst hz
    exact key fun x => { x with mig := x.mig.count1 x.cluster (vaHome a) }
  | none => 
    simp only at hz
    subst hz
    have hid : ∀ (t : State) h, t.modHart h (fun x => x) = t := by
      intro t h
      unfold State.modHart
      have : ∀ (t : Table Hart), tmod t h (fun x => x) = t := by
        intro t
        induction t with
        | nil => rfl
        | cons p r ih => simp only [tmod]; split <;> simp [ih]
      rw [this]
    have := key fun x => x
    rw [hid] at this
    exact this

/-- An asynchronous instruction that its rules let go. -/
theorem async_ok {s : State} {x : Hart} {n : Names} {i : Instr} {rd lim p} {body : Nat → Hart → State → Res} (r : Ready s x n) (hint : n.hint = false)
    (he : exec i s = .next (runHart i n body s)) (ha : s.acquiring s.cur = false) (hl : lim = true → s.outstanding s.cur < 8)
    (hb : body s.cur x s = asyncRes s s.cur x rd (formOf i) lim p) :
   RetiresIn i s (s.withOp x (formOf i) p) x fun _ => x.issued rd (formOf i) s.nextId := by
  refine settle_in r hint i _ he ?_
  rw [hb, asyncRes, ha, if_neg (by cases lim <;> simp_all)]
  exact congrArg Res.ok (withOp_eq s x rd _ p none r.hart s rfl)

/-- An asynchronous request to a home that its rules let go, which R44 counts. -/
theorem counted_ok {s : State} {x : Hart} {n : Names} {i : Instr} {rd p a} {body : Nat → Hart → State → Res} (r : Ready s x n) (hint : n.hint = false)
    (he : exec i s = .next (runHart i n body s)) (ha : s.acquiring s.cur = false) (hl : s.outstanding s.cur < 8)
    (hb : body s.cur x s = asyncCounted s s.cur x a rd (formOf i) p) :
   RetiresIn i s (s.withOp x (formOf i) p) x fun _ => (x.countedTo (some a)).issued rd (formOf i) s.nextId := by
  refine settle_in r hint i _ he ?_
  have e : asyncRes s s.cur x rd (formOf i) true p = .ok (s.opIssue s.cur x rd (formOf i) p).2 := by
    rw [asyncRes, ha, if_neg (by simp; omega)]
  rw [hb, asyncCounted, e]
  simp only
  have w := withOp_eq s x rd (formOf i) p none r.hart s rfl
  rw [w]
  unfold State.countHome
  rw [State.modHart_modHart]
  congr 1

/-- A bank operation whose address passes. -/
theorem bank_pass {s : State} {x : Hart} {i sc rd rs1 n how kind} {h : bankTrap (x.rx rs1) n = none} : bankRes i sc rd rs1 n how kind s.cur x s = asyncCounted s s.cur x (x.rx rs1) rd (formOf i) ⟨kind x, how, sc, [lineOf (x.rx rs1)], true⟩ := by
  unfold bankTrap at h
  unfold bankRes bankAddr isMC
  split at h
  · simp at h
  · rename_i h1
    split at h
    · simp at h
    · rename_i h2
      simp only
      rw [if_neg h1, if_neg (by simp; omega)]

/-- The checks of a bank address. -/
theorem bankAddr_eq (a : Word) (n : Nat) (s : State) : bankAddr a n s = (bankTrap a n).map fun t => .trap t.1 t.2 0 s := by
  unfold bankTrap bankAddr isMC
  split
  · rfl
  · by_cases h2 : vaHome a < 0x180 ∨ 0x240 ≤ vaHome a
    · rw [if_pos h2, if_pos (by simp; omega)]; rfl
    · rw [if_neg h2, if_neg (by simp; omega)]; rfl

/-- The checks of a barrier object. -/
theorem barrier_eq (s : State) (x : Hart) (a : Word) : s.barrierName x a = (barrierTrap s x a).map fun t => .trap t.1 t.2 0 s := by
  unfold barrierTrap State.barrierName
  simp only
  split
  · rfl
  · rename_i h0
    split
    · rename_i h1
      split
      · simp only [overUse, Option.map_some]
        rw [Nat.mod_eq_of_lt (show a.toNat < 2 ^ 32 by omega)]
      · rfl
    · exact bankAddr_eq a 64 s

/-- No trap. -/
theorem trap_none {α} {o : Option (Nat × Word)} {f : Nat × Word → α} (h : o = none) : o.map f = none := by rw [h]; rfl

/-- A bank operation whose address traps. -/
theorem bank_trap {s : State} {x : Hart} {i sc rd rs1 n how kind c t} (h : bankTrap (x.rx rs1) n = some (c, t)) : bankRes i sc rd rs1 n how kind s.cur x s = .trap c t 0 s := by
  unfold bankRes
  simp only [bankAddr_eq, h]
  rfl

/-- An arrival whose object passes. -/
theorem arrive_pass {s : State} {x : Hart} {i sc rd rs1 early opc lanes fmt} (h : barrierTrap s x (x.rx rs1) = none) : arriveRes i sc rd rs1 early opc lanes fmt s.cur x s = asyncRes s s.cur x rd (formOf i) true ⟨.arrive (x.rx rs1) early opc (lanes x) (fmt x), .zero, sc, [], true⟩ := by
  unfold arriveRes
  simp only [barrier_eq, trap_none h]

/-- An arrival whose object traps. -/
theorem arrive_trap {s : State} {x : Hart} {i sc rd rs1 early opc lanes fmt c t} (h : barrierTrap s x (x.rx rs1) = some (c, t)) : arriveRes i sc rd rs1 early opc lanes fmt s.cur x s = .trap c t 0 s := by
  unfold arriveRes
  simp only [barrier_eq, h]
  rfl

/-- The lanes of a vector reduction. -/
theorem vlanes (x : Hart) (r : RegIdx) : x.vredLanes r = (List.range 16).map fun k => if k < x.vcnt.lanes then some (x.lane r k) else none := by
  unfold Hart.vredLanes Hart.act
  simp

/-- A vector reduction whose address passes. -/
theorem vred_pass {s : State} {x : Hart} {i sc rd rs1 vs2 fn} (h : bankTrap (x.rx rs1) 64 = none) : bankVred i fn sc rd rs1 vs2 s.cur x s = asyncCounted s s.cur x (x.rx rs1) rd (formOf i) (vredForm x sc rd rs1 vs2 fn).issue := by
  unfold bankVred
  rw [bank_pass (h := h), vlanes]
  rfl

end Sys2Proof.Machine
end

