-- ==== Sys2Proof/Laws/Keep/Ports.lean ====
section
/-! SUPPORT. Every operation of memory, ports, accesses and reports keeps the invariant of Safety.lean. -/

namespace Sys2Proof.Machine

open Sys2Proof

/-! ### Machine/Access.lean -/

theorem State.setHart_inv : ∀ (s : State) (h : ℕ) (x : Hart), s.Inv → (State.setHart s h x).Inv := by
  intro s h x h_s
  unfold State.setHart
  refine inv_mk ?_
  refine inv_mem ?_
  assumption

theorem State.modHart_inv : ∀ (s : State) (h : ℕ) (f : Hart → Hart), s.Inv → (State.modHart s h f).Inv := by
  intro s h f h_s
  unfold State.modHart
  refine inv_mk ?_
  refine inv_mem ?_
  assumption

theorem State.modGroup_inv : ∀ (s : State) (g : ℕ) (f : Group → Group), s.Inv → (State.modGroup s g f).Inv := by
  intro s g f h_s
  unfold State.modGroup
  refine inv_mk ?_
  refine inv_mem ?_
  assumption

theorem State.modBlock_inv : ∀ (s : State) (b : ℕ) (f : Block → Block), s.Inv → (State.modBlock s b f).Inv := by
  intro s b f h_s
  unfold State.modBlock
  refine inv_mk ?_
  refine inv_mem ?_
  assumption

theorem State.modGrid_inv : ∀ (s : State) (g : ℕ) (f : Grid → Grid), s.Inv → (State.modGrid s g f).Inv := by
  intro s g f h_s
  unfold State.modGrid
  refine inv_mk ?_
  refine inv_mem ?_
  assumption

theorem State.modCore_inv : ∀ (s : State) (c : ℕ) (f : Core → Core), s.Inv → (State.modCore s c f).Inv := by
  intro s c f h_s
  unfold State.modCore
  refine inv_mk ?_
  refine inv_mem ?_
  assumption

theorem State.modWindow_inv : ∀ (s : State) (w : ℕ) (f : Window → Window), s.Inv → (State.modWindow s w f).Inv := by
  intro s w f h_s
  unfold State.modWindow
  refine inv_mk ?_
  refine inv_mem ?_
  assumption

theorem State.modPlinth_inv : ∀ (s : State) (p : ℕ) (f : Plinth → Plinth), s.Inv → (State.modPlinth s p f).Inv := by
  intro s p f h_s
  unfold State.modPlinth
  refine inv_mk ?_
  refine inv_mem ?_
  assumption

theorem State.modHome_inv : ∀ (s : State) (h : ℕ) (f : HomeSt → HomeSt), s.Inv → (State.modHome s h f).Inv := by
  intro s h f h_s
  unfold State.modHome
  refine inv_mk ?_
  refine inv_mem ?_
  assumption

theorem State.modMc_inv : ∀ (s : State) (m : ℕ) (f : Mc → Mc), s.Inv → (State.modMc s m f).Inv := by
  intro s m f h_s
  unfold State.modMc
  refine inv_mk ?_
  refine inv_mem ?_
  assumption

theorem State.modCluster_inv : ∀ (s : State) (k : ℕ) (f : Cluster → Cluster), s.Inv → (State.modCluster s k f).Inv := by
  intro s k f h_s
  unfold State.modCluster
  refine inv_mk ?_
  refine inv_mem ?_
  assumption

theorem State.modSite_inv : ∀ (s : State) (i : ℕ) (f : Site → Site), s.Inv → (State.modSite s i f).Inv := by
  intro s i f h_s
  unfold State.modSite
  refine inv_mk ?_
  refine inv_mem ?_
  assumption

theorem State.modSlot_inv : ∀ (s : State) (i : ℕ) (f : Slot → Slot), s.Inv → (State.modSlot s i f).Inv := by
  intro s i f h_s
  unfold State.modSlot
  refine inv_mk ?_
  refine inv_mem ?_
  assumption

theorem State.modEth_inv : ∀ (s : State) (p : ℕ) (f : Eth → Eth), s.Inv → (State.modEth s p f).Inv := by
  intro s p f h_s
  unfold State.modEth
  refine inv_mk ?_
  refine inv_mem ?_
  assumption

theorem State.modQueue_inv : ∀ (s : State) (q : ℕ) (f : QueueSt → QueueSt), s.Inv → (State.modQueue s q f).Inv := by
  intro s q f h_s
  unfold State.modQueue
  refine inv_mk ?_
  refine inv_mem ?_
  assumption

theorem State.modOp_inv : ∀ (s : State) (o : ℕ) (f : Op → Op), s.Inv → (State.modOp s o f).Inv := by
  intro s o f h_s
  unfold State.modOp
  refine inv_mk ?_
  refine inv_mem ?_
  assumption

theorem State.modMod_inv : ∀ (s : State) (f : Module → Module), s.Inv → (State.modMod s f).Inv := by
  intro s f h_s
  unfold State.modMod
  refine inv_mk ?_
  refine inv_mem ?_
  assumption

theorem State.fresh_inv : ∀ (s : State), s.Inv → SndInv (State.fresh s) := by
  intro s h_s
  unfold State.fresh
  refine sndInv_mk ?_
  refine inv_mk ?_
  refine inv_mem ?_
  assumption

theorem State.free_inv : ∀ (s : State), s.Inv → SndInv (State.free s) := by
  intro s h_s
  unfold State.free
  refine sndInv_mk ?_
  refine inv_mk ?_
  refine inv_mem ?_
  assumption

theorem State.skipFree_inv : ∀ (s : State) (n : ℕ), s.Inv → (State.skipFree s n).Inv := by
  intro s n h_s
  unfold State.skipFree
  refine inv_mk ?_
  refine inv_mem ?_
  assumption

theorem State.setTag_inv : ∀ (s : State) (key : ℕ) (t : BitVec 16), s.Inv → (State.setTag s key t).Inv := by
  intro s key t h_s
  unfold State.setTag
  refine inv_mk ?_
  refine inv_mem ?_
  assumption

theorem State.setTags_inv : ∀ (s : State) (key : ℕ) (n : ℕ) (t : BitVec 16), s.Inv → (State.setTags s key n t).Inv := by
  intro s key n t h_s
  unfold State.setTags
  refine foldl_inv ?_ (fun t1 x2 ht1 => ?_)
  · assumption
  · refine State.setTag_inv _ _ _ ?_
    assumption

theorem State.fillTags_inv : ∀ (s : State) (key : ℕ) (n : ℕ) (t : BitVec 16), s.Inv → (State.fillTags s key n t).Inv := by
  intro s key n t h_s
  unfold State.fillTags
  extract_lets v1
  have hv1 : State.Inv v1 := by
    unfold v1
    refine inv_mk ?_
    refine inv_mem ?_
    assumption
  clear_value v1
  refine ite_inv (fun _ => ?_) (fun _ => ?_)
  · assumption
  · refine State.setTags_inv _ _ _ _ ?_
    assumption

theorem State.addPoison_inv : ∀ (s : State) (key : ℕ), s.Inv → (State.addPoison s key).Inv := by
  intro s key h_s
  unfold State.addPoison
  refine ite_inv (fun _ => ?_) (fun _ => ?_)
  · assumption
  · refine inv_mk ?_
    refine inv_mem ?_
    assumption

theorem State.unpoison_inv : ∀ (s : State) (key : ℕ) (bytes : List (Option Byte)), s.Inv → (State.unpoison s key bytes).Inv := by
  intro s key bytes h_s
  unfold State.unpoison
  refine ite_inv (fun _ => ?_) (fun _ => ?_)
  · assumption
  · extract_lets v1
    clear_value v1
    refine inv_mk ?_
    refine inv_mem ?_
    assumption

theorem State.clearResv_inv : ∀ (s : State) (key : ℕ) (n : ℕ), s.Inv → (State.clearResv s key n).Inv := by
  intro s key n h_s
  unfold State.clearResv
  refine inv_mk ?_
  refine inv_mem ?_
  assumption

theorem State.noticeWatch_inv : ∀ (s : State) (key : ℕ) (n : ℕ), s.Inv → (State.noticeWatch s key n).Inv := by
  intro s key n h_s
  unfold State.noticeWatch
  refine inv_mk ?_
  refine inv_mem ?_
  assumption

theorem State.putMem_inv : ∀ (s : State) (key : ℕ) (bytes : List (Option Byte)) (h_s : s.Inv), (State.putMem s key bytes).Inv := by
  intro s key bytes h
  unfold State.putMem
  exact State.noticeWatch_inv _ _ _ (State.clearResv_inv _ _ _ (State.unpoison_inv _ _ _ (inv_mk (memWrite_wf bytes s.mem key h))))

theorem State.putNat_inv : ∀ (s : State) (key : ℕ) (n : ℕ) (v : ℕ), s.Inv → (State.putNat s key n v).Inv := by
  intro s key n v h_s
  unfold State.putNat
  refine State.putMem_inv _ _ _ ?_
  assumption

/-! ### Machine/Home.lean -/

theorem State.tlbFill_inv : ∀ (s : State) (home : ℕ) (asid : BitVec 16) (off : ℕ) (e : Word) (log : ℕ), s.Inv → (State.tlbFill s home asid off e log).Inv := by
  intro s home asid off e log h_s
  unfold State.tlbFill
  split
  · rename_i m1 m2 m3
    assumption
  · rename_i m4 m5
    refine State.modHome_inv _ _ _ ?_
    assumption

theorem State.tlbTake_inv : ∀ (s : State) (a1 : Option (PageRef × Word × ℕ)), s.Inv → (State.tlbTake s a1).Inv := by
  intro s a1 h_s
  unfold State.tlbTake
  split
  · rename_i m1 m2 m3 m4
    refine State.tlbFill_inv _ _ _ _ _ _ ?_
    assumption
  · rename_i m5
    assumption

theorem State.htlbInv_inv : ∀ (s : State) (home : ℕ) (w : Word), s.Inv → (State.htlbInv s home w).Inv := by
  intro s home w h_s
  unfold State.htlbInv
  extract_lets v1 v2 v3 v4
  clear_value v1
  clear_value v2
  clear_value v3
  clear_value v4
  refine State.modHome_inv _ _ _ ?_
  assumption

/-! ### Machine/Miss.lean -/

theorem State.portMem_inv : ∀ (s : State) (key : ℕ) (noTag : Option (BitVec 16)) (act : Piece) (hart : Option ℕ), s.Inv → SndInv (State.portMem s key noTag act hart) := by
  intro s key noTag act hart h_s
  unfold State.portMem
  split
  · rename_i m1 m2
    refine sndInv_mk ?_
    assumption
  · rename_i m3 m4
    refine sndInv_mk ?_
    assumption
  · rename_i m5 m6 m7
    extract_lets v8
    have hv8 : State.Inv v8 := by
      unfold v8
      refine State.putMem_inv _ _ _ ?_
      assumption
    clear_value v8
    refine sndInv_mk ?_
    split
    · rename_i m9 m10
      refine ite_inv (fun _ => ?_) (fun _ => ?_)
      · assumption
      · refine State.setTags_inv _ _ _ _ ?_
        assumption
    · rename_i m11
      assumption
  · rename_i m12 m13 m14 m15
    extract_lets v8 v16 v17
    clear_value v8
    clear_value v16
    clear_value v17
    refine ite_sndInv (fun _ => ?_) (fun _ => ?_)
    · refine sndInv_mk ?_
      assumption
    · refine sndInv_mk ?_
      refine State.putNat_inv _ _ _ _ ?_
      assumption
  · rename_i m18 m19
    extract_lets v8 v16
    clear_value v8
    clear_value v16
    refine sndInv_mk ?_
    split
    · rename_i m9 m10
      refine State.modHart_inv _ _ _ ?_
      assumption
    · rename_i m11
      assumption
  · rename_i m20 m21 m22
    extract_lets v8 v16
    clear_value v8
    have hv16 : State.Inv v16 := by
      unfold v16
      refine ite_inv (fun _ => ?_) (fun _ => ?_)
      · refine State.putNat_inv _ _ _ _ ?_
        assumption
      · assumption
    clear_value v16
    refine sndInv_mk ?_
    split
    · rename_i m9 m10
      refine State.modHart_inv _ _ _ ?_
      assumption
    · rename_i m11
      assumption
  · rename_i m23 m24
    extract_lets v8
    clear_value v8
    refine sndInv_mk ?_
    assumption
  · rename_i m25 m26 m27 m28 m29 m30
    extract_lets v8 v16
    clear_value v8
    clear_value v16
    refine sndInv_mk ?_
    refine State.putNat_inv _ _ _ _ ?_
    assumption
  · rename_i m31 m32 m33
    refine sndInv_mk ?_
    refine State.unpoison_inv _ _ _ ?_
    extract_lets v34
    have hv34 : State.Inv v34 := by
      unfold v34
      refine State.putMem_inv _ _ _ ?_
      assumption
    clear_value v34
    refine inv_mk ?_
    refine inv_mem ?_
    assumption

theorem State.judge_inv : ∀ (s : State) (agent : ℕ) (cl : ℕ) (n : ℕ), s.Inv → SndInv (State.judge s agent cl n) := by
  intro s agent cl n h_s
  unfold State.judge
  split
  · rename_i m1 m2 m3
    refine ite_sndInv (fun _ => ?_) (fun _ => ?_)
    · refine sndInv_mk ?_
      refine inv_mk ?_
      refine inv_mem ?_
      assumption
    · refine sndInv_mk ?_
      assumption
  · rename_i m4 m5
    refine sndInv_mk ?_
    assumption

theorem State.spend_inv : ∀ (s : State) (iface : ℕ) (c : Ctx) (n : ℕ) (fill : Option (PageRef × Word × ℕ)), s.Inv → (State.spend s iface c n fill).Inv := by
  intro s iface c n fill h_s
  unfold State.spend
  extract_lets v1
  have hv1 : State.Inv v1 := by
    unfold v1
    refine snd_inv ?_
    refine State.judge_inv _ _ _ _ ?_
    assumption
  clear_value v1
  split
  · rename_i m2 m3 m4 m5
    refine ite_inv (fun _ => ?_) (fun _ => ?_)
    · assumption
    · refine snd_inv ?_
      refine State.judge_inv _ _ _ _ ?_
      assumption
  · rename_i m6
    assumption

theorem State.holdMiss_inv : ∀ (s : State) (pg : PageRef) (r : Req) (act : Piece) (who : Who) (relaxed : Bool) (trace : optParam (Option Traced) Option.none), s.Inv → (State.holdMiss s pg r act who relaxed trace).Inv := by
  intro s pg r act who relaxed trace h_s
  unfold State.holdMiss
  extract_lets v1 v2 v3
  rename_i v4
  clear_value v1
  have hv2 : State.Inv v2 := by
    unfold v2
    refine State.modHome_inv _ _ _ ?_
    assumption
  clear_value v2
  clear_value v3
  clear_value v4
  split
  · rename_i m5 m6 m7 m8
    refine inv_mk ?_
    refine inv_mem ?_
    refine pair_inv ?_ m8
    refine State.fresh_inv _ ?_
    assumption

theorem State.holdBehind_inv : ∀ (s : State) (pg : PageRef) (r : Req) (act : Piece) (who : Who) (relaxed : Bool) (why : HoldWhy) (trace : optParam (Option Traced) Option.none), s.Inv → (State.holdBehind s pg r act who relaxed why trace).Inv := by
  intro s pg r act who relaxed why trace h_s
  unfold State.holdBehind
  extract_lets v1
  clear_value v1
  refine inv_mk ?_
  refine inv_mem ?_
  assumption

theorem State.logTell_inv : ∀ (s : State), s.Inv → (State.logTell s).Inv := by
  intro s h_s
  unfold State.logTell
  refine ite_inv (fun _ => ?_) (fun _ => ?_)
  · refine State.modMod_inv _ _ ?_
    assumption
  · refine State.modMod_inv _ _ ?_
    assumption

theorem State.takeRec_inv : ∀ (s : State) (bytes : List Byte), s.Inv → (State.takeRec s bytes).Inv := by
  intro s bytes h_s
  unfold State.takeRec
  refine State.logTell_inv _ ?_
  refine State.modMod_inv _ _ ?_
  assumption

theorem State.sendRec_inv : ∀ (s : State) (kind : ℕ) (home : ℕ) (detail : ℕ) (paddr : ℕ) (rep : ℕ) (count : ℕ), s.Inv → (State.sendRec s kind home detail paddr rep count).Inv := by
  intro s kind home detail paddr rep count h_s
  unfold State.sendRec
  extract_lets v1 v2
  clear_value v1
  clear_value v2
  refine State.takeRec_inv _ _ ?_
  refine State.modHome_inv _ _ _ ?_
  assumption

theorem State.noteTable_inv : ∀ (s : State) (home : ℕ) (sub : ℕ), s.Inv → (State.noteTable s home sub).Inv := by
  intro s home sub h_s
  unfold State.noteTable
  refine ite_inv (fun _ => ?_) (fun _ => ?_)
  · refine State.sendRec_inv _ _ _ _ _ _ _ ?_
    assumption
  · assumption

theorem State.holdLost_inv : ∀ (s : State) (r : Req) (act : Piece) (who : Who) (relaxed : Bool) (iface : ℕ), s.Inv → (State.holdLost s r act who relaxed iface).Inv := by
  intro s r act who relaxed iface h_s
  unfold State.holdLost
  refine State.holdBehind_inv _ _ _ _ _ _ _ _ ?_
  assumption

theorem State.unitHold_inv : ∀ (s : State) (pg : PageRef) (r : Req), s.Inv → (State.unitHold s pg r).Inv := by
  intro s pg r h_s
  unfold State.unitHold
  split
  · rename_i m1 m2 m3
    refine ite_inv (fun _ => ?_) (fun _ => ?_)
    · assumption
    · refine inv_mk ?_
      refine inv_mem ?_
      assumption
  · rename_i m4 m5
    refine State.holdMiss_inv _ _ _ _ _ _ _ ?_
    assumption

theorem State.unitMiss_inv : ∀ (s : State) (c : Ctx) (kind : AccKind) (va : Word), s.Inv → (State.unitMiss s c kind va).Inv := by
  intro s c kind va h_s
  unfold State.unitMiss
  extract_lets v1
  clear_value v1
  split
  · rename_i m2 m3 m4
    refine State.unitHold_inv _ _ _ ?_
    assumption
  · rename_i m5 m6
    split
    · rename_i m7 m8 m9
      refine ite_inv (fun _ => ?_) (fun _ => ?_)
      · assumption
      · refine inv_mk ?_
        refine inv_mem ?_
        assumption
    · rename_i m10 m11
      refine State.holdLost_inv _ _ _ _ _ _ ?_
      assumption
  · rename_i m12 m13 m14 m15
    refine State.noteTable_inv _ _ _ ?_
    assumption
  · rename_i m16 m17 m18 m19
    assumption

theorem State.sawAt_inv : ∀ (s : State) (a1 : Option (Ctx × Word)), s.Inv → (State.sawAt s a1).Inv := by
  intro s a1 h_s
  unfold State.sawAt
  split
  · rename_i m1 m2 m3
    refine State.unitMiss_inv _ _ _ _ ?_
    assumption
  · rename_i m4
    assumption

theorem State.sendFail_inv : ∀ (s : State) (home : ℕ) (act : Piece) (cause : ℕ) (sub : ℕ) (addr : Word), s.Inv → (State.sendFail s home act cause sub addr).Inv := by
  intro s home act cause sub addr h_s
  unfold State.sendFail
  split
  · rename_i m1 m2 m3 m4 m5 m6
    refine State.sendRec_inv _ _ _ _ _ _ _ ?_
    assumption
  · rename_i m7 m8
    refine State.sendRec_inv _ _ _ _ _ _ _ ?_
    assumption

theorem State.unitSpend_inv : ∀ (s : State) (c : Ctx) (kind : AccKind) (va : Word) (n : ℕ), s.Inv → (State.unitSpend s c kind va n).Inv := by
  intro s c kind va n h_s
  unfold State.unitSpend
  split
  · rename_i m1 m2 m3 m4 m5
    refine State.spend_inv _ _ _ _ _ ?_
    assumption
  · rename_i m6 m7
    assumption

theorem State.unitSend_inv : ∀ (s : State) (c : Ctx) (va : Word) (act : Piece), s.Inv → (State.unitSend s c va act).Inv := by
  intro s c va act h_s
  unfold State.unitSend
  extract_lets v1
  clear_value v1
  split
  · rename_i m2 m3 m4 m5 m6 m7
    refine snd_inv ?_
    refine State.portMem_inv _ _ _ _ _ ?_
    refine State.spend_inv _ _ _ _ _ ?_
    assumption
  · rename_i m8 m9 m10
    refine State.holdMiss_inv _ _ _ _ _ _ _ ?_
    assumption
  · rename_i m11 m12 m13 m14
    refine State.holdBehind_inv _ _ _ _ _ _ _ _ ?_
    assumption
  · rename_i m15 m16 m17 m18
    refine State.holdBehind_inv _ _ _ _ _ _ _ _ ?_
    assumption
  · rename_i m19 m20
    refine State.holdBehind_inv _ _ _ _ _ _ _ _ ?_
    assumption
  · rename_i m21 m22
    refine State.holdLost_inv _ _ _ _ _ _ ?_
    assumption
  · rename_i m23 m24 m25 m26
    split
    · rename_i m27 m28 m29 m30 m31 m32
      refine State.sendFail_inv _ _ _ _ _ _ ?_
      refine State.noteTable_inv _ _ _ ?_
      assumption
    · rename_i m33 m34
      refine State.noteTable_inv _ _ _ ?_
      assumption
  · rename_i m35 m36 m37 m38 m39 m40
    split
    · rename_i m27 m28 m29 m30 m31 m32
      refine State.sendFail_inv _ _ _ _ _ _ ?_
      assumption
    · rename_i m33 m34
      assumption

theorem State.unitWrite_inv : ∀ (s : State) (c : Ctx) (va : Word) (w : ℕ) (v : ℕ), s.Inv → (State.unitWrite s c va w v).Inv := by
  intro s c va w v h_s
  unfold State.unitWrite
  refine State.unitSend_inv _ _ _ _ ?_
  assumption

theorem State.qput_inv : ∀ (s : State) (q : ℕ) (lo : ℕ) (n : ℕ) (v : ℕ), s.Inv → (State.qput s q lo n v).Inv := by
  intro s q lo n v h_s
  unfold State.qput
  refine ite_inv (fun _ => ?_) (fun _ => ?_)
  · refine State.unitSend_inv _ _ _ _ ?_
    assumption
  · assumption

/-! ### Machine/HomeCtl.lean -/

theorem State.hostFilled_inv : ∀ (s : State) (e : Held), s.Inv → (State.hostFilled s e).Inv := by
  intro s e h_s
  unfold State.hostFilled
  split
  · rename_i m1 m2 m3 m4 m5
    refine ite_inv (fun _ => ?_) (fun _ => ?_)
    · refine State.fillTags_inv _ _ _ _ ?_
      assumption
    · assumption
  · rename_i m6 m7
    assumption

theorem State.hmissDone_inv : ∀ (s : State) (home : ℕ) (w : Word), s.Inv → (State.hmissDone s home w).Inv := by
  intro s home w h_s
  unfold State.hmissDone
  extract_lets v1 v2
  clear_value v1
  have hv2 : State.Inv v2 := by
    unfold v2
    refine foldl_inv ?_ (fun t3 x4 ht3 => ?_)
    · assumption
    · refine State.hostFilled_inv _ _ ?_
      assumption
  clear_value v2
  refine inv_mk ?_
  refine inv_mem ?_
  assumption

theorem State.qctl_inv : ∀ (s : State) (cl : ℕ) (q : ℕ) (skip : Bool), s.Inv → (State.qctl s cl q skip).Inv := by
  intro s cl q skip h_s
  unfold State.qctl
  refine ite_inv (fun _ => ?_) (fun _ => ?_)
  · extract_lets v1
    have hv1 : State.Inv v1 := by
      unfold v1
      refine State.modQueue_inv _ _ _ ?_
      assumption
    clear_value v1
    refine ite_inv (fun _ => ?_) (fun _ => ?_)
    · assumption
    · split
      · rename_i m2 m3 m4
        refine inv_mk ?_
        refine inv_mem ?_
        assumption
      · rename_i m5 m6
        refine State.modQueue_inv _ _ _ ?_
        refine State.qput_inv _ _ _ _ _ ?_
        assumption
  · assumption

theorem State.queueDescWrite_inv : ∀ (s : State) (m : ℕ) (q : ℕ) (half : ℕ) (w : Word), s.Inv → (State.queueDescWrite s m q half w).Inv := by
  intro s m q half w h_s
  unfold State.queueDescWrite
  extract_lets v1 v2 v3 v4
  rename_i v5 v6
  clear_value v1
  clear_value v2
  clear_value v3
  have hv4 : State.Inv v4 := by
    unfold v4
    refine State.modMc_inv _ _ _ ?_
    assumption
  clear_value v4
  clear_value v5
  have hv6 : State.Inv v6 := by
    unfold v6
    refine foldl_inv ?_ (fun t7 x8 ht7 => ?_)
    · assumption
    · refine State.modOp_inv _ _ _ ?_
      assumption
  clear_value v6
  refine ite_inv (fun _ => ?_) (fun _ => ?_)
  · assumption
  · refine State.modMc_inv _ _ _ ?_
    assumption

theorem State.fence_inv : ∀ (s : State) (cl : ℕ), s.Inv → (State.fence s cl).Inv := by
  intro s cl h_s
  unfold State.fence
  refine State.modCluster_inv _ _ _ ?_
  assumption

theorem State.ctxdownWrite_inv : ∀ (s : State) (cl : ℕ) (w : Word), s.Inv → (State.ctxdownWrite s cl w).Inv := by
  intro s cl w h_s
  unfold State.ctxdownWrite
  extract_lets v1
  clear_value v1
  refine State.modCluster_inv _ _ _ ?_
  assumption

theorem State.ctlWrite_inv : ∀ (s : State) (home : ℕ) (o : ℕ) (w : Word) (fw : Bool), s.Inv → (State.ctlWrite s home o w fw).Inv := by
  intro s home o w fw h_s
  unfold State.ctlWrite
  refine ite_inv (fun _ => ?_) (fun _ => ?_)
  · refine State.modHome_inv _ _ _ ?_
    assumption
  · refine ite_inv (fun _ => ?_) (fun _ => ?_)
    · refine State.htlbInv_inv _ _ _ ?_
      assumption
    · refine ite_inv (fun _ => ?_) (fun _ => ?_)
      · refine State.hmissDone_inv _ _ _ ?_
        assumption
      · refine ite_inv (fun _ => ?_) (fun _ => ?_)
        · refine ite_inv (fun _ => ?_) (fun _ => ?_)
          · refine State.modCluster_inv _ _ _ ?_
            assumption
          · refine ite_inv (fun _ => ?_) (fun _ => ?_)
            · refine ite_inv (fun _ => ?_) (fun _ => ?_)
              · refine State.fence_inv _ _ ?_
                assumption
              · assumption
            · refine ite_inv (fun _ => ?_) (fun _ => ?_)
              · refine ite_inv (fun _ => ?_) (fun _ => ?_)
                · refine State.qctl_inv _ _ _ _ ?_
                  assumption
                · assumption
              · refine ite_inv (fun _ => ?_) (fun _ => ?_)
                · refine State.ctxdownWrite_inv _ _ _ ?_
                  assumption
                · assumption
        · refine ite_inv (fun _ => ?_) (fun _ => ?_)
          · extract_lets v1
            clear_value v1
            refine State.queueDescWrite_inv _ _ _ _ _ ?_
            assumption
          · assumption

/-! ### Machine/Edge.lean -/

theorem State.qtWrite_inv : ∀ (s : State) (off : ℕ) (bytes : List Byte), s.Inv → (State.qtWrite s off bytes).Inv := by
  intro s off bytes h_s
  unfold State.qtWrite
  refine State.unitSend_inv _ _ _ _ ?_
  assumption

theorem State.logFlush_inv : ∀ (s : State), s.Inv → (State.logFlush s).Inv := by
  intro s h_s
  unfold State.logFlush
  split
  · rename_i m1 m2 m3
    extract_lets v4 v5
    clear_value v4
    have hv5 : State.Inv v5 := by
      unfold v5
      refine foldl_inv ?_ (fun t6 x7 ht6 => ?_)
      · assumption
      · refine State.qtWrite_inv _ _ _ ?_
        assumption
    clear_value v5
    refine State.modMod_inv _ _ ?_
    refine State.qtWrite_inv _ _ _ ?_
    assumption
  · rename_i m8 m9
    refine State.unitMiss_inv _ _ _ _ ?_
    assumption
  · rename_i m10 m11 m12
    refine State.modMod_inv _ _ ?_
    refine State.unitMiss_inv _ _ _ _ ?_
    assumption

theorem State.logOut_inv : ∀ (s : State), s.Inv → (State.logOut s).Inv := by
  intro s h_s
  unfold State.logOut
  refine ite_inv (fun _ => ?_) (fun _ => ?_)
  · refine State.logFlush_inv _ ?_
    assumption
  · assumption

theorem State.logBytes_inv : ∀ (s : State) (bytes : List Byte), s.Inv → (State.logBytes s bytes).Inv := by
  intro s bytes h_s
  unfold State.logBytes
  refine State.logOut_inv _ ?_
  refine State.takeRec_inv _ _ ?_
  assumption

theorem State.logRec_inv : ∀ (s : State) (kind : ℕ) (home : ℕ) (detail : ℕ) (paddr : ℕ) (rep : ℕ) (count : ℕ), s.Inv → (State.logRec s kind home detail paddr rep count).Inv := by
  intro s kind home detail paddr rep count h_s
  unfold State.logRec
  refine State.logOut_inv _ ?_
  refine State.sendRec_inv _ _ _ _ _ _ _ ?_
  assumption

theorem State.logLink_inv : ∀ (s : State) (kind : ℕ) (link : ℕ) (detail : ℕ), s.Inv → (State.logLink s kind link detail).Inv := by
  intro s kind link detail h_s
  unfold State.logLink
  extract_lets v1
  clear_value v1
  refine State.logBytes_inv _ _ ?_
  refine State.modHome_inv _ _ _ ?_
  assumption

theorem State.syncHealth_inv : ∀ (s : State) (hot : Bool), s.Inv → (State.syncHealth s hot).Inv := by
  intro s hot h_s
  unfold State.syncHealth
  extract_lets v1 v2 v3 v4 v5
  clear_value v1
  clear_value v2
  clear_value v3
  have hv4 : State.Inv v4 := by
    unfold v4
    refine State.modMod_inv _ _ ?_
    assumption
  clear_value v4
  have hv5 : State.Inv v5 := by
    unfold v5
    refine ite_inv (fun _ => ?_) (fun _ => ?_)
    · refine State.logRec_inv _ _ _ _ _ _ _ ?_
      assumption
    · assumption
  clear_value v5
  refine ite_inv (fun _ => ?_) (fun _ => ?_)
  · refine State.qtWrite_inv _ _ _ ?_
    assumption
  · assumption

theorem State.measure_inv : ∀ (s : State) (i : ℕ) (d : List Byte), s.Inv → (State.measure s i d).Inv := by
  intro s i d h_s
  unfold State.measure
  refine State.modMod_inv _ _ ?_
  assumption

theorem State.measure5_inv : ∀ (s : State) (n : ℕ), s.Inv → (State.measure5 s n).Inv := by
  intro s n h_s
  unfold State.measure5
  refine ite_inv (fun _ => ?_) (fun _ => ?_)
  · assumption
  · extract_lets v1
    clear_value v1
    refine State.modMod_inv _ _ ?_
    refine State.measure_inv _ _ _ ?_
    assumption

theorem State.post_inv : ∀ (s : State) (kind : ℕ) (src : ℕ) (body : List Byte), s.Inv → (State.post s kind src body).Inv := by
  intro s kind src body h_s
  unfold State.post
  refine State.modMod_inv _ _ ?_
  assumption

theorem State.stateVector_inv : ∀ (s : State), s.Inv → (State.stateVector s).Inv := by
  intro s h_s
  unfold State.stateVector
  refine ite_inv (fun _ => ?_) (fun _ => ?_)
  · assumption
  · extract_lets v1
    have hv1 : State.Inv v1 := by
      unfold v1
      refine State.modMod_inv _ _ ?_
      assumption
    clear_value v1
    refine inv_mk ?_
    refine inv_mem ?_
    assumption

theorem State.pgreqSubmit_inv : ∀ (s : State), s.Inv → (State.pgreqSubmit s).Inv := by
  intro s h_s
  unfold State.pgreqSubmit
  extract_lets v1 v2
  rename_i v3
  clear_value v1
  clear_value v2
  clear_value v3
  refine ite_inv (fun _ => ?_) (fun _ => ?_)
  · refine State.post_inv _ _ _ _ ?_
    assumption
  · split
    · rename_i m4 m5 m6 m7
      refine inv_mk ?_
      refine inv_mem ?_
      refine pair_inv ?_ m7
      refine State.fresh_inv _ ?_
      assumption

theorem State.hscmd_inv : ∀ (s : State) (w : Word), s.Inv → (State.hscmd s w).Inv := by
  intro s w h_s
  unfold State.hscmd
  extract_lets v1 v2 v3 v4
  rename_i v5
  clear_value v1
  clear_value v2
  clear_value v3
  clear_value v4
  have hv5 : State.Inv v5 := by
    unfold v5
    refine State.modMod_inv _ _ ?_
    assumption
  clear_value v5
  split
  · rename_i m6 m7
    assumption
  · rename_i m8 m9 m10 m11 m12
    refine ite_inv (fun _ => ?_) (fun _ => ?_)
    · refine State.modBlock_inv _ _ _ ?_
      assumption
    · refine ite_inv (fun _ => ?_) (fun _ => ?_)
      · refine State.modGroup_inv _ _ _ ?_
        assumption
      · assumption

theorem State.qtbaseWrite_inv : ∀ (s : State) (w : Word), s.Inv → (State.qtbaseWrite s w).Inv := by
  intro s w h_s
  unfold State.qtbaseWrite
  refine ite_inv (fun _ => ?_) (fun _ => ?_)
  · assumption
  · extract_lets v1
    rename_i v2 v3
    have hv1 : State.Inv v1 := by
      unfold v1
      refine State.modMod_inv _ _ ?_
      assumption
    clear_value v1
    have hv2 : State.Inv v2 := by
      unfold v2
      refine State.qtWrite_inv _ _ _ ?_
      refine State.measure5_inv _ _ ?_
      assumption
    clear_value v2
    have hv3 : State.Inv v3 := by
      unfold v3
      refine State.logFlush_inv _ ?_
      assumption
    clear_value v3
    refine ite_inv (fun _ => ?_) (fun _ => ?_)
    · refine State.qtWrite_inv _ _ _ ?_
      refine State.qtWrite_inv _ _ _ ?_
      assumption
    · assumption

theorem State.mdutyWrite_inv : ∀ (s : State) (w : Word), s.Inv → (State.mdutyWrite s w).Inv := by
  intro s w h_s
  unfold State.mdutyWrite
  refine ite_inv (fun _ => ?_) (fun _ => ?_)
  · assumption
  · extract_lets v1
    have hv1 : State.Inv v1 := by
      unfold v1
      refine State.modMod_inv _ _ ?_
      assumption
    clear_value v1
    refine ite_inv (fun _ => ?_) (fun _ => ?_)
    · refine State.measure5_inv _ _ ?_
      assumption
    · assumption

theorem State.nstdataWrite_inv : ∀ (s : State) (w : Word), s.Inv → (State.nstdataWrite s w).Inv := by
  intro s w h_s
  unfold State.nstdataWrite
  extract_lets v1 v2
  clear_value v1
  clear_value v2
  refine ite_inv (fun _ => ?_) (fun _ => ?_)
  · assumption
  · refine inv_mk ?_
    refine inv_mem ?_
    assumption

theorem State.attGo_inv : ∀ (s : State), s.Inv → (State.attGo s).Inv := by
  intro s h_s
  unfold State.attGo
  refine ite_inv (fun _ => ?_) (fun _ => ?_)
  · assumption
  · extract_lets v1 v2
    have hv1 : State.Inv v1 := by
      unfold v1
      refine State.measure5_inv _ _ ?_
      refine State.measure5_inv _ _ ?_
      refine State.measure5_inv _ _ ?_
      assumption
    clear_value v1
    clear_value v2
    refine State.modMod_inv _ _ ?_
    assumption

theorem State.rtableWrite_inv : ∀ (s : State) (c : ℕ) (w : Word), s.Inv → (State.rtableWrite s c w).Inv := by
  intro s c w h_s
  unfold State.rtableWrite
  refine State.modMod_inv _ _ ?_
  assumption

theorem State.rxretWrite_inv : ∀ (s : State) (port : ℕ) (n : ℕ), s.Inv → (State.rxretWrite s port n).Inv := by
  intro s port n h_s
  unfold State.rxretWrite
  refine State.modEth_inv _ _ _ ?_
  assumption

theorem State.edgeWrite_inv : ∀ (s : State) (e : ℕ) (o : ℕ) (w : Word), s.Inv → (State.edgeWrite s e o w).Inv := by
  intro s e o w h_s
  unfold State.edgeWrite
  extract_lets v1
  rename_i v2 v3 v4 v5
  clear_value v1
  clear_value v2
  clear_value v3
  clear_value v4
  have hv5 : State.Inv v5 := by
    unfold v5
    refine State.modMod_inv _ _ ?_
    assumption
  clear_value v5
  refine ite_inv (fun _ => ?_) (fun _ => ?_)
  · refine inv_mk ?_
    refine inv_mem ?_
    assumption
  · refine ite_inv (fun _ => ?_) (fun _ => ?_)
    · refine inv_mk ?_
      refine inv_mem ?_
      assumption
    · refine ite_inv (fun _ => ?_) (fun _ => ?_)
      · split
        · rename_i m6 m7 m8
          refine State.modMod_inv _ _ ?_
          assumption
        · rename_i m9 m10
          assumption
      · refine ite_inv (fun _ => ?_) (fun _ => ?_)
        · refine ite_inv (fun _ => ?_) (fun _ => ?_)
          · refine State.modEth_inv _ _ _ ?_
            assumption
          · refine ite_inv (fun _ => ?_) (fun _ => ?_)
            · refine State.modEth_inv _ _ _ ?_
              assumption
            · refine ite_inv (fun _ => ?_) (fun _ => ?_)
              · refine State.modEth_inv _ _ _ ?_
                assumption
              · refine ite_inv (fun _ => ?_) (fun _ => ?_)
                · refine State.rxretWrite_inv _ _ _ ?_
                  assumption
                · assumption
        · refine ite_inv (fun _ => ?_) (fun _ => ?_)
          · refine State.modMod_inv _ _ ?_
            assumption
          · refine ite_inv (fun _ => ?_) (fun _ => ?_)
            · refine ite_inv (fun _ => ?_) (fun _ => ?_)
              · refine State.attGo_inv _ ?_
                assumption
              · assumption
            · refine ite_inv (fun _ => ?_) (fun _ => ?_)
              · assumption
              · refine ite_inv (fun _ => ?_) (fun _ => ?_)
                · refine State.mdutyWrite_inv _ _ ?_
                  assumption
                · refine ite_inv (fun _ => ?_) (fun _ => ?_)
                  · refine State.qtbaseWrite_inv _ _ ?_
                    assumption
                  · refine ite_inv (fun _ => ?_) (fun _ => ?_)
                    · refine State.modMod_inv _ _ ?_
                      assumption
                    · refine ite_inv (fun _ => ?_) (fun _ => ?_)
                      · refine State.nstdataWrite_inv _ _ ?_
                        assumption
                      · refine ite_inv (fun _ => ?_) (fun _ => ?_)
                        · refine State.modMod_inv _ _ ?_
                          assumption
                        · refine ite_inv (fun _ => ?_) (fun _ => ?_)
                          · refine State.modMod_inv _ _ ?_
                            assumption
                          · refine ite_inv (fun _ => ?_) (fun _ => ?_)
                            · refine State.modMod_inv _ _ ?_
                              assumption
                            · refine ite_inv (fun _ => ?_) (fun _ => ?_)
                              · refine State.modMod_inv _ _ ?_
                                assumption
                              · refine ite_inv (fun _ => ?_) (fun _ => ?_)
                                · refine State.hscmd_inv _ _ ?_
                                  assumption
                                · refine ite_inv (fun _ => ?_) (fun _ => ?_)
                                  · refine ite_inv (fun _ => ?_) (fun _ => ?_)
                                    · refine State.pgreqSubmit_inv _ ?_
                                      assumption
                                    · assumption
                                  · refine ite_inv (fun _ => ?_) (fun _ => ?_)
                                    · refine State.rtableWrite_inv _ _ _ ?_
                                      assumption
                                    · assumption

/-! ### Machine/Port.lean -/

theorem regPiece_inv : ∀ (act : Piece) (rd : ℕ) (wr : ℕ → State) (s : State), (∀ (b0 : ℕ), (wr b0).Inv) → s.Inv → SndInv (regPiece act rd wr s) := by
  intro act rd wr s h_wr h_s
  unfold regPiece
  split
  · rename_i m1 m2
    refine sndInv_mk ?_
    assumption
  · rename_i m3 m4
    refine sndInv_mk ?_
    assumption
  · rename_i m5 m6 m7
    refine sndInv_mk ?_
    refine h_wr _
  · rename_i m8 m9 m10 m11
    refine sndInv_mk ?_
    assumption
  · rename_i m12 m13
    refine sndInv_mk ?_
    assumption
  · rename_i m14 m15 m16
    refine sndInv_mk ?_
    assumption
  · rename_i m17 m18 m19
    refine sndInv_mk ?_
    assumption
  · rename_i m20 m21
    refine sndInv_mk ?_
    assumption
  · rename_i m22 m23 m24 m25 m26 m27
    refine sndInv_mk ?_
    assumption

theorem State.portTrace_inv : ∀ (s : State) (key : ℕ) (off : ℕ) (noTag : Option (BitVec 16)) (act : Piece) (hart : Option ℕ), s.Inv → SndInv (State.portTrace s key off noTag act hart) := by
  intro s key off noTag act hart h_s
  unfold State.portTrace
  extract_lets v1 v2 v3 v4
  have hv1 : SndInv v1 := by
    unfold v1
    refine State.portMem_inv _ _ _ _ _ ?_
    assumption
  clear_value v1
  clear_value v2
  clear_value v3
  clear_value v4
  refine ite_sndInv (fun _ => ?_) (fun _ => ?_)
  · assumption
  · refine sndInv_mk ?_
    refine State.putMem_inv _ _ _ ?_
    refine snd_inv ?_
    assumption

theorem State.portDo_inv : ∀ (s : State) (p : Place) (act : Piece) (c : Ctx) (fw : Bool), s.Inv → SndInv (State.portDo s p act c fw) := by
  intro s p act c fw h_s
  unfold State.portDo
  split
  · rename_i m1 m2 m3
    refine State.portMem_inv _ _ _ _ _ ?_
    assumption
  · rename_i m4
    refine regPiece_inv _ _ _ _ ?_ ?_
    · intro y5
      assumption
    · assumption
  · rename_i m6 m7 m8 m9
    refine State.portTrace_inv _ _ _ _ _ _ ?_
    assumption
  · rename_i m10 m11
    refine regPiece_inv _ _ _ _ ?_ ?_
    · intro y5
      assumption
    · assumption
  · rename_i m12 m13 m14
    refine regPiece_inv _ _ _ _ ?_ ?_
    · intro y5
      refine State.ctlWrite_inv _ _ _ _ _ ?_
      assumption
    · assumption
  · rename_i m15 m16 m17
    refine regPiece_inv _ _ _ _ ?_ ?_
    · intro y5
      refine State.edgeWrite_inv _ _ _ _ ?_
      assumption
    · assumption
  · rename_i m18 m19 m20
    refine sndInv_mk ?_
    assumption

theorem State.traceLog_inv : ∀ (s : State) (x : Hart) (home : ℕ) (va : Word) (t : Traced), s.Inv → (State.traceLog s x home va t).Inv := by
  intro s x home va t h_s
  unfold State.traceLog
  split
  · rename_i m1 m2
    assumption
  · rename_i m3 m4 m5
    extract_lets v6 v7 v8 v9 v10 v11 v12 v13 v14 v15 v16
    clear_value v6
    clear_value v7
    clear_value v8
    clear_value v9
    clear_value v10
    clear_value v11
    have hv12 : SndInv v12 := by
      unfold v12
      refine ite_sndInv (fun _ => ?_) (fun _ => ?_)
      · refine State.free_inv _ ?_
        assumption
      · refine sndInv_mk ?_
        assumption
    clear_value v12
    clear_value v13
    have hv14 : State.Inv v14 := by
      unfold v14
      refine State.putMem_inv _ _ _ ?_
      refine snd_inv ?_
      assumption
    clear_value v14
    have hv15 : State.Inv v15 := by
      unfold v15
      refine State.putNat_inv _ _ _ _ ?_
      assumption
    clear_value v15
    have hv16 : State.Inv v16 := by
      unfold v16
      refine ite_inv (fun _ => ?_) (fun _ => ?_)
      · refine State.putNat_inv _ _ _ _ ?_
        assumption
      · assumption
    clear_value v16
    refine State.modHome_inv _ _ _ ?_
    assumption

theorem State.traceMiss_inv : ∀ (s : State) (x : Hart), s.Inv → (State.traceMiss s x).Inv := by
  intro s x h_s
  unfold State.traceMiss
  split
  · rename_i m1 m2 m3
    refine State.unitHold_inv _ _ _ ?_
    assumption
  · rename_i m4 m5
    assumption

theorem State.performAt_inv : ∀ (s : State) (p : Place) (fill : Option (PageRef × Word × ℕ)) (r : Req) (act : Piece) (trace : Option Traced) (tbit : Bool), s.Inv → SndInv (State.performAt s p fill r act trace tbit) := by
  intro s p fill r act trace tbit h_s
  unfold State.performAt
  split
  · rename_i m1 m2 m3 m4
    split
    · rename_i m5 m6 m7 m8 m9 m10
      refine sndInv_mk ?_
      refine ite_inv (fun _ => ?_) (fun _ => ?_)
      · refine State.traceLog_inv _ _ _ _ _ ?_
        refine pair_inv ?_ m4
        refine State.portDo_inv _ _ _ _ _ ?_
        refine State.tlbTake_inv _ _ ?_
        assumption
      · refine pair_inv ?_ m4
        refine State.portDo_inv _ _ _ _ _ ?_
        refine State.tlbTake_inv _ _ ?_
        assumption
    · rename_i m11 m12 m13 m14 m15 m16
      refine sndInv_mk ?_
      refine pair_inv ?_ m4
      refine State.portDo_inv _ _ _ _ _ ?_
      refine State.tlbTake_inv _ _ ?_
      assumption

theorem State.poisonAt_inv : ∀ (s : State) (r : Req) (iface : ℕ), s.Inv → (State.poisonAt s r iface).Inv := by
  intro s r iface h_s
  unfold State.poisonAt
  split
  · rename_i m1 m2 m3 m4 m5 m6
    refine foldl_inv ?_ (fun t7 x8 ht7 => ?_)
    · assumption
    · refine State.addPoison_inv _ _ ?_
      assumption
  · rename_i m9 m10
    assumption

theorem State.spillWrite_inv : ∀ (s : State) (r : Req) (act : Piece) (who : Who) (relaxed : Bool), s.Inv → OptSndInv (State.spillWrite s r act who relaxed) := by
  intro s r act who relaxed h_s
  unfold State.spillWrite
  extract_lets v1
  clear_value v1
  split
  · rename_i m2 m3 m4 m5
    refine ite_optSndInv (fun _ => ?_) (fun _ => ?_)
    · exact optSndInv_none
    · refine optMap_sndInv (fun b397 => ?_)
      refine sndInv_mk ?_
      refine State.holdBehind_inv _ _ _ _ _ _ _ _ ?_
      assumption
  · rename_i m6 m7 m8
    refine ite_optSndInv (fun _ => ?_) (fun _ => ?_)
    · exact optSndInv_none
    · refine optMap_sndInv (fun b397 => ?_)
      refine sndInv_mk ?_
      refine State.holdBehind_inv _ _ _ _ _ _ _ _ ?_
      assumption
  · rename_i m9 m10 m11
    refine ite_optSndInv (fun _ => ?_) (fun _ => ?_)
    · exact optSndInv_none
    · refine optMap_sndInv (fun b397 => ?_)
      refine sndInv_mk ?_
      refine State.holdBehind_inv _ _ _ _ _ _ _ _ ?_
      assumption
  · rename_i m12 m13 m14
    refine ite_optSndInv (fun _ => ?_) (fun _ => ?_)
    · exact optSndInv_none
    · refine optMap_sndInv (fun b397 => ?_)
      refine ite_sndInv (fun _ => ?_) (fun _ => ?_)
      · refine sndInv_mk ?_
        refine State.holdBehind_inv _ _ _ _ _ _ _ _ ?_
        assumption
      · refine sndInv_mk ?_
        refine State.modCore_inv _ _ _ ?_
        assumption
  · rename_i m15 m16 m17 m18 m19
    exact optSndInv_none

theorem State.request_inv : ∀ (s : State) (r : Req) (act : Piece) (who : Who) (relaxed : Bool) (trace : Option Traced) (iface : ℕ), s.Inv → SndInv (State.request s r act who relaxed trace iface) := by
  intro s r act who relaxed trace iface h_s
  unfold State.request
  refine ite_sndInv (fun _ => ?_) (fun _ => ?_)
  · refine sndInv_mk ?_
    assumption
  · split
    · rename_i m1 m2 m3 m4
      refine sndInv_mk ?_
      refine State.noteTable_inv _ _ _ ?_
      assumption
    · rename_i m5 m6
      refine sndInv_mk ?_
      refine State.holdLost_inv _ _ _ _ _ _ ?_
      assumption
    · rename_i m7 m8
      refine sndInv_mk ?_
      assumption
    · rename_i m9 m10 m11
      refine sndInv_mk ?_
      refine State.holdMiss_inv _ _ _ _ _ _ _ ?_
      assumption
    · rename_i m12 m13 m14 m15
      refine sndInv_mk ?_
      refine State.holdBehind_inv _ _ _ _ _ _ _ _ ?_
      assumption
    · rename_i m16 m17 m18 m19
      refine sndInv_mk ?_
      refine State.holdBehind_inv _ _ _ _ _ _ _ _ ?_
      assumption
    · rename_i m20 m21 m22 m23 m24
      split
      · rename_i m25 m26 m27
        refine sndInv_mk ?_
        refine State.holdBehind_inv _ _ _ _ _ _ _ _ ?_
        refine State.traceMiss_inv _ _ ?_
        assumption
      · rename_i m28 m29
        split
        · rename_i m30 m31 m32
          refine someSnd_inv ?_ m32
          refine State.spillWrite_inv _ _ _ _ _ ?_
          assumption
        · rename_i m33 m34
          split
          · rename_i m35 m36 m37 m38
            refine ite_sndInv (fun _ => ?_) (fun _ => ?_)
            · refine sndInv_mk ?_
              refine State.holdLost_inv _ _ _ _ _ _ ?_
              refine pair_inv ?_ m38
              refine State.performAt_inv _ _ _ _ _ _ _ ?_
              refine State.spend_inv _ _ _ _ _ ?_
              assumption
            · refine sndInv_mk ?_
              refine pair_inv ?_ m38
              refine State.performAt_inv _ _ _ _ _ _ _ ?_
              refine State.spend_inv _ _ _ _ _ ?_
              assumption

/-! ### Machine/Mem.lean -/

theorem State.countAccess_inv : ∀ (s : State) (h : ℕ) (w : Want), s.Inv → (State.countAccess s h w).Inv := by
  intro s h w h_s
  unfold State.countAccess
  refine ite_inv (fun _ => ?_) (fun _ => ?_)
  · refine State.modHart_inv _ _ _ ?_
    assumption
  · assumption

theorem State.drain_inv : ∀ (s : State) (ids : List ℕ), s.Inv → (State.drain s ids).Inv := by
  intro s ids h_s
  unfold State.drain
  refine inv_mk ?_
  refine inv_mem ?_
  assumption

theorem State.pbAccept_inv : ∀ (s : State) (h : ℕ) (x : Hart) (a : Word) (bytes : List (Option Byte)) (tag : Option (BitVec 16)) (gate : List ℕ) (rel : Bool), s.Inv → (State.pbAccept s h x a bytes tag gate rel).Inv := by
  intro s h x a bytes tag gate rel h_s
  unfold State.pbAccept
  extract_lets v1 v2 v3 v4 v5
  rename_i v6
  clear_value v1
  clear_value v2
  clear_value v3
  clear_value v4
  have hv5 : State.Inv v5 := by
    unfold v5
    split
    · rename_i m7 m8 m9
      refine inv_mk ?_
      refine inv_mem ?_
      assumption
    · rename_i m10 m11
      split
      · rename_i m12 m13 m14 m15
        refine inv_mk ?_
        refine inv_mem ?_
        refine pair_inv ?_ m15
        refine State.fresh_inv _ ?_
        assumption
  clear_value v5
  clear_value v6
  refine ite_inv (fun _ => ?_) (fun _ => ?_)
  · refine State.drain_inv _ _ ?_
    assumption
  · assumption

theorem State.fenceGate_inv : ∀ (s : State) (h : ℕ) (x : Hart) (sc : Scope), s.Inv → OptInv (State.fenceGate s h x sc) := by
  intro s h x sc h_s
  unfold State.fenceGate
  refine ite_optInv (fun _ => ?_) (fun _ => ?_)
  · exact optInv_none
  · split
    · rename_i m1 m2
      refine ite_optInv (fun _ => ?_) (fun _ => ?_)
      · refine optInv_some ?_
        assumption
      · extract_lets v3
        clear_value v3
        refine ite_optInv (fun _ => ?_) (fun _ => ?_)
        · exact optInv_none
        · refine optInv_some ?_
          refine State.modHart_inv _ _ _ ?_
          refine State.drain_inv _ _ ?_
          assumption
    · rename_i m4 m5 m6
      refine ite_optInv (fun _ => ?_) (fun _ => ?_)
      · exact optInv_none
      · refine optInv_some ?_
        assumption

theorem State.plainGate_inv : ∀ (s : State) (h : ℕ) (x : Hart), s.Inv → OptInv (State.plainGate s h x) := by
  intro s h x h_s
  unfold State.plainGate
  refine ite_optInv (fun _ => ?_) (fun _ => ?_)
  · exact optInv_none
  · extract_lets v1 v2
    clear_value v1
    clear_value v2
    refine ite_optInv (fun _ => ?_) (fun _ => ?_)
    · refine optInv_some ?_
      refine State.drain_inv _ _ ?_
      assumption
    · exact optInv_none

theorem State.keepLog_inv : ∀ (s : State) (h : ℕ) (got : List PieceAns), s.Inv → (State.keepLog s h got).Inv := by
  intro s h got h_s
  unfold State.keepLog
  refine State.modHart_inv _ _ _ ?_
  assumption

theorem State.awaitAns_inv : ∀ (s : State) (h : ℕ) (id : ℕ) (got : List PieceAns), s.Inv → (State.awaitAns s h id got).Inv := by
  intro s h id got h_s
  unfold State.awaitAns
  refine State.modHart_inv _ _ _ ?_
  assumption

theorem State.plainGo_inv : ∀ (s : State) (h : ℕ) (trace : Option Traced) (tag : Bool) (a4 : List Want) (a5 : List PieceAns), s.Inv → (State.plainGo s h trace tag a4 a5).Inv := by
  intro s h trace tag a4 a5 h_s
  unfold State.plainGo
  split
  · rename_i m1 m2
    refine Got.inv_done ?_
    refine State.keepLog_inv _ _ _ ?_
    assumption
  · rename_i m3 m4 m5 m6
    split
    · rename_i m7 m8
      refine Got.inv_done ?_
      assumption
    · rename_i m9 m10 m11
      extract_lets v12
      rename_i v13
      clear_value v12
      have hv13 : State.Inv v13 := by
        unfold v13
        refine State.countAccess_inv _ _ _ ?_
        assumption
      clear_value v13
      split
      · rename_i m14 m15
        refine State.plainGo_inv _ _ _ _ _ _ ?_
        refine State.modHart_inv _ _ _ ?_
        refine State.countAccess_inv _ _ _ ?_
        assumption
      · rename_i m16 m17
        refine Got.inv_wait ?_
        refine State.keepLog_inv _ _ _ ?_
        assumption
      · rename_i m18
        refine ite_gotInv (fun _ => ?_) (fun _ => ?_)
        · refine Got.inv_wait ?_
          refine State.keepLog_inv _ _ _ ?_
          assumption
        · split
          · rename_i m19 m20 m21 m22 m23 m24
            refine Got.inv_trap ?_
            refine State.keepLog_inv _ _ _ ?_
            refine pair_inv ?_ m24
            refine State.request_inv _ _ _ _ _ _ _ ?_
            assumption
          · rename_i m25 m26 m27 m28 m29
            refine State.plainGo_inv _ _ _ _ _ _ ?_
            refine pair_inv ?_ m29
            refine State.request_inv _ _ _ _ _ _ _ ?_
            assumption
          · rename_i m30 m31 m32
            split
            · rename_i m33 m34 m35 m36
              refine Got.inv_wait ?_
              refine State.awaitAns_inv _ _ _ _ ?_
              refine pair_inv ?_ m36
              refine State.fresh_inv _ ?_
              refine pair_inv ?_ m32
              refine State.request_inv _ _ _ _ _ _ _ ?_
              assumption
          · rename_i m37 m38 m39
            refine Got.inv_wait ?_
            refine State.keepLog_inv _ _ _ ?_
            assumption

theorem State.plain_inv : ∀ (s : State) (h : ℕ) (x : Hart) (trace : Option Traced) (tag : Bool) (ws : List Want), s.Inv → (State.plain s h x trace tag ws).Inv := by
  intro s h x trace tag ws h_s
  unfold State.plain
  refine ite_gotInv (fun _ => ?_) (fun _ => ?_)
  · refine Got.inv_wait ?_
    assumption
  · split
    · rename_i m1 m2 m3
      refine Got.inv_wait ?_
      refine some_inv ?_ m3
      refine State.plainGate_inv _ _ _ ?_
      assumption
    · rename_i m4 m5
      split
      · rename_i m6 m7 m8 m9 m10
        refine Got.inv_trap ?_
        refine State.keepLog_inv _ _ _ ?_
        assumption
      · rename_i m11 m12
        refine State.plainGo_inv _ _ _ _ _ _ ?_
        assumption

theorem State.loadIssue_inv : ∀ (s : State) (h : ℕ) (x : Hart) (ws : List Want) (dst : LoadDst) (fo : FormOp) (kind : ℕ), s.Inv → (State.loadIssue s h x ws dst fo kind).Inv := by
  intro s h x ws dst fo kind h_s
  unfold State.loadIssue
  split
  · rename_i m1 m2 m3 m4
    extract_lets v5 v6 v7 v8 v9 v10
    have hv5 : State.Inv v5 := by
      unfold v5
      refine foldl_inv ?_ (fun t11 x12 ht11 => ?_)
      · refine pair_inv ?_ m4
        refine State.fresh_inv _ ?_
        assumption
      · refine State.countAccess_inv _ _ _ ?_
        assumption
    clear_value v5
    clear_value v6
    clear_value v7
    clear_value v8
    clear_value v9
    clear_value v10
    refine State.modHart_inv _ _ _ ?_
    refine inv_mk ?_
    refine inv_mem ?_
    assumption

theorem State.storeIssue_inv : ∀ (s : State) (h : ℕ) (x : Hart) (ws : List Want) (fo : FormOp) (gate : List ℕ) (rel : Bool), s.Inv → (State.storeIssue s h x ws fo gate rel).Inv := by
  intro s h x ws fo gate rel h_s
  unfold State.storeIssue
  extract_lets v1 v2 v3
  rename_i v4
  have hv1 : State.Inv v1 := by
    unfold v1
    refine foldl_inv ?_ (fun t5 x6 ht5 => ?_)
    · assumption
    · refine State.countAccess_inv _ _ _ ?_
      assumption
  clear_value v1
  clear_value v2
  have hv3 : State.Inv v3 := by
    unfold v3
    refine foldl_inv ?_ (fun t5 x6 ht5 => ?_)
    · assumption
    · split
      · rename_i m7 m8 m9 m10
        refine State.pbAccept_inv _ _ _ _ _ _ _ _ ?_
        assumption
      · rename_i m11 m12
        assumption
  clear_value v3
  clear_value v4
  refine ite_inv (fun _ => ?_) (fun _ => ?_)
  · assumption
  · split
    · rename_i m7 m8 m9 m10
      refine inv_mk ?_
      refine inv_mem ?_
      refine pair_inv ?_ m10
      refine State.fresh_inv _ ?_
      assumption

theorem State.opIssue_inv : ∀ (s : State) (h : ℕ) (x : Hart) (rd : RegIdx) (fo : FormOp) (i : Issue), s.Inv → SndInv (State.opIssue s h x rd fo i) := by
  intro s h x rd fo i h_s
  unfold State.opIssue
  split
  · rename_i m1 m2 m3 m4
    split
    · rename_i m5 m6 m7 m8
      extract_lets v9 v10 v11
      clear_value v9
      clear_value v10
      have hv11 : State.Inv v11 := by
        unfold v11
        refine inv_mk ?_
        refine inv_mem ?_
        refine pair_inv ?_ m4
        refine State.fresh_inv _ ?_
        assumption
      clear_value v11
      refine sndInv_mk ?_
      refine State.modHart_inv _ _ _ ?_
      refine State.drain_inv _ _ ?_
      assumption

theorem State.opReady_inv : ∀ (s : State) (o : ℕ), s.Inv → SndInv (State.opReady s o) := by
  intro s o h_s
  unfold State.opReady
  split
  · rename_i m1 m2
    refine sndInv_mk ?_
    assumption
  · rename_i m3 m4 m5
    refine ite_sndInv (fun _ => ?_) (fun _ => ?_)
    · refine sndInv_mk ?_
      assumption
    · refine ite_sndInv (fun _ => ?_) (fun _ => ?_)
      · refine sndInv_mk ?_
        assumption
      · split
        · rename_i m6 m7
          refine sndInv_mk ?_
          assumption
        · rename_i m8 m9 m10
          extract_lets v11 v12
          clear_value v11
          have hv12 : State.Inv v12 := by
            unfold v12
            refine State.modOp_inv _ _ _ ?_
            refine State.drain_inv _ _ ?_
            assumption
          clear_value v12
          refine sndInv_mk ?_
          assumption

theorem State.opLost_inv : ∀ (s : State) (o : ℕ) (p : Op) (va : Word), s.Inv → (State.opLost s o p va).Inv := by
  intro s o p va h_s
  unfold State.opLost
  refine State.modOp_inv _ _ _ ?_
  refine State.holdLost_inv _ _ _ _ _ _ ?_
  assumption

theorem State.opDone_inv : ∀ (s : State) (o : ℕ) (v : Word), s.Inv → (State.opDone s o v).Inv := by
  intro s o v h_s
  unfold State.opDone
  split
  · rename_i m1 m2 m3 m4
    refine State.opLost_inv _ _ _ _ ?_
    assumption
  · rename_i m5 m6
    refine State.modOp_inv _ _ _ ?_
    assumption

theorem State.opFail_inv : ∀ (s : State) (o : ℕ) (cause : ℕ) (sub : ℕ) (count : ℕ) (addr : Word), s.Inv → (State.opFail s o cause sub count addr).Inv := by
  intro s o cause sub count addr h_s
  unfold State.opFail
  refine State.modOp_inv _ _ _ ?_
  assumption

/-! ### Machine/Report.lean -/

theorem State.putConf_inv : ∀ (s : State) (w : ℕ) (m : ℕ) (v : ℕ), s.Inv → (State.putConf s w m v).Inv := by
  intro s w m v h_s
  unfold State.putConf
  split
  · rename_i m1 m2 m3
    refine State.putNat_inv _ _ _ _ ?_
    assumption
  · rename_i m4 m5
    assumption

theorem State.setTags4_inv : ∀ (s : State) (key : ℕ) (t : BitVec 16), s.Inv → (State.setTags4 s key t).Inv := by
  intro s key t h_s
  unfold State.setTags4
  refine State.setTag_inv _ _ _ ?_
  refine State.setTag_inv _ _ _ ?_
  refine State.setTag_inv _ _ _ ?_
  refine State.setTag_inv _ _ _ ?_
  assumption

theorem State.deliver_inv : ∀ (s : State) (w : ℕ) (m : ℕ) (image : List Byte) (tag : BitVec 16), s.Inv → (State.deliver s w m image tag).Inv := by
  intro s w m image tag h_s
  unfold State.deliver
  extract_lets v1 v2
  clear_value v1
  clear_value v2
  split
  · rename_i m3 m4
    assumption
  · rename_i m5 m6 m7
    extract_lets v8
    have hv8 : State.Inv v8 := by
      unfold v8
      refine State.putConf_inv _ _ _ _ ?_
      refine State.setTags4_inv _ _ _ ?_
      refine State.putMem_inv _ _ _ ?_
      assumption
    clear_value v8
    refine ite_inv (fun _ => ?_) (fun _ => ?_)
    · refine State.modWindow_inv _ _ _ ?_
      assumption
    · assumption

theorem State.freeSlot_inv : ∀ (s : State) (w : ℕ) (slot : Word), s.Inv → (State.freeSlot s w slot).Inv := by
  intro s w slot h_s
  unfold State.freeSlot
  refine ite_inv (fun _ => ?_) (fun _ => ?_)
  · assumption
  · extract_lets v1 v2
    clear_value v1
    clear_value v2
    refine State.putConf_inv _ _ _ _ ?_
    assumption

theorem State.hostSay_inv : ∀ (s : State) (p : ℕ) (a : HostAns), s.Inv → (State.hostSay s p a).Inv := by
  intro s p a h_s
  unfold State.hostSay
  refine inv_mk ?_
  refine inv_mem ?_
  assumption

theorem State.hostRefuse_inv : ∀ (s : State) (p : ℕ) (wr : Bool), s.Inv → (State.hostRefuse s p wr).Inv := by
  intro s p wr h_s
  unfold State.hostRefuse
  extract_lets v1
  have hv1 : State.Inv v1 := by
    unfold v1
    refine State.logRec_inv _ _ _ _ _ _ _ ?_
    assumption
  clear_value v1
  refine ite_inv (fun _ => ?_) (fun _ => ?_)
  · assumption
  · refine State.hostSay_inv _ _ _ ?_
    assumption

theorem State.hostFail_inv : ∀ (s : State) (p : ℕ) (wr : Bool), s.Inv → (State.hostFail s p wr).Inv := by
  intro s p wr h_s
  unfold State.hostFail
  extract_lets v1
  have hv1 : State.Inv v1 := by
    unfold v1
    refine State.logRec_inv _ _ _ _ _ _ _ ?_
    assumption
  clear_value v1
  refine State.hostSay_inv _ _ _ ?_
  refine ite_inv (fun _ => ?_) (fun _ => ?_)
  · assumption
  · refine State.hostSay_inv _ _ _ ?_
    assumption

theorem State.reportLog_inv : ∀ (s : State) (home : ℕ) (r : FaultRec), s.Inv → (State.reportLog s home r).Inv := by
  intro s home r h_s
  unfold State.reportLog
  refine State.logRec_inv _ _ _ _ _ _ _ ?_
  assumption

theorem State.errWord_inv : ∀ (s : State) (asid : BitVec 16) (rec_ : Word) (home : ℕ) (low : ℕ) (r : FaultRec), s.Inv → (State.errWord s asid rec_ home low r).Inv := by
  intro s asid rec_ home low r h_s
  unfold State.errWord
  refine State.unitSend_inv _ _ _ _ ?_
  assumption

theorem State.reportGrid_inv : ∀ (s : State) (grid : ℕ) (block : ℕ) (home : ℕ) (r : FaultRec), s.Inv → (State.reportGrid s grid block home r).Inv := by
  intro s grid block home r h_s
  unfold State.reportGrid
  split
  · rename_i m1 m2
    refine State.reportLog_inv _ _ _ ?_
    assumption
  · rename_i m3 m4 m5
    refine ite_inv (fun _ => ?_) (fun _ => ?_)
    · refine State.errWord_inv _ _ _ _ _ _ ?_
      assumption
    · refine State.reportLog_inv _ _ _ ?_
      assumption

theorem State.report_inv : ∀ (s : State) (gi : ℕ) (r : FaultRec), s.Inv → (State.report s gi r).Inv := by
  intro s gi r h_s
  unfold State.report
  split
  · rename_i m1 m2
    refine State.reportLog_inv _ _ _ ?_
    assumption
  · rename_i m3 m4 m5
    split
    · rename_i m6 m7
      refine State.reportLog_inv _ _ _ ?_
      assumption
    · rename_i m8 m9 m10
      split
      · rename_i m11 m12
        refine State.reportLog_inv _ _ _ ?_
        assumption
      · rename_i m13 m14 m15
        refine ite_inv (fun _ => ?_) (fun _ => ?_)
        · extract_lets v16
          clear_value v16
          refine State.deliver_inv _ _ _ _ _ ?_
          assumption
        · refine State.reportGrid_inv _ _ _ _ _ ?_
          assumption

theorem State.dueAt_inv : ∀ (s : State) (h : ℕ) (cause : ℕ) (word : Word) (addr : Word), s.Inv → (State.dueAt s h cause word addr).Inv := by
  intro s h cause word addr h_s
  unfold State.dueAt
  split
  · rename_i m1 m2
    assumption
  · rename_i m3 m4 m5
    refine ite_inv (fun _ => ?_) (fun _ => ?_)
    · refine State.report_inv _ _ _ ?_
      assumption
    · refine State.modHart_inv _ _ _ ?_
      assumption

/-! ### Machine/Bar.lean -/

theorem State.softFail_inv : ∀ (s : State) (o : ℕ) (sub : ℕ), s.Inv → (State.softFail s o sub).Inv := by
  intro s o sub h_s
  unfold State.softFail
  split
  · rename_i m1 m2
    assumption
  · rename_i m3 m4 m5
    split
    · rename_i m6 m7
      assumption
    · rename_i m8 m9 m10
      refine State.report_inv _ _ _ ?_
      assumption

theorem State.finishArrival_inv : ∀ (s : State) (opc : ℕ) (value : BitVec 64) (phase : BitVec 32) (a : Arrival), s.Inv → (State.finishArrival s opc value phase a).Inv := by
  intro s opc value phase a h_s
  unfold State.finishArrival
  split
  · rename_i m1 m2 m3 m4
    extract_lets v5
    have hv5 : State.Inv v5 := by
      unfold v5
      split
      · rename_i m6 m7
        refine State.softFail_inv _ _ _ ?_
        assumption
      · rename_i m8
        assumption
    clear_value v5
    split
    · rename_i m6 m7 m9
      refine ite_inv (fun _ => ?_) (fun _ => ?_)
      · refine State.opDone_inv _ _ _ ?_
        assumption
      · assumption
    · rename_i m8 m10
      assumption

theorem State.finishWaits_inv : ∀ (s : State) (phase : BitVec 32) (a2 : List (ℕ × BitVec 32)), s.Inv → SndInv (State.finishWaits s phase a2) := by
  intro s phase a2 h_s
  unfold State.finishWaits
  split
  · rename_i m1
    refine sndInv_mk ?_
    assumption
  · rename_i m2 m3 m4 m5
    split
    · rename_i m6 m7 m8 m9
      refine ite_sndInv (fun _ => ?_) (fun _ => ?_)
      · refine sndInv_mk ?_
        refine pair_inv ?_ m9
        refine State.finishWaits_inv _ _ _ ?_
        assumption
      · refine sndInv_mk ?_
        refine State.opDone_inv _ _ _ ?_
        refine pair_inv ?_ m9
        refine State.finishWaits_inv _ _ _ ?_
        assumption

theorem State.earlyDone_inv : ∀ (s : State) (phase : BitVec 32) (a : Arrival), s.Inv → (State.earlyDone s phase a).Inv := by
  intro s phase a h_s
  unfold State.earlyDone
  split
  · rename_i m1 m2 m3
    split
    · rename_i m4 m5 m6 m7 m8 m9
      refine ite_inv (fun _ => ?_) (fun _ => ?_)
      · refine State.opDone_inv _ _ _ ?_
        assumption
      · assumption
    · rename_i m10 m11
      assumption
  · rename_i m12 m13
    assumption

theorem BarObj.complete_inv : ∀ (b : BarObj) (s : State) (order : List Arrival), s.Inv → SndInv (BarObj.complete b s order) := by
  intro b s order h_s
  unfold BarObj.complete
  extract_lets v1 v2 v3 v4
  clear_value v1
  clear_value v2
  have hv3 : State.Inv v3 := by
    unfold v3
    refine foldl_inv ?_ (fun t5 x6 ht5 => ?_)
    · assumption
    · refine State.finishArrival_inv _ _ _ _ _ ?_
      assumption
  clear_value v3
  clear_value v4
  split
  · rename_i m7 m8 m9 m10
    split
    · rename_i m11 m12 m13 m14
      extract_lets v15
      have hv15 : State.Inv v15 := by
        unfold v15
        refine foldl_inv ?_ (fun t16 x17 ht16 => ?_)
        · refine pair_inv ?_ m10
          refine State.finishWaits_inv _ _ _ ?_
          assumption
        · refine State.earlyDone_inv _ _ _ ?_
          assumption
      clear_value v15
      refine sndInv_mk ?_
      assumption

theorem State.groupBarGo_inv : ∀ (s : State) (gi : ℕ) (a2 : ℕ), s.Inv → (State.groupBarGo s gi a2).Inv := by
  intro s gi a2 h_s
  unfold State.groupBarGo
  split
  · rename_i m1
    assumption
  · rename_i m2 m3
    split
    · rename_i m4 m5
      assumption
    · rename_i m6 m7 m8
      extract_lets v9
      clear_value v9
      refine ite_inv (fun _ => ?_) (fun _ => ?_)
      · split
        · rename_i m10 m11 m12 m13
          refine State.groupBarGo_inv _ _ _ ?_
          refine State.modGroup_inv _ _ _ ?_
          refine pair_inv ?_ m13
          refine BarObj.complete_inv _ _ _ ?_
          assumption
      · assumption

theorem State.syncGroupBar_inv : ∀ (s : State) (gi : ℕ), s.Inv → (State.syncGroupBar s gi).Inv := by
  intro s gi h_s
  unfold State.syncGroupBar
  split
  · rename_i m1 m2
    assumption
  · rename_i m3 m4 m5
    refine State.groupBarGo_inv _ _ _ ?_
    assumption

theorem State.blockBarGo_inv : ∀ (s : State) (bi : ℕ) (i : ℕ) (a3 : ℕ), s.Inv → (State.blockBarGo s bi i a3).Inv := by
  intro s bi i a3 h_s
  unfold State.blockBarGo
  split
  · rename_i m1
    assumption
  · rename_i m2 m3
    split
    · rename_i m4 m5
      assumption
    · rename_i m6 m7 m8
      extract_lets v9 v10
      clear_value v9
      clear_value v10
      refine ite_inv (fun _ => ?_) (fun _ => ?_)
      · split
        · rename_i m11 m12 m13 m14
          refine State.blockBarGo_inv _ _ _ _ ?_
          refine State.modBlock_inv _ _ _ ?_
          refine pair_inv ?_ m14
          refine BarObj.complete_inv _ _ _ ?_
          assumption
      · assumption

theorem State.syncBlockBar_inv : ∀ (s : State) (bi : ℕ) (i : ℕ), s.Inv → (State.syncBlockBar s bi i).Inv := by
  intro s bi i h_s
  unfold State.syncBlockBar
  split
  · rename_i m1 m2
    assumption
  · rename_i m3 m4 m5
    refine State.blockBarGo_inv _ _ _ _ ?_
    assumption

theorem State.syncStage_inv : ∀ (s : State) (bi : ℕ) (va : ℕ), s.Inv → (State.syncStage s bi va).Inv := by
  intro s bi va h_s
  unfold State.syncStage
  split
  · rename_i m1 m2
    assumption
  · rename_i m3 m4 m5
    extract_lets v6 v7 v8
    rename_i v9 v10 v11 v12
    clear_value v6
    clear_value v7
    clear_value v8
    clear_value v9
    clear_value v10
    clear_value v11
    clear_value v12
    refine ite_inv (fun _ => ?_) (fun _ => ?_)
    · split
      · rename_i m13 m14 m15 m16
        extract_lets v17 v18
        clear_value v17
        have hv18 : State.Inv v18 := by
          unfold v18
          refine inv_mk ?_
          refine inv_mem ?_
          refine pair_inv ?_ m16
          refine State.fresh_inv _ ?_
          assumption
        clear_value v18
        refine State.modBlock_inv _ _ _ ?_
        assumption
    · assumption

theorem State.joinDone_inv : ∀ (s : State) (va : Word) (a : Arrival), s.Inv → (State.joinDone s va a).Inv := by
  intro s va a h_s
  unfold State.joinDone
  split
  · rename_i m1 m2 m3
    refine State.earlyDone_inv _ _ _ ?_
    assumption
  · rename_i m4 m5
    assumption

theorem State.reopenStage_inv : ∀ (s : State) (bi : ℕ) (va : Word), s.Inv → (State.reopenStage s bi va).Inv := by
  intro s bi va h_s
  unfold State.reopenStage
  split
  · rename_i m1 m2
    assumption
  · rename_i m3 m4 m5
    extract_lets v6
    clear_value v6
    split
    · rename_i m7 m8 m9 m10
      extract_lets v11 v12
      have hv11 : State.Inv v11 := by
        unfold v11
        refine foldl_inv ?_ (fun t13 x14 ht13 => ?_)
        · assumption
        · refine State.joinDone_inv _ _ _ ?_
          assumption
      clear_value v11
      have hv12 : State.Inv v12 := by
        unfold v12
        refine State.modBlock_inv _ _ _ ?_
        assumption
      clear_value v12
      refine State.syncStage_inv _ _ _ ?_
      assumption

theorem State.syncBars_inv : ∀ (s : State) (gi : ℕ), s.Inv → (State.syncBars s gi).Inv := by
  intro s gi h_s
  unfold State.syncBars
  split
  · rename_i m1 m2
    assumption
  · rename_i m3 m4 m5
    extract_lets v6
    have hv6 : State.Inv v6 := by
      unfold v6
      refine State.syncGroupBar_inv _ _ ?_
      assumption
    clear_value v6
    split
    · rename_i m7 m8
      assumption
    · rename_i m9 m10 m11
      extract_lets v12
      have hv12 : State.Inv v12 := by
        unfold v12
        refine foldl_inv ?_ (fun t13 x14 ht13 => ?_)
        · assumption
        · refine State.syncBlockBar_inv _ _ _ ?_
          assumption
      clear_value v12
      refine foldl_inv ?_ (fun t13 x14 ht13 => ?_)
      · assumption
      · refine State.syncStage_inv _ _ _ ?_
        assumption

theorem State.bankLine_inv : ∀ (s : State) (c : Ctx) (kind : AccKind) (va : Word) (w : ℕ) (iface : ℕ), s.Inv → SndInv (State.bankLine s c kind va w iface) := by
  intro s c kind va w iface h_s
  unfold State.bankLine
  split
  · rename_i m1 m2 m3 m4 m5 m6
    refine sndInv_mk ?_
    refine State.tlbTake_inv _ _ ?_
    assumption
  · rename_i m7 m8 m9 m10 m11 m12
    refine sndInv_mk ?_
    assumption
  · rename_i m13 m14 m15 m16
    refine sndInv_mk ?_
    refine State.noteTable_inv _ _ _ ?_
    assumption
  · rename_i m17 m18 m19
    refine sndInv_mk ?_
    assumption
  · rename_i m20 m21 m22 m23
    refine sndInv_mk ?_
    assumption
  · rename_i m24 m25 m26 m27
    refine sndInv_mk ?_
    assumption
  · rename_i m28 m29
    refine sndInv_mk ?_
    assumption
  · rename_i m30 m31
    refine sndInv_mk ?_
    assumption

theorem State.failGridArr_inv : ∀ (s : State) (ga : GridArr) (cause : ℕ) (sub : ℕ), s.Inv → (State.failGridArr s ga cause sub).Inv := by
  intro s ga cause sub h_s
  unfold State.failGridArr
  extract_lets v1
  have hv1 : State.Inv v1 := by
    unfold v1
    refine foldl_inv ?_ (fun t2 x3 ht2 => ?_)
    · assumption
    · split
      · rename_i m4 m5 m6
        refine ite_inv (fun _ => ?_) (fun _ => ?_)
        · refine State.opFail_inv _ _ _ _ _ _ ?_
          assumption
        · assumption
      · rename_i m7 m8
        assumption
  clear_value v1
  refine State.reopenStage_inv _ _ _ ?_
  refine inv_mk ?_
  refine inv_mem ?_
  assumption

theorem State.completeGrid_inv : ∀ (s : State) (k : ℕ) (va : Word) (asid : BitVec 16) (opc : ℕ) (phase : BitVec 32) (line : ℕ), s.Inv → (State.completeGrid s k va asid opc phase line).Inv := by
  intro s k va asid opc phase line h_s
  unfold State.completeGrid
  extract_lets v1 v2 v3 v4 v5 v6 v7
  clear_value v1
  clear_value v2
  clear_value v3
  clear_value v4
  have hv5 : State.Inv v5 := by
    unfold v5
    refine State.putNat_inv _ _ _ _ ?_
    assumption
  clear_value v5
  have hv6 : State.Inv v6 := by
    unfold v6
    refine foldl_inv ?_ (fun t8 x9 ht8 => ?_)
    · assumption
    · refine foldl_inv ?_ (fun t10 x11 ht10 => ?_)
      · assumption
      · refine State.finishArrival_inv _ _ _ _ _ ?_
        assumption
  clear_value v6
  clear_value v7
  split
  · rename_i m12 m13 m14 m15
    extract_lets v16
    have hv16 : State.Inv v16 := by
      unfold v16
      refine inv_mk ?_
      refine inv_mem ?_
      refine pair_inv ?_ m15
      refine State.finishWaits_inv _ _ _ ?_
      assumption
    clear_value v16
    refine foldl_inv ?_ (fun t17 x18 ht17 => ?_)
    · assumption
    · refine State.reopenStage_inv _ _ _ ?_
      assumption

theorem State.gridArrive_inv : ∀ (s : State) (ga : GridArr) (k : ℕ), s.Inv → (State.gridArrive s ga k).Inv := by
  intro s ga k h_s
  unfold State.gridArrive
  refine ite_inv (fun _ => ?_) (fun _ => ?_)
  · refine State.failGridArr_inv _ _ _ _ ?_
    assumption
  · extract_lets v1 v2 v3 v4
    rename_i v5
    clear_value v1
    clear_value v2
    clear_value v3
    clear_value v4
    clear_value v5
    split
    · rename_i m6 m7 m8 m9
      extract_lets v10
      have hv10 : State.Inv v10 := by
        unfold v10
        refine inv_mk ?_
        refine inv_mem ?_
        refine pair_inv ?_ m9
        refine State.fresh_inv _ ?_
        assumption
      clear_value v10
      refine ite_inv (fun _ => ?_) (fun _ => ?_)
      · refine State.completeGrid_inv _ _ _ _ _ _ _ ?_
        assumption
      · refine foldl_inv ?_ (fun t11 x12 ht11 => ?_)
        · refine State.putNat_inv _ _ _ _ ?_
          assumption
        · refine State.earlyDone_inv _ _ _ ?_
          assumption

theorem State.arrive_inv : ∀ (s : State) (o : ℕ) (obj : Word) (opc : ℕ) (lanes : BitVec 64) (fmt : ℕ), s.Inv → (State.arrive s o obj opc lanes fmt).Inv := by
  intro s o obj opc lanes fmt h_s
  unfold State.arrive
  split
  · rename_i m1 m2
    assumption
  · rename_i m3 m4 m5
    split
    · rename_i m6 m7
      assumption
    · rename_i m8 m9 m10
      split
      · rename_i m11 m12
        assumption
      · rename_i m13 m14 m15
        extract_lets v16 v17
        rename_i v18 v19
        clear_value v16
        have hv17 : State.Inv v17 := by
          unfold v17
          refine State.modOp_inv _ _ _ ?_
          assumption
        clear_value v17
        clear_value v18
        clear_value v19
        refine ite_inv (fun _ => ?_) (fun _ => ?_)
        · split
          · rename_i m20 m21 m22 m23
            extract_lets v24
            have hv24 : State.Inv v24 := by
              unfold v24
              refine State.modGroup_inv _ _ _ ?_
              assumption
            clear_value v24
            refine State.syncGroupBar_inv _ _ ?_
            refine ite_inv (fun _ => ?_) (fun _ => ?_)
            · refine State.earlyDone_inv _ _ _ ?_
              assumption
            · assumption
        · split
          · rename_i m20 m21
            assumption
          · rename_i m25 m26 m27
            refine ite_inv (fun _ => ?_) (fun _ => ?_)
            · split
              · rename_i m28 m29 m30 m31
                extract_lets v32
                have hv32 : State.Inv v32 := by
                  unfold v32
                  refine State.modBlock_inv _ _ _ ?_
                  assumption
                clear_value v32
                refine State.syncBlockBar_inv _ _ _ ?_
                refine ite_inv (fun _ => ?_) (fun _ => ?_)
                · refine State.earlyDone_inv _ _ _ ?_
                  assumption
                · assumption
            · extract_lets v33
              clear_value v33
              split
              · rename_i m34 m35 m36 m37
                extract_lets v38 v39
                have hv38 : State.Inv v38 := by
                  unfold v38
                  refine State.modBlock_inv _ _ _ ?_
                  assumption
                clear_value v38
                have hv39 : State.Inv v39 := by
                  unfold v39
                  refine ite_inv (fun _ => ?_) (fun _ => ?_)
                  · refine State.joinDone_inv _ _ _ ?_
                    assumption
                  · assumption
                clear_value v39
                refine State.syncStage_inv _ _ _ ?_
                assumption

theorem State.bwaitTest_inv : ∀ (s : State) (o : ℕ) (phase : BitVec 32) (token : BitVec 32), s.Inv → OptInv (State.bwaitTest s o phase token) := by
  intro s o phase token h_s
  unfold State.bwaitTest
  refine ite_optInv (fun _ => ?_) (fun _ => ?_)
  · refine optInv_some ?_
    refine State.opDone_inv _ _ _ ?_
    assumption
  · exact optInv_none

/-! ### Machine/Lease.lean -/

theorem State.iovfTrap_inv : ∀ (s : State) (before : Plinth) (after : Plinth) (h : Option (ℕ × FormOp)), s.Inv → (State.iovfTrap s before after h).Inv := by
  intro s before after h h_s
  unfold State.iovfTrap
  refine ite_inv (fun _ => ?_) (fun _ => ?_)
  · split
    · rename_i m1
      assumption
    · rename_i m2 m3 m4
      split
      · rename_i m5 m6 m7
        refine ite_inv (fun _ => ?_) (fun _ => ?_)
        · refine State.dueAt_inv _ _ _ _ _ ?_
          assumption
        · assumption
      · rename_i m8 m9
        assumption
  · assumption

theorem State.failTile_inv : ∀ (s : State) (t : Tile) (cause : ℕ) (sub : ℕ) (addr : Word), s.Inv → (State.failTile s t cause sub addr).Inv := by
  intro s t cause sub addr h_s
  unfold State.failTile
  extract_lets v1
  rename_i v2
  have hv1 : State.Inv v1 := by
    unfold v1
    refine State.modGroup_inv _ _ _ ?_
    assumption
  clear_value v1
  clear_value v2
  split
  · rename_i m3 m4 m5
    refine State.opFail_inv _ _ _ _ _ _ ?_
    assumption
  · rename_i m6 m7
    refine State.report_inv _ _ _ ?_
    assumption

theorem State.dropWithdrawn_inv : ∀ (s : State) (holder : Option ℕ) (lost : List Tile), s.Inv → (State.dropWithdrawn s holder lost).Inv := by
  intro s holder lost h_s
  unfold State.dropWithdrawn
  split
  · rename_i m1 m2
    refine State.modGroup_inv _ _ _ ?_
    assumption
  · rename_i m3
    assumption

theorem State.grant_inv : ∀ (s : State) (pi : ℕ) (gi : ℕ), s.Inv → (State.grant s pi gi).Inv := by
  intro s pi gi h_s
  unfold State.grant
  extract_lets v1 v2 v3 v4
  clear_value v1
  clear_value v2
  clear_value v3
  have hv4 : State.Inv v4 := by
    unfold v4
    refine State.modPlinth_inv _ _ _ ?_
    assumption
  clear_value v4
  refine foldl_inv ?_ (fun t5 x6 ht5 => ?_)
  · assumption
  · refine State.opDone_inv _ _ _ ?_
    assumption

theorem State.failLosers_inv : ∀ (s : State) (lose : List Tile), s.Inv → (State.failLosers s lose).Inv := by
  intro s lose h_s
  unfold State.failLosers
  refine foldl_inv ?_ (fun t1 x2 ht1 => ?_)
  · assumption
  · refine State.failTile_inv _ _ _ _ _ ?_
    assumption

theorem State.arbitrate_inv : ∀ (s : State) (pi : ℕ) (keep : Bool) (hand : Bool), s.Inv → (State.arbitrate s pi keep hand).Inv := by
  intro s pi keep hand h_s
  unfold State.arbitrate
  extract_lets v1 v2 v3 v4
  rename_i v5 v6
  clear_value v1
  clear_value v2
  clear_value v3
  clear_value v4
  clear_value v5
  clear_value v6
  split
  · rename_i m7 m8
    refine State.modPlinth_inv _ _ _ ?_
    assumption
  · rename_i m9 m10 m11
    refine ite_inv (fun _ => ?_) (fun _ => ?_)
    · refine State.modPlinth_inv _ _ _ ?_
      assumption
    · extract_lets v12 v13
      have hv12 : State.Inv v12 := by
        unfold v12
        refine State.modPlinth_inv _ _ _ ?_
        refine State.dropWithdrawn_inv _ _ _ ?_
        assumption
      clear_value v12
      have hv13 : State.Inv v13 := by
        unfold v13
        refine State.failLosers_inv _ _ ?_
        assumption
      clear_value v13
      refine ite_inv (fun _ => ?_) (fun _ => ?_)
      · assumption
      · refine State.grant_inv _ _ _ ?_
        assumption

theorem State.endLease_inv : ∀ (s : State) (pi : ℕ) (released : Bool), s.Inv → (State.endLease s pi released).Inv := by
  intro s pi released h_s
  unfold State.endLease
  extract_lets v1 v2 v3
  rename_i v4 v5
  clear_value v1
  clear_value v2
  have hv3 : State.Inv v3 := by
    unfold v3
    refine State.iovfTrap_inv _ _ _ _ ?_
    refine State.modPlinth_inv _ _ _ ?_
    assumption
  clear_value v3
  clear_value v4
  have hv5 : State.Inv v5 := by
    unfold v5
    refine State.modPlinth_inv _ _ _ ?_
    assumption
  clear_value v5
  refine ite_inv (fun _ => ?_) (fun _ => ?_)
  · refine State.arbitrate_inv _ _ _ _ ?_
    refine State.failLosers_inv _ _ ?_
    assumption
  · refine State.arbitrate_inv _ _ _ _ ?_
    assumption

theorem State.wakePlinth_inv : ∀ (s : State) (pi : ℕ), s.Inv → (State.wakePlinth s pi).Inv := by
  intro s pi h_s
  unfold State.wakePlinth
  extract_lets v1
  clear_value v1
  refine ite_inv (fun _ => ?_) (fun _ => ?_)
  · refine State.arbitrate_inv _ _ _ _ ?_
    assumption
  · assumption

theorem State.tryRelease_inv : ∀ (s : State) (pi : ℕ), s.Inv → (State.tryRelease s pi).Inv := by
  intro s pi h_s
  unfold State.tryRelease
  extract_lets v1
  clear_value v1
  split
  · rename_i m2 m3 m4
    refine ite_inv (fun _ => ?_) (fun _ => ?_)
    · refine State.endLease_inv _ _ _ ?_
      refine State.modPlinth_inv _ _ _ ?_
      assumption
    · assumption
  · rename_i m5 m6
    assumption

/-! ### Machine/Life.lean -/

theorem State.finishFor_inv : ∀ (s : State) (d : GridFor), s.Inv → (State.finishFor s d).Inv := by
  intro s d h_s
  unfold State.finishFor
  split
  · rename_i m1 m2
    refine inv_mk ?_
    refine inv_mem ?_
    assumption
  · rename_i m3 m4 m5
    refine inv_mk ?_
    refine inv_mem ?_
    assumption
  · rename_i m6 m7 m8
    assumption

theorem State.stageDone_inv : ∀ (s : State) (pipe : ℕ), s.Inv → (State.stageDone s pipe).Inv := by
  intro s pipe h_s
  unfold State.stageDone
  split
  · rename_i m1 m2
    assumption
  · rename_i m3 m4 m5
    extract_lets v6
    have hv6 : State.Inv v6 := by
      unfold v6
      refine inv_mk ?_
      refine inv_mem ?_
      assumption
    clear_value v6
    refine ite_inv (fun _ => ?_) (fun _ => ?_)
    · refine State.finishFor_inv _ _ ?_
      assumption
    · assumption

theorem State.gridDone_inv : ∀ (s : State) (gr : ℕ), s.Inv → (State.gridDone s gr).Inv := by
  intro s gr h_s
  unfold State.gridDone
  split
  · rename_i m1 m2
    assumption
  · rename_i m3 m4 m5
    split
    · rename_i m6 m7 m8
      refine State.stageDone_inv _ _ ?_
      assumption
    · rename_i m9 m10
      refine State.finishFor_inv _ _ ?_
      assumption

theorem State.blockDone_inv : ∀ (s : State) (bi : ℕ), s.Inv → (State.blockDone s bi).Inv := by
  intro s bi h_s
  unfold State.blockDone
  split
  · rename_i m1 m2
    assumption
  · rename_i m3 m4 m5
    extract_lets v6
    rename_i v7
    have hv6 : State.Inv v6 := by
      unfold v6
      refine State.modBlock_inv _ _ _ ?_
      assumption
    clear_value v6
    have hv7 : State.Inv v7 := by
      unfold v7
      refine State.modGrid_inv _ _ _ ?_
      assumption
    clear_value v7
    split
    · rename_i m8 m9
      assumption
    · rename_i m10 m11 m12
      refine ite_inv (fun _ => ?_) (fun _ => ?_)
      · refine State.gridDone_inv _ _ ?_
        assumption
      · assumption

theorem State.freeGranules_inv : ∀ (s : State) (g : Group), s.Inv → (State.freeGranules s g).Inv := by
  intro s g h_s
  unfold State.freeGranules
  refine State.modWindow_inv _ _ _ ?_
  assumption

theorem State.groupDone_inv : ∀ (s : State) (gi : ℕ), s.Inv → (State.groupDone s gi).Inv := by
  intro s gi h_s
  unfold State.groupDone
  split
  · rename_i m1 m2
    assumption
  · rename_i m3 m4 m5
    extract_lets v6 v7 v8 v9 v10 v11 v12
    clear_value v6
    clear_value v7
    have hv8 : State.Inv v8 := by
      unfold v8
      refine State.modPlinth_inv _ _ _ ?_
      assumption
    clear_value v8
    have hv9 : State.Inv v9 := by
      unfold v9
      refine State.freeGranules_inv _ _ ?_
      refine State.wakePlinth_inv _ _ ?_
      refine State.tryRelease_inv _ _ ?_
      assumption
    clear_value v9
    have hv10 : State.Inv v10 := by
      unfold v10
      refine State.modGroup_inv _ _ _ ?_
      assumption
    clear_value v10
    clear_value v11
    have hv12 : State.Inv v12 := by
      unfold v12
      refine ite_inv (fun _ => ?_) (fun _ => ?_)
      · assumption
      · refine State.modWindow_inv _ _ _ ?_
        assumption
    clear_value v12
    split
    · rename_i m13 m14
      assumption
    · rename_i m15 m16 m17
      extract_lets v18
      clear_value v18
      refine ite_inv (fun _ => ?_) (fun _ => ?_)
      · refine State.blockDone_inv _ _ ?_
        assumption
      · assumption

theorem State.endHart_inv : ∀ (s : State) (h : ℕ), s.Inv → (State.endHart s h).Inv := by
  intro s h h_s
  unfold State.endHart
  split
  · rename_i m1 m2
    assumption
  · rename_i m3 m4 m5
    extract_lets v6 v7 v8 v9
    clear_value v6
    clear_value v7
    have hv8 : State.Inv v8 := by
      unfold v8
      refine inv_mk ?_
      refine inv_mem ?_
      assumption
    clear_value v8
    have hv9 : State.Inv v9 := by
      unfold v9
      refine State.syncBars_inv _ _ ?_
      refine foldl_inv ?_ (fun t10 x11 ht10 => ?_)
      · refine State.freeSlot_inv _ _ _ ?_
        assumption
      · refine State.report_inv _ _ _ ?_
        assumption
    clear_value v9
    split
    · rename_i m12 m13
      assumption
    · rename_i m14 m15 m16
      extract_lets v17
      clear_value v17
      refine ite_inv (fun _ => ?_) (fun _ => ?_)
      · refine State.groupDone_inv _ _ ?_
        assumption
      · assumption

end Sys2Proof.Machine
end

