-- ==== Sys2Proof/Laws/Keep/Harts.lean ====
section
/-! SUPPORT. Every operation of the instructions of harts keeps the invariant of Safety.lean. -/

namespace Sys2Proof.Machine

open Sys2Proof

/-! ### Machine/Ops.lean -/

theorem State.modPair_inv : ∀ (s : State) (h : ℕ) (f : Hart → Hart), s.Inv → (State.modPair s h f).Inv := by
  intro s h f h_s
  unfold State.modPair
  refine inv_mk ?_
  refine inv_mem ?_
  assumption

theorem State.fwEnd_inv : ∀ (s : State) (h : ℕ) (cause : ℕ) (sub : ℕ) (count : ℕ) (tval : Word) (fo : FormOp), s.Inv → (State.fwEnd s h cause sub count tval fo).Inv := by
  intro s h cause sub count tval fo h_s
  unfold State.fwEnd
  split
  · rename_i m1 m2
    assumption
  · rename_i m3 m4 m5
    extract_lets v6
    clear_value v6
    refine State.endHart_inv _ _ ?_
    refine State.report_inv _ _ _ ?_
    assumption

theorem State.takeTrap_inv : ∀ (s : State) (h : ℕ) (cause : ℕ) (tval : Word) (sub : ℕ) (fo : FormOp) (sync : Bool), s.Inv → (State.takeTrap s h cause tval sub fo sync).Inv := by
  intro s h cause tval sub fo sync h_s
  unfold State.takeTrap
  split
  · rename_i m1 m2
    assumption
  · rename_i m3 m4 m5
    refine ite_inv (fun _ => ?_) (fun _ => ?_)
    · refine State.fwEnd_inv _ _ _ _ _ _ _ ?_
      assumption
    · refine State.modPair_inv _ _ _ ?_
      assumption

theorem State.hartWait_inv : ∀ (s : State) (h : ℕ) (kind : ℕ) (obj : Word), s.Inv → (State.hartWait s h kind obj).Inv := by
  intro s h kind obj h_s
  unfold State.hartWait
  refine State.modHart_inv _ _ _ ?_
  assumption

theorem State.pushLvq_inv : ∀ (s : State) (h : ℕ) (x : Hart) (n : Names), s.Inv → (State.pushLvq s h x n).Inv := by
  intro s h x n h_s
  unfold State.pushLvq
  refine ite_inv (fun _ => ?_) (fun _ => ?_)
  · assumption
  · refine State.modHart_inv _ _ _ ?_
    assumption

theorem State.placeRequest_inv : ∀ (s : State) (h : ℕ) (x : Hart) (req : List Word), s.Inv → (State.placeRequest s h x req).Inv := by
  intro s h x req h_s
  unfold State.placeRequest
  refine ite_inv (fun _ => ?_) (fun _ => ?_)
  · assumption
  · refine State.modHart_inv _ _ _ ?_
    assumption

theorem State.settle_inv : ∀ (s0 : State) (h : ℕ) (x : Hart) (n : Names) (len : ℕ) (fo : FormOp) (r : Res) (h_s0 : s0.Inv) (h_r : r.Inv),
    (State.settle s0 h x n len fo r).Inv := by
  intro s0 h x n len fo r hs hr
  cases r with
  | ok s => exact State.pushLvq_inv _ _ _ _ (State.modHart_inv _ _ _ hr)
  | jump pc s => exact State.pushLvq_inv _ _ _ _ (State.modHart_inv _ _ _ hr)
  | okThen post s => exact hr.2 _ (State.pushLvq_inv _ _ _ _ (State.modHart_inv _ _ _ hr.1))
  | trap cause tval sub s =>
    exact ite_inv (fun _ => State.takeTrap_inv _ _ _ _ _ _ _ hr) (fun _ => State.hartWait_inv _ _ _ _ hs)
  | wait kind obj s => exact State.hartWait_inv _ _ _ _ hr

theorem State.trailRun_inv : ∀ (s : State) (h : ℕ) (x : Hart) (i : Instr) (n : Names) (len : ℕ) (body : State → Res)
    (h_s : s.Inv) (h_body : ∀ (t : State), t.Inv → (body t).Inv), (State.trailRun s h x i n len body).Inv := by
  intro s h x i n len body hs hb
  unfold State.trailRun
  split
  · have hr := hb s hs
    split <;> rename_i e <;> rw [e] at hr
    · exact State.modHart_inv _ _ _ hr
    · exact State.modHart_inv _ _ _ hr
    · exact State.modHart_inv _ _ _ hr.1
    · exact State.hartWait_inv _ _ _ _ hs
    · exact State.hartWait_inv _ _ _ _ hs
  · split
    · exact hs
    · split
      · exact State.modHart_inv _ _ _ (State.modHart_inv _ _ _ hs)
      · exact State.hartWait_inv _ _ _ _ (ite_inv (fun _ => State.placeRequest_inv _ _ _ _ hs) (fun _ => hs))

theorem runHart_inv : ∀ (i : Instr) (n : Names) (body : ℕ → Hart → State → Res) (s : State), (∀ (b0 : ℕ) (b1 : Hart) (b2 : State), b2.Inv → (body b0 b1 b2).Inv) → s.Inv → (runHart i n body s).Inv := by
  intro i n body s h_body h_s
  unfold runHart
  extract_lets v1
  rename_i v2 v3 v4 v5
  clear_value v1
  clear_value v2
  clear_value v3
  clear_value v4
  clear_value v5
  split
  · rename_i m6 m7
    assumption
  · rename_i m8 m9 m10
    extract_lets v11
    rename_i v12
    clear_value v11
    have hv12 : State.Inv v12 := by
      unfold v12
      refine ite_inv (fun _ => ?_) (fun _ => ?_)
      · refine State.placeRequest_inv _ _ _ _ ?_
        assumption
      · assumption
    clear_value v12
    refine ite_inv (fun _ => ?_) (fun _ => ?_)
    · refine State.hartWait_inv _ _ _ _ ?_
      assumption
    · refine ite_inv (fun _ => ?_) (fun _ => ?_)
      · refine State.settle_inv _ _ _ _ _ _ _ ?_ ?_
        · assumption
        · refine Res.inv_trap ?_
          assumption
      · split
        · rename_i m13 m14 m15 m16
          refine State.settle_inv _ _ _ _ _ _ _ ?_ ?_
          · assumption
          · refine Res.inv_trap ?_
            refine State.modPair_inv _ _ _ ?_
            assumption
        · rename_i m17 m18
          split
          · rename_i m19 m20 m21
            split
            · rename_i m22 m23 m24 m25
              refine State.hartWait_inv _ _ _ _ ?_
              assumption
          · rename_i m26 m27
            refine ite_inv (fun _ => ?_) (fun _ => ?_)
            · refine State.trailRun_inv _ _ _ _ _ _ _ ?_ ?_
              · assumption
              · intro y28
                intro y29
                refine h_body _ _ _ ?_
                assumption
            · refine ite_inv (fun _ => ?_) (fun _ => ?_)
              · refine State.hartWait_inv _ _ _ _ ?_
                assumption
              · refine State.settle_inv _ _ _ _ _ _ _ ?_ ?_
                · assumption
                · refine h_body _ _ _ ?_
                  assumption

theorem Got.andThen_inv : ∀ (g : Got) (f : List PieceAns → State → Res) (h_g : g.Inv)
    (h_f : ∀ (l : List PieceAns) (t : State), t.Inv → (f l t).Inv), (g.andThen f).Inv := by
  intro g f hg hf
  cases g with
  | done l s => exact hf l s hg
  | trap c b a s => exact hg
  | wait s => exact hg

theorem State.consumePoison_inv : ∀ (s : State) (h0 : ℕ) (fo : FormOp) (addr : Word), s.Inv → (State.consumePoison s h0 fo addr).Inv := by
  intro s h0 fo addr h_s
  unfold State.consumePoison
  extract_lets v1 v2 v3 v4
  clear_value v1
  clear_value v2
  have hv3 : State.Inv v3 := by
    unfold v3
    refine State.modHart_inv _ _ _ ?_
    refine State.modPair_inv _ _ _ ?_
    assumption
  clear_value v3
  clear_value v4
  refine State.logRec_inv _ _ _ _ _ _ _ ?_
  assumption

theorem asyncRes_inv : ∀ (s : State) (h : ℕ) (x : Hart) (rd : RegIdx) (fo : FormOp) (limited : Bool) (i : Issue), s.Inv → (asyncRes s h x rd fo limited i).Inv := by
  intro s h x rd fo limited i h_s
  unfold asyncRes
  refine ite_resInv (fun _ => ?_) (fun _ => ?_)
  · refine Res.inv_wait ?_
    assumption
  · refine Res.inv_ok ?_
    refine snd_inv ?_
    refine State.opIssue_inv _ _ _ _ _ _ ?_
    assumption

/-! ### Machine/BaseAlu.lean -/

theorem setX_inv : ∀ (s : State) (h : ℕ) (rd : RegIdx) (v : Word), s.Inv → (setX s h rd v).Inv := by
  intro s h rd v h_s
  unfold setX
  refine Res.inv_ok ?_
  refine State.modHart_inv _ _ _ ?_
  assumption

theorem setF_inv : ∀ (s : State) (h : ℕ) (rd : RegIdx) (r : W32 × FFlags), s.Inv → (setF s h rd r).Inv := by
  intro s h rd r h_s
  unfold setF
  refine Res.inv_ok ?_
  refine State.modHart_inv _ _ _ ?_
  assumption

theorem setXF_inv : ∀ (s : State) (h : ℕ) (rd : RegIdx) (v : Word) (f : FFlags), s.Inv → (setXF s h rd v f).Inv := by
  intro s h rd v f h_s
  unfold setXF
  refine Res.inv_ok ?_
  refine State.modHart_inv _ _ _ ?_
  assumption

theorem jumpTo_inv : ∀ (s : State) (h : ℕ) (rd : RegIdx) (link : Word) (target : Word), s.Inv → (jumpTo s h rd link target).Inv := by
  intro s h rd link target h_s
  unfold jumpTo
  refine ite_resInv (fun _ => ?_) (fun _ => ?_)
  · refine Res.inv_jump ?_
    refine State.modHart_inv _ _ _ ?_
    assumption
  · refine Res.inv_trap ?_
    assumption

theorem baseRes_inv : ∀ (op : BaseOp) (h : ℕ) (x : Hart) (s : State), s.Inv → (baseRes op h x s).Inv := by
  intro op h x s h_s
  unfold baseRes
  extract_lets v1 v2
  have hv1 : Res.Inv v1 := by
    unfold v1
    refine Res.inv_trap ?_
    assumption
  clear_value v1
  split
  · rename_i m3 m4 m5
    refine setX_inv _ _ _ _ ?_
    assumption
  · rename_i m6 m7 m8
    refine setX_inv _ _ _ _ ?_
    assumption
  · rename_i m9 m10 m11
    refine jumpTo_inv _ _ _ _ _ ?_
    assumption
  · rename_i m12 m13 m14 m15
    refine jumpTo_inv _ _ _ _ _ ?_
    assumption
  · rename_i m16 m17 m18 m19 m20
    refine ite_resInv (fun _ => ?_) (fun _ => ?_)
    · refine jumpTo_inv _ _ _ _ _ ?_
      assumption
    · refine Res.inv_ok ?_
      assumption
  · rename_i m21 m22 m23 m24 m25
    refine setX_inv _ _ _ _ ?_
    assumption
  · rename_i m26 m27 m28 m29 m30
    refine setX_inv _ _ _ _ ?_
    assumption
  · rename_i m31 m32 m33 m34 m35
    refine setX_inv _ _ _ _ ?_
    assumption
  · rename_i m36 m37 m38 m39 m40
    refine setX_inv _ _ _ _ ?_
    assumption
  · rename_i m41 m42 m43 m44
    refine setX_inv _ _ _ _ ?_
    assumption
  · rename_i m45 m46 m47 m48 m49 m50
    simp only [v2]
    split
    · rename_i m51 m52 m53
      refine setF_inv _ _ _ _ ?_
      assumption
    · rename_i m54 m55
      assumption
  · rename_i m56 m57 m58 m59
    simp only [v2]
    split
    · rename_i m51 m52 m53
      refine setF_inv _ _ _ _ ?_
      assumption
    · rename_i m54 m55
      assumption
  · rename_i m60 m61 m62 m63 m64 m65 m66
    simp only [v2]
    split
    · rename_i m51 m52 m53
      refine setF_inv _ _ _ _ ?_
      assumption
    · rename_i m54 m55
      assumption
  · rename_i m67 m68 m69 m70 m71
    refine setF_inv _ _ _ _ ?_
    assumption
  · rename_i m72 m73 m74 m75 m76
    extract_lets v77
    clear_value v77
    refine setXF_inv _ _ _ _ _ ?_
    assumption
  · rename_i m78 m79 m80 m81 m82
    simp only [v2]
    split
    · rename_i m51 m52 m53
      refine setXF_inv _ _ _ _ _ ?_
      assumption
    · rename_i m54 m55
      assumption
  · rename_i m83 m84 m85 m86 m87
    simp only [v2]
    split
    · rename_i m51 m52 m53
      refine setF_inv _ _ _ _ ?_
      assumption
    · rename_i m54 m55
      assumption
  · rename_i m88 m89 m90
    refine setX_inv _ _ _ _ ?_
    assumption
  · rename_i m91 m92 m93
    refine setF_inv _ _ _ _ ?_
    assumption
  · rename_i m94 m95 m96
    refine setX_inv _ _ _ _ ?_
    assumption
  · rename_i m97
    refine Res.inv_trap ?_
    assumption

theorem execBaseArithmetic_inv : ∀ (op : BaseOp) (s : State), s.Inv → Safe (execBaseArithmetic op s) := by
  intro op s h_s
  unfold execBaseArithmetic
  refine safe_next ?_
  refine runHart_inv _ _ _ _ ?_ ?_
  · intro y1
    intro y2
    intro y3
    intro y4
    refine baseRes_inv _ _ _ _ ?_
    assumption
  · assumption

/-! ### Machine/Vector.lean -/

theorem hartOk_inv : ∀ (s : State) (h : ℕ) (f : Hart → Hart), s.Inv → (hartOk s h f).Inv := by
  intro s h f h_s
  unfold hartOk
  refine Res.inv_ok ?_
  refine State.modHart_inv _ _ _ ?_
  assumption

theorem lanes2_inv : ∀ (m : Bool) (vd : RegIdx) (vs1 : RegIdx) (vs2 : RegIdx) (f : W32 → W32 → W32 × FFlags) (h : ℕ) (x : Hart) (s : State), s.Inv → (lanes2 m vd vs1 vs2 f h x s).Inv := by
  intro m vd vs1 vs2 f h x s h_s
  unfold lanes2
  refine hartOk_inv _ _ _ ?_
  assumption

theorem lanes3_inv : ∀ (m : Bool) (vd : RegIdx) (vs1 : RegIdx) (vs2 : RegIdx) (f : W32 → W32 → W32 → W32 × FFlags) (h : ℕ) (x : Hart) (s : State), s.Inv → (lanes3 m vd vs1 vs2 f h x s).Inv := by
  intro m vd vs1 vs2 f h x s h_s
  unfold lanes3
  refine hartOk_inv _ _ _ ?_
  assumption

theorem lanes1_inv : ∀ (m : Bool) (vd : RegIdx) (vs1 : RegIdx) (f : W32 → W32 × FFlags) (h : ℕ) (x : Hart) (s : State), s.Inv → (lanes1 m vd vs1 f h x s).Inv := by
  intro m vd vs1 f h x s h_s
  unfold lanes1
  refine hartOk_inv _ _ _ ?_
  assumption

theorem lanesPlain_inv : ∀ (m : Bool) (vd : RegIdx) (f : Hart → ℕ → W32) (h : ℕ) (x : Hart) (s : State), s.Inv → (lanesPlain m vd f h x s).Inv := by
  intro m vd f h x s h_s
  unfold lanesPlain
  refine hartOk_inv _ _ _ ?_
  assumption

theorem lanesCmp_inv : ∀ (o : FCmp) (m : Bool) (ty : LaneTy) (cond : Bool) (vs1 : RegIdx) (vs2 : RegIdx) (h : ℕ) (x : Hart) (s : State), s.Inv → (lanesCmp o m ty cond vs1 vs2 h x s).Inv := by
  intro o m ty cond vs1 vs2 h x s h_s
  unfold lanesCmp
  extract_lets v1 v2 v3
  clear_value v1
  clear_value v2
  clear_value v3
  refine hartOk_inv _ _ _ ?_
  assumption

theorem lanesReduce_inv : ∀ (m : Bool) (vd : RegIdx) (vs1 : RegIdx) (ident : W32) (f : W32 → W32 → W32 × FFlags) (h : ℕ) (x : Hart) (s : State), s.Inv → (lanesReduce m vd vs1 ident f h x s).Inv := by
  intro m vd vs1 ident f h x s h_s
  unfold lanesReduce
  extract_lets v1
  clear_value v1
  refine hartOk_inv _ _ _ ?_
  assumption

theorem execVadd_inv : ∀ (m : Bool) (ty : LaneTy) (vd : RegIdx) (vs1 : RegIdx) (vs2 : RegIdx) (s : State), s.Inv → Safe (execVadd m ty vd vs1 vs2 s) := by
  intro m ty vd vs1 vs2 s h_s
  unfold execVadd
  refine safe_next ?_
  refine runHart_inv _ _ _ _ ?_ ?_
  · intro y1
    intro y2
    intro y3
    intro y4
    refine lanes2_inv _ _ _ _ _ _ _ _ ?_
    assumption
  · assumption

theorem execVsub_inv : ∀ (m : Bool) (ty : LaneTy) (vd : RegIdx) (vs1 : RegIdx) (vs2 : RegIdx) (s : State), s.Inv → Safe (execVsub m ty vd vs1 vs2 s) := by
  intro m ty vd vs1 vs2 s h_s
  unfold execVsub
  refine safe_next ?_
  refine runHart_inv _ _ _ _ ?_ ?_
  · intro y1
    intro y2
    intro y3
    intro y4
    refine lanes2_inv _ _ _ _ _ _ _ _ ?_
    assumption
  · assumption

theorem execVmul_inv : ∀ (m : Bool) (ty : LaneTy) (vd : RegIdx) (vs1 : RegIdx) (vs2 : RegIdx) (s : State), s.Inv → Safe (execVmul m ty vd vs1 vs2 s) := by
  intro m ty vd vs1 vs2 s h_s
  unfold execVmul
  refine safe_next ?_
  refine runHart_inv _ _ _ _ ?_ ?_
  · intro y1
    intro y2
    intro y3
    intro y4
    refine lanes2_inv _ _ _ _ _ _ _ _ ?_
    assumption
  · assumption

theorem execVmadd_inv : ∀ (m : Bool) (ty : LaneTy) (vd : RegIdx) (vs1 : RegIdx) (vs2 : RegIdx) (s : State), s.Inv → Safe (execVmadd m ty vd vs1 vs2 s) := by
  intro m ty vd vs1 vs2 s h_s
  unfold execVmadd
  refine safe_next ?_
  refine runHart_inv _ _ _ _ ?_ ?_
  · intro y1
    intro y2
    intro y3
    intro y4
    refine lanes3_inv _ _ _ _ _ _ _ _ ?_
    assumption
  · assumption

theorem execVmsub_inv : ∀ (m : Bool) (ty : LaneTy) (vd : RegIdx) (vs1 : RegIdx) (vs2 : RegIdx) (s : State), s.Inv → Safe (execVmsub m ty vd vs1 vs2 s) := by
  intro m ty vd vs1 vs2 s h_s
  unfold execVmsub
  refine safe_next ?_
  refine runHart_inv _ _ _ _ ?_ ?_
  · intro y1
    intro y2
    intro y3
    intro y4
    refine lanes3_inv _ _ _ _ _ _ _ _ ?_
    assumption
  · assumption

theorem execVmin_inv : ∀ (m : Bool) (ty : LaneTy) (vd : RegIdx) (vs1 : RegIdx) (vs2 : RegIdx) (s : State), s.Inv → Safe (execVmin m ty vd vs1 vs2 s) := by
  intro m ty vd vs1 vs2 s h_s
  unfold execVmin
  refine safe_next ?_
  refine runHart_inv _ _ _ _ ?_ ?_
  · intro y1
    intro y2
    intro y3
    intro y4
    refine lanes2_inv _ _ _ _ _ _ _ _ ?_
    assumption
  · assumption

theorem execVmax_inv : ∀ (m : Bool) (ty : LaneTy) (vd : RegIdx) (vs1 : RegIdx) (vs2 : RegIdx) (s : State), s.Inv → Safe (execVmax m ty vd vs1 vs2 s) := by
  intro m ty vd vs1 vs2 s h_s
  unfold execVmax
  refine safe_next ?_
  refine runHart_inv _ _ _ _ ?_ ?_
  · intro y1
    intro y2
    intro y3
    intro y4
    refine lanes2_inv _ _ _ _ _ _ _ _ ?_
    assumption
  · assumption

theorem execVabs_inv : ∀ (m : Bool) (ty : LaneTy) (vd : RegIdx) (vs1 : RegIdx) (s : State), s.Inv → Safe (execVabs m ty vd vs1 s) := by
  intro m ty vd vs1 s h_s
  unfold execVabs
  refine safe_next ?_
  refine runHart_inv _ _ _ _ ?_ ?_
  · intro y1
    intro y2
    intro y3
    intro y4
    refine lanes1_inv _ _ _ _ _ _ _ ?_
    assumption
  · assumption

theorem execVneg_inv : ∀ (m : Bool) (ty : LaneTy) (vd : RegIdx) (vs1 : RegIdx) (s : State), s.Inv → Safe (execVneg m ty vd vs1 s) := by
  intro m ty vd vs1 s h_s
  unfold execVneg
  refine safe_next ?_
  refine runHart_inv _ _ _ _ ?_ ?_
  · intro y1
    intro y2
    intro y3
    intro y4
    refine lanes1_inv _ _ _ _ _ _ _ ?_
    assumption
  · assumption

theorem execVand_inv : ∀ (m : Bool) (vd : RegIdx) (vs1 : RegIdx) (vs2 : RegIdx) (s : State), s.Inv → Safe (execVand m vd vs1 vs2 s) := by
  intro m vd vs1 vs2 s h_s
  unfold execVand
  refine safe_next ?_
  refine runHart_inv _ _ _ _ ?_ ?_
  · intro y1
    intro y2
    intro y3
    intro y4
    refine lanesPlain_inv _ _ _ _ _ _ ?_
    assumption
  · assumption

theorem execVor_inv : ∀ (m : Bool) (vd : RegIdx) (vs1 : RegIdx) (vs2 : RegIdx) (s : State), s.Inv → Safe (execVor m vd vs1 vs2 s) := by
  intro m vd vs1 vs2 s h_s
  unfold execVor
  refine safe_next ?_
  refine runHart_inv _ _ _ _ ?_ ?_
  · intro y1
    intro y2
    intro y3
    intro y4
    refine lanesPlain_inv _ _ _ _ _ _ ?_
    assumption
  · assumption

theorem execVxor_inv : ∀ (m : Bool) (vd : RegIdx) (vs1 : RegIdx) (vs2 : RegIdx) (s : State), s.Inv → Safe (execVxor m vd vs1 vs2 s) := by
  intro m vd vs1 vs2 s h_s
  unfold execVxor
  refine safe_next ?_
  refine runHart_inv _ _ _ _ ?_ ?_
  · intro y1
    intro y2
    intro y3
    intro y4
    refine lanesPlain_inv _ _ _ _ _ _ ?_
    assumption
  · assumption

theorem execVsll_inv : ∀ (m : Bool) (vd : RegIdx) (vs1 : RegIdx) (vs2 : RegIdx) (s : State), s.Inv → Safe (execVsll m vd vs1 vs2 s) := by
  intro m vd vs1 vs2 s h_s
  unfold execVsll
  refine safe_next ?_
  refine runHart_inv _ _ _ _ ?_ ?_
  · intro y1
    intro y2
    intro y3
    intro y4
    refine lanesPlain_inv _ _ _ _ _ _ ?_
    assumption
  · assumption

theorem execVsrl_inv : ∀ (m : Bool) (vd : RegIdx) (vs1 : RegIdx) (vs2 : RegIdx) (s : State), s.Inv → Safe (execVsrl m vd vs1 vs2 s) := by
  intro m vd vs1 vs2 s h_s
  unfold execVsrl
  refine safe_next ?_
  refine runHart_inv _ _ _ _ ?_ ?_
  · intro y1
    intro y2
    intro y3
    intro y4
    refine lanesPlain_inv _ _ _ _ _ _ ?_
    assumption
  · assumption

theorem execVsra_inv : ∀ (m : Bool) (vd : RegIdx) (vs1 : RegIdx) (vs2 : RegIdx) (s : State), s.Inv → Safe (execVsra m vd vs1 vs2 s) := by
  intro m vd vs1 vs2 s h_s
  unfold execVsra
  refine safe_next ?_
  refine runHart_inv _ _ _ _ ?_ ?_
  · intro y1
    intro y2
    intro y3
    intro y4
    refine lanesPlain_inv _ _ _ _ _ _ ?_
    assumption
  · assumption

theorem execVnot_inv : ∀ (m : Bool) (vd : RegIdx) (vs1 : RegIdx) (s : State), s.Inv → Safe (execVnot m vd vs1 s) := by
  intro m vd vs1 s h_s
  unfold execVnot
  refine safe_next ?_
  refine runHart_inv _ _ _ _ ?_ ?_
  · intro y1
    intro y2
    intro y3
    intro y4
    refine lanesPlain_inv _ _ _ _ _ _ ?_
    assumption
  · assumption

theorem execVcmpeq_inv : ∀ (m : Bool) (ty : LaneTy) (cond : Bool) (vs1 : RegIdx) (vs2 : RegIdx) (s : State), s.Inv → Safe (execVcmpeq m ty cond vs1 vs2 s) := by
  intro m ty cond vs1 vs2 s h_s
  unfold execVcmpeq
  refine safe_next ?_
  refine runHart_inv _ _ _ _ ?_ ?_
  · intro y1
    intro y2
    intro y3
    intro y4
    refine lanesCmp_inv _ _ _ _ _ _ _ _ _ ?_
    assumption
  · assumption

theorem execVcmplt_inv : ∀ (m : Bool) (ty : LaneTy) (cond : Bool) (vs1 : RegIdx) (vs2 : RegIdx) (s : State), s.Inv → Safe (execVcmplt m ty cond vs1 vs2 s) := by
  intro m ty cond vs1 vs2 s h_s
  unfold execVcmplt
  refine safe_next ?_
  refine runHart_inv _ _ _ _ ?_ ?_
  · intro y1
    intro y2
    intro y3
    intro y4
    refine lanesCmp_inv _ _ _ _ _ _ _ _ _ ?_
    assumption
  · assumption

theorem execVcmple_inv : ∀ (m : Bool) (ty : LaneTy) (cond : Bool) (vs1 : RegIdx) (vs2 : RegIdx) (s : State), s.Inv → Safe (execVcmple m ty cond vs1 vs2 s) := by
  intro m ty cond vs1 vs2 s h_s
  unfold execVcmple
  refine safe_next ?_
  refine runHart_inv _ _ _ _ ?_ ?_
  · intro y1
    intro y2
    intro y3
    intro y4
    refine lanesCmp_inv _ _ _ _ _ _ _ _ _ ?_
    assumption
  · assumption

theorem execVsel_inv : ∀ (m : Bool) (vd : RegIdx) (vs1 : RegIdx) (vs2 : RegIdx) (s : State), s.Inv → Safe (execVsel m vd vs1 vs2 s) := by
  intro m vd vs1 vs2 s h_s
  unfold execVsel
  refine safe_next ?_
  refine runHart_inv _ _ _ _ ?_ ?_
  · intro y1
    intro y2
    intro y3
    intro y4
    refine lanesPlain_inv _ _ _ _ _ _ ?_
    assumption
  · assumption

theorem execVrcp_inv : ∀ (m : Bool) (vd : RegIdx) (vs1 : RegIdx) (s : State), s.Inv → Safe (execVrcp m vd vs1 s) := by
  intro m vd vs1 s h_s
  unfold execVrcp
  refine safe_next ?_
  refine runHart_inv _ _ _ _ ?_ ?_
  · intro y1
    intro y2
    intro y3
    intro y4
    refine lanes1_inv _ _ _ _ _ _ _ ?_
    assumption
  · assumption

theorem execVrsq_inv : ∀ (m : Bool) (vd : RegIdx) (vs1 : RegIdx) (s : State), s.Inv → Safe (execVrsq m vd vs1 s) := by
  intro m vd vs1 s h_s
  unfold execVrsq
  refine safe_next ?_
  refine runHart_inv _ _ _ _ ?_ ?_
  · intro y1
    intro y2
    intro y3
    intro y4
    refine lanes1_inv _ _ _ _ _ _ _ ?_
    assumption
  · assumption

theorem execVexp2_inv : ∀ (m : Bool) (vd : RegIdx) (vs1 : RegIdx) (s : State), s.Inv → Safe (execVexp2 m vd vs1 s) := by
  intro m vd vs1 s h_s
  unfold execVexp2
  refine safe_next ?_
  refine runHart_inv _ _ _ _ ?_ ?_
  · intro y1
    intro y2
    intro y3
    intro y4
    refine lanes1_inv _ _ _ _ _ _ _ ?_
    assumption
  · assumption

theorem execVlog2_inv : ∀ (m : Bool) (vd : RegIdx) (vs1 : RegIdx) (s : State), s.Inv → Safe (execVlog2 m vd vs1 s) := by
  intro m vd vs1 s h_s
  unfold execVlog2
  refine safe_next ?_
  refine runHart_inv _ _ _ _ ?_ ?_
  · intro y1
    intro y2
    intro y3
    intro y4
    refine lanes1_inv _ _ _ _ _ _ _ ?_
    assumption
  · assumption

theorem execVcvtToLaneType_inv : ∀ (m : Bool) (ty : LaneTy) (vd : RegIdx) (vs1 : RegIdx) (ef : BitVec 5) (s : State), s.Inv → Safe (execVcvtToLaneType m ty vd vs1 ef s) := by
  intro m ty vd vs1 ef s h_s
  unfold execVcvtToLaneType
  refine safe_next ?_
  refine runHart_inv _ _ _ _ ?_ ?_
  · intro y1
    intro y2
    intro y3
    intro y4
    refine lanes1_inv _ _ _ _ _ _ _ ?_
    assumption
  · assumption

theorem execVcvtToNarrow_inv : ∀ (m : Bool) (ty : LaneTy) (vd : RegIdx) (vs1 : RegIdx) (ef : BitVec 5) (s : State), s.Inv → Safe (execVcvtToNarrow m ty vd vs1 ef s) := by
  intro m ty vd vs1 ef s h_s
  unfold execVcvtToNarrow
  refine safe_next ?_
  refine runHart_inv _ _ _ _ ?_ ?_
  · intro y1
    intro y2
    intro y3
    intro y4
    refine lanes1_inv _ _ _ _ _ _ _ ?_
    assumption
  · assumption

theorem execVcvtToNarrowSat_inv : ∀ (m : Bool) (ty : LaneTy) (vd : RegIdx) (vs1 : RegIdx) (ef : BitVec 5) (s : State), s.Inv → Safe (execVcvtToNarrowSat m ty vd vs1 ef s) := by
  intro m ty vd vs1 ef s h_s
  unfold execVcvtToNarrowSat
  refine safe_next ?_
  refine runHart_inv _ _ _ _ ?_ ?_
  · intro y1
    intro y2
    intro y3
    intro y4
    refine lanes1_inv _ _ _ _ _ _ _ ?_
    assumption
  · assumption

theorem execVquant_inv : ∀ (m : Bool) (q : BitVec 3) (vd : RegIdx) (vs1 : RegIdx) (rs2 : RegIdx) (s : State), s.Inv → Safe (execVquant m q vd vs1 rs2 s) := by
  intro m q vd vs1 rs2 s h_s
  unfold execVquant
  refine safe_next ?_
  refine runHart_inv _ _ _ _ ?_ ?_
  · intro y1
    intro y2
    intro y3
    intro y4
    refine hartOk_inv _ _ _ ?_
    assumption
  · assumption

theorem execVdequant_inv : ∀ (m : Bool) (vd : RegIdx) (vs1 : RegIdx) (s : State), s.Inv → Safe (execVdequant m vd vs1 s) := by
  intro m vd vs1 s h_s
  unfold execVdequant
  refine safe_next ?_
  refine runHart_inv _ _ _ _ ?_ ?_
  · intro y1
    intro y2
    intro y3
    intro y4
    refine hartOk_inv _ _ _ ?_
    assumption
  · assumption

theorem execVamax_inv : ∀ (m : Bool) (vd : RegIdx) (vs1 : RegIdx) (s : State), s.Inv → Safe (execVamax m vd vs1 s) := by
  intro m vd vs1 s h_s
  unfold execVamax
  refine safe_next ?_
  refine runHart_inv _ _ _ _ ?_ ?_
  · intro y1
    intro y2
    intro y3
    intro y4
    extract_lets v5
    clear_value v5
    refine hartOk_inv _ _ _ ?_
    assumption
  · assumption

theorem execVredsum_inv : ∀ (m : Bool) (ty : LaneTy) (vd : RegIdx) (vs1 : RegIdx) (s : State), s.Inv → Safe (execVredsum m ty vd vs1 s) := by
  intro m ty vd vs1 s h_s
  unfold execVredsum
  refine safe_next ?_
  refine runHart_inv _ _ _ _ ?_ ?_
  · intro y1
    intro y2
    intro y3
    intro y4
    refine lanesReduce_inv _ _ _ _ _ _ _ _ ?_
    assumption
  · assumption

theorem execVredmax_inv : ∀ (m : Bool) (ty : LaneTy) (vd : RegIdx) (vs1 : RegIdx) (s : State), s.Inv → Safe (execVredmax m ty vd vs1 s) := by
  intro m ty vd vs1 s h_s
  unfold execVredmax
  refine safe_next ?_
  refine runHart_inv _ _ _ _ ?_ ?_
  · intro y1
    intro y2
    intro y3
    intro y4
    refine lanesReduce_inv _ _ _ _ _ _ _ _ ?_
    assumption
  · assumption

theorem execVredmin_inv : ∀ (m : Bool) (ty : LaneTy) (vd : RegIdx) (vs1 : RegIdx) (s : State), s.Inv → Safe (execVredmin m ty vd vs1 s) := by
  intro m ty vd vs1 s h_s
  unfold execVredmin
  refine safe_next ?_
  refine runHart_inv _ _ _ _ ?_ ?_
  · intro y1
    intro y2
    intro y3
    intro y4
    refine lanesReduce_inv _ _ _ _ _ _ _ _ ?_
    assumption
  · assumption

theorem execVbcast_inv : ∀ (m : Bool) (vd : RegIdx) (rs1 : RegIdx) (s : State), s.Inv → Safe (execVbcast m vd rs1 s) := by
  intro m vd rs1 s h_s
  unfold execVbcast
  refine safe_next ?_
  refine runHart_inv _ _ _ _ ?_ ?_
  · intro y1
    intro y2
    intro y3
    intro y4
    refine lanesPlain_inv _ _ _ _ _ _ ?_
    assumption
  · assumption

theorem execVextr_inv : ∀ (m : Bool) (rd : RegIdx) (vs1 : RegIdx) (lane : BitVec 4) (s : State), s.Inv → Safe (execVextr m rd vs1 lane s) := by
  intro m rd vs1 lane s h_s
  unfold execVextr
  refine safe_next ?_
  refine runHart_inv _ _ _ _ ?_ ?_
  · intro y1
    intro y2
    intro y3
    intro y4
    refine setX_inv _ _ _ _ ?_
    assumption
  · assumption

theorem execVins_inv : ∀ (m : Bool) (vd : RegIdx) (rs1 : RegIdx) (lane : BitVec 4) (s : State), s.Inv → Safe (execVins m vd rs1 lane s) := by
  intro m vd rs1 lane s h_s
  unfold execVins
  refine safe_next ?_
  refine runHart_inv _ _ _ _ ?_ ?_
  · intro y1
    intro y2
    intro y3
    intro y4
    refine lanesPlain_inv _ _ _ _ _ _ ?_
    assumption
  · assumption

theorem execVperm_inv : ∀ (m : Bool) (vd : RegIdx) (vs1 : RegIdx) (vs2 : RegIdx) (s : State), s.Inv → Safe (execVperm m vd vs1 vs2 s) := by
  intro m vd vs1 vs2 s h_s
  unfold execVperm
  refine safe_next ?_
  refine runHart_inv _ _ _ _ ?_ ?_
  · intro y1
    intro y2
    intro y3
    intro y4
    refine lanesPlain_inv _ _ _ _ _ _ ?_
    assumption
  · assumption

theorem execVslide_inv : ∀ (m : Bool) (vd : RegIdx) (vs1 : RegIdx) (n : BitVec 5) (s : State), s.Inv → Safe (execVslide m vd vs1 n s) := by
  intro m vd vs1 n s h_s
  unfold execVslide
  refine safe_next ?_
  refine runHart_inv _ _ _ _ ?_ ?_
  · intro y1
    intro y2
    intro y3
    intro y4
    refine lanesPlain_inv _ _ _ _ _ _ ?_
    assumption
  · assumption

theorem execVzip_inv : ∀ (m : Bool) (vd : RegIdx) (vs1 : RegIdx) (vs2 : RegIdx) (s : State), s.Inv → Safe (execVzip m vd vs1 vs2 s) := by
  intro m vd vs1 vs2 s h_s
  unfold execVzip
  refine safe_next ?_
  refine runHart_inv _ _ _ _ ?_ ?_
  · intro y1
    intro y2
    intro y3
    intro y4
    refine lanesPlain_inv _ _ _ _ _ _ ?_
    assumption
  · assumption

theorem execVunzip_inv : ∀ (m : Bool) (vd : RegIdx) (vs1 : RegIdx) (vs2 : RegIdx) (s : State), s.Inv → Safe (execVunzip m vd vs1 vs2 s) := by
  intro m vd vs1 vs2 s h_s
  unfold execVunzip
  refine safe_next ?_
  refine runHart_inv _ _ _ _ ?_ ?_
  · intro y1
    intro y2
    intro y3
    intro y4
    refine lanesPlain_inv _ _ _ _ _ _ ?_
    assumption
  · assumption

theorem execVmov_inv : ∀ (m : Bool) (vd : RegIdx) (vs1 : RegIdx) (s : State), s.Inv → Safe (execVmov m vd vs1 s) := by
  intro m vd vs1 s h_s
  unfold execVmov
  refine safe_next ?_
  refine runHart_inv _ _ _ _ ?_ ?_
  · intro y1
    intro y2
    intro y3
    intro y4
    refine lanesPlain_inv _ _ _ _ _ _ ?_
    assumption
  · assumption

/-! ### Machine/BaseMem.lean -/

theorem readDone_inv : ∀ (h : ℕ) (fo : FormOp) (a : Word) (wr : List Byte → Hart → Hart) (n : ℕ) (as : List PieceAns) (t : State), t.Inv → (readDone h fo a wr n as t).Inv := by
  intro h fo a wr n as t h_t
  unfold readDone
  refine ite_resInv (fun _ => ?_) (fun _ => ?_)
  · refine Res.inv_ok ?_
    refine State.consumePoison_inv _ _ _ _ ?_
    refine State.modHart_inv _ _ _ ?_
    assumption
  · refine Res.inv_ok ?_
    refine State.modHart_inv _ _ _ ?_
    assumption

theorem wroteDone_inv : ∀ (a0 : List PieceAns) (t : State), t.Inv → (wroteDone a0 t).Inv := by
  intro a0 t h_t
  unfold wroteDone
  refine Res.inv_ok ?_
  assumption

theorem execBaseLoad_inv : ∀ (k : LoadW) (rd : RegIdx) (rs1 : RegIdx) (imm : BitVec 12) (s : State), s.Inv → Safe (execBaseLoad k rd rs1 imm s) := by
  intro k rd rs1 imm s h_s
  unfold execBaseLoad
  extract_lets v1
  rename_i v2
  clear_value v1
  clear_value v2
  refine safe_next ?_
  refine runHart_inv _ _ _ _ ?_ ?_
  · intro y3
    intro y4
    intro y5
    intro y6
    extract_lets v7
    clear_value v7
    refine Got.andThen_inv _ _ ?_ ?_
    · refine State.plain_inv _ _ _ _ _ _ ?_
      assumption
    · intro y8
      intro y9
      intro y10
      refine readDone_inv _ _ _ _ _ _ _ ?_
      assumption
  · assumption

theorem execBaseStore_inv : ∀ (k : StoreW) (rs1 : RegIdx) (rs2 : RegIdx) (imm : BitVec 12) (s : State), s.Inv → Safe (execBaseStore k rs1 rs2 imm s) := by
  intro k rs1 rs2 imm s h_s
  unfold execBaseStore
  refine safe_next ?_
  refine runHart_inv _ _ _ _ ?_ ?_
  · intro y1
    intro y2
    intro y3
    intro y4
    extract_lets v5 v6
    clear_value v5
    clear_value v6
    refine Got.andThen_inv _ _ ?_ ?_
    · refine State.plain_inv _ _ _ _ _ _ ?_
      assumption
    · intro y7
      intro y8
      intro y9
      refine wroteDone_inv _ _ ?_
      assumption
  · assumption

theorem State.rlGate_inv : ∀ (s : State) (h : ℕ) (x : Hart) (rl : Bool), s.Inv → OptInv (State.rlGate s h x rl) := by
  intro s h x rl h_s
  unfold State.rlGate
  refine ite_optInv (fun _ => ?_) (fun _ => ?_)
  · refine State.fenceGate_inv _ _ _ _ ?_
    assumption
  · exact optInv_none

theorem State.atomicRes_inv : ∀ (s : State) (h : ℕ) (x : Hart) (a : Word) (dbl : Bool) (rl : Bool) (cause : ℕ) (act : Piece) (kind : AccKind) (trace : Option Traced) (done : List PieceAns → State → Res), s.Inv → (∀ (b0 : List PieceAns) (b1 : State), b1.Inv → (done b0 b1).Inv) → (State.atomicRes s h x a dbl rl cause act kind trace done).Inv := by
  intro s h x a dbl rl cause act kind trace done h_s h_done
  unfold State.atomicRes
  refine ite_resInv (fun _ => ?_) (fun _ => ?_)
  · refine Res.inv_trap ?_
    assumption
  · split
    · rename_i m1 m2 m3
      refine Res.inv_wait ?_
      refine some_inv ?_ m3
      refine State.rlGate_inv _ _ _ _ ?_
      assumption
    · rename_i m4 m5
      refine Got.andThen_inv _ _ ?_ ?_
      · refine State.plain_inv _ _ _ _ _ _ ?_
        assumption
      · intro y6
        intro y7
        intro y8
        refine h_done _ _ ?_
        assumption

theorem execAmo_inv : ∀ (op : AmoOp) (dbl : Bool) (aq : Bool) (rl : Bool) (rd : RegIdx) (rs1 : RegIdx) (rs2 : RegIdx) (s : State), s.Inv → Safe (execAmo op dbl aq rl rd rs1 rs2 s) := by
  intro op dbl aq rl rd rs1 rs2 s h_s
  unfold execAmo
  extract_lets v1
  clear_value v1
  refine safe_next ?_
  refine runHart_inv _ _ _ _ ?_ ?_
  · intro y2
    intro y3
    intro y4
    intro y5
    extract_lets v6
    clear_value v6
    refine State.atomicRes_inv _ _ _ _ _ _ _ _ _ _ _ ?_ ?_
    · assumption
    · intro y7
      intro y8
      intro y9
      refine readDone_inv _ _ _ _ _ _ _ ?_
      assumption
  · assumption

theorem execLr_inv : ∀ (dbl : Bool) (aq : Bool) (rl : Bool) (rd : RegIdx) (rs1 : RegIdx) (s : State), s.Inv → Safe (execLr dbl aq rl rd rs1 s) := by
  intro dbl aq rl rd rs1 s h_s
  unfold execLr
  extract_lets v1
  clear_value v1
  refine safe_next ?_
  refine runHart_inv _ _ _ _ ?_ ?_
  · intro y2
    intro y3
    intro y4
    intro y5
    extract_lets v6
    clear_value v6
    refine State.atomicRes_inv _ _ _ _ _ _ _ _ _ _ _ ?_ ?_
    · assumption
    · intro y7
      intro y8
      intro y9
      refine readDone_inv _ _ _ _ _ _ _ ?_
      assumption
  · assumption

theorem execSc_inv : ∀ (dbl : Bool) (aq : Bool) (rl : Bool) (rd : RegIdx) (rs1 : RegIdx) (rs2 : RegIdx) (s : State), s.Inv → Safe (execSc dbl aq rl rd rs1 rs2 s) := by
  intro dbl aq rl rd rs1 rs2 s h_s
  unfold execSc
  refine safe_next ?_
  refine runHart_inv _ _ _ _ ?_ ?_
  · intro y1
    intro y2
    intro y3
    intro y4
    refine State.atomicRes_inv _ _ _ _ _ _ _ _ _ _ _ ?_ ?_
    · assumption
    · intro y5
      intro y6
      intro y7
      refine setX_inv _ _ _ _ ?_
      assumption
  · assumption

/-! ### Machine/VecMem.lean -/

theorem relaxedLoad_inv : ∀ (s : State) (h : ℕ) (x : Hart) (ws : List Want) (dst : LoadDst) (fo : FormOp) (kind : ℕ), s.Inv → (relaxedLoad s h x ws dst fo kind).Inv := by
  intro s h x ws dst fo kind h_s
  unfold relaxedLoad
  refine ite_resInv (fun _ => ?_) (fun _ => ?_)
  · refine Res.inv_ok ?_
    refine State.loadIssue_inv _ _ _ _ _ _ _ ?_
    assumption
  · refine Res.inv_wait ?_
    assumption

theorem relaxedStore_inv : ∀ (s : State) (h : ℕ) (x : Hart) (ws : List Want), s.Inv → (relaxedStore s h x ws).Inv := by
  intro s h x ws h_s
  unfold relaxedStore
  refine ite_resInv (fun _ => ?_) (fun _ => ?_)
  · refine Res.inv_ok ?_
    refine State.storeIssue_inv _ _ _ _ _ _ _ ?_
    assumption
  · refine Res.inv_wait ?_
    assumption

theorem plainStore_inv : ∀ (s : State) (h : ℕ) (x : Hart) (size : ℕ) (ws : List Want), s.Inv → (plainStore s h x size ws).Inv := by
  intro s h x size ws h_s
  unfold plainStore
  refine Got.andThen_inv _ _ ?_ ?_
  · refine State.plain_inv _ _ _ _ _ _ ?_
    assumption
  · intro y1
    intro y2
    intro y3
    refine wroteDone_inv _ _ ?_
    assumption

theorem execLrx_inv : ∀ (k : LrxW) (rd : RegIdx) (rs1 : RegIdx) (off : BitVec 7) (s : State), s.Inv → Safe (execLrx k rd rs1 off s) := by
  intro k rd rs1 off s h_s
  unfold execLrx
  extract_lets v1
  clear_value v1
  refine safe_next ?_
  refine runHart_inv _ _ _ _ ?_ ?_
  · intro y2
    intro y3
    intro y4
    intro y5
    refine relaxedLoad_inv _ _ _ _ _ _ _ ?_
    assumption
  · assumption

theorem execSrx_inv : ∀ (k : BitVec 2) (rt : RegIdx) (rs1 : RegIdx) (off : BitVec 7) (s : State), s.Inv → Safe (execSrx k rt rs1 off s) := by
  intro k rt rs1 off s h_s
  unfold execSrx
  refine safe_next ?_
  refine runHart_inv _ _ _ _ ?_ ?_
  · intro y1
    intro y2
    intro y3
    intro y4
    extract_lets v5
    clear_value v5
    refine relaxedStore_inv _ _ _ _ ?_
    assumption
  · assumption

theorem vreadDone_inv : ∀ (h : ℕ) (fo : FormOp) (a : Word) (vd : RegIdx) (wr : List PieceAns → Hart → Hart) (as : List PieceAns) (t : State), t.Inv → (vreadDone h fo a vd wr as t).Inv := by
  intro h fo a vd wr as t h_t
  unfold vreadDone
  refine ite_resInv (fun _ => ?_) (fun _ => ?_)
  · refine Res.inv_ok ?_
    refine State.consumePoison_inv _ _ _ _ ?_
    refine State.modHart_inv _ _ _ ?_
    assumption
  · refine Res.inv_ok ?_
    refine State.modHart_inv _ _ _ ?_
    assumption

theorem execVld_inv : ∀ (rx : Bool) (v : RegIdx) (rs1 : RegIdx) (off : BitVec 7) (s : State), s.Inv → Safe (execVld rx v rs1 off s) := by
  intro rx v rs1 off s h_s
  unfold execVld
  extract_lets v1
  clear_value v1
  refine safe_next ?_
  refine runHart_inv _ _ _ _ ?_ ?_
  · intro y2
    intro y3
    intro y4
    intro y5
    extract_lets v6 v7
    clear_value v6
    clear_value v7
    refine ite_resInv (fun _ => ?_) (fun _ => ?_)
    · refine relaxedLoad_inv _ _ _ _ _ _ _ ?_
      assumption
    · refine Got.andThen_inv _ _ ?_ ?_
      · refine State.plain_inv _ _ _ _ _ _ ?_
        assumption
      · intro y8
        intro y9
        intro y10
        refine vreadDone_inv _ _ _ _ _ _ _ ?_
        assumption
  · assumption

theorem execVst_inv : ∀ (rx : Bool) (v : RegIdx) (rs1 : RegIdx) (off : BitVec 7) (s : State), s.Inv → Safe (execVst rx v rs1 off s) := by
  intro rx v rs1 off s h_s
  unfold execVst
  refine safe_next ?_
  refine runHart_inv _ _ _ _ ?_ ?_
  · intro y1
    intro y2
    intro y3
    intro y4
    extract_lets v5 v6
    clear_value v5
    clear_value v6
    refine ite_resInv (fun _ => ?_) (fun _ => ?_)
    · refine relaxedStore_inv _ _ _ _ ?_
      assumption
    · refine plainStore_inv _ _ _ _ _ ?_
      assumption
  · assumption

theorem execVlds_inv : ∀ (rx : Bool) (v : RegIdx) (rs1 : RegIdx) (rs2 : RegIdx) (s : State), s.Inv → Safe (execVlds rx v rs1 rs2 s) := by
  intro rx v rs1 rs2 s h_s
  unfold execVlds
  extract_lets v1
  clear_value v1
  refine safe_next ?_
  refine runHart_inv _ _ _ _ ?_ ?_
  · intro y2
    intro y3
    intro y4
    intro y5
    extract_lets v6
    clear_value v6
    refine ite_resInv (fun _ => ?_) (fun _ => ?_)
    · refine relaxedLoad_inv _ _ _ _ _ _ _ ?_
      assumption
    · refine Got.andThen_inv _ _ ?_ ?_
      · refine State.plain_inv _ _ _ _ _ _ ?_
        assumption
      · intro y7
        intro y8
        intro y9
        refine vreadDone_inv _ _ _ _ _ _ _ ?_
        assumption
  · assumption

theorem execVsts_inv : ∀ (rx : Bool) (v : RegIdx) (rs1 : RegIdx) (rs2 : RegIdx) (s : State), s.Inv → Safe (execVsts rx v rs1 rs2 s) := by
  intro rx v rs1 rs2 s h_s
  unfold execVsts
  refine safe_next ?_
  refine runHart_inv _ _ _ _ ?_ ?_
  · intro y1
    intro y2
    intro y3
    intro y4
    extract_lets v5
    clear_value v5
    refine ite_resInv (fun _ => ?_) (fun _ => ?_)
    · refine relaxedStore_inv _ _ _ _ ?_
      assumption
    · refine plainStore_inv _ _ _ _ _ ?_
      assumption
  · assumption

theorem execVldx_inv : ∀ (rx : Bool) (v : RegIdx) (rs1 : RegIdx) (vs2 : RegIdx) (s : State), s.Inv → Safe (execVldx rx v rs1 vs2 s) := by
  intro rx v rs1 vs2 s h_s
  unfold execVldx
  extract_lets v1
  clear_value v1
  refine safe_next ?_
  refine runHart_inv _ _ _ _ ?_ ?_
  · intro y2
    intro y3
    intro y4
    intro y5
    extract_lets v6
    clear_value v6
    refine ite_resInv (fun _ => ?_) (fun _ => ?_)
    · refine relaxedLoad_inv _ _ _ _ _ _ _ ?_
      assumption
    · refine Got.andThen_inv _ _ ?_ ?_
      · refine State.plain_inv _ _ _ _ _ _ ?_
        assumption
      · intro y7
        intro y8
        intro y9
        refine vreadDone_inv _ _ _ _ _ _ _ ?_
        assumption
  · assumption

theorem execVstx_inv : ∀ (rx : Bool) (v : RegIdx) (rs1 : RegIdx) (vs2 : RegIdx) (s : State), s.Inv → Safe (execVstx rx v rs1 vs2 s) := by
  intro rx v rs1 vs2 s h_s
  unfold execVstx
  refine safe_next ?_
  refine runHart_inv _ _ _ _ ?_ ?_
  · intro y1
    intro y2
    intro y3
    intro y4
    extract_lets v5
    clear_value v5
    refine ite_resInv (fun _ => ?_) (fun _ => ?_)
    · refine relaxedStore_inv _ _ _ _ ?_
      assumption
    · refine plainStore_inv _ _ _ _ _ ?_
      assumption
  · assumption

theorem execVldl_inv : ∀ (vd : RegIdx) (rs1 : RegIdx) (off : BitVec 7) (seg : BitVec 3) (s : State), s.Inv → Safe (execVldl vd rs1 off seg s) := by
  intro vd rs1 off seg s h_s
  unfold execVldl
  extract_lets v1
  clear_value v1
  refine safe_next ?_
  refine runHart_inv _ _ _ _ ?_ ?_
  · intro y2
    intro y3
    intro y4
    intro y5
    extract_lets v6
    clear_value v6
    refine Got.andThen_inv _ _ ?_ ?_
    · refine State.plain_inv _ _ _ _ _ _ ?_
      assumption
    · intro y7
      intro y8
      intro y9
      refine vreadDone_inv _ _ _ _ _ _ _ ?_
      assumption
  · assumption

theorem bitStore_inv : ∀ (s : State) (h : ℕ) (x : Hart) (ws : List Want), s.Inv → (bitStore s h x ws).Inv := by
  intro s h x ws h_s
  unfold bitStore
  refine plainStore_inv _ _ _ _ _ ?_
  assumption

theorem execLdbit_inv : ∀ (r : RegIdx) (rs1 : RegIdx) (rs2 : RegIdx) (w : BitVec 5) (s : State), s.Inv → Safe (execLdbit r rs1 rs2 w s) := by
  intro r rs1 rs2 w s h_s
  unfold execLdbit
  extract_lets v1
  rename_i v2
  clear_value v1
  clear_value v2
  refine safe_next ?_
  refine runHart_inv _ _ _ _ ?_ ?_
  · intro y3
    intro y4
    intro y5
    intro y6
    extract_lets v7
    clear_value v7
    refine ite_resInv (fun _ => ?_) (fun _ => ?_)
    · refine Res.inv_trap ?_
      assumption
    · refine Got.andThen_inv _ _ ?_ ?_
      · refine State.plain_inv _ _ _ _ _ _ ?_
        assumption
      · intro y8
        intro y9
        intro y10
        refine ite_resInv (fun _ => ?_) (fun _ => ?_)
        · refine Res.inv_ok ?_
          refine State.consumePoison_inv _ _ _ _ ?_
          refine State.modHart_inv _ _ _ ?_
          assumption
        · refine setX_inv _ _ _ _ ?_
          assumption
  · assumption

theorem execStbit_inv : ∀ (r : RegIdx) (rs1 : RegIdx) (rs2 : RegIdx) (w : BitVec 5) (s : State), s.Inv → Safe (execStbit r rs1 rs2 w s) := by
  intro r rs1 rs2 w s h_s
  unfold execStbit
  refine safe_next ?_
  refine runHart_inv _ _ _ _ ?_ ?_
  · intro y1
    intro y2
    intro y3
    intro y4
    extract_lets v5 v6
    clear_value v5
    clear_value v6
    refine ite_resInv (fun _ => ?_) (fun _ => ?_)
    · refine Res.inv_trap ?_
      assumption
    · refine bitStore_inv _ _ _ _ ?_
      assumption
  · assumption

theorem execVldbit_inv : ∀ (r : RegIdx) (rs1 : RegIdx) (rs2 : RegIdx) (w : BitVec 5) (s : State), s.Inv → Safe (execVldbit r rs1 rs2 w s) := by
  intro r rs1 rs2 w s h_s
  unfold execVldbit
  extract_lets v1
  rename_i v2
  clear_value v1
  clear_value v2
  refine safe_next ?_
  refine runHart_inv _ _ _ _ ?_ ?_
  · intro y3
    intro y4
    intro y5
    intro y6
    extract_lets v7 v8
    clear_value v7
    clear_value v8
    split
    · rename_i m9 m10 m11
      refine Res.inv_trap ?_
      assumption
    · rename_i m12 m13
      refine Got.andThen_inv _ _ ?_ ?_
      · refine State.plain_inv _ _ _ _ _ _ ?_
        assumption
      · intro y14
        intro y15
        intro y16
        refine vreadDone_inv _ _ _ _ _ _ _ ?_
        assumption
  · assumption

theorem execVstbit_inv : ∀ (r : RegIdx) (rs1 : RegIdx) (rs2 : RegIdx) (w : BitVec 5) (s : State), s.Inv → Safe (execVstbit r rs1 rs2 w s) := by
  intro r rs1 rs2 w s h_s
  unfold execVstbit
  refine safe_next ?_
  refine runHart_inv _ _ _ _ ?_ ?_
  · intro y1
    intro y2
    intro y3
    intro y4
    extract_lets v5 v6
    clear_value v5
    clear_value v6
    split
    · rename_i m7 m8 m9
      refine Res.inv_trap ?_
      assumption
    · rename_i m10 m11
      refine bitStore_inv _ _ _ _ ?_
      assumption
  · assumption

theorem execLdtag_inv : ∀ (r : RegIdx) (rs1 : RegIdx) (off : BitVec 7) (s : State), s.Inv → Safe (execLdtag r rs1 off s) := by
  intro r rs1 off s h_s
  unfold execLdtag
  refine safe_next ?_
  refine runHart_inv _ _ _ _ ?_ ?_
  · intro y1
    intro y2
    intro y3
    intro y4
    refine Got.andThen_inv _ _ ?_ ?_
    · refine State.plain_inv _ _ _ _ _ _ ?_
      assumption
    · intro y5
      intro y6
      intro y7
      refine setX_inv _ _ _ _ ?_
      assumption
  · assumption

theorem execSttag_inv : ∀ (r : RegIdx) (rs1 : RegIdx) (off : BitVec 7) (s : State), s.Inv → Safe (execSttag r rs1 off s) := by
  intro r rs1 off s h_s
  unfold execSttag
  refine safe_next ?_
  refine runHart_inv _ _ _ _ ?_ ?_
  · intro y1
    intro y2
    intro y3
    intro y4
    refine plainStore_inv _ _ _ _ _ ?_
    assumption
  · assumption

/-! ### Machine/Order.lean -/

theorem fenceRes_inv : ∀ (sc : Scope) (done : State → Res) (h : ℕ) (x : Hart) (s : State), (∀ (b0 : State), b0.Inv → (done b0).Inv) → s.Inv → (fenceRes sc done h x s).Inv := by
  intro sc done h x s h_done h_s
  unfold fenceRes
  split
  · rename_i m1 m2 m3
    refine Res.inv_wait ?_
    refine some_inv ?_ m3
    refine State.fenceGate_inv _ _ _ _ ?_
    assumption
  · rename_i m4 m5
    refine h_done _ ?_
    assumption

theorem execFenceS_inv : ∀ (sc : Scope) (s : State), s.Inv → Safe (execFenceS sc s) := by
  intro sc s h_s
  unfold execFenceS
  refine safe_next ?_
  refine runHart_inv _ _ _ _ ?_ ?_
  · intro y1
    intro y2
    intro y3
    intro y4
    refine fenceRes_inv _ _ _ _ _ ?_ ?_
    · intro y5
      intro y6
      refine Res.inv_ok ?_
      assumption
    · assumption
  · assumption

theorem execFence_inv : ∀ (fm : BitVec 4) (pred : BitVec 4) (succ : BitVec 4) (rd : RegIdx) (rs1 : RegIdx) (s : State), s.Inv → Safe (execFence fm pred succ rd rs1 s) := by
  intro fm pred succ rd rs1 s h_s
  unfold execFence
  refine safe_next ?_
  refine runHart_inv _ _ _ _ ?_ ?_
  · intro y1
    intro y2
    intro y3
    intro y4
    split
    · rename_i m5 m6 m7
      refine fenceRes_inv _ _ _ _ _ ?_ ?_
      · intro y8
        intro y9
        refine Res.inv_ok ?_
        assumption
      · assumption
    · rename_i m10 m11
      refine Res.inv_ok ?_
      assumption
  · assumption

theorem execFenceTso_inv : ∀ (rd : RegIdx) (rs1 : RegIdx) (s : State), s.Inv → Safe (execFenceTso rd rs1 s) := by
  intro rd rs1 s h_s
  unfold execFenceTso
  refine safe_next ?_
  refine runHart_inv _ _ _ _ ?_ ?_
  · intro y1
    intro y2
    intro y3
    intro y4
    refine fenceRes_inv _ _ _ _ _ ?_ ?_
    · intro y5
      intro y6
      refine Res.inv_ok ?_
      assumption
    · assumption
  · assumption

theorem execFenceI_inv : ∀ (imm : BitVec 12) (rd : RegIdx) (rs1 : RegIdx) (s : State), s.Inv → Safe (execFenceI imm rd rs1 s) := by
  intro imm rd rs1 s h_s
  unfold execFenceI
  refine safe_next ?_
  refine runHart_inv _ _ _ _ ?_ ?_
  · intro y1
    intro y2
    intro y3
    intro y4
    refine fenceRes_inv _ _ _ _ _ ?_ ?_
    · intro y5
      intro y6
      refine Res.inv_ok ?_
      refine State.modCore_inv _ _ _ ?_
      assumption
    · assumption
  · assumption

theorem execSfenceVma_inv : ∀ (rs1 : RegIdx) (rs2 : RegIdx) (s : State), s.Inv → Safe (execSfenceVma rs1 rs2 s) := by
  intro rs1 rs2 s h_s
  unfold execSfenceVma
  extract_lets v1 v2
  clear_value v1
  clear_value v2
  refine safe_next ?_
  refine ite_inv (fun _ => ?_) (fun _ => ?_)
  · refine runHart_inv _ _ _ _ ?_ ?_
    · intro y3
      intro y4
      intro y5
      intro y6
      refine Res.inv_trap ?_
      assumption
    · assumption
  · refine runHart_inv _ _ _ _ ?_ ?_
    · intro y3
      intro y4
      intro y5
      intro y6
      refine fenceRes_inv _ _ _ _ _ ?_ ?_
      · intro y7
        intro y8
        refine Res.inv_ok ?_
        assumption
      · assumption
    · assumption

theorem acquireRes_inv : ∀ (i : Instr) (k : LrxW) (rd : RegIdx) (rs1 : RegIdx) (h : ℕ) (x : Hart) (s : State), s.Inv → (acquireRes i k rd rs1 h x s).Inv := by
  intro i k rd rs1 h x s h_s
  unfold acquireRes
  extract_lets v1
  clear_value v1
  refine ite_resInv (fun _ => ?_) (fun _ => ?_)
  · refine Res.inv_trap ?_
    assumption
  · refine relaxedLoad_inv _ _ _ _ _ _ _ ?_
    assumption

theorem releaseRes_inv : ∀ (sc : Scope) (n : ℕ) (rs2 : RegIdx) (rs1 : RegIdx) (h : ℕ) (x : Hart) (s : State), s.Inv → (releaseRes sc n rs2 rs1 h x s).Inv := by
  intro sc n rs2 rs1 h x s h_s
  unfold releaseRes
  extract_lets v1
  rename_i v2 v3 v4
  clear_value v1
  clear_value v2
  clear_value v3
  clear_value v4
  refine ite_resInv (fun _ => ?_) (fun _ => ?_)
  · refine Res.inv_trap ?_
    assumption
  · refine ite_resInv (fun _ => ?_) (fun _ => ?_)
    · refine Res.inv_wait ?_
      assumption
    · refine Res.inv_ok ?_
      refine State.storeIssue_inv _ _ _ _ _ _ _ ?_
      refine State.drain_inv _ _ ?_
      assumption

theorem execLdAqB_inv : ∀ (sc : Scope) (rd : RegIdx) (rs1 : RegIdx) (s : State), s.Inv → Safe (execLdAqB sc rd rs1 s) := by
  intro sc rd rs1 s h_s
  unfold execLdAqB
  extract_lets v1
  clear_value v1
  refine safe_next ?_
  refine runHart_inv _ _ _ _ ?_ ?_
  · intro y2
    intro y3
    intro y4
    intro y5
    refine acquireRes_inv _ _ _ _ _ _ _ ?_
    assumption
  · assumption

theorem execLdAqH_inv : ∀ (sc : Scope) (rd : RegIdx) (rs1 : RegIdx) (s : State), s.Inv → Safe (execLdAqH sc rd rs1 s) := by
  intro sc rd rs1 s h_s
  unfold execLdAqH
  extract_lets v1
  clear_value v1
  refine safe_next ?_
  refine runHart_inv _ _ _ _ ?_ ?_
  · intro y2
    intro y3
    intro y4
    intro y5
    refine acquireRes_inv _ _ _ _ _ _ _ ?_
    assumption
  · assumption

theorem execLdAqW_inv : ∀ (sc : Scope) (rd : RegIdx) (rs1 : RegIdx) (s : State), s.Inv → Safe (execLdAqW sc rd rs1 s) := by
  intro sc rd rs1 s h_s
  unfold execLdAqW
  extract_lets v1
  clear_value v1
  refine safe_next ?_
  refine runHart_inv _ _ _ _ ?_ ?_
  · intro y2
    intro y3
    intro y4
    intro y5
    refine acquireRes_inv _ _ _ _ _ _ _ ?_
    assumption
  · assumption

theorem execLdAqD_inv : ∀ (sc : Scope) (rd : RegIdx) (rs1 : RegIdx) (s : State), s.Inv → Safe (execLdAqD sc rd rs1 s) := by
  intro sc rd rs1 s h_s
  unfold execLdAqD
  extract_lets v1
  clear_value v1
  refine safe_next ?_
  refine runHart_inv _ _ _ _ ?_ ?_
  · intro y2
    intro y3
    intro y4
    intro y5
    refine acquireRes_inv _ _ _ _ _ _ _ ?_
    assumption
  · assumption

theorem execStRlB_inv : ∀ (sc : Scope) (rs2 : RegIdx) (rs1 : RegIdx) (s : State), s.Inv → Safe (execStRlB sc rs2 rs1 s) := by
  intro sc rs2 rs1 s h_s
  unfold execStRlB
  refine safe_next ?_
  refine runHart_inv _ _ _ _ ?_ ?_
  · intro y1
    intro y2
    intro y3
    intro y4
    refine releaseRes_inv _ _ _ _ _ _ _ ?_
    assumption
  · assumption

theorem execStRlH_inv : ∀ (sc : Scope) (rs2 : RegIdx) (rs1 : RegIdx) (s : State), s.Inv → Safe (execStRlH sc rs2 rs1 s) := by
  intro sc rs2 rs1 s h_s
  unfold execStRlH
  refine safe_next ?_
  refine runHart_inv _ _ _ _ ?_ ?_
  · intro y1
    intro y2
    intro y3
    intro y4
    refine releaseRes_inv _ _ _ _ _ _ _ ?_
    assumption
  · assumption

theorem execStRlW_inv : ∀ (sc : Scope) (rs2 : RegIdx) (rs1 : RegIdx) (s : State), s.Inv → Safe (execStRlW sc rs2 rs1 s) := by
  intro sc rs2 rs1 s h_s
  unfold execStRlW
  refine safe_next ?_
  refine runHart_inv _ _ _ _ ?_ ?_
  · intro y1
    intro y2
    intro y3
    intro y4
    refine releaseRes_inv _ _ _ _ _ _ _ ?_
    assumption
  · assumption

theorem execStRlD_inv : ∀ (sc : Scope) (rs2 : RegIdx) (rs1 : RegIdx) (s : State), s.Inv → Safe (execStRlD sc rs2 rs1 s) := by
  intro sc rs2 rs1 s h_s
  unfold execStRlD
  refine safe_next ?_
  refine runHart_inv _ _ _ _ ?_ ?_
  · intro y1
    intro y2
    intro y3
    intro y4
    refine releaseRes_inv _ _ _ _ _ _ _ ?_
    assumption
  · assumption

/-! ### Machine/Bank.lean -/

theorem bankAddr_inv : ∀ (a : Word) (n : ℕ) (s : State), s.Inv → OptResInv (bankAddr a n s) := by
  intro a n s h_s
  unfold bankAddr
  refine ite_optResInv (fun _ => ?_) (fun _ => ?_)
  · refine optResInv_some ?_
    refine Res.inv_trap ?_
    assumption
  · refine ite_optResInv (fun _ => ?_) (fun _ => ?_)
    · refine optResInv_some ?_
      refine Res.inv_trap ?_
      assumption
    · exact optResInv_none

theorem State.countHome_inv : ∀ (s : State) (h : ℕ) (a : Word), s.Inv → (State.countHome s h a).Inv := by
  intro s h a h_s
  unfold State.countHome
  refine State.modHart_inv _ _ _ ?_
  assumption

theorem asyncCounted_inv : ∀ (s : State) (h : ℕ) (x : Hart) (a : Word) (rd : RegIdx) (fo : FormOp) (i : Issue), s.Inv → (asyncCounted s h x a rd fo i).Inv := by
  intro s h x a rd fo i h_s
  unfold asyncCounted
  split
  · rename_i m1 m2 m3
    refine Res.inv_ok ?_
    refine State.countHome_inv _ _ _ ?_
    refine resOk_inv ?_ m3
    refine asyncRes_inv _ _ _ _ _ _ _ ?_
    assumption
  · rename_i m4 m5
    refine asyncRes_inv _ _ _ _ _ _ _ ?_
    assumption

theorem bankRes_inv : ∀ (i : Instr) (sc : Scope) (rd : RegIdx) (rs1 : RegIdx) (n : ℕ) (how : FailHow) (kind : Hart → OpKind) (h : ℕ) (x : Hart) (s : State), s.Inv → (bankRes i sc rd rs1 n how kind h x s).Inv := by
  intro i sc rd rs1 n how kind h x s h_s
  unfold bankRes
  extract_lets v1
  clear_value v1
  split
  · rename_i m2 m3 m4
    refine someRes_inv ?_ m4
    refine bankAddr_inv _ _ _ ?_
    assumption
  · rename_i m5 m6
    refine asyncCounted_inv _ _ _ _ _ _ _ ?_
    assumption

theorem bankWord_inv : ∀ (i : Instr) (fn : BankFn) (dbl : Bool) (sc : Scope) (rd : RegIdx) (rs1 : RegIdx) (rs2 : RegIdx) (a7 : ℕ) (a8 : Hart) (a9 : State), a9.Inv → (bankWord i fn dbl sc rd rs1 rs2 a7 a8 a9).Inv := by
  intro i fn dbl sc rd rs1 rs2 a7 a8 a9 h_a9
  unfold bankWord
  refine bankRes_inv _ _ _ _ _ _ _ _ _ _ ?_
  assumption

theorem bankVred_inv : ∀ (i : Instr) (fn : VredFn) (sc : Scope) (rd : RegIdx) (rs1 : RegIdx) (vs2 : RegIdx) (a6 : ℕ) (a7 : Hart) (a8 : State), a8.Inv → (bankVred i fn sc rd rs1 vs2 a6 a7 a8).Inv := by
  intro i fn sc rd rs1 vs2 a6 a7 a8 h_a8
  unfold bankVred
  refine bankRes_inv _ _ _ _ _ _ _ _ _ _ ?_
  assumption

theorem queueRes_inv : ∀ (i : Instr) (sc : Scope) (rd : RegIdx) (rs1 : RegIdx) (kind : Hart → OpKind) (h : ℕ) (x : Hart) (s : State), s.Inv → (queueRes i sc rd rs1 kind h x s).Inv := by
  intro i sc rd rs1 kind h x s h_s
  unfold queueRes
  extract_lets v1
  clear_value v1
  refine ite_resInv (fun _ => ?_) (fun _ => ?_)
  · refine Res.inv_wait ?_
    assumption
  · split
    · rename_i m2 m3 m4 m5
      refine Res.inv_ok ?_
      refine ite_inv (fun _ => ?_) (fun _ => ?_)
      · refine State.opFail_inv _ _ _ _ _ _ ?_
        refine pair_inv ?_ m5
        refine State.opIssue_inv _ _ _ _ _ _ ?_
        refine State.countHome_inv _ _ _ ?_
        assumption
      · refine pair_inv ?_ m5
        refine State.opIssue_inv _ _ _ _ _ _ ?_
        refine State.countHome_inv _ _ _ ?_
        assumption

theorem execBaddW_inv : ∀ (sc : Scope) (rd : RegIdx) (rs1 : RegIdx) (rs2 : RegIdx) (s : State), s.Inv → Safe (execBaddW sc rd rs1 rs2 s) := by
  intro sc rd rs1 rs2 s h_s
  unfold execBaddW
  extract_lets v1
  clear_value v1
  refine safe_next ?_
  refine runHart_inv _ _ _ _ ?_ ?_
  · intro y2
    intro y3
    intro y4
    intro y5
    refine bankWord_inv _ _ _ _ _ _ _ _ _ _ ?_
    assumption
  · assumption

theorem execBaddD_inv : ∀ (sc : Scope) (rd : RegIdx) (rs1 : RegIdx) (rs2 : RegIdx) (s : State), s.Inv → Safe (execBaddD sc rd rs1 rs2 s) := by
  intro sc rd rs1 rs2 s h_s
  unfold execBaddD
  extract_lets v1
  clear_value v1
  refine safe_next ?_
  refine runHart_inv _ _ _ _ ?_ ?_
  · intro y2
    intro y3
    intro y4
    intro y5
    refine bankWord_inv _ _ _ _ _ _ _ _ _ _ ?_
    assumption
  · assumption

theorem execBfadd_inv : ∀ (sc : Scope) (rd : RegIdx) (rs1 : RegIdx) (rs2 : RegIdx) (s : State), s.Inv → Safe (execBfadd sc rd rs1 rs2 s) := by
  intro sc rd rs1 rs2 s h_s
  unfold execBfadd
  extract_lets v1
  clear_value v1
  refine safe_next ?_
  refine runHart_inv _ _ _ _ ?_ ?_
  · intro y2
    intro y3
    intro y4
    intro y5
    refine bankWord_inv _ _ _ _ _ _ _ _ _ _ ?_
    assumption
  · assumption

theorem execBminW_inv : ∀ (sc : Scope) (rd : RegIdx) (rs1 : RegIdx) (rs2 : RegIdx) (s : State), s.Inv → Safe (execBminW sc rd rs1 rs2 s) := by
  intro sc rd rs1 rs2 s h_s
  unfold execBminW
  extract_lets v1
  clear_value v1
  refine safe_next ?_
  refine runHart_inv _ _ _ _ ?_ ?_
  · intro y2
    intro y3
    intro y4
    intro y5
    refine bankWord_inv _ _ _ _ _ _ _ _ _ _ ?_
    assumption
  · assumption

theorem execBminD_inv : ∀ (sc : Scope) (rd : RegIdx) (rs1 : RegIdx) (rs2 : RegIdx) (s : State), s.Inv → Safe (execBminD sc rd rs1 rs2 s) := by
  intro sc rd rs1 rs2 s h_s
  unfold execBminD
  extract_lets v1
  clear_value v1
  refine safe_next ?_
  refine runHart_inv _ _ _ _ ?_ ?_
  · intro y2
    intro y3
    intro y4
    intro y5
    refine bankWord_inv _ _ _ _ _ _ _ _ _ _ ?_
    assumption
  · assumption

theorem execBminWu_inv : ∀ (sc : Scope) (rd : RegIdx) (rs1 : RegIdx) (rs2 : RegIdx) (s : State), s.Inv → Safe (execBminWu sc rd rs1 rs2 s) := by
  intro sc rd rs1 rs2 s h_s
  unfold execBminWu
  extract_lets v1
  clear_value v1
  refine safe_next ?_
  refine runHart_inv _ _ _ _ ?_ ?_
  · intro y2
    intro y3
    intro y4
    intro y5
    refine bankWord_inv _ _ _ _ _ _ _ _ _ _ ?_
    assumption
  · assumption

theorem execBminDu_inv : ∀ (sc : Scope) (rd : RegIdx) (rs1 : RegIdx) (rs2 : RegIdx) (s : State), s.Inv → Safe (execBminDu sc rd rs1 rs2 s) := by
  intro sc rd rs1 rs2 s h_s
  unfold execBminDu
  extract_lets v1
  clear_value v1
  refine safe_next ?_
  refine runHart_inv _ _ _ _ ?_ ?_
  · intro y2
    intro y3
    intro y4
    intro y5
    refine bankWord_inv _ _ _ _ _ _ _ _ _ _ ?_
    assumption
  · assumption

theorem execBmaxW_inv : ∀ (sc : Scope) (rd : RegIdx) (rs1 : RegIdx) (rs2 : RegIdx) (s : State), s.Inv → Safe (execBmaxW sc rd rs1 rs2 s) := by
  intro sc rd rs1 rs2 s h_s
  unfold execBmaxW
  extract_lets v1
  clear_value v1
  refine safe_next ?_
  refine runHart_inv _ _ _ _ ?_ ?_
  · intro y2
    intro y3
    intro y4
    intro y5
    refine bankWord_inv _ _ _ _ _ _ _ _ _ _ ?_
    assumption
  · assumption

theorem execBmaxD_inv : ∀ (sc : Scope) (rd : RegIdx) (rs1 : RegIdx) (rs2 : RegIdx) (s : State), s.Inv → Safe (execBmaxD sc rd rs1 rs2 s) := by
  intro sc rd rs1 rs2 s h_s
  unfold execBmaxD
  extract_lets v1
  clear_value v1
  refine safe_next ?_
  refine runHart_inv _ _ _ _ ?_ ?_
  · intro y2
    intro y3
    intro y4
    intro y5
    refine bankWord_inv _ _ _ _ _ _ _ _ _ _ ?_
    assumption
  · assumption

theorem execBmaxWu_inv : ∀ (sc : Scope) (rd : RegIdx) (rs1 : RegIdx) (rs2 : RegIdx) (s : State), s.Inv → Safe (execBmaxWu sc rd rs1 rs2 s) := by
  intro sc rd rs1 rs2 s h_s
  unfold execBmaxWu
  extract_lets v1
  clear_value v1
  refine safe_next ?_
  refine runHart_inv _ _ _ _ ?_ ?_
  · intro y2
    intro y3
    intro y4
    intro y5
    refine bankWord_inv _ _ _ _ _ _ _ _ _ _ ?_
    assumption
  · assumption

theorem execBmaxDu_inv : ∀ (sc : Scope) (rd : RegIdx) (rs1 : RegIdx) (rs2 : RegIdx) (s : State), s.Inv → Safe (execBmaxDu sc rd rs1 rs2 s) := by
  intro sc rd rs1 rs2 s h_s
  unfold execBmaxDu
  extract_lets v1
  clear_value v1
  refine safe_next ?_
  refine runHart_inv _ _ _ _ ?_ ?_
  · intro y2
    intro y3
    intro y4
    intro y5
    refine bankWord_inv _ _ _ _ _ _ _ _ _ _ ?_
    assumption
  · assumption

theorem execBfmin_inv : ∀ (sc : Scope) (rd : RegIdx) (rs1 : RegIdx) (rs2 : RegIdx) (s : State), s.Inv → Safe (execBfmin sc rd rs1 rs2 s) := by
  intro sc rd rs1 rs2 s h_s
  unfold execBfmin
  extract_lets v1
  clear_value v1
  refine safe_next ?_
  refine runHart_inv _ _ _ _ ?_ ?_
  · intro y2
    intro y3
    intro y4
    intro y5
    refine bankWord_inv _ _ _ _ _ _ _ _ _ _ ?_
    assumption
  · assumption

theorem execBfmax_inv : ∀ (sc : Scope) (rd : RegIdx) (rs1 : RegIdx) (rs2 : RegIdx) (s : State), s.Inv → Safe (execBfmax sc rd rs1 rs2 s) := by
  intro sc rd rs1 rs2 s h_s
  unfold execBfmax
  extract_lets v1
  clear_value v1
  refine safe_next ?_
  refine runHart_inv _ _ _ _ ?_ ?_
  · intro y2
    intro y3
    intro y4
    intro y5
    refine bankWord_inv _ _ _ _ _ _ _ _ _ _ ?_
    assumption
  · assumption

theorem execBxchgW_inv : ∀ (sc : Scope) (rd : RegIdx) (rs1 : RegIdx) (rs2 : RegIdx) (s : State), s.Inv → Safe (execBxchgW sc rd rs1 rs2 s) := by
  intro sc rd rs1 rs2 s h_s
  unfold execBxchgW
  extract_lets v1
  clear_value v1
  refine safe_next ?_
  refine runHart_inv _ _ _ _ ?_ ?_
  · intro y2
    intro y3
    intro y4
    intro y5
    refine bankWord_inv _ _ _ _ _ _ _ _ _ _ ?_
    assumption
  · assumption

theorem execBxchgD_inv : ∀ (sc : Scope) (rd : RegIdx) (rs1 : RegIdx) (rs2 : RegIdx) (s : State), s.Inv → Safe (execBxchgD sc rd rs1 rs2 s) := by
  intro sc rd rs1 rs2 s h_s
  unfold execBxchgD
  extract_lets v1
  clear_value v1
  refine safe_next ?_
  refine runHart_inv _ _ _ _ ?_ ?_
  · intro y2
    intro y3
    intro y4
    intro y5
    refine bankWord_inv _ _ _ _ _ _ _ _ _ _ ?_
    assumption
  · assumption

theorem execBcasW_inv : ∀ (sc : Scope) (rd : RegIdx) (rs1 : RegIdx) (rs2 : RegIdx) (s : State), s.Inv → Safe (execBcasW sc rd rs1 rs2 s) := by
  intro sc rd rs1 rs2 s h_s
  unfold execBcasW
  extract_lets v1
  clear_value v1
  refine safe_next ?_
  refine runHart_inv _ _ _ _ ?_ ?_
  · intro y2
    intro y3
    intro y4
    intro y5
    refine bankWord_inv _ _ _ _ _ _ _ _ _ _ ?_
    assumption
  · assumption

theorem execBcasD_inv : ∀ (sc : Scope) (rd : RegIdx) (rs1 : RegIdx) (rs2 : RegIdx) (s : State), s.Inv → Safe (execBcasD sc rd rs1 rs2 s) := by
  intro sc rd rs1 rs2 s h_s
  unfold execBcasD
  extract_lets v1
  clear_value v1
  refine safe_next ?_
  refine runHart_inv _ _ _ _ ?_ ?_
  · intro y2
    intro y3
    intro y4
    intro y5
    refine bankWord_inv _ _ _ _ _ _ _ _ _ _ ?_
    assumption
  · assumption

theorem execBvredAddI32_inv : ∀ (sc : Scope) (rd : RegIdx) (rs1 : RegIdx) (rs2 : RegIdx) (s : State), s.Inv → Safe (execBvredAddI32 sc rd rs1 rs2 s) := by
  intro sc rd rs1 rs2 s h_s
  unfold execBvredAddI32
  extract_lets v1
  clear_value v1
  refine safe_next ?_
  refine runHart_inv _ _ _ _ ?_ ?_
  · intro y2
    intro y3
    intro y4
    intro y5
    refine bankVred_inv _ _ _ _ _ _ _ _ _ ?_
    assumption
  · assumption

theorem execBvredAddF32_inv : ∀ (sc : Scope) (rd : RegIdx) (rs1 : RegIdx) (rs2 : RegIdx) (s : State), s.Inv → Safe (execBvredAddF32 sc rd rs1 rs2 s) := by
  intro sc rd rs1 rs2 s h_s
  unfold execBvredAddF32
  extract_lets v1
  clear_value v1
  refine safe_next ?_
  refine runHart_inv _ _ _ _ ?_ ?_
  · intro y2
    intro y3
    intro y4
    intro y5
    refine bankVred_inv _ _ _ _ _ _ _ _ _ ?_
    assumption
  · assumption

theorem execBvredMinI32_inv : ∀ (sc : Scope) (rd : RegIdx) (rs1 : RegIdx) (rs2 : RegIdx) (s : State), s.Inv → Safe (execBvredMinI32 sc rd rs1 rs2 s) := by
  intro sc rd rs1 rs2 s h_s
  unfold execBvredMinI32
  extract_lets v1
  clear_value v1
  refine safe_next ?_
  refine runHart_inv _ _ _ _ ?_ ?_
  · intro y2
    intro y3
    intro y4
    intro y5
    refine bankVred_inv _ _ _ _ _ _ _ _ _ ?_
    assumption
  · assumption

theorem execBvredMinF32_inv : ∀ (sc : Scope) (rd : RegIdx) (rs1 : RegIdx) (rs2 : RegIdx) (s : State), s.Inv → Safe (execBvredMinF32 sc rd rs1 rs2 s) := by
  intro sc rd rs1 rs2 s h_s
  unfold execBvredMinF32
  extract_lets v1
  clear_value v1
  refine safe_next ?_
  refine runHart_inv _ _ _ _ ?_ ?_
  · intro y2
    intro y3
    intro y4
    intro y5
    refine bankVred_inv _ _ _ _ _ _ _ _ _ ?_
    assumption
  · assumption

theorem execBvredMaxI32_inv : ∀ (sc : Scope) (rd : RegIdx) (rs1 : RegIdx) (rs2 : RegIdx) (s : State), s.Inv → Safe (execBvredMaxI32 sc rd rs1 rs2 s) := by
  intro sc rd rs1 rs2 s h_s
  unfold execBvredMaxI32
  extract_lets v1
  clear_value v1
  refine safe_next ?_
  refine runHart_inv _ _ _ _ ?_ ?_
  · intro y2
    intro y3
    intro y4
    intro y5
    refine bankVred_inv _ _ _ _ _ _ _ _ _ ?_
    assumption
  · assumption

theorem execBvredMaxF32_inv : ∀ (sc : Scope) (rd : RegIdx) (rs1 : RegIdx) (rs2 : RegIdx) (s : State), s.Inv → Safe (execBvredMaxF32 sc rd rs1 rs2 s) := by
  intro sc rd rs1 rs2 s h_s
  unfold execBvredMaxF32
  extract_lets v1
  clear_value v1
  refine safe_next ?_
  refine runHart_inv _ _ _ _ ?_ ?_
  · intro y2
    intro y3
    intro y4
    intro y5
    refine bankVred_inv _ _ _ _ _ _ _ _ _ ?_
    assumption
  · assumption

theorem execBqenq_inv : ∀ (sc : Scope) (rd : RegIdx) (rs1 : RegIdx) (rs2 : RegIdx) (s : State), s.Inv → Safe (execBqenq sc rd rs1 rs2 s) := by
  intro sc rd rs1 rs2 s h_s
  unfold execBqenq
  extract_lets v1
  clear_value v1
  refine safe_next ?_
  refine runHart_inv _ _ _ _ ?_ ?_
  · intro y2
    intro y3
    intro y4
    intro y5
    refine queueRes_inv _ _ _ _ _ _ _ _ ?_
    assumption
  · assumption

theorem execBqdeq_inv : ∀ (sc : Scope) (rd : RegIdx) (rs1 : RegIdx) (s : State), s.Inv → Safe (execBqdeq sc rd rs1 s) := by
  intro sc rd rs1 s h_s
  unfold execBqdeq
  extract_lets v1
  clear_value v1
  refine safe_next ?_
  refine runHart_inv _ _ _ _ ?_ ?_
  · intro y2
    intro y3
    intro y4
    intro y5
    refine queueRes_inv _ _ _ _ _ _ _ _ ?_
    assumption
  · assumption

theorem execBqlen_inv : ∀ (sc : Scope) (rd : RegIdx) (rs1 : RegIdx) (s : State), s.Inv → Safe (execBqlen sc rd rs1 s) := by
  intro sc rd rs1 s h_s
  unfold execBqlen
  extract_lets v1
  clear_value v1
  refine safe_next ?_
  refine runHart_inv _ _ _ _ ?_ ?_
  · intro y2
    intro y3
    intro y4
    intro y5
    refine queueRes_inv _ _ _ _ _ _ _ _ ?_
    assumption
  · assumption

/-! ### Machine/Barrier.lean -/

theorem State.barrierName_inv : ∀ (s : State) (x : Hart) (a : Word), s.Inv → OptResInv (State.barrierName s x a) := by
  intro s x a h_s
  unfold State.barrierName
  extract_lets v1
  clear_value v1
  refine ite_optResInv (fun _ => ?_) (fun _ => ?_)
  · exact optResInv_none
  · refine ite_optResInv (fun _ => ?_) (fun _ => ?_)
    · refine ite_optResInv (fun _ => ?_) (fun _ => ?_)
      · refine optResInv_some ?_
        refine Res.inv_trap ?_
        assumption
      · exact optResInv_none
    · refine bankAddr_inv _ _ _ ?_
      assumption

theorem arriveRes_inv : ∀ (i : Instr) (sc : Scope) (rd : RegIdx) (rs1 : RegIdx) (early : Bool) (opc : ℕ) (lanes : Hart → BitVec 64) (fmt : Hart → ℕ) (h : ℕ) (x : Hart) (s : State), s.Inv → (arriveRes i sc rd rs1 early opc lanes fmt h x s).Inv := by
  intro i sc rd rs1 early opc lanes fmt h x s h_s
  unfold arriveRes
  extract_lets v1
  clear_value v1
  split
  · rename_i m2 m3 m4
    refine someRes_inv ?_ m4
    refine State.barrierName_inv _ _ _ ?_
    assumption
  · rename_i m5 m6
    refine asyncRes_inv _ _ _ _ _ _ _ ?_
    assumption

theorem execBar_inv : ∀ (sc : Scope) (rd : RegIdx) (rs1 : RegIdx) (s : State), s.Inv → Safe (execBar sc rd rs1 s) := by
  intro sc rd rs1 s h_s
  unfold execBar
  extract_lets v1
  clear_value v1
  refine safe_next ?_
  refine runHart_inv _ _ _ _ ?_ ?_
  · intro y2
    intro y3
    intro y4
    intro y5
    refine arriveRes_inv _ _ _ _ _ _ _ _ _ _ _ ?_
    assumption
  · assumption

theorem execBarrive_inv : ∀ (sc : Scope) (rd : RegIdx) (rs1 : RegIdx) (s : State), s.Inv → Safe (execBarrive sc rd rs1 s) := by
  intro sc rd rs1 s h_s
  unfold execBarrive
  extract_lets v1
  clear_value v1
  refine safe_next ?_
  refine runHart_inv _ _ _ _ ?_ ?_
  · intro y2
    intro y3
    intro y4
    intro y5
    refine arriveRes_inv _ _ _ _ _ _ _ _ _ _ _ ?_
    assumption
  · assumption

theorem execBwait_inv : ∀ (rd : RegIdx) (rs1 : RegIdx) (s : State), s.Inv → Safe (execBwait rd rs1 s) := by
  intro rd rs1 s h_s
  unfold execBwait
  extract_lets v1
  clear_value v1
  refine safe_next ?_
  refine runHart_inv _ _ _ _ ?_ ?_
  · intro y2
    intro y3
    intro y4
    intro y5
    extract_lets v6
    clear_value v6
    split
    · rename_i m7 m8 m9
      refine someRes_inv ?_ m9
      refine State.barrierName_inv _ _ _ ?_
      assumption
    · rename_i m10 m11
      refine ite_resInv (fun _ => ?_) (fun _ => ?_)
      · refine asyncRes_inv _ _ _ _ _ _ _ ?_
        assumption
      · refine asyncCounted_inv _ _ _ _ _ _ _ ?_
        assumption
  · assumption

theorem execBarcSumI32_inv : ∀ (sc : Scope) (rd : RegIdx) (rs1 : RegIdx) (rs2 : RegIdx) (s : State), s.Inv → Safe (execBarcSumI32 sc rd rs1 rs2 s) := by
  intro sc rd rs1 rs2 s h_s
  unfold execBarcSumI32
  extract_lets v1
  clear_value v1
  refine safe_next ?_
  refine runHart_inv _ _ _ _ ?_ ?_
  · intro y2
    intro y3
    intro y4
    intro y5
    refine arriveRes_inv _ _ _ _ _ _ _ _ _ _ _ ?_
    assumption
  · assumption

theorem execBarcSumF32_inv : ∀ (sc : Scope) (rd : RegIdx) (rs1 : RegIdx) (rs2 : RegIdx) (s : State), s.Inv → Safe (execBarcSumF32 sc rd rs1 rs2 s) := by
  intro sc rd rs1 rs2 s h_s
  unfold execBarcSumF32
  extract_lets v1
  clear_value v1
  refine safe_next ?_
  refine runHart_inv _ _ _ _ ?_ ?_
  · intro y2
    intro y3
    intro y4
    intro y5
    refine arriveRes_inv _ _ _ _ _ _ _ _ _ _ _ ?_
    assumption
  · assumption

theorem execBarcMinI32_inv : ∀ (sc : Scope) (rd : RegIdx) (rs1 : RegIdx) (rs2 : RegIdx) (s : State), s.Inv → Safe (execBarcMinI32 sc rd rs1 rs2 s) := by
  intro sc rd rs1 rs2 s h_s
  unfold execBarcMinI32
  extract_lets v1
  clear_value v1
  refine safe_next ?_
  refine runHart_inv _ _ _ _ ?_ ?_
  · intro y2
    intro y3
    intro y4
    intro y5
    refine arriveRes_inv _ _ _ _ _ _ _ _ _ _ _ ?_
    assumption
  · assumption

theorem execBarcMinF32_inv : ∀ (sc : Scope) (rd : RegIdx) (rs1 : RegIdx) (rs2 : RegIdx) (s : State), s.Inv → Safe (execBarcMinF32 sc rd rs1 rs2 s) := by
  intro sc rd rs1 rs2 s h_s
  unfold execBarcMinF32
  extract_lets v1
  clear_value v1
  refine safe_next ?_
  refine runHart_inv _ _ _ _ ?_ ?_
  · intro y2
    intro y3
    intro y4
    intro y5
    refine arriveRes_inv _ _ _ _ _ _ _ _ _ _ _ ?_
    assumption
  · assumption

theorem execBarcMaxI32_inv : ∀ (sc : Scope) (rd : RegIdx) (rs1 : RegIdx) (rs2 : RegIdx) (s : State), s.Inv → Safe (execBarcMaxI32 sc rd rs1 rs2 s) := by
  intro sc rd rs1 rs2 s h_s
  unfold execBarcMaxI32
  extract_lets v1
  clear_value v1
  refine safe_next ?_
  refine runHart_inv _ _ _ _ ?_ ?_
  · intro y2
    intro y3
    intro y4
    intro y5
    refine arriveRes_inv _ _ _ _ _ _ _ _ _ _ _ ?_
    assumption
  · assumption

theorem execBarcMaxF32_inv : ∀ (sc : Scope) (rd : RegIdx) (rs1 : RegIdx) (rs2 : RegIdx) (s : State), s.Inv → Safe (execBarcMaxF32 sc rd rs1 rs2 s) := by
  intro sc rd rs1 rs2 s h_s
  unfold execBarcMaxF32
  extract_lets v1
  clear_value v1
  refine safe_next ?_
  refine runHart_inv _ _ _ _ ?_ ?_
  · intro y2
    intro y3
    intro y4
    intro y5
    refine arriveRes_inv _ _ _ _ _ _ _ _ _ _ _ ?_
    assumption
  · assumption

theorem execBarmax_inv : ∀ (sc : Scope) (rd : RegIdx) (rs1 : RegIdx) (rs2 : RegIdx) (s : State), s.Inv → Safe (execBarmax sc rd rs1 rs2 s) := by
  intro sc rd rs1 rs2 s h_s
  unfold execBarmax
  extract_lets v1
  clear_value v1
  refine safe_next ?_
  refine runHart_inv _ _ _ _ ?_ ?_
  · intro y2
    intro y3
    intro y4
    intro y5
    refine arriveRes_inv _ _ _ _ _ _ _ _ _ _ _ ?_
    assumption
  · assumption

/-! ### Machine/Future.lean -/

theorem execFwait_inv : ∀ (rs1 : RegIdx) (s : State), s.Inv → Safe (execFwait rs1 s) := by
  intro rs1 s h_s
  unfold execFwait
  refine safe_next ?_
  refine runHart_inv _ _ _ _ ?_ ?_
  · intro y1
    intro y2
    intro y3
    intro y4
    refine Res.inv_ok ?_
    assumption
  · assumption

theorem execFtest_inv : ∀ (rd : RegIdx) (rs1 : RegIdx) (s : State), s.Inv → Safe (execFtest rd rs1 s) := by
  intro rd rs1 s h_s
  unfold execFtest
  refine safe_next ?_
  refine runHart_inv _ _ _ _ ?_ ?_
  · intro y1
    intro y2
    intro y3
    intro y4
    refine ite_resInv (fun _ => ?_) (fun _ => ?_)
    · refine Res.inv_wait ?_
      assumption
    · refine setX_inv _ _ _ _ ?_
      assumption
  · assumption

theorem execFwaitall_inv : ∀ (rs1 : RegIdx) (s : State), s.Inv → Safe (execFwaitall rs1 s) := by
  intro rs1 s h_s
  unfold execFwaitall
  refine safe_next ?_
  refine runHart_inv _ _ _ _ ?_ ?_
  · intro y1
    intro y2
    intro y3
    intro y4
    extract_lets v5
    clear_value v5
    split
    · rename_i m6 m7 m8 m9
      extract_lets v10
      clear_value v10
      refine Res.inv_trap ?_
      refine State.modPair_inv _ _ _ ?_
      assumption
    · rename_i m11 m12
      split
      · rename_i m13 m14 m15
        extract_lets v16
        clear_value v16
        refine Res.inv_wait ?_
        assumption
      · rename_i m17 m18
        refine Res.inv_ok ?_
        assumption
  · assumption

theorem execFpass_inv : ∀ (rd : RegIdx) (rs1 : RegIdx) (s : State), s.Inv → Safe (execFpass rd rs1 s) := by
  intro rd rs1 s h_s
  unfold execFpass
  refine safe_next ?_
  refine runHart_inv _ _ _ _ ?_ ?_
  · intro y1
    intro y2
    intro y3
    intro y4
    refine ite_resInv (fun _ => ?_) (fun _ => ?_)
    · refine Res.inv_wait ?_
      assumption
    · refine Res.inv_ok ?_
      refine State.modHart_inv _ _ _ ?_
      assumption
  · assumption

theorem State.unwaitSend_inv : ∀ (s : State) (w : ℕ) (o : ℕ), s.Inv → (State.unwaitSend s w o).Inv := by
  intro s w o h_s
  unfold State.unwaitSend
  split
  · rename_i m1 m2
    assumption
  · rename_i m3 m4 m5 m6
    extract_lets v7 v8
    have hv7 : State.Inv v7 := by
      unfold v7
      refine State.modWindow_inv _ _ _ ?_
      assumption
    clear_value v7
    clear_value v8
    refine State.putConf_inv _ _ _ _ ?_
    assumption

theorem State.cancelOp_inv : ∀ (s : State) (o : ℕ), s.Inv → (State.cancelOp s o).Inv := by
  intro s o h_s
  unfold State.cancelOp
  split
  · rename_i m1 m2
    assumption
  · rename_i m3 m4 m5
    split
    · rename_i m6 m7
      refine ite_inv (fun _ => ?_) (fun _ => ?_)
      · refine inv_mk ?_
        refine inv_mem ?_
        assumption
      · assumption
    · rename_i m8 m9 m10 m11 m12 m13 m14
      refine ite_inv (fun _ => ?_) (fun _ => ?_)
      · split
        · rename_i m15 m16 m17 m18
          refine State.opDone_inv _ _ _ ?_
          refine State.unwaitSend_inv _ _ _ ?_
          assumption
        · rename_i m19 m20
          assumption
      · assumption
    · rename_i m21 m22
      extract_lets v23
      clear_value v23
      split
      · rename_i m15 m16
        refine State.opDone_inv _ _ _ ?_
        refine State.modPlinth_inv _ _ _ ?_
        assumption
      · rename_i m19
        assumption
    · rename_i m24 m25 m26 m27
      refine ite_inv (fun _ => ?_) (fun _ => ?_)
      · refine State.opDone_inv _ _ _ ?_
        assumption
      · assumption
    · rename_i m28 m29 m30 m31 m32
      assumption

theorem execFcancel_inv : ∀ (rs1 : RegIdx) (s : State), s.Inv → Safe (execFcancel rs1 s) := by
  intro rs1 s h_s
  unfold execFcancel
  refine safe_next ?_
  refine runHart_inv _ _ _ _ ?_ ?_
  · intro y1
    intro y2
    intro y3
    intro y4
    split
    · rename_i m5 m6 m7
      refine Res.inv_ok ?_
      refine State.cancelOp_inv _ _ ?_
      assumption
    · rename_i m8 m9
      refine Res.inv_ok ?_
      assumption
  · assumption

/-! ### Machine/Mailbox.lean -/

theorem sendRes_inv : ∀ (i : Instr) (sc : Scope) (rd : RegIdx) (rs1 : RegIdx) (kind : Word → Bool → Hart → OpKind) (h : ℕ) (x : Hart) (s : State), s.Inv → (sendRes i sc rd rs1 kind h x s).Inv := by
  intro i sc rd rs1 kind h x s h_s
  unfold sendRes
  extract_lets v1
  clear_value v1
  split
  · rename_i m2 m3
    refine Res.inv_trap ?_
    assumption
  · rename_i m4 m5 m6 m7
    refine asyncRes_inv _ _ _ _ _ _ _ ?_
    assumption

theorem execSend_inv : ∀ (sc : Scope) (rd : RegIdx) (rs1 : RegIdx) (rs2 : RegIdx) (s : State), s.Inv → Safe (execSend sc rd rs1 rs2 s) := by
  intro sc rd rs1 rs2 s h_s
  unfold execSend
  extract_lets v1
  clear_value v1
  refine safe_next ?_
  refine runHart_inv _ _ _ _ ?_ ?_
  · intro y2
    intro y3
    intro y4
    intro y5
    refine sendRes_inv _ _ _ _ _ _ _ _ ?_
    assumption
  · assumption

theorem execSendp_inv : ∀ (sc : Scope) (rd : RegIdx) (rs1 : RegIdx) (rs2 : RegIdx) (s : State), s.Inv → Safe (execSendp sc rd rs1 rs2 s) := by
  intro sc rd rs1 rs2 s h_s
  unfold execSendp
  extract_lets v1
  clear_value v1
  refine safe_next ?_
  refine runHart_inv _ _ _ _ ?_ ?_
  · intro y2
    intro y3
    intro y4
    intro y5
    refine sendRes_inv _ _ _ _ _ _ _ _ ?_
    assumption
  · assumption

theorem State.raiseC_inv : ∀ (s : State) (core : ℕ) (agent : ℕ) (c : ℕ), s.Inv → (State.raiseC s core agent c).Inv := by
  intro s core agent c h_s
  unfold State.raiseC
  refine State.modCore_inv _ _ _ ?_
  assumption

theorem State.takeMsg_inv : ∀ (s : State) (h : ℕ) (x : Hart) (rd : RegIdx) (w : ℕ) (m : ℕ), s.Inv → (State.takeMsg s h x rd w m).Inv := by
  intro s h x rd w m h_s
  unfold State.takeMsg
  extract_lets v1 v2 v3 v4
  clear_value v1
  clear_value v2
  clear_value v3
  have hv4 : State.Inv v4 := by
    unfold v4
    refine State.putConf_inv _ _ _ _ ?_
    assumption
  clear_value v4
  refine State.modHart_inv _ _ _ ?_
  refine State.raiseC_inv _ _ _ _ ?_
  assumption

theorem recvRes_inv : ∀ (rd : RegIdx) (rs1 : RegIdx) (limit : Option ℕ) (h : ℕ) (x : Hart) (s : State), s.Inv → (recvRes rd rs1 limit h x s).Inv := by
  intro rd rs1 limit h x s h_s
  unfold recvRes
  extract_lets v1 v2 v3 v4 v5
  clear_value v1
  have hv2 : State.Inv v2 := by
    unfold v2
    refine State.modHart_inv _ _ _ ?_
    refine State.freeSlot_inv _ _ _ ?_
    assumption
  clear_value v2
  clear_value v3
  clear_value v5
  refine ite_resInv (fun _ => ?_) (fun _ => ?_)
  · simp only [v4]
    refine Res.inv_ok ?_
    refine State.modHart_inv _ _ _ ?_
    assumption
  · split
    · rename_i m6 m7 m8
      refine Res.inv_ok ?_
      refine State.takeMsg_inv _ _ _ _ _ _ ?_
      assumption
    · rename_i m9 m10
      split
      · rename_i m11
        refine Res.inv_wait ?_
        assumption
      · rename_i m12 m13
        extract_lets v14
        clear_value v14
        refine ite_resInv (fun _ => ?_) (fun _ => ?_)
        · simp only [v4]
          refine Res.inv_ok ?_
          refine State.modHart_inv _ _ _ ?_
          assumption
        · refine Res.inv_wait ?_
          refine State.modHart_inv _ _ _ ?_
          assumption

theorem execRecv_inv : ∀ (rd : RegIdx) (rs1 : RegIdx) (s : State), s.Inv → Safe (execRecv rd rs1 s) := by
  intro rd rs1 s h_s
  unfold execRecv
  refine safe_next ?_
  refine runHart_inv _ _ _ _ ?_ ?_
  · intro y1
    intro y2
    intro y3
    intro y4
    refine recvRes_inv _ _ _ _ _ _ ?_
    assumption
  · assumption

theorem execRecvt_inv : ∀ (rd : RegIdx) (rs1 : RegIdx) (rs2 : RegIdx) (s : State), s.Inv → Safe (execRecvt rd rs1 rs2 s) := by
  intro rd rs1 rs2 s h_s
  unfold execRecvt
  refine safe_next ?_
  refine runHart_inv _ _ _ _ ?_ ?_
  · intro y1
    intro y2
    intro y3
    intro y4
    refine recvRes_inv _ _ _ _ _ _ ?_
    assumption
  · assumption

theorem execMbcfg_inv : ∀ (rs2 : RegIdx) (rs1 : RegIdx) (s : State), s.Inv → Safe (execMbcfg rs2 rs1 s) := by
  intro rs2 rs1 s h_s
  unfold execMbcfg
  refine safe_next ?_
  refine runHart_inv _ _ _ _ ?_ ?_
  · intro y1
    intro y2
    intro y3
    intro y4
    extract_lets v5
    rename_i v6
    clear_value v5
    clear_value v6
    split
    · rename_i m7 m8
      refine Res.inv_trap ?_
      assumption
    · rename_i m9 m10 m11
      refine ite_resInv (fun _ => ?_) (fun _ => ?_)
      · refine Res.inv_wait ?_
        assumption
      · refine Res.inv_ok ?_
        refine State.putConf_inv _ _ _ _ ?_
        assumption
  · assumption

theorem execMbpeek_inv : ∀ (rd : RegIdx) (rs1 : RegIdx) (s : State), s.Inv → Safe (execMbpeek rd rs1 s) := by
  intro rd rs1 s h_s
  unfold execMbpeek
  refine safe_next ?_
  refine runHart_inv _ _ _ _ ?_ ?_
  · intro y1
    intro y2
    intro y3
    intro y4
    extract_lets v5
    clear_value v5
    split
    · rename_i m6 m7
      refine Res.inv_trap ?_
      assumption
    · rename_i m8 m9 m10
      refine ite_resInv (fun _ => ?_) (fun _ => ?_)
      · refine Res.inv_wait ?_
        assumption
      · refine ite_resInv (fun _ => ?_) (fun _ => ?_)
        · extract_lets v11
          clear_value v11
          refine setX_inv _ _ _ _ ?_
          refine State.raiseC_inv _ _ _ _ ?_
          assumption
        · refine setX_inv _ _ _ _ ?_
          assumption
  · assumption

/-! ### Machine/Copy.lean -/

theorem State.modEngine_inv : ∀ (s : State) (e : ℕ) (f : List CopyCmd → List CopyCmd), s.Inv → (State.modEngine s e f).Inv := by
  intro s e f h_s
  unfold State.modEngine
  refine inv_mk ?_
  refine inv_mem ?_
  assumption

theorem engineRes_inv : ∀ (i : Instr) (rd : RegIdx) (what : CopyWhat) (gated : Bool) (lines : List Word) (h : ℕ) (x : Hart) (s : State), s.Inv → (engineRes i rd what gated lines h x s).Inv := by
  intro i rd what gated lines h x s h_s
  unfold engineRes
  extract_lets v1
  rename_i v2
  clear_value v1
  clear_value v2
  refine ite_resInv (fun _ => ?_) (fun _ => ?_)
  · refine Res.inv_wait ?_
    assumption
  · split
    · rename_i m3 m4 m5 m6
      refine Res.inv_ok ?_
      refine State.modEngine_inv _ _ _ ?_
      refine pair_inv ?_ m6
      refine State.opIssue_inv _ _ _ _ _ _ ?_
      assumption

theorem execCpy_inv : ∀ (rd : RegIdx) (rs1 : RegIdx) (s : State), s.Inv → Safe (execCpy rd rs1 s) := by
  intro rd rs1 s h_s
  unfold execCpy
  extract_lets v1
  clear_value v1
  refine safe_next ?_
  refine runHart_inv _ _ _ _ ?_ ?_
  · intro y2
    intro y3
    intro y4
    intro y5
    extract_lets v6
    clear_value v6
    refine ite_resInv (fun _ => ?_) (fun _ => ?_)
    · refine Res.inv_trap ?_
      assumption
    · refine engineRes_inv _ _ _ _ _ _ _ _ ?_
      assumption
  · assumption

theorem execCpyd_inv : ∀ (rd : RegIdx) (rs1 : RegIdx) (rs2 : RegIdx) (n : BitVec 32) (s : State), s.Inv → Safe (execCpyd rd rs1 rs2 n s) := by
  intro rd rs1 rs2 n s h_s
  unfold execCpyd
  extract_lets v1
  clear_value v1
  refine safe_next ?_
  refine runHart_inv _ _ _ _ ?_ ?_
  · intro y2
    intro y3
    intro y4
    intro y5
    refine engineRes_inv _ _ _ _ _ _ _ _ ?_
    assumption
  · assumption

theorem execCpyk_inv : ∀ (rd : RegIdx) (rs1 : RegIdx) (rs2 : RegIdx) (s : State), s.Inv → Safe (execCpyk rd rs1 rs2 s) := by
  intro rd rs1 rs2 s h_s
  unfold execCpyk
  extract_lets v1
  clear_value v1
  refine safe_next ?_
  refine runHart_inv _ _ _ _ ?_ ?_
  · intro y2
    intro y3
    intro y4
    intro y5
    extract_lets v6 v7
    clear_value v6
    clear_value v7
    refine ite_resInv (fun _ => ?_) (fun _ => ?_)
    · refine Res.inv_trap ?_
      assumption
    · refine ite_resInv (fun _ => ?_) (fun _ => ?_)
      · refine Res.inv_trap ?_
        assumption
      · refine asyncRes_inv _ _ _ _ _ _ _ ?_
        assumption
  · assumption

theorem execPref_inv : ∀ (rd : RegIdx) (rs1 : RegIdx) (n : BitVec 32) (s : State), s.Inv → Safe (execPref rd rs1 n s) := by
  intro rd rs1 n s h_s
  unfold execPref
  extract_lets v1
  clear_value v1
  refine safe_next ?_
  refine runHart_inv _ _ _ _ ?_ ?_
  · intro y2
    intro y3
    intro y4
    intro y5
    refine engineRes_inv _ _ _ _ _ _ _ _ ?_
    assumption
  · assumption

theorem execLaunch_inv : ∀ (rd : RegIdx) (rs1 : RegIdx) (q : BitVec 4) (s : State), s.Inv → Safe (execLaunch rd rs1 q s) := by
  intro rd rs1 q s h_s
  unfold execLaunch
  extract_lets v1
  clear_value v1
  refine safe_next ?_
  refine runHart_inv _ _ _ _ ?_ ?_
  · intro y2
    intro y3
    intro y4
    intro y5
    extract_lets v6
    clear_value v6
    refine ite_resInv (fun _ => ?_) (fun _ => ?_)
    · refine Res.inv_trap ?_
      assumption
    · refine asyncRes_inv _ _ _ _ _ _ _ ?_
      assumption
  · assumption

/-! ### Machine/PlinthOps.lean -/

theorem State.tileIssue_inv : ∀ (s : State) (h : ℕ) (x : Hart) (g : Group) (i : Instr) (what : TileWhat) (na : ℕ) (nb : ℕ) (op : Option ℕ), s.Inv → (State.tileIssue s h x g i what na nb op).Inv := by
  intro s h x g i what na nb op h_s
  unfold State.tileIssue
  extract_lets v1
  rename_i v2 v3
  clear_value v1
  clear_value v2
  clear_value v3
  split
  · rename_i m4 m5 m6 m7
    extract_lets v8
    clear_value v8
    refine State.modGroup_inv _ _ _ ?_
    refine State.modPlinth_inv _ _ _ ?_
    refine State.drain_inv _ _ ?_
    refine pair_inv ?_ m7
    refine State.fresh_inv _ ?_
    assumption

theorem tileRes_inv : ∀ (i : Instr) (what : TileWhat) (h : ℕ) (x : Hart) (s : State), s.Inv → (tileRes i what h x s).Inv := by
  intro i what h x s h_s
  unfold tileRes
  split
  · rename_i m1 m2
    refine Res.inv_ok ?_
    assumption
  · rename_i m3 m4 m5
    refine ite_resInv (fun _ => ?_) (fun _ => ?_)
    · refine Res.inv_trap ?_
      assumption
    · refine ite_resInv (fun _ => ?_) (fun _ => ?_)
      · refine Res.inv_wait ?_
        assumption
      · refine Res.inv_ok ?_
        refine State.tileIssue_inv _ _ _ _ _ _ _ _ _ ?_
        assumption

theorem tileFuture_inv : ∀ (i : Instr) (rd : RegIdx) (how : FailHow) (what : TileWhat) (na : ℕ) (nb : ℕ) (h : ℕ) (x : Hart) (g : Group) (s : State), s.Inv → (tileFuture i rd how what na nb h x g s).Inv := by
  intro i rd how what na nb h x g s h_s
  unfold tileFuture
  refine ite_resInv (fun _ => ?_) (fun _ => ?_)
  · refine Res.inv_wait ?_
    assumption
  · split
    · rename_i m1 m2 m3 m4
      refine Res.inv_ok ?_
      refine State.tileIssue_inv _ _ _ _ _ _ _ _ _ ?_
      refine pair_inv ?_ m4
      refine State.opIssue_inv _ _ _ _ _ _ ?_
      assumption

theorem tileMem_inv : ∀ (i : Instr) (how : FailHow) (rd : RegIdx) (rs1 : RegIdx) (cause : ℕ) (what : TileWhat) (h : ℕ) (x : Hart) (s : State), s.Inv → (tileMem i how rd rs1 cause what h x s).Inv := by
  intro i how rd rs1 cause what h x s h_s
  unfold tileMem
  split
  · rename_i m1 m2
    refine Res.inv_ok ?_
    assumption
  · rename_i m3 m4 m5
    extract_lets v6
    clear_value v6
    refine ite_resInv (fun _ => ?_) (fun _ => ?_)
    · refine Res.inv_trap ?_
      assumption
    · refine ite_resInv (fun _ => ?_) (fun _ => ?_)
      · refine Res.inv_trap ?_
        assumption
      · refine tileFuture_inv _ _ _ _ _ _ _ _ _ _ ?_
        assumption

theorem execTlease_inv : ∀ (rd : RegIdx) (s : State), s.Inv → Safe (execTlease rd s) := by
  intro rd s h_s
  unfold execTlease
  extract_lets v1
  clear_value v1
  refine safe_next ?_
  refine runHart_inv _ _ _ _ ?_ ?_
  · intro y2
    intro y3
    intro y4
    intro y5
    split
    · rename_i m6 m7
      refine Res.inv_ok ?_
      assumption
    · rename_i m8 m9 m10
      refine ite_resInv (fun _ => ?_) (fun _ => ?_)
      · refine Res.inv_wait ?_
        assumption
      · extract_lets v11
        clear_value v11
        split
        · rename_i m12 m13 m14 m15
          refine ite_resInv (fun _ => ?_) (fun _ => ?_)
          · refine Res.inv_ok ?_
            refine State.opDone_inv _ _ _ ?_
            refine pair_inv ?_ m15
            refine State.opIssue_inv _ _ _ _ _ _ ?_
            assumption
          · refine ite_resInv (fun _ => ?_) (fun _ => ?_)
            · refine Res.inv_ok ?_
              refine State.modPlinth_inv _ _ _ ?_
              refine State.modOp_inv _ _ _ ?_
              refine pair_inv ?_ m15
              refine State.opIssue_inv _ _ _ _ _ _ ?_
              assumption
            · extract_lets v16 v17
              have hv16 : State.Inv v16 := by
                unfold v16
                refine State.modGroup_inv _ _ _ ?_
                refine State.modOp_inv _ _ _ ?_
                refine pair_inv ?_ m15
                refine State.opIssue_inv _ _ _ _ _ _ ?_
                assumption
              clear_value v16
              have hv17 : State.Inv v17 := by
                unfold v17
                refine State.modPlinth_inv _ _ _ ?_
                assumption
              clear_value v17
              refine Res.inv_ok ?_
              refine State.wakePlinth_inv _ _ ?_
              assumption
  · assumption

theorem execTrelease_inv : ∀ (s : State), s.Inv → Safe (execTrelease s) := by
  intro s h_s
  unfold execTrelease
  extract_lets v1
  clear_value v1
  refine safe_next ?_
  refine runHart_inv _ _ _ _ ?_ ?_
  · intro y2
    intro y3
    intro y4
    intro y5
    split
    · rename_i m6 m7
      refine Res.inv_ok ?_
      assumption
    · rename_i m8 m9 m10
      refine ite_resInv (fun _ => ?_) (fun _ => ?_)
      · refine Res.inv_wait ?_
        assumption
      · refine ite_resInv (fun _ => ?_) (fun _ => ?_)
        · refine Res.inv_ok ?_
          refine State.tryRelease_inv _ _ ?_
          refine State.tileIssue_inv _ _ _ _ _ _ _ _ _ ?_
          assumption
        · refine Res.inv_ok ?_
          assumption
  · assumption

theorem execTcfg_inv : ∀ (width : BitVec 2) (int : Bool) (plog2 : BitVec 3) (tra : Bool) (chk : Bool) (s : State), s.Inv → Safe (execTcfg width int plog2 tra chk s) := by
  intro width int plog2 tra chk s h_s
  unfold execTcfg
  extract_lets v1
  clear_value v1
  refine safe_next ?_
  refine runHart_inv _ _ _ _ ?_ ?_
  · intro y2
    intro y3
    intro y4
    intro y5
    refine tileRes_inv _ _ _ _ _ ?_
    assumption
  · assumption

theorem State.setRing_inv : ∀ (s : State) (w : ℕ) (n : ℕ) (base : Word) (lines : ℕ), s.Inv → (State.setRing s w n base lines).Inv := by
  intro s w n base lines h_s
  unfold State.setRing
  refine State.modWindow_inv _ _ _ ?_
  assumption

theorem execTring_inv : ∀ (ring : BitVec 3) (rs1 : RegIdx) (rs2 : RegIdx) (s : State), s.Inv → Safe (execTring ring rs1 rs2 s) := by
  intro ring rs1 rs2 s h_s
  unfold execTring
  extract_lets v1
  clear_value v1
  refine safe_next ?_
  refine runHart_inv _ _ _ _ ?_ ?_
  · intro y2
    intro y3
    intro y4
    intro y5
    extract_lets v6 v7 v8
    rename_i v9 v10 v11
    clear_value v6
    clear_value v7
    clear_value v8
    clear_value v9
    clear_value v10
    clear_value v11
    refine ite_resInv (fun _ => ?_) (fun _ => ?_)
    · refine Res.inv_trap ?_
      assumption
    · refine ite_resInv (fun _ => ?_) (fun _ => ?_)
      · refine Res.inv_trap ?_
        assumption
      · refine ite_resInv (fun _ => ?_) (fun _ => ?_)
        · refine Res.inv_trap ?_
          assumption
        · refine ite_resInv (fun _ => ?_) (fun _ => ?_)
          · refine Res.inv_wait ?_
            assumption
          · refine ite_resInv (fun _ => ?_) (fun _ => ?_)
            · refine Res.inv_ok ?_
              refine State.setRing_inv _ _ _ _ _ ?_
              assumption
            · split
              · rename_i m12 m13 m14 m15
                refine Res.inv_ok ?_
                refine inv_mk ?_
                refine inv_mem ?_
                refine pair_inv ?_ m15
                refine State.fresh_inv _ ?_
                assumption
  · assumption

theorem execRadv_inv : ∀ (ring : BitVec 3) (rs1 : RegIdx) (s : State), s.Inv → Safe (execRadv ring rs1 s) := by
  intro ring rs1 s h_s
  unfold execRadv
  extract_lets v1
  rename_i v2
  clear_value v1
  clear_value v2
  refine safe_next ?_
  refine runHart_inv _ _ _ _ ?_ ?_
  · intro y3
    intro y4
    intro y5
    intro y6
    extract_lets v7 v8 v9 v10
    rename_i v11
    clear_value v7
    clear_value v8
    clear_value v9
    clear_value v10
    clear_value v11
    refine ite_resInv (fun _ => ?_) (fun _ => ?_)
    · refine Res.inv_trap ?_
      assumption
    · refine ite_resInv (fun _ => ?_) (fun _ => ?_)
      · refine Res.inv_trap ?_
        assumption
      · refine ite_resInv (fun _ => ?_) (fun _ => ?_)
        · refine Res.inv_wait ?_
          assumption
        · refine ite_resInv (fun _ => ?_) (fun _ => ?_)
          · refine Res.inv_wait ?_
            assumption
          · split
            · rename_i m12 m13 m14
              refine Res.inv_wait ?_
              refine some_inv ?_ m14
              refine State.fenceGate_inv _ _ _ _ ?_
              assumption
            · rename_i m15 m16
              refine ite_resInv (fun _ => ?_) (fun _ => ?_)
              · refine Res.inv_ok ?_
                refine State.modWindow_inv _ _ _ ?_
                assumption
              · refine Res.inv_wait ?_
                assumption
  · assumption

theorem execTzero_inv : ∀ (acc : BitVec 2) (s : State), s.Inv → Safe (execTzero acc s) := by
  intro acc s h_s
  unfold execTzero
  extract_lets v1
  clear_value v1
  refine safe_next ?_
  refine runHart_inv _ _ _ _ ?_ ?_
  · intro y2
    intro y3
    intro y4
    intro y5
    refine tileRes_inv _ _ _ _ _ ?_
    assumption
  · assumption

theorem mmaRes_inv : ∀ (i : Instr) (kmajor : Bool) (rd : RegIdx) (acc : BitVec 2) (ar : BitVec 3) (br : BitVec 3) (passes1 : BitVec 4) (h : ℕ) (x : Hart) (s : State), s.Inv → (mmaRes i kmajor rd acc ar br passes1 h x s).Inv := by
  intro i kmajor rd acc ar br passes1 h x s h_s
  unfold mmaRes
  split
  · rename_i m1 m2
    refine Res.inv_ok ?_
    assumption
  · rename_i m3 m4 m5
    extract_lets v6 v7 v8 v9 v10 v11
    clear_value v6
    clear_value v7
    clear_value v8
    clear_value v9
    clear_value v10
    clear_value v11
    refine ite_resInv (fun _ => ?_) (fun _ => ?_)
    · refine Res.inv_trap ?_
      assumption
    · refine ite_resInv (fun _ => ?_) (fun _ => ?_)
      · refine Res.inv_trap ?_
        assumption
      · refine ite_resInv (fun _ => ?_) (fun _ => ?_)
        · refine Res.inv_trap ?_
          assumption
        · refine ite_resInv (fun _ => ?_) (fun _ => ?_)
          · refine Res.inv_trap ?_
            assumption
          · refine tileFuture_inv _ _ _ _ _ _ _ _ _ _ ?_
            assumption

theorem execTmma_inv : ∀ (rd : RegIdx) (acc : BitVec 2) (ar : BitVec 3) (br : BitVec 3) (passes1 : BitVec 4) (s : State), s.Inv → Safe (execTmma rd acc ar br passes1 s) := by
  intro rd acc ar br passes1 s h_s
  unfold execTmma
  extract_lets v1
  clear_value v1
  refine safe_next ?_
  refine runHart_inv _ _ _ _ ?_ ?_
  · intro y2
    intro y3
    intro y4
    intro y5
    refine mmaRes_inv _ _ _ _ _ _ _ _ _ _ ?_
    assumption
  · assumption

theorem execTmmat_inv : ∀ (rd : RegIdx) (acc : BitVec 2) (ar : BitVec 3) (br : BitVec 3) (passes1 : BitVec 4) (s : State), s.Inv → Safe (execTmmat rd acc ar br passes1 s) := by
  intro rd acc ar br passes1 s h_s
  unfold execTmmat
  extract_lets v1
  clear_value v1
  refine safe_next ?_
  refine runHart_inv _ _ _ _ ?_ ?_
  · intro y2
    intro y3
    intro y4
    intro y5
    refine mmaRes_inv _ _ _ _ _ _ _ _ _ _ ?_
    assumption
  · assumption

theorem execTldc_inv : ∀ (acc : BitVec 2) (ef : BitVec 5) (rs1 : RegIdx) (s : State), s.Inv → Safe (execTldc acc ef rs1 s) := by
  intro acc ef rs1 s h_s
  unfold execTldc
  extract_lets v1
  clear_value v1
  refine safe_next ?_
  refine runHart_inv _ _ _ _ ?_ ?_
  · intro y2
    intro y3
    intro y4
    intro y5
    extract_lets v6
    clear_value v6
    refine ite_resInv (fun _ => ?_) (fun _ => ?_)
    · refine Res.inv_trap ?_
      assumption
    · refine ite_resInv (fun _ => ?_) (fun _ => ?_)
      · refine Res.inv_trap ?_
        assumption
      · refine tileRes_inv _ _ _ _ _ ?_
        assumption
  · assumption

theorem execTstc_inv : ∀ (rd : RegIdx) (acc : BitVec 2) (ef : BitVec 5) (sat : Bool) (scale : Bool) (rs1 : RegIdx) (rs2 : RegIdx) (s : State), s.Inv → Safe (execTstc rd acc ef sat scale rs1 rs2 s) := by
  intro rd acc ef sat scale rs1 rs2 s h_s
  unfold execTstc
  extract_lets v1 v2
  clear_value v1
  clear_value v2
  refine safe_next ?_
  refine runHart_inv _ _ _ _ ?_ ?_
  · intro y3
    intro y4
    intro y5
    intro y6
    extract_lets v7
    clear_value v7
    refine tileMem_inv _ _ _ _ _ _ _ _ _ ?_
    assumption
  · assumption

theorem execTstat_inv : ∀ (rd : RegIdx) (s : State), s.Inv → Safe (execTstat rd s) := by
  intro rd s h_s
  unfold execTstat
  extract_lets v1
  clear_value v1
  refine safe_next ?_
  refine runHart_inv _ _ _ _ ?_ ?_
  · intro y2
    intro y3
    intro y4
    intro y5
    split
    · rename_i m6 m7
      refine Res.inv_ok ?_
      assumption
    · rename_i m8 m9 m10
      refine tileFuture_inv _ _ _ _ _ _ _ _ _ _ ?_
      assumption
  · assumption

theorem execTsave_inv : ∀ (rd : RegIdx) (acc : BitVec 2) (rs1 : RegIdx) (s : State), s.Inv → Safe (execTsave rd acc rs1 s) := by
  intro rd acc rs1 s h_s
  unfold execTsave
  extract_lets v1
  clear_value v1
  refine safe_next ?_
  refine runHart_inv _ _ _ _ ?_ ?_
  · intro y2
    intro y3
    intro y4
    intro y5
    refine tileMem_inv _ _ _ _ _ _ _ _ _ ?_
    assumption
  · assumption

theorem execTload_inv : ∀ (rd : RegIdx) (acc : BitVec 2) (rs1 : RegIdx) (s : State), s.Inv → Safe (execTload rd acc rs1 s) := by
  intro rd acc rs1 s h_s
  unfold execTload
  extract_lets v1
  clear_value v1
  refine safe_next ?_
  refine runHart_inv _ _ _ _ ?_ ?_
  · intro y2
    intro y3
    intro y4
    intro y5
    refine tileMem_inv _ _ _ _ _ _ _ _ _ ?_
    assumption
  · assumption

/-! ### Machine/Chisel.lean -/

theorem State.unitTake_inv : ∀ (s : State) (core : ℕ) (waits : Option ℕ) (cost : ℕ), s.Inv → (State.unitTake s core waits cost).Inv := by
  intro s core waits cost h_s
  unfold State.unitTake
  refine State.modCore_inv _ _ _ ?_
  assumption

theorem unitWait_inv : ∀ (s : State) (h : ℕ) (x : Hart), s.Inv → (unitWait s h x).Inv := by
  intro s h x h_s
  unfold unitWait
  extract_lets v1
  clear_value v1
  refine Res.inv_wait ?_
  refine State.modCore_inv _ _ _ ?_
  assumption

theorem unitRes_inv : ∀ (s : State) (h : ℕ) (x : Hart) (cost : ℕ) (f : Chisel → Chisel), s.Inv → (unitRes s h x cost f).Inv := by
  intro s h x cost f h_s
  unfold unitRes
  refine ite_resInv (fun _ => ?_) (fun _ => ?_)
  · refine Res.inv_ok ?_
    refine State.modHart_inv _ _ _ ?_
    refine State.unitTake_inv _ _ _ _ ?_
    assumption
  · refine unitWait_inv _ _ _ ?_
    assumption

theorem State.readRecord_inv : ∀ (s : State) (h : ℕ) (x : Hart) (a : Word), s.Inv → (State.readRecord s h x a).Inv := by
  intro s h x a h_s
  unfold State.readRecord
  extract_lets v1
  rename_i v2 v3
  clear_value v1
  clear_value v2
  clear_value v3
  split
  · rename_i m4 m5 m6
    refine Got.inv_wait ?_
    refine some_inv ?_ m6
    refine ite_optInv (fun _ => ?_) (fun _ => ?_)
    · refine State.plainGate_inv _ _ _ ?_
      assumption
    · exact optInv_none
  · rename_i m7 m8
    split
    · rename_i m9 m10
      refine Got.inv_done ?_
      refine State.modHart_inv _ _ _ ?_
      refine State.countAccess_inv _ _ _ ?_
      assumption
    · rename_i m11 m12
      refine Got.inv_wait ?_
      assumption
    · rename_i m13
      split
      · rename_i m14 m15 m16 m17
        extract_lets v18 v19
        rename_i v20
        clear_value v18
        clear_value v19
        have hv20 : State.Inv v20 := by
          unfold v20
          refine State.keepLog_inv _ _ _ ?_
          refine gotDone_inv ?_ m17
          refine State.plain_inv _ _ _ _ _ _ ?_
          assumption
        clear_value v20
        refine ite_gotInv (fun _ => ?_) (fun _ => ?_)
        · refine Got.inv_done ?_
          refine gotDone_inv ?_ m17
          refine State.plain_inv _ _ _ _ _ _ ?_
          assumption
        · split
          · rename_i m21 m22
            refine Got.inv_done ?_
            refine gotDone_inv ?_ m17
            refine State.plain_inv _ _ _ _ _ _ ?_
            assumption
          · rename_i m23 m24 m25
            refine State.plain_inv _ _ _ _ _ _ ?_
            assumption
      · rename_i m26 m27
        refine State.plain_inv _ _ _ _ _ _ ?_
        assumption

theorem recordRes_inv : ∀ (i : Instr) (a : Word) (ok : Chisel → ℕ → Bool) (f : Chisel → ℕ → List Byte → Chisel) (h : ℕ) (x : Hart) (s : State), s.Inv → (recordRes i a ok f h x s).Inv := by
  intro i a ok f h x s h_s
  unfold recordRes
  refine ite_resInv (fun _ => ?_) (fun _ => ?_)
  · refine Res.inv_trap ?_
    assumption
  · refine Got.andThen_inv _ _ ?_ ?_
    · refine State.readRecord_inv _ _ _ _ ?_
      assumption
    · intro y1
      intro y2
      intro y3
      extract_lets v4 v5
      clear_value v4
      clear_value v5
      refine ite_resInv (fun _ => ?_) (fun _ => ?_)
      · refine Res.inv_ok ?_
        refine State.consumePoison_inv _ _ _ _ ?_
        assumption
      · refine ite_resInv (fun _ => ?_) (fun _ => ?_)
        · refine Res.inv_trap ?_
          assumption
        · refine ite_resInv (fun _ => ?_) (fun _ => ?_)
          · refine unitRes_inv _ _ _ _ _ ?_
            assumption
          · refine unitWait_inv _ _ _ ?_
            refine State.keepLog_inv _ _ _ ?_
            assumption

theorem execGbCfg_inv : ∀ (rs1 : RegIdx) (rs2 : RegIdx) (s : State), s.Inv → Safe (execGbCfg rs1 rs2 s) := by
  intro rs1 rs2 s h_s
  unfold execGbCfg
  refine safe_next ?_
  refine runHart_inv _ _ _ _ ?_ ?_
  · intro y1
    intro y2
    intro y3
    intro y4
    refine unitRes_inv _ _ _ _ _ ?_
    assumption
  · assumption

theorem execGbClr_inv : ∀ (s : State), s.Inv → Safe (execGbClr s) := by
  intro s h_s
  unfold execGbClr
  refine safe_next ?_
  refine runHart_inv _ _ _ _ ?_ ?_
  · intro y1
    intro y2
    intro y3
    intro y4
    refine unitRes_inv _ _ _ _ _ ?_
    assumption
  · assumption

theorem execGbLdf_inv : ∀ (rs1 : RegIdx) (s : State), s.Inv → Safe (execGbLdf rs1 s) := by
  intro rs1 s h_s
  unfold execGbLdf
  extract_lets v1
  clear_value v1
  refine safe_next ?_
  refine runHart_inv _ _ _ _ ?_ ?_
  · intro y2
    intro y3
    intro y4
    intro y5
    refine recordRes_inv _ _ _ _ _ _ _ ?_
    assumption
  · assumption

theorem blockRes_inv : ∀ (i : Instr) (f : W32 → W32 → W32) (rs1 : RegIdx) (rs2 : RegIdx) (h : ℕ) (x : Hart) (s : State), s.Inv → (blockRes i f rs1 rs2 h x s).Inv := by
  intro i f rs1 rs2 h x s h_s
  unfold blockRes
  extract_lets v1
  clear_value v1
  refine recordRes_inv _ _ _ _ _ _ _ ?_
  assumption

theorem execGbAddm_inv : ∀ (rs1 : RegIdx) (rs2 : RegIdx) (s : State), s.Inv → Safe (execGbAddm rs1 rs2 s) := by
  intro rs1 rs2 s h_s
  unfold execGbAddm
  extract_lets v1
  clear_value v1
  refine safe_next ?_
  refine runHart_inv _ _ _ _ ?_ ?_
  · intro y2
    intro y3
    intro y4
    intro y5
    refine blockRes_inv _ _ _ _ _ _ _ ?_
    assumption
  · assumption

theorem execGbSubm_inv : ∀ (rs1 : RegIdx) (rs2 : RegIdx) (s : State), s.Inv → Safe (execGbSubm rs1 rs2 s) := by
  intro rs1 rs2 s h_s
  unfold execGbSubm
  extract_lets v1
  clear_value v1
  refine safe_next ?_
  refine runHart_inv _ _ _ _ ?_ ?_
  · intro y2
    intro y3
    intro y4
    intro y5
    refine blockRes_inv _ _ _ _ _ _ _ ?_
    assumption
  · assumption

theorem execGbBel_inv : ∀ (rs1 : RegIdx) (s : State), s.Inv → Safe (execGbBel rs1 s) := by
  intro rs1 s h_s
  unfold execGbBel
  extract_lets v1
  clear_value v1
  refine safe_next ?_
  refine runHart_inv _ _ _ _ ?_ ?_
  · intro y2
    intro y3
    intro y4
    intro y5
    extract_lets v6
    clear_value v6
    refine ite_resInv (fun _ => ?_) (fun _ => ?_)
    · refine unitRes_inv _ _ _ _ _ ?_
      assumption
    · refine recordRes_inv _ _ _ _ _ _ _ ?_
      assumption
  · assumption

theorem execGbElim_inv : ∀ (rs1 : RegIdx) (s : State), s.Inv → Safe (execGbElim rs1 s) := by
  intro rs1 s h_s
  unfold execGbElim
  extract_lets v1
  clear_value v1
  refine safe_next ?_
  refine runHart_inv _ _ _ _ ?_ ?_
  · intro y2
    intro y3
    intro y4
    intro y5
    extract_lets v6 v7
    clear_value v6
    clear_value v7
    refine ite_resInv (fun _ => ?_) (fun _ => ?_)
    · refine Res.inv_trap ?_
      assumption
    · refine ite_resInv (fun _ => ?_) (fun _ => ?_)
      · refine unitWait_inv _ _ _ ?_
        assumption
      · split
        · rename_i m8 m9
          refine Res.inv_trap ?_
          assumption
        · rename_i m10 m11 m12
          refine unitRes_inv _ _ _ _ _ ?_
          assumption
  · assumption

theorem State.spanStore_inv : ∀ (s : State) (h : ℕ) (x : Hart) (size : ℕ) (ws : List Want), s.Inv → (State.spanStore s h x size ws).Inv := by
  intro s h x size ws h_s
  unfold State.spanStore
  refine State.plain_inv _ _ _ _ _ _ ?_
  assumption

theorem execGbMean_inv : ∀ (rs1 : RegIdx) (s : State), s.Inv → Safe (execGbMean rs1 s) := by
  intro rs1 s h_s
  unfold execGbMean
  refine safe_next ?_
  refine runHart_inv _ _ _ _ ?_ ?_
  · intro y1
    intro y2
    intro y3
    intro y4
    extract_lets v5
    rename_i v6
    clear_value v5
    clear_value v6
    refine ite_resInv (fun _ => ?_) (fun _ => ?_)
    · refine Res.inv_trap ?_
      assumption
    · refine ite_resInv (fun _ => ?_) (fun _ => ?_)
      · refine unitWait_inv _ _ _ ?_
        assumption
      · split
        · rename_i m7 m8
          refine Res.inv_trap ?_
          assumption
        · rename_i m9 m10 m11
          extract_lets v12
          clear_value v12
          refine Got.andThen_inv _ _ ?_ ?_
          · refine State.spanStore_inv _ _ _ _ _ ?_
            assumption
          · intro y13
            intro y14
            intro y15
            refine Res.inv_ok ?_
            refine State.modHart_inv _ _ _ ?_
            refine State.unitTake_inv _ _ _ _ ?_
            assumption
  · assumption

theorem execGbRes_inv : ∀ (rd : RegIdx) (s : State), s.Inv → Safe (execGbRes rd s) := by
  intro rd s h_s
  unfold execGbRes
  refine safe_next ?_
  refine runHart_inv _ _ _ _ ?_ ?_
  · intro y1
    intro y2
    intro y3
    intro y4
    extract_lets v5
    clear_value v5
    refine ite_resInv (fun _ => ?_) (fun _ => ?_)
    · refine Res.inv_wait ?_
      assumption
    · refine ite_resInv (fun _ => ?_) (fun _ => ?_)
      · refine unitWait_inv _ _ _ ?_
        assumption
      · refine Res.inv_ok ?_
        refine State.modHart_inv _ _ _ ?_
        refine State.unitTake_inv _ _ _ _ ?_
        assumption
  · assumption

theorem execGbLdw_inv : ∀ (rs1 : RegIdx) (s : State), s.Inv → Safe (execGbLdw rs1 s) := by
  intro rs1 s h_s
  unfold execGbLdw
  extract_lets v1
  clear_value v1
  refine safe_next ?_
  refine runHart_inv _ _ _ _ ?_ ?_
  · intro y2
    intro y3
    intro y4
    intro y5
    extract_lets v6
    clear_value v6
    refine ite_resInv (fun _ => ?_) (fun _ => ?_)
    · refine Res.inv_trap ?_
      assumption
    · refine Got.andThen_inv _ _ ?_ ?_
      · refine State.plain_inv _ _ _ _ _ _ ?_
        assumption
      · intro y7
        intro y8
        intro y9
        refine ite_resInv (fun _ => ?_) (fun _ => ?_)
        · refine Res.inv_ok ?_
          refine State.consumePoison_inv _ _ _ _ ?_
          assumption
        · refine ite_resInv (fun _ => ?_) (fun _ => ?_)
          · refine unitRes_inv _ _ _ _ _ ?_
            assumption
          · refine unitWait_inv _ _ _ ?_
            refine State.keepLog_inv _ _ _ ?_
            assumption
  · assumption

theorem execGbStw_inv : ∀ (rs1 : RegIdx) (s : State), s.Inv → Safe (execGbStw rs1 s) := by
  intro rs1 s h_s
  unfold execGbStw
  refine safe_next ?_
  refine runHart_inv _ _ _ _ ?_ ?_
  · intro y1
    intro y2
    intro y3
    intro y4
    extract_lets v5
    clear_value v5
    refine ite_resInv (fun _ => ?_) (fun _ => ?_)
    · refine Res.inv_trap ?_
      assumption
    · refine ite_resInv (fun _ => ?_) (fun _ => ?_)
      · refine unitWait_inv _ _ _ ?_
        assumption
      · refine Got.andThen_inv _ _ ?_ ?_
        · refine State.spanStore_inv _ _ _ _ _ ?_
          assumption
        · intro y6
          intro y7
          intro y8
          refine Res.inv_ok ?_
          refine State.unitTake_inv _ _ _ _ ?_
          assumption
  · assumption

theorem execGbEmit_inv : ∀ (rd : RegIdx) (rs2 : RegIdx) (rs1 : RegIdx) (s : State), s.Inv → Safe (execGbEmit rd rs2 rs1 s) := by
  intro rd rs2 rs1 s h_s
  unfold execGbEmit
  extract_lets v1
  clear_value v1
  refine safe_next ?_
  refine runHart_inv _ _ _ _ ?_ ?_
  · intro y2
    intro y3
    intro y4
    intro y5
    extract_lets v6 v7
    rename_i v8
    clear_value v6
    clear_value v7
    have hv8 : State.Inv v8 := by
      unfold v8
      refine State.modHart_inv _ _ _ ?_
      assumption
    clear_value v8
    refine ite_resInv (fun _ => ?_) (fun _ => ?_)
    · refine Res.inv_trap ?_
      assumption
    · refine ite_resInv (fun _ => ?_) (fun _ => ?_)
      · refine Res.inv_trap ?_
        assumption
      · refine ite_resInv (fun _ => ?_) (fun _ => ?_)
        · refine Res.inv_trap ?_
          assumption
        · split
          · rename_i m9 m10
            refine Res.inv_trap ?_
            assumption
          · rename_i m11 m12 m13 m14
            refine ite_resInv (fun _ => ?_) (fun _ => ?_)
            · refine Res.inv_wait ?_
              assumption
            · refine asyncRes_inv _ _ _ _ _ _ _ ?_
              assumption
  · assumption

/-! ### Machine/Csr.lean -/

theorem execCsrAccess_inv : ∀ (op : CsrOp) (csr : BitVec 12) (rd : RegIdx) (src : RegIdx) (s : State), s.Inv → Safe (execCsrAccess op csr rd src s) := by
  intro op csr rd src s h_s
  unfold execCsrAccess
  extract_lets v1 v2 v3 v4
  clear_value v1
  clear_value v2
  clear_value v3
  clear_value v4
  refine safe_next ?_
  refine ite_inv (fun _ => ?_) (fun _ => ?_)
  · refine runHart_inv _ _ _ _ ?_ ?_
    · intro y5
      intro y6
      intro y7
      intro y8
      extract_lets v9 v10
      clear_value v9
      clear_value v10
      refine Res.inv_ok ?_
      refine State.modHart_inv _ _ _ ?_
      assumption
    · assumption
  · refine runHart_inv _ _ _ _ ?_ ?_
    · intro y5
      intro y6
      intro y7
      intro y8
      refine Res.inv_trap ?_
      assumption
    · assumption

theorem execDxtstatAccess_inv : ∀ (op : CsrOp) (rd : RegIdx) (src : RegIdx) (s : State), s.Inv → Safe (execDxtstatAccess op rd src s) := by
  intro op rd src s h_s
  unfold execDxtstatAccess
  extract_lets v1
  clear_value v1
  refine safe_next ?_
  refine runHart_inv _ _ _ _ ?_ ?_
  · intro y2
    intro y3
    intro y4
    intro y5
    refine ite_resInv (fun _ => ?_) (fun _ => ?_)
    · refine Res.inv_wait ?_
      assumption
    · extract_lets v6 v7 v8
      clear_value v6
      clear_value v7
      have hv8 : State.Inv v8 := by
        unfold v8
        split
        · rename_i m9 m10 m11
          refine State.modPlinth_inv _ _ _ ?_
          assumption
        · rename_i m12 m13
          assumption
      clear_value v8
      refine setX_inv _ _ _ _ ?_
      assumption
  · assumption

/-! ### Machine/Context.lean -/

theorem State.writeLanesGot_inv : ∀ (s : State) (h : ℕ), s.Inv → (State.writeLanesGot s h).Inv := by
  intro s h h_s
  unfold State.writeLanesGot
  refine foldl_inv ?_ (fun t1 x2 ht1 => ?_)
  · assumption
  · split
    · rename_i m3 m4 m5 m6
      extract_lets v7
      clear_value v7
      refine ite_inv (fun _ => ?_) (fun _ => ?_)
      · assumption
      · refine State.modHart_inv _ _ _ ?_
        assumption
    · rename_i m8 m9
      assumption

theorem State.slotMiss_inv : ∀ (s : State) (x : Hart), s.Inv → (State.slotMiss s x).Inv := by
  intro s x h_s
  unfold State.slotMiss
  split
  · rename_i m1 m2 m3 m4
    refine State.unitMiss_inv _ _ _ _ ?_
    assumption
  · rename_i m5 m6
    assumption

theorem State.saveHart_inv : ∀ (s : State) (h : ℕ) (pc : Word) (m : SaveMask), s.Inv → (State.saveHart s h pc m).Inv := by
  intro s h pc m h_s
  unfold State.saveHart
  extract_lets v1
  have hv1 : State.Inv v1 := by
    unfold v1
    refine State.writeLanesGot_inv _ _ ?_
    assumption
  clear_value v1
  split
  · rename_i m2 m3
    assumption
  · rename_i m4 m5 m6
    split
    · rename_i m7 m8
      refine State.slotMiss_inv _ _ ?_
      assumption
    · rename_i m9 m10 m11
      extract_lets v12 v13
      clear_value v12
      have hv13 : State.Inv v13 := by
        unfold v13
        refine State.putMem_inv _ _ _ ?_
        assumption
      clear_value v13
      refine inv_mk ?_
      refine inv_mem ?_
      assumption

theorem State.tableLost_inv : ∀ (s : State) (h : ℕ) (x : Hart) (a : Word), s.Inv → (State.tableLost s h x a).Inv := by
  intro s h x a h_s
  unfold State.tableLost
  refine State.saveHart_inv _ _ _ _ ?_
  refine State.report_inv _ _ _ ?_
  refine State.modHart_inv _ _ _ ?_
  assumption

theorem State.stopAtHint_inv : ∀ (s : State) (h : ℕ) (x : Hart) (livex : BitVec 16) (livev : BitVec 16) (lrt : Option Word), s.Inv → (State.stopAtHint s h x livex livev lrt).Inv := by
  intro s h x livex livev lrt h_s
  unfold State.stopAtHint
  split
  · rename_i m1
    refine State.saveHart_inv _ _ _ _ ?_
    assumption
  · rename_i m2 m3
    extract_lets v4
    clear_value v4
    refine ite_inv (fun _ => ?_) (fun _ => ?_)
    · assumption
    · split
      · rename_i m5 m6 m7 m8 m9 m10
        refine ite_inv (fun _ => ?_) (fun _ => ?_)
        · refine State.holdLost_inv _ _ _ _ _ _ ?_
          assumption
        · refine ite_inv (fun _ => ?_) (fun _ => ?_)
          · refine State.tableLost_inv _ _ _ _ ?_
            assumption
          · refine State.saveHart_inv _ _ _ _ ?_
            assumption
      · rename_i m11 m12 m13 m14 m15 m16
        refine State.tableLost_inv _ _ _ _ ?_
        assumption
      · rename_i m17 m18 m19 m20
        refine State.tableLost_inv _ _ _ _ ?_
        refine State.noteTable_inv _ _ _ ?_
        assumption
      · rename_i m21 m22 m23
        refine State.holdMiss_inv _ _ _ _ _ _ _ ?_
        assumption
      · rename_i m24 m25 m26 m27
        refine State.holdBehind_inv _ _ _ _ _ _ _ _ ?_
        assumption
      · rename_i m28 m29 m30 m31
        refine State.holdBehind_inv _ _ _ _ _ _ _ _ ?_
        assumption
      · rename_i m32 m33
        refine State.holdLost_inv _ _ _ _ _ _ ?_
        assumption
      · rename_i m34 m35
        assumption

theorem State.tryStop_inv : ∀ (s : State) (h : ℕ), s.Inv → (State.tryStop s h).Inv := by
  intro s h h_s
  unfold State.tryStop
  split
  · rename_i m1 m2
    assumption
  · rename_i m3 m4 m5
    extract_lets v6
    clear_value v6
    refine ite_inv (fun _ => ?_) (fun _ => ?_)
    · assumption
    · split
      · rename_i m7 m8
        assumption
      · rename_i m9 m10
        refine State.saveHart_inv _ _ _ _ ?_
        assumption
      · rename_i m11 m12 m13 m14 m15
        refine ite_inv (fun _ => ?_) (fun _ => ?_)
        · refine State.saveHart_inv _ _ _ _ ?_
          assumption
        · refine State.stopAtHint_inv _ _ _ _ _ _ ?_
          assumption

theorem State.stopNow_inv : ∀ (s : State) (h : ℕ) (how : StopHow), s.Inv → (State.stopNow s h how).Inv := by
  intro s h how h_s
  unfold State.stopNow
  refine State.tryStop_inv _ _ ?_
  refine State.modHart_inv _ _ _ ?_
  assumption

theorem State.restoreHart_inv : ∀ (s : State) (h : ℕ), s.Inv → (State.restoreHart s h).Inv := by
  intro s h h_s
  unfold State.restoreHart
  split
  · rename_i m1 m2
    assumption
  · rename_i m3 m4 m5
    split
    · rename_i m6 m7
      assumption
    · rename_i m8 m9 m10
      extract_lets v11 v12 v13 v14
      clear_value v11
      have hv12 : State.Inv v12 := by
        unfold v12
        refine State.setHart_inv _ _ _ ?_
        assumption
      clear_value v12
      have hv13 : State.Inv v13 := by
        unfold v13
        refine ite_inv (fun _ => ?_) (fun _ => ?_)
        · refine State.consumePoison_inv _ _ _ _ ?_
          assumption
        · assumption
      clear_value v13
      clear_value v14
      refine inv_mk ?_
      refine inv_mem ?_
      assumption

theorem State.slotSend_inv : ∀ (s : State) (x : Hart) (off : ℕ) (act : Piece), s.Inv → (State.slotSend s x off act).Inv := by
  intro s x off act h_s
  unfold State.slotSend
  split
  · rename_i m1 m2 m3 m4
    refine State.unitSend_inv _ _ _ _ ?_
    assumption
  · rename_i m5 m6
    assumption

theorem State.slotRes_inv : ∀ (s : State) (x : Hart) (res : W32), s.Inv → (State.slotRes s x res).Inv := by
  intro s x res h_s
  unfold State.slotRes
  refine State.slotSend_inv _ _ _ _ ?_
  refine State.slotSend_inv _ _ _ _ ?_
  refine State.slotSend_inv _ _ _ _ ?_
  assumption

theorem State.slotComplete_inv : ∀ (s : State) (x : Hart) (r : RegIdx) (v : Word) (pending : Bool), s.Inv → (State.slotComplete s x r v pending).Inv := by
  intro s x r v pending h_s
  unfold State.slotComplete
  refine State.slotSend_inv _ _ _ _ ?_
  refine State.slotSend_inv _ _ _ _ ?_
  assumption

/-! ### Machine/HartCtl.lean -/

theorem setPw_inv : ∀ (s : State) (h : ℕ) (f : W32 → W32), s.Inv → (setPw s h f).Inv := by
  intro s h f h_s
  unfold setPw
  refine Res.inv_ok ?_
  refine State.modHart_inv _ _ _ ?_
  assumption

theorem execPwset_inv : ∀ (rs1 : RegIdx) (s : State), s.Inv → Safe (execPwset rs1 s) := by
  intro rs1 s h_s
  unfold execPwset
  refine safe_next ?_
  refine runHart_inv _ _ _ _ ?_ ?_
  · intro y1
    intro y2
    intro y3
    intro y4
    refine setPw_inv _ _ _ ?_
    assumption
  · assumption

theorem execPwclr_inv : ∀ (rs1 : RegIdx) (s : State), s.Inv → Safe (execPwclr rs1 s) := by
  intro rs1 s h_s
  unfold execPwclr
  refine safe_next ?_
  refine runHart_inv _ _ _ _ ?_ ?_
  · intro y1
    intro y2
    intro y3
    intro y4
    refine setPw_inv _ _ _ ?_
    assumption
  · assumption

theorem execPwand_inv : ∀ (d : RegIdx) (a : RegIdx) (b : RegIdx) (s : State), s.Inv → Safe (execPwand d a b s) := by
  intro d a b s h_s
  unfold execPwand
  refine safe_next ?_
  refine runHart_inv _ _ _ _ ?_ ?_
  · intro y1
    intro y2
    intro y3
    intro y4
    refine setPw_inv _ _ _ ?_
    assumption
  · assumption

theorem execPwor_inv : ∀ (d : RegIdx) (a : RegIdx) (b : RegIdx) (s : State), s.Inv → Safe (execPwor d a b s) := by
  intro d a b s h_s
  unfold execPwor
  refine safe_next ?_
  refine runHart_inv _ _ _ _ ?_ ?_
  · intro y1
    intro y2
    intro y3
    intro y4
    refine setPw_inv _ _ _ ?_
    assumption
  · assumption

theorem execPwnot_inv : ∀ (d : RegIdx) (a : RegIdx) (s : State), s.Inv → Safe (execPwnot d a s) := by
  intro d a s h_s
  unfold execPwnot
  refine safe_next ?_
  refine runHart_inv _ _ _ _ ?_ ?_
  · intro y1
    intro y2
    intro y3
    intro y4
    refine setPw_inv _ _ _ ?_
    assumption
  · assumption

theorem execPwpop_inv : ∀ (rd : RegIdx) (rs1 : RegIdx) (s : State), s.Inv → Safe (execPwpop rd rs1 s) := by
  intro rd rs1 s h_s
  unfold execPwpop
  refine safe_next ?_
  refine runHart_inv _ _ _ _ ?_ ?_
  · intro y1
    intro y2
    intro y3
    intro y4
    refine setX_inv _ _ _ _ ?_
    assumption
  · assumption

theorem execGend_inv : ∀ (s : State), s.Inv → Safe (execGend s) := by
  intro s h_s
  unfold execGend
  refine safe_next ?_
  refine runHart_inv _ _ _ _ ?_ ?_
  · intro y1
    intro y2
    intro y3
    intro y4
    refine ite_resInv (fun _ => ?_) (fun _ => ?_)
    · refine Res.inv_okThen ?_ (fun t5 ht5 => ?_)
      · assumption
      · refine State.endHart_inv _ _ ?_
        assumption
    · refine Res.inv_wait ?_
      assumption
  · assumption

theorem execYield_inv : ∀ (s : State), s.Inv → Safe (execYield s) := by
  intro s h_s
  unfold execYield
  refine safe_next ?_
  refine runHart_inv _ _ _ _ ?_ ?_
  · intro y1
    intro y2
    intro y3
    intro y4
    extract_lets v5
    clear_value v5
    refine Res.inv_ok ?_
    refine State.modHart_inv _ _ _ ?_
    assumption
  · assumption

theorem State.drainFor_inv : ∀ (s : State) (h : ℕ), s.Inv → (State.drainFor s h).Inv := by
  intro s h h_s
  unfold State.drainFor
  refine State.drain_inv _ _ ?_
  assumption

theorem State.startMigration_inv : ∀ (s : State) (h : ℕ) (target : ℕ), s.Inv → (State.startMigration s h target).Inv := by
  intro s h target h_s
  unfold State.startMigration
  refine State.modHart_inv _ _ _ ?_
  assumption

theorem execMigrate_inv : ∀ (rs1 : RegIdx) (s : State), s.Inv → Safe (execMigrate rs1 s) := by
  intro rs1 s h_s
  unfold execMigrate
  refine safe_next ?_
  refine runHart_inv _ _ _ _ ?_ ?_
  · intro y1
    intro y2
    intro y3
    intro y4
    extract_lets v5 v6
    clear_value v5
    clear_value v6
    refine ite_resInv (fun _ => ?_) (fun _ => ?_)
    · refine Res.inv_trap ?_
      assumption
    · split
      · rename_i m7 m8
        refine Res.inv_ok ?_
        assumption
      · rename_i m9 m10 m11
        refine ite_resInv (fun _ => ?_) (fun _ => ?_)
        · refine Res.inv_ok ?_
          assumption
        · refine ite_resInv (fun _ => ?_) (fun _ => ?_)
          · refine Res.inv_okThen ?_ (fun t12 ht12 => ?_)
            · assumption
            · refine State.startMigration_inv _ _ _ ?_
              assumption
          · refine Res.inv_wait ?_
            refine State.drainFor_inv _ _ ?_
            assumption
  · assumption

theorem execPhint_inv : ∀ (lrtoff : BitVec 18) (livex : BitVec 16) (livev : BitVec 16) (s : State), s.Inv → Safe (execPhint lrtoff livex livev s) := by
  intro lrtoff livex livev s h_s
  unfold execPhint
  refine safe_next ?_
  refine runHart_inv _ _ _ _ ?_ ?_
  · intro y1
    intro y2
    intro y3
    intro y4
    refine ite_resInv (fun _ => ?_) (fun _ => ?_)
    · refine Res.inv_ok ?_
      assumption
    · refine Res.inv_okThen ?_ (fun t5 ht5 => ?_)
      · assumption
      · refine State.stopNow_inv _ _ _ ?_
        assumption
  · assumption

theorem execWfi_inv : ∀ (s : State), s.Inv → Safe (execWfi s) := by
  intro s h_s
  unfold execWfi
  refine safe_next ?_
  refine runHart_inv _ _ _ _ ?_ ?_
  · intro y1
    intro y2
    intro y3
    intro y4
    refine ite_resInv (fun _ => ?_) (fun _ => ?_)
    · refine Res.inv_okThen ?_ (fun t5 ht5 => ?_)
      · assumption
      · refine State.stopNow_inv _ _ _ ?_
        assumption
    · refine ite_resInv (fun _ => ?_) (fun _ => ?_)
      · refine Res.inv_ok ?_
        assumption
      · refine Res.inv_wait ?_
        assumption
  · assumption

theorem execEcall_inv : ∀ (s : State), s.Inv → Safe (execEcall s) := by
  intro s h_s
  unfold execEcall
  refine safe_next ?_
  refine runHart_inv _ _ _ _ ?_ ?_
  · intro y1
    intro y2
    intro y3
    intro y4
    refine Res.inv_trap ?_
    assumption
  · assumption

theorem execSret_inv : ∀ (s : State), s.Inv → Safe (execSret s) := by
  intro s h_s
  unfold execSret
  extract_lets v1
  have hv1 : State.Inv v1 := by
    unfold v1
    refine runHart_inv _ _ _ _ ?_ ?_
    · intro y2
      intro y3
      intro y4
      intro y5
      refine ite_resInv (fun _ => ?_) (fun _ => ?_)
      · refine Res.inv_trap ?_
        assumption
      · refine Res.inv_jump ?_
        refine State.modHart_inv _ _ _ ?_
        assumption
    · assumption
  clear_value v1
  refine safe_next ?_
  split
  · rename_i m6 m7 m8 m9 m10 m11
    refine ite_inv (fun _ => ?_) (fun _ => ?_)
    · refine State.stopNow_inv _ _ _ ?_
      assumption
    · assumption
  · rename_i m12 m13 m14
    assumption

theorem raiseNow_inv : ∀ (s : State) (cause : ℕ) (tval : Word) (sub : ℕ) (fo : FormOp), s.Inv → (raiseNow s cause tval sub fo).Inv := by
  intro s cause tval sub fo h_s
  unfold raiseNow
  split
  · rename_i m1 m2
    assumption
  · rename_i m3 m4 m5
    refine ite_inv (fun _ => ?_) (fun _ => ?_)
    · refine State.hartWait_inv _ _ _ _ ?_
      assumption
    · refine State.settle_inv _ _ _ _ _ _ _ ?_ ?_
      · assumption
      · refine Res.inv_trap ?_
        assumption

theorem execIllegalInstruction_inv : ∀ (bits : Word) (s : State), s.Inv → Safe (execIllegalInstruction bits s) := by
  intro bits s h_s
  unfold execIllegalInstruction
  refine safe_next ?_
  refine raiseNow_inv _ _ _ _ _ ?_
  assumption

theorem execInstructionAccessFault_inv : ∀ (cause : ℕ) (sub : ℕ) (addr : Word) (s : State), s.Inv → Safe (execInstructionAccessFault cause sub addr s) := by
  intro cause sub addr s h_s
  unfold execInstructionAccessFault
  refine safe_next ?_
  refine raiseNow_inv _ _ _ _ _ ?_
  assumption

end Sys2Proof.Machine
end

