-- ==== Sys2Proof/Laws/Keep/Events.lean ====
section
/-! SUPPORT. Every operation of plinths, futures, banks, homes and migration keeps the invariant of Safety.lean. -/

namespace Sys2Proof.Machine

open Sys2Proof

/-! ### Machine/Retire.lean -/

theorem State.stopGroup_inv : ∀ (s : State) (gi : ℕ), s.Inv → (State.stopGroup s gi).Inv := by
  intro s gi h_s
  unfold State.stopGroup
  split
  · rename_i m1 m2
    assumption
  · rename_i m3 m4 m5
    extract_lets v6 v7 v8
    clear_value v6
    clear_value v7
    clear_value v8
    refine State.modGroup_inv _ _ _ ?_
    refine State.modPlinth_inv _ _ _ ?_
    assumption

theorem State.retireMark_inv : ∀ (s : State) (core : ℕ), s.Inv → (State.retireMark s core).Inv := by
  intro s core h_s
  unfold State.retireMark
  refine ite_inv (fun _ => ?_) (fun _ => ?_)
  · assumption
  · extract_lets v1
    clear_value v1
    refine State.syncHealth_inv _ _ ?_
    refine State.logRec_inv _ _ _ _ _ _ _ ?_
    refine State.modCore_inv _ _ _ ?_
    assumption

theorem State.beginRetire_inv : ∀ (s : State) (core : ℕ), s.Inv → (State.beginRetire s core).Inv := by
  intro s core h_s
  unfold State.beginRetire
  refine ite_inv (fun _ => ?_) (fun _ => ?_)
  · assumption
  · extract_lets v1
    have hv1 : State.Inv v1 := by
      unfold v1
      refine State.modCluster_inv _ _ _ ?_
      refine State.retireMark_inv _ _ ?_
      assumption
    clear_value v1
    refine foldl_inv ?_ (fun t2 x3 ht2 => ?_)
    · assumption
    · split
      · rename_i m4 m5 m6
        refine ite_inv (fun _ => ?_) (fun _ => ?_)
        · refine State.stopGroup_inv _ _ ?_
          assumption
        · assumption
      · rename_i m7 m8
        assumption

/-! ### Machine/EvPlinth.lean -/

theorem State.tileReq_inv : ∀ (s : State) (pi : ℕ) (t : Tile) (va : Word) (act : Piece) (kind : AccKind), s.Inv → SndInv (State.tileReq s pi t va act kind) := by
  intro s pi t va act kind h_s
  unfold State.tileReq
  refine State.request_inv _ _ _ _ _ _ _ ?_
  assumption

theorem State.tileRead_inv : ∀ (s : State) (pi : ℕ) (t : Tile) (a3 : List Word) (a4 : List TLine), s.Inv → SndInv (State.tileRead s pi t a3 a4) := by
  intro s pi t a3 a4 h_s
  unfold State.tileRead
  split
  · rename_i m1 m2
    refine sndInv_mk ?_
    assumption
  · rename_i m3 m4 m5 m6
    split
    · rename_i m7 m8 m9 m10 m11 m12
      refine State.tileRead_inv _ _ _ _ _ ?_
      refine pair_inv ?_ m12
      refine State.tileReq_inv _ _ _ _ _ _ ?_
      assumption
    · rename_i m13 m14 m15 m16 m17 m18
      refine sndInv_mk ?_
      refine pair_inv ?_ m18
      refine State.tileReq_inv _ _ _ _ _ _ ?_
      assumption
    · rename_i m19 m20 m21 m22 m23 m24
      refine sndInv_mk ?_
      refine pair_inv ?_ m24
      refine State.tileReq_inv _ _ _ _ _ _ ?_
      assumption

theorem State.tileWrite_inv : ∀ (s : State) (pi : ℕ) (t : Tile) (a3 : List (Word × List Byte × BitVec 16)), s.Inv → SndInv (State.tileWrite s pi t a3) := by
  intro s pi t a3 h_s
  unfold State.tileWrite
  split
  · rename_i m1
    refine sndInv_mk ?_
    assumption
  · rename_i m2 m3 m4 m5 m6
    split
    · rename_i m7 m8 m9 m10 m11 m12
      refine sndInv_mk ?_
      refine pair_inv ?_ m12
      refine State.tileReq_inv _ _ _ _ _ _ ?_
      assumption
    · rename_i m13 m14 m15 m16 m17
      refine State.tileWrite_inv _ _ _ _ ?_
      refine State.modPlinth_inv _ _ _ ?_
      refine pair_inv ?_ m17
      refine State.tileReq_inv _ _ _ _ _ _ ?_
      assumption
    · rename_i m18 m19 m20 m21 m22 m23
      refine sndInv_mk ?_
      refine pair_inv ?_ m23
      refine State.tileReq_inv _ _ _ _ _ _ ?_
      assumption

theorem State.modRings_inv : ∀ (s : State) (t : Tile) (f : Ring → ℕ → Ring), s.Inv → (State.modRings s t f).Inv := by
  intro s t f h_s
  unfold State.modRings
  extract_lets v1
  clear_value v1
  refine foldl_inv ?_ (fun t2 x3 ht2 => ?_)
  · assumption
  · refine State.modWindow_inv _ _ _ ?_
    assumption

theorem State.dropTile_inv : ∀ (s : State) (pi : ℕ) (t : Tile), s.Inv → (State.dropTile s pi t).Inv := by
  intro s pi t h_s
  unfold State.dropTile
  refine State.modGroup_inv _ _ _ ?_
  refine State.modPlinth_inv _ _ _ ?_
  assumption

theorem State.acceptTile_inv : ∀ (s : State) (pi : ℕ) (t : Tile), s.Inv → (State.acceptTile s pi t).Inv := by
  intro s pi t h_s
  unfold State.acceptTile
  extract_lets v1 v2
  rename_i v3 v4
  clear_value v1
  clear_value v2
  clear_value v3
  have hv4 : State.Inv v4 := by
    unfold v4
    refine State.modPlinth_inv _ _ _ ?_
    assumption
  clear_value v4
  refine ite_inv (fun _ => ?_) (fun _ => ?_)
  · refine ite_inv (fun _ => ?_) (fun _ => ?_)
    · refine State.endLease_inv _ _ _ ?_
      assumption
    · assumption
  · refine State.modRings_inv _ _ _ ?_
    assumption

theorem State.bareStat_inv : ∀ (s : State) (pi : ℕ), s.Inv → (State.bareStat s pi).Inv := by
  intro s pi h_s
  unfold State.bareStat
  extract_lets v1 v2
  clear_value v1
  clear_value v2
  split
  · rename_i m3 m4 m5
    extract_lets v6
    have hv6 : State.Inv v6 := by
      unfold v6
      refine State.dropTile_inv _ _ _ ?_
      assumption
    clear_value v6
    split
    · rename_i m7 m8 m9
      refine State.opDone_inv _ _ _ ?_
      assumption
    · rename_i m10 m11
      assumption
  · rename_i m12 m13
    assumption

theorem doTileAccept_inv : ∀ (s0 : State), s0.Inv → (doTileAccept s0).Inv := by
  intro s0 h_s0
  unfold doTileAccept
  extract_lets v1 v2 v3
  clear_value v1
  have hv2 : State.Inv v2 := by
    unfold v2
    refine State.wakePlinth_inv _ _ ?_
    refine State.tryRelease_inv _ _ ?_
    assumption
  clear_value v2
  clear_value v3
  refine ite_inv (fun _ => ?_) (fun _ => ?_)
  · refine State.endLease_inv _ _ _ ?_
    assumption
  · split
    · rename_i m4 m5 m6
      refine ite_inv (fun _ => ?_) (fun _ => ?_)
      · refine State.bareStat_inv _ _ ?_
        assumption
      · refine ite_inv (fun _ => ?_) (fun _ => ?_)
        · refine State.bareStat_inv _ _ ?_
          assumption
        · refine State.acceptTile_inv _ _ _ ?_
          assumption
    · rename_i m7 m8
      refine State.bareStat_inv _ _ ?_
      assumption

theorem State.retireTile_inv : ∀ (s : State) (pi : ℕ) (t : Tile) (before : Plinth) (r : Except (ℕ × ℕ × ℕ × Word) Word), s.Inv → (State.retireTile s pi t before r).Inv := by
  intro s pi t before r h_s
  unfold State.retireTile
  extract_lets v1 v2 v3 v4
  have hv1 : State.Inv v1 := by
    unfold v1
    refine State.modRings_inv _ _ _ ?_
    refine State.dropTile_inv _ _ _ ?_
    assumption
  clear_value v1
  have hv2 : State.Inv v2 := by
    unfold v2
    split
    · rename_i m5 m6 m7 m8 m9
      refine State.opDone_inv _ _ _ ?_
      assumption
    · rename_i m10 m11 m12 m13 m14 m15 m16 m17
      refine State.opFail_inv _ _ _ _ _ _ ?_
      assumption
    · rename_i m18 m19 m20 m21
      assumption
    · rename_i m22 m23 m24 m25 m26 m27 m28
      refine State.failTile_inv _ _ _ _ _ ?_
      assumption
  clear_value v2
  have hv3 : State.Inv v3 := by
    unfold v3
    refine State.iovfTrap_inv _ _ _ _ ?_
    assumption
  clear_value v3
  clear_value v4
  refine ite_inv (fun _ => ?_) (fun _ => ?_)
  · refine State.endLease_inv _ _ _ ?_
    assumption
  · refine State.tryRelease_inv _ _ ?_
    assumption

theorem State.noteMisfit_inv : ∀ (s : State) (pi : ℕ) (t : Tile) (failed : Bool) (repeated : ℕ), s.Inv → (State.noteMisfit s pi t failed repeated).Inv := by
  intro s pi t failed repeated h_s
  unfold State.noteMisfit
  extract_lets v1 v2 v3 v4
  rename_i v5
  clear_value v1
  clear_value v2
  clear_value v3
  have hv4 : State.Inv v4 := by
    unfold v4
    refine foldl_inv ?_ (fun t6 x7 ht6 => ?_)
    · assumption
    · refine State.logRec_inv _ _ _ _ _ _ _ ?_
      refine State.modPlinth_inv _ _ _ ?_
      assumption
  clear_value v4
  have hv5 : State.Inv v5 := by
    unfold v5
    refine State.logRec_inv _ _ _ _ _ _ _ ?_
    refine State.modPlinth_inv _ _ _ ?_
    assumption
  clear_value v5
  refine ite_inv (fun _ => ?_) (fun _ => ?_)
  · split
    · rename_i m8 m9
      refine State.beginRetire_inv _ _ ?_
      assumption
    · rename_i m10
      assumption
  · assumption

theorem State.retireMma_inv : ∀ (s : State) (pi : ℕ) (t : Tile) (kmajor : Bool) (acc : ℕ) (a : ℕ) (b : ℕ) (passes : ℕ), s.Inv → (State.retireMma s pi t kmajor acc a b passes).Inv := by
  intro s pi t kmajor acc a b passes h_s
  unfold State.retireMma
  extract_lets v1 v2 v3 v4
  clear_value v1
  clear_value v2
  clear_value v3
  split
  · rename_i m5 m6 m7 m8 m9
    simp only [v4]
    refine State.retireTile_inv _ _ _ _ _ ?_
    refine State.noteMisfit_inv _ _ _ _ _ ?_
    refine State.modPlinth_inv _ _ _ ?_
    refine ite_inv (fun _ => ?_) (fun _ => ?_)
    · refine State.skipFree_inv _ _ ?_
      assumption
    · assumption
  · rename_i m10 m11
    split
    · rename_i m12 m13 m14 m15
      simp only [v4]
      refine State.retireTile_inv _ _ _ _ _ ?_
      refine State.noteMisfit_inv _ _ _ _ _ ?_
      refine State.modPlinth_inv _ _ _ ?_
      refine ite_inv (fun _ => ?_) (fun _ => ?_)
      · refine State.skipFree_inv _ _ ?_
        refine pair_inv ?_ m15
        refine State.tileRead_inv _ _ _ _ _ ?_
        assumption
      · refine pair_inv ?_ m15
        refine State.tileRead_inv _ _ _ _ _ ?_
        assumption
    · rename_i m16 m17 m18 m19 m20 m21 m22
      simp only [v4]
      refine State.retireTile_inv _ _ _ _ _ ?_
      refine State.noteMisfit_inv _ _ _ _ _ ?_
      refine State.modPlinth_inv _ _ _ ?_
      refine ite_inv (fun _ => ?_) (fun _ => ?_)
      · refine State.skipFree_inv _ _ ?_
        refine pair_inv ?_ m22
        refine State.tileRead_inv _ _ _ _ _ ?_
        assumption
      · refine pair_inv ?_ m22
        refine State.tileRead_inv _ _ _ _ _ ?_
        assumption
    · rename_i m23 m24 m25
      refine pair_inv ?_ m25
      refine State.tileRead_inv _ _ _ _ _ ?_
      assumption

theorem State.retireLoad_inv : ∀ (s : State) (pi : ℕ) (t : Tile) (acc : ℕ) (addrs : List Word) (cells : List TLine → List (ℕ × W32)), s.Inv → (State.retireLoad s pi t acc addrs cells).Inv := by
  intro s pi t acc addrs cells h_s
  unfold State.retireLoad
  extract_lets v1
  clear_value v1
  split
  · rename_i m2 m3 m4 m5 m6
    refine State.retireTile_inv _ _ _ _ _ ?_
    assumption
  · rename_i m7 m8
    split
    · rename_i m9 m10 m11
      refine pair_inv ?_ m11
      refine State.tileRead_inv _ _ _ _ _ ?_
      assumption
    · rename_i m12 m13 m14 m15 m16 m17 m18
      refine State.retireTile_inv _ _ _ _ _ ?_
      refine pair_inv ?_ m18
      refine State.tileRead_inv _ _ _ _ _ ?_
      assumption
    · rename_i m19 m20 m21 m22
      refine ite_inv (fun _ => ?_) (fun _ => ?_)
      · refine State.retireTile_inv _ _ _ _ _ ?_
        refine pair_inv ?_ m22
        refine State.tileRead_inv _ _ _ _ _ ?_
        assumption
      · extract_lets v23
        have hv23 : State.Inv v23 := by
          unfold v23
          refine State.modPlinth_inv _ _ _ ?_
          refine pair_inv ?_ m22
          refine State.tileRead_inv _ _ _ _ _ ?_
          assumption
        clear_value v23
        refine State.retireTile_inv _ _ _ _ _ ?_
        refine State.modPlinth_inv _ _ _ ?_
        assumption

theorem State.retireStore_inv : ∀ (s : State) (pi : ℕ) (t : Tile) (acc : ℕ) (out : Accum → List (Word × List Byte × BitVec 16) × Word), s.Inv → (State.retireStore s pi t acc out).Inv := by
  intro s pi t acc out h_s
  unfold State.retireStore
  extract_lets v1 v2 v3 v4
  clear_value v1
  have hv2 : State.Inv v2 := by
    unfold v2
    refine State.modPlinth_inv _ _ _ ?_
    assumption
  clear_value v2
  clear_value v3
  split
  · rename_i m5 m6 m7 m8 m9
    simp only [v4]
    refine State.retireTile_inv _ _ _ _ _ ?_
    assumption
  · rename_i m10 m11
    split
    · rename_i m12 m13 m14
      refine State.retireTile_inv _ _ _ _ _ ?_
      refine pair_inv ?_ m14
      refine State.tileWrite_inv _ _ _ _ ?_
      assumption
    · rename_i m15 m16 m17 m18 m19 m20
      refine ite_inv (fun _ => ?_) (fun _ => ?_)
      · refine pair_inv ?_ m20
        refine State.tileWrite_inv _ _ _ _ ?_
        assumption
      · simp only [v4]
        refine State.retireTile_inv _ _ _ _ _ ?_
        refine pair_inv ?_ m20
        refine State.tileWrite_inv _ _ _ _ ?_
        assumption

theorem State.performTile_inv : ∀ (s : State) (pi : ℕ) (t : Tile), s.Inv → (State.performTile s pi t).Inv := by
  intro s pi t h_s
  unfold State.performTile
  extract_lets v1
  rename_i v2 v3
  clear_value v1
  clear_value v2
  have hv3 : State.Inv v3 := by
    unfold v3
    refine State.modPlinth_inv _ _ _ ?_
    assumption
  clear_value v3
  split
  · rename_i m4 m5 m6
    refine State.retireTile_inv _ _ _ _ _ ?_
    refine State.modPlinth_inv _ _ _ ?_
    assumption
  · rename_i m7 m8 m9
    refine State.retireTile_inv _ _ _ _ _ ?_
    refine State.modPlinth_inv _ _ _ ?_
    assumption
  · rename_i m10 m11 m12 m13 m14 m15 m16
    refine State.retireMma_inv _ _ _ _ _ _ _ _ ?_
    assumption
  · rename_i m17 m18 m19 m20 m21
    extract_lets v22 v23
    clear_value v22
    clear_value v23
    refine State.retireLoad_inv _ _ _ _ _ _ ?_
    assumption
  · rename_i m24 m25 m26 m27
    refine State.retireLoad_inv _ _ _ _ _ _ ?_
    assumption
  · rename_i m28 m29 m30 m31 m32 m33 m34
    extract_lets v22
    clear_value v22
    refine State.retireStore_inv _ _ _ _ _ ?_
    assumption
  · rename_i m35 m36 m37 m38
    refine State.retireStore_inv _ _ _ _ _ ?_
    assumption
  · rename_i m39 m40
    refine State.retireTile_inv _ _ _ _ _ ?_
    assumption
  · rename_i m41 m42
    assumption

theorem doTileRetire_inv : ∀ (s : State), s.Inv → (doTileRetire s).Inv := by
  intro s h_s
  unfold doTileRetire
  extract_lets v1
  clear_value v1
  split
  · rename_i m2 m3 m4
    refine ite_inv (fun _ => ?_) (fun _ => ?_)
    · refine State.performTile_inv _ _ _ ?_
      assumption
    · assumption
  · rename_i m5 m6
    refine State.tryRelease_inv _ _ ?_
    assumption

theorem doLeaseExpiry_inv : ∀ (s : State), s.Inv → (doLeaseExpiry s).Inv := by
  intro s h_s
  unfold doLeaseExpiry
  extract_lets v1
  clear_value v1
  refine ite_inv (fun _ => ?_) (fun _ => ?_)
  · refine State.endLease_inv _ _ _ ?_
    assumption
  · assumption

theorem doLeaseHandover_inv : ∀ (s : State), s.Inv → (doLeaseHandover s).Inv := by
  intro s h_s
  unfold doLeaseHandover
  split
  · rename_i m1 m2 m3 m4
    refine ite_inv (fun _ => ?_) (fun _ => ?_)
    · refine State.grant_inv _ _ _ ?_
      assumption
    · assumption
  · rename_i m5 m6
    assumption

theorem doTringEffect_inv : ∀ (s : State), s.Inv → (doTringEffect s).Inv := by
  intro s h_s
  unfold doTringEffect
  split
  · rename_i m1 m2
    assumption
  · rename_i m3 m4 m5
    split
    · rename_i m6 m7 m8 m9 m10 m11
      extract_lets v12 v13
      clear_value v12
      clear_value v13
      refine ite_inv (fun _ => ?_) (fun _ => ?_)
      · refine State.setRing_inv _ _ _ _ _ ?_
        refine inv_mk ?_
        refine inv_mem ?_
        assumption
      · assumption
    · rename_i m14 m15
      assumption

theorem execTileCommandAccept_inv : ∀ (s : State), s.Inv → Safe (execTileCommandAccept s) := by
  intro s h_s
  unfold execTileCommandAccept
  refine safe_next ?_
  refine doTileAccept_inv _ ?_
  assumption

theorem execTileCommandRetire_inv : ∀ (s : State), s.Inv → Safe (execTileCommandRetire s) := by
  intro s h_s
  unfold execTileCommandRetire
  refine safe_next ?_
  refine doTileRetire_inv _ ?_
  assumption

theorem execLeaseTimeExpiry_inv : ∀ (s : State), s.Inv → Safe (execLeaseTimeExpiry s) := by
  intro s h_s
  unfold execLeaseTimeExpiry
  refine safe_next ?_
  refine doLeaseExpiry_inv _ ?_
  assumption

theorem execLeaseHandover_inv : ∀ (s : State), s.Inv → Safe (execLeaseHandover s) := by
  intro s h_s
  unfold execLeaseHandover
  refine safe_next ?_
  refine doLeaseHandover_inv _ ?_
  assumption

theorem execTringEffect_inv : ∀ (s : State), s.Inv → Safe (execTringEffect s) := by
  intro s h_s
  unfold execTringEffect
  refine safe_next ?_
  refine doTringEffect_inv _ ?_
  assumption

/-! ### Machine/EvHart.lean -/

theorem doBoundary_inv : ∀ (s : State), s.Inv → (doBoundary s).Inv := by
  intro s h_s
  unfold doBoundary
  extract_lets v1
  clear_value v1
  split
  · rename_i m2 m3
    assumption
  · rename_i m4 m5 m6
    refine ite_inv (fun _ => ?_) (fun _ => ?_)
    · assumption
    · split
      · rename_i m7 m8
        assumption
      · rename_i m9 m10 m11 m12
        refine State.takeTrap_inv _ _ _ _ _ _ _ ?_
        refine State.modHart_inv _ _ _ ?_
        assumption

theorem State.dropOp_inv : ∀ (s : State) (o : ℕ), s.Inv → (State.dropOp s o).Inv := by
  intro s o h_s
  unfold State.dropOp
  refine inv_mk ?_
  refine inv_mem ?_
  assumption

theorem State.settleFuture_inv : ∀ (s : State) (o : ℕ) (p : Op) (x : Hart) (v : Word) (fail : Option FailHow), s.Inv → (State.settleFuture s o p x v fail).Inv := by
  intro s o p x v fail h_s
  unfold State.settleFuture
  extract_lets v1 v2
  clear_value v1
  have hv2 : State.Inv v2 := by
    unfold v2
    refine ite_inv (fun _ => ?_) (fun _ => ?_)
    · split
      · rename_i m3 m4 m5
        refine State.slotComplete_inv _ _ _ _ _ ?_
        assumption
      · rename_i m6 m7
        assumption
    · assumption
  clear_value v2
  refine State.dropOp_inv _ _ ?_
  refine State.modPair_inv _ _ _ ?_
  assumption

theorem doFutureCompletion_inv : ∀ (s : State), s.Inv → (doFutureCompletion s).Inv := by
  intro s h_s
  unfold doFutureCompletion
  split
  · rename_i m1 m2
    assumption
  · rename_i m3 m4 m5
    split
    · rename_i m6 m7 m8
      refine ite_inv (fun _ => ?_) (fun _ => ?_)
      · assumption
      · split
        · rename_i m9 m10
          refine State.dropOp_inv _ _ ?_
          assumption
        · rename_i m11 m12 m13
          refine ite_inv (fun _ => ?_) (fun _ => ?_)
          · refine State.dropOp_inv _ _ ?_
            assumption
          · refine ite_inv (fun _ => ?_) (fun _ => ?_)
            · refine State.settleFuture_inv _ _ _ _ _ _ ?_
              assumption
            · assumption
    · rename_i m14 m15
      assumption

theorem doFutureFailure_inv : ∀ (s : State), s.Inv → (doFutureFailure s).Inv := by
  intro s h_s
  unfold doFutureFailure
  split
  · rename_i m1 m2
    assumption
  · rename_i m3 m4 m5
    split
    · rename_i m6 m7 m8 m9 m10 m11
      extract_lets v12
      clear_value v12
      split
      · rename_i m13 m14
        refine State.dropOp_inv _ _ ?_
        assumption
      · rename_i m15 m16 m17
        refine ite_inv (fun _ => ?_) (fun _ => ?_)
        · refine State.dropOp_inv _ _ ?_
          refine State.report_inv _ _ _ ?_
          assumption
        · refine ite_inv (fun _ => ?_) (fun _ => ?_)
          · refine State.settleFuture_inv _ _ _ _ _ _ ?_
            assumption
          · assumption
    · rename_i m18 m19
      assumption

theorem State.dropAcc_inv : ∀ (s : State) (a : ℕ), s.Inv → (State.dropAcc s a).Inv := by
  intro s a h_s
  unfold State.dropAcc
  refine inv_mk ?_
  refine inv_mem ?_
  assumption

theorem doLoadReturn_inv : ∀ (id : ℕ) (s : State), s.Inv → (doLoadReturn id s).Inv := by
  intro id s h_s
  unfold doLoadReturn
  split
  · rename_i m1 m2
    assumption
  · rename_i m3 m4 m5
    refine ite_inv (fun _ => ?_) (fun _ => ?_)
    · assumption
    · split
      · rename_i m6 m7 m8
        assumption
      · rename_i m9 m10 m11 m12 m13
        refine State.dropAcc_inv _ _ ?_
        assumption
      · rename_i m14 m15 m16 m17 m18 m19
        refine ite_inv (fun _ => ?_) (fun _ => ?_)
        · split
          · rename_i m20 m21 m22 m23 m24
            refine State.report_inv _ _ _ ?_
            refine State.dropAcc_inv _ _ ?_
            assumption
          · rename_i m25 m26
            refine State.dropAcc_inv _ _ ?_
            assumption
        · refine ite_inv (fun _ => ?_) (fun _ => ?_)
          · assumption
          · extract_lets v27
            have hv27 : State.Inv v27 := by
              unfold v27
              refine State.dropAcc_inv _ _ ?_
              assumption
            clear_value v27
            split
            · rename_i m28 m29 m30 m31 m32
              refine State.dueAt_inv _ _ _ _ _ ?_
              refine State.modPair_inv _ _ _ ?_
              assumption
            · rename_i m33 m34
              refine ite_inv (fun _ => ?_) (fun _ => ?_)
              · refine State.consumePoison_inv _ _ _ _ ?_
                refine State.modPair_inv _ _ _ ?_
                assumption
              · refine State.modPair_inv _ _ _ ?_
                assumption

theorem doPlainAck_inv : ∀ (s : State), s.Inv → (doPlainAck s).Inv := by
  intro s h_s
  unfold doPlainAck
  refine State.modHart_inv _ _ _ ?_
  assumption

theorem doRecvtTimeout_inv : ∀ (s : State), s.Inv → (doRecvtTimeout s).Inv := by
  intro s h_s
  unfold doRecvtTimeout
  split
  · rename_i m1 m2
    assumption
  · rename_i m3 m4 m5
    refine ite_inv (fun _ => ?_) (fun _ => ?_)
    · refine State.modHart_inv _ _ _ ?_
      assumption
    · assumption

theorem doYieldTimeout_inv : ∀ (s : State), s.Inv → (doYieldTimeout s).Inv := by
  intro s h_s
  unfold doYieldTimeout
  refine State.modHart_inv _ _ _ ?_
  assumption

theorem doChiselFinish_inv : ∀ (s : State), s.Inv → (doChiselFinish s).Inv := by
  intro s h_s
  unfold doChiselFinish
  refine State.modCore_inv _ _ _ ?_
  assumption

theorem State.countUe_inv : ∀ (s : State) (core : ℕ), s.Inv → (State.countUe s core).Inv := by
  intro s core h_s
  unfold State.countUe
  extract_lets v1 v2
  have hv1 : State.Inv v1 := by
    unfold v1
    refine State.modCluster_inv _ _ _ ?_
    assumption
  clear_value v1
  clear_value v2
  refine ite_inv (fun _ => ?_) (fun _ => ?_)
  · refine State.beginRetire_inv _ _ ?_
    assumption
  · assumption

theorem doPoisonConsume_inv : ∀ (reg : ℕ) (s : State), s.Inv → (doPoisonConsume reg s).Inv := by
  intro reg s h_s
  unfold doPoisonConsume
  split
  · rename_i m1 m2
    assumption
  · rename_i m3 m4 m5
    refine ite_inv (fun _ => ?_) (fun _ => ?_)
    · refine State.countUe_inv _ _ ?_
      refine State.consumePoison_inv _ _ _ _ ?_
      refine State.modHart_inv _ _ _ ?_
      assumption
    · assumption

theorem doScrubDone_inv : ∀ (s : State), s.Inv → (doScrubDone s).Inv := by
  intro s h_s
  unfold doScrubDone
  refine State.modHart_inv _ _ _ ?_
  assumption

theorem State.pairMismatch_inv : ∀ (s : State) (h : ℕ) (x : Hart) (pc : Word) (bits : Word) (sub : ℕ), s.Inv → (State.pairMismatch s h x pc bits sub).Inv := by
  intro s h x pc bits sub h_s
  unfold State.pairMismatch
  extract_lets v1 v2 v3 v4 v5
  clear_value v1
  have hv2 : State.Inv v2 := by
    unfold v2
    refine State.logRec_inv _ _ _ _ _ _ _ ?_
    assumption
  clear_value v2
  clear_value v3
  clear_value v4
  have hv5 : State.Inv v5 := by
    unfold v5
    refine inv_mk ?_
    refine inv_mem ?_
    assumption
  clear_value v5
  refine ite_inv (fun _ => ?_) (fun _ => ?_)
  · refine State.dueAt_inv _ _ _ _ _ ?_
    assumption
  · refine State.fwEnd_inv _ _ _ _ _ _ _ ?_
    assumption

theorem doComparator_inv : ∀ (s : State), s.Inv → (doComparator s).Inv := by
  intro s h_s
  unfold doComparator
  split
  · rename_i m1 m2
    assumption
  · rename_i m3 m4 m5
    split
    · rename_i m6 m7 m8 m9
      refine ite_inv (fun _ => ?_) (fun _ => ?_)
      · assumption
      · split
        · rename_i m10 m11 m12 m13 m14 m15 m16 m17
          refine ite_inv (fun _ => ?_) (fun _ => ?_)
          · refine State.modHart_inv _ _ _ ?_
            assumption
          · refine State.pairMismatch_inv _ _ _ _ _ _ ?_
            assumption
        · rename_i m18 m19 m20 m21 m22 m23
          refine ite_inv (fun _ => ?_) (fun _ => ?_)
          · refine State.pairMismatch_inv _ _ _ _ _ _ ?_
            assumption
          · assumption
        · rename_i m24 m25 m26 m27 m28 m29
          refine ite_inv (fun _ => ?_) (fun _ => ?_)
          · refine State.pairMismatch_inv _ _ _ _ _ _ ?_
            assumption
          · assumption
        · rename_i m30 m31 m32 m33
          assumption
    · rename_i m34 m35
      assumption

theorem doTrailingTimeout_inv : ∀ (s : State), s.Inv → (doTrailingTimeout s).Inv := by
  intro s h_s
  unfold doTrailingTimeout
  split
  · rename_i m1 m2
    assumption
  · rename_i m3 m4 m5
    split
    · rename_i m6 m7 m8 m9 m10 m11 m12 m13
      refine ite_inv (fun _ => ?_) (fun _ => ?_)
      · refine State.pairMismatch_inv _ _ _ _ _ _ ?_
        assumption
      · assumption
    · rename_i m14 m15 m16
      assumption

theorem doDeadlineMiss_inv : ∀ (s : State), s.Inv → (doDeadlineMiss s).Inv := by
  intro s h_s
  unfold doDeadlineMiss
  split
  · rename_i m1 m2
    assumption
  · rename_i m3 m4 m5
    extract_lets v6
    clear_value v6
    refine ite_inv (fun _ => ?_) (fun _ => ?_)
    · assumption
    · split
      · rename_i m7 m8
        assumption
      · rename_i m9 m10 m11
        split
        · rename_i m12 m13 m14
          refine ite_inv (fun _ => ?_) (fun _ => ?_)
          · refine State.dueAt_inv _ _ _ _ _ ?_
            refine State.modBlock_inv _ _ _ ?_
            assumption
          · assumption
        · rename_i m15 m16
          assumption

theorem doWaitEntry_inv : ∀ (s : State), s.Inv → (doWaitEntry s).Inv := by
  intro s h_s
  unfold doWaitEntry
  split
  · rename_i m1 m2
    assumption
  · rename_i m3 m4 m5
    refine ite_inv (fun _ => ?_) (fun _ => ?_)
    · refine State.modHart_inv _ _ _ ?_
      assumption
    · assumption

theorem doHangTest_inv : ∀ (s : State), s.Inv → (doHangTest s).Inv := by
  intro s h_s
  unfold doHangTest
  split
  · rename_i m1 m2
    assumption
  · rename_i m3 m4 m5
    extract_lets v6 v7 v8 v9 v10
    rename_i v11
    clear_value v6
    clear_value v7
    clear_value v8
    clear_value v9
    clear_value v10
    have hv11 : State.Inv v11 := by
      unfold v11
      refine State.modGrid_inv _ _ _ ?_
      assumption
    clear_value v11
    refine ite_inv (fun _ => ?_) (fun _ => ?_)
    · assumption
    · refine foldl_inv ?_ (fun t12 x13 ht12 => ?_)
      · assumption
      · split
        · rename_i m14 m15 m16
          refine State.dueAt_inv _ _ _ _ _ ?_
          assumption
        · rename_i m17 m18
          assumption

theorem execBoundaryDelivery_inv : ∀ (s : State), s.Inv → Safe (execBoundaryDelivery s) := by
  intro s h_s
  unfold execBoundaryDelivery
  refine safe_next ?_
  refine doBoundary_inv _ ?_
  assumption

theorem execFutureCompletion_inv : ∀ (s : State), s.Inv → Safe (execFutureCompletion s) := by
  intro s h_s
  unfold execFutureCompletion
  refine safe_next ?_
  refine doFutureCompletion_inv _ ?_
  assumption

theorem execFutureFailure_inv : ∀ (s : State), s.Inv → Safe (execFutureFailure s) := by
  intro s h_s
  unfold execFutureFailure
  refine safe_next ?_
  refine doFutureFailure_inv _ ?_
  assumption

theorem execRelaxedLoadReturn_inv : ∀ (acc : ℕ) (s : State), s.Inv → Safe (execRelaxedLoadReturn acc s) := by
  intro acc s h_s
  unfold execRelaxedLoadReturn
  refine safe_next ?_
  refine doLoadReturn_inv _ _ ?_
  assumption

theorem execPlainAcknowledgement_inv : ∀ (s : State), s.Inv → Safe (execPlainAcknowledgement s) := by
  intro s h_s
  unfold execPlainAcknowledgement
  refine safe_next ?_
  refine doPlainAck_inv _ ?_
  assumption

theorem execRecvtTimeout_inv : ∀ (s : State), s.Inv → Safe (execRecvtTimeout s) := by
  intro s h_s
  unfold execRecvtTimeout
  refine safe_next ?_
  refine doRecvtTimeout_inv _ ?_
  assumption

theorem execYieldTimeout_inv : ∀ (s : State), s.Inv → Safe (execYieldTimeout s) := by
  intro s h_s
  unfold execYieldTimeout
  refine safe_next ?_
  refine doYieldTimeout_inv _ ?_
  assumption

theorem execChiselUnitFinish_inv : ∀ (s : State), s.Inv → Safe (execChiselUnitFinish s) := by
  intro s h_s
  unfold execChiselUnitFinish
  refine safe_next ?_
  refine doChiselFinish_inv _ ?_
  assumption

theorem execPoisonConsume_inv : ∀ (reg : ℕ) (s : State), s.Inv → Safe (execPoisonConsume reg s) := by
  intro reg s h_s
  unfold execPoisonConsume
  refine safe_next ?_
  refine doPoisonConsume_inv _ _ ?_
  assumption

theorem execRegisterScrubDone_inv : ∀ (s : State), s.Inv → Safe (execRegisterScrubDone s) := by
  intro s h_s
  unfold execRegisterScrubDone
  refine safe_next ?_
  refine doScrubDone_inv _ ?_
  assumption

theorem execComparatorMatch_inv : ∀ (s : State), s.Inv → Safe (execComparatorMatch s) := by
  intro s h_s
  unfold execComparatorMatch
  refine safe_next ?_
  refine doComparator_inv _ ?_
  assumption

theorem execTrailingTimeout_inv : ∀ (s : State), s.Inv → Safe (execTrailingTimeout s) := by
  intro s h_s
  unfold execTrailingTimeout
  refine safe_next ?_
  refine doTrailingTimeout_inv _ ?_
  assumption

theorem execDeadlineMissDetect_inv : ∀ (s : State), s.Inv → Safe (execDeadlineMissDetect s) := by
  intro s h_s
  unfold execDeadlineMissDetect
  refine safe_next ?_
  refine doDeadlineMiss_inv _ ?_
  assumption

theorem execWaitEntryValid_inv : ∀ (s : State), s.Inv → Safe (execWaitEntryValid s) := by
  intro s h_s
  unfold execWaitEntryValid
  refine safe_next ?_
  refine doWaitEntry_inv _ ?_
  assumption

theorem execHangTest_inv : ∀ (s : State), s.Inv → Safe (execHangTest s) := by
  intro s h_s
  unfold execHangTest
  refine safe_next ?_
  refine doHangTest_inv _ ?_
  assumption

/-! ### Machine/EvBank.lean -/

theorem State.opMiss_inv : ∀ (s : State) (o : ℕ) (p : Op) (pg : PageRef) (kind : AccKind) (va : Word) (n : ℕ), s.Inv → (State.opMiss s o p pg kind va n).Inv := by
  intro s o p pg kind va n h_s
  unfold State.opMiss
  refine State.modOp_inv _ _ _ ?_
  refine State.holdMiss_inv _ _ _ _ _ _ _ ?_
  assumption

theorem State.opBehind_inv : ∀ (s : State) (o : ℕ) (p : Op) (pg : PageRef) (kind : AccKind) (va : Word) (n : ℕ) (why : HoldWhy), s.Inv → (State.opBehind s o p pg kind va n why).Inv := by
  intro s o p pg kind va n why h_s
  unfold State.opBehind
  refine State.modOp_inv _ _ _ ?_
  refine State.holdBehind_inv _ _ _ _ _ _ _ _ ?_
  assumption

theorem State.atBank_inv : ∀ (s : State) (o : ℕ) (p : Op) (kind : AccKind) (va : Word) (n : ℕ) (act : ℕ → State → State), s.Inv → (∀ (b0 : ℕ) (b1 : State), b1.Inv → (act b0 b1).Inv) → (State.atBank s o p kind va n act).Inv := by
  intro s o p kind va n act h_s h_act
  unfold State.atBank
  split
  · rename_i m1 m2 m3 m4
    refine ite_inv (fun _ => ?_) (fun _ => ?_)
    · refine State.opFail_inv _ _ _ _ _ _ ?_
      refine pair_inv ?_ m4
      refine State.bankLine_inv _ _ _ _ _ _ ?_
      assumption
    · refine h_act _ _ ?_
      refine pair_inv ?_ m4
      refine State.bankLine_inv _ _ _ _ _ _ ?_
      assumption
  · rename_i m5 m6 m7 m8 m9
    refine State.opFail_inv _ _ _ _ _ _ ?_
    refine pair_inv ?_ m9
    refine State.bankLine_inv _ _ _ _ _ _ ?_
    assumption
  · rename_i m10 m11 m12 m13
    refine State.opMiss_inv _ _ _ _ _ _ _ ?_
    refine pair_inv ?_ m13
    refine State.bankLine_inv _ _ _ _ _ _ ?_
    assumption
  · rename_i m14 m15 m16 m17 m18
    refine State.opBehind_inv _ _ _ _ _ _ _ _ ?_
    refine pair_inv ?_ m18
    refine State.bankLine_inv _ _ _ _ _ _ ?_
    assumption
  · rename_i m19 m20 m21
    refine State.opLost_inv _ _ _ _ ?_
    refine pair_inv ?_ m21
    refine State.bankLine_inv _ _ _ _ _ _ ?_
    assumption
  · rename_i m22 m23 m24
    refine pair_inv ?_ m24
    refine State.bankLine_inv _ _ _ _ _ _ ?_
    assumption

theorem State.whenReady_inv : ∀ (s : State) (o : ℕ) (act : Op → State → State), s.Inv → (∀ (b0 : Op) (b1 : State), b1.Inv → (act b0 b1).Inv) → (State.whenReady s o act).Inv := by
  intro s o act h_s h_act
  unfold State.whenReady
  split
  · rename_i m1 m2 m3
    refine ite_inv (fun _ => ?_) (fun _ => ?_)
    · extract_lets v4
      have hv4 : SndInv v4 := by
        unfold v4
        refine State.opReady_inv _ _ ?_
        assumption
      clear_value v4
      refine ite_inv (fun _ => ?_) (fun _ => ?_)
      · refine h_act _ _ ?_
        refine snd_inv ?_
        assumption
      · refine snd_inv ?_
        assumption
    · assumption
  · rename_i m5 m6
    assumption

theorem State.bankDo_inv : ∀ (s : State) (o : ℕ) (p : Op), s.Inv → (State.bankDo s o p).Inv := by
  intro s o p h_s
  unfold State.bankDo
  split
  · rename_i m1 m2 m3 m4 m5 m6 m7
    extract_lets v8
    clear_value v8
    refine State.atBank_inv _ _ _ _ _ _ _ ?_ ?_
    · assumption
    · intro y9
      intro y10
      intro y11
      extract_lets v12
      clear_value v12
      refine State.opDone_inv _ _ _ ?_
      refine State.putNat_inv _ _ _ _ ?_
      assumption
  · rename_i m13 m14 m15 m16 m17
    refine State.atBank_inv _ _ _ _ _ _ _ ?_ ?_
    · assumption
    · intro y18
      intro y9
      intro y10
      refine State.opDone_inv _ _ _ ?_
      refine State.putMem_inv _ _ _ ?_
      assumption
  · rename_i m19 m20 m21
    assumption

theorem State.putBankQueue_inv : ∀ (s : State) (m : ℕ) (q : ℕ) (d : BitVec 128), s.Inv → (State.putBankQueue s m q d).Inv := by
  intro s m q d h_s
  unfold State.putBankQueue
  refine State.modMc_inv _ _ _ ?_
  assumption

theorem State.enqPlace_inv : ∀ (s : State) (o : ℕ) (m : ℕ) (q : ℕ) (k : ℕ) (v : Word), s.Inv → (State.enqPlace s o m q k v).Inv := by
  intro s o m q k v h_s
  unfold State.enqPlace
  extract_lets v1 v2 v3
  clear_value v1
  have hv2 : State.Inv v2 := by
    unfold v2
    refine State.putNat_inv _ _ _ _ ?_
    assumption
  clear_value v2
  clear_value v3
  split
  · rename_i m4 m5 m6 m7
    refine State.opDone_inv _ _ _ ?_
    refine State.opDone_inv _ _ _ ?_
    refine State.modMc_inv _ _ _ ?_
    refine State.putBankQueue_inv _ _ _ _ ?_
    assumption
  · rename_i m8 m9
    refine State.opDone_inv _ _ _ ?_
    refine State.putBankQueue_inv _ _ _ _ ?_
    assumption

theorem State.enqDo_inv : ∀ (s : State) (o : ℕ) (p : Op) (hd : Word) (v : Word), s.Inv → (State.enqDo s o p hd v).Inv := by
  intro s o p hd v h_s
  unfold State.enqDo
  split
  · rename_i m1 m2
    refine State.opFail_inv _ _ _ _ _ _ ?_
    assumption
  · rename_i m3 m4 m5 m6
    extract_lets v7
    clear_value v7
    refine ite_inv (fun _ => ?_) (fun _ => ?_)
    · refine State.opFail_inv _ _ _ _ _ _ ?_
      assumption
    · refine ite_inv (fun _ => ?_) (fun _ => ?_)
      · refine State.modMc_inv _ _ _ ?_
        refine State.modOp_inv _ _ _ ?_
        assumption
      · refine State.atBank_inv _ _ _ _ _ _ _ ?_ ?_
        · assumption
        · intro y8
          intro y9
          intro y10
          refine State.enqPlace_inv _ _ _ _ _ _ ?_
          assumption

theorem State.enqNext_inv : ∀ (s : State) (m : ℕ) (q : ℕ), s.Inv → (State.enqNext s m q).Inv := by
  intro s m q h_s
  unfold State.enqNext
  split
  · rename_i m1 m2
    assumption
  · rename_i m3 m4 m5 m6
    extract_lets v7
    rename_i v8
    clear_value v7
    have hv8 : State.Inv v8 := by
      unfold v8
      refine State.modOp_inv _ _ _ ?_
      refine State.modMc_inv _ _ _ ?_
      assumption
    clear_value v8
    refine ite_inv (fun _ => ?_) (fun _ => ?_)
    · assumption
    · split
      · rename_i m9 m10 m11
        split
        · rename_i m12 m13 m14 m15
          refine State.enqDo_inv _ _ _ _ _ ?_
          assumption
        · rename_i m16 m17
          assumption
      · rename_i m18 m19
        assumption

theorem State.deqDo_inv : ∀ (s : State) (o : ℕ) (p : Op) (hd : Word), s.Inv → (State.deqDo s o p hd).Inv := by
  intro s o p hd h_s
  unfold State.deqDo
  split
  · rename_i m1 m2
    refine State.opFail_inv _ _ _ _ _ _ ?_
    assumption
  · rename_i m3 m4 m5 m6
    extract_lets v7
    clear_value v7
    refine ite_inv (fun _ => ?_) (fun _ => ?_)
    · refine State.opFail_inv _ _ _ _ _ _ ?_
      assumption
    · refine ite_inv (fun _ => ?_) (fun _ => ?_)
      · refine State.modMc_inv _ _ _ ?_
        refine State.modOp_inv _ _ _ ?_
        assumption
      · refine State.atBank_inv _ _ _ _ _ _ _ ?_ ?_
        · assumption
        · intro y8
          intro y9
          intro y10
          extract_lets v11
          clear_value v11
          refine State.enqNext_inv _ _ _ ?_
          refine State.opDone_inv _ _ _ ?_
          refine State.putBankQueue_inv _ _ _ _ ?_
          assumption

theorem State.lenDo_inv : ∀ (s : State) (o : ℕ) (hd : Word), s.Inv → (State.lenDo s o hd).Inv := by
  intro s o hd h_s
  unfold State.lenDo
  split
  · rename_i m1 m2
    refine State.opFail_inv _ _ _ _ _ _ ?_
    assumption
  · rename_i m3 m4 m5 m6
    extract_lets v7
    clear_value v7
    refine ite_inv (fun _ => ?_) (fun _ => ?_)
    · refine State.opDone_inv _ _ _ ?_
      assumption
    · refine State.opFail_inv _ _ _ _ _ _ ?_
      assumption

theorem State.queueReach_inv : ∀ (s : State) (o : ℕ) (p : Op) (hd : Word) (act : State), s.Inv → act.Inv → (State.queueReach s o p hd act).Inv := by
  intro s o p hd act h_s h_act
  unfold State.queueReach
  refine ite_inv (fun _ => ?_) (fun _ => ?_)
  · refine State.opFail_inv _ _ _ _ _ _ ?_
    assumption
  · split
    · rename_i m1 m2
      assumption
    · rename_i m3 m4
      refine State.opLost_inv _ _ _ _ ?_
      assumption
    · rename_i m5 m6
      refine State.opFail_inv _ _ _ _ _ _ ?_
      assumption
    · rename_i m7 m8
      assumption

theorem State.queueDo_inv : ∀ (s : State) (o : ℕ) (p : Op), s.Inv → (State.queueDo s o p).Inv := by
  intro s o p h_s
  unfold State.queueDo
  extract_lets v1
  split
  · rename_i m2 m3 m4 m5
    simp only [v1]
    refine State.queueReach_inv _ _ _ _ _ ?_ ?_
    · assumption
    · refine State.enqDo_inv _ _ _ _ _ ?_
      assumption
  · rename_i m6 m7 m8
    simp only [v1]
    refine State.queueReach_inv _ _ _ _ _ ?_ ?_
    · assumption
    · refine State.deqDo_inv _ _ _ _ ?_
      assumption
  · rename_i m9 m10 m11
    simp only [v1]
    refine State.queueReach_inv _ _ _ _ _ ?_ ?_
    · assumption
    · refine State.lenDo_inv _ _ _ ?_
      assumption
  · rename_i m12 m13 m14 m15
    assumption

theorem State.bwaitDo_inv : ∀ (s : State) (o : ℕ) (p : Op) (obj : Word) (token : BitVec 32), s.Inv → (State.bwaitDo s o p obj token).Inv := by
  intro s o p obj token h_s
  unfold State.bwaitDo
  split
  · rename_i m1 m2
    assumption
  · rename_i m3 m4 m5
    extract_lets v6
    rename_i v7
    clear_value v6
    have hv7 : State.Inv v7 := by
      unfold v7
      refine State.modOp_inv _ _ _ ?_
      assumption
    clear_value v7
    refine ite_inv (fun _ => ?_) (fun _ => ?_)
    · split
      · rename_i m8 m9 m10
        refine some_inv ?_ m10
        refine State.bwaitTest_inv _ _ _ _ ?_
        assumption
      · rename_i m11 m12
        refine ite_inv (fun _ => ?_) (fun _ => ?_)
        · refine State.modGroup_inv _ _ _ ?_
          assumption
        · split
          · rename_i m13 m14 m15
            refine State.modBlock_inv _ _ _ ?_
            assumption
          · rename_i m16 m17
            assumption
    · refine State.atBank_inv _ _ _ _ _ _ _ ?_ ?_
      · assumption
      · intro y18
        intro y19
        intro y20
        split
        · rename_i m21 m22 m23
          refine some_inv ?_ m23
          refine State.bwaitTest_inv _ _ _ _ ?_
          assumption
        · rename_i m24 m25
          extract_lets v26
          have hv26 : State.Inv v26 := by
            unfold v26
            refine State.modOp_inv _ _ _ ?_
            assumption
          clear_value v26
          refine inv_mk ?_
          refine inv_mem ?_
          assumption

theorem doGridArrival_inv : ∀ (s : State), s.Inv → (doGridArrival s).Inv := by
  intro s h_s
  unfold doGridArrival
  split
  · rename_i m1 m2
    assumption
  · rename_i m3 m4 m5
    extract_lets v6
    clear_value v6
    refine ite_inv (fun _ => ?_) (fun _ => ?_)
    · assumption
    · split
      · rename_i m7 m8 m9 m10
        refine State.gridArrive_inv _ _ _ ?_
        refine pair_inv ?_ m10
        refine State.bankLine_inv _ _ _ _ _ _ ?_
        assumption
      · rename_i m11 m12 m13 m14 m15
        refine State.failGridArr_inv _ _ _ _ ?_
        refine pair_inv ?_ m15
        refine State.bankLine_inv _ _ _ _ _ _ ?_
        assumption
      · rename_i m16 m17 m18 m19
        refine State.holdMiss_inv _ _ _ _ _ _ _ ?_
        refine pair_inv ?_ m19
        refine State.bankLine_inv _ _ _ _ _ _ ?_
        assumption
      · rename_i m20 m21 m22 m23 m24
        refine State.holdBehind_inv _ _ _ _ _ _ _ _ ?_
        refine pair_inv ?_ m24
        refine State.bankLine_inv _ _ _ _ _ _ ?_
        assumption
      · rename_i m25 m26 m27
        refine State.holdLost_inv _ _ _ _ _ _ ?_
        refine pair_inv ?_ m27
        refine State.bankLine_inv _ _ _ _ _ _ ?_
        assumption
      · rename_i m28 m29 m30
        refine pair_inv ?_ m30
        refine State.bankLine_inv _ _ _ _ _ _ ?_
        assumption

theorem State.performOp_inv : ∀ (s : State) (o : ℕ) (p : Op), s.Inv → (State.performOp s o p).Inv := by
  intro s o p h_s
  unfold State.performOp
  split
  · rename_i m1 m2 m3 m4 m5 m6 m7
    refine State.bankDo_inv _ _ _ ?_
    assumption
  · rename_i m8 m9 m10 m11 m12
    refine State.bankDo_inv _ _ _ ?_
    assumption
  · rename_i m13 m14 m15 m16
    refine State.queueDo_inv _ _ _ ?_
    assumption
  · rename_i m17 m18 m19
    refine State.queueDo_inv _ _ _ ?_
    assumption
  · rename_i m20 m21 m22
    refine State.queueDo_inv _ _ _ ?_
    assumption
  · rename_i m23 m24 m25 m26 m27 m28 m29
    refine State.arrive_inv _ _ _ _ _ _ ?_
    assumption
  · rename_i m30 m31 m32 m33
    refine State.bwaitDo_inv _ _ _ _ _ ?_
    assumption
  · rename_i m34 m35 m36 m37 m38 m39 m40 m41
    assumption

theorem doOpEvent_inv : ∀ (ok : OpKind → Bool) (s : State), s.Inv → (doOpEvent ok s).Inv := by
  intro ok s h_s
  unfold doOpEvent
  refine State.whenReady_inv _ _ _ ?_ ?_
  · assumption
  · intro y1
    intro y2
    intro y3
    refine ite_inv (fun _ => ?_) (fun _ => ?_)
    · refine State.performOp_inv _ _ _ ?_
      assumption
    · assumption

theorem doDeadlineLoan_inv : ∀ (s : State), s.Inv → (doDeadlineLoan s).Inv := by
  intro s h_s
  unfold doDeadlineLoan
  extract_lets v1 v2
  clear_value v1
  have hv2 : State.Inv v2 := by
    unfold v2
    refine inv_mk ?_
    refine inv_mem ?_
    assumption
  clear_value v2
  split
  · rename_i m3 m4
    assumption
  · rename_i m5 m6 m7
    split
    · rename_i m8 m9
      assumption
    · rename_i m10 m11 m12
      extract_lets v13
      rename_i v14
      clear_value v13
      clear_value v14
      refine ite_inv (fun _ => ?_) (fun _ => ?_)
      · assumption
      · refine foldl_inv ?_ (fun t15 x16 ht15 => ?_)
        · assumption
        · refine State.modGroup_inv _ _ _ ?_
          assumption

theorem execBankOperation_inv : ∀ (s : State), s.Inv → Safe (execBankOperation s) := by
  intro s h_s
  unfold execBankOperation
  refine safe_next ?_
  refine doOpEvent_inv _ _ ?_
  assumption

theorem execQueueEnqueue_inv : ∀ (s : State), s.Inv → Safe (execQueueEnqueue s) := by
  intro s h_s
  unfold execQueueEnqueue
  refine safe_next ?_
  refine doOpEvent_inv _ _ ?_
  assumption

theorem execQueueDequeue_inv : ∀ (s : State), s.Inv → Safe (execQueueDequeue s) := by
  intro s h_s
  unfold execQueueDequeue
  refine safe_next ?_
  refine doOpEvent_inv _ _ ?_
  assumption

theorem execQueueLength_inv : ∀ (s : State), s.Inv → Safe (execQueueLength s) := by
  intro s h_s
  unfold execQueueLength
  refine safe_next ?_
  refine doOpEvent_inv _ _ ?_
  assumption

theorem execBarrierArrival_inv : ∀ (s : State), s.Inv → Safe (execBarrierArrival s) := by
  intro s h_s
  unfold execBarrierArrival
  refine safe_next ?_
  refine doOpEvent_inv _ _ ?_
  assumption

theorem execBwaitTest_inv : ∀ (s : State), s.Inv → Safe (execBwaitTest s) := by
  intro s h_s
  unfold execBwaitTest
  refine safe_next ?_
  refine doOpEvent_inv _ _ ?_
  assumption

theorem execGridArrival_inv : ∀ (s : State), s.Inv → Safe (execGridArrival s) := by
  intro s h_s
  unfold execGridArrival
  refine safe_next ?_
  refine doGridArrival_inv _ ?_
  assumption

theorem execDeadlineLoan_inv : ∀ (s : State), s.Inv → Safe (execDeadlineLoan s) := by
  intro s h_s
  unfold execDeadlineLoan
  refine safe_next ?_
  refine doDeadlineLoan_inv _ ?_
  assumption

theorem execQueueDescriptorWrite_inv : ∀ (q : ℕ) (half : ℕ) (w : Word) (s : State), s.Inv → Safe (execQueueDescriptorWrite q half w s) := by
  intro q half w s h_s
  unfold execQueueDescriptorWrite
  refine safe_next ?_
  refine State.queueDescWrite_inv _ _ _ _ _ ?_
  assumption

/-! ### Machine/EvHome.lean -/

theorem State.tryResume_inv : ∀ (s : State) (gi : ℕ), s.Inv → (State.tryResume s gi).Inv := by
  intro s gi h_s
  unfold State.tryResume
  split
  · rename_i m1 m2
    assumption
  · rename_i m3 m4 m5
    extract_lets v6 v7
    rename_i v8 v9 v10 v11
    clear_value v6
    clear_value v7
    clear_value v8
    have hv9 : State.Inv v9 := by
      unfold v9
      refine ite_inv (fun _ => ?_) (fun _ => ?_)
      · refine State.modBlock_inv _ _ _ ?_
        assumption
      · assumption
    clear_value v9
    have hv10 : State.Inv v10 := by
      unfold v10
      refine State.modMod_inv _ _ ?_
      refine State.modGroup_inv _ _ _ ?_
      assumption
    clear_value v10
    have hv11 : State.Inv v11 := by
      unfold v11
      refine inv_mk ?_
      refine inv_mem ?_
      assumption
    clear_value v11
    refine ite_inv (fun _ => ?_) (fun _ => ?_)
    · assumption
    · refine ite_inv (fun _ => ?_) (fun _ => ?_)
      · refine State.modGroup_inv _ _ _ ?_
        assumption
      · refine State.wakePlinth_inv _ _ ?_
        refine State.syncBars_inv _ _ ?_
        assumption

theorem State.resumeFor_inv : ∀ (s : State) (c : Ctx), s.Inv → (State.resumeFor s c).Inv := by
  intro s c h_s
  unfold State.resumeFor
  split
  · rename_i m1 m2 m3
    refine State.tryResume_inv _ _ ?_
    assumption
  · rename_i m4 m5
    assumption

theorem State.failEntry_inv : ∀ (s : State) (id : ℕ) (cause : ℕ) (sub : ℕ), s.Inv → (State.failEntry s id cause sub).Inv := by
  intro s id cause sub h_s
  unfold State.failEntry
  split
  · rename_i m1 m2
    assumption
  · rename_i m3 m4 m5
    extract_lets v6
    have hv6 : State.Inv v6 := by
      unfold v6
      refine foldl_inv ?_ (fun t7 x8 ht7 => ?_)
      · assumption
      · refine State.dueAt_inv _ _ _ _ _ ?_
        assumption
    clear_value v6
    refine inv_mk ?_
    refine inv_mem ?_
    assumption

theorem State.settleAcc_inv : ∀ (s : State) (id : ℕ), s.Inv → (State.settleAcc s id).Inv := by
  intro s id h_s
  unfold State.settleAcc
  split
  · rename_i m1 m2
    assumption
  · rename_i m3 m4 m5
    refine ite_inv (fun _ => ?_) (fun _ => ?_)
    · assumption
    · extract_lets v6
      have hv6 : State.Inv v6 := by
        unfold v6
        refine State.dropAcc_inv _ _ ?_
        assumption
      clear_value v6
      split
      · rename_i m7 m8 m9 m10 m11
        refine State.dueAt_inv _ _ _ _ _ ?_
        assumption
      · rename_i m12 m13
        assumption

theorem State.setPiece_inv : ∀ (s : State) (id : ℕ) (i : ℕ) (st : PieceSt), s.Inv → (State.setPiece s id i st).Inv := by
  intro s id i st h_s
  unfold State.setPiece
  refine inv_mk ?_
  refine inv_mem ?_
  assumption

theorem State.answerHeld_inv : ∀ (s : State) (e : Held) (a : PieceAns), s.Inv → (State.answerHeld s e a).Inv := by
  intro s e a h_s
  unfold State.answerHeld
  split
  · rename_i m1 m2 m3
    refine State.modHart_inv _ _ _ ?_
    assumption
  · rename_i m4 m5 m6 m7
    refine State.settleAcc_inv _ _ ?_
    refine State.setPiece_inv _ _ _ _ ?_
    assumption
  · rename_i m8 m9 m10
    split
    · rename_i m11 m12 m13 m14
      refine State.failEntry_inv _ _ _ _ ?_
      assumption
    · rename_i m15 m16
      refine inv_mk ?_
      refine inv_mem ?_
      assumption
  · rename_i m17 m18 m19
    split
    · rename_i m11 m12 m13 m14
      refine State.opFail_inv _ _ _ _ _ _ ?_
      assumption
    · rename_i m15 m16
      assumption
  · rename_i m20 m21 m22
    split
    · rename_i m11 m12 m13 m14 m23 m24 m25
      refine State.failGridArr_inv _ _ _ _ ?_
      assumption
    · rename_i m15 m16 m26 m27
      assumption
  · rename_i m28 m29 m30 m31 m32
    extract_lets v33 v34
    clear_value v33
    have hv34 : State.Inv v34 := by
      unfold v34
      refine ite_inv (fun _ => ?_) (fun _ => ?_)
      · refine State.poisonAt_inv _ _ _ ?_
        assumption
      · assumption
    clear_value v34
    refine inv_mk ?_
    refine inv_mem ?_
    assumption
  · rename_i m35 m36 m37
    refine State.modHart_inv _ _ _ ?_
    assumption
  · rename_i m38 m39 m40
    split
    · rename_i m11 m12 m13 m14 m23 m24 m25
      refine State.report_inv _ _ _ ?_
      refine State.modHart_inv _ _ _ ?_
      assumption
    · rename_i m15 m16 m26 m27
      assumption
  · rename_i m41 m42
    split
    · rename_i m11 m12 m13 m14
      refine inv_mk ?_
      refine inv_mem ?_
      assumption
    · rename_i m15 m16
      assumption
  · rename_i m43 m44
    split
    · rename_i m11 m12 m13 m14
      refine State.sendFail_inv _ _ _ _ _ _ ?_
      assumption
    · rename_i m15 m16
      assumption
  · rename_i m45 m46 m47
    split
    · rename_i m11 m12 m13 m14
      refine State.hostFail_inv _ _ _ ?_
      assumption
    · rename_i m15 m16
      assumption
  · rename_i m48 m49 m50
    split
    · rename_i m11 m12 m13 m14
      refine State.hostFail_inv _ _ _ ?_
      assumption
    · rename_i m15 m16
      assumption
  · rename_i m51 m52 m53 m54
    refine State.modPlinth_inv _ _ _ ?_
    assumption

theorem State.dropHeld_inv : ∀ (s : State) (e : Held), s.Inv → (State.dropHeld s e).Inv := by
  intro s e h_s
  unfold State.dropHeld
  refine inv_mk ?_
  refine inv_mem ?_
  assumption

theorem State.pastHeld_inv : ∀ (s : State) (f : State → State), s.Inv → (∀ (b0 : State), b0.Inv → (f b0).Inv) → (State.pastHeld s f).Inv := by
  intro s f h_s h_f
  unfold State.pastHeld
  extract_lets v1
  have hv1 : State.Inv v1 := by
    unfold v1
    refine h_f _ ?_
    refine inv_mk ?_
    refine inv_mem ?_
    assumption
  clear_value v1
  refine inv_mk ?_
  refine inv_mem ?_
  assumption

theorem State.tryHeld_inv : ∀ (s : State) (e : Held) (fail : Bool), s.Inv → OptInv (State.tryHeld s e fail) := by
  intro s e fail h_s
  unfold State.tryHeld
  extract_lets v1 v2
  have hv1 : State.Inv v1 := by
    unfold v1
    refine State.dropHeld_inv _ _ ?_
    assumption
  clear_value v1
  clear_value v2
  split
  · rename_i m3 m4 m5 m6 m7
    extract_lets v8
    clear_value v8
    refine ite_optInv (fun _ => ?_) (fun _ => ?_)
    · exact optInv_none
    · split
      · rename_i m9 m10 m11
        split
        · rename_i m12 m13 m14
          refine optInv_some ?_
          refine State.pastHeld_inv _ _ ?_ ?_
          · refine State.modOp_inv _ _ _ ?_
            assumption
          · intro y15
            intro y16
            refine State.performOp_inv _ _ _ ?_
            assumption
        · rename_i m17 m18
          refine optInv_some ?_
          assumption
      · rename_i m19 m20 m21
        refine optInv_some ?_
        refine State.pastHeld_inv _ _ ?_ ?_
        · assumption
        · intro y22
          intro y23
          refine doGridArrival_inv _ ?_
          refine inv_mk ?_
          refine inv_mem ?_
          assumption
      · rename_i m24 m25 m26
        refine ite_optInv (fun _ => ?_) (fun _ => ?_)
        · refine optInv_some ?_
          refine State.answerHeld_inv _ _ _ ?_
          assumption
        · split
          · rename_i m27 m28 m29 m30
            refine optInv_some ?_
            refine State.answerHeld_inv _ _ _ ?_
            refine pair_inv ?_ m30
            refine State.performAt_inv _ _ _ _ _ _ _ ?_
            assumption
  · rename_i m31 m32 m33 m34
    refine optInv_some ?_
    refine State.answerHeld_inv _ _ _ ?_
    refine State.noteTable_inv _ _ _ ?_
    assumption
  · rename_i m35 m36 m37
    refine ite_optInv (fun _ => ?_) (fun _ => ?_)
    · refine optInv_some ?_
      refine State.answerHeld_inv _ _ _ ?_
      assumption
    · refine ite_optInv (fun _ => ?_) (fun _ => ?_)
      · refine optInv_some ?_
        refine State.holdMiss_inv _ _ _ _ _ _ _ ?_
        assumption
      · exact optInv_none
  · rename_i m38 m39 m40 m41
    exact optInv_none

theorem State.accRequest_inv : ∀ (s : State) (id : ℕ) (a : Acc) (k : ℕ), s.Inv → (State.accRequest s id a k).Inv := by
  intro s id a k h_s
  unfold State.accRequest
  split
  · rename_i m1 m2 m3 m4 m5 m6 m7
    refine ite_inv (fun _ => ?_) (fun _ => ?_)
    · assumption
    · extract_lets v8
      clear_value v8
      split
      · rename_i m9 m10 m11 m12
        refine State.settleAcc_inv _ _ ?_
        refine State.setPiece_inv _ _ _ _ ?_
        refine pair_inv ?_ m12
        refine State.request_inv _ _ _ _ _ _ _ ?_
        assumption
      · rename_i m13 m14 m15
        refine State.setPiece_inv _ _ _ _ ?_
        refine pair_inv ?_ m15
        refine State.request_inv _ _ _ _ _ _ _ ?_
        assumption
      · rename_i m16 m17 m18
        assumption
  · rename_i m19 m20 m21
    assumption

theorem State.entryRequest_inv : ∀ (s : State) (id : ℕ) (e : PbEnt), s.Inv → (State.entryRequest s id e).Inv := by
  intro s id e h_s
  unfold State.entryRequest
  refine ite_inv (fun _ => ?_) (fun _ => ?_)
  · assumption
  · extract_lets v1 v2 v3 v4
    rename_i v5
    clear_value v1
    clear_value v2
    clear_value v3
    clear_value v4
    clear_value v5
    split
    · rename_i m6 m7 m8 m9 m10 m11
      refine State.failEntry_inv _ _ _ _ ?_
      refine pair_inv ?_ m11
      refine State.request_inv _ _ _ _ _ _ _ ?_
      assumption
    · rename_i m12 m13 m14 m15 m16
      refine inv_mk ?_
      refine inv_mem ?_
      refine pair_inv ?_ m16
      refine State.request_inv _ _ _ _ _ _ _ ?_
      assumption
    · rename_i m17 m18 m19
      refine inv_mk ?_
      refine inv_mem ?_
      refine pair_inv ?_ m19
      refine State.request_inv _ _ _ _ _ _ _ ?_
      assumption
    · rename_i m20 m21 m22
      assumption

theorem doHomeRequest_inv : ∀ (s : State), s.Inv → (doHomeRequest s).Inv := by
  intro s h_s
  unfold doHomeRequest
  extract_lets v1
  clear_value v1
  split
  · rename_i m2 m3 m4
    refine State.accRequest_inv _ _ _ _ ?_
    assumption
  · rename_i m5 m6
    split
    · rename_i m7 m8 m9
      refine State.entryRequest_inv _ _ _ ?_
      assumption
    · rename_i m10 m11
      assumption

theorem doEntryDrain_inv : ∀ (id : ℕ) (s : State), s.Inv → (doEntryDrain id s).Inv := by
  intro id s h_s
  unfold doEntryDrain
  split
  · rename_i m1 m2 m3
    refine ite_inv (fun _ => ?_) (fun _ => ?_)
    · refine inv_mk ?_
      refine inv_mem ?_
      assumption
    · assumption
  · rename_i m4 m5
    assumption

theorem doDrainTimeout_inv : ∀ (id : ℕ) (s : State), s.Inv → (doDrainTimeout id s).Inv := by
  intro id s h_s
  unfold doDrainTimeout
  split
  · rename_i m1 m2 m3
    refine ite_inv (fun _ => ?_) (fun _ => ?_)
    · refine State.drain_inv _ _ ?_
      assumption
    · assumption
  · rename_i m4 m5
    assumption

theorem doPbFree_inv : ∀ (id : ℕ) (s : State), s.Inv → (doPbFree id s).Inv := by
  intro id s h_s
  unfold doPbFree
  split
  · rename_i m1 m2 m3
    refine ite_inv (fun _ => ?_) (fun _ => ?_)
    · refine inv_mk ?_
      refine inv_mem ?_
      assumption
    · assumption
  · rename_i m4 m5
    assumption

theorem State.keepRec_inv : ∀ (s : State) (id : ℕ) (m : MissRec), s.Inv → (State.keepRec s id m).Inv := by
  intro s id m h_s
  unfold State.keepRec
  refine ite_inv (fun _ => ?_) (fun _ => ?_)
  · refine inv_mk ?_
    refine inv_mem ?_
    assumption
  · refine inv_mk ?_
    refine inv_mem ?_
    assumption

theorem doMissAtCore_inv : ∀ (s : State), s.Inv → (doMissAtCore s).Inv := by
  intro s h_s
  unfold doMissAtCore
  split
  · rename_i m1 m2
    assumption
  · rename_i m3 m4 m5
    refine ite_inv (fun _ => ?_) (fun _ => ?_)
    · assumption
    · extract_lets v6
      have hv6 : State.Inv v6 := by
        unfold v6
        refine State.keepRec_inv _ _ _ ?_
        assumption
      clear_value v6
      split
      · rename_i m7 m8
        assumption
      · rename_i m9 m10 m11
        extract_lets v12 v13 v14
        have hv12 : State.Inv v12 := by
          unfold v12
          refine State.modGroup_inv _ _ _ ?_
          assumption
        clear_value v12
        clear_value v13
        have hv14 : State.Inv v14 := by
          unfold v14
          refine inv_mk ?_
          refine inv_mem ?_
          assumption
        clear_value v14
        refine State.tryResume_inv _ _ ?_
        assumption

theorem State.fillZero_inv : ∀ (s : State) (key : ℕ) (n : ℕ) (t : BitVec 16), s.Inv → (State.fillZero s key n t).Inv := by
  intro s key n t h_s
  unfold State.fillZero
  extract_lets v1 v2
  clear_value v1
  have hv2 : State.Inv v2 := by
    unfold v2
    refine inv_mk ?_
    refine filter_wf _ _ ?_
    refine inv_mem ?_
    assumption
  clear_value v2
  refine State.fillTags_inv _ _ _ _ ?_
  assumption

theorem State.serveMiss_inv : ∀ (s : State) (m : MissRec), s.Inv → (State.serveMiss s m).Inv := by
  intro s m h_s
  unfold State.serveMiss
  extract_lets v1 v2
  rename_i v3
  clear_value v1
  clear_value v3
  split
  · rename_i m4 m5
    refine State.hmissDone_inv _ _ _ ?_
    assumption
  · rename_i m6 m7 m8 m9
    simp only [v2]
    refine State.hmissDone_inv _ _ _ ?_
    assumption
  · rename_i m10 m11 m12 m13 m14
    refine ite_inv (fun _ => ?_) (fun _ => ?_)
    · refine ite_inv (fun _ => ?_) (fun _ => ?_)
      · assumption
      · simp only [v2]
        refine State.hmissDone_inv _ _ _ ?_
        assumption
    · refine ite_inv (fun _ => ?_) (fun _ => ?_)
      · assumption
      · extract_lets v15
        have hv15 : State.Inv v15 := by
          unfold v15
          refine ite_inv (fun _ => ?_) (fun _ => ?_)
          · assumption
          · refine State.fillZero_inv _ _ _ _ ?_
            assumption
        clear_value v15
        simp only [v2]
        refine State.hmissDone_inv _ _ _ ?_
        refine State.putNat_inv _ _ _ _ ?_
        assumption

theorem doMissService_inv : ∀ (s : State), s.Inv → (doMissService s).Inv := by
  intro s h_s
  unfold doMissService
  split
  · rename_i m1 m2
    assumption
  · rename_i m3 m4 m5
    refine ite_inv (fun _ => ?_) (fun _ => ?_)
    · assumption
    · refine ite_inv (fun _ => ?_) (fun _ => ?_)
      · assumption
      · refine ite_inv (fun _ => ?_) (fun _ => ?_)
        · refine State.keepRec_inv _ _ _ ?_
          refine State.post_inv _ _ _ _ ?_
          assumption
        · extract_lets v6
          clear_value v6
          refine ite_inv (fun _ => ?_) (fun _ => ?_)
          · assumption
          · refine State.keepRec_inv _ _ _ ?_
            refine State.serveMiss_inv _ _ ?_
            assumption

theorem doReplay_inv : ∀ (s : State), s.Inv → (doReplay s).Inv := by
  intro s h_s
  unfold doReplay
  split
  · rename_i m1 m2
    assumption
  · rename_i m3 m4 m5
    split
    · rename_i m6 m7 m8
      refine State.resumeFor_inv _ _ ?_
      refine some_inv ?_ m8
      refine State.tryHeld_inv _ _ _ ?_
      assumption
    · rename_i m9 m10
      extract_lets v11
      have hv11 : State.Inv v11 := by
        unfold v11
        split
        · rename_i m12 m13 m14
          refine State.traceMiss_inv _ _ ?_
          assumption
        · rename_i m15 m16
          assumption
      clear_value v11
      refine inv_mk ?_
      refine inv_mem ?_
      assumption

theorem doTracedResume_inv : ∀ (s : State) (h_s : s.Inv), (doTracedResume s).Inv := by
  intro s hs
  unfold doTracedResume
  split
  · exact hs
  · exact getD_findSome_inv hs (fun e t h => some_inv (State.tryHeld_inv _ _ _ hs) h)

theorem execHomeRequest_inv : ∀ (s : State), s.Inv → Safe (execHomeRequest s) := by
  intro s h_s
  unfold execHomeRequest
  refine safe_next ?_
  refine doHomeRequest_inv _ ?_
  assumption

theorem execEntryDrain_inv : ∀ (entry : ℕ) (s : State), s.Inv → Safe (execEntryDrain entry s) := by
  intro entry s h_s
  unfold execEntryDrain
  refine safe_next ?_
  refine doEntryDrain_inv _ _ ?_
  assumption

theorem execDrainTimeout_inv : ∀ (entry : ℕ) (s : State), s.Inv → Safe (execDrainTimeout entry s) := by
  intro entry s h_s
  unfold execDrainTimeout
  refine safe_next ?_
  refine doDrainTimeout_inv _ _ ?_
  assumption

theorem execPostBufferFree_inv : ∀ (entry : ℕ) (s : State), s.Inv → Safe (execPostBufferFree entry s) := by
  intro entry s h_s
  unfold execPostBufferFree
  refine safe_next ?_
  refine doPbFree_inv _ _ ?_
  assumption

theorem execMissRecordAtCore_inv : ∀ (s : State), s.Inv → Safe (execMissRecordAtCore s) := by
  intro s h_s
  unfold execMissRecordAtCore
  refine safe_next ?_
  refine doMissAtCore_inv _ ?_
  assumption

theorem execMissService_inv : ∀ (s : State), s.Inv → Safe (execMissService s) := by
  intro s h_s
  unfold execMissService
  refine safe_next ?_
  refine doMissService_inv _ ?_
  assumption

theorem execMissListReplay_inv : ∀ (s : State), s.Inv → Safe (execMissListReplay s) := by
  intro s h_s
  unfold execMissListReplay
  refine safe_next ?_
  refine doReplay_inv _ ?_
  assumption

theorem execTracedStoreResume_inv : ∀ (s : State), s.Inv → Safe (execTracedStoreResume s) := by
  intro s h_s
  unfold execTracedStoreResume
  refine safe_next ?_
  refine doTracedResume_inv _ ?_
  assumption

theorem execHtlbinv_inv : ∀ (w : Word) (s : State), s.Inv → Safe (execHtlbinv w s) := by
  intro w s h_s
  unfold execHtlbinv
  refine safe_next ?_
  refine State.htlbInv_inv _ _ _ ?_
  assumption

theorem execHmissdone_inv : ∀ (w : Word) (s : State), s.Inv → Safe (execHmissdone w s) := by
  intro w s h_s
  unfold execHmissdone
  refine safe_next ?_
  refine State.hmissDone_inv _ _ _ ?_
  assumption

/-! ### Machine/EvMigrate.lean -/

theorem doDxload_inv : ∀ (s : State), s.Inv → (doDxload s).Inv := by
  intro s h_s
  unfold doDxload
  refine State.modCluster_inv _ _ _ ?_
  assumption

theorem doMigrationStart_inv : ∀ (s : State), s.Inv → (doMigrationStart s).Inv := by
  intro s h_s
  unfold doMigrationStart
  split
  · rename_i m1 m2
    assumption
  · rename_i m3 m4 m5
    refine ite_inv (fun _ => ?_) (fun _ => ?_)
    · split
      · rename_i m6 m7 m8
        refine ite_inv (fun _ => ?_) (fun _ => ?_)
        · assumption
        · refine State.startMigration_inv _ _ _ ?_
          assumption
      · rename_i m9 m10
        assumption
    · assumption

theorem doSlotRequest_inv : ∀ (s : State), s.Inv → (doSlotRequest s).Inv := by
  intro s h_s
  unfold doSlotRequest
  split
  · rename_i m1 m2
    assumption
  · rename_i m3 m4 m5
    split
    · rename_i m6 m7 m8 m9 m10
      split
      · rename_i m11 m12 m13
        refine State.modHart_inv _ _ _ ?_
        refine State.modCluster_inv _ _ _ ?_
        assumption
      · rename_i m14 m15
        refine State.modHart_inv _ _ _ ?_
        assumption
    · rename_i m16 m17 m18
      assumption

theorem doSlotReply_inv : ∀ (s : State), s.Inv → (doSlotReply s).Inv := by
  intro s h_s
  unfold doSlotReply
  split
  · rename_i m1 m2
    assumption
  · rename_i m3 m4 m5
    split
    · rename_i m6 m7
      refine State.modHart_inv _ _ _ ?_
      assumption
    · rename_i m8 m9
      refine ite_inv (fun _ => ?_) (fun _ => ?_)
      · refine State.modHart_inv _ _ _ ?_
        assumption
      · refine State.drainFor_inv _ _ ?_
        assumption
    · rename_i m10 m11 m12
      assumption

theorem doContextArrival_inv : ∀ (s : State), s.Inv → (doContextArrival s).Inv := by
  intro s h_s
  unfold doContextArrival
  split
  · rename_i m1 m2
    assumption
  · rename_i m3 m4 m5
    split
    · rename_i m6 m7 m8 m9 m10
      split
      · rename_i m11 m12 m13 m14
        extract_lets v15 v16 v17
        clear_value v15
        have hv16 : State.Inv v16 := by
          unfold v16
          refine State.modCluster_inv _ _ _ ?_
          assumption
        clear_value v16
        clear_value v17
        refine State.modHart_inv _ _ _ ?_
        refine State.raiseC_inv _ _ _ _ ?_
        assumption
      · rename_i m18 m19
        assumption
    · rename_i m20 m21 m22
      assumption

theorem doLoadBalance_inv : ∀ (s : State), s.Inv → (doLoadBalance s).Inv := by
  intro s h_s
  unfold doLoadBalance
  extract_lets v1 v2 v3 v4
  rename_i v5
  clear_value v1
  clear_value v2
  clear_value v3
  clear_value v4
  clear_value v5
  refine ite_inv (fun _ => ?_) (fun _ => ?_)
  · assumption
  · split
    · rename_i m6 m7 m8
      refine State.modHart_inv _ _ _ ?_
      refine State.startMigration_inv _ _ _ ?_
      assumption
    · rename_i m9 m10
      assumption

theorem execMigrationStart_inv : ∀ (s : State), s.Inv → Safe (execMigrationStart s) := by
  intro s h_s
  unfold execMigrationStart
  refine safe_next ?_
  refine doMigrationStart_inv _ ?_
  assumption

theorem execMigrationSlotRequest_inv : ∀ (s : State), s.Inv → Safe (execMigrationSlotRequest s) := by
  intro s h_s
  unfold execMigrationSlotRequest
  refine safe_next ?_
  refine doSlotRequest_inv _ ?_
  assumption

theorem execMigrationSlotReply_inv : ∀ (s : State), s.Inv → Safe (execMigrationSlotReply s) := by
  intro s h_s
  unfold execMigrationSlotReply
  refine safe_next ?_
  refine doSlotReply_inv _ ?_
  assumption

theorem execMigrationContextArrival_inv : ∀ (s : State), s.Inv → Safe (execMigrationContextArrival s) := by
  intro s h_s
  unfold execMigrationContextArrival
  refine safe_next ?_
  refine doContextArrival_inv _ ?_
  assumption

theorem execLoadBalance_inv : ∀ (s : State), s.Inv → Safe (execLoadBalance s) := by
  intro s h_s
  unfold execLoadBalance
  refine safe_next ?_
  refine doLoadBalance_inv _ ?_
  assumption

theorem execDxloadRefresh_inv : ∀ (s : State), s.Inv → Safe (execDxloadRefresh s) := by
  intro s h_s
  unfold execDxloadRefresh
  refine safe_next ?_
  refine doDxload_inv _ ?_
  assumption

end Sys2Proof.Machine
end

