-- ==== Sys2Proof/Laws/Keep/Blocks.lean ====
section
/-! SUPPORT. Every operation of launches, swaps and copy engines keeps the invariant of Safety.lean. -/

namespace Sys2Proof.Machine

open Sys2Proof

/-! ### Machine/Launch.lean -/

theorem State.refuseLaunch_inv : ∀ (s : State) (asid : BitVec 16) (rec_ : Word) (cl : ℕ) (sub : ℕ), s.Inv → (State.refuseLaunch s asid rec_ cl sub).Inv := by
  intro s asid rec_ cl sub h_s
  unfold State.refuseLaunch
  refine State.errWord_inv _ _ _ _ _ _ ?_
  assumption

theorem State.newGrid_inv : ∀ (s : State) (asid : BitVec 16) (rec_ : Word) (l : Launch) (k : Khdr) (done : GridFor) (owner : ℕ), s.Inv → SndInv (State.newGrid s asid rec_ l k done owner) := by
  intro s asid rec_ l k done owner h_s
  unfold State.newGrid
  extract_lets v1 v2 v3 v4 v5 v6 v7
  rename_i v8
  clear_value v1
  clear_value v2
  clear_value v3
  clear_value v4
  clear_value v5
  clear_value v6
  clear_value v7
  have hv8 : State.Inv v8 := by
    unfold v8
    refine State.modMod_inv _ _ ?_
    assumption
  clear_value v8
  refine sndInv_mk ?_
  refine inv_mk ?_
  refine inv_mem ?_
  assumption

theorem State.openChannel_inv : ∀ (s : State) (pipe : ℕ) (asid : BitVec 16) (c : Channel), s.Inv → (State.openChannel s pipe asid c).Inv := by
  intro s pipe asid c h_s
  unfold State.openChannel
  extract_lets v1 v2 v3
  clear_value v1
  have hv2 : State.Inv v2 := by
    unfold v2
    refine State.putConf_inv _ _ _ _ ?_
    assumption
  clear_value v2
  have hv3 : State.Inv v3 := by
    unfold v3
    refine State.unitWrite_inv _ _ _ _ _ ?_
    assumption
  clear_value v3
  refine inv_mk ?_
  refine inv_mem ?_
  assumption

theorem State.startStage_inv : ∀ (s : State) (pipe : ℕ) (st : ℕ), s.Inv → (State.startStage s pipe st).Inv := by
  intro s pipe st h_s
  unfold State.startStage
  extract_lets v1 v2 v3
  have hv1 : State.Inv v1 := by
    unfold v1
    refine inv_mk ?_
    refine inv_mem ?_
    assumption
  clear_value v1
  clear_value v2
  clear_value v3
  refine inv_mk ?_
  refine inv_mem ?_
  assumption

theorem State.stagePlaced_inv : ∀ (s : State) (old : State) (gr : Grid), s.Inv → old.Inv → (State.stagePlaced s old gr).Inv := by
  intro s old gr h_s h_old
  unfold State.stagePlaced
  split
  · rename_i m1 m2
    assumption
  · rename_i m3 m4 m5 m6 m7
    extract_lets v8 v9 v10
    rename_i v11
    clear_value v8
    clear_value v9
    clear_value v10
    have hv11 : State.Inv v11 := by
      unfold v11
      refine foldl_inv ?_ (fun t12 x13 ht12 => ?_)
      · refine State.unitWrite_inv _ _ _ _ _ ?_
        assumption
      · refine State.openChannel_inv _ _ _ _ ?_
        assumption
    clear_value v11
    split
    · rename_i m14 m15 m16
      refine State.unitMiss_inv _ _ _ _ ?_
      assumption
    · rename_i m17 m18
      split
      · rename_i m19 m20 m21
        refine foldl_inv ?_ (fun t22 x23 ht22 => ?_)
        · assumption
        · refine State.startStage_inv _ _ _ ?_
          assumption
      · rename_i m24 m25
        assumption

/-! ### Machine/EvSwap.lean -/

theorem State.setGran_inv : ∀ (s : State) (w : ℕ) (g : ℕ) (st : GranSt), s.Inv → (State.setGran s w g st).Inv := by
  intro s w g st h_s
  unfold State.setGran
  refine State.modWindow_inv _ _ _ ?_
  assumption

theorem State.beginMove_inv : ∀ (s : State) (w : ℕ) (g : ℕ) (dest : RebindTo), s.Inv → (State.beginMove s w g dest).Inv := by
  intro s w g dest h_s
  unfold State.beginMove
  split
  · rename_i m1 m2 m3 m4
    refine State.setGran_inv _ _ _ _ ?_
    assumption
  · rename_i m5 m6 m7
    refine State.setGran_inv _ _ _ _ ?_
    assumption
  · rename_i m8 m9 m10
    assumption

theorem State.abandon_inv : ∀ (s : State) (bi : ℕ) (cause : ℕ) (sub : ℕ) (va : Word), s.Inv → (State.abandon s bi cause sub va).Inv := by
  intro s bi cause sub va h_s
  unfold State.abandon
  split
  · rename_i m1 m2
    assumption
  · rename_i m3 m4 m5
    refine State.reportGrid_inv _ _ _ _ _ ?_
    refine State.modBlock_inv _ _ _ ?_
    assumption

theorem State.beginSwap_inv : ∀ (s : State) (bi : ℕ), s.Inv → (State.beginSwap s bi).Inv := by
  intro s bi h_s
  unfold State.beginSwap
  split
  · rename_i m1 m2
    assumption
  · rename_i m3 m4 m5
    split
    · rename_i m6 m7
      assumption
    · rename_i m8 m9 m10
      extract_lets v11
      clear_value v11
      refine ite_inv (fun _ => ?_) (fun _ => ?_)
      · assumption
      · split
        · rename_i m12 m13 m14 m15 m16
          refine State.abandon_inv _ _ _ _ _ ?_
          assumption
        · rename_i m17 m18 m19
          refine State.unitMiss_inv _ _ _ _ ?_
          refine State.modBlock_inv _ _ _ ?_
          assumption
        · rename_i m20 m21
          refine foldl_inv ?_ (fun t22 x23 ht22 => ?_)
          · refine State.modBlock_inv _ _ _ ?_
            assumption
          · refine State.stopGroup_inv _ _ ?_
            assumption

theorem doStopRequest_inv : ∀ (s : State), s.Inv → (doStopRequest s).Inv := by
  intro s h_s
  unfold doStopRequest
  extract_lets v1
  rename_i v2
  clear_value v1
  clear_value v2
  split
  · rename_i m3 m4
    assumption
  · rename_i m5 m6 m7
    split
    · rename_i m8 m9
      assumption
    · rename_i m10 m11 m12
      refine ite_inv (fun _ => ?_) (fun _ => ?_)
      · assumption
      · refine ite_inv (fun _ => ?_) (fun _ => ?_)
        · refine State.saveHart_inv _ _ _ _ ?_
          assumption
        · refine ite_inv (fun _ => ?_) (fun _ => ?_)
          · assumption
          · refine ite_inv (fun _ => ?_) (fun _ => ?_)
            · refine ite_inv (fun _ => ?_) (fun _ => ?_)
              · refine State.saveHart_inv _ _ _ _ ?_
                assumption
              · assumption
            · refine ite_inv (fun _ => ?_) (fun _ => ?_)
              · refine State.tryStop_inv _ _ ?_
                assumption
              · extract_lets v13
                clear_value v13
                refine ite_inv (fun _ => ?_) (fun _ => ?_)
                · refine State.modPair_inv _ _ _ ?_
                  assumption
                · refine ite_inv (fun _ => ?_) (fun _ => ?_)
                  · refine State.saveHart_inv _ _ _ _ ?_
                    assumption
                  · refine State.modPair_inv _ _ _ ?_
                    assumption

theorem doHintdist_inv : ∀ (s : State), s.Inv → (doHintdist s).Inv := by
  intro s h_s
  unfold doHintdist
  extract_lets v1
  clear_value v1
  split
  · rename_i m2 m3
    assumption
  · rename_i m4 m5 m6
    refine ite_inv (fun _ => ?_) (fun _ => ?_)
    · refine State.stopNow_inv _ _ _ ?_
      assumption
    · assumption

theorem State.putLine_inv : ∀ (s : State) (asid : BitVec 16) (l : Word × List Byte × BitVec 16), s.Inv → (State.putLine s asid l).Inv := by
  intro s asid l h_s
  unfold State.putLine
  split
  · rename_i m1 m2 m3
    refine State.setTag_inv _ _ _ ?_
    refine State.putMem_inv _ _ _ ?_
    assumption
  · rename_i m4 m5 m6
    assumption

theorem State.saveLease_inv : ∀ (s : State) (gr : Grid) (b : Block) (gi : ℕ), s.Inv → (State.saveLease s gr b gi).Inv := by
  intro s gr b gi h_s
  unfold State.saveLease
  split
  · rename_i m1 m2
    assumption
  · rename_i m3 m4 m5
    extract_lets v6 v7 v8 v9 v10 v11 v12 v13 v14
    clear_value v6
    clear_value v7
    clear_value v8
    clear_value v9
    have hv10 : State.Inv v10 := by
      unfold v10
      refine ite_inv (fun _ => ?_) (fun _ => ?_)
      · refine State.iovfTrap_inv _ _ _ _ ?_
        refine State.modPlinth_inv _ _ _ ?_
        assumption
      · assumption
    clear_value v10
    have hv11 : State.Inv v11 := by
      unfold v11
      refine ite_inv (fun _ => ?_) (fun _ => ?_)
      · refine foldl_inv ?_ (fun t15 x16 ht15 => ?_)
        · assumption
        · refine foldl_inv ?_ (fun t17 x18 ht17 => ?_)
          · assumption
          · refine State.putLine_inv _ _ _ ?_
            assumption
      · assumption
    clear_value v11
    clear_value v12
    have hv13 : State.Inv v13 := by
      unfold v13
      split
      · rename_i m19 m20 m21
        refine State.putMem_inv _ _ _ ?_
        assumption
      · rename_i m22 m23
        assumption
    clear_value v13
    have hv14 : State.Inv v14 := by
      unfold v14
      refine ite_inv (fun _ => ?_) (fun _ => ?_)
      · refine State.endLease_inv _ _ _ ?_
        assumption
      · assumption
    clear_value v14
    refine State.modGroup_inv _ _ _ ?_
    assumption

theorem State.copyRange_inv : ∀ (s : State) (src : ℕ) (srcTag : Option (BitVec 16)) (dst : ℕ) (dstTag : Option (BitVec 16)) (n : ℕ) (h_s : s.Inv),
    (State.copyRange s src srcTag dst dstTag n).Inv := by
  intro s src st dst dt n hs
  have key : ∀ (l m : List Host.Cell), Memory.wf m = true →
      Memory.wf (l.foldl (fun m c => memSet m (c.1 - src + dst) c.2) m) = true := by
    intro l
    induction l with
    | nil => exact fun m h => h
    | cons c r ih => exact fun m h => ih _ (memSet_wf _ _ _ h)
  unfold State.copyRange
  extract_lets inR m0 m1 t0 t1 bad s1 s2
  have h1 : s1.Inv := inv_mk (key _ _ (filter_wf _ _ hs))
  have h2 : s2.Inv := by
    unfold s2
    split <;> first | exact h1 | exact State.fillTags_inv _ _ _ _ h1 | (exact State.setTags_inv _ _ _ _ h1)
  exact foldl_inv h2 (fun t i ht => foldl_inv ht (fun u j hu => State.addPoison_inv _ _ hu))

theorem State.loseRange_inv : ∀ (s : State) (dst : ℕ) (n : ℕ), s.Inv → (State.loseRange s dst n).Inv := by
  intro s dst n h_s
  unfold State.loseRange
  extract_lets v1 v2
  clear_value v1
  have hv2 : State.Inv v2 := by
    unfold v2
    refine inv_mk ?_
    refine inv_mem ?_
    assumption
  clear_value v2
  refine foldl_inv ?_ (fun t3 x4 ht3 => ?_)
  · assumption
  · refine State.addPoison_inv _ _ ?_
    assumption

theorem State.moveGran_inv : ∀ (s : State) (w : ℕ) (g : ℕ) (old : RebindTo) (dest : RebindTo) (lost : Bool), s.Inv → (State.moveGran s w g old dest lost).Inv := by
  intro s w g old dest lost h_s
  unfold State.moveGran
  extract_lets v1
  have hv1 : State.Inv v1 := by
    unfold v1
    refine foldl_inv ?_ (fun t2 x3 ht2 => ?_)
    · assumption
    · split
      · rename_i m4 m5 m6 m7 m8 m9
        refine ite_inv (fun _ => ?_) (fun _ => ?_)
        · refine State.loseRange_inv _ _ _ ?_
          assumption
        · refine State.copyRange_inv _ _ _ _ _ _ ?_
          assumption
      · rename_i m10 m11 m12 m13 m14
        refine State.loseRange_inv _ _ _ ?_
        assumption
      · rename_i m15 m16 m17
        assumption
  clear_value v1
  refine ite_inv (fun _ => ?_) (fun _ => ?_)
  · refine ite_inv (fun _ => ?_) (fun _ => ?_)
    · refine State.loseRange_inv _ _ _ ?_
      assumption
    · refine State.copyRange_inv _ _ _ _ _ _ ?_
      assumption
  · assumption

theorem State.releaseWhy_inv : ∀ (s : State) (why : HoldWhy), s.Inv → (State.releaseWhy s why).Inv := by
  intro s why h_s
  unfold State.releaseWhy
  refine foldl_inv ?_ (fun t1 x2 ht1 => ?_)
  · assumption
  · refine ite_inv (fun _ => ?_) (fun _ => ?_)
    · split
      · rename_i m3 m4 m5
        refine some_inv ?_ m5
        refine State.tryHeld_inv _ _ _ ?_
        assumption
      · rename_i m6 m7
        refine inv_mk ?_
        refine inv_mem ?_
        assumption
    · assumption

theorem State.releaseGran_inv : ∀ (s : State) (w : ℕ) (g : ℕ), s.Inv → (State.releaseGran s w g).Inv := by
  intro s w g h_s
  unfold State.releaseGran
  refine State.releaseWhy_inv _ _ ?_
  assumption

theorem State.releaseSpill_inv : ∀ (s : State) (gs : List ℕ), s.Inv → (State.releaseSpill s gs).Inv := by
  intro s gs h_s
  unfold State.releaseSpill
  refine foldl_inv ?_ (fun t1 x2 ht1 => ?_)
  · assumption
  · refine State.releaseWhy_inv _ _ ?_
    assumption

theorem State.swapBack_inv : ∀ (s : State) (bi : ℕ) (cause : ℕ) (sub : ℕ) (va : Word), s.Inv → (State.swapBack s bi cause sub va).Inv := by
  intro s bi cause sub va h_s
  unfold State.swapBack
  split
  · rename_i m1 m2
    assumption
  · rename_i m3 m4 m5
    refine ite_inv (fun _ => ?_) (fun _ => ?_)
    · extract_lets v6 v7 v8
      clear_value v6
      have hv7 : State.Inv v7 := by
        unfold v7
        refine foldl_inv ?_ (fun t9 x10 ht9 => ?_)
        · assumption
        · refine State.modGroup_inv _ _ _ ?_
          assumption
      clear_value v7
      have hv8 : State.Inv v8 := by
        unfold v8
        refine inv_mk ?_
        refine inv_mem ?_
        assumption
      clear_value v8
      refine State.abandon_inv _ _ _ _ _ ?_
      refine State.modBlock_inv _ _ _ ?_
      assumption
    · assumption

theorem State.swapFails_inv : ∀ (s : State) (w : ℕ) (g : ℕ) (old : RebindTo) (cause : ℕ) (sub : ℕ) (va : Word), s.Inv → (State.swapFails s w g old cause sub va).Inv := by
  intro s w g old cause sub va h_s
  unfold State.swapFails
  extract_lets v1
  have hv1 : State.Inv v1 := by
    unfold v1
    refine State.releaseGran_inv _ _ _ ?_
    refine State.setGran_inv _ _ _ _ ?_
    assumption
  clear_value v1
  split
  · rename_i m2 m3 m4
    refine State.swapBack_inv _ _ _ _ _ ?_
    assumption
  · rename_i m5 m6
    assumption

theorem doRebind_inv : ∀ (g : ℕ) (dest : RebindTo) (s : State), s.Inv → (doRebind g dest s).Inv := by
  intro g dest s h_s
  unfold doRebind
  extract_lets v1 v2
  clear_value v1
  clear_value v2
  split
  · rename_i m3 m4 m5 m6 m7
    refine ite_inv (fun _ => ?_) (fun _ => ?_)
    · assumption
    · split
      · rename_i m8 m9 m10 m11 m12 m13
        split
        · rename_i m14 m15 m16
          refine State.swapFails_inv _ _ _ _ _ _ _ ?_
          assumption
        · rename_i m17 m18
          assumption
      · rename_i m19 m20 m21 m22
        refine State.unitMiss_inv _ _ _ _ ?_
        assumption
      · rename_i m23 m24 m25 m26 m27 m28
        refine State.unitMiss_inv _ _ _ _ ?_
        assumption
      · rename_i m29 m30 m31 m32 m33
        refine State.releaseGran_inv _ _ _ ?_
        refine State.setGran_inv _ _ _ _ ?_
        refine State.moveGran_inv _ _ _ _ _ _ ?_
        assumption
  · rename_i m34 m35
    assumption

theorem doWithdrawAck_inv : ∀ (g : ℕ) (s : State), s.Inv → (doWithdrawAck g s).Inv := by
  intro g s h_s
  unfold doWithdrawAck
  split
  · rename_i m1 m2 m3 m4 m5
    refine State.setGran_inv _ _ _ _ ?_
    assumption
  · rename_i m6 m7
    assumption

theorem State.loseHarts_inv : ∀ (s : State) (core : ℕ), s.Inv → (State.loseHarts s core).Inv := by
  intro s core h_s
  unfold State.loseHarts
  refine foldl_inv ?_ (fun t1 x2 ht1 => ?_)
  · assumption
  · refine State.endHart_inv _ _ ?_
    refine State.report_inv _ _ _ ?_
    assumption

theorem State.loseCore_inv : ∀ (s : State) (cl : ℕ) (pc : ℕ), s.Inv → (State.loseCore s cl pc).Inv := by
  intro s cl pc h_s
  unfold State.loseCore
  extract_lets v1 v2 v3
  clear_value v1
  clear_value v2
  have hv3 : State.Inv v3 := by
    unfold v3
    refine foldl_inv ?_ (fun t4 x5 ht4 => ?_)
    · assumption
    · extract_lets v6
      have hv6 : State.Inv v6 := by
        unfold v6
        refine State.loseRange_inv _ _ _ ?_
        assumption
      clear_value v6
      refine ite_inv (fun _ => ?_) (fun _ => ?_)
      · refine State.loseRange_inv _ _ _ ?_
        assumption
      · assumption
  clear_value v3
  refine State.beginRetire_inv _ _ ?_
  refine State.loseHarts_inv _ _ ?_
  assumption

theorem doRebindTimeout_inv : ∀ (g : ℕ) (s : State), s.Inv → (doRebindTimeout g s).Inv := by
  intro g s h_s
  unfold doRebindTimeout
  extract_lets v1
  clear_value v1
  split
  · rename_i m2 m3 m4 m5 m6
    refine ite_inv (fun _ => ?_) (fun _ => ?_)
    · extract_lets v7
      split
      · rename_i m8 m9 m10
        refine State.unitMiss_inv _ _ _ _ ?_
        assumption
      · rename_i m11 m12 m13 m14 m15
        refine State.swapFails_inv _ _ _ _ _ _ _ ?_
        simp only [v7]
        split
        · rename_i m16 m17 m18
          refine State.loseCore_inv _ _ _ ?_
          refine State.logRec_inv _ _ _ _ _ _ _ ?_
          assumption
        · rename_i m19 m20
          refine State.logRec_inv _ _ _ _ _ _ _ ?_
          assumption
      · rename_i m21 m22
        simp only [v7]
        split
        · rename_i m23 m24 m25
          refine State.loseCore_inv _ _ _ ?_
          refine State.logRec_inv _ _ _ _ _ _ _ ?_
          refine State.releaseGran_inv _ _ _ ?_
          refine State.setGran_inv _ _ _ _ ?_
          refine State.moveGran_inv _ _ _ _ _ _ ?_
          assumption
        · rename_i m26 m27
          refine State.logRec_inv _ _ _ _ _ _ _ ?_
          refine State.releaseGran_inv _ _ _ ?_
          refine State.setGran_inv _ _ _ _ ?_
          refine State.moveGran_inv _ _ _ _ _ _ ?_
          assumption
    · assumption
  · rename_i m28 m29
    assumption

theorem State.unbindCore_inv : ∀ (s : State) (core : ℕ), s.Inv → (State.unbindCore s core).Inv := by
  intro s core h_s
  unfold State.unbindCore
  split
  · rename_i m1 m2
    assumption
  · rename_i m3 m4 m5
    refine State.modWindow_inv _ _ _ ?_
    refine State.modCore_inv _ _ _ ?_
    assumption

theorem State.noteSpares_inv : ∀ (s : State), s.Inv → (State.noteSpares s).Inv := by
  intro s h_s
  unfold State.noteSpares
  refine ite_inv (fun _ => ?_) (fun _ => ?_)
  · refine State.syncHealth_inv _ _ ?_
    assumption
  · assumption

theorem State.takeCore_inv : ∀ (s : State) (core : ℕ) (w : ℕ), s.Inv → (State.takeCore s core w).Inv := by
  intro s core w h_s
  unfold State.takeCore
  refine State.modCore_inv _ _ _ ?_
  refine State.unbindCore_inv _ _ ?_
  assumption

theorem State.assignWindow_inv : ∀ (s : State) (w : ℕ) (core : ℕ), s.Inv → (State.assignWindow s w core).Inv := by
  intro s w core h_s
  unfold State.assignWindow
  extract_lets v1
  rename_i v2 v3
  have hv1 : State.Inv v1 := by
    unfold v1
    split
    · rename_i m4 m5 m6
      refine State.unbindCore_inv _ _ ?_
      assumption
    · rename_i m7 m8
      assumption
  clear_value v1
  have hv2 : State.Inv v2 := by
    unfold v2
    refine ite_inv (fun _ => ?_) (fun _ => ?_)
    · assumption
    · refine State.setGran_inv _ _ _ _ ?_
      refine State.takeCore_inv _ _ _ ?_
      assumption
  clear_value v2
  have hv3 : State.Inv v3 := by
    unfold v3
    refine State.modWindow_inv _ _ _ ?_
    assumption
  clear_value v3
  refine ite_inv (fun _ => ?_) (fun _ => ?_)
  · assumption
  · refine State.putMem_inv _ _ _ ?_
    assumption

theorem State.initGroup_inv : ∀ (s : State) (k : Khdr) (w : ℕ) (lo : ℕ), s.Inv → (State.initGroup s k w lo).Inv := by
  intro s k w lo h_s
  unfold State.initGroup
  extract_lets v1 v2
  rename_i v3
  have hv1 : State.Inv v1 := by
    unfold v1
    refine foldl_inv ?_ (fun t4 x5 ht4 => ?_)
    · assumption
    · refine ite_inv (fun _ => ?_) (fun _ => ?_)
      · extract_lets v6
        clear_value v6
        refine State.putConf_inv _ _ _ _ ?_
        assumption
      · assumption
  clear_value v1
  clear_value v2
  clear_value v3
  refine State.modWindow_inv _ _ _ ?_
  assumption

theorem State.addHart_inv : ∀ (s : State) (gi : ℕ) (i : ℕ) (core : ℕ) (gr : Grid) (sp : Word) (stvec : Word) (sscratch : Word) (hold : Bool), s.Inv → (State.addHart s gi i core gr sp stvec sscratch hold).Inv := by
  intro s gi i core gr sp stvec sscratch hold h_s
  unfold State.addHart
  split
  · rename_i m1 m2 m3 m4
    extract_lets v5 v6
    rename_i v7
    clear_value v5
    clear_value v6
    have hv7 : State.Inv v7 := by
      unfold v7
      refine State.setHart_inv _ _ _ ?_
      refine pair_inv ?_ m4
      refine State.fresh_inv _ ?_
      assumption
    clear_value v7
    refine ite_inv (fun _ => ?_) (fun _ => ?_)
    · split
      · rename_i m8 m9 m10 m11
        extract_lets v12 v13
        clear_value v12
        have hv13 : State.Inv v13 := by
          unfold v13
          refine State.modHart_inv _ _ _ ?_
          refine State.setHart_inv _ _ _ ?_
          refine pair_inv ?_ m11
          refine State.fresh_inv _ ?_
          assumption
        clear_value v13
        refine State.modGroup_inv _ _ _ ?_
        assumption
    · refine State.modGroup_inv _ _ _ ?_
      refine State.setHart_inv _ _ _ ?_
      refine pair_inv ?_ m4
      refine State.fresh_inv _ ?_
      assumption

theorem State.placeGroup_inv : ∀ (s : State) (bi : ℕ) (i : ℕ) (gr : Grid) (p : ℕ × ℕ × ℕ) (hold : Bool), s.Inv → (State.placeGroup s bi i gr p hold).Inv := by
  intro s bi i gr p hold h_s
  unfold State.placeGroup
  split
  · rename_i m1 m2 m3 m4
    extract_lets v5 v6 v7 v8
    rename_i v9 v10 v11
    clear_value v5
    have hv6 : State.Inv v6 := by
      unfold v6
      refine State.assignWindow_inv _ _ _ ?_
      assumption
    clear_value v6
    have hv7 : State.Inv v7 := by
      unfold v7
      refine foldl_inv ?_ (fun t12 x13 ht12 => ?_)
      · assumption
      · refine State.setGran_inv _ _ _ _ ?_
        assumption
    clear_value v7
    have hv8 : State.Inv v8 := by
      unfold v8
      refine State.initGroup_inv _ _ _ _ ?_
      assumption
    clear_value v8
    clear_value v9
    clear_value v10
    clear_value v11
    split
    · rename_i m14 m15 m16 m17
      extract_lets v18
      have hv18 : State.Inv v18 := by
        unfold v18
        refine State.modBlock_inv _ _ _ ?_
        refine inv_mk ?_
        refine inv_mem ?_
        refine pair_inv ?_ m17
        refine State.fresh_inv _ ?_
        assumption
      clear_value v18
      split
      · rename_i m19 m20 m21 m22
        refine foldl_inv ?_ (fun t23 x24 ht23 => ?_)
        · assumption
        · refine State.addHart_inv _ _ _ _ _ _ _ _ _ ?_
          assumption

theorem State.placeFrom_inv : ∀ (s : State) (cl bi : ℕ) (gr : Grid) (hold : Bool) (n i : ℕ) (h_s : s.Inv),
    OptInv (State.placeFrom s cl bi gr hold n i) := by
  intro s cl bi gr hold n
  induction n generalizing s with
  | zero => exact fun _ h => h
  | succ n ih =>
    intro i hs
    unfold State.placeFrom
    cases s.pickPlace cl gr with
    | none => exact optInv_none
    | some p => exact ih _ (i + 1) (State.placeGroup_inv _ _ _ _ _ _ hs)

theorem doBlockAdmit_inv : ∀ (s : State) (h_s : s.Inv), (doBlockAdmit s).Inv := by
  intro s hs
  unfold doBlockAdmit
  extract_lets bi
  split
  · exact hs
  · split
    · exact hs
    · extract_lets away
      refine ite_inv (fun _ => hs) (fun _ => ite_inv (fun _ => State.unitMiss_inv _ _ _ _ hs) (fun _ => getD_findSome_inv hs (fun cl t h => ?_)))
      rw [Option.map_eq_some_iff] at h
      obtain ⟨u, hu, rfl⟩ := h
      exact State.noteSpares_inv _ (State.stagePlaced_inv _ _ _ (State.modBlock_inv _ _ _ (some_inv (State.placeFrom_inv _ _ _ _ _ _ _ hs) hu)) hs)

theorem State.applySpill_inv : ∀ (s : State) (e : SpillEnt), s.Inv → (State.applySpill s e).Inv := by
  intro s e h_s
  unfold State.applySpill
  split
  · rename_i m1 m2 m3 m4
    refine State.modWindow_inv _ _ _ ?_
    assumption
  · rename_i m5 m6 m7 m8 m9 m10
    extract_lets v11
    rename_i v12
    clear_value v11
    clear_value v12
    split
    · rename_i m13 m14 m15 m16
      split
      · rename_i m17 m18 m19
        extract_lets v20 v21
        have hv20 : State.Inv v20 := by
          unfold v20
          refine State.putMem_inv _ _ _ ?_
          assumption
        clear_value v20
        have hv21 : State.Inv v21 := by
          unfold v21
          refine ite_inv (fun _ => ?_) (fun _ => ?_)
          · refine foldl_inv ?_ (fun t22 x23 ht22 => ?_)
            · assumption
            · refine State.addPoison_inv _ _ ?_
              assumption
          · assumption
        clear_value v21
        split
        · rename_i m24 m25
          refine State.setTag_inv _ _ _ ?_
          assumption
        · rename_i m26
          assumption
      · rename_i m27 m28
        assumption
    · rename_i m29 m30
      assumption

theorem State.spillBack_inv : ∀ (s : State) (bi : ℕ) (b : Block), s.Inv → (State.spillBack s bi b).Inv := by
  intro s bi b h_s
  unfold State.spillBack
  extract_lets v1 v2 v3
  clear_value v1
  clear_value v2
  have hv3 : State.Inv v3 := by
    unfold v3
    refine foldl_inv ?_ (fun t4 x5 ht4 => ?_)
    · assumption
    · refine State.modCore_inv _ _ _ ?_
      assumption
  clear_value v3
  refine State.modBlock_inv _ _ _ ?_
  refine foldl_inv ?_ (fun t6 x7 ht6 => ?_)
  · assumption
  · refine State.applySpill_inv _ _ ?_
    assumption

theorem State.drainGroups_inv : ∀ (s : State) (gs : List ℕ), s.Inv → (State.drainGroups s gs).Inv := by
  intro s gs h_s
  unfold State.drainGroups
  refine foldl_inv ?_ (fun t1 x2 ht1 => ?_)
  · assumption
  · split
    · rename_i m3 m4 m5
      refine foldl_inv ?_ (fun t6 x7 ht6 => ?_)
      · assumption
      · refine State.drainFor_inv _ _ ?_
        assumption
    · rename_i m8 m9
      assumption

theorem State.leaveCores_inv : ∀ (s : State) (bi : ℕ) (b : Block), s.Inv → (State.leaveCores s bi b).Inv := by
  intro s bi b h_s
  unfold State.leaveCores
  extract_lets v1 v2 v3 v4
  clear_value v1
  clear_value v2
  clear_value v3
  have hv4 : State.Inv v4 := by
    unfold v4
    refine foldl_inv ?_ (fun t5 x6 ht5 => ?_)
    · assumption
    · refine State.modCore_inv _ _ _ ?_
      assumption
  clear_value v4
  refine State.modBlock_inv _ _ _ ?_
  assumption

theorem State.toFrames_inv : ∀ (s : State) (gr : Grid) (b : Block) (gs : List ℕ), s.Inv → (State.toFrames s gr b gs).Inv := by
  intro s gr b gs h_s
  unfold State.toFrames
  refine foldl_inv ?_ (fun t1 x2 ht1 => ?_)
  · assumption
  · refine ite_inv (fun _ => ?_) (fun _ => ?_)
    · refine State.beginMove_inv _ _ _ _ ?_
      assumption
    · assumption

theorem doSwap_inv : ∀ (s : State), s.Inv → (doSwap s).Inv := by
  intro s h_s
  unfold doSwap
  extract_lets v1
  clear_value v1
  split
  · rename_i m2 m3
    assumption
  · rename_i m4 m5 m6
    split
    · rename_i m7 m8
      assumption
    · rename_i m9 m10 m11
      extract_lets v12
      rename_i v13 v14 v15
      clear_value v12
      have hv13 : State.Inv v13 := by
        unfold v13
        refine foldl_inv ?_ (fun t16 x17 ht16 => ?_)
        · assumption
        · refine State.saveLease_inv _ _ _ _ ?_
          assumption
      clear_value v13
      clear_value v14
      clear_value v15
      refine ite_inv (fun _ => ?_) (fun _ => ?_)
      · assumption
      · refine ite_inv (fun _ => ?_) (fun _ => ?_)
        · refine ite_inv (fun _ => ?_) (fun _ => ?_)
          · refine State.beginSwap_inv _ _ ?_
            assumption
          · assumption
        · refine ite_inv (fun _ => ?_) (fun _ => ?_)
          · assumption
          · refine ite_inv (fun _ => ?_) (fun _ => ?_)
            · split
              · rename_i m18 m19 m20 m21 m22
                refine State.swapBack_inv _ _ _ _ _ ?_
                assumption
              · rename_i m23 m24
                assumption
            · refine ite_inv (fun _ => ?_) (fun _ => ?_)
              · refine ite_inv (fun _ => ?_) (fun _ => ?_)
                · split
                  · rename_i m25 m26 m27
                    refine State.unitMiss_inv _ _ _ _ ?_
                    assumption
                  · rename_i m28 m29 m30 m31 m32
                    refine State.swapBack_inv _ _ _ _ _ ?_
                    assumption
                  · rename_i m33 m34
                    refine State.toFrames_inv _ _ _ _ ?_
                    refine State.drainGroups_inv _ _ ?_
                    assumption
                · assumption
              · refine ite_inv (fun _ => ?_) (fun _ => ?_)
                · refine State.modBlock_inv _ _ _ ?_
                  refine State.leaveCores_inv _ _ _ ?_
                  assumption
                · assumption

theorem doParklim_inv : ∀ (s : State), s.Inv → (doParklim s).Inv := by
  intro s h_s
  unfold doParklim
  split
  · rename_i m1 m2
    assumption
  · rename_i m3 m4 m5
    split
    · rename_i m6 m7
      assumption
    · rename_i m8 m9 m10 m11
      extract_lets v12 v13
      rename_i v14
      clear_value v12
      clear_value v13
      have hv14 : State.Inv v14 := by
        unfold v14
        refine State.modGroup_inv _ _ _ ?_
        assumption
      clear_value v14
      refine ite_inv (fun _ => ?_) (fun _ => ?_)
      · assumption
      · refine ite_inv (fun _ => ?_) (fun _ => ?_)
        · refine State.modMod_inv _ _ ?_
          refine State.post_inv _ _ _ _ ?_
          assumption
        · refine State.modBlock_inv _ _ _ ?_
          assumption

theorem doPreempt_inv : ∀ (s : State), s.Inv → (doPreempt s).Inv := by
  intro s h_s
  unfold doPreempt
  extract_lets v1 v2
  clear_value v1
  clear_value v2
  split
  · rename_i m3 m4
    assumption
  · rename_i m5 m6 m7 m8
    extract_lets v9 v10 v11
    clear_value v9
    clear_value v10
    clear_value v11
    refine ite_inv (fun _ => ?_) (fun _ => ?_)
    · refine State.beginSwap_inv _ _ ?_
      assumption
    · assumption

theorem State.seatHarts_inv : ∀ (s : State) (gi : ℕ) (core : ℕ), s.Inv → (State.seatHarts s gi core).Inv := by
  intro s gi core h_s
  unfold State.seatHarts
  extract_lets v1
  have hv1 : State.Inv v1 := by
    unfold v1
    refine State.modGroup_inv _ _ _ ?_
    assumption
  clear_value v1
  refine foldl_inv ?_ (fun t2 x3 ht2 => ?_)
  · assumption
  · extract_lets v4 v5
    have hv4 : State.Inv v4 := by
      unfold v4
      refine State.modHart_inv _ _ _ ?_
      assumption
    clear_value v4
    clear_value v5
    refine State.modHart_inv _ _ _ ?_
    assumption

theorem State.seatWindows_inv : ∀ (s : State) (cl : ℕ) (gs : List ℕ) (redun : Bool) (a4 : List ℕ), s.Inv → OptInv (State.seatWindows s cl gs redun a4) := by
  intro s cl gs redun a4 h_s
  unfold State.seatWindows
  split
  · rename_i m1
    refine optInv_some ?_
    assumption
  · rename_i m2 m3 m4
    extract_lets v5 v6
    clear_value v5
    split
    · rename_i m7 m8 m9 m10
      extract_lets v11
      clear_value v11
      refine ite_optInv (fun _ => ?_) (fun _ => ?_)
      · refine State.seatWindows_inv _ _ _ _ _ ?_
        simp only [v6]
        refine foldl_inv ?_ (fun t12 x13 ht12 => ?_)
        · assumption
        · split
          · rename_i m14 m15 m16
            refine ite_inv (fun _ => ?_) (fun _ => ?_)
            · refine State.seatHarts_inv _ _ _ ?_
              assumption
            · assumption
          · rename_i m17 m18
            assumption
      · exact optInv_none
    · rename_i m19 m20 m21
      split
      · rename_i m22 m23 m24
        refine State.seatWindows_inv _ _ _ _ _ ?_
        simp only [v6]
        refine foldl_inv ?_ (fun t25 x26 ht25 => ?_)
        · refine State.takeCore_inv _ _ _ ?_
          assumption
        · split
          · rename_i m27 m28 m29
            refine ite_inv (fun _ => ?_) (fun _ => ?_)
            · refine State.seatHarts_inv _ _ _ ?_
              assumption
            · assumption
          · rename_i m30 m31
            assumption
      · rename_i m32 m33
        exact optInv_none
    · rename_i m34 m35 m36
      exact optInv_none

theorem State.toCores_inv : ∀ (s : State) (gs : List ℕ), s.Inv → (State.toCores s gs).Inv := by
  intro s gs h_s
  unfold State.toCores
  refine foldl_inv ?_ (fun t1 x2 ht1 => ?_)
  · assumption
  · split
    · rename_i m3 m4 m5
      refine ite_inv (fun _ => ?_) (fun _ => ?_)
      · refine State.beginMove_inv _ _ _ _ ?_
        assumption
      · assumption
    · rename_i m6 m7
      assumption

theorem State.regainLease_inv : ∀ (s : State) (gr : Grid) (b : Block) (gi : ℕ), s.Inv → SndInv (State.regainLease s gr b gi) := by
  intro s gr b gi h_s
  unfold State.regainLease
  split
  · rename_i m1 m2
    refine sndInv_mk ?_
    assumption
  · rename_i m3 m4 m5
    extract_lets v6 v7 v8
    rename_i v9 v10
    clear_value v6
    clear_value v7
    clear_value v8
    have hv9 : State.Inv v9 := by
      unfold v9
      refine State.wakePlinth_inv _ _ ?_
      assumption
    clear_value v9
    have hv10 : State.Inv v10 := by
      unfold v10
      refine State.wakePlinth_inv _ _ ?_
      refine State.modPlinth_inv _ _ _ ?_
      assumption
    clear_value v10
    refine ite_sndInv (fun _ => ?_) (fun _ => ?_)
    · refine sndInv_mk ?_
      assumption
    · refine ite_sndInv (fun _ => ?_) (fun _ => ?_)
      · refine sndInv_mk ?_
        assumption
      · refine sndInv_mk ?_
        assumption

theorem State.loadLease_inv : ∀ (s : State) (gr : Grid) (b : Block) (gi : ℕ), s.Inv → (State.loadLease s gr b gi).Inv := by
  intro s gr b gi h_s
  unfold State.loadLease
  split
  · rename_i m1 m2
    assumption
  · rename_i m3 m4 m5
    extract_lets v6
    rename_i v7 v8 v9 v10 v11 v12
    clear_value v6
    clear_value v7
    clear_value v8
    clear_value v9
    clear_value v10
    clear_value v11
    have hv12 : State.Inv v12 := by
      unfold v12
      refine ite_inv (fun _ => ?_) (fun _ => ?_)
      · assumption
      · refine State.reportGrid_inv _ _ _ _ _ ?_
        assumption
    clear_value v12
    refine ite_inv (fun _ => ?_) (fun _ => ?_)
    · assumption
    · refine State.modPlinth_inv _ _ _ ?_
      assumption

theorem State.resubmit_inv : ∀ (s : State) (gi : ℕ), s.Inv → (State.resubmit s gi).Inv := by
  intro s gi h_s
  unfold State.resubmit
  split
  · rename_i m1 m2
    assumption
  · rename_i m3 m4 m5
    refine State.modGroup_inv _ _ _ ?_
    refine State.modPlinth_inv _ _ _ ?_
    assumption

theorem State.replayFor_inv : ∀ (s : State) (gs : List ℕ) (a2 : ℕ), s.Inv → (State.replayFor s gs a2).Inv := by
  intro s gs a2 h_s
  unfold State.replayFor
  split
  · rename_i m1
    assumption
  · rename_i m2 m3
    extract_lets v4
    clear_value v4
    split
    · rename_i m5 m6
      assumption
    · rename_i m7 m8 m9
      refine State.replayFor_inv _ _ _ ?_
      split
      · rename_i m10 m11 m12
        refine some_inv ?_ m12
        refine State.tryHeld_inv _ _ _ ?_
        assumption
      · rename_i m13 m14
        refine inv_mk ?_
        refine inv_mem ?_
        assumption

theorem State.restoreGroup_inv : ∀ (s : State) (gr : Grid) (stopC : ℕ) (gi : ℕ), s.Inv → (State.restoreGroup s gr stopC gi).Inv := by
  intro s gr stopC gi h_s
  unfold State.restoreGroup
  split
  · rename_i m1 m2
    assumption
  · rename_i m3 m4 m5
    extract_lets v6 v7 v8 v9
    clear_value v6
    have hv7 : State.Inv v7 := by
      unfold v7
      refine foldl_inv ?_ (fun t10 x11 ht10 => ?_)
      · refine State.modGroup_inv _ _ _ ?_
        assumption
      · extract_lets v12
        have hv12 : State.Inv v12 := by
          unfold v12
          refine State.restoreHart_inv _ _ ?_
          assumption
        clear_value v12
        split
        · rename_i m13 m14 m15
          refine State.raiseC_inv _ _ _ _ ?_
          assumption
        · rename_i m16 m17
          assumption
    clear_value v7
    have hv8 : State.Inv v8 := by
      unfold v8
      refine foldl_inv ?_ (fun t10 x11 ht10 => ?_)
      · assumption
      · refine ite_inv (fun _ => ?_) (fun _ => ?_)
        · refine doLoadReturn_inv _ _ ?_
          assumption
        · assumption
    clear_value v8
    have hv9 : State.Inv v9 := by
      unfold v9
      refine ite_inv (fun _ => ?_) (fun _ => ?_)
      · refine foldl_inv ?_ (fun t18 x19 ht18 => ?_)
        · assumption
        · refine State.modPair_inv _ _ _ ?_
          assumption
      · assumption
    clear_value v9
    refine State.wakePlinth_inv _ _ ?_
    refine State.tryResume_inv _ _ ?_
    assumption

theorem State.comeBack_inv : ∀ (s : State) (bi : ℕ) (gs : List ℕ), s.Inv → (State.comeBack s bi gs).Inv := by
  intro s bi gs h_s
  unfold State.comeBack
  split
  · rename_i m1 m2
    assumption
  · rename_i m3 m4 m5
    split
    · rename_i m6 m7
      assumption
    · rename_i m8 m9 m10
      extract_lets v11
      rename_i v12 v13 v14 v15 v16 v17
      clear_value v11
      have hv12 : SndInv v12 := by
        unfold v12
        refine foldl_sndInv ?_ (fun t18 x19 ht18 => ?_)
        · refine sndInv_mk ?_
          assumption
        · extract_lets v20
          have hv20 : SndInv v20 := by
            unfold v20
            refine State.regainLease_inv _ _ _ _ ?_
            refine snd_inv ?_
            assumption
          clear_value v20
          refine sndInv_mk ?_
          refine snd_inv ?_
          assumption
      clear_value v12
      have hv13 : State.Inv v13 := by
        unfold v13
        refine foldl_inv ?_ (fun t18 x19 ht18 => ?_)
        · refine snd_inv ?_
          assumption
        · refine State.loadLease_inv _ _ _ _ ?_
          assumption
      clear_value v13
      have hv14 : State.Inv v14 := by
        unfold v14
        refine State.spillBack_inv _ _ _ ?_
        assumption
      clear_value v14
      have hv15 : State.Inv v15 := by
        unfold v15
        refine foldl_inv ?_ (fun t18 x19 ht18 => ?_)
        · assumption
        · refine State.resubmit_inv _ _ ?_
          assumption
      clear_value v15
      have hv16 : State.Inv v16 := by
        unfold v16
        refine foldl_inv ?_ (fun t18 x19 ht18 => ?_)
        · assumption
        · refine State.modGroup_inv _ _ _ ?_
          assumption
      clear_value v16
      have hv17 : State.Inv v17 := by
        unfold v17
        refine State.replayFor_inv _ _ _ ?_
        refine State.releaseSpill_inv _ _ ?_
        assumption
      clear_value v17
      refine ite_inv (fun _ => ?_) (fun _ => ?_)
      · assumption
      · split
        · rename_i m21 m22 m23 m24
          refine State.unitMiss_inv _ _ _ _ ?_
          assumption
        · rename_i m25 m26
          refine ite_inv (fun _ => ?_) (fun _ => ?_)
          · refine snd_inv ?_
            assumption
          · refine foldl_inv ?_ (fun t27 x28 ht27 => ?_)
            · assumption
            · refine State.restoreGroup_inv _ _ _ _ ?_
              assumption

theorem State.moveWaiters_inv : ∀ (s : State) (old : ℕ) (new : ℕ) (gs : List ℕ), s.Inv → (State.moveWaiters s old new gs).Inv := by
  intro s old new gs h_s
  unfold State.moveWaiters
  refine ite_inv (fun _ => ?_) (fun _ => ?_)
  · assumption
  · refine foldl_inv ?_ (fun t1 x2 ht1 => ?_)
    · assumption
    · extract_lets v3 v4 v5 v6
      clear_value v3
      clear_value v4
      clear_value v5
      have hv6 : State.Inv v6 := by
        unfold v6
        refine State.modPlinth_inv _ _ _ ?_
        refine State.modPlinth_inv _ _ _ ?_
        assumption
      clear_value v6
      refine ite_inv (fun _ => ?_) (fun _ => ?_)
      · refine State.wakePlinth_inv _ _ ?_
        assumption
      · refine State.endLease_inv _ _ _ ?_
        assumption

theorem doReadmission_inv : ∀ (s : State) (h_s : s.Inv), (doReadmission s).Inv := by
  intro s hs
  unfold doReadmission
  extract_lets bi
  split
  · exact hs
  · split
    · exact hs
    · extract_lets gs s1 offers
      have h1 : s1.Inv := State.comeBack_inv _ _ _ (State.toCores_inv _ _ hs)
      refine ite_inv (fun _ => ite_inv (fun _ => State.modBlock_inv _ _ _ h1) (fun _ => h1)) (fun _ => ite_inv (fun _ => hs) (fun _ => ?_))
      split
      · exact hs
      · rename_i cl t e
        obtain ⟨c, _, hc⟩ := List.exists_of_findSome?_eq_some e
        rw [Option.map_eq_some_iff] at hc
        obtain ⟨u, hu, he⟩ := hc
        cases he
        exact State.noteSpares_inv _ (State.toCores_inv _ _ (State.modBlock_inv _ _ _ (State.moveWaiters_inv _ _ _ _ (some_inv (State.seatWindows_inv _ _ _ _ _ hs) hu))))

theorem State.moveCore_inv : ∀ (s : State) (core : ℕ) (c : ℕ) (gs : List ℕ), s.Inv → (State.moveCore s core c gs).Inv := by
  intro s core c gs h_s
  unfold State.moveCore
  extract_lets v1 v2
  clear_value v1
  have hv2 : State.Inv v2 := by
    unfold v2
    split
    · rename_i m3 m4 m5
      extract_lets v6 v7
      have hv6 : State.Inv v6 := by
        unfold v6
        refine State.takeCore_inv _ _ _ ?_
        refine State.modCore_inv _ _ _ ?_
        assumption
      clear_value v6
      have hv7 : State.Inv v7 := by
        unfold v7
        refine State.raiseC_inv _ _ _ _ ?_
        refine State.modCore_inv _ _ _ ?_
        assumption
      clear_value v7
      refine foldl_inv ?_ (fun t8 x9 ht8 => ?_)
      · assumption
      · refine State.beginMove_inv _ _ _ _ ?_
        assumption
    · rename_i m10 m11
      assumption
  clear_value v2
  refine foldl_inv ?_ (fun t12 x13 ht12 => ?_)
  · assumption
  · refine State.seatHarts_inv _ _ _ ?_
    assumption

theorem State.parkCore_inv : ∀ (s : State) (core : ℕ) (gs : List ℕ), s.Inv → (State.parkCore s core gs).Inv := by
  intro s core gs h_s
  unfold State.parkCore
  extract_lets v1
  have hv1 : State.Inv v1 := by
    unfold v1
    refine foldl_inv ?_ (fun t2 x3 ht2 => ?_)
    · assumption
    · split
      · rename_i m4 m5 m6 m7 m8
        refine State.toFrames_inv _ _ _ _ ?_
        assumption
      · rename_i m9 m10
        assumption
  clear_value v1
  split
  · rename_i m11 m12 m13 m14 m15 m16
    split
    · rename_i m4 m5 m6 m7 m8 m17 m18 m19
      refine ite_inv (fun _ => ?_) (fun _ => ?_)
      · refine State.beginMove_inv _ _ _ _ ?_
        assumption
      · assumption
    · rename_i m9 m10 m20
      assumption
  · rename_i m21 m22 m23
    assumption

theorem doCoreRetire_inv : ∀ (s : State), s.Inv → (doCoreRetire s).Inv := by
  intro s h_s
  unfold doCoreRetire
  extract_lets v1
  rename_i v2 v3 v4
  clear_value v1
  clear_value v2
  clear_value v3
  clear_value v4
  refine ite_inv (fun _ => ?_) (fun _ => ?_)
  · refine State.beginRetire_inv _ _ ?_
    assumption
  · refine ite_inv (fun _ => ?_) (fun _ => ?_)
    · refine foldl_inv ?_ (fun t5 x6 ht5 => ?_)
      · assumption
      · split
        · rename_i m7 m8 m9
          refine State.comeBack_inv _ _ _ ?_
          assumption
        · rename_i m10 m11
          assumption
    · split
      · rename_i m12 m13 m14
        refine State.stopGroup_inv _ _ ?_
        assumption
      · rename_i m15 m16
        refine ite_inv (fun _ => ?_) (fun _ => ?_)
        · assumption
        · refine ite_inv (fun _ => ?_) (fun _ => ?_)
          · split
            · rename_i m17 m18 m19
              refine State.noteSpares_inv _ ?_
              refine State.moveCore_inv _ _ _ _ ?_
              assumption
            · rename_i m20 m21
              refine State.parkCore_inv _ _ _ ?_
              assumption
          · refine ite_inv (fun _ => ?_) (fun _ => ?_)
            · split
              · rename_i m22 m23 m24 m25
                refine State.unitMiss_inv _ _ _ _ ?_
                assumption
              · rename_i m26 m27
                refine foldl_inv ?_ (fun t28 x29 ht28 => ?_)
                · assumption
                · split
                  · rename_i m30 m31 m32 m33 m34 m35 m36 m37
                    refine ite_inv (fun _ => ?_) (fun _ => ?_)
                    · refine State.saveLease_inv _ _ _ _ ?_
                      assumption
                    · assumption
                  · rename_i m38 m39 m40
                    assumption
            · assumption

theorem execGranuleRebind_inv : ∀ (g : ℕ) (dest : RebindTo) (s : State), s.Inv → Safe (execGranuleRebind g dest s) := by
  intro g dest s h_s
  unfold execGranuleRebind
  refine safe_next ?_
  refine doRebind_inv _ _ _ ?_
  assumption

theorem execLocalRangeWithdrawAck_inv : ∀ (g : ℕ) (s : State), s.Inv → Safe (execLocalRangeWithdrawAck g s) := by
  intro g s h_s
  unfold execLocalRangeWithdrawAck
  refine safe_next ?_
  refine doWithdrawAck_inv _ _ ?_
  assumption

theorem execRebindAckTimeout_inv : ∀ (g : ℕ) (s : State), s.Inv → Safe (execRebindAckTimeout g s) := by
  intro g s h_s
  unfold execRebindAckTimeout
  refine safe_next ?_
  refine doRebindTimeout_inv _ _ ?_
  assumption

theorem execParklimExpiry_inv : ∀ (s : State), s.Inv → Safe (execParklimExpiry s) := by
  intro s h_s
  unfold execParklimExpiry
  refine safe_next ?_
  refine doParklim_inv _ ?_
  assumption

theorem execSwap_inv : ∀ (s : State), s.Inv → Safe (execSwap s) := by
  intro s h_s
  unfold execSwap
  refine safe_next ?_
  refine doSwap_inv _ ?_
  assumption

theorem execHintdistExpiry_inv : ∀ (s : State), s.Inv → Safe (execHintdistExpiry s) := by
  intro s h_s
  unfold execHintdistExpiry
  refine safe_next ?_
  refine doHintdist_inv _ ?_
  assumption

theorem execStopRequest_inv : ∀ (s : State), s.Inv → Safe (execStopRequest s) := by
  intro s h_s
  unfold execStopRequest
  refine safe_next ?_
  refine doStopRequest_inv _ ?_
  assumption

theorem execBlockReadmission_inv : ∀ (s : State), s.Inv → Safe (execBlockReadmission s) := by
  intro s h_s
  unfold execBlockReadmission
  refine safe_next ?_
  refine doReadmission_inv _ ?_
  assumption

theorem execPreemptPolicy_inv : ∀ (s : State), s.Inv → Safe (execPreemptPolicy s) := by
  intro s h_s
  unfold execPreemptPolicy
  refine safe_next ?_
  refine doPreempt_inv _ ?_
  assumption

theorem execBlockAdmit_inv : ∀ (s : State), s.Inv → Safe (execBlockAdmit s) := by
  intro s h_s
  unfold execBlockAdmit
  refine safe_next ?_
  refine doBlockAdmit_inv _ ?_
  assumption

theorem execCoreRetire_inv : ∀ (s : State), s.Inv → Safe (execCoreRetire s) := by
  intro s h_s
  unfold execCoreRetire
  refine safe_next ?_
  refine doCoreRetire_inv _ ?_
  assumption

/-! ### Machine/EvEngine.lean -/

theorem State.modCmd_inv : ∀ (s : State) (e : ℕ) (id : ℕ) (f : CopyCmd → CopyCmd), s.Inv → (State.modCmd s e id f).Inv := by
  intro s e id f h_s
  unfold State.modCmd
  refine State.modEngine_inv _ _ _ ?_
  assumption

theorem State.cmdFail_inv : ∀ (s : State) (e : ℕ) (id : ℕ) (cause : ℕ) (sub : ℕ) (addr : Word), s.Inv → (State.cmdFail s e id cause sub addr).Inv := by
  intro s e id cause sub addr h_s
  unfold State.cmdFail
  refine State.modCmd_inv _ _ _ _ ?_
  assumption

theorem State.engReq_inv : ∀ (s : State) (e : ℕ) (c : CopyCmd) (va : Word) (act : Piece) (write : Bool), s.Inv → SndInv (State.engReq s e c va act write) := by
  intro s e c va act write h_s
  unfold State.engReq
  refine State.request_inv _ _ _ _ _ _ _ ?_
  assumption

theorem State.engRead_inv : ∀ (s : State) (e : ℕ) (c : CopyCmd) (a3 : List Want) (a4 : List PieceAns), s.Inv → SndInv (State.engRead s e c a3 a4) := by
  intro s e c a3 a4 h_s
  unfold State.engRead
  split
  · rename_i m1 m2
    refine sndInv_mk ?_
    assumption
  · rename_i m3 m4 m5 m6
    split
    · rename_i m7 m8 m9 m10 m11 m12
      refine sndInv_mk ?_
      refine pair_inv ?_ m12
      refine State.engReq_inv _ _ _ _ _ _ ?_
      assumption
    · rename_i m13 m14 m15 m16 m17
      refine State.engRead_inv _ _ _ _ _ ?_
      refine pair_inv ?_ m17
      refine State.engReq_inv _ _ _ _ _ _ ?_
      assumption
    · rename_i m18 m19 m20
      refine sndInv_mk ?_
      refine pair_inv ?_ m20
      refine State.engReq_inv _ _ _ _ _ _ ?_
      assumption
    · rename_i m21 m22 m23
      refine sndInv_mk ?_
      refine pair_inv ?_ m23
      refine State.engReq_inv _ _ _ _ _ _ ?_
      assumption

theorem State.cmdReady_inv : ∀ (s : State) (c : CopyCmd), s.Inv → SndInv (State.cmdReady s c) := by
  intro s c h_s
  unfold State.cmdReady
  split
  · rename_i m1 m2 m3
    split
    · rename_i m4 m5 m6
      split
      · rename_i m7 m8
        refine State.opReady_inv _ _ ?_
        assumption
      · rename_i m9 m10
        refine sndInv_mk ?_
        assumption
    · rename_i m11 m12
      refine sndInv_mk ?_
      assumption
  · rename_i m13 m14
    refine sndInv_mk ?_
    assumption

theorem State.cmdDescs_inv : ∀ (s : State) (e : ℕ) (c : CopyCmd), s.Inv → SndInv (State.cmdDescs s e c) := by
  intro s e c h_s
  unfold State.cmdDescs
  extract_lets v1
  split
  · rename_i m2 m3 m4
    simp only [v1]
    split
    · rename_i m5 m6 m7 m8 m9 m10
      split
      · rename_i m11 m12 m13
        refine sndInv_mk ?_
        refine pair_inv ?_ m10
        refine State.engRead_inv _ _ _ _ _ ?_
        assumption
      · rename_i m14 m15
        refine sndInv_mk ?_
        refine pair_inv ?_ m10
        refine State.engRead_inv _ _ _ _ _ ?_
        assumption
    · rename_i m16 m17 m18 m19 m20 m21
      refine sndInv_mk ?_
      refine pair_inv ?_ m21
      refine State.engRead_inv _ _ _ _ _ ?_
      assumption
    · rename_i m22 m23 m24
      refine sndInv_mk ?_
      refine State.modCmd_inv _ _ _ _ ?_
      refine pair_inv ?_ m24
      refine State.engRead_inv _ _ _ _ _ ?_
      assumption
    · rename_i m25 m26 m27
      refine sndInv_mk ?_
      refine pair_inv ?_ m27
      refine State.engRead_inv _ _ _ _ _ ?_
      assumption
  · rename_i m28 m29 m30
    refine sndInv_mk ?_
    assumption
  · rename_i m31 m32 m33 m34
    refine sndInv_mk ?_
    assumption
  · rename_i m35 m36 m37 m38
    extract_lets v39 v40 v41
    rename_i v42
    clear_value v39
    clear_value v40
    clear_value v41
    clear_value v42
    refine ite_sndInv (fun _ => ?_) (fun _ => ?_)
    · refine sndInv_mk ?_
      assumption
    · simp only [v1]
      split
      · rename_i m43 m44 m45 m46 m47 m48
        split
        · rename_i m49 m50 m51
          refine sndInv_mk ?_
          refine pair_inv ?_ m48
          refine State.engRead_inv _ _ _ _ _ ?_
          assumption
        · rename_i m52 m53
          refine sndInv_mk ?_
          refine pair_inv ?_ m48
          refine State.engRead_inv _ _ _ _ _ ?_
          assumption
      · rename_i m54 m55 m56 m57 m58 m59
        refine sndInv_mk ?_
        refine pair_inv ?_ m59
        refine State.engRead_inv _ _ _ _ _ ?_
        assumption
      · rename_i m60 m61 m62
        refine sndInv_mk ?_
        refine State.modCmd_inv _ _ _ _ ?_
        refine pair_inv ?_ m62
        refine State.engRead_inv _ _ _ _ _ ?_
        assumption
      · rename_i m63 m64 m65
        refine sndInv_mk ?_
        refine pair_inv ?_ m65
        refine State.engRead_inv _ _ _ _ _ ?_
        assumption

theorem State.failPk_inv : ∀ (s : State) (cl : ℕ) (d : GridFor) (cause : ℕ) (sub : ℕ) (count : ℕ) (addr : Word), s.Inv → (State.failPk s cl d cause sub count addr).Inv := by
  intro s cl d cause sub count addr h_s
  unfold State.failPk
  refine State.finishFor_inv _ _ ?_
  refine State.reportLog_inv _ _ _ ?_
  assumption

theorem State.endCmd_inv : ∀ (s : State) (e : ℕ) (c : CopyCmd), s.Inv → (State.endCmd s e c).Inv := by
  intro s e c h_s
  unfold State.endCmd
  extract_lets v1
  have hv1 : State.Inv v1 := by
    unfold v1
    refine State.modEngine_inv _ _ _ ?_
    assumption
  clear_value v1
  split
  · rename_i m2 m3 m4 m5 m6 m7 m8 m9
    refine State.opFail_inv _ _ _ _ _ _ ?_
    assumption
  · rename_i m10 m11 m12 m13 m14 m15 m16
    refine State.failPk_inv _ _ _ _ _ _ _ ?_
    assumption
  · rename_i m17 m18 m19 m20 m21
    refine State.opDone_inv _ _ _ ?_
    assumption
  · rename_i m22 m23 m24 m25
    refine State.finishFor_inv _ _ ?_
    assumption

theorem doEngineStart_inv : ∀ (s : State), s.Inv → (doEngineStart s).Inv := by
  intro s h_s
  unfold doEngineStart
  extract_lets v1 v2 v3 v4
  clear_value v1
  clear_value v2
  have hv3 : SndInv v3 := by
    unfold v3
    refine foldl_sndInv ?_ (fun t5 x6 ht5 => ?_)
    · refine sndInv_mk ?_
      assumption
    · extract_lets v7
      have hv7 : SndInv v7 := by
        unfold v7
        refine State.cmdReady_inv _ _ ?_
        refine snd_inv ?_
        assumption
      clear_value v7
      refine sndInv_mk ?_
      refine snd_inv ?_
      assumption
  clear_value v3
  have hv4 : State.Inv v4 := by
    unfold v4
    refine snd_inv ?_
    assumption
  clear_value v4
  refine ite_inv (fun _ => ?_) (fun _ => ?_)
  · assumption
  · split
    · rename_i m8 m9
      assumption
    · rename_i m10 m11 m12
      refine ite_inv (fun _ => ?_) (fun _ => ?_)
      · refine State.endCmd_inv _ _ _ ?_
        assumption
      · refine ite_inv (fun _ => ?_) (fun _ => ?_)
        · assumption
        · split
          · rename_i m13 m14 m15 m16
            refine State.modCmd_inv _ _ _ _ ?_
            refine pair_inv ?_ m16
            refine State.cmdDescs_inv _ _ _ ?_
            assumption
          · rename_i m17 m18 m19 m20 m21 m22
            refine State.cmdFail_inv _ _ _ _ _ _ ?_
            refine State.modCmd_inv _ _ _ _ ?_
            refine pair_inv ?_ m22
            refine State.cmdDescs_inv _ _ _ ?_
            assumption
          · rename_i m23 m24 m25
            refine pair_inv ?_ m25
            refine State.cmdDescs_inv _ _ _ ?_
            assumption

theorem State.wrotePiece_inv : ∀ (s : State) (e : ℕ) (c : CopyCmd) (w : Want), s.Inv → (State.wrotePiece s e c w).Inv := by
  intro s e c w h_s
  unfold State.wrotePiece
  refine State.modCmd_inv _ _ _ _ ?_
  assumption

theorem State.engWrite_inv : ∀ (s : State) (e : ℕ) (c : CopyCmd) (pz : Bool) (a4 : List Want), s.Inv → SndInv (State.engWrite s e c pz a4) := by
  intro s e c pz a4 h_s
  unfold State.engWrite
  split
  · rename_i m1
    refine sndInv_mk ?_
    assumption
  · rename_i m2 m3 m4
    extract_lets v5
    clear_value v5
    split
    · rename_i m6 m7 m8
      refine ite_sndInv (fun _ => ?_) (fun _ => ?_)
      · refine sndInv_mk ?_
        refine State.holdBehind_inv _ _ _ _ _ _ _ _ ?_
        assumption
      · refine sndInv_mk ?_
        assumption
    · rename_i m9 m10
      split
      · rename_i m11 m12 m13 m14 m15 m16
        refine sndInv_mk ?_
        refine pair_inv ?_ m16
        refine State.engReq_inv _ _ _ _ _ _ ?_
        assumption
      · rename_i m17 m18 m19 m20 m21
        refine State.engWrite_inv _ _ _ _ _ ?_
        refine State.wrotePiece_inv _ _ _ _ ?_
        refine ite_inv (fun _ => ?_) (fun _ => ?_)
        · refine State.poisonAt_inv _ _ _ ?_
          refine pair_inv ?_ m21
          refine State.engReq_inv _ _ _ _ _ _ ?_
          assumption
        · refine pair_inv ?_ m21
          refine State.engReq_inv _ _ _ _ _ _ ?_
          assumption
      · rename_i m22 m23 m24
        refine sndInv_mk ?_
        refine pair_inv ?_ m24
        refine State.engReq_inv _ _ _ _ _ _ ?_
        assumption
      · rename_i m25 m26 m27
        refine sndInv_mk ?_
        refine pair_inv ?_ m27
        refine State.engReq_inv _ _ _ _ _ _ ?_
        assumption

theorem State.moveElem_inv : ∀ (s : State) (e : ℕ) (c : CopyCmd) (d : Desc), s.Inv → (State.moveElem s e c d).Inv := by
  intro s e c d h_s
  unfold State.moveElem
  split
  · rename_i m1 m2 m3 m4
    extract_lets v5 v6 v7
    clear_value v5
    clear_value v6
    have hv7 : SndInv v7 := by
      unfold v7
      split
      · rename_i m8 m9 m10 m11 m12
        refine sndInv_mk ?_
        assumption
      · rename_i m13 m14
        refine ite_sndInv (fun _ => ?_) (fun _ => ?_)
        · refine sndInv_mk ?_
          assumption
        · refine ite_sndInv (fun _ => ?_) (fun _ => ?_)
          · refine sndInv_mk ?_
            assumption
          · refine State.engRead_inv _ _ _ _ _ ?_
            assumption
    clear_value v7
    split
    · rename_i m8 m9 m10 m11 m12
      refine State.cmdFail_inv _ _ _ _ _ _ ?_
      assumption
    · rename_i m13 m14
      refine State.modCmd_inv _ _ _ _ ?_
      assumption
    · rename_i m15 m16
      assumption
    · rename_i m17 m18 m19 m20 m21
      refine ite_inv (fun _ => ?_) (fun _ => ?_)
      · refine State.modCmd_inv _ _ _ _ ?_
        assumption
      · extract_lets v22
        have hv22 : State.Inv v22 := by
          unfold v22
          refine State.modCmd_inv _ _ _ _ ?_
          assumption
        clear_value v22
        split
        · rename_i m23 m24 m25
          refine State.modCmd_inv _ _ _ _ ?_
          refine pair_inv ?_ m25
          refine State.engWrite_inv _ _ _ _ _ ?_
          assumption
        · rename_i m26 m27 m28 m29 m30 m31
          refine State.cmdFail_inv _ _ _ _ _ _ ?_
          refine pair_inv ?_ m31
          refine State.engWrite_inv _ _ _ _ _ ?_
          assumption
        · rename_i m32 m33 m34
          refine State.modCmd_inv _ _ _ _ ?_
          refine pair_inv ?_ m34
          refine State.engWrite_inv _ _ _ _ _ ?_
          assumption
        · rename_i m35 m36 m37 m38 m39 m40
          refine pair_inv ?_ m40
          refine State.engWrite_inv _ _ _ _ _ ?_
          assumption

theorem State.prefElem_inv : ∀ (s : State) (e : ℕ) (c : CopyCmd) (va : Word), s.Inv → (State.prefElem s e c va).Inv := by
  intro s e c va h_s
  unfold State.prefElem
  extract_lets v1 v2 v3
  clear_value v1
  clear_value v3
  refine ite_inv (fun _ => ?_) (fun _ => ?_)
  · simp only [v2]
    refine State.modCmd_inv _ _ _ _ ?_
    assumption
  · split
    · rename_i m4 m5 m6 m7 m8
      simp only [v2]
      refine State.modCmd_inv _ _ _ _ ?_
      refine State.tlbTake_inv _ _ ?_
      assumption
    · rename_i m9 m10
      assumption
    · rename_i m11 m12 m13 m14
      simp only [v2]
      refine State.modCmd_inv _ _ _ _ ?_
      refine State.noteTable_inv _ _ _ ?_
      assumption
    · rename_i m15 m16 m17 m18
      simp only [v2]
      refine State.modCmd_inv _ _ _ _ ?_
      assumption

theorem doEngineElem_inv : ∀ (id : ℕ) (s : State), s.Inv → (doEngineElem id s).Inv := by
  intro id s h_s
  unfold doEngineElem
  extract_lets v1
  clear_value v1
  split
  · rename_i m2 m3
    assumption
  · rename_i m4 m5 m6
    refine ite_inv (fun _ => ?_) (fun _ => ?_)
    · assumption
    · split
      · rename_i m7 m8 m9 m10
        refine ite_inv (fun _ => ?_) (fun _ => ?_)
        · refine State.prefElem_inv _ _ _ _ ?_
          assumption
        · assumption
      · rename_i m11 m12
        split
        · rename_i m13 m14
          assumption
        · rename_i m15 m16 m17 m18
          refine ite_inv (fun _ => ?_) (fun _ => ?_)
          · assumption
          · refine State.moveElem_inv _ _ _ _ ?_
            assumption

theorem doSpill_inv : ∀ (entry : SpillEnt) (s : State), s.Inv → (doSpill entry s).Inv := by
  intro entry s h_s
  unfold doSpill
  extract_lets v1
  clear_value v1
  refine ite_inv (fun _ => ?_) (fun _ => ?_)
  · assumption
  · split
    · rename_i m2 m3
      assumption
    · rename_i m4 m5 m6 m7
      refine State.modCmd_inv _ _ _ _ ?_
      refine State.modCore_inv _ _ _ ?_
      assumption

theorem State.notifyAt_inv : ∀ (s : State) (e : ℕ) (c : CopyCmd) (w : ℕ) (bs : List Byte), s.Inv → (State.notifyAt s e c w bs).Inv := by
  intro s e c w bs h_s
  unfold State.notifyAt
  extract_lets v1 v2 v3 v4
  rename_i v5
  clear_value v1
  clear_value v2
  clear_value v3
  clear_value v4
  clear_value v5
  refine ite_inv (fun _ => ?_) (fun _ => ?_)
  · refine State.modCmd_inv _ _ _ _ ?_
    refine State.deliver_inv _ _ _ _ _ ?_
    assumption
  · split
    · rename_i m6 m7 m8 m9
      extract_lets v10
      have hv10 : State.Inv v10 := by
        unfold v10
        refine inv_mk ?_
        refine inv_mem ?_
        refine pair_inv ?_ m9
        refine State.fresh_inv _ ?_
        assumption
      clear_value v10
      refine State.modCmd_inv _ _ _ _ ?_
      refine State.putConf_inv _ _ _ _ ?_
      refine State.modWindow_inv _ _ _ ?_
      assumption

theorem State.notify_inv : ∀ (s : State) (e : ℕ) (c : CopyCmd) (w : ℕ) (bs : List Byte), s.Inv → (State.notify s e c w bs).Inv := by
  intro s e c w bs h_s
  unfold State.notify
  extract_lets v1 v2 v3 v4 v5
  clear_value v1
  clear_value v2
  clear_value v3
  clear_value v4
  split
  · rename_i m6 m7 m8 m9 m10
    refine State.notifyAt_inv _ _ _ _ _ ?_
    assumption
  · rename_i m11 m12 m13 m14
    refine State.cmdFail_inv _ _ _ _ _ _ ?_
    refine State.noteTable_inv _ _ _ ?_
    assumption
  · rename_i m15 m16
    simp only [v5]
    refine State.modCmd_inv _ _ _ _ ?_
    refine State.holdLost_inv _ _ _ _ _ _ ?_
    assumption
  · rename_i m17 m18 m19
    simp only [v5]
    refine State.modCmd_inv _ _ _ _ ?_
    refine State.holdMiss_inv _ _ _ _ _ _ _ ?_
    assumption
  · rename_i m20 m21 m22 m23
    simp only [v5]
    refine State.modCmd_inv _ _ _ _ ?_
    refine State.holdBehind_inv _ _ _ _ _ _ _ _ ?_
    assumption
  · rename_i m24 m25 m26 m27
    simp only [v5]
    refine State.modCmd_inv _ _ _ _ ?_
    refine State.holdBehind_inv _ _ _ _ _ _ _ _ ?_
    assumption
  · rename_i m28 m29
    assumption

theorem doEngineComplete_inv : ∀ (id : ℕ) (s : State), s.Inv → (doEngineComplete id s).Inv := by
  intro id s h_s
  unfold doEngineComplete
  extract_lets v1
  clear_value v1
  split
  · rename_i m2 m3
    assumption
  · rename_i m4 m5 m6
    refine ite_inv (fun _ => ?_) (fun _ => ?_)
    · assumption
    · refine ite_inv (fun _ => ?_) (fun _ => ?_)
      · refine State.endCmd_inv _ _ _ ?_
        assumption
      · split
        · rename_i m7 m8 m9 m10
          refine ite_inv (fun _ => ?_) (fun _ => ?_)
          · refine State.endCmd_inv _ _ _ ?_
            assumption
          · assumption
        · rename_i m11 m12
          refine ite_inv (fun _ => ?_) (fun _ => ?_)
          · refine State.endCmd_inv _ _ _ ?_
            assumption
          · refine ite_inv (fun _ => ?_) (fun _ => ?_)
            · assumption
            · extract_lets v13
              clear_value v13
              split
              · rename_i m14 m15 m16 m17
                extract_lets v18
                clear_value v18
                refine ite_inv (fun _ => ?_) (fun _ => ?_)
                · assumption
                · refine State.modCmd_inv _ _ _ _ ?_
                  refine State.modWindow_inv _ _ _ ?_
                  assumption
              · rename_i m19
                split
                · rename_i m20 m21 m22 m23
                  refine ite_inv (fun _ => ?_) (fun _ => ?_)
                  · refine State.notify_inv _ _ _ _ _ ?_
                    assumption
                  · split
                    · rename_i m24 m25 m26
                      refine ite_inv (fun _ => ?_) (fun _ => ?_)
                      · assumption
                      · refine State.endCmd_inv _ _ _ ?_
                        assumption
                    · rename_i m27 m28
                      refine State.endCmd_inv _ _ _ ?_
                      assumption
                · rename_i m29 m30
                  refine State.endCmd_inv _ _ _ ?_
                  assumption

theorem execEngineCommandStart_inv : ∀ (s : State), s.Inv → Safe (execEngineCommandStart s) := by
  intro s h_s
  unfold execEngineCommandStart
  refine safe_next ?_
  refine doEngineStart_inv _ ?_
  assumption

theorem execEngineElementTransfer_inv : ∀ (op : ℕ) (s : State), s.Inv → Safe (execEngineElementTransfer op s) := by
  intro op s h_s
  unfold execEngineElementTransfer
  refine safe_next ?_
  refine doEngineElem_inv _ _ ?_
  assumption

theorem execEngineCommandComplete_inv : ∀ (op : ℕ) (s : State), s.Inv → Safe (execEngineCommandComplete op s) := by
  intro op s h_s
  unfold execEngineCommandComplete
  refine safe_next ?_
  refine doEngineComplete_inv _ _ ?_
  assumption

theorem execSpillRingAppend_inv : ∀ (entry : SpillEnt) (s : State), s.Inv → Safe (execSpillRingAppend entry s) := by
  intro entry s h_s
  unfold execSpillRingAppend
  refine safe_next ?_
  refine doSpill_inv _ _ ?_
  assumption

end Sys2Proof.Machine
end

