-- ==== Sys2Proof/Laws/Keep/Queues.lean ====
section
/-! SUPPORT. Every operation of queues and command graphs keeps the invariant of Safety.lean. -/

namespace Sys2Proof.Machine

open Sys2Proof

/-! ### Machine/EvQueue.lean -/

theorem State.opRead_inv : ∀ (s : State) (o : ℕ) (p : Op) (a3 : List Want) (a4 : List PieceAns), s.Inv → SndInv (State.opRead s o p a3 a4) := by
  intro s o p a3 a4 h_s
  unfold State.opRead
  split
  · rename_i m1 m2
    refine sndInv_mk ?_
    assumption
  · rename_i m3 m4 m5 m6
    split
    · rename_i m7 m8 m9 m10 m11 m12
      refine sndInv_mk ?_
      refine pair_inv ?_ m12
      refine State.request_inv _ _ _ _ _ _ _ ?_
      assumption
    · rename_i m13 m14 m15 m16 m17
      refine State.opRead_inv _ _ _ _ _ ?_
      refine pair_inv ?_ m17
      refine State.request_inv _ _ _ _ _ _ _ ?_
      assumption
    · rename_i m18 m19 m20
      refine sndInv_mk ?_
      refine State.modOp_inv _ _ _ ?_
      refine pair_inv ?_ m20
      refine State.request_inv _ _ _ _ _ _ _ ?_
      assumption
    · rename_i m21 m22 m23
      refine sndInv_mk ?_
      refine pair_inv ?_ m23
      refine State.request_inv _ _ _ _ _ _ _ ?_
      assumption

theorem State.waitSend_inv : ∀ (s : State) (o : ℕ) (w : ℕ) (m : ℕ) (image : List Byte) (mbox : Word) (nowait : Bool) (len : ℕ) (tag : BitVec 16), s.Inv → (State.waitSend s o w m image mbox nowait len tag).Inv := by
  intro s o w m image mbox nowait len tag h_s
  unfold State.waitSend
  extract_lets v1 v2
  have hv1 : State.Inv v1 := by
    unfold v1
    refine State.modOp_inv _ _ _ ?_
    assumption
  clear_value v1
  have hv2 : State.Inv v2 := by
    unfold v2
    refine State.modWindow_inv _ _ _ ?_
    assumption
  clear_value v2
  refine State.putConf_inv _ _ _ _ ?_
  assumption

theorem State.opRoute_inv : ∀ (s : State) (o : ℕ) (p : Op) (r : Req) (act : Place → State), s.Inv → (∀ (b0 : Place), (act b0).Inv) → (State.opRoute s o p r act).Inv := by
  intro s o p r act h_s h_act
  unfold State.opRoute
  extract_lets v1
  split
  · rename_i m2 m3 m4 m5 m6
    refine h_act _
  · rename_i m7 m8 m9 m10
    refine State.opFail_inv _ _ _ _ _ _ ?_
    refine State.noteTable_inv _ _ _ ?_
    assumption
  · rename_i m11 m12
    simp only [v1]
    refine State.modOp_inv _ _ _ ?_
    refine State.holdLost_inv _ _ _ _ _ _ ?_
    assumption
  · rename_i m13 m14 m15
    simp only [v1]
    refine State.modOp_inv _ _ _ ?_
    refine State.holdMiss_inv _ _ _ _ _ _ _ ?_
    assumption
  · rename_i m16 m17 m18 m19
    simp only [v1]
    refine State.modOp_inv _ _ _ ?_
    refine State.holdBehind_inv _ _ _ _ _ _ _ _ ?_
    assumption
  · rename_i m20 m21 m22 m23
    simp only [v1]
    refine State.modOp_inv _ _ _ ?_
    refine State.holdBehind_inv _ _ _ _ _ _ _ _ ?_
    assumption
  · rename_i m24 m25
    assumption

theorem State.arriveMsg_inv : ∀ (s : State) (o : ℕ) (p : Op) (mbox : Word) (nowait : Bool) (image : List Byte) (len : ℕ) (tag : BitVec 16), s.Inv → (State.arriveMsg s o p mbox nowait image len tag).Inv := by
  intro s o p mbox nowait image len tag h_s
  unfold State.arriveMsg
  split
  · rename_i m1 m2
    refine State.opFail_inv _ _ _ _ _ _ ?_
    assumption
  · rename_i m3 m4 m5 m6
    refine State.opRoute_inv _ _ _ _ _ ?_ ?_
    · refine State.modOp_inv _ _ _ ?_
      assumption
    · intro y7
      extract_lets v8
      clear_value v8
      refine ite_inv (fun _ => ?_) (fun _ => ?_)
      · refine State.opDone_inv _ _ _ ?_
        refine State.deliver_inv _ _ _ _ _ ?_
        assumption
      · refine ite_inv (fun _ => ?_) (fun _ => ?_)
        · refine ite_inv (fun _ => ?_) (fun _ => ?_)
          · refine State.modOp_inv _ _ _ ?_
            assumption
          · refine State.opFail_inv _ _ _ _ _ _ ?_
            assumption
        · refine State.waitSend_inv _ _ _ _ _ _ _ _ _ ?_
          assumption

theorem State.sendImage_inv : ∀ (s : State) (o : ℕ) (p : Op) (mbox : Word) (nowait : Bool) (img : Word), s.Inv → (State.sendImage s o p mbox nowait img).Inv := by
  intro s o p mbox nowait img h_s
  unfold State.sendImage
  split
  · rename_i m1 m2 m3 m4 m5
    extract_lets v6 v7
    clear_value v6
    clear_value v7
    refine ite_inv (fun _ => ?_) (fun _ => ?_)
    · refine State.opFail_inv _ _ _ _ _ _ ?_
      refine pair_inv ?_ m5
      refine State.opRead_inv _ _ _ _ _ ?_
      assumption
    · refine ite_inv (fun _ => ?_) (fun _ => ?_)
      · refine State.opFail_inv _ _ _ _ _ _ ?_
        refine pair_inv ?_ m5
        refine State.opRead_inv _ _ _ _ _ ?_
        assumption
      · split
        · rename_i m8 m9 m10 m11 m12
          refine ite_inv (fun _ => ?_) (fun _ => ?_)
          · refine State.opFail_inv _ _ _ _ _ _ ?_
            refine pair_inv ?_ m12
            refine State.opRead_inv _ _ _ _ _ ?_
            refine pair_inv ?_ m5
            refine State.opRead_inv _ _ _ _ _ ?_
            assumption
          · refine State.arriveMsg_inv _ _ _ _ _ _ _ _ ?_
            refine pair_inv ?_ m12
            refine State.opRead_inv _ _ _ _ _ ?_
            refine pair_inv ?_ m5
            refine State.opRead_inv _ _ _ _ _ ?_
            assumption
        · rename_i m13 m14 m15 m16 m17 m18
          refine State.opFail_inv _ _ _ _ _ _ ?_
          refine pair_inv ?_ m18
          refine State.opRead_inv _ _ _ _ _ ?_
          refine pair_inv ?_ m5
          refine State.opRead_inv _ _ _ _ _ ?_
          assumption
        · rename_i m19 m20 m21 m22 m23 m24
          refine pair_inv ?_ m24
          refine State.opRead_inv _ _ _ _ _ ?_
          refine pair_inv ?_ m5
          refine State.opRead_inv _ _ _ _ _ ?_
          assumption
  · rename_i m25 m26 m27 m28 m29 m30
    refine State.opFail_inv _ _ _ _ _ _ ?_
    refine pair_inv ?_ m30
    refine State.opRead_inv _ _ _ _ _ ?_
    assumption
  · rename_i m31 m32 m33 m34 m35 m36
    refine pair_inv ?_ m36
    refine State.opRead_inv _ _ _ _ _ ?_
    assumption

theorem State.emitEdge_inv : ∀ (s : State) (o : ℕ) (p : Op) (mbox : Word) (nowait : Bool) (edge : Word) (t : ℕ) (eta : Vector W32 8) (lam : Vector W32 64) (tau : W32) (beta : ℕ) (k : ℕ), s.Inv → (State.emitEdge s o p mbox nowait edge t eta lam tau beta k).Inv := by
  intro s o p mbox nowait edge t eta lam tau beta k h_s
  unfold State.emitEdge
  extract_lets v1
  rename_i v2 v3 v4 v5 v6 v7 v8 v9 v10 v11 v12
  clear_value v1
  clear_value v2
  clear_value v3
  clear_value v4
  clear_value v7
  clear_value v8
  clear_value v9
  clear_value v10
  clear_value v11
  have hv12 : State.Inv v12 := by
    unfold v12
    refine State.putMem_inv _ _ _ ?_
    simp only [v6]
    refine State.unitTake_inv _ _ _ _ ?_
    simp only [v5]
    split
    · rename_i m13 m14 m15
      refine ite_inv (fun _ => ?_) (fun _ => ?_)
      · refine State.slotRes_inv _ _ _ ?_
        refine State.modPair_inv _ _ _ ?_
        assumption
      · refine State.modPair_inv _ _ _ ?_
        assumption
    · rename_i m16 m17
      refine State.modPair_inv _ _ _ ?_
      assumption
  clear_value v12
  refine ite_inv (fun _ => ?_) (fun _ => ?_)
  · refine State.opFail_inv _ _ _ _ _ _ ?_
    assumption
  · refine ite_inv (fun _ => ?_) (fun _ => ?_)
    · refine State.opDone_inv _ _ _ ?_
      refine State.putMem_inv _ _ _ ?_
      simp only [v6]
      refine State.unitTake_inv _ _ _ _ ?_
      simp only [v5]
      split
      · rename_i m18 m19 m20
        refine ite_inv (fun _ => ?_) (fun _ => ?_)
        · refine State.slotRes_inv _ _ _ ?_
          refine State.modPair_inv _ _ _ ?_
          assumption
        · refine State.modPair_inv _ _ _ ?_
          assumption
      · rename_i m21 m22
        refine State.modPair_inv _ _ _ ?_
        assumption
    · refine State.modOp_inv _ _ _ ?_
      assumption

theorem State.emitGo_inv : ∀ (s : State) (o : ℕ) (p : Op) (mbox : Word) (nowait : Bool) (edge : Word) (t : ℕ) (eta : Vector W32 8) (lam : Vector W32 64) (tau : W32), s.Inv → (State.emitGo s o p mbox nowait edge t eta lam tau).Inv := by
  intro s o p mbox nowait edge t eta lam tau h_s
  unfold State.emitGo
  split
  · rename_i m1 m2
    refine State.opRoute_inv _ _ _ _ _ ?_ ?_
    · assumption
    · intro y3
      split
      · rename_i m4 m5 m6 m7
        refine State.modOp_inv _ _ _ ?_
        assumption
      · rename_i m8 m9
        assumption
  · rename_i m10 m11 m12
    extract_lets v13
    clear_value v13
    refine ite_inv (fun _ => ?_) (fun _ => ?_)
    · assumption
    · refine State.opRoute_inv _ _ _ _ _ ?_ ?_
      · assumption
      · intro y14
        split
        · rename_i m15 m16 m17
          refine State.emitEdge_inv _ _ _ _ _ _ _ _ _ _ _ _ ?_
          assumption
        · rename_i m18 m19
          refine State.opFail_inv _ _ _ _ _ _ ?_
          assumption

theorem doMailboxDelivery_inv : ∀ (s : State), s.Inv → (doMailboxDelivery s).Inv := by
  intro s h_s
  unfold doMailboxDelivery
  extract_lets v1
  clear_value v1
  refine State.whenReady_inv _ _ _ ?_ ?_
  · assumption
  · intro y2
    intro y3
    intro y4
    split
    · rename_i m5 m6 m7 m8 m9 m10 m11
      refine ite_inv (fun _ => ?_) (fun _ => ?_)
      · assumption
      · refine State.arriveMsg_inv _ _ _ _ _ _ _ _ ?_
        assumption
    · rename_i m12 m13 m14 m15 m16
      refine ite_inv (fun _ => ?_) (fun _ => ?_)
      · assumption
      · refine State.sendImage_inv _ _ _ _ _ _ ?_
        assumption
    · rename_i m17 m18 m19 m20 m21 m22 m23 m24 m25
      refine ite_inv (fun _ => ?_) (fun _ => ?_)
      · assumption
      · refine State.emitGo_inv _ _ _ _ _ _ _ _ _ _ ?_
        assumption
    · rename_i m26 m27 m28 m29 m30 m31 m32
      refine ite_inv (fun _ => ?_) (fun _ => ?_)
      · assumption
      · refine State.arriveMsg_inv _ _ _ _ _ _ _ _ ?_
        assumption
    · rename_i m33 m34 m35 m36 m37
      assumption

theorem doWaitingSendEnter_inv : ∀ (mb : ℕ) (s : State), s.Inv → (doWaitingSendEnter mb s).Inv := by
  intro mb s h_s
  unfold doWaitingSendEnter
  extract_lets v1
  clear_value v1
  split
  · rename_i m2 m3
    assumption
  · rename_i m4 m5 m6 m7
    refine ite_inv (fun _ => ?_) (fun _ => ?_)
    · assumption
    · split
      · rename_i m8 m9 m10
        split
        · rename_i m11 m12 m13 m14 m15 m16 m17
          refine State.opDone_inv _ _ _ ?_
          refine State.deliver_inv _ _ _ _ _ ?_
          refine State.unwaitSend_inv _ _ _ ?_
          assumption
        · rename_i m18 m19
          assumption
      · rename_i m20 m21
        refine State.unwaitSend_inv _ _ _ ?_
        assumption

theorem doKickArrival_inv : ∀ (s : State), s.Inv → (doKickArrival s).Inv := by
  intro s h_s
  unfold doKickArrival
  extract_lets v1
  clear_value v1
  refine State.whenReady_inv _ _ _ ?_ ?_
  · assumption
  · intro y2
    intro y3
    intro y4
    split
    · rename_i m5 m6 m7 m8
      split
      · rename_i m9 m10 m11 m12 m13
        refine ite_inv (fun _ => ?_) (fun _ => ?_)
        · refine State.opFail_inv _ _ _ _ _ _ ?_
          refine pair_inv ?_ m13
          refine State.opRead_inv _ _ _ _ _ ?_
          assumption
        · refine State.opRoute_inv _ _ _ _ _ ?_ ?_
          · refine pair_inv ?_ m13
            refine State.opRead_inv _ _ _ _ _ ?_
            assumption
          · intro y14
            extract_lets v15 v16
            clear_value v15
            clear_value v16
            refine ite_inv (fun _ => ?_) (fun _ => ?_)
            · refine State.modOp_inv _ _ _ ?_
              refine State.modWindow_inv _ _ _ ?_
              refine pair_inv ?_ m13
              refine State.opRead_inv _ _ _ _ _ ?_
              assumption
            · refine State.modOp_inv _ _ _ ?_
              refine State.modWindow_inv _ _ _ ?_
              refine pair_inv ?_ m13
              refine State.opRead_inv _ _ _ _ _ ?_
              assumption
      · rename_i m17 m18 m19 m20 m21 m22
        refine State.opFail_inv _ _ _ _ _ _ ?_
        refine pair_inv ?_ m22
        refine State.opRead_inv _ _ _ _ _ ?_
        assumption
      · rename_i m23 m24 m25 m26 m27 m28
        refine pair_inv ?_ m28
        refine State.opRead_inv _ _ _ _ _ ?_
        assumption
    · rename_i m29 m30
      assumption

theorem doNoticeAccept_inv : ∀ (s : State), s.Inv → (doNoticeAccept s).Inv := by
  intro s h_s
  unfold doNoticeAccept
  extract_lets v1 v2
  clear_value v1
  clear_value v2
  split
  · rename_i m3 m4 m5 m6 m7 m8 m9 m10
    extract_lets v11
    clear_value v11
    refine ite_inv (fun _ => ?_) (fun _ => ?_)
    · assumption
    · split
      · rename_i m12 m13
        refine State.modWindow_inv _ _ _ ?_
        assumption
      · rename_i m14 m15 m16
        split
        · rename_i m17 m18 m19 m20
          extract_lets v21
          have hv21 : State.Inv v21 := by
            unfold v21
            refine State.modWindow_inv _ _ _ ?_
            refine pair_inv ?_ m20
            refine State.fresh_inv _ ?_
            assumption
          clear_value v21
          refine State.modEngine_inv _ _ _ ?_
          assumption
  · rename_i m22 m23 m24
    assumption

theorem execMailboxDelivery_inv : ∀ (s : State), s.Inv → Safe (execMailboxDelivery s) := by
  intro s h_s
  unfold execMailboxDelivery
  refine safe_next ?_
  refine doMailboxDelivery_inv _ ?_
  assumption

theorem execWaitingSendEnter_inv : ∀ (mb : ℕ) (s : State), s.Inv → Safe (execWaitingSendEnter mb s) := by
  intro mb s h_s
  unfold execWaitingSendEnter
  refine safe_next ?_
  refine doWaitingSendEnter_inv _ _ ?_
  assumption

theorem execKickArrival_inv : ∀ (s : State), s.Inv → Safe (execKickArrival s) := by
  intro s h_s
  unfold execKickArrival
  refine safe_next ?_
  refine doKickArrival_inv _ ?_
  assumption

theorem execNoticeAccept_inv : ∀ (s : State), s.Inv → Safe (execNoticeAccept s) := by
  intro s h_s
  unfold execNoticeAccept
  refine safe_next ?_
  refine doNoticeAccept_inv _ ?_
  assumption

/-! ### Machine/EvGraph.lean -/

theorem State.capFault_inv : ∀ (s : State) (q : ℕ) (k : ℕ) (sub : ℕ), s.Inv → (State.capFault s q k sub).Inv := by
  intro s q k sub h_s
  unfold State.capFault
  refine State.logRec_inv _ _ _ _ _ _ _ ?_
  refine State.modQueue_inv _ _ _ ?_
  assumption

theorem State.selectPacket_inv : ∀ (s : State) (q : ℕ), s.Inv → (State.selectPacket s q).Inv := by
  intro s q h_s
  unfold State.selectPacket
  split
  · rename_i m1 m2
    refine Selected.inv_leave ?_
    assumption
  · rename_i m3 m4 m5
    split
    · rename_i m6 m7
      refine Selected.inv_leave ?_
      assumption
    · rename_i m8 m9 m10 m11
      refine Selected.inv_leave ?_
      refine State.capFault_inv _ _ _ _ ?_
      refine State.sawAt_inv _ _ ?_
      assumption
    · rename_i m12 m13 m14 m15
      refine Selected.inv_leave ?_
      refine State.unitMiss_inv _ _ _ _ ?_
      assumption
    · rename_i m16 m17 m18 m19
      extract_lets v20 v21
      clear_value v20
      clear_value v21
      refine ite_selInv (fun _ => ?_) (fun _ => ?_)
      · refine Selected.inv_leave ?_
        assumption
      · split
        · rename_i m22 m23
          refine Selected.inv_go
        · rename_i m24 m25 m26 m27
          refine Selected.inv_leave ?_
          refine State.capFault_inv _ _ _ _ ?_
          refine State.sawAt_inv _ _ ?_
          assumption
        · rename_i m28 m29 m30 m31
          refine Selected.inv_leave ?_
          refine State.unitMiss_inv _ _ _ _ ?_
          assumption

theorem State.journal_inv : ∀ (s : State) (k : ℕ) (id : ℕ) (bs : List Byte), s.Inv → (State.journal s k id bs).Inv := by
  intro s k id bs h_s
  unfold State.journal
  refine State.qtWrite_inv _ _ _ ?_
  assumption

theorem State.takePacket_inv : ∀ (s : State) (q : ℕ) (parent : Option ℕ) (bs : List Byte), s.Inv → SndInv (State.takePacket s q parent bs) := by
  intro s q parent bs h_s
  unfold State.takePacket
  extract_lets v1
  rename_i v2 v3 v4
  have hv1 : State.Inv v1 := by
    unfold v1
    split
    · rename_i m5 m6 m7
      refine State.journal_inv _ _ _ _ ?_
      refine snd_inv ?_
      refine State.judge_inv _ _ _ _ ?_
      assumption
    · rename_i m8 m9
      assumption
  clear_value v1
  clear_value v2
  clear_value v3
  clear_value v4
  split
  · rename_i m5 m6 m7 m10
    extract_lets v11
    rename_i v12
    have hv11 : State.Inv v11 := by
      unfold v11
      refine State.modQueue_inv _ _ _ ?_
      refine pair_inv ?_ m10
      refine State.fresh_inv _ ?_
      assumption
    clear_value v11
    have hv12 : State.Inv v12 := by
      unfold v12
      refine inv_mk ?_
      refine inv_mem ?_
      assumption
    clear_value v12
    split
    · rename_i m13 m14
      refine sndInv_mk ?_
      refine inv_mk ?_
      refine inv_mem ?_
      assumption
    · rename_i m15
      refine sndInv_mk ?_
      refine State.modQueue_inv _ _ _ ?_
      refine State.qput_inv _ _ _ _ _ ?_
      assumption

theorem State.refusePacket_inv : ∀ (s : State) (pk : ℕ), s.Inv → (State.refusePacket s pk).Inv := by
  intro s pk h_s
  unfold State.refusePacket
  refine inv_mk ?_
  refine inv_mem ?_
  assumption

theorem State.refuseFor_inv : ∀ (s : State) (d : GridFor), s.Inv → (State.refuseFor s d).Inv := by
  intro s d h_s
  unfold State.refuseFor
  split
  · rename_i m1 m2
    refine State.finishFor_inv _ _ ?_
    refine State.refusePacket_inv _ _ ?_
    assumption
  · rename_i m3 m4
    refine State.finishFor_inv _ _ ?_
    assumption

theorem State.wakeLatch_inv : ∀ (s : State) (key : ℕ), s.Inv → (State.wakeLatch s key).Inv := by
  intro s key h_s
  unfold State.wakeLatch
  refine foldl_inv ?_ (fun t1 x2 ht1 => ?_)
  · assumption
  · refine ite_inv (fun _ => ?_) (fun _ => ?_)
    · split
      · rename_i m3 m4 m5
        refine ite_inv (fun _ => ?_) (fun _ => ?_)
        · refine State.qput_inv _ _ _ _ _ ?_
          assumption
        · assumption
      · rename_i m6 m7
        assumption
    · assumption

theorem State.unitStore_inv : ∀ (s : State) (c : Ctx) (k : ℕ) (kind : AccKind) (va : Word) (w : ℕ) (f : ℕ → ℕ) (d : GridFor), s.Inv → (State.unitStore s c k kind va w f d).Inv := by
  intro s c k kind va w f d h_s
  unfold State.unitStore
  split
  · rename_i m1 m2 m3
    refine State.finishFor_inv _ _ ?_
    refine State.wakeLatch_inv _ _ ?_
    refine State.putNat_inv _ _ _ _ ?_
    refine State.unitSpend_inv _ _ _ _ _ ?_
    assumption
  · rename_i m4 m5 m6 m7
    refine State.failPk_inv _ _ _ _ _ _ _ ?_
    refine State.unitMiss_inv _ _ _ _ ?_
    assumption
  · rename_i m8 m9
    assumption

theorem State.giveCopy_inv : ∀ (s : State) (e : ℕ) (c : Ctx) (desc : Word) (tag : BitVec 16) (nodl : Bool) (d : GridFor), s.Inv → (State.giveCopy s e c desc tag nodl d).Inv := by
  intro s e c desc tag nodl d h_s
  unfold State.giveCopy
  split
  · rename_i m1 m2 m3 m4
    refine State.modEngine_inv _ _ _ ?_
    refine pair_inv ?_ m4
    refine State.fresh_inv _ ?_
    assumption

theorem State.waitTest_inv : ∀ (s : State) (c : Ctx) (k : ℕ) (cmp : ℕ) (va : Word) (v : Word) (pk : Option ℕ) (node : Option (ℕ × ℕ)) (d : GridFor), s.Inv → (State.waitTest s c k cmp va v pk node d).Inv := by
  intro s c k cmp va v pk node d h_s
  unfold State.waitTest
  split
  · rename_i m1 m2 m3
    refine ite_inv (fun _ => ?_) (fun _ => ?_)
    · refine State.finishFor_inv _ _ ?_
      refine State.unitSpend_inv _ _ _ _ _ ?_
      assumption
    · split
      · rename_i m4 m5 m6 m7
        extract_lets v8 v9
        clear_value v8
        have hv9 : State.Inv v9 := by
          unfold v9
          refine inv_mk ?_
          refine inv_mem ?_
          refine pair_inv ?_ m7
          refine State.fresh_inv _ ?_
          refine State.unitSpend_inv _ _ _ _ _ ?_
          assumption
        clear_value v9
        split
        · rename_i m10 m11 m12
          refine State.modQueue_inv _ _ _ ?_
          assumption
        · rename_i m13 m14
          assumption
  · rename_i m15 m16 m17 m18
    refine State.failPk_inv _ _ _ _ _ _ _ ?_
    refine State.unitMiss_inv _ _ _ _ ?_
    assumption
  · rename_i m19 m20
    assumption

theorem State.launchSpend_inv : ∀ (s : State) (c : Ctx) (rec_ : Word) (khdr : Word), s.Inv → (State.launchSpend s c rec_ khdr).Inv := by
  intro s c rec_ khdr h_s
  unfold State.launchSpend
  refine State.unitSpend_inv _ _ _ _ _ ?_
  refine State.unitSpend_inv _ _ _ _ _ ?_
  assumption

theorem State.startPipe_inv : ∀ (s : State) (asid : BitVec 16) (k : ℕ) (prec : Word) (rounds : ℕ) (stages : List (Word × Launch × Khdr × List (ℕ × ℕ × ℕ))) (d : GridFor), s.Inv → (State.startPipe s asid k prec rounds stages d).Inv := by
  intro s asid k prec rounds stages d h_s
  unfold State.startPipe
  extract_lets v1
  rename_i v2
  clear_value v1
  clear_value v2
  split
  · rename_i m3 m4 m5 m6
    split
    · rename_i m7 m8 m9 m10
      extract_lets v11
      clear_value v11
      refine inv_mk ?_
      refine inv_mem ?_
      refine pair_inv ?_ m10
      refine foldl_sndInv ?_ (fun t12 x13 ht12 => ?_)
      · refine sndInv_mk ?_
        refine pair_inv ?_ m6
        refine State.fresh_inv _ ?_
        refine foldl_inv ?_ (fun t14 x15 ht14 => ?_)
        · assumption
        · refine State.launchSpend_inv _ _ _ _ ?_
          assumption
      · split
        · rename_i m16 m17 m18 m19 m20 m21
          split
          · rename_i m22 m23 m24 m25
            refine sndInv_mk ?_
            refine pair_inv ?_ m25
            refine State.newGrid_inv _ _ _ _ _ _ _ ?_
            refine snd_inv ?_
            assumption

theorem doDeviceLaunch_inv : ∀ (s : State), s.Inv → (doDeviceLaunch s).Inv := by
  intro s h_s
  unfold doDeviceLaunch
  extract_lets v1
  clear_value v1
  refine State.whenReady_inv _ _ _ ?_ ?_
  · assumption
  · intro y2
    intro y3
    intro y4
    split
    · rename_i m5 m6 m7 m8
      extract_lets v9 v10
      rename_i v11 v12 v13 v14 v15
      clear_value v9
      clear_value v11
      clear_value v12
      clear_value v13
      clear_value v14
      clear_value v15
      split
      · rename_i m16 m17
        assumption
      · rename_i m18 m19 m20
        refine ite_inv (fun _ => ?_) (fun _ => ?_)
        · refine State.opDone_inv _ _ _ ?_
          assumption
        · refine ite_inv (fun _ => ?_) (fun _ => ?_)
          · simp only [v10]
            refine State.logRec_inv _ _ _ _ _ _ _ ?_
            refine State.opFail_inv _ _ _ _ _ _ ?_
            refine State.modOp_inv _ _ _ ?_
            assumption
          · split
            · rename_i m21 m22 m23
              refine State.unitMiss_inv _ _ _ _ ?_
              assumption
            · rename_i m24 m25 m26 m27 m28
              simp only [v10]
              refine State.logRec_inv _ _ _ _ _ _ _ ?_
              refine State.opFail_inv _ _ _ _ _ _ ?_
              refine State.modOp_inv _ _ _ ?_
              refine State.unitMiss_inv _ _ _ _ ?_
              assumption
            · rename_i m29 m30 m31
              refine ite_inv (fun _ => ?_) (fun _ => ?_)
              · simp only [v10]
                refine State.logRec_inv _ _ _ _ _ _ _ ?_
                refine State.opFail_inv _ _ _ _ _ _ ?_
                refine State.modOp_inv _ _ _ ?_
                assumption
              · refine ite_inv (fun _ => ?_) (fun _ => ?_)
                · assumption
                · split
                  · rename_i m32 m33
                    refine State.unitMiss_inv _ _ _ _ ?_
                    assumption
                  · rename_i m34 m35 m36 m37
                    refine State.opFail_inv _ _ _ _ _ _ ?_
                    refine State.modOp_inv _ _ _ ?_
                    refine State.unitMiss_inv _ _ _ _ ?_
                    assumption
                  · rename_i m38 m39 m40
                    extract_lets v41 v42
                    have hv41 : State.Inv v41 := by
                      unfold v41
                      refine State.modQueue_inv _ _ _ ?_
                      refine State.qput_inv _ _ _ _ _ ?_
                      refine State.putNat_inv _ _ _ _ ?_
                      assumption
                    clear_value v41
                    have hv42 : State.Inv v42 := by
                      unfold v42
                      refine ite_inv (fun _ => ?_) (fun _ => ?_)
                      · refine State.qput_inv _ _ _ _ _ ?_
                        assumption
                      · assumption
                    clear_value v42
                    refine State.modOp_inv _ _ _ ?_
                    assumption
    · rename_i m43 m44
      assumption

theorem doNop_inv : ∀ (s : State), s.Inv → (doNop s).Inv := by
  intro s h_s
  unfold doNop
  split
  · rename_i m1 m2 m3
    refine selLeave_inv ?_ m3
    refine State.selectPacket_inv _ _ ?_
    assumption
  · rename_i m4 m5 m6 m7 m8 m9
    split
    · rename_i m10 m11 m12 m13
      refine State.finishFor_inv _ _ ?_
      refine pair_inv ?_ m13
      refine State.takePacket_inv _ _ _ _ ?_
      assumption
  · rename_i m14 m15 m16
    assumption

theorem doLaunchg_inv : ∀ (s : State), s.Inv → (doLaunchg s).Inv := by
  intro s h_s
  unfold doLaunchg
  extract_lets v1
  rename_i v2
  clear_value v1
  clear_value v2
  split
  · rename_i m3 m4 m5
    refine selLeave_inv ?_ m5
    refine State.selectPacket_inv _ _ ?_
    assumption
  · rename_i m6 m7 m8 m9 m10 m11 m12 m13
    extract_lets v14
    rename_i v15 v16 v17
    clear_value v14
    have hv15 : SndInv v15 := by
      unfold v15
      refine State.takePacket_inv _ _ _ _ ?_
      assumption
    clear_value v15
    clear_value v16
    have hv17 : State.Inv v17 := by
      unfold v17
      refine ite_inv (fun _ => ?_) (fun _ => ?_)
      · refine State.modQueue_inv _ _ _ ?_
        refine snd_inv ?_
        assumption
      · refine snd_inv ?_
        assumption
    clear_value v17
    refine ite_inv (fun _ => ?_) (fun _ => ?_)
    · assumption
    · refine ite_inv (fun _ => ?_) (fun _ => ?_)
      · refine State.refuseFor_inv _ _ ?_
        assumption
      · split
        · rename_i m18 m19 m20 m21
          refine State.unitMiss_inv _ _ _ _ ?_
          assumption
        · rename_i m22 m23 m24 m25
          refine State.capFault_inv _ _ _ _ ?_
          refine State.unitMiss_inv _ _ _ _ ?_
          assumption
        · rename_i m26 m27 m28
          split
          · rename_i m29 m30 m31 m32
            refine State.refuseFor_inv _ _ ?_
            refine State.opFail_inv _ _ _ _ _ _ ?_
            refine State.modOp_inv _ _ _ ?_
            assumption
          · rename_i m33 m34
            refine State.refuseFor_inv _ _ ?_
            refine State.refuseLaunch_inv _ _ _ _ _ ?_
            assumption
        · rename_i m35 m36 m37 m38
          split
          · rename_i m29 m30 m31 m32
            split
            · rename_i m39 m40 m41 m42
              refine State.opDone_inv _ _ _ ?_
              refine pair_inv ?_ m32
              refine State.newGrid_inv _ _ _ _ _ _ _ ?_
              refine State.launchSpend_inv _ _ _ _ ?_
              assumption
            · rename_i m43 m44
              refine pair_inv ?_ m32
              refine State.newGrid_inv _ _ _ _ _ _ _ ?_
              refine State.launchSpend_inv _ _ _ _ ?_
              assumption
  · rename_i m45 m46 m47
    assumption

theorem doLaunchp_inv : ∀ (s : State), s.Inv → (doLaunchp s).Inv := by
  intro s h_s
  unfold doLaunchp
  extract_lets v1
  clear_value v1
  split
  · rename_i m2 m3 m4
    refine selLeave_inv ?_ m4
    refine State.selectPacket_inv _ _ ?_
    assumption
  · rename_i m5 m6 m7 m8 m9 m10 m11
    split
    · rename_i m12 m13 m14 m15
      split
      · rename_i m16 m17 m18 m19
        refine State.unitMiss_inv _ _ _ _ ?_
        assumption
      · rename_i m20 m21 m22 m23
        refine State.capFault_inv _ _ _ _ ?_
        refine State.unitMiss_inv _ _ _ _ ?_
        assumption
      · rename_i m24 m25 m26 m27
        refine State.refuseFor_inv _ _ ?_
        refine State.refuseLaunch_inv _ _ _ _ _ ?_
        refine pair_inv ?_ m15
        refine State.takePacket_inv _ _ _ _ ?_
        assumption
      · rename_i m28 m29 m30 m31
        refine State.startPipe_inv _ _ _ _ _ _ _ ?_
        refine pair_inv ?_ m15
        refine State.takePacket_inv _ _ _ _ ?_
        assumption
  · rename_i m32 m33 m34
    assumption

theorem State.putCount_inv : ∀ (s : State) (c : Ctx) (table : Word) (i : ℕ) (n : ℕ), s.Inv → (State.putCount s c table i n).Inv := by
  intro s c table i n h_s
  unfold State.putCount
  refine State.unitWrite_inv _ _ _ _ _ ?_
  assumption

theorem doGraph_inv : ∀ (s : State), s.Inv → (doGraph s).Inv := by
  intro s h_s
  unfold doGraph
  extract_lets v1
  clear_value v1
  split
  · rename_i m2 m3 m4
    refine selLeave_inv ?_ m4
    refine State.selectPacket_inv _ _ ?_
    assumption
  · rename_i m5 m6 m7 m8 m9 m10 m11 m12
    split
    · rename_i m13 m14 m15
      refine State.unitMiss_inv _ _ _ _ ?_
      assumption
    · rename_i m16 m17
      split
      · rename_i m18 m19 m20 m21
        split
        · rename_i m22 m23 m24 m25
          extract_lets v26 v27 v28
          have hv26 : State.Inv v26 := by
            unfold v26
            refine foldl_inv ?_ (fun t29 x30 ht29 => ?_)
            · refine pair_inv ?_ m25
              refine State.fresh_inv _ ?_
              refine pair_inv ?_ m21
              refine State.takePacket_inv _ _ _ _ ?_
              assumption
            · refine State.putCount_inv _ _ _ _ _ ?_
              assumption
          clear_value v26
          clear_value v27
          clear_value v28
          refine ite_inv (fun _ => ?_) (fun _ => ?_)
          · refine State.finishFor_inv _ _ ?_
            assumption
          · refine inv_mk ?_
            refine inv_mem ?_
            assumption
  · rename_i m31 m32 m33
    assumption

theorem doCopyPacket_inv : ∀ (s : State), s.Inv → (doCopyPacket s).Inv := by
  intro s h_s
  unfold doCopyPacket
  extract_lets v1
  clear_value v1
  split
  · rename_i m2 m3 m4
    refine selLeave_inv ?_ m4
    refine State.selectPacket_inv _ _ ?_
    assumption
  · rename_i m5 m6 m7 m8 m9 m10 m11
    split
    · rename_i m12 m13 m14
      extract_lets v15
      clear_value v15
      refine ite_inv (fun _ => ?_) (fun _ => ?_)
      · split
        · rename_i m16 m17 m18 m19
          split
          · rename_i m20 m21 m22
            refine State.giveCopy_inv _ _ _ _ _ _ _ ?_
            refine pair_inv ?_ m19
            refine State.takePacket_inv _ _ _ _ ?_
            assumption
          · rename_i m23 m24
            refine pair_inv ?_ m19
            refine State.takePacket_inv _ _ _ _ ?_
            assumption
      · assumption
    · rename_i m25 m26
      assumption
  · rename_i m27 m28 m29
    assumption

theorem doSignal_inv : ∀ (op : ℕ) (s : State), s.Inv → (doSignal op s).Inv := by
  intro op s h_s
  unfold doSignal
  extract_lets v1
  clear_value v1
  split
  · rename_i m2 m3 m4
    refine selLeave_inv ?_ m4
    refine State.selectPacket_inv _ _ ?_
    assumption
  · rename_i m5 m6 m7 m8 m9 m10 m11 m12 m13
    refine ite_inv (fun _ => ?_) (fun _ => ?_)
    · assumption
    · refine ite_inv (fun _ => ?_) (fun _ => ?_)
      · refine State.unitMiss_inv _ _ _ _ ?_
        assumption
      · split
        · rename_i m14 m15 m16 m17
          refine State.unitStore_inv _ _ _ _ _ _ _ _ ?_
          refine pair_inv ?_ m17
          refine State.takePacket_inv _ _ _ _ ?_
          assumption
  · rename_i m18 m19 m20
    assumption

theorem doWaitsig_inv : ∀ (s : State), s.Inv → (doWaitsig s).Inv := by
  intro s h_s
  unfold doWaitsig
  extract_lets v1
  clear_value v1
  split
  · rename_i m2 m3 m4
    refine selLeave_inv ?_ m4
    refine State.selectPacket_inv _ _ ?_
    assumption
  · rename_i m5 m6 m7 m8 m9 m10 m11 m12 m13
    refine ite_inv (fun _ => ?_) (fun _ => ?_)
    · refine State.unitMiss_inv _ _ _ _ ?_
      assumption
    · split
      · rename_i m14 m15 m16 m17
        refine State.waitTest_inv _ _ _ _ _ _ _ _ _ ?_
        refine pair_inv ?_ m17
        refine State.takePacket_inv _ _ _ _ ?_
        assumption
  · rename_i m18 m19 m20
    assumption

theorem doWrite_inv : ∀ (s : State), s.Inv → (doWrite s).Inv := by
  intro s h_s
  unfold doWrite
  extract_lets v1
  clear_value v1
  split
  · rename_i m2 m3 m4
    refine selLeave_inv ?_ m4
    refine State.selectPacket_inv _ _ ?_
    assumption
  · rename_i m5 m6 m7 m8 m9 m10 m11 m12 m13
    refine ite_inv (fun _ => ?_) (fun _ => ?_)
    · refine State.unitMiss_inv _ _ _ _ ?_
      assumption
    · split
      · rename_i m14 m15 m16 m17
        refine State.unitStore_inv _ _ _ _ _ _ _ _ ?_
        refine pair_inv ?_ m17
        refine State.takePacket_inv _ _ _ _ ?_
        assumption
  · rename_i m18 m19 m20
    assumption

theorem doIb_inv : ∀ (s : State), s.Inv → (doIb s).Inv := by
  intro s h_s
  unfold doIb
  split
  · rename_i m1 m2 m3
    refine selLeave_inv ?_ m3
    refine State.selectPacket_inv _ _ ?_
    assumption
  · rename_i m4 m5 m6 m7 m8 m9 m10 m11
    refine snd_inv ?_
    refine State.takePacket_inv _ _ _ _ ?_
    assumption
  · rename_i m12 m13 m14
    assumption

theorem State.addCsig_inv : ∀ (s : State) (c : Ctx) (k : ℕ) (a : Word), s.Inv → (State.addCsig s c k a).Inv := by
  intro s c k a h_s
  unfold State.addCsig
  refine ite_inv (fun _ => ?_) (fun _ => ?_)
  · assumption
  · split
    · rename_i m1 m2 m3
      refine State.wakeLatch_inv _ _ ?_
      refine State.putNat_inv _ _ _ _ ?_
      refine State.unitSpend_inv _ _ _ _ _ ?_
      assumption
    · rename_i m4 m5 m6 m7
      refine State.reportLog_inv _ _ _ ?_
      refine State.unitMiss_inv _ _ _ _ ?_
      assumption
    · rename_i m8 m9
      assumption

theorem State.slotInterrupt_inv : ∀ (s : State) (i : ℕ), s.Inv → (State.slotInterrupt s i).Inv := by
  intro s i h_s
  unfold State.slotInterrupt
  extract_lets v1
  rename_i v2 v3
  clear_value v1
  clear_value v2
  have hv3 : State.Inv v3 := by
    unfold v3
    refine State.modSlot_inv _ _ _ ?_
    assumption
  clear_value v3
  refine ite_inv (fun _ => ?_) (fun _ => ?_)
  · assumption
  · refine ite_inv (fun _ => ?_) (fun _ => ?_)
    · refine inv_mk ?_
      refine inv_mem ?_
      assumption
    · refine State.modSlot_inv _ _ _ ?_
      assumption

theorem doPacketComplete_inv : ∀ (s : State), s.Inv → (doPacketComplete s).Inv := by
  intro s h_s
  unfold doPacketComplete
  extract_lets v1
  clear_value v1
  split
  · rename_i m2 m3
    assumption
  · rename_i m4 m5 m6
    extract_lets v7
    rename_i v8 v9 v10 v11
    clear_value v7
    clear_value v8
    clear_value v9
    clear_value v10
    clear_value v11
    split
    · rename_i m12 m13
      assumption
    · rename_i m14 m15 m16
      refine ite_inv (fun _ => ?_) (fun _ => ?_)
      · assumption
      · extract_lets v17
        rename_i v18 v19 v20 v21 v22 v23
        clear_value v17
        have hv18 : State.Inv v18 := by
          unfold v18
          refine State.drain_inv _ _ ?_
          assumption
        clear_value v18
        have hv19 : State.Inv v19 := by
          unfold v19
          refine State.addCsig_inv _ _ _ _ ?_
          refine State.addCsig_inv _ _ _ _ ?_
          assumption
        clear_value v19
        have hv20 : State.Inv v20 := by
          unfold v20
          refine inv_mk ?_
          refine inv_mem ?_
          assumption
        clear_value v20
        have hv21 : State.Inv v21 := by
          unfold v21
          refine State.modQueue_inv _ _ _ ?_
          assumption
        clear_value v21
        have hv22 : State.Inv v22 := by
          unfold v22
          refine State.qput_inv _ _ _ _ _ ?_
          assumption
        clear_value v22
        have hv23 : State.Inv v23 := by
          unfold v23
          refine ite_inv (fun _ => ?_) (fun _ => ?_)
          · refine State.qput_inv _ _ _ _ _ ?_
            assumption
          · assumption
        clear_value v23
        refine ite_inv (fun _ => ?_) (fun _ => ?_)
        · refine inv_mk ?_
          refine inv_mem ?_
          assumption
        · split
          · rename_i m24 m25 m26
            refine State.unitMiss_inv _ _ _ _ ?_
            assumption
          · rename_i m27 m28
            split
            · rename_i m29 m30 m31
              refine inv_mk ?_
              refine inv_mem ?_
              assumption
            · rename_i m32 m33
              split
              · rename_i m34 m35 m36
                refine State.slotInterrupt_inv _ _ ?_
                assumption
              · rename_i m37 m38
                assumption

theorem State.modGraph_inv : ∀ (s : State) (gi : ℕ) (f : GraphRun → GraphRun), s.Inv → (State.modGraph s gi f).Inv := by
  intro s gi f h_s
  unfold State.modGraph
  refine inv_mk ?_
  refine inv_mem ?_
  assumption

theorem State.graphEnd_inv : ∀ (s : State) (gi : ℕ), s.Inv → (State.graphEnd s gi).Inv := by
  intro s gi h_s
  unfold State.graphEnd
  split
  · rename_i m1 m2
    assumption
  · rename_i m3 m4 m5
    refine ite_inv (fun _ => ?_) (fun _ => ?_)
    · assumption
    · extract_lets v6
      rename_i v7
      have hv6 : State.Inv v6 := by
        unfold v6
        refine inv_mk ?_
        refine inv_mem ?_
        assumption
      clear_value v6
      have hv7 : State.Inv v7 := by
        unfold v7
        refine inv_mk ?_
        refine inv_mem ?_
        assumption
      clear_value v7
      refine ite_inv (fun _ => ?_) (fun _ => ?_)
      · refine State.finishFor_inv _ _ ?_
        assumption
      · split
        · rename_i m8 m9
          assumption
        · rename_i m10 m11 m12
          extract_lets v13
          have hv13 : State.Inv v13 := by
            unfold v13
            split
            · rename_i m14 m15 m16
              refine inv_mk ?_
              refine inv_mem ?_
              assumption
            · rename_i m17 m18
              refine State.qput_inv _ _ _ _ _ ?_
              assumption
          clear_value v13
          refine State.modQueue_inv _ _ _ ?_
          assumption

theorem State.graphFault_inv : ∀ (s : State) (gi : ℕ) (q : ℕ) (k : ℕ) (sub : ℕ), s.Inv → (State.graphFault s gi q k sub).Inv := by
  intro s gi q k sub h_s
  unfold State.graphFault
  refine State.graphEnd_inv _ _ ?_
  refine State.logRec_inv _ _ _ _ _ _ _ ?_
  refine State.modGraph_inv _ _ _ ?_
  assumption

theorem runNode_inv : ∀ (gi : ℕ) (i : ℕ) (act : Work →
  Packet → ℕ → Ctx → State → State) (s : State), (∀ (b0 : Work) (b1 : Packet) (b2 : ℕ) (b3 : Ctx) (b4 : State), b4.Inv → (act b0 b1 b2 b3 b4).Inv) → s.Inv → (runNode gi i act s).Inv := by
  intro gi i act s h_act h_s
  unfold runNode
  split
  · rename_i m1 m2
    assumption
  · rename_i m3 m4 m5
    split
    · rename_i m6 m7
      assumption
    · rename_i m8 m9 m10 m11 m12
      refine ite_inv (fun _ => ?_) (fun _ => ?_)
      · assumption
      · split
        · rename_i m13 m14 m15 m16
          refine State.graphFault_inv _ _ _ _ _ ?_
          refine State.sawAt_inv _ _ ?_
          assumption
        · rename_i m17 m18 m19 m20
          refine State.unitMiss_inv _ _ _ _ ?_
          assumption
        · rename_i m21 m22
          split
          · rename_i m23 m24 m25
            refine h_act _ _ _ _ _ ?_
            assumption
          · rename_i m26 m27
            assumption

theorem State.nodeWorks_inv : ∀ (s : State) (c : Ctx) (gi : ℕ) (i : ℕ), s.Inv → (State.nodeWorks s c gi i).Inv := by
  intro s c gi i h_s
  unfold State.nodeWorks
  split
  · rename_i m1 m2 m3
    refine State.modGraph_inv _ _ _ ?_
    refine State.unitSpend_inv _ _ _ _ _ ?_
    assumption
  · rename_i m4 m5
    assumption

theorem doKern_inv : ∀ (i : ℕ) (s : State), s.Inv → (doKern i s).Inv := by
  intro i s h_s
  unfold doKern
  refine runNode_inv _ _ _ _ ?_ ?_
  · intro y1
    intro y2
    intro y3
    intro y4
    intro y5
    intro y6
    split
    · rename_i m7 m8 m9
      split
      · rename_i m10 m11 m12 m13
        refine State.unitMiss_inv _ _ _ _ ?_
        assumption
      · rename_i m14 m15 m16 m17
        refine State.graphFault_inv _ _ _ _ _ ?_
        refine State.unitMiss_inv _ _ _ _ ?_
        assumption
      · rename_i m18 m19 m20
        refine State.finishFor_inv _ _ ?_
        refine State.refuseLaunch_inv _ _ _ _ _ ?_
        refine State.nodeWorks_inv _ _ _ _ ?_
        assumption
      · rename_i m21 m22 m23 m24
        refine snd_inv ?_
        refine State.newGrid_inv _ _ _ _ _ _ _ ?_
        refine State.launchSpend_inv _ _ _ _ ?_
        refine State.nodeWorks_inv _ _ _ _ ?_
        assumption
    · rename_i m25 m26
      assumption
  · assumption

theorem doPipeNode_inv : ∀ (i : ℕ) (s : State), s.Inv → (doPipeNode i s).Inv := by
  intro i s h_s
  unfold doPipeNode
  refine runNode_inv _ _ _ _ ?_ ?_
  · intro y1
    intro y2
    intro y3
    intro y4
    intro y5
    intro y6
    split
    · rename_i m7 m8
      split
      · rename_i m9 m10 m11 m12
        refine State.unitMiss_inv _ _ _ _ ?_
        assumption
      · rename_i m13 m14 m15 m16
        refine State.graphFault_inv _ _ _ _ _ ?_
        refine State.unitMiss_inv _ _ _ _ ?_
        assumption
      · rename_i m17 m18 m19 m20
        refine State.finishFor_inv _ _ ?_
        refine State.refuseLaunch_inv _ _ _ _ _ ?_
        refine State.nodeWorks_inv _ _ _ _ ?_
        assumption
      · rename_i m21 m22 m23 m24
        refine State.startPipe_inv _ _ _ _ _ _ _ ?_
        refine State.nodeWorks_inv _ _ _ _ ?_
        assumption
    · rename_i m25 m26
      assumption
  · assumption

theorem doCopyNode_inv : ∀ (i : ℕ) (s : State), s.Inv → (doCopyNode i s).Inv := by
  intro i s h_s
  unfold doCopyNode
  refine runNode_inv _ _ _ _ ?_ ?_
  · intro y1
    intro y2
    intro y3
    intro y4
    intro y5
    intro y6
    split
    · rename_i m7 m8
      split
      · rename_i m9 m10 m11
        extract_lets v12
        clear_value v12
        refine ite_inv (fun _ => ?_) (fun _ => ?_)
        · refine State.giveCopy_inv _ _ _ _ _ _ _ ?_
          refine State.nodeWorks_inv _ _ _ _ ?_
          assumption
        · assumption
      · rename_i m13 m14
        assumption
    · rename_i m15 m16
      assumption
  · assumption

theorem doSignalNode_inv : ∀ (i : ℕ) (s : State), s.Inv → (doSignalNode i s).Inv := by
  intro i s h_s
  unfold doSignalNode
  refine runNode_inv _ _ _ _ ?_ ?_
  · intro y1
    intro y2
    intro y3
    intro y4
    intro y5
    intro y6
    split
    · rename_i m7 m8 m9 m10
      refine ite_inv (fun _ => ?_) (fun _ => ?_)
      · refine State.unitMiss_inv _ _ _ _ ?_
        assumption
      · refine State.unitStore_inv _ _ _ _ _ _ _ _ ?_
        refine State.nodeWorks_inv _ _ _ _ ?_
        assumption
    · rename_i m11 m12
      assumption
  · assumption

theorem doWaitNode_inv : ∀ (i : ℕ) (s : State), s.Inv → (doWaitNode i s).Inv := by
  intro i s h_s
  unfold doWaitNode
  refine runNode_inv _ _ _ _ ?_ ?_
  · intro y1
    intro y2
    intro y3
    intro y4
    intro y5
    intro y6
    split
    · rename_i m7 m8 m9 m10
      refine ite_inv (fun _ => ?_) (fun _ => ?_)
      · refine State.unitMiss_inv _ _ _ _ ?_
        assumption
      · refine State.waitTest_inv _ _ _ _ _ _ _ _ _ ?_
        refine State.nodeWorks_inv _ _ _ _ ?_
        assumption
    · rename_i m11 m12
      assumption
  · assumption

theorem doJoin_inv : ∀ (i : ℕ) (s : State), s.Inv → (doJoin i s).Inv := by
  intro i s h_s
  unfold doJoin
  refine runNode_inv _ _ _ _ ?_ ?_
  · intro y1
    intro y2
    intro y3
    intro y4
    intro y5
    intro y6
    split
    · rename_i m7
      refine State.finishFor_inv _ _ ?_
      refine State.nodeWorks_inv _ _ _ _ ?_
      assumption
    · rename_i m8 m9
      assumption
  · assumption

theorem State.decNode_inv : ∀ (s : State) (gi : ℕ) (c : Ctx) (table : Word) (i : ℕ), s.Inv → (State.decNode s gi c table i).Inv := by
  intro s gi c table i h_s
  unfold State.decNode
  refine ite_inv (fun _ => ?_) (fun _ => ?_)
  · assumption
  · extract_lets v1
    clear_value v1
    split
    · rename_i m2 m3 m4
      extract_lets v5 v6
      clear_value v5
      have hv6 : State.Inv v6 := by
        unfold v6
        refine State.unitWrite_inv _ _ _ _ _ ?_
        assumption
      clear_value v6
      refine ite_inv (fun _ => ?_) (fun _ => ?_)
      · refine State.modGraph_inv _ _ _ ?_
        assumption
      · assumption
    · rename_i m7 m8 m9
      assumption

theorem doNodeFinish_inv : ∀ (i : ℕ) (s : State), s.Inv → (doNodeFinish i s).Inv := by
  intro i s h_s
  unfold doNodeFinish
  extract_lets v1
  rename_i v2
  clear_value v1
  have hv2 : State.Inv v2 := by
    unfold v2
    refine State.modGraph_inv _ _ _ ?_
    assumption
  clear_value v2
  split
  · rename_i m3 m4
    assumption
  · rename_i m5 m6 m7
    split
    · rename_i m8 m9
      assumption
    · rename_i m10 m11 m12 m13 m14
      extract_lets v15
      clear_value v15
      split
      · rename_i m16
        assumption
      · rename_i m17 m18
        refine ite_inv (fun _ => ?_) (fun _ => ?_)
        · refine State.modGraph_inv _ _ _ ?_
          refine State.drain_inv _ _ ?_
          assumption
        · refine ite_inv (fun _ => ?_) (fun _ => ?_)
          · refine State.graphEnd_inv _ _ ?_
            refine State.modGraph_inv _ _ _ ?_
            assumption
          · split
            · rename_i m19 m20 m21
              refine State.unitMiss_inv _ _ _ _ ?_
              assumption
            · rename_i m22 m23 m24 m25 m26
              refine State.graphFault_inv _ _ _ _ _ ?_
              refine State.modGraph_inv _ _ _ ?_
              refine State.unitMiss_inv _ _ _ _ ?_
              assumption
            · rename_i m27 m28 m29
              extract_lets v30
              clear_value v30
              split
              · rename_i m31 m32 m33
                refine State.unitMiss_inv _ _ _ _ ?_
                assumption
              · rename_i m34 m35
                refine State.graphEnd_inv _ _ ?_
                refine foldl_inv ?_ (fun t36 x37 ht36 => ?_)
                · assumption
                · refine State.decNode_inv _ _ _ _ _ ?_
                  assumption

theorem doCond_inv : ∀ (i : ℕ) (s : State), s.Inv → (doCond i s).Inv := by
  intro i s h_s
  unfold doCond
  refine runNode_inv _ _ _ _ ?_ ?_
  · intro y1
    intro y2
    intro y3
    intro y4
    intro y5
    intro y6
    extract_lets v7
    clear_value v7
    split
    · rename_i m8 m9 m10 m11 m12 m13 m14 m15 m16 m17
      extract_lets v18 v19
      rename_i v20 v21
      clear_value v18
      clear_value v19
      have hv20 : State.Inv v20 := by
        unfold v20
        refine State.modGraph_inv _ _ _ ?_
        refine State.unitSpend_inv _ _ _ _ _ ?_
        assumption
      clear_value v20
      have hv21 : State.Inv v21 := by
        unfold v21
        refine foldl_inv ?_ (fun t22 x23 ht22 => ?_)
        · assumption
        · refine State.putCount_inv _ _ _ _ _ ?_
          assumption
      clear_value v21
      refine ite_inv (fun _ => ?_) (fun _ => ?_)
      · assumption
      · split
        · rename_i m24 m25 m26
          refine State.unitMiss_inv _ _ _ _ ?_
          assumption
        · rename_i m27 m28 m29 m30 m31
          refine State.unitMiss_inv _ _ _ _ ?_
          assumption
        · rename_i m32 m33 m34 m35 m36 m37
          refine State.graphEnd_inv _ _ ?_
          refine State.modGraph_inv _ _ _ ?_
          refine State.reportLog_inv _ _ _ ?_
          refine State.unitMiss_inv _ _ _ _ ?_
          assumption
        · rename_i m38 m39 m40 m41 m42
          refine ite_inv (fun _ => ?_) (fun _ => ?_)
          · refine State.graphEnd_inv _ _ ?_
            refine ite_inv (fun _ => ?_) (fun _ => ?_)
            · refine State.modGraph_inv _ _ _ ?_
              assumption
            · assumption
          · refine ite_inv (fun _ => ?_) (fun _ => ?_)
            · refine State.unitMiss_inv _ _ _ _ ?_
              assumption
            · refine State.graphEnd_inv _ _ ?_
              refine ite_inv (fun _ => ?_) (fun _ => ?_)
              · refine State.decNode_inv _ _ _ _ _ ?_
                assumption
              · assumption
    · rename_i m43 m44 m45 m46
      assumption
  · assumption

theorem State.hringIrq_inv : ∀ (s : State) (key : ℕ) (rdesc : Word) (asid : BitVec 16), s.Inv → (State.hringIrq s key rdesc asid).Inv := by
  intro s key rdesc asid h_s
  unfold State.hringIrq
  extract_lets v1 v2
  clear_value v1
  have hv2 : State.Inv v2 := by
    unfold v2
    refine State.putNat_inv _ _ _ _ ?_
    refine State.putNat_inv _ _ _ _ ?_
    assumption
  clear_value v2
  refine inv_mk ?_
  refine inv_mem ?_
  assumption

theorem State.hringRaise_inv : ∀ (s : State) (gi : ℕ) (i : ℕ) (c : Ctx) (rdesc : Word) (flush : Bool) (key : ℕ), s.Inv → (State.hringRaise s gi i c rdesc flush key).Inv := by
  intro s gi i c rdesc flush key h_s
  unfold State.hringRaise
  extract_lets v1 v2 v3 v4 v5
  rename_i v6
  clear_value v1
  clear_value v2
  have hv3 : State.Inv v3 := by
    unfold v3
    refine State.putNat_inv _ _ _ _ ?_
    refine State.putNat_inv _ _ _ _ ?_
    assumption
  clear_value v3
  clear_value v4
  have hv5 : State.Inv v5 := by
    unfold v5
    refine ite_inv (fun _ => ?_) (fun _ => ?_)
    · split
      · rename_i m7 m8 m9 m10
        refine inv_mk ?_
        refine inv_mem ?_
        refine pair_inv ?_ m10
        refine State.fresh_inv _ ?_
        assumption
    · assumption
  clear_value v5
  clear_value v6
  refine State.finishFor_inv _ _ ?_
  refine ite_inv (fun _ => ?_) (fun _ => ?_)
  · refine State.hringIrq_inv _ _ _ _ ?_
    assumption
  · assumption

theorem State.hringGo_inv : ∀ (s : State) (gi : ℕ) (i : ℕ) (k : ℕ) (c : Ctx) (rdesc : Word) (src : Word) (flush : Bool) (back : State → State), s.Inv → (∀ (b0 : State), b0.Inv → (back b0).Inv) → (State.hringGo s gi i k c rdesc src flush back).Inv := by
  intro s gi i k c rdesc src flush back h_s h_back
  unfold State.hringGo
  split
  · rename_i m1 m2
    refine h_back _ ?_
    refine State.unitMiss_inv _ _ _ _ ?_
    assumption
  · rename_i m3 m4 m5 m6
    refine State.failPk_inv _ _ _ _ _ _ _ ?_
    refine State.nodeWorks_inv _ _ _ _ ?_
    refine State.unitMiss_inv _ _ _ _ ?_
    assumption
  · rename_i m7 m8 m9
    extract_lets v10
    rename_i v11 v12
    clear_value v10
    clear_value v11
    clear_value v12
    refine ite_inv (fun _ => ?_) (fun _ => ?_)
    · refine h_back _ ?_
      assumption
    · refine ite_inv (fun _ => ?_) (fun _ => ?_)
      · split
        · rename_i m13 m14 m15 m16
          refine inv_mk ?_
          refine inv_mem ?_
          refine pair_inv ?_ m16
          refine State.fresh_inv _ ?_
          refine State.nodeWorks_inv _ _ _ _ ?_
          assumption
      · split
        · rename_i m13 m14 m15 m16
          refine h_back _ ?_
          refine State.unitMiss_inv _ _ _ _ ?_
          assumption
        · rename_i m17 m18 m19 m20
          refine h_back _ ?_
          refine State.unitMiss_inv _ _ _ _ ?_
          assumption
        · rename_i m21 m22 m23 m24 m25 m26 m27
          refine State.failPk_inv _ _ _ _ _ _ _ ?_
          refine State.nodeWorks_inv _ _ _ _ ?_
          refine State.unitMiss_inv _ _ _ _ ?_
          assumption
        · rename_i m28 m29 m30 m31 m32 m33 m34
          refine State.failPk_inv _ _ _ _ _ _ _ ?_
          refine State.nodeWorks_inv _ _ _ _ ?_
          refine State.unitMiss_inv _ _ _ _ ?_
          assumption
        · rename_i m35 m36 m37 m38 m39 m40
          extract_lets v41 v42
          have hv41 : State.Inv v41 := by
            unfold v41
            refine State.putMem_inv _ _ _ ?_
            refine State.unitSpend_inv _ _ _ _ _ ?_
            refine State.unitSpend_inv _ _ _ _ _ ?_
            refine State.unitSpend_inv _ _ _ _ _ ?_
            refine State.nodeWorks_inv _ _ _ _ ?_
            assumption
          clear_value v41
          clear_value v42
          refine ite_inv (fun _ => ?_) (fun _ => ?_)
          · refine State.hringRaise_inv _ _ _ _ _ _ _ ?_
            assumption
          · refine State.modGraph_inv _ _ _ ?_
            refine State.drain_inv _ _ ?_
            assumption

theorem State.hringGoOn_inv : ∀ (s : State) (gi : ℕ) (i : ℕ) (key : ℕ) (gate : List ℕ), s.Inv → (State.hringGoOn s gi i key gate).Inv := by
  intro s gi i key gate h_s
  unfold State.hringGoOn
  split
  · rename_i m1 m2
    assumption
  · rename_i m3 m4 m5 m6 m7 m8
    refine ite_inv (fun _ => ?_) (fun _ => ?_)
    · assumption
    · split
      · rename_i m9 m10 m11
        refine State.unitMiss_inv _ _ _ _ ?_
        assumption
      · rename_i m12 m13 m14 m15 m16
        refine State.failPk_inv _ _ _ _ _ _ _ ?_
        refine State.unitMiss_inv _ _ _ _ ?_
        assumption
      · rename_i m17 m18 m19
        split
        · rename_i m20 m21 m22 m23 m24
          refine State.hringRaise_inv _ _ _ _ _ _ _ ?_
          assumption
        · rename_i m25 m26
          refine State.finishFor_inv _ _ ?_
          assumption

theorem doHring_inv : ∀ (i : ℕ) (s : State), s.Inv → (doHring i s).Inv := by
  intro i s h_s
  unfold doHring
  split
  · rename_i m1 m2 m3 m4
    refine State.hringGoOn_inv _ _ _ _ _ ?_
    assumption
  · rename_i m5 m6
    refine runNode_inv _ _ _ _ ?_ ?_
    · intro y7
      intro y8
      intro y9
      intro y10
      intro y11
      intro y12
      split
      · rename_i m13 m14 m15 m16
        refine State.hringGo_inv _ _ _ _ _ _ _ _ _ ?_ ?_
        · assumption
        · intro y17
          intro y18
          assumption
      · rename_i m19 m20
        assumption
    · assumption

theorem doHringTimer_inv : ∀ (s : State), s.Inv → (doHringTimer s).Inv := by
  intro s h_s
  unfold doHringTimer
  split
  · rename_i m1 m2
    assumption
  · rename_i m3 m4 m5
    refine ite_inv (fun _ => ?_) (fun _ => ?_)
    · assumption
    · extract_lets v6
      rename_i v7
      clear_value v6
      have hv7 : State.Inv v7 := by
        unfold v7
        refine State.unitMiss_inv _ _ _ _ ?_
        assumption
      clear_value v7
      split
      · rename_i m8 m9
        refine State.unitMiss_inv _ _ _ _ ?_
        assumption
      · rename_i m10 m11 m12
        refine inv_mk ?_
        refine inv_mem ?_
        assumption
      · rename_i m13 m14 m15
        refine ite_inv (fun _ => ?_) (fun _ => ?_)
        · refine inv_mk ?_
          refine inv_mem ?_
          assumption
        · refine State.hringIrq_inv _ _ _ _ ?_
          assumption

theorem doWatched_inv : ∀ (s : State), s.Inv → (doWatched s).Inv := by
  intro s h_s
  unfold doWatched
  extract_lets v1
  rename_i v2 v3
  clear_value v1
  have hv2 : State.Inv v2 := by
    unfold v2
    refine inv_mk ?_
    refine inv_mem ?_
    assumption
  clear_value v2
  have hv3 : State.Inv v3 := by
    unfold v3
    refine inv_mk ?_
    refine inv_mem ?_
    assumption
  clear_value v3
  split
  · rename_i m4 m5
    assumption
  · rename_i m6 m7 m8
    refine ite_inv (fun _ => ?_) (fun _ => ?_)
    · assumption
    · split
      · rename_i m9 m10 m11 m12
        split
        · rename_i m13 m14
          assumption
        · rename_i m15 m16 m17
          split
          · rename_i m18 m19 m20 m21 m22 m23 m24 m25
            refine State.unitSpend_inv _ _ _ _ _ ?_
            refine ite_inv (fun _ => ?_) (fun _ => ?_)
            · refine State.finishFor_inv _ _ ?_
              assumption
            · assumption
          · rename_i m26 m27 m28 m29 m30 m31 m32
            refine State.unitMiss_inv _ _ _ _ ?_
            assumption
          · rename_i m33 m34 m35 m36 m37 m38 m39 m40 m41
            refine State.failPk_inv _ _ _ _ _ _ _ ?_
            refine State.unitMiss_inv _ _ _ _ ?_
            assumption
          · rename_i m42 m43 m44 m45 m46
            assumption
      · rename_i m47 m48 m49 m50 m51 m52
        split
        · rename_i m13 m14
          assumption
        · rename_i m15 m16 m17 m53 m54 m55
          split
          · rename_i m18 m19 m20
            refine State.unitMiss_inv _ _ _ _ ?_
            assumption
          · rename_i m26 m27 m28 m29 m30
            refine State.failPk_inv _ _ _ _ _ _ _ ?_
            refine State.unitMiss_inv _ _ _ _ ?_
            assumption
          · rename_i m33 m34 m35
            split
            · rename_i m56 m57 m58 m59 m60 m61 m62 m63
              refine State.unitSpend_inv _ _ _ _ _ ?_
              refine ite_inv (fun _ => ?_) (fun _ => ?_)
              · refine State.finishFor_inv _ _ ?_
                assumption
              · assumption
            · rename_i m64 m65 m66 m67 m68 m69 m70
              refine State.unitMiss_inv _ _ _ _ ?_
              assumption
            · rename_i m71 m72 m73 m74 m75 m76 m77 m78 m79
              refine State.failPk_inv _ _ _ _ _ _ _ ?_
              refine State.unitMiss_inv _ _ _ _ ?_
              assumption
            · rename_i m80 m81 m82 m83 m84 m85
              refine State.hringGo_inv _ _ _ _ _ _ _ _ _ ?_ ?_
              · assumption
              · intro y86
                intro y87
                refine inv_mk ?_
                refine inv_mem ?_
                assumption
            · rename_i m88 m89 m90 m91 m92 m93
              refine State.finishFor_inv _ _ ?_
              assumption
      · rename_i m94 m95 m96 m97
        assumption

theorem State.wakeOwner_inv : ∀ (s : State) (q : ℕ), s.Inv → (State.wakeOwner s q).Inv := by
  intro s q h_s
  unfold State.wakeOwner
  refine ite_inv (fun _ => ?_) (fun _ => ?_)
  · assumption
  · refine State.modQueue_inv _ _ _ ?_
    assumption

theorem doMap_inv : ∀ (slot : ℕ) (s : State), s.Inv → (doMap slot s).Inv := by
  intro slot s h_s
  unfold doMap
  extract_lets v1
  rename_i v2
  clear_value v1
  have hv2 : State.Inv v2 := by
    unfold v2
    refine State.qput_inv _ _ _ _ _ ?_
    refine State.qput_inv _ _ _ _ _ ?_
    refine State.modSlot_inv _ _ _ ?_
    assumption
  clear_value v2
  refine ite_inv (fun _ => ?_) (fun _ => ?_)
  · refine ite_inv (fun _ => ?_) (fun _ => ?_)
    · refine State.unitMiss_inv _ _ _ _ ?_
      assumption
    · assumption
  · refine ite_inv (fun _ => ?_) (fun _ => ?_)
    · assumption
    · refine ite_inv (fun _ => ?_) (fun _ => ?_)
      · assumption
      · refine ite_inv (fun _ => ?_) (fun _ => ?_)
        · refine State.wakeOwner_inv _ _ ?_
          refine State.qput_inv _ _ _ _ _ ?_
          assumption
        · assumption

theorem doUnmap_inv : ∀ (s : State), s.Inv → (doUnmap s).Inv := by
  intro s h_s
  unfold doUnmap
  extract_lets v1
  rename_i v2 v3
  clear_value v1
  clear_value v2
  clear_value v3
  refine ite_inv (fun _ => ?_) (fun _ => ?_)
  · assumption
  · refine ite_inv (fun _ => ?_) (fun _ => ?_)
    · refine State.qput_inv _ _ _ _ _ ?_
      refine State.qput_inv _ _ _ _ _ ?_
      refine State.modSlot_inv _ _ _ ?_
      assumption
    · refine ite_inv (fun _ => ?_) (fun _ => ?_)
      · assumption
      · refine State.qput_inv _ _ _ _ _ ?_
        refine State.modSlot_inv _ _ _ ?_
        assumption

theorem doWidx_inv : ∀ (n : ℕ) (s : State), s.Inv → (doWidx n s).Inv := by
  intro n s h_s
  unfold doWidx
  split
  · rename_i m1 m2
    assumption
  · rename_i m3 m4 m5
    refine ite_inv (fun _ => ?_) (fun _ => ?_)
    · refine ite_inv (fun _ => ?_) (fun _ => ?_)
      · refine State.unitMiss_inv _ _ _ _ ?_
        assumption
      · assumption
    · extract_lets v6
      have hv6 : State.Inv v6 := by
        unfold v6
        refine State.modQueue_inv _ _ _ ?_
        refine State.wakeOwner_inv _ _ ?_
        refine State.qput_inv _ _ _ _ _ ?_
        assumption
      clear_value v6
      refine ite_inv (fun _ => ?_) (fun _ => ?_)
      · refine State.qput_inv _ _ _ _ _ ?_
        assumption
      · assumption

theorem State.qctlOn_inv : ∀ (s : State) (cl : ℕ) (q : ℕ) (skip : Bool), s.Inv → (State.qctlOn s cl q skip).Inv := by
  intro s cl q skip h_s
  unfold State.qctlOn
  refine ite_inv (fun _ => ?_) (fun _ => ?_)
  · refine State.qctl_inv _ _ _ _ ?_
    assumption
  · refine ite_inv (fun _ => ?_) (fun _ => ?_)
    · refine State.unitMiss_inv _ _ _ _ ?_
      assumption
    · assumption

theorem doQctlSkip_inv : ∀ (q : ℕ) (s : State), s.Inv → (doQctlSkip q s).Inv := by
  intro q s h_s
  unfold doQctlSkip
  refine State.qctlOn_inv _ _ _ _ ?_
  assumption

theorem doQctlRecheck_inv : ∀ (q : ℕ) (s : State), s.Inv → (doQctlRecheck q s).Inv := by
  intro q s h_s
  unfold doQctlRecheck
  refine State.qctlOn_inv _ _ _ _ ?_
  assumption

theorem doDoorbell_inv : ∀ (s : State), s.Inv → (doDoorbell s).Inv := by
  intro s h_s
  unfold doDoorbell
  extract_lets v1 v2
  clear_value v1
  clear_value v2
  split
  · rename_i m3 m4 m5 m6 m7
    refine ite_inv (fun _ => ?_) (fun _ => ?_)
    · refine State.slotInterrupt_inv _ _ ?_
      assumption
    · assumption
  · rename_i m8 m9 m10
    assumption

theorem State.sendMarker_inv : ∀ (s : State) (k : ℕ) (sw : ℕ) (w : ℕ) (m : ℕ), s.Inv → (State.sendMarker s k sw w m).Inv := by
  intro s k sw w m h_s
  unfold State.sendMarker
  extract_lets v1 v2
  rename_i v3
  clear_value v1
  clear_value v2
  clear_value v3
  refine ite_inv (fun _ => ?_) (fun _ => ?_)
  · refine State.deliver_inv _ _ _ _ _ ?_
    assumption
  · split
    · rename_i m4 m5 m6 m7
      extract_lets v8
      have hv8 : State.Inv v8 := by
        unfold v8
        refine inv_mk ?_
        refine inv_mem ?_
        refine pair_inv ?_ m7
        refine State.fresh_inv _ ?_
        assumption
      clear_value v8
      refine State.waitSend_inv _ _ _ _ _ _ _ _ _ ?_
      assumption

theorem State.sendMarkers_inv : ∀ (s : State) (r : PipeRun) (st : ℕ), s.Inv → (State.sendMarkers s r st).Inv := by
  intro s r st h_s
  unfold State.sendMarkers
  split
  · rename_i m1 m2
    assumption
  · rename_i m3 m4 m5 m6
    refine foldl_inv ?_ (fun t7 x8 ht7 => ?_)
    · assumption
    · split
      · rename_i m9 m10 m11
        refine State.sendMarker_inv _ _ _ _ _ ?_
        assumption
      · rename_i m12 m13
        assumption

theorem State.dropMarkers_inv : ∀ (s : State) (w : ℕ) (m : ℕ), s.Inv → (State.dropMarkers s w m).Inv := by
  intro s w m h_s
  unfold State.dropMarkers
  extract_lets v1 v2 v3 v4 v5
  clear_value v1
  clear_value v2
  clear_value v3
  have hv4 : State.Inv v4 := by
    unfold v4
    refine foldl_inv ?_ (fun t6 x7 ht6 => ?_)
    · assumption
    · refine State.dropOp_inv _ _ ?_
      refine State.unwaitSend_inv _ _ _ ?_
      assumption
  clear_value v4
  have hv5 : State.Inv v5 := by
    unfold v5
    refine foldl_inv ?_ (fun t6 x7 ht6 => ?_)
    · assumption
    · split
      · rename_i m8 m9 m10
        refine State.setTags4_inv _ _ _ ?_
        refine State.putMem_inv _ _ _ ?_
        assumption
      · rename_i m11 m12
        assumption
  clear_value v5
  refine State.modWindow_inv _ _ _ ?_
  refine State.putConf_inv _ _ _ _ ?_
  assumption

theorem State.cutStages_inv : ∀ (s : State) (id : ℕ) (r : PipeRun), s.Inv → (State.cutStages s id r).Inv := by
  intro s id r h_s
  unfold State.cutStages
  refine foldl_inv ?_ (fun t1 x2 ht1 => ?_)
  · assumption
  · split
    · rename_i m3 m4 m5 m6 m7 m8 m9
      refine ite_inv (fun _ => ?_) (fun _ => ?_)
      · assumption
      · refine ite_inv (fun _ => ?_) (fun _ => ?_)
        · extract_lets v10
          have hv10 : State.Inv v10 := by
            unfold v10
            refine State.sendMarkers_inv _ _ _ ?_
            assumption
          clear_value v10
          refine inv_mk ?_
          refine inv_mem ?_
          assumption
        · split
          · rename_i m11 m12 m13
            refine ite_inv (fun _ => ?_) (fun _ => ?_)
            · refine State.beginSwap_inv _ _ ?_
              assumption
            · assumption
          · rename_i m14 m15
            assumption
    · rename_i m16 m17 m18
      assumption

theorem State.cutGrid_inv : ∀ (s : State) (g : Grid), s.Inv → (State.cutGrid s g).Inv := by
  intro s g h_s
  unfold State.cutGrid
  refine foldl_inv ?_ (fun t1 x2 ht1 => ?_)
  · assumption
  · split
    · rename_i m3 m4 m5
      refine ite_inv (fun _ => ?_) (fun _ => ?_)
      · refine State.beginSwap_inv _ _ ?_
        assumption
      · assumption
    · rename_i m6 m7
      assumption

theorem doCut_inv : ∀ (s : State), s.Inv → (doCut s).Inv := by
  intro s h_s
  unfold doCut
  extract_lets v1
  clear_value v1
  split
  · rename_i m2 m3 m4 m5 m6 m7
    split
    · rename_i m8 m9 m10
      assumption
    · rename_i m11 m12
      refine ite_inv (fun _ => ?_) (fun _ => ?_)
      · refine State.cutGrid_inv _ _ ?_
        refine inv_mk ?_
        refine inv_mem ?_
        assumption
      · assumption
  · rename_i m13 m14 m15 m16 m17 m18 m19
    refine ite_inv (fun _ => ?_) (fun _ => ?_)
    · refine State.cutStages_inv _ _ _ ?_
      refine inv_mk ?_
      refine inv_mem ?_
      assumption
    · assumption
  · rename_i m20 m21 m22 m23 m24 m25 m26
    refine ite_inv (fun _ => ?_) (fun _ => ?_)
    · refine inv_mk ?_
      refine inv_mem ?_
      assumption
    · refine State.cutGrid_inv _ _ ?_
      assumption
  · rename_i m27 m28 m29 m30 m31 m32 m33 m34
    refine ite_inv (fun _ => ?_) (fun _ => ?_)
    · extract_lets v35 v36
      clear_value v35
      have hv36 : State.Inv v36 := by
        unfold v36
        refine foldl_inv ?_ (fun t37 x38 ht37 => ?_)
        · assumption
        · refine State.dropMarkers_inv _ _ _ ?_
          assumption
      clear_value v36
      refine inv_mk ?_
      refine inv_mem ?_
      assumption
    · refine State.cutStages_inv _ _ _ ?_
      assumption
  · rename_i m39 m40 m41 m42 m43
    assumption

theorem execDeviceLaunchEnqueue_inv : ∀ (s : State), s.Inv → Safe (execDeviceLaunchEnqueue s) := by
  intro s h_s
  unfold execDeviceLaunchEnqueue
  refine safe_next ?_
  refine doDeviceLaunch_inv _ ?_
  assumption

theorem execNop_inv : ∀ (s : State), s.Inv → Safe (execNop s) := by
  intro s h_s
  unfold execNop
  refine safe_next ?_
  refine doNop_inv _ ?_
  assumption

theorem execLaunchg_inv : ∀ (s : State), s.Inv → Safe (execLaunchg s) := by
  intro s h_s
  unfold execLaunchg
  refine safe_next ?_
  refine doLaunchg_inv _ ?_
  assumption

theorem execLaunchp_inv : ∀ (s : State), s.Inv → Safe (execLaunchp s) := by
  intro s h_s
  unfold execLaunchp
  refine safe_next ?_
  refine doLaunchp_inv _ ?_
  assumption

theorem execGraph_inv : ∀ (s : State), s.Inv → Safe (execGraph s) := by
  intro s h_s
  unfold execGraph
  refine safe_next ?_
  refine doGraph_inv _ ?_
  assumption

theorem execCopy_inv : ∀ (s : State), s.Inv → Safe (execCopy s) := by
  intro s h_s
  unfold execCopy
  refine safe_next ?_
  refine doCopyPacket_inv _ ?_
  assumption

theorem execSignalWrite_inv : ∀ (s : State), s.Inv → Safe (execSignalWrite s) := by
  intro s h_s
  unfold execSignalWrite
  refine safe_next ?_
  refine doSignal_inv _ _ ?_
  assumption

theorem execSignalAdd_inv : ∀ (s : State), s.Inv → Safe (execSignalAdd s) := by
  intro s h_s
  unfold execSignalAdd
  refine safe_next ?_
  refine doSignal_inv _ _ ?_
  assumption

theorem execSignalMax_inv : ∀ (s : State), s.Inv → Safe (execSignalMax s) := by
  intro s h_s
  unfold execSignalMax
  refine safe_next ?_
  refine doSignal_inv _ _ ?_
  assumption

theorem execWaitsig_inv : ∀ (s : State), s.Inv → Safe (execWaitsig s) := by
  intro s h_s
  unfold execWaitsig
  refine safe_next ?_
  refine doWaitsig_inv _ ?_
  assumption

theorem execWrite_inv : ∀ (s : State), s.Inv → Safe (execWrite s) := by
  intro s h_s
  unfold execWrite
  refine safe_next ?_
  refine doWrite_inv _ ?_
  assumption

theorem execIb_inv : ∀ (s : State), s.Inv → Safe (execIb s) := by
  intro s h_s
  unfold execIb
  refine safe_next ?_
  refine doIb_inv _ ?_
  assumption

theorem execPacketComplete_inv : ∀ (s : State), s.Inv → Safe (execPacketComplete s) := by
  intro s h_s
  unfold execPacketComplete
  refine safe_next ?_
  refine doPacketComplete_inv _ ?_
  assumption

theorem execWatchedLineNotice_inv : ∀ (s : State), s.Inv → Safe (execWatchedLineNotice s) := by
  intro s h_s
  unfold execWatchedLineNotice
  refine safe_next ?_
  refine doWatched_inv _ ?_
  assumption

theorem execKern_inv : ∀ (node : ℕ) (s : State), s.Inv → Safe (execKern node s) := by
  intro node s h_s
  unfold execKern
  refine safe_next ?_
  refine doKern_inv _ _ ?_
  assumption

theorem execPipe_inv : ∀ (node : ℕ) (s : State), s.Inv → Safe (execPipe node s) := by
  intro node s h_s
  unfold execPipe
  refine safe_next ?_
  refine doPipeNode_inv _ _ ?_
  assumption

theorem execCopyNode_inv : ∀ (node : ℕ) (s : State), s.Inv → Safe (execCopyNode node s) := by
  intro node s h_s
  unfold execCopyNode
  refine safe_next ?_
  refine doCopyNode_inv _ _ ?_
  assumption

theorem execCond_inv : ∀ (node : ℕ) (s : State), s.Inv → Safe (execCond node s) := by
  intro node s h_s
  unfold execCond
  refine safe_next ?_
  refine doCond_inv _ _ ?_
  assumption

theorem execSignalNode_inv : ∀ (node : ℕ) (s : State), s.Inv → Safe (execSignalNode node s) := by
  intro node s h_s
  unfold execSignalNode
  refine safe_next ?_
  refine doSignalNode_inv _ _ ?_
  assumption

theorem execHring_inv : ∀ (node : ℕ) (s : State), s.Inv → Safe (execHring node s) := by
  intro node s h_s
  unfold execHring
  refine safe_next ?_
  refine doHring_inv _ _ ?_
  assumption

theorem execWait_inv : ∀ (node : ℕ) (s : State), s.Inv → Safe (execWait node s) := by
  intro node s h_s
  unfold execWait
  refine safe_next ?_
  refine doWaitNode_inv _ _ ?_
  assumption

theorem execJoin_inv : ∀ (node : ℕ) (s : State), s.Inv → Safe (execJoin node s) := by
  intro node s h_s
  unfold execJoin
  refine safe_next ?_
  refine doJoin_inv _ _ ?_
  assumption

theorem execNodeFinish_inv : ∀ (node : ℕ) (s : State), s.Inv → Safe (execNodeFinish node s) := by
  intro node s h_s
  unfold execNodeFinish
  refine safe_next ?_
  refine doNodeFinish_inv _ _ ?_
  assumption

theorem execHringCoalesceTimer_inv : ∀ (s : State), s.Inv → Safe (execHringCoalesceTimer s) := by
  intro s h_s
  unfold execHringCoalesceTimer
  refine safe_next ?_
  refine doHringTimer_inv _ ?_
  assumption

theorem execMapQueue_inv : ∀ (slot : ℕ) (s : State), s.Inv → Safe (execMapQueue slot s) := by
  intro slot s h_s
  unfold execMapQueue
  refine safe_next ?_
  refine doMap_inv _ _ ?_
  assumption

theorem execUnmapQueue_inv : ∀ (s : State), s.Inv → Safe (execUnmapQueue s) := by
  intro s h_s
  unfold execUnmapQueue
  refine safe_next ?_
  refine doUnmap_inv _ ?_
  assumption

theorem execWidxWrite_inv : ∀ (n : ℕ) (s : State), s.Inv → Safe (execWidxWrite n s) := by
  intro n s h_s
  unfold execWidxWrite
  refine safe_next ?_
  refine ite_inv (fun _ => ?_) (fun _ => ?_)
  · assumption
  · refine doWidx_inv _ _ ?_
    assumption

theorem execQctlSkip_inv : ∀ (q : ℕ) (s : State), s.Inv → Safe (execQctlSkip q s) := by
  intro q s h_s
  unfold execQctlSkip
  refine safe_next ?_
  refine doQctlSkip_inv _ _ ?_
  assumption

theorem execQctlRecheck_inv : ∀ (q : ℕ) (s : State), s.Inv → Safe (execQctlRecheck q s) := by
  intro q s h_s
  unfold execQctlRecheck
  refine safe_next ?_
  refine doQctlRecheck_inv _ _ ?_
  assumption

theorem execDoorbellInterrupt_inv : ∀ (s : State), s.Inv → Safe (execDoorbellInterrupt s) := by
  intro s h_s
  unfold execDoorbellInterrupt
  refine safe_next ?_
  refine doDoorbell_inv _ ?_
  assumption

theorem execConsistentCut_inv : ∀ (s : State), s.Inv → Safe (execConsistentCut s) := by
  intro s h_s
  unfold execConsistentCut
  refine safe_next ?_
  refine doCut_inv _ ?_
  assumption

end Sys2Proof.Machine
end

