-- ==== Sys2Proof/Laws/Keep/Module.lean ====
section
/-! SUPPORT. Every operation of the host, the edges, failures and bring-up, and the turn of a hart keeps the invariant of Safety.lean. -/

namespace Sys2Proof.Machine

open Sys2Proof

/-! ### Machine/Boot.lean -/

theorem State.moduleReset_inv : ∀ (s : State) (h_s : s.Inv), (State.moduleReset s).Inv := by
  intro s hs
  exact hs

theorem State.recGo_inv : ∀ (s : State) (w : Word), s.Inv → (State.recGo s w).Inv := by
  intro s w h_s
  unfold State.recGo
  refine ite_inv (fun _ => ?_) (fun _ => ?_)
  · assumption
  · refine inv_mk ?_
    refine inv_mem ?_
    assumption

theorem State.recReset_inv : ∀ (s : State), s.Inv → (State.recReset s).Inv := by
  intro s h_s
  unfold State.recReset
  refine ite_inv (fun _ => ?_) (fun _ => ?_)
  · refine State.moduleReset_inv _ ?_
    assumption
  · assumption

theorem State.recReport_inv : ∀ (s : State), s.Inv → (State.recReport s).Inv := by
  intro s h_s
  unfold State.recReport
  refine ite_inv (fun _ => ?_) (fun _ => ?_)
  · assumption
  · extract_lets v1 v2 v3
    rename_i v4
    clear_value v1
    clear_value v2
    clear_value v3
    clear_value v4
    refine inv_mk ?_
    refine inv_mem ?_
    assumption

theorem State.recWrite_inv : ∀ (s : State) (off : ℕ) (w : Word), s.Inv → (State.recWrite s off w).Inv := by
  intro s off w h_s
  unfold State.recWrite
  refine ite_inv (fun _ => ?_) (fun _ => ?_)
  · extract_lets v1 v2
    have hv1 : State.Inv v1 := by
      unfold v1
      refine ite_inv (fun _ => ?_) (fun _ => ?_)
      · refine State.recReport_inv _ ?_
        assumption
      · assumption
    clear_value v1
    have hv2 : State.Inv v2 := by
      unfold v2
      refine ite_inv (fun _ => ?_) (fun _ => ?_)
      · refine State.recGo_inv _ _ ?_
        assumption
      · assumption
    clear_value v2
    refine ite_inv (fun _ => ?_) (fun _ => ?_)
    · refine State.recReset_inv _ ?_
      assumption
    · assumption
  · refine ite_inv (fun _ => ?_) (fun _ => ?_)
    · refine inv_mk ?_
      refine inv_mem ?_
      assumption
    · refine ite_inv (fun _ => ?_) (fun _ => ?_)
      · refine inv_mk ?_
        refine inv_mem ?_
        assumption
      · refine ite_inv (fun _ => ?_) (fun _ => ?_)
        · refine ite_inv (fun _ => ?_) (fun _ => ?_)
          · assumption
          · refine State.putNat_inv _ _ _ _ ?_
            assumption
        · assumption

/-! ### Machine/EvHost.lean -/

theorem doMdutyWrite_inv : ∀ (w : Word) (s : State), s.Inv → (doMdutyWrite w s).Inv := by
  intro w s h_s
  unfold doMdutyWrite
  refine ite_inv (fun _ => ?_) (fun _ => ?_)
  · refine State.mdutyWrite_inv _ _ ?_
    assumption
  · assumption

theorem doQtbaseWrite_inv : ∀ (w : Word) (s : State), s.Inv → (doQtbaseWrite w s).Inv := by
  intro w s h_s
  unfold doQtbaseWrite
  refine ite_inv (fun _ => ?_) (fun _ => ?_)
  · refine State.qtbaseWrite_inv _ _ ?_
    assumption
  · assumption

theorem doNstdataWrite_inv : ∀ (w : Word) (s : State), s.Inv → (doNstdataWrite w s).Inv := by
  intro w s h_s
  unfold doNstdataWrite
  refine ite_inv (fun _ => ?_) (fun _ => ?_)
  · refine State.nstdataWrite_inv _ _ ?_
    assumption
  · assumption

theorem State.bar0Write_inv : ∀ (s : State) (p : ℕ) (off : ℕ) (w : Word), s.Inv → (State.bar0Write s p off w).Inv := by
  intro s p off w h_s
  unfold State.bar0Write
  refine ite_inv (fun _ => ?_) (fun _ => ?_)
  · extract_lets v1
    clear_value v1
    refine ite_inv (fun _ => ?_) (fun _ => ?_)
    · refine doWidx_inv _ _ ?_
      refine inv_mk ?_
      refine inv_mem ?_
      assumption
    · refine ite_inv (fun _ => ?_) (fun _ => ?_)
      · refine State.modSlot_inv _ _ _ ?_
        assumption
      · assumption
  · refine ite_inv (fun _ => ?_) (fun _ => ?_)
    · refine State.modMod_inv _ _ ?_
      assumption
    · assumption

theorem State.hostNone_inv : ∀ (s : State) (p : ℕ) (wr : Bool), s.Inv → (State.hostNone s p wr).Inv := by
  intro s p wr h_s
  unfold State.hostNone
  refine ite_inv (fun _ => ?_) (fun _ => ?_)
  · assumption
  · refine State.hostSay_inv _ _ _ ?_
    assumption

theorem State.bar0Access_inv : ∀ (s : State) (p : ℕ) (off : ℕ) (wr : Bool) (data : List Byte), s.Inv → (State.bar0Access s p off wr data).Inv := by
  intro s p off wr data h_s
  unfold State.bar0Access
  refine ite_inv (fun _ => ?_) (fun _ => ?_)
  · refine foldl_inv ?_ (fun t1 x2 ht1 => ?_)
    · assumption
    · refine ite_inv (fun _ => ?_) (fun _ => ?_)
      · assumption
      · refine State.bar0Write_inv _ _ _ _ ?_
        assumption
  · refine State.hostSay_inv _ _ _ ?_
    assumption

theorem State.recAccess_inv : ∀ (s : State) (p : ℕ) (off : ℕ) (wr : Bool) (data : List Byte), s.Inv → (State.recAccess s p off wr data).Inv := by
  intro s p off wr data h_s
  unfold State.recAccess
  refine ite_inv (fun _ => ?_) (fun _ => ?_)
  · refine foldl_inv ?_ (fun t1 x2 ht1 => ?_)
    · assumption
    · refine State.recWrite_inv _ _ _ ?_
      assumption
  · refine State.hostSay_inv _ _ _ ?_
    assumption

theorem State.bar2Access_inv : ∀ (s : State) (p : ℕ) (off : ℕ) (wr : Bool) (data : List Byte), s.Inv → (State.bar2Access s p off wr data).Inv := by
  intro s p off wr data h_s
  unfold State.bar2Access
  refine ite_inv (fun _ => ?_) (fun _ => ?_)
  · refine State.hostFail_inv _ _ _ ?_
    assumption
  · refine ite_inv (fun _ => ?_) (fun _ => ?_)
    · refine State.edgeWrite_inv _ _ _ _ ?_
      assumption
    · refine State.hostSay_inv _ _ _ ?_
      assumption

theorem State.barAccess_inv : ∀ (s : State) (two : Bool) (off : ℕ) (wr : Bool) (data : List Byte), s.Inv → (State.barAccess s two off wr data).Inv := by
  intro s two off wr data h_s
  unfold State.barAccess
  extract_lets v1
  clear_value v1
  refine ite_inv (fun _ => ?_) (fun _ => ?_)
  · refine ite_inv (fun _ => ?_) (fun _ => ?_)
    · refine State.recAccess_inv _ _ _ _ _ ?_
      assumption
    · refine State.hostNone_inv _ _ _ ?_
      assumption
  · refine ite_inv (fun _ => ?_) (fun _ => ?_)
    · refine ite_inv (fun _ => ?_) (fun _ => ?_)
      · refine State.bar2Access_inv _ _ _ _ _ ?_
        assumption
      · refine ite_inv (fun _ => ?_) (fun _ => ?_)
        · assumption
        · refine State.hostSay_inv _ _ _ ?_
          assumption
    · refine ite_inv (fun _ => ?_) (fun _ => ?_)
      · refine State.hostNone_inv _ _ _ ?_
        assumption
      · refine ite_inv (fun _ => ?_) (fun _ => ?_)
        · assumption
        · refine ite_inv (fun _ => ?_) (fun _ => ?_)
          · refine State.bar2Access_inv _ _ _ _ _ ?_
            assumption
          · refine State.bar0Access_inv _ _ _ _ _ ?_
            assumption

theorem doRegisterWrite_inv : ∀ (off : ℕ) (w : Word) (s : State), s.Inv → (doRegisterWrite off w s).Inv := by
  intro off w s h_s
  unfold doRegisterWrite
  extract_lets v1
  clear_value v1
  refine ite_inv (fun _ => ?_) (fun _ => ?_)
  · assumption
  · refine ite_inv (fun _ => ?_) (fun _ => ?_)
    · refine ite_inv (fun _ => ?_) (fun _ => ?_)
      · refine State.barAccess_inv _ _ _ _ _ ?_
        refine inv_mk ?_
        refine inv_mem ?_
        assumption
      · assumption
    · refine ite_inv (fun _ => ?_) (fun _ => ?_)
      · refine ite_inv (fun _ => ?_) (fun _ => ?_)
        · refine State.edgeWrite_inv _ _ _ _ ?_
          assumption
        · assumption
      · refine ite_inv (fun _ => ?_) (fun _ => ?_)
        · refine ite_inv (fun _ => ?_) (fun _ => ?_)
          · refine State.ctlWrite_inv _ _ _ _ _ ?_
            assumption
          · assumption
        · assumption

theorem doHscmdSwap_inv : ∀ (w : Word) (s : State), s.Inv → (doHscmdSwap w s).Inv := by
  intro w s h_s
  unfold doHscmdSwap
  refine ite_inv (fun _ => ?_) (fun _ => ?_)
  · refine State.hscmd_inv _ _ ?_
    assumption
  · assumption

theorem doHscmdLeave_inv : ∀ (w : Word) (s : State), s.Inv → (doHscmdLeave w s).Inv := by
  intro w s h_s
  unfold doHscmdLeave
  refine ite_inv (fun _ => ?_) (fun _ => ?_)
  · refine State.hscmd_inv _ _ ?_
    assumption
  · assumption

theorem State.pgreqWrite_inv : ∀ (s : State) (w : Word), s.Inv → (State.pgreqWrite s w).Inv := by
  intro s w h_s
  unfold State.pgreqWrite
  refine State.pgreqSubmit_inv _ ?_
  refine State.modMod_inv _ _ ?_
  assumption

theorem doPgreqToHost_inv : ∀ (w : Word) (s : State), s.Inv → (doPgreqToHost w s).Inv := by
  intro w s h_s
  unfold doPgreqToHost
  refine ite_inv (fun _ => ?_) (fun _ => ?_)
  · refine State.pgreqWrite_inv _ _ ?_
    assumption
  · assumption

theorem doPgreqToDevice_inv : ∀ (w : Word) (s : State), s.Inv → (doPgreqToDevice w s).Inv := by
  intro w s h_s
  unfold doPgreqToDevice
  refine ite_inv (fun _ => ?_) (fun _ => ?_)
  · refine State.pgreqWrite_inv _ _ ?_
    assumption
  · assumption

theorem State.dropLeaf_inv : ∀ (s : State) (home : ℕ) (asid : BitVec 16) (off : ℕ) (log : ℕ), s.Inv → (State.dropLeaf s home asid off log).Inv := by
  intro s home asid off log h_s
  unfold State.dropLeaf
  refine State.modHome_inv _ _ _ ?_
  assumption

theorem State.pgDone_inv : ∀ (s : State) (id : ℕ) (m : PgMig) (status : ℕ), s.Inv → (State.pgDone s id m status).Inv := by
  intro s id m status h_s
  unfold State.pgDone
  refine State.post_inv _ _ _ _ ?_
  refine inv_mk ?_
  refine inv_mem ?_
  assumption

theorem State.movePage_inv : ∀ (s : State) (home : ℕ) (m : PgMig) (leaf : ℕ) (log : ℕ), s.Inv → (State.movePage s home m leaf log).Inv := by
  intro s home m leaf log h_s
  unfold State.movePage
  extract_lets v1 v2 v3
  rename_i v4
  clear_value v1
  clear_value v2
  clear_value v3
  clear_value v4
  refine ite_inv (fun _ => ?_) (fun _ => ?_)
  · assumption
  · refine State.copyRange_inv _ _ _ _ _ _ ?_
    assumption

theorem doPageMigration_inv : ∀ (s : State), s.Inv → (doPageMigration s).Inv := by
  intro s h_s
  unfold doPageMigration
  extract_lets v1
  clear_value v1
  split
  · rename_i m2 m3
    assumption
  · rename_i m4 m5 m6
    extract_lets v7 v8
    rename_i v9
    clear_value v7
    clear_value v8
    clear_value v9
    refine ite_inv (fun _ => ?_) (fun _ => ?_)
    · assumption
    · refine ite_inv (fun _ => ?_) (fun _ => ?_)
      · refine ite_inv (fun _ => ?_) (fun _ => ?_)
        · refine State.pgDone_inv _ _ _ _ ?_
          assumption
        · assumption
      · refine ite_inv (fun _ => ?_) (fun _ => ?_)
        · refine State.pgDone_inv _ _ _ _ ?_
          assumption
        · refine ite_inv (fun _ => ?_) (fun _ => ?_)
          · refine State.pgDone_inv _ _ _ _ ?_
            assumption
          · split
            · rename_i m10 m11 m12 m13
              refine State.pgDone_inv _ _ _ _ ?_
              refine State.noteTable_inv _ _ _ ?_
              assumption
            · rename_i m14 m15 m16 m17
              refine State.pgDone_inv _ _ _ _ ?_
              assumption
            · rename_i m18 m19 m20 m21 m22 m23
              refine State.pgDone_inv _ _ _ _ ?_
              assumption
            · rename_i m24 m25 m26 m27 m28 m29 m30
              extract_lets v31 v32
              rename_i v33 v34 v35 v36 v37
              clear_value v31
              clear_value v32
              have hv33 : State.Inv v33 := by
                unfold v33
                refine ite_inv (fun _ => ?_) (fun _ => ?_)
                · refine State.movePage_inv _ _ _ _ _ ?_
                  assumption
                · assumption
              clear_value v33
              clear_value v34
              have hv35 : State.Inv v35 := by
                unfold v35
                refine State.dropLeaf_inv _ _ _ _ _ ?_
                refine State.putNat_inv _ _ _ _ ?_
                assumption
              clear_value v35
              clear_value v36
              have hv37 : State.Inv v37 := by
                unfold v37
                refine State.drain_inv _ _ ?_
                assumption
              clear_value v37
              refine ite_inv (fun _ => ?_) (fun _ => ?_)
              · refine State.pgDone_inv _ _ _ _ ?_
                assumption
              · refine ite_inv (fun _ => ?_) (fun _ => ?_)
                · refine State.pgDone_inv _ _ _ _ ?_
                  assumption
                · refine ite_inv (fun _ => ?_) (fun _ => ?_)
                  · refine State.pgDone_inv _ _ _ _ ?_
                    refine State.hmissDone_inv _ _ _ ?_
                    assumption
                  · refine inv_mk ?_
                    refine inv_mem ?_
                    assumption

theorem State.hsSend_inv : ∀ (s : State), s.Inv → (State.hsSend s).Inv := by
  intro s h_s
  unfold State.hsSend
  extract_lets v1
  have hv1 : State.Inv v1 := by
    unfold v1
    refine State.modMod_inv _ _ ?_
    assumption
  clear_value v1
  refine ite_inv (fun _ => ?_) (fun _ => ?_)
  · refine inv_mk ?_
    refine inv_mem ?_
    assumption
  · assumption

theorem doHsPost_inv : ∀ (s : State), s.Inv → (doHsPost s).Inv := by
  intro s h_s
  unfold doHsPost
  split
  · rename_i m1 m2
    assumption
  · rename_i m3 m4 m5 m6
    refine ite_inv (fun _ => ?_) (fun _ => ?_)
    · assumption
    · extract_lets v7 v8 v9 v10 v11 v12
      clear_value v7
      clear_value v8
      clear_value v9
      clear_value v10
      have hv11 : State.Inv v11 := by
        unfold v11
        refine State.unitSend_inv _ _ _ _ ?_
        assumption
      clear_value v11
      have hv12 : State.Inv v12 := by
        unfold v12
        refine State.modMod_inv _ _ ?_
        assumption
      clear_value v12
      refine ite_inv (fun _ => ?_) (fun _ => ?_)
      · refine State.hsSend_inv _ ?_
        assumption
      · refine State.modMod_inv _ _ ?_
        assumption

theorem doHsInterrupt_inv : ∀ (s : State), s.Inv → (doHsInterrupt s).Inv := by
  intro s h_s
  unfold doHsInterrupt
  refine ite_inv (fun _ => ?_) (fun _ => ?_)
  · refine State.hsSend_inv _ ?_
    assumption
  · assumption

theorem State.hostWrite_inv : ∀ (s : State) (p : ℕ) (asid : BitVec 16) (iface : ℕ) (x : Word × List Byte), s.Inv → (State.hostWrite s p asid iface x).Inv := by
  intro s p asid iface x h_s
  unfold State.hostWrite
  extract_lets v1 v2
  clear_value v1
  clear_value v2
  split
  · rename_i m3 m4 m5 m6 m7
    refine snd_inv ?_
    refine State.performAt_inv _ _ _ _ _ _ _ ?_
    assumption
  · rename_i m8 m9 m10
    refine State.holdMiss_inv _ _ _ _ _ _ _ ?_
    assumption
  · rename_i m11 m12 m13 m14
    refine State.holdBehind_inv _ _ _ _ _ _ _ _ ?_
    assumption
  · rename_i m15 m16 m17 m18
    refine State.holdBehind_inv _ _ _ _ _ _ _ _ ?_
    assumption
  · rename_i m19 m20
    refine State.holdLost_inv _ _ _ _ _ _ ?_
    assumption
  · rename_i m21 m22 m23 m24 m25 m26
    refine State.holdBehind_inv _ _ _ _ _ _ _ _ ?_
    assumption

theorem State.hostReads_inv : ∀ (s : State) (p : ℕ) (asid : BitVec 16) (iface : ℕ) (a4 : List (Word × List Byte)) (a5 : List Byte) (a6 : Bool), s.Inv → (State.hostReads s p asid iface a4 a5 a6).Inv := by
  intro s p asid iface a4 a5 a6 h_s
  unfold State.hostReads
  split
  · rename_i m1 m2 m3
    refine State.hostSay_inv _ _ _ ?_
    assumption
  · rename_i m4 m5 m6 m7 m8 m9
    extract_lets v10
    clear_value v10
    split
    · rename_i m11 m12 m13 m14 m15
      split
      · rename_i m16 m17 m18 m19 m20 m21
        refine State.hostReads_inv _ _ _ _ _ _ _ ?_
        refine pair_inv ?_ m21
        refine State.performAt_inv _ _ _ _ _ _ _ ?_
        assumption
      · rename_i m22 m23 m24 m25 m26
        refine pair_inv ?_ m26
        refine State.performAt_inv _ _ _ _ _ _ _ ?_
        assumption
    · rename_i m27 m28
      assumption

theorem State.hostGo_inv : ∀ (s : State) (p : ℕ) (wr : Bool) (asid : BitVec 16) (iface : ℕ) (pcs : List (Word × List Byte)), s.Inv → (State.hostGo s p wr asid iface pcs).Inv := by
  intro s p wr asid iface pcs h_s
  unfold State.hostGo
  extract_lets v1
  rename_i v2
  clear_value v1
  split
  · rename_i m3 m4 m5 m6
    refine State.hostFail_inv _ _ _ ?_
    refine State.noteTable_inv _ _ _ ?_
    assumption
  · rename_i m7 m8
    refine ite_inv (fun _ => ?_) (fun _ => ?_)
    · refine foldl_inv ?_ (fun t9 x10 ht9 => ?_)
      · assumption
      · refine State.hostWrite_inv _ _ _ _ _ ?_
        assumption
    · refine ite_inv (fun _ => ?_) (fun _ => ?_)
      · assumption
      · split
        · rename_i m11 m12
          split
          · rename_i m13 m14 m15
            simp only [v2]
            refine State.holdLost_inv _ _ _ _ _ _ ?_
            assumption
          · rename_i m16 m17
            refine State.hostReads_inv _ _ _ _ _ _ _ ?_
            assumption
        · rename_i m18 m19 m20
          split
          · rename_i m13 m14 m15
            refine State.holdMiss_inv _ _ _ _ _ _ _ ?_
            assumption
          · rename_i m16 m17
            simp only [v2]
            refine State.holdLost_inv _ _ _ _ _ _ ?_
            assumption
          · rename_i m21 m22 m23
            assumption

theorem State.downHost_inv : ∀ (s : State) (p : ℕ) (n : ℕ) (off : ℕ) (wr : Bool) (len : ℕ), s.Inv → (State.downHost s p n off wr len).Inv := by
  intro s p n off wr len h_s
  unfold State.downHost
  refine ite_inv (fun _ => ?_) (fun _ => ?_)
  · refine State.hostNone_inv _ _ _ ?_
    assumption
  · refine ite_inv (fun _ => ?_) (fun _ => ?_)
    · assumption
    · refine ite_inv (fun _ => ?_) (fun _ => ?_)
      · extract_lets v1
        clear_value v1
        refine State.hostSay_inv _ _ _ ?_
        assumption
      · refine State.hostSay_inv _ _ _ ?_
        assumption

theorem State.aperGo_inv : ∀ (s : State) (n : ℕ) (off : ℕ) (wr : Bool) (len : ℕ) (mode : ℕ) (go : ℕ → ℕ → State), s.Inv → (∀ (b0 : ℕ) (b1 : ℕ), (go b0 b1).Inv) → (State.aperGo s n off wr len mode go).Inv := by
  intro s n off wr len mode go h_s h_go
  unfold State.aperGo
  extract_lets v1
  clear_value v1
  refine ite_inv (fun _ => ?_) (fun _ => ?_)
  · refine State.downHost_inv _ _ _ _ _ _ ?_
    assumption
  · refine ite_inv (fun _ => ?_) (fun _ => ?_)
    · assumption
    · split
      · rename_i m2 m3
        refine State.hostRefuse_inv _ _ _ ?_
        assumption
      · rename_i m4 m5 m6
        refine ite_inv (fun _ => ?_) (fun _ => ?_)
        · refine h_go _ _
        · assumption

theorem doAperVirtual_inv : ∀ (n : ℕ) (off : ℕ) (wr : Bool) (data : List Byte) (s : State), s.Inv → (doAperVirtual n off wr data s).Inv := by
  intro n off wr data s h_s
  unfold doAperVirtual
  refine State.aperGo_inv _ _ _ _ _ _ _ ?_ ?_
  · assumption
  · intro y1
    intro y2
    refine State.hostGo_inv _ _ _ _ _ _ ?_
    assumption

theorem doAperPhysical_inv : ∀ (n : ℕ) (off : ℕ) (wr : Bool) (data : List Byte) (s : State), s.Inv → (doAperPhysical n off wr data s).Inv := by
  intro n off wr data s h_s
  unfold doAperPhysical
  refine State.aperGo_inv _ _ _ _ _ _ _ ?_ ?_
  · assumption
  · intro y1
    intro y2
    extract_lets v3 v4
    rename_i v5
    clear_value v3
    clear_value v4
    clear_value v5
    refine ite_inv (fun _ => ?_) (fun _ => ?_)
    · refine State.hostRefuse_inv _ _ _ ?_
      assumption
    · refine ite_inv (fun _ => ?_) (fun _ => ?_)
      · refine State.putMem_inv _ _ _ ?_
        assumption
      · refine State.hostSay_inv _ _ _ ?_
        assumption

theorem doAperControl_inv : ∀ (n : ℕ) (off : ℕ) (wr : Bool) (data : List Byte) (s : State), s.Inv → (doAperControl n off wr data s).Inv := by
  intro n off wr data s h_s
  unfold doAperControl
  refine ite_inv (fun _ => ?_) (fun _ => ?_)
  · refine State.barAccess_inv _ _ _ _ _ ?_
    assumption
  · refine State.aperGo_inv _ _ _ _ _ _ _ ?_ ?_
    · assumption
    · intro y1
      intro y2
      extract_lets v3
      clear_value v3
      refine ite_inv (fun _ => ?_) (fun _ => ?_)
      · refine State.hostRefuse_inv _ _ _ ?_
        assumption
      · refine ite_inv (fun _ => ?_) (fun _ => ?_)
        · refine State.hostFail_inv _ _ _ ?_
          assumption
        · refine ite_inv (fun _ => ?_) (fun _ => ?_)
          · refine State.ctlWrite_inv _ _ _ _ _ ?_
            assumption
          · refine State.hostSay_inv _ _ _ ?_
            assumption

theorem execMdutyWrite_inv : ∀ (w : Word) (s : State), s.Inv → Safe (execMdutyWrite w s) := by
  intro w s h_s
  unfold execMdutyWrite
  refine safe_next ?_
  refine doMdutyWrite_inv _ _ ?_
  assumption

theorem execQtbaseWrite_inv : ∀ (w : Word) (s : State), s.Inv → Safe (execQtbaseWrite w s) := by
  intro w s h_s
  unfold execQtbaseWrite
  refine safe_next ?_
  refine doQtbaseWrite_inv _ _ ?_
  assumption

theorem execNstdataWrite_inv : ∀ (w : Word) (s : State), s.Inv → Safe (execNstdataWrite w s) := by
  intro w s h_s
  unfold execNstdataWrite
  refine safe_next ?_
  refine doNstdataWrite_inv _ _ ?_
  assumption

theorem execRegisterWrite_inv : ∀ (off : ℕ) (w : Word) (s : State), s.Inv → Safe (execRegisterWrite off w s) := by
  intro off w s h_s
  unfold execRegisterWrite
  refine safe_next ?_
  refine doRegisterWrite_inv _ _ _ ?_
  assumption

theorem execHscmdSwap_inv : ∀ (w : Word) (s : State), s.Inv → Safe (execHscmdSwap w s) := by
  intro w s h_s
  unfold execHscmdSwap
  refine safe_next ?_
  refine doHscmdSwap_inv _ _ ?_
  assumption

theorem execHscmdLeave_inv : ∀ (w : Word) (s : State), s.Inv → Safe (execHscmdLeave w s) := by
  intro w s h_s
  unfold execHscmdLeave
  refine safe_next ?_
  refine doHscmdLeave_inv _ _ ?_
  assumption

theorem execPgreqToHost_inv : ∀ (w : Word) (s : State), s.Inv → Safe (execPgreqToHost w s) := by
  intro w s h_s
  unfold execPgreqToHost
  refine safe_next ?_
  refine doPgreqToHost_inv _ _ ?_
  assumption

theorem execPgreqToDevice_inv : ∀ (w : Word) (s : State), s.Inv → Safe (execPgreqToDevice w s) := by
  intro w s h_s
  unfold execPgreqToDevice
  refine safe_next ?_
  refine doPgreqToDevice_inv _ _ ?_
  assumption

theorem execPageMigration_inv : ∀ (s : State), s.Inv → Safe (execPageMigration s) := by
  intro s h_s
  unfold execPageMigration
  refine safe_next ?_
  refine doPageMigration_inv _ ?_
  assumption

theorem execHsPost_inv : ∀ (s : State), s.Inv → Safe (execHsPost s) := by
  intro s h_s
  unfold execHsPost
  refine safe_next ?_
  refine doHsPost_inv _ ?_
  assumption

theorem execHsInterrupt_inv : ∀ (s : State), s.Inv → Safe (execHsInterrupt s) := by
  intro s h_s
  unfold execHsInterrupt
  refine safe_next ?_
  refine doHsInterrupt_inv _ ?_
  assumption

theorem execApertureVirtual_inv : ∀ (n : ℕ) (off : ℕ) (wr : Bool) (data : List Byte) (s : State), s.Inv → Safe (execApertureVirtual n off wr data s) := by
  intro n off wr data s h_s
  unfold execApertureVirtual
  refine safe_next ?_
  refine doAperVirtual_inv _ _ _ _ _ ?_
  assumption

theorem execAperturePhysical_inv : ∀ (n : ℕ) (off : ℕ) (wr : Bool) (data : List Byte) (s : State), s.Inv → Safe (execAperturePhysical n off wr data s) := by
  intro n off wr data s h_s
  unfold execAperturePhysical
  refine safe_next ?_
  refine doAperPhysical_inv _ _ _ _ _ ?_
  assumption

theorem execApertureControl_inv : ∀ (n : ℕ) (off : ℕ) (wr : Bool) (data : List Byte) (s : State), s.Inv → Safe (execApertureControl n off wr data s) := by
  intro n off wr data s h_s
  unfold execApertureControl
  refine safe_next ?_
  refine doAperControl_inv _ _ _ _ _ ?_
  assumption

/-! ### Machine/EvEdge.lean -/

theorem doEthTransmit_inv : ∀ (frame : List Byte) (s : State), s.Inv → (doEthTransmit frame s).Inv := by
  intro frame s h_s
  unfold doEthTransmit
  extract_lets v1
  clear_value v1
  split
  · rename_i m2 m3
    assumption
  · rename_i m4 m5 m6 m7
    refine State.modEth_inv _ _ _ ?_
    refine State.modCmd_inv _ _ _ _ ?_
    assumption

theorem State.dropFrame_inv : ∀ (s : State) (port : ℕ), s.Inv → (State.dropFrame s port).Inv := by
  intro s port h_s
  unfold State.dropFrame
  refine State.modEth_inv _ _ _ ?_
  assumption

theorem State.announce_inv : ∀ (s : State) (hd : Word) (v : Word), s.Inv → (State.announce s hd v).Inv := by
  intro s hd v h_s
  unfold State.announce
  split
  · rename_i m1 m2 m3 m4
    extract_lets v5
    clear_value v5
    refine inv_mk ?_
    refine inv_mem ?_
    refine pair_inv ?_ m4
    refine State.fresh_inv _ ?_
    assumption

theorem doEthReceive_inv : ∀ (wire : List Byte) (s : State), s.Inv → (doEthReceive wire s).Inv := by
  intro wire s h_s
  unfold doEthReceive
  extract_lets v1 v2 v3
  rename_i v4 v5 v6
  clear_value v1
  clear_value v2
  clear_value v3
  clear_value v4
  clear_value v5
  have hv6 : State.Inv v6 := by
    unfold v6
    refine foldl_inv ?_ (fun t7 x8 ht7 => ?_)
    · assumption
    · split
      · rename_i m9 m10 m11
        refine State.setTag_inv _ _ _ ?_
        refine State.putMem_inv _ _ _ ?_
        assumption
      · rename_i m12 m13 m14
        assumption
  clear_value v6
  refine ite_inv (fun _ => ?_) (fun _ => ?_)
  · assumption
  · refine ite_inv (fun _ => ?_) (fun _ => ?_)
    · refine State.dropFrame_inv _ _ ?_
      assumption
    · split
      · rename_i m15 m16 m17
        refine State.unitMiss_inv _ _ _ _ ?_
        assumption
      · rename_i m18 m19
        refine ite_inv (fun _ => ?_) (fun _ => ?_)
        · refine State.dropFrame_inv _ _ ?_
          assumption
        · refine State.announce_inv _ _ _ ?_
          refine State.modEth_inv _ _ _ ?_
          assumption

theorem doRxret_inv : ∀ (n : ℕ) (s : State), s.Inv → (doRxret n s).Inv := by
  intro n s h_s
  unfold doRxret
  refine ite_inv (fun _ => ?_) (fun _ => ?_)
  · refine State.rxretWrite_inv _ _ _ ?_
    assumption
  · assumption

theorem doRtableWrite_inv : ∀ (w : Word) (s : State), s.Inv → (doRtableWrite w s).Inv := by
  intro w s h_s
  unfold doRtableWrite
  refine ite_inv (fun _ => ?_) (fun _ => ?_)
  · refine State.rtableWrite_inv _ _ _ ?_
    assumption
  · assumption

theorem doRtableCopy_inv : ∀ (s : State), s.Inv → (doRtableCopy s).Inv := by
  intro s h_s
  unfold doRtableCopy
  refine State.modMod_inv _ _ ?_
  assumption

theorem doRefill_inv : ∀ (c : ℕ) (s : State), s.Inv → (doRefill c s).Inv := by
  intro c s h_s
  unfold doRefill
  extract_lets v1 v2 v3 v4 v5
  clear_value v1
  clear_value v2
  clear_value v3
  clear_value v4
  clear_value v5
  refine inv_mk ?_
  refine inv_mem ?_
  assumption

theorem doAgeing_inv : ∀ (s : State), s.Inv → (doAgeing s).Inv := by
  intro s h_s
  unfold doAgeing
  split
  · rename_i m1 m2 m3 m4
    refine ite_inv (fun _ => ?_) (fun _ => ?_)
    · refine inv_mk ?_
      refine inv_mem ?_
      assumption
    · assumption
  · rename_i m5 m6
    assumption

theorem State.excursion_inv : ∀ (s : State) (m : ℕ), s.Inv → (State.excursion s m).Inv := by
  intro s m h_s
  unfold State.excursion
  refine State.modMod_inv _ _ ?_
  assumption

theorem doPower_inv : ∀ (mw : ℕ) (s : State), s.Inv → (doPower mw s).Inv := by
  intro mw s h_s
  unfold doPower
  extract_lets v1
  clear_value v1
  split
  · rename_i m2 m3 m4 m5
    split
    · rename_i m6 m7 m8 m9
      split
      · rename_i m10 m11 m12 m13
        extract_lets v14 v15 v16 v17 v18 v19
        clear_value v14
        clear_value v15
        have hv16 : State.Inv v16 := by
          unfold v16
          refine inv_mk ?_
          refine inv_mem ?_
          refine pair_inv ?_ m13
          refine State.free_inv _ ?_
          refine pair_inv ?_ m9
          refine State.free_inv _ ?_
          refine pair_inv ?_ m5
          refine State.free_inv _ ?_
          assumption
        clear_value v16
        clear_value v17
        clear_value v18
        have hv19 : State.Inv v19 := by
          unfold v19
          refine State.excursion_inv _ _ ?_
          refine State.modMod_inv _ _ ?_
          assumption
        clear_value v19
        refine inv_mk ?_
        refine inv_mem ?_
        assumption

theorem doAttGo_inv : ∀ (s : State), s.Inv → (doAttGo s).Inv := by
  intro s h_s
  unfold doAttGo
  refine ite_inv (fun _ => ?_) (fun _ => ?_)
  · refine State.attGo_inv _ ?_
    assumption
  · assumption

theorem doAttDone_inv : ∀ (s : State), s.Inv → (doAttDone s).Inv := by
  intro s h_s
  unfold doAttDone
  refine ite_inv (fun _ => ?_) (fun _ => ?_)
  · assumption
  · extract_lets v1
    clear_value v1
    refine State.modMod_inv _ _ ?_
    assumption

theorem execEthTransmit_inv : ∀ (frame : List Byte) (s : State), s.Inv → Safe (execEthTransmit frame s) := by
  intro frame s h_s
  unfold execEthTransmit
  refine safe_next ?_
  refine doEthTransmit_inv _ _ ?_
  assumption

theorem execEthReceive_inv : ∀ (frame : List Byte) (s : State), s.Inv → Safe (execEthReceive frame s) := by
  intro frame s h_s
  unfold execEthReceive
  refine safe_next ?_
  refine doEthReceive_inv _ _ ?_
  assumption

theorem execRxretWrite_inv : ∀ (n : ℕ) (s : State), s.Inv → Safe (execRxretWrite n s) := by
  intro n s h_s
  unfold execRxretWrite
  refine safe_next ?_
  refine doRxret_inv _ _ ?_
  assumption

theorem execReservationTableWrite_inv : ∀ (w : Word) (s : State), s.Inv → Safe (execReservationTableWrite w s) := by
  intro w s h_s
  unfold execReservationTableWrite
  refine safe_next ?_
  refine doRtableWrite_inv _ _ ?_
  assumption

theorem execReservationTableCopy_inv : ∀ (s : State), s.Inv → Safe (execReservationTableCopy s) := by
  intro s h_s
  unfold execReservationTableCopy
  refine safe_next ?_
  refine doRtableCopy_inv _ ?_
  assumption

theorem execTokenBucketRefill_inv : ∀ (c : ℕ) (s : State), s.Inv → Safe (execTokenBucketRefill c s) := by
  intro c s h_s
  unfold execTokenBucketRefill
  refine safe_next ?_
  refine doRefill_inv _ _ ?_
  assumption

theorem execRequestAgeing_inv : ∀ (s : State), s.Inv → Safe (execRequestAgeing s) := by
  intro s h_s
  unfold execRequestAgeing
  refine safe_next ?_
  refine doAgeing_inv _ ?_
  assumption

theorem execPowerThrottle_inv : ∀ (mw : ℕ) (s : State), s.Inv → Safe (execPowerThrottle mw s) := by
  intro mw s h_s
  unfold execPowerThrottle
  refine safe_next ?_
  refine doPower_inv _ _ ?_
  assumption

theorem execAttctlGo_inv : ∀ (s : State), s.Inv → Safe (execAttctlGo s) := by
  intro s h_s
  unfold execAttctlGo
  refine safe_next ?_
  refine doAttGo_inv _ ?_
  assumption

theorem execAttestationDone_inv : ∀ (s : State), s.Inv → Safe (execAttestationDone s) := by
  intro s h_s
  unfold execAttestationDone
  refine safe_next ?_
  refine doAttDone_inv _ ?_
  assumption

/-! ### Machine/EvFail.lean -/

theorem doLinkCrc_inv : ∀ (s : State), s.Inv → (doLinkCrc s).Inv := by
  intro s h_s
  unfold doLinkCrc
  extract_lets v1 v2
  clear_value v1
  clear_value v2
  refine ite_inv (fun _ => ?_) (fun _ => ?_)
  · refine State.logLink_inv _ _ _ _ ?_
    refine inv_mk ?_
    refine inv_mem ?_
    assumption
  · refine inv_mk ?_
    refine inv_mem ?_
    assumption

theorem State.killLink_inv : ∀ (s : State) (n : ℕ), s.Inv → (State.killLink s n).Inv := by
  intro s n h_s
  unfold State.killLink
  extract_lets v1
  rename_i v2
  clear_value v1
  clear_value v2
  refine ite_inv (fun _ => ?_) (fun _ => ?_)
  · assumption
  · refine State.syncHealth_inv _ _ ?_
    refine State.logLink_inv _ _ _ _ ?_
    refine inv_mk ?_
    refine inv_mem ?_
    assumption

theorem doLinkDead_inv : ∀ (s : State), s.Inv → (doLinkDead s).Inv := by
  intro s h_s
  unfold doLinkDead
  refine foldl_inv ?_ (fun t1 x2 ht1 => ?_)
  · assumption
  · refine State.killLink_inv _ _ ?_
    assumption

theorem doDeathNotice_inv : ∀ (link : ℕ) (s : State), s.Inv → (doDeathNotice link s).Inv := by
  intro link s h_s
  unfold doDeathNotice
  extract_lets v1
  clear_value v1
  refine inv_mk ?_
  refine inv_mem ?_
  assumption

theorem State.turnEntry_inv : ∀ (s : State) (i : ℕ) (h : ℕ), s.Inv → (State.turnEntry s i h).Inv := by
  intro s i h h_s
  unfold State.turnEntry
  extract_lets v1 v2
  clear_value v1
  clear_value v2
  refine ite_inv (fun _ => ?_) (fun _ => ?_)
  · refine inv_mk ?_
    refine inv_mem ?_
    assumption
  · assumption

theorem State.noteUnreached_inv : ∀ (s : State) (i : ℕ) (h : ℕ), s.Inv → (State.noteUnreached s i h).Inv := by
  intro s i h h_s
  unfold State.noteUnreached
  extract_lets v1
  clear_value v1
  refine ite_inv (fun _ => ?_) (fun _ => ?_)
  · refine State.logRec_inv _ _ _ _ _ _ _ ?_
    refine inv_mk ?_
    refine inv_mem ?_
    assumption
  · assumption

theorem doReroute_inv : ∀ (s : State), s.Inv → (doReroute s).Inv := by
  intro s h_s
  unfold doReroute
  refine ite_inv (fun _ => ?_) (fun _ => ?_)
  · assumption
  · extract_lets v1 v2 v3
    clear_value v1
    have hv2 : State.Inv v2 := by
      unfold v2
      refine foldl_inv ?_ (fun t4 x5 ht4 => ?_)
      · assumption
      · refine State.turnEntry_inv _ _ _ ?_
        assumption
    clear_value v2
    have hv3 : State.Inv v3 := by
      unfold v3
      refine inv_mk ?_
      refine inv_mem ?_
      assumption
    clear_value v3
    refine foldl_inv ?_ (fun t4 x5 ht4 => ?_)
    · assumption
    · refine State.noteUnreached_inv _ _ _ ?_
      assumption

theorem doLoss_inv : ∀ (s : State), s.Inv → (doLoss s).Inv := by
  intro s h_s
  unfold doLoss
  split
  · rename_i m1 m2
    assumption
  · rename_i m3 m4 m5
    refine State.answerHeld_inv _ _ _ ?_
    refine State.dropHeld_inv _ _ ?_
    assumption

theorem State.correctedLine_inv : ∀ (s : State) (m : ℕ) (bank : ℕ) (a : ℕ), s.Inv → (State.correctedLine s m bank a).Inv := by
  intro s m bank a h_s
  unfold State.correctedLine
  extract_lets v1 v2 v3 v4
  rename_i v5 v6 v7
  clear_value v1
  clear_value v2
  clear_value v3
  clear_value v4
  clear_value v5
  have hv6 : State.Inv v6 := by
    unfold v6
    refine State.modMc_inv _ _ _ ?_
    assumption
  clear_value v6
  have hv7 : State.Inv v7 := by
    unfold v7
    refine State.logRec_inv _ _ _ _ _ _ _ ?_
    assumption
  clear_value v7
  refine ite_inv (fun _ => ?_) (fun _ => ?_)
  · refine ite_inv (fun _ => ?_) (fun _ => ?_)
    · refine ite_inv (fun _ => ?_) (fun _ => ?_)
      · refine State.syncHealth_inv _ _ ?_
        assumption
      · assumption
    · assumption
  · refine State.logRec_inv _ _ _ _ _ _ _ ?_
    refine State.modMc_inv _ _ _ ?_
    assumption

theorem State.correctedWord_inv : ∀ (s : State) (core : ℕ), s.Inv → (State.correctedWord s core).Inv := by
  intro s core h_s
  unfold State.correctedWord
  extract_lets v1
  clear_value v1
  refine ite_inv (fun _ => ?_) (fun _ => ?_)
  · refine State.logRec_inv _ _ _ _ _ _ _ ?_
    refine State.modCore_inv _ _ _ ?_
    assumption
  · refine State.modCore_inv _ _ _ ?_
    assumption

theorem State.uncorrectable_inv : ∀ (s : State) (home : ℕ) (key : ℕ) (pa : ℕ) (rep : ℕ), s.Inv → (State.uncorrectable s home key pa rep).Inv := by
  intro s home key pa rep h_s
  unfold State.uncorrectable
  refine State.logRec_inv _ _ _ _ _ _ _ ?_
  refine State.addPoison_inv _ _ ?_
  assumption

theorem State.scrubOne_inv : ∀ (s : State) (m : ℕ) (bank : ℕ) (w : Word), s.Inv → (State.scrubOne s m bank w).Inv := by
  intro s m bank w h_s
  unfold State.scrubOne
  extract_lets v1
  rename_i v2 v3 v4 v5
  clear_value v1
  clear_value v2
  clear_value v3
  clear_value v4
  clear_value v5
  refine ite_inv (fun _ => ?_) (fun _ => ?_)
  · refine ite_inv (fun _ => ?_) (fun _ => ?_)
    · refine State.uncorrectable_inv _ _ _ _ _ ?_
      assumption
    · refine State.correctedWord_inv _ _ ?_
      assumption
  · refine ite_inv (fun _ => ?_) (fun _ => ?_)
    · refine State.uncorrectable_inv _ _ _ _ _ ?_
      assumption
    · refine State.correctedLine_inv _ _ _ _ ?_
      assumption

theorem State.scrubMany_inv : ∀ (s : State) (m : ℕ) (bank : ℕ) (a3 : ℕ), s.Inv → (State.scrubMany s m bank a3).Inv := by
  intro s m bank a3 h_s
  unfold State.scrubMany
  split
  · rename_i m1
    assumption
  · rename_i m2 m3
    extract_lets v4
    have hv4 : SndInv v4 := by
      unfold v4
      refine State.free_inv _ ?_
      assumption
    clear_value v4
    refine State.scrubMany_inv _ _ _ _ ?_
    refine State.scrubOne_inv _ _ _ _ ?_
    refine snd_inv ?_
    assumption

theorem doScrub_inv : ∀ (bank : ℕ) (s : State), s.Inv → (doScrub bank s).Inv := by
  intro bank s h_s
  unfold doScrub
  extract_lets v1 v2
  clear_value v1
  have hv2 : SndInv v2 := by
    unfold v2
    refine State.free_inv _ ?_
    assumption
  clear_value v2
  refine State.modMc_inv _ _ _ ?_
  refine State.scrubMany_inv _ _ _ _ ?_
  refine snd_inv ?_
  assumption

theorem doHeartbeat_inv : ∀ (s : State), s.Inv → (doHeartbeat s).Inv := by
  intro s h_s
  unfold doHeartbeat
  extract_lets v1
  clear_value v1
  refine ite_inv (fun _ => ?_) (fun _ => ?_)
  · assumption
  · refine State.modCluster_inv _ _ _ ?_
    assumption

theorem State.redoCopy_inv : ∀ (s : State) (w : ℕ) (pk : ℕ) (p : Packet), s.Inv → (State.redoCopy s w pk p).Inv := by
  intro s w pk p h_s
  unfold State.redoCopy
  split
  · rename_i m1 m2 m3
    refine ite_inv (fun _ => ?_) (fun _ => ?_)
    · assumption
    · extract_lets v4 v5
      have hv4 : State.Inv v4 := by
        unfold v4
        refine inv_mk ?_
        refine inv_mem ?_
        assumption
      clear_value v4
      clear_value v5
      split
      · rename_i m6 m7 m8
        refine State.giveCopy_inv _ _ _ _ _ _ _ ?_
        assumption
      · rename_i m9 m10 m11 m12 m13
        refine State.failPk_inv _ _ _ _ _ _ _ ?_
        refine State.unitMiss_inv _ _ _ _ ?_
        assumption
      · rename_i m14 m15 m16
        refine State.unitMiss_inv _ _ _ _ ?_
        assumption
  · rename_i m17 m18
    assumption

theorem State.uncertain_inv : ∀ (s : State) (w : ℕ) (p : Packet), s.Inv → (State.uncertain s w p).Inv := by
  intro s w p h_s
  unfold State.uncertain
  split
  · rename_i m1 m2 m3 m4
    refine State.logRec_inv _ _ _ _ _ _ _ ?_
    assumption
  · rename_i m5 m6
    assumption

theorem State.adopt_inv : ∀ (s : State) (k : ℕ) (w : ℕ), s.Inv → (State.adopt s k w).Inv := by
  intro s k w h_s
  unfold State.adopt
  extract_lets v1 v2 v3 v4 v5 v6 v7
  have hv1 : State.Inv v1 := by
    unfold v1
    refine State.modCluster_inv _ _ _ ?_
    assumption
  clear_value v1
  clear_value v2
  have hv3 : State.Inv v3 := by
    unfold v3
    refine State.fence_inv _ _ ?_
    assumption
  clear_value v3
  have hv4 : State.Inv v4 := by
    unfold v4
    refine foldl_inv ?_ (fun t8 x9 ht8 => ?_)
    · assumption
    · refine ite_inv (fun _ => ?_) (fun _ => ?_)
      · refine State.qput_inv _ _ _ _ _ ?_
        assumption
      · assumption
  clear_value v4
  have hv5 : State.Inv v5 := by
    unfold v5
    refine inv_mk ?_
    refine inv_mem ?_
    assumption
  clear_value v5
  have hv6 : State.Inv v6 := by
    unfold v6
    refine State.modCluster_inv _ _ _ ?_
    assumption
  clear_value v6
  have hv7 : State.Inv v7 := by
    unfold v7
    refine foldl_inv ?_ (fun t8 x9 ht8 => ?_)
    · assumption
    · refine State.uncertain_inv _ _ _ ?_
      refine State.redoCopy_inv _ _ _ _ ?_
      assumption
  clear_value v7
  refine State.syncHealth_inv _ _ ?_
  refine State.logRec_inv _ _ _ _ _ _ _ ?_
  assumption

theorem doWatcher_inv : ∀ (s : State), s.Inv → (doWatcher s).Inv := by
  intro s h_s
  unfold doWatcher
  extract_lets v1 v2
  rename_i v3 v4
  clear_value v1
  clear_value v2
  clear_value v3
  have hv4 : State.Inv v4 := by
    unfold v4
    refine State.modCluster_inv _ _ _ ?_
    assumption
  clear_value v4
  refine ite_inv (fun _ => ?_) (fun _ => ?_)
  · assumption
  · split
    · rename_i m5 m6
      assumption
    · rename_i m7 m8 m9
      refine ite_inv (fun _ => ?_) (fun _ => ?_)
      · refine State.adopt_inv _ _ _ ?_
        assumption
      · assumption

theorem doFence_inv : ∀ (s : State), s.Inv → (doFence s).Inv := by
  intro s h_s
  unfold doFence
  refine State.fence_inv _ _ ?_
  assumption

theorem State.unlate_inv : ∀ (s : State) (d : GridFor), s.Inv → (State.unlate s d).Inv := by
  intro s d h_s
  unfold State.unlate
  split
  · rename_i m1 m2
    refine State.refusePacket_inv _ _ ?_
    assumption
  · rename_i m3 m4
    split
    · rename_i m5 m6 m7
      refine State.refusePacket_inv _ _ ?_
      assumption
    · rename_i m8 m9
      assumption
  · rename_i m10 m11 m12
    assumption

theorem State.killHarts_inv : ∀ (s : State) (dead : ℕ → Bool), s.Inv → (State.killHarts s dead).Inv := by
  intro s dead h_s
  unfold State.killHarts
  extract_lets v1 v2 v3 v4
  clear_value v1
  clear_value v2
  clear_value v3
  clear_value v4
  refine inv_mk ?_
  refine inv_mem ?_
  assumption

theorem State.killGroup_inv : ∀ (s : State) (gi : ℕ), s.Inv → (State.killGroup s gi).Inv := by
  intro s gi h_s
  unfold State.killGroup
  extract_lets v1
  have hv1 : State.Inv v1 := by
    unfold v1
    refine inv_mk ?_
    refine inv_mem ?_
    assumption
  clear_value v1
  refine State.groupDone_inv _ _ ?_
  refine State.modGroup_inv _ _ _ ?_
  assumption

theorem State.freeWindow_inv : ∀ (s : State) (w : ℕ), s.Inv → (State.freeWindow s w).Inv := by
  intro s w h_s
  unfold State.freeWindow
  refine ite_inv (fun _ => ?_) (fun _ => ?_)
  · assumption
  · refine inv_mk ?_
    refine inv_mem ?_
    assumption

theorem State.killGrid_inv : ∀ (s : State) (gi : ℕ) (g : Grid), s.Inv → (State.killGrid s gi g).Inv := by
  intro s gi g h_s
  unfold State.killGrid
  refine ite_inv (fun _ => ?_) (fun _ => ?_)
  · assumption
  · extract_lets v1 v2 v3 v4 v5 v6 v7
    rename_i v8
    clear_value v1
    clear_value v2
    clear_value v3
    have hv4 : State.Inv v4 := by
      unfold v4
      refine State.killHarts_inv _ _ ?_
      refine State.unlate_inv _ _ ?_
      assumption
    clear_value v4
    have hv5 : State.Inv v5 := by
      unfold v5
      refine foldl_inv ?_ (fun t9 x10 ht9 => ?_)
      · assumption
      · refine State.killGroup_inv _ _ ?_
        assumption
    clear_value v5
    have hv6 : State.Inv v6 := by
      unfold v6
      refine foldl_inv ?_ (fun t9 x10 ht9 => ?_)
      · assumption
      · split
        · rename_i m11 m12 m13
          refine ite_inv (fun _ => ?_) (fun _ => ?_)
          · assumption
          · refine State.blockDone_inv _ _ ?_
            assumption
        · rename_i m14 m15
          assumption
    clear_value v6
    have hv7 : State.Inv v7 := by
      unfold v7
      refine foldl_inv ?_ (fun t9 x10 ht9 => ?_)
      · assumption
      · refine State.freeWindow_inv _ _ ?_
        assumption
    clear_value v7
    clear_value v8
    refine inv_mk ?_
    refine inv_mem ?_
    assumption

theorem doCtxdown_inv : ∀ (s : State), s.Inv → (doCtxdown s).Inv := by
  intro s h_s
  unfold doCtxdown
  extract_lets v1
  rename_i v2 v3 v4
  clear_value v1
  clear_value v2
  have hv3 : State.Inv v3 := by
    unfold v3
    refine foldl_inv ?_ (fun t5 x6 ht5 => ?_)
    · assumption
    · refine State.opDone_inv _ _ _ ?_
      assumption
  clear_value v3
  have hv4 : State.Inv v4 := by
    unfold v4
    refine foldl_inv ?_ (fun t5 x6 ht5 => ?_)
    · assumption
    · refine State.killGrid_inv _ _ _ ?_
      assumption
  clear_value v4
  split
  · rename_i m7 m8
    assumption
  · rename_i m9 m10 m11 m12
    extract_lets v13
    have hv13 : State.Inv v13 := by
      unfold v13
      refine State.logRec_inv _ _ _ _ _ _ _ ?_
      refine State.modMod_inv _ _ ?_
      assumption
    clear_value v13
    refine inv_mk ?_
    refine inv_mem ?_
    assumption

theorem doErrorIrq_inv : ∀ (s : State), s.Inv → (doErrorIrq s).Inv := by
  intro s h_s
  unfold doErrorIrq
  extract_lets v1 v2 v3
  clear_value v1
  clear_value v2
  refine ite_inv (fun _ => ?_) (fun _ => ?_)
  · simp only [v3]
    refine inv_mk ?_
    refine inv_mem ?_
    refine State.modMod_inv _ _ ?_
    assumption
  · refine ite_inv (fun _ => ?_) (fun _ => ?_)
    · simp only [v3]
      refine inv_mk ?_
      refine inv_mem ?_
      refine State.modMod_inv _ _ ?_
      assumption
    · assumption

theorem State.qtFill_inv : ∀ (s : State) (a1 : ℕ) (a2 : ℕ) (a3 : List Byte), s.Inv → (State.qtFill s a1 a2 a3).Inv := by
  intro s a1 a2 a3 h_s
  unfold State.qtFill
  split
  · rename_i m1 m2 m3
    assumption
  · rename_i m4 m5 m6 m7
    refine ite_inv (fun _ => ?_) (fun _ => ?_)
    · assumption
    · refine State.qtFill_inv _ _ _ _ ?_
      refine State.qtWrite_inv _ _ _ ?_
      assumption

theorem doFreeze_inv : ∀ (s : State), s.Inv → (doFreeze s).Inv := by
  intro s h_s
  unfold doFreeze
  extract_lets v1
  rename_i v2 v3 v4 v5
  clear_value v1
  have hv2 : State.Inv v2 := by
    unfold v2
    refine State.stateVector_inv _ ?_
    refine inv_mk ?_
    refine inv_mem ?_
    assumption
  clear_value v2
  clear_value v3
  clear_value v4
  have hv5 : State.Inv v5 := by
    unfold v5
    refine ite_inv (fun _ => ?_) (fun _ => ?_)
    · refine State.qtFill_inv _ _ _ _ ?_
      assumption
    · refine inv_mk ?_
      refine memWrite_wf _ _ _ ?_
      refine inv_mem ?_
      assumption
  clear_value v5
  refine ite_inv (fun _ => ?_) (fun _ => ?_)
  · assumption
  · refine inv_mk ?_
    refine inv_mem ?_
    assumption

theorem execLinkCrcError_inv : ∀ (s : State), s.Inv → Safe (execLinkCrcError s) := by
  intro s h_s
  unfold execLinkCrcError
  refine safe_next ?_
  refine doLinkCrc_inv _ ?_
  assumption

theorem execLinkDead_inv : ∀ (s : State), s.Inv → Safe (execLinkDead s) := by
  intro s h_s
  unfold execLinkDead
  refine safe_next ?_
  refine doLinkDead_inv _ ?_
  assumption

theorem execDeathNotice_inv : ∀ (link : ℕ) (s : State), s.Inv → Safe (execDeathNotice link s) := by
  intro link s h_s
  unfold execDeathNotice
  refine safe_next ?_
  refine doDeathNotice_inv _ _ ?_
  assumption

theorem execNstReroute_inv : ∀ (s : State), s.Inv → Safe (execNstReroute s) := by
  intro s h_s
  unfold execNstReroute
  refine safe_next ?_
  refine doReroute_inv _ ?_
  assumption

theorem execRequestLossTimeout_inv : ∀ (s : State), s.Inv → Safe (execRequestLossTimeout s) := by
  intro s h_s
  unfold execRequestLossTimeout
  refine safe_next ?_
  refine doLoss_inv _ ?_
  assumption

theorem execScrubPatrol_inv : ∀ (bank : ℕ) (s : State), s.Inv → Safe (execScrubPatrol bank s) := by
  intro bank s h_s
  unfold execScrubPatrol
  refine safe_next ?_
  refine doScrub_inv _ _ ?_
  assumption

theorem execHeartbeat_inv : ∀ (s : State), s.Inv → Safe (execHeartbeat s) := by
  intro s h_s
  unfold execHeartbeat
  refine safe_next ?_
  refine doHeartbeat_inv _ ?_
  assumption

theorem execWatcherRead_inv : ∀ (s : State), s.Inv → Safe (execWatcherRead s) := by
  intro s h_s
  unfold execWatcherRead
  refine safe_next ?_
  refine doWatcher_inv _ ?_
  assumption

theorem execFenceWrite_inv : ∀ (s : State), s.Inv → Safe (execFenceWrite s) := by
  intro s h_s
  unfold execFenceWrite
  refine safe_next ?_
  refine doFence_inv _ ?_
  assumption

theorem execCtxdown_inv : ∀ (s : State), s.Inv → Safe (execCtxdown s) := by
  intro s h_s
  unfold execCtxdown
  refine safe_next ?_
  refine doCtxdown_inv _ ?_
  assumption

theorem execErrorInterrupt_inv : ∀ (s : State), s.Inv → Safe (execErrorInterrupt s) := by
  intro s h_s
  unfold execErrorInterrupt
  refine safe_next ?_
  refine doErrorIrq_inv _ ?_
  assumption

theorem execFatalFreeze_inv : ∀ (s : State), s.Inv → Safe (execFatalFreeze s) := by
  intro s h_s
  unfold execFatalFreeze
  refine safe_next ?_
  refine doFreeze_inv _ ?_
  assumption

/-! ### Machine/EvBoot.lean -/

theorem State.logSite_inv : ∀ (s : State) (kind : ℕ) (site : ℕ) (detail : ℕ), s.Inv → (State.logSite s kind site detail).Inv := by
  intro s kind site detail h_s
  unfold State.logSite
  extract_lets v1 v2
  clear_value v1
  clear_value v2
  refine State.logBytes_inv _ _ ?_
  refine State.modHome_inv _ _ _ ?_
  assumption

theorem State.refuseSlot_inv : ∀ (s : State) (slot : ℕ) (reason : ℕ), s.Inv → (State.refuseSlot s slot reason).Inv := by
  intro s slot reason h_s
  unfold State.refuseSlot
  extract_lets v1
  have hv1 : State.Inv v1 := by
    unfold v1
    refine State.logSite_inv _ _ _ _ ?_
    assumption
  clear_value v1
  refine State.syncHealth_inv _ _ ?_
  refine State.modMod_inv _ _ ?_
  assumption

theorem State.bootFrom_inv : ∀ (s : State) (slot : ℕ), s.Inv → (State.bootFrom s slot).Inv := by
  intro s slot h_s
  unfold State.bootFrom
  split
  · rename_i m1 m2
    assumption
  · rename_i m3 m4 m5 m6
    extract_lets v7
    rename_i v8
    have hv7 : State.Inv v7 := by
      unfold v7
      refine State.modMod_inv _ _ ?_
      refine State.measure_inv _ _ _ ?_
      refine State.measure_inv _ _ _ ?_
      refine State.measure_inv _ _ _ ?_
      assumption
    clear_value v7
    clear_value v8
    refine inv_mk ?_
    refine inv_mem ?_
    assumption

theorem doBootVerify_inv : ∀ (s0 : State), s0.Inv → (doBootVerify s0).Inv := by
  intro s0 h_s0
  unfold doBootVerify
  refine ite_inv (fun _ => ?_) (fun _ => ?_)
  · assumption
  · extract_lets v1 v2 v3 v4
    rename_i v5 v6 v7 v8
    have hv1 : State.Inv v1 := by
      unfold v1
      refine ite_inv (fun _ => ?_) (fun _ => ?_)
      · assumption
      · refine State.modMod_inv _ _ ?_
        assumption
    clear_value v1
    clear_value v2
    clear_value v3
    clear_value v4
    have hv5 : State.Inv v5 := by
      unfold v5
      refine State.refuseSlot_inv _ _ _ ?_
      assumption
    clear_value v5
    clear_value v6
    have hv7 : State.Inv v7 := by
      unfold v7
      refine State.measure_inv _ _ _ ?_
      refine State.refuseSlot_inv _ _ _ ?_
      assumption
    clear_value v7
    clear_value v8
    refine ite_inv (fun _ => ?_) (fun _ => ?_)
    · refine State.bootFrom_inv _ _ ?_
      assumption
    · refine ite_inv (fun _ => ?_) (fun _ => ?_)
      · refine State.bootFrom_inv _ _ ?_
        assumption
      · refine inv_mk ?_
        refine inv_mem ?_
        assumption

theorem doWaveLaunch_inv : ∀ (s : State), s.Inv → (doWaveLaunch s).Inv := by
  intro s h_s
  unfold doWaveLaunch
  refine ite_inv (fun _ => ?_) (fun _ => ?_)
  · assumption
  · extract_lets v1 v2
    rename_i v3
    clear_value v1
    clear_value v2
    have hv3 : State.Inv v3 := by
      unfold v3
      refine inv_mk ?_
      refine inv_mem ?_
      assumption
    clear_value v3
    refine foldl_inv ?_ (fun t4 x5 ht4 => ?_)
    · assumption
    · refine State.modSite_inv _ _ _ ?_
      assumption

theorem doWaveArrival_inv : ∀ (origin : ℕ) (hops : ℕ) (s : State), s.Inv → (doWaveArrival origin hops s).Inv := by
  intro origin hops s h_s
  unfold doWaveArrival
  extract_lets v1 v2
  rename_i v3 v4 v5 v6
  clear_value v1
  clear_value v2
  clear_value v3
  clear_value v4
  clear_value v5
  have hv6 : State.Inv v6 := by
    unfold v6
    refine inv_mk ?_
    refine inv_mem ?_
    assumption
  clear_value v6
  refine ite_inv (fun _ => ?_) (fun _ => ?_)
  · assumption
  · refine ite_inv (fun _ => ?_) (fun _ => ?_)
    · refine inv_mk ?_
      refine inv_mem ?_
      assumption
    · refine State.stateVector_inv _ ?_
      refine State.modSite_inv _ _ _ ?_
      assumption

theorem doLocked_inv : ∀ (s : State), s.Inv → (doLocked s).Inv := by
  intro s h_s
  unfold doLocked
  refine ite_inv (fun _ => ?_) (fun _ => ?_)
  · extract_lets v1
    have hv1 : SndInv v1 := by
      unfold v1
      refine State.free_inv _ ?_
      assumption
    clear_value v1
    refine State.stateVector_inv _ ?_
    refine State.modSite_inv _ _ _ ?_
    refine snd_inv ?_
    assumption
  · assumption

theorem doTrained_inv : ∀ (s : State), s.Inv → (doTrained s).Inv := by
  intro s h_s
  unfold doTrained
  extract_lets v1 v2 v3
  rename_i v4
  clear_value v1
  clear_value v2
  clear_value v3
  clear_value v4
  refine ite_inv (fun _ => ?_) (fun _ => ?_)
  · refine State.stateVector_inv _ ?_
    refine State.modSite_inv _ _ _ ?_
    assumption
  · assumption

theorem doLoaded_inv : ∀ (conf : List Byte) (s : State), s.Inv → (doLoaded conf s).Inv := by
  intro conf s h_s
  unfold doLoaded
  extract_lets v1
  rename_i v2 v3
  clear_value v1
  clear_value v2
  have hv3 : State.Inv v3 := by
    unfold v3
    refine inv_mk ?_
    refine inv_mem ?_
    assumption
  clear_value v3
  refine ite_inv (fun _ => ?_) (fun _ => ?_)
  · refine State.stateVector_inv _ ?_
    refine State.modSite_inv _ _ _ ?_
    assumption
  · assumption

theorem State.failSite_inv : ∀ (s : State) (i : ℕ) (st : ℕ), s.Inv → (State.failSite s i st).Inv := by
  intro s i st h_s
  unfold State.failSite
  extract_lets v1
  have hv1 : State.Inv v1 := by
    unfold v1
    refine State.modSite_inv _ _ _ ?_
    assumption
  clear_value v1
  refine State.syncHealth_inv _ _ ?_
  refine State.logSite_inv _ _ _ _ ?_
  assumption

theorem State.retireOrphan_inv : ∀ (s : State) (i : ℕ), s.Inv → (State.retireOrphan s i).Inv := by
  intro s i h_s
  unfold State.retireOrphan
  refine ite_inv (fun _ => ?_) (fun _ => ?_)
  · refine State.failSite_inv _ _ _ ?_
    assumption
  · assumption

theorem State.advance_inv : ∀ (s : State) (a : ℕ) (b : ℕ), s.Inv → (State.advance s a b).Inv := by
  intro s a b h_s
  unfold State.advance
  extract_lets v1
  clear_value v1
  refine State.stateVector_inv _ ?_
  refine inv_mk ?_
  refine inv_mem ?_
  assumption

theorem doNamed_inv : ∀ (s : State), s.Inv → (doNamed s).Inv := by
  intro s h_s
  unfold doNamed
  extract_lets v1
  rename_i v2 v3 v4 v5 v6 v7 v8 v9
  clear_value v1
  have hv2 : State.Inv v2 := by
    unfold v2
    refine foldl_inv ?_ (fun t10 x11 ht10 => ?_)
    · assumption
    · refine State.retireOrphan_inv _ _ ?_
      assumption
  clear_value v2
  clear_value v3
  have hv4 : State.Inv v4 := by
    unfold v4
    refine foldl_inv ?_ (fun t10 x11 ht10 => ?_)
    · assumption
    · refine State.measure_inv _ _ _ ?_
      assumption
  clear_value v4
  clear_value v5
  have hv6 : State.Inv v6 := by
    unfold v6
    refine inv_mk ?_
    refine inv_mem ?_
    assumption
  clear_value v6
  have hv7 : State.Inv v7 := by
    unfold v7
    refine ite_inv (fun _ => ?_) (fun _ => ?_)
    · assumption
    · refine foldl_inv ?_ (fun t12 x13 ht12 => ?_)
      · assumption
      · refine foldl_inv ?_ (fun t14 x15 ht14 => ?_)
        · assumption
        · refine State.turnEntry_inv _ _ _ ?_
          assumption
  clear_value v7
  clear_value v8
  have hv9 : State.Inv v9 := by
    unfold v9
    refine State.measure_inv _ _ _ ?_
    assumption
  clear_value v9
  refine ite_inv (fun _ => ?_) (fun _ => ?_)
  · assumption
  · refine State.advance_inv _ _ _ ?_
    assumption

theorem doReady_inv : ∀ (s : State), s.Inv → (doReady s).Inv := by
  intro s h_s
  unfold doReady
  extract_lets v1
  clear_value v1
  refine ite_inv (fun _ => ?_) (fun _ => ?_)
  · assumption
  · refine State.advance_inv _ _ _ ?_
    assumption

theorem State.tryFail_inv : ∀ (s : State) (i : ℕ) (st : ℕ) (limit : ℕ), s.Inv → (State.tryFail s i st limit).Inv := by
  intro s i st limit h_s
  unfold State.tryFail
  extract_lets v1
  clear_value v1
  refine ite_inv (fun _ => ?_) (fun _ => ?_)
  · refine State.failSite_inv _ _ _ ?_
    assumption
  · refine State.modSite_inv _ _ _ ?_
    assumption

theorem State.killSite_inv : ∀ (s : State) (i : ℕ), s.Inv → (State.killSite s i).Inv := by
  intro s i h_s
  unfold State.killSite
  refine foldl_inv ?_ (fun t1 x2 ht1 => ?_)
  · assumption
  · refine State.killLink_inv _ _ ?_
    assumption

theorem State.linkFail_inv : ∀ (s : State) (i : ℕ), s.Inv → (State.linkFail s i).Inv := by
  intro s i h_s
  unfold State.linkFail
  extract_lets v1
  rename_i v2 v3
  have hv1 : SndInv v1 := by
    unfold v1
    refine State.free_inv _ ?_
    assumption
  clear_value v1
  clear_value v2
  clear_value v3
  refine ite_inv (fun _ => ?_) (fun _ => ?_)
  · refine snd_inv ?_
    assumption
  · refine State.killLink_inv _ _ ?_
    refine snd_inv ?_
    assumption

theorem doBringupTimeout_inv : ∀ (st : ℕ) (s : State), s.Inv → (doBringupTimeout st s).Inv := by
  intro st s h_s
  unfold doBringupTimeout
  extract_lets v1 v2 v3 v4
  rename_i v5
  clear_value v1
  clear_value v2
  clear_value v3
  have hv4 : State.Inv v4 := by
    unfold v4
    refine State.tryFail_inv _ _ _ _ ?_
    assumption
  clear_value v4
  have hv5 : State.Inv v5 := by
    unfold v5
    refine ite_inv (fun _ => ?_) (fun _ => ?_)
    · refine ite_inv (fun _ => ?_) (fun _ => ?_)
      · refine State.killSite_inv _ _ ?_
        refine State.failSite_inv _ _ _ ?_
        assumption
      · assumption
    · refine ite_inv (fun _ => ?_) (fun _ => ?_)
      · refine ite_inv (fun _ => ?_) (fun _ => ?_)
        · refine State.killSite_inv _ _ ?_
          refine State.failSite_inv _ _ _ ?_
          assumption
        · assumption
      · refine ite_inv (fun _ => ?_) (fun _ => ?_)
        · refine ite_inv (fun _ => ?_) (fun _ => ?_)
          · assumption
          · refine ite_inv (fun _ => ?_) (fun _ => ?_)
            · refine State.linkFail_inv _ _ ?_
              assumption
            · assumption
        · refine ite_inv (fun _ => ?_) (fun _ => ?_)
          · refine ite_inv (fun _ => ?_) (fun _ => ?_)
            · refine State.tryFail_inv _ _ _ _ ?_
              assumption
            · assumption
          · refine ite_inv (fun _ => ?_) (fun _ => ?_)
            · refine ite_inv (fun _ => ?_) (fun _ => ?_)
              · refine State.killSite_inv _ _ ?_
                refine State.failSite_inv _ _ _ ?_
                assumption
              · assumption
            · refine ite_inv (fun _ => ?_) (fun _ => ?_)
              · refine State.retireOrphan_inv _ _ ?_
                assumption
              · assumption
  clear_value v5
  refine State.stateVector_inv _ ?_
  refine inv_mk ?_
  refine inv_mem ?_
  assumption

theorem doRestart_inv : ∀ (s : State), s.Inv → (doRestart s).Inv := by
  intro s h_s
  unfold doRestart
  refine ite_inv (fun _ => ?_) (fun _ => ?_)
  · assumption
  · extract_lets v1
    rename_i v2
    have hv1 : State.Inv v1 := by
      unfold v1
      refine State.modMod_inv _ _ ?_
      assumption
    clear_value v1
    clear_value v2
    refine State.syncHealth_inv _ _ ?_
    refine State.stateVector_inv _ ?_
    refine inv_mk ?_
    refine inv_mem ?_
    assumption

theorem doRecoveryDone_inv : ∀ (s : State), s.Inv → (doRecoveryDone s).Inv := by
  intro s h_s
  unfold doRecoveryDone
  extract_lets v1
  rename_i v2 v3 v4 v5
  clear_value v1
  clear_value v2
  clear_value v3
  clear_value v4
  clear_value v5
  refine ite_inv (fun _ => ?_) (fun _ => ?_)
  · assumption
  · refine ite_inv (fun _ => ?_) (fun _ => ?_)
    · refine ite_inv (fun _ => ?_) (fun _ => ?_)
      · refine inv_mk ?_
        refine inv_mem ?_
        assumption
      · refine inv_mk ?_
        refine inv_mem ?_
        assumption
    · refine ite_inv (fun _ => ?_) (fun _ => ?_)
      · refine inv_mk ?_
        refine memWrite_wf _ _ _ ?_
        refine inv_mem ?_
        assumption
      · assumption

theorem execModuleReset_inv : ∀ (s : State), s.Inv → Safe (execModuleReset s) := by
  intro s h_s
  unfold execModuleReset
  refine safe_next ?_
  refine State.moduleReset_inv _ ?_
  assumption

theorem execBootVerify_inv : ∀ (s : State), s.Inv → Safe (execBootVerify s) := by
  intro s h_s
  unfold execBootVerify
  refine safe_next ?_
  refine doBootVerify_inv _ ?_
  assumption

theorem execWaveLaunch_inv : ∀ (s : State), s.Inv → Safe (execWaveLaunch s) := by
  intro s h_s
  unfold execWaveLaunch
  refine safe_next ?_
  refine doWaveLaunch_inv _ ?_
  assumption

theorem execWaveArrival_inv : ∀ (origin : ℕ) (hops : ℕ) (s : State), s.Inv → Safe (execWaveArrival origin hops s) := by
  intro origin hops s h_s
  unfold execWaveArrival
  refine safe_next ?_
  refine doWaveArrival_inv _ _ _ ?_
  assumption

theorem execSiteLocked_inv : ∀ (s : State), s.Inv → Safe (execSiteLocked s) := by
  intro s h_s
  unfold execSiteLocked
  refine safe_next ?_
  refine doLocked_inv _ ?_
  assumption

theorem execLinkTrained_inv : ∀ (s : State), s.Inv → Safe (execLinkTrained s) := by
  intro s h_s
  unfold execLinkTrained
  refine safe_next ?_
  refine doTrained_inv _ ?_
  assumption

theorem execSiteLoaded_inv : ∀ (conf : List Byte) (s : State), s.Inv → Safe (execSiteLoaded conf s) := by
  intro conf s h_s
  unfold execSiteLoaded
  refine safe_next ?_
  refine doLoaded_inv _ _ ?_
  assumption

theorem execNamed_inv : ∀ (s : State), s.Inv → Safe (execNamed s) := by
  intro s h_s
  unfold execNamed
  refine safe_next ?_
  refine doNamed_inv _ ?_
  assumption

theorem execReadyBroadcast_inv : ∀ (s : State), s.Inv → Safe (execReadyBroadcast s) := by
  intro s h_s
  unfold execReadyBroadcast
  refine safe_next ?_
  refine doReady_inv _ ?_
  assumption

theorem execBringupTimeout_inv : ∀ (st : ℕ) (s : State), s.Inv → Safe (execBringupTimeout st s) := by
  intro st s h_s
  unfold execBringupTimeout
  refine safe_next ?_
  refine doBringupTimeout_inv _ _ ?_
  assumption

theorem execBringupRestart_inv : ∀ (s : State), s.Inv → Safe (execBringupRestart s) := by
  intro s h_s
  unfold execBringupRestart
  refine safe_next ?_
  refine doRestart_inv _ ?_
  assumption

theorem execRecoveryGo_inv : ∀ (w : Word) (s : State), s.Inv → Safe (execRecoveryGo w s) := by
  intro w s h_s
  unfold execRecoveryGo
  refine safe_next ?_
  refine State.recGo_inv _ _ ?_
  assumption

theorem execRecoveryReset_inv : ∀ (s : State), s.Inv → Safe (execRecoveryReset s) := by
  intro s h_s
  unfold execRecoveryReset
  refine safe_next ?_
  refine State.recReset_inv _ ?_
  assumption

theorem execRecoveryReport_inv : ∀ (s : State), s.Inv → Safe (execRecoveryReport s) := by
  intro s h_s
  unfold execRecoveryReport
  refine safe_next ?_
  refine State.recReport_inv _ ?_
  assumption

theorem execRecoveryVerifyDone_inv : ∀ (s : State), s.Inv → Safe (execRecoveryVerifyDone s) := by
  intro s h_s
  unfold execRecoveryVerifyDone
  refine safe_next ?_
  refine doRecoveryDone_inv _ ?_
  assumption

/-! ### Machine/Issue.lean -/

theorem wordsOf_inv : ∀ (pc : Word) (line : List Byte) (s : State), s.Inv → (wordsOf pc line s).Inv := by
  intro pc line s h_s
  unfold wordsOf
  extract_lets v1
  clear_value v1
  refine Fetched.inv_words ?_
  assumption

theorem State.fetch_inv : ∀ (s : State) (h : ℕ) (x : Hart), s.Inv → (State.fetch s h x).Inv := by
  intro s h x h_s
  unfold State.fetch
  split
  · rename_i m1 m2 m3
    refine wordsOf_inv _ _ _ ?_
    assumption
  · rename_i m4 m5
    extract_lets v6 v7
    clear_value v6
    split
    · rename_i m8 m9 m10 m11 m12 m13
      extract_lets v14
      rename_i v15 v16 v17
      clear_value v14
      clear_value v15
      have hv16 : State.Inv v16 := by
        unfold v16
        refine State.tlbTake_inv _ _ ?_
        assumption
      clear_value v16
      clear_value v17
      refine ite_fetchedInv (fun _ => ?_) (fun _ => ?_)
      · refine Fetched.inv_idle ?_
        simp only [v7]
        refine State.modHart_inv _ _ _ ?_
        refine State.holdLost_inv _ _ _ _ _ _ ?_
        assumption
      · refine ite_fetchedInv (fun _ => ?_) (fun _ => ?_)
        · refine Fetched.inv_idle ?_
          refine State.consumePoison_inv _ _ _ _ ?_
          assumption
        · refine wordsOf_inv _ _ _ ?_
          refine State.modCore_inv _ _ _ ?_
          assumption
    · rename_i m18 m19 m20 m21 m22 m23
      refine Fetched.inv_fail ?_
      assumption
    · rename_i m24 m25 m26 m27
      refine Fetched.inv_fail ?_
      refine State.noteTable_inv _ _ _ ?_
      assumption
    · rename_i m28 m29 m30
      refine Fetched.inv_idle ?_
      simp only [v7]
      refine State.modHart_inv _ _ _ ?_
      refine State.holdMiss_inv _ _ _ _ _ _ _ ?_
      assumption
    · rename_i m31 m32 m33 m34
      refine Fetched.inv_idle ?_
      simp only [v7]
      refine State.modHart_inv _ _ _ ?_
      refine State.holdBehind_inv _ _ _ _ _ _ _ _ ?_
      assumption
    · rename_i m35 m36
      refine Fetched.inv_idle ?_
      simp only [v7]
      refine State.modHart_inv _ _ _ ?_
      refine State.holdLost_inv _ _ _ _ _ _ ?_
      assumption
    · rename_i m37 m38 m39 m40 m41 m42 m43
      refine Fetched.inv_idle ?_
      assumption

theorem State.tookSlot_inv : ∀ (s : State) (x : Hart) (acyc : ℕ), s.Inv → (State.tookSlot s x acyc).Inv := by
  intro s x acyc h_s
  unfold State.tookSlot
  refine State.modCore_inv _ _ _ ?_
  assumption

theorem State.inject_inv : ∀ (s : State), s.Inv → (State.inject s).Inv := by
  intro s h_s
  unfold State.inject
  extract_lets v1
  clear_value v1
  refine inv_mk ?_
  refine inv_mem ?_
  assumption

theorem State.markReady_inv : ∀ (s : State), s.Inv → (State.markReady s).Inv := by
  intro s h_s
  unfold State.markReady
  refine inv_mk ?_
  refine inv_mem ?_
  assumption

theorem State.endYields_inv : ∀ (s : State), s.Inv → (State.endYields s).Inv := by
  intro s h_s
  unfold State.endYields
  refine inv_mk ?_
  refine inv_mem ?_
  assumption

theorem State.refresh_inv : ∀ (s : State), s.Inv → (State.refresh s).Inv := by
  intro s h_s
  unfold State.refresh
  refine State.endYields_inv _ ?_
  refine State.markReady_inv _ ?_
  refine State.inject_inv _ ?_
  assumption

end Sys2Proof.Machine
end

