-- ==== Sys2Proof/Laws/PerInstr.lean ====
section
/-! SUPPORT. Decoding what the encoder writes (R145 to R154, R141), one lemma for each constructor of `Instr`. -/

namespace Sys2Proof

set_option Elab.async false

/-- The upper part of a word that is put together from two parts. -/
theorem extract_cat_up {n m : Nat} (a : BitVec n) (b : BitVec m) (s l : Nat) (h : m ≤ s) :
    (a ++ b).extractLsb' s l = a.extractLsb' (s - m) l := by
  apply BitVec.eq_of_getLsbD_eq
  intro i hi
  rw [BitVec.getLsbD_extractLsb', BitVec.getLsbD_append, BitVec.getLsbD_extractLsb', if_neg (by omega)]
  congr 2; omega

/-- The lower part of a word that is put together from two parts. -/
theorem extract_cat_lo {n m : Nat} (a : BitVec n) (b : BitVec m) (s l : Nat) (h : s + l ≤ m) :
    (a ++ b).extractLsb' s l = b.extractLsb' s l := by
  apply BitVec.eq_of_getLsbD_eq
  intro i hi
  rw [BitVec.getLsbD_extractLsb', BitVec.getLsbD_append, BitVec.getLsbD_extractLsb', if_pos (by omega)]

/-- A part taken at its own width. -/
theorem extract_all {n : Nat} (a : BitVec n) (s : Nat) (h : s = 0) : a.extractLsb' s n = a := by
  subst h; exact BitVec.extractLsb'_eq_self

/-- R145: the fields of a word put together from its fields are those fields. -/
theorem fieldsOf_word (f : Fields) : fieldsOf f.word = f := by
  obtain ⟨a, b, c, d, e, g⟩ := f
  simp only [fieldsOf, Fields.word, Fields.mk.injEq]
  refine ⟨?_, ?_, ?_, ?_, ?_, ?_⟩
  · refine (extract_cat_up (a ++ b ++ c ++ d ++ e) g _ _ (by decide)).trans ?_
    refine (extract_cat_up (a ++ b ++ c ++ d) e _ _ (by decide)).trans ?_
    refine (extract_cat_up (a ++ b ++ c) d _ _ (by decide)).trans ?_
    refine (extract_cat_up (a ++ b) c _ _ (by decide)).trans ?_
    refine (extract_cat_up (a) b _ _ (by decide)).trans ?_
    exact extract_all _ _ rfl
  · refine (extract_cat_up (a ++ b ++ c ++ d ++ e) g _ _ (by decide)).trans ?_
    refine (extract_cat_up (a ++ b ++ c ++ d) e _ _ (by decide)).trans ?_
    refine (extract_cat_up (a ++ b ++ c) d _ _ (by decide)).trans ?_
    refine (extract_cat_up (a ++ b) c _ _ (by decide)).trans ?_
    refine (extract_cat_lo (a) b _ _ (by decide)).trans ?_
    exact extract_all _ _ rfl
  · refine (extract_cat_up (a ++ b ++ c ++ d ++ e) g _ _ (by decide)).trans ?_
    refine (extract_cat_up (a ++ b ++ c ++ d) e _ _ (by decide)).trans ?_
    refine (extract_cat_up (a ++ b ++ c) d _ _ (by decide)).trans ?_
    refine (extract_cat_lo (a ++ b) c _ _ (by decide)).trans ?_
    exact extract_all _ _ rfl
  · refine (extract_cat_up (a ++ b ++ c ++ d ++ e) g _ _ (by decide)).trans ?_
    refine (extract_cat_up (a ++ b ++ c ++ d) e _ _ (by decide)).trans ?_
    refine (extract_cat_lo (a ++ b ++ c) d _ _ (by decide)).trans ?_
    exact extract_all _ _ rfl
  · refine (extract_cat_up (a ++ b ++ c ++ d ++ e) g _ _ (by decide)).trans ?_
    refine (extract_cat_lo (a ++ b ++ c ++ d) e _ _ (by decide)).trans ?_
    exact extract_all _ _ rfl
  · refine (extract_cat_lo (a ++ b ++ c ++ d ++ e) g _ _ (by decide)).trans ?_
    exact extract_all _ _ rfl

/-- The parts of a word put together again. -/
theorem extract_join {n m : Nat} (x : BitVec (n + m)) : x.extractLsb' m n ++ x.extractLsb' 0 m = x := by
  apply BitVec.eq_of_getLsbD_eq
  intro i hi
  rw [BitVec.getLsbD_append, BitVec.getLsbD_extractLsb', BitVec.getLsbD_extractLsb']
  by_cases h : i < m
  · simp [h]
  · simp only [h, ↓reduceIte, show decide (i - m < n) = true from decide_eq_true (by omega), Bool.true_and]
    congr 1; omega

/-- A zero upper part leaves the number in range. -/
theorem cat_toNat_lt {n m : Nat} (a : BitVec n) (b : BitVec m) (u : Nat) (h : a.toNat < 2 ^ u) :
    (a ++ b).toNat < 2 ^ (u + m) := by
  rw [BitVec.toNat_append, ← Nat.shiftLeft_add_eq_or_of_lt b.isLt, Nat.shiftLeft_eq]
  have hb := b.isLt
  calc a.toNat * 2 ^ m + b.toNat < a.toNat * 2 ^ m + 2 ^ m := by omega
    _ = (a.toNat + 1) * 2 ^ m := by ring
    _ ≤ 2 ^ u * 2 ^ m := Nat.mul_le_mul_right _ h
    _ = 2 ^ (u + m) := by rw [Nat.pow_add]

theorem bit1_getLsbD (b : Bool) : (bit1 b).getLsbD 0 = b := by cases b <;> rfl

theorem extract_zero (n s l : Nat) : (0#n).extractLsb' s l = 0#l := by
  apply BitVec.eq_of_getLsbD_eq; intro i hi; simp

theorem laneTyOf_code (t : LaneTy) : laneTyOf (laneTyCode t) = some t := by cases t <;> rfl
theorem scopeOf_code (t : Scope) : scopeOf (scopeCode t) = some t := by cases t <;> rfl
theorem lrxWOf_code (w : LrxW) : lrxWOf (lrxWCode w) = some w := by cases w <;> rfl
theorem amoOpOf_code (o : AmoOp) : amoOpOf (amoOpCode o) = some o := by cases o <;> rfl
theorem csrOpOf_code (o : CsrOp) : csrOpOf (csrOpCode o) = some o := by cases o <;> rfl
theorem csrOp_nonzero (o : CsrOp) : csrOpCode o ≠ 0#3 := by cases o <;> decide

/-- A 32-bit word decodes by its fields. -/
theorem decodeEnc_w32 (f : Fields) : decodeEnc (.w32 f.word) = decodeFields f := by
  rw [decodeEnc, fieldsOf_word]

/-- A D64 word decodes by its fields and its extension. -/
theorem decodeEnc_w64 (f : Fields) (e : BitVec 32) (h : f.opc = d64Opc) :
    decodeEnc (.w64 f.word e) = decodeD64 f e := by
  have : (isD64 f.word) = true := by
    have ho : f.word.extractLsb' 0 7 = f.opc := congrArg Fields.opc (fieldsOf_word f)
    simp [isD64, ho, h]
  rw [decodeEnc, if_pos this, fieldsOf_word]

/-- A legal instruction decodes. -/
theorem legal_of {i : Instr} (h : i.wf = true) : legal i = some i := if_pos h

section fields
variable (rs2 rs1 rd : BitVec 5) (f3 : BitVec 3) (opc : BitVec 7)

theorem fields_op6 (o : BitVec 6) (m : Bool) : Fields.op6 ⟨o ++ bit1 m, rs2, rs1, f3, rd, opc⟩ = o :=
  (extract_cat_up o (bit1 m) _ _ (by decide)).trans (extract_all _ _ rfl)
theorem fields_m (o : BitVec 6) (m : Bool) : Fields.m ⟨o ++ bit1 m, rs2, rs1, f3, rd, opc⟩ = m :=
  (BitVec.getLsbD_append (x := o) (y := bit1 m)).trans (by cases m <;> rfl)
theorem fields_op5 (o : BitVec 5) (x : BitVec 2) : Fields.op5 ⟨o ++ x, rs2, rs1, f3, rd, opc⟩ = o :=
  (extract_cat_up o x _ _ (by decide)).trans (extract_all _ _ rfl)
theorem fields_xw (o : BitVec 5) (x : BitVec 2) : Fields.xw ⟨o ++ x, rs2, rs1, f3, rd, opc⟩ = x :=
  (extract_cat_lo o x _ _ (by decide)).trans (extract_all _ _ rfl)
theorem fields_off7 (o : BitVec 5) (off : BitVec 7) :
    Fields.off7 ⟨o ++ off.extractLsb' 5 2, off.extractLsb' 0 5, rs1, f3, rd, opc⟩ = off := by
  unfold Fields.off7; rw [fields_xw]; exact extract_join (n := 2) (m := 5) off
theorem fields_immI (imm : BitVec 12) :
    Fields.immI ⟨imm.extractLsb' 5 7, imm.extractLsb' 0 5, rs1, f3, rd, opc⟩ = imm :=
  extract_join (n := 7) (m := 5) imm
theorem fields_immS (imm : BitVec 12) :
    Fields.immS ⟨imm.extractLsb' 5 7, rs2, rs1, f3, imm.extractLsb' 0 5, opc⟩ = imm :=
  extract_join (n := 7) (m := 5) imm

end fields

theorem lane_split (x : BitVec 4) : (0#1 ++ x : BitVec 5)[4] = false ∧ (0#1 ++ x).extractLsb' 0 4 = x :=
  ⟨(BitVec.getLsbD_append (x := 0#1) (y := x)).trans (by simp),
   (extract_cat_lo (0#1) x _ _ (by decide)).trans (extract_all _ _ rfl)⟩

theorem rx_code (b : Bool) : (0#2 ++ bit1 b : BitVec 3) = if b then 1#3 else 0#3 := by cases b <;> rfl
theorem dst_code (b : Bool) : (0#4 ++ bit1 b : BitVec 5) = if b then 1#5 else 0#5 := by cases b <;> rfl
theorem srx_code (w : BitVec 2) : (0#1 ++ w : BitVec 3)[2] = false ∧ (0#1 ++ w).extractLsb' 0 2 = w :=
  ⟨(BitVec.getLsbD_append (x := 0#1) (y := w)).trans (by simp),
   (extract_cat_lo (0#1) w _ _ (by decide)).trans (extract_all _ _ rfl)⟩
theorem width_join (w : BitVec 5) : w.extractLsb' 3 2 ++ w.extractLsb' 0 3 = w := extract_join (n := 2) (m := 3) w

/-! Fields of the extension word of D64 (R154). -/

theorem ext_small {n m k : Nat} (x : BitVec m) (h : n + m = k) : (0#n ++ x : BitVec (n + m)).toNat < 2 ^ m := by
  have := cat_toNat_lt (0#n) x 0 (by simp); simpa using this

theorem ext2 (x : BitVec 2) : (0#30 ++ x : BitVec 32).toNat < 4 ∧ (0#30 ++ x : BitVec 32).extractLsb' 0 2 = x :=
  ⟨ext_small x rfl, (extract_cat_lo (0#30) x _ _ (by decide)).trans (extract_all _ _ rfl)⟩
theorem ext3 (x : BitVec 3) : (0#29 ++ x : BitVec 32).toNat < 8 ∧ (0#29 ++ x : BitVec 32).extractLsb' 0 3 = x :=
  ⟨ext_small x rfl, (extract_cat_lo (0#29) x _ _ (by decide)).trans (extract_all _ _ rfl)⟩
theorem ext4 (x : BitVec 4) : (0#28 ++ x : BitVec 32).toNat < 16 ∧ (0#28 ++ x : BitVec 32).extractLsb' 0 4 = x :=
  ⟨ext_small x rfl, (extract_cat_lo (0#28) x _ _ (by decide)).trans (extract_all _ _ rfl)⟩
theorem ext_tldc (ef : BitVec 5) (acc : BitVec 2) : (0#25 ++ ef ++ acc : BitVec 32).toNat < 128 ∧
    (0#25 ++ ef ++ acc : BitVec 32).extractLsb' 0 2 = acc ∧ (0#25 ++ ef ++ acc : BitVec 32).extractLsb' 2 5 = ef :=
  ⟨cat_toNat_lt (0#25 ++ ef) acc 5 (ext_small ef rfl), (extract_cat_lo (0#25 ++ ef) acc _ _ (by decide)).trans (extract_all _ _ rfl),
   (extract_cat_up (0#25 ++ ef) acc _ _ (by decide)).trans ((extract_cat_lo (0#25) ef _ _ (by decide)).trans (extract_all _ _ rfl))⟩
theorem ext_tmma (p : BitVec 4) (br ar : BitVec 3) (acc : BitVec 2) :
    (0#20 ++ p ++ br ++ ar ++ acc : BitVec 32).toNat < 4096 ∧
    (0#20 ++ p ++ br ++ ar ++ acc : BitVec 32).extractLsb' 0 2 = acc ∧
    (0#20 ++ p ++ br ++ ar ++ acc : BitVec 32).extractLsb' 2 3 = ar ∧
    (0#20 ++ p ++ br ++ ar ++ acc : BitVec 32).extractLsb' 5 3 = br ∧
    (0#20 ++ p ++ br ++ ar ++ acc : BitVec 32).extractLsb' 8 4 = p := by
  have u2 (s l) (h : 2 ≤ s) := extract_cat_up (0#20 ++ p ++ br ++ ar) acc s l h
  have u3 (s l) (h : 3 ≤ s) := extract_cat_up (0#20 ++ p ++ br) ar s l h
  have u4 (s l) (h : 3 ≤ s) := extract_cat_up (0#20 ++ p) br s l h
  refine ⟨cat_toNat_lt (0#20 ++ p ++ br ++ ar) acc 10 (cat_toNat_lt (0#20 ++ p ++ br) ar 7 (cat_toNat_lt (0#20 ++ p) br 4
      (ext_small p rfl))), (extract_cat_lo (0#20 ++ p ++ br ++ ar) acc _ _ (by decide)).trans (extract_all _ _ rfl),
    (u2 _ _ (by decide)).trans ((extract_cat_lo (0#20 ++ p ++ br) ar _ _ (by decide)).trans (extract_all _ _ rfl)),
    (u2 _ _ (by decide)).trans ((u3 _ _ (by decide)).trans ((extract_cat_lo (0#20 ++ p) br _ _ (by decide)).trans
      (extract_all _ _ rfl))),
    (u2 _ _ (by decide)).trans ((u3 _ _ (by decide)).trans ((u4 _ _ (by decide)).trans
      ((extract_cat_lo (0#20) p _ _ (by decide)).trans (extract_all _ _ rfl))))⟩
theorem ext_tstc (scale sat : Bool) (ef : BitVec 5) (acc : BitVec 2) :
    (0#23 ++ bit1 scale ++ bit1 sat ++ ef ++ acc : BitVec 32).toNat < 512 ∧
    (0#23 ++ bit1 scale ++ bit1 sat ++ ef ++ acc : BitVec 32).extractLsb' 0 2 = acc ∧
    (0#23 ++ bit1 scale ++ bit1 sat ++ ef ++ acc : BitVec 32).extractLsb' 2 5 = ef ∧
    (0#23 ++ bit1 scale ++ bit1 sat ++ ef ++ acc : BitVec 32)[7] = sat ∧
    (0#23 ++ bit1 scale ++ bit1 sat ++ ef ++ acc : BitVec 32)[8] = scale := by
  refine ⟨cat_toNat_lt (0#23 ++ bit1 scale ++ bit1 sat ++ ef) acc 7 (cat_toNat_lt (0#23 ++ bit1 scale ++ bit1 sat) ef 2
      (cat_toNat_lt (0#23 ++ bit1 scale) (bit1 sat) 1 (ext_small (bit1 scale) rfl))),
    (extract_cat_lo (0#23 ++ bit1 scale ++ bit1 sat ++ ef) acc _ _ (by decide)).trans (extract_all _ _ rfl),
    (extract_cat_up (0#23 ++ bit1 scale ++ bit1 sat ++ ef) acc _ _ (by decide)).trans
      ((extract_cat_lo (0#23 ++ bit1 scale ++ bit1 sat) ef _ _ (by decide)).trans (extract_all _ _ rfl)), ?_, ?_⟩
  · refine (BitVec.getLsbD_append (x := 0#23 ++ bit1 scale ++ bit1 sat ++ ef) (y := acc)).trans ?_
    refine (BitVec.getLsbD_append (x := 0#23 ++ bit1 scale ++ bit1 sat) (y := ef)).trans ?_
    exact (BitVec.getLsbD_append (x := 0#23 ++ bit1 scale) (y := bit1 sat)).trans (bit1_getLsbD sat)
  · refine (BitVec.getLsbD_append (x := 0#23 ++ bit1 scale ++ bit1 sat ++ ef) (y := acc)).trans ?_
    refine (BitVec.getLsbD_append (x := 0#23 ++ bit1 scale ++ bit1 sat) (y := ef)).trans ?_
    refine (BitVec.getLsbD_append (x := 0#23 ++ bit1 scale) (y := bit1 sat)).trans ?_
    exact (BitVec.getLsbD_append (x := 0#23) (y := bit1 scale)).trans (bit1_getLsbD scale)
theorem ext_tcfg (chk tra int : Bool) (plog2 : BitVec 3) (width : BitVec 2) :
    (0#24 ++ bit1 chk ++ bit1 tra ++ plog2 ++ bit1 int ++ width : BitVec 32).toNat < 256 ∧
    (0#24 ++ bit1 chk ++ bit1 tra ++ plog2 ++ bit1 int ++ width : BitVec 32).extractLsb' 0 2 = width ∧
    (0#24 ++ bit1 chk ++ bit1 tra ++ plog2 ++ bit1 int ++ width : BitVec 32)[2] = int ∧
    (0#24 ++ bit1 chk ++ bit1 tra ++ plog2 ++ bit1 int ++ width : BitVec 32).extractLsb' 3 3 = plog2 ∧
    (0#24 ++ bit1 chk ++ bit1 tra ++ plog2 ++ bit1 int ++ width : BitVec 32)[6] = tra ∧
    (0#24 ++ bit1 chk ++ bit1 tra ++ plog2 ++ bit1 int ++ width : BitVec 32)[7] = chk := by
  have g1 (i) := BitVec.getLsbD_append (x := 0#24 ++ bit1 chk ++ bit1 tra ++ plog2 ++ bit1 int) (y := width) (i := i)
  have g2 (i) := BitVec.getLsbD_append (x := 0#24 ++ bit1 chk ++ bit1 tra ++ plog2) (y := bit1 int) (i := i)
  have g3 (i) := BitVec.getLsbD_append (x := 0#24 ++ bit1 chk ++ bit1 tra) (y := plog2) (i := i)
  have g4 (i) := BitVec.getLsbD_append (x := 0#24 ++ bit1 chk) (y := bit1 tra) (i := i)
  have g5 (i) := BitVec.getLsbD_append (x := 0#24) (y := bit1 chk) (i := i)
  refine ⟨cat_toNat_lt (0#24 ++ bit1 chk ++ bit1 tra ++ plog2 ++ bit1 int) width 6
      (cat_toNat_lt (0#24 ++ bit1 chk ++ bit1 tra ++ plog2) (bit1 int) 5 (cat_toNat_lt (0#24 ++ bit1 chk ++ bit1 tra) plog2 2
      (cat_toNat_lt (0#24 ++ bit1 chk) (bit1 tra) 1 (ext_small (bit1 chk) rfl)))),
    (extract_cat_lo (0#24 ++ bit1 chk ++ bit1 tra ++ plog2 ++ bit1 int) width _ _ (by decide)).trans (extract_all _ _ rfl),
    (g1 2).trans ((g2 0).trans (bit1_getLsbD int)),
    (extract_cat_up (0#24 ++ bit1 chk ++ bit1 tra ++ plog2 ++ bit1 int) width _ _ (by decide)).trans
      ((extract_cat_up (0#24 ++ bit1 chk ++ bit1 tra ++ plog2) (bit1 int) _ _ (by decide)).trans
        ((extract_cat_lo (0#24 ++ bit1 chk ++ bit1 tra) plog2 _ _ (by decide)).trans (extract_all _ _ rfl))),
    (g1 6).trans ((g2 4).trans ((g3 3).trans ((g4 0).trans (bit1_getLsbD tra)))),
    (g1 7).trans ((g2 5).trans ((g3 4).trans ((g4 1).trans ((g5 0).trans (bit1_getLsbD chk)))))⟩

theorem isLt32 (n : BitVec 32) : n.toNat < 4294967296 := n.isLt

/-! The major opcodes (R145, R141). -/

theorem decodeFields_dv {f : Fields} (h : f.opc = 0x0B#7) : decodeFields f = decodeV f := by simp [decodeFields, h]
theorem decodeFields_dm {f : Fields} (h : f.opc = 0x2B#7) : decodeFields f = decodeM f := by simp [decodeFields, h]
theorem decodeFields_ds {f : Fields} (h : f.opc = 0x5B#7) : decodeFields f = decodeS f := by simp [decodeFields, h]
theorem decodeFields_dc {f : Fields} (h : f.opc = 0x7B#7) : decodeFields f = decodeC f := by simp [decodeFields, h]
theorem decodeFields_system {f : Fields} (h : f.opc = 0x73#7) : decodeFields f = decodeSystem f := by
  simp [decodeFields, h]
theorem decodeFields_mem {f : Fields} (h : f.opc = 0x0F#7) : decodeFields f = decodeMiscMem f := by
  simp [decodeFields, h]
theorem decodeFields_amo {f : Fields} (h : f.opc = 0x2F#7) : decodeFields f = decodeAmo f := by simp [decodeFields, h]
theorem decodeFields_fp {f : Fields} (h : f.opc = 0x53#7) : decodeFields f = decodeFp f := by simp [decodeFields, h]
theorem decodeFields_imm {f : Fields} (h : f.opc = 0x13#7) : decodeFields f = decodeOpImm f := by
  simp [decodeFields, h]
theorem decodeFields_imm32 {f : Fields} (h : f.opc = 0x1B#7) : decodeFields f = decodeOpImm32 f := by
  simp [decodeFields, h]

/-! The base (R141). -/

theorem phint_join (l : BitVec 18) :
    l.extractLsb' 13 5 ++ l.extractLsb' 8 5 ++ l.extractLsb' 5 3 ++ l.extractLsb' 0 5 = l := by
  apply BitVec.eq_of_getLsbD_eq
  intro i hi
  refine (BitVec.getLsbD_append (x := l.extractLsb' 13 5 ++ l.extractLsb' 8 5 ++ l.extractLsb' 5 3)
    (y := l.extractLsb' 0 5)).trans ?_
  rw [BitVec.getLsbD_append (x := l.extractLsb' 13 5 ++ l.extractLsb' 8 5), BitVec.getLsbD_append]
  simp only [BitVec.getLsbD_extractLsb']
  split
  · simp [*]
  · split
    · rw [show decide (i - 5 < 3) = true from decide_eq_true (by omega), Bool.true_and]; congr 1; omega
    · split
      · rw [show decide (i - 5 - 3 < 5) = true from decide_eq_true (by omega), Bool.true_and]; congr 1; omega
      · rw [show decide (i - 5 - 3 - 5 < 5) = true from decide_eq_true (by omega), Bool.true_and]; congr 1; omega

theorem ext_phint (v x : BitVec 16) : (v ++ x : BitVec 32).extractLsb' 0 16 = x ∧ (v ++ x : BitVec 32).extractLsb' 16 16 = v :=
  ⟨(extract_cat_lo v x _ _ (by decide)).trans (extract_all _ _ rfl),
   (extract_cat_up v x _ _ (by decide)).trans (extract_all _ _ rfl)⟩

theorem amo_fields (o : BitVec 5) (aq rl : Bool) (rs2 rs1 rd : BitVec 5) (f3 : BitVec 3) (opc : BitVec 7) :
    Fields.op5 ⟨o ++ bit1 aq ++ bit1 rl, rs2, rs1, f3, rd, opc⟩ = o ∧
    (o ++ bit1 aq ++ bit1 rl : BitVec 7)[1] = aq ∧ (o ++ bit1 aq ++ bit1 rl : BitVec 7)[0] = rl :=
  ⟨(extract_cat_up (o ++ bit1 aq) (bit1 rl) _ _ (by decide)).trans
     ((extract_cat_up o (bit1 aq) _ _ (by decide)).trans (extract_all _ _ rfl)),
   (BitVec.getLsbD_append (x := o ++ bit1 aq) (y := bit1 rl)).trans
     ((BitVec.getLsbD_append (x := o) (y := bit1 aq)).trans (bit1_getLsbD aq)),
   (BitVec.getLsbD_append (x := o ++ bit1 aq) (y := bit1 rl)).trans (bit1_getLsbD rl)⟩

theorem fence_fields (fm p q : BitVec 4) :
    ((fm ++ p ++ q : BitVec 12).extractLsb' 5 7).extractLsb' 3 4 = fm ∧
    (fm ++ p ++ q : BitVec 12).extractLsb' 4 4 = p ∧ (fm ++ p ++ q : BitVec 12).extractLsb' 0 4 = q := by
  refine ⟨?_, (extract_cat_up (fm ++ p) q _ _ (by decide)).trans ((extract_cat_lo fm p _ _ (by decide)).trans
    (extract_all _ _ rfl)), (extract_cat_lo (fm ++ p) q _ _ (by decide)).trans (extract_all _ _ rfl)⟩
  have : ((fm ++ p ++ q : BitVec 12).extractLsb' 5 7).extractLsb' 3 4 = (fm ++ p ++ q : BitVec 12).extractLsb' 8 4 := by
    apply BitVec.eq_of_getLsbD_eq
    intro i hi
    simp only [BitVec.getLsbD_extractLsb', hi, decide_true, Bool.true_and,
      show decide (3 + i < 7) = true from decide_eq_true (by omega)]
    congr 1; omega
  rw [this]
  exact (extract_cat_up (fm ++ p) q _ _ (by decide)).trans ((extract_cat_up fm p _ _ (by decide)).trans (extract_all _ _ rfl))

theorem imm20_join (l : BitVec 20) :
    l.extractLsb' 13 7 ++ l.extractLsb' 8 5 ++ l.extractLsb' 3 5 ++ l.extractLsb' 0 3 = l := by
  apply BitVec.eq_of_getLsbD_eq
  intro i hi
  refine (BitVec.getLsbD_append (x := l.extractLsb' 13 7 ++ l.extractLsb' 8 5 ++ l.extractLsb' 3 5)
    (y := l.extractLsb' 0 3)).trans ?_
  rw [BitVec.getLsbD_append (x := l.extractLsb' 13 7 ++ l.extractLsb' 8 5), BitVec.getLsbD_append]
  simp only [BitVec.getLsbD_extractLsb']
  split
  · simp [*]
  · split
    · rw [show decide (i - 3 < 5) = true from decide_eq_true (by omega), Bool.true_and]; congr 1; omega
    · split
      · rw [show decide (i - 3 - 5 < 5) = true from decide_eq_true (by omega), Bool.true_and]; congr 1; omega
      · rw [show decide (i - 3 - 5 - 5 < 7) = true from decide_eq_true (by omega), Bool.true_and]; congr 1; omega

/-- A part of a part. -/
theorem extract_extract {n : Nat} (x : BitVec n) (s l s' l' : Nat) (h : s' + l' ≤ l) :
    (x.extractLsb' s l).extractLsb' s' l' = x.extractLsb' (s + s') l' := by
  apply BitVec.eq_of_getLsbD_eq
  intro i hi
  simp only [BitVec.getLsbD_extractLsb', hi, decide_true, Bool.true_and,
    show decide (s' + i < l) = true from decide_eq_true (by omega)]
  congr 1; omega

theorem immB_join (imm : BitVec 12) (rs2 rs1 : BitVec 5) (f3 : BitVec 3) (opc : BitVec 7) :
    Fields.immB ⟨imm.extractLsb' 11 1 ++ imm.extractLsb' 4 6, rs2, rs1, f3,
      imm.extractLsb' 0 4 ++ imm.extractLsb' 10 1, opc⟩ = imm := by
  have a1 : (imm.extractLsb' 11 1 ++ imm.extractLsb' 4 6 : BitVec 7).extractLsb' 6 1 = imm.extractLsb' 11 1 :=
    (extract_cat_up _ _ _ _ (by decide)).trans (extract_all _ _ rfl)
  have a2 : (imm.extractLsb' 11 1 ++ imm.extractLsb' 4 6 : BitVec 7).extractLsb' 0 6 = imm.extractLsb' 4 6 :=
    (extract_cat_lo _ _ _ _ (by decide)).trans (extract_all _ _ rfl)
  have a3 : (imm.extractLsb' 0 4 ++ imm.extractLsb' 10 1 : BitVec 5).extractLsb' 0 1 = imm.extractLsb' 10 1 :=
    (extract_cat_lo _ _ _ _ (by decide)).trans (extract_all _ _ rfl)
  have a4 : (imm.extractLsb' 0 4 ++ imm.extractLsb' 10 1 : BitVec 5).extractLsb' 1 4 = imm.extractLsb' 0 4 :=
    (extract_cat_up _ _ _ _ (by decide)).trans (extract_all _ _ rfl)
  unfold Fields.immB
  rw [a1, a2, a3, a4]
  apply BitVec.eq_of_getLsbD_eq
  intro i hi
  refine (BitVec.getLsbD_append (x := imm.extractLsb' 11 1 ++ imm.extractLsb' 10 1 ++ imm.extractLsb' 4 6)
    (y := imm.extractLsb' 0 4)).trans ?_
  rw [BitVec.getLsbD_append (x := imm.extractLsb' 11 1 ++ imm.extractLsb' 10 1), BitVec.getLsbD_append]
  simp only [BitVec.getLsbD_extractLsb']
  split
  · simp [*]
  · split
    · rw [show decide (i - 4 < 6) = true from decide_eq_true (by omega), Bool.true_and]; congr 1; omega
    · split
      · rw [show decide (i - 4 - 6 < 1) = true from decide_eq_true (by omega), Bool.true_and]; congr 1; omega
      · rw [show decide (i - 4 - 6 - 1 < 1) = true from decide_eq_true (by omega), Bool.true_and]; congr 1; omega

theorem immJ_join (imm : BitVec 20) (rd : BitVec 5) (opc : BitVec 7) :
    Fields.immJ ⟨imm.extractLsb' 19 1 ++ imm.extractLsb' 4 6, imm.extractLsb' 0 4 ++ imm.extractLsb' 10 1,
      imm.extractLsb' 14 5, imm.extractLsb' 11 3, rd, opc⟩ = imm := by
  have a1 : (imm.extractLsb' 19 1 ++ imm.extractLsb' 4 6 : BitVec 7).extractLsb' 6 1 = imm.extractLsb' 19 1 :=
    (extract_cat_up _ _ _ _ (by decide)).trans (extract_all _ _ rfl)
  have a2 : (imm.extractLsb' 19 1 ++ imm.extractLsb' 4 6 : BitVec 7).extractLsb' 0 6 = imm.extractLsb' 4 6 :=
    (extract_cat_lo _ _ _ _ (by decide)).trans (extract_all _ _ rfl)
  have a3 : (imm.extractLsb' 0 4 ++ imm.extractLsb' 10 1 : BitVec 5).extractLsb' 0 1 = imm.extractLsb' 10 1 :=
    (extract_cat_lo _ _ _ _ (by decide)).trans (extract_all _ _ rfl)
  have a4 : (imm.extractLsb' 0 4 ++ imm.extractLsb' 10 1 : BitVec 5).extractLsb' 1 4 = imm.extractLsb' 0 4 :=
    (extract_cat_up _ _ _ _ (by decide)).trans (extract_all _ _ rfl)
  unfold Fields.immJ
  rw [a1, a2, a3, a4]
  apply BitVec.eq_of_getLsbD_eq
  intro i hi
  refine (BitVec.getLsbD_append (x := imm.extractLsb' 19 1 ++ imm.extractLsb' 14 5 ++ imm.extractLsb' 11 3 ++
    imm.extractLsb' 10 1 ++ imm.extractLsb' 4 6) (y := imm.extractLsb' 0 4)).trans ?_
  rw [BitVec.getLsbD_append (x := imm.extractLsb' 19 1 ++ imm.extractLsb' 14 5 ++ imm.extractLsb' 11 3 ++
    imm.extractLsb' 10 1), BitVec.getLsbD_append (x := imm.extractLsb' 19 1 ++ imm.extractLsb' 14 5 ++
    imm.extractLsb' 11 3), BitVec.getLsbD_append (x := imm.extractLsb' 19 1 ++ imm.extractLsb' 14 5),
    BitVec.getLsbD_append]
  simp only [BitVec.getLsbD_extractLsb']
  split
  · simp [*]
  · split
    · rw [show decide (i - 4 < 6) = true from decide_eq_true (by omega), Bool.true_and]; congr 1; omega
    · split
      · rw [show decide (i - 4 - 6 < 1) = true from decide_eq_true (by omega), Bool.true_and]; congr 1; omega
      · split
        · rw [show decide (i - 4 - 6 - 1 < 3) = true from decide_eq_true (by omega), Bool.true_and]; congr 1; omega
        · split
          · rw [show decide (i - 4 - 6 - 1 - 3 < 5) = true from decide_eq_true (by omega), Bool.true_and]; congr 1; omega
          · rw [show decide (i - 4 - 6 - 1 - 3 - 5 < 1) = true from decide_eq_true (by omega), Bool.true_and]
            congr 1; omega

theorem sh_fields (c sh : BitVec 6) : (c ++ sh : BitVec 12).extractLsb' 6 6 = c ∧ (c ++ sh : BitVec 12).extractLsb' 0 6 = sh :=
  ⟨(extract_cat_up c sh _ _ (by decide)).trans (extract_all _ _ rfl),
   (extract_cat_lo c sh _ _ (by decide)).trans (extract_all _ _ rfl)⟩

theorem shW_fields (c : BitVec 7) (sh : BitVec 5) : (c ++ sh : BitVec 12).extractLsb' 6 6 = c.extractLsb' 1 6 :=
  extract_cat_up c sh _ _ (by decide)

/-- Decoding the encoding of a well-formed instruction gives the instruction (events of the part have no encoding). -/
def Laws.Encodes.Statement (i : Instr) : Prop :=
  ∀ e, i.wf = true → encode i = some e → decodeEnc e = some i

theorem Laws.Encodes.vadd : ∀ m ty vd vs1 vs2, Laws.Encodes.Statement (.vadd m ty vd vs1 vs2) := by
  intro m ty vd vs1 vs2 e hw he
  obtain rfl := Option.some.inj he
  rw [decodeEnc_w32, decodeFields_dv rfl]
  simp [decodeV, fields_op6, fields_m, laneTyOf_code, legal_of hw, lane_split, dst_code]

theorem Laws.Encodes.vsub : ∀ m ty vd vs1 vs2, Laws.Encodes.Statement (.vsub m ty vd vs1 vs2) := by
  intro m ty vd vs1 vs2 e hw he
  obtain rfl := Option.some.inj he
  rw [decodeEnc_w32, decodeFields_dv rfl]
  simp [decodeV, fields_op6, fields_m, laneTyOf_code, legal_of hw, lane_split, dst_code]

theorem Laws.Encodes.vmul : ∀ m ty vd vs1 vs2, Laws.Encodes.Statement (.vmul m ty vd vs1 vs2) := by
  intro m ty vd vs1 vs2 e hw he
  obtain rfl := Option.some.inj he
  rw [decodeEnc_w32, decodeFields_dv rfl]
  simp [decodeV, fields_op6, fields_m, laneTyOf_code, legal_of hw, lane_split, dst_code]

theorem Laws.Encodes.vmadd : ∀ m ty vd vs1 vs2, Laws.Encodes.Statement (.vmadd m ty vd vs1 vs2) := by
  intro m ty vd vs1 vs2 e hw he
  obtain rfl := Option.some.inj he
  rw [decodeEnc_w32, decodeFields_dv rfl]
  simp [decodeV, fields_op6, fields_m, laneTyOf_code, legal_of hw, lane_split, dst_code]

theorem Laws.Encodes.vmsub : ∀ m ty vd vs1 vs2, Laws.Encodes.Statement (.vmsub m ty vd vs1 vs2) := by
  intro m ty vd vs1 vs2 e hw he
  obtain rfl := Option.some.inj he
  rw [decodeEnc_w32, decodeFields_dv rfl]
  simp [decodeV, fields_op6, fields_m, laneTyOf_code, legal_of hw, lane_split, dst_code]

theorem Laws.Encodes.vmin : ∀ m ty vd vs1 vs2, Laws.Encodes.Statement (.vmin m ty vd vs1 vs2) := by
  intro m ty vd vs1 vs2 e hw he
  obtain rfl := Option.some.inj he
  rw [decodeEnc_w32, decodeFields_dv rfl]
  simp [decodeV, fields_op6, fields_m, laneTyOf_code, legal_of hw, lane_split, dst_code]

theorem Laws.Encodes.vmax : ∀ m ty vd vs1 vs2, Laws.Encodes.Statement (.vmax m ty vd vs1 vs2) := by
  intro m ty vd vs1 vs2 e hw he
  obtain rfl := Option.some.inj he
  rw [decodeEnc_w32, decodeFields_dv rfl]
  simp [decodeV, fields_op6, fields_m, laneTyOf_code, legal_of hw, lane_split, dst_code]

theorem Laws.Encodes.vabs : ∀ m ty vd vs1, Laws.Encodes.Statement (.vabs m ty vd vs1) := by
  intro m ty vd vs1 e hw he
  obtain rfl := Option.some.inj he
  rw [decodeEnc_w32, decodeFields_dv rfl]
  simp [decodeV, fields_op6, fields_m, laneTyOf_code, legal_of hw, lane_split, dst_code]

theorem Laws.Encodes.vneg : ∀ m ty vd vs1, Laws.Encodes.Statement (.vneg m ty vd vs1) := by
  intro m ty vd vs1 e hw he
  obtain rfl := Option.some.inj he
  rw [decodeEnc_w32, decodeFields_dv rfl]
  simp [decodeV, fields_op6, fields_m, laneTyOf_code, legal_of hw, lane_split, dst_code]

theorem Laws.Encodes.vand : ∀ m vd vs1 vs2, Laws.Encodes.Statement (.vand m vd vs1 vs2) := by
  intro m vd vs1 vs2 e hw he
  obtain rfl := Option.some.inj he
  rw [decodeEnc_w32, decodeFields_dv rfl]
  simp [decodeV, fields_op6, fields_m, laneTyOf_code, legal_of hw, lane_split, dst_code]

theorem Laws.Encodes.vor : ∀ m vd vs1 vs2, Laws.Encodes.Statement (.vor m vd vs1 vs2) := by
  intro m vd vs1 vs2 e hw he
  obtain rfl := Option.some.inj he
  rw [decodeEnc_w32, decodeFields_dv rfl]
  simp [decodeV, fields_op6, fields_m, laneTyOf_code, legal_of hw, lane_split, dst_code]

theorem Laws.Encodes.vxor : ∀ m vd vs1 vs2, Laws.Encodes.Statement (.vxor m vd vs1 vs2) := by
  intro m vd vs1 vs2 e hw he
  obtain rfl := Option.some.inj he
  rw [decodeEnc_w32, decodeFields_dv rfl]
  simp [decodeV, fields_op6, fields_m, laneTyOf_code, legal_of hw, lane_split, dst_code]

theorem Laws.Encodes.vnot : ∀ m vd vs1, Laws.Encodes.Statement (.vnot m vd vs1) := by
  intro m vd vs1 e hw he
  obtain rfl := Option.some.inj he
  rw [decodeEnc_w32, decodeFields_dv rfl]
  simp [decodeV, fields_op6, fields_m, laneTyOf_code, legal_of hw, lane_split, dst_code]

theorem Laws.Encodes.vsll : ∀ m vd vs1 vs2, Laws.Encodes.Statement (.vsll m vd vs1 vs2) := by
  intro m vd vs1 vs2 e hw he
  obtain rfl := Option.some.inj he
  rw [decodeEnc_w32, decodeFields_dv rfl]
  simp [decodeV, fields_op6, fields_m, laneTyOf_code, legal_of hw, lane_split, dst_code]

theorem Laws.Encodes.vsrl : ∀ m vd vs1 vs2, Laws.Encodes.Statement (.vsrl m vd vs1 vs2) := by
  intro m vd vs1 vs2 e hw he
  obtain rfl := Option.some.inj he
  rw [decodeEnc_w32, decodeFields_dv rfl]
  simp [decodeV, fields_op6, fields_m, laneTyOf_code, legal_of hw, lane_split, dst_code]

theorem Laws.Encodes.vsra : ∀ m vd vs1 vs2, Laws.Encodes.Statement (.vsra m vd vs1 vs2) := by
  intro m vd vs1 vs2 e hw he
  obtain rfl := Option.some.inj he
  rw [decodeEnc_w32, decodeFields_dv rfl]
  simp [decodeV, fields_op6, fields_m, laneTyOf_code, legal_of hw, lane_split, dst_code]

theorem Laws.Encodes.vcmpeq : ∀ m ty cond vs1 vs2, Laws.Encodes.Statement (.vcmpeq m ty cond vs1 vs2) := by
  intro m ty cond vs1 vs2 e hw he
  obtain rfl := Option.some.inj he
  rw [decodeEnc_w32, decodeFields_dv rfl]
  cases cond <;>
    simp [decodeV, fields_op6, fields_m, laneTyOf_code, legal_of hw, lane_split, dst_code]

theorem Laws.Encodes.vcmplt : ∀ m ty cond vs1 vs2, Laws.Encodes.Statement (.vcmplt m ty cond vs1 vs2) := by
  intro m ty cond vs1 vs2 e hw he
  obtain rfl := Option.some.inj he
  rw [decodeEnc_w32, decodeFields_dv rfl]
  cases cond <;>
    simp [decodeV, fields_op6, fields_m, laneTyOf_code, legal_of hw, lane_split, dst_code]

theorem Laws.Encodes.vcmple : ∀ m ty cond vs1 vs2, Laws.Encodes.Statement (.vcmple m ty cond vs1 vs2) := by
  intro m ty cond vs1 vs2 e hw he
  obtain rfl := Option.some.inj he
  rw [decodeEnc_w32, decodeFields_dv rfl]
  cases cond <;>
    simp [decodeV, fields_op6, fields_m, laneTyOf_code, legal_of hw, lane_split, dst_code]

theorem Laws.Encodes.vsel : ∀ m vd vs1 vs2, Laws.Encodes.Statement (.vsel m vd vs1 vs2) := by
  intro m vd vs1 vs2 e hw he
  obtain rfl := Option.some.inj he
  rw [decodeEnc_w32, decodeFields_dv rfl]
  simp [decodeV, fields_op6, fields_m, laneTyOf_code, legal_of hw, lane_split, dst_code]

theorem Laws.Encodes.vrcp : ∀ m vd vs1, Laws.Encodes.Statement (.vrcp m vd vs1) := by
  intro m vd vs1 e hw he
  obtain rfl := Option.some.inj he
  rw [decodeEnc_w32, decodeFields_dv rfl]
  simp [decodeV, fields_op6, fields_m, laneTyOf_code, legal_of hw, lane_split, dst_code]

theorem Laws.Encodes.vrsq : ∀ m vd vs1, Laws.Encodes.Statement (.vrsq m vd vs1) := by
  intro m vd vs1 e hw he
  obtain rfl := Option.some.inj he
  rw [decodeEnc_w32, decodeFields_dv rfl]
  simp [decodeV, fields_op6, fields_m, laneTyOf_code, legal_of hw, lane_split, dst_code]

theorem Laws.Encodes.vexp2 : ∀ m vd vs1, Laws.Encodes.Statement (.vexp2 m vd vs1) := by
  intro m vd vs1 e hw he
  obtain rfl := Option.some.inj he
  rw [decodeEnc_w32, decodeFields_dv rfl]
  simp [decodeV, fields_op6, fields_m, laneTyOf_code, legal_of hw, lane_split, dst_code]

theorem Laws.Encodes.vlog2 : ∀ m vd vs1, Laws.Encodes.Statement (.vlog2 m vd vs1) := by
  intro m vd vs1 e hw he
  obtain rfl := Option.some.inj he
  rw [decodeEnc_w32, decodeFields_dv rfl]
  simp [decodeV, fields_op6, fields_m, laneTyOf_code, legal_of hw, lane_split, dst_code]

theorem Laws.Encodes.vcvtToLaneType : ∀ m ty vd vs1 ef, Laws.Encodes.Statement (.vcvtToLaneType m ty vd vs1 ef) := by
  intro m ty vd vs1 ef e hw he
  obtain rfl := Option.some.inj he
  rw [decodeEnc_w32, decodeFields_dv rfl]
  simp [decodeV, fields_op6, fields_m, laneTyOf_code, legal_of hw, lane_split, dst_code]

theorem Laws.Encodes.vcvtToNarrow : ∀ m ty vd vs1 ef, Laws.Encodes.Statement (.vcvtToNarrow m ty vd vs1 ef) := by
  intro m ty vd vs1 ef e hw he
  obtain rfl := Option.some.inj he
  rw [decodeEnc_w32, decodeFields_dv rfl]
  simp [decodeV, fields_op6, fields_m, laneTyOf_code, legal_of hw, lane_split, dst_code]

theorem Laws.Encodes.vcvtToNarrowSat : ∀ m ty vd vs1 ef, Laws.Encodes.Statement (.vcvtToNarrowSat m ty vd vs1 ef) := by
  intro m ty vd vs1 ef e hw he
  obtain rfl := Option.some.inj he
  rw [decodeEnc_w32, decodeFields_dv rfl]
  simp [decodeV, fields_op6, fields_m, laneTyOf_code, legal_of hw, lane_split, dst_code]

theorem Laws.Encodes.vquant : ∀ m q vd vs1 rs2, Laws.Encodes.Statement (.vquant m q vd vs1 rs2) := by
  intro m q vd vs1 rs2 e hw he
  obtain rfl := Option.some.inj he
  rw [decodeEnc_w32, decodeFields_dv rfl]
  simp [decodeV, fields_op6, fields_m, laneTyOf_code, legal_of hw, lane_split, dst_code]

theorem Laws.Encodes.vdequant : ∀ m vd vs1, Laws.Encodes.Statement (.vdequant m vd vs1) := by
  intro m vd vs1 e hw he
  obtain rfl := Option.some.inj he
  rw [decodeEnc_w32, decodeFields_dv rfl]
  simp [decodeV, fields_op6, fields_m, laneTyOf_code, legal_of hw, lane_split, dst_code]

theorem Laws.Encodes.vamax : ∀ m vd vs1, Laws.Encodes.Statement (.vamax m vd vs1) := by
  intro m vd vs1 e hw he
  obtain rfl := Option.some.inj he
  rw [decodeEnc_w32, decodeFields_dv rfl]
  simp [decodeV, fields_op6, fields_m, laneTyOf_code, legal_of hw, lane_split, dst_code]

theorem Laws.Encodes.vredsum : ∀ m ty vd vs1, Laws.Encodes.Statement (.vredsum m ty vd vs1) := by
  intro m ty vd vs1 e hw he
  obtain rfl := Option.some.inj he
  rw [decodeEnc_w32, decodeFields_dv rfl]
  simp [decodeV, fields_op6, fields_m, laneTyOf_code, legal_of hw, lane_split, dst_code]

theorem Laws.Encodes.vredmax : ∀ m ty vd vs1, Laws.Encodes.Statement (.vredmax m ty vd vs1) := by
  intro m ty vd vs1 e hw he
  obtain rfl := Option.some.inj he
  rw [decodeEnc_w32, decodeFields_dv rfl]
  simp [decodeV, fields_op6, fields_m, laneTyOf_code, legal_of hw, lane_split, dst_code]

theorem Laws.Encodes.vredmin : ∀ m ty vd vs1, Laws.Encodes.Statement (.vredmin m ty vd vs1) := by
  intro m ty vd vs1 e hw he
  obtain rfl := Option.some.inj he
  rw [decodeEnc_w32, decodeFields_dv rfl]
  simp [decodeV, fields_op6, fields_m, laneTyOf_code, legal_of hw, lane_split, dst_code]

theorem Laws.Encodes.vbcast : ∀ m vd rs1, Laws.Encodes.Statement (.vbcast m vd rs1) := by
  intro m vd rs1 e hw he
  obtain rfl := Option.some.inj he
  rw [decodeEnc_w32, decodeFields_dv rfl]
  simp [decodeV, fields_op6, fields_m, laneTyOf_code, legal_of hw, lane_split, dst_code]

theorem Laws.Encodes.vextr : ∀ m rd vs1 lane, Laws.Encodes.Statement (.vextr m rd vs1 lane) := by
  intro m rd vs1 lane e hw he
  obtain rfl := Option.some.inj he
  rw [decodeEnc_w32, decodeFields_dv rfl]
  simp [decodeV, fields_op6, fields_m, laneTyOf_code, legal_of hw, lane_split, dst_code]

theorem Laws.Encodes.vins : ∀ m vd rs1 lane, Laws.Encodes.Statement (.vins m vd rs1 lane) := by
  intro m vd rs1 lane e hw he
  obtain rfl := Option.some.inj he
  rw [decodeEnc_w32, decodeFields_dv rfl]
  simp [decodeV, fields_op6, fields_m, laneTyOf_code, legal_of hw, lane_split, dst_code]

theorem Laws.Encodes.vperm : ∀ m vd vs1 vs2, Laws.Encodes.Statement (.vperm m vd vs1 vs2) := by
  intro m vd vs1 vs2 e hw he
  obtain rfl := Option.some.inj he
  rw [decodeEnc_w32, decodeFields_dv rfl]
  simp [decodeV, fields_op6, fields_m, laneTyOf_code, legal_of hw, lane_split, dst_code]

theorem Laws.Encodes.vslide : ∀ m vd vs1 n, Laws.Encodes.Statement (.vslide m vd vs1 n) := by
  intro m vd vs1 n e hw he
  obtain rfl := Option.some.inj he
  rw [decodeEnc_w32, decodeFields_dv rfl]
  simp [decodeV, fields_op6, fields_m, laneTyOf_code, legal_of hw, lane_split, dst_code]

theorem Laws.Encodes.vzip : ∀ m vd vs1 vs2, Laws.Encodes.Statement (.vzip m vd vs1 vs2) := by
  intro m vd vs1 vs2 e hw he
  obtain rfl := Option.some.inj he
  rw [decodeEnc_w32, decodeFields_dv rfl]
  simp [decodeV, fields_op6, fields_m, laneTyOf_code, legal_of hw, lane_split, dst_code]

theorem Laws.Encodes.vunzip : ∀ m vd vs1 vs2, Laws.Encodes.Statement (.vunzip m vd vs1 vs2) := by
  intro m vd vs1 vs2 e hw he
  obtain rfl := Option.some.inj he
  rw [decodeEnc_w32, decodeFields_dv rfl]
  simp [decodeV, fields_op6, fields_m, laneTyOf_code, legal_of hw, lane_split, dst_code]

theorem Laws.Encodes.vmov : ∀ m vd vs1, Laws.Encodes.Statement (.vmov m vd vs1) := by
  intro m vd vs1 e hw he
  obtain rfl := Option.some.inj he
  rw [decodeEnc_w32, decodeFields_dv rfl]
  simp [decodeV, fields_op6, fields_m, laneTyOf_code, legal_of hw, lane_split, dst_code]

theorem Laws.Encodes.lrx : ∀ w rd rs1 off, Laws.Encodes.Statement (.lrx w rd rs1 off) := by
  intro w rd rs1 off e hw he
  obtain rfl := Option.some.inj he
  rw [decodeEnc_w32, decodeFields_dm rfl]
  simp [decodeM, fields_op5, fields_xw, fields_off7, lrxWOf_code, rx_code, srx_code, width_join]

theorem Laws.Encodes.srx : ∀ w rt rs1 off, Laws.Encodes.Statement (.srx w rt rs1 off) := by
  intro w rt rs1 off e hw he
  obtain rfl := Option.some.inj he
  rw [decodeEnc_w32, decodeFields_dm rfl]
  simp [decodeM, fields_op5, fields_xw, fields_off7, lrxWOf_code, rx_code, srx_code, width_join]

theorem Laws.Encodes.vld : ∀ rx v rs1 off, Laws.Encodes.Statement (.vld rx v rs1 off) := by
  intro rx v rs1 off e hw he
  obtain rfl := Option.some.inj he
  rw [decodeEnc_w32, decodeFields_dm rfl]
  cases rx <;>
    simp [decodeM, fields_op5, fields_xw, fields_off7, lrxWOf_code, rx_code, srx_code, width_join]

theorem Laws.Encodes.vst : ∀ rx v rs1 off, Laws.Encodes.Statement (.vst rx v rs1 off) := by
  intro rx v rs1 off e hw he
  obtain rfl := Option.some.inj he
  rw [decodeEnc_w32, decodeFields_dm rfl]
  cases rx <;>
    simp [decodeM, fields_op5, fields_xw, fields_off7, lrxWOf_code, rx_code, srx_code, width_join]

theorem Laws.Encodes.vlds : ∀ rx v rs1 rs2, Laws.Encodes.Statement (.vlds rx v rs1 rs2) := by
  intro rx v rs1 rs2 e hw he
  obtain rfl := Option.some.inj he
  rw [decodeEnc_w32, decodeFields_dm rfl]
  cases rx <;> simp [decodeM, Fields.op5, Fields.xw, bit1]

theorem Laws.Encodes.vsts : ∀ rx v rs1 rs2, Laws.Encodes.Statement (.vsts rx v rs1 rs2) := by
  intro rx v rs1 rs2 e hw he
  obtain rfl := Option.some.inj he
  rw [decodeEnc_w32, decodeFields_dm rfl]
  cases rx <;> simp [decodeM, Fields.op5, Fields.xw, bit1]

theorem Laws.Encodes.vldx : ∀ rx v rs1 vs2, Laws.Encodes.Statement (.vldx rx v rs1 vs2) := by
  intro rx v rs1 vs2 e hw he
  obtain rfl := Option.some.inj he
  rw [decodeEnc_w32, decodeFields_dm rfl]
  cases rx <;> simp [decodeM, Fields.op5, Fields.xw, bit1]

theorem Laws.Encodes.vstx : ∀ rx v rs1 vs2, Laws.Encodes.Statement (.vstx rx v rs1 vs2) := by
  intro rx v rs1 vs2 e hw he
  obtain rfl := Option.some.inj he
  rw [decodeEnc_w32, decodeFields_dm rfl]
  cases rx <;> simp [decodeM, Fields.op5, Fields.xw, bit1]

theorem Laws.Encodes.vldl : ∀ vd rs1 off seg, Laws.Encodes.Statement (.vldl vd rs1 off seg) := by
  intro vd rs1 off seg e hw he
  obtain rfl := Option.some.inj he
  rw [decodeEnc_w32, decodeFields_dm rfl]
  simp [decodeM, fields_op5, fields_xw, fields_off7, lrxWOf_code, rx_code, srx_code, width_join]

theorem Laws.Encodes.ldbit : ∀ r rs1 rs2 w, Laws.Encodes.Statement (.ldbit r rs1 rs2 w) := by
  intro r rs1 rs2 w e hw he
  obtain rfl := Option.some.inj he
  rw [decodeEnc_w32, decodeFields_dm rfl]
  simp [decodeM, fields_op5, fields_xw, fields_off7, lrxWOf_code, rx_code, srx_code, width_join]

theorem Laws.Encodes.stbit : ∀ r rs1 rs2 w, Laws.Encodes.Statement (.stbit r rs1 rs2 w) := by
  intro r rs1 rs2 w e hw he
  obtain rfl := Option.some.inj he
  rw [decodeEnc_w32, decodeFields_dm rfl]
  simp [decodeM, fields_op5, fields_xw, fields_off7, lrxWOf_code, rx_code, srx_code, width_join]

theorem Laws.Encodes.vldbit : ∀ r rs1 rs2 w, Laws.Encodes.Statement (.vldbit r rs1 rs2 w) := by
  intro r rs1 rs2 w e hw he
  obtain rfl := Option.some.inj he
  rw [decodeEnc_w32, decodeFields_dm rfl]
  simp [decodeM, fields_op5, fields_xw, fields_off7, lrxWOf_code, rx_code, srx_code, width_join]

theorem Laws.Encodes.vstbit : ∀ r rs1 rs2 w, Laws.Encodes.Statement (.vstbit r rs1 rs2 w) := by
  intro r rs1 rs2 w e hw he
  obtain rfl := Option.some.inj he
  rw [decodeEnc_w32, decodeFields_dm rfl]
  simp [decodeM, fields_op5, fields_xw, fields_off7, lrxWOf_code, rx_code, srx_code, width_join]

theorem Laws.Encodes.ldtag : ∀ r rs1 off, Laws.Encodes.Statement (.ldtag r rs1 off) := by
  intro r rs1 off e hw he
  obtain rfl := Option.some.inj he
  rw [decodeEnc_w32, decodeFields_dm rfl]
  simp [decodeM, fields_op5, fields_xw, fields_off7, lrxWOf_code, rx_code, srx_code, width_join]

theorem Laws.Encodes.sttag : ∀ r rs1 off, Laws.Encodes.Statement (.sttag r rs1 off) := by
  intro r rs1 off e hw he
  obtain rfl := Option.some.inj he
  rw [decodeEnc_w32, decodeFields_dm rfl]
  simp [decodeM, fields_op5, fields_xw, fields_off7, lrxWOf_code, rx_code, srx_code, width_join]

theorem Laws.Encodes.fenceS : ∀ sc, Laws.Encodes.Statement (.fenceS sc) := by
  intro sc e hw he
  obtain rfl := Option.some.inj he
  rw [decodeEnc_w32, decodeFields_ds rfl]
  simp [decodeS, scopeOf_code, legal_of hw]

theorem Laws.Encodes.ldAqB : ∀ sc rd rs1, Laws.Encodes.Statement (.ldAqB sc rd rs1) := by
  intro sc rd rs1 e hw he
  obtain rfl := Option.some.inj he
  rw [decodeEnc_w32, decodeFields_ds rfl]
  simp [decodeS, scopeOf_code, legal_of hw]

theorem Laws.Encodes.ldAqH : ∀ sc rd rs1, Laws.Encodes.Statement (.ldAqH sc rd rs1) := by
  intro sc rd rs1 e hw he
  obtain rfl := Option.some.inj he
  rw [decodeEnc_w32, decodeFields_ds rfl]
  simp [decodeS, scopeOf_code, legal_of hw]

theorem Laws.Encodes.ldAqW : ∀ sc rd rs1, Laws.Encodes.Statement (.ldAqW sc rd rs1) := by
  intro sc rd rs1 e hw he
  obtain rfl := Option.some.inj he
  rw [decodeEnc_w32, decodeFields_ds rfl]
  simp [decodeS, scopeOf_code, legal_of hw]

theorem Laws.Encodes.ldAqD : ∀ sc rd rs1, Laws.Encodes.Statement (.ldAqD sc rd rs1) := by
  intro sc rd rs1 e hw he
  obtain rfl := Option.some.inj he
  rw [decodeEnc_w32, decodeFields_ds rfl]
  simp [decodeS, scopeOf_code, legal_of hw]

theorem Laws.Encodes.stRlB : ∀ sc rs2 rs1, Laws.Encodes.Statement (.stRlB sc rs2 rs1) := by
  intro sc rs2 rs1 e hw he
  obtain rfl := Option.some.inj he
  rw [decodeEnc_w32, decodeFields_ds rfl]
  simp [decodeS, scopeOf_code, legal_of hw]

theorem Laws.Encodes.stRlH : ∀ sc rs2 rs1, Laws.Encodes.Statement (.stRlH sc rs2 rs1) := by
  intro sc rs2 rs1 e hw he
  obtain rfl := Option.some.inj he
  rw [decodeEnc_w32, decodeFields_ds rfl]
  simp [decodeS, scopeOf_code, legal_of hw]

theorem Laws.Encodes.stRlW : ∀ sc rs2 rs1, Laws.Encodes.Statement (.stRlW sc rs2 rs1) := by
  intro sc rs2 rs1 e hw he
  obtain rfl := Option.some.inj he
  rw [decodeEnc_w32, decodeFields_ds rfl]
  simp [decodeS, scopeOf_code, legal_of hw]

theorem Laws.Encodes.stRlD : ∀ sc rs2 rs1, Laws.Encodes.Statement (.stRlD sc rs2 rs1) := by
  intro sc rs2 rs1 e hw he
  obtain rfl := Option.some.inj he
  rw [decodeEnc_w32, decodeFields_ds rfl]
  simp [decodeS, scopeOf_code, legal_of hw]

theorem Laws.Encodes.baddW : ∀ sc rd rs1 rs2, Laws.Encodes.Statement (.baddW sc rd rs1 rs2) := by
  intro sc rd rs1 rs2 e hw he
  obtain rfl := Option.some.inj he
  rw [decodeEnc_w32, decodeFields_ds rfl]
  simp [decodeS, scopeOf_code, legal_of hw]

theorem Laws.Encodes.baddD : ∀ sc rd rs1 rs2, Laws.Encodes.Statement (.baddD sc rd rs1 rs2) := by
  intro sc rd rs1 rs2 e hw he
  obtain rfl := Option.some.inj he
  rw [decodeEnc_w32, decodeFields_ds rfl]
  simp [decodeS, scopeOf_code, legal_of hw]

theorem Laws.Encodes.bfadd : ∀ sc rd rs1 rs2, Laws.Encodes.Statement (.bfadd sc rd rs1 rs2) := by
  intro sc rd rs1 rs2 e hw he
  obtain rfl := Option.some.inj he
  rw [decodeEnc_w32, decodeFields_ds rfl]
  simp [decodeS, scopeOf_code, legal_of hw]

theorem Laws.Encodes.bminW : ∀ sc rd rs1 rs2, Laws.Encodes.Statement (.bminW sc rd rs1 rs2) := by
  intro sc rd rs1 rs2 e hw he
  obtain rfl := Option.some.inj he
  rw [decodeEnc_w32, decodeFields_ds rfl]
  simp [decodeS, scopeOf_code, legal_of hw]

theorem Laws.Encodes.bminD : ∀ sc rd rs1 rs2, Laws.Encodes.Statement (.bminD sc rd rs1 rs2) := by
  intro sc rd rs1 rs2 e hw he
  obtain rfl := Option.some.inj he
  rw [decodeEnc_w32, decodeFields_ds rfl]
  simp [decodeS, scopeOf_code, legal_of hw]

theorem Laws.Encodes.bminWu : ∀ sc rd rs1 rs2, Laws.Encodes.Statement (.bminWu sc rd rs1 rs2) := by
  intro sc rd rs1 rs2 e hw he
  obtain rfl := Option.some.inj he
  rw [decodeEnc_w32, decodeFields_ds rfl]
  simp [decodeS, scopeOf_code, legal_of hw]

theorem Laws.Encodes.bminDu : ∀ sc rd rs1 rs2, Laws.Encodes.Statement (.bminDu sc rd rs1 rs2) := by
  intro sc rd rs1 rs2 e hw he
  obtain rfl := Option.some.inj he
  rw [decodeEnc_w32, decodeFields_ds rfl]
  simp [decodeS, scopeOf_code, legal_of hw]

theorem Laws.Encodes.bmaxW : ∀ sc rd rs1 rs2, Laws.Encodes.Statement (.bmaxW sc rd rs1 rs2) := by
  intro sc rd rs1 rs2 e hw he
  obtain rfl := Option.some.inj he
  rw [decodeEnc_w32, decodeFields_ds rfl]
  simp [decodeS, scopeOf_code, legal_of hw]

theorem Laws.Encodes.bmaxD : ∀ sc rd rs1 rs2, Laws.Encodes.Statement (.bmaxD sc rd rs1 rs2) := by
  intro sc rd rs1 rs2 e hw he
  obtain rfl := Option.some.inj he
  rw [decodeEnc_w32, decodeFields_ds rfl]
  simp [decodeS, scopeOf_code, legal_of hw]

theorem Laws.Encodes.bmaxWu : ∀ sc rd rs1 rs2, Laws.Encodes.Statement (.bmaxWu sc rd rs1 rs2) := by
  intro sc rd rs1 rs2 e hw he
  obtain rfl := Option.some.inj he
  rw [decodeEnc_w32, decodeFields_ds rfl]
  simp [decodeS, scopeOf_code, legal_of hw]

theorem Laws.Encodes.bmaxDu : ∀ sc rd rs1 rs2, Laws.Encodes.Statement (.bmaxDu sc rd rs1 rs2) := by
  intro sc rd rs1 rs2 e hw he
  obtain rfl := Option.some.inj he
  rw [decodeEnc_w32, decodeFields_ds rfl]
  simp [decodeS, scopeOf_code, legal_of hw]

theorem Laws.Encodes.bfmin : ∀ sc rd rs1 rs2, Laws.Encodes.Statement (.bfmin sc rd rs1 rs2) := by
  intro sc rd rs1 rs2 e hw he
  obtain rfl := Option.some.inj he
  rw [decodeEnc_w32, decodeFields_ds rfl]
  simp [decodeS, scopeOf_code, legal_of hw]

theorem Laws.Encodes.bfmax : ∀ sc rd rs1 rs2, Laws.Encodes.Statement (.bfmax sc rd rs1 rs2) := by
  intro sc rd rs1 rs2 e hw he
  obtain rfl := Option.some.inj he
  rw [decodeEnc_w32, decodeFields_ds rfl]
  simp [decodeS, scopeOf_code, legal_of hw]

theorem Laws.Encodes.bxchgW : ∀ sc rd rs1 rs2, Laws.Encodes.Statement (.bxchgW sc rd rs1 rs2) := by
  intro sc rd rs1 rs2 e hw he
  obtain rfl := Option.some.inj he
  rw [decodeEnc_w32, decodeFields_ds rfl]
  simp [decodeS, scopeOf_code, legal_of hw]

theorem Laws.Encodes.bxchgD : ∀ sc rd rs1 rs2, Laws.Encodes.Statement (.bxchgD sc rd rs1 rs2) := by
  intro sc rd rs1 rs2 e hw he
  obtain rfl := Option.some.inj he
  rw [decodeEnc_w32, decodeFields_ds rfl]
  simp [decodeS, scopeOf_code, legal_of hw]

theorem Laws.Encodes.bcasW : ∀ sc rd rs1 rs2, Laws.Encodes.Statement (.bcasW sc rd rs1 rs2) := by
  intro sc rd rs1 rs2 e hw he
  obtain rfl := Option.some.inj he
  rw [decodeEnc_w32, decodeFields_ds rfl]
  simp [decodeS, scopeOf_code, legal_of hw]

theorem Laws.Encodes.bcasD : ∀ sc rd rs1 rs2, Laws.Encodes.Statement (.bcasD sc rd rs1 rs2) := by
  intro sc rd rs1 rs2 e hw he
  obtain rfl := Option.some.inj he
  rw [decodeEnc_w32, decodeFields_ds rfl]
  simp [decodeS, scopeOf_code, legal_of hw]

theorem Laws.Encodes.bvredAddI32 : ∀ sc rd rs1 rs2, Laws.Encodes.Statement (.bvredAddI32 sc rd rs1 rs2) := by
  intro sc rd rs1 rs2 e hw he
  obtain rfl := Option.some.inj he
  rw [decodeEnc_w32, decodeFields_ds rfl]
  simp [decodeS, scopeOf_code, legal_of hw]

theorem Laws.Encodes.bvredAddF32 : ∀ sc rd rs1 rs2, Laws.Encodes.Statement (.bvredAddF32 sc rd rs1 rs2) := by
  intro sc rd rs1 rs2 e hw he
  obtain rfl := Option.some.inj he
  rw [decodeEnc_w32, decodeFields_ds rfl]
  simp [decodeS, scopeOf_code, legal_of hw]

theorem Laws.Encodes.bvredMinI32 : ∀ sc rd rs1 rs2, Laws.Encodes.Statement (.bvredMinI32 sc rd rs1 rs2) := by
  intro sc rd rs1 rs2 e hw he
  obtain rfl := Option.some.inj he
  rw [decodeEnc_w32, decodeFields_ds rfl]
  simp [decodeS, scopeOf_code, legal_of hw]

theorem Laws.Encodes.bvredMinF32 : ∀ sc rd rs1 rs2, Laws.Encodes.Statement (.bvredMinF32 sc rd rs1 rs2) := by
  intro sc rd rs1 rs2 e hw he
  obtain rfl := Option.some.inj he
  rw [decodeEnc_w32, decodeFields_ds rfl]
  simp [decodeS, scopeOf_code, legal_of hw]

theorem Laws.Encodes.bvredMaxI32 : ∀ sc rd rs1 rs2, Laws.Encodes.Statement (.bvredMaxI32 sc rd rs1 rs2) := by
  intro sc rd rs1 rs2 e hw he
  obtain rfl := Option.some.inj he
  rw [decodeEnc_w32, decodeFields_ds rfl]
  simp [decodeS, scopeOf_code, legal_of hw]

theorem Laws.Encodes.bvredMaxF32 : ∀ sc rd rs1 rs2, Laws.Encodes.Statement (.bvredMaxF32 sc rd rs1 rs2) := by
  intro sc rd rs1 rs2 e hw he
  obtain rfl := Option.some.inj he
  rw [decodeEnc_w32, decodeFields_ds rfl]
  simp [decodeS, scopeOf_code, legal_of hw]

theorem Laws.Encodes.bqenq : ∀ sc rd rs1 rs2, Laws.Encodes.Statement (.bqenq sc rd rs1 rs2) := by
  intro sc rd rs1 rs2 e hw he
  obtain rfl := Option.some.inj he
  rw [decodeEnc_w32, decodeFields_ds rfl]
  simp [decodeS, scopeOf_code, legal_of hw]

theorem Laws.Encodes.bqdeq : ∀ sc rd rs1, Laws.Encodes.Statement (.bqdeq sc rd rs1) := by
  intro sc rd rs1 e hw he
  obtain rfl := Option.some.inj he
  rw [decodeEnc_w32, decodeFields_ds rfl]
  simp [decodeS, scopeOf_code, legal_of hw]

theorem Laws.Encodes.bqlen : ∀ sc rd rs1, Laws.Encodes.Statement (.bqlen sc rd rs1) := by
  intro sc rd rs1 e hw he
  obtain rfl := Option.some.inj he
  rw [decodeEnc_w32, decodeFields_ds rfl]
  simp [decodeS, scopeOf_code, legal_of hw]

theorem Laws.Encodes.bar : ∀ sc rd rs1, Laws.Encodes.Statement (.bar sc rd rs1) := by
  intro sc rd rs1 e hw he
  obtain rfl := Option.some.inj he
  rw [decodeEnc_w32, decodeFields_ds rfl]
  simp [decodeS, scopeOf_code, legal_of hw]

theorem Laws.Encodes.barrive : ∀ sc rd rs1, Laws.Encodes.Statement (.barrive sc rd rs1) := by
  intro sc rd rs1 e hw he
  obtain rfl := Option.some.inj he
  rw [decodeEnc_w32, decodeFields_ds rfl]
  simp [decodeS, scopeOf_code, legal_of hw]

theorem Laws.Encodes.bwait : ∀ rd rs1, Laws.Encodes.Statement (.bwait rd rs1) := by
  intro rd rs1 e hw he
  obtain rfl := Option.some.inj he
  rw [decodeEnc_w32, decodeFields_ds rfl]
  simp [decodeS, scopeOf_code, legal_of hw]

theorem Laws.Encodes.barcSumI32 : ∀ sc rd rs1 rs2, Laws.Encodes.Statement (.barcSumI32 sc rd rs1 rs2) := by
  intro sc rd rs1 rs2 e hw he
  obtain rfl := Option.some.inj he
  rw [decodeEnc_w32, decodeFields_ds rfl]
  simp [decodeS, scopeOf_code, legal_of hw]

theorem Laws.Encodes.barcSumF32 : ∀ sc rd rs1 rs2, Laws.Encodes.Statement (.barcSumF32 sc rd rs1 rs2) := by
  intro sc rd rs1 rs2 e hw he
  obtain rfl := Option.some.inj he
  rw [decodeEnc_w32, decodeFields_ds rfl]
  simp [decodeS, scopeOf_code, legal_of hw]

theorem Laws.Encodes.barcMinI32 : ∀ sc rd rs1 rs2, Laws.Encodes.Statement (.barcMinI32 sc rd rs1 rs2) := by
  intro sc rd rs1 rs2 e hw he
  obtain rfl := Option.some.inj he
  rw [decodeEnc_w32, decodeFields_ds rfl]
  simp [decodeS, scopeOf_code, legal_of hw]

theorem Laws.Encodes.barcMinF32 : ∀ sc rd rs1 rs2, Laws.Encodes.Statement (.barcMinF32 sc rd rs1 rs2) := by
  intro sc rd rs1 rs2 e hw he
  obtain rfl := Option.some.inj he
  rw [decodeEnc_w32, decodeFields_ds rfl]
  simp [decodeS, scopeOf_code, legal_of hw]

theorem Laws.Encodes.barcMaxI32 : ∀ sc rd rs1 rs2, Laws.Encodes.Statement (.barcMaxI32 sc rd rs1 rs2) := by
  intro sc rd rs1 rs2 e hw he
  obtain rfl := Option.some.inj he
  rw [decodeEnc_w32, decodeFields_ds rfl]
  simp [decodeS, scopeOf_code, legal_of hw]

theorem Laws.Encodes.barcMaxF32 : ∀ sc rd rs1 rs2, Laws.Encodes.Statement (.barcMaxF32 sc rd rs1 rs2) := by
  intro sc rd rs1 rs2 e hw he
  obtain rfl := Option.some.inj he
  rw [decodeEnc_w32, decodeFields_ds rfl]
  simp [decodeS, scopeOf_code, legal_of hw]

theorem Laws.Encodes.barmax : ∀ sc rd rs1 rs2, Laws.Encodes.Statement (.barmax sc rd rs1 rs2) := by
  intro sc rd rs1 rs2 e hw he
  obtain rfl := Option.some.inj he
  rw [decodeEnc_w32, decodeFields_ds rfl]
  simp [decodeS, scopeOf_code, legal_of hw]

theorem Laws.Encodes.fwait : ∀ rs1, Laws.Encodes.Statement (.fwait rs1) := by
  intro rs1 e hw he
  obtain rfl := Option.some.inj he
  rw [decodeEnc_w32, decodeFields_ds rfl]
  simp [decodeS, scopeOf_code, legal_of hw]

theorem Laws.Encodes.ftest : ∀ rd rs1, Laws.Encodes.Statement (.ftest rd rs1) := by
  intro rd rs1 e hw he
  obtain rfl := Option.some.inj he
  rw [decodeEnc_w32, decodeFields_ds rfl]
  simp [decodeS, scopeOf_code, legal_of hw]

theorem Laws.Encodes.fcancel : ∀ rs1, Laws.Encodes.Statement (.fcancel rs1) := by
  intro rs1 e hw he
  obtain rfl := Option.some.inj he
  rw [decodeEnc_w32, decodeFields_ds rfl]
  simp [decodeS, scopeOf_code, legal_of hw]

theorem Laws.Encodes.fpass : ∀ rd rs1, Laws.Encodes.Statement (.fpass rd rs1) := by
  intro rd rs1 e hw he
  obtain rfl := Option.some.inj he
  rw [decodeEnc_w32, decodeFields_ds rfl]
  simp [decodeS, scopeOf_code, legal_of hw]

theorem Laws.Encodes.fwaitall : ∀ rs1, Laws.Encodes.Statement (.fwaitall rs1) := by
  intro rs1 e hw he
  obtain rfl := Option.some.inj he
  rw [decodeEnc_w32, decodeFields_ds rfl]
  simp [decodeS, scopeOf_code, legal_of hw]

theorem Laws.Encodes.send : ∀ sc rd rs1 rs2, Laws.Encodes.Statement (.send sc rd rs1 rs2) := by
  intro sc rd rs1 rs2 e hw he
  obtain rfl := Option.some.inj he
  rw [decodeEnc_w32, decodeFields_ds rfl]
  simp [decodeS, scopeOf_code, legal_of hw]

theorem Laws.Encodes.sendp : ∀ sc rd rs1 rs2, Laws.Encodes.Statement (.sendp sc rd rs1 rs2) := by
  intro sc rd rs1 rs2 e hw he
  obtain rfl := Option.some.inj he
  rw [decodeEnc_w32, decodeFields_ds rfl]
  simp [decodeS, scopeOf_code, legal_of hw]

theorem Laws.Encodes.recv : ∀ rd rs1, Laws.Encodes.Statement (.recv rd rs1) := by
  intro rd rs1 e hw he
  obtain rfl := Option.some.inj he
  rw [decodeEnc_w32, decodeFields_ds rfl]
  simp [decodeS, scopeOf_code, legal_of hw]

theorem Laws.Encodes.recvt : ∀ rd rs1 rs2, Laws.Encodes.Statement (.recvt rd rs1 rs2) := by
  intro rd rs1 rs2 e hw he
  obtain rfl := Option.some.inj he
  rw [decodeEnc_w32, decodeFields_ds rfl]
  simp [decodeS, scopeOf_code, legal_of hw]

theorem Laws.Encodes.mbcfg : ∀ rs2 rs1, Laws.Encodes.Statement (.mbcfg rs2 rs1) := by
  intro rs2 rs1 e hw he
  obtain rfl := Option.some.inj he
  rw [decodeEnc_w32, decodeFields_ds rfl]
  simp [decodeS, scopeOf_code, legal_of hw]

theorem Laws.Encodes.mbpeek : ∀ rd rs1, Laws.Encodes.Statement (.mbpeek rd rs1) := by
  intro rd rs1 e hw he
  obtain rfl := Option.some.inj he
  rw [decodeEnc_w32, decodeFields_ds rfl]
  simp [decodeS, scopeOf_code, legal_of hw]

theorem Laws.Encodes.gbCfg : ∀ rs1 rs2, Laws.Encodes.Statement (.gbCfg rs1 rs2) := by
  intro rs1 rs2 e hw he
  obtain rfl := Option.some.inj he
  rw [decodeEnc_w32, decodeFields_dc rfl]
  simp [decodeC]

theorem Laws.Encodes.gbLdf : ∀ rs1, Laws.Encodes.Statement (.gbLdf rs1) := by
  intro rs1 e hw he
  obtain rfl := Option.some.inj he
  rw [decodeEnc_w32, decodeFields_dc rfl]
  simp [decodeC]

theorem Laws.Encodes.gbAddm : ∀ rs1 rs2, Laws.Encodes.Statement (.gbAddm rs1 rs2) := by
  intro rs1 rs2 e hw he
  obtain rfl := Option.some.inj he
  rw [decodeEnc_w32, decodeFields_dc rfl]
  simp [decodeC]

theorem Laws.Encodes.gbSubm : ∀ rs1 rs2, Laws.Encodes.Statement (.gbSubm rs1 rs2) := by
  intro rs1 rs2 e hw he
  obtain rfl := Option.some.inj he
  rw [decodeEnc_w32, decodeFields_dc rfl]
  simp [decodeC]

theorem Laws.Encodes.gbElim : ∀ rs1, Laws.Encodes.Statement (.gbElim rs1) := by
  intro rs1 e hw he
  obtain rfl := Option.some.inj he
  rw [decodeEnc_w32, decodeFields_dc rfl]
  simp [decodeC]

theorem Laws.Encodes.gbEmit : ∀ rd rs2 rs1, Laws.Encodes.Statement (.gbEmit rd rs2 rs1) := by
  intro rd rs2 rs1 e hw he
  obtain rfl := Option.some.inj he
  rw [decodeEnc_w32, decodeFields_dc rfl]
  simp [decodeC]

theorem Laws.Encodes.gbBel : ∀ rs1, Laws.Encodes.Statement (.gbBel rs1) := by
  intro rs1 e hw he
  obtain rfl := Option.some.inj he
  rw [decodeEnc_w32, decodeFields_dc rfl]
  simp [decodeC]

theorem Laws.Encodes.gbMean : ∀ rs1, Laws.Encodes.Statement (.gbMean rs1) := by
  intro rs1 e hw he
  obtain rfl := Option.some.inj he
  rw [decodeEnc_w32, decodeFields_dc rfl]
  simp [decodeC]

theorem Laws.Encodes.gbRes : ∀ rd, Laws.Encodes.Statement (.gbRes rd) := by
  intro rd e hw he
  obtain rfl := Option.some.inj he
  rw [decodeEnc_w32, decodeFields_dc rfl]
  simp [decodeC]

theorem Laws.Encodes.gbLdw : ∀ rs1, Laws.Encodes.Statement (.gbLdw rs1) := by
  intro rs1 e hw he
  obtain rfl := Option.some.inj he
  rw [decodeEnc_w32, decodeFields_dc rfl]
  simp [decodeC]

theorem Laws.Encodes.gbStw : ∀ rs1, Laws.Encodes.Statement (.gbStw rs1) := by
  intro rs1 e hw he
  obtain rfl := Option.some.inj he
  rw [decodeEnc_w32, decodeFields_dc rfl]
  simp [decodeC]

theorem Laws.Encodes.pwset : ∀ rs1, Laws.Encodes.Statement (.pwset rs1) := by
  intro rs1 e hw he
  obtain rfl := Option.some.inj he
  rw [decodeEnc_w32, decodeFields_dc rfl]
  simp [decodeC]

theorem Laws.Encodes.pwclr : ∀ rs1, Laws.Encodes.Statement (.pwclr rs1) := by
  intro rs1 e hw he
  obtain rfl := Option.some.inj he
  rw [decodeEnc_w32, decodeFields_dc rfl]
  simp [decodeC]

theorem Laws.Encodes.pwand : ∀ d a b, Laws.Encodes.Statement (.pwand d a b) := by
  intro d a b e hw he
  obtain rfl := Option.some.inj he
  rw [decodeEnc_w32, decodeFields_dc rfl]
  simp [decodeC]

theorem Laws.Encodes.pwor : ∀ d a b, Laws.Encodes.Statement (.pwor d a b) := by
  intro d a b e hw he
  obtain rfl := Option.some.inj he
  rw [decodeEnc_w32, decodeFields_dc rfl]
  simp [decodeC]

theorem Laws.Encodes.pwnot : ∀ d a, Laws.Encodes.Statement (.pwnot d a) := by
  intro d a e hw he
  obtain rfl := Option.some.inj he
  rw [decodeEnc_w32, decodeFields_dc rfl]
  simp [decodeC]

theorem Laws.Encodes.pwpop : ∀ rd rs1, Laws.Encodes.Statement (.pwpop rd rs1) := by
  intro rd rs1 e hw he
  obtain rfl := Option.some.inj he
  rw [decodeEnc_w32, decodeFields_dc rfl]
  simp [decodeC]

theorem Laws.Encodes.migrate : ∀ rs1, Laws.Encodes.Statement (.migrate rs1) := by
  intro rs1 e hw he
  obtain rfl := Option.some.inj he
  rw [decodeEnc_w32, decodeFields_dc rfl]
  simp [decodeC]

theorem Laws.Encodes.tlease : ∀ rd, Laws.Encodes.Statement (.tlease rd) := by
  intro rd e hw he
  obtain rfl := Option.some.inj he
  rw [decodeEnc_w64 _ _ rfl]
  simp [decodeD64, legal_of hw, ext_tcfg, ext3, ext2, ext_tmma, ext_tldc, ext_tstc, ext4, isLt32]

theorem Laws.Encodes.tcfg : ∀ width int plog2 tra chk, Laws.Encodes.Statement (.tcfg width int plog2 tra chk) := by
  intro width int plog2 tra chk e hw he
  obtain rfl := Option.some.inj he
  rw [decodeEnc_w64 _ _ rfl]
  simp [decodeD64, legal_of hw, ext_tcfg, ext3, ext2, ext_tmma, ext_tldc, ext_tstc, ext4, isLt32]

theorem Laws.Encodes.tring : ∀ ring rs1 rs2, Laws.Encodes.Statement (.tring ring rs1 rs2) := by
  intro ring rs1 rs2 e hw he
  obtain rfl := Option.some.inj he
  rw [decodeEnc_w64 _ _ rfl]
  simp [decodeD64, legal_of hw, ext_tcfg, ext3, ext2, ext_tmma, ext_tldc, ext_tstc, ext4, isLt32]

theorem Laws.Encodes.radv : ∀ ring rs1, Laws.Encodes.Statement (.radv ring rs1) := by
  intro ring rs1 e hw he
  obtain rfl := Option.some.inj he
  rw [decodeEnc_w64 _ _ rfl]
  simp [decodeD64, legal_of hw, ext_tcfg, ext3, ext2, ext_tmma, ext_tldc, ext_tstc, ext4, isLt32]

theorem Laws.Encodes.tzero : ∀ acc, Laws.Encodes.Statement (.tzero acc) := by
  intro acc e hw he
  obtain rfl := Option.some.inj he
  rw [decodeEnc_w64 _ _ rfl]
  simp [decodeD64, legal_of hw, ext_tcfg, ext3, ext2, ext_tmma, ext_tldc, ext_tstc, ext4, isLt32]

theorem Laws.Encodes.tmma : ∀ rd acc ar br passes1, Laws.Encodes.Statement (.tmma rd acc ar br passes1) := by
  intro rd acc ar br passes1 e hw he
  obtain rfl := Option.some.inj he
  rw [decodeEnc_w64 _ _ rfl]
  simp [decodeD64, legal_of hw, ext_tcfg, ext3, ext2, ext_tmma, ext_tldc, ext_tstc, ext4, isLt32]

theorem Laws.Encodes.tmmat : ∀ rd acc ar br passes1, Laws.Encodes.Statement (.tmmat rd acc ar br passes1) := by
  intro rd acc ar br passes1 e hw he
  obtain rfl := Option.some.inj he
  rw [decodeEnc_w64 _ _ rfl]
  simp [decodeD64, legal_of hw, ext_tcfg, ext3, ext2, ext_tmma, ext_tldc, ext_tstc, ext4, isLt32]

theorem Laws.Encodes.tldc : ∀ acc ef rs1, Laws.Encodes.Statement (.tldc acc ef rs1) := by
  intro acc ef rs1 e hw he
  obtain rfl := Option.some.inj he
  rw [decodeEnc_w64 _ _ rfl]
  simp [decodeD64, legal_of hw, ext_tcfg, ext3, ext2, ext_tmma, ext_tldc, ext_tstc, ext4, isLt32]

theorem Laws.Encodes.tstc : ∀ rd acc ef sat scale rs1 rs2, Laws.Encodes.Statement (.tstc rd acc ef sat scale rs1 rs2) := by
  intro rd acc ef sat scale rs1 rs2 e hw he
  obtain rfl := Option.some.inj he
  rw [decodeEnc_w64 _ _ rfl]
  simp [decodeD64, legal_of hw, ext_tcfg, ext3, ext2, ext_tmma, ext_tldc, ext_tstc, ext4, isLt32]

theorem Laws.Encodes.tstat : ∀ rd, Laws.Encodes.Statement (.tstat rd) := by
  intro rd e hw he
  obtain rfl := Option.some.inj he
  rw [decodeEnc_w64 _ _ rfl]
  simp [decodeD64, legal_of hw, ext_tcfg, ext3, ext2, ext_tmma, ext_tldc, ext_tstc, ext4, isLt32]

theorem Laws.Encodes.tsave : ∀ rd acc rs1, Laws.Encodes.Statement (.tsave rd acc rs1) := by
  intro rd acc rs1 e hw he
  obtain rfl := Option.some.inj he
  rw [decodeEnc_w64 _ _ rfl]
  simp [decodeD64, legal_of hw, ext_tcfg, ext3, ext2, ext_tmma, ext_tldc, ext_tstc, ext4, isLt32]

theorem Laws.Encodes.tload : ∀ rd acc rs1, Laws.Encodes.Statement (.tload rd acc rs1) := by
  intro rd acc rs1 e hw he
  obtain rfl := Option.some.inj he
  rw [decodeEnc_w64 _ _ rfl]
  simp [decodeD64, legal_of hw, ext_tcfg, ext3, ext2, ext_tmma, ext_tldc, ext_tstc, ext4, isLt32]

theorem Laws.Encodes.cpy : ∀ rd rs1, Laws.Encodes.Statement (.cpy rd rs1) := by
  intro rd rs1 e hw he
  obtain rfl := Option.some.inj he
  rw [decodeEnc_w64 _ _ rfl]
  simp [decodeD64, legal_of hw, ext_tcfg, ext3, ext2, ext_tmma, ext_tldc, ext_tstc, ext4, isLt32]

theorem Laws.Encodes.cpyd : ∀ rd rs1 rs2 n, Laws.Encodes.Statement (.cpyd rd rs1 rs2 n) := by
  intro rd rs1 rs2 n e hw he
  obtain rfl := Option.some.inj he
  rw [decodeEnc_w64 _ _ rfl]
  simp [decodeD64, legal_of hw, ext_tcfg, ext3, ext2, ext_tmma, ext_tldc, ext_tstc, ext4, isLt32]

theorem Laws.Encodes.cpyk : ∀ rd rs1 rs2, Laws.Encodes.Statement (.cpyk rd rs1 rs2) := by
  intro rd rs1 rs2 e hw he
  obtain rfl := Option.some.inj he
  rw [decodeEnc_w64 _ _ rfl]
  simp [decodeD64, legal_of hw, ext_tcfg, ext3, ext2, ext_tmma, ext_tldc, ext_tstc, ext4, isLt32]

theorem Laws.Encodes.pref : ∀ rd rs1 n, Laws.Encodes.Statement (.pref rd rs1 n) := by
  intro rd rs1 n e hw he
  obtain rfl := Option.some.inj he
  rw [decodeEnc_w64 _ _ rfl]
  simp [decodeD64, legal_of hw, ext_tcfg, ext3, ext2, ext_tmma, ext_tldc, ext_tstc, ext4, isLt32]

theorem Laws.Encodes.launch : ∀ rd rs1 q, Laws.Encodes.Statement (.launch rd rs1 q) := by
  intro rd rs1 q e hw he
  obtain rfl := Option.some.inj he
  rw [decodeEnc_w64 _ _ rfl]
  simp [decodeD64, legal_of hw, ext_tcfg, ext3, ext2, ext_tmma, ext_tldc, ext_tstc, ext4, isLt32]

theorem Laws.Encodes.phint : ∀ lrtoff livex livev, Laws.Encodes.Statement (.phint lrtoff livex livev) := by
  intro lrtoff livex livev e hw he
  obtain rfl := Option.some.inj he
  rw [decodeEnc_w64 _ _ rfl]
  simp [decodeD64, phint_join, ext_phint]

theorem Laws.Encodes.baseLoad : ∀ w rd rs1 imm, Laws.Encodes.Statement (.baseLoad w rd rs1 imm) := by
  intro w rd rs1 imm e hw he
  obtain rfl := Option.some.inj he
  rw [decodeEnc_w32]
  cases w <;> simp [decodeFields, loadCode, decodeLoad, fields_immI]

theorem Laws.Encodes.baseStore : ∀ w rs1 rs2 imm, Laws.Encodes.Statement (.baseStore w rs1 rs2 imm) := by
  intro w rs1 rs2 imm e hw he
  obtain rfl := Option.some.inj he
  rw [decodeEnc_w32]
  cases w <;> simp [decodeFields, storeCode, decodeStore, fields_immS]

theorem Laws.Encodes.amo : ∀ op dbl aq rl rd rs1 rs2, Laws.Encodes.Statement (.amo op dbl aq rl rd rs1 rs2) := by
  intro op dbl aq rl rd rs1 rs2 e hw he
  obtain rfl := Option.some.inj he
  rw [decodeEnc_w32, decodeFields_amo rfl]
  cases dbl <;> cases op <;> simp [decodeAmo, amoOpOf, amoOpCode, amo_fields]
  all_goals exact (amo_fields _ aq rl 0#5 0#5 0#5 0#3 0#7).2

theorem Laws.Encodes.lr : ∀ dbl aq rl rd rs1, Laws.Encodes.Statement (.lr dbl aq rl rd rs1) := by
  intro dbl aq rl rd rs1 e hw he
  obtain rfl := Option.some.inj he
  rw [decodeEnc_w32, decodeFields_amo rfl]
  cases dbl <;> simp [decodeAmo, amo_fields]
  all_goals exact (amo_fields _ aq rl 0#5 0#5 0#5 0#3 0#7).2

theorem Laws.Encodes.sc : ∀ dbl aq rl rd rs1 rs2, Laws.Encodes.Statement (.sc dbl aq rl rd rs1 rs2) := by
  intro dbl aq rl rd rs1 rs2 e hw he
  obtain rfl := Option.some.inj he
  rw [decodeEnc_w32, decodeFields_amo rfl]
  cases dbl <;> simp [decodeAmo, amo_fields]
  all_goals exact (amo_fields _ aq rl 0#5 0#5 0#5 0#3 0#7).2

theorem Laws.Encodes.fence : ∀ fm pred succ rd rs1, Laws.Encodes.Statement (.fence fm pred succ rd rs1) := by
  intro fm pred succ rd rs1 e hw he
  obtain rfl := Option.some.inj he
  rw [decodeEnc_w32, decodeFields_mem rfl]
  have h : ¬ (fm = 8#4 ∧ pred = 3#4 ∧ succ = 3#4) := by
    simp [Instr.wf] at hw; tauto
  simp [decodeMiscMem, fields_immI, fence_fields, h]

theorem Laws.Encodes.fenceTso : ∀ rd rs1, Laws.Encodes.Statement (.fenceTso rd rs1) := by
  intro rd rs1 e hw he
  obtain rfl := Option.some.inj he
  rw [decodeEnc_w32, decodeFields_mem rfl]
  simp [decodeMiscMem, Fields.immI]

theorem Laws.Encodes.fenceI : ∀ imm rd rs1, Laws.Encodes.Statement (.fenceI imm rd rs1) := by
  intro imm rd rs1 e hw he
  obtain rfl := Option.some.inj he
  rw [decodeEnc_w32, decodeFields_mem rfl]
  simp [decodeMiscMem, fields_immI]

theorem Laws.Encodes.sfenceVma : ∀ rs1 rs2, Laws.Encodes.Statement (.sfenceVma rs1 rs2) := by
  intro rs1 rs2 e hw he
  obtain rfl := Option.some.inj he
  rw [decodeEnc_w32, decodeFields_system rfl]
  simp [decodeSystem]

theorem Laws.Encodes.csrAccess : ∀ op csr rd src, Laws.Encodes.Statement (.csrAccess op csr rd src) := by
  intro op csr rd src e hw he
  obtain rfl := Option.some.inj he
  rw [decodeEnc_w32, decodeFields_system rfl]
  have h : csr ≠ 0x8C3#12 := by simpa [Instr.wf] using hw
  simp [decodeSystem, csrOp_nonzero, csrOpOf_code, fields_immI, h]

theorem Laws.Encodes.dxtstatAccess : ∀ op rd src, Laws.Encodes.Statement (.dxtstatAccess op rd src) := by
  intro op rd src e hw he
  obtain rfl := Option.some.inj he
  rw [decodeEnc_w32, decodeFields_system rfl]
  simp [decodeSystem, csrOp_nonzero, csrOpOf_code, Fields.immI]

theorem Laws.Encodes.relaxedLoadReturn : ∀ acc, Laws.Encodes.Statement (.relaxedLoadReturn acc) := by
  intro acc e _ he; cases he

theorem Laws.Encodes.entryDrain : ∀ entry, Laws.Encodes.Statement (.entryDrain entry) := by
  intro entry e _ he; cases he

theorem Laws.Encodes.drainTimeout : ∀ entry, Laws.Encodes.Statement (.drainTimeout entry) := by
  intro entry e _ he; cases he

theorem Laws.Encodes.postBufferFree : ∀ entry, Laws.Encodes.Statement (.postBufferFree entry) := by
  intro entry e _ he; cases he

theorem Laws.Encodes.queueDescriptorWrite : ∀ q half w, Laws.Encodes.Statement (.queueDescriptorWrite q half w) := by
  intro q half w e _ he; cases he

theorem Laws.Encodes.granuleRebind : ∀ g dst, Laws.Encodes.Statement (.granuleRebind g dst) := by
  intro g dst e _ he; cases he

theorem Laws.Encodes.localRangeWithdrawAck : ∀ g, Laws.Encodes.Statement (.localRangeWithdrawAck g) := by
  intro g e _ he; cases he

theorem Laws.Encodes.rebindAckTimeout : ∀ g, Laws.Encodes.Statement (.rebindAckTimeout g) := by
  intro g e _ he; cases he

theorem Laws.Encodes.spillRingAppend : ∀ entry, Laws.Encodes.Statement (.spillRingAppend entry) := by
  intro entry e _ he; cases he

theorem Laws.Encodes.engineElementTransfer : ∀ op, Laws.Encodes.Statement (.engineElementTransfer op) := by
  intro op e _ he; cases he

theorem Laws.Encodes.engineCommandComplete : ∀ op, Laws.Encodes.Statement (.engineCommandComplete op) := by
  intro op e _ he; cases he

theorem Laws.Encodes.waitingSendEnter : ∀ mb, Laws.Encodes.Statement (.waitingSendEnter mb) := by
  intro mb e _ he; cases he

theorem Laws.Encodes.kern : ∀ node, Laws.Encodes.Statement (.kern node) := by
  intro node e _ he; cases he

theorem Laws.Encodes.pipe : ∀ node, Laws.Encodes.Statement (.pipe node) := by
  intro node e _ he; cases he

theorem Laws.Encodes.copyNode : ∀ node, Laws.Encodes.Statement (.copyNode node) := by
  intro node e _ he; cases he

theorem Laws.Encodes.cond : ∀ node, Laws.Encodes.Statement (.cond node) := by
  intro node e _ he; cases he

theorem Laws.Encodes.signalNode : ∀ node, Laws.Encodes.Statement (.signalNode node) := by
  intro node e _ he; cases he

theorem Laws.Encodes.hring : ∀ node, Laws.Encodes.Statement (.hring node) := by
  intro node e _ he; cases he

theorem Laws.Encodes.wait : ∀ node, Laws.Encodes.Statement (.wait node) := by
  intro node e _ he; cases he

theorem Laws.Encodes.join : ∀ node, Laws.Encodes.Statement (.join node) := by
  intro node e _ he; cases he

theorem Laws.Encodes.nodeFinish : ∀ node, Laws.Encodes.Statement (.nodeFinish node) := by
  intro node e _ he; cases he

theorem Laws.Encodes.mapQueue : ∀ slot, Laws.Encodes.Statement (.mapQueue slot) := by
  intro slot e _ he; cases he

theorem Laws.Encodes.htlbinv : ∀ w, Laws.Encodes.Statement (.htlbinv w) := by
  intro w e _ he; cases he

theorem Laws.Encodes.hmissdone : ∀ w, Laws.Encodes.Statement (.hmissdone w) := by
  intro w e _ he; cases he

theorem Laws.Encodes.qctlSkip : ∀ q, Laws.Encodes.Statement (.qctlSkip q) := by
  intro q e _ he; cases he

theorem Laws.Encodes.qctlRecheck : ∀ q, Laws.Encodes.Statement (.qctlRecheck q) := by
  intro q e _ he; cases he

theorem Laws.Encodes.mdutyWrite : ∀ w, Laws.Encodes.Statement (.mdutyWrite w) := by
  intro w e _ he; cases he

theorem Laws.Encodes.qtbaseWrite : ∀ w, Laws.Encodes.Statement (.qtbaseWrite w) := by
  intro w e _ he; cases he

theorem Laws.Encodes.nstdataWrite : ∀ w, Laws.Encodes.Statement (.nstdataWrite w) := by
  intro w e _ he; cases he

theorem Laws.Encodes.widxWrite : ∀ n, Laws.Encodes.Statement (.widxWrite n) := by
  intro n e _ he; cases he

theorem Laws.Encodes.hscmdSwap : ∀ w, Laws.Encodes.Statement (.hscmdSwap w) := by
  intro w e _ he; cases he

theorem Laws.Encodes.hscmdLeave : ∀ w, Laws.Encodes.Statement (.hscmdLeave w) := by
  intro w e _ he; cases he

theorem Laws.Encodes.pgreqToHost : ∀ w, Laws.Encodes.Statement (.pgreqToHost w) := by
  intro w e _ he; cases he

theorem Laws.Encodes.pgreqToDevice : ∀ w, Laws.Encodes.Statement (.pgreqToDevice w) := by
  intro w e _ he; cases he

theorem Laws.Encodes.rxretWrite : ∀ n, Laws.Encodes.Statement (.rxretWrite n) := by
  intro n e _ he; cases he

theorem Laws.Encodes.reservationTableWrite : ∀ w, Laws.Encodes.Statement (.reservationTableWrite w) := by
  intro w e _ he; cases he

theorem Laws.Encodes.registerWrite : ∀ off w, Laws.Encodes.Statement (.registerWrite off w) := by
  intro off w e _ he; cases he

theorem Laws.Encodes.apertureVirtual : ∀ n off wr data, Laws.Encodes.Statement (.apertureVirtual n off wr data) := by
  intro n off wr data e _ he; cases he

theorem Laws.Encodes.aperturePhysical : ∀ n off wr data, Laws.Encodes.Statement (.aperturePhysical n off wr data) := by
  intro n off wr data e _ he; cases he

theorem Laws.Encodes.apertureControl : ∀ n off wr data, Laws.Encodes.Statement (.apertureControl n off wr data) := by
  intro n off wr data e _ he; cases he

theorem Laws.Encodes.ethTransmit : ∀ frame, Laws.Encodes.Statement (.ethTransmit frame) := by
  intro frame e _ he; cases he

theorem Laws.Encodes.ethReceive : ∀ frame, Laws.Encodes.Statement (.ethReceive frame) := by
  intro frame e _ he; cases he

theorem Laws.Encodes.scrubPatrol : ∀ bank, Laws.Encodes.Statement (.scrubPatrol bank) := by
  intro bank e _ he; cases he

theorem Laws.Encodes.poisonConsume : ∀ reg, Laws.Encodes.Statement (.poisonConsume reg) := by
  intro reg e _ he; cases he

theorem Laws.Encodes.deathNotice : ∀ link, Laws.Encodes.Statement (.deathNotice link) := by
  intro link e _ he; cases he

theorem Laws.Encodes.powerThrottle : ∀ mw, Laws.Encodes.Statement (.powerThrottle mw) := by
  intro mw e _ he; cases he

theorem Laws.Encodes.waveArrival : ∀ origin hops, Laws.Encodes.Statement (.waveArrival origin hops) := by
  intro origin hops e _ he; cases he

theorem Laws.Encodes.siteLoaded : ∀ conf, Laws.Encodes.Statement (.siteLoaded conf) := by
  intro conf e _ he; cases he

theorem Laws.Encodes.bringupTimeout : ∀ st, Laws.Encodes.Statement (.bringupTimeout st) := by
  intro st e _ he; cases he

theorem Laws.Encodes.recoveryGo : ∀ w, Laws.Encodes.Statement (.recoveryGo w) := by
  intro w e _ he; cases he

theorem Laws.Encodes.illegalInstruction : ∀ bits, Laws.Encodes.Statement (.illegalInstruction bits) := by
  intro bits e _ he; cases he

theorem Laws.Encodes.instructionAccessFault : ∀ cause sub addr, Laws.Encodes.Statement (.instructionAccessFault cause sub addr) := by
  intro cause sub addr e _ he; cases he

theorem Laws.Encodes.baseArithmetic : ∀ op, Laws.Encodes.Statement (.baseArithmetic op) := by
  intro op e hw he
  cases op with
  | lui rd imm =>
    obtain rfl := Option.some.inj he
    rw [decodeEnc_w32]
    simp [decodeFields, Fields.immU, imm20_join]
  | auipc rd imm =>
    obtain rfl := Option.some.inj he
    rw [decodeEnc_w32]
    simp [decodeFields, Fields.immU, imm20_join]
  | jal rd imm =>
    obtain rfl := Option.some.inj he
    rw [decodeEnc_w32]
    simp [decodeFields, immJ_join]
  | jalr rd rs1 imm =>
    obtain rfl := Option.some.inj he
    rw [decodeEnc_w32]
    simp [decodeFields, fields_immI]
  | branch c rs1 rs2 imm =>
    obtain rfl := Option.some.inj he
    rw [decodeEnc_w32]
    cases c <;> simp [decodeFields, immB_join, brOpOf, brOpCode]
  | opImm o rd rs1 imm =>
    obtain rfl := Option.some.inj he
    rw [decodeEnc_w32]
    cases o <;> simp [decodeFields, immCode, decodeOpImm, decodeOpImm32, fields_immI]
  | shift o rd rs1 sh =>
    obtain rfl := Option.some.inj he
    rw [decodeEnc_w32]
    cases o <;> simp [decodeFields, shCode, decodeOpImm, decodeOpImm32, fields_immI, sh_fields]
  | shiftW o rd rs1 sh =>
    obtain rfl := Option.some.inj he
    rw [decodeEnc_w32]
    cases o <;> simp [decodeFields, shWCode, decodeOpImm32, Fields.immI, shW_fields]
  | alu o rd rs1 rs2 =>
    obtain rfl := Option.some.inj he
    rw [decodeEnc_w32]
    cases o <;> simp [decodeFields, aluCode, aluOf, aluWOf]
  | unary o rd rs1 =>
    obtain rfl := Option.some.inj he
    rw [decodeEnc_w32]
    cases o <;> simp [decodeFields, unCode, decodeOpImm, decodeOpImm32, Fields.immI]
  | farith o rm rd rs1 rs2 =>
    obtain rfl := Option.some.inj he
    rw [decodeEnc_w32, decodeFields_fp rfl]
    cases o <;> simp [decodeFp, legal_of hw]
  | fsqrt rm rd rs1 =>
    obtain rfl := Option.some.inj he
    rw [decodeEnc_w32, decodeFields_fp rfl]
    simp [decodeFp, legal_of hw]
  | ffused o rm rd rs1 rs2 rs3 =>
    obtain rfl := Option.some.inj he
    rw [decodeEnc_w32]
    cases o <;> simp [decodeFields, decodeFused, fields_xw, fields_op5, legal_of hw]
  | fpair o rd rs1 rs2 =>
    cases o <;> (obtain rfl := Option.some.inj he; rw [decodeEnc_w32, decodeFields_fp rfl]; simp [decodeFp, legal_of hw])
  | fcmp o rd rs1 rs2 =>
    obtain rfl := Option.some.inj he
    rw [decodeEnc_w32, decodeFields_fp rfl]
    cases o <;> simp [decodeFp, legal_of hw]
  | fcvtToInt t rm rd rs1 =>
    obtain rfl := Option.some.inj he
    rw [decodeEnc_w32, decodeFields_fp rfl]
    cases t <;> simp [decodeFp, fintOf, fintCode, legal_of hw]
  | fcvtFromInt t rm rd rs1 =>
    obtain rfl := Option.some.inj he
    rw [decodeEnc_w32, decodeFields_fp rfl]
    cases t <;> simp [decodeFp, fintOf, fintCode, legal_of hw]
  | fmvXW rd rs1 =>
    obtain rfl := Option.some.inj he
    rw [decodeEnc_w32, decodeFields_fp rfl]
    simp [decodeFp, legal_of hw]
  | fmvWX rd rs1 =>
    obtain rfl := Option.some.inj he
    rw [decodeEnc_w32, decodeFields_fp rfl]
    simp [decodeFp, legal_of hw]
  | fclass rd rs1 =>
    obtain rfl := Option.some.inj he
    rw [decodeEnc_w32, decodeFields_fp rfl]
    simp [decodeFp, legal_of hw]
  | ebreak =>
    obtain rfl := Option.some.inj he
    rw [decodeEnc_w32, decodeFields_system rfl]
    decide

theorem Laws.Encodes.tokenBucketRefill : ∀ c, Laws.Encodes.Statement (.tokenBucketRefill c) := by
  intro c e _ he; cases he

theorem Laws.Encodes.gbClr : Laws.Encodes.Statement .gbClr := by
  intro e hw he
  obtain rfl := Option.some.inj he
  rw [decodeEnc_w32, decodeFields_dc rfl]
  simp [decodeC]

theorem Laws.Encodes.gend : Laws.Encodes.Statement .gend := by
  intro e hw he
  obtain rfl := Option.some.inj he
  rw [decodeEnc_w32, decodeFields_dc rfl]
  simp [decodeC]

theorem Laws.Encodes.yield : Laws.Encodes.Statement .yield := by
  intro e hw he
  obtain rfl := Option.some.inj he
  rw [decodeEnc_w32, decodeFields_dc rfl]
  simp [decodeC]

theorem Laws.Encodes.trelease : Laws.Encodes.Statement .trelease := by
  intro e hw he
  obtain rfl := Option.some.inj he
  rw [decodeEnc_w64 _ _ rfl]
  simp [decodeD64, legal_of hw, ext_tcfg, ext3, ext2, ext_tmma, ext_tldc, ext_tstc, ext4, isLt32]

theorem Laws.Encodes.wfi : Laws.Encodes.Statement .wfi := by
  intro e hw he
  obtain rfl := Option.some.inj he
  rw [decodeEnc_w32, decodeFields_system rfl]
  decide

theorem Laws.Encodes.ecall : Laws.Encodes.Statement .ecall := by
  intro e hw he
  obtain rfl := Option.some.inj he
  rw [decodeEnc_w32, decodeFields_system rfl]
  decide

theorem Laws.Encodes.sret : Laws.Encodes.Statement .sret := by
  intro e hw he
  obtain rfl := Option.some.inj he
  rw [decodeEnc_w32, decodeFields_system rfl]
  decide

theorem Laws.Encodes.boundaryDelivery : Laws.Encodes.Statement .boundaryDelivery := by
  intro e _ he; cases he

theorem Laws.Encodes.futureCompletion : Laws.Encodes.Statement .futureCompletion := by
  intro e _ he; cases he

theorem Laws.Encodes.futureFailure : Laws.Encodes.Statement .futureFailure := by
  intro e _ he; cases he

theorem Laws.Encodes.plainAcknowledgement : Laws.Encodes.Statement .plainAcknowledgement := by
  intro e _ he; cases he

theorem Laws.Encodes.homeRequest : Laws.Encodes.Statement .homeRequest := by
  intro e _ he; cases he

theorem Laws.Encodes.tracedStoreResume : Laws.Encodes.Statement .tracedStoreResume := by
  intro e _ he; cases he

theorem Laws.Encodes.missRecordAtCore : Laws.Encodes.Statement .missRecordAtCore := by
  intro e _ he; cases he

theorem Laws.Encodes.missService : Laws.Encodes.Statement .missService := by
  intro e _ he; cases he

theorem Laws.Encodes.missListReplay : Laws.Encodes.Statement .missListReplay := by
  intro e _ he; cases he

theorem Laws.Encodes.bankOperation : Laws.Encodes.Statement .bankOperation := by
  intro e _ he; cases he

theorem Laws.Encodes.queueEnqueue : Laws.Encodes.Statement .queueEnqueue := by
  intro e _ he; cases he

theorem Laws.Encodes.queueDequeue : Laws.Encodes.Statement .queueDequeue := by
  intro e _ he; cases he

theorem Laws.Encodes.queueLength : Laws.Encodes.Statement .queueLength := by
  intro e _ he; cases he

theorem Laws.Encodes.barrierArrival : Laws.Encodes.Statement .barrierArrival := by
  intro e _ he; cases he

theorem Laws.Encodes.gridArrival : Laws.Encodes.Statement .gridArrival := by
  intro e _ he; cases he

theorem Laws.Encodes.bwaitTest : Laws.Encodes.Statement .bwaitTest := by
  intro e _ he; cases he

theorem Laws.Encodes.deadlineLoan : Laws.Encodes.Statement .deadlineLoan := by
  intro e _ he; cases he

theorem Laws.Encodes.migrationStart : Laws.Encodes.Statement .migrationStart := by
  intro e _ he; cases he

theorem Laws.Encodes.migrationSlotRequest : Laws.Encodes.Statement .migrationSlotRequest := by
  intro e _ he; cases he

theorem Laws.Encodes.migrationSlotReply : Laws.Encodes.Statement .migrationSlotReply := by
  intro e _ he; cases he

theorem Laws.Encodes.migrationContextArrival : Laws.Encodes.Statement .migrationContextArrival := by
  intro e _ he; cases he

theorem Laws.Encodes.loadBalance : Laws.Encodes.Statement .loadBalance := by
  intro e _ he; cases he

theorem Laws.Encodes.dxloadRefresh : Laws.Encodes.Statement .dxloadRefresh := by
  intro e _ he; cases he

theorem Laws.Encodes.parklimExpiry : Laws.Encodes.Statement .parklimExpiry := by
  intro e _ he; cases he

theorem Laws.Encodes.swap : Laws.Encodes.Statement .swap := by
  intro e _ he; cases he

theorem Laws.Encodes.hintdistExpiry : Laws.Encodes.Statement .hintdistExpiry := by
  intro e _ he; cases he

theorem Laws.Encodes.stopRequest : Laws.Encodes.Statement .stopRequest := by
  intro e _ he; cases he

theorem Laws.Encodes.blockReadmission : Laws.Encodes.Statement .blockReadmission := by
  intro e _ he; cases he

theorem Laws.Encodes.preemptPolicy : Laws.Encodes.Statement .preemptPolicy := by
  intro e _ he; cases he

theorem Laws.Encodes.blockAdmit : Laws.Encodes.Statement .blockAdmit := by
  intro e _ he; cases he

theorem Laws.Encodes.leaseTimeExpiry : Laws.Encodes.Statement .leaseTimeExpiry := by
  intro e _ he; cases he

theorem Laws.Encodes.leaseHandover : Laws.Encodes.Statement .leaseHandover := by
  intro e _ he; cases he

theorem Laws.Encodes.tileCommandAccept : Laws.Encodes.Statement .tileCommandAccept := by
  intro e _ he; cases he

theorem Laws.Encodes.tileCommandRetire : Laws.Encodes.Statement .tileCommandRetire := by
  intro e _ he; cases he

theorem Laws.Encodes.tringEffect : Laws.Encodes.Statement .tringEffect := by
  intro e _ he; cases he

theorem Laws.Encodes.engineCommandStart : Laws.Encodes.Statement .engineCommandStart := by
  intro e _ he; cases he

theorem Laws.Encodes.kickArrival : Laws.Encodes.Statement .kickArrival := by
  intro e _ he; cases he

theorem Laws.Encodes.noticeAccept : Laws.Encodes.Statement .noticeAccept := by
  intro e _ he; cases he

theorem Laws.Encodes.mailboxDelivery : Laws.Encodes.Statement .mailboxDelivery := by
  intro e _ he; cases he

theorem Laws.Encodes.recvtTimeout : Laws.Encodes.Statement .recvtTimeout := by
  intro e _ he; cases he

theorem Laws.Encodes.yieldTimeout : Laws.Encodes.Statement .yieldTimeout := by
  intro e _ he; cases he

theorem Laws.Encodes.deviceLaunchEnqueue : Laws.Encodes.Statement .deviceLaunchEnqueue := by
  intro e _ he; cases he

theorem Laws.Encodes.nop : Laws.Encodes.Statement .nop := by
  intro e _ he; cases he

theorem Laws.Encodes.launchg : Laws.Encodes.Statement .launchg := by
  intro e _ he; cases he

theorem Laws.Encodes.launchp : Laws.Encodes.Statement .launchp := by
  intro e _ he; cases he

theorem Laws.Encodes.graph : Laws.Encodes.Statement .graph := by
  intro e _ he; cases he

theorem Laws.Encodes.copy : Laws.Encodes.Statement .copy := by
  intro e _ he; cases he

theorem Laws.Encodes.signalWrite : Laws.Encodes.Statement .signalWrite := by
  intro e _ he; cases he

theorem Laws.Encodes.signalAdd : Laws.Encodes.Statement .signalAdd := by
  intro e _ he; cases he

theorem Laws.Encodes.signalMax : Laws.Encodes.Statement .signalMax := by
  intro e _ he; cases he

theorem Laws.Encodes.waitsig : Laws.Encodes.Statement .waitsig := by
  intro e _ he; cases he

theorem Laws.Encodes.write : Laws.Encodes.Statement .write := by
  intro e _ he; cases he

theorem Laws.Encodes.ib : Laws.Encodes.Statement .ib := by
  intro e _ he; cases he

theorem Laws.Encodes.packetComplete : Laws.Encodes.Statement .packetComplete := by
  intro e _ he; cases he

theorem Laws.Encodes.watchedLineNotice : Laws.Encodes.Statement .watchedLineNotice := by
  intro e _ he; cases he

theorem Laws.Encodes.hringCoalesceTimer : Laws.Encodes.Statement .hringCoalesceTimer := by
  intro e _ he; cases he

theorem Laws.Encodes.doorbellInterrupt : Laws.Encodes.Statement .doorbellInterrupt := by
  intro e _ he; cases he

theorem Laws.Encodes.unmapQueue : Laws.Encodes.Statement .unmapQueue := by
  intro e _ he; cases he

theorem Laws.Encodes.consistentCut : Laws.Encodes.Statement .consistentCut := by
  intro e _ he; cases he

theorem Laws.Encodes.pageMigration : Laws.Encodes.Statement .pageMigration := by
  intro e _ he; cases he

theorem Laws.Encodes.hsPost : Laws.Encodes.Statement .hsPost := by
  intro e _ he; cases he

theorem Laws.Encodes.hsInterrupt : Laws.Encodes.Statement .hsInterrupt := by
  intro e _ he; cases he

theorem Laws.Encodes.fenceWrite : Laws.Encodes.Statement .fenceWrite := by
  intro e _ he; cases he

theorem Laws.Encodes.ctxdown : Laws.Encodes.Statement .ctxdown := by
  intro e _ he; cases he

theorem Laws.Encodes.attctlGo : Laws.Encodes.Statement .attctlGo := by
  intro e _ he; cases he

theorem Laws.Encodes.attestationDone : Laws.Encodes.Statement .attestationDone := by
  intro e _ he; cases he

theorem Laws.Encodes.reservationTableCopy : Laws.Encodes.Statement .reservationTableCopy := by
  intro e _ he; cases he

theorem Laws.Encodes.errorInterrupt : Laws.Encodes.Statement .errorInterrupt := by
  intro e _ he; cases he

theorem Laws.Encodes.registerScrubDone : Laws.Encodes.Statement .registerScrubDone := by
  intro e _ he; cases he

theorem Laws.Encodes.linkCrcError : Laws.Encodes.Statement .linkCrcError := by
  intro e _ he; cases he

theorem Laws.Encodes.linkDead : Laws.Encodes.Statement .linkDead := by
  intro e _ he; cases he

theorem Laws.Encodes.nstReroute : Laws.Encodes.Statement .nstReroute := by
  intro e _ he; cases he

theorem Laws.Encodes.requestLossTimeout : Laws.Encodes.Statement .requestLossTimeout := by
  intro e _ he; cases he

theorem Laws.Encodes.comparatorMatch : Laws.Encodes.Statement .comparatorMatch := by
  intro e _ he; cases he

theorem Laws.Encodes.trailingTimeout : Laws.Encodes.Statement .trailingTimeout := by
  intro e _ he; cases he

theorem Laws.Encodes.coreRetire : Laws.Encodes.Statement .coreRetire := by
  intro e _ he; cases he

theorem Laws.Encodes.deadlineMissDetect : Laws.Encodes.Statement .deadlineMissDetect := by
  intro e _ he; cases he

theorem Laws.Encodes.waitEntryValid : Laws.Encodes.Statement .waitEntryValid := by
  intro e _ he; cases he

theorem Laws.Encodes.hangTest : Laws.Encodes.Statement .hangTest := by
  intro e _ he; cases he

theorem Laws.Encodes.heartbeat : Laws.Encodes.Statement .heartbeat := by
  intro e _ he; cases he

theorem Laws.Encodes.watcherRead : Laws.Encodes.Statement .watcherRead := by
  intro e _ he; cases he

theorem Laws.Encodes.moduleReset : Laws.Encodes.Statement .moduleReset := by
  intro e _ he; cases he

theorem Laws.Encodes.bootVerify : Laws.Encodes.Statement .bootVerify := by
  intro e _ he; cases he

theorem Laws.Encodes.waveLaunch : Laws.Encodes.Statement .waveLaunch := by
  intro e _ he; cases he

theorem Laws.Encodes.siteLocked : Laws.Encodes.Statement .siteLocked := by
  intro e _ he; cases he

theorem Laws.Encodes.linkTrained : Laws.Encodes.Statement .linkTrained := by
  intro e _ he; cases he

theorem Laws.Encodes.named : Laws.Encodes.Statement .named := by
  intro e _ he; cases he

theorem Laws.Encodes.readyBroadcast : Laws.Encodes.Statement .readyBroadcast := by
  intro e _ he; cases he

theorem Laws.Encodes.bringupRestart : Laws.Encodes.Statement .bringupRestart := by
  intro e _ he; cases he

theorem Laws.Encodes.recoveryReset : Laws.Encodes.Statement .recoveryReset := by
  intro e _ he; cases he

theorem Laws.Encodes.recoveryReport : Laws.Encodes.Statement .recoveryReport := by
  intro e _ he; cases he

theorem Laws.Encodes.fatalFreeze : Laws.Encodes.Statement .fatalFreeze := by
  intro e _ he; cases he

theorem Laws.Encodes.chiselUnitFinish : Laws.Encodes.Statement .chiselUnitFinish := by
  intro e _ he; cases he

theorem Laws.Encodes.requestAgeing : Laws.Encodes.Statement .requestAgeing := by
  intro e _ he; cases he

theorem Laws.Encodes.recoveryVerifyDone : Laws.Encodes.Statement .recoveryVerifyDone := by
  intro e _ he; cases he

end Sys2Proof
end

