-- ==== Sys2Proof/Tests/Slice0.lean ====
section
/-! SUPPORT. Tests: the checks of WellFormed, words written out from the spec's encodings, single steps whose results the spec
gives, and for each statement a state and operands that meet its hypotheses. -/

open Sys2Proof Sys2Proof.Machine

namespace Sys2Proof.Tests

set_option maxRecDepth 100000
set_option Elab.async false

/-! ## Ill-formed terms, one for each check -/

theorem test_wf_vabs : (Instr.vabs false .n32 1#5 2#5).wf = false := by decide
theorem test_wf_vneg : (Instr.vneg false .n32 1#5 2#5).wf = false := by decide
theorem test_wf_vcvt_format : (Instr.vcvtToLaneType false .f32 1#5 2#5 17#5).wf = false := by decide
theorem test_wf_vcvt_narrow : (Instr.vcvtToNarrow false .f32 1#5 2#5 6#5).wf = false := by decide
theorem test_wf_vcvt_narrow_sat : (Instr.vcvtToNarrowSat false .f32 1#5 2#5 16#5).wf = false := by decide
theorem test_wf_ftest : (Instr.ftest 10#5 10#5).wf = false := by decide
theorem test_wf_tcfg_width : (Instr.tcfg 3#2 false 0#3 false false).wf = false := by decide
theorem test_wf_tcfg_int16 : (Instr.tcfg 2#2 true 0#3 false false).wf = false := by decide
theorem test_wf_tcfg_interval : (Instr.tcfg 0#2 false 4#3 false false).wf = false := by decide
theorem test_wf_tldc : (Instr.tldc 0#2 0#5 1#5).wf = false := by decide
theorem test_wf_tstc_scale : (Instr.tstc 1#5 0#2 0#5 false false 2#5 3#5).wf = false := by decide
theorem test_wf_pref : (Instr.pref 1#5 2#5 0#32).wf = false := by decide
theorem test_wf_fence : (Instr.fence 8#4 3#4 3#4 0#5 0#5).wf = false := by decide
theorem test_wf_csr : (Instr.csrAccess .rw 0x8C3#12 0#5 0#5).wf = false := by decide
theorem test_wf_rounding : (Instr.baseArithmetic (.fsqrt 5#3 1#5 2#5)).wf = false := by decide
theorem test_wf_queue_half : (Instr.queueDescriptorWrite 0 2 0#64).wf = false := by decide
theorem test_wf_queue_number : (Instr.queueDescriptorWrite 4096 0 0#64).wf = false := by decide
theorem test_wf_granule : (Instr.granuleRebind 17 (.core 0 0)).wf = false := by decide
theorem test_wf_withdraw : (Instr.localRangeWithdrawAck 17).wf = false := by decide
theorem test_wf_rebind_timeout : (Instr.rebindAckTimeout 17).wf = false := by decide
theorem test_wf_mailbox : (Instr.waitingSendEnter 32).wf = false := by decide
theorem test_wf_slot : (Instr.mapQueue 256).wf = false := by decide
theorem test_wf_skip : (Instr.qctlSkip 10240).wf = false := by decide
theorem test_wf_recheck : (Instr.qctlRecheck 10240).wf = false := by decide
theorem test_wf_widx : (Instr.widxWrite (2 ^ 32)).wf = false := by decide
theorem test_wf_rxret : (Instr.rxretWrite 65536).wf = false := by decide
theorem test_wf_register : (Instr.registerWrite (2 ^ 47) 0#64).wf = false := by decide
theorem test_wf_aperture : (Instr.apertureVirtual 16 0 false []).wf = false := by decide
theorem test_wf_frame : (Instr.ethReceive (List.replicate 9217 0#8)).wf = false := by decide +kernel
theorem test_wf_bank : (Instr.scrubPatrol 32).wf = false := by decide
theorem test_wf_link : (Instr.deathNotice 5760).wf = false := by decide
theorem test_wf_bringup : (Instr.bringupTimeout 6).wf = false := by decide
theorem test_wf_wave : (Instr.waveArrival 16 0).wf = false := by decide
theorem test_wf_bucket : (Instr.tokenBucketRefill 64).wf = false := by decide
theorem test_subj_queue : Instr.nop.subjOk 10240 = false := by decide
theorem test_subj_window : Instr.noticeAccept.subjOk 36864 = false := by decide
theorem test_subj_fatal : Instr.fatalFreeze.subjOk 0 = false := by decide

/-! ## Words, by their fields: R145 and the maps of R150 to R154, the base's own encodings, and the spec's example words -/

/-- op6 0x1B, m 0, vs2 t0, vs1 v5, ty 0, vd v6: the vquant.e4m3 of R181's example. -/
theorem test_word_vquant : decodeEnc (.w32 0x6C52B30B#32) = some (.vquant false 3#3 6#5 5#5 5#5) := by decide
/-- op6 0x10, m 1, vs2 v2, vs1 v1, ty 0, vd 1: the COND target. -/
theorem test_word_vcmpeq : decodeEnc (.w32 0b01000010001000001000000010001011#32) = some (.vcmpeq true .i32 true 1#5 2#5) := by
  decide
/-- op5 0x02, off7 -1, rs1 x5, rx 1, vd v3. -/
theorem test_word_vld : decodeEnc (.w32 0b00010111111100101001000110101011#32) = some (.vld true 3#5 5#5 0x7F#7) := by decide
/-- op5 0x09, xw 3, rs2 x6, rs1 x5, f3 7: width code 31. -/
theorem test_word_ldbit : decodeEnc (.w32 0b01001110011000101111010100101011#32) = some (.ldbit 10#5 5#5 6#5 31#5) := by decide
/-- The fwait of R221's table. -/
theorem test_word_fwait : decodeEnc (.w32 0x8005005B#32) = some (.fwait 10#5) := by decide
/-- The ftest of R221's table. -/
theorem test_word_ftest : decodeEnc (.w32 0x820505DB#32) = some (.ftest 11#5 10#5) := by decide
/-- The recvt of R237's table. -/
theorem test_word_recvt : decodeEnc (.w32 0xA6C5855B#32) = some (.recvt 10#5 11#5 12#5) := by decide
/-- The mbcfg of R238. -/
theorem test_word_mbcfg : decodeEnc (.w32 0xA8C5805B#32) = some (.mbcfg 12#5 11#5) := by decide
/-- The pwand of R257's table. -/
theorem test_word_pwand : decodeEnc (.w32 0x4528887B#32) = some (.pwand 16#5 17#5 18#5) := by decide
/-- The gend of R258. -/
theorem test_word_gend : decodeEnc (.w32 0x6000007B#32) = some .gend := by decide
/-- The migrate of R260. -/
theorem test_word_migrate : decodeEnc (.w32 0x6405007B#32) = some (.migrate 10#5) := by decide
/-- The tlease of R195. -/
theorem test_word_tlease : decodeEnc (.w64 0x0000053F#32 0#32) = some (.tlease 10#5) := by decide
/-- op7 0x06, rd x10, ext32 with acc 1, ar 2, br 3, passes - 1 = 15. -/
theorem test_word_tmma : decodeEnc (.w64 0b00001100000000000000010100111111#32 0b111101101001#32)
    = some (.tmma 10#5 1#2 2#3 3#3 15#4) := by decide
/-- amoswap.d.aqrl x10, x12, (x11). -/
theorem test_word_amoswap : decodeEnc (.w32 0b00001110110001011011010100101111#32)
    = some (.amo .swap true true true 10#5 11#5 12#5) := by decide
/-- lw x10, -4(x11). -/
theorem test_word_lw : decodeEnc (.w32 0b11111111110001011010010100000011#32) = some (.baseLoad .w 10#5 11#5 0xFFC#12) := by decide
/-- sd x12, 8(x11). -/
theorem test_word_sd : decodeEnc (.w32 0b00000000110001011011010000100011#32) = some (.baseStore .d 11#5 12#5 8#12) := by decide
/-- beq x11, x12, +8. -/
theorem test_word_beq : decodeEnc (.w32 0b00000000110001011000010001100011#32)
    = some (.baseArithmetic (.branch .eq 11#5 12#5 4#12)) := by decide
/-- csrrw x10, dxvcnt, x11. -/
theorem test_word_csrrw : decodeEnc (.w32 0b10001100000001011001010101110011#32) = some (.csrAccess .rw 0x8C0#12 10#5 11#5) := by
  decide
/-- sret. -/
theorem test_word_sret : decodeEnc (.w32 0b00010000001000000000000001110011#32) = some .sret := by decide
/-- R145: a D64 word at 4 modulo 8 is illegal, with the low word alone. -/
theorem test_word_d64_misaligned : decode false 0x0000053F#32 0#32 = .illegalInstruction 0x53F#64 := by decide
/-- R146: a nonzero unused field. -/
theorem test_word_unused_field : decodeEnc (.w32 0x6200087B#32) = none := by decide

/-! ## Single steps -/

/-- A hart of window 0, launched on a word. -/
def placed (nbits w : Nat) : State := State.reset.withFetchWord nbits w

/-- The hart of a state. -/
def hartOf (s : State) : Hart := (s.hart? s.cur).getD (Hart.launched 0 0 0 0 0 true 0#64 0#64 0#64 0#16 0#64 0#64 0 0)

/-- The hart after one step on a word, with x registers set before. -/
def after (nbits w : Nat) (f : Hart → Hart) : Option Hart := match step ((placed nbits w).modHart 1 f) with
  | .next t => t.hart? t.cur
  | _ => none

/-- addi x10, x0, 42. -/
theorem test_step_addi : (after 32 0x02A00513 id).map (fun x => x.rx 10#5) = some 42#64 := by decide +kernel
/-- An instruction of 4 bytes leaves pc 4 further on, and counts as one. -/
theorem test_step_pc : (after 32 0x02A00513 id).map (fun x => (x.pc, x.instret)) = some (placedAt + 4#64, 1) := by decide +kernel
/-- The base: division by zero gives all ones. -/
theorem test_step_div : (after 32 0x02B54533 fun x => x.wx 10#5 7#64).map (fun x => x.rx 10#5) = some (-1#64) := by decide +kernel
/-- sub of a register from itself as source and destination. -/
theorem test_step_sub : (after 32 0x40A50533 fun x => x.wx 10#5 7#64).map (fun x => x.rx 10#5) = some 0#64 := by decide +kernel
/-- R257: pwset a0. -/
theorem test_step_pwset : (after 32 0x4005007B fun x => x.wx 10#5 0x1_0000_000F#64).map (fun x => x.pw) = some 0xF#32 := by
  decide +kernel
/-- R257: pwpop a0, a1. -/
theorem test_step_pwpop :
    (after 32 0x4A05857B fun x => { x.wx 11#5 0xFF#64 with pw := 0x1F3#32 }).map (fun x => x.rx 10#5) = some 6#64 := by
  decide +kernel
/-- R156: a write of dxvcnt keeps each field within its bounds. -/
theorem test_step_vcnt : (after 32 0x8C059573 fun x => x.wx 11#5 0x1FFF00#64).map (fun x => x.vcnt) = some ⟨1, 128, 16⟩ := by
  decide +kernel
/-- R174: vand.v1, v2, v3 with m = 0 in the 16 lanes. -/
theorem test_step_vand : (after 32 0x2431008B fun x => (x.wv 2#5 (Vector.replicate 16 0xF0#32)).wv 3#5 (Vector.replicate 16 0x3C#32)).map
    (fun x => x.lane 1#5 15) = some 0x30#32 := by decide +kernel
/-- R181: the example of vquant.e4m3 leaves 0x7D, 0x5B and 0xFD in bytes 0 to 2, and VTAG 0x23F7. -/
theorem test_step_vquant : (after 32 0x6C52B30B fun x =>
      { ((x.wv 5#5 (((Vector.replicate 16 0#32).set 0 0x41A00000#32).set 1 0x3F800000#32 |>.set 2 0xC1A00000#32)).wx 5#5 0x200#64) with
        vcnt := ⟨64, 128, 3⟩ }).map
    (fun x => (x.lane 6#5 0, (x.v[6]).tag)) = some (0x00FD5B7D#32, 0x23F7#16) := by decide +kernel
/-- R141: ECALL from U-mode with a handler: cause 8, SPP 0, pc at the handler. -/
theorem test_step_ecall : (after 32 0x00000073 fun x => { x with csr := { x.csr with stvec := 0x8000#64 } }).map
    (fun x => (x.csr.scause, x.pc, x.priv)) = some (8#64, 0x8000#64, .s) := by decide +kernel
/-- R142: an all-zero word is illegal: cause 2 with the word in stval. -/
theorem test_step_illegal : (after 32 0x00000000 fun x => { x with csr := { x.csr with stvec := 0x8000#64, stval := 5#64 } }).map
    (fun x => (x.csr.scause, x.csr.stval)) = some (2#64, 0#64) := by decide +kernel

/-! ## Witnesses: states and operands that meet the statements' hypotheses -/

/-- A state whose hart holds an address in x5. -/
def at5 (v : Word) : State := (placed 32 0).modHart 1 fun y => y.wx 5#5 v

theorem at5_ready (v : Word) (n : Names) : Ready (at5 v) (hartOf (at5 v)) n := by
  constructor
  · rfl
  · have : (at5 v).compactRules (hartOf (at5 v)) = false := rfl
    simp [this, Names.classOk]
  · intro r _
    have : (hartOf (at5 v)).regs = [] := rfl
    rw [this]
    trivial
  · intro r _; rfl
  · rfl
  · rfl

theorem at5_plain (v : Word) : PlainReady (at5 v) (hartOf (at5 v)) where
  out := rfl
  log := rfl
  accs := fun p h => by cases h
  entries := fun p h => by cases h
  travel := rfl

theorem at5_inv (v : Word) : (at5 v).Inv := by
  show Memory.wf (placed 32 0).mem = true
  decide +kernel

theorem reaches_of (s : State) (x : Hart) (va : Word) (w : Nat) (kind : AccKind) (key : Nat) (tag : Option (BitVec 16))
    (h : (match s.route (Req.hart va w kind (x.ctx s.cur)) x.iface with
      | .at (.mem k t) false _ => k == key && t == tag
      | _ => false) = true)
    (hm : (!(s.onMesh (x.ctx s.cur) va) || (s.laneClear (.plain s.cur) x.iface (lineSpot va) && s.responds x.iface va)) = true) :
    Reaches s x va w kind key tag := by
  constructor
  · split at h
    · rename_i k t fill e
      simp only [Bool.and_eq_true, beq_iff_eq] at h
      rw [e, h.1, h.2]
      exact ⟨_, rfl⟩
    · cases h
  · intro h
    simpa [h] using (show _ ∧ _ by simpa [h] using hm).1
  · intro h
    simpa [h] using (show _ ∧ _ by simpa [h] using hm).2

/-- The state that holds the address of the placed instruction, and its hart: 64 bytes of DRAM there are readable. -/
abbrev sM : State := at5 placedAt
/-- Its hart. -/
abbrev xM : Hart := hartOf sM
/-- The location of that address. -/
abbrev kM : Nat := dramKey 0 0x1000000
/-- The state whose hart holds an address of its scratch. -/
abbrev sW : State := at5 0x100#64

theorem witness_lane_operations : ∃ L, laneForm (.vadd false .i32 1#5 2#5 3#5) = some L ∧
    Ready sM xM (vNames L.xs [] (L.vd :: L.vs) [] .alone) := ⟨_, rfl, at5_ready _ _⟩
theorem witness_lane_comparisons : Ready sM xM (vNames [] [] [1#5, 2#5] [] .alone) := at5_ready _ _
theorem witness_lane_reductions : Ready sM xM (vNames [] [] [1#5, 2#5] [] .alone) := at5_ready _ _
theorem witness_quant_and_extract : Ready sM xM (vNames [5#5] [] [1#5, 2#5] [] .alone) ∧
    Ready sM xM (vNames [] [10#5] [2#5] [] .alone) := ⟨at5_ready _ _, at5_ready _ _⟩
theorem witness_predicate_word : Ready sM xM (xNames [5#5] [] .alone) ∧ Ready sM xM (xNames [] [] .alone) ∧
    Ready sM xM (xNames [5#5] [10#5] .alone) := ⟨at5_ready _ _, at5_ready _ _, at5_ready _ _⟩
theorem witness_base_writes_x : Ready sM xM (baseNames (.alu .add 10#5 5#5 5#5)) ∧
    (baseWritesX xM (.alu .add 10#5 5#5 5#5)).isSome = true := ⟨at5_ready _ _, rfl⟩
theorem witness_base_writes_f : Ready sM xM (baseNames (.farith .add 0#3 1#5 2#5 3#5)) ∧
    (baseWritesF xM (.farith .add 0#3 1#5 2#5 3#5)).isSome = true := ⟨at5_ready _ _, rfl⟩
theorem witness_base_jumps : Ready sM xM (baseNames (.jalr 1#5 5#5 0#12)) ∧
    (∃ rd pc, baseJumps xM (.jalr 1#5 5#5 0#12) = some (rd, pc) ∧ pc.toNat % 4 = 0) ∧
    (∃ rd pc, baseJumps xM (.jalr 1#5 5#5 2#12) = some (rd, pc) ∧ pc.toNat % 4 ≠ 0) ∧
    brTaken .ne (xM.rx 5#5) (xM.rx 5#5) = false :=
  ⟨at5_ready _ _, ⟨_, _, rfl, by decide +kernel⟩, ⟨_, _, rfl, by decide +kernel⟩, by decide +kernel⟩
theorem witness_base_traps : baseUnrounded { xM with frm := 5#3 } (.farith .add 7#3 1#5 2#5 3#5) = true := by decide +kernel
theorem reach_load : Reaches sM xM placedAt 8 .load kM none := reaches_of _ _ _ _ _ _ _ (by decide +kernel) (by decide +kernel)
theorem reach_store : Reaches sM xM placedAt 8 .store kM none := reaches_of _ _ _ _ _ _ _ (by decide +kernel) (by decide +kernel)
theorem reach_amo : Reaches sM xM placedAt 8 .amo kM none := reaches_of _ _ _ _ _ _ _ (by decide +kernel) (by decide +kernel)
theorem reach_line : Reaches sM xM placedAt 64 .load kM none := reaches_of _ _ _ _ _ _ _ (by decide +kernel) (by decide +kernel)
theorem reach_line_store : Reaches sM xM placedAt 64 .store kM none := reaches_of _ _ _ _ _ _ _ (by decide +kernel) (by decide +kernel)
theorem reach_window : Reaches sW (hartOf sW) 0x100#64 8 .store (coreKey 0 0 0 0x100) none :=
  reaches_of _ _ _ _ _ _ _ (by decide +kernel) (by decide +kernel)

theorem witness_base_loads : Ready sM xM (loadNames .d 10#5 5#5) ∧ PlainReady sM xM ∧ NoEntry sM xM (xM.rx 5#5) ∧
    (xM.rx 5#5).toNat % 8 = 0 ∧ Reaches sM xM (xM.rx 5#5) 8 .load kM none ∧ sM.poisoned kM 8 = false :=
  ⟨at5_ready _ _, at5_plain _, (fun p (h : p ∈ ([] : List _)) => by cases h), by decide +kernel, reach_load, by decide +kernel⟩
theorem witness_base_stores : sM.Inv ∧ Ready sM xM (storeNames .d 5#5 6#5) ∧ PlainReady sM xM ∧ (xM.rx 5#5).toNat % 8 = 0 ∧
    Reaches sM xM (xM.rx 5#5) 8 .store kM none :=
  ⟨at5_inv _, at5_ready _ _, at5_plain _, by decide +kernel, reach_store⟩
theorem witness_atomics : sM.Inv ∧ PlainReady sM xM ∧ (xM.rx 5#5).toNat % 8 = 0 ∧ sM.poisoned kM 8 = false ∧
    sM.fenceGate sM.cur xM .md = none ∧ Reaches sM xM (xM.rx 5#5) 8 .amo kM none ∧ Reaches sM xM (xM.rx 5#5) 8 .store kM none ∧
    xM.resv ≠ some (kM / 64) :=
  ⟨at5_inv _, at5_plain _, by decide +kernel, by decide +kernel, by decide +kernel, reach_amo, reach_store, by decide +kernel⟩
theorem witness_atomics_misaligned : ((hartOf (at5 (placedAt + 4#64))).rx 5#5).toNat % 8 ≠ 0 := by decide +kernel
theorem witness_plain_reads : ∃ F, readForm xM (.vld false 1#5 5#5 0#7) = some F ∧ Ready sM xM F.names ∧ PlainReady sM xM ∧
    F.wants = [⟨placedAt, .load 64, .load, true⟩] ∧ Unbuffered sM xM placedAt (.load 64) F.whole ∧
    Reaches sM xM placedAt (Piece.load 64).width .load kM none ∧ clean sM kM (.load 64) = true :=
  ⟨_, rfl, at5_ready _ _, at5_plain _, by decide +kernel, fun o h => by cases h; decide +kernel, reach_line, by decide +kernel⟩
theorem witness_plain_writes : ∃ F, writeForm xM (.sttag 6#5 5#5 0#7) = some F ∧ sM.Inv ∧ Ready sM xM F.names ∧ PlainReady sM xM ∧
    F.wants = [⟨placedAt, .store [] (some 0#16), .store, true⟩] ∧
    Reaches sM xM placedAt (Piece.store [] (some 0#16)).width .store kM none :=
  ⟨_, rfl, at5_inv _, at5_ready _ _, at5_plain _, by decide +kernel, reaches_of _ _ _ _ _ _ _ (by decide +kernel) (by decide +kernel)⟩
theorem witness_access_split : (0x101#64 : Word).toNat % 8 ≠ 0 ∧ (0x101#64 : Word).toNat % 2 ^ 47 + 8 ≤ 2 ^ 47 := by decide
theorem witness_relaxed_loads : ∃ F, relaxedForm xM (.ldAqD .md 10#5 5#5) = some F ∧ Ready sM xM F.names ∧
    F.addr.toNat % F.width = 0 ∧ sM.relaxedOk sM.cur F.wants = true :=
  ⟨_, rfl, at5_ready _ _, by decide +kernel, by decide +kernel⟩
theorem witness_relaxed_stores : ∃ F, postForm xM (.stRlD .md 6#5 5#5) = some F ∧ Ready sM xM F.names ∧
    F.addr.toNat % F.width = 0 ∧ sM.relaxedOk sM.cur F.wants = true ∧ sM.storeRoom xM F.wants = true ∧ sM.incomplete sM.cur = [] :=
  ⟨_, rfl, at5_ready _ _, by decide +kernel, by decide +kernel, by decide +kernel, by decide +kernel⟩
theorem witness_fences : Ready sM xM (xNames [] [] .leaves) ∧ sM.fenceGate sM.cur xM .sys = none ∧
    Ready sM xM (xNames [] [] .alone) ∧ xM.priv = .u := ⟨at5_ready _ _, by decide +kernel, at5_ready _ _, rfl⟩
theorem witness_async_issue : ∃ F, opForm sM xM (.baddD .md 10#5 5#5 6#5) = some F ∧ Ready sM xM F.names ∧ F.trap = none ∧
    sM.acquiring sM.cur = false ∧ sM.outstanding sM.cur < 8 ∧ badHandle F.issue.kind = false :=
  ⟨_, rfl, at5_ready _ _, by decide +kernel, by decide +kernel, by decide +kernel, rfl⟩
theorem witness_async_bad_handle : ∃ F, opForm sW (hartOf sW) (.bqdeq .md 10#5 6#5) = some F ∧ F.trap = none ∧
    badHandle (OpKind.deq 0xFFFFFFFFFFFFFFFF#64) = true := ⟨_, rfl, rfl, by decide +kernel⟩
theorem witness_async_traps : ∃ F, opForm sW (hartOf sW) (.baddD .md 10#5 5#5 6#5) = some F ∧ Ready sW (hartOf sW) F.names ∧
    F.trap = some (7, 0x100#64) := ⟨_, rfl, at5_ready _ _, by decide +kernel⟩
theorem witness_engine_issue : ∃ F, engineForm xM (.cpy 10#5 5#5) = some F ∧ Ready sM xM F.names ∧ F.trap = none ∧
    sM.acquiring sM.cur = false ∧ ((tgetD sM.engines (4 * xM.cluster + sM.winOf xM % 96 / 24) []).countP fun c => !c.started) < 16 :=
  ⟨_, rfl, at5_ready _ _, by decide +kernel, by decide +kernel, by decide +kernel⟩
theorem witness_engine_traps : ∃ F, engineForm (hartOf (at5 8#64)) (.cpy 10#5 5#5) = some F ∧ F.trap = some (4, 8#64) :=
  ⟨_, rfl, by decide +kernel⟩

/-- The state in which the hart's group holds its plinth's lease. -/
def leased : State := sM.modPlinth 0 fun p => { p with holder := some xM.group }
theorem leased_ready (n : Names) : Ready leased (hartOf leased) n := by
  constructor
  · rfl
  · have : leased.compactRules (hartOf leased) = false := rfl
    simp [this, Names.classOk]
  · intro r _
    have : (hartOf leased).regs = [] := rfl
    rw [this]
    trivial
  · intro r _; rfl
  · rfl
  · rfl
theorem witness_tile_commands : ∃ g F F', leased.groupOf? (hartOf leased) = some g ∧
    tileForm leased (hartOf leased) g (.tzero 0#2) = some F ∧ F.trap = none ∧ F.future = none ∧
    tileForm leased (hartOf leased) g (.tstat 10#5) = some F' ∧ F'.trap = none ∧ F'.future = some (10#5, .zero) ∧
    Ready leased (hartOf leased) F.names ∧ leased.acquiring leased.cur = false :=
  ⟨_, _, _, rfl, rfl, by decide +kernel, rfl, rfl, rfl, rfl, leased_ready _, by decide +kernel⟩
theorem witness_tile_traps : ∃ g F, sM.groupOf? xM = some g ∧ tileForm sM xM g (.tzero 0#2) = some F ∧ F.trap.isSome = true :=
  ⟨_, _, rfl, rfl, by decide +kernel⟩
theorem witness_leases : ∃ g, leased.groupOf? (hartOf leased) = some g ∧ (leased.plinth (leased.plinthOf g)).holder = some (hartOf leased).group :=
  ⟨_, rfl, by decide +kernel⟩
/-- The state in which another group holds it. -/
def leasedOut : State := sM.modPlinth 0 fun p => { p with holder := some 99 }
theorem witness_leases_behind : ∃ g, leasedOut.groupOf? (hartOf leasedOut) = some g ∧
    (leasedOut.plinth (leasedOut.plinthOf g)).holder = some 99 ∧ 99 ≠ (hartOf leasedOut).group ∧
    (leasedOut.plinth (leasedOut.plinthOf g)).waiters = [] := ⟨_, rfl, by decide +kernel, by decide +kernel, by decide +kernel⟩
/-- A hart with a ring's base in x5 and its lines in x6. -/
def ringState : State := (at5 0#64).modHart 1 fun y => y.wx 6#5 2#64
theorem witness_rings : ringState.ringPlace 0 0 0#64 2 = true ∧ ringState.opGate ringState.cur (hartOf ringState) .cl [] = [] ∧
    ringState.ringNamed 0 0 = false ∧ (ringState.tringPending 0 0 fun _ _ => true) = false := by decide +kernel
theorem witness_rings_advance :
    let s := ringState.modWindow 0 fun v => { v with rings := tset v.rings 0 ⟨0#64, 4, 0#32, 0#32, 0⟩ }
    s.ringLines 0 0 (fun o => o.hart == s.cur) = 4 ∧ (s.tringPending 0 0 fun _ o => o.hart == s.cur) = false ∧ s.fenceGate s.cur (hartOf s) .cl = none := by decide +kernel
theorem witness_chisel_unit : ∃ F, unitForm xM (.gbCfg 5#5 6#5) = some F ∧ Ready sM xM F.names ∧ sM.unitFree sM.cur xM = true :=
  ⟨_, rfl, at5_ready _ _, by decide +kernel⟩
theorem witness_chisel_res : Ready sM xM (xNames [] [10#5] .enters) ∧ sM.ops = [] := ⟨at5_ready _ _, rfl⟩
theorem witness_chisel_records : ∃ F, recordForm xM (.gbLdf 5#5) = some F ∧ Ready sM xM F.names ∧ F.addr.toNat % 4 = 0 ∧
    PlainReady sM xM ∧ sM.forward xM F.addr (List.range (sM.peekLen sM.cur xM F.addr)) false = .none ∧
    Reaches sM xM F.addr 16 .load kM none ∧
    (∀ fill, sM.route (Req.hart F.addr 16 .load (xM.ctx sM.cur)) xM.iface = .at (.mem kM none) false fill →
      recordBytes (natOfBytes (memRead sM.mem kM 1) % 16) ≤ roomOf F.addr fill) := by
  refine ⟨_, rfl, at5_ready _ _, by decide +kernel, at5_plain _, by decide +kernel,
    reaches_of _ _ _ _ _ _ _ (by decide +kernel) (by decide +kernel), fun fill hf => ?_⟩
  have h : (match sM.route (Req.hart placedAt 16 .load (xM.ctx sM.cur)) xM.iface with
    | .at _ _ f => decide (recordBytes (natOfBytes (memRead sM.mem kM 1) % 16) ≤ roomOf placedAt f)
    | _ => false) = true := by decide +kernel
  have hf' : sM.route (Req.hart placedAt 16 .load (xM.ctx sM.cur)) xM.iface = .at (.mem kM none) false fill := hf
  rw [hf'] at h
  exact of_decide_eq_true h
theorem witness_chisel_images : Ready sM xM (xNames [5#5] [] .leaves) ∧ placedAt.toNat % 64 = 0 ∧ sM.unitFree sM.cur xM = true ∧
    cutAt placedAt 512 = none ∧ sM.Inv ∧ PlainReady sM xM ∧ Writable sM xM placedAt (.store (xM.chisel.image.map some) (some 0x4000#16)) ∧
    Reaches sM xM placedAt (Piece.store (xM.chisel.image.map some) (some 0x4000#16)).width .store kM none ∧
    Unbuffered sM xM placedAt (.load 512) false ∧ Reaches sM xM placedAt 512 .load kM none :=
  ⟨at5_ready _ _, by decide +kernel, by decide +kernel, by decide +kernel, at5_inv _, at5_plain _, ⟨by decide +kernel, by decide +kernel⟩,
    reaches_of _ _ _ _ _ _ _ (by decide +kernel) (by decide +kernel), (fun o h => by cases h; decide +kernel),
    reaches_of _ _ _ _ _ _ _ (by decide +kernel) (by decide +kernel)⟩
/-- A hart with a one-dimensional OUT, an edge record's address in x5 and a mailbox's in x6. -/
def emitState : State := (at5 0x100#64).modHart 1 fun y =>
  { y.wx 6#5 (0x40000#64) with chisel := { y.chisel with outdim := 1 } }
theorem witness_gb_emit : (hartOf emitState).chisel.outdim ≠ 0 ∧ ((hartOf emitState).rx 5#5).toNat % 256 = 0 ∧
    (inWindowSpace ((hartOf emitState).rx 5#5) && vaHome ((hartOf emitState).rx 5#5) == winHome (emitState.winOf (hartOf emitState))) = true ∧
    (sendTarget ((hartOf emitState).rx 6#5)).isSome = true := by decide +kernel
theorem witness_futures : Ready sM xM (futureNames [10#5] 5#5 true) ∧ xM.isBusy 5#5 = false ∧ xM.pendingOp 5#5 = none ∧
    tget xM.regs 5 = none := ⟨at5_ready _ _, rfl, rfl, rfl⟩
/-- A hart with x6 pending. -/
def pendingState : State := sM.modHart 1 fun y => { y with regs := [(6, .pending 7)] }
theorem witness_futures_pending : (hartOf pendingState).pendingOp 6#5 = some 7 ∧ (hartOf pendingState).isBusy 6#5 = false := by
  decide +kernel
theorem pending_ready : Ready pendingState (hartOf pendingState) (futureNames [10#5] 6#5 true) where
  hart := rfl
  cls := by decide +kernel
  regs := by
    intro r hr
    have : r = 6#5 ∨ r = 10#5 := by simpa [futureNames, xNames, Names.xs] using hr
    obtain rfl | rfl := this
    · show (6#5 : RegIdx) ∈ [(6#5 : RegIdx)]
      decide
    · trivial
  vregs := fun r h => by cases h
  lone := rfl
  leads := rfl
theorem witness_receive : Ready sM xM (xNames [5#5] [10#5] .enters) ∧ (xM.rx 5#5 &&& 0xFFFFFFFF#64) = 0#64 :=
  ⟨at5_ready _ _, by decide +kernel⟩
theorem witness_receive_waits :
    let x := hartOf (at5 1#64)
    let s1 := ((at5 1#64).freeSlot 0 x.heldSlot).modHart 1 fun y => { y with heldSlot := 0#64 }
    (x.rx 5#5 &&& 0xFFFFFFFF#64) ≠ 0#64 ∧ s1.bestMbox 0 (s1.recvFrom 1 x 0 1#64) = none := by decide +kernel
/-- A window whose mailbox 0 is enabled and holds one message. -/
def mailState : State := (at5 0x40000#64).putConf 0 0 (2 ^ 7 * 0 + 2 ^ 24)
theorem witness_mailboxes : (at5 0x40000#64).ownMbox (hartOf (at5 0x40000#64)) 0x40000#64 = some 0 ∧
    (at5 0x40000#64).ctlReady 0 = true ∧ sM.ownMbox xM placedAt = none := by decide +kernel
theorem witness_hart_control : Ready sM xM { xNames [] [] .leaves with hint := true } ∧ sM.incomplete sM.cur = [] ∧
    xM.stopReq = false ∧ xM.due = [] ∧ sM.homeValid (vaHome (xM.rx 5#5)) = true ∧ sM.homeValid 5 = false :=
  ⟨at5_ready _ _, by decide +kernel, rfl, rfl, by decide +kernel, by decide +kernel⟩
theorem witness_csr_access : (sM.csrRead xM 0x8C0).isSome = true ∧ Ready sM xM (csrNames .rw 10#5 5#5 (csrPair 0x8C0 true)) ∧
    sM.csrRead xM 0x8C4 = none := ⟨by decide +kernel, at5_ready _ _, by decide +kernel⟩
/-- The hart of `sM`, asked to stop, and in a handler that a stop has met. -/
theorem witness_hart_control_stop : (hartOf (sM.modHart 1 fun y => { y with stopReq := true })).stopReq = true ∧
    Ready (sM.modHart 1 fun y => { y with stopReq := true }) (hartOf (sM.modHart 1 fun y => { y with stopReq := true })) (xNames [] [] .alone) :=
  ⟨rfl, rfl, rfl, (fun _ _ => trivial), (fun r h => by cases h), rfl, rfl⟩
theorem witness_dxtstat : ∃ g, sM.groupOf? xM = some g ∧ g.tiles = [] ∧ Ready sM xM (csrNames .rw 10#5 5#5 .leaves) :=
  ⟨_, rfl, rfl, at5_ready _ _⟩
theorem witness_trap_entry : ({ xM with csr := { xM.csr with stvec := 0x8000#64 } }).priv = .u ∧ xM.csr.stvec = 0#64 := ⟨rfl, rfl⟩
theorem witness_system : Ready sM xM (xNames [] [] .alone) ∧ xM.priv = .u ∧ xM.stopSret = false ∧ xM.pair = none :=
  ⟨at5_ready _ _, rfl, rfl, rfl⟩
theorem witness_system_stop : let s := sM.modHart 1 fun y => { y with priv := .s, stopSret := true };
    Ready s (hartOf s) (xNames [] [] .alone) ∧ (hartOf s).stopSret = true ∧ (hartOf s).csr.stSPP = false :=
  ⟨⟨rfl, rfl, (fun _ _ => trivial), (fun r h => by cases h), rfl, rfl⟩, rfl, rfl⟩
theorem witness_check_order : sM.hart? sM.cur = some xM ∧ xM.pair = none ∧ xM.trails = false ∧
    (baseNames (.farith .add 0#3 1#5 2#5 3#5)).classOk true = false ∧ 6#5 ∈ (baseNames (.alu .add 10#5 6#5 5#5)).xs :=
  ⟨rfl, rfl, rfl, by decide +kernel, by decide +kernel⟩
theorem witness_decode_encode : ∃ e, (Instr.vadd true .f32 1#5 2#5 3#5).wf = true ∧
    encode (.vadd true .f32 1#5 2#5 3#5) = some e := ⟨_, rfl, rfl⟩
theorem witness_illegal_words : (0#32 : W32).extractLsb' 0 2 ≠ 3#2 ∧ (fieldsOf 0x3F#32).opc = 0x3F#7 ∧
    (fieldsOf 0xFFFFFF8B#32).opc = 0x0B#7 ∧ 0x28#6 < (fieldsOf 0xFFFFFF8B#32).op6 := by decide
theorem witness_step_runs_decoded :
    let s0 : State := { (placed 32 0x13).refresh with ncyc := (placed 32 0x13).ncyc + 8 }
    s0.frozen = none ∧ s0.mayIssue s0.cur (hartOf s0) = true ∧ (hartOf s0).fetchFail = none ∧
      s0.boundaryNow s0.cur (hartOf s0) = false ∧ s0.icacheFind (hartOf s0) (hartOf s0).pc = none ∧
      s0.poisoned (kM / 64 * 64) 64 = false ∧ s0.responds (hartOf s0).iface (hartOf s0).pc = true ∧
      s0.chosen s0.cur (hartOf s0) = true := by decide +kernel
theorem witness_event_turns : ∃ s : State, s.tape = [⟨3, .event .heartbeat 5⟩] ∧ encode .heartbeat = none ∧
    Instr.heartbeat.wf = true ∧ Instr.heartbeat.subjOk 5 = true ∧ s.frozen = none :=
  ⟨{ State.reset with tape := [⟨3, .event .heartbeat 5⟩] }, rfl, rfl, rfl, by decide, rfl⟩
theorem witness_step_keeps_inv : State.reset.Inv ∧ ∃ t, step State.reset = .next t := ⟨(rfl : Memory.wf [] = true), _, rfl⟩

/-! ## Witnesses of the event statements, and of the clauses above that wait or stop -/

/-- `sM` with its hart changed, that hart being the subject. -/
def eventAt (f : Hart → Hart) : State := { sM.modHart 1 f with subj := 1 }
/-- An operation of the hart of `sM`, with its release done. -/
def opMade (k : OpKind) : Op := opOf sM xM noForm ⟨k, .status, .md, [], false⟩
/-- `sM` with one operation, number 7, that is the subject. -/
def withOp (k : OpKind) : State := { sM with subj := 7, ops := [(7, opMade k)] }

/-- Hart 1 leads hart 2, which trails it: its comparison is the one given. -/
def paired (c : List Word × Nat) : State :=
  let s := sM.modHart 1 fun z => { z with pair := some 2, cmp := some c };
  { s with subj := 1, harts := tset s.harts 2 { xM with trails := true, pair := some 1 } }
/-- The hart's block past its deadline, with DLMISS. -/
def lateBlock : State :=
  { ((sM.modBlock 3 fun b => { b with nodl := false, tag := 1#16 }).modGroup xM.group fun g => { g with dlmiss := true }) with subj := 3, ncyc := 2 ^ 13 }
/-- The hart's grid, whose one hart waits at its barrier, listed. -/
def hungGrid : State :=
  { ((sM.modHart 1 fun y => { y with wait := some ⟨1, 0#64, 0, true⟩ }).modGroup xM.group fun g => { g with nohang := false }) with subj := 4 }

/-- The operation of `withOp` is on its way, its lane clear and its gate open. -/
def opReady (k : OpKind) : Bool :=
  decide ((opMade k).st = .issued) && (withOp k).opLane 7 (opMade k) && (withOp k).gateClear (opMade k).gate && (opMade k).drained
/-- Its line is at `kM`, and sound. -/
def opHere (k : OpKind) (kind : AccKind) (n : Nat) : Bool :=
  match (withOp k).bankLine (opMade k).ctx kind placedAt n (siteOfHome (opMade k).cluster) with
  | (.at j, t) => decide (j = kM) && !t.poisoned j n
  | _ => false
/-- The state of an operation at queue 0 of memory chiplet 0, whose descriptor has HEAD 0 and the TAIL given. -/
def atQueue (k : OpKind) (log tail : Nat) : State := (withOp k).putBankQueue 0 0 (BitVec.ofNat 128 (1 + 2 ^ 53 * log + 2 ^ 96 * tail))

/-- A relaxed load of the line of `sM`, and one of a page that no valid leaf maps. -/
def accOf (va : Word) : Acc := ⟨1, some (.x 5#5 .d), [⟨va, .load 8, .todo, none, false⟩], xM.ctx 1, [], noForm, 0⟩
/-- Those accesses as numbers 9 and 10, the one given the subject. -/
def atHome (n : Nat) : State := { sM with subj := n, accs := [(9, accOf placedAt), (10, accOf (placedAt + 0x1000000#64))] }
/-- What an access of `atHome` is answered. -/
def accOut (n : Nat) (va : Word) : PortRes × State := (atHome n).request (Req.hart va 8 .load (xM.ctx 1)) (.load 8) (.acc n 0) true none xM.iface
/-- A post-buffer entry of hart 1, sent, to the line given. -/
def pbOf (va : Word) : PbEnt :=
  ⟨0, va, (List.replicate 8 (some 7#8)) ++ List.replicate 56 none, none, [1], 0#16, .u, 0, [], [], some 0, true, true, false, false⟩
/-- The hart's access has missed: a leaf of no valid page is at the address given, or none. -/
def missedAt (leaf : Nat) : State := (({ atHome 10 with mem := memWrite sM.mem (dramKey 0 0x210008) ((bytesOfNat 8 leaf).map some) }).request
  (Req.hart (placedAt + 0x1000000#64) 8 .load (xM.ctx 1)) (.load 8) (.acc 10 0) true none xM.iface).2

/-- The hart of `sM` as a compact one, changed as given. -/
def mover (f : Hart → Hart) : State := eventAt fun y => f { y with full := false, mig := ⟨4#16, 4#16, 1#10⟩ }

/-- Eight ready compact harts on core 0 of cluster 0, and DXLOAD as it stands. -/
def crowded : State :=
  let x := hartOf (mover fun y => { y with ready := some 0, lastIssue := none });
  let s : State := { sM with subj := 0, harts := (List.range 8).map fun i => (1 + i, { x with slot := i, hidx := i }) };
  s.modCluster 0 fun k => { k with dxload := BitVec.ofNat 64 (8 * 2 ^ 8 + 2 ^ 16) }
/-- No core of a cluster in service. -/
def coresOut (s : State) (cl : Nat) : State := (List.range 100).foldl (fun t i => t.modCore (cl * 100 + i) fun c => { c with retired := true }) s

/-- `sM` with its block's and its group's places in a stop, and its hart, as given. -/
def stopAt (away : Nat) (st : BlockStatus) (f : Hart → Hart) : State :=
  ((eventAt f).modGroup 2 fun g => { g with away := away }).modBlock 3 fun b => { b with status := st }
/-- The subject. -/
def about (s : State) (n : Nat) : State := { s with subj := n }

/-- The granules of window 0 in a frame. -/
def framed (s : State) : State := (s.setGran 0 0 (.frame placedAt)).setGran 0 16 (.frame placedAt)
/-- A block of the grid that waits for a place. -/
def newBlock : State :=
  let s := about (stopAt 0 .placed id) 13
  { s with blocks := tset s.blocks 13 { bareBlock 4 2 0 with status := .ready, index := 1, groups := [] } }
/-- The block of `sM` with a late deadline, and one that waits with an earlier one. -/
def lateOne : State :=
  let s := newBlock
  { (s.modBlock 3 fun b => { b with nodl := false, tag := 0x1200#16 }).modBlock 13 fun b => { b with nodl := false, tag := 0x1000#16 } with ncyc := 4096, subj := 0 }

/-- A tile command of the hart's group. -/
def tileOf (what : TileWhat) : Tile :=
  ⟨9, 2, 1, what, 0, 0, ⟨0#2, false, 0#3, false, false⟩, xM.ctx 1, [], noForm, none, false, 0, 0, 0, none, 0, 0#64, 0#64, 0#64⟩
/-- The plinth with its lease held by the group, and one command waiting. -/
def tiling (t : Tile) : State := about (sM.modPlinth 0 fun p => { p with holder := some 2, cmdLeft := 64, leaseEnd := 100000, queue := [t] }) 0
/-- An engine with one command. -/
def engineWith (what : CopyWhat) (f : CopyCmd → CopyCmd) : State :=
  about { sM with engines := [(0, [f (newCmd 9 what (xM.ctx 1) 0 0 0#16 true none .none 0)])] } 0
/-- A descriptor that copies 64 bytes. -/
def descM : Desc := ⟨placedAt, placedAt + 64#64, 6, [(1, 0, 0)], none⟩
/-- That command under way. -/
def moving (dst : Word) : State := engineWith (.plain [descM]) fun c => { c with started := true, todo := [{ descM with dst := dst }] }
/-- Mailbox 0 of window 0. -/
def mboxW : Word := winBase 0 + 0x40000#64
/-- A sendp to it, with the mailbox's configuration given. -/
def sending (conf : Nat) : State := (withOp (.send mboxW false [] 0 0)).putConf 0 0 conf
/-- EN, with one slot, which is free. -/
def roomConf : Nat := 8

/-- `sM` with bytes at offsets of the placed page, and the queue table at its last MiB. -/
def filled (cells : List (Nat × Nat × Nat)) : State :=
  { sM with
    subj := 0
    mod := { sM.mod with qtbase := placedAt + 0xF00000#64 }
    mem := cells.foldl (fun m c => memWrite m (dramKey 0 (0x1000000 + c.1)) ((bytesOfNat c.2.1 c.2.2).map some)) sM.mem }
/-- An address of that page. -/
def inPage (o : Nat) : Nat := placedAt.toNat + o
/-- A launch record of one hart at 0x20000, a pipeline of it at 0x22000 and a copy's descriptor at 0x24000. -/
def works : List (Nat × Nat × Nat) :=
  [ (0x20000, 128, inPage 0 + 2 ^ 64 * inPage 0x21000 + 2 ^ 128 * (1 + 2 ^ 19) + 2 ^ 640 + 2 ^ 656 + 2 ^ 672 + 2 ^ 896 * inPage 0 + 2 ^ 960 * 0xD0000),
    (0x22000, 8, 2 ^ 32), (0x22040, 8, inPage 0x20000), (0x24000, 16, inPage 0x8000 + 2 ^ 64 * inPage 0x8040) ]
/-- The 64 bytes of a packet or node of a kind, with its words at 16 and 24 and its codes at 32. -/
def packetBytes (kind a b c : Nat) : Nat := kind + 2 ^ 128 * a + 2 ^ 192 * b + 2 ^ 256 * c
/-- Queue 0 with one packet, and those records. -/
def queued (w : Nat) (more : List (Nat × Nat × Nat)) : State :=
  filled ([(0xF00000, 64, inPage 0x10000 + 2 ^ 96 + 2 ^ 128 * 4), (0x10000, 64, w)] ++ works ++ more)
/-- Its queue's packet is at hand, is the first, and passes its checks. -/
def takes (w : Nat) (more : List (Nat × Nat × Nat)) : Bool :=
  let s := queued w more
  decide (s.qServer 0 = some 0) && s.headFirst 0 0 && (match s.headPacket 0 with
    | .pk none bs => s.checkPacket (s.qCtx 0) false (packetWork bs) == .pass
    | _ => false)
/-- A packet's checks pass. -/
def checks (w : Nat) (more : List (Nat × Nat × Nat)) : Bool :=
  (filled (works ++ more)).checkPacket (schedCtx 0#16) false (packetWork (bytesOfNat 64 w)) == .pass
/-- They fail. -/
def halts (w : Nat) : Bool := match (filled []).checkPacket (schedCtx 0#16) false (packetWork (bytesOfNat 64 w)) with
  | .fault _ _ => true
  | _ => false
/-- A node: PREDS and successors. -/
def nodeBytes (kind preds succ a b c : Nat) : Nat := packetBytes kind a b c + 2 ^ 16 * preds + 2 ^ 64 * (2 ^ 64 - 1 - 0xFFFF + succ)

/-- A packet of queue 0 whose work is done. -/
def donePacket (parent : Option Nat) : State :=
  let t := (queued 0 []).takePacket 0 none (bytesOfNat 64 0)
  { t.2 with subj := t.1, packets := tmod t.2.packets t.1 fun p => { p with parent := parent, finished := true } }

/-- A graph at 0x23000 whose one running node, number 0, is as given, with the node 1 that COND may leave to. -/
def graphOf (node : Nat) (st : NodeSt) (more : List (Nat × Nat × Nat)) : State :=
  let w := packetBytes 3 (inPage 0x23000) 2 0
  let t := (queued w ([(0x23000, 64, node), (0x23040, 64, nodeBytes 0x17 1 0xFFFF 0 0 0)] ++ more)).takePacket 0 none (bytesOfNat 64 w)
  { t.2 with subj := 0, graphs := [(0, ⟨t.1, BitVec.ofNat 64 (inPage 0x23000), 2, [(0, st)], false⟩)] }
/-- A node's checks pass. -/
def nodeChecks (node : Nat) (more : List (Nat × Nat × Nat)) : Bool :=
  (filled (works ++ [(0x23000, 64, node)] ++ more)).checkNode (schedCtx 0#16) (BitVec.ofNat 64 (inPage 0x23000)) 2 0 == .pass
/-- A host ring at 0x9000, with WRIDX, PEND and COALN. -/
def hostRing (wr pend coaln : Nat) : List (Nat × Nat × Nat) :=
  [(0x9000, 64, (mkVa 0x3F0 0).toNat + 2 ^ 64 * wr + 2 ^ 128 * 4 + 2 ^ 160 * coaln + 2 ^ 192 * pend)]

/-- Every site READY, the edge verified, and the host home mapped. -/
def served (s : State) : State :=
  { s with boot := { s.boot with verified := true }, homeMap := tset s.homeMap 0x3F0 0x8000#16, sites := (List.range 576).map fun i => (i, ⟨6, 0, 0, 0, 0, 0, 0, false⟩) }
/-- A queue's record, unmapped. -/
def queueTable (w : Nat) : State := filled [(0xF00000, 64, inPage 0x10000 + 2 ^ 128 * 4 + w)]
/-- A page migration in the hardware's hands, with the leaf as given. -/
def pageMoves (leaf : Nat) (toDevice : Bool) : State :=
  { filled [] with
    mem := memWrite sM.mem (dramKey 0 0x210000) ((bytesOfNat 8 leaf).map some)
    pgMigs := [(0, ⟨0#64, 0#16, toDevice, false, false, 0, 0x100, placedAt, 0, []⟩)] }

/-- A good frame: 60 bytes and their check sequence. -/
def goodFrame : List Byte := List.replicate 60 7#8 ++ fcs (List.replicate 60 7#8)
/-- A port that receives into the placed page. -/
def receiving : State := { filled [] with eths := [(0, { (sM.eth 0) with en := true, log2n := 4, rxbase := placedAt + 0x40000#64 })] }
/-- An engine whose frame for port 0 is complete. -/
def framing : State := engineWith (.plain [descM]) fun c => { c with started := true, todo := [{ descM with dst := mkVa 0x240 0x1000000000 }], index := 1, frame := List.replicate 60 7#8 }
/-- A part in which every site and edge is in one STATE. -/
def sitesAt (st : Nat) : State := about { State.reset with sites := (List.range 592).map fun i => (i, ⟨st, 0, 0, 1, 0, 0, 0, false⟩) } 0
/-- A part with its waves under way. -/
def booting : State := about { State.reset with boot := { State.reset.boot with verified := true, t0 := some 0, waves := [(0, 0, 1)] }, ncyc := 1000 * usN } 0

/-- A delivery due, an answer come, the limits past, and a wait of 1 ms. -/
theorem witness_hart_events :
    (let s := eventAt fun y => { y with due := [⟨58, 0#64, 0#64⟩] };
      s.boundaryNow 1 (hartOf s) = true) ∧
    (let s := eventAt fun y => { y with plainOut := some 3, plainAns := some (.done true) };
      (hartOf s).plainOut = some 3 ∧ (hartOf s).plainAns = some (.done true)) ∧
    (let s := { eventAt fun y => { y with recvEnd := 1 } with ncyc := 100 };
      (hartOf s).recvEnd ≠ 0 ∧ (hartOf s).recvEnd = 1) ∧
    (let s := eventAt fun y => { y with yieldEnd := some 0, scrub := some 0 };
      (hartOf s).yieldEnd = some 0 ∧ (hartOf s).scrub = some 0) ∧
    (xM.status = .present ∧ xM.scrub = none ∧ xM.trails = false) ∧
    (let s := { eventAt fun y => { y with wait := some ⟨1, 0#64, 0, false⟩ } with ncyc := msN };
      s.listable (hartOf s) = true) := by decide +kernel
/-- A future done and one failed, at a hart and after its end; a relaxed load answered with data and with a failure. -/
theorem witness_future_events :
    (let s := { pendingState with subj := 7, ops := [(7, { opMade .copy with st := .done 1#64 })] };
      s.gateClear (opMade .copy).gate = true ∧ s.pairSynced 1 (hartOf s) = true ∧ (hartOf s).regOf 7 = some 6 ∧
      (hartOf s).status = .present) ∧
    (let s := eventAt fun y => { y with status := .ended };
      (hartOf s).status = .ended ∧ (hartOf s).regOf 7 = none) ∧
    (let a : Acc := ⟨1, some (.x 5#5 .d), [⟨placedAt, .load 8, .ans (.data (List.replicate 8 1#8) 0#16 false), none, false⟩], xM.ctx 1, [], noForm, 0⟩;
      let b : Acc := { a with pieces := [⟨placedAt, .load 8, .ans (.fail 50 4 0#64), none, false⟩] };
      a.performed = true ∧ b.performed = true ∧ accFail a.answers = none ∧ ansPoison a.answers = false ∧
      (accFail b.answers).isSome = true ∧ sM.pairSynced 1 xM = true) ∧
    (let x : Hart := { xM with regs := [(6, .busy 9)], vbusy := [(4, 9)] };
      tget x.regs (6#5 : RegIdx).toNat = some (.busy 9) ∧ tget x.vbusy (4#5 : RegIdx).toNat = some 9) := by decide +kernel
/-- The chisel unit finished, a pair that agrees, one that differs, and one that is late. -/
theorem witness_unit_and_pair :
    (let s : State := { (sM.modCore 3 fun c => { c with chiselEnd := some 0 }) with subj := 3 };
      (s.core 3).chiselEnd = some 0 ∧ 0 ≤ s.acyc) ∧
    (let s : Nat → State := fun v => { paired ([5#64], 0) with harts := tset (paired ([5#64], 0)).harts 2 { xM with trails := true, pair := some 1, cmp := some ([BitVec.ofNat 64 v], 1) } };
      (s 5).trailOf 1 = some (2, { xM with trails := true, pair := some 1, cmp := some ([5#64], 1) }) ∧
      ((s 6).trailOf 1).isSome = true ∧ (hartOf (s 5)).trails = false ∧ (hartOf (s 5)).released = false ∧
      (hartOf (s 5)).cmp = some ([5#64], 0)) ∧
    (let g := bitsOfEnc (encode .gend);
      let s (a b : Option (List Word)) : State := { paired ([g], 0) with
        harts := [(1, { xM with pair := some 2, cmp := a.map fun c => (c, 0) }),
          (2, { xM with trails := true, pair := some 1, cmp := b.map fun c => (c, 0) })] };
      let one (a b : Option (List Word)) : State := (s a b).modHart (if a.isSome then 2 else 1) fun y => { y with instret := y.instret + 1 };
      ((one (some [g]) none).trailOf 1).map (fun p => (p.2.cmp, isGend [g], p.2.past (hartOf (one (some [g]) none)))) = some (none, true, true) ∧
      ((one none (some [g])).trailOf 1).map (fun p => (p.2.cmp, (hartOf (one none (some [g]))).past p.2)) = some (some ([g], 0), true)) ∧
    (let s : State := { paired ([5#64], 0) with ncyc := 131072 };
      ((s.trailOf 1).map fun p => p.2.cmp) = some none ∧ 0 + 65536 ≤ s.acyc) := by decide +kernel
/-- A block past its deadline, and a grid whose hart waits and is listed. -/
theorem witness_deadline_and_hang :
    (let s := lateBlock;
      (tget s.blocks 3).isSome = true ∧
      ((tget s.blocks 3).map fun b => (b.nodl, b.dlDelivered, tagEarlier b.tag.toNat s.tagNow, s.blockOrder b)) = some (false, false, true, [1]) ∧
      ((s.groupOf? (hartOf s)).map fun g => g.dlmiss) = some true) ∧
    (let s := hungGrid;
      ((tget s.grids 4).map fun g => (s.gridHarts g == [(1, hartOf s)]) && g.hung != [(1, 0)] && (g.blocks.all fun i => decide (((tget s.blocks i).map fun b => b.status) = some .placed))) = some true ∧
      s.listable (hartOf s) = true ∧ s.busyFor 1 (hartOf s) = false ∧
      ((s.groupOf? (hartOf s)).map fun g => g.nohang) = some false) := by decide +kernel
/-- An operation of each kind at its bank, and queues that are disabled, empty, in use and full. -/
theorem witness_bank_events :
    (opReady (.bank .add true placedAt 5#64 0#64) = true ∧
      opHere (.bank .add true placedAt 5#64 0#64) .bank 8 = true) ∧
    (opReady (.vred .addF placedAt []) = true ∧ opHere (.vred .addF placedAt []) .bank 64 = true) ∧
    (opReady (.enq placedAt 3#64) = true ∧ opReady (.deq placedAt) = true ∧ opReady (.len placedAt) = true ∧
      opHere (.enq placedAt 3#64) .amo 8 = true ∧ opHere (.deq placedAt) .amo 8 = true) ∧
    (let d (log tail : Nat) := (atQueue (.len placedAt) log tail).bankQueue 0 0;
      isMC (vaHome placedAt) = true ∧ sM.homeValid (vaHome placedAt) = true ∧
      sM.net (siteOfHome 0) (vaHome placedAt) = .ok ∧ vaHome placedAt - 0x180 = 0 ∧ placedAt.toNat % 4096 = 0 ∧
      bqOk (sM.bankQueue 0 0) = false ∧ bqOk (d 3 0) = true ∧ bqLen (d 3 0) = 0 ∧ bqLen (d 3 1) ≠ 0 ∧
      bqLen (d 3 8) = 2 ^ bqLog (d 3 8) ∧ bqLen (d 3 7) < 2 ^ bqLog (d 3 7) ∧ bqEntry placedAt (d 3 0) 0 = placedAt ∧
      (atQueue (.len placedAt) 3 7).deqWaiters 0 0 = [] ∧ (atQueue (.len placedAt) 3 7).enqWaiters 0 0 = [] ∧
      bqOk (d 2 0) = false ∧ bqOk (d 20 0) = true ∧ bqOk (d 21 0) = false) ∧
    (let s := withOp (.bwait 0#64 0#32);
      opReady (.bwait 0#64 0#32) = true ∧ ((s.groupOf? xM).map fun g => g.bar.phase) = some 0#32 ∧
      ((s.modGroup xM.group fun g => { g with bar := { g.bar with phase := 1#32 } }).groupOf? xM).map (fun g => g.bar.phase) ≠ some 0#32) := by decide +kernel
/-- An arrival that completes its barrier and one that does not, and a block's partial at its grid object. -/
theorem witness_barrier_events :
    (let k : OpKind := .arrive 0#64 false 0 0#64 0;
      opReady k = true ∧
      ((withOp k).groupOf? xM).map (fun g => (g.parked, g.bar.later, g.bar.arrivals)) = some (false, [], []) ∧
      ((withOp k).groupOf? xM).map (fun g => (withOp k).allArrived ((withOp k).groupOrder g) [⟨1, 7, 0, 0#64, 0, (opMade k).ctx⟩]) = some true ∧
      let s := { withOp k with harts := tset (withOp k).harts 2 { xM with hidx := 1 } }.modGroup xM.group fun g => { g with harts := [1, 2] }; (s.groupOf? xM).map (fun g => s.allArrived (s.groupOrder g) [⟨1, 7, 0, 0#64, 0, (opMade k).ctx⟩]) = some false) ∧
    (let ga : GridArr := ⟨9, 3, placedAt, (opMade .copy).ctx, 0, 0#64, [], false⟩;
      let s (n : Nat) : State := { sM.putNat (kM + 8) 4 n with subj := 9, gridArrs := [(9, ga)] }; ([0, 1, 2].map fun n => match (s n).bankLine ga.ctx .bank ga.va 64 (siteOfHome 0) with | (.at k, t) => decide (k = kM) && !t.poisoned k 64 && decide (bitsOf (t.natAt k 64) 96 32 + 1 < bitsOf (t.natAt k 64) 64 32) | _ => false) = [false, false, true] ∧
      (tget sM.blocks 3).map (fun b => b.home) = some 0 ∧ sM.held = []) ∧
    (xM.barWait = none) ∧
    (let s := eventAt fun y => { y with wait := some ⟨1, placedAt, 0, false⟩ };
      (hartOf s).barWait = some placedAt ∧ (s.tagOf (hartOf s)).2 = true ∧
      ((s.modBlock 3 fun b => { b with nodl := false }).tagOf (hartOf s)).2 = false) := by decide +kernel
/-- A request answered and one held, and an entry that is performed. -/
theorem witness_home_events :
    (let a := accOf placedAt;
      a.pick 0 = some (0, ⟨placedAt, .load 8, .todo, none, false⟩) ∧ a.pick 1 = some (0, ⟨placedAt, .load 8, .todo, none, false⟩) ∧
      a.behind 0 ⟨placedAt, .load 8, .todo, none, false⟩ = false ∧ (atHome 9).gateClear a.gate = true) ∧
    ((match (accOut 9 placedAt).1 with | .ans _ => true | _ => false) = true ∧
      (match (accOut 10 (placedAt + 0x1000000#64)).1 with | .held => true | _ => false) = true) ∧
    (let e := pbOf placedAt; let s : State := { sM with pb := [(9, e)], subj := 9 };
      s.entryTurn 9 e = true ∧ s.lineTurn 9 e = true ∧ s.coreServes (serviceCluster 0x180) = true ∧ e.run = (0, List.replicate 8 (some 7#8)) ∧
      (match (s.request { Req.hart (addrPlus e.line 0) 8 .store ⟨0#16, .u, some 1, 0⟩ with direct := false } (.store e.run.2 none) (.entry 9) true none (siteOfHome 0)).1 with | .ans (.done _) => true | _ => false) = true ∧
      (match (s.request { Req.hart (addrPlus e.line 0 + 0x1000000#64) 8 .store ⟨0#16, .u, some 1, 0⟩ with direct := false } (.store e.run.2 none) (.entry 9) true none (siteOfHome 0)).1 with | .held => true | _ => false) = true ∧
      (match (s.request { Req.hart (mkVa 0x181 0) 8 .store ⟨0#16, .u, some 1, 0⟩ with direct := false } (.store e.run.2 none) (.entry 9) true none (siteOfHome 0)).1 with | .ans (.fail _ _ _) => true | _ => false) = true ∧
      s.gateClear e.gate = true ∧ e.since + 256 ≤ ({ s with ncyc := 256 } : State).ncyc) := by decide +kernel
/-- A miss on its way to the scheduler core, over a leaf and over none; its entry selected and replayed. -/
theorem witness_miss_events :
    (let s := missedAt 0;
      (s.missRecs.map fun m => (m.2.toCore, m.2.ctx.hart, decide (∃ e ∈ s.held, e.home = m.2.home ∧ e.stamp = m.2.stamp))) = [(true, some 1, true)] ∧
      (s.missRecs.map fun m => s.leafAt m.2.home m.2.asid (vaOff m.2.va)) = [.none]) ∧
    (let s := missedAt (0x200 * 2 ^ 12 + 122);
      (s.missRecs.map fun m => (match s.leafAt m.2.home m.2.asid (vaOff m.2.va) with | .leaf _ e log => decide (e.getLsbD 0 = false) && !leafH e && !leafLoc e && decide (leafFrame e log + 2 ^ log ≤ s.dramBytes) | _ => false)) = [true]) ∧
    (let s := missedAt 0; let e := s.held.map fun f => { f with why := HoldWhy.retry false };
      let t : State := { s with held := e, subj := 0x180 }; e.map (fun f => (firstReplay (t.held.filter fun f => f.home == t.subj && f.selected && !(t.absentFor f.ctx)) == some f, (t.tryHeld f false).isNone, decide (f.trace = none))) = [(true, true, true)] ∧
      let t : State := { s with held := e, subj := 0x180, mem := memWrite s.mem (dramKey 0 0x210008) ((bytesOfNat 8 (0x200 * 2 ^ 12 + 123)).map some) }; e.map (fun f => (t.tryHeld f false).isSome) = [true] ∧
      let f := s.held.map fun g => { g with why := HoldWhy.ring }; let t : State := { s with held := f, subj := 0x180, mem := memWrite s.mem (dramKey 0 0x210008) ((bytesOfNat 8 (0x200 * 2 ^ 12 + 123)).map some) }; (t.held.filter (fun f => f.home == t.subj && f.why == .ring) = f ∧ f.map (fun g => (t.tryHeld g false).isSome) = [true])) := by decide +kernel
/-- A granule on the move between cores and to a frame; a compact hart at its threshold, and each stage of its migration. -/
theorem witness_move_events :
    (let s (ack : Bool) (old dest : RebindTo) : State := ({ sM with subj := 0, ncyc := 4096 }).setGran 0 0 (.moving old dest ack 0);
      (s true (.core 0 0) (.core 0 1)).gran 0 0 = .moving (.core 0 0) (.core 0 1) true 0 ∧
      (s true (.core 0 0) (.core 0 1)).frameBlocked 0 0 (.core 0 1) = none ∧
      (s true (.core 0 0) (.frame placedAt)).frameBlocked 0 0 (.frame placedAt) = none ∧
      (s false (.frame placedAt) (.core 0 1)).gran 0 0 = .moving (.frame placedAt) (.core 0 1) false 0 ∧
      (s false (.core 0 0) (.core 0 1)).gran 0 0 = .moving (.core 0 0) (.core 0 1) false 0 ∧
      (s false (.core 0 0) (.core 0 1)).frameBlocked 0 0 (.core 0 1) = none) ∧
    (let s := mover id;
      (hartOf s).mig.thresh ≠ 0#16 ∧ (hartOf s).mig.thresh ≤ (hartOf s).mig.count ∧ s.migReady 1 (hartOf s) = true ∧
      s.migTarget (hartOf s).mig.home.toNat = some 1 ∧ 1 ≠ (hartOf s).cluster) ∧
    (let s := mover fun y => { y with status := .moving 0, migTo := some 1 };
      (hartOf s).status = .moving 0 ∧ (hartOf s).migCore = none ∧ s.idleCore 1 = some 0 ∧
      (coresOut s 1).idleCore 1 = none) ∧
    (let s := mover fun y => { y with status := .moving 1, migTo := some 1 };
      s.entriesSettled 1 = true ∧ ({ s with pb := [(9, pbOf placedAt)] } : State).entriesSettled 1 = false) ∧
    (let s := (mover fun y => { y with status := .moving 2, migTo := some 1 }).modCluster 1 fun k => { k with reserved := [(0, 1)] };
      ((s.cluster 1).reserved.find? fun r => r.2 == 1) = some (0, 1)) := by decide +kernel
/-- A core with eight harts to move and one with none; and a cluster with nothing to do. -/
theorem witness_load_balance :
    (let s := crowded;
      let d := (s.cluster 0).dxload.toNat; bitsOf d 32 5 + 6 ≤ bitsOf d 8 5 ∧ s.freeSlots (bitsOf d 16 7) ≠ 0 ∧ bitsOf d 0 7 = 0 ∧
      (pickBy (fun a b => s.laterHart a b) (((s.coreHarts 0).filter fun p => s.eligible p.2 && s.migReady p.1 p.2).map Prod.fst)).isSome = true ∧
      bitsOf (sM.cluster 0).dxload.toNat 8 5 < bitsOf (sM.cluster 0).dxload.toNat 32 5 + 6) := by decide +kernel
/-- A parked hart, one that waits, one with an access outstanding, one that runs, one with a delivery due, and one at its HINTDIST. -/
theorem witness_stop_requests :
    (let s := stopAt 1 .stopping id;
      (s.groupOf? (hartOf s)).map (fun g => (g.away, g.parked)) = some (1, false) ∧ (hartOf s).priv = .u ∧
      (hartOf s).status = .present ∧ (hartOf s).trails = false ∧ (hartOf s).stopping = none ∧ s.boundaryNow 1 (hartOf s) = false ∧
      (s.core (hartOf s).core).chiselFor 1 = false ∧
      (hartOf s).wait = none ∧ (hartOf s).plainOut = none ∧ s.mayStop 1 (hartOf s) = true) ∧
    (let s := stopAt 1 .stopping fun y => { y with due := [⟨58, 0#64, 0#64⟩] };
      s.boundaryNow 1 (hartOf s) = true) ∧
    (let s := stopAt 1 .stopping fun y => { y with wait := some ⟨1, 0#64, 0, false⟩ };
      s.boundaryNow 1 (hartOf s) = false ∧ s.mayStop 1 (hartOf s) = true) ∧
    (let s (accs : Table Acc) : State := { stopAt 1 .stopping fun y => { y with wait := some ⟨13, 0#64, 0, false⟩ } with accs := accs };
      let a : Table Acc := [(9, { accOf placedAt with dst := none })];
      (s []).incomplete 1 = [] ∧ (s a).incomplete 1 ≠ [] ∧ (s a).mayStop 1 (hartOf (s [])) = true) ∧
    (let s := stopAt 1 .stopping fun y => { y with priv := .s, lastIssue := some 0 };
      (hartOf s).priv = .s ∧ (hartOf s).pc = placedAt ∧ (hartOf s).lastIssue = some 0 ∧ s.acyc = 0) ∧
    (let s := stopAt 1 .stopping fun y => { y with plainOut := some 9 };
      s.boundaryNow 1 (hartOf s) = false ∧ s.mayStop 1 (hartOf s) = true) ∧
    (let s := stopAt 1 .stopping id |>.modGroup 2 fun g => { g with parked := true };
      s.mayStop 1 (hartOf s) = true) ∧
    (let s := stopAt 1 .stopping fun y => { y with stopReq := true, sinceHint := 4096 };
      (s.hdrOf (hartOf s)).hintdist ≤ (hartOf s).sinceHint ∧ (hartOf s).log = [] ∧ (hartOf s).plainOut = none ∧
      (hartOf s).wait = none ∧ (hartOf s).stopping = none ∧ s.mayStop 1 (hartOf s) = true ∧
      ({ s with accs := [(9, accOf placedAt)] } : State).mayStop 1 (hartOf s) = false) := by decide +kernel
/-- A group parked for a microsecond, with either duty. -/
theorem witness_park_limit :
    (let s : State := { (about (stopAt 0 .placed id) 2).modGrid 4 fun g => { g with launch := { g.launch with parklim := 1 } } with ncyc := usN };
      (tget s.groups 2).map (fun g => (g.expired, g.away, g.parkedSince, g.block)) = some (false, 0, 0, 3) ∧
      (tget s.grids 4).map (fun g => (decide (g.launch.parklim ≠ 0xFFFFFFFF), decide (0 + (if g.launch.parklim = 0 then 1 else g.launch.parklim) * usN ≤ s.ncyc))) = some (true, true) ∧
      s.coreServes 0 = true ∧ s.duty 1 = false ∧ ({ s with mod := { s.mod with mduty := 2 } } : State).duty 1 = true) := by decide +kernel
/-- A swap that begins, saves its leases, leaves its cores; a block to admit, one to return and one that returns. -/
theorem witness_swaps :
    (let s := about (stopAt 0 .placed id) 3 |>.modBlock 3 fun b => { b with swapCmd := true, since := 1 };
      (tget s.blocks 3).map (fun b => (b.status, b.swapCmd, decide (b.since ≠ s.ncyc))) = some (.placed, true, true) ∧ s.coreServes 0 = true) ∧
    (let s (a : Word) := (stopAt 1 .stopping fun y => { y with status := .saved }).modGrid 4 fun g => { g with launch := { g.launch with savebase := a } };
      let b (a : Word) : Nat := match tget (s a).grids 4, tget (s a).blocks 3 with
        | some gr, some b => (match (s a).blocked gr.asid ((s a).slotParts gr b [2]) with
          | none => 1
          | some (none, _) => 2
          | some (some _, _) => 3)
        | _, _ => 0;
      [placedAt, placedAt + 0x1000000#64, 0x5000000000000000#64].map b = [1, 2, 3]) ∧
    (let s := stopAt 1 .stopping fun y => { y with status := .saved };
      (tget s.blocks 3).map (fun b => (s.blockGroups b, s.allSaved (s.blockGroups b), s.allAway (s.blockGroups b) 1, s.tilesDone (s.blockGroups b))) = some ([2], true, true, true)) ∧
    (let s := framed (stopAt 2 .stopping fun y => { y with status := .saved });
      s.allSaved [2] = true ∧ s.allAway [2] 1 = false ∧
      (s.granulesOf [2]).all (fun q => (s.gran q.1 q.2.1).inFrame) = true ∧ s.entriesCalm [2] = true ∧
      s.granulesOf [2] ≠ []) ∧
    (let s := newBlock;
      (tget s.blocks 13).map (fun b => (b.status, s.inCut b.grid, s.isFirst 13 b)) = some (.ready, false, true) ∧
      (tget s.grids 4).map (fun gr => (s.stageDue gr, (s.cluster gr.owner).fenced)) = some (true, false) ∧
      s.qtValid = false ∧ s.coreServes 0 = true ∧
      ((tget s.grids 4).bind fun gr => (tget s.blocks 13).bind fun b => (s.offersFor gr b).head?.bind fun cl => (s.placeFrom cl 13 gr (s.stageHolds gr) gr.launch.gpb 0).map fun _ => ()) = some ()) ∧
    (let s := framed (stopAt 2 .absent fun y => { y with status := .saved });
      (tget s.blocks 3).map (fun b => (s.canReturn 3 b, s.isFirst 3 b, (s.seatWindows b.home [2] false (s.winsOf [2])).isSome)) = some (true, true, true)) ∧
    (let s := stopAt 0 .returning id;
      (((s.toCores [2]).comeBack 3 [2]).allAway [2] 0) = true) ∧
    (let s := framed (stopAt 3 .returning fun y => { y with status := .saved });
      (((s.toCores [2]).comeBack 3 [2]).allAway [2] 0) = false) := by decide +kernel
/-- A block placed while an earlier deadline waits; cores in and out of use; and a ring write to keep. -/
theorem witness_preempts :
    (let s := lateOne;
      (s.blocks.filter fun p => p.2.cluster / 24 == 0 && p.2.status == .placed && !p.2.swapCmd).map Prod.fst = [3] ∧
      (s.waitingBlocks 0).map Prod.fst = [13] ∧
      (tget s.blocks 3).bind (fun b => (tget s.blocks 13).map fun w => (decide (s.readySince w + 4096 ≤ s.ncyc) && decide (0x100 ≤ (s.blockTag b + 65536 - s.blockTag w) % 65536) && decide ((s.blockTag b + 65536 - s.blockTag w) % 65536 ≤ 0x7FFF))) = some true) ∧
    (let t (c : Nat) := (sM.retireMark c).modCluster (c / 100) fun k => { k with ueTimes := k.ueTimes.filter fun u => u.2 != c % 100 };
      (sM.core 0).retired = false ∧ (sM.core 5).retired = false ∧ ((t 5).coreGroups 5).filter (t 5).inPlace = [] ∧
      ((t 0).coreGroups 0).filter (t 0).inPlace = [2] ∧ (tget (t 0).groups 2).map (fun g => g.away) = some 0) ∧
    (let dst := winBase 0; let d : Desc := ⟨placedAt, dst, 6, [(1, 0, 0)], none⟩;
      let s := (stopAt 1 .stopping id).modWindow 0 fun v => { v with rings := tset v.rings 0 ⟨dst, 2, 0#32, 0#32, 0⟩ };
      (d.at 0).2 = dst ∧ s.spillLine dst = some 0 ∧ (s.core 0).spill.length < 16 ∧
      (newCmd 9 (.plain [d]) (xM.ctx 1) 0 0 0#16 true none .none 0).part = 0 ∧
      ({ newCmd 9 (.plain [d]) (xM.ctx 1) 0 0 0#16 true none .none 0 with todo := [d], buf := some ([7#8], 0#16, false) } : CopyCmd).pieces =
        [⟨dst, .store [some 7#8] (some 0#16), .store, true⟩] ∧
      s.spillFull 0 (.spill (vaHome dst * 96 + vaOff dst / 2 ^ 20) (vaOff dst % 2 ^ 20 / 0x4000)) = false) := by decide +kernel
/-- A command to accept, one of each kind to retire; a lease that ends, a handover that is over and a tring. -/
theorem witness_tile_events :
    (let t := tileOf (.zero 0); let s := tiling t; let p := s.plinth 0;
      p.queue = [t] ∧ p.holder = some t.group ∧ s.leaseOver p = false ∧ p.cmdLeft ≠ 0 ∧ s.gateClear t.gate = true ∧
      s.ringsReady t = true ∧ s.tileStart p t + t.cost ≤ p.leaseEnd) ∧
    (let t := { tileOf (.mma false 0 0 0 0) with accepted := true }; let s := tiling t;
      t.retireAt ≤ s.acyc ∧ t.fail = none ∧ t.cfg.chk = false ∧
      (match s.tileRead 0 t (s.mmaAddrs t 0 0 0 (linesA false t.cfg.width t.rows).length (linesB t.cfg.tra t.cfg.width t.cols).length) [] with | (.got ls, _) => (let r := runPasses false t (linesA false t.cfg.width t.rows) (linesB t.cfg.tra t.cfg.width t.cols) (fun _ => none) 0 ls ((s.plinth 0).acc 0) false 0; r.2.2.1.isNone && r.2.2.2.2 == 0) | _ => false) = true) ∧
    (let s := sM.modPlinth 0 fun p => { p with holder := some 2, leaseEnd := 0, handover := some (2, 0) }; let p := s.plinth 0;
      p.settled = true ∧ s.leaseKept p = false ∧ p.leaseEnd ≤ s.acyc ∧ p.handover = some (2, 0)) ∧
    (let k : OpKind := .tring 0 0 0#64 2; let s := withOp k;
      tget s.ops 7 = some (opMade k) ∧ s.gateClear (opMade k).gate = true ∧ s.tilesOut = [] ∧
      s.ops.map Prod.fst = [7]) := by decide +kernel
/-- A command to start, one whose descriptor is bad, an element that may be written and one that may not, and a command that has moved. -/
theorem witness_engine_events :
    (let s := engineWith (.plain [descM]) id;
      (s.engine 0).map (fun c => (c.op, c.started, c.cancel, c.heldAt)) = [(none, false, false, none)] ∧
      (s.engine 0).map (fun c => (s.cmdReady c).1) = [true] ∧
      (s.engine 0).map (fun c => (match s.cmdDescs 0 c with | (.run ds, _) => !ds.isEmpty | _ => false)) = [true]) ∧
    (let s := engineWith (.desc (mkVa 0x181 0)) id;
      (s.engine 0).map (fun c => (match s.cmdDescs 0 c with | (.fail _ _ _, _) => true | _ => false)) = [true]) ∧
    (let s := moving (placedAt + 64#64); let v := moving (mkVa 5 0);
      (s.cmd 0 9).map (fun c => !c.moved && c.txPort.isNone && c.buf.isNone && !(isEdge (vaHome (descM.at 0).2)) && c.mayWrite (descM.at 0).2) = some true ∧
      (v.cmd 0 9).map (fun c => (c.moved, c.mayWrite (mkVa 5 0), isEdge (vaHome (mkVa 5 0)), c.part)) = some (false, false, false, 0) ∧
      (s.cmd 0 9).map (fun c => (match s.engRead 0 c (loadWants (descM.at 0).1 64 64 .load) [] with
      | (.got b tag false, t) =>
        let t1 := t.modCmd 0 9 fun x => { x with buf := some (b, tag, false) };
        (t1.engWrite 0 c false ({ c with buf := some (b, tag, false) } : CopyCmd).pieces).1 == none
      | _ => false)) = some true) ∧
    (let s := engineWith (.plain [descM]) fun c => { c with started := true, todo := [descM], index := 1, op := some 7 };
      (s.cmd 0 9).map (fun c => (c.moved, c.txPort, descM.radv, c.op)) = some (true, none, none, some 7)) := by decide +kernel
/-- A command cancelled before it starts. -/
theorem witness_engine_cancel :
    (let s := engineWith (.plain [descM]) fun c => { c with cancel := true, op := some 7 };
      (s.engine 0).map (fun c => decide (c.op = some 7) && !c.started && c.cancel && c.fail.isNone && (s.cmdReady c).1) = [true]) := by decide +kernel
/-- A message that finds room, one that does not, a kick, a send that waited, and a notice. -/
theorem witness_message_events :
    (opReady (.send mboxW false [] 0 0) = true ∧ mboxOf mboxW = some (0, 0) ∧
      cRoom ((sending roomConf).conf 0 0) = true ∧ cRoom ((sending (8 + 2 ^ 24)).conf 0 0) = false ∧
      ((sending roomConf).window 0).sends = [] ∧
      (sending roomConf).sendBehind 7 (opMade (.send mboxW false [] 0 0)) mboxW = false) ∧
    (let s := sending roomConf; let image := s.slotFor (opMade (.send mboxW false [] 0 0)) 0 0 [];
      (match (s.modOp 7 fun q => { q with kind := .msg mboxW false image 0 0#16 }).route (Req.hart mboxW 8 .store (opMade (.send mboxW false [] 0 0)).ctx) (siteOfHome 0) with | .at _ _ _ => true | _ => false) = true) ∧
    (let k : OpKind := .kick placedAt (winBase 0 + 0x40100#64); let s := withOp k;
      opReady k = true ∧
      (match s.opRead 7 (opMade k) (linePieces placedAt 2 32) [] with | (.got _ false, t) => (match t.route (Req.hart (winBase 0 + 0x40100#64) 32 .store (opMade k).ctx) (siteOfHome 0) with | .at _ _ _ => (t.window 0).kicks.isEmpty && decide ((t.window 0).notices.length < 16) | _ => false) | _ => false) = true) ∧
    (let k : OpKind := .msg mboxW false [] 0 0#16; let s := ((withOp k).putConf 0 0 roomConf).modWindow 0 fun w => { w with sends := [(0, 7)] };
      ((s.window 0).sends.find? fun q => q.1 == 0) = some (0, 7) ∧ cRoom (s.conf 0 0) = true ∧
      (tget s.ops 7).map (fun p => p.kind) = some k) ∧
    (let s := (withOp .copy).modWindow 0 fun w => { w with notices := [⟨[], 7⟩] };
      s.gran 0 16 = .core 0 0 ∧ (s.window 0).notices = [⟨[], 7⟩] ∧ s.engineRoom 0 = true ∧
      (tget s.ops 7).isSome = true) := by decide +kernel
/-- A packet of each kind that passes its checks, and one that fails them. -/
theorem witness_packet_checks :
    (takes 0 [] = true ∧ checks (packetBytes 1 (inPage 0x20000) 0 0) [] = true ∧
      checks (packetBytes 1 (inPage 0x21000) 0 0) [] = true ∧ checks (packetBytes 2 (inPage 0x22000) 0 0) [] = true ∧
      checks (packetBytes 3 (inPage 0x23000) 1 0) [(0x23000, 64, nodeBytes 0x17 0 0xFFFF 0 0 0)] = true ∧
      checks (packetBytes 3 (inPage 0x23000) 1 0) [(0x23000, 64, nodeBytes 0x17 1 0xFFFF 0 0 0)] = true ∧
      checks (packetBytes 4 (inPage 0x24000) 0 0) [] = true ∧ checks (packetBytes 5 (inPage 0x8000) 3 0) [] = true ∧
      checks (packetBytes 5 (inPage 0x8000) 3 1) [] = true ∧ checks (packetBytes 5 (inPage 0x8000) 3 2) [] = true ∧
      checks (packetBytes 6 (inPage 0x8000) 3 0) [] = true ∧ checks (packetBytes 7 (inPage 0x8000) 3 3) [] = true ∧
      checks (packetBytes 8 (inPage 0x10400) 1 0) [] = true ∧ halts 9 = true ∧
      halts (packetBytes 5 (inPage 0x8004) 3 0) = true) := by decide +kernel
/-- What the packets name: records to launch and to refuse, and words in reach. -/
theorem witness_packet_work :
    (let s := queued 0 []; let c := s.qCtx 0;
      (match s.readLaunch c c.asid (BitVec.ofNat 64 (inPage 0x20000)) false with | .ready _ _ => true | _ => false) = true ∧
      (match s.readLaunch c c.asid (BitVec.ofNat 64 (inPage 0x21000)) false with | .refused _ => true | _ => false) = true ∧
      (match s.readPipe c (BitVec.ofNat 64 (inPage 0x22000)) with | .ready _ _ => true | _ => false) = true ∧
      s.deviceLaunch 0 = none ∧ s.engineRoom 0 = true ∧
      (match s.readBytes c (BitVec.ofNat 64 (inPage 0x24000)) 16 with | .got _ => true | _ => false) = true ∧
      [(AccKind.bank, 8), (.load, 8), (.store, 8), (.store, 1)].all (fun p => !(s.unreached c p.1 (BitVec.ofNat 64 (inPage 0x8000)) p.2) && (match s.unitKey c p.1 (BitVec.ofNat 64 (inPage 0x8000)) p.2 with | .ok _ => true | _ => false)) = true ∧
      cmpHolds 0 0#64 0#64 = true ∧ cmpHolds 0 0#64 3#64 = false) ∧
    (let t := (queued 0 []).takePacket 0 none (bytesOfNat 64 0);
      (tget t.2.packets t.1).isSome = true ∧
      (match t.2.unitKey (t.2.qCtx 0) .bank (BitVec.ofNat 64 (inPage 0x8000)) 8 with | .ok _ => true | _ => false) = true) := by decide +kernel
/-- A packet that is complete, of a queue and of an IB; a launch instruction's packet; and a watched line. -/
theorem witness_packet_ends :
    (let s (parent : Option Nat) := donePacket parent;
      ((s none).packets.map fun p => (p.2.complete, (s none).qServer p.2.queue, p.2.parent)) = [(true, some 0, none)] ∧
      ((s (some 3)).packets.map fun p => p.2.parent) = [some 3] ∧ (s none).coreGate 0 false = [] ∧
      (List.range nSlots).all (fun i => decide (((s none).slot i).queue ≠ some 0)) = true) ∧
    (let k : OpKind := .launch (BitVec.ofNat 64 (inPage 0x20000)) 0; let s : State := { filled [(0xF40000, 64, inPage 0x10000 + 2 ^ 128 * 4 + 2 ^ 203)] with subj := 7, ops := [(7, opMade k)] };
      opReady k = true ∧ s.qServer 4096 = some 0 ∧ tget s.mod.downs (opMade k).ctx.asid.toNat = none ∧
      s.qtValid = true ∧
      (match s.readBytes (schedCtx 0#16) (s.qtVa (64 * 4096)) 64 with | .got _ => true | _ => false) = true ∧
      s.queueBad 4096 = false ∧
      (s.qfieldD 4096 96 32 + 2 ^ 32 - s.qfieldD 4096 64 32) % 2 ^ 32 < 2 ^ s.qfieldD 4096 128 5 ∧
      (match s.unitKey (s.qCtx 4096) .store (addrPlus (BitVec.ofNat 64 (s.qfieldD 4096 0 64)) (64 * (s.qfieldD 4096 96 32 % 2 ^ s.qfieldD 4096 128 5))) 64 with | .ok _ => true | _ => false) = true) ∧
    (let w := packetBytes 6 (inPage 0x8000) 3 0; let t := (queued w []).takePacket 0 none (bytesOfNat 64 w);
      (tget t.2.packets t.1).map (fun p => (match packetWork p.bytes with | .wait _ _ _ => true | _ => false)) = some true ∧
      (match t.2.unitRead (t.2.qCtx 0) (BitVec.ofNat 64 (inPage 0x8000)) 8 with | .ok n => decide (n = 0) | _ => false) = true) := by decide +kernel
/-- A node of each kind that passes its checks, and one that fails them. -/
theorem witness_node_checks :
    (nodeChecks (nodeBytes 0x10 0 0xFFFF (inPage 0x20000) 0 0) [] = true ∧
      nodeChecks (nodeBytes 0x11 0 0xFFFF (inPage 0x22000) 0 0) [] = true ∧
      nodeChecks (nodeBytes 0x12 0 0xFFFF (inPage 0x24000) 0 0) [] = true ∧
      nodeChecks (nodeBytes 0x13 0 0xFFFF (inPage 0x8000) 0 (1 * 2 ^ 48)) [] = true ∧
      nodeChecks (nodeBytes 0x13 0 0xFFFF (inPage 0x8000) 1 (1 * 2 ^ 48)) [] = true ∧
      nodeChecks (nodeBytes 0x14 0 0xFFFF (inPage 0x8000) 3 0) [] = true ∧
      nodeChecks (nodeBytes 0x15 0 0xFFFF (inPage 0x9000) (inPage 0x8000) 0) (hostRing 0 0 1) = true ∧
      nodeChecks (nodeBytes 0x16 0 0xFFFF (inPage 0x8000) 0 0) [] = true ∧
      nodeChecks (nodeBytes 0x17 0 1 0 0 0) [] = true ∧ nodeChecks (nodeBytes 0x17 0 2 0 0 0) [] = false) := by decide +kernel
/-- Words in reach, a ring with room and one without, and an entry ready to publish. -/
theorem witness_node_work :
    (let s : State := { graphOf (nodeBytes 0x15 0 0xFFFF (inPage 0x9000) (inPage 0x8000) 0) .launched (hostRing 0 0 1) with homeMap := tset sM.homeMap 0x3F0 0x8000#16 }; let c := schedCtx 0#16;
      [(AccKind.bank, 8), (.load, 8), (.store, 64)].all (fun p => !(s.unreached c p.1 (BitVec.ofNat 64 (inPage 0x8000)) p.2) && (match s.unitKey c p.1 (BitVec.ofNat 64 (inPage 0x8000)) p.2 with | .ok _ => true | _ => false)) = true ∧
      s.unreached c .store (nodeVa (BitVec.ofNat 64 (inPage 0x23000)) 1) 8 = false ∧
      (match s.unitKey c .store (BitVec.ofNat 64 (inPage 0x9000)) 64 with | .ok key => !(s.hringBusy key) && decide (key = dramKey 0 0x1009000) | _ => false) = true ∧
      let h := hringOf (s.natAt (dramKey 0 0x1009000) 64); (h.wr + 2 ^ 32 - h.rd) % 2 ^ 32 ≠ 2 ^ h.log ∧ (match s.unitKey c .store (addrPlus h.base (32 * (h.wr % 2 ^ h.log))) 32 with | .ok _ => true | _ => false) = true ∧
      let h := hringOf ((graphOf (nodeBytes 0x15 0 0xFFFF (inPage 0x9000) (inPage 0x8000) 0) .launched (hostRing 16 0 1)).natAt (dramKey 0 0x1009000) 64); (h.wr + 2 ^ 32 - h.rd) % 2 ^ 32 = 2 ^ h.log) ∧
    (let s := graphOf (nodeBytes 0x15 0 0xFFFF (inPage 0x9000) (inPage 0x8000) 0) (.publishing (dramKey 0 0x1009000) []) (hostRing 0 0 1);
      ((tget s.graphs 0).map fun g => tget g.nodes 0) = some (some (.publishing (dramKey 0 0x1009000) [])) ∧
      s.gateClear [] = true ∧ (hringOf (s.natAt (dramKey 0 0x1009000) 64)).coalt = 0) ∧
    (let s := graphOf (nodeBytes 0x17 0 1 0 0 0) .finished []; let t : State := { s with pb := [(9, pbOf placedAt)] };
      s.gateClear (s.coreGate 0 false) = true ∧ t.gateClear (t.coreGate 0 false) = false ∧
      ((tget s.graphs 0).map fun g => g.failed) = some false ∧
      ((tget s.graphs 0).bind s.graphCtx).map (fun r => r.2.1) = some 0) := by decide +kernel
/-- A timer that is due over a ring with and without pending entries, and a job to cut. -/
theorem witness_timers_and_cuts :
    (let s (pend : Nat) : State := { filled (hostRing 0 pend 9) with timers := [(0, ⟨BitVec.ofNat 64 (inPage 0x9000), 0#16, 0⟩)] };
      (tget (s 1).timers 0).map (fun t => decide (t.due ≤ (s 1).ncyc)) = some true ∧
      (match (s 1).unitKey (schedCtx 0#16) .store (BitVec.ofNat 64 (inPage 0x9000)) 64 with | .ok key => decide ((hringOf ((s 1).natAt key 64)).pend ≠ 0) && decide ((hringOf ((s 0).natAt key 64)).pend = 0) | _ => false) = true) ∧
    (let s := about (sM.modGrid 4 fun g => { g with done := .packet 0 }) 4;
      (tget s.grids 4).map (fun g => (g.done, decide (g.ended < g.launch.bpg))) = some (.packet 0, true) ∧
      tget s.cuts 4 = none ∧ (tget (stopAt 2 .absent id).blocks 3).map blockStopped = some true) := by decide +kernel
/-- A queue to map, with and without packets, one to unmap and one half unmapped, and a halted one. -/
theorem witness_queue_events :
    (let s (w : Nat) := queueTable w;
      (s 0).recordReady 0 = true ∧ ((s 0).slot 3).queue = none ∧ (s 0).qfieldD 0 200 1 = 0 ∧
      (s 0).qfieldD 0 202 1 = 0 ∧
      ({ s 0 with mod := { (s 0).mod with mduty := 4 } } : State).duty 2 = true ∧ (s 0).qfieldD 0 201 1 = 0 ∧
      (s 0).hasPackets 0 = false ∧ (s (2 ^ 96)).hasPackets 0 = true ∧ (s (2 ^ 201)).qfieldD 0 201 1 = 1) ∧
    (let s := { (queueTable (2 ^ 192 * 3 + 2 ^ 200)).modSlot 3 (fun x => x.bind 0) with mod := { (queueTable 0).mod with mduty := 4 } };
      s.qfieldD 0 200 1 = 1 ∧ s.qfieldD 0 192 8 = 3 ∧ s.qfieldD 0 202 1 = 0 ∧ s.duty 2 = true ∧
      (s.slot 3).queue = some 0) ∧
    (let s := (queueTable (2 ^ 192 * 3 + 2 ^ 200 + 2 ^ 202)).modSlot 3 fun x => { x with leaving := some (0, none) };
      s.qfieldD 0 202 1 = 1 ∧ (s.slot 3).leaving = some (0, none)) ∧
    (let s := (queueTable (2 ^ 200)).modSlot 0 fun x => x.bind 0;
      (s.slot 0).queue = some 0 ∧ s.recordReady 0 = true ∧
      let t := ((s.qput 0 96 32 1).wakeOwner 0).modQueue 0 fun x => { x with headSince := if s.hasPackets 0 then x.headSince else s.ncyc }; t.qfieldD 0 202 1 = 0 ∧ t.qfieldD 0 200 1 = 1) ∧
    (let s := (queueTable 0).modQueue 0 fun x => { x with halted := true };
      (s.queue 0).halted = true ∧ s.ownsQueue s.subj 0 = true ∧ s.openBuffer 0 = none ∧ (s.slot 0).queue = none ∧
      (s.slot 0).leaving = none) ∧
    (let s := { sM.modSlot 0 fun x => { x with en := true, owed := true, last := some 0 } with ncyc := usN };
      (s.slot 0).en = true ∧ (s.slot 0).owed = true ∧ 0 + usN ≤ s.ncyc) := by decide +kernel
/-- Registers that are free and locked, a host's command, and a request to migrate a page. -/
theorem witness_register_events :
    (let s := served (filled []);
      s.edgeUp = true ∧ s.edgeFree 0 = true ∧ s.frozen = none ∧ s.hostBehind 0 = false ∧ s.mod.mdutyLock = false ∧ s.qtLocked = false ∧ bitsOf s.mod.nstidx.toNat 0 10 < 592 ∧
      s.boot.recovery = false ∧ s.hostUp = true ∧ isEdge 0x240 = true ∧ isHost 0x3F0 = true ∧ isCC 5 = true ∧
      bar2At ≤ bar2At + 0x400 ∧ bar2At + 0x400 < 2 * bar2At ∧ (bar2At + 0x400) % 8 = 0) ∧
    (let s : State := { State.reset with boot := { State.reset.boot with recovery := true } };
      s.boot.recovery = true ∧ 0x3F0 - 0x3F0 = s.bootingEdge / 4) ∧
    (let s := served (filled []); let t := s.modMod fun m => { m with mdutyLock := true, qtbase := 1#64 };
      t.mod.mdutyLock = true ∧ t.qtLocked = true) ∧
    (let s := ((about (stopAt 0 .placed id) 0).modGroup 2 fun g => { g with parked := true }).modMod fun m => { m with reports := [(3, 2, 0)] };
      s.mod.reports = [(3, 2, 0)] ∧ (tget s.blocks 3).map (fun b => (b.status, b.index)) = some (.placed, 0) ∧
      (tget s.grids 4).map (fun g => g.serial) = some 0 ∧ (tget s.groups 2).map (fun g => g.parked) = some true ∧
      bitsOf (1#64 : Word).toNat 0 4 = 1 ∧
      bitsOf (2#64 : Word).toNat 11 24 = 0 ∧ bitsOf (2#64 : Word).toNat 35 29 = 0) ∧
    (let s := served (filled []);
      bitsOf (tgetD s.mod.pgreq 2 0#64).toNat 42 1 = 0 ∧
      bitsOf (tgetD (s.modMod fun m => { m with pgreq := tset m.pgreq 2 0x40000000000#64 }).mod.pgreq 2 0#64).toNat 42 1 = 1 ∧
      s.duty 3 = false) := by decide +kernel
/-- A page on its way to host memory and one on its way back. -/
theorem witness_page_migrations :
    (let l : Nat := 0x100 * 2 ^ 12 + 123; let s := pageMoves l false; let t := pageMoves (l + 128) true;
      (tget s.pgMigs 0).map (fun m => (m.step, m.move, m.toDevice)) = some (0, false, false) ∧
      (isCC (vaHome placedAt) || isMC (vaHome placedAt)) = true ∧ s.homeValid (vaHome placedAt) = true ∧
      inWindowSpace placedAt = false ∧ vaOff placedAt < ctlBase ∧ s.coreServes (serviceCluster (vaHome placedAt)) = true ∧
      (match s.leafAt (vaHome placedAt) 0#16 (vaOff placedAt) with | .leaf _ e _ => decide (bitsOf e.toNat 7 1 = 0) | _ => false) = true ∧
      (match t.leafAt (vaHome placedAt) 0#16 (vaOff placedAt) with | .leaf _ e _ => decide (bitsOf e.toNat 7 1 = 1) | _ => false) = true) ∧
    (let s : State := { sM with subj := 0, pgMigs := [(0, ⟨0#64, 0#16, true, false, false, 0, 0x100, placedAt, 1, []⟩)] };
      (tget s.pgMigs 0).map (fun m => (decide (m.step ≠ 0), s.gateClear m.gate)) = some (true, true)) := by decide +kernel
/-- A posting with room for it, an interrupt owed, and an aperture in each mode. -/
theorem witness_host_ring :
    (let s := (served (filled [])).modMod fun m => { m with postings := [⟨1, 0, []⟩], hsctl := 2 ^ 8 + 4, hsbase := mkVa 0x3F0 0, hsOwed := true };
      s.hsRoom = true ∧ s.hsFree = true ∧ isHost (vaHome s.mod.hsbase) = true ∧ s.mod.hsOwed = true) ∧
    (let s (a : Word) := { ((served (filled [])).modMod fun m => { m with apers := tset m.apers 0 a }) with mem := memWrite sM.mem (dramKey 0 0x210000) ((bytesOfNat 8 (0x100 * 2 ^ 12 + 251)).map some) }; let a (mode base : Nat) : Word := BitVec.ofNat 64 (1 + 2 * mode + 2 ^ 32 * base); let b := placedAt.toNat / 2 ^ 32;
      (s (a 0 b)).apersUp = true ∧ (s (a 0 b)).hostBehind 0 = false ∧ (s (a 0 b)).aper 0 0 = a 0 b ∧
      aperMode (a 0 b) = some 0 ∧ aperMode (a 1 0) = some 1 ∧ aperMode (a 2 0) = some 2 ∧
      (s (a 0 b)).held = [] ∧ (s (a 0 b)).responds 576 placedAt = true ∧
      hostCut (BitVec.ofNat 64 (2 ^ 32 * aperBase (a 0 b) + 0)) [7#8] = [(placedAt, [7#8])] ∧
      [true, false].all (fun wr => match (s (a 0 b)).route (hostReq placedAt 1 wr 0#16) 576 with | .at pl _ f => (wr || match ((s (a 0 b)).performAt pl f (hostReq placedAt 1 wr 0#16) (.load 1) none false).1 with | .data _ _ _ => true | _ => false) | _ => false) = true ∧
      isMC (bitsOf (aperBase (a 1 (2 ^ 15 * 0x180))) 15 10) = true ∧ isMC (bitsOf (aperBase (a 1 0)) 15 10) = false ∧
      8 ≤ (s 0#64).dramBytes ∧
      (isCC (bitsOf (aperBase (a 2 5)) 0 10) || isMC (bitsOf (aperBase (a 2 5)) 0 10)) = true) := by decide +kernel
/-- A frame to leave, one to receive and ones to drop. -/
theorem witness_port_events :
    (framing.frameEngine 0 (List.replicate 60 7#8) = some (0, 9)) ∧
    (let x := receiving.eth 0;
      x.en = true ∧ 1 ≤ x.log2n ∧ x.log2n ≤ 16 ∧ x.used < 2 ^ x.log2n ∧
      goodFrame.drop (goodFrame.length - 4) = fcs (goodFrame.take (goodFrame.length - 4)) ∧ 64 ≤ goodFrame.length ∧
      (slotLines (addrPlus x.rxbase 0) 0 (goodFrame.take 60)).all (fun l => match receiving.unitKey ethCtx .store l.1 l.2.length with | .ok _ => true | _ => false) = true ∧
      ¬ 64 ≤ ([] : List Byte).length) := by decide +kernel
/-- A request that is old, power over a limit at both kinds of step, attestation, vector 0 and links. -/
theorem witness_edge_events :
    (let s : State := { withOp (.bank .add true placedAt 5#64 0#64) with ncyc := 512, mod := { sM.mod with rcopy := [(0, 1#64)] } };
      s.waitsSince 7 = some (0, 512) ∧ 0 + 512 ≤ s.ncyc ∧ s.aged.contains 7 = false) ∧
    (let s (p c : Nat) : State := { sM with powers := [(0, { sM.power 0 with plevel := p, clevel := c, fplim := 1 })] };
      1000 * ((s 4 4).power 0).fplim < 1001 ∧ 1 < ((s 4 4).power 0).plevel ∧ ((s 1 4).power 0).plevel ≤ 1 ∧
      1 < ((s 1 4).power 0).clevel) ∧
    (let s := sM.modMod fun m => { m with attBusy := true, v0New := [0] };
      s.mod.attBusy = true ∧ sM.mod.attBusy = false ∧ tgetD s.mod.v0Owed 0 0 = 0 ∧ s.mod.v0New.contains 0 = true ∧
      tget s.mod.v0Last 0 = none ∧ 0 < tgetD (s.modMod fun m => { m with v0Owed := [(0, 1)] }).mod.v0Owed 0 0) ∧
    (let now (k : Nat) : List Nat := ((List.replicate k 0).filter fun t => decide (5 < t + msN)) ++ [5];
      (now 3).length < 64 ∧ 64 ≤ (now 63).length) ∧
    (let d : DeadLink := ⟨canonLink 0, 0, [], []⟩; let s : State := { sM with deadLinks := [d] };
      sM.deadLinks = [] ∧ tget d.noticed 0 = none ∧ s.deadLinks ≠ []) ∧
    (let va := mkVa 0x180 0; let i := siteOfHome 0; let l := canonLink ((routeLinks false i (siteOfHome 0x180)).headD 0); let s : State := { (sM.holdLost (Req.hart va 8 .store (xM.ctx 1)) (.store [] none) (.entry 9) true i) with subj := i, pb := [(9, pbOf va)], deadLinks := [⟨l, 0, [(i, 0)], []⟩], ncyc := 65536 };
      ((s.lostOf i).find? fun e => s.lossDue i e.time).isSome = true) := by decide +kernel
/-- Clusters to watch and adopt, a context to tear down, and a fatal error. -/
theorem witness_guard_events :
    (let s := sM.modCluster 0 fun x => { x with hbeat := 5, watchSeen := 5, watchSame := 2 };
      (sM.cluster 0).fenced = false ∧ sM.clusterLive 0 = true ∧ (s.cluster 0).adopter = none ∧
      (s.watcherOf 0).isSome = true ∧
      ((sM.modCluster 0 fun x => { x with hbeat := 5 }).cluster 0).hbeat ≠ ((sM.modCluster 0 fun x => { x with hbeat := 5 }).cluster 0).watchSeen ∧
      (sM.cluster 0).watchSame < 2 ∧ (s.cluster 0).hbeat = (s.cluster 0).watchSeen) ∧
    (let s := sM.modCluster 3 fun x => { x with tdGo := some 9#16 };
      (s.clusters.find? fun x => x.2.tdGo == some (BitVec.ofNat 16 9)).map Prod.fst = some 3 ∧ s.ops = [] ∧
      s.grids.all (fun g => decide (g.2.asid.toNat ≠ 9)) = true) ∧
    (({ sitesAt 6 with deadLinks := [⟨10 * 576 + 4, 0, [], []⟩] } : State).isFatal 1 = true ∧ (sitesAt 6).isFatal 1 = false) := by decide +kernel
/-- A flash without images, waves to launch and on their way, and sites at each step. -/
theorem witness_boot_events :
    (State.reset.boot.verified = false ∧ State.reset.boot.recovery = false ∧ State.reset.boot.rotOk = true ∧
      State.reset.slotReason 0 ≠ 0 ∧ State.reset.slotReason 1 ≠ 0 ∧ (sitesAt 4).misaligned = false ∧ (sitesAt 5).misaligned = false) ∧
    (({ State.reset.boot with verified := true } : Boot).t0 = none ∧ booting.boot.waves = [(0, 0, 1)] ∧
      booting.boot.t0 = some 0 ∧ 0 + 1 * usN ≤ booting.ncyc ∧ (booting.site 0).st = 0 ∧ ((sitesAt 1).site 0).st ≠ 0) ∧
    (((sitesAt 1).site 0).st = 1 ∧ ((sitesAt 2).site 0).st ≠ 1 ∧ ((sitesAt 2).site 0).st = 2 ∧
      (sitesAt 2).deadLinks = [] ∧ (neighbours 0).all (fun m => decide (((sitesAt 2).site m.2).st = 2)) = true ∧
      ((sitesAt 3).site 0).st = 3 ∧ ((sitesAt 3).site 0).tries = 0 ∧
      1 ≤ (((sitesAt 3).modSite 0 fun y => { y with tries := 1 }).site 0).tries) ∧
    (let s : State := { sitesAt 1 with boot := booting.boot, ncyc := 1000 * usN };
      s.pastT0 ((s.site 0).hops * usN + 200 * usN) = true) ∧
    (let s := booting.modSite 577 fun y => { y with st := 12 };
      s.mod.attempt < 4 ∧ s.modState ≠ 6 ∧ 1 ≠ s.bootingEdge ∧ (s.site (576 + 1)).st = 12) ∧
    (let s : State := { State.reset with boot := { State.reset.boot with recovery := true, phase := 1 } };
      s.boot.recovery = true ∧ s.boot.phase = 1 ∧
      imageReason s.boot.recLen (s.bytesAt (stagingKey 0) (min s.boot.recLen imageMax)) ≠ 0) := by decide +kernel
/-- Sixteen commands wait at the engine. -/
theorem witness_engine_full :
    (let s : State := { sM with engines := [(0, (List.range 16).map fun i => newCmd i (.plain []) (xM.ctx 1) 0 0 0#16 true none .none 0)] };
      (tgetD s.engines (4 * xM.cluster + s.winOf xM % 96 / 24) []).countP (fun c => !c.started) = 16 ∧
      s.acquiring s.cur = false) := by decide +kernel
/-- A plinth that nobody holds. -/
theorem witness_lease_free :
    ((sM.groupOf? xM).map (fun g => !g.parked && decide (g.away ≠ 2) && (sM.plinth (sM.plinthOf g)).holder.isNone && (sM.plinth (sM.plinthOf g)).handover.isNone && (sM.plinth (sM.plinthOf g)).waiters.isEmpty) = some true ∧
      sM.opGate sM.cur xM .cl [] = [] ∧ sM.acquiring sM.cur = false) := by decide +kernel
/-- A mailbox that holds a message for the hart, and one that holds none. -/
theorem witness_messages :
    (let s (c : Nat) := (at5 1#64).putConf 0 0 c; let r (c : Nat) := ((s c).freeSlot 0 0#64).modHart 1 fun y => { y with heldSlot := 0#64 };
      (r (8 + 2 ^ 24)).bestMbox 0 ((r (8 + 2 ^ 24)).recvFrom 1 (hartOf (s 0)) 0 1#64) = some 0 ∧
      (r 8).bestMbox 0 ((r 8).recvFrom 1 (hartOf (s 0)) 0 1#64) = none ∧ (s (8 + 2 ^ 24)).mboxHas 0 0 = true ∧
      (s 8).mboxHas 0 0 = false) := by decide +kernel
/-- A hart with a stop request, harts to stand aside for, and a compact hart told to move. -/
theorem witness_hints_and_moves :
    (let s := eventAt fun y => { y with stopReq := true };
      (hartOf s).stopReq = true) ∧
    (let s := crowded; let x := hartOf s;
      (s.harts.filter fun p => p.1 != s.cur && p.2.core == x.core && s.eligible p.2 && p.2.yieldEnd.isNone) ≠ []) ∧
    (let s := (mover fun y => y.wx 5#5 placedAt).modCluster 1 fun k => { k with dxload := BitVec.ofNat 64 (2 ^ 37) }; let x := hartOf s;
      s.homeValid (vaHome (x.rx 5#5)) = true ∧ s.migTarget (vaHome (x.rx 5#5)) = some 1 ∧ x.full = false ∧
      x.priv = .u ∧ x.chisel.live = false ∧ s.migReady s.cur x = true ∧ s.entriesSettled s.cur = true) := by decide +kernel

/-- The limit of a recvt is past, whatever the clock's skew (R161). -/
theorem witness_recvt_limit : let s := { eventAt fun y => { y with recvEnd := 1 } with ncyc := 100 }; (hartOf s).recvEnd < s.timeOf (hartOf s) := by
  show 1 < 71 + Config.skew 0 % 9 - 4
  omega
/-- A table of one value for a run of keys. -/
theorem tget_run {α : Type} (v : α) (n a j : Nat) (h : a ≤ j) (k : j < a + n) : tget ((List.range' a n).map fun i => (i, v)) j = some v := by
  induction n generalizing a with
  | zero => omega
  | succ n ih =>
    simp only [List.range'_succ, List.map_cons, tget]
    by_cases e : a = j
    · simp [e]
    · simp [e, ih (a + 1) (by omega) (by omega)]
/-- Every site and edge in one STATE, as NAMED and READY find them. -/
theorem witness_all_sites (st j : Nat) (h : j < 592) : ((sitesAt st).site j).st = st := by
  have : tget (sitesAt st).sites j = some ⟨st, 0, 0, 1, 0, 0, 0, false⟩ := by
    have e : (sitesAt st).sites = (List.range 592).map fun i => (i, (⟨st, 0, 0, 1, 0, 0, 0, false⟩ : Site)) := rfl
    rw [e, List.range_eq_range']
    exact tget_run _ _ _ _ (Nat.zero_le _) (by omega)
  simp [State.site, tgetD, this]
/-- A slot is not refused where its image is of a length, is signed and is new enough. -/
theorem witness_image (n : Nat) (image : List Byte) (h0 : n ≠ 0) (h1 : n ≤ imageMax) (h2 : Config.sigValid image = true)
    (h3 : Config.fusedMin ≤ Config.imageSecver image) : imageReason n image = 0 := by
  simp [imageReason, h0, h2, Nat.not_lt.mpr h1, Nat.not_lt.mpr h3]

end Sys2Proof.Tests
end

section
/-! The state after module reset (R328): what its empty memory and its empty tables read as. -/

namespace Sys2Proof.Machine

/-- The model's choice of what RAM holds after power-on (log 5). -/
@[simp] theorem memGet_nil (k : Nat) : memGet [] k = 0#8 := rfl

@[simp] theorem tgetD_nil {α : Type} (k : Nat) (d : α) : tgetD [] k d = d := rfl

theorem Memory.wf_nil : Memory.wf [] = true := rfl

/-- The base case of every induction over a run (the step is `Obligations.StepKeepsInv`). -/
theorem State.reset_inv : State.reset.Inv := Memory.wf_nil

/-- The reset state lists no site, and a site that is not listed is dark (R328). -/
theorem State.reset_site (i : Nat) : State.reset.site i = Site.dark := tgetD_nil i Site.dark

/-- Settles O46: memory and the sites are read from empty tables, so each has its default everywhere; the other
clauses are fields of the reset state as it is written. -/
theorem resetState : Obligations.ResetState := by
  unfold Obligations.ResetState
  have unlisted (k : Nat) : memGet State.reset.mem k = 0#8 := memGet_nil k
  have dark (i : Nat) : (State.reset.site i).st = 0 := by rw [State.reset_site, Site.dark]
  exact ⟨State.reset_inv, rfl, unlisted, rfl, rfl, rfl, rfl, rfl, rfl, rfl, rfl, rfl, rfl, rfl, rfl, rfl, rfl, rfl, rfl,
    dark, rfl, rfl, rfl⟩

end Sys2Proof.Machine
end

section
/-! SUPPORT. What the events of the homes come to (R26 to R28, R49 to R53, R74, R94 to R97, R114, R376, R392, R449). -/

namespace Sys2Proof.Machine

/-- An event whose meaning comes to a state ends there. -/
theorem next_of_eq {s t : State} (h : s = t) : (.next s : Host.Outcome State Fault Refusal) = .next t := congrArg _ h

/-- What every step of a fold leaves as it was, the fold leaves as it was. -/
theorem foldl_keeps {α β γ : Type} (g : α → γ) (f : α → β → α) (h : ∀ a b, g (f a b) = g a) (l : List β) (a : α) :
    g (l.foldl f a) = g a := by
  induction l generalizing a with
  | nil => rfl
  | cons b r ih => rw [List.foldl_cons, ih, h]

section
variable {s t : State} {id : Nat}

/-! ### Pieces and entries at their homes -/

theorem doHomeRequest_of_acc {a : Acc} (ha : tget s.accs (s.subj % 2 ^ 64) = some a) :
    doHomeRequest s = s.accRequest (s.subj % 2 ^ 64) a (s.subj / 2 ^ 64) := by
  simp only [doHomeRequest, ha]

theorem doHomeRequest_of_entry {e : PbEnt} (ha : tget s.accs (s.subj % 2 ^ 64) = none) (he : tget s.pb (s.subj % 2 ^ 64) = some e) :
    doHomeRequest s = s.entryRequest (s.subj % 2 ^ 64) e := by
  simp only [doHomeRequest, ha, he]

/-- The request that a piece of a relaxed, acquire or window access makes (R94). -/
def State.pieceRequest (s : State) (id i : Nat) (a : Acc) (p : AccPiece) (x : Hart) : PortRes × State :=
  s.request (Req.hart p.va p.act.width (match p.act with
    | .store _ _ => .store
    | _ => .load) a.ctx) p.act (.acc id i) true none x.iface

section
variable {k i : Nat} {a : Acc} {p : AccPiece} {x : Hart}

/-- A piece behind no other whose gate is clear makes its request (R94, R186). -/
theorem State.accRequest_eq (hp : a.pick k = some (i, p)) (hb : a.behind i p = false) (hg : s.gateClear a.gate = true)
    (hx : s.hart? a.hart = some x) :
    s.accRequest id a k = match s.pieceRequest id i a p x with
      | (.ans r, u) => (u.setPiece id i (.ans r)).settleAcc id
      | (.held, u) => u.setPiece id i .held
      | (.wait, _) => s := by
  simp only [State.accRequest, hx, hp, hb, hg]
  rfl

end

/-- The request that a drained entry makes, in the context of its first owner (R95; log 53). -/
def State.drainRequest (s : State) (id : Nat) (e : PbEnt) : PortRes × State :=
  let run := if e.tag.isSome then (0, e.bytes) else e.run
  s.request { Req.hart (addrPlus e.line run.1) run.2.length .store ⟨e.asid, e.priv, e.owners.head?, 0⟩ with direct := false }
    (.store run.2 e.tag) (.entry id) true none (siteOfHome e.cluster)

section
variable {e : PbEnt}

/-- An entry that has left, is not held and has not been performed makes its request at its turn (R96). -/
theorem State.entryRequest_eq (hs : e.sent = true) (hh : e.held = false) (hp : e.performed = false) (ht : s.entryTurn id e = true) :
    s.entryRequest id e = match s.drainRequest id e with
      | (.ans (.fail cause sub _), u) => u.failEntry id cause sub
      | (.ans _, u) => { u with pb := tmod u.pb id fun y => { y with performed := true } }
      | (.held, u) => { u with pb := tmod u.pb id fun y => { y with held := true } }
      | (.wait, _) => s := by
  simp only [State.entryRequest, hs, hh, hp, ht]
  rfl

theorem doEntryDrain_eq (he : tget s.pb id = some e) (hc : e.cluster = s.subj) (hg : s.gateClear e.gate = true)
    (hl : s.lineTurn id e = true) :
    doEntryDrain id s = { s with pb := tmod s.pb id fun y =>
      { y with draining := true, sent := true, inj := if y.sent then y.inj else some s.turnNo } } := by
  simp [doEntryDrain, he, hc, hg, hl]

theorem doDrainTimeout_eq (he : tget s.pb id = some e) (hc : e.cluster = s.subj) (ht : e.since + 256 ≤ s.ncyc) :
    doDrainTimeout id s = s.drain [id] := by
  simp [doDrainTimeout, he, hc, ht]

theorem doPbFree_eq (he : tget s.pb id = some e) (hc : e.cluster = s.subj) (hp : e.performed = true) :
    doPbFree id s = { s with pb := tdel s.pb id } := by
  simp [doPbFree, he, hc, hp]

end

/-! ### Parking -/

@[simp] theorem State.keepRec_mem (m : MissRec) : (s.keepRec id m).mem = s.mem := by unfold State.keepRec; split <;> rfl
@[simp] theorem State.keepRec_held (m : MissRec) : (s.keepRec id m).held = s.held := by unfold State.keepRec; split <;> rfl
@[simp] theorem State.keepRec_groups (m : MissRec) : (s.keepRec id m).groups = s.groups := by unfold State.keepRec; split <;> rfl

/-- The misses of a group that homes still hold. -/
def State.openMisses (s : State) (g : Group) : List (Nat × Nat) :=
  g.misses.filter fun m => s.held.any fun e => e.home == m.1 && e.stamp == m.2

/-- A parked group of which some miss is still held stays parked (R53). -/
theorem State.tryResume_stays {gi : Nat} {g : Group} (hg : tget s.groups gi = some g) (hp : g.parked = true)
    (ho : s.openMisses g ≠ []) : s.tryResume gi = s.modGroup gi fun x => { x with misses := s.openMisses g } := by
  unfold State.openMisses at ho ⊢
  simp [State.tryResume, hg, hp, ho]

theorem State.modGroup_get {gi : Nat} {g : Group} {f : Group → Group} (hg : tget s.groups gi = some g) :
    tget (s.modGroup gi f).groups gi = some (f g) := by
  simp [State.modGroup, hg]

/-- A group with one more miss: it parks, or stays parked (R49, R53). -/
def Group.missed (g : Group) (now : Nat) (m : MissRec) : Group :=
  { g with parked := true, parkedSince := if g.parked then g.parkedSince else now, misses := g.misses ++ [(m.home, m.stamp)] }

theorem State.mem_openMisses {g : Group} {m : MissRec} {now : Nat} (h : ∃ e ∈ s.held, e.home = m.home ∧ e.stamp = m.stamp) :
    (m.home, m.stamp) ∈ s.openMisses (g.missed now m) := by
  obtain ⟨e, he, hh, ht⟩ := h
  simp only [State.openMisses, Group.missed, List.mem_filter, List.mem_append, List.mem_singleton, or_true, true_and,
    List.any_eq_true]
  exact ⟨e, he, by simp [hh, ht]⟩

theorem doMissAtCore_parks {m : MissRec} {x : Hart} {g : Group} (hm : tget s.missRecs s.subj = some m) (hc : m.toCore = true)
    (hx : m.ctx.hart.bind s.hart? = some x) (hg : s.groupOf? x = some g)
    (he : ∃ e ∈ s.held, e.home = m.home ∧ e.stamp = m.stamp) :
    tget (doMissAtCore s).groups x.group =
      some { g.missed s.ncyc m with misses := s.openMisses (g.missed s.ncyc m) } ∧ (doMissAtCore s).mem = s.mem := by
  have hopen : s.openMisses (g.missed s.ncyc m) ≠ [] := List.ne_nil_of_mem (State.mem_openMisses he)
  have hgroup (f : Group → Group) : tget (tmod s.groups x.group f) x.group = some (f g) := by
    rw [tget_tmod_same, show tget s.groups x.group = some g from hg, Option.map_some]
  simp only [doMissAtCore, hm, hc, hx, Bool.not_true, Bool.false_eq_true, if_false]
  rw [State.tryResume_stays (g := g.missed s.ncyc m)]
  · constructor
    · rw [State.modGroup_get (g := g.missed s.ncyc m)]
      · simp [State.openMisses]
      · simp [State.modGroup, hgroup, Group.missed]
    · simp
  · simp [State.modGroup, hgroup, Group.missed]
  · rfl
  · simpa [State.openMisses] using hopen

/-! ### Service -/

theorem doMissService_host {m : MissRec} (hm : tget s.missRecs s.subj = some m) (ha : m.toAgent = true) (hh : m.hostMode = true) :
    doMissService s = (s.post 1 m.home (s.missBytes m)).keepRec s.subj { m with toAgent := false } := by
  simp [doMissService, hm, ha, hh]

/-- A record that waits alone is served (R51). -/
theorem doMissService_core {m : MissRec} (hm : tget s.missRecs s.subj = some m) (ha : m.toAgent = true) (hh : m.hostMode = false)
    (hs : s.coreServes (serviceCluster m.home) = true)
    (hone : ∀ q ∈ s.missRecs, q.2.toAgent = true → q.2.hostMode = false → q.1 = s.subj) :
    doMissService s = (s.serveMiss m).keepRec s.subj { m with toAgent := false } := by
  have hbest : (s.missRecs.any fun p => p.2.toAgent && !p.2.hostMode && p.1 != s.subj
      && serviceCluster p.2.home == serviceCluster m.home && s.missBefore p.2 m) = false := by
    rw [List.any_eq_false]
    intro q hq hbefore
    simp only [Bool.and_eq_true, Bool.not_eq_true', bne_iff_ne] at hbefore
    obtain ⟨⟨⟨⟨hto, hmode⟩, hne⟩, -⟩, -⟩ := hbefore
    exact hne (hone q hq hto hmode)
  simp only [doMissService, hm, ha, hh, hs, hbest]
  rfl

theorem State.serveMiss_none {m : MissRec} (h : s.leafAt m.home m.asid (vaOff m.va) = .none) :
    s.serveMiss m = s.hmissDone m.home (missDoneWord m.asid m.va true) := by
  simp only [State.serveMiss, h]

theorem State.serveMiss_invalid {m : MissRec} {p log : Nat} {e : Word} (h : s.leafAt m.home m.asid (vaOff m.va) = .leaf p e log)
    (hv : e.getLsbD 0 = false) (hh : leafH e = false) (hl : leafLoc e = false) (hf : leafFrame e log + 2 ^ log ≤ s.dramBytes) :
    s.serveMiss m = ((s.fillZero (dramKey (nearMc m.home) (leafFrame e log)) (2 ^ log) (leafTagdef e)).putNat
      (dramKey (nearMc m.home) p) 8 (e.toNat + 1)).hmissDone m.home (missDoneWord m.asid m.va false) := by
  simp only [State.serveMiss, h, hv, hh, hl, Bool.false_eq_true, if_false, false_or, if_neg (Nat.not_lt.mpr hf)]

/-! ### Replays -/

theorem doReplay_goes {e : Held} (he : firstReplay (s.held.filter fun f => f.home == s.subj && f.selected && !(s.absentFor f.ctx)) = some e)
    (ht : s.tryHeld e (e.why == .retry true) = some t) : doReplay s = t.resumeFor e.ctx := by
  simp only [doReplay, he, ht]

theorem doReplay_stays {e : Held} (he : firstReplay (s.held.filter fun f => f.home == s.subj && f.selected && !(s.absentFor f.ctx)) = some e)
    (ht : s.tryHeld e (e.why == .retry true) = none) (hn : e.trace = none) :
    doReplay s = { s with held := s.held.map fun f => if f == e then { f with why := s.stayWhy e } else f } := by
  simp only [doReplay, he, ht, hn, Option.bind_none]

theorem State.samePage_self (e : Held) : s.samePage e e = true := by simp [State.samePage]

/-- The one request that waits at a home for its trace ring waits behind no other. -/
theorem firstAtRing {e : Held} (h : s.held.filter (fun f => f.home == s.subj && f.why == .ring) = [e]) :
    s.held.find? (fun f => f.home == e.home && f.why == .ring && s.samePage f e) = some e := by
  have hmem : ∀ f, f ∈ s.held → f.home = s.subj → f.why = .ring → f = e := by
    intro f hf hh hw
    have : f ∈ s.held.filter (fun f => f.home == s.subj && f.why == .ring) := by simp [hf, hh, hw]
    simpa [h] using this
  have he : e ∈ s.held.filter (fun f => f.home == s.subj && f.why == .ring) := by simp [h]
  simp only [List.mem_filter, Bool.and_eq_true, beq_iff_eq] at he
  obtain ⟨hin, hhome, hring⟩ := he
  have hsome : (s.held.find? (fun f => f.home == e.home && f.why == .ring && s.samePage f e)).isSome = true := by
    rw [List.find?_isSome]
    exact ⟨e, hin, by simp [hring, State.samePage_self]⟩
  obtain ⟨f, hf⟩ := Option.isSome_iff_exists.mp hsome
  have hp := List.find?_some hf
  simp only [Bool.and_eq_true, beq_iff_eq] at hp
  obtain ⟨⟨hfh, hfw⟩, -⟩ := hp
  rw [hf, hmem f (List.mem_of_find?_eq_some hf) (hfh.trans hhome) hfw]

theorem doTracedResume_eq {e : Held} (h : s.held.filter (fun f => f.home == s.subj && f.why == .ring) = [e])
    (ht : s.tryHeld e false = some t) : doTracedResume s = t := by
  have hfind : s.held.find? (fun f => f.home == s.subj && f.why == .ring) = some e := by
    rw [← List.head?_filter, h, List.head?_cons]
  have hfirsts : (s.held.filter fun f => f.home == s.subj && f.why == .ring
      && ((s.held.find? fun g => g.home == f.home && g.why == .ring && s.samePage g f) == some f)) = [e] := by
    simp only [Bool.and_comm _ (_ == some _)]
    rw [← List.filter_filter, h, List.filter_cons_of_pos (by simp [firstAtRing h]), List.filter_nil]
  simp only [doTracedResume, hfind, hfirsts, List.findSome?_cons, ht, Option.getD_some]

/-! ### The home control block -/

@[simp] theorem State.setTags_mem (k n : Nat) (v : BitVec 16) : (s.setTags k n v).mem = s.mem := by
  unfold State.setTags
  exact foldl_keeps State.mem _ (fun u i => State.setTag_mem u _ _) _ _

@[simp] theorem State.fillTags_mem (k n : Nat) (v : BitVec 16) : (s.fillTags k n v).mem = s.mem := by
  unfold State.fillTags; split <;> simp

theorem State.hostFilled_mem (e : Held) : (s.hostFilled e).mem = s.mem := by
  unfold State.hostFilled
  split
  · split <;> simp
  · rfl

theorem State.hmissDone_mem (home : Nat) (w : Word) : (s.hmissDone home w).mem = s.mem := by
  unfold State.hmissDone
  exact foldl_keeps State.mem _ (fun u e => State.hostFilled_mem e) _ _

theorem State.hmissDone_held (home : Nat) (w : Word) :
    (s.hmissDone home w).held = s.held.map fun e => if s.missSelected home w e then
      { e with why := .retry (w.getLsbD 0), time := if e.why = .miss then s.ncyc else e.time } else e := by
  simp only [State.hmissDone, beq_iff_eq]

end

/-- Settles O52: each event is the branch of its own that the hypotheses choose. -/
theorem homeEvents : Obligations.HomeEvents := by
  unfold Obligations.HomeEvents
  intro s
  refine ⟨fun a i p x ha hp hb hg hx => ?_, fun e ha he hs hh hp ht => ?_,
    fun id e he hc => ⟨fun hg hl => next_of_eq (doEntryDrain_eq he hc hg hl), fun ht => next_of_eq (doDrainTimeout_eq he hc ht),
      fun hp => next_of_eq (doPbFree_eq he hc hp)⟩,
    fun m x g hm hc hx hg he => ?_, fun m hm ha => ?_,
    fun e he => ⟨fun t ht => next_of_eq (doReplay_goes he ht), fun ht hn => next_of_eq (doReplay_stays he ht hn)⟩,
    fun e t he ht => next_of_eq (doTracedResume_eq he ht),
    fun w => ⟨rfl, _, rfl, State.hmissDone_mem _ _, State.hmissDone_held _ _⟩⟩
  · have hrun : exec .homeRequest s = .next (s.accRequest (s.subj % 2 ^ 64) a (s.subj / 2 ^ 64)) :=
      next_of_eq (doHomeRequest_of_acc ha)
    rw [hrun, State.accRequest_eq hp hb hg hx]
    exact ⟨fun r t ho => by rw [show s.pieceRequest (s.subj % 2 ^ 64) i a p x = (.ans r, t) from ho],
      fun t ho => by rw [show s.pieceRequest (s.subj % 2 ^ 64) i a p x = (.held, t) from ho]⟩
  · have hrun : exec .homeRequest s = .next (s.entryRequest (s.subj % 2 ^ 64) e) := next_of_eq (doHomeRequest_of_entry ha he)
    rw [hrun, State.entryRequest_eq hs hh hp ht]
    exact ⟨fun ok t ho => by rw [State.drainRequest, ho], fun cause sub a t ho => by rw [State.drainRequest, ho],
      fun t ho => by rw [State.drainRequest, ho]⟩
  · obtain ⟨hgroup, hmem⟩ := doMissAtCore_parks hm hc hx hg he
    exact ⟨_, _, rfl, hgroup, rfl, rfl, State.mem_openMisses he, hmem⟩
  · refine ⟨fun hh => next_of_eq (doMissService_host hm ha hh), fun hh hs hone => ?_⟩
    have hrun : exec .missService s = .next ((s.serveMiss m).keepRec s.subj { m with toAgent := false }) :=
      next_of_eq (doMissService_core hm ha hh hs hone)
    exact ⟨fun hl => by rw [hrun, State.serveMiss_none hl],
      fun p e log hl hv hh hloc hf => by rw [hrun, State.serveMiss_invalid hl hv hh hloc hf]⟩

end Sys2Proof.Machine
end

section
/-! SUPPORT. What firmware's own accesses, records and reports leave as it was: the state of bring-up (R328 to R333, R397, R423, R442). -/

namespace Sys2Proof.Machine

/-- The part of the state that bring-up sets, and that no access, record or report changes. -/
structure Standing where
  boot : Boot
  sites : Table Site
  homeMap : Table (BitVec 16)
  nst : Table Bool
  deadLinks : List DeadLink
  frozen : Option Nat
  attempt : Nat

def State.standing (s : State) : Standing := ⟨s.boot, s.sites, s.homeMap, s.nst, s.deadLinks, s.frozen, s.mod.attempt⟩

section
variable (s : State)

/-! ### Memory -/

@[simp] theorem State.unpoison_standing (k : Nat) (bs : List (Option Byte)) : (s.unpoison k bs).standing = s.standing := by
  unfold State.unpoison
  split <;> rfl

@[simp] theorem State.putMem_standing (k : Nat) (bs : List (Option Byte)) : (s.putMem k bs).standing = s.standing := by
  unfold State.putMem State.noticeWatch State.clearResv
  exact State.unpoison_standing _ _ _

@[simp] theorem State.putNat_standing (k n v : Nat) : (s.putNat k n v).standing = s.standing := State.putMem_standing _ _ _

@[simp] theorem State.setTags_standing (k n : Nat) (t : BitVec 16) : (s.setTags k n t).standing = s.standing :=
  foldl_keeps State.standing (fun (a : State) i => a.setTag (k + 64 * i) t) (fun _ _ => rfl) _ _

@[simp] theorem State.modHart_standing (h : Nat) (f : Hart → Hart) : (s.modHart h f).standing = s.standing := rfl

@[simp] theorem State.modHome_standing (h : Nat) (f : HomeSt → HomeSt) : (s.modHome h f).standing = s.standing := rfl

theorem State.modMod_standing (f : Module → Module) (h : (f s.mod).attempt = s.mod.attempt) :
    (s.modMod f).standing = s.standing := by
  simp [State.standing, State.modMod, h]

@[simp] theorem State.portMem_standing (k : Nat) (noTag : Option (BitVec 16)) (act : Piece) (h : Option Nat) :
    (s.portMem k noTag act h).2.standing = s.standing := by
  cases act with
  | load | pick | record => rfl
  | store bytes tag =>
    cases tag with
    | none => simp [State.portMem]
    | some t => simp only [State.portMem]; split <;> simp
  | amo => simp only [State.portMem]; split <;> simp
  | lr => cases h <;> rfl
  | sc =>
    simp only [State.portMem]
    cases h with
    | none => simp only [Option.bind_none, Bool.false_eq_true, if_false]
    | some j => simp only [State.modHart_standing, apply_ite State.standing, State.putNat_standing, ite_self]
  | bits n els => 
    simp only [State.portMem, State.unpoison_standing]
    exact State.putMem_standing _ _ _
  | errw => simp [State.portMem]


/-! ### Held requests and records -/

@[simp] theorem State.judge_standing (a cl n : Nat) : (s.judge a cl n).2.standing = s.standing := by
  unfold State.judge
  split
  · split <;> rfl
  · rfl

@[simp] theorem State.spend_standing (i : Nat) (c : Ctx) (n : Nat) (fill : Option (PageRef × Word × Nat)) :
    (s.spend i c n fill).standing = s.standing := by
  unfold State.spend
  split
  · dsimp only
    split <;> simp
  · simp

@[simp] theorem State.holdMiss_standing (pg : PageRef) (r : Req) (act : Piece) (who : Who) (rlx : Bool) (tr : Option Traced) :
    (s.holdMiss pg r act who rlx tr).standing = s.standing := rfl

@[simp] theorem State.holdBehind_standing (pg : PageRef) (r : Req) (act : Piece) (who : Who) (rlx : Bool) (why : HoldWhy)
    (tr : Option Traced) : (s.holdBehind pg r act who rlx why tr).standing = s.standing := rfl

@[simp] theorem State.holdLost_standing (r : Req) (act : Piece) (who : Who) (rlx : Bool) (i : Nat) :
    (s.holdLost r act who rlx i).standing = s.standing := rfl

@[simp] theorem State.unitHold_standing (pg : PageRef) (r : Req) : (s.unitHold pg r).standing = s.standing := by
  unfold State.unitHold
  split
  · split <;> rfl
  · rfl

@[simp] theorem State.takeRec_standing (bs : List Byte) : (s.takeRec bs).standing = s.standing := by
  have held : (s.modMod fun m =>
      if m.held.length < 256 then { m with held := m.held ++ [bs] } else { m with lost := m.lost + 1 }).standing = s.standing :=
    State.modMod_standing _ _ (by split <;> rfl)
  unfold State.takeRec State.logTell
  split <;> exact held

@[simp] theorem State.sendRec_standing (k h d p r c : Nat) : (s.sendRec k h d p r c).standing = s.standing :=
  State.takeRec_standing _ _

@[simp] theorem State.noteTable_standing (h sub : Nat) : (s.noteTable h sub).standing = s.standing := by
  unfold State.noteTable
  split <;> simp

@[simp] theorem State.sendFail_standing (h : Nat) (act : Piece) (c sub : Nat) (a : Word) :
    (s.sendFail h act c sub a).standing = s.standing := by
  unfold State.sendFail
  split <;> simp

@[simp] theorem State.unitMiss_standing (c : Ctx) (k : AccKind) (va : Word) : (s.unitMiss c k va).standing = s.standing := by
  unfold State.unitMiss
  dsimp only
  split
  · simp
  · split
    · split <;> rfl
    · rfl
  · simp
  · rfl

/-- A write of firmware is performed, or held and performed later: bring-up's state has no part in it (R422). -/
@[simp] theorem State.unitSend_standing (c : Ctx) (va : Word) (act : Piece) : (s.unitSend c va act).standing = s.standing := by
  unfold State.unitSend
  dsimp only
  split <;> try simp
  all_goals split <;> simp

/-! ### The module log, the health word and the measurements -/

@[simp] theorem State.qtWrite_standing (off : Nat) (bs : List Byte) : (s.qtWrite off bs).standing = s.standing :=
  State.unitSend_standing _ _ _ _

@[simp] theorem State.logFlush_standing : s.logFlush.standing = s.standing := by
  unfold State.logFlush
  split
  · refine (State.qtWrite_standing _ _ _).trans ?_
    exact foldl_keeps State.standing (fun (t : State) j =>
      t.qtWrite _ (s.mod.held.getD j [])) (fun u j => State.qtWrite_standing _ _ _) _ _
  · simp
  · exact State.unitMiss_standing _ _ _ _

@[simp] theorem State.logOut_standing : s.logOut.standing = s.standing := by
  unfold State.logOut
  split <;> simp

@[simp] theorem State.logBytes_standing (bs : List Byte) : (s.logBytes bs).standing = s.standing := by simp [State.logBytes]

@[simp] theorem State.logRec_standing (k h d p r c : Nat) : (s.logRec k h d p r c).standing = s.standing := by simp [State.logRec]

@[simp] theorem State.logLink_standing (k l d : Nat) : (s.logLink k l d).standing = s.standing := by simp [State.logLink]

@[simp] theorem State.logSite_standing (k i d : Nat) : (s.logSite k i d).standing = s.standing := by simp [State.logSite]

@[simp] theorem State.syncHealth_standing (hot : Bool) : (s.syncHealth hot).standing = s.standing := by
  unfold State.syncHealth
  dsimp only
  split <;> split <;> simp <;> rfl

@[simp] theorem State.measure_standing (i : Nat) (d : List Byte) : (s.measure i d).standing = s.standing := rfl

@[simp] theorem State.stateVector_standing : s.stateVector.standing = s.standing := by
  unfold State.stateVector
  split <;> rfl

end
end Sys2Proof.Machine
end

section
/-! SUPPORT. What the events of boot, bring-up and recovery come to (R328 to R333, R436 to R441). -/

namespace Sys2Proof.Machine

/-- A fold whose every step leaves its start as it was comes to its start. -/
theorem foldl_fixed_mem {α β : Type} (f : α → β → α) (a : α) (l : List β) (h : ∀ b ∈ l, f a b = a) : l.foldl f a = a := by
  induction l with
  | nil => rfl
  | cons b r ih =>
    rw [List.foldl_cons, h b List.mem_cons_self]
    exact ih fun c hc => h c (List.mem_cons_of_mem _ hc)

section
variable {s t : State}

/-! ### Boot -/

theorem State.slotImageOf_of_reason {a : Nat} (h : s.slotReason a = 0) : ∃ n image, s.slotImageOf a = some (n, image) := by
  unfold State.slotReason at h
  cases hi : s.slotImageOf a with
  | none => simp [hi] at h
  | some p => exact ⟨p.1, p.2, rfl⟩

/-- A refused slot changes the health word and the log, and nothing of the root of trust (R439). -/
theorem State.refuseSlot_standing (slot r : Nat) : (s.refuseSlot slot r).standing = s.standing := by
  unfold State.refuseSlot
  rw [State.syncHealth_standing, State.modMod_standing _ _ rfl, State.logSite_standing]

section
variable (hv : s.boot.verified = false) (hr : s.boot.recovery = false) (hk : s.boot.rotOk = true)
include hv hr hk

theorem doBootVerify_first (ha : s.slotReason (tgetD s.boot.selector s.flashOf 0 % 2) = 0) :
    doBootVerify s = s.bootFrom (tgetD s.boot.selector s.flashOf 0 % 2) := by
  simp [doBootVerify, hv, hr, hk, ha]

/-- With both slots refused the part enters recovery mode (R440). -/
theorem doBootVerify_recovery (ha : s.slotReason (tgetD s.boot.selector s.flashOf 0 % 2) ≠ 0)
    (hb : s.slotReason (1 - tgetD s.boot.selector s.flashOf 0 % 2) ≠ 0) :
    (doBootVerify s).boot =
      { s.boot with recovery := true, phase := 0, reasonA := s.slotReason 0, reasonB := s.slotReason 1 } := by
  simp only [doBootVerify, hv, hr, hk, ha, hb, Bool.false_eq_true, false_or, if_false, if_true]
  have hboot (a b r r' : Nat) : (((s.refuseSlot a r).refuseSlot b r').measure 0 Config.romItems).boot = s.boot := by
    have h : (((s.refuseSlot a r).refuseSlot b r').measure 0 Config.romItems).standing = s.standing := by
      rw [State.measure_standing, State.refuseSlot_standing, State.refuseSlot_standing]
    exact congrArg Standing.boot h
  rw [hboot]
  have hbit : tgetD s.boot.selector s.flashOf 0 % 2 = 0 ∨ tgetD s.boot.selector s.flashOf 0 % 2 = 1 := by omega
  obtain h0 | h1 := hbit
  · simp [h0, hv, hk]
  · simp [h1, hv, hk]

end

theorem State.bootFrom_spec {slot n : Nat} {image : List Byte} (h : s.slotImageOf slot = some (n, image)) :
    (s.bootFrom slot).boot.verified = true ∧ (s.bootFrom slot).boot.fwslot = slot ∧ (s.bootFrom slot).mod.attempt = 1 ∧
      (s.bootFrom slot).mem = s.mem := by
  simp only [State.bootFrom, h]
  refine ⟨trivial, trivial, rfl, ?_⟩
  have hm (u : State) (i : Nat) (d : List Byte) : (u.measure i d).mem = u.mem := rfl
  have hf (u : State) (f : Module → Module) : (u.modMod f).mem = u.mem := rfl
  rw [hf, hm, hm, hm]

/-! ### Waves -/

@[simp] theorem State.site_modSite_same (i : Nat) (f : Site → Site) : (s.modSite i f).site i = f (s.site i) := by
  simp [State.site, State.modSite]

theorem State.site_modSite_ne {i j : Nat} (f : Site → Site) (h : j ≠ i) : (s.modSite i f).site j = s.site j := by
  simp only [State.site, State.modSite, tgetD_tset_ne _ _ _ _ _ h]

theorem State.site_of_standing (h : t.standing = s.standing) (i : Nat) : t.site i = s.site i := by
  have : t.sites = s.sites := congrArg Standing.sites h
  simp only [State.site, this]

/-- The edge chiplets below `n` launch their waves one after another (R329). -/
theorem launched_site (f : Nat → Site → Site) (st n : Nat) (hf : ∀ e x, (f e x).st = st) (s : State) :
    ∀ e, e < n → (((List.range n).foldl (fun (t : State) e => t.modSite (576 + e) (f e)) s).site (576 + e)).st = st := by
  induction n with
  | zero => intro e he; omega
  | succ n ih =>
    intro e he
    rw [List.range_succ, List.foldl_append, List.foldl_cons, List.foldl_nil]
    by_cases h : e = n
    · rw [h, State.site_modSite_same, hf]
    · rw [State.site_modSite_ne _ (by omega)]
      exact ih e (by omega)

theorem modSites_boot (f : Nat → Site → Site) (l : List Nat) (s : State) :
    (l.foldl (fun (t : State) e => t.modSite (576 + e) (f e)) s).boot = s.boot :=
  foldl_keeps State.boot (fun (t : State) e => t.modSite (576 + e) (f e)) (fun _ _ => rfl) _ _

theorem mem_launchedWaves {e : Nat} (he : e < nEdges) {y : Nat} (hy : y ∈ seededSites e) :
    (y, e, 1) ∈ ((List.range nEdges).map fun e => (seededSites e).map fun x => (x, e, 1)).foldr (· ++ ·) [] := by
  have hjoin (l : List (List (Nat × Nat × Nat))) : l.foldr (· ++ ·) [] = l.flatten := by
    simpa using List.foldr_append_eq_append (l := l) (f := id) (l' := [])
  rw [hjoin, List.mem_flatten]
  exact ⟨_, List.mem_map_of_mem (List.mem_range.mpr he), List.mem_map_of_mem hy⟩

theorem doWaveLaunch_spec (hv : s.boot.verified = true) (h0 : s.boot.t0 = none) :
    (doWaveLaunch s).boot.t0 = some s.ncyc ∧ (∀ e, e < 16 → ∀ y ∈ seededSites e, (y, e, 1) ∈ (doWaveLaunch s).boot.waves) ∧
      ∀ e, e < 16 → ((doWaveLaunch s).site (576 + e)).st = 1 := by
  simp only [doWaveLaunch, hv, h0, Bool.not_true, Bool.false_eq_true, Option.isSome_none, or_self, if_false]
  refine ⟨?_, fun e he y hy => ?_, launched_site _ 1 16 (fun _ _ => rfl) _⟩
  · rw [modSites_boot]
  · rw [modSites_boot]
    exact mem_launchedWaves he hy

theorem waveFirst_self (w : Nat × Nat × Nat) : waveFirst w w = true := by simp [waveFirst]

section
variable {o n t0 : Nat} (hw : s.boot.waves = [(s.subj, o, n)]) (ht : s.boot.t0 = some t0) (hn : t0 + n * usN ≤ s.ncyc)
include hw ht hn

theorem doWaveArrival_absorbed (hx : (s.site s.subj).st ≠ 0) :
    doWaveArrival o n s = { s with boot := { s.boot with waves := [] } } := by
  simp [doWaveArrival, hw, ht, hn, hx, waveFirst_self]

theorem doWaveArrival_seeds (hx : (s.site s.subj).st = 0) :
    doWaveArrival o n s = ((({ s with boot := { s.boot with waves :=
        ((neighbours s.subj).filter fun m => (s.site m.2).st == 0).map fun m => (m.2, o, n + 1) } } : State).modSite s.subj fun y =>
      { y with st := 1, wave := s.mod.attempt, hops := n, origin := o }).stateVector) := by
  simp [doWaveArrival, hw, ht, hn, hx, waveFirst_self]

end

/-! ### From SEEDED to READY -/

theorem doLocked_seeded (hx : (s.site s.subj).st = 1) :
    doLocked s = (({ s with freeCtr := s.freeCtr + 1 } : State).modSite s.subj fun y =>
      { y with st := 2, tries := 0, since := s.ncyc, off := (Config.freeWord s.freeCtr).getLsbD 0 }).stateVector := by
  simp only [doLocked, hx, if_true, State.free]

theorem doLocked_other (hx : (s.site s.subj).st ≠ 1) : doLocked s = s := by simp only [doLocked, hx, if_false]

/-- With no dead link, and its neighbour not failed, a link is trained. -/
theorem State.linkUp_locked (hd : s.deadLinks = []) {i dir n : Nat} (hn : (s.site n).st = 2) : s.linkUp i dir n = true := by
  simp [State.linkUp, hd, hn, deadSite]

theorem doTrained_eq (hi : s.subj < 576) (hx : (s.site s.subj).st = 2) (hd : s.deadLinks = [])
    (hn : ∀ m ∈ neighbours s.subj, (s.site m.2).st = 2) :
    doTrained s = (s.modSite s.subj fun y => { y with
      st := if y.st = 9 then 9 else 3, links := (neighbours s.subj).foldl (fun a m => a + 2 ^ m.1) 0, tries := 0 }).stateVector := by
  have hup : ∀ m ∈ neighbours s.subj, s.linkUp s.subj m.1 m.2 = true := fun m hm => State.linkUp_locked hd (hn m hm)
  have hwhole : ((neighbours s.subj).all fun m => deadSite (s.site m.2).st || s.linkUp s.subj m.1 m.2) = true :=
    List.all_eq_true.mpr fun m hm => by rw [hup m hm, Bool.or_true]
  have hpast : ((neighbours s.subj).all fun m => pastLocked (s.site m.2).st) = true :=
    List.all_eq_true.mpr fun m hm => by rw [hn m hm]; rfl
  have hlinks : (neighbours s.subj).foldl (fun a m => if s.linkUp s.subj m.1 m.2 then a + 2 ^ m.1 else a) 0 =
      (neighbours s.subj).foldl (fun a m => a + 2 ^ m.1) 0 :=
    List.foldl_ext _ _ _ fun a m hm => by simp [hup m hm]
  simp only [doTrained, show s.subj < nSites from hi, if_true, hx, hwhole, hpast, hlinks, true_or, and_self]

theorem doLoaded_eq {conf : List Byte} (hx : (s.site s.subj).st = 3) :
    doLoaded conf s = ((({ s with boot := { s.boot with confs := tset s.boot.confs s.subj conf } } : State).modSite s.subj fun y =>
      { y with st := 4 }).stateVector) := by
  simp only [doLoaded, hx, true_or, if_true]

/-! ### The whole part moves on -/

/-- A site as it moves on with the others of its STATE. -/
def Site.moved (a b : Nat) (x : Site) : Site := if x.st = a then { x with st := b } else x

theorem State.advance_sites (a b : Nat) : (s.advance a b).sites = s.sites.map fun p => (p.1, p.2.moved a b) := by
  have hv : ∀ u : State, u.stateVector.sites = u.sites := fun u => congrArg Standing.sites (State.stateVector_standing u)
  unfold State.advance
  rw [hv]
  refine List.map_congr_left fun p _ => ?_
  unfold Site.moved
  split <;> rfl

theorem State.advance_site {a b j : Nat} (h : (s.site j).st = a) (ha : a ≠ 0) : ((s.advance a b).site j).st = b := by
  unfold State.site tgetD at h ⊢
  rw [State.advance_sites, tget_map]
  cases hj : tget s.sites j with
  | none => exact absurd (show 0 = a by simpa [hj, Site.dark] using h).symm ha
  | some x => simp [Site.moved, show x.st = a by simpa [hj] using h]

/-- Nothing makes an attempt start over while every site is in one STATE that is no failure, and every time is aligned (R438). -/
theorem State.mustRestart_whole {a : Nat} (h : ∀ j, j < 592 → (s.site j).st = a) (ha : failedState a = false)
    (hm : s.misaligned = false) : s.mustRestart = false := by
  have hedges : ((List.range nEdges).any fun e => e != s.bootingEdge && failedState (s.site (576 + e)).st) = false := by
    rw [List.any_eq_false]
    intro e he
    rw [h _ (by have := List.mem_range.mp he; unfold nEdges at this; omega), ha]
    simp
  have hsites : ((List.range nSites).filter fun i => failedState (s.site i).st) = [] := by
    rw [List.filter_eq_nil_iff]
    intro i hi
    rw [h _ (by have := List.mem_range.mp hi; unfold nSites at this; omega), ha]
    simp
  simp [State.mustRestart, hedges, hsites, hm]

theorem allSites_in {a : Nat} (h : ∀ j, j < 592 → (s.site j).st = a) :
    ((List.range (nSites + nEdges)).all fun i => (s.site i).st == a || deadSite (s.site i).st) = true :=
  List.all_eq_true.mpr fun i hi => by simp [h i (List.mem_range.mp hi)]

theorem nearSite_lt {i : Nat} (h : i < 576) : nearSite i < 576 := by
  unfold nearSite
  split <;> omega

theorem siteOfHome_lt {h : Nat} (hh : h ∈ assignedHomes) : siteOfHome h < 592 := by
  have hlt : h < 592 ∨ (0x3F0 ≤ h ∧ h < 0x3F4) := by
    simp only [assignedHomes, nClusters, nMcs, nEdges, List.mem_append, List.mem_range, List.mem_map] at hh
    obtain hh | ⟨p, hp, rfl⟩ := hh <;> omega
  simp only [siteOfHome, isCC, isMC, isHost, Bool.and_eq_true, decide_eq_true_eq]
  split
  · split
    · omega
    · split
      · omega
      · split <;> omega
  · split
    · split <;> omega
    · split <;> omega

/-- While no site has failed, no compute chiplet is retired with its memory chiplet (R437). -/
theorem retireOrphans_none (h : ∀ j, j < 592 → deadSite (s.site j).st = false) :
    (List.range nSites).foldl (fun (t : State) i => t.retireOrphan i) s = s := by
  refine foldl_fixed_mem _ _ _ fun i hi => ?_
  have hn : nearSite i < 576 := nearSite_lt (List.mem_range.mp hi)
  simp [State.retireOrphan, h _ (by omega : nearSite i < 592)]

theorem State.advance_homeMap (a b : Nat) : (s.advance a b).homeMap = s.homeMap :=
  congrArg Standing.homeMap (State.stateVector_standing _)

theorem State.advance_nst (a b : Nat) : (s.advance a b).nst = s.nst := congrArg Standing.nst (State.stateVector_standing _)

theorem State.measure_homeMap (i : Nat) (d : List Byte) : (s.measure i d).homeMap = s.homeMap := rfl

theorem State.measureAll_standing (l : List (Nat × List Byte)) :
    (l.foldl (fun (t : State) p => t.measure 3 p.2) s).standing = s.standing :=
  foldl_keeps State.standing (fun (t : State) (p : Nat × List Byte) => t.measure 3 p.2) (fun _ _ => rfl) _ _

/-- With every site LOADED, no dead link and every time aligned, the interfaces get the whole home map (R313, R314). -/
theorem doNamed_spec (h : ∀ j, j < 592 → (s.site j).st = 4) (hm : s.misaligned = false) (hd : s.deadLinks = []) :
    (∀ j, j < 592 → ((doNamed s).site j).st = 5) ∧ (doNamed s).nst = [] ∧
      (doNamed s).homeMap = assignedHomes.map fun h => (h, mapEntry h) := by
  have hlive : ∀ j, j < 592 → deadSite (s.site j).st = false := fun j hj => by rw [h j hj]; rfl
  have hmap : assignedHomes.filter (fun h => !(deadSite (s.site (siteOfHome h)).st)) = assignedHomes :=
    List.filter_eq_self.mpr fun k hk => by rw [hlive _ (siteOfHome_lt hk)]; rfl
  simp only [doNamed, allSites_in h, State.mustRestart_whole h rfl hm, retireOrphans_none hlive, hmap, Bool.not_true, Bool.or_self,
    Bool.false_eq_true, if_false]
  generalize hu : (s.boot.confs.filter fun p => !(deadSite (s.site p.1).st)).foldl (fun (t : State) p => t.measure 3 p.2) s = u
  have hstand : u.standing = s.standing := hu ▸ State.measureAll_standing _
  have hlinks : u.deadLinks = [] := (congrArg Standing.deadLinks hstand).trans hd
  simp only [hlinks, List.map_nil, List.isEmpty_nil, if_true]
  refine ⟨fun j hj => State.advance_site ?_ (by decide), ?_, ?_⟩
  · exact (congrArg Site.st (State.site_of_standing hstand j)).trans (h j hj)
  · rw [State.advance_nst]
    rfl
  · rw [State.advance_homeMap, State.measure_homeMap]

theorem doReady_spec (h : ∀ j, j < 592 → (s.site j).st = 5) (hm : s.misaligned = false) :
    ∀ j, j < 592 → ((doReady s).site j).st = 6 := by
  intro j hj
  simp only [doReady, allSites_in h, State.mustRestart_whole h rfl hm, Bool.not_true, Bool.or_self, Bool.false_eq_true, if_false]
  exact State.advance_site (h j hj) (by decide)

/-! ### Failures of bring-up -/

theorem doBringupTimeout_lock (hx : (s.site s.subj).st = 1) (hp : s.pastT0 ((s.site s.subj).hops * usN + 200 * usN) = true) :
    doBringupTimeout 8 s = ({ (s.failSite s.subj 8).killSite s.subj with subj := s.subj } : State).stateVector := by
  simp [doBringupTimeout, hx, hp]

theorem doBringupTimeout_load (hx : (s.site s.subj).st = 3) :
    doBringupTimeout 10 s = ({ s.tryFail s.subj 10 2 with subj := s.subj } : State).stateVector := by
  simp [doBringupTimeout, hx]

theorem State.tryFail_again {i st limit : Nat} (h : (s.site i).tries + 1 < limit) :
    s.tryFail i st limit = s.modSite i fun x => { x with tries := (s.site i).tries + 1 } := by
  simp only [State.tryFail, Nat.not_le.mpr h, if_false]

theorem State.tryFail_last {i st limit : Nat} (h : limit ≤ (s.site i).tries + 1) : s.tryFail i st limit = s.failSite i st := by
  simp only [State.tryFail, h, if_true]

theorem State.mustRestart_edge {e : Nat} (ha : s.mod.attempt < 4) (he : e < 16) (hne : e ≠ s.bootingEdge)
    (hx : failedState (s.site (576 + e)).st = true) : s.mustRestart = true := by
  have hedges : ((List.range nEdges).any fun e => e != s.bootingEdge && failedState (s.site (576 + e)).st) = true :=
    List.any_eq_true.mpr ⟨e, List.mem_range.mpr he, by simp [hne, hx]⟩
  simp [State.mustRestart, ha, hedges]

/-- An attempt that starts over stands as it did before T0, with the next number (R438). -/
theorem doRestart_standing {t0 : Nat} (ht : s.boot.t0 = some t0) (hs : s.modState ≠ 6) (hm : s.mustRestart = true) :
    (doRestart s).standing = { s.standing with
      boot := { s.boot with t0 := none, waves := [], confs := [] }, sites := [], homeMap := [], nst := [], deadLinks := [],
      attempt := s.mod.attempt + 1 } := by
  simp only [doRestart, ht, hs, hm, Option.isNone_some, Bool.false_eq_true, Bool.not_true, or_self, if_false,
    State.syncHealth_standing, State.stateVector_standing]
  rfl

/-! ### Recovery -/

section
variable (hr : s.boot.recovery = true)
include hr

theorem State.recGo_idle {w : Word} (h1 : s.boot.phase ≠ 1) (h2 : s.boot.phase ≠ 2) :
    s.recGo w = { s with boot := { s.boot with phase := 1, recLen := bitsOf w.toNat 32 32, recSlot := bitsOf w.toNat 4 1 } } := by
  simp [State.recGo, State.recBusy, hr, h1, h2]

theorem State.recReset_recovery : s.recReset = s.moduleReset := by simp only [State.recReset, hr, if_true]

theorem State.recReport_recovery : s.recReport = { s with boot := { s.boot with
    recReport := bytesOfNat 8 s.modid ++ bytesOfNat 8 s.recstat
      ++ ((List.range 4).map fun j => bytesOfNat 8 (tgetD s.boot.recnonce j 0#64).toNat).foldr (· ++ ·) []
      ++ s.measOf 0 ++ idKey64 ++ (Config.sign (bytesOfNat 8 s.modid ++ bytesOfNat 8 s.recstat
      ++ ((List.range 4).map fun j => bytesOfNat 8 (tgetD s.boot.recnonce j 0#64).toNat).foldr (· ++ ·) []
      ++ s.measOf 0 ++ idKey64) ++ List.replicate 29792 0#8).take 29792 } } := by
  simp only [State.recReport, hr, Bool.not_true, Bool.false_eq_true, if_false]

theorem doRecoveryDone_verified (hp : s.boot.phase = 1)
    (h0 : imageReason s.boot.recLen (s.bytesAt (stagingKey 0) (min s.boot.recLen imageMax)) = 0) :
    doRecoveryDone s = { s with boot := { s.boot with phase := 2 } } := by
  simp [doRecoveryDone, hr, hp, h0]

theorem doRecoveryDone_refused (hp : s.boot.phase = 1)
    (h0 : imageReason s.boot.recLen (s.bytesAt (stagingKey 0) (min s.boot.recLen imageMax)) ≠ 0) :
    doRecoveryDone s = { s with boot := { s.boot with
      phase := 4
      reasonA := if s.boot.recSlot = 0 then imageReason s.boot.recLen (s.bytesAt (stagingKey 0) (min s.boot.recLen imageMax))
        else s.boot.reasonA
      reasonB := if s.boot.recSlot = 1 then imageReason s.boot.recLen (s.bytesAt (stagingKey 0) (min s.boot.recLen imageMax))
        else s.boot.reasonB } } := by
  simp [doRecoveryDone, hr, hp, h0]

theorem doRecoveryDone_written (hp : s.boot.phase = 2) :
    doRecoveryDone s = { s with
      mem := memWrite s.mem (flashKey (2 * s.flashOf + s.boot.recSlot) 0) ((s.bytesAt (stagingKey 0) s.boot.recLen).map some)
      boot := { s.boot with
        phase := 3
        slots := tset s.boot.slots (2 * s.flashOf + s.boot.recSlot) s.boot.recLen
        selector := tset s.boot.selector s.flashOf s.boot.recSlot } } := by
  simp [doRecoveryDone, hr, hp]

end

theorem State.recGo_busy {w : Word} (h : s.boot.phase = 1 ∨ s.boot.phase = 2) : s.recGo w = s := by
  have hbusy : s.recBusy = true := by simpa [State.recBusy] using h
  simp only [State.recGo, hbusy, or_true, if_true]

theorem signature_length (body : List Byte) : ((Config.sign body ++ List.replicate 29792 0#8).take 29792).length = 29792 := by
  rw [List.length_take, List.length_append, List.length_replicate]
  omega

end

/-- Settles O60: the sites, the links and the registers of bring-up are read back through the records and reports that each event
makes, which leave them as they are. -/
theorem bootEvents : Obligations.BootEvents := by
  unfold Obligations.BootEvents
  intro s w n o conf
  refine ⟨⟨_, rfl, rfl, rfl, rfl, rfl, rfl, rfl, rfl, rfl, rfl, rfl, rfl⟩, fun hv hr hk => ⟨fun ha => ?_, fun ha hb => ?_⟩,
    fun hv h0 => ⟨_, rfl, doWaveLaunch_spec hv h0⟩,
    fun t0 hw ht hn => ⟨fun hx => next_of_eq (doWaveArrival_absorbed hw ht hn hx), fun hx => next_of_eq (doWaveArrival_seeds hw ht hn hx)⟩,
    fun hx => next_of_eq (doLocked_seeded hx), fun hx => next_of_eq (doLocked_other hx),
    fun hi hx hd hn => ⟨_, next_of_eq (doTrained_eq hi hx hd hn), rfl⟩, fun hx => next_of_eq (doLoaded_eq hx),
    fun h hm hd => ⟨_, rfl, doNamed_spec h hm hd⟩, fun h hm => ⟨_, rfl, doReady_spec h hm⟩,
    fun hx hp => next_of_eq (doBringupTimeout_lock hx hp), fun hx => ⟨fun ht => ?_, fun ht => ?_⟩,
    fun t0 e ht ha hs he hne hx => ?_, fun hr => ⟨fun h1 h2 => next_of_eq (State.recGo_idle hr h1 h2),
      fun h => next_of_eq (State.recGo_busy h), next_of_eq (State.recReset_recovery hr),
      ⟨_, signature_length _, next_of_eq (State.recReport_recovery hr)⟩,
      fun hp => ⟨fun h0 => next_of_eq (doRecoveryDone_verified hr hp h0), fun h0 => next_of_eq (doRecoveryDone_refused hr hp h0)⟩,
      fun hp => next_of_eq (doRecoveryDone_written hr hp)⟩⟩
  · obtain ⟨len, image, hi⟩ := State.slotImageOf_of_reason ha
    obtain ⟨hver, hslot, hatt, hmem⟩ := State.bootFrom_spec hi
    exact ⟨_, next_of_eq (doBootVerify_first hv hr hk ha), hver, hslot, hatt, hmem⟩
  · have hboot := doBootVerify_recovery hv hr hk ha hb
    exact ⟨_, rfl, by rw [hboot], by rw [hboot]; exact hv, by rw [hboot], by rw [hboot], by rw [hboot]⟩
  · have hrun := doBringupTimeout_load hx
    rw [State.tryFail_again (by omega), ht] at hrun
    exact next_of_eq hrun
  · have hrun := doBringupTimeout_load hx
    rw [State.tryFail_last (by omega)] at hrun
    exact next_of_eq hrun
  · have hfail : failedState (s.site (576 + e)).st = true := by rw [hx]; rfl
    have h := doRestart_standing ht hs (State.mustRestart_edge ha he hne hfail)
    have hboot : (doRestart s).boot = { s.boot with t0 := none, waves := [], confs := [] } := congrArg Standing.boot h
    exact ⟨_, rfl, congrArg Standing.attempt h, congrArg Standing.sites h, congrArg Standing.deadLinks h, congrArg Standing.homeMap h,
      congrArg Standing.nst h, by rw [hboot], by rw [hboot]⟩

end Sys2Proof.Machine
end

section
/-! SUPPORT. What the events of the edge chiplets, of power, of links and of scheduler cores come to (R24, R283 to R286, R325 to R327, R334,
R335, R394 to R401, R423, R428 to R434, R444). -/

namespace Sys2Proof.Machine

section
variable {s t : State}

/-! ### Ethernet -/

theorem doEthTransmit_eq {frame : List Byte} {e id : Nat} (h : s.frameEngine s.subj frame = some (e, id)) :
    doEthTransmit frame s = (s.modCmd e id fun c => { c with sent := true }).modEth s.subj fun x =>
      { x with txcnt := (x.txcnt + 1) % 2 ^ 32, sent := x.sent ++ [frame ++ fcs frame] } := by
  simp only [doEthTransmit, h]

section
variable {wire : List Byte} (hen : (s.eth s.subj).en = true) (h1 : 1 ≤ (s.eth s.subj).log2n) (h16 : (s.eth s.subj).log2n ≤ 16)
include hen h1 h16

/-- A received frame is too short, fails its check sequence, or finds every slot in use (R325, R327). -/
theorem doEthReceive_drops (hbad : ¬(64 ≤ wire.length ∧ wire.drop (wire.length - 4) = fcs (wire.take (wire.length - 4)) ∧
    (s.eth s.subj).used < 2 ^ (s.eth s.subj).log2n)) : doEthReceive wire s = s.dropFrame s.subj := by
  have hrefused : (decide (wire.length < 64) || wire.drop (wire.length - 4) != fcs (wire.take (wire.length - 4))
      || decide (2 ^ (s.eth s.subj).log2n ≤ (s.eth s.subj).used)) = true := by
    simp only [Bool.or_eq_true, decide_eq_true_eq, bne_iff_ne, ← Nat.not_le (a := 64), ← Nat.not_lt (b := 2 ^ _)]
    tauto
  have hon : (!(s.eth s.subj).en || (s.eth s.subj).log2n == 0 || decide (16 < (s.eth s.subj).log2n)) = false := by
    simp [hen]; omega
  simp only [doEthReceive, hon, hrefused, Bool.false_eq_true, if_false, if_true]

omit hen h1 h16 in
/-- No line of a slot that is in reach keeps the frame waiting, and none drops it. -/
theorem State.storesReach {ls : List (Word × List Byte)} (h : ∀ l ∈ ls, ∃ key, s.unitKey ethCtx .store l.1 l.2.length = .ok key) :
    ls.find? (fun l => s.unreached ethCtx .store l.1 l.2.length) = none ∧
      ls.any (fun l => match s.unitKey ethCtx .store l.1 l.2.length with
        | .ok _ => false
        | .error _ => true) = false := by
  constructor
  · refine List.find?_eq_none.mpr fun l hl => ?_
    obtain ⟨key, hk⟩ := h l hl
    simp [State.unreached, hk]
  · refine List.any_eq_false.mpr fun l hl => ?_
    obtain ⟨key, hk⟩ := h l hl
    simp [hk]

/-- The lines of the slot that an Ethernet port's next frame goes to (R326). -/
def State.rxLines (s : State) (port : Nat) (frame : List Byte) : List (Word × List Byte) :=
  slotLines (addrPlus (s.eth port).rxbase (16384 * ((s.eth port).rxcnt % 2 ^ (s.eth port).log2n))) (s.nsAt (576 + port / 2)) frame

/-- Lines of a slot as edge firmware writes them (R326, R422). -/
def State.storeLines (s : State) (ls : List (Word × List Byte)) : State :=
  ls.foldl (fun (t : State) l => match t.unitKey ethCtx .store l.1 l.2.length with
    | .ok key => (t.putMem key (l.2.map some)).setTag key 0#16
    | .error _ => t) s

/-- A frame whose slot's lines are all in reach is written and announced (R326). -/
theorem doEthReceive_takes (hlen : 64 ≤ wire.length) (hfcs : wire.drop (wire.length - 4) = fcs (wire.take (wire.length - 4)))
    (hroom : (s.eth s.subj).used < 2 ^ (s.eth s.subj).log2n)
    (hkey : ∀ l ∈ s.rxLines s.subj (wire.take (wire.length - 4)), ∃ key, s.unitKey ethCtx .store l.1 l.2.length = .ok key) :
    doEthReceive wire s = ((s.storeLines (s.rxLines s.subj (wire.take (wire.length - 4)))).modEth s.subj fun y =>
        { y with rxcnt := (y.rxcnt + 1) % 2 ^ 32, used := y.used + 1 }).announce (s.eth s.subj).rxq
      (BitVec.ofNat 64 (2 ^ 16 * ((s.eth s.subj).rxcnt % 2 ^ (s.eth s.subj).log2n) + (wire.take (wire.length - 4)).length)) := by
  have hgood : (decide (wire.length < 64) || wire.drop (wire.length - 4) != fcs (wire.take (wire.length - 4))
      || decide (2 ^ (s.eth s.subj).log2n ≤ (s.eth s.subj).used)) = false := by
    simp [hfcs, Nat.not_lt.mpr hlen, Nat.not_le.mpr hroom]
  have hon : (!(s.eth s.subj).en || (s.eth s.subj).log2n == 0 || decide (16 < (s.eth s.subj).log2n)) = false := by
    simp [hen]; omega
  obtain ⟨hfind, hany⟩ := State.storesReach hkey
  unfold State.rxLines at hfind hany
  simp only [doEthReceive, hon, hgood, hfind, Bool.false_eq_true, if_false]
  exact if_neg (Bool.eq_false_iff.mp hany)

end

theorem doRxret_eq {n : Nat} (h : s.edgeFree (s.subj / 32) = true) :
    doRxret n s = s.modEth (s.subj % 32) fun y => { y with used := y.used - n } := by
  simp only [doRxret, h, if_true, State.rxretWrite]

/-! ### Reservation classes -/

theorem doRtableWrite_eq {w : Word} (h : s.edgeFree (s.subj / 64) = true) :
    doRtableWrite w s = s.modMod fun m => { m with rtable := tset m.rtable (s.subj % 64) (w &&& 0x0000FFFFFFFFFFFF#64) } := by
  simp only [doRtableWrite, h, if_true, State.rtableWrite]

theorem doAgeing_eq {since age : Nat} (hw : s.waitsSince s.subj = some (since, age)) (hn : since + age ≤ s.ncyc)
    (ha : s.aged.contains s.subj = false) : doAgeing s = { s with aged := s.aged ++ [s.subj] } := by
  simp only [doAgeing, hw, hn, ha, Bool.not_false, and_self, if_true]

/-! ### Power -/

/-- A manager's step keeps what it has sampled (R335). -/
theorem Power.manage_fpwr (p : Power) (mpwr mplim : Nat) (env : Bool) : (p.manage mpwr mplim env).fpwr = p.fpwr := by
  simp only [Power.manage]
  repeat' split
  all_goals rfl

section
variable {p : Power} {mpwr mplim : Nat} {env : Bool} (hover : 1000 * p.fplim < p.fpwr)
include hover

theorem Power.manage_over : p.manage mpwr mplim env =
    let q : Power := { p with pwr := true, therm := p.therm || (p.over mpwr mplim env).2.1, mod := p.mod || (p.over mpwr mplim env).2.2 }
    if 1 < p.plevel then { q with plevel := p.plevel - 1 } else if 1 < p.clevel then { q with clevel := p.clevel - 1 } else q := by
  simp [Power.manage, Power.over, hover]

theorem Power.manage_pwr : (p.manage mpwr mplim env).pwr = true := by
  rw [Power.manage_over hover]
  dsimp only
  split
  · rfl
  · split <;> rfl

theorem Power.manage_plevel (h : 1 < p.plevel) :
    (p.manage mpwr mplim env).plevel = p.plevel - 1 ∧ (p.manage mpwr mplim env).clevel = p.clevel := by
  simp only [Power.manage_over hover, h, if_true, and_self]

theorem Power.manage_clevel (h : p.plevel ≤ 1) (hc : 1 < p.clevel) :
    (p.manage mpwr mplim env).plevel = p.plevel ∧ (p.manage mpwr mplim env).clevel = p.clevel - 1 := by
  simp only [Power.manage_over hover, Nat.not_lt.mpr h, hc, if_true, if_false, and_self]

end

/-- What a field's manager has sampled when it takes its step (R335): the power given, and three free values. -/
def State.sampled (s : State) (mw : Nat) : Power :=
  { s.power s.subj with
    fpwr := mw
    temp := (Config.freeWord s.freeCtr).extractLsb' 0 16
    mvolt := bitsOf (Config.freeWord (s.freeCtr + 1)).toNat 0 16
    amps := bitsOf (Config.freeWord (s.freeCtr + 1 + 1)).toNat 0 16 }

/-- The module's power with a new sample of one field. -/
theorem modulePower_sampled (q : Power) :
    ({ s with powers := tset s.powers s.subj q } : State).modulePower =
      (List.range 16).foldl (fun a e => a + (if e = s.subj then q.fpwr else (s.power e).fpwr)) 0 := by
  refine List.foldl_ext _ _ _ fun a e _ => ?_
  by_cases h : e = s.subj
  · simp [State.power, h]
  · simp [State.power, h, tgetD_tset_ne]

theorem doPower_spec (mw : Nat) : ∃ mpwr mplim env, (doPower mw s).freeCtr = s.freeCtr + 3 ∧
    (doPower mw s).power s.subj = (s.sampled mw).manage mpwr mplim env ∧
    (doPower mw s).mod.mpwr = ((List.range 16).foldl (fun a e => a + (if e = s.subj then mw else (s.power e).fpwr)) 0) / 1000 := by
  refine ⟨_, _, _, rfl, tgetD_tset_same _ _ _ _, ?_⟩
  have hmod (u : State) (m : Nat) : (u.excursion m).mod.mpwr = u.mod.mpwr := by
    simp only [State.excursion, State.modMod]
    split <;> rfl
  have hpower := congrArg (· / 1000) (modulePower_sampled (s := s) (s.sampled mw))
  exact (hmod _ _).trans hpower

/-! ### Attestation -/

theorem State.measure5_mem (n : Nat) : (s.measure5 n).mem = s.mem := by
  unfold State.measure5
  split <;> rfl

theorem State.attGo_busy (h : s.mod.attBusy = true) : s.attGo = s := by simp only [State.attGo, h, if_true]

theorem doAttGo_begins (hf : s.edgeFree s.subj = true) (hb : s.mod.attBusy = false) :
    (doAttGo s).mod.attBusy = true ∧ (doAttGo s).mod.attDone = false ∧ (doAttGo s).mem = s.mem := by
  simp only [doAttGo, hf, State.attGo, hb, Bool.false_eq_true, if_false, if_true]
  refine ⟨rfl, rfl, ?_⟩
  have hmod (u : State) (f : Module → Module) : (u.modMod f).mem = u.mem := rfl
  rw [hmod, State.measure5_mem, State.measure5_mem, State.measure5_mem]

theorem doAttGo_busy (h : s.mod.attBusy = true) : doAttGo s = s := by
  simp only [doAttGo, State.attGo_busy h, ite_self]

theorem doAttDone_eq (h : s.mod.attBusy = true) : doAttDone s = s.modMod fun m => { m with
    report := m.attFrom ++ (Config.sign s.mod.attFrom ++ List.replicate 29792 0#8).take 29792, attBusy := false, attDone := true } := by
  simp only [doAttDone, h, Bool.not_true, Bool.false_eq_true, if_false]

/-! ### Vector 0 -/

theorem doErrorIrq_owed (h : 0 < tgetD s.mod.v0Owed s.subj 0) :
    doErrorIrq s = { s.modMod fun m => { m with v0Owed := tset m.v0Owed s.subj (tgetD m.v0Owed s.subj 0 - 1) } with
      irqs := s.irqs ++ [(s.subj, 0)] } := by
  simp only [doErrorIrq, h, if_true]
  rfl

/-- New records are told of once a ms (R423). -/
theorem doErrorIrq_new (h0 : tgetD s.mod.v0Owed s.subj 0 = 0) (hn : s.mod.v0New.contains s.subj = true)
    (hl : ∀ t, tget s.mod.v0Last s.subj = some t → t + msN ≤ s.ncyc) :
    doErrorIrq s = { s.modMod fun m => { m with v0New := m.v0New.filter fun q => q != s.subj, v0Last := tset m.v0Last s.subj s.ncyc } with
      irqs := s.irqs ++ [(s.subj, 0)] } := by
  simp only [doErrorIrq, h0, Nat.lt_irrefl, if_false, hn, Bool.true_and]
  cases h : tget s.mod.v0Last s.subj with
  | none => rfl
  | some t => simp only [hl t h, decide_true, if_true]; rfl

/-! ### Links -/

section
variable {now : List Nat} (h : ((tgetD s.replays s.subj []).filter fun t => decide (s.ncyc < t + msN)) ++ [s.ncyc] = now)
include h

theorem doLinkCrc_few (hn : now.length < 64) : doLinkCrc s = { s with replays := tset s.replays s.subj now } := by
  simp only [doLinkCrc, h, Nat.not_le.mpr hn, if_false]

theorem doLinkCrc_many (hn : 64 ≤ now.length) :
    doLinkCrc s = ({ s with replays := tset s.replays s.subj [] } : State).logLink 8 s.subj 0 := by
  simp only [doLinkCrc, h, hn, if_true]

end

/-- Whether a link is dead. -/
def State.linkIsDead (s : State) (l : Nat) : Bool := s.deadLinks.any fun d => d.link == l

theorem State.killLink_live {n : Nat} (h : s.linkIsDead (canonLink n) = false) :
    s.killLink n = ((({ s with deadLinks := s.deadLinks ++ [⟨canonLink n, s.ncyc, [], []⟩] } : State).logLink 9 n 0).syncHealth false) := by
  unfold State.linkIsDead at h
  simp only [State.killLink, h, Bool.false_eq_true, if_false]

/-- The death of a link makes it dead, and leaves dead what was (R400). -/
theorem State.killLink_linkIsDead (n l : Nat) : (s.killLink n).linkIsDead l = (s.linkIsDead l || canonLink n == l) := by
  cases h : s.linkIsDead (canonLink n) with
  | true =>
    have hsame : s.killLink n = s := by
      unfold State.linkIsDead at h
      simp only [State.killLink, h, if_true]
    rw [hsame]
    by_cases hl : canonLink n = l
    · simp [← hl, h]
    · simp [hl]
  | false =>
    rw [State.killLink_live h]
    have hlinks (u : State) : ((u.logLink 9 n 0).syncHealth false).deadLinks = u.deadLinks := by
      have : ((u.logLink 9 n 0).syncHealth false).standing = u.standing := by simp
      exact congrArg Standing.deadLinks this
    simp [State.linkIsDead, hlinks]

theorem killLinks_linkIsDead (l : List Nat) (k : Nat) (s : State) :
    (l.foldl State.killLink s).linkIsDead k = (s.linkIsDead k || l.any fun n => canonLink n == k) := by
  induction l generalizing s with
  | nil => simp
  | cons n r ih => rw [List.foldl_cons, ih, State.killLink_linkIsDead, List.any_cons, Bool.or_assoc]

/-- Every link of a site and its own port are among the links that die with its chiplet (R400). -/
theorem mem_siteLinks {i dir mesh : Nat} (hi : i < 576) (hd : dir = 4 ∨ ∃ m ∈ neighbours i, m.1 = dir) (hm : mesh < 2) :
    10 * i + 5 * mesh + dir ∈ siteLinks i := by
  have hdir : dir ∈ (neighbours i).map Prod.fst ++ [4] := by
    obtain rfl | ⟨m, hm, rfl⟩ := hd
    · simp
    · exact List.mem_append_left _ (List.mem_map_of_mem hm)
  have hjoin (l : List (List Nat)) : l.foldr (· ++ ·) [] = l.flatten := by
    simpa using List.foldr_append_eq_append (l := l) (f := id) (l' := [])
  rw [siteLinks, if_neg (show ¬nSites ≤ i from Nat.not_le.mpr hi), hjoin, List.mem_flatten]
  refine ⟨_, List.mem_map_of_mem hdir, ?_⟩
  obtain rfl | rfl : mesh = 0 ∨ mesh = 1 := by omega
  · simp
  · simp

theorem doLinkDead_chiplet {i dir mesh : Nat} (hp : s.subj = 5760 + i) (hi : i < 576)
    (hd : dir = 4 ∨ ∃ m ∈ neighbours i, m.1 = dir) (hm : mesh < 2) :
    (doLinkDead s).linkIsDead (canonLink (10 * i + 5 * mesh + dir)) = true := by
  have hof : deadOf s.subj = siteLinks i := by
    have hlo : ¬5760 + i < 10 * nSites := by unfold nSites; omega
    have hhi : 5760 + i < 11 * nSites := by unfold nSites; omega
    rw [hp, deadOf, if_neg hlo, if_pos hhi, show 5760 + i - 10 * nSites = i by unfold nSites; omega]
  rw [doLinkDead, hof, killLinks_linkIsDead, Bool.or_eq_true]
  exact Or.inr (List.any_eq_true.mpr ⟨_, mem_siteLinks hi hd hm, beq_self_eq_true _⟩)

theorem doLinkDead_link (hp : s.subj < 5760) (hd : ∀ d ∈ s.deadLinks, d.link ≠ canonLink s.subj) :
    doLinkDead s = ((({ s with deadLinks := s.deadLinks ++ [⟨canonLink s.subj, s.ncyc, [], []⟩] } : State).logLink 9 s.subj 0).syncHealth
      false) := by
  have hof : deadOf s.subj = [s.subj] := if_pos hp
  have hlive : s.linkIsDead (canonLink s.subj) = false := List.any_eq_false.mpr fun d hm => by simp [hd d hm]
  rw [doLinkDead, hof, List.foldl_cons, List.foldl_nil, State.killLink_live hlive]

theorem doDeathNotice_eq {d : DeadLink} {n : Nat} (hd : s.deadLinks = [d]) (hl : d.link = canonLink n)
    (hn : tget d.noticed s.subj = none) :
    doDeathNotice n s = { s with deadLinks := [{ d with noticed := tset d.noticed s.subj s.ncyc }] } := by
  simp [doDeathNotice, hd, hl, hn]

theorem doReroute_eq (h : s.deadLinks ≠ []) (ht : t = (List.range 1024).foldl (fun (u : State) h => u.turnEntry s.subj h) s) :
    doReroute s = (List.range 1024).foldl (fun (u : State) h => u.noteUnreached s.subj h) { t with
      deadLinks := t.deadLinks.map fun d => if d.rerouted.contains s.subj then d else { d with rerouted := d.rerouted ++ [s.subj] } } := by
  have hsome : s.deadLinks.isEmpty = false := by simpa using h
  simp only [doReroute, hsome, ht, Bool.false_eq_true, if_false]

theorem doLoss_eq {e : Held} (h : (s.lostOf s.subj).find? (fun x => s.lossDue s.subj x.time) = some e) :
    doLoss s = (s.dropHeld e).answerHeld e (.fail 62 15 e.va) := by
  simp only [doLoss, h]

/-! ### Scheduler cores -/

theorem doHeartbeat_eq (hf : (s.cluster s.subj).fenced = false) (hl : s.clusterLive s.subj = true) :
    doHeartbeat s = s.modCluster s.subj fun x => { x with hbeat := (x.hbeat + 1) % 2 ^ 64 } := by
  simp only [doHeartbeat, hf, hl, Bool.not_true, Bool.or_self, Bool.false_eq_true, if_false]

section
variable {k : Nat} (ha : (s.cluster s.subj).adopter = none) (hl : s.clusterLive s.subj = true) (hk : s.watcherOf s.subj = some k)
include ha hl hk

theorem doWatcher_beats (hb : (s.cluster s.subj).hbeat ≠ (s.cluster s.subj).watchSeen) :
    doWatcher s = s.modCluster s.subj fun x => { x with watchSeen := (s.cluster s.subj).hbeat, watchSame := 1 } := by
  simp [doWatcher, ha, hl, hk, hb]

/-- The third read in a row that returns the same value fails the core (R428, R429). -/
theorem doWatcher_same (hb : (s.cluster s.subj).hbeat = (s.cluster s.subj).watchSeen) :
    doWatcher s =
      let t := s.modCluster s.subj fun x =>
        { x with watchSeen := (s.cluster s.subj).hbeat, watchSame := (s.cluster s.subj).watchSame + 1 }
      if 3 ≤ (s.cluster s.subj).watchSame + 1 then t.adopt s.subj k else t := by
  simp only [doWatcher, ha, hl, hk, hb, Option.isSome_none, Bool.not_true, Bool.or_self, Bool.false_eq_true, if_false, if_true]

end

/-! ### The tear-down of a context -/

/-- With no launch of the context waiting and every grid of it ended, its tear-down is a record (R433, R434). -/
theorem doCtxdown_eq {k : Nat} {c : Cluster} (hk : (s.clusters.find? fun x => x.2.tdGo == some (BitVec.ofNat 16 s.subj)) = some (k, c))
    (hops : ∀ o ∈ s.ops, ∀ r i, o.2.kind = .launch r i → o.2.ctx.asid.toNat ≠ s.subj)
    (hgrids : ∀ g ∈ s.grids, g.2.asid.toNat = s.subj → g.2.ended = g.2.launch.bpg) :
    doCtxdown s =
      let t := (s.modMod fun m => { m with downs := tset m.downs s.subj s.ncyc }).logRec 22 k s.subj 0 0 1
      { t with clusters := t.clusters.map fun x =>
          if x.2.tdGo = some (BitVec.ofNat 16 s.subj) then (x.1, { x.2 with tdGo := none }) else x } := by
  have hasked (q : Nat × Op → Bool) (hq : ∀ o ∈ s.ops, q o = true → (∃ r i, o.2.kind = .launch r i) ∧ o.2.ctx.asid.toNat = s.subj) :
      s.ops.filter q = [] := by
    refine List.filter_eq_nil_iff.mpr fun o ho hqo => ?_
    obtain ⟨⟨r, i, hkind⟩, hasid⟩ := hq o ho hqo
    exact hops o ho r i hkind hasid
  have hkill : (s.grids.filter fun g => g.2.asid.toNat == s.subj).foldl (fun (t : State) g => t.killGrid g.1 g.2) s = s := by
    refine foldl_fixed_mem _ _ _ fun g hg => ?_
    obtain ⟨hin, hasid⟩ := List.mem_filter.mp hg
    simp only [State.killGrid, hgrids g hin (beq_iff_eq.mp hasid), if_true]
  simp only [doCtxdown, hk]
  rw [hasked _ ?_, List.foldl_nil, hkill]
  intro o ho hq
  simp only [Bool.and_eq_true, beq_iff_eq] at hq
  obtain ⟨⟨hkind, -⟩, hasid⟩ := hq
  refine ⟨?_, hasid⟩
  cases hk : o.2.kind with
  | launch r i => exact ⟨r, i, rfl⟩
  | _ => rw [hk] at hkind; exact absurd hkind Bool.false_ne_true

/-! ### Fatal errors -/

theorem State.qtFill_standing (n off : Nat) (bs : List Byte) : (s.qtFill n off bs).standing = s.standing := by
  induction n generalizing s off bs with
  | zero => rfl
  | succ n ih =>
    unfold State.qtFill
    split
    · rfl
    · rw [ih, State.qtWrite_standing]

/-- Every site FROZEN, for a fatal condition (R445). -/
def State.allFrozen (s : State) : State :=
  { s with frozen := some s.subj, sites := (List.range (nSites + nEdges)).map fun i => (i, { s.site i with st := 13 }) }

/-- The dump and the interrupts of a freeze leave every site FROZEN (R444, R445). -/
theorem doFreeze_standing (h : s.isFatal s.subj = true) : (doFreeze s).standing = s.allFrozen.standing := by
  have hvector : s.allFrozen.stateVector.standing = s.allFrozen.standing := State.stateVector_standing _
  have hirqs (u : State) (l : List (Nat × Nat)) : ({ u with irqs := l } : State).standing = u.standing := rfl
  have hmem (u : State) (m : List Host.Cell) : ({ u with mem := m } : State).standing = u.standing := rfl
  unfold State.allFrozen at hvector
  simp only [doFreeze, h, Bool.not_true, Bool.false_eq_true, if_false]
  rw [hirqs]
  split
  · rw [State.qtFill_standing, hvector, State.allFrozen]
  · rw [hmem, hvector, State.allFrozen]

/-- The entry of a table that lists the first numbers in order. -/
theorem tget_range_map {α : Type} (f : Nat → α) (n i : Nat) (h : i < n) : tget ((List.range n).map fun i => (i, f i)) i = some (f i) := by
  have hrun (k a : Nat) (hlo : a ≤ i) (hhi : i < a + k) : tget ((List.range' a k).map fun i => (i, f i)) i = some (f i) := by
    induction k generalizing a with
    | zero => omega
    | succ k ih =>
      rw [List.range'_succ, List.map_cons, tget]
      by_cases e : a = i
      · rw [if_pos e, e]
      · rw [if_neg e, ih (a + 1) (by omega) (by omega)]
  rw [List.range_eq_range']
  exact hrun n 0 (Nat.zero_le _) (by omega)

theorem State.allFrozen_site {i : Nat} (hi : i < 592) : (s.allFrozen.site i).st = 13 := by
  simp only [State.site, State.allFrozen, tgetD]
  rw [tget_range_map _ (nSites + nEdges) _ hi, Option.getD_some]

theorem doFreeze_spec (h : s.isFatal s.subj = true) :
    (doFreeze s).frozen = some s.subj ∧ (doFreeze s).modState = 13 ∧ ∀ i, i < 592 → ((doFreeze s).site i).st = 13 := by
  have hs := doFreeze_standing h
  have hfrozen : (doFreeze s).frozen = some s.subj := congrArg Standing.frozen hs
  refine ⟨hfrozen, by simp only [State.modState, hfrozen, Option.isSome_some, if_true], fun i hi => ?_⟩
  rw [State.site_of_standing hs, State.allFrozen_site hi]

theorem doFreeze_other (h : s.isFatal s.subj = false) : doFreeze s = s := by
  simp only [doFreeze, h, Bool.not_false, if_true]

end

/-- Settles O59: each event is the branch of its own that the hypotheses choose; what is claimed of the links and of the sites is read
back through the records that the events make. -/
theorem edgeEvents : Obligations.EdgeEvents := by
  unfold Obligations.EdgeEvents
  intro s w frame n
  refine ⟨fun e id h => next_of_eq (doEthTransmit_eq h),
    fun hen h1 h16 => ⟨fun hbad => next_of_eq (doEthReceive_drops hen h1 h16 hbad),
      fun ⟨hlen, hfcs, hroom⟩ hkey => next_of_eq (doEthReceive_takes hen h1 h16 hlen hfcs hroom hkey)⟩,
    fun h => next_of_eq (doRxret_eq h), fun h => next_of_eq (doRtableWrite_eq h), rfl, rfl,
    fun since age hw hn ha => next_of_eq (doAgeing_eq hw hn ha), ?_,
    fun hf hb => ⟨_, rfl, doAttGo_begins hf hb⟩,
    fun hb => ⟨next_of_eq (doAttGo_busy hb), _, signature_length _, next_of_eq (doAttDone_eq hb)⟩,
    fun h => next_of_eq (doErrorIrq_owed h), fun h0 hn hl => next_of_eq (doErrorIrq_new h0 hn hl),
    ⟨fun hn => next_of_eq (doLinkCrc_few rfl hn), fun hn => next_of_eq (doLinkCrc_many rfl hn)⟩, rfl,
    fun hp hd => next_of_eq (doLinkDead_link hp hd), ?_, fun d hd hl hn => next_of_eq (doDeathNotice_eq hd hl hn),
    fun t h ht => next_of_eq (doReroute_eq h ht), fun e h => next_of_eq (doLoss_eq h), rfl,
    fun hf hl => next_of_eq (doHeartbeat_eq hf hl), fun k ha hl hk => ⟨fun hb => next_of_eq (doWatcher_beats ha hl hk hb), fun hb => ?_⟩,
    rfl, fun k c hk hops hgrids => next_of_eq (doCtxdown_eq hk hops hgrids), fun h => ⟨_, rfl, doFreeze_spec h⟩,
    fun h => next_of_eq (doFreeze_other h)⟩
  · obtain ⟨mpwr, mplim, env, hctr, hpower, hmpwr⟩ := doPower_spec (s := s) n
    refine ⟨_, rfl, hctr, ?_, hmpwr, fun hover => ?_⟩
    · rw [hpower, Power.manage_fpwr]
      rfl
    · have hover' : 1000 * (s.sampled n).fplim < (s.sampled n).fpwr := hover
      rw [hpower]
      exact ⟨Power.manage_pwr hover', fun h => Power.manage_plevel hover' h, fun h hc => Power.manage_clevel hover' h hc⟩
  · intro i t hp hi ht dir mesh hd hm
    obtain rfl : doLinkDead s = t := Host.Outcome.next.inj ht
    exact doLinkDead_chiplet hp hi hd hm
  · have hrun := doWatcher_same ha hl hk hb
    refine ⟨fun hs => ?_, fun hs => ?_⟩
    · exact next_of_eq (hrun.trans (if_neg (by omega)))
    · exact next_of_eq (hrun.trans (if_pos (by omega)))

end Sys2Proof.Machine
end

section
/-! SUPPORT. A port that has still to perform a posted write, and a write to one of its doorbell pages (R115, R289). -/

namespace Sys2Proof.Machine

/-- The tables of home 0x180 that map its first 16 MiB for ASID 0 to DRAM at 16 MiB, readable and writable (R68, R69, R71, R73), and
the record of queue 0 at the start of that page, mapped (R288): DRAM address, width, value. -/
def doorbellCells : List (Nat × Nat × Nat) :=
  [(0, 8, 0x8001), (8, 8, 0x1000), (0x8000, 8, 0x20001), (0x10000, 8, 7), (0x10008, 8, 2 ^ 64 - 1), (0x20000, 8, 0x100033),
    (0x1000018, 8, 2 ^ 8)]

/-- A posted write that host port 0 received, and whose page is not resident at another home (R49, R115). -/
def postedWrite : Held where
  home := 0
  stamp := 0
  first := 0
  page := ⟨0, 0#64, 0#16⟩
  va := 0#64
  act := .store [some 0#8] none
  kind := .store
  relaxed := false
  ctx := schedCtx 0#16
  who := .host 0
  why := .miss
  time := 0
  trace := none
  fromHost := true
  unfilled := true
  hostMode := false

/-- Queue 0 is mapped into slot 0 of host port 0, which has that write still to perform. -/
def doorbellBehind : State :=
  { State.reset with
    homeMap := [(0x180, 0x8000#16)]
    homes := [(0x180, { HomeSt.zero with ctxBase := 1#64 })]
    mem := doorbellCells.foldl (fun m c => memWrite m (dramKey 0 c.1) ((bytesOfNat c.2.1 c.2.2).map some)) []
    slots := [(0, { Slot.zero with queue := some 0 })]
    held := [postedWrite]
    mod := { Module.zero with qtbase := mkVa 0x180 0 } }

/-- What a write of 1 to slot 0 would leave, were it performed. -/
def doorbellRung : State :=
  ((doorbellBehind.qput 0 96 32 1).wakeOwner 0).modQueue 0 fun x =>
    { x with headSince := if doorbellBehind.hasPackets 0 then x.headSince else doorbellBehind.ncyc }

theorem doorbellBehind_waits : exec (.widxWrite 1) doorbellBehind = .next doorbellBehind :=
  next_of_eq (if_pos (by decide +kernel))

theorem doorbellBehind_ready : doorbellBehind.recordReady 0 = true := by decide +kernel

theorem doorbellRung_mapped : doorbellRung.qfieldD 0 202 1 = 0 ∧ doorbellRung.qfieldD 0 200 1 = 1 := by decide +kernel

theorem doorbellRung_ne : doorbellBehind ≠ doorbellRung := by
  intro h
  have hqueues : doorbellBehind.queues = doorbellRung.queues := congrArg State.queues h
  exact absurd hqueues (by decide +kernel)

/-- Refutes O58: its clause on writes to a mapped slot does not ask that the port has performed what it received earlier. With a posted
write of port 0 held at a home, a write to slot 0 waits behind it (R115), and the queue's write index stays. -/
theorem not_hostEvents : ¬ Obligations.HostEvents := by
  unfold Obligations.HostEvents
  intro h
  obtain ⟨-, -, hwidx, -⟩ := h doorbellBehind 0#64 1 0
  obtain ⟨h202, h200⟩ := doorbellRung_mapped
  have hrung : exec (.widxWrite 1) doorbellBehind = .next doorbellRung := hwidx 0 rfl doorbellBehind_ready h202 h200
  exact doorbellRung_ne (Host.Outcome.next.inj (doorbellBehind_waits.symm.trans hrung))

end Sys2Proof.Machine
end

section
/-! SUPPORT. What stops, swaps, admission, re-admission and the retirement of a core come to (R27, R28, R40, R43, R52 to R58, R214, R215,
R255, R295, R304 to R307, R387, R418). -/

namespace Sys2Proof.Machine

section
variable {s t : State}

/-! ### Stops -/

/-- A hart that a stop request has reached goes on to its next hint (R306). -/
def Hart.askedToStop (s : State) (y : Hart) : Hart := { y with stopReq := true, stopAt := if y.stopReq then y.stopAt else s.acyc }

section
variable {x : Hart} {g : Group}

/-- A gend that waits with every earlier access complete is one whose wait is of kind 13, with nothing incomplete. -/
theorem State.gendDue_eq_false (h : (∀ w, x.wait = some w → w.kind ≠ 13) ∨ s.incomplete s.subj ≠ []) :
    s.gendDue s.subj x = false := by
  unfold State.gendDue
  cases hw : x.wait with
  | none => rfl
  | some w =>
    obtain hk | hi := h
    · simp [hk w hw]
    · simp [hi]

section
variable (hx : s.hart? s.subj = some x) (hg : s.groupOf? x = some g) (hs : x.status = .present) (ht : x.trails = false)
include hx hg hs ht

section
variable (ha : g.away = 1)
include ha

theorem doStopRequest_parked (hp : g.parked = true) (hm : s.mayStop s.subj x = true) :
    doStopRequest s = s.saveHart s.subj x.pc (.all x.full) := by
  simp [doStopRequest, hx, hg, hs, ht, ha, hp, hm]

section
variable (hp : g.parked = false) (hn : x.stopping = none)
include hp hn

/-- The stop of a hart at an instruction boundary or a trap applies at its SRET (R387). -/
theorem doStopRequest_boundary (hb : s.boundaryNow s.subj x = true ∨
    (x.priv = .s ∧ x.pc = x.csr.stvec ∧ ∃ t, x.lastIssue = some t ∧ t / 2 = s.acyc)) :
    doStopRequest s = s.modPair s.subj fun y => { Hart.askedToStop s y with stopSret := true } := by
  have hnow : (s.boundaryNow s.subj x || (x.priv == .s && x.pc == x.csr.stvec && x.lastIssue.any fun t => t / 2 == s.acyc)) = true := by
    obtain hb | ⟨hpriv, hpc, t, hl, hlt⟩ := hb
    · simp [hb]
    · simp [hpriv, hpc, hl, hlt]
  simp [doStopRequest, hx, hg, hs, ht, ha, hp, hn, hnow, Hart.askedToStop]

/-- A running hart in U-mode is saved where it waits under R31 and may stop, and is asked to stop otherwise (R306). -/
theorem doStopRequest_running (hb : s.boundaryNow s.subj x = false) (hu : x.priv = .u) :
    doStopRequest s =
      if s.waitsUnder31 s.subj x && !(s.gendDue s.subj x) && s.mayStop s.subj x then s.saveHart s.subj x.pc (.all x.full)
      else s.modPair s.subj fun y => Hart.askedToStop s y := by
  simp [doStopRequest, hx, hg, hs, ht, ha, hp, hn, hb, hu, Hart.askedToStop]

/-- A hart waits under R31 for its chisel instruction, its plain access or what its instruction waits for. -/
theorem doStopRequest_waits (hb : s.boundaryNow s.subj x = false) (hu : x.priv = .u)
    (hw : (s.core x.core).chiselFor s.subj = true ∨ (∃ k, x.plainOut = some k) ∨
      (∃ w, x.wait = some w ∧ w.kind ≠ 11 ∧ (w.kind = 13 → s.incomplete s.subj ≠ [])))
    (hd : (∀ w, x.wait = some w → w.kind ≠ 13) ∨ s.incomplete s.subj ≠ []) (hm : s.mayStop s.subj x = true) :
    doStopRequest s = s.saveHart s.subj x.pc (.all x.full) := by
  have hwaits : s.waitsUnder31 s.subj x = true := by
    obtain hc | ⟨k, hk⟩ | ⟨w, hw, hk, -⟩ := hw
    · simp [State.waitsUnder31, hc]
    · simp [State.waitsUnder31, hk]
    · simp [State.waitsUnder31, hw, hk]
  rw [doStopRequest_running hx hg hs ht ha hp hn hb hu, hwaits, State.gendDue_eq_false hd, hm]
  rfl

theorem doStopRequest_free (hb : s.boundaryNow s.subj x = false) (hu : x.priv = .u) (hw : x.wait = none) (hk : x.plainOut = none)
    (hc : (s.core x.core).chiselFor s.subj = false) :
    doStopRequest s = s.modPair s.subj fun y => Hart.askedToStop s y := by
  have hwaits : s.waitsUnder31 s.subj x = false := by simp [State.waitsUnder31, hw, hk, hc]
  rw [doStopRequest_running hx hg hs ht ha hp hn hb hu, hwaits]
  rfl

/-- A gend whose accesses are complete retires first (R387). -/
theorem doStopRequest_gend (hb : s.boundaryNow s.subj x = false) (hu : x.priv = .u) {w : WaitRec} (hw : x.wait = some w)
    (hk : w.kind = 13) (hi : s.incomplete s.subj = []) : doStopRequest s = s.modPair s.subj fun y => Hart.askedToStop s y := by
  have hdue : s.gendDue s.subj x = true := by simp [State.gendDue, hw, hk, hi]
  rw [doStopRequest_running hx hg hs ht ha hp hn hb hu, hdue, Bool.not_true, Bool.and_false, Bool.false_and]
  rfl

end
end
end

/-- Two changes that do the same to an entry are the same change of it. -/
theorem tmod_congr {α : Type} {l : Table α} {k : Nat} {v : α} {f f' : α → α} (h : tget l k = some v) (hf : f v = f' v) :
    tmod l k f = tmod l k f' := by
  induction l with
  | nil => rfl
  | cons p r ih =>
    obtain ⟨i, w⟩ := p
    by_cases hi : i = k
    · have hv : w = v := by simpa [tget, hi] using h
      simp [tmod, hi, hv, hf]
    · simp only [tmod, hi, if_false]
      rw [ih (by simpa [tget, hi] using h)]

/-- A hart whose stop is one in full. -/
def Hart.stopsInFull (x : Hart) : Hart := { x with stopping := some .full }

/-- A hart with nothing of its own behind, which stops in full, is saved at once where it may be. -/
theorem stopNow_full (hx : s.hart? s.subj = some x) (hs : x.status = .present) (ht : x.trails = false) :
    s.stopNow s.subj .full =
      let t := s.modHart s.subj fun _ => x.stopsInFull
      if t.mayStop s.subj x.stopsInFull then t.saveHart s.subj x.pc (.all x.full) else t := by
  have hmod : (s.modHart s.subj fun y => { y with stopping := some .full }) = s.modHart s.subj fun _ => x.stopsInFull :=
    congrArg (fun l => { s with harts := l })
      (tmod_congr (f := fun y => { y with stopping := some .full }) (f' := fun _ => x.stopsInFull) hx rfl)
  have hget : (s.modHart s.subj fun _ => x.stopsInFull).hart? s.subj = some x.stopsInFull := by
    unfold State.hart? at hx ⊢
    simp [State.modHart, hx]
  rw [State.stopNow, hmod, State.tryStop, hget]
  generalize s.modHart s.subj (fun _ => x.stopsInFull) = t
  have hskip : (x.stopsInFull.trails || x.stopsInFull.status != .present) = false := by simp [Hart.stopsInFull, hs, ht]
  cases hm : t.mayStop s.subj x.stopsInFull with
  | true => simp only [hskip, hm, Bool.not_true, Bool.or_false, Bool.false_eq_true, if_false, if_true]; rfl
  | false => simp only [hm, Bool.not_false, Bool.or_true, if_true, Bool.false_eq_true, if_false]

/-- HINTDIST instructions without a phint stop the hart in full (R54, R307). -/
theorem doHintdist_eq (hx : s.hart? s.subj = some x) (hs : x.status = .present) (ht : x.trails = false) (hn : x.stopping = none)
    (hr : x.stopReq = true) (hd : (s.hdrOf x).hintdist ≤ x.sinceHint) (hl : x.log = []) (hp : x.plainOut = none)
    (hg : (∀ w, x.wait = some w → w.kind ≠ 13) ∨ s.incomplete s.subj ≠ []) : doHintdist s = s.stopNow s.subj .full := by
  simp [doHintdist, hx, hs, ht, hn, hr, hd, hl, hp, State.gendDue_eq_false hg]

end

/-! ### A parked group's limit -/

section
variable {g : Group} {b : Block} {gr : Grid} (hg : tget s.groups s.subj = some g) (hb : tget s.blocks g.block = some b)
  (hgr : tget s.grids b.grid = some gr) (hp : g.parked = true) (he : g.expired = false) (ha : g.away = 0) (hs : b.status = .placed)
  (hc : s.coreServes b.cluster = true) (hl : gr.launch.parklim ≠ 0xFFFFFFFF)
  (hn : g.parkedSince + (if gr.launch.parklim = 0 then 1 else gr.launch.parklim) * usN ≤ s.ncyc)
include hg hb hgr hp he ha hs hc hl hn

/-- The limit of a parked group is over (R27, R28, R54; log 72). -/
theorem doParklim_eq :
    doParklim s =
      let t := s.modGroup s.subj fun y => { y with expired := true }
      if s.duty 1 then
        (t.post 2 b.cluster (bytesOfNat 32 (2 ^ 4 * g.index + 2 ^ 11 * b.index + 2 ^ 35 * (gr.serial % 2 ^ 29)))).modMod fun m =>
          { m with reports := m.reports ++ [(g.block, s.subj, b.cluster)] }
      else t.modBlock g.block fun y => { y with swapCmd := true, since := if y.swapCmd then y.since else s.ncyc } := by
  have hplace : (tget s.blocks g.block).bind (fun b => (tget s.grids b.grid).map fun gr => (b, gr)) = some (b, gr) := by
    simp [hb, hgr]
  have hover : decide (s.ncyc < g.parkedSince + (if gr.launch.parklim = 0 then 1 else gr.launch.parklim) * usN) = false :=
    decide_eq_false (Nat.not_lt.mpr hn)
  simp only [doParklim, hg, hplace]
  rw [if_neg (by rw [hover]; simp [hp, he, ha, hs, hc, hl])]

end

/-! ### Swaps -/

section
variable {b : Block} {gr : Grid} (hb : tget s.blocks s.subj = some b) (hgr : tget s.grids b.grid = some gr)
include hb hgr

theorem doSwap_placed (hs : b.status = .placed) (hw : b.swapCmd = true) (hn : b.since ≠ s.ncyc) (hc : s.coreServes b.cluster = true) :
    doSwap s = s.beginSwap s.subj := by
  simp [doSwap, hb, hgr, hs, hw, hn, hc]

section
variable (hs : b.status = .stopping) (hall : s.allSaved (s.blockGroups b) = true) (hc : s.coreServes b.cluster = true)
include hs hall hc

/-- The leases of a block whose harts are saved follow once its accepted commands are done (R54, R214). -/
theorem doSwap_leases (ha : s.allAway (s.blockGroups b) 1 = true) (ht : s.tilesDone (s.blockGroups b) = true) :
    doSwap s = match s.blocked gr.asid (s.slotParts gr b (s.blockGroups b)) with
      | some (none, va) => s.unitMiss (schedCtx gr.asid) .store va
      | some (some (cause, sub), va) => s.swapBack s.subj cause sub va
      | none => (((s.blockGroups b).foldl (fun (t : State) gi => t.saveLease gr b gi) s).drainGroups b.groups).toFrames gr b
          (s.blockGroups b) := by
  simp only [doSwap, hb, hgr, hs, hall, hc, ha, ht, Bool.not_true, Bool.false_eq_true, if_false, if_true,
    show (BlockStatus.stopping == .placed) = false from rfl, show (BlockStatus.stopping != .stopping) = false from rfl] <;> rfl

/-- A block leaves its cores once its granules are in their frames and its entries are settled (R54, R98). -/
theorem doSwap_leaves (ha : s.allAway (s.blockGroups b) 1 = false)
    (hf : ∀ q ∈ s.granulesOf (s.blockGroups b), (s.gran q.1 q.2.1).inFrame = true) (he : s.entriesCalm b.groups = true) :
    ∃ c, doSwap s = (s.leaveCores s.subj b).modBlock s.subj fun y =>
      { y with status := .absent, since := s.ncyc, stopC := c,
               movedWins := (s.winsOf (s.blockGroups b)).filter (s.ownsWindow (s.blockGroups b)) } := by
  have hgone : ((s.granulesOf (s.blockGroups b)).all fun q => (s.gran q.1 q.2.1).inFrame) = true := List.all_eq_true.mpr hf
  simp only [doSwap, hb, hgr, hs, hall, hc, ha, hgone, he, Bool.not_true, Bool.false_eq_true, if_false, if_true, Bool.and_self,
    show (BlockStatus.stopping == .placed) = false from rfl, show (BlockStatus.stopping != .stopping) = false from rfl]
  exact ⟨_, rfl⟩

end

/-! ### Admission and re-admission -/

/-- A new block goes to the first cluster that can place it whole (R40, R295). -/
theorem doBlockAdmit_first (hs : b.status = .ready) (hcut : s.inCut b.grid = false) (hd : s.stageDue gr = true)
    (hf : s.isFirst s.subj b = true) (hc : s.coreServes gr.owner = true)
    (hrun : s.qtValid = true → s.unitKey (schedCtx 0#16) .load (s.runtimeVa gr.asid) 16 ≠ .error none)
    {cl : Nat} {r : List Nat} (ho : s.offersFor gr b = cl :: r)
    (hp : s.placeFrom cl s.subj gr (s.stageHolds gr) gr.launch.gpb 0 = some t) :
    doBlockAdmit s =
      ((t.modBlock s.subj fun y => { y with status := .placed, home := cl, cluster := cl }).stagePlaced s gr).noteSpares := by
  have haway : (s.qtValid && (match s.unitKey (schedCtx 0#16) .load (s.runtimeVa gr.asid) 16 with
      | .error none => true
      | _ => false)) = false := by
    cases hq : s.qtValid with
    | false => rfl
    | true =>
      rw [Bool.true_and]
      split
      · next h => exact absurd h (hrun hq)
      · rfl
  simp only [doBlockAdmit, hb, hgr]
  rw [if_neg (by simp [hs, hcut, hd, hf, hc])]
  refine (if_neg (Bool.eq_false_iff.mp haway)).trans ?_
  rw [ho, List.findSome?_cons, hp]
  rfl

/-- An absent block whose pages are resident returns to its own cluster where that has room (R58). -/
theorem doReadmission_home (hs : b.status ≠ .returning) (hr : s.canReturn s.subj b = true) (hf : s.isFirst s.subj b = true)
    (hc : s.coreServes gr.owner = true)
    (hp : s.seatWindows b.home (s.blockGroups b) gr.launch.redun (s.winsOf (s.blockGroups b)) = some t) :
    doReadmission s = (((t.moveWaiters b.cluster b.home (s.blockGroups b)).modBlock s.subj fun y =>
      { y with status := .returning, cluster := b.home }).toCores (s.blockGroups b)).noteSpares := by
  simp [doReadmission, hb, hgr, hs, hr, hf, hc, hp]

theorem doReadmission_returning (hs : b.status = .returning) :
    doReadmission s =
      let t := (s.toCores (s.blockGroups b)).comeBack s.subj (s.blockGroups b)
      if t.allAway (s.blockGroups b) 0 then t.modBlock s.subj fun y => { y with status := .placed } else t := by
  simp [doReadmission, hb, hgr, hs]

end

/-! ### Pre-emption -/

/-- A waiting block with an earlier deadline stops the one running block of its field (R304). -/
theorem doPreempt_stops {bi wi : Nat} {b wb : Block}
    (hrun : (s.blocks.filter fun p => p.2.cluster / 24 == s.subj && p.2.status == .placed && !p.2.swapCmd) = [(bi, b)])
    (hw : ∃ i, i < 24 ∧ (wi, wb) ∈ s.waitingBlocks (24 * s.subj + i)) (hsince : s.readySince wb + 4096 ≤ s.ncyc)
    (hlo : 0x100 ≤ (s.blockTag b + 65536 - s.blockTag wb) % 65536) (hhi : (s.blockTag b + 65536 - s.blockTag wb) % 65536 ≤ 0x7FFF) :
    doPreempt s = s.beginSwap bi := by
  obtain ⟨i, hi, hin⟩ := hw
  have hlist : s.waitingBlocks (24 * s.subj + i) ∈ (List.range 24).map fun i => s.waitingBlocks (24 * s.subj + i) :=
    List.mem_map.mpr ⟨i, List.mem_range.mpr hi, rfl⟩
  simp only [doPreempt, hrun, List.foldl_cons, List.foldl_nil]
  refine if_pos (List.any_eq_true.mpr ⟨_, hlist, List.any_eq_true.mpr ⟨_, hin, ?_⟩⟩)
  simp only [hsince, hlo, hhi, decide_true, Bool.and_self]

/-! ### Retirement of a core -/

/-- A core that leaves service, before its groups are stopped (R405, R418). -/
def State.leftService (s : State) (core : Nat) : State :=
  (s.retireMark core).modCluster (core / 100) fun k => { k with ueTimes := k.ueTimes.filter fun u => u.2 != core % 100 }

section
variable (hr : (s.core s.subj).retired = false)
include hr

theorem doCoreRetire_begins :
    doCoreRetire s = (((s.leftService s.subj).coreGroups s.subj).filter (s.leftService s.subj).inPlace).foldl (fun (t : State) gi =>
      match tget t.groups gi with
        | some g => if g.away = 0 then t.stopGroup gi else t
        | none => t) (s.leftService s.subj) := by
  simp only [doCoreRetire, hr, Bool.not_false, if_true, State.beginRetire, Bool.false_eq_true, if_false]
  rfl

theorem doCoreRetire_empty (h : ((s.leftService s.subj).coreGroups s.subj).filter (s.leftService s.subj).inPlace = []) :
    doCoreRetire s = s.leftService s.subj := by
  rw [doCoreRetire_begins hr, h, List.foldl_nil]

theorem doCoreRetire_one {gi : Nat} {q : Group}
    (h : ((s.leftService s.subj).coreGroups s.subj).filter (s.leftService s.subj).inPlace = [gi])
    (hq : tget (s.leftService s.subj).groups gi = some q) (ha : q.away = 0) :
    doCoreRetire s = (s.leftService s.subj).stopGroup gi := by
  rw [doCoreRetire_begins hr, h, List.foldl_cons, List.foldl_nil, hq]
  exact if_pos ha

end

/-! ### The spill ring -/

/-- Two changes that do the same to the one command under way are the same change of it. -/
theorem modCmd_congr {e : Nat} {c : CopyCmd} {f f' : CopyCmd → CopyCmd} (he : s.engines = [(e, [c])]) (hf : f c = f' c) :
    s.modCmd e c.id f = s.modCmd e c.id f' := by
  simp [State.modCmd, State.modEngine, State.engine, he, tgetD, tget, hf]

/-- An engine's line for a ring of a stopping group enters the spill ring of the core that holds the granule (R215). -/
theorem doSpill_line {e : Nat} {c : CopyCmd} {va : Word} {n : List (Option Byte)} {tag : Option (BitVec 16)} {rtag : BitVec 16}
    {r : List Want} {read : List Byte} {poison first : Bool} (he : s.engines = [(e, [c])]) (hroom : (s.core s.subj).spill.length < 16)
    (hst : c.started = true) (hh : c.heldAt = none) (hf : c.fail = none) (hbuf : c.buf = some (read, rtag, poison))
    (hp : c.pieces = ⟨va, .store n tag, .store, first⟩ :: r) (hl : s.spillLine va = some s.subj)
    (hfull : s.spillFull s.subj (spillWhy va) = false) :
    doSpill (lineEntry va n tag poison) s =
      (s.modCore s.subj fun k => { k with spill := k.spill ++ [lineEntry va n tag poison] }).modCmd e c.id fun _ =>
        if r = [] then { c with part := c.part + n.length }.step else { c with part := c.part + n.length } := by
  have hturn : s.spillTurn s.subj (lineEntry va n tag poison) e c = true := by
    simp only [State.spillTurn, hst, hh, hf, hbuf, hp, lineEntry, hl, hfull, Option.isNone_none, beq_self_eq_true, Bool.not_false,
      Bool.and_self]
  have hspilled : c.spilled (lineEntry va n tag poison) =
      if r = [] then { c with part := c.part + n.length }.step else { c with part := c.part + n.length } := by
    cases r with
    | nil => simp only [CopyCmd.spilled, lineEntry, hp, Piece.width, if_true]
    | cons w r => simp only [CopyCmd.spilled, lineEntry, hp, Piece.width, List.cons_ne_nil, if_false]
  have hfind : (s.engines.findSome? fun p => (p.2.find? fun c => s.spillTurn s.subj (lineEntry va n tag poison) p.1 c).map
      fun c => (p.1, c)) = some (e, c) := by
    simp [he, hturn]
  simp only [doSpill, Nat.not_le.mpr hroom, if_false, hfind]
  rw [← hspilled]
  exact modCmd_congr he rfl

end

/-! ### The clauses together -/

/-- Settles O54: what the events of stops, swaps, admission, pre-emption and the retirement of a core come to. -/
theorem stopEvents : Obligations.StopEvents := by
  unfold Obligations.StopEvents
  intro s x g b gr
  refine ⟨?stop, ?parklim, ?block, ?preempt, ?retire, ?spill⟩
  case stop =>
    intro hx hg hs ht hn
    refine ⟨fun ha => ⟨?_, fun hp => ⟨?_, fun hb hu => ⟨?_, ?_, ?_⟩⟩⟩, ?_⟩
    · exact fun hp hm => next_of_eq (doStopRequest_parked hx hg hs ht ha hp hm)
    · exact fun hb => next_of_eq (doStopRequest_boundary hx hg hs ht ha hp hn hb)
    · exact fun hw hd hm => next_of_eq (doStopRequest_waits hx hg hs ht ha hp hn hb hu hw hd hm)
    · exact fun hw hk hc => next_of_eq (doStopRequest_free hx hg hs ht ha hp hn hb hu hw hk hc)
    · exact fun w hw hk hi => next_of_eq (doStopRequest_gend hx hg hs ht ha hp hn hb hu hw hk hi)
    · intro hr hd hl hp hgend
      have hdo := (doHintdist_eq hx hs ht hn hr hd hl hp hgend).trans (stopNow_full hx hs ht)
      exact ⟨fun hm => next_of_eq (hdo.trans (if_pos hm)),
        fun hm => next_of_eq (hdo.trans (if_neg (Bool.eq_false_iff.mp hm)))⟩
  case parklim =>
    intro hg hb hgr hp he ha hs hc hl hn
    have hdo := doParklim_eq hg hb hgr hp he ha hs hc hl hn
    exact ⟨fun hd => next_of_eq (hdo.trans (if_neg (Bool.eq_false_iff.mp hd))), fun hd => next_of_eq (hdo.trans (if_pos hd))⟩
  case block =>
    intro hb hgr
    refine ⟨?_, fun hs hall hc => ⟨fun ha ht => ?_, fun ha hf he => ?_⟩, ?_, ?_, fun hs => ?_⟩
    · exact fun hs hw hn hc => next_of_eq (doSwap_placed hb hgr hs hw hn hc)
    · have hdo := doSwap_leases hb hgr hs hall hc ha ht
      refine ⟨fun h => ?_, fun va h => ?_, fun cause sub va h => ?_⟩ <;> rw [h] at hdo <;> exact next_of_eq hdo
    · obtain ⟨c, hdo⟩ := doSwap_leaves hb hgr hs hall hc ha hf he
      exact ⟨_, c, next_of_eq hdo, rfl⟩
    · exact fun hs hcut hd hf hc hrun cl r t ho hp => next_of_eq (doBlockAdmit_first hb hgr hs hcut hd hf hc hrun ho hp)
    · exact fun hs hr hf hc t hp => next_of_eq (doReadmission_home hb hgr hs hr hf hc hp)
    · have hdo := doReadmission_returning hb hgr hs
      exact ⟨fun h => next_of_eq (hdo.trans (if_pos h)), fun h => next_of_eq (hdo.trans (if_neg (Bool.eq_false_iff.mp h)))⟩
  case preempt => exact fun bi wi wb hrun hw hsince hlo hhi => next_of_eq (doPreempt_stops hrun hw hsince hlo hhi)
  case retire =>
    exact fun hr => ⟨fun h => next_of_eq (doCoreRetire_empty hr h), fun gi q h hq ha => next_of_eq (doCoreRetire_one hr h hq ha)⟩
  case spill =>
    exact fun e c va n r read tag rtag poison first he hroom hst hh hf hbuf hp hl hfull =>
      next_of_eq (doSpill_line he hroom hst hh hf hbuf hp hl hfull)

end Sys2Proof.Machine
end

section
/-! SUPPORT. Every step keeps the memory's canonical form: from the meaning of each instruction and each event to the turn that the
schedule names. -/

namespace Sys2Proof.Machine

/-- Every instruction and every event keeps the memory's canonical form: one lemma of Laws/Keep for each row of the opcode table. -/
theorem exec_safe (i : Instr) {s : State} (h : s.Inv) : Safe (exec i s) := by
  cases i with
  | vadd => exact execVadd_inv _ _ _ _ _ _ h
  | vsub => exact execVsub_inv _ _ _ _ _ _ h
  | vmul => exact execVmul_inv _ _ _ _ _ _ h
  | vmadd => exact execVmadd_inv _ _ _ _ _ _ h
  | vmsub => exact execVmsub_inv _ _ _ _ _ _ h
  | vmin => exact execVmin_inv _ _ _ _ _ _ h
  | vmax => exact execVmax_inv _ _ _ _ _ _ h
  | vabs => exact execVabs_inv _ _ _ _ _ h
  | vneg => exact execVneg_inv _ _ _ _ _ h
  | vand => exact execVand_inv _ _ _ _ _ h
  | vor => exact execVor_inv _ _ _ _ _ h
  | vxor => exact execVxor_inv _ _ _ _ _ h
  | vnot => exact execVnot_inv _ _ _ _ h
  | vsll => exact execVsll_inv _ _ _ _ _ h
  | vsrl => exact execVsrl_inv _ _ _ _ _ h
  | vsra => exact execVsra_inv _ _ _ _ _ h
  | vcmpeq => exact execVcmpeq_inv _ _ _ _ _ _ h
  | vcmplt => exact execVcmplt_inv _ _ _ _ _ _ h
  | vcmple => exact execVcmple_inv _ _ _ _ _ _ h
  | vsel => exact execVsel_inv _ _ _ _ _ h
  | vrcp => exact execVrcp_inv _ _ _ _ h
  | vrsq => exact execVrsq_inv _ _ _ _ h
  | vexp2 => exact execVexp2_inv _ _ _ _ h
  | vlog2 => exact execVlog2_inv _ _ _ _ h
  | vcvtToLaneType => exact execVcvtToLaneType_inv _ _ _ _ _ _ h
  | vcvtToNarrow => exact execVcvtToNarrow_inv _ _ _ _ _ _ h
  | vcvtToNarrowSat => exact execVcvtToNarrowSat_inv _ _ _ _ _ _ h
  | vquant => exact execVquant_inv _ _ _ _ _ _ h
  | vdequant => exact execVdequant_inv _ _ _ _ h
  | vamax => exact execVamax_inv _ _ _ _ h
  | vredsum => exact execVredsum_inv _ _ _ _ _ h
  | vredmax => exact execVredmax_inv _ _ _ _ _ h
  | vredmin => exact execVredmin_inv _ _ _ _ _ h
  | vbcast => exact execVbcast_inv _ _ _ _ h
  | vextr => exact execVextr_inv _ _ _ _ _ h
  | vins => exact execVins_inv _ _ _ _ _ h
  | vperm => exact execVperm_inv _ _ _ _ _ h
  | vslide => exact execVslide_inv _ _ _ _ _ h
  | vzip => exact execVzip_inv _ _ _ _ _ h
  | vunzip => exact execVunzip_inv _ _ _ _ _ h
  | vmov => exact execVmov_inv _ _ _ _ h
  | lrx => exact execLrx_inv _ _ _ _ _ h
  | srx => exact execSrx_inv _ _ _ _ _ h
  | vld => exact execVld_inv _ _ _ _ _ h
  | vst => exact execVst_inv _ _ _ _ _ h
  | vlds => exact execVlds_inv _ _ _ _ _ h
  | vsts => exact execVsts_inv _ _ _ _ _ h
  | vldx => exact execVldx_inv _ _ _ _ _ h
  | vstx => exact execVstx_inv _ _ _ _ _ h
  | vldl => exact execVldl_inv _ _ _ _ _ h
  | ldbit => exact execLdbit_inv _ _ _ _ _ h
  | stbit => exact execStbit_inv _ _ _ _ _ h
  | vldbit => exact execVldbit_inv _ _ _ _ _ h
  | vstbit => exact execVstbit_inv _ _ _ _ _ h
  | ldtag => exact execLdtag_inv _ _ _ _ h
  | sttag => exact execSttag_inv _ _ _ _ h
  | fenceS => exact execFenceS_inv _ _ h
  | ldAqB => exact execLdAqB_inv _ _ _ _ h
  | ldAqH => exact execLdAqH_inv _ _ _ _ h
  | ldAqW => exact execLdAqW_inv _ _ _ _ h
  | ldAqD => exact execLdAqD_inv _ _ _ _ h
  | stRlB => exact execStRlB_inv _ _ _ _ h
  | stRlH => exact execStRlH_inv _ _ _ _ h
  | stRlW => exact execStRlW_inv _ _ _ _ h
  | stRlD => exact execStRlD_inv _ _ _ _ h
  | baddW => exact execBaddW_inv _ _ _ _ _ h
  | baddD => exact execBaddD_inv _ _ _ _ _ h
  | bfadd => exact execBfadd_inv _ _ _ _ _ h
  | bminW => exact execBminW_inv _ _ _ _ _ h
  | bminD => exact execBminD_inv _ _ _ _ _ h
  | bminWu => exact execBminWu_inv _ _ _ _ _ h
  | bminDu => exact execBminDu_inv _ _ _ _ _ h
  | bmaxW => exact execBmaxW_inv _ _ _ _ _ h
  | bmaxD => exact execBmaxD_inv _ _ _ _ _ h
  | bmaxWu => exact execBmaxWu_inv _ _ _ _ _ h
  | bmaxDu => exact execBmaxDu_inv _ _ _ _ _ h
  | bfmin => exact execBfmin_inv _ _ _ _ _ h
  | bfmax => exact execBfmax_inv _ _ _ _ _ h
  | bxchgW => exact execBxchgW_inv _ _ _ _ _ h
  | bxchgD => exact execBxchgD_inv _ _ _ _ _ h
  | bcasW => exact execBcasW_inv _ _ _ _ _ h
  | bcasD => exact execBcasD_inv _ _ _ _ _ h
  | bvredAddI32 => exact execBvredAddI32_inv _ _ _ _ _ h
  | bvredAddF32 => exact execBvredAddF32_inv _ _ _ _ _ h
  | bvredMinI32 => exact execBvredMinI32_inv _ _ _ _ _ h
  | bvredMinF32 => exact execBvredMinF32_inv _ _ _ _ _ h
  | bvredMaxI32 => exact execBvredMaxI32_inv _ _ _ _ _ h
  | bvredMaxF32 => exact execBvredMaxF32_inv _ _ _ _ _ h
  | bqenq => exact execBqenq_inv _ _ _ _ _ h
  | bqdeq => exact execBqdeq_inv _ _ _ _ h
  | bqlen => exact execBqlen_inv _ _ _ _ h
  | bar => exact execBar_inv _ _ _ _ h
  | barrive => exact execBarrive_inv _ _ _ _ h
  | bwait => exact execBwait_inv _ _ _ h
  | barcSumI32 => exact execBarcSumI32_inv _ _ _ _ _ h
  | barcSumF32 => exact execBarcSumF32_inv _ _ _ _ _ h
  | barcMinI32 => exact execBarcMinI32_inv _ _ _ _ _ h
  | barcMinF32 => exact execBarcMinF32_inv _ _ _ _ _ h
  | barcMaxI32 => exact execBarcMaxI32_inv _ _ _ _ _ h
  | barcMaxF32 => exact execBarcMaxF32_inv _ _ _ _ _ h
  | barmax => exact execBarmax_inv _ _ _ _ _ h
  | fwait => exact execFwait_inv _ _ h
  | ftest => exact execFtest_inv _ _ _ h
  | fcancel => exact execFcancel_inv _ _ h
  | fpass => exact execFpass_inv _ _ _ h
  | fwaitall => exact execFwaitall_inv _ _ h
  | send => exact execSend_inv _ _ _ _ _ h
  | sendp => exact execSendp_inv _ _ _ _ _ h
  | recv => exact execRecv_inv _ _ _ h
  | recvt => exact execRecvt_inv _ _ _ _ h
  | mbcfg => exact execMbcfg_inv _ _ _ h
  | mbpeek => exact execMbpeek_inv _ _ _ h
  | gbCfg => exact execGbCfg_inv _ _ _ h
  | gbLdf => exact execGbLdf_inv _ _ h
  | gbAddm => exact execGbAddm_inv _ _ _ h
  | gbSubm => exact execGbSubm_inv _ _ _ h
  | gbElim => exact execGbElim_inv _ _ h
  | gbEmit => exact execGbEmit_inv _ _ _ _ h
  | gbBel => exact execGbBel_inv _ _ h
  | gbMean => exact execGbMean_inv _ _ h
  | gbRes => exact execGbRes_inv _ _ h
  | gbLdw => exact execGbLdw_inv _ _ h
  | gbStw => exact execGbStw_inv _ _ h
  | pwset => exact execPwset_inv _ _ h
  | pwclr => exact execPwclr_inv _ _ h
  | pwand => exact execPwand_inv _ _ _ _ h
  | pwor => exact execPwor_inv _ _ _ _ h
  | pwnot => exact execPwnot_inv _ _ _ h
  | pwpop => exact execPwpop_inv _ _ _ h
  | migrate => exact execMigrate_inv _ _ h
  | tlease => exact execTlease_inv _ _ h
  | tcfg => exact execTcfg_inv _ _ _ _ _ _ h
  | tring => exact execTring_inv _ _ _ _ h
  | radv => exact execRadv_inv _ _ _ h
  | tzero => exact execTzero_inv _ _ h
  | tmma => exact execTmma_inv _ _ _ _ _ _ h
  | tmmat => exact execTmmat_inv _ _ _ _ _ _ h
  | tldc => exact execTldc_inv _ _ _ _ h
  | tstc => exact execTstc_inv _ _ _ _ _ _ _ _ h
  | tstat => exact execTstat_inv _ _ h
  | tsave => exact execTsave_inv _ _ _ _ h
  | tload => exact execTload_inv _ _ _ _ h
  | cpy => exact execCpy_inv _ _ _ h
  | cpyd => exact execCpyd_inv _ _ _ _ _ h
  | cpyk => exact execCpyk_inv _ _ _ _ h
  | pref => exact execPref_inv _ _ _ _ h
  | launch => exact execLaunch_inv _ _ _ _ h
  | phint => exact execPhint_inv _ _ _ _ h
  | baseLoad => exact execBaseLoad_inv _ _ _ _ _ h
  | baseStore => exact execBaseStore_inv _ _ _ _ _ h
  | amo => exact execAmo_inv _ _ _ _ _ _ _ _ h
  | lr => exact execLr_inv _ _ _ _ _ _ h
  | sc => exact execSc_inv _ _ _ _ _ _ _ h
  | fence => exact execFence_inv _ _ _ _ _ _ h
  | fenceTso => exact execFenceTso_inv _ _ _ h
  | fenceI => exact execFenceI_inv _ _ _ _ h
  | sfenceVma => exact execSfenceVma_inv _ _ _ h
  | csrAccess => exact execCsrAccess_inv _ _ _ _ _ h
  | dxtstatAccess => exact execDxtstatAccess_inv _ _ _ _ h
  | relaxedLoadReturn => exact execRelaxedLoadReturn_inv _ _ h
  | entryDrain => exact execEntryDrain_inv _ _ h
  | drainTimeout => exact execDrainTimeout_inv _ _ h
  | postBufferFree => exact execPostBufferFree_inv _ _ h
  | queueDescriptorWrite => exact execQueueDescriptorWrite_inv _ _ _ _ h
  | granuleRebind => exact execGranuleRebind_inv _ _ _ h
  | localRangeWithdrawAck => exact execLocalRangeWithdrawAck_inv _ _ h
  | rebindAckTimeout => exact execRebindAckTimeout_inv _ _ h
  | spillRingAppend => exact execSpillRingAppend_inv _ _ h
  | engineElementTransfer => exact execEngineElementTransfer_inv _ _ h
  | engineCommandComplete => exact execEngineCommandComplete_inv _ _ h
  | waitingSendEnter => exact execWaitingSendEnter_inv _ _ h
  | kern => exact execKern_inv _ _ h
  | pipe => exact execPipe_inv _ _ h
  | copyNode => exact execCopyNode_inv _ _ h
  | cond => exact execCond_inv _ _ h
  | signalNode => exact execSignalNode_inv _ _ h
  | hring => exact execHring_inv _ _ h
  | wait => exact execWait_inv _ _ h
  | join => exact execJoin_inv _ _ h
  | nodeFinish => exact execNodeFinish_inv _ _ h
  | mapQueue => exact execMapQueue_inv _ _ h
  | htlbinv => exact execHtlbinv_inv _ _ h
  | hmissdone => exact execHmissdone_inv _ _ h
  | qctlSkip => exact execQctlSkip_inv _ _ h
  | qctlRecheck => exact execQctlRecheck_inv _ _ h
  | mdutyWrite => exact execMdutyWrite_inv _ _ h
  | qtbaseWrite => exact execQtbaseWrite_inv _ _ h
  | nstdataWrite => exact execNstdataWrite_inv _ _ h
  | widxWrite => exact execWidxWrite_inv _ _ h
  | hscmdSwap => exact execHscmdSwap_inv _ _ h
  | hscmdLeave => exact execHscmdLeave_inv _ _ h
  | pgreqToHost => exact execPgreqToHost_inv _ _ h
  | pgreqToDevice => exact execPgreqToDevice_inv _ _ h
  | rxretWrite => exact execRxretWrite_inv _ _ h
  | reservationTableWrite => exact execReservationTableWrite_inv _ _ h
  | registerWrite => exact execRegisterWrite_inv _ _ _ h
  | apertureVirtual => exact execApertureVirtual_inv _ _ _ _ _ h
  | aperturePhysical => exact execAperturePhysical_inv _ _ _ _ _ h
  | apertureControl => exact execApertureControl_inv _ _ _ _ _ h
  | ethTransmit => exact execEthTransmit_inv _ _ h
  | ethReceive => exact execEthReceive_inv _ _ h
  | scrubPatrol => exact execScrubPatrol_inv _ _ h
  | poisonConsume => exact execPoisonConsume_inv _ _ h
  | deathNotice => exact execDeathNotice_inv _ _ h
  | powerThrottle => exact execPowerThrottle_inv _ _ h
  | waveArrival => exact execWaveArrival_inv _ _ _ h
  | siteLoaded => exact execSiteLoaded_inv _ _ h
  | bringupTimeout => exact execBringupTimeout_inv _ _ h
  | recoveryGo => exact execRecoveryGo_inv _ _ h
  | illegalInstruction => exact execIllegalInstruction_inv _ _ h
  | instructionAccessFault => exact execInstructionAccessFault_inv _ _ _ _ h
  | baseArithmetic => exact execBaseArithmetic_inv _ _ h
  | tokenBucketRefill => exact execTokenBucketRefill_inv _ _ h
  | gbClr => exact execGbClr_inv _ h
  | gend => exact execGend_inv _ h
  | yield => exact execYield_inv _ h
  | trelease => exact execTrelease_inv _ h
  | wfi => exact execWfi_inv _ h
  | ecall => exact execEcall_inv _ h
  | sret => exact execSret_inv _ h
  | boundaryDelivery => exact execBoundaryDelivery_inv _ h
  | futureCompletion => exact execFutureCompletion_inv _ h
  | futureFailure => exact execFutureFailure_inv _ h
  | plainAcknowledgement => exact execPlainAcknowledgement_inv _ h
  | homeRequest => exact execHomeRequest_inv _ h
  | tracedStoreResume => exact execTracedStoreResume_inv _ h
  | missRecordAtCore => exact execMissRecordAtCore_inv _ h
  | missService => exact execMissService_inv _ h
  | missListReplay => exact execMissListReplay_inv _ h
  | bankOperation => exact execBankOperation_inv _ h
  | queueEnqueue => exact execQueueEnqueue_inv _ h
  | queueDequeue => exact execQueueDequeue_inv _ h
  | queueLength => exact execQueueLength_inv _ h
  | barrierArrival => exact execBarrierArrival_inv _ h
  | gridArrival => exact execGridArrival_inv _ h
  | bwaitTest => exact execBwaitTest_inv _ h
  | deadlineLoan => exact execDeadlineLoan_inv _ h
  | migrationStart => exact execMigrationStart_inv _ h
  | migrationSlotRequest => exact execMigrationSlotRequest_inv _ h
  | migrationSlotReply => exact execMigrationSlotReply_inv _ h
  | migrationContextArrival => exact execMigrationContextArrival_inv _ h
  | loadBalance => exact execLoadBalance_inv _ h
  | dxloadRefresh => exact execDxloadRefresh_inv _ h
  | parklimExpiry => exact execParklimExpiry_inv _ h
  | swap => exact execSwap_inv _ h
  | hintdistExpiry => exact execHintdistExpiry_inv _ h
  | stopRequest => exact execStopRequest_inv _ h
  | blockReadmission => exact execBlockReadmission_inv _ h
  | preemptPolicy => exact execPreemptPolicy_inv _ h
  | blockAdmit => exact execBlockAdmit_inv _ h
  | leaseTimeExpiry => exact execLeaseTimeExpiry_inv _ h
  | leaseHandover => exact execLeaseHandover_inv _ h
  | tileCommandAccept => exact execTileCommandAccept_inv _ h
  | tileCommandRetire => exact execTileCommandRetire_inv _ h
  | tringEffect => exact execTringEffect_inv _ h
  | engineCommandStart => exact execEngineCommandStart_inv _ h
  | kickArrival => exact execKickArrival_inv _ h
  | noticeAccept => exact execNoticeAccept_inv _ h
  | mailboxDelivery => exact execMailboxDelivery_inv _ h
  | recvtTimeout => exact execRecvtTimeout_inv _ h
  | yieldTimeout => exact execYieldTimeout_inv _ h
  | deviceLaunchEnqueue => exact execDeviceLaunchEnqueue_inv _ h
  | nop => exact execNop_inv _ h
  | launchg => exact execLaunchg_inv _ h
  | launchp => exact execLaunchp_inv _ h
  | graph => exact execGraph_inv _ h
  | copy => exact execCopy_inv _ h
  | signalWrite => exact execSignalWrite_inv _ h
  | signalAdd => exact execSignalAdd_inv _ h
  | signalMax => exact execSignalMax_inv _ h
  | waitsig => exact execWaitsig_inv _ h
  | write => exact execWrite_inv _ h
  | ib => exact execIb_inv _ h
  | packetComplete => exact execPacketComplete_inv _ h
  | watchedLineNotice => exact execWatchedLineNotice_inv _ h
  | hringCoalesceTimer => exact execHringCoalesceTimer_inv _ h
  | doorbellInterrupt => exact execDoorbellInterrupt_inv _ h
  | unmapQueue => exact execUnmapQueue_inv _ h
  | consistentCut => exact execConsistentCut_inv _ h
  | pageMigration => exact execPageMigration_inv _ h
  | hsPost => exact execHsPost_inv _ h
  | hsInterrupt => exact execHsInterrupt_inv _ h
  | fenceWrite => exact execFenceWrite_inv _ h
  | ctxdown => exact execCtxdown_inv _ h
  | attctlGo => exact execAttctlGo_inv _ h
  | attestationDone => exact execAttestationDone_inv _ h
  | reservationTableCopy => exact execReservationTableCopy_inv _ h
  | errorInterrupt => exact execErrorInterrupt_inv _ h
  | registerScrubDone => exact execRegisterScrubDone_inv _ h
  | linkCrcError => exact execLinkCrcError_inv _ h
  | linkDead => exact execLinkDead_inv _ h
  | nstReroute => exact execNstReroute_inv _ h
  | requestLossTimeout => exact execRequestLossTimeout_inv _ h
  | comparatorMatch => exact execComparatorMatch_inv _ h
  | trailingTimeout => exact execTrailingTimeout_inv _ h
  | coreRetire => exact execCoreRetire_inv _ h
  | deadlineMissDetect => exact execDeadlineMissDetect_inv _ h
  | waitEntryValid => exact execWaitEntryValid_inv _ h
  | hangTest => exact execHangTest_inv _ h
  | heartbeat => exact execHeartbeat_inv _ h
  | watcherRead => exact execWatcherRead_inv _ h
  | moduleReset => exact execModuleReset_inv _ h
  | bootVerify => exact execBootVerify_inv _ h
  | waveLaunch => exact execWaveLaunch_inv _ h
  | siteLocked => exact execSiteLocked_inv _ h
  | linkTrained => exact execLinkTrained_inv _ h
  | named => exact execNamed_inv _ h
  | readyBroadcast => exact execReadyBroadcast_inv _ h
  | bringupRestart => exact execBringupRestart_inv _ h
  | recoveryReset => exact execRecoveryReset_inv _ h
  | recoveryReport => exact execRecoveryReport_inv _ h
  | fatalFreeze => exact execFatalFreeze_inv _ h
  | chiselUnitFinish => exact execChiselUnitFinish_inv _ h
  | requestAgeing => exact execRequestAgeing_inv _ h
  | recoveryVerifyDone => exact execRecoveryVerifyDone_inv _ h

/-- Every state in what an attempt comes to keeps the invariant. -/
def Attempt.Inv : Attempt → Prop
  | .waits s => s.Inv
  | .issues o => Safe o

theorem Attempt.inv_issues {o : Host.Outcome State Fault Refusal} (h : Safe o) : (Attempt.issues o).Inv := h

theorem Hart.attemptOf_inv (x : Hart) (h : Nat) {f : Fetched} (hf : f.Inv) : (x.attemptOf h f).Inv := by
  cases f with
  | idle t => exact hf
  | fail cause sub a t => exact Attempt.inv_issues (exec_safe _ hf)
  | words lo ext t =>
    have hrun : Safe (exec (decode (x.pc.toNat % 8 == 0) lo ext) t) := exec_safe _ hf
    unfold Hart.attemptOf
    dsimp only
    split
    next u hu =>
      rw [hu] at hrun
      split <;> exact hrun
    next => exact hrun

theorem State.attempt_inv {s : State} (x : Hart) (h : s.Inv) : (s.attempt x).Inv := by
  unfold State.attempt
  split
  · exact Attempt.inv_issues (exec_safe _ (State.modHart_inv _ _ _ h))
  · exact Hart.attemptOf_inv x _ (State.fetch_inv s _ x h)

/-- What an attempt leaves stands, or nothing does: the core has chosen another hart. -/
theorem issue_safe {s : State} (h : s.Inv) : Safe (issue s) := by
  unfold issue
  split
  next => exact safe_next h
  next x _ =>
    have hattempt := State.attempt_inv x h
    refine ite_safe (fun _ => safe_next h) fun _ => ite_safe (fun _ => safe_next (State.tryStop_inv _ _ h)) fun _ =>
      ite_safe (fun _ => exec_safe _ (inv_of_mem h rfl)) fun _ => ite_safe (fun _ => safe_next h) fun _ => ?_
    split
    next t ht =>
      rw [ht] at hattempt
      exact hattempt
    next o ho =>
      rw [ho] at hattempt
      refine ite_safe (fun _ => ?_) fun _ => safe_next h
      split
      · exact safe_next (State.tookSlot_inv _ _ _ hattempt)
      · exact hattempt

theorem happen_safe (i : Instr) (n : Nat) {s : State} (h : s.Inv) : Safe (happen i n s) := by
  unfold happen
  exact ite_safe (fun _ => ite_safe (fun _ => safe_next h) fun _ => exec_safe i (inv_of_mem h rfl)) fun _ => safe_fault

theorem turn_safe {s : State} (h : s.Inv) : Safe (turn s) := by
  have hr : s.refresh.Inv := State.refresh_inv s h
  unfold turn
  dsimp only
  split
  · exact issue_safe (inv_of_mem hr rfl)
  · split
    · exact issue_safe (inv_of_mem hr rfl)
    · exact happen_safe _ _ (inv_of_mem hr rfl)

/-- Settles O47: a step is a turn, and every turn keeps the memory's canonical form. The form is the model's own (log 5). -/
theorem stepKeepsInv : Obligations.StepKeepsInv := by
  unfold Obligations.StepKeepsInv
  intro s t h hstep
  have hsafe : Safe (step s) := turn_safe h
  rw [hstep] at hsafe
  exact hsafe

end Sys2Proof.Machine
end

section
/-! SUPPORT. What the turn of a hart at an instruction comes to: the schedule's choice of the hart, the fetch, and the instruction that
the words decode to (R31, R32, R142, R372; log 1). -/

namespace Sys2Proof.Machine

section
variable {s t : State} {x : Hart}

/-! ### The turn -/

/-- A hart that stops may not issue (R31, R54). -/
theorem State.stopping_of_mayIssue {h : Nat} (hm : s.mayIssue h x = true) : x.stopping.isSome = false := by
  simp only [State.mayIssue, State.rotates, State.inRotation, Bool.and_eq_true, Option.isNone_iff_eq_none] at hm
  simp [hm]

/-- A hart that may issue, with no delivery due, attempts its next instruction; what that leaves stands where the core chooses it. -/
theorem issue_eq (hx : s.hart? s.cur = some x) (hf : s.frozen = none) (hm : s.mayIssue s.cur x = true)
    (hb : s.boundaryNow s.cur x = false) :
    issue s = match s.attempt x with
      | .waits t => .next t
      | .issues o =>
        if s.chosen s.cur x then
          match o with
          | .next t => .next (t.tookSlot x s.acyc)
          | o => o
        else .next s := by
  simp only [issue, hx, hf, hm, hb, State.stopping_of_mayIssue hm, Option.isSome_none, Bool.false_eq_true, if_false, Bool.false_and,
    Bool.not_true] <;> rfl

/-- The step of a hart's turn is that hart's issue, N-cycles later (log 1). -/
theorem step_eq_issue {s1 : State}
    (h : (s.tape = [] ∧ s1 = { s.refresh with ncyc := s.ncyc + 8 }) ∨
      (∃ dt h r, s.tape = ⟨dt, .hart h⟩ :: r ∧ s1 = { s.refresh with tape := r, ncyc := s.ncyc + dt, cur := h })) :
    step s = issue s1 := by
  have htape : s.refresh.tape = s.tape := rfl
  obtain ⟨hs, rfl⟩ | ⟨dt, h, r, hs, rfl⟩ := h
  · simp only [step, turn, htape, hs] <;> rfl
  · simp only [step, turn, htape, hs] <;> rfl

/-! ### The fetch -/

/-- A fetch that finds its line in the core's instruction cache reads no memory (R20; log 8). -/
theorem State.fetch_cached {h : Nat} {l : ILine} (hc : s.icacheFind x x.pc = some l) : s.fetch h x = wordsOf x.pc l.bytes s := by
  simp only [State.fetch, hc]

/-- A fetch that memory answers leaves its line in the core's instruction cache (R20, R103). -/
theorem State.fetch_memory {h k : Nat} {tag : Option (BitVec 16)} {traced : Bool} {fill : Option (PageRef × Word × Nat)}
    (hc : s.icacheFind x x.pc = none) (hr : s.route (Req.hart x.pc 4 .fetch (x.ctx h)) x.iface = .at (.mem k tag) traced fill)
    (hp : s.poisoned (k / 64 * 64) 64 = false) (ha : s.responds x.iface x.pc = true) :
    s.fetch h x = wordsOf x.pc (s.bytesAt (k / 64 * 64) 64) ((s.tlbTake fill).modCore x.core fun c =>
      { c with icache := (⟨lineOf x.pc, x.asid, x.priv, s.bytesAt (k / 64 * 64) 64⟩ :: c.icache).take 512 }) := by
  simp only [State.fetch, hc, hr, hp, ha, Bool.not_true, Bool.false_eq_true, if_false]

/-! ### The instruction -/

/-- What the step of a hart comes to whose fetch has left `t` and whose words decode to `i`: it issues where the core chooses it, or it
begins to wait (R31, R32). -/
def State.Runs (s : State) (x : Hart) (i : Instr) (t : State) (o : Host.Outcome State Fault Refusal) : Prop :=
  (∀ u, exec i t = .next u → x.issuedIn s.cur u = true →
    (s.chosen s.cur x = true → o = .next (u.tookSlot x (s.ncyc / 2))) ∧ (s.chosen s.cur x = false → o = .next s)) ∧
  (∀ u, exec i t = .next u → x.issuedIn s.cur u = false → o = .next u) ∧
  (∀ f, exec i t = .fault f → s.chosen s.cur x = true → o = .fault f)

theorem State.attempt_words {line : List Byte} (hn : x.fetchFail = none) (hw : s.fetch s.cur x = wordsOf x.pc line t) :
    s.attempt x = x.attemptOf s.cur (wordsOf x.pc line t) := by
  simp only [State.attempt, hn, hw]

theorem issue_runs {line : List Byte} (hx : s.hart? s.cur = some x) (hf : s.frozen = none) (hm : s.mayIssue s.cur x = true)
    (hn : x.fetchFail = none) (hb : s.boundaryNow s.cur x = false) (hw : s.fetch s.cur x = wordsOf x.pc line t) :
    s.Runs x (decode (x.pc.toNat % 8 == 0) (BitVec.ofNat 32 (natOfBytes ((line.drop (x.pc.toNat % 64)).take 4)))
      (BitVec.ofNat 32 (natOfBytes ((line.drop (x.pc.toNat % 64 + 4)).take 4)))) t (issue s) := by
  rw [issue_eq hx hf hm hb, State.attempt_words hn hw]
  simp only [wordsOf, Hart.attemptOf]
  refine ⟨fun u hu hi => ⟨fun hc => ?_, fun hc => ?_⟩, fun u hu hi => ?_, fun f hu hc => ?_⟩
  · simp only [hu, hi, hc, if_true, State.acyc]
  · simp only [hu, hi, hc, if_true, Bool.false_eq_true, if_false]
  · simp only [hu, hi, Bool.false_eq_true, if_false]
  · simp only [hu, hc, if_true]

end

/-- Settles O44: the step is the issue of the hart that the schedule gives the turn (log 1), and its fetch finds the line in the core's
cache or in memory. -/
theorem stepRunsDecoded : Obligations.StepRunsDecoded := by
  unfold Obligations.StepRunsDecoded
  intro s s1 x hturn hx hf hm hn hb
  rw [step_eq_issue hturn]
  refine ⟨fun l hc => issue_runs hx hf hm hn hb (State.fetch_cached hc), fun k tag traced fill hc hr hp ha => ?_⟩
  refine issue_runs hx hf hm hn hb ((State.fetch_memory hc hr hp ha).trans ?_)
  cases fill <;> rfl

end Sys2Proof.Machine
end

section
/-! SUPPORT. What writes leave in the CSRs, and the addresses that name none (R44, R155 to R157, R163, R366). -/

namespace Sys2Proof.Machine

section
variable (s : State) (x : Hart) (v : Word)

/-! ### What a write leaves -/

theorem clampNat_eq {lo hi : Nat} (h : lo ≤ hi) (n : Nat) : clampNat lo hi n = max lo (min hi n) := by
  unfold clampNat
  split_ifs <;> omega

/-- Each field of dxvcnt is within 1 and its maximum (R156). -/
theorem vcntOf_eq : vcntOf v =
    ⟨max 1 (min 64 (v.toNat % 2 ^ 8)), max 1 (min 128 (v.toNat / 2 ^ 8 % 2 ^ 8)), max 1 (min 16 (v.toNat / 2 ^ 16 % 2 ^ 5))⟩ := by
  rw [vcntOf, clampNat_eq (by decide), clampNat_eq (by decide), clampNat_eq (by decide), bitsOf, bitsOf, bitsOf, Nat.pow_zero,
    Nat.div_one]

/-- The low bits of a word, as a mask of ones leaves them. -/
theorem setWidth_extractLsb'_low (n : Nat) : (v.extractLsb' 0 n).setWidth 64 = v &&& BitVec.ofNat 64 (2 ^ n - 1) := by
  apply BitVec.eq_of_getLsbD_eq
  intro i hi
  rw [BitVec.getLsbD_and, BitVec.getLsbD_setWidth, BitVec.getLsbD_extractLsb', BitVec.getLsbD_ofNat, Nat.testBit_two_pow_sub_one]
  simp [hi, Bool.and_comm]

/-! ### Addresses -/

/-- The addresses at which the lower modes have a CSR (R155, R366). -/
def csrAddrs : List Nat :=
  [0x001, 0x002, 0x003, 0x100, 0x104, 0x105, 0x106, 0x140, 0x141, 0x142, 0x143, 0x144, 0x180, 0x5C0, 0x8C0, 0x8C1, 0x8C2, 0xC00, 0xC01,
    0xC02, 0xCC0, 0xCC1, 0xCC2, 0xCC3, 0xCC4, 0xCC5, 0xCC6]

variable {a : Nat}

/-- Every other address names a CSR of M-mode, or none. -/
theorem State.csrRead_of_notMem (h : a ∉ csrAddrs) : s.csrRead x a = s.mcsrRead x a := by
  unfold State.csrRead
  dsimp only
  split
  case h_28 => rfl
  all_goals exact absurd (by decide) h

/-- The M-mode CSRs of the part lie at 0x301 to 0x303, in 0x3A0 to 0x3EF and at 0xF14 (R141, R366). -/
theorem State.mcsrRead_elsewhere (h : 0x3F0 ≤ a) (hid : a ≠ 0xF14) : s.mcsrRead x a = none := by
  unfold State.mcsrRead
  rw [if_neg (show ¬ a = 0x301 by omega), if_neg (show ¬ a = 0x302 by omega),
    if_neg (show ¬ (a = 0x303 ∨ (0x3A0 ≤ a ∧ a < 0x3F0)) by omega), if_neg hid, ite_self]

theorem State.mcsrRead_user (hu : x.priv = .u) : s.mcsrRead x a = none := by
  unfold State.mcsrRead
  rw [if_pos (by rw [hu]; decide)]

/-- U-mode reads no S-mode CSR (R366). -/
theorem State.csrRead_user (hu : x.priv = .u) (h : 0x100 ≤ a ∧ a ≤ 0x180 ∨ a = 0x5C0) : s.csrRead x a = none := by
  unfold State.csrRead
  simp only [hu, if_true]
  split
  case h_4 | h_5 | h_6 | h_7 | h_8 | h_9 | h_10 | h_11 | h_12 | h_13 | h_14 => rfl
  case h_28 => exact s.mcsrRead_user x hu
  all_goals omega

theorem State.csrRead_unassigned (h : 0x8C3 < a ∧ a ≤ 0x8FF ∨ 0xCC6 < a ∧ a ≤ 0xCFF ∨ 0x5C0 < a ∧ a ≤ 0x5FF) :
    s.csrRead x a = none := by
  have hlist : a ∉ csrAddrs := by
    simp only [csrAddrs, List.mem_cons, List.not_mem_nil, or_false, not_or]
    omega
  rw [s.csrRead_of_notMem x hlist, s.mcsrRead_elsewhere x (by omega) (by omega)]

end

/-- Settles O35: a write is read back through the register that it leaves, and an address that is none of `csrAddrs` is one of the
M-mode CSRs or names nothing. -/
theorem csrFields : Obligations.CsrFields := by
  unfold Obligations.CsrFields
  intro s x v a
  refine ⟨vcntOf_eq v, congrArg some (setWidth_extractLsb'_low v 32), rfl, fun hp => ?_, fun hp => if_neg hp, s.csrRead_user x,
    s.csrRead_unassigned x⟩
  exact (if_neg hp).trans (congrArg some (setWidth_extractLsb'_low v 16))

end Sys2Proof.Machine
end

section
/-! SUPPORT. What the rebinding of a granule and the exchange that moves a compact hart come to (R44 to R48, R80, R98, R419). -/

namespace Sys2Proof.Machine

/-- An event that changes one hart by a function leaves that hart at the function's value. -/
theorem next_modHart {t u : State} {h : Nat} {x : Hart} {f : Hart → Hart} (hu : u = t.modHart h f) (hx : t.hart? h = some x) :
    (.next u : Host.Outcome State Fault Refusal) = .next (t.modHart h fun _ => f x) :=
  next_of_eq (hu.trans (State.modHart_const hx f))

section
variable {s : State}

/-! ### Granules -/

section
variable {g since : Nat} {old dest : RebindTo}

theorem doRebind_moves (hg : s.gran s.subj g = .moving old dest true since) (hd : s.frameBlocked s.subj g dest = none)
    (ho : s.frameBlocked s.subj g old = none) :
    doRebind g dest s = ((s.moveGran s.subj g old dest false).setGran s.subj g (reboundTo dest)).releaseGran s.subj g := by
  simp only [doRebind, hg, hd, ho, ne_eq, not_true_eq_false, if_false]

section
variable (hg : s.gran s.subj g = .moving old dest false since)
include hg

theorem doWithdrawAck_eq : doWithdrawAck g s = s.setGran s.subj g (.moving old dest true since) := by
  simp only [doWithdrawAck, hg]

/-- A granule whose core has not acknowledged in time moves with its contents lost, and the failure is logged (R393). -/
def State.lostRebind (s : State) (g : Nat) (old dest : RebindTo) : State :=
  (((s.moveGran s.subj g old dest true).setGran s.subj g (reboundTo dest)).releaseGran s.subj g).logRec 11 (winHome s.subj) 0 0 0 1

section
variable (ht : since + 4096 ≤ s.ncyc) (hd : s.frameBlocked s.subj g dest = none)
include ht hd

theorem doRebindTimeout_frame {va : Word} (ho : old = .frame va) : doRebindTimeout g s = s.lostRebind g old dest := by
  subst ho
  simp only [doRebindTimeout, hg, ht, hd, if_true, State.lostRebind]

/-- The core that has not acknowledged is lost with the granule (R419). -/
theorem doRebindTimeout_core {cl pc : Nat} (ho : old = .core cl pc) :
    doRebindTimeout g s = (s.lostRebind g old dest).loseCore cl pc := by
  subst ho
  simp only [doRebindTimeout, hg, ht, hd, if_true, State.lostRebind]

end
end
end

/-! ### The exchange -/

section
variable {x : Hart} (hx : s.hart? s.subj = some x)
include hx

/-- A hart leaves rotation for the exchange (R46). -/
theorem doMigrationStart_eq {c : Nat} (ht : x.mig.thresh ≠ 0#16) (hc : x.mig.thresh ≤ x.mig.count) (hr : s.migReady s.subj x = true)
    (hm : s.migTarget x.mig.home.toNat = some c) (hn : c ≠ x.cluster) :
    doMigrationStart s = s.startMigration s.subj c := by
  simp only [doMigrationStart, hx, ht, hc, hr, hm, hn, ne_eq, not_false_eq_true, and_self, if_true, if_false]

section
variable {cl : Nat} (hs : x.status = .moving 0) (hm : x.migTo = some cl) (hc : x.migCore = none)
include hs hm hc

theorem doSlotRequest_reserves {c : Nat} (hi : s.idleCore cl = some c) :
    doSlotRequest s = (s.modCluster cl fun k => { k with reserved := k.reserved ++ [(c, s.subj)] }).modHart s.subj fun y =>
      { y with status := .moving 1 } := by
  simp only [doSlotRequest, hx, Hart.stage, hs, hm, hc, hi]

theorem doSlotRequest_declines (hi : s.idleCore cl = none) :
    doSlotRequest s = s.modHart s.subj fun y => { y with status := .moving 9 } := by
  simp only [doSlotRequest, hx, Hart.stage, hs, hm, hc, hi]

end

theorem doSlotReply_declined (hs : x.status = .moving 9) :
    doSlotReply s = s.modHart s.subj fun y =>
      { y with status := .present, migTo := none, migCore := none, mig := { y.mig with count := 0#16 } } := by
  simp only [doSlotReply, hx, Hart.stage, hs]

/-- The context message leaves once the hart's entries are settled (R98). -/
theorem doSlotReply_reserved (hs : x.status = .moving 1) :
    doSlotReply s = if s.entriesSettled s.subj then
        s.modHart s.subj fun y => { y with status := .moving 2, sentC := s.causal x, resv := none, saw := [] }
      else s.drainFor s.subj := by
  simp only [doSlotReply, hx, Hart.stage, hs]

theorem doContextArrival_eq {cl c : Nat} (hs : x.status = .moving 2) (hm : x.migTo = some cl)
    (hf : ((s.cluster cl).reserved.find? fun r => r.2 == s.subj) = some (c, s.subj)) :
    doContextArrival s =
      let t := s.modCluster cl fun k => { k with reserved := k.reserved.filter fun r => r.2 != s.subj }
      (t.raiseC (cl * 100 + c) cl x.sentC).modHart s.subj fun y =>
        { y with
          status := .present
          cluster := cl
          pcore := c
          slot := t.lowSlot (cl * 100 + c)
          mig := ⟨y.mig.thresh, 0#16, BitVec.ofNat 10 cl⟩
          migTo := none
          migCore := none
          sentC := 0
          chisel := y.chisel.clr
          ready := none } := by
  simp only [doContextArrival, hx, Hart.stage, hs, hm, hf]

end

/-! ### Load balance -/

section
variable {d : Nat} (hd : (s.cluster s.subj).dxload.toNat = d)
include hd

theorem doLoadBalance_stays (h : bitsOf d 8 5 < bitsOf d 32 5 + 6 ∨ s.freeSlots (s.subj * 100 + bitsOf d 16 7) = 0) :
    doLoadBalance s = s := by
  subst hd
  exact if_pos h

theorem doLoadBalance_moves {j : Nat} (hn : bitsOf d 32 5 + 6 ≤ bitsOf d 8 5) (hf : s.freeSlots (s.subj * 100 + bitsOf d 16 7) ≠ 0)
    (hj : pickBy (fun a b => s.laterHart a b) (((s.coreHarts (s.subj * 100 + bitsOf d 0 7)).filter fun p =>
      s.eligible p.2 && s.migReady p.1 p.2).map Prod.fst) = some j) :
    doLoadBalance s = (s.startMigration j s.subj).modHart j fun y => { y with migCore := some (bitsOf d 16 7) } := by
  subst hd
  simp only [doLoadBalance, if_neg (show ¬ (_ ∨ _) from not_or.mpr ⟨Nat.not_lt.mpr hn, hf⟩), hj]

end
end

/-- Settles O53: each event is the branch of its own that the hypotheses choose. That an arriving hart keeps what the context message does
not carry, its SEQ among them, is the model's choice (log 57). -/
theorem moveEvents : Obligations.MoveEvents := by
  unfold Obligations.MoveEvents
  intro s x
  refine ⟨fun g old dest since hg hd ho => next_of_eq (doRebind_moves hg hd ho),
    fun g old dest since hg => ⟨next_of_eq (doWithdrawAck_eq hg), fun ht hd => ?timeout⟩, fun hx => ?exchange,
    rfl, fun h => next_of_eq (doLoadBalance_stays rfl h), fun j hn hf hj => next_of_eq (doLoadBalance_moves rfl hn hf hj)⟩
  case timeout =>
    exact ⟨fun va ho => next_of_eq (doRebindTimeout_frame hg ht hd ho), fun cl pc ho => next_of_eq (doRebindTimeout_core hg ht hd ho),
      fun cl pc => rfl⟩
  case exchange =>
    refine ⟨fun c ht hc hr hm hn => next_modHart (doMigrationStart_eq hx ht hc hr hm hn) hx,
      fun cl hs hm hc => ⟨fun c hi => next_modHart (doSlotRequest_reserves hx hs hm hc hi) hx,
        fun hi => next_modHart (doSlotRequest_declines hx hs hm hc hi) hx⟩,
      fun hs => next_modHart (doSlotReply_declined hx hs) hx, fun hs => ?_,
      fun cl c hs hm hf => next_modHart (doContextArrival_eq hx hs hm hf) hx⟩
    have hdo := doSlotReply_reserved hx hs
    exact ⟨fun h => next_modHart (hdo.trans (if_pos h)) hx,
      fun h => next_of_eq (hdo.trans (if_neg (Bool.eq_false_iff.mp h)))⟩

end Sys2Proof.Machine
end

section
/-! SUPPORT. What a record for the module log leaves as it was: the time, and every hart but for its reservation (R104, R424). -/

namespace Sys2Proof.Machine

/-- A hart without its reservation, which any write to the line ends (R104). -/
def Hart.unlinked (x : Hart) : Hart := { x with resv := none }

/-- The time, and the harts without their reservations. -/
structure Roster where
  ncyc : Nat
  harts : Table Hart

def State.roster (s : State) : Roster := ⟨s.ncyc, s.harts.map fun p => (p.1, p.2.unlinked)⟩

theorem Hart.unlinked_unreserve (x : Hart) (key n : Nat) : (x.unreserve key n).unlinked = x.unlinked := by
  unfold Hart.unreserve
  split
  · split <;> rfl
  · rfl

section
variable (s : State)

/-! ### Memory -/

@[simp] theorem State.unpoison_roster (k : Nat) (bs : List (Option Byte)) : (s.unpoison k bs).roster = s.roster := by
  unfold State.unpoison
  split <;> rfl

@[simp] theorem State.clearResv_roster (k n : Nat) : (s.clearResv k n).roster = s.roster := by
  simp only [State.roster, State.clearResv_harts, List.map_map, Function.comp_def, Hart.unlinked_unreserve]
  rfl

@[simp] theorem State.putMem_roster (k : Nat) (bs : List (Option Byte)) : (s.putMem k bs).roster = s.roster :=
  (State.clearResv_roster _ _ _).trans (State.unpoison_roster _ _ _)

@[simp] theorem State.spend_roster (i : Nat) (c : Ctx) (n : Nat) (fill : Option (PageRef × Word × Nat)) :
    (s.spend i c n fill).roster = s.roster := by
  have judged (u : State) (a cl n : Nat) : (u.judge a cl n).2.roster = u.roster := by
    unfold State.judge
    split
    · split <;> rfl
    · rfl
  unfold State.spend
  split
  · dsimp only
    split <;> simp only [judged]
  · exact judged _ _ _ _

/-! ### Records -/

@[simp] theorem State.takeRec_roster (bs : List Byte) : (s.takeRec bs).roster = s.roster := by
  unfold State.takeRec State.logTell
  split <;> rfl

@[simp] theorem State.sendRec_roster (k h d p r c : Nat) : (s.sendRec k h d p r c).roster = s.roster := State.takeRec_roster _ _

@[simp] theorem State.noteTable_roster (h sub : Nat) : (s.noteTable h sub).roster = s.roster := by
  unfold State.noteTable
  split
  · exact State.sendRec_roster _ _ _ _ _ _ _
  · rfl

@[simp] theorem State.unitMiss_roster (c : Ctx) (k : AccKind) (va : Word) : (s.unitMiss c k va).roster = s.roster := by
  have held (pg : PageRef) (r : Req) : (s.unitHold pg r).roster = s.roster := by
    unfold State.unitHold
    split
    · split <;> rfl
    · rfl
  unfold State.unitMiss
  dsimp only
  split
  · exact held _ _
  · split
    · split <;> rfl
    · rfl
  · exact State.noteTable_roster _ _ _
  · rfl

/-- A write of the scheduler core is performed, or held and performed later (R422). -/
@[simp] theorem State.qtWrite_roster (off : Nat) (bs : List Byte) : (s.qtWrite off bs).roster = s.roster := by
  unfold State.qtWrite State.unitSend
  dsimp only
  split
  · exact (State.putMem_roster _ _ _).trans (State.spend_roster _ _ _ _ _)
  · rfl
  · rfl
  · rfl
  · rfl
  · rfl
  · exact State.noteTable_roster _ _ _
  · rfl

@[simp] theorem State.logRec_roster (k h d p r c : Nat) : (s.logRec k h d p r c).roster = s.roster := by
  have flushed (u : State) : u.logFlush.roster = u.roster := by
    unfold State.logFlush
    split
    · refine (State.qtWrite_roster _ _ _).trans ?_
      exact foldl_keeps State.roster (fun (t : State) j => t.qtWrite _ (u.mod.held.getD j [])) (fun v j => State.qtWrite_roster _ _ _) _ _
    · exact State.unitMiss_roster _ _ _ _
    · exact State.unitMiss_roster _ _ _ _
  unfold State.logRec State.logOut
  split
  · exact (flushed _).trans (State.sendRec_roster _ _ _ _ _ _ _)
  · exact State.sendRec_roster _ _ _ _ _ _ _

end

/-- A hart that stands in one state stands in any other of the same roster, but for its reservation. -/
theorem State.hart?_of_roster {s t : State} {h : Nat} {y : Hart} (hr : t.roster = s.roster) (hy : s.hart? h = some y) :
    ∃ z, t.hart? h = some z ∧ z.unlinked = y.unlinked := by
  have hmap : (tget t.harts h).map Hart.unlinked = some y.unlinked := by
    rw [← tget_map, show (t.harts.map fun p => (p.1, p.2.unlinked)) = _ from congrArg Roster.harts hr]
    exact (tget_map _ _ _).trans (congrArg (Option.map Hart.unlinked) hy)
  exact Option.map_eq_some_iff.mp hmap

end Sys2Proof.Machine
end

section
/-! SUPPORT. What the events at a hart come to (R31, R141, R237, R259, R369, R394, R396, R418, R420). -/

namespace Sys2Proof.Machine

/-- An entry that a map by condition changes. -/
theorem tget_map_if {α : Type} (t : Table α) (c : Nat × α → Bool) (f : α → α) (k : Nat) (hc : ∀ p : Nat × α, p.1 = k → c p = true) :
    tget (t.map fun p => if c p then (p.1, f p.2) else p) k = (tget t k).map f := by
  induction t with
  | nil => rfl
  | cons p r ih =>
    have hkey : (if c p then (p.1, f p.2) else p).1 = p.1 := by split <;> rfl
    simp only [List.map_cons, tget, hkey]
    by_cases h : p.1 = k
    · simp [h, hc p h]
    · simp [h, ih]

section
variable {s : State} {x : Hart}

theorem State.hart?_modPair {h : Nat} (hx : s.hart? h = some x) (f : Hart → Hart) : (s.modPair h f).hart? h = some (f x) := by
  have hin : ∀ p : Nat × Hart, p.1 = h → inPair h p = true := fun p hp => by simp [inPair, hp]
  exact (tget_map_if s.harts (inPair h) f h hin).trans (congrArg (Option.map f) hx)

/-! ### Deliveries and answers -/

section
variable (hx : s.hart? s.subj = some x)
include hx

theorem doBoundary_eq {d : Boundary} {r : List Boundary} (hb : s.boundaryNow s.subj x = true) (hd : x.due = d :: r) :
    doBoundary s = (s.modHart s.subj fun _ => { x with due := r }).takeTrap s.subj d.cause d.tval d.sub (wordForm d.tval) false := by
  have hmod : (s.modHart s.subj fun y => { y with due := r }) = s.modHart s.subj fun _ => { x with due := r } :=
    State.modHart_const hx _
  simp only [doBoundary, hx, hb, hd, Bool.not_true, Bool.false_eq_true, if_false, hmod]

theorem doPlainAck_eq {k : Nat} {a : PieceAns} (hk : x.plainOut = some k) (ha : x.plainAns = some a) :
    doPlainAck s = s.modHart s.subj fun _ => { x with log := x.log ++ [a], plainOut := none, plainAns := none } := by
  rw [doPlainAck, State.modHart_const hx, hk, ha]

/-! ### Waits that end -/

theorem doYieldTimeout_eq {t : Nat} (hy : x.yieldEnd = some t) (ht : t ≤ s.acyc) :
    doYieldTimeout s = s.modHart s.subj fun _ => x.yieldDone s.acyc := by
  rw [doYieldTimeout, State.modHart_const hx, hy]
  simp only [ht, if_true]

theorem doScrubDone_eq {t : Nat} (hy : x.scrub = some t) (ht : t ≤ s.acyc) :
    doScrubDone s = s.modHart s.subj fun _ => { x with scrub := none } := by
  rw [doScrubDone, State.modHart_const hx, hy]
  simp only [ht, if_true]

theorem doRecvtTimeout_eq (h0 : x.recvEnd ≠ 0) (ht : x.recvEnd < s.timeOf x) :
    doRecvtTimeout s = s.modHart s.subj fun y => { y with wait := none } := by
  simp only [doRecvtTimeout, hx]
  exact if_pos ⟨h0, ht⟩

theorem doWaitEntry_eq {w : WaitRec} (hl : s.listable x = true) (hw : x.wait = some w) (ht : w.since + msN ≤ s.ncyc) :
    doWaitEntry s = s.modHart s.subj fun _ => { x with wait := some { w with listed := true } } := by
  simp only [doWaitEntry, hx, hl, if_true]
  rw [State.modHart_const hx, hw]
  simp only [Option.map_some, ht, if_true]

/-! ### Errors in registers -/

theorem doPoisonConsume_eq {reg : Nat} {y : Hart} (hs : x.status = .present) (hn : x.scrub = none) (hz : x.zeroReg reg s.acyc = y) :
    doPoisonConsume reg s =
      ((s.modHart s.subj fun _ => y).consumePoison s.subj (s.formAt s.subj x) 0#64).countUe x.core := by
  subst hz
  have hmod : (s.modHart s.subj fun z => z.zeroReg reg s.acyc) = s.modHart s.subj fun _ => x.zeroReg reg s.acyc :=
    State.modHart_const hx _
  simp [doPoisonConsume, hx, hs, hn, hmod]

end

/-- A hart that leads meets poison: it goes out for the scrub of 64 A-cycles, and cause 56 falls due (R396). -/
theorem State.consumePoison_lead {h : Nat} (hx : s.hart? h = some x) (ht : x.trails = false) (fo : FormOp) (addr : Word) :
    (s.consumePoison h fo addr).ncyc = s.ncyc ∧
      ∃ z, (s.consumePoison h fo addr).hart? h = some z ∧
        z.unlinked = ({ x with scrub := some (s.acyc + 64), due := x.due ++ [⟨56, failWord fo 56 14 0, addr⟩] } : Hart).unlinked := by
  have hlead : s.leaderOf h = h := by simp [State.leaderOf, hx, ht]
  simp only [State.consumePoison, hlead]
  have hroster (u : State) (home d p : Nat) := State.logRec_roster u 5 home d p 0 1
  exact ⟨congrArg Roster.ncyc (hroster _ _ _ _),
    State.hart?_of_roster (hroster _ _ _ _) (State.hart?_modHart (State.hart?_modPair hx _) _)⟩

/-- A register by its number: the x registers from 0, the f registers from 32, the v registers from 64, the CSRs from 96. -/
theorem Hart.zeroReg_x (r : RegIdx) (t : Nat) : x.zeroReg r.toNat t = x.wx r 0#64 := by
  have hr := r.isLt
  simp only [Hart.zeroReg, if_pos (show r.toNat < 32 from hr), BitVec.ofNat_toNat, BitVec.setWidth_eq]

theorem Hart.zeroReg_f (r : RegIdx) (t : Nat) : x.zeroReg (r.toNat + 32) t = x.wf r 0#32 := by
  have hr := r.isLt
  have hi : BitVec.ofNat 5 (r.toNat + 32) = r := by apply BitVec.eq_of_toNat_eq; rw [BitVec.toNat_ofNat]; omega
  simp only [Hart.zeroReg, if_neg (show ¬ r.toNat + 32 < 32 by omega), if_pos (show r.toNat + 32 < 64 by omega), hi]

theorem Hart.zeroReg_v (r : RegIdx) (t : Nat) : x.zeroReg (r.toNat + 64) t = x.wv r (Vector.replicate 16 0#32) := by
  have hr := r.isLt
  have hi : BitVec.ofNat 5 (r.toNat + 64) = r := by apply BitVec.eq_of_toNat_eq; rw [BitVec.toNat_ofNat]; omega
  simp only [Hart.zeroReg, if_neg (show ¬ r.toNat + 64 < 32 by omega), if_neg (show ¬ r.toNat + 64 < 64 by omega),
    if_pos (show r.toNat + 64 < 96 by omega), hi]

theorem Hart.zeroReg_csr {a : Nat} (hcy : a ≠ 0xC00) (hin : a ≠ 0xC02) (hmig : a ≠ 0x8C2) (t : Nat) :
    x.zeroReg (a + 96) t = x.csrWrite a 0#64 := by
  simp only [Hart.zeroReg, if_neg (show ¬ a + 96 < 32 by omega), if_neg (show ¬ a + 96 < 64 by omega),
    if_neg (show ¬ a + 96 < 96 by omega), Nat.add_sub_cancel, Hart.zeroCsr, if_neg hcy, if_neg hin, if_neg hmig]

theorem Hart.csrWrite_trails (a : Nat) (v : Word) : (x.csrWrite a v).trails = x.trails := by
  unfold Hart.csrWrite
  split <;> rfl

end

/-- Settles O48: each event is the branch of its own that the hypotheses choose; after an error in a register the hart is read back through
the log record that the event makes, which changes no hart but for reservations. -/
theorem hartEvents : Obligations.HartEvents := by
  unfold Obligations.HartEvents
  intro s x hx h becomes
  refine ⟨fun d r hb hd => next_of_eq (doBoundary_eq hx hb hd), fun k a hk ha => next_of_eq (doPlainAck_eq hx hk ha),
    fun h0 ht => next_modHart (doRecvtTimeout_eq hx h0 ht) hx, fun t hy ht => next_of_eq (doYieldTimeout_eq hx hy ht),
    fun t hy ht => next_of_eq (doScrubDone_eq hx hy ht), ?poison, fun w hl hw ht => next_of_eq (doWaitEntry_eq hx hl hw ht)⟩
  case poison =>
    intro r a hs hn ht out
    have met (reg : Nat) (y : Hart) (hz : x.zeroReg reg s.acyc = y) (hy : y.trails = false) : out reg y := by
      obtain ⟨hncyc, z, hget, hunl⟩ := State.consumePoison_lead (State.hart?_modHart hx fun _ => y) hy (s.formAt s.subj x) 0#64
      refine ⟨next_of_eq ((doPoisonConsume_eq hx hs hn hz).trans ?_), z, hget, ?_⟩
      · simp only [State.countUe, hncyc]
        rfl
      · exact ⟨congrArg Hart.scrub hunl, congrArg Hart.due hunl, (congrArg Hart.pc hunl :), (congrArg Hart.x hunl :),
          (congrArg Hart.f hunl :), (congrArg Hart.v hunl :)⟩
    exact ⟨met _ _ (Hart.zeroReg_x r _) (by simpa using ht), met _ _ (Hart.zeroReg_f r _) (by simpa using ht),
      met _ _ (Hart.zeroReg_v r _) (by simpa using ht),
      fun hcy hin hmig => met _ _ (Hart.zeroReg_csr hcy hin hmig _) ((Hart.csrWrite_trails a _).trans ht)⟩

end Sys2Proof.Machine
end

section
/-! SUPPORT. What arrivals at block and grid barriers, the write of a queue's descriptor and the loan of a deadline come to (R60, R83,
R84, R248, R249). -/

namespace Sys2Proof.Machine

section
variable {s : State}

/-! ### Arrivals at a group's barrier -/

/-- An operation on its way that no place of the meshes holds back, and whose release is done, is performed (R99, R105). -/
theorem State.whenReady_eq {o : Nat} {p : Op} {act : Op → State → State} (hp : tget s.ops o = some p) (hi : p.st = .issued)
    (hs : p.spot = none) (hg : s.gateClear p.gate = true) (hd : p.drained = true) : s.whenReady o act = act p s := by
  simp [State.whenReady, State.opLane, State.opReady, hp, hi, hs, hg, hd]

/-- The first arrival of a hart in a phase stands in that phase. -/
theorem BarObj.add_first {b : BarObj} {a : Arrival} (h : ∀ c ∈ b.arrivals, c.hart ≠ a.hart) :
    b.add a = ({ b with arrivals := b.arrivals ++ [a] }, true) := by
  have hnone : (b.arrivals.any fun c => c.hart == a.hart) = false := by simpa using h
  simp only [BarObj.add, hnone, Bool.false_eq_true, if_false]

/-- What is no barrive completes with its phase alone. -/
theorem State.earlyDone_late {ph : BitVec 32} {a : Arrival} {p : Op} {obj : Word} {opc fmt : Nat} {lanes : BitVec 64}
    (hp : tget s.ops a.op = some p) (hk : p.kind = .arrive obj false opc lanes fmt) : s.earlyDone ph a = s := by
  simp only [State.earlyDone, hp, hk]

theorem State.syncGroupBar_one {gi : Nat} {g : Group} (hg : tget s.groups gi = some g) (hp : g.parked = false)
    (hl : g.bar.later = []) :
    s.syncGroupBar gi =
      if s.allArrived (s.groupOrder g) g.bar.arrivals then
        let done := g.bar.complete s (sortArrivals (s.groupOrder g) g.bar.arrivals)
        done.2.modGroup gi fun y => { y with bar := done.1 }
      else s := by
  simp only [State.syncGroupBar, hg, hl, List.length_nil, State.groupBarGo, hp, Bool.not_false, Bool.true_and]

/-- The state in which an arrival stands in its group's barrier. -/
def State.arrived (s : State) (gi : Nat) (bar : BarObj) : State :=
  (s.modOp s.subj fun q => { q with st := .waiting }).modGroup gi fun y => { y with bar := bar }

section
variable {x : Hart} {g : Group} {p : Op} {opc fmt : Nat} {lanes : BitVec 64} (hp : tget s.ops s.subj = some p)
  (hk : p.kind = .arrive 0#64 false opc lanes fmt) (hx : s.hart? p.hart = some x) (hg : s.groupOf? x = some g)
  (hpark : g.parked = false) (hlater : g.bar.later = []) (hnew : ∀ a ∈ g.bar.arrivals, a.hart ≠ p.hart)
include hp hk hx hg hpark hlater hnew

/-- A group barrier's arrival stands in its phase, and completes it where it is the last (R249). -/
theorem State.arrive_group :
    let bar : BarObj := { g.bar with arrivals := g.bar.arrivals ++ [⟨p.hart, s.subj, opc, lanes, fmt, p.ctx⟩] }
    s.arrive s.subj 0#64 opc lanes fmt =
      if s.allArrived (s.groupOrder g) bar.arrivals then
        let done := bar.complete (s.arrived x.group bar) (sortArrivals (s.groupOrder g) bar.arrivals)
        done.2.modGroup x.group fun y => { y with bar := done.1 }
      else s.arrived x.group bar := by
  intro bar
  have hadd : g.bar.add ⟨p.hart, s.subj, opc, lanes, fmt, p.ctx⟩ = (bar, true) := BarObj.add_first hnew
  have hop : tget (s.arrived x.group bar).ops s.subj = some { p with st := .waiting } := by
    simp [State.arrived, State.modOp, State.modGroup, hp]
  have hgroup : tget (s.arrived x.group bar).groups x.group = some { g with bar := bar } :=
    State.modGroup_get (f := fun y => { y with bar := bar }) hg
  have hearly (ph : BitVec 32) : (s.arrived x.group bar).earlyDone ph ⟨p.hart, s.subj, opc, lanes, fmt, p.ctx⟩ = s.arrived x.group bar :=
    State.earlyDone_late hop hk
  have hsync := State.syncGroupBar_one hgroup hpark hlater
  simp only [State.arrive, hp, hx, hg, hadd, if_true]
  exact (congrArg (fun t => t.syncGroupBar x.group) (hearly _)).trans hsync

end

/-! ### Arrivals at a grid object's bank -/

section
variable {ga : GridArr} {b : Block} {k : Nat} {t : State} (hga : tget s.gridArrs s.subj = some ga) (hb : ga.atBank = false)
  (hheld : ∀ e ∈ s.held, e.who ≠ .grid ga.id) (hblk : tget s.blocks ga.block = some b)
  (hline : s.bankLine ga.ctx .bank ga.va 64 (siteOfHome b.home) = (.at k, t))
include hga hb hheld hblk hline

/-- A block's partial that reaches its object's bank (R249). -/
theorem doGridArrival_at : doGridArrival s = t.gridArrive ga k := by
  have hany : (s.held.any fun e => e.who == .grid ga.id) = false := by simpa using hheld
  simp only [doGridArrival, hga, hb, hany, hblk, hline, Bool.or_false, Bool.false_eq_true, if_false]

end

/-! ### Descriptors -/

section
variable (m q half : Nat) (w : Word)

/-- What a write of half a descriptor makes of it: the low half keeps EN, the base and LOG2SIZE alone (R84). -/
def State.queueHalf (s : State) (m q half : Nat) (w : Word) : BitVec 128 :=
  BitVec.ofNat 128 (putBits (s.bankQueue m q).toNat (64 * half) 64
    (if half = 0 then bitsOf w.toNat 0 1 + 2 ^ 6 * bitsOf w.toNat 6 41 + 2 ^ 53 * bitsOf w.toNat 53 5 else w.toNat))

theorem State.queueDescWrite_eq :
    s.queueDescWrite m q half w =
      if (s.queueHalf m q half w).getLsbD 0 then s.putBankQueue m q (s.queueHalf m q half w)
      else (((s.enqWaiters m q ++ s.deqWaiters m q).foldl (fun (a : State) o => a.opFail o 7 9 0 0#64)
        (s.putBankQueue m q (s.queueHalf m q half w)))).modMc m fun y =>
          { y with enqWait := tdel y.enqWait q, deqWait := tdel y.deqWait q } := rfl

end

/-! ### Loans -/

/-- The loans of a hart end. -/
def State.withoutLoans (s : State) (h : Nat) : State :=
  { s with groups := s.groups.map fun p => (p.1, { p.2 with loans := p.2.loans.filter fun l => l.1 != h }) }

/-- A hart that waits at no barrier lends to none; one that does lends its effective deadline (R60). -/
theorem doDeadlineLoan_eq {x : Hart} (hx : s.hart? s.subj = some x) :
    doDeadlineLoan s =
      let t := s.withoutLoans s.subj
      match x.barWait with
      | none => t
      | some obj =>
        if (t.tagOf x).2 then t
        else (t.loanReach 7 (t.borrowers x obj.toNat) (t.borrowers x obj.toNat)).foldl
          (fun (a : State) i => a.modGroup i fun y => { y with loans := y.loans ++ [(s.subj, (t.tagOf x).1)] }) t := by
  unfold State.hart? at hx
  simp only [doDeadlineLoan, State.hart?, hx] <;> rfl

end

/-- Settles O51: each event is the branch of its own that the hypotheses choose; an arrival that its barrier has recorded completes the
phase where the barrier finds every hart arrived. -/
theorem barrierEvents : Obligations.BarrierEvents := by
  unfold Obligations.BarrierEvents
  intro s x g
  refine ⟨?arrival, ?grid, fun q w => ?descriptor, fun hx => ?loan⟩
  case arrival =>
    intro p opc lanes fmt hp hi hgate hd hk hx hg hpark hlater hnew
    have hrun : exec .barrierArrival s = .next (s.arrive s.subj 0#64 opc lanes fmt) := by
      refine next_of_eq ((State.whenReady_eq hp hi (by simp [Op.spot, hk]) hgate hd).trans ?_)
      simp [hk, State.performOp]
    rw [hrun, State.arrive_group hp hk hx hg hpark hlater hnew]
    exact ⟨fun h => next_of_eq (if_neg (Bool.eq_false_iff.mp h)), fun h => ⟨next_of_eq (if_pos h), rfl⟩⟩
  case grid =>
    intro ga b k t hga hb hheld hblk hline hpois
    have hrun : exec .gridArrival s = .next (t.gridArrive ga k) := next_of_eq (doGridArrival_at hga hb hheld hblk hline)
    rw [hrun, State.gridArrive, hpois]
    exact ⟨fun h => next_of_eq (if_neg (Nat.not_le.mpr h)), fun h => next_of_eq (if_pos h)⟩
  case descriptor =>
    exact ⟨fun h => next_of_eq ((s.queueDescWrite_eq s.subj q 0 w).trans (if_pos h)),
      fun h => next_of_eq ((s.queueDescWrite_eq s.subj q 1 w).trans (if_pos h)),
      fun h => next_of_eq ((s.queueDescWrite_eq s.subj q 0 w).trans (if_neg (Bool.eq_false_iff.mp h)))⟩
  case loan =>
    have hdo := doDeadlineLoan_eq hx
    refine ⟨fun hw => ?_, fun obj hw ht => ?_⟩ <;> rw [hw] at hdo
    · exact next_of_eq hdo
    · exact next_of_eq (hdo.trans (if_neg (Bool.eq_false_iff.mp ht)))

end Sys2Proof.Machine
end

section
/-! SUPPORT. What an operation comes to at its bank, at its bank queue and at the holder of its object (R83 to R85, R99, R105, R244 to
R246, R251, R389, R400). -/

namespace Sys2Proof.Machine

section
variable {s : State} {o : Nat} {p : Op}

/-! ### Operations at their units -/

/-- An event of an operation's kind performs it, once its lane is clear and its release done (R99, R105). -/
theorem doOpEvent_ready {ok : OpKind → Bool} (hp : tget s.ops s.subj = some p) (hi : p.st = .issued) (hl : s.opLane s.subj p = true)
    (hg : s.gateClear p.gate = true) (hd : p.drained = true) (hok : ok p.kind = true) : doOpEvent ok s = s.performOp s.subj p := by
  simp [doOpEvent, State.whenReady, State.opReady, hp, hi, hl, hg, hd, hok]

/-- At a line that its home holds and no poison touches, an operation is performed in the state that its translation leaves. -/
theorem State.atBank_at {kind : AccKind} {va : Word} {n k : Nat} {t : State} {act : Nat → State → State}
    (h : s.bankLine p.ctx kind va n (siteOfHome p.cluster) = (.at k, t) ∧ t.poisoned k n = false) :
    s.atBank o p kind va n act = act k t := by
  obtain ⟨hline, hsound⟩ := h
  simp only [State.atBank, hline, hsound, Bool.false_eq_true, if_false]

theorem State.performOp_bank {fn : BankFn} {dbl : Bool} {va v e : Word} (hk : p.kind = .bank fn dbl va v e) :
    s.performOp o p = s.atBank o p .bank va (dblBytes dbl) fun k t =>
      (t.putNat k (dblBytes dbl) (bankNew fn (dblBytes dbl) (t.natAt k (dblBytes dbl)) v.toNat e.toNat)).opDone o
        (bankOld fn (dblBytes dbl) (t.natAt k (dblBytes dbl))) := by
  simp only [State.performOp, State.bankDo, hk]

theorem State.performOp_vred {fn : VredFn} {va : Word} {lanes : List (Option W32)} (hk : p.kind = .vred fn va lanes) :
    s.performOp o p = s.atBank o p .bank va 64 fun k t =>
      (t.putMem k (vredLine fn (t.bytesAt k 64) lanes)).opDone o
        (statusWord false false (4 * (lanes.filter Option.isSome).length)) := by
  simp only [State.performOp, State.bankDo, hk]

theorem State.performOp_bwait {obj : Word} {token : BitVec 32} (hk : p.kind = .bwait obj token) :
    s.performOp o p = s.bwaitDo o p obj token := by
  simp only [State.performOp, hk]

/-! ### The way to a bank queue -/

section
variable {hd v : Word} (hvalid : s.homeValid (vaHome hd) = true) (hnet : s.net (siteOfHome p.cluster) (vaHome hd) = .ok)
include hvalid hnet

/-- A queue request whose home is valid and whose path is clear reaches its queue (R389, R400). -/
theorem State.queueReach_ok {act : State} : s.queueReach o p hd act = act := by
  simp only [State.queueReach, hvalid, hnet, Bool.not_true, Bool.false_eq_true, if_false]

theorem State.performOp_enq (hk : p.kind = .enq hd v) : s.performOp o p = s.enqDo o p hd v := by
  simp only [State.performOp, State.queueDo, hk, State.queueReach_ok hvalid hnet]

theorem State.performOp_deq (hk : p.kind = .deq hd) : s.performOp o p = s.deqDo o p hd := by
  simp only [State.performOp, State.queueDo, hk, State.queueReach_ok hvalid hnet]

theorem State.performOp_len (hk : p.kind = .len hd) : s.performOp o p = s.lenDo o hd := by
  simp only [State.performOp, State.queueDo, hk, State.queueReach_ok hvalid hnet]

end

/-! ### Bank queues -/

theorem handleQueue_mc {hd : Word} (h : isMC (vaHome hd) = true) : handleQueue hd = some (vaHome hd - 0x180, hd.toNat % 4096) := by
  simp only [handleQueue, h, if_true]

/-- An operation's completion leaves the memory chiplets as they are, whether it arrives or is lost (R401). -/
@[simp] theorem State.opDone_mcs (v : Word) : (s.opDone o v).mcs = s.mcs := by
  unfold State.opDone
  split <;> rfl

@[simp] theorem State.enqWaiters_opDone (v : Word) (m q : Nat) : (s.opDone o v).enqWaiters m q = s.enqWaiters m q := by
  simp only [State.enqWaiters, State.mc, State.opDone_mcs]

/-- A new descriptor keeps the enqueuers that wait at its queue. -/
@[simp] theorem State.enqWaiters_putBankQueue (m q : Nat) (d : BitVec 128) :
    (s.putBankQueue m q d).enqWaiters m q = s.enqWaiters m q := by
  simp [State.enqWaiters, State.mc, State.putBankQueue, State.modMc]

theorem State.enqNext_none {m q : Nat} (h : s.enqWaiters m q = []) : s.enqNext m q = s := by
  simp only [State.enqNext, h]

/-- An enqueue that no dequeuer waits for stays at TAIL, and answers the new length (R246). -/
theorem State.enqPlace_stays {m q k : Nat} {v : Word} (h : s.deqWaiters m q = []) :
    s.enqPlace o m q k v =
      ((s.putNat k 8 v.toNat).putBankQueue m q (bqSetTail (s.bankQueue m q) (bqTail (s.bankQueue m q) + 1))).opDone o
        (BitVec.ofNat 64 (bqLen (bqSetTail (s.bankQueue m q) (bqTail (s.bankQueue m q) + 1)))) := by
  simp only [State.enqPlace, h]

section
variable {hd v : Word} {m q : Nat} (hq : handleQueue hd = some (m, q))
include hq

section
variable (hoff : bqOk (s.bankQueue m q) = false)
include hoff

theorem State.enqDo_off : s.enqDo o p hd v = s.opFail o 7 9 0 0#64 := by
  simp only [State.enqDo, hq, hoff, Bool.not_false, if_true]

theorem State.deqDo_off : s.deqDo o p hd = s.opFail o 7 9 0 0#64 := by
  simp only [State.deqDo, hq, hoff, Bool.not_false, if_true]

theorem State.lenDo_off : s.lenDo o hd = s.opFail o 7 9 0 0#64 := by
  simp only [State.lenDo, hq, hoff, Bool.false_eq_true, if_false]

end

section
variable (hon : bqOk (s.bankQueue m q) = true)
include hon

theorem State.lenDo_on : s.lenDo o hd = s.opDone o (BitVec.ofNat 64 (bqLen (s.bankQueue m q))) := by
  simp only [State.lenDo, hq, hon, if_true]

/-- An enqueue waits at a full queue (R246). -/
theorem State.enqDo_full (hfull : 2 ^ bqLog (s.bankQueue m q) ≤ bqLen (s.bankQueue m q)) :
    s.enqDo o p hd v = (s.modOp o fun x => { x with st := .waiting }).modMc m fun x =>
      { x with enqWait := tset x.enqWait q (tgetD x.enqWait q [] ++ [o]) } := by
  simp only [State.enqDo, hq, hon, hfull, Bool.not_true, Bool.false_eq_true, if_false, if_true]

theorem State.enqDo_room (hroom : bqLen (s.bankQueue m q) < 2 ^ bqLog (s.bankQueue m q)) :
    s.enqDo o p hd v = s.atBank o p .amo (bqEntry hd (s.bankQueue m q) (bqTail (s.bankQueue m q))) 8 fun k t =>
      t.enqPlace o m q k v := by
  simp only [State.enqDo, hq, hon, Nat.not_le.mpr hroom, Bool.not_true, Bool.false_eq_true, if_false]

/-- A dequeue waits at an empty queue (R246). -/
theorem State.deqDo_empty (hempty : bqLen (s.bankQueue m q) = 0) :
    s.deqDo o p hd = (s.modOp o fun x => { x with st := .waiting }).modMc m fun x =>
      { x with deqWait := tset x.deqWait q (tgetD x.deqWait q [] ++ [o]) } := by
  simp only [State.deqDo, hq, hon, hempty, Bool.not_true, Bool.false_eq_true, if_false, if_true]

theorem State.deqDo_entry (hsome : bqLen (s.bankQueue m q) ≠ 0) :
    s.deqDo o p hd = s.atBank o p .amo (bqEntry hd (s.bankQueue m q) (bqHead (s.bankQueue m q))) 8 fun k t =>
      ((t.putBankQueue m q (bqSetHead (s.bankQueue m q) (bqHead (s.bankQueue m q) + 1))).opDone o
        (BitVec.ofNat 64 (t.natAt k 8))).enqNext m q := by
  simp only [State.deqDo, hq, hon, hsome, Bool.not_true, Bool.false_eq_true, if_false]

end
end

/-! ### The holder of a group's object -/

/-- A bwait of the group's own object completes where its token is not the phase, and joins the object's waits where it is (R251). -/
theorem State.bwaitDo_group {x : Hart} {g : Group} {token : BitVec 32} (hx : s.hart? p.hart = some x) (hg : s.groupOf? x = some g) :
    s.bwaitDo o p 0#64 token =
      if g.bar.phase ≠ token then s.opDone o ((g.bar.phase - token).setWidth 64)
      else (s.modOp o fun q => { q with st := .waiting }).modGroup x.group fun y =>
        { y with bar := { y.bar with waits := y.bar.waits ++ [(o, token)] } } := by
  have hphase : s.heldPhase x 0 = g.bar.phase := by simp only [State.heldPhase, hg, if_true]
  by_cases h : g.bar.phase = token <;> simp [State.bwaitDo, State.bwaitTest, hx, hphase, h]

end

/-- Settles O50: the operation is on its way and its release is done, so the event performs it, and what it then does is the branch that
the hypotheses choose. A dequeue that finds no waiting enqueuer finds none after its own completion either. -/
theorem bankEvents : Obligations.BankEvents := by
  unfold Obligations.BankEvents
  intro s p hp hi hl hgate hdrained o iface here
  have performed {ok : OpKind → Bool} {t : State} (hok : ok p.kind = true) (ht : s.performOp o p = t) :
      (.next (doOpEvent ok s) : Host.Outcome State Fault Refusal) = .next t :=
    next_of_eq ((doOpEvent_ready hp hi hl hgate hdrained hok).trans ht)
  refine ⟨?bank, ?vred, fun hd v hmc hvalid hnet => ?queue, ?bwait⟩
  case bank =>
    intro fn dbl va v e k t hk hhere
    exact performed (by simp only [hk]) ((State.performOp_bank hk).trans (State.atBank_at hhere))
  case vred =>
    intro fn va lanes k t hk hhere
    exact performed (by simp only [hk]) ((State.performOp_vred hk).trans (State.atBank_at hhere))
  case queue =>
    have hq := handleQueue_mc hmc
    have enq {t : State} (hk : p.kind = .enq hd v) (ht : s.enqDo o p hd v = t) : exec .queueEnqueue s = .next t :=
      performed (by simp only [hk]) ((State.performOp_enq hvalid hnet hk).trans ht)
    have deq {t : State} (hk : p.kind = .deq hd) (ht : s.deqDo o p hd = t) : exec .queueDequeue s = .next t :=
      performed (by simp only [hk]) ((State.performOp_deq hvalid hnet hk).trans ht)
    have len {t : State} (hk : p.kind = .len hd) (ht : s.lenDo o hd = t) : exec .queueLength s = .next t :=
      performed (by simp only [hk]) ((State.performOp_len hvalid hnet hk).trans ht)
    refine ⟨fun hoff => ⟨fun hk => enq hk (State.enqDo_off hq hoff), fun hk => deq hk (State.deqDo_off hq hoff),
      fun hk => len hk (State.lenDo_off hq hoff)⟩, fun hon => ⟨fun hk => len hk (State.lenDo_on hq hon),
      fun hk hfull => enq hk (State.enqDo_full hq hon hfull), fun k t hk hroom hhere hsame hnone => enq hk ?placed,
      fun hk hempty => deq hk (State.deqDo_empty hq hon hempty), fun k t hk hsome hhere hnone => deq hk ?taken⟩⟩
    case placed =>
      rw [State.enqDo_room hq hon hroom, State.atBank_at hhere, State.enqPlace_stays hnone, hsame]
    case taken =>
      rw [State.deqDo_entry hq hon hsome, State.atBank_at hhere]
      exact State.enqNext_none (by simpa using hnone)
  case bwait =>
    intro x g token hx hg hk
    have hdo := (State.performOp_bwait (o := o) hk).trans (State.bwaitDo_group hx hg)
    exact ⟨fun h => performed (by simp only [hk]) (hdo.trans (if_pos h)),
      fun h => performed (by simp only [hk]) (hdo.trans (if_neg (not_not_intro h)))⟩

end Sys2Proof.Machine
end

section
/-! SUPPORT. What the gate of a fence asks, and which scope each fence has (R99, R102, R103, R242). -/

namespace Sys2Proof.Machine

section
variable {s : State} {x : Hart} {h : Nat} {sc : Scope}

/-! ### The gate of a fence -/

theorem scopeWaits_eq_false_iff : scopeWaits sc = false ↔ sc = .hart := by
  cases sc <;> simp [scopeWaits]

/-- A hart whose fence has drained nothing yet passes once its accesses are complete and no older entry of the scope stands (R99). -/
theorem State.fenceGate_unsnapped (hs : x.snap = none) :
    s.fenceGate h x sc = none ↔ sc = .hart ∨ s.incomplete h = [] ∧ s.olderEntries h x sc = [] := by
  rw [← scopeWaits_eq_false_iff]
  cases hw : scopeWaits sc with
  | false => simp [State.fenceGate, hw]
  | true =>
    by_cases hi : s.incomplete h = []
    · by_cases ho : s.olderEntries h x sc = [] <;> simp [State.fenceGate, hw, hs, hi, ho]
    · simp [State.fenceGate, hw, hs, hi]

/-- A hart whose fence has begun to drain entries passes once these have drained. -/
theorem State.fenceGate_snapped {ids : List Nat} (hs : x.snap = some ids) :
    s.fenceGate h x sc = none ↔ sc = .hart ∨ ∀ e ∈ ids, s.liveId e = false := by
  rw [← scopeWaits_eq_false_iff]
  cases hw : scopeWaits sc <;> simp [State.fenceGate, State.gateClear, hw, hs]

/-! ### The scope of a FENCE -/

theorem and_0xC_ne_zero_iff (p : BitVec 4) : p &&& 0xC#4 ≠ 0#4 ↔ (p.getLsbD 3 || p.getLsbD 2) = true := by
  revert p
  decide

/-- A FENCE with an empty set asks for nothing (R103). -/
theorem fenceScope_empty {pred succ : BitVec 4} (h : pred = 0#4 ∨ succ = 0#4) : fenceScope pred succ = none := if_pos h

/-- A FENCE with I or O in a set asks for the system, and every other one that asks at all for the module (R103). -/
theorem fenceScope_some {pred succ : BitVec 4} (h : fenceScope pred succ = some sc) :
    (if (pred.getLsbD 3 || pred.getLsbD 2 || succ.getLsbD 3 || succ.getLsbD 2) = true then .sys else .md) = sc := by
  have hbits : (pred.getLsbD 3 || pred.getLsbD 2 || succ.getLsbD 3 || succ.getLsbD 2) = true ↔
      pred &&& 0xC#4 ≠ 0#4 ∨ succ &&& 0xC#4 ≠ 0#4 := by
    simp only [and_0xC_ne_zero_iff, Bool.or_eq_true, or_assoc]
  by_cases he : pred = 0#4 ∨ succ = 0#4
  · exact nomatch (fenceScope_empty he).symm.trans h
  · rw [fenceScope, if_neg he, ← apply_ite some] at h
    simpa only [hbits] using Option.some.inj h

/-- A FENCE retires once the gate of its scope passes, and one with an empty set at once. -/
theorem fence_retires {pred succ fm : BitVec 4} {rd rs1 : RegIdx} (r : Ready s x (xNames [] [] .leaves))
    (hg : ∀ sc, fenceScope pred succ = some sc → s.fenceGate s.cur x sc = none) : Retires (.fence fm pred succ rd rs1) s x x := by
  cases hsc : fenceScope pred succ with
  | none => exact ok_ok r rfl rfl (by simp only [hsc])
  | some sc => exact fence_ok r rfl (hg sc hsc) rfl (by simp only [hsc])

/-! ### SFENCE.VMA -/

theorem exec_sfenceVma_user {rs1 rs2 : RegIdx} (hx : s.hart? s.cur = some x) (hu : x.priv = .u) :
    exec (.sfenceVma rs1 rs2) s = .next (runHart (.sfenceVma rs1 rs2) (xNames [] [] .alone)
      (fun _ _ t => .trap 2 (bitsOfEnc (encode (.sfenceVma rs1 rs2))) 0 t) s) := by
  refine next_of_eq ?_
  simp only [hx, hu, BEq.rfl, if_true]

theorem exec_sfenceVma_super {rs1 rs2 : RegIdx} (hx : s.hart? s.cur = some x) (hu : x.priv ≠ .u) :
    exec (.sfenceVma rs1 rs2) s =
      .next (runHart (.sfenceVma rs1 rs2) (xNames [rs1, rs2] [] .leaves) (fenceRes .md .ok) s) := by
  refine next_of_eq ?_
  simp only [hx, beq_eq_false_iff_ne.mpr hu, Bool.false_eq_true, if_false]

end

/-- Settles O19: a fence retires once the gate of its scope passes, and the gate is what the hart's earlier accesses and the entries that
it drains come to. -/
theorem fences : Obligations.Fences := by
  unfold Obligations.Fences
  intro s x sc fm pred succ imm rd rs1 rs2
  refine ⟨fun r => ⟨?fenceS, ?empty, ?io, fun hg => ⟨?memory, ?tso, ?fenceI⟩⟩, ?super, ?user, ?gate⟩
  case fenceS => exact fun hg => fence_ok r rfl hg rfl rfl
  case empty => exact fun h => fence_retires r fun sc hsc => nomatch (fenceScope_empty h).symm.trans hsc
  case io =>
    refine fun hio hg => fence_retires r fun sc hsc => ?_
    obtain rfl : .sys = sc := (if_pos hio).symm.trans (fenceScope_some hsc)
    exact hg
  case memory =>
    refine fun hio => fence_retires r fun sc hsc => ?_
    obtain rfl : .md = sc := (if_neg (Bool.eq_false_iff.mp hio)).symm.trans (fenceScope_some hsc)
    exact hg
  case tso => exact fence_ok r rfl hg rfl rfl
  case fenceI => exact settle_at r rfl _ rfl (by simp only [fenceRes, hg])
  case super => exact fun r hu hg => fence_ok r rfl hg (exec_sfenceVma_super r.hart hu) rfl
  case user => exact fun r hu => traps_of (exec_sfenceVma_user r.hart hu) r rfl
  case gate =>
    cases hs : x.snap with
    | none => exact State.fenceGate_unsnapped hs
    | some ids => exact State.fenceGate_snapped hs

end Sys2Proof.Machine
end

section
/-! SUPPORT. What the relaxed and acquire loads run (R94, R97, R101, R188, R243). -/

namespace Sys2Proof.Machine

section
variable {s : State} {x : Hart} {i : Instr} {F : RelaxedForm}

theorem Hart.dmAddr_one (rs1 : RegIdx) (off : BitVec 7) : x.dmAddr rs1 off 1 = x.rx rs1 + off.signExtend 64 :=
  congrArg (x.rx rs1 + ·) (BitVec.mul_one _)

/-- What an instruction runs that is a relaxed load: where its address is no multiple of its width it traps, and else it issues its
pieces where R94 lets it. -/
def RunsLoad (i : Instr) (s : State) (x : Hart) (F : RelaxedForm) : Prop :=
  ∃ body, exec i s = .next (runHart i F.names body s) ∧
    (F.addr.toNat % F.width = 0 → body s.cur x s = relaxedLoad s s.cur x F.wants F.dest (formOf i) F.kind) ∧
    (F.addr.toNat % F.width ≠ 0 → body s.cur x s = .trap 4 F.addr 0 s)

/-- A load that may stand at any address. -/
theorem runsLoad_relaxed {body : Nat → Hart → State → Res} (he : exec i s = .next (runHart i F.names body s)) (hw : F.width = 1)
    (hb : body s.cur x s = relaxedLoad s s.cur x F.wants F.dest (formOf i) F.kind) : RunsLoad i s x F :=
  ⟨body, he, fun _ => hb, fun h => absurd (hw ▸ Nat.mod_one _) h⟩

/-- An acquire load (R243). -/
theorem runsLoad_acquire {k : LrxW} {rd rs1 : RegIdx} (he : exec i s = .next (runHart i F.names (acquireRes i k rd rs1) s))
    (hF : F = ⟨F.names, oneWant (x.rx rs1) (.load (lrxBytes k)) .load, .x rd k, 1, x.rx rs1, lrxBytes k⟩) : RunsLoad i s x F := by
  refine ⟨_, he, ?_, ?_⟩ <;> rw [hF]
  · exact fun h => if_neg (not_not_intro h)
  · exact fun h => if_pos h

/-- Every relaxed load runs as its form says, and none is a hint. -/
theorem relaxedForm_runs (h : relaxedForm x i = some F) : F.names.hint = false ∧ RunsLoad i s x F := by
  unfold relaxedForm at h
  -- In the order of the form: lrx, then vld, vlds and vldx, then the acquire loads.
  split at h <;> cases h
  case h_1 => exact ⟨rfl, runsLoad_relaxed rfl rfl (by simp only [Hart.dmAddr_one])⟩
  case h_2 | h_3 | h_4 => exact ⟨rfl, runsLoad_relaxed rfl rfl rfl⟩
  case h_5 | h_6 | h_7 | h_8 => exact ⟨rfl, runsLoad_acquire rfl rfl⟩

end

/-- Settles O17: a relaxed load issues what its form gives it, or an acquire load traps before that. -/
theorem relaxedLoads : Obligations.RelaxedLoads := by
  unfold Obligations.RelaxedLoads
  intro i s x F hF r
  obtain ⟨hint, body, he, haligned, hmisaligned⟩ := relaxedForm_runs (s := s) hF
  refine ⟨fun ha hok => settle_in r hint i _ he ?_, fun hm => traps_of he r (hmisaligned hm)⟩
  rw [haligned ha, relaxedLoad, if_pos hok]
  exact congrArg Res.ok (loadIssue_eq s x F.wants F.dest (formOf i) F.kind r.hart)

end Sys2Proof.Machine
end

section
/-! SUPPORT. What the relaxed and release stores run, and what a store leaves in the post buffer and on its way to window space (R94, R95,
R99, R243). -/

namespace Sys2Proof.Machine

/-! ### The pieces of a store -/

/-- A piece that stores bytes, and perhaps its line's tag. -/
def Want.Stores (w : Want) : Prop := ∃ bytes tag, w.act = .store bytes tag

theorem storeWants_pieces (a : Word) (n : Nat) (bytes : List (Option Byte)) (tag : Option (BitVec 16)) :
    ∀ w ∈ storeWants a n bytes tag, w.Stores := by
  unfold storeWants
  cases cutAt a n with
  | none =>
    dsimp only
    split
    · exact List.forall_mem_nil _
    · exact List.forall_mem_singleton.mpr ⟨_, _, rfl⟩
  | some k =>
    refine List.forall_mem_append.mpr ⟨?_, ?_⟩ <;> split
    · exact List.forall_mem_nil _
    · exact List.forall_mem_singleton.mpr ⟨_, _, rfl⟩
    · exact List.forall_mem_nil _
    · exact List.forall_mem_singleton.mpr ⟨_, _, rfl⟩

theorem Gather.stores_pieces (g : Gather) (val : Nat → W32) : ∀ w ∈ g.stores val, w.Stores := by
  unfold Gather.stores
  split
  · exact List.forall_mem_singleton.mpr ⟨_, _, rfl⟩
  · split
    · exact storeWants_pieces _ _ _ _
    · exact List.forall_mem_nil _

theorem Hart.scatterStores_pieces (x : Hart) (addr : Nat → Word) (v : RegIdx) : ∀ w ∈ x.scatterStores addr v, w.Stores := by
  unfold Hart.scatterStores
  induction x.gathers addr with
  | nil => exact List.forall_mem_nil _
  | cons g gs ih => exact List.forall_mem_append.mpr ⟨g.stores_pieces _, ih⟩

/-! ### What the instructions run -/

section
variable {s : State} {x : Hart} {i : Instr} {F : PostForm}

/-- What a release store does at its issue (R99, R243): it traps, or waits, or its pieces set out behind the older entries of its scope. -/
def State.release (s : State) (x : Hart) (F : PostForm) (sc : Scope) : Res :=
  if F.addr.toNat % F.width ≠ 0 then .trap 6 F.addr 0 s
  else if (scopeWaits sc && !(s.incomplete s.cur).isEmpty) || !(s.relaxedOk s.cur F.wants) || !(s.storeRoom x F.wants) then .wait 9 0#64 s
  else .ok ((s.drain (s.olderEntries s.cur x sc)).storeIssue s.cur x F.wants ⟨4, 0⟩ (s.olderEntries s.cur x sc)
    (sc = .fd || sc = .md || sc = .sys))

/-- What an instruction runs that is a relaxed or a release store. -/
def RunsStore (i : Instr) (s : State) (x : Hart) (F : PostForm) : Prop :=
  ∃ body, exec i s = .next (runHart i F.names body s) ∧
    ((F.rel = none ∧ F.width = 1 ∧ body s.cur x s = relaxedStore s s.cur x F.wants) ∨
      ∃ sc, F.rel = some sc ∧ body s.cur x s = s.release x F sc)

theorem runsStore_relaxed {body : Nat → Hart → State → Res} (he : exec i s = .next (runHart i F.names body s)) (hr : F.rel = none)
    (hw : F.width = 1) (hb : body s.cur x s = relaxedStore s s.cur x F.wants) : RunsStore i s x F :=
  ⟨body, he, .inl ⟨hr, hw, hb⟩⟩

theorem runsStore_release {sc : Scope} {n : Nat} {rs2 rs1 : RegIdx}
    (he : exec i s = .next (runHart i F.names (releaseRes sc n rs2 rs1) s))
    (hF : F = ⟨F.names, postForm.relWants x n rs2 rs1, some sc, x.rx rs1, n⟩) : RunsStore i s x F := by
  refine ⟨_, he, .inr ⟨sc, by rw [hF], ?_⟩⟩
  rw [hF]
  cases sc <;> rfl

/-- Every relaxed or release store runs as its form says, none is a hint, and all its pieces store. -/
theorem postForm_runs (h : postForm x i = some F) : F.names.hint = false ∧ (∀ w ∈ F.wants, w.Stores) ∧ RunsStore i s x F := by
  unfold postForm at h
  -- In the order of the form: srx, then vst, then vsts and vstx, then the release stores.
  split at h <;> cases h
  case h_1 => exact ⟨rfl, storeWants_pieces _ _ _ _, runsStore_relaxed rfl rfl rfl (by simp only [Hart.dmAddr_one, storeData])⟩
  case h_2 => exact ⟨rfl, storeWants_pieces _ _ _ _, runsStore_relaxed rfl rfl rfl rfl⟩
  case h_3 | h_4 => exact ⟨rfl, x.scatterStores_pieces _ _, runsStore_relaxed rfl rfl rfl rfl⟩
  case h_5 | h_6 | h_7 | h_8 =>
    exact ⟨rfl, List.forall_mem_singleton.mpr ⟨_, _, rfl⟩, runsStore_release rfl rfl⟩

end

end Sys2Proof.Machine
end

section
/-! SUPPORT. What a store leaves in the post buffer of its hart's cluster (R95). -/

namespace Sys2Proof.Machine

/-! ### Members of tables -/

theorem mem_of_tget {α : Type} {l : Table α} {k : Nat} {v : α} (h : tget l k = some v) : (k, v) ∈ l := by
  induction l with
  | nil => cases h
  | cons p r ih =>
    rw [tget] at h
    split at h
    · rename_i hk
      exact List.mem_cons.mpr (.inl (Prod.ext hk.symm (Option.some.inj h).symm))
    · exact List.mem_cons_of_mem _ (ih h)

theorem mem_tset_self {α : Type} (t : Table α) (k : Nat) (v : α) : (k, v) ∈ tset t k v := by
  induction t with
  | nil => exact List.mem_singleton_self _
  | cons p r ih =>
    rw [tset]
    split_ifs
    · exact List.mem_cons_self
    · exact List.mem_cons_self
    · exact List.mem_cons_of_mem _ ih

theorem mem_tset_of_ne {α : Type} {t : Table α} {k : Nat} {v : α} {p : Nat × α} (hp : p ∈ t) (hk : p.1 ≠ k) : p ∈ tset t k v := by
  induction t with
  | nil => cases hp
  | cons q r ih =>
    rw [tset]
    split_ifs with hlt heq
    · exact List.mem_cons_of_mem _ hp
    · refine List.mem_cons_of_mem _ ((List.mem_cons.mp hp).resolve_left fun e => hk ?_)
      rw [e, heq]
    · exact List.mem_cons.mpr ((List.mem_cons.mp hp).imp_right ih)

theorem mem_of_mem_tset {α : Type} {t : Table α} {k : Nat} {v : α} {p : Nat × α} (hp : p ∈ tset t k v) : p = (k, v) ∨ p ∈ t := by
  induction t with
  | nil => exact .inl (List.mem_singleton.mp hp)
  | cons q r ih =>
    rw [tset] at hp
    split_ifs at hp
    · exact (List.mem_cons.mp hp)
    · exact (List.mem_cons.mp hp).imp_right (List.mem_cons_of_mem _)
    · obtain e | hr := List.mem_cons.mp hp
      · exact .inr (e ▸ List.mem_cons_self)
      · exact (ih hr).imp_right (List.mem_cons_of_mem _)

theorem forall₂_mem_left {α β : Type} {R : α → β → Prop} {l : List α} {m : List β} (h : List.Forall₂ R l m) :
    ∀ a ∈ l, ∃ b ∈ m, R a b := by
  induction h with
  | nil => exact List.forall_mem_nil _
  | @cons a b _ _ hr _ ih =>
    refine List.forall_mem_cons.mpr ⟨⟨b, List.mem_cons_self, hr⟩, fun c hc => ?_⟩
    obtain ⟨d, hd, hcd⟩ := ih c hc
    exact ⟨d, List.mem_cons_of_mem _ hd, hcd⟩

theorem forall₂_mem_right {α β : Type} {R : α → β → Prop} {l : List α} {m : List β} (h : List.Forall₂ R l m) :
    ∀ b ∈ m, ∃ a ∈ l, R a b := forall₂_mem_left h.flip

theorem forall₂_tmod {α : Type} {R : Nat × α → Nat × α → Prop} (hr : ∀ p, R p p) {k : Nat} {f : α → α} (hf : ∀ p, R p (p.1, f p.2))
    (t : Table α) : List.Forall₂ R t (tmod t k f) := by
  induction t with
  | nil => exact .nil
  | cons p r ih =>
    rw [tmod]
    split
    · exact .cons (hf p) (List.forall₂_same.mpr fun q _ => hr q)
    · exact .cons (hr p) ih

/-! ### Entries that only grow -/

/-- An entry that has kept its cluster, its line and its owners, and may have won bytes and further owners. -/
structure GrowsTo (p q : Nat × PbEnt) : Prop where
  id : q.1 = p.1
  cluster : q.2.cluster = p.2.cluster
  line : q.2.line = p.2.line
  owners : p.2.owners ⊆ q.2.owners

theorem GrowsTo.refl (p : Nat × PbEnt) : GrowsTo p p := ⟨rfl, rfl, rfl, List.Subset.refl _⟩

/-- The post buffers of `t` are those of `s`, entry by entry, and no entry has been taken. -/
structure State.PbGrows (s t : State) : Prop where
  nextId : t.nextId = s.nextId
  entries : List.Forall₂ GrowsTo s.pb t.pb

theorem State.drain_grows (s : State) (ids : List Nat) : s.PbGrows (s.drain ids) := by
  refine ⟨rfl, List.forall₂_map_right_iff.mpr (List.forall₂_same.mpr fun p _ => ?_)⟩
  split
  · exact ⟨rfl, rfl, rfl, List.Subset.refl _⟩
  · exact GrowsTo.refl p

@[simp] theorem State.drain_nil (s : State) : s.drain [] = s := by
  simp [State.drain]

/-! ### The entry that a piece enters -/

section
variable {s t : State} {h : Nat} {x : Hart} {a line : Word} {bytes : List (Option Byte)} {tag : Option (BitVec 16)} {gate : List Nat}
  {rel : Bool} {cl : Nat}

/-- A piece has merged into an entry of its line. -/
structure State.MergesTo (s t : State) (line : Word) : Prop where
  entry : ∃ p ∈ s.pb, p.2.line = line
  grows : s.PbGrows t
  rest : ∃ pb, t = { s with pb := pb }

/-- A piece has taken a new entry of its line. -/
def State.EntersTo (s t : State) (h cl : Nat) (line : Word) : Prop :=
  ∃ e : PbEnt, e.cluster = cl ∧ e.line = line ∧ h ∈ e.owners ∧ t = { s with nextId := s.nextId + 1, pb := tset s.pb s.nextId e }

theorem State.pbMerge_mem {id : Nat} (hm : s.pbMerge x line gate = some id) : ∃ p ∈ s.pb, p.2.line = line := by
  unfold State.pbMerge at hm
  split at hm
  · cases hm
  · rename_i l _
    split at hm
    · rename_i id' e hlast
      have he := List.mem_of_getLast? hlast
      obtain ⟨hpb, hline⟩ := List.mem_filter.mp he
      exact ⟨_, (List.mem_filter.mp hpb).1, eq_of_beq hline⟩
    · cases hm

/-- What accepting a piece does: it merges or takes a new entry, and then entries may begin to drain (R96). -/
theorem State.pbAccept_cases (s : State) (h : Nat) (x : Hart) (a : Word) (bytes : List (Option Byte)) (tag : Option (BitVec 16))
    (gate : List Nat) (rel : Bool) : ∃ (t : State) (ids : List Nat), s.pbAccept h x a bytes tag gate rel = t.drain ids ∧
      (s.MergesTo t (lineOf a) ∨ s.EntersTo t h x.cluster (lineOf a)) := by
  unfold State.pbAccept
  extract_lets line bs rels e t n
  have ht : s.MergesTo t line ∨ s.EntersTo t h x.cluster line := by
    cases hm : (if tag.isSome then none else s.pbMerge x line gate) with
    | none => 
      right
      simp only [t, hm]
      exact ⟨_, rfl, rfl, List.mem_singleton_self h, rfl⟩
    | some id =>
      left
      simp only [t, hm]
      have hm' : s.pbMerge x line gate = some id := by
        split at hm
        · cases hm
        · exact hm
      refine ⟨State.pbMerge_mem hm', ⟨rfl, forall₂_tmod GrowsTo.refl (fun p => ⟨rfl, rfl, rfl, ?_⟩) _⟩, _, rfl⟩
      dsimp only
      split
      · exact List.Subset.refl _
      · exact List.subset_append_left _ _
  by_cases hn : 448 ≤ n
  · exact ⟨t, _, if_pos hn, ht⟩
  · exact ⟨t, [], (if_neg hn).trans t.drain_nil.symm, ht⟩

/-! ### Whose the entries of a line are -/

/-- An entry of the hart's own in its cluster's buffer, which no later entry replaces. -/
def State.Mine (s : State) (h cl : Nat) (p : Nat × PbEnt) : Prop := p.1 < s.nextId ∧ p.2.cluster = cl ∧ h ∈ p.2.owners

/-- Every entry of these lines is the hart's own. -/
def State.OwnsLines (s : State) (h cl : Nat) (lines : List Word) : Prop := ∀ p ∈ s.pb, p.2.line ∈ lines → s.Mine h cl p

/-- The hart has an entry of its own of this line. -/
def State.HoldsLine (s : State) (h cl : Nat) (line : Word) : Prop := ∃ p ∈ s.pb, p.2.line = line ∧ s.Mine h cl p

theorem State.Mine.grows {p q : Nat × PbEnt} (hm : s.Mine h cl p) (hn : t.nextId = s.nextId) (hg : GrowsTo p q) : t.Mine h cl q := by
  obtain ⟨hlt, hcl, hown⟩ := hm
  obtain ⟨hid, hcluster, _, howners⟩ := hg
  exact ⟨hid ▸ hn ▸ hlt, hcluster.trans hcl, howners hown⟩

theorem State.PbGrows.owns {lines : List Word} (hg : s.PbGrows t) (ho : s.OwnsLines h cl lines) : t.OwnsLines h cl lines := by
  intro q hq hl
  obtain ⟨p, hp, hpq⟩ := forall₂_mem_right hg.entries q hq
  exact (ho p hp (hpq.line ▸ hl)).grows hg.nextId hpq

theorem State.PbGrows.holds (hg : s.PbGrows t) (hh : s.HoldsLine h cl line) : t.HoldsLine h cl line := by
  obtain ⟨p, hp, hl, hm⟩ := hh
  obtain ⟨q, hq, hpq⟩ := forall₂_mem_left hg.entries p hp
  exact ⟨q, hq, hpq.line.trans hl, hm.grows hg.nextId hpq⟩

theorem State.EntersTo.owns {lines : List Word} (he : s.EntersTo t h cl line) (ho : s.OwnsLines h cl lines) :
    t.OwnsLines h cl lines := by
  obtain ⟨e, hcl, _, hown, rfl⟩ := he
  intro q hq hl
  obtain rfl | hq := mem_of_mem_tset hq
  · exact ⟨Nat.lt_succ_self _, hcl, hown⟩
  · obtain ⟨hlt, hrest⟩ := ho q hq hl
    exact ⟨Nat.lt_succ_of_lt hlt, hrest⟩

theorem State.EntersTo.holds {line' : Word} (he : s.EntersTo t h cl line') (hh : s.HoldsLine h cl line) : t.HoldsLine h cl line := by
  obtain ⟨e, _, _, _, rfl⟩ := he
  obtain ⟨p, hp, hl, hlt, hrest⟩ := hh
  exact ⟨p, mem_tset_of_ne hp (Nat.ne_of_lt hlt), hl, Nat.lt_succ_of_lt hlt, hrest⟩

theorem State.EntersTo.held (he : s.EntersTo t h cl line) : t.HoldsLine h cl line := by
  obtain ⟨e, hcl, hl, hown, rfl⟩ := he
  exact ⟨_, mem_tset_self _ _ _, hl, Nat.lt_succ_self _, hcl, hown⟩

/-- Where every entry of a line is the hart's own, a piece of the line that it has accepted stands in one. -/
theorem State.pbAccept_held {lines : List Word} (ho : s.OwnsLines h x.cluster lines) (hl : lineOf a ∈ lines) :
    (s.pbAccept h x a bytes tag gate rel).HoldsLine h x.cluster (lineOf a) := by
  obtain ⟨t, ids, heq, hm | he⟩ := s.pbAccept_cases h x a bytes tag gate rel <;> rw [heq] <;> refine (t.drain_grows ids).holds ?_
  · obtain ⟨⟨p, hp, hline⟩, hgrows, _⟩ := hm
    exact hgrows.holds ⟨p, hp, hline, ho p hp (hline ▸ hl)⟩
  · exact he.held

theorem State.pbAccept_owns {lines : List Word} (ho : s.OwnsLines h x.cluster lines) :
    (s.pbAccept h x a bytes tag gate rel).OwnsLines h x.cluster lines := by
  obtain ⟨t, ids, heq, hm | he⟩ := s.pbAccept_cases h x a bytes tag gate rel <;> rw [heq] <;> refine (t.drain_grows ids).owns ?_
  · exact hm.grows.owns ho
  · exact he.owns ho

theorem State.pbAccept_holds (hh : s.HoldsLine h x.cluster line) :
    (s.pbAccept h x a bytes tag gate rel).HoldsLine h x.cluster line := by
  obtain ⟨t, ids, heq, hm | he⟩ := s.pbAccept_cases h x a bytes tag gate rel <;> rw [heq] <;> refine (t.drain_grows ids).holds ?_
  · exact hm.grows.holds hh
  · exact he.holds hh

/-- Accepting a piece changes the post buffers alone. -/
theorem State.pbAccept_rest : ∃ pb n, s.pbAccept h x a bytes tag gate rel = { s with pb := pb, nextId := n } := by
  obtain ⟨t, ids, heq, ⟨_, _, pb, rfl⟩ | ⟨e, _, _, _, rfl⟩⟩ := s.pbAccept_cases h x a bytes tag gate rel <;>
    exact ⟨_, _, heq⟩

/-! ### The pieces of a store -/

/-- The post buffer accepts a piece of a store. -/
def State.accept (s : State) (h : Nat) (x : Hart) (gate : List Nat) (rel : Bool) (w : Want) : State :=
  match w.act with
  | .store bytes tag => s.pbAccept h x w.va bytes tag gate rel
  | _ => s

theorem Want.Stores.accept {w : Want} (hw : w.Stores) : ∃ bytes tag, s.accept h x gate rel w = s.pbAccept h x w.va bytes tag gate rel := by
  obtain ⟨bytes, tag, hact⟩ := hw
  exact ⟨bytes, tag, by simp only [State.accept, hact]⟩

/-- The pieces of a store that it accepts, one after another: where every entry of their lines is the hart's own, each stands in one. -/
theorem State.accepts_held {ws : List Want} (hws : ∀ w ∈ ws, w.Stores) {lines : List Word} (hlines : ∀ w ∈ ws, lineOf w.va ∈ lines)
    (ho : s.OwnsLines h x.cluster lines) {w : Want} (hw : w ∈ ws ∨ s.HoldsLine h x.cluster (lineOf w.va)) :
    (ws.foldl (fun a w => a.accept h x gate rel w) s).HoldsLine h x.cluster (lineOf w.va) := by
  induction ws generalizing s with
  | nil => exact hw.resolve_left List.not_mem_nil
  | cons v vs ih =>
    obtain ⟨hv, hvs⟩ := List.forall_mem_cons.mp hws
    obtain ⟨hlv, hlvs⟩ := List.forall_mem_cons.mp hlines
    obtain ⟨bytes, tag, hacc⟩ := hv.accept (s := s) (h := h) (x := x) (gate := gate) (rel := rel)
    rw [List.foldl_cons, hacc]
    refine ih hvs hlvs (State.pbAccept_owns ho) ?_
    obtain hw | hheld := hw
    · obtain rfl | hw := List.mem_cons.mp hw
      · exact .inr (State.pbAccept_held ho hlv)
      · exact .inl hw
    · exact .inr (State.pbAccept_holds hheld)

theorem State.accepts_rest (ws : List Want) : ∃ pb n, ws.foldl (fun a w => a.accept h x gate rel w) s = { s with pb := pb, nextId := n } := by
  induction ws generalizing s with
  | nil => exact ⟨_, _, rfl⟩
  | cons v vs ih =>
    have hstep : ∃ pb n, s.accept h x gate rel v = { s with pb := pb, nextId := n } := by
      unfold State.accept
      split
      · exact State.pbAccept_rest
      · exact ⟨_, _, rfl⟩
    obtain ⟨pb, n, hv⟩ := hstep
    obtain ⟨pb', n', hvs⟩ := ih (s := s.accept h x gate rel v)
    exact ⟨pb', n', by rw [List.foldl_cons, hvs, hv]⟩

end

end Sys2Proof.Machine
end

section
/-! SUPPORT. What the issue of a store leaves, and what relaxed and release stores come to (R94, R95, R99, R243). -/

namespace Sys2Proof.Machine

section
variable {s : State} {h : Nat} {x : Hart} {ws : List Want} {fo : FormOp} {gate : List Nat} {rel : Bool}

/-! ### The issue of a store -/

theorem State.storeIssue_eq :
    s.storeIssue h x ws fo gate rel =
      let win := ws.filter fun w => inWindowSpace w.va
      let t := (ws.filter fun w => !inWindowSpace w.va).foldl (fun a w => a.accept h x gate rel w) (s.modHart h fun y => y.counted ws)
      if win.isEmpty then t
      else { t with
        nextId := t.nextId + 1
        accs := tset t.accs t.nextId ⟨h, none, win.map fun w => ⟨w.va, w.act, .todo, none, !w.first⟩, x.ctx h, gate, fo, 8⟩ } := by
  unfold State.storeIssue
  rw [counts_mod]
  rfl

/-- The issue of a store changes its hart's counter, the post buffers and the accesses under way alone. -/
theorem State.storeIssue_rest :
    ∃ pb accs n, s.storeIssue h x ws fo gate rel = { s.modHart h (fun y => y.counted ws) with pb := pb, accs := accs, nextId := n } := by
  rw [State.storeIssue_eq]
  obtain ⟨pb, n, ht⟩ := State.accepts_rest (s := s.modHart h fun y => y.counted ws) (h := h) (x := x) (gate := gate) (rel := rel)
    (ws.filter fun w => !inWindowSpace w.va)
  dsimp only
  rw [ht]
  split
  · exact ⟨_, _, _, rfl⟩
  · exact ⟨_, _, _, rfl⟩

/-- The pieces outside window space, whose lines had no entry, stand in entries of the hart's own (R95). -/
theorem State.storeIssue_held (hws : ∀ w ∈ ws, w.Stores) (hnew : ∀ v ∈ ws, ∀ e ∈ s.pb, e.2.line ≠ lineOf v.va) {w : Want} (hw : w ∈ ws)
    (hout : inWindowSpace w.va = false) : (s.storeIssue h x ws fo gate rel).HoldsLine h x.cluster (lineOf w.va) := by
  have hsub : ∀ v ∈ ws.filter (fun w => !inWindowSpace w.va), v ∈ ws := fun v hv => (List.mem_filter.mp hv).1
  have howns : (s.modHart h fun y => y.counted ws).OwnsLines h x.cluster (ws.map fun v => lineOf v.va) := by
    intro p hp hl
    obtain ⟨v, hv, hvl⟩ := List.mem_map.mp hl
    exact absurd hvl.symm (hnew v hv p hp)
  have hheld := State.accepts_held (gate := gate) (rel := rel) (fun v hv => hws v (hsub v hv))
    (fun v hv => List.mem_map.mpr ⟨v, hsub v hv, rfl⟩) howns (.inl (List.mem_filter.mpr ⟨hw, by rw [hout]; rfl⟩))
  rw [State.storeIssue_eq]
  dsimp only
  split
  · exact hheld
  · obtain ⟨p, hp, hl, hlt, hrest⟩ := hheld
    exact ⟨p, hp, hl, Nat.lt_succ_of_lt hlt, hrest⟩

/-- The pieces to window space are on their way (R95). -/
theorem State.storeIssue_sent {w : Want} (hw : w ∈ ws) (hin : inWindowSpace w.va = true) :
    ∃ a ∈ (s.storeIssue h x ws fo gate rel).accs, a.2.hart = h ∧ a.2.dst = none ∧
      ∃ p ∈ a.2.pieces, p.va = w.va ∧ p.act = w.act ∧ p.st = .todo := by
  have hwin : w ∈ ws.filter fun w => inWindowSpace w.va := List.mem_filter.mpr ⟨hw, hin⟩
  rw [State.storeIssue_eq]
  dsimp only
  rw [if_neg (by rw [List.isEmpty_iff]; exact List.ne_nil_of_mem hwin)]
  exact ⟨_, mem_tset_self _ _ _, rfl, rfl, _, List.mem_map_of_mem hwin, rfl, rfl, rfl⟩

/-! ### Where a store retires -/

/-- A store that retires once its pieces are issued has left no byte of memory changed, and each piece in the post buffer or on its way. -/
theorem RetiresAt.posts {i : Instr} {old : List Nat} (hx : s.hart? s.cur = some x) (hws : ∀ w ∈ ws, w.Stores)
    (hr : RetiresAt i s ((s.drain old).storeIssue s.cur x ws fo gate rel) x) :
    ∃ t, exec i s = .next t ∧ t.mem = s.mem ∧ t.tags = s.tags ∧
      t.hart? s.cur = some ((x.counted ws).retired (addrPlus x.pc (Instr.len i)) false s.ncyc) ∧
      ∀ w ∈ ws,
        (inWindowSpace w.va = false → (∀ v ∈ ws, ∀ e ∈ s.pb, e.2.line ≠ lineOf v.va) →
          ∃ e ∈ t.pb, e.2.cluster = x.cluster ∧ e.2.line = lineOf w.va ∧ s.cur ∈ e.2.owners) ∧
        (inWindowSpace w.va = true → ∃ a ∈ t.accs, a.2.hart = s.cur ∧ a.2.dst = none ∧
          ∃ p ∈ a.2.pieces, p.va = w.va ∧ p.act = w.act ∧ p.st = .todo) := by
  refine ⟨_, hr, ?mem, ?tags, ?hart, fun w hw => ⟨fun hout hnew => ?held, fun hin => State.storeIssue_sent hw hin⟩⟩
  case held =>
    have hnew' : ∀ v ∈ ws, ∀ e ∈ (s.drain old).pb, e.2.line ≠ lineOf v.va := by
      intro v hv e he
      obtain ⟨p, hp, hpe⟩ := forall₂_mem_right (s.drain_grows old).entries e he
      exact hpe.line ▸ hnew v hv p hp
    obtain ⟨p, hp, hl, _, hcl, hown⟩ := State.storeIssue_held (x := x) (h := s.cur) (fo := fo) (gate := gate) (rel := rel) hws hnew' hw hout
    exact ⟨p, hp, hcl, hl, hown⟩
  all_goals
    obtain ⟨pb, accs, n, ht⟩ := State.storeIssue_rest (s := s.drain old) (h := s.cur) (x := x) (ws := ws) (fo := fo) (gate := gate) (rel := rel)
    rw [ht]
  case mem => rfl
  case tags => rfl
  case hart =>
    have hc : (s.modHart s.cur fun y => y.counted ws).hart? s.cur = some (x.counted ws) := State.hart?_modHart hx _
    exact State.hart?_modHart (s := { (s.drain old).modHart s.cur (fun y => y.counted ws) with pb := pb, accs := accs, nextId := n }) hc _

/-! ### Where a release store goes -/

section
variable {F : PostForm} {sc : Scope}

theorem State.release_misaligned (ha : F.addr.toNat % F.width ≠ 0) : s.release x F sc = .trap 6 F.addr 0 s := if_pos ha

theorem scopeWaits_of_ne (h : sc ≠ .hart) : scopeWaits sc = true :=
  Bool.eq_true_of_not_eq_false fun hf => h (scopeWaits_eq_false_iff.mp hf)

/-- A release beyond its hart waits for every earlier access to complete (the model's reading, log 22). -/
theorem State.release_waits (ha : F.addr.toNat % F.width = 0) (hsc : sc ≠ .hart) (hinc : s.incomplete s.cur ≠ []) :
    s.release x F sc = .wait 9 0#64 s := by
  rw [State.release, if_neg (not_not_intro ha), if_pos]
  simp [scopeWaits_of_ne hsc, hinc]

theorem State.release_issues (ha : F.addr.toNat % F.width = 0) (hok : s.relaxedOk s.cur F.wants = true)
    (hroom : s.storeRoom x F.wants = true) (hinc : sc = .hart ∨ s.incomplete s.cur = []) :
    s.release x F sc = .ok ((s.drain (s.olderEntries s.cur x sc)).storeIssue s.cur x F.wants ⟨4, 0⟩ (s.olderEntries s.cur x sc)
      (sc = .fd || sc = .md || sc = .sys)) := by
  have hgo : (scopeWaits sc && !(s.incomplete s.cur).isEmpty) = false := by
    obtain h | h := hinc
    · simp [scopeWaits_eq_false_iff.mpr h]
    · simp [h]
  rw [State.release, if_neg (not_not_intro ha), hgo, hok, hroom, if_neg (by decide)]

end

end

/-- Settles O18: a relaxed store, or a release that its gate lets go, issues its pieces and retires; what the issue leaves is read off the
post buffer entry by entry. -/
theorem relaxedStores : Obligations.RelaxedStores := by
  unfold Obligations.RelaxedStores
  intro i s x F hF r
  obtain ⟨hint, hws, body, he, ⟨hrel, hwidth, hb⟩ | ⟨sc, hrel, hb⟩⟩ := postForm_runs (s := s) hF
  case inl =>
    have hretires (hok : s.relaxedOk s.cur F.wants = true) (hroom : s.storeRoom x F.wants = true) :
        RetiresAt i s (s.storeIssue s.cur x F.wants ⟨4, 0⟩ [] false) x :=
      settle_at r hint i he (hb.trans (if_pos (by rw [hok, hroom]; rfl)))
    refine ⟨fun _ hok hroom => ⟨fun _ => ?_, fun _ => hretires hok hroom, ?_⟩, ?_, fun ha => absurd (hwidth ▸ Nat.mod_one _) ha⟩
    · exact RetiresAt.posts (old := []) r.hart hws (by rw [State.drain_nil]; exact hretires hok hroom)
    · exact fun sc hsc => nomatch hrel.symm.trans hsc
    · exact fun _ sc hsc => nomatch hrel.symm.trans hsc
  case inr =>
    have hsame {sc' : Scope} (h : F.rel = some sc') : sc' = sc := Option.some.inj (h.symm.trans hrel)
    have hretires (ha : F.addr.toNat % F.width = 0) (hok : s.relaxedOk s.cur F.wants = true) (hroom : s.storeRoom x F.wants = true)
        (hinc : sc = .hart ∨ s.incomplete s.cur = []) :=
      settle_at r hint i he (hb.trans (State.release_issues ha hok hroom hinc))
    refine ⟨fun ha hok hroom => ⟨fun hgo => ?_, ?_, ?_⟩, ?_, fun ha => traps_of he r (hb.trans (State.release_misaligned ha))⟩
    · refine RetiresAt.posts r.hart hws (hretires ha hok hroom ?_)
      obtain h | h | h := hgo
      · exact nomatch hrel.symm.trans h
      · exact .inl (hsame h).symm
      · exact .inr h
    · exact fun h => nomatch hrel.symm.trans h
    · rintro sc' hsc hinc
      obtain rfl := hsame hsc
      exact hretires ha hok hroom hinc
    · rintro ha sc' hsc hne hinc
      obtain rfl := hsame hsc
      rw [he, runHart_ready r, hb, State.release_waits ha hne hinc]
      rfl

end Sys2Proof.Machine
end

section
/-! SUPPORT. What the atomics do at their ports, and what they come to where nothing holds them back (R103, R104). -/

namespace Sys2Proof.Machine

section
variable {s : State} {x : Hart}

/-! ### Old values -/

theorem sextNat_eq {n : Nat} (hn : n ≤ 64) (v : Nat) : sextNat n v = ((BitVec.ofNat 64 v).setWidth n).signExtend 64 := by
  have hlow : ((BitVec.ofNat 64 v).setWidth n).toNat = v % 2 ^ n := by
    rw [BitVec.toNat_setWidth, BitVec.toNat_ofNat, Nat.mod_mod_of_dvd _ (Nat.pow_dvd_pow 2 hn)]
  have hpow : 2 ^ n ≤ 2 ^ 64 := Nat.pow_le_pow_right (by decide) hn
  have hlt : v % 2 ^ n < 2 ^ n := Nat.mod_lt _ (Nat.two_pow_pos n)
  apply BitVec.eq_of_toNat_eq
  rw [BitVec.toNat_signExtend, BitVec.msb_eq_decide, BitVec.toNat_setWidth, hlow, sextNat]
  simp only [decide_eq_true_eq]
  split
  · rw [BitVec.toNat_ofNat]
    omega
  · rw [BitVec.toNat_ofNat, Nat.add_zero]

/-- What rd receives from an atomic (R104). -/
theorem amoDest_eq (dbl : Bool) (rd : RegIdx) (bs : List Byte) (y : Hart) :
    amoDest dbl rd bs y = y.wx rd (((BitVec.ofNat 64 (natOfBytes bs)).setWidth (8 * dblBytes dbl)).signExtend 64) := by
  unfold amoDest extendTo
  rw [if_pos rfl, sextNat_eq]
  cases dbl <;> decide

/-! ### The way to the port -/

section
variable {va : Word} {dbl rl : Bool} {cause : Nat} {act : Piece} {kind : AccKind} {trace : Option Traced}
  {done : List PieceAns → State → Res}

theorem atomicRes_misaligned (h : va.toNat % dblBytes dbl ≠ 0) :
    s.atomicRes s.cur x va dbl rl cause act kind trace done = .trap cause va 0 s := if_pos h

/-- The rl bit holds an atomic back no longer than a fence at .md (R103). -/
theorem State.rlGate_none (h : rl = true → s.fenceGate s.cur x .md = none) : s.rlGate s.cur x rl = none := by
  unfold State.rlGate
  split
  · rename_i hrl
    simp only [Bool.and_eq_true] at hrl
    obtain ⟨⟨hset, _⟩, _⟩ := hrl
    exact h hset
  · rfl

/-- An aligned atomic that its rl bit lets go does what its plain access comes to. -/
theorem atomicRes_done {as : List PieceAns} {t : State} (ha : va.toNat % dblBytes dbl = 0)
    (hrl : rl = true → s.fenceGate s.cur x .md = none) (hplain : s.plain s.cur x trace false [⟨va, act, kind, true⟩] = .done as t) :
    s.atomicRes s.cur x va dbl rl cause act kind trace done = done as t := by
  rw [State.atomicRes, if_neg (not_not_intro ha), State.rlGate_none hrl, oneWant, hplain]
  rfl

/-- The plain access of an atomic that nothing holds back: its port answers, in a state after the counter, the TLB and the tokens. -/
theorem plain_atomic {key : Nat} {tag : Option (BitVec 16)} (hx : s.hart? s.cur = some x) (p : PlainReady s x) (w : Writable s x va act)
    (r : Reaches s x va act.width kind key tag) (hreads : act.reads = none) (hcut : ∀ room, act.cut room = act) (trace : Option Traced) :
    ∃ s1, AfterRead s s1 x va ∧ s.plain s.cur x trace false [⟨va, act, kind, true⟩] =
      .done [(s1.portMem key tag act (some s.cur)).1] ((s1.portMem key tag act (some s.cur)).2.keepLog s.cur []) :=
  plain_one hx p r w.clear trace false (fun _ ho => nomatch hreads.symm.trans ho) hcut

end

/-! ### What the ports do -/

section
variable {s1 : State} {va : Word} {key : Nat} (a : AfterRead s s1 x va)
include a

theorem AfterRead.bytesAt (k n : Nat) : s1.bytesAt k n = memRead s.mem k n := by
  rw [a.rest]
  rfl

theorem AfterRead.poisoned (k n : Nat) : s1.poisoned k n = s.poisoned k n := by
  rw [a.rest]
  rfl

variable {dbl : Bool} (hp : s.poisoned key (dblBytes dbl) = false)
include hp

theorem AfterRead.portMem_amo (tag : Option (BitVec 16)) (op : AmoOp) (v : Word) (h : Option Nat) :
    s1.portMem key tag (.amo op dbl v) h = (.data (memRead s.mem key (dblBytes dbl)) 0#16 false,
      s1.putNat key (dblBytes dbl) (amoNew op (dblBytes dbl) (natOfBytes (memRead s.mem key (dblBytes dbl))) v.toNat)) := by
  simp only [State.portMem, State.natAt, a.bytesAt, a.poisoned, hp, Bool.false_eq_true, if_false]

theorem AfterRead.portMem_lr (tag : Option (BitVec 16)) (h : Nat) :
    s1.portMem key tag (.lr dbl) (some h) = (.data (memRead s.mem key (dblBytes dbl)) 0#16 false,
      s1.modHart h fun y => { y with resv := some (key / 64) }) := by
  simp only [State.portMem, a.bytesAt, a.poisoned, hp]

omit hp

theorem AfterRead.portMem_sc_holds (hr : x.resv = some (key / 64)) (tag : Option (BitVec 16)) (v : Word) :
    s1.portMem key tag (.sc dbl v) (some s.cur) = (.done true,
      (s1.putNat key (dblBytes dbl) v.toNat).modHart s.cur fun y => { y with resv := none }) := by
  simp only [State.portMem, Option.bind_some, a.hart, hr, BEq.rfl, if_true]

theorem AfterRead.portMem_sc_lost (hr : x.resv ≠ some (key / 64)) (tag : Option (BitVec 16)) (v : Word) :
    s1.portMem key tag (.sc dbl v) (some s.cur) = (.done false, s1.modHart s.cur fun y => { y with resv := none }) := by
  simp only [State.portMem, Option.bind_some, a.hart, beq_eq_false_iff_ne.mpr hr, Bool.false_eq_true, if_false]

end

/-! ### Where an atomic retires -/

/-- The old value that an atomic reads without poison goes to rd. -/
theorem readDone_atomic (h : Nat) (fo : FormOp) (va : Word) (dbl : Bool) (rd : RegIdx) (bs : List Byte) (tag : BitVec 16) (t : State) :
    readDone h fo va (amoDest dbl rd) (dblBytes dbl) [.data bs tag false] t =
      .ok (t.modHart h fun y => y.wx rd (((BitVec.ofNat 64 (natOfBytes bs)).setWidth (8 * dblBytes dbl)).signExtend 64)) := by
  simp [readDone, ansPoison, ansBytes, funext (amoDest_eq dbl rd _)]

/-- An instruction that sets or ends its hart's reservation and writes rd (R104). -/
theorem retiresIn_resv {i : Instr} {t : State} {n : Names} {body : Nat → Hart → State → Res} {rd : RegIdx} {v : Word} {resv : Option Nat}
    (he : exec i s = .next (runHart i n body s)) (r : Ready s x n) (hint : n.hint = false)
    (hb : body s.cur x s = .ok (((t.modHart s.cur fun y => { y with resv := resv }).keepLog s.cur []).modHart s.cur fun y => y.wx rd v)) :
    RetiresIn i s t x fun y => { y.wx rd v with resv := resv } := by
  have hswap (y : Hart) : ({ y with resv := resv, log := [] } : Hart).wx rd v = { ({ y with log := [] } : Hart).wx rd v with resv := resv } := by
    unfold Hart.wx
    split <;> rfl
  refine retiresIn_of he r hint (hb.trans (congrArg Res.ok ?_)) fun y pc => ?_
  · simp only [State.keepLog, State.modHart_modHart, hswap]
  · exact congrArg (fun z : Hart => { z with resv := resv }) (wx_retired y rd v pc s.ncyc)

end

/-- Settles O13: a misaligned atomic traps; an aligned one that nothing holds back reaches its port, which reads the old value and writes
the new one in one step, or judges and moves the reservation. -/
theorem atomics : Obligations.Atomics := by
  unfold Obligations.Atomics
  intro dbl aq rl rd rs1 rs2 op s x key tag va n old oldX
  refine ⟨fun r hm => ⟨?_, ?_⟩, fun r hm => ?_, fun inv p ha hp hrl => ⟨?amo, ?lr, ?sc, ?scLost⟩⟩
  · exact traps_of rfl r (atomicRes_misaligned hm)
  · exact traps_of rfl r (atomicRes_misaligned hm)
  · exact traps_of rfl r (atomicRes_misaligned hm)
  case amo =>
    intro r reach w
    obtain ⟨s1, hs1, hplain⟩ := plain_atomic r.hart p w reach rfl (fun _ => rfl) (some ⟨dblLog dbl, true⟩)
    rw [hs1.portMem_amo hp] at hplain
    exact ⟨_, afterWrite hs1 inv _ _, retiresIn_of rfl r rfl ((atomicRes_done ha hrl hplain).trans (readDone_atomic _ _ _ _ _ _ _ _))
      fun y pc => wx_retired y _ _ pc _⟩
  case lr =>
    intro r reach w
    obtain ⟨s1, hs1, hplain⟩ := plain_atomic r.hart p w reach rfl (fun _ => rfl) none
    rw [hs1.portMem_lr hp] at hplain
    exact ⟨s1, hs1, retiresIn_resv rfl r rfl ((atomicRes_done ha hrl hplain).trans (readDone_atomic _ _ _ _ _ _ _ _))⟩
  case sc =>
    intro r reach w hresv
    obtain ⟨s1, hs1, hplain⟩ := plain_atomic r.hart p w reach rfl (fun _ => rfl) (some ⟨dblLog dbl, true⟩)
    rw [hs1.portMem_sc_holds hresv] at hplain
    exact ⟨_, afterWrite hs1 inv _ _, retiresIn_resv rfl r rfl (atomicRes_done ha hrl hplain)⟩
  case scLost =>
    intro r reach w hresv
    obtain ⟨s1, hs1, hplain⟩ := plain_atomic r.hart p w reach rfl (fun _ => rfl) (some ⟨dblLog dbl, true⟩)
    rw [hs1.portMem_sc_lost hresv] at hplain
    exact ⟨s1, hs1, retiresIn_resv rfl r rfl (atomicRes_done ha hrl hplain)⟩

end Sys2Proof.Machine
end

section
/-! SUPPORT. What the events of the plinths come to (R109, R193 to R206, R212). -/

namespace Sys2Proof.Machine

section
variable {s : State} {pi : Nat} {t : Tile}

/-! ### Acceptance -/

/-- A plinth whose first command is no trelease releases nothing (R199). -/
theorem State.tryRelease_other (hf : (s.plinth pi).firstOf = some t) (hw : t.what ≠ .release) : s.tryRelease pi = s := by
  simp only [State.tryRelease, hf, hw, false_and, if_false]

/-- A plinth with a holder is not arbitrated anew (R200). -/
theorem State.wakePlinth_held {g : Nat} (h : (s.plinth pi).holder = some g) : s.wakePlinth pi = s := by
  simp only [State.wakePlinth, h, Option.isNone_some, Bool.false_and, Bool.false_eq_true, if_false]

/-- A command that ends within the lease is accepted (R196, R206). -/
theorem State.acceptTile_fits (hfit : s.tileStart (s.plinth pi) t + t.cost ≤ (s.plinth pi).leaseEnd) :
    s.acceptTile pi t = (s.modPlinth pi fun q =>
      { q with
        cmdLeft := q.cmdLeft - 1
        queue := q.queue.map fun v =>
          if v.id = t.id then { v with accepted := true, retireAt := s.tileStart (s.plinth pi) t + t.cost } else v
        lastHart := some (t.hart, t.fo)
        busyTo := s.tileStart (s.plinth pi) t + t.cost
        lastMma := t.isMma }).modRings t fun r n => { r with claim := r.claim + n } :=
  if_neg (Nat.not_lt.mpr hfit)

theorem doTileAccept_head {r : List Tile} (hq : (s.plinth s.subj).queue = t :: r) (hh : (s.plinth s.subj).holder = some t.group)
    (ha : t.accepted = false) (hw : t.what ≠ .release) (ho : s.leaseOver (s.plinth s.subj) = false) (hc : (s.plinth s.subj).cmdLeft ≠ 0)
    (hg : s.gateClear t.gate = true) (hr : s.ringsReady t = true) : doTileAccept s = s.acceptTile s.subj t := by
  have hfirst : (s.plinth s.subj).firstOf = some t := by simp [Plinth.firstOf, hq, hh]
  simp [doTileAccept, State.tryRelease_other hfirst hw, State.wakePlinth_held hh, ho, hq, hh, ha, hw, hc, hg, hr]

/-! ### Retirement -/

theorem doTileRetire_due (hf : ((s.plinth s.subj).queue.find? fun v => v.accepted) = some t) (ht : t.retireAt ≤ s.acyc)
    (hheld : ∀ e ∈ s.held, e.who ≠ .tile s.subj t.id) : doTileRetire s = s.performTile s.subj t := by
  have hnone : s.tileHeld s.subj t = false := by simpa [State.tileHeld] using hheld
  simp [doTileRetire, hf, ht, hnone]

/-- A tcfg takes its configuration as it retires (R205). -/
theorem State.performTile_cfg {c : Tcfg} (hw : t.what = .cfg c) :
    s.performTile pi t = (s.modPlinth pi fun q => q.takeCfg c).retireTile pi t (s.plinth pi) (.ok 0#64) := by
  simp only [State.performTile, hw]

/-- A tzero clears its accumulator, promoted first (R206). -/
theorem State.performTile_zero {k : Nat} (hw : t.what = .zero k) :
    s.performTile pi t =
      (s.modPlinth pi fun q => (q.promote k).setAcc k Accum.zero).retireTile pi t (s.plinth pi) (.ok 0#64) := by
  simp only [State.performTile, hw]

/-- A tstat promotes every accumulator, and answers what the plinth then shows (R212). -/
theorem State.performTile_stat (hw : t.what = .stat) :
    s.performTile pi t = (s.modPlinth pi Plinth.promoteAll).retireTile pi t (s.plinth pi)
      (.ok ((s.modPlinth pi Plinth.promoteAll).tstatWord pi t)) := by
  simp only [State.performTile, hw]

theorem State.performTile_mma {km : Bool} {k a b n : Nat} (hw : t.what = .mma km k a b n) :
    s.performTile pi t = s.retireMma pi t km k a b n := by
  simp only [State.performTile, hw]

/-- A command that none of its passes failed notes nothing. -/
@[simp] theorem State.noteMisfit_none : s.noteMisfit pi t false 0 = s := rfl

/-- What the passes of a matrix command without checks make of its accumulator (R206). -/
def State.unchecked (s : State) (pi : Nat) (t : Tile) (kmajor : Bool) (acc passes : Nat) (ls : List TLine) :
    Accum × Bool × Option (Nat × Nat) × List TLine × Nat :=
  runPasses kmajor t (linesA kmajor t.cfg.width t.rows) (linesB t.cfg.tra t.cfg.width t.cols) (fun _ => none) passes ls
    ((s.plinth pi).acc acc) false 0

/-- A matrix command without checks whose lines have come, and whose passes meet nothing, retires with its counts (R206). -/
theorem State.retireMma_clean {kmajor : Bool} {acc a b passes : Nat} {ls : List TLine} {s1 : State} (hf : t.fail = none)
    (hc : t.cfg.chk = false)
    (hread : s.tileRead pi t (s.mmaAddrs t a b passes (linesA kmajor t.cfg.width t.rows).length
      (linesB t.cfg.tra t.cfg.width t.cols).length) [] = (.got ls, s1))
    (hnone : (s.unchecked pi t kmajor acc passes ls).2.2.1 = none) (hrep : (s.unchecked pi t kmajor acc passes ls).2.2.2.2 = 0) :
    s.retireMma pi t kmajor acc a b passes =
      (s1.modPlinth pi fun q => { q.setAcc acc (s.unchecked pi t kmajor acc passes ls).1 with
        iovf := q.iovf || (s.unchecked pi t kmajor acc passes ls).2.1 }).retireTile pi t (s.plinth pi)
        (.ok (BitVec.ofNat 64 (2 ^ 16 * t.nb + t.na))) := by
  unfold State.unchecked at hnone hrep ⊢
  simp only [State.retireMma, hf, hread, hc, Bool.false_eq_true, if_false, hnone, hrep, State.noteMisfit_none]

/-! ### Leases -/

theorem doLeaseExpiry_due {g : Nat} (hh : (s.plinth s.subj).holder = some g) (hs : (s.plinth s.subj).settled = true)
    (hk : s.leaseKept (s.plinth s.subj) = false) (he : (s.plinth s.subj).leaseEnd ≤ s.acyc) :
    doLeaseExpiry s = s.endLease s.subj false := by
  simp [doLeaseExpiry, hh, hs, hk, he]

theorem doLeaseHandover_due {g k : Nat} (hh : (s.plinth s.subj).handover = some (g, k)) (hk : k ≤ s.acyc) :
    doLeaseHandover s = s.grant s.subj g := by
  simp only [doLeaseHandover, hh, hk, if_true]

/-- An operation's completion leaves the plinths as they are, whether it arrives or is lost (R401). -/
@[simp] theorem State.opDone_plinths (o : Nat) (v : Word) : (s.opDone o v).plinths = s.plinths := by
  unfold State.opDone
  split <;> rfl

/-- What a plinth is once its lease is granted (R195, R205). -/
theorem State.grant_plinth (g : Nat) :
    (s.grant pi g).plinth pi = { (s.plinth pi).clear with
      holder := some g
      cmdLeft := 64
      leaseEnd := s.acyc + 4096
      handover := none
      lastHart := none
      waiters := (s.plinth pi).waiters.filter fun w => w.group != g } := by
  have hkeeps := foldl_keeps State.plinths (fun (a : State) o => a.opDone o 0#64) (fun a o => a.opDone_plinths o 0#64)
  simp only [State.plinth, State.grant, hkeeps, State.modPlinth, tgetD_tset_same]

/-! ### Trings that wait -/

/-- A tring of this ring. -/
def OpKind.tringOf (w n : Nat) : OpKind → Bool
  | .tring w' n' _ _ => w' == w && n' == n
  | _ => false

theorem OpKind.tringOf_iff {w n : Nat} {k : OpKind} : k.tringOf w n = true ↔ ∃ b l, k = .tring w n b l := by
  cases k <;> simp [OpKind.tringOf]

/-- The only tring of a ring is its first. -/
theorem find?_tring {o : Op} {w n lines : Nat} {base : Word} (ho : tget s.ops s.subj = some o) (hk : o.kind = .tring w n base lines)
    (honly : ∀ q ∈ s.ops, ∀ b l, q.2.kind = .tring w n b l → q.1 = s.subj) :
    (s.ops.find? fun q => q.2.kind.tringOf w n).map Prod.fst = some s.subj := by
  cases hf : s.ops.find? fun q => q.2.kind.tringOf w n with
  | none => exact absurd (OpKind.tringOf_iff.mpr ⟨_, _, hk⟩) (List.find?_eq_none.mp hf _ (mem_of_tget ho))
  | some q =>
    obtain ⟨b, l, hq⟩ := OpKind.tringOf_iff.mp (List.find?_some (p := fun q : Nat × Op => q.2.kind.tringOf w n) hf)
    exact congrArg some (honly q (List.mem_of_find?_eq_some hf) b l hq)

/-- A tring that waits for nothing more sets its ring: it is the only one of the ring, and no earlier command takes from it (R202). -/
theorem doTringEffect_sets {o : Op} {w n lines : Nat} {base : Word} (ho : tget s.ops s.subj = some o) (hk : o.kind = .tring w n base lines)
    (hg : s.gateClear o.gate = true) (honly : ∀ q ∈ s.ops, ∀ b l, q.2.kind = .tring w n b l → q.1 = s.subj)
    (hearlier : ∀ t ∈ s.tilesOut, t.id < s.subj → s.tileWin t = w → ∀ k ∈ t.takes, k.1 ≠ n) :
    doTringEffect s = ({ s with ops := tdel s.ops s.subj } : State).setRing w n base lines := by
  have hnone : (s.tilesOut.any fun t => decide (t.id < s.subj) && s.tileWin t == w && t.takes.any fun q => q.1 == n) = false := by
    rw [List.any_eq_false]
    intro t ht h
    simp only [Bool.and_eq_true, decide_eq_true_eq, beq_iff_eq, List.any_eq_true] at h
    obtain ⟨⟨hid, hwin⟩, k, hk, hn⟩ := h
    exact hearlier t ht hid hwin k hk hn
  simp only [doTringEffect, ho, hk, hnone, hg, Bool.not_false, Bool.and_true]
  exact if_pos (beq_iff_eq.mpr (find?_tring ho hk honly))

end

end Sys2Proof.Machine
end

section
/-! SUPPORT. What the events of the copy engines come to (R222 to R231). -/

namespace Sys2Proof.Machine

section
variable {s t : State} {c : CopyCmd}

/-! ### Starts -/

section
variable (he : s.engine s.subj = [c]) (hr : s.cmdReady c = (true, s)) (hs : c.started = false)
include he hr hs

/-- An engine's one command, which was cancelled while it waited, ends (R222). -/
theorem doEngineStart_cancelled (hk : c.cancel = true) : doEngineStart s = s.endCmd s.subj c := by
  simp [doEngineStart, he, hr, hs, State.firstCmd, hk]

section
variable (hk : c.cancel = false) (hh : c.heldAt = none)
include hk hh

/-- An engine's one command, whose release is done, starts with its descriptors (R226). -/
theorem doEngineStart_runs {ds : List Desc} (hd : s.cmdDescs s.subj c = (.run ds, t)) :
    doEngineStart s = t.modCmd s.subj c.id fun x => { x with started := true, todo := ds.filter fun d => d.total != 0 } := by
  simp [doEngineStart, he, hr, hs, State.firstCmd, hk, hh, hd]

/-- An engine's one command, against which its checks have something, starts and fails (R223, R227). -/
theorem doEngineStart_fails {cause sub : Nat} {a : Word} (hd : s.cmdDescs s.subj c = (.fail cause sub a, t)) :
    doEngineStart s = (t.modCmd s.subj c.id fun x => { x with started := true }).cmdFail s.subj c.id cause sub a := by
  simp [doEngineStart, he, hr, hs, State.firstCmd, hk, hh, hd]

end
end

/-- A command that has not failed leaves its engine with what it has done (R220). -/
theorem State.endCmd_op {e o : Nat} (hf : c.fail = none) (ho : c.op = some o) :
    s.endCmd e c = (s.modEngine e fun cs => cs.filter fun x => x.id != c.id).opDone o (statusWord false c.cancel c.written) := by
  simp only [State.endCmd, hf, ho]

/-- A copy that sends no frame has done what it has written (R224). -/
theorem CopyCmd.written_plain {ds : List Desc} (hw : c.what = .plain ds) (htx : c.txPort = none) : c.written = c.bytes + c.part := by
  simp [CopyCmd.written, hw, htx]

/-! ### Elements -/

section
variable {id : Nat} {ds r : List Desc} {d : Desc} (hc : s.cmd s.subj id = some c) (hw : c.what = .plain ds) (hs : c.started = true)
  (hh : c.heldAt = none) (hf : c.fail = none) (hk : c.cancel = false) (htodo : c.todo = d :: r)
include hc hw hs hh hf hk htodo

/-- A command that runs, and has elements left, moves the next one (R224). -/
theorem doEngineElem_moves (hm : c.moved = false) : doEngineElem id s = s.moveElem s.subj c d := by
  simp [doEngineElem, hc, hw, hs, hh, hf, hk, htodo, hm]

/-- A command that has moved every element and has no ring to advance completes (R220, R227). -/
theorem doEngineComplete_ends (hm : c.moved = true) (htx : c.txPort = none) (hr : d.radv = none) :
    doEngineComplete id s = s.endCmd s.subj c := by
  have hends : doEngineComplete id s = s.endCmd s.subj { c with cancel := false } := by
    simp [doEngineComplete, hc, hw, hs, hh, hf, hk, htodo, hm, htx, hr]
  rw [hends, ← hk]

end

section
variable {e : Nat} {d : Desc} (htx : c.txPort = none) (hb : c.buf = none) (hedge : isEdge (vaHome (d.at c.index).2) = false)
include htx hb hedge

/-- An element that its command may not write moves nothing (R225). -/
theorem State.moveElem_denied (hw : c.mayWrite (d.at c.index).2 = false) :
    s.moveElem e c d = s.cmdFail e c.id 7 7 (d.at c.index).2 := by
  simp [State.moveElem, htx, hb, hedge, hw]

/-- An element that has been read, and whose pieces have all been written, is done (R224). -/
theorem State.moveElem_done {b : List Byte} {tag : BitVec 16} {t2 : State} (hw : c.mayWrite (d.at c.index).2 = true)
    (hread : s.engRead e c (loadWants (d.at c.index).1 (2 ^ d.elog2) (2 ^ d.elog2) .load) [] = (.got b tag false, t))
    (hwrite : (t.modCmd e c.id fun x => { x with buf := some (b, tag, false) }).engWrite e c false
      ({ c with buf := some (b, tag, false) } : CopyCmd).pieces = (none, t2)) :
    s.moveElem e c d = t2.modCmd e c.id CopyCmd.step := by
  simp [State.moveElem, htx, hb, hedge, hw, hread, hwrite]

end

@[simp] theorem restWants_zero (ws : List Want) : restWants 0 ws = ws := by
  cases ws <;> rfl

/-- The pieces of an element of which nothing has been written: a whole line carries its tag (R224). -/
theorem CopyCmd.pieces_unwritten {b : List Byte} {tag : BitVec 16} {d : Desc} {r : List Desc} (htodo : c.todo = d :: r) (hp : c.part = 0) :
    ({ c with buf := some (b, tag, false) } : CopyCmd).pieces =
      storeWants (d.at c.index).2 (2 ^ d.elog2) (b.map some)
        (if (2 ^ d.elog2 == 64 && (d.at c.index).1.toNat % 64 == 0 && (d.at c.index).2.toNat % 64 == 0) = true then some tag else none) := by
  simp [CopyCmd.pieces, htodo, hp, and_assoc]

end

end Sys2Proof.Machine
end

section
/-! SUPPORT. What the events of mailboxes and kick registers come to (R230, R231, R235, R236, R240). -/

namespace Sys2Proof.Machine

section
variable {s t : State} {o : Nat} {p : Op}

/-- An operation on its way whose lane is clear and whose release is done is performed (R99, R105). -/
theorem State.whenReady_act {act : Op → State → State} (hp : tget s.ops o = some p) (hi : p.st = .issued) (hl : s.opLane o p = true)
    (hg : s.gateClear p.gate = true) (hd : p.drained = true) : s.whenReady o act = act p s := by
  simp [State.whenReady, State.opReady, hp, hi, hl, hg, hd]

/-- A request that its route brings to its place is performed there. -/
theorem State.opRoute_at {r : Req} {act : Place → State} {k : Place} {tb : Bool} {fill : Option (PageRef × Word × Nat)}
    (h : s.route r (siteOfHome p.cluster) = .at k tb fill) : s.opRoute o p r act = act k := by
  simp only [State.opRoute, h]

/-! ### Delivery -/

section
variable {mbox : Word} {nowait : Bool} {payload image : List Byte} {len user w m : Nat} {tag : BitVec 16} {k : Place} {tb : Bool}
  {fill : Option (PageRef × Word × Nat)}

theorem doMailboxDelivery_send (hp : tget s.ops s.subj = some p) (hi : p.st = .issued) (hl : s.opLane s.subj p = true)
    (hg : s.gateClear p.gate = true) (hd : p.drained = true) (hk : p.kind = .send mbox nowait payload len user)
    (hb : s.sendBehind s.subj p mbox = false) :
    doMailboxDelivery s = s.arriveMsg s.subj p mbox nowait (s.slotFor p len user payload) len 0#16 := by
  simp only [doMailboxDelivery, State.whenReady_act hp hi hl hg hd, hk, hb, Bool.false_eq_true, if_false]

section
variable (hm : mboxOf mbox = some (w, m))
  (hroute : (s.modOp o fun q => { q with kind := .msg mbox nowait image len tag }).route (Req.hart mbox 8 .store p.ctx)
    (siteOfHome p.cluster) = .at k tb fill)
include hm hroute

/-- A message enters a mailbox that has room and at which none waits (R235). -/
theorem State.arriveMsg_enters (hroom : cRoom (s.conf w m) = true) (hnone : ∀ q ∈ (s.window w).sends, q.1 ≠ m) :
    s.arriveMsg o p mbox nowait image len tag = (s.deliver w m image tag).opDone o (statusWord false false len) := by
  have hahead : ((s.window w).sends.any fun q => q.1 == m) = false := by simpa using hnone
  simp only [State.arriveMsg, hm, State.opRoute_at hroute, hroom, hahead, Bool.not_false, Bool.and_self, if_true]

/-- A message for a full mailbox fails where it may not wait, and waits at the mailbox's port else (R236, R402). -/
theorem State.arriveMsg_full (hfull : cRoom (s.conf w m) = false) :
    s.arriveMsg o p mbox nowait image len tag =
      if nowait then s.opFail o 61 17 0 mbox else s.waitSend o w m image mbox nowait len tag := by
  simp only [State.arriveMsg, hm, State.opRoute_at hroute, hfull, Bool.false_and, Bool.false_eq_true, if_false]

end

/-- A send that waits enters as room appears (R236). -/
theorem doWaitingSendEnter_enters {mb : Nat} (hf : ((s.window s.subj).sends.find? fun q => q.1 == mb) = some (mb, o))
    (hroom : cRoom (s.conf s.subj mb) = true) (hp : tget s.ops o = some p) (hk : p.kind = .msg mbox nowait image len tag) :
    doWaitingSendEnter mb s = ((s.unwaitSend s.subj o).deliver s.subj mb image tag).opDone o (statusWord false false len) := by
  simp only [doWaitingSendEnter, hf, hroom, hp, hk, Bool.not_true, Bool.false_eq_true, if_false]

end

/-! ### Kicks -/

section
variable {notice kreg : Word} {bs : List Byte} {k : Place} {tb : Bool} {fill : Option (PageRef × Word × Nat)}
  (hp : tget s.ops s.subj = some p) (hi : p.st = .issued) (hl : s.opLane s.subj p = true) (hg : s.gateClear p.gate = true)
  (hd : p.drained = true) (hk : p.kind = .kick notice kreg) (hread : s.opRead s.subj p (linePieces notice 2 32) [] = (.got bs false, t))
  (hroute : t.route (Req.hart kreg 32 .store p.ctx) (siteOfHome p.cluster) = .at k tb fill)
include hp hi hl hg hd hk hread hroute

/-- A kick that finds room enters the window's queue of 16 (R230). -/
theorem doKickArrival_enters (hroom : (t.window (vaHome kreg * 96 + vaOff kreg / 2 ^ 20)).notices.length < 16)
    (hnone : (t.window (vaHome kreg * 96 + vaOff kreg / 2 ^ 20)).kicks = []) :
    doKickArrival s = (t.modWindow (vaHome kreg * 96 + vaOff kreg / 2 ^ 20) fun y => { y with notices := y.notices ++ [⟨bs, s.subj⟩] }).modOp
      s.subj fun q => { q with st := .waiting } := by
  simp only [doKickArrival, State.whenReady_act hp hi hl hg hd, hk, hread, State.opRoute_at hroute, Bool.false_eq_true, if_false]
  exact if_pos ⟨hroom, List.isEmpty_iff.mpr hnone⟩

/-- A kick for a full queue waits at its register (R240). -/
theorem doKickArrival_waits (hfull : 16 ≤ (t.window (vaHome kreg * 96 + vaOff kreg / 2 ^ 20)).notices.length) :
    doKickArrival s = (t.modWindow (vaHome kreg * 96 + vaOff kreg / 2 ^ 20) fun y => { y with kicks := y.kicks ++ [⟨bs, s.subj⟩] }).modOp
      s.subj fun q => { q with st := .waiting } := by
  simp only [doKickArrival, State.whenReady_act hp hi hl hg hd, hk, hread, State.opRoute_at hroute, Bool.false_eq_true, if_false]
  exact if_neg fun h => Nat.not_lt.mpr hfull h.1

end

/-- An engine with room takes the first notice of its window (R231). -/
theorem doNoticeAccept_takes {cl pc : Nat} {n : Notice} {rest : List Notice} (hcore : s.gran s.subj 16 = .core cl pc)
    (hn : (s.window s.subj).notices = n :: rest) (hroom : s.engineRoom (4 * cl + winNum s.subj / 24) = true)
    (hp : tget s.ops n.op = some p) :
    doNoticeAccept s =
      (({ s with nextId := s.nextId + 1 } : State).modWindow s.subj fun y =>
        { y with notices := rest ++ y.kicks.take 1, kicks := y.kicks.drop 1 }).modEngine (4 * cl + winNum s.subj / 24) fun cs =>
          cs ++ [newCmd s.nextId (.notice s.subj n.bytes) p.ctx cl (winHome s.subj) p.tag p.nodl (some n.op) .none s.ncyc] := by
  simp only [doNoticeAccept, hcore, hn, hroom, hp, Bool.not_true, Bool.false_eq_true, if_false]
  rfl

end

/-- Settles O55: each event is the branch of its own that the hypotheses choose. That a tile command is performed whole as it retires is
the model's choice (log 25), as are elements that move strictly one after another (log 66) and a lease's end that waits for the commands
that its plinth has accepted (log 49). -/
theorem unitEvents : Obligations.UnitEvents := by
  unfold Obligations.UnitEvents
  intro s u p
  refine ⟨?accept, fun t hf ht hheld => ⟨?cfg, ?zero, ?stat, ?mma⟩, ?expiry, ?handover, ?tring, fun c he hr hs => ⟨?cancelled, ?runs, ?fails⟩,
    fun id c ds d r hc hw hs hh hf hk htodo => ⟨fun hm htx hb hedge => ⟨?denied, ?element⟩, ?complete⟩,
    fun o ho hi hl hg hd => ⟨?send, ?kick⟩, ?enter, ?notice⟩
  case accept =>
    intro t r hq hh ha hw ho hc hg hr hfit fin
    exact next_of_eq ((doTileAccept_head hq hh ha hw ho hc hg hr).trans (State.acceptTile_fits hfit))
  case cfg => exact fun c hw => next_of_eq ((doTileRetire_due hf ht hheld).trans (State.performTile_cfg hw))
  case zero => exact fun k hw => next_of_eq ((doTileRetire_due hf ht hheld).trans (State.performTile_zero hw))
  case stat => exact fun hw => next_of_eq ((doTileRetire_due hf ht hheld).trans (State.performTile_stat hw))
  case mma =>
    intro km k a b n ls t1 hw hfail hchk hread r hnone hrep
    exact next_of_eq ((doTileRetire_due hf ht hheld).trans ((State.performTile_mma hw).trans
      (State.retireMma_clean hfail hchk hread hnone hrep)))
  case expiry => exact fun g hh hs hk he => next_of_eq (doLeaseExpiry_due hh hs hk he)
  case handover =>
    intro g t hh ht
    refine ⟨next_of_eq (doLeaseHandover_due hh ht), ?_⟩
    rw [State.grant_plinth]
    exact ⟨rfl, rfl, rfl⟩
  case tring => exact fun o w n base lines ho hk hg honly hearlier => next_of_eq (doTringEffect_sets ho hk hg honly hearlier)
  case cancelled =>
    intro o hk hf ho
    rw [← hk]
    exact next_of_eq ((doEngineStart_cancelled he hr hs hk).trans (State.endCmd_op hf ho))
  case runs => exact fun ds t hk hh hd => next_of_eq (doEngineStart_runs he hr hs hk hh hd)
  case fails => exact fun cause sub a t hk hh hd => next_of_eq (doEngineStart_fails he hr hs hk hh hd)
  case denied =>
    intro hdenied
    exact next_of_eq ((doEngineElem_moves hc hw hs hh hf hk htodo hm).trans (State.moveElem_denied htx hb hedge hdenied))
  case element =>
    intro b tag t t2 hmay hread t1 y whole
    refine ⟨fun hp => CopyCmd.pieces_unwritten htodo hp, fun hwrite => ?_⟩
    exact next_of_eq ((doEngineElem_moves hc hw hs hh hf hk htodo hm).trans (State.moveElem_done htx hb hedge hmay hread hwrite))
  case complete =>
    intro o hm htx hradv ho
    have hdone : statusWord false c.cancel c.written = statusWord false false (c.bytes + c.part) := by
      rw [hk, CopyCmd.written_plain hw htx]
    rw [← hdone]
    exact next_of_eq ((doEngineComplete_ends hc hw hs hh hf hk htodo hm htx hradv).trans (State.endCmd_op hf ho))
  case send =>
    intro mbox nowait payload len user w m k tb fill hk hb hm image hroute
    have hrun : exec .mailboxDelivery s = .next (s.arriveMsg u o mbox nowait image len 0#16) :=
      next_of_eq (doMailboxDelivery_send ho hi hl hg hd hk hb)
    rw [hrun]
    refine ⟨fun hroom hnone => next_of_eq (State.arriveMsg_enters hm hroute hroom hnone), fun hfull hno => ?_, fun hfull hno => ?_⟩ <;>
      rw [State.arriveMsg_full hm hroute hfull, hno] <;> rfl
  case kick =>
    intro notice kreg bs t k tb fill hk hread hroute w
    exact ⟨fun hroom hnone => next_of_eq (doKickArrival_enters ho hi hl hg hd hk hread hroute hroom hnone),
      fun hfull => next_of_eq (doKickArrival_waits ho hi hl hg hd hk hread hroute hfull)⟩
  case enter => exact fun mb o p mbox nowait image len tag hf hroom hp hk => next_of_eq (doWaitingSendEnter_enters hf hroom hp hk)
  case notice => exact fun cl pc n rest p hcore hn hroom hp => next_of_eq (doNoticeAccept_takes hcore hn hroom hp)

end Sys2Proof.Machine
end

section
/-! SUPPORT. What an instruction comes to that writes every lane of a v register (R133, R143, R170, R181, R182). -/

namespace Sys2Proof.Machine

/-- An instruction whose own part writes every lane of vd and raises these flags: VQ and VTAG of vd are cleared, the flags are ORed into
fflags, and nothing else of the hart changes (R143). -/
theorem retires_wv {i : Instr} {s : State} {x : Hart} {n : Names} {body : Nat → Hart → State → Res} {vd : RegIdx}
    {lanes : Vector W32 16} {fl : FFlags} (he : exec i s = .next (runHart i n body s)) (r : Ready s x n) (hint : n.hint = false)
    (hb : body s.cur x s = hartOk s s.cur fun y => (y.wv vd lanes).orFlags fl) :
    Retires i s x { x with v := x.v.set vd.toNat ⟨lanes, 0#16, false⟩ vd.isLt, fflags := x.fflags ||| fl } :=
  retires_of (f := fun y => (y.wv vd lanes).orFlags fl) he r hint hb

/-- An instruction that runs the tree over the slots of a reduction: lane 0 receives the tree's result, the other lanes 0, and the flags
are those of the whole tree (R133, R182). -/
theorem lanesReduce_retires {i : Instr} {s : State} {x : Hart} {m : Bool} {vd a : RegIdx} {ident : W32}
    {f : W32 → W32 → W32 × FFlags} (r : Ready s x (vNames [] [] [vd, a] [] .alone))
    (he : exec i s = .next (runHart i (vNames [] [] [vd, a] [] .alone) (lanesReduce m vd a ident f) s)) :
    Retires i s x { x with
      v := x.v.set vd.toNat
        ⟨Vector.ofFn fun (k : Fin 16) => if k.val = 0 then (treeReduce f 4 (x.slots m a ident)).1 else 0#32, 0#16, false⟩
        vd.isLt
      fflags := x.fflags ||| (treeReduce f 4 (x.slots m a ident)).2 } :=
  retires_wv he r rfl rfl

/-- Settles O3: each reduction runs the same tree, with the identity and the operation of its own, and vamax writes one value to every
lane. -/
theorem laneReductions : Obligations.LaneReductions := by
  unfold Obligations.LaneReductions
  intro i m ty vd a ident f s x r
  refine ⟨?reduce, ?vamax⟩
  case reduce => rintro (⟨rfl, rfl, rfl⟩ | ⟨rfl, rfl, rfl⟩ | ⟨rfl, rfl, rfl⟩) <;> exact lanesReduce_retires r rfl
  case vamax => exact retires_wv rfl r rfl rfl

end Sys2Proof.Machine
end

section
/-! SUPPORT. What the x registers hold, and what the operations of the base come to (R130, R141, R143, R373). -/

namespace Sys2Proof.Machine

section
variable (x : Hart) (v : Word) {r q : RegIdx}

/-! ### The x registers -/

@[simp] theorem Hart.rx_zero : x.rx 0#5 = 0#64 := if_pos rfl

@[simp] theorem Hart.wx_zero : x.wx 0#5 v = x := if_pos rfl

theorem Hart.rx_wx_same (h : r ≠ 0#5) : (x.wx r v).rx r = v := by
  simp [Hart.rx, Hart.wx, h]

theorem Hart.rx_wx_ne (h : q ≠ r) : (x.wx r v).rx q = x.rx q := by
  have hn : r.toNat ≠ q.toNat := fun e => h (BitVec.eq_of_toNat_eq e.symm)
  by_cases hr : r = 0#5
  · rw [hr, Hart.wx_zero]
  · unfold Hart.rx Hart.wx
    rw [if_neg hr]
    exact if_congr Iff.rfl rfl (Vector.getElem_set_ne r.isLt q.isLt hn)

/-- A write of an x register changes the register file alone. -/
theorem Hart.wx_eq (r : RegIdx) : x.wx r v = { x with x := if r = 0#5 then x.x else x.x.set r.toNat v r.isLt } := by
  unfold Hart.wx
  split <;> rfl

theorem Hart.orFlags_noFlags : x.orFlags noFlags = x := congrArg (fun f => ({ x with fflags := f } : Hart)) (BitVec.or_zero)

end

/-- Settles O10: x0 is no cell of the register file, and every other x register is its own cell. -/
theorem registerZero : Obligations.RegisterZero := by
  unfold Obligations.RegisterZero
  exact fun x _ v => ⟨x.rx_zero, x.wx_zero v, x.rx_wx_same v, fun _ => x.rx_wx_ne v⟩

section
variable {s : State} {x : Hart} {op : BaseOp} {h : Nat} {rd : RegIdx}

/-! ### What an operation of the base comes to -/

theorem setX_eq_setXF (s : State) (h : Nat) (rd : RegIdx) (v : Word) : setX s h rd v = setXF s h rd v noFlags := by
  simp only [setX, setXF, Hart.orFlags_noFlags]

theorem baseRes_writesX {v : Word} {fl : FFlags} (hw : baseWritesX x op = some (rd, v, fl)) : baseRes op h x s = setXF s h rd v fl := by
  cases op with
  | lui | auipc | opImm | shift | shiftW | alu | unary | fmvXW | fclass =>
    cases hw
    exact setX_eq_setXF _ _ _ _
  | fcmp o rd rs1 rs2 =>
    cases hw
    exact congrArg (setXF s h rd · _) (apply_ite (BitVec.ofNat 64) _ 1 0)
  | fcvtToInt t rm rd rs1 =>
    obtain ⟨m, hm, he⟩ := Option.map_eq_some_iff.mp hw
    obtain ⟨rfl, hres⟩ := Prod.mk.inj he
    simp only [baseRes, hm, hres]
  | _ => cases hw

theorem baseRes_writesF {v : W32} {fl : FFlags} (hw : baseWritesF x op = some (rd, v, fl)) : baseRes op h x s = setF s h rd (v, fl) := by
  cases op with
  | fpair | fmvWX =>
    obtain ⟨rfl, he⟩ := Prod.mk.inj (Option.some.inj hw)
    exact congrArg (setF s h _) he
  | farith | fsqrt | ffused | fcvtFromInt =>
    obtain ⟨m, hm, he⟩ := Option.map_eq_some_iff.mp hw
    obtain ⟨rfl, hres⟩ := Prod.mk.inj he
    simp only [baseRes, hm, hres]
  | _ => cases hw

/-- A jump to x0 leaves no link. -/
theorem jumpTo_zero (s : State) (h : Nat) (link link' target : Word) : jumpTo s h 0#5 link target = jumpTo s h 0#5 link' target := by
  simp only [jumpTo, Hart.wx_zero]

/-- A taken branch is a jump that links x0. -/
theorem baseRes_jumps {pc : Word} (hj : baseJumps x op = some (rd, pc)) :
    baseRes op h x s = jumpTo s h rd (addrPlus x.pc 4) pc := by
  cases op with
  | jal | jalr =>
    cases hj
    rfl
  | branch c rs1 rs2 imm =>
    obtain ⟨ht, he⟩ := Option.ite_none_right_eq_some.mp hj
    cases he
    exact (if_pos ht).trans (jumpTo_zero _ _ _ _ _)
  | _ => cases hj

theorem baseRes_unrounded (hu : baseUnrounded x op = true) :
    baseRes op h x s = .trap 2 (bitsOfEnc (encode (.baseArithmetic op))) 0 s := by
  cases op with
  | farith | fsqrt | ffused | fcvtToInt | fcvtFromInt => simp only [baseRes, Option.isNone_iff_eq_none.mp hu]
  | _ => cases hu

/-- An instruction of a ready hart that changes its hart alone and goes elsewhere. -/
theorem retiresTo_of {i : Instr} {n : Names} {body : Nat → Hart → State → Res} {f : Hart → Hart} {pc : Word}
    (he : exec i s = .next (runHart i n body s)) (r : Ready s x n) (hint : n.hint = false)
    (hb : body s.cur x s = .jump pc (s.modHart s.cur f)) : RetiresTo i s pc (f x) := by
  unfold RetiresTo
  rw [he, runHart_ready r, hb, settle_jump r, State.modHart_modHart, hint, State.modHart_const r.hart]

/-- No operation of the base is a hint. -/
theorem baseNames_hint (op : BaseOp) : (baseNames op).hint = false := by cases op <;> rfl

end

/-! ### The obligations of the base's operations, in a namespace of their own: the words of the statements have their names -/

namespace Base

/-- Settles O6: each operation that writes an x register is one write of it with the flags raised, and a write of an x register is one
of the register file. -/
theorem baseWritesX : Obligations.BaseWritesX := by
  unfold Obligations.BaseWritesX
  intro op s x rd v fl r hw
  have hret := retires_of (i := .baseArithmetic op) rfl r (baseNames_hint op) (baseRes_writesX hw)
  rwa [Hart.wx_eq] at hret

/-- Settles O7: each operation that writes an f register is one write of it with the flags raised. -/
theorem baseWritesF : Obligations.BaseWritesF := by
  unfold Obligations.BaseWritesF
  intro op s x rd v fl r hw
  exact retires_of rfl r (baseNames_hint op) (baseRes_writesF hw)

/-- Settles O8: every jump and taken branch is the same jump to its target, whose check is the model's choice (log 21). -/
theorem baseJumps : Obligations.BaseJumps := by
  unfold Obligations.BaseJumps
  intro op s x r
  refine ⟨fun rd pc hj ha => ?goes, fun rd pc hj ha => ?traps, fun c rs1 rs2 imm hop hn => ?passes⟩
  case goes =>
    have hret := retiresTo_of (i := .baseArithmetic op) rfl r (baseNames_hint op) ((baseRes_jumps hj).trans (if_pos ha))
    rwa [Hart.wx_eq] at hret
  case traps => exact traps_of rfl r ((baseRes_jumps hj).trans (if_neg ha))
  case passes =>
    subst hop
    exact ok_ok r rfl rfl (if_neg (Bool.eq_false_iff.mp hn))

/-- Settles O9: an operation without a rounding mode (that 5, 6 and 7 in frm name none is the model's choice, log 15) is illegal, and
EBREAK's stval is a constant of Config (log 4). -/
theorem baseTraps : Obligations.BaseTraps := by
  unfold Obligations.BaseTraps
  intro op s x r
  refine ⟨fun hu => traps_of rfl r (baseRes_unrounded hu), ?_⟩
  rintro rfl
  exact traps_of rfl r rfl

end Base

end Sys2Proof.Machine
end

section
/-! SUPPORT. What the base's loads and stores come to where nothing holds them back (R91, R93, R97, R141). -/

namespace Sys2Proof.Machine

/-! ### Aligned accesses -/

/-- An aligned access whose width divides a line stays inside one. -/
theorem aligned_inside {a n : Nat} (h : a % n = 0) (hn : n ∣ 64) : a % 64 + n ≤ 64 := by
  obtain ⟨m, hm⟩ := hn
  obtain ⟨q, rfl⟩ := Nat.dvd_of_mod_eq_zero h
  have hm0 : 0 < m := Nat.pos_of_ne_zero fun e => by simp [e] at hm
  rw [hm, Nat.mul_mod_mul_left, ← Nat.mul_succ]
  exact Nat.mul_le_mul_left n (Nat.mod_lt q hm0)

theorem bytesOfNat_length (n v : Nat) : (bytesOfNat n v).length = n := by
  induction n generalizing v with
  | zero => rfl
  | succ n ih => rw [bytesOfNat, List.length_cons, ih]

/-- Bytes that are all written are all part of a store. -/
theorem trimBytes_map_some (bs : List Byte) : trimBytes (bs.map some) = bs.map some := by
  unfold trimBytes
  rw [← List.map_reverse]
  cases hr : bs.reverse with
  | nil => simp [List.reverse_eq_nil_iff.mp hr]
  | cons b r =>
    rw [List.map_cons, List.dropWhile_cons_of_neg (by simp), ← List.map_cons, ← hr, ← List.map_reverse, List.reverse_reverse]

theorem storeWants_one {a : Word} {n v : Nat} (h : a.toNat % n = 0) (hn : 0 < n) :
    storeWants a n ((bytesOfNat n v).map some) none = [⟨a, .store ((bytesOfNat n v).map some) none, .store, true⟩] := by
  have hne : ((bytesOfNat n v).map some).isEmpty = false := by
    rw [List.isEmpty_eq_false_iff, ← List.length_pos_iff, List.length_map, bytesOfNat_length]
    exact hn
  rw [storeWants, cutAt, if_pos (Or.inl h)]
  simp only [trimBytes_map_some, hne, Bool.false_eq_true, if_false]

theorem loadBytes_dvd (k : LoadW) : loadBytes k ∣ 64 := by cases k <;> decide

theorem storeBytes_pos (k : StoreW) : 0 < storeBytes k := by cases k <;> decide

section
variable {s : State} {x : Hart}

theorem AfterRead.portMem_load {s1 : State} {va : Word} (a : AfterRead s s1 x va) {key n : Nat} (hp : s.poisoned key n = false)
    (tag : Option (BitVec 16)) (h : Option Nat) :
    s1.portMem key tag (.load n) h = (.data (memRead s.mem key n) (tag.getD (s1.tagAt key)) false, s1) := by
  simp only [State.portMem, a.bytesAt, a.poisoned, hp]

/-- The bytes that a base load reads without poison go to its destination. -/
theorem readDone_load (h : Nat) (fo : FormOp) (va : Word) (k : LoadW) (rd : RegIdx) (n : Nat) (bs : List Byte) (tag : BitVec 16)
    (t : State) : readDone h fo va (loadDest k rd) n [.data bs tag false] t = .ok (t.modHart h (loadDest k rd bs)) := by
  simp [readDone, ansPoison, ansBytes]

/-- The loads that sign-extend. -/
def signedLoad : LoadW → Bool
  | .b | .h | .w | .d => true
  | .bu | .hu | .wu | .fw => false

theorem loadDest_signed {k : LoadW} (h : signedLoad k = true) (rd : RegIdx) (bs : List Byte) : loadDest k rd bs = fun y =>
    y.wx rd (((BitVec.ofNat 64 (natOfBytes bs)).setWidth (8 * loadBytes k)).signExtend 64) := by
  funext y
  cases k with
  | b | h | w | d => exact congrArg (y.wx rd) (sextNat_eq (by decide) _)
  | _ => cases h

theorem loadDest_retired (k : LoadW) (rd : RegIdx) (bs : List Byte) (y : Hart) (pc : Word) (n : Nat) :
    (loadDest k rd bs { y with log := [] }).retired pc false n = (loadDest k rd bs y).retired pc false n := by
  cases k with
  | fw => rfl
  | _ => exact wx_retired y rd _ pc n

theorem loadNames_hint (k : LoadW) (rd rs1 : RegIdx) : (loadNames k rd rs1).hint = false := by cases k <;> rfl

theorem storeNames_hint (k : StoreW) (rs1 rs2 : RegIdx) : (storeNames k rs1 rs2).hint = false := by cases k <;> rfl

/-- An aligned base load that nothing holds back retires with the bytes of memory in its destination. -/
theorem baseLoad_retires {k : LoadW} {rd rs1 : RegIdx} {imm : BitVec 12} {key : Nat} {tag : Option (BitVec 16)}
    (r : Ready s x (loadNames k rd rs1)) (p : PlainReady s x) (hne : NoEntry s x (x.baseAddr rs1 imm))
    (ha : (x.baseAddr rs1 imm).toNat % loadBytes k = 0) (reach : Reaches s x (x.baseAddr rs1 imm) (loadBytes k) .load key tag)
    (hp : s.poisoned key (loadBytes k) = false) :
    ∃ t, AfterRead s t x (x.baseAddr rs1 imm) ∧
      RetiresIn (.baseLoad k rd rs1 imm) s t x (loadDest k rd (memRead s.mem key (loadBytes k))) := by
  have hinside := aligned_inside ha (loadBytes_dvd k)
  have hunbuffered : Unbuffered s x (x.baseAddr rs1 imm) (.load (loadBytes k)) false :=
    unbuffered_of hne false fun offs ho o hm => by
      cases ho
      exact lineOf_inside _ _ _ hinside (List.mem_range.mp hm)
  obtain ⟨s1, hs1, hplain⟩ := plain_one r.hart p reach (clear_reads rfl) none false hunbuffered fun _ => rfl
  rw [hs1.portMem_load hp] at hplain
  refine ⟨s1, hs1, retiresIn_of rfl r (loadNames_hint k rd rs1) ?_ fun y pc => loadDest_retired k rd _ y pc _⟩
  dsimp only
  rw [loadWants_one ha (Nat.pos_of_dvd_of_pos (loadBytes_dvd k) (by decide)), hplain]
  exact readDone_load _ _ _ _ _ _ _ _ _

end

/-- Settles O11: the load's one piece reads its bytes at its port, and what its destination takes of them is its form's extension. -/
theorem baseLoads : Obligations.BaseLoads := by
  unfold Obligations.BaseLoads
  intro k rd rs1 imm s x key tag va n v r p hne ha reach hp
  obtain ⟨t, ht, hret⟩ := baseLoad_retires r p hne ha reach hp
  refine ⟨t, ht, ?_⟩
  cases k with
  | b | h | w | d =>
    rw [loadDest_signed (by decide)] at hret
    exact hret
  | bu | hu | wu | fw => exact hret

/-- Settles O12: the store's one piece writes its bytes at its port, which changes no other byte and no register. -/
theorem baseStores : Obligations.BaseStores := by
  unfold Obligations.BaseStores
  intro k rs1 rs2 imm s x key tag va n v inv r p ha reach w
  have hsrc : x.storeSrc k rs2 = v := by cases k <;> rfl
  have hlen : ((bytesOfNat n v.toNat).map some).length = n := by rw [List.length_map, bytesOfNat_length]
  obtain ⟨s1, hs1, hplain⟩ := plain_atomic r.hart p w (hlen.symm ▸ reach) rfl (fun _ => rfl) (some ⟨n.log2, false⟩)
  refine ⟨_, afterWrite hs1 inv _ _, retiresAt_of rfl r (storeNames_hint k rs1 rs2) ?_⟩
  dsimp only [storeData]
  rw [hsrc]
  exact congrArg (Got.andThen · wroteDone) ((congrArg _ (storeWants_one ha (storeBytes_pos k))).trans hplain)

end Sys2Proof.Machine
end

section
/-! SUPPORT. What the instructions of hart control come to (R45, R98, R141, R255, R258 to R260). -/

namespace Sys2Proof.Machine

section
variable {s t : State} {x : Hart} {n : Names} {i : Instr} {body : Nat → Hart → State → Res}

/-! ### Instructions that go on after they retire, and those that wait -/

/-- An instruction of a ready hart that changes nothing itself retires, and then something happens. -/
theorem exec_okThen {post : State → State} (he : exec i s = .next (runHart i n body s)) (r : Ready s x n)
    (hb : body s.cur x s = .okThen post s) :
    exec i s = .next (post (s.modHart s.cur fun _ => x.retired (addrPlus x.pc (Instr.len i)) n.hint s.ncyc)) := by
  rw [he, runHart_ready r, hb, ← State.modHart_const r.hart fun y => y.retired (addrPlus x.pc (Instr.len i)) n.hint s.ncyc]
  exact next_of_eq (congrArg post (State.pushLvq_lone _ _ r.lone _))

theorem exec_waits {kind : Nat} {obj : Word} (he : exec i s = .next (runHart i n body s)) (r : Ready s x n)
    (hb : body s.cur x s = .wait kind obj t) : exec i s = .next (t.hartWait s.cur kind obj) := by
  rw [he, runHart_ready r, hb]
  rfl

/-- An instruction with no effect but the count. -/
theorem exec_ok (he : exec i s = .next (runHart i n body s)) (r : Ready s x n) (hb : body s.cur x s = .ok s) :
    exec i s = .next (s.modHart s.cur fun _ => x.retired (addrPlus x.pc (Instr.len i)) n.hint s.ncyc) := by
  rw [he, runHart_ready r, hb, settle_ok r, State.modHart_const r.hart]

end

section
variable {s : State} {x : Hart} {rs1 : RegIdx}

/-! ### gend, yield and WFI -/

theorem exec_gend (r : Ready s x (xNames [] [] .leaves)) (h : s.incomplete s.cur = []) :
    exec .gend s = .next ((s.modHart s.cur fun y => y.retired (addrPlus x.pc 4) false s.ncyc).endHart s.cur) := by
  rw [State.modHart_const r.hart]
  exact exec_okThen (post := fun t => t.endHart s.cur) rfl r (if_pos (List.isEmpty_iff.mpr h))

/-- The harts for which a yield stands aside (R259). -/
def State.yieldsTo (s : State) (x : Hart) : List Nat :=
  (s.harts.filter fun p => p.1 != s.cur && p.2.core == x.core && s.eligible p.2 && p.2.yieldEnd.isNone).map Prod.fst

theorem yield_retires (r : Ready s x (xNames [] [] .alone)) :
    Retires .yield s x { x with
      yieldEnd := if (s.yieldsTo x).isEmpty then none else some (s.acyc + 60), yieldFor := s.yieldsTo x } :=
  retires_of (f := fun y => { y with
    yieldEnd := if (s.yieldsTo x).isEmpty then none else some (s.acyc + 60), yieldFor := s.yieldsTo x }) rfl r rfl rfl

section
variable (r : Ready s x (xNames [] [] .alone))
include r

theorem wfi_retires (hs : x.stopReq = false) (hd : x.due ≠ []) : Retires .wfi s x x := by
  refine ok_ok r rfl rfl ?_
  simp only [hs, Bool.false_eq_true, if_false, List.isEmpty_eq_false_iff.mpr hd, Bool.not_false, if_true]

theorem exec_wfi_waits (hs : x.stopReq = false) (hd : x.due = []) : exec .wfi s = .next (s.hartWait s.cur 11 0#64) := by
  refine exec_waits rfl r ?_
  simp only [hs, hd, List.isEmpty_nil, Bool.not_true, Bool.false_eq_true, if_false]

theorem exec_wfi_stops (hs : x.stopReq = true) :
    exec .wfi s = .next ((s.modHart s.cur fun _ => x.retired (addrPlus x.pc 4) false s.ncyc).stopNow s.cur .full) :=
  exec_okThen (post := fun t => t.stopNow s.cur .full) rfl r (if_pos hs)

end

/-! ### migrate -/

section
variable (r : Ready s x (xNames [rs1] [] .alone))
include r

theorem migrate_traps (hh : s.homeValid (vaHome (x.rx rs1)) = false) : Traps (.migrate rs1) s 5 (x.rx rs1) 1 := by
  refine traps_of rfl r ?_
  simp only [hh, Bool.not_false, if_true]

variable (hh : s.homeValid (vaHome (x.rx rs1)) = true)
include hh

theorem migrate_nowhere (ht : s.migTarget (vaHome (x.rx rs1)) = none) : Retires (.migrate rs1) s x x := by
  refine ok_ok r rfl rfl ?_
  simp only [hh, ht, Bool.not_true, Bool.false_eq_true, if_false]

variable {c : Nat} (ht : s.migTarget (vaHome (x.rx rs1)) = some c)
include ht

theorem migrate_stays (h : c = x.cluster ∨ x.full = true ∨ x.priv ≠ .u ∨ x.chisel.live = true) : Retires (.migrate rs1) s x x := by
  refine ok_ok r rfl rfl ?_
  simp only [hh, ht, Bool.not_true, Bool.false_eq_true, if_false]
  exact if_pos (by tauto)

theorem exec_migrate_starts (hc : c ≠ x.cluster) (hf : x.full = false) (hu : x.priv = .u) (hl : x.chisel.live = false)
    (hr : s.migReady s.cur x = true) (he : s.entriesSettled s.cur = true) :
    exec (.migrate rs1) s =
      .next ((s.modHart s.cur fun _ => x.retired (addrPlus x.pc 4) false s.ncyc).startMigration s.cur c) := by
  refine exec_okThen (post := fun t => t.startMigration s.cur c) rfl r ?_
  simp [hh, ht, hc, hf, hu, hl, hr, he, r.lone]

end
end

/-- Settles O33: each instruction is the branch of its own that the hypotheses choose. That WFI is allowed in U-mode, that a migrate to
an unassigned home traps before every other case and that one without a threshold is never ready are the model's choices (log 14, log 43,
log 128). -/
theorem hartControl : Obligations.HartControl := by
  unfold Obligations.HartControl
  intro s x
  refine ⟨exec_gend, fun r => ⟨fun hn => ?alone, fun hn => ?aside, wfi_retires r, exec_wfi_waits r, exec_wfi_stops r⟩,
    fun rs1 r => ⟨migrate_traps r, fun hh => ⟨migrate_nowhere r hh, fun c ht => ⟨migrate_stays r hh ht, ?starts⟩⟩⟩,
    fun off lx lv r => ⟨fun hs => ?hint, fun hs => ?stop⟩⟩
  case alone =>
    have hret := yield_retires r
    rwa [show s.yieldsTo x = [] from hn] at hret
  case aside =>
    have hret := yield_retires r
    have hne : (s.yieldsTo x).isEmpty = false := List.isEmpty_eq_false_iff.mpr hn
    rw [hne] at hret
    exact hret
  case starts =>
    intro hc hf hu hl hr he
    have hrun := exec_migrate_starts r hh ht hc hf hu hl hr he
    refine ⟨by rw [hrun, State.modHart_const r.hart fun y => y.retired (addrPlus x.pc 4) false s.ncyc], _, hrun, ?_⟩
    exact State.hart?_modHart (State.hart?_modHart r.hart _) _
  case hint =>
    have hrun := exec_ok (i := .phint off lx lv) rfl r (if_pos (by rw [hs]; rfl))
    exact ⟨hrun, _, hrun, State.hart?_modHart r.hart _⟩
  case stop =>
    exact exec_okThen (i := .phint off lx lv) (post := fun t => t.stopNow s.cur (.hint lx lv (lrtAddr x.pc off))) rfl r
      (if_neg (by rw [hs]; decide))

end Sys2Proof.Machine
end

section
/-! SUPPORT. What the accesses to CSRs come to, and the layout of dxtstat (R141, R155, R158, R164, R373). -/

namespace Sys2Proof.Machine

section
variable {s : State} {x : Hart} {op : CsrOp} {csr : BitVec 12} {rd src : RegIdx}

/-! ### CSR_ACCESS -/

/-- An access that the address and the mode allow. -/
theorem csrAccess_retires {old : Word} (hr : s.csrRead x csr.toNat = some old) (hw : csrWrites op src = false ∨ csr.toNat < 0xC00)
    (r : Ready s x (csrNames op rd src (csrPair csr.toNat (csrWrites op src)))) :
    Retires (.csrAccess op csr rd src) s x
      ((if csrWrites op src then x.csrWrite csr.toNat (csrNew op old (x.csrSrc op src)) else x).wx rd old) := by
  refine retires_of (f := fun y =>
    (if csrWrites op src then y.csrWrite csr.toNat (csrNew op old (x.csrSrc op src)) else y).wx rd old)
    (next_of_eq (if_pos ?_)) r rfl ?_
  · simp only [r.hart, hr, Option.isSome_some, Bool.true_and, Bool.not_eq_true', Bool.and_eq_false_iff, decide_eq_false_iff_not, not_le]
    exact hw
  · simp only [hr, Option.getD_some]

/-- One that names no CSR, or writes a read-only one, is illegal whatever registers it names (R373). -/
theorem csrAccess_traps (h : s.csrRead x csr.toNat = none ∨ csrWrites op src = true ∧ 0xC00 ≤ csr.toNat)
    (r : Ready s x (xNames [] [] .alone)) :
    Traps (.csrAccess op csr rd src) s 2 (bitsOfEnc (encode (.csrAccess op csr rd src))) 0 := by
  refine traps_of (next_of_eq (if_neg ?_)) r rfl
  simp only [r.hart]
  obtain hn | ⟨hw, ha⟩ := h
  · simp [hn]
  · simp [hw, ha]

end

/-- Settles O34: the address, the mode and the form decide before any register is looked at; what is written and read is the form's. -/
theorem csrAccess : Obligations.CsrAccess := by
  unfold Obligations.CsrAccess
  intro op csr rd src s x hx i a writes v
  have hwrites : csrWrites op src = writes := by cases op <;> rfl
  have hsrc : x.csrSrc op src = v := by cases op <;> rfl
  rw [← hwrites, ← hsrc]
  refine ⟨fun old hr hw r => ?_, csrAccess_traps⟩
  have hret := csrAccess_retires hr hw r
  cases op <;> exact hret

section
variable {s : State} {x : Hart} {op : CsrOp} {rd src : RegIdx} {g : Group}

/-! ### dxtstat -/

/-- A field of a number held in 64 bits. -/
theorem extractLsb'_ofNat64 (n lo : Nat) {len : Nat} (h : lo + len ≤ 64) :
    (BitVec.ofNat 64 n).extractLsb' lo len = BitVec.ofNat len (n / 2 ^ lo) := by
  apply BitVec.eq_of_getLsbD_eq
  intro i hi
  simp only [BitVec.getLsbD_extractLsb', BitVec.getLsbD_ofNat, hi, show lo + i < 64 by omega, decide_true, Bool.true_and,
    Nat.testBit_div_two_pow, Nat.add_comm]

/-- A bit of a number held in 64 bits. -/
theorem getLsbD_ofNat64 (n : Nat) {i : Nat} (h : i < 64) : (BitVec.ofNat 64 n).getLsbD i = decide (n / 2 ^ i % 2 = 1) := by
  simp only [BitVec.getLsbD_ofNat, h, decide_true, Bool.true_and, Nat.testBit_eq_decide_div_mod_eq]

/-- The layout of dxtstat (R158). -/
def tstatNat (iovf chk mine : Bool) (quarter cmdLeft cycLeft : Nat) : Nat :=
  b2n iovf * 2 ^ 1 + b2n chk * 2 ^ 2 + 2 ^ 13 * (quarter % 4) + b2n mine * 2 ^ 15 + (2 ^ 18 * (cmdLeft % 128) + 2 ^ 32 * (cycLeft % 2 ^ 13))

theorem State.dxtstat_eq (hg : s.groupOf? x = some g) :
    let p := s.plinth (s.plinthOf g)
    let mine := p.heldBy x.group
    s.dxtstat x = BitVec.ofNat 64 (tstatNat (mine && p.iovf) (mine && p.chk) mine (winNum g.win / 24) (if mine then p.cmdLeft else 0)
      (if mine then p.leaseEnd - s.acyc else 0)) := by
  intro p mine
  simp only [State.dxtstat, hg]
  cases hm : mine <;> simp only [mine, p] at hm <;> simp only [tstatNat, bitAt, State.cycLeft, hm] <;> rfl

theorem b2n_lt (b : Bool) : b2n b < 2 := by cases b <;> decide

theorem b2n_eq_one (b : Bool) : decide (b2n b = 1) = b := by cases b <;> rfl

/-- Each field of dxtstat is its own, and the other bits are 0. -/
theorem tstatNat_fields (iovf chk mine : Bool) (q c y : Nat) :
    let v := BitVec.ofNat 64 (tstatNat iovf chk mine q c y)
    v.getLsbD 1 = iovf ∧ v.getLsbD 2 = chk ∧ v.extractLsb' 13 2 = BitVec.ofNat 2 q ∧ v.getLsbD 15 = mine ∧
    v.extractLsb' 18 7 = BitVec.ofNat 7 c ∧ v.extractLsb' 32 13 = BitVec.ofNat 13 y ∧
    v.getLsbD 0 = false ∧ v.extractLsb' 3 10 = 0#10 ∧ v.extractLsb' 16 2 = 0#2 ∧ v.extractLsb' 25 7 = 0#7 ∧
    v.extractLsb' 45 19 = 0#19 := by
  have hi := b2n_lt iovf
  have hc := b2n_lt chk
  have hm := b2n_lt mine
  have h0 : b2n false = 0 := rfl
  generalize hn : tstatNat iovf chk mine q c y = n
  rw [tstatNat] at hn
  have bit (i : Nat) (hi : i < 64) (b : Bool) (h : n / 2 ^ i % 2 = b2n b) : (BitVec.ofNat 64 n).getLsbD i = b := by
    rw [getLsbD_ofNat64 n hi, h, b2n_eq_one]
  have field (lo len k : Nat) (hl : lo + len ≤ 64) (h : n / 2 ^ lo % 2 ^ len = k % 2 ^ len) :
      (BitVec.ofNat 64 n).extractLsb' lo len = BitVec.ofNat len k := by
    rw [extractLsb'_ofNat64 n lo hl]
    exact BitVec.eq_of_toNat_eq (by simpa only [BitVec.toNat_ofNat] using h)
  refine ⟨bit 1 (by decide) _ ?_, bit 2 (by decide) _ ?_, field 13 2 _ (by decide) ?_, bit 15 (by decide) _ ?_,
    field 18 7 _ (by decide) ?_, field 32 13 _ (by decide) ?_, bit 0 (by decide) false ?_, field 3 10 0 (by decide) ?_,
    field 16 2 0 (by decide) ?_, field 25 7 0 (by decide) ?_, field 45 19 0 (by decide) ?_⟩ <;> omega

section
variable (hg : s.groupOf? x = some g)
  (r : Ready s x (csrNames op rd src (if csrWrites op src then .leaves else .enters)))
include hg r

theorem exec_dxtstat_waits (ht : g.tiles ≠ []) : exec (.dxtstatAccess op rd src) s = .next (s.hartWait s.cur 10 0#64) := by
  refine exec_waits rfl r ?_
  simp only [State.tilesRetired, hg, List.isEmpty_eq_false_iff.mpr ht, Bool.not_false, if_true]

variable (ht : g.tiles = [])
include ht

theorem dxtstat_reads (hw : csrWrites op src = false) : Retires (.dxtstatAccess op rd src) s x (x.wx rd (s.dxtstat x)) := by
  refine retires_of (f := fun y => y.wx rd (s.dxtstat x)) rfl r rfl ?_
  simp [State.tilesRetired, hg, ht, hw, setX]

theorem dxtstat_writes (hw : csrWrites op src = true) :
    RetiresIn (.dxtstatAccess op rd src) s (s.modPlinth (s.plinthOf g) fun q =>
      if q.heldBy x.group then
        { q with
          iovf := q.iovf && !((csrNew op (s.dxtstat x) (x.csrSrc op src)).getLsbD 1)
          chk := q.chk && !((csrNew op (s.dxtstat x) (x.csrSrc op src)).getLsbD 2) }
      else q) x fun y => y.wx rd (s.dxtstat x) := by
  refine settle_in r rfl _ _ rfl ?_
  simp [State.tilesRetired, hg, ht, hw, setX]

end
end

/-- Settles O36: the access waits or reads, and clears what the form writes 1 to where the group holds the lease; that another's write
clears nothing is the model's choice (log 41). -/
theorem dxtstatAccess : Obligations.DxtstatAccess := by
  unfold Obligations.DxtstatAccess
  intro op rd src s x g hg i writes pi p mine old new r
  refine ⟨exec_dxtstat_waits hg r, dxtstat_reads hg r, dxtstat_writes hg r, ?fields⟩
  case fields =>
    have hold : old = _ := State.dxtstat_eq hg
    rw [hold]
    exact tstatNat_fields _ _ _ _ _ _

end Sys2Proof.Machine
end


section
/-! SUPPORT. What ECALL, SRET and the words that are no instruction come to (R366, R367, R370, R373, R387, R389). -/

namespace Sys2Proof.Machine

/-- SRET's own part, before a stop that met the handler. -/
def sretRes (h : Nat) (x : Hart) (s : State) : Res :=
  if x.priv = .u then .trap 2 (bitsOfEnc (encode .sret)) 0 s else .jump x.csr.sepc (s.modHart h Hart.sret)

/-- SRET as a hart runs it, before a stop that met the handler. -/
def State.sretRun (s : State) : State := runHart .sret (xNames [] [] .alone) sretRes s

section
variable {s : State} {x : Hart}

/-- A stop that met the handler applies where SRET enters U-mode from elsewhere (R387). -/
theorem exec_sret (hx : s.hart? s.cur = some x) :
    exec .sret s = .next (match s.sretRun.hart? s.cur with
      | some y => if x.priv != Priv.u && y.priv == Priv.u && x.stopSret then s.sretRun.stopNow s.cur .full else s.sretRun
      | none => s.sretRun) := by
  refine next_of_eq ?_
  show (match s.hart? s.cur, s.sretRun.hart? s.cur with
    | some x, some y => if x.priv != Priv.u && y.priv == Priv.u && x.stopSret then s.sretRun.stopNow s.cur .full else s.sretRun
    | _, _ => s.sretRun) = _
  rw [hx]
  cases s.sretRun.hart? s.cur <;> rfl

section
variable (r : Ready s x (xNames [] [] .alone))
include r

theorem ecall_traps : Traps .ecall s (if x.priv = .u then 8 else 9) 0#64 0 := traps_of rfl r rfl

theorem sret_traps (hu : x.priv = .u) : Traps .sret s 2 (bitsOfEnc (encode .sret)) 0 := by
  have hrun : s.sretRun = s.takeTrap s.cur 2 (bitsOfEnc (encode .sret)) 0 (formOf .sret) true := by
    rw [State.sretRun, runHart_ready r, sretRes, if_pos hu, settle_trap r]
  unfold Traps
  rw [exec_sret r.hart, ← hrun]
  refine next_of_eq ?_
  cases s.sretRun.hart? s.cur <;> simp [hu]

variable (hu : x.priv ≠ .u)
include hu

theorem State.sretRun_returns : s.sretRun = s.modHart s.cur fun _ => x.sret.retired x.csr.sepc false s.ncyc := by
  rw [State.sretRun, runHart_ready r, sretRes, if_neg hu, settle_jump r, State.modHart_modHart, State.modHart_const r.hart]
  rfl

theorem exec_sret_returns :
    exec .sret s = .next (if x.sret.priv == .u && x.stopSret then s.sretRun.stopNow s.cur .full else s.sretRun) := by
  have hto : s.sretRun.hart? s.cur = some (x.sret.retired x.csr.sepc false s.ncyc) := by
    rw [State.sretRun_returns r hu]
    exact State.hart?_modHart r.hart _
  rw [exec_sret r.hart, hto, bne_iff_ne.mpr hu]
  rfl

theorem sret_returns (h : x.stopSret = false ∨ x.csr.stSPP = true) : RetiresTo .sret s x.csr.sepc x.sret := by
  unfold RetiresTo
  rw [exec_sret_returns r hu, ← State.sretRun_returns r hu]
  obtain h | h := h <;> simp [h, Hart.sret]

theorem sret_stops (hs : x.stopSret = true) (hp : x.csr.stSPP = false) :
    exec .sret s = .next ((s.modHart s.cur fun _ => x.sret.retired x.csr.sepc false s.ncyc).stopNow s.cur .full) := by
  rw [exec_sret_returns r hu, ← State.sretRun_returns r hu]
  simp [hs, hp, Hart.sret]

end

/-- A hart that leads no pair and trails none traps at once. -/
theorem raiseNow_traps (hx : s.hart? s.cur = some x) (hp : x.pair = none) (ht : x.trails = false) (cause : Nat) (tval : Word) (sub : Nat)
    (fo : FormOp) : raiseNow s cause tval sub fo = s.takeTrap s.cur cause tval sub fo true := by
  have hsync : s.pairSynced s.cur x = true := by
    rw [State.pairSynced, hp]
    rfl
  simp only [raiseNow, hx, ht, Bool.false_eq_true, if_false, State.settle, hsync, if_true]

end

/-- Settles O39: ECALL and SRET are runs of a ready hart, SRET with the stop that met the handler behind it; a word that is no instruction
and a failed fetch trap before any check of an instruction's own. -/
theorem systemInstructions : Obligations.SystemInstructions := by
  unfold Obligations.SystemInstructions
  intro s x
  refine ⟨fun r => ⟨ecall_traps r, sret_traps r, fun hu => ⟨sret_returns r hu, sret_stops r hu⟩⟩,
    fun hx hp ht => ⟨fun bits => ?_, fun cause sub a => ?_⟩⟩
  · exact next_of_eq (raiseNow_traps hx hp ht ..)
  · exact next_of_eq (raiseNow_traps hx hp ht ..)

end Sys2Proof.Machine
end

section
/-! SUPPORT. What the tile instructions come to (R164, R193, R205 to R212, R382). -/

namespace Sys2Proof.Machine

/-- A tile command stands where the statement puts it. -/
theorem tileIssue_eq (s : State) (x : Hart) (g : Group) (i : Instr) (F : TileForm) (op : Option Nat) :
    s.tileIssue s.cur x g i F.what F.na F.nb op = s.withTile x g i F op := by
  unfold State.tileIssue State.withTile
  by_cases h : g.away = 0
  · simp only [h, bne_self_eq_false, Bool.false_eq_true, if_false, if_true]
    rfl
  · simp only [h, bne_iff_ne.mpr h, if_false, if_true]
    rfl

/-- A tile command looks at no hart. -/
theorem tileIssue_modHart (s : State) (f : Hart → Hart) (x : Hart) (g : Group) (i : Instr) (F : TileForm) (op : Option Nat) :
    (s.modHart s.cur f).tileIssue s.cur x g i F.what F.na F.nb op = (s.withTile x g i F op).modHart s.cur f := by
  rw [← tileIssue_eq]
  rfl

/-- What a tile instruction's own part comes to, by its form. -/
def TileForm.res (F : TileForm) (i : Instr) (s : State) (x : Hart) (g : Group) : Res :=
  match F.trap, F.future with
  | some (cause, tval), _ => .trap cause tval 0 s
  | none, some (rd, how) => tileFuture i rd how F.what F.na F.nb s.cur x g s
  | none, none => if s.acquiring s.cur then .wait 9 0#64 s else .ok (s.tileIssue s.cur x g i F.what F.na F.nb none)

/-- The instruction runs, and its own part is that of its form. -/
def TileForm.Runs (F : TileForm) (i : Instr) (s : State) (x : Hart) (g : Group) : Prop :=
  F.names.hint = false ∧ ∃ body, exec i s = .next (runHart i F.names body s) ∧ body s.cur x s = F.res i s x g

section
variable {s : State} {x : Hart} {g : Group} (hg : s.groupOf? x = some g)
include hg

theorem tileRes_eq (i : Instr) (what : TileWhat) :
    tileRes i what s.cur x s = TileForm.res ⟨tileNames [] [], what, 0, 0, none, leaseTrap s x i⟩ i s x g := by
  simp only [tileRes, hg, TileForm.res, leaseTrap]
  cases s.leaseOk x <;> rfl

theorem tileMem_eq (i : Instr) (what : TileWhat) (xs : List RegIdx) (rd rs1 : RegIdx) (how : FailHow) (cause : Nat) :
    tileMem i how rd rs1 cause what s.cur x s = (tileMemForm s x i what xs (x.rx rs1) cause (some (rd, how))).res i s x g := by
  simp only [tileMem, hg, TileForm.res, tileMemForm]
  cases s.leaseOk x
  · rfl
  · by_cases ha : (x.rx rs1).toNat % 64 = 0 <;> simp [ha]

theorem tileLoad_eq (i : Instr) (what : TileWhat) (xs : List RegIdx) (a : Word) :
    (if !s.leaseOk x then Res.trap 52 (tileBits i) 0 s else if a.toNat % 64 ≠ 0 then .trap 4 a 0 s else tileRes i what s.cur x s) =
      (tileMemForm s x i what xs a 4 none).res i s x g := by
  simp only [tileRes_eq hg, TileForm.res, tileMemForm, leaseTrap]
  cases s.leaseOk x
  · rfl
  · by_cases ha : a.toNat % 64 = 0 <;> simp [ha]

theorem mmaRes_eq (i : Instr) (kmajor : Bool) (rd : RegIdx) (acc : BitVec 2) (ar br : BitVec 3) (p : BitVec 4) :
    mmaRes i kmajor rd acc ar br p s.cur x s = (mmaForm s x g i kmajor rd acc ar br p).res i s x g := by
  simp only [mmaRes, hg, TileForm.res, mmaForm, BitVec.toNat_inj, leaseTrap]
  generalize s.ringLines g.win ar.toNat (fun _ => true) = la
  generalize s.ringLines g.win br.toNat (fun _ => true) = lb
  generalize tileLines kmajor g.tcfgIssued x.vcnt.rows x.vcnt.cols (p.toNat + 1) = n
  generalize (if ar = br then decide (la < n.1 + n.2) else decide (la < n.1) || decide (lb < n.2)) = few
  by_cases ha : la = 0
  · simp only [ha, if_true]
    rfl
  by_cases hb : lb = 0
  · simp only [ha, hb, if_true, if_false]
    rfl
  simp only [ha, hb, if_false]
  cases few <;> cases s.leaseOk x <;> rfl

end

section
variable {s : State} {x : Hart} {g : Group} {i : Instr} {F : TileForm} (hg : s.groupOf? x = some g)
include hg

/-- Every tile instruction runs by its form. -/
theorem tileForm_runs (hF : tileForm s x g i = some F) : F.Runs i s x g := by
  unfold tileForm at hF
  split at hF
  case h_1 => cases hF; exact ⟨rfl, _, rfl, tileRes_eq hg _ _⟩
  case h_2 => cases hF; exact ⟨rfl, _, rfl, tileRes_eq hg _ _⟩
  case h_3 =>
    cases hF
    refine ⟨rfl, _, rfl, ?_⟩
    exact tileLoad_eq hg ..
  case h_4 => cases hF; exact ⟨rfl, _, rfl, mmaRes_eq hg ..⟩
  case h_5 => cases hF; exact ⟨rfl, _, rfl, mmaRes_eq hg ..⟩
  case h_6 =>
    cases hF
    refine ⟨rfl, _, rfl, ?_⟩
    simp only [bitsOf, Nat.pow_zero, Nat.div_one]
    exact tileMem_eq hg ..
  case h_7 =>
    cases hF
    refine ⟨rfl, _, rfl, ?_⟩
    simp only [hg]
    rfl
  case h_8 => cases hF; exact ⟨rfl, _, rfl, tileMem_eq hg ..⟩
  case h_9 => cases hF; exact ⟨rfl, _, rfl, tileMem_eq hg ..⟩
  case h_10 => cases hF

variable (hF : tileForm s x g i = some F) (r : Ready s x F.names)
include hF r

theorem tileForm_traps {cause : Nat} {tval : Word} (ht : F.trap = some (cause, tval)) : Traps i s cause tval 0 := by
  obtain ⟨_, _, hrun, hbody⟩ := tileForm_runs hg hF
  exact traps_of hrun r (by rw [hbody, TileForm.res, ht])

variable (ha : s.acquiring s.cur = false) (ht : F.trap = none)
include ha ht

theorem tileForm_retires (hf : F.future = none) : RetiresAt i s (s.withTile x g i F none) x := by
  obtain ⟨hint, _, hrun, hbody⟩ := tileForm_runs hg hF
  refine settle_at r hint i hrun ?_
  rw [hbody, TileForm.res, ht, hf, ← tileIssue_eq]
  simp only [ha, Bool.false_eq_true, if_false]

theorem tileForm_issues {rd : RegIdx} {how : FailHow} (hf : F.future = some (rd, how)) :
    RetiresIn i s ((s.withOp x (formOf i) ⟨.tile, how, .cl, [], false⟩).withTile x g i F (some s.nextId)) x fun _ =>
      x.issued rd (formOf i) s.nextId := by
  obtain ⟨hint, _, hrun, hbody⟩ := tileForm_runs hg hF
  refine settle_in r hint i _ hrun ?_
  have hissue := withOp_eq s x rd (formOf i) ⟨.tile, how, .cl, [], false⟩ none r.hart s rfl
  rw [hbody, TileForm.res, ht, hf]
  simp only [tileFuture, ha, Bool.false_eq_true, if_false]
  rw [hissue]
  exact congrArg Res.ok (tileIssue_modHart ..)

end

/-- Settles O23: a tile instruction runs by its form, which traps, or leaves its command, with its future before it where it has one. That
tmma looks for causes 50, 51 and 52 in this order is the model's choice (log 39). -/
theorem tileCommands : Obligations.TileCommands := by
  unfold Obligations.TileCommands
  intro i s x g F hF hg r ha
  exact ⟨tileForm_retires hg hF r ha, fun _ _ ht => tileForm_issues hg hF r ha ht, fun _ _ => tileForm_traps hg hF r⟩

end Sys2Proof.Machine
end

section
/-! SUPPORT. Decoding undoes encoding (R141, R145 to R154). -/

namespace Sys2Proof

/-- A 32-bit word that decodes is none of the D64 form. -/
theorem isD64_of_decodes {w : W32} {i : Instr} (h : decodeEnc (.w32 w) = some i) : isD64 w = false := by
  rw [isD64, beq_eq_false_iff_ne]
  intro ho
  have hopc : (fieldsOf w).opc = 0x3F#7 := ho
  simp [decodeEnc, decodeFields, hopc] at h

/-- A pair of words decodes as the D64 form alone. -/
theorem isD64_of_decodes64 {lo ext : W32} {i : Instr} (h : decodeEnc (.w64 lo ext) = some i) : isD64 lo = true := by
  rw [decodeEnc] at h
  by_contra hd
  rw [if_neg hd] at h
  cases h

theorem decodeTableWord_w32 {w : W32} {i : Instr} (h : decodeEnc (.w32 w) = some i) : decodeTableWord 32 w.toNat = some i := by
  have hlt := w.isLt
  simp only [decodeTableWord, Nat.mod_eq_of_lt hlt, BitVec.ofNat_toNat, BitVec.setWidth_eq, isD64_of_decodes h, Bool.false_eq_true,
    if_false, h]

theorem decodeTableWord_w64 {lo ext : W32} {i : Instr} (h : decodeEnc (.w64 lo ext) = some i) :
    decodeTableWord 64 (ext.toNat * 2 ^ 32 + lo.toNat) = some i := by
  have hlo := lo.isLt
  have hext := ext.isLt
  have hmod : (ext.toNat * 2 ^ 32 + lo.toNat) % 2 ^ 64 = ext.toNat * 2 ^ 32 + lo.toNat := Nat.mod_eq_of_lt (by omega)
  have hlow : BitVec.ofNat 32 (ext.toNat * 2 ^ 32 + lo.toNat) = lo := by
    apply BitVec.eq_of_toNat_eq
    rw [BitVec.toNat_ofNat]
    omega
  have hhigh : (ext.toNat * 2 ^ 32 + lo.toNat) / 2 ^ 32 = ext.toNat := by omega
  simp only [decodeTableWord, hmod, hlow, hhigh, BitVec.ofNat_toNat, BitVec.setWidth_eq, isD64_of_decodes64 h, if_true, h]

/-- Every instruction that has an encoding decodes from it, instruction by instruction. -/
theorem decodeEnc_encode (i : Instr) : Laws.Encodes.Statement i := by
  cases i with
  | vadd => exact Laws.Encodes.vadd _ _ _ _ _
  | vsub => exact Laws.Encodes.vsub _ _ _ _ _
  | vmul => exact Laws.Encodes.vmul _ _ _ _ _
  | vmadd => exact Laws.Encodes.vmadd _ _ _ _ _
  | vmsub => exact Laws.Encodes.vmsub _ _ _ _ _
  | vmin => exact Laws.Encodes.vmin _ _ _ _ _
  | vmax => exact Laws.Encodes.vmax _ _ _ _ _
  | vabs => exact Laws.Encodes.vabs _ _ _ _
  | vneg => exact Laws.Encodes.vneg _ _ _ _
  | vand => exact Laws.Encodes.vand _ _ _ _
  | vor => exact Laws.Encodes.vor _ _ _ _
  | vxor => exact Laws.Encodes.vxor _ _ _ _
  | vnot => exact Laws.Encodes.vnot _ _ _
  | vsll => exact Laws.Encodes.vsll _ _ _ _
  | vsrl => exact Laws.Encodes.vsrl _ _ _ _
  | vsra => exact Laws.Encodes.vsra _ _ _ _
  | vcmpeq => exact Laws.Encodes.vcmpeq _ _ _ _ _
  | vcmplt => exact Laws.Encodes.vcmplt _ _ _ _ _
  | vcmple => exact Laws.Encodes.vcmple _ _ _ _ _
  | vsel => exact Laws.Encodes.vsel _ _ _ _
  | vrcp => exact Laws.Encodes.vrcp _ _ _
  | vrsq => exact Laws.Encodes.vrsq _ _ _
  | vexp2 => exact Laws.Encodes.vexp2 _ _ _
  | vlog2 => exact Laws.Encodes.vlog2 _ _ _
  | vcvtToLaneType => exact Laws.Encodes.vcvtToLaneType _ _ _ _ _
  | vcvtToNarrow => exact Laws.Encodes.vcvtToNarrow _ _ _ _ _
  | vcvtToNarrowSat => exact Laws.Encodes.vcvtToNarrowSat _ _ _ _ _
  | vquant => exact Laws.Encodes.vquant _ _ _ _ _
  | vdequant => exact Laws.Encodes.vdequant _ _ _
  | vamax => exact Laws.Encodes.vamax _ _ _
  | vredsum => exact Laws.Encodes.vredsum _ _ _ _
  | vredmax => exact Laws.Encodes.vredmax _ _ _ _
  | vredmin => exact Laws.Encodes.vredmin _ _ _ _
  | vbcast => exact Laws.Encodes.vbcast _ _ _
  | vextr => exact Laws.Encodes.vextr _ _ _ _
  | vins => exact Laws.Encodes.vins _ _ _ _
  | vperm => exact Laws.Encodes.vperm _ _ _ _
  | vslide => exact Laws.Encodes.vslide _ _ _ _
  | vzip => exact Laws.Encodes.vzip _ _ _ _
  | vunzip => exact Laws.Encodes.vunzip _ _ _ _
  | vmov => exact Laws.Encodes.vmov _ _ _
  | lrx => exact Laws.Encodes.lrx _ _ _ _
  | srx => exact Laws.Encodes.srx _ _ _ _
  | vld => exact Laws.Encodes.vld _ _ _ _
  | vst => exact Laws.Encodes.vst _ _ _ _
  | vlds => exact Laws.Encodes.vlds _ _ _ _
  | vsts => exact Laws.Encodes.vsts _ _ _ _
  | vldx => exact Laws.Encodes.vldx _ _ _ _
  | vstx => exact Laws.Encodes.vstx _ _ _ _
  | vldl => exact Laws.Encodes.vldl _ _ _ _
  | ldbit => exact Laws.Encodes.ldbit _ _ _ _
  | stbit => exact Laws.Encodes.stbit _ _ _ _
  | vldbit => exact Laws.Encodes.vldbit _ _ _ _
  | vstbit => exact Laws.Encodes.vstbit _ _ _ _
  | ldtag => exact Laws.Encodes.ldtag _ _ _
  | sttag => exact Laws.Encodes.sttag _ _ _
  | fenceS => exact Laws.Encodes.fenceS _
  | ldAqB => exact Laws.Encodes.ldAqB _ _ _
  | ldAqH => exact Laws.Encodes.ldAqH _ _ _
  | ldAqW => exact Laws.Encodes.ldAqW _ _ _
  | ldAqD => exact Laws.Encodes.ldAqD _ _ _
  | stRlB => exact Laws.Encodes.stRlB _ _ _
  | stRlH => exact Laws.Encodes.stRlH _ _ _
  | stRlW => exact Laws.Encodes.stRlW _ _ _
  | stRlD => exact Laws.Encodes.stRlD _ _ _
  | baddW => exact Laws.Encodes.baddW _ _ _ _
  | baddD => exact Laws.Encodes.baddD _ _ _ _
  | bfadd => exact Laws.Encodes.bfadd _ _ _ _
  | bminW => exact Laws.Encodes.bminW _ _ _ _
  | bminD => exact Laws.Encodes.bminD _ _ _ _
  | bminWu => exact Laws.Encodes.bminWu _ _ _ _
  | bminDu => exact Laws.Encodes.bminDu _ _ _ _
  | bmaxW => exact Laws.Encodes.bmaxW _ _ _ _
  | bmaxD => exact Laws.Encodes.bmaxD _ _ _ _
  | bmaxWu => exact Laws.Encodes.bmaxWu _ _ _ _
  | bmaxDu => exact Laws.Encodes.bmaxDu _ _ _ _
  | bfmin => exact Laws.Encodes.bfmin _ _ _ _
  | bfmax => exact Laws.Encodes.bfmax _ _ _ _
  | bxchgW => exact Laws.Encodes.bxchgW _ _ _ _
  | bxchgD => exact Laws.Encodes.bxchgD _ _ _ _
  | bcasW => exact Laws.Encodes.bcasW _ _ _ _
  | bcasD => exact Laws.Encodes.bcasD _ _ _ _
  | bvredAddI32 => exact Laws.Encodes.bvredAddI32 _ _ _ _
  | bvredAddF32 => exact Laws.Encodes.bvredAddF32 _ _ _ _
  | bvredMinI32 => exact Laws.Encodes.bvredMinI32 _ _ _ _
  | bvredMinF32 => exact Laws.Encodes.bvredMinF32 _ _ _ _
  | bvredMaxI32 => exact Laws.Encodes.bvredMaxI32 _ _ _ _
  | bvredMaxF32 => exact Laws.Encodes.bvredMaxF32 _ _ _ _
  | bqenq => exact Laws.Encodes.bqenq _ _ _ _
  | bqdeq => exact Laws.Encodes.bqdeq _ _ _
  | bqlen => exact Laws.Encodes.bqlen _ _ _
  | bar => exact Laws.Encodes.bar _ _ _
  | barrive => exact Laws.Encodes.barrive _ _ _
  | bwait => exact Laws.Encodes.bwait _ _
  | barcSumI32 => exact Laws.Encodes.barcSumI32 _ _ _ _
  | barcSumF32 => exact Laws.Encodes.barcSumF32 _ _ _ _
  | barcMinI32 => exact Laws.Encodes.barcMinI32 _ _ _ _
  | barcMinF32 => exact Laws.Encodes.barcMinF32 _ _ _ _
  | barcMaxI32 => exact Laws.Encodes.barcMaxI32 _ _ _ _
  | barcMaxF32 => exact Laws.Encodes.barcMaxF32 _ _ _ _
  | barmax => exact Laws.Encodes.barmax _ _ _ _
  | fwait => exact Laws.Encodes.fwait _
  | ftest => exact Laws.Encodes.ftest _ _
  | fcancel => exact Laws.Encodes.fcancel _
  | fpass => exact Laws.Encodes.fpass _ _
  | fwaitall => exact Laws.Encodes.fwaitall _
  | send => exact Laws.Encodes.send _ _ _ _
  | sendp => exact Laws.Encodes.sendp _ _ _ _
  | recv => exact Laws.Encodes.recv _ _
  | recvt => exact Laws.Encodes.recvt _ _ _
  | mbcfg => exact Laws.Encodes.mbcfg _ _
  | mbpeek => exact Laws.Encodes.mbpeek _ _
  | gbCfg => exact Laws.Encodes.gbCfg _ _
  | gbClr => exact Laws.Encodes.gbClr
  | gbLdf => exact Laws.Encodes.gbLdf _
  | gbAddm => exact Laws.Encodes.gbAddm _ _
  | gbSubm => exact Laws.Encodes.gbSubm _ _
  | gbElim => exact Laws.Encodes.gbElim _
  | gbEmit => exact Laws.Encodes.gbEmit _ _ _
  | gbBel => exact Laws.Encodes.gbBel _
  | gbMean => exact Laws.Encodes.gbMean _
  | gbRes => exact Laws.Encodes.gbRes _
  | gbLdw => exact Laws.Encodes.gbLdw _
  | gbStw => exact Laws.Encodes.gbStw _
  | pwset => exact Laws.Encodes.pwset _
  | pwclr => exact Laws.Encodes.pwclr _
  | pwand => exact Laws.Encodes.pwand _ _ _
  | pwor => exact Laws.Encodes.pwor _ _ _
  | pwnot => exact Laws.Encodes.pwnot _ _
  | pwpop => exact Laws.Encodes.pwpop _ _
  | gend => exact Laws.Encodes.gend
  | yield => exact Laws.Encodes.yield
  | migrate => exact Laws.Encodes.migrate _
  | tlease => exact Laws.Encodes.tlease _
  | trelease => exact Laws.Encodes.trelease
  | tcfg => exact Laws.Encodes.tcfg _ _ _ _ _
  | tring => exact Laws.Encodes.tring _ _ _
  | radv => exact Laws.Encodes.radv _ _
  | tzero => exact Laws.Encodes.tzero _
  | tmma => exact Laws.Encodes.tmma _ _ _ _ _
  | tmmat => exact Laws.Encodes.tmmat _ _ _ _ _
  | tldc => exact Laws.Encodes.tldc _ _ _
  | tstc => exact Laws.Encodes.tstc _ _ _ _ _ _ _
  | tstat => exact Laws.Encodes.tstat _
  | tsave => exact Laws.Encodes.tsave _ _ _
  | tload => exact Laws.Encodes.tload _ _ _
  | cpy => exact Laws.Encodes.cpy _ _
  | cpyd => exact Laws.Encodes.cpyd _ _ _ _
  | cpyk => exact Laws.Encodes.cpyk _ _ _
  | pref => exact Laws.Encodes.pref _ _ _
  | launch => exact Laws.Encodes.launch _ _ _
  | phint => exact Laws.Encodes.phint _ _ _
  | baseLoad => exact Laws.Encodes.baseLoad _ _ _ _
  | baseStore => exact Laws.Encodes.baseStore _ _ _ _
  | amo => exact Laws.Encodes.amo _ _ _ _ _ _ _
  | lr => exact Laws.Encodes.lr _ _ _ _ _
  | sc => exact Laws.Encodes.sc _ _ _ _ _ _
  | fence => exact Laws.Encodes.fence _ _ _ _ _
  | fenceTso => exact Laws.Encodes.fenceTso _ _
  | fenceI => exact Laws.Encodes.fenceI _ _ _
  | sfenceVma => exact Laws.Encodes.sfenceVma _ _
  | wfi => exact Laws.Encodes.wfi
  | ecall => exact Laws.Encodes.ecall
  | sret => exact Laws.Encodes.sret
  | csrAccess => exact Laws.Encodes.csrAccess _ _ _ _
  | dxtstatAccess => exact Laws.Encodes.dxtstatAccess _ _ _
  | baseArithmetic => exact Laws.Encodes.baseArithmetic _
  | _ => exact fun _ _ he => nomatch he

/-- Settles O42: the laws of the single instructions, together; two instructions of one encoding are both what it decodes to. -/
theorem decodeEncode : Obligations.DecodeEncode := by
  unfold Obligations.DecodeEncode
  intro i e hw he
  have hdec : decodeEnc e = some i := decodeEnc_encode i e hw he
  refine ⟨hdec, fun j hj hej => Option.some.inj ((decodeEnc_encode j e hj hej).symm.trans hdec), ?_⟩
  cases e with
  | w32 w => exact decodeTableWord_w32 hdec
  | w64 lo ext => exact decodeTableWord_w64 hdec

/-- Settles O41, by running the decoder on the words. -/
theorem decodedWords : Obligations.DecodedWords := by
  unfold Obligations.DecodedWords
  exact ⟨by decide, by decide, by decide, by decide, by decide, by decide⟩

end Sys2Proof
end

section
/-! SUPPORT. Every word that decodes is the encoding of its instruction (R141, R145 to R154). -/

namespace Sys2Proof

/-! ### Numbers of words put together -/

theorem toNat_cat {n m : Nat} (a : BitVec n) (b : BitVec m) : (a ++ b).toNat = a.toNat * 2 ^ m + b.toNat := by
  rw [BitVec.toNat_append, ← Nat.shiftLeft_add_eq_or_of_lt b.isLt, Nat.shiftLeft_eq]

theorem toNat_part {n : Nat} (a : BitVec n) (s l : Nat) : (a.extractLsb' s l).toNat = a.toNat / 2 ^ s % 2 ^ l := by
  rw [BitVec.extractLsb'_toNat, Nat.shiftRight_eq_div_pow]

theorem toNat_bit {n : Nat} (a : BitVec n) (k : Nat) : (bit1 (a.getLsbD k)).toNat = a.toNat / 2 ^ k % 2 := by
  rw [BitVec.getLsbD, Nat.testBit_eq_decide_div_mod_eq]
  by_cases h : a.toNat / 2 ^ k % 2 = 1
  · simp [h, bit1]
  · simp [h, bit1]
    omega

/-- A value that is named by its number. -/
theorem eq_ofNat {n k : Nat} {a : BitVec n} (h : a.toNat = k) : a = BitVec.ofNat n k := by
  rw [← h, BitVec.ofNat_toNat, BitVec.setWidth_eq]

/-! ### Decoders that an encoding undoes -/

/-- Whatever `r` gives has the encoding `e`. -/
def EncodesTo (e : Enc) (r : Option Instr) : Prop := ∀ i, r = some i → encode i = some e

section
variable {e : Enc} {r : Option Instr} {i : Instr}

theorem EncodesTo.of_none : EncodesTo e none := fun _ h => nomatch h

theorem EncodesTo.of_some (h : encode i = some e) : EncodesTo e (some i) := fun _ hi => Option.some.inj hi ▸ h

theorem EncodesTo.of_legal (h : encode i = some e) : EncodesTo e (legal i) := by
  unfold legal
  split
  · exact .of_some h
  · exact .of_none

theorem EncodesTo.of_guard {c : Prop} [Decidable c] (h : c → EncodesTo e r) : EncodesTo e (if c then r else none) := by
  split
  · exact h ‹_›
  · exact .of_none

theorem EncodesTo.of_unless {c : Prop} [Decidable c] (h : ¬ c → EncodesTo e r) : EncodesTo e (if c then none else r) := by
  split
  · exact .of_none
  · exact h ‹_›

theorem EncodesTo.of_either {c : Prop} [Decidable c] {t : Option Instr} (h : c → EncodesTo e t) (h' : ¬ c → EncodesTo e r) :
    EncodesTo e (if c then t else r) := by
  split
  · exact h ‹_›
  · exact h' ‹_›

theorem EncodesTo.of_bind {α : Type} {o : Option α} {g : α → Option Instr} (h : ∀ a, o = some a → EncodesTo e (g a)) :
    EncodesTo e (o.bind g) := by
  cases o with
  | none => exact .of_none
  | some a => exact h a rfl

theorem EncodesTo.of_map {α : Type} {o : Option α} {g : α → Instr} (h : ∀ a, o = some a → encode (g a) = some e) :
    EncodesTo e (o.map g) := by
  cases o with
  | none => exact .of_none
  | some a => exact .of_some (h a rfl)

end

/-! ### Codes of fields -/

theorem laneTyCode_of {c : BitVec 3} {t : LaneTy} (h : laneTyOf c = some t) : laneTyCode t = c := by
  revert c t; decide

theorem scopeCode_of {c : BitVec 3} {t : Scope} (h : scopeOf c = some t) : scopeCode t = c := by
  revert c t; decide

theorem lrxWCode_of {c : BitVec 3} {t : LrxW} (h : lrxWOf c = some t) : lrxWCode t = c := by
  revert c t; decide

theorem csrOpCode_of {c : BitVec 3} {t : CsrOp} (h : csrOpOf c = some t) : csrOpCode t = c := by
  revert c t; decide

theorem brOpCode_of {c : BitVec 3} {t : BrOp} (h : brOpOf c = some t) : brOpCode t = c := by
  revert c t; decide

theorem amoOpCode_of {c : BitVec 5} {t : AmoOp} (h : amoOpOf c = some t) : amoOpCode t = c := by
  revert c t; decide

theorem fintCode_of {c : BitVec 5} {t : FInt} (h : fintOf c = some t) : fintCode t = c := by
  revert c t; decide

end Sys2Proof
end

section
/-! SUPPORT. The words of custom-0 that decode (R150). -/

namespace Sys2Proof

section
variable {f : Fields} (ho : f.opc = 0x0B#7) {n : Nat} (hn : f.op6.toNat = n)
include ho hn

/-- The DV word of a word's own fields is the word. -/
theorem encV_own : encV (BitVec.ofNat 6 n) f.m f.rs2 f.rs1 f.f3 f.rd = some (.w32 f.word) := by
  have hop : BitVec.ofNat 6 n ++ bit1 f.m = f.op7 := by
    apply BitVec.eq_of_toNat_eq
    have hlt := f.op7.isLt
    rw [← eq_ofNat hn, toNat_cat, Fields.m, toNat_bit, Fields.op6, toNat_part]
    omega
  rw [encV, hop, ← ho]
  rfl

theorem encodesTo_typed {g : LaneTy → Instr} (hg : ∀ t, encode (g t) = encV (BitVec.ofNat 6 n) f.m f.rs2 f.rs1 (laneTyCode t) f.rd) :
    EncodesTo (.w32 f.word) ((laneTyOf f.f3).bind fun t => legal (g t)) :=
  .of_bind fun t ht => .of_legal (by rw [hg, laneTyCode_of ht, encV_own ho hn])

theorem encodesTo_typed1 {g : LaneTy → Instr} (hg : ∀ t, encode (g t) = encV (BitVec.ofNat 6 n) f.m 0#5 f.rs1 (laneTyCode t) f.rd) :
    EncodesTo (.w32 f.word) (if f.rs2 = 0#5 then (laneTyOf f.f3).bind fun t => legal (g t) else none) :=
  .of_guard fun h2 => encodesTo_typed ho hn fun t => by rw [h2]; exact hg t

theorem encodesTo_plainV {i : Instr} (hi : encode i = encV (BitVec.ofNat 6 n) f.m f.rs2 f.rs1 0#3 f.rd) :
    EncodesTo (.w32 f.word) (if f.f3 = 0#3 then some i else none) :=
  .of_guard fun h3 => .of_some (by rw [hi, ← h3, encV_own ho hn])

theorem encodesTo_plainV1 {i : Instr} (hi : encode i = encV (BitVec.ofNat 6 n) f.m 0#5 f.rs1 0#3 f.rd) :
    EncodesTo (.w32 f.word) (if f.rs2 = 0#5 then if f.f3 = 0#3 then some i else none else none) :=
  .of_guard fun h2 => encodesTo_plainV ho hn (by rw [h2]; exact hi)

theorem encodesTo_float1 {i : Instr} (hi : encode i = encV (BitVec.ofNat 6 n) f.m 0#5 f.rs1 2#3 f.rd) :
    EncodesTo (.w32 f.word) (if f.rs2 = 0#5 ∧ f.f3 = 2#3 then some i else none) :=
  .of_guard fun ⟨h2, h3⟩ => .of_some (by rw [hi, ← h2, ← h3, encV_own ho hn])

theorem encodesTo_cmp {g : LaneTy → Bool → Instr}
    (hg : ∀ t c, encode (g t c) = encV (BitVec.ofNat 6 n) f.m f.rs2 f.rs1 (laneTyCode t) (0#4 ++ bit1 c)) :
    EncodesTo (.w32 f.word) (if f.rd = 0#5 then (laneTyOf f.f3).bind fun t => legal (g t false)
      else if f.rd = 1#5 then (laneTyOf f.f3).bind fun t => legal (g t true) else none) :=
  .of_either (fun hd => encodesTo_typed ho hn fun t => by rw [hg, hd, dst_code]; rfl)
    fun _ => .of_guard fun hd => encodesTo_typed ho hn fun t => by rw [hg, hd, dst_code]; rfl

theorem encodesTo_lane {g : BitVec 4 → Instr} (hg : ∀ l, encode (g l) = encV (BitVec.ofNat 6 n) f.m (0#1 ++ l) f.rs1 0#3 f.rd) :
    EncodesTo (.w32 f.word) (if f.rs2.getLsbD 4 then none else if f.f3 = 0#3 then some (g (f.rs2.extractLsb' 0 4)) else none) := by
  have hjoin : ∀ v : BitVec 5, ¬ v.getLsbD 4 → 0#1 ++ v.extractLsb' 0 4 = v := by decide
  exact .of_unless fun h4 => encodesTo_plainV ho hn (by rw [hg, hjoin _ h4])

end

theorem encodesTo_decodeV {f : Fields} (ho : f.opc = 0x0B#7) : EncodesTo (.w32 f.word) (decodeV f) := by
  unfold decodeV
  simp only
  split
  case h_1 h | h_2 h | h_3 h | h_4 h | h_5 h | h_6 h | h_7 h | h_25 h | h_26 h | h_27 h => exact encodesTo_typed ho h fun _ => rfl
  case h_8 h | h_9 h | h_31 h | h_32 h | h_33 h => exact encodesTo_typed1 ho h fun _ => rfl
  case h_10 h | h_11 h | h_12 h | h_14 h | h_15 h | h_16 h | h_20 h | h_37 h | h_38 h | h_39 h | h_40 h =>
    exact encodesTo_plainV ho h rfl
  case h_13 h | h_34 h | h_41 h => exact encodesTo_plainV1 ho h rfl
  case h_17 h => exact encodesTo_cmp (g := (.vcmpeq f.m · · f.rs1 f.rs2)) ho h fun _ _ => rfl
  case h_18 h => exact encodesTo_cmp (g := (.vcmplt f.m · · f.rs1 f.rs2)) ho h fun _ _ => rfl
  case h_19 h => exact encodesTo_cmp (g := (.vcmple f.m · · f.rs1 f.rs2)) ho h fun _ _ => rfl
  case h_21 h | h_22 h | h_23 h | h_24 h | h_29 h | h_30 h => exact encodesTo_float1 ho h rfl
  case h_28 h => exact .of_some (encV_own ho h)
  case h_35 h | h_36 h => exact encodesTo_lane ho h fun _ => rfl
  case h_42 => exact .of_none

end Sys2Proof
end

section
/-! SUPPORT. The words of custom-1 that decode (R151). -/

namespace Sys2Proof

section
variable {f : Fields} (ho : f.opc = 0x2B#7) {n : Nat} (hn : f.op5.toNat = n)
include ho hn

/-- The DX word of a word's own fields is the word. -/
theorem encDX_own : encDX (BitVec.ofNat 5 n) f.xw f.rs2 f.rs1 f.f3 f.rd = some (.w32 f.word) := by
  have hop : BitVec.ofNat 5 n ++ f.xw = f.op7 := by
    rw [← eq_ofNat hn]
    exact extract_join (n := 5) (m := 2) f.op7
  rw [encDX, hop, ← ho]
  rfl

/-- The DM word of a word's own fields is the word. -/
theorem encDM_own : encDM (BitVec.ofNat 5 n) f.off7 f.rs1 f.f3 f.rd = some (.w32 f.word) := by
  have hup : f.off7.extractLsb' 5 2 = f.xw := (extract_cat_up f.xw f.rs2 _ _ (by decide)).trans (extract_all _ _ rfl)
  have hlo : f.off7.extractLsb' 0 5 = f.rs2 := (extract_cat_lo f.xw f.rs2 _ _ (by decide)).trans (extract_all _ _ rfl)
  rw [encDM, hup, hlo]
  exact encDX_own ho hn

theorem encodesTo_rx {g : Bool → Instr} (hg : ∀ b, encode (g b) = encDM (BitVec.ofNat 5 n) f.off7 f.rs1 (0#2 ++ bit1 b) f.rd) :
    EncodesTo (.w32 f.word) (if f.f3 = 0#3 then some (g false) else if f.f3 = 1#3 then some (g true) else none) :=
  .of_either (fun h3 => .of_some (by rw [hg, ← encDM_own ho hn, h3]; rfl))
    fun _ => .of_guard fun h3 => .of_some (by rw [hg, ← encDM_own ho hn, h3]; rfl)

theorem encodesTo_rxX {g : Bool → Instr}
    (hg : ∀ b, encode (g b) = encDX (BitVec.ofNat 5 n) 0#2 f.rs2 f.rs1 (0#2 ++ bit1 b) f.rd) :
    EncodesTo (.w32 f.word) (if f.xw = 0#2 then if f.f3 = 0#3 then some (g false) else if f.f3 = 1#3 then some (g true) else none
      else none) :=
  .of_guard fun hx => .of_either (fun h3 => .of_some (by rw [hg, ← encDX_own ho hn, h3, hx]; rfl))
    fun _ => .of_guard fun h3 => .of_some (by rw [hg, ← encDX_own ho hn, h3, hx]; rfl)

theorem encodesTo_bits {g : BitVec 5 → Instr}
    (hg : ∀ w, encode (g w) = encDX (BitVec.ofNat 5 n) (w.extractLsb' 3 2) f.rs2 f.rs1 (w.extractLsb' 0 3) f.rd) :
    EncodesTo (.w32 f.word) (some (g (f.xw ++ f.f3))) := by
  have hup : (f.xw ++ f.f3).extractLsb' 3 2 = f.xw := (extract_cat_up f.xw f.f3 _ _ (by decide)).trans (extract_all _ _ rfl)
  have hlo : (f.xw ++ f.f3).extractLsb' 0 3 = f.f3 := (extract_cat_lo f.xw f.f3 _ _ (by decide)).trans (extract_all _ _ rfl)
  exact .of_some (by rw [hg, hup, hlo, encDX_own ho hn])

theorem encodesTo_tag {i : Instr} (hi : encode i = encDM (BitVec.ofNat 5 n) f.off7 f.rs1 0#3 f.rd) :
    EncodesTo (.w32 f.word) (if f.f3 = 0#3 then some i else none) :=
  .of_guard fun h3 => .of_some (by rw [hi, ← h3, encDM_own ho hn])

end

theorem encodesTo_decodeM {f : Fields} (ho : f.opc = 0x2B#7) : EncodesTo (.w32 f.word) (decodeM f) := by
  unfold decodeM
  simp only
  split
  case h_1 h =>
    refine .of_map fun width hw => ?_
    rw [← encDM_own ho h, ← lrxWCode_of hw]
    rfl
  case h_2 h =>
    have hjoin : ∀ v : BitVec 3, ¬ v.getLsbD 2 → 0#1 ++ v.extractLsb' 0 2 = v := by decide
    refine .of_unless fun h3 => .of_some ?_
    rw [← encDM_own ho h]
    exact congrArg (encDM _ _ _ · _) (hjoin _ h3)
  case h_3 h => exact encodesTo_rx (g := (.vld · f.rd f.rs1 f.off7)) ho h fun _ => rfl
  case h_4 h => exact encodesTo_rx (g := (.vst · f.rd f.rs1 f.off7)) ho h fun _ => rfl
  case h_5 h => exact encodesTo_rxX (g := (.vlds · f.rd f.rs1 f.rs2)) ho h fun _ => rfl
  case h_6 h => exact encodesTo_rxX (g := (.vsts · f.rd f.rs1 f.rs2)) ho h fun _ => rfl
  case h_7 h => exact encodesTo_rxX (g := (.vldx · f.rd f.rs1 f.rs2)) ho h fun _ => rfl
  case h_8 h => exact encodesTo_rxX (g := (.vstx · f.rd f.rs1 f.rs2)) ho h fun _ => rfl
  case h_9 h => exact .of_some (encDM_own ho h)
  case h_10 h => exact encodesTo_bits (g := (.ldbit f.rd f.rs1 f.rs2 ·)) ho h fun _ => rfl
  case h_11 h => exact encodesTo_bits (g := (.stbit f.rd f.rs1 f.rs2 ·)) ho h fun _ => rfl
  case h_12 h => exact encodesTo_bits (g := (.vldbit f.rd f.rs1 f.rs2 ·)) ho h fun _ => rfl
  case h_13 h => exact encodesTo_bits (g := (.vstbit f.rd f.rs1 f.rs2 ·)) ho h fun _ => rfl
  case h_14 h | h_15 h => exact encodesTo_tag ho h rfl
  case h_16 => exact .of_none

end Sys2Proof
end

section
/-! SUPPORT. The words of custom-2 and custom-3 that decode (R152, R153, R261, R279). -/

namespace Sys2Proof

section
variable {f : Fields} (ho : f.opc = 0x5B#7) {n : Nat} (hn : f.op7.toNat = n)
include ho hn

/-- The DS word of a word's own fields is the word. -/
theorem encS_own : encS (BitVec.ofNat 7 n) f.rs2 f.rs1 f.f3 f.rd = some (.w32 f.word) := by
  rw [encS, ← eq_ofNat hn, ← ho]
  rfl

theorem encodesTo_scoped {g : Scope → Instr} (hg : ∀ c, encode (g c) = encS (BitVec.ofNat 7 n) f.rs2 f.rs1 (scopeCode c) f.rd) :
    EncodesTo (.w32 f.word) ((scopeOf f.f3).map g) :=
  .of_map fun c hc => by rw [hg, scopeCode_of hc, encS_own ho hn]

theorem encodesTo_scoped1 {g : Scope → Instr} (hg : ∀ c, encode (g c) = encS (BitVec.ofNat 7 n) 0#5 f.rs1 (scopeCode c) f.rd) :
    EncodesTo (.w32 f.word) (if f.rs2 = 0#5 then (scopeOf f.f3).map g else none) :=
  .of_guard fun h2 => encodesTo_scoped ho hn (by rw [h2]; exact hg)

theorem encodesTo_scopedSt {g : Scope → Instr}
    (hg : ∀ c, encode (g c) = encS (BitVec.ofNat 7 n) f.rs2 f.rs1 (scopeCode c) 0#5) :
    EncodesTo (.w32 f.word) (if f.rd = 0#5 then (scopeOf f.f3).map g else none) :=
  .of_guard fun hd => encodesTo_scoped ho hn (by rw [hd]; exact hg)

theorem encodesTo_plainS {i : Instr} (hi : encode i = encS (BitVec.ofNat 7 n) f.rs2 f.rs1 0#3 f.rd) :
    EncodesTo (.w32 f.word) (if f.f3 = 0#3 then legal i else none) :=
  .of_guard fun h3 => .of_legal (by rw [hi, ← h3, encS_own ho hn])

theorem encodesTo_plainS1 {i : Instr} (hi : encode i = encS (BitVec.ofNat 7 n) 0#5 f.rs1 0#3 f.rd) :
    EncodesTo (.w32 f.word) (if f.rs2 = 0#5 then if f.f3 = 0#3 then legal i else none else none) :=
  .of_guard fun h2 => encodesTo_plainS ho hn (by rw [h2]; exact hi)

theorem encodesTo_plainS11 {i : Instr} (hi : encode i = encS (BitVec.ofNat 7 n) 0#5 f.rs1 0#3 0#5) :
    EncodesTo (.w32 f.word) (if f.rd = 0#5 then if f.rs2 = 0#5 then if f.f3 = 0#3 then legal i else none else none else none) :=
  .of_guard fun hd => encodesTo_plainS1 ho hn (by rw [hd]; exact hi)

end

theorem encodesTo_decodeS {f : Fields} (ho : f.opc = 0x5B#7) : EncodesTo (.w32 f.word) (decodeS f) := by
  unfold decodeS
  simp only
  split
  case h_1 h => exact .of_guard fun ⟨hd, h1⟩ => encodesTo_scoped1 ho h fun _ => by rw [hd, h1]; rfl
  case h_2 h | h_3 h | h_4 h | h_5 h | h_34 h | h_35 h | h_36 h | h_37 h => exact encodesTo_scoped1 ho h fun _ => rfl
  case h_6 h | h_7 h | h_8 h | h_9 h => exact encodesTo_scopedSt ho h fun _ => rfl
  case h_10 h | h_11 h | h_12 h | h_13 h | h_14 h | h_15 h | h_16 h | h_17 h | h_18 h | h_19 h | h_20 h | h_21 h |
      h_22 h | h_23 h | h_24 h | h_25 h | h_26 h | h_27 h | h_28 h | h_29 h | h_30 h | h_31 h | h_32 h | h_33 h |
      h_39 h | h_40 h | h_41 h | h_42 h | h_43 h | h_44 h | h_45 h | h_51 h | h_52 h =>
    exact encodesTo_scoped ho h fun _ => rfl
  case h_38 h | h_47 h | h_49 h | h_53 h | h_56 h => exact encodesTo_plainS1 ho h rfl
  case h_46 h | h_48 h | h_50 h => exact encodesTo_plainS11 ho h rfl
  case h_54 h => exact encodesTo_plainS ho h rfl
  case h_55 h => exact .of_guard fun hd => encodesTo_plainS ho h (by rw [hd]; rfl)
  case h_57 => exact .of_none

section
variable {f : Fields} (ho : f.opc = 0x7B#7) {n : Nat} (hn : f.op7.toNat = n)
include ho hn

/-- A DC instruction whose unused fields are the word's own. -/
theorem encodesTo_pairs {b : Bool} {i : Instr} {r2 r1 r : BitVec 5} (hi : encode i = encC (BitVec.ofNat 7 n) r2 r1 r)
    (hb : b = true → f.rs2 = r2 ∧ f.rs1 = r1 ∧ f.rd = r) :
    EncodesTo (.w32 f.word) (if b && f.f3 == 0#3 then some i else none) := by
  refine .of_guard fun h => .of_some ?_
  obtain ⟨h, h3⟩ := Bool.and_eq_true_iff.mp h
  obtain ⟨rfl, rfl, rfl⟩ := hb h
  rw [hi, encC, ← eq_ofNat hn, ← ho, ← eq_of_beq h3]
  rfl

end

theorem encodesTo_decodeC {f : Fields} (ho : f.opc = 0x7B#7) : EncodesTo (.w32 f.word) (decodeC f) := by
  unfold decodeC
  simp only
  split
  case h_1 h | h_2 h | h_3 h | h_4 h | h_5 h | h_6 h | h_7 h | h_8 h | h_9 h | h_10 h | h_11 h |
      h_12 h | h_13 h | h_14 h | h_15 h | h_16 h | h_17 h | h_18 h | h_19 h | h_20 h | h_21 h =>
    exact encodesTo_pairs ho h rfl fun hb => by simp_all
  case h_22 => exact .of_none

end Sys2Proof
end

section
/-! SUPPORT. The pairs of words of the D64 form that decode (R154, R205, R216, R241, R261). -/

namespace Sys2Proof

section
variable {f : Fields} {e : BitVec 32} (ho : f.opc = d64Opc) {n : Nat} (hn : f.op7.toNat = n)
include ho hn

/-- A D64 instruction whose unused fields are the words' own, and whose ext32 is put together from its parts. -/
theorem encodesTo_long {b : Bool} {used : Nat} {i : Instr} {r2 r1 r : BitVec 5} {ext : BitVec 32}
    (hi : encode i = encD (BitVec.ofNat 7 n) r2 r1 r ext) (he : e.toNat < 2 ^ used → ext = e)
    (hb : b = true → f.rs2 = r2 ∧ f.rs1 = r1 ∧ f.rd = r) :
    EncodesTo (.w64 f.word e) (if b && f.f3 == 0#3 && decide (e.toNat < 2 ^ used) then legal i else none) := by
  refine .of_guard fun h => .of_legal ?_
  obtain ⟨h, hlt⟩ := Bool.and_eq_true_iff.mp h
  obtain ⟨h, h3⟩ := Bool.and_eq_true_iff.mp h
  obtain ⟨rfl, rfl, rfl⟩ := hb h
  rw [hi, encD, ← eq_ofNat hn, ← ho, ← eq_of_beq h3, he (of_decide_eq_true hlt)]

end

section
variable {e : BitVec 32}

/-! ### ext32 from its parts -/

theorem ext_of0 (h : e.toNat < 2 ^ 0) : 0#32 = e := by
  apply BitVec.eq_of_toNat_eq
  rw [BitVec.toNat_ofNat]
  omega

theorem ext_of2 (h : e.toNat < 2 ^ 2) : 0#30 ++ e.extractLsb' 0 2 = e := by
  apply BitVec.eq_of_toNat_eq
  simp only [toNat_cat, toNat_part, BitVec.toNat_ofNat]
  omega

theorem ext_of3 (h : e.toNat < 2 ^ 3) : 0#29 ++ e.extractLsb' 0 3 = e := by
  apply BitVec.eq_of_toNat_eq
  simp only [toNat_cat, toNat_part, BitVec.toNat_ofNat]
  omega

theorem ext_of4 (h : e.toNat < 2 ^ 4) : 0#28 ++ e.extractLsb' 0 4 = e := by
  apply BitVec.eq_of_toNat_eq
  simp only [toNat_cat, toNat_part, BitVec.toNat_ofNat]
  omega

theorem ext_of7 (h : e.toNat < 2 ^ 7) : 0#25 ++ e.extractLsb' 2 5 ++ e.extractLsb' 0 2 = e := by
  apply BitVec.eq_of_toNat_eq
  simp only [toNat_cat, toNat_part, BitVec.toNat_ofNat]
  omega

theorem ext_of8 (h : e.toNat < 2 ^ 8) : 0#24 ++ bit1 (e.getLsbD 7) ++ bit1 (e.getLsbD 6) ++ e.extractLsb' 3 3 ++ bit1 (e.getLsbD 2) ++
    e.extractLsb' 0 2 = e := by
  apply BitVec.eq_of_toNat_eq
  simp only [toNat_cat, toNat_part, toNat_bit, BitVec.toNat_ofNat]
  omega

theorem ext_of9 (h : e.toNat < 2 ^ 9) : 0#23 ++ bit1 (e.getLsbD 8) ++ bit1 (e.getLsbD 7) ++ e.extractLsb' 2 5 ++
    e.extractLsb' 0 2 = e := by
  apply BitVec.eq_of_toNat_eq
  simp only [toNat_cat, toNat_part, toNat_bit, BitVec.toNat_ofNat]
  omega

theorem ext_of12 (h : e.toNat < 2 ^ 12) : 0#20 ++ e.extractLsb' 8 4 ++ e.extractLsb' 5 3 ++ e.extractLsb' 2 3 ++
    e.extractLsb' 0 2 = e := by
  apply BitVec.eq_of_toNat_eq
  simp only [toNat_cat, toNat_part, BitVec.toNat_ofNat]
  omega

end

theorem encode_phint_word (l : BitVec 18) (x v : BitVec 16) : encode (.phint l x v) =
    some (.w64 (Fields.word ⟨0x25#7, l.extractLsb' 13 5, l.extractLsb' 8 5, l.extractLsb' 5 3, l.extractLsb' 0 5, d64Opc⟩) (v ++ x)) :=
  rfl

/-- PHINT's fields are all of both words (R241). -/
theorem encode_phint {f : Fields} {e : BitVec 32} (ho : f.opc = d64Opc) (hn : f.op7.toNat = 0x25) :
    encode (.phint (f.rs2 ++ f.rs1 ++ f.f3 ++ f.rd) (e.extractLsb' 0 16) (e.extractLsb' 16 16)) = some (.w64 f.word e) := by
  have hext : e.extractLsb' 16 16 ++ e.extractLsb' 0 16 = e := extract_join (n := 16) (m := 16) e
  have h2 : (f.rs2 ++ f.rs1 ++ f.f3 ++ f.rd).extractLsb' 13 5 = f.rs2 := by
    apply BitVec.eq_of_toNat_eq
    simp only [toNat_cat, toNat_part]
    omega
  have h1 : (f.rs2 ++ f.rs1 ++ f.f3 ++ f.rd).extractLsb' 8 5 = f.rs1 := by
    apply BitVec.eq_of_toNat_eq
    simp only [toNat_cat, toNat_part]
    omega
  have h3 : (f.rs2 ++ f.rs1 ++ f.f3 ++ f.rd).extractLsb' 5 3 = f.f3 := by
    apply BitVec.eq_of_toNat_eq
    simp only [toNat_cat, toNat_part]
    omega
  have hd : (f.rs2 ++ f.rs1 ++ f.f3 ++ f.rd).extractLsb' 0 5 = f.rd := by
    apply BitVec.eq_of_toNat_eq
    simp only [toNat_cat, toNat_part]
    omega
  have hop : (0x25#7 : BitVec 7) = f.op7 := (eq_ofNat hn).symm
  rw [encode_phint_word, h2, h1, h3, hd, hext, hop, ← ho]

theorem encodesTo_decodeD64 {f : Fields} {e : BitVec 32} (ho : f.opc = d64Opc) : EncodesTo (.w64 f.word e) (decodeD64 f e) := by
  unfold decodeD64
  simp only
  split
  case h_1 h | h_2 h | h_11 h | h_14 h | h_16 h =>
    exact encodesTo_long ho h rfl ext_of0 fun hb => by simp_all
  case h_6 h | h_12 h | h_13 h =>
    exact encodesTo_long ho h rfl ext_of2 fun hb => by simp_all
  case h_4 h | h_5 h =>
    exact encodesTo_long ho h rfl ext_of3 fun hb => by simp_all
  case h_18 h => exact encodesTo_long ho h rfl ext_of4 fun hb => by simp_all
  case h_9 h => exact encodesTo_long ho h rfl ext_of7 fun hb => by simp_all
  case h_3 h => exact encodesTo_long ho h rfl ext_of8 fun hb => by simp_all
  case h_10 h => exact encodesTo_long ho h rfl ext_of9 fun hb => by simp_all
  case h_7 h | h_8 h => exact encodesTo_long ho h rfl ext_of12 fun hb => by simp_all
  case h_15 h | h_17 h => exact encodesTo_long ho h rfl (fun _ => rfl) fun hb => by simp_all
  case h_19 h => exact .of_some (encode_phint ho h)
  case h_20 => exact .of_none

end Sys2Proof
end

section
/-! SUPPORT. The words of the base that decode (R141). -/

namespace Sys2Proof

section
variable {f : Fields}

/-! ### The shapes of the base's words -/

/-- A word of the base from the word's own fields. -/
theorem enc32_own {op7 : BitVec 7} {rs2 rs1 rd : BitVec 5} {f3 : BitVec 3} {opc : BitVec 7} (h7 : op7 = f.op7) (h2 : rs2 = f.rs2)
    (h1 : rs1 = f.rs1) (h3 : f3 = f.f3) (hd : rd = f.rd) (ho : opc = f.opc) : enc32 op7 rs2 rs1 f3 rd opc = some (.w32 f.word) := by
  rw [h7, h2, h1, h3, hd, ho]
  rfl

theorem immI_op7 : f.immI.extractLsb' 5 7 = f.op7 := (extract_cat_up f.op7 f.rs2 _ _ (by decide)).trans (extract_all _ _ rfl)
theorem immI_rs2 : f.immI.extractLsb' 0 5 = f.rs2 := (extract_cat_lo f.op7 f.rs2 _ _ (by decide)).trans (extract_all _ _ rfl)
theorem immS_op7 : f.immS.extractLsb' 5 7 = f.op7 := (extract_cat_up f.op7 f.rd _ _ (by decide)).trans (extract_all _ _ rfl)
theorem immS_rd : f.immS.extractLsb' 0 5 = f.rd := (extract_cat_lo f.op7 f.rd _ _ (by decide)).trans (extract_all _ _ rfl)

theorem encI_own {imm : BitVec 12} {rs1 rd : BitVec 5} {f3 : BitVec 3} {opc : BitVec 7} (hi : imm = f.immI)
    (h1 : rs1 = f.rs1) (h3 : f3 = f.f3) (hd : rd = f.rd) (ho : opc = f.opc) : encI imm rs1 f3 rd opc = some (.w32 f.word) := by
  rw [hi]
  exact enc32_own immI_op7 immI_rs2 h1 h3 hd ho

theorem encSt_own {f3 : BitVec 3} {opc : BitVec 7} (h3 : f3 = f.f3) (ho : opc = f.opc) :
    encSt f.immS f.rs2 f.rs1 f3 opc = some (.w32 f.word) :=
  enc32_own immS_op7 rfl rfl h3 immS_rd ho

/-- The upper immediate stands in four fields. -/
theorem enc_immU {opc : BitVec 7} (ho : opc = f.opc) :
    enc32 (f.immU.extractLsb' 13 7) (f.immU.extractLsb' 8 5) (f.immU.extractLsb' 3 5) (f.immU.extractLsb' 0 3) f.rd opc =
      some (.w32 f.word) := by
  refine enc32_own ?_ ?_ ?_ ?_ rfl ho <;>
  · apply BitVec.eq_of_toNat_eq
    simp only [Fields.immU, toNat_cat, toNat_part]
    omega

/-- The parts of JAL's offset. -/
theorem parts_immJ (a : BitVec 1) (b : BitVec 5) (c : BitVec 3) (d : BitVec 1) (e : BitVec 6) (g : BitVec 4) :
    let imm := a ++ b ++ c ++ d ++ e ++ g
    imm.extractLsb' 19 1 = a ∧ imm.extractLsb' 14 5 = b ∧ imm.extractLsb' 11 3 = c ∧ imm.extractLsb' 10 1 = d ∧
    imm.extractLsb' 4 6 = e ∧ imm.extractLsb' 0 4 = g := by
  refine ⟨?_, ?_, ?_, ?_, ?_, ?_⟩ <;>
  · apply BitVec.eq_of_toNat_eq
    simp only [toNat_cat, toNat_part]
    omega

/-- The parts of a branch's offset. -/
theorem parts_immB (a d : BitVec 1) (e : BitVec 6) (g : BitVec 4) :
    let imm := a ++ d ++ e ++ g
    imm.extractLsb' 11 1 = a ∧ imm.extractLsb' 10 1 = d ∧ imm.extractLsb' 4 6 = e ∧ imm.extractLsb' 0 4 = g := by
  refine ⟨?_, ?_, ?_, ?_⟩ <;>
  · apply BitVec.eq_of_toNat_eq
    simp only [toNat_cat, toNat_part]
    omega

theorem enc_immJ {opc : BitVec 7} (ho : opc = f.opc) :
    enc32 (f.immJ.extractLsb' 19 1 ++ f.immJ.extractLsb' 4 6) (f.immJ.extractLsb' 0 4 ++ f.immJ.extractLsb' 10 1)
      (f.immJ.extractLsb' 14 5) (f.immJ.extractLsb' 11 3) f.rd opc = some (.w32 f.word) := by
  obtain ⟨ha, hb, hc, hd, he, hg⟩ := parts_immJ (f.op7.extractLsb' 6 1) f.rs1 f.f3 (f.rs2.extractLsb' 0 1) (f.op7.extractLsb' 0 6)
    (f.rs2.extractLsb' 1 4)
  rw [Fields.immJ, ha, hb, hc, hd, he, hg]
  exact enc32_own (extract_join (n := 1) (m := 6) f.op7) (extract_join (n := 4) (m := 1) f.rs2) rfl rfl rfl ho

theorem enc_immB {f3 : BitVec 3} {opc : BitVec 7} (h3 : f3 = f.f3) (ho : opc = f.opc) :
    enc32 (f.immB.extractLsb' 11 1 ++ f.immB.extractLsb' 4 6) f.rs2 f.rs1 f3
      (f.immB.extractLsb' 0 4 ++ f.immB.extractLsb' 10 1) opc = some (.w32 f.word) := by
  obtain ⟨ha, hd, he, hg⟩ := parts_immB (f.op7.extractLsb' 6 1) (f.rd.extractLsb' 0 1) (f.op7.extractLsb' 0 6)
    (f.rd.extractLsb' 1 4)
  rw [Fields.immB, ha, hd, he, hg]
  exact enc32_own (extract_join (n := 1) (m := 6) f.op7) rfl rfl h3 (extract_join (n := 4) (m := 1) f.rd) ho

/-! ### Each major opcode -/

theorem encodesTo_decodeLoad (ho : f.opc = 0x03#7) : EncodesTo (.w32 f.word) (decodeLoad f) := by
  unfold decodeLoad
  split
  case h_1 h | h_2 h | h_3 h | h_4 h | h_5 h | h_6 h | h_7 h => exact .of_some (encI_own rfl rfl (eq_ofNat h).symm rfl ho.symm)
  case h_8 => exact .of_none

theorem encodesTo_decodeStore (ho : f.opc = 0x23#7) : EncodesTo (.w32 f.word) (decodeStore f) := by
  unfold decodeStore
  split
  case h_1 h | h_2 h | h_3 h | h_4 h => exact .of_some (encSt_own (eq_ofNat h).symm ho.symm)
  case h_5 => exact .of_none

theorem encodesTo_decodeMiscMem (ho : f.opc = 0x0F#7) : EncodesTo (.w32 f.word) (decodeMiscMem f) := by
  have hjoin : f.op7.extractLsb' 3 4 ++ f.immI.extractLsb' 4 4 ++ f.immI.extractLsb' 0 4 = f.immI := by
    apply BitVec.eq_of_toNat_eq
    simp only [Fields.immI, toNat_cat, toNat_part]
    omega
  unfold decodeMiscMem
  simp only
  split
  case h_1 h =>
    refine .of_either (fun ⟨hfm, hp, hs⟩ => .of_some ?_) fun _ => .of_some ?_
    · rw [hfm, hp, hs] at hjoin
      exact encI_own hjoin rfl (eq_ofNat h).symm rfl ho.symm
    · exact encI_own hjoin rfl (eq_ofNat h).symm rfl ho.symm
  case h_2 h => exact .of_some (encI_own rfl rfl (eq_ofNat h).symm rfl ho.symm)
  case h_3 => exact .of_none

/-- An immediate from its upper half, named by its number, and its lower. -/
theorem immI_halves {n : Nat} (hn : (f.immI.extractLsb' 6 6).toNat = n) : BitVec.ofNat 6 n ++ f.immI.extractLsb' 0 6 = f.immI := by
  rw [← eq_ofNat hn]
  exact extract_join (n := 6) (m := 6) f.immI

/-- op7 and rs2 from the halves of the immediate. -/
theorem fields_of_halves {n k : Nat} (hn : (f.immI.extractLsb' 6 6).toNat = n) (hk : (f.immI.extractLsb' 0 6).toNat = k) :
    BitVec.ofNat 7 (2 * n + k / 32) = f.op7 ∧ BitVec.ofNat 5 (k % 32) = f.rs2 := by
  have h7 := f.op7.isLt
  have h2 := f.rs2.isLt
  simp only [Fields.immI, toNat_part, toNat_cat] at hn hk
  constructor <;>
  · apply BitVec.eq_of_toNat_eq
    rw [BitVec.toNat_ofNat]
    omega

section
variable {n : Nat} (hc : (f.immI.extractLsb' 6 6).toNat = n)
include hc

theorem encI_shift {rs1 rd : BitVec 5} {f3 : BitVec 3} {opc : BitVec 7} (h1 : rs1 = f.rs1) (h3 : f3 = f.f3) (hd : rd = f.rd) (ho : opc = f.opc) :
    encI (BitVec.ofNat 6 n ++ f.immI.extractLsb' 0 6) rs1 f3 rd opc = some (.w32 f.word) :=
  encI_own (immI_halves hc) h1 h3 hd ho

theorem enc32_unary {o : UnOp} {k : Nat} (hk : (f.immI.extractLsb' 0 6).toNat = k) (h3 : (unCode o).2.2.1 = f.f3)
    (ho : (unCode o).2.2.2 = f.opc) (h7 : (unCode o).1 = BitVec.ofNat 7 (2 * n + k / 32)) (h2 : (unCode o).2.1 = BitVec.ofNat 5 (k % 32)) :
    encode (.baseArithmetic (.unary o f.rd f.rs1)) = some (.w32 f.word) :=
  enc32_own (h7.trans (fields_of_halves hc hk).1) (h2.trans (fields_of_halves hc hk).2) rfl h3 rfl ho

end

theorem encodesTo_decodeOpImm (ho : f.opc = 0x13#7) : EncodesTo (.w32 f.word) (decodeOpImm f) := by
  unfold decodeOpImm
  simp only
  split
  case h_1 h | h_2 h | h_3 h | h_4 h | h_5 h | h_6 h => exact .of_some (encI_own rfl rfl (eq_ofNat h).symm rfl ho.symm)
  case h_7 h =>
    have h3 := (eq_ofNat h).symm
    split
    case h_1 hc => exact .of_some (encI_shift hc rfl h3 rfl ho.symm)
    case h_2 hc =>
      split
      case h_1 hk | h_2 hk | h_3 hk | h_4 hk | h_5 hk => exact .of_some (enc32_unary hc hk h3 ho.symm rfl rfl)
      case h_6 => exact .of_none
    case h_3 => exact .of_none
  case h_8 h0 h2 h3 h4 h6 h7 h1 =>
    have five : ∀ m < 2 ^ 3, m ≠ 0 → m ≠ 1 → m ≠ 2 → m ≠ 3 → m ≠ 4 → m ≠ 6 → m ≠ 7 → m = 5 := by omega
    have h3 := (eq_ofNat (five _ f.f3.isLt h0 h1 h2 h3 h4 h6 h7)).symm
    split
    case h_1 hc | h_2 hc | h_3 hc => exact .of_some (encI_shift hc rfl h3 rfl ho.symm)
    case h_4 hc | h_5 hc =>
      exact .of_guard fun hk => .of_some (enc32_unary hc (congrArg BitVec.toNat hk) h3 ho.symm rfl rfl)
    case h_6 => exact .of_none

theorem encodesTo_decodeOpImm32 (ho : f.opc = 0x1B#7) : EncodesTo (.w32 f.word) (decodeOpImm32 f) := by
  unfold decodeOpImm32
  simp only
  split
  case h_1 h => exact .of_some (encI_own rfl rfl (eq_ofNat h).symm rfl ho.symm)
  case h_2 h =>
    have h3 := (eq_ofNat h).symm
    refine .of_either (fun hc => .of_some (encI_shift (congrArg BitVec.toNat hc) rfl h3 rfl ho.symm)) fun _ => ?_
    split
    case h_1 h7 => exact .of_some (enc32_own (eq_ofNat h7).symm rfl rfl h3 rfl ho.symm)
    case h_2 h7 =>
      split
      case h_1 h2 | h_2 h2 | h_3 h2 => exact .of_some (enc32_own (eq_ofNat h7).symm (eq_ofNat h2).symm rfl h3 rfl ho.symm)
      case h_4 => exact .of_none
    case h_3 => exact .of_none
  case h_3 h =>
    split
    case h_1 h7 | h_2 h7 | h_3 h7 => exact .of_some (enc32_own (eq_ofNat h7).symm rfl rfl (eq_ofNat h).symm rfl ho.symm)
    case h_4 => exact .of_none
  case h_4 => exact .of_none

/-! ### Atomics -/

theorem encAmo_own {op5 : BitVec 5} {dbl : Bool} {rs2 : BitVec 5} (h5 : op5 = f.op5) (h2 : rs2 = f.rs2)
    (h3 : (if dbl then 3#3 else 2#3) = f.f3) (ho : 0x2F#7 = f.opc) :
    encAmo op5 dbl (f.op7.getLsbD 1) (f.op7.getLsbD 0) rs2 f.rs1 f.rd = some (.w32 f.word) := by
  refine enc32_own ?_ h2 rfl h3 rfl ho
  apply BitVec.eq_of_toNat_eq
  have hlt := f.op7.isLt
  simp only [h5, Fields.op5, toNat_cat, toNat_part, toNat_bit]
  omega

/-- LR, SC and the AMOs of a width. -/
theorem encodesTo_amo {dbl : Bool} (h3 : (if dbl then 3#3 else 2#3) = f.f3) (ho : 0x2F#7 = f.opc) :
    EncodesTo (.w32 f.word) (match f.op5.toNat with
      | 0x02 => if f.rs2 = 0#5 then some (.lr dbl (f.op7.getLsbD 1) (f.op7.getLsbD 0) f.rd f.rs1) else none
      | 0x03 => some (.sc dbl (f.op7.getLsbD 1) (f.op7.getLsbD 0) f.rd f.rs1 f.rs2)
      | _ => (amoOpOf f.op5).map (.amo · dbl (f.op7.getLsbD 1) (f.op7.getLsbD 0) f.rd f.rs1 f.rs2)) := by
  split
  case h_1 h => exact .of_guard fun h2 => .of_some (encAmo_own (eq_ofNat h).symm h2.symm h3 ho)
  case h_2 h => exact .of_some (encAmo_own (eq_ofNat h).symm rfl h3 ho)
  case h_3 => exact .of_map fun _ ha => encAmo_own (amoOpCode_of ha) rfl h3 ho

theorem encodesTo_decodeAmo (ho : f.opc = 0x2F#7) : EncodesTo (.w32 f.word) (decodeAmo f) := by
  unfold decodeAmo
  simp only
  split
  case h_1 h => exact encodesTo_amo (dbl := false) (eq_ofNat h).symm ho.symm
  case h_2 h => exact encodesTo_amo (dbl := true) (eq_ofNat h).symm ho.symm
  case h_3 => exact .of_none

/-! ### Floating point -/

theorem encodesTo_decodeFp (ho : f.opc = 0x53#7) : EncodesTo (.w32 f.word) (decodeFp f) := by
  unfold decodeFp
  simp only
  split
  case h_1 h | h_2 h | h_3 h | h_4 h => exact .of_legal (enc32_own (eq_ofNat h).symm rfl rfl rfl rfl ho.symm)
  case h_5 h => exact .of_guard fun h2 => .of_legal (enc32_own (eq_ofNat h).symm h2.symm rfl rfl rfl ho.symm)
  case h_6 h =>
    split
    case h_1 h3 | h_2 h3 | h_3 h3 => exact .of_legal (enc32_own (eq_ofNat h).symm rfl rfl (eq_ofNat h3).symm rfl ho.symm)
    case h_4 => exact .of_none
  case h_7 h =>
    split
    case h_1 h3 | h_2 h3 => exact .of_legal (enc32_own (eq_ofNat h).symm rfl rfl (eq_ofNat h3).symm rfl ho.symm)
    case h_3 => exact .of_none
  case h_8 h =>
    split
    case h_1 h3 | h_2 h3 | h_3 h3 => exact .of_legal (enc32_own (eq_ofNat h).symm rfl rfl (eq_ofNat h3).symm rfl ho.symm)
    case h_4 => exact .of_none
  case h_9 h | h_10 h =>
    exact .of_bind fun _ ht => .of_legal (enc32_own (eq_ofNat h).symm (fintCode_of ht) rfl rfl rfl ho.symm)
  case h_11 h =>
    refine .of_guard fun h2 => ?_
    split
    case h_1 h3 | h_2 h3 => exact .of_legal (enc32_own (eq_ofNat h).symm h2.symm rfl (eq_ofNat h3).symm rfl ho.symm)
    case h_3 => exact .of_none
  case h_12 h => exact .of_guard fun ⟨h2, h3⟩ => .of_legal (enc32_own (eq_ofNat h).symm h2.symm rfl h3.symm rfl ho.symm)
  case h_13 => exact .of_none

theorem encodesTo_decodeFused {o : FFused} {opc : BitVec 7}
    (hi : ∀ rm rd rs1 rs2 rs3, encode (.baseArithmetic (.ffused o rm rd rs1 rs2 rs3)) = enc32 (rs3 ++ 0#2) rs2 rs1 rm rd opc)
    (ho : f.opc = opc) : EncodesTo (.w32 f.word) (decodeFused o f) := by
  unfold decodeFused
  refine .of_guard fun hx => .of_legal ?_
  rw [hi, ← hx]
  exact enc32_own (extract_join (n := 5) (m := 2) f.op7) rfl rfl rfl rfl ho.symm

/-! ### SYSTEM -/

theorem encodesTo_decodeSystem (ho : f.opc = 0x73#7) : EncodesTo (.w32 f.word) (decodeSystem f) := by
  unfold decodeSystem
  refine .of_either (fun h3 => .of_either (fun h7 => .of_guard fun hd => .of_some ?vma) fun _ => .of_guard fun ⟨hd, h1⟩ => ?words)
    fun _ => .of_bind fun o hc => .of_either (fun hi => .of_some ?tstat) fun _ => .of_some ?csr
  case vma => exact enc32_own h7.symm rfl rfl h3.symm hd.symm ho.symm
  case words =>
    split
    case h_1 h | h_3 h | h_4 h => exact .of_some (encI_own (eq_ofNat h).symm h1.symm h3.symm hd.symm ho.symm)
    case h_2 h =>
      have h7 : 0#7 = f.op7 := by rw [← immI_op7, eq_ofNat h]; rfl
      have h2 : 1#5 = f.rs2 := by rw [← immI_rs2, eq_ofNat h]; rfl
      exact .of_some (enc32_own h7 h2 h1.symm h3.symm hd.symm ho.symm)
    case h_5 => exact .of_none
  case tstat => exact encI_own hi.symm rfl (csrOpCode_of hc) rfl ho.symm
  case csr => exact encI_own rfl rfl (csrOpCode_of hc) rfl ho.symm

/-! ### OP and OP-32 -/

theorem encodesTo_alu (ho : f.opc = 0x33#7) :
    EncodesTo (.w32 f.word) ((aluOf f.op7 f.f3).map fun o => .baseArithmetic (.alu o f.rd f.rs1 f.rs2)) := by
  unfold aluOf
  split
  case h_1 h7 h3 | h_2 h7 h3 | h_3 h7 h3 | h_4 h7 h3 | h_5 h7 h3 | h_6 h7 h3 | h_7 h7 h3 | h_8 h7 h3 | h_9 h7 h3 | h_10 h7 h3 |
      h_11 h7 h3 | h_12 h7 h3 | h_13 h7 h3 | h_14 h7 h3 | h_15 h7 h3 | h_16 h7 h3 | h_17 h7 h3 | h_18 h7 h3 | h_19 h7 h3 | h_20 h7 h3 |
      h_21 h7 h3 | h_22 h7 h3 | h_23 h7 h3 | h_24 h7 h3 | h_25 h7 h3 | h_26 h7 h3 | h_27 h7 h3 | h_28 h7 h3 | h_29 h7 h3 | h_30 h7 h3 =>
    exact .of_some (enc32_own (eq_ofNat h7).symm rfl rfl (eq_ofNat h3).symm rfl ho.symm)
  case h_31 => exact .of_none

theorem encodesTo_aluW (ho : f.opc = 0x3B#7) :
    EncodesTo (.w32 f.word) ((aluWOf f.op7 f.f3).map fun o => .baseArithmetic (.alu o f.rd f.rs1 f.rs2)) := by
  unfold aluWOf
  split
  case h_1 h7 h3 | h_2 h7 h3 | h_3 h7 h3 | h_4 h7 h3 | h_5 h7 h3 | h_6 h7 h3 | h_7 h7 h3 | h_8 h7 h3 |
      h_9 h7 h3 | h_10 h7 h3 | h_11 h7 h3 | h_12 h7 h3 | h_13 h7 h3 | h_14 h7 h3 | h_15 h7 h3 | h_16 h7 h3 =>
    exact .of_some (enc32_own (eq_ofNat h7).symm rfl rfl (eq_ofNat h3).symm rfl ho.symm)
  case h_17 => exact .of_none

end
end Sys2Proof
end

section
/-! SUPPORT. Every word decodes to the instruction whose encoding it is, or is illegal (R142, R145, R146, R370). -/

namespace Sys2Proof

/-- A 32-bit word that decodes is the encoding of its instruction. -/
theorem encodesTo_decodeFields (f : Fields) : EncodesTo (.w32 f.word) (decodeFields f) := by
  unfold decodeFields
  split
  case h_1 h => exact encodesTo_decodeV (eq_ofNat h)
  case h_2 h => exact encodesTo_decodeM (eq_ofNat h)
  case h_3 h => exact encodesTo_decodeS (eq_ofNat h)
  case h_4 h => exact encodesTo_decodeC (eq_ofNat h)
  case h_5 h => exact encodesTo_decodeLoad (eq_ofNat h)
  case h_6 h => exact .of_guard fun h3 => .of_some (encI_own rfl rfl h3.symm rfl (eq_ofNat h).symm)
  case h_7 h => exact encodesTo_decodeMiscMem (eq_ofNat h)
  case h_8 h => exact encodesTo_decodeOpImm (eq_ofNat h)
  case h_9 h | h_15 h => exact .of_some (enc_immU (eq_ofNat h).symm)
  case h_10 h => exact encodesTo_decodeOpImm32 (eq_ofNat h)
  case h_11 h => exact encodesTo_decodeStore (eq_ofNat h)
  case h_12 h => exact .of_guard fun h3 => .of_some (encSt_own h3.symm (eq_ofNat h).symm)
  case h_13 h => exact encodesTo_decodeAmo (eq_ofNat h)
  case h_14 h => exact encodesTo_alu (eq_ofNat h)
  case h_16 h =>
    refine .of_either (fun ⟨h7, h2, h3⟩ => .of_some ?_) fun _ => encodesTo_aluW (eq_ofNat h)
    exact enc32_own h7.symm h2.symm rfl h3.symm rfl (eq_ofNat h).symm
  case h_17 h | h_18 h | h_19 h | h_20 h => exact encodesTo_decodeFused (fun _ _ _ _ _ => rfl) (eq_ofNat h)
  case h_21 h => exact encodesTo_decodeFp (eq_ofNat h)
  case h_22 h => exact .of_map fun _ hc => enc_immB (brOpCode_of hc) (eq_ofNat h).symm
  case h_23 h => exact .of_guard fun h3 => .of_some (encI_own rfl rfl h3.symm rfl (eq_ofNat h).symm)
  case h_24 h => exact .of_some (enc_immJ (eq_ofNat h).symm)
  case h_25 h => exact encodesTo_decodeSystem (eq_ofNat h)
  case h_26 => exact .of_none

/-- The word of a word's fields is the word. -/
theorem word_fieldsOf (w : W32) : (fieldsOf w).word = w := by
  apply BitVec.eq_of_toNat_eq
  have hlt := w.isLt
  simp only [Fields.word, fieldsOf, toNat_cat, toNat_part]
  omega

theorem encode_of_decodes {w : W32} {i : Instr} (h : decodeEnc (.w32 w) = some i) : encode i = some (.w32 w) := by
  have henc := encodesTo_decodeFields (fieldsOf w) i h
  rwa [word_fieldsOf] at henc

theorem encode_of_decodes64 {lo ext : W32} {i : Instr} (h : decodeEnc (.w64 lo ext) = some i) :
    encode i = some (.w64 lo ext) := by
  have hopc : (fieldsOf lo).opc = d64Opc := eq_of_beq (isD64_of_decodes64 h)
  rw [decodeEnc, if_pos (isD64_of_decodes64 h)] at h
  have henc := encodesTo_decodeD64 hopc i h
  rwa [word_fieldsOf] at henc

/-! ### Words that are no instruction -/

section
variable {aligned8 : Bool} {lo ext : W32}

theorem isD64_of_opc (h : (fieldsOf lo).opc = 0x3F#7) : isD64 lo = true := beq_iff_eq.mpr h

theorem not_isD64_of_opc (h : (fieldsOf lo).opc ≠ 0x3F#7) : isD64 lo = false := beq_eq_false_iff_ne.mpr h

theorem decode_of_not_isD64 (h : isD64 lo = false) :
    decode aligned8 lo ext = (decodeFields (fieldsOf lo)).getD (.illegalInstruction (lo.setWidth 64)) := by
  simp only [decode, h, Bool.false_eq_true, if_false, decodeEnc]

/-- A word without a row is the illegal instruction of its bits. -/
theorem decode_illegal (h : isD64 lo = false) (hf : decodeFields (fieldsOf lo) = none) :
    decode aligned8 lo ext = .illegalInstruction (lo.setWidth 64) := by
  rw [decode_of_not_isD64 h, hf]
  rfl

end

/-- Every major opcode ends in 11 (R145). -/
theorem decodeFields_none {f : Fields} (h : f.opc.toNat % 4 ≠ 3) : decodeFields f = none := by
  unfold decodeFields
  split
  case h_26 => rfl
  all_goals omega

/-- No row of custom-0 has an op6 above 0x28, and those below 7 take a type (R147, R150). -/
theorem decodeV_none {f : Fields} (h : 0x28 < f.op6.toNat ∨ (f.op6.toNat < 7 ∧ laneTyOf f.f3 = none)) : decodeV f = none := by
  unfold decodeV
  simp only
  split
  case h_1 | h_2 | h_3 | h_4 | h_5 | h_6 | h_7 =>
    obtain h | ⟨_, h⟩ := h
    · omega
    · rw [h]
      rfl
  case h_42 => rfl
  all_goals omega

/-- The rows of custom-2 from 0x10 to 0x29 take a scope (R149, R152). -/
theorem decodeS_none {f : Fields} (hlo : 0x10 ≤ f.op7.toNat) (hhi : f.op7.toNat ≤ 0x29) (h : scopeOf f.f3 = none) :
    decodeS f = none := by
  unfold decodeS
  simp only [h]
  split
  case h_10 | h_11 | h_12 | h_13 | h_14 | h_15 | h_16 | h_17 | h_18 | h_19 | h_20 | h_21 |
      h_22 | h_23 | h_24 | h_25 | h_26 | h_27 | h_28 | h_29 | h_30 | h_31 | h_32 | h_33 => rfl
  case h_34 | h_35 => exact ite_self none
  case h_57 => rfl
  all_goals omega

/-- Settles O43: where the decoder gives an instruction, its encoding is the word; where it gives none, the word is illegal. -/
theorem illegalWords : Obligations.IllegalWords := by
  unfold Obligations.IllegalWords
  intro aligned8 lo ext f
  refine ⟨fun h => ?low, fun h => ?misplaced, fun ho h => ?vector, fun ho hlo hhi h3 => ?scope, fun ho => ?word, fun ho => ?pair⟩
  case low =>
    have hopc : f.opc.toNat % 4 ≠ 3 := by
      intro hm
      refine h (BitVec.eq_of_toNat_eq ?_)
      have hval : f.opc.toNat = lo.toNat / 2 ^ 0 % 2 ^ 7 := toNat_part lo 0 7
      rw [toNat_part, BitVec.toNat_ofNat]
      omega
    refine decode_illegal (not_isD64_of_opc fun ho => hopc ?_) (decodeFields_none hopc)
    rw [show f.opc = 0x3F#7 from ho]
    rfl
  case misplaced => simp only [decode, isD64_of_opc h, if_true, Bool.false_eq_true, if_false]
  case vector =>
    have hty : ∀ c : BitVec 3, 2#3 < c → laneTyOf c = none := by decide
    have hnone : decodeV f = none := decodeV_none (h.imp (fun h => h) fun ⟨h6, h3⟩ => ⟨h6, hty _ h3⟩)
    refine decode_illegal (not_isD64_of_opc ?_) ((decodeFields_dv ho).trans hnone)
    rw [show (fieldsOf lo).opc = 0x0B#7 from ho]
    decide
  case scope =>
    have hsc : ∀ c : BitVec 3, 5#3 < c → scopeOf c = none := by decide
    refine decode_illegal (not_isD64_of_opc ?_) ((decodeFields_ds ho).trans (decodeS_none hlo hhi (hsc _ h3)))
    rw [show (fieldsOf lo).opc = 0x5B#7 from ho]
    decide
  case word =>
    rw [decode_of_not_isD64 (not_isD64_of_opc ho)]
    cases hd : decodeFields (fieldsOf lo) with
    | none => exact .inr rfl
    | some i => exact .inl (encode_of_decodes hd)
  case pair =>
    simp only [decode, isD64_of_opc ho, if_true]
    cases hd : decodeEnc (.w64 lo ext) with
    | none => exact .inr rfl
    | some i => exact .inl (encode_of_decodes64 hd)

end Sys2Proof
end

section
/-! SUPPORT. What the operations on lanes, the lane comparisons, vquant and vextr come to (R143, R170, R173 to R180, R183). -/

namespace Sys2Proof.Machine

section
variable {i : Instr} {s : State} {x : Hart} {m : Bool} {vd a b : RegIdx}

/-! ### Operations on lanes -/

/-- Lanes whose values raise no flag leave fflags as it was. -/
theorem Hart.putLanesF_quiet (f : Nat → W32) : (x.putLanesF m vd fun k => quiet (f k)) = x.putLanes m vd f := by
  have hflags : (x.active m).foldl (fun c k => c ||| (quiet (f k)).2) noFlags = noFlags :=
    foldl_keeps id _ (fun _ _ => BitVec.or_zero) _ _
  rw [Hart.putLanesF, hflags]
  exact Hart.orFlags_noFlags _

/-- An operation on lanes that raises no flag is one whose lanes are quiet. -/
theorem lanesPlain_eq (f : Hart → Nat → W32) (h : Nat) :
    lanesPlain m vd f h x s = hartOk s h fun y => y.putLanesF m vd fun k => quiet (f x k) := by
  simp only [Hart.putLanesF_quiet, lanesPlain]

/-- Every operation on lanes runs as its form says: it writes the active lanes of vd with the form's values. -/
theorem laneForm_runs {L : LaneForm} (h : laneForm i = some L) :
    ∃ body, exec i s = .next (runHart i (vNames L.xs [] (L.vd :: L.vs) [] .alone) body s) ∧
      body s.cur x s = hartOk s s.cur fun y => y.putLanesF L.m L.vd (L.val x) := by
  cases i with
  | vadd | vsub | vmul | vmadd | vmsub | vmin | vmax | vabs | vneg | vrcp | vrsq | vexp2 | vlog2 | vcvtToLaneType | vcvtToNarrow
  | vcvtToNarrowSat | vdequant =>
    cases h
    exact ⟨_, rfl, rfl⟩
  | vand | vor | vxor | vnot | vsll | vsrl | vsra | vsel | vbcast | vins | vperm | vslide | vzip | vunzip | vmov =>
    cases h
    exact ⟨_, rfl, lanesPlain_eq _ _⟩
  | _ => cases h

/-! ### Comparisons -/

/-- The number that a bit of its own makes up for each chosen place of a range: it stays below the range, and its bits are the chosen ones. -/
theorem foldl_setBits (q p : Nat → Bool) (n : Nat) :
    let v := ((List.range n).filter q).foldl (fun c k => if p k then c + 2 ^ k else c) 0
    v < 2 ^ n ∧ ∀ k, v.testBit k = (decide (k < n) && (q k && p k)) := by
  induction n with
  | zero => exact ⟨Nat.one_pos, fun k => by simp⟩
  | succ n ih =>
    obtain ⟨hlt, hbits⟩ := ih
    rw [List.range_succ, List.filter_append, List.foldl_append]
    generalize ((List.range n).filter q).foldl (fun c k => if p k then c + 2 ^ k else c) 0 = v at hlt hbits
    have hnext : ([n].filter q).foldl (fun c k => if p k then c + 2 ^ k else c) v = if q n && p n then v + 2 ^ n else v := by
      cases hq : q n <;> simp [hq]
    have hor : v + 2 ^ n = 2 ^ n ||| v := by
      rw [Nat.add_comm, ← Nat.mul_one (2 ^ n), Nat.two_pow_add_eq_or_of_lt hlt]
    have hpow : 2 ^ (n + 1) = 2 ^ n + 2 ^ n := by omega
    dsimp only
    rw [hnext]
    refine ⟨by split <;> omega, fun k => ?_⟩
    obtain rfl | hk := eq_or_ne k n
    · have hlow : v.testBit k = false := Nat.testBit_lt_two_pow hlt
      cases hc : q k && p k <;> simp [hor, hlow, Nat.testBit_or]
    · have hrange : k < n + 1 ↔ k < n := by omega
      split <;> simp [hor, hbits, Nat.testBit_or, hk.symm, hrange]

/-- A comparison writes MASK or COND with the lanes in which it holds, and ORs the flags of the active lanes into fflags (R175). -/
theorem lanesCmp_retires {o : FCmp} {ty : LaneTy} {cond : Bool} (r : Ready s x (vNames [] [] [a, b] [] .alone))
    (he : exec i s = .next (runHart i (vNames [] [] [a, b] [] .alone) (lanesCmp o m ty cond a b) s)) :
    ∃ bits : BitVec 16,
      (∀ k, k < 16 → bits.getLsbD k = (x.act m k && (laneCmp o ty (x.lane a k) (x.lane b k)).1)) ∧
      Retires i s x { x with
        pw := if cond then bits ++ x.pw.extractLsb' 0 16 else x.pw.extractLsb' 16 16 ++ bits
        fflags := x.fflags ||| (x.active m).foldl (fun f k => f ||| (laneCmp o ty (x.lane a k) (x.lane b k)).2) noFlags } := by
  refine ⟨_, fun k hk => ?_, retires_of he r rfl rfl⟩
  have hbits := (foldl_setBits (x.act m) (fun k => (laneCmp o ty (x.lane a k) (x.lane b k)).1) 16).2 k
  rw [BitVec.getLsbD_ofNat]
  simpa only [hk, decide_true, Bool.true_and, Hart.active] using hbits

/-! ### Quantising -/

/-- A lane of a line holds the 32 bits at its place. -/
theorem ofNat_bitsOf (v lo : Nat) : BitVec.ofNat 32 (bitsOf v lo 32) = BitVec.ofNat 32 (v / 2 ^ lo) :=
  BitVec.eq_of_toNat_eq (by simp only [BitVec.toNat_ofNat, bitsOf, Nat.mod_mod])

/-- What vquant leaves of its hart (R179). -/
theorem quantHart_eq (q : BitVec 3) (r : RegIdx) :
    let E := quantFmt q
    let sel := (x.rx r).toNat
    let seg := sel / 2 ^ 16 % 2 ^ 3
    let sc := x.quantScale m E a sel
    let line := quantLine E seg (fun k => (x.quantAt m E a sc.1 k).1) (x.lineNat vd)
    let inLine := (List.range 16).filter fun k => decide (16 * seg + k < elemsPerLine E.width)
    quantHart m q vd a r x x = { x with
      v := x.v.set vd.toNat
        ⟨Vector.ofFn fun (k : Fin 16) => BitVec.ofNat 32 (line / 2 ^ (32 * k.val)), BitVec.ofNat 16 (E.code * 512 + sc.1), true⟩
        vd.isLt
      fflags := x.fflags ||| inLine.foldl (fun f k => f ||| (x.quantAt m E a sc.1 k).2) sc.2 } := by
  simp only [quantHart, ofNat_bitsOf]
  rfl

end

/-- Settles O1: every operation on lanes is one write of the active lanes of vd, with the values of its form. -/
theorem laneOperations : Obligations.LaneOperations := by
  unfold Obligations.LaneOperations
  intro i L s x h r
  obtain ⟨body, he, hb⟩ := laneForm_runs (s := s) (x := x) h
  exact retires_of (f := fun y => y.putLanesF L.m L.vd (L.val x)) he r rfl hb

/-- Settles O2: the three comparisons run alike, each with its own relation. -/
theorem laneComparisons : Obligations.LaneComparisons := by
  unfold Obligations.LaneComparisons
  rintro i o m cond ty a b s x rfl r
  cases o with
  | eq | lt | le => exact lanesCmp_retires r rfl

/-- Settles O4: vquant leaves what its segment, scale and format make of the line, and vextr writes one x register. -/
theorem quantAndExtract : Obligations.QuantAndExtract := by
  unfold Obligations.QuantAndExtract
  intro m q vd a r rd lane s x E sel seg sc line inLine
  refine ⟨fun hr => ?vquant, fun hr => ?vextr⟩
  case vquant =>
    have hret := retires_of (i := .vquant m q vd a r) (f := quantHart m q vd a r x) rfl hr rfl rfl
    rwa [quantHart_eq] at hret
  case vextr => exact retires_of (f := fun y => y.wx rd _) rfl hr rfl rfl

end Sys2Proof.Machine
end

section
/-! SUPPORT. What the plain vector, bit-granular and tag reads come to where nothing holds them back (R93, R185 to R187, R189, R190). -/

namespace Sys2Proof.Machine

/-! ### Bit-granular elements in window space -/

theorem bitOutside_none {n : Nat} {bs : List Nat} (h : bs.all (bitInside · n) = true) : bitOutside n bs = none :=
  List.find?_eq_none.mpr fun b hb => by simp [List.all_eq_true.mp h b hb]

/-! ### The pieces of a read -/

/-- A piece that reads bytes and changes nothing. -/
def Want.Reads (w : Want) : Prop := w.act.reads.isSome = true

theorem loadWants_pieces (a : Word) (w n : Nat) (kind : AccKind) : ∀ v ∈ loadWants a w n kind, v.Reads := by
  unfold loadWants
  cases cutAt a w with
  | none =>
    dsimp only
    split
    · exact List.forall_mem_nil _
    · exact List.forall_mem_singleton.mpr rfl
  | some k =>
    dsimp only
    split_ifs
    · exact List.forall_mem_nil _
    · exact List.forall_mem_singleton.mpr rfl
    · exact List.forall_mem_cons.mpr ⟨rfl, List.forall_mem_singleton.mpr rfl⟩

theorem Gather.loads_pieces (g : Gather) : ∀ v ∈ g.loads, v.Reads := by
  unfold Gather.loads
  split
  · exact List.forall_mem_singleton.mpr rfl
  · exact loadWants_pieces _ _ _ _

theorem Hart.gatherLoads_pieces (x : Hart) (addr : Nat → Word) : ∀ v ∈ x.gatherLoads addr, v.Reads := by
  unfold Hart.gatherLoads
  induction x.gathers addr with
  | nil => exact List.forall_mem_nil _
  | cons g gs ih => exact List.forall_mem_append.mpr ⟨g.loads_pieces, ih⟩

theorem spanLoads_pieces (lo hi : Nat) : ∀ v ∈ spanLoads lo hi, v.Reads := by
  unfold spanLoads
  dsimp only
  split
  · exact List.forall_mem_singleton.mpr rfl
  · exact List.forall_mem_cons.mpr ⟨rfl, List.forall_mem_singleton.mpr rfl⟩

/-! ### What the instructions run -/

theorem ansBytes_single (bs : List Byte) (tag : BitVec 16) (p : Bool) : ansBytes [.data bs tag p] = bs := List.append_nil bs

section
variable {s : State} {x : Hart} {i : Instr} {F : ReadForm}

/-- What an instruction runs that is a plain read: its pieces, and then the bytes and the tag that come without poison go to its
destination. -/
def RunsRead (i : Instr) (s : State) (x : Hart) (F : ReadForm) : Prop :=
  ∃ body done, exec i s = .next (runHart i F.names body s) ∧
    body s.cur x s = (s.plain s.cur x none F.whole F.wants).andThen done ∧
    ∀ bs tag t, done [.data bs tag false] t = .ok (t.modHart s.cur (F.dest bs tag))

/-- A destination that does not see the answers that its hart keeps, which end as it retires. -/
def ReadForm.Forgets (F : ReadForm) : Prop :=
  ∀ bs tag (y : Hart) pc n, (F.dest bs tag { y with log := [] }).retired pc false n = (F.dest bs tag y).retired pc false n

/-- A read into the active lanes of a v register. -/
theorem runsRead_lanes {body : Nat → Hart → State → Res} {fo : FormOp} {a : Word} {vd : RegIdx} {val : List Byte → Nat → W32}
    (he : exec i s = .next (runHart i F.names body s)) (hd : F.dest = fun bs _ y => y.laneLoad vd (val bs))
    (hb : body s.cur x s = (s.plain s.cur x none F.whole F.wants).andThen
      (vreadDone s.cur fo a vd fun as y => y.putLanes false vd (val (ansBytes as)))) : RunsRead i s x F := by
  refine ⟨body, _, he, hb, fun bs tag t => ?_⟩
  rw [hd, vreadDone, ansBytes_single]
  rfl

/-- A bit-granular read into a v register, of elements that all lie in window space (R189). -/
theorem runsRead_vldbit {r rs1 rs2 : RegIdx} {w : BitVec 5} {b n : Nat} (hb : x.bitAddr rs1 rs2 = b) (hn : bitWidth w = n)
    (hin : (x.laneBits b n).all (bitInside · n) = true) :
    RunsRead (.vldbit r rs1 rs2 w) s x ⟨vNames [rs1, rs2] [] [r] [] .enters, spanLoads b (b + (x.laneBits b n).length * n - 1), false,
      fun bs _ y => y.laneLoad r fun k => BitVec.ofNat 32 (spanElem bs b (b + k * n) n)⟩ := by
  refine runsRead_lanes (fo := formOf (.vldbit r rs1 rs2 w)) (a := bitByte b)
    (val := fun bs k => BitVec.ofNat 32 (spanElem bs b (b + k * n) n)) rfl rfl ?_
  simp only [hb, hn, bitOutside_none hin]

/-- Every plain read runs as its form says, none is a hint, and all its pieces read. -/
theorem readForm_runs (h : readForm x i = some F) :
    F.names.hint = false ∧ (∀ w ∈ F.wants, w.Reads) ∧ F.Forgets ∧ RunsRead i s x F := by
  unfold readForm at h
  -- In the order of the form: vld, vlds and vldx, then vldl and ldtag, then the bit-granular reads.
  split at h
  case h_1 =>
    cases h
    exact ⟨rfl, loadWants_pieces _ _ _ _, fun _ _ _ _ _ => rfl, runsRead_lanes rfl rfl rfl⟩
  case h_2 | h_3 =>
    cases h
    exact ⟨rfl, x.gatherLoads_pieces _, fun _ _ _ _ _ => rfl, runsRead_lanes rfl rfl rfl⟩
  case h_4 =>
    cases h
    exact ⟨rfl, List.forall_mem_singleton.mpr rfl, fun _ _ _ _ _ => rfl, _, _, rfl, rfl, fun _ _ _ => rfl⟩
  case h_5 =>
    cases h
    exact ⟨rfl, List.forall_mem_singleton.mpr rfl, fun _ _ y _ _ => wx_retired y _ _ _ _, _, _, rfl, rfl, fun _ _ _ => rfl⟩
  case h_6 r rs1 rs2 w =>
    obtain ⟨hin, he⟩ := Option.ite_none_right_eq_some.mp h
    cases he
    refine ⟨rfl, spanLoads_pieces _ _, fun _ _ y _ _ => wx_retired y _ _ _ _, _, _, rfl, if_neg (by simp [bitWidth, hin]), ?_⟩
    intro bs tag t
    dsimp only
    rw [ansBytes_single]
    rfl
  case h_7 r rs1 rs2 w =>
    obtain ⟨hin, he⟩ := Option.ite_none_right_eq_some.mp h
    cases he
    exact ⟨rfl, spanLoads_pieces _ _, fun _ _ _ _ _ => rfl, runsRead_vldbit rfl rfl hin⟩
  case h_8 => cases h

end

/-! ### What the port answers -/

/-- A piece that reads bytes without poison is answered with them and with the tag of its line. -/
theorem AfterRead.portMem_reads {s s1 : State} {x : Hart} {va : Word} (a : AfterRead s s1 x va) {key : Nat} {act : Piece}
    (hr : act.reads.isSome = true) (hc : clean s key act = true) (tag : Option (BitVec 16)) (h : Option Nat) :
    s1.portMem key tag act h = (.data (pieceBytes s key act) (tag.getD (tgetD s.tags (key / 64) 0#16)) false, s1) := by
  have htag : s1.tagAt key = tgetD s.tags (key / 64) 0#16 := by
    rw [a.rest]
    rfl
  cases act with
  | load n =>
    rw [a.portMem_load ((Bool.not_eq_true' _).mp hc), htag]
    rfl
  | pick offs =>
    have hp : (offs.any fun o => s.poisoned (key + o) 4) = false :=
      List.any_eq_false.mpr fun o ho => by simpa using List.all_eq_true.mp hc o ho
    simp only [State.portMem, a.bytesAt, a.poisoned, hp, htag]
    rfl
  | _ => cases hr

theorem Piece.cut_reads {act : Piece} (hr : act.reads.isSome = true) (room : Nat) : act.cut room = act := by
  cases act with
  | record => cases hr
  | _ => rfl

/-- Settles O14: the read's one piece is answered at its port with the bytes and the tag there, and its form's destination takes them. -/
theorem plainReads : Obligations.PlainReads := by
  unfold Obligations.PlainReads
  intro i s x F va act key tag hF r p hwants hun reach hc
  obtain ⟨hint, hpieces, hforgets, body, done, he, hb, hdone⟩ := readForm_runs (s := s) hF
  have hreads : act.reads.isSome = true := hpieces ⟨va, act, .load, true⟩ (hwants ▸ List.mem_singleton_self _)
  obtain ⟨t, ht, hplain⟩ := plain_one r.hart p reach (clear_reads hreads) none F.whole hun (Piece.cut_reads hreads)
  rw [ht.portMem_reads hreads hc] at hplain
  refine ⟨t, ht, retiresIn_of he r hint ?_ fun y pc => hforgets _ _ y pc _⟩
  rw [hb, hwants, hplain]
  exact hdone _ _ _

end Sys2Proof.Machine
end

section
/-! SUPPORT. What the plain vector, bit-granular and tag stores come to where nothing holds them back (R86, R93, R185, R186, R189, R190,
R394). -/

namespace Sys2Proof.Machine

/-! ### The pieces of a store -/

/-- A piece that writes bits of the words around them. -/
def Want.SetsBits (w : Want) : Prop := ∃ n els, w.act = .bits n els

theorem bitPiece_pieces (first : Bool) (es : List (Nat × Nat × W32)) : ∀ w ∈ bitPiece first es, w.SetsBits := by
  cases es with
  | nil => exact List.forall_mem_nil _
  | cons e es => exact List.forall_mem_singleton.mpr ⟨_, _, rfl⟩

theorem bitStores_pieces (es : List (Nat × Nat × W32)) : ∀ w ∈ bitStores es, w.SetsBits := by
  unfold bitStores
  dsimp only
  split
  · exact List.forall_mem_nil _
  · exact List.forall_mem_append.mpr ⟨bitPiece_pieces _ _, bitPiece_pieces _ _⟩

/-! ### What the instructions run -/

section
variable {s : State} {x : Hart} {i : Instr} {F : WriteForm}

/-- What an instruction runs that is a plain store. -/
def RunsWrite (i : Instr) (s : State) (x : Hart) (F : WriteForm) : Prop :=
  ∃ body size, exec i s = .next (runHart i F.names body s) ∧ body s.cur x s = plainStore s s.cur x size F.wants

/-- A bit-granular store, whose record on a traced page has the size of its widest piece (R114; log 140). -/
theorem runsWrite_bits {body : Nat → Hart → State → Res} (he : exec i s = .next (runHart i F.names body s))
    (hb : body s.cur x s = bitStore s s.cur x F.wants) : RunsWrite i s x F :=
  ⟨body, bitSize F.wants, he, hb⟩

/-- Every plain store runs as its form says, none is a hint, and its pieces write bytes, a tag or bits. -/
theorem writeForm_runs (h : writeForm x i = some F) :
    F.names.hint = false ∧ (∀ w ∈ F.wants, w.Stores ∨ w.SetsBits) ∧ RunsWrite i s x F := by
  unfold writeForm at h
  -- In the order of the form: vst, vsts and vstx, then sttag, then the bit-granular stores.
  split at h
  case h_1 =>
    cases h
    exact ⟨rfl, fun w hw => .inl (storeWants_pieces _ _ _ _ w hw), _, _, rfl, rfl⟩
  case h_2 | h_3 =>
    cases h
    exact ⟨rfl, fun w hw => .inl (x.scatterStores_pieces _ _ w hw), _, _, rfl, rfl⟩
  case h_4 =>
    cases h
    exact ⟨rfl, List.forall_mem_singleton.mpr (.inl ⟨_, _, rfl⟩), _, _, rfl, rfl⟩
  case h_5 =>
    obtain ⟨hin, he⟩ := Option.ite_none_right_eq_some.mp h
    cases he
    exact ⟨rfl, fun w hw => .inr (bitStores_pieces _ w hw), runsWrite_bits rfl (if_neg (by simp [bitWidth, hin]))⟩
  case h_6 =>
    obtain ⟨hin, he⟩ := Option.ite_none_right_eq_some.mp h
    cases he
    exact ⟨rfl, fun w hw => .inr (bitStores_pieces _ w hw), runsWrite_bits rfl (by simp only [bitWidth, bitOutside_none hin])⟩
  case h_7 => cases h

end

/-! ### What the port leaves -/

theorem State.unpoison_rest (s : State) (key : Nat) (bytes : List (Option Byte)) :
    s.unpoison key bytes = { s with poison := (s.unpoison key bytes).poison } := by
  unfold State.unpoison
  split <;> rfl

section
variable {s s1 t : State} {x : Hart} {va : Word} {key : Nat}

/-- Which units are poisoned is no part of what a store is claimed to leave. -/
theorem AfterWrite.withPoison {bytes : List (Option Byte)} {tag : Option (BitVec 16)} (a : AfterWrite s t x va key bytes tag)
    (p : List Nat) : AfterWrite s { t with poison := p } x va key bytes tag :=
  ⟨congrArg (fun u : State => { u with poison := p }) a.rest, a.mem, a.tags, a.others, a.hart⟩

/-- The port writes the bytes of a store's piece and, where it carries one, the tag of its lines. -/
theorem AfterRead.portMem_stores (a : AfterRead s s1 x va) (inv : s.Inv) (bytes : List (Option Byte)) (tag : Option (BitVec 16))
    (h : Option Nat) : AfterWrite s (s1.portMem key none (.store bytes tag) h).2 x va key bytes tag := by
  cases tag with
  | none => exact afterWrite a inv key bytes
  | some g => exact afterTag (afterWrite a inv key bytes) g

/-- The port writes the words around the elements of a bit-granular piece; a word of which the elements are only a part stays poisoned
(R394). -/
theorem AfterRead.portMem_bits (a : AfterRead s s1 x va) (inv : s.Inv) (n : Nat) (els : List (Nat × Nat × W32)) (h : Option Nat) :
    AfterWrite s (s1.portMem key none (.bits n els) h).2 x va key ((spanBytes (memRead s.mem key n) els).map some) none := by
  rw [← a.bytesAt]
  dsimp only [State.portMem]
  rw [State.unpoison_rest]
  exact (afterWrite a inv key _).withPoison _

end

/-- Settles O15: the store's one piece is written at its port, and the instruction retires with no register changed. -/
theorem plainWrites : Obligations.PlainWrites := by
  unfold Obligations.PlainWrites
  intro i s x F va act key hF inv r p hwants reach w
  obtain ⟨hint, hpieces, body, size, he, hb⟩ := writeForm_runs (s := s) hF
  have hplain (hreads : act.reads = none) (hcut : ∀ room, act.cut room = act) : ∃ s1, AfterRead s s1 x va ∧
      RetiresAt i s (s1.portMem key none act (some s.cur)).2 x := by
    obtain ⟨s1, hs1, hp⟩ := plain_atomic r.hart p w reach hreads hcut (some ⟨size, false⟩)
    refine ⟨s1, hs1, retiresAt_of he r hint ?_⟩
    rw [hb, plainStore, hwants, hp]
    rfl
  obtain ⟨bytes, tag, rfl⟩ | ⟨n, els, rfl⟩ := hpieces ⟨va, act, .store, true⟩ (hwants ▸ List.mem_singleton_self _)
  · obtain ⟨s1, hs1, hret⟩ := hplain rfl fun _ => rfl
    exact ⟨_, hs1.portMem_stores inv bytes tag _, hret⟩
  · obtain ⟨s1, hs1, hret⟩ := hplain rfl fun _ => rfl
    exact ⟨_, hs1.portMem_bits inv n els _, hret⟩

end Sys2Proof.Machine
end

section
/-! SUPPORT. What the events of futures, relaxed loads, chisel units, redundant pairs, deadlines and hangs come to (R171, R188, R218, R263,
R374 to R376, R408, R409, R415, R421). -/

namespace Sys2Proof.Machine

section
variable {s : State} {x : Hart}

/-! ### Futures -/

/-- The outcome of a future of a hart in place changes the pair's registers alone, and the operation leaves the part. -/
theorem State.settleFuture_present (hs : x.status = .present) (o : Nat) (p : Op) (v : Word) :
    s.settleFuture o p x v none = (s.modPair p.hart fun y => y.completed o v).dropOp o ∧
      ∀ how, s.settleFuture o p x v (some how) = (s.modPair p.hart fun y => y.failedReg o v how).dropOp o := by
  simp [State.settleFuture, hs]

section
variable {p : Op} (hp : tget s.ops s.subj = some p) (hx : s.hart? p.hart = some x)
include hp hx

section
variable {v : Word} (hv : p.st = .done v) (hg : s.gateClear p.gate = true)
include hv hg

theorem doFutureCompletion_ended (hs : x.status = .ended) : doFutureCompletion s = s.dropOp s.subj := by
  simp [doFutureCompletion, hp, hv, hg, hx, hs]

theorem doFutureCompletion_present (hs : x.status = .present) (hy : s.pairSynced p.hart x = true) :
    doFutureCompletion s = (s.modPair p.hart fun y => y.completed s.subj v).dropOp s.subj := by
  simp [doFutureCompletion, hp, hv, hg, hx, hs, hy, State.settleFuture_present hs]

end

section
variable {cause sub count : Nat} {a : Word} (hv : p.st = .failed cause sub count a)
include hv

theorem doFutureFailure_reported (hs : x.status = .ended ∨ x.regOf s.subj = none) :
    doFutureFailure s =
      (s.report x.group ⟨failWord p.fo cause sub (min count 0xFFFFFFFF), a, true, x.hidx⟩).dropOp s.subj := by
  simp only [doFutureFailure, hp, hv, hx]
  exact if_pos (hs.imp (by simp [·]) (by simp [·]))

theorem doFutureFailure_present {r : Nat} (hs : x.status = .present) (hy : s.pairSynced p.hart x = true) (hr : x.regOf s.subj = some r) :
    doFutureFailure s =
      (s.modPair p.hart fun y => y.failedReg s.subj (failWord p.fo cause sub (min count 0xFFFFFFFF)) p.how).dropOp s.subj := by
  simp [doFutureFailure, hp, hv, hx, hs, hy, hr, State.settleFuture_present hs]

end

end

theorem Hart.completed_eq {o r : Nat} (hr : x.regOf o = some r) (v : Word) :
    x.completed o v = { x.wx (BitVec.ofNat 5 r) v with regs := tdel x.regs r } := by
  simp only [Hart.completed, hr]

theorem Hart.failedReg_eq {o r : Nat} (hr : x.regOf o = some r) (w : Word) (how : FailHow) :
    x.failedReg o w how = { x.wx (BitVec.ofNat 5 r) w with regs := tset x.regs r (.failed how) } := by
  simp only [Hart.failedReg, hr]

/-! ### Relaxed loads -/

section
variable {id : Nat} {a : Acc} {dst : LoadDst} (ha : tget s.accs id = some a) (hp : a.performed = true) (hd : a.dst = some dst)
  (hx : s.hart? a.hart = some x)
include ha hp hd hx

theorem doLoadReturn_ended {cause sub : Nat} {addr : Word} (hs : x.status = .ended) (hf : accFail a.answers = some (cause, sub, addr)) :
    doLoadReturn id s = (s.dropAcc id).report x.group ⟨failWord a.fo cause sub 0, addr, true, x.hidx⟩ := by
  simp [doLoadReturn, ha, hp, hd, hx, hs, hf]

section
variable (hs : x.status = .present) (hy : s.pairSynced a.hart x = true)
include hs hy

theorem doLoadReturn_loaded (hf : accFail a.answers = none) (hq : ansPoison a.answers = false) :
    doLoadReturn id s = (s.dropAcc id).modPair a.hart fun y => y.loaded id dst (ansBytes a.answers) := by
  simp [doLoadReturn, ha, hp, hd, hx, hs, hy, hf, hq]

theorem doLoadReturn_failed {cause sub : Nat} {addr : Word} (hf : accFail a.answers = some (cause, sub, addr)) :
    doLoadReturn id s =
      ((s.dropAcc id).modPair a.hart fun y => y.loadZero id dst).dueAt a.hart 60 (failWord a.fo cause sub 0) addr := by
  simp [doLoadReturn, ha, hp, hd, hx, hs, hy, hf]

end

end

/-! ### Chisel units -/

theorem doChiselFinish_due {t : Nat} (ht : (s.core s.subj).chiselEnd = some t) (hn : t ≤ s.acyc) :
    doChiselFinish s = s.modCore s.subj fun c => { c with chisel := none, chiselEnd := none } := by
  simp only [doChiselFinish, State.modCore, ht, hn, if_true]

/-! ### Redundant pairs -/

section
variable {y : Hart} {j : Nat} (hx : s.hart? s.subj = some x) (hy : s.trailOf s.subj = some (j, y)) (hl : x.trails = false)
  (hr : x.released = false)
include hx hy hl hr

section
variable {a : List Word} {t : Nat} (ha : x.cmp = some (a, t))
include ha

theorem doComparator_equal {u : Nat} (hc : y.cmp = some (a, u)) :
    doComparator s = s.modHart s.subj fun z => { z with released := true } := by
  simp [doComparator, hx, hy, hl, hr, ha, hc]

theorem doComparator_unequal {c : List Word} {u : Nat} (hc : y.cmp = some (c, u)) (hne : a ≠ c) :
    doComparator s = s.pairMismatch s.subj x (x.pcBehind (a.headD 0#64)) (a.headD 0#64) 1 := by
  simp [doComparator, hx, hy, hl, hr, ha, hc, hne]

theorem doComparator_leaderAtGend (hc : y.cmp = none) (hg : isGend a = true) (hp : y.past x = true) :
    doComparator s = s.pairMismatch s.subj x (x.pcBehind (a.headD 0#64)) (a.headD 0#64) 1 := by
  simp [doComparator, hx, hy, hl, hr, ha, hc, hg, hp]

theorem doTrailingTimeout_due (hc : y.cmp = none) (hn : t + 65536 ≤ s.acyc) :
    doTrailingTimeout s = s.pairMismatch s.subj x (x.pcBehind (a.headD 0#64)) (a.headD 0#64) 2 := by
  simp [doTrailingTimeout, hx, hy, hl, hr, ha, hc, hn]

end

theorem doComparator_trailerAtGend (ha : x.cmp = none) {c : List Word} {u : Nat} (hc : y.cmp = some (c, u)) (hg : isGend c = true)
    (hp : x.past y = true) : doComparator s = s.pairMismatch s.subj x x.pc (c.headD 0#64) 1 := by
  simp [doComparator, hx, hy, hl, hr, ha, hc, hg, hp]

end

/-! ### Deadlines -/

theorem doDeadlineMiss_late {b : Block} {h : Nat} {g : Group} (hb : tget s.blocks s.subj = some b) (hn : b.nodl = false)
    (hd : b.dlDelivered = false) (hl : tagEarlier b.tag.toNat s.tagNow = true) (hh : (s.blockOrder b).head? = some h)
    (hx : s.hart? h = some x) (hs : x.status ≠ .ended) (hg : s.groupOf? x = some g) :
    doDeadlineMiss s = if g.dlmiss then
      (s.modBlock s.subj fun c => { c with dlDelivered := true }).dueAt h 58 (failWord noForm 58 0 0) 0#64 else s := by
  obtain ⟨hs', hlist⟩ := List.head?_eq_some_iff.mp hh
  simp [doDeadlineMiss, hb, hn, hd, hl, hlist, hx, hs, hg]

/-! ### Hangs -/

theorem State.listable_parked {g : Group} (hl : s.listable x = true) (hg : s.groupOf? x = some g) : g.parked = false := by
  simp only [State.listable, hg, Bool.and_eq_true, Bool.not_eq_true'] at hl
  exact hl.1.2

/-- The grid whose one hart waits, with nothing in the part at work for any of its harts, is told so once for that wait. -/
theorem doHangTest_hung {gr : Grid} {h : Nat} {w : WaitRec} {g : Group} (hgr : tget s.grids s.subj = some gr)
    (hh : s.gridHarts gr = [(h, x)]) (hg : s.groupOf? x = some g) (hn : g.nohang = false) (hw : x.wait = some w)
    (hlisted : w.listed = true) (hl : s.listable x = true) (hidle : ∀ p ∈ s.gridAll gr, s.busyFor p.1 p.2 = false)
    (hnew : gr.hung ≠ [(h, w.since)])
    (hplaced : ∀ i ∈ gr.blocks, ∀ c, tget s.blocks i = some c → c.status = .placed ∨ c.status = .done) :
    doHangTest s = (s.modGrid s.subj fun q => { q with hung := [(h, w.since)] }).dueAt h 59
      (failWord noForm 59 w.code (bitsOf w.obj.toNat 0 24)) 0#64 := by
  simp only [doHangTest, hgr, hh]
  refine (if_neg ?_).trans ?tells
  · simp only [Bool.or_eq_true, not_or]
    refine ⟨⟨⟨⟨⟨?nonempty, ?included⟩, ?placed⟩, ?listed⟩, ?idle⟩, ?new⟩
    case nonempty => simp
    case included => simp [hg, hn, State.listable_parked hl hg]
    case placed =>
      refine Bool.eq_false_iff.mp (List.any_eq_false.mpr fun i hi => ?_)
      cases hc : tget s.blocks i with
      | none => simp
      | some c => obtain hs | hs := hplaced i hi c hc <;> simp [hs]
    case listed => simp [hw, hlisted, hl]
    case idle => exact Bool.eq_false_iff.mp (List.any_eq_false.mpr fun p hp => Bool.eq_false_iff.mp (hidle p hp))
    case new => simp [hw, hnew]
  case tells => simp only [List.map_cons, List.map_nil, List.foldl_cons, List.foldl_nil, hw]

end

/-- Settles O49: each event is the branch of its own that the hypotheses choose. -/
theorem futureEvents : Obligations.FutureEvents := by
  unfold Obligations.FutureEvents
  refine ⟨fun s x => ⟨?future, ?ended, ?load⟩, fun s x y j b gr => ⟨?chisel, ?pair, ?past, ?deadline, ?hang⟩⟩
  case future =>
    intro p hp hx
    refine ⟨fun v hv hg => ⟨fun hs => ?_, fun r hs hy hr => ⟨?_, ?_⟩⟩, fun cause sub count a hv => ?failed⟩
    · exact next_of_eq (doFutureCompletion_ended hp hx hv hg hs)
    · exact next_of_eq (doFutureCompletion_present hp hx hv hg hs hy)
    · exact Hart.completed_eq hr v
    case failed =>
      intro w
      refine ⟨fun hs => ?_, fun r hs hy hr => ⟨?_, ?_⟩⟩
      · exact next_of_eq (doFutureFailure_reported hp hx hv hs)
      · exact next_of_eq (doFutureFailure_present hp hx hv hs hy hr)
      · exact Hart.failedReg_eq hr w p.how
  case ended =>
    exact fun id a dst cause sub addr ha hp hd hx hs hf => next_of_eq (doLoadReturn_ended ha hp hd hx hs hf)
  case load =>
    intro id a dst ha hp hd hx hs hy s1
    refine ⟨fun hf hq => next_of_eq (doLoadReturn_loaded ha hp hd hx hs hy hf hq),
      fun cause sub addr hf => next_of_eq (doLoadReturn_failed ha hp hd hx hs hy hf), ?_, ?_⟩
    · exact fun rd k v hb => ⟨if_pos hb, if_pos hb⟩
    · exact fun vd ls v hb => ⟨if_pos hb, if_pos hb⟩
  case chisel => exact fun t ht hn => next_of_eq (doChiselFinish_due ht hn)
  case pair =>
    intro hx hy hl hr a t ha
    refine ⟨fun c u hc => ⟨?_, fun hne => next_of_eq (doComparator_unequal hx hy hl hr ha hc hne)⟩,
      fun hc hg hp => next_of_eq (doComparator_leaderAtGend hx hy hl hr ha hc hg hp),
      fun hc hn => next_of_eq (doTrailingTimeout_due hx hy hl hr ha hc hn)⟩
    rintro rfl
    exact next_of_eq (doComparator_equal hx hy hl hr ha hc)
  case past => exact fun hx hy hl hr ha c u hc hg hp => next_of_eq (doComparator_trailerAtGend hx hy hl hr ha hc hg hp)
  case deadline => exact fun h g hb hn hd hl hh hx hs hg => next_of_eq (doDeadlineMiss_late hb hn hd hl hh hx hs hg)
  case hang =>
    exact fun h w g hgr hh hg hn hw hlisted hl hidle hnew hplaced =>
      next_of_eq (doHangTest_hung hgr hh hg hn hw hlisted hl hidle hnew hplaced)

end Sys2Proof.Machine
end

section
/-! SUPPORT. What tlease and trelease come to (R195, R199, R200). -/

namespace Sys2Proof.Machine

/-- An instruction that leaves its hart as it is to be retires as one that changes the hart. -/
theorem RetiresAt.retiresIn {i : Instr} {s t : State} {x : Hart} {g : Hart → Hart} (h : RetiresAt i s (t.modHart s.cur g) x) :
    RetiresIn i s t x g := by
  unfold RetiresAt RetiresIn at h
  rw [State.modHart_modHart] at h
  exact h

section
variable {s : State} {pi gi o : Nat}

/-- What a change of a plinth leaves there. -/
theorem State.plinth_modPlinth (f : Plinth → Plinth) : (s.modPlinth pi f).plinth pi = f (s.plinth pi) := tgetD_tset_same ..

/-! ### Operations on a lease -/

/-- The completion of a tlease crosses no mesh: it arrives (R312). -/
theorem State.opDone_lease {p : Op} (hp : tget s.ops o = some p) (hk : p.kind = .lease) (v : Word) :
    s.opDone o v = s.modOp o fun q => { q with st := .done v } := by
  have hmesh : s.opResponds p = none := by simp [State.opResponds, OpKind.answersAt, hk]
  simp [State.opDone, hp, hmesh]

/-- A tlease completes alike whatever becomes of the harts. -/
theorem State.opDone_lease_modHart {p : Op} (hp : tget s.ops o = some p) (hk : p.kind = .lease) (v : Word) (h : Nat) (f : Hart → Hart) :
    (s.modHart h f).opDone o v = (s.opDone o v).modHart h f := by
  rw [State.opDone_lease hp hk, State.opDone_lease (s := s.modHart h f) hp hk]
  rfl

/-- The grant to a group that waits with one tlease alone completes that with value 0 (R195). -/
theorem State.grant_one {p : Op} {w : Waiter} (hp : tget s.ops o = some p) (hk : p.kind = .lease)
    (hw : (s.plinth pi).waiters = [w]) (hops : w.ops = [o]) :
    (s.grant pi w.group).harts = s.harts ∧ tget (s.grant pi w.group).ops o = some { p with st := .done 0#64 } := by
  obtain ⟨f, hf⟩ : ∃ f, s.grant pi w.group = (s.modPlinth pi f).opDone o 0#64 := by
    simp only [State.grant, hw, hops, List.filter_cons, beq_self_eq_true, if_true, List.filter_nil, List.map_cons, List.map_nil,
      List.foldr_cons, List.foldr_nil, List.append_nil, List.foldl_cons, List.foldl_nil]
    exact ⟨_, rfl⟩
  rw [hf, State.opDone_lease (s := s.modPlinth pi f) hp hk]
  exact ⟨rfl, (tget_tmod_same ..).trans (congrArg _ hp)⟩

/-- A plinth that a lease leaves to its next group (R198). -/
def Plinth.handTo (p : Plinth) (gi k : Nat) : Plinth :=
  { p.clear with holder := none, cmdLeft := 0, leaseEnd := 0, handover := some (gi, k) }

/-- A plinth that nobody holds goes to its one candidate at once (R200). -/
theorem State.wakePlinth_one {w : Waiter} {c : Cand} (hh : (s.plinth pi).holder = none) (hv : (s.plinth pi).handover = none)
    (hw : (s.plinth pi).waiters = [w]) (ha : s.asked w = true) (hc : s.waiterCand w = some c) (hwaits : c.waits = true)
    (hg : c.group = w.group) :
    s.wakePlinth pi = (s.modPlinth pi fun q => q.handTo w.group (s.acyc + 16)).grant pi w.group := by
  have hloses : (s.plinth pi).loses = fun _ => false := by
    funext t
    simp [Plinth.loses, hh]
  simp [State.wakePlinth, State.arbitrate, State.withdrawnLost, State.dropWithdrawn, State.failLosers, State.modPlinth, Plinth.handTo,
    Plinth.clear, bestCand, hh, hv, hw, ha, hc, hwaits, hg, hloses]

/-! ### A tlease behind its issue -/

/-- The group begins to wait for the plinth with the tlease `o` (R195, R197). -/
def State.beginWait (s : State) (pi gi o : Nat) : State :=
  ((s.modOp o fun p => { p with st := .waiting }).modGroup gi fun y => { y with tcfgIssued := Tcfg.zero }).modPlinth pi fun p =>
    { p with waiters := p.waiters ++ [⟨gi, [o], 0, s.ncyc⟩] }

theorem State.beginWait_plinth : (s.beginWait pi gi o).plinth pi =
    { s.plinth pi with waiters := (s.plinth pi).waiters ++ [⟨gi, [o], 0, s.ncyc⟩] } := State.plinth_modPlinth _

/-- Where nobody waited before, it is the one waiter. -/
theorem State.beginWait_waiters (hw : (s.plinth pi).waiters = []) :
    ((s.beginWait pi gi o).plinth pi).waiters = [⟨gi, [o], 0, s.ncyc⟩] := by
  rw [State.beginWait_plinth, hw, List.nil_append]

theorem State.beginWait_op {p : Op} (hp : tget s.ops o = some p) :
    tget (s.beginWait pi gi o).ops o = some { p with st := .waiting } := (tget_tmod_same ..).trans (congrArg _ hp)

theorem State.beginWait_group {g : Group} (hg : tget s.groups gi = some g) :
    tget (s.beginWait pi gi o).groups gi = some { g with tcfgIssued := Tcfg.zero } := (tget_tmod_same ..).trans (congrArg _ hg)

/-- A group that begins to wait for a plinth that nobody holds or asks for wins it at once, where its tlease has no release to wait for
and it is not parked (R197, R200). -/
theorem State.beginWait_wins {p : Op} {g : Group} (hp : tget s.ops o = some p) (hgate : p.gate = [])
    (hg : tget s.groups gi = some g) (hparked : g.parked = false) (hh : (s.plinth pi).holder = none)
    (hv : (s.plinth pi).handover = none) (hw : (s.plinth pi).waiters = []) :
    (s.beginWait pi gi o).wakePlinth pi =
      ((s.beginWait pi gi o).modPlinth pi fun q => q.handTo gi (s.acyc + 16)).grant pi gi := by
  have hasked : (s.beginWait pi gi o).asked ⟨gi, [o], 0, s.ncyc⟩ = true := by
    simp [State.asked, State.beginWait_op hp, hgate, State.gateClear]
  obtain ⟨c, hc, hwaits, hcg⟩ : ∃ c, (s.beginWait pi gi o).waiterCand ⟨gi, [o], 0, s.ncyc⟩ = some c ∧ c.waits = true ∧
      c.group = gi := by
    simp [State.waiterCand, State.cand, State.beginWait_group hg, hparked]
  exact State.wakePlinth_one (by rw [State.beginWait_plinth, hh]) (by rw [State.beginWait_plinth, hv]) (State.beginWait_waiters hw)
    hasked hc hwaits hcg

/-- What becomes of the tlease `o` of a group, once issued, at the plinth (R195): done where the group holds the lease, with the group's
others where it waits already, else a wait of its own. -/
def State.askLease (s : State) (pi gi o : Nat) : State :=
  if (s.plinth pi).heldBy gi then s.opDone o 1#64
  else if (s.plinth pi).waiters.any fun w => w.group == gi then
    (s.modOp o fun p => { p with st := .waiting }).modPlinth pi fun p =>
      { p with waiters := p.waiters.map fun w => if w.group == gi then { w with ops := w.ops ++ [o] } else w }
  else (s.beginWait pi gi o).wakePlinth pi

theorem State.askLease_held (hh : (s.plinth pi).holder = some gi) : s.askLease pi gi o = s.opDone o 1#64 := by
  simp [State.askLease, Plinth.heldBy, hh]

theorem State.askLease_joins (hh : (s.plinth pi).holder ≠ some gi) (hw : ∃ w ∈ (s.plinth pi).waiters, w.group = gi) :
    s.askLease pi gi o = (s.modOp o fun p => { p with st := .waiting }).modPlinth pi fun p =>
      { p with waiters := p.waiters.map fun w => if w.group = gi then { w with ops := w.ops ++ [o] } else w } := by
  have hany : ((s.plinth pi).waiters.any fun w => w.group == gi) = true := by simpa using hw
  simp [State.askLease, Plinth.heldBy, hh, hany]

theorem State.askLease_begins (hh : (s.plinth pi).holder ≠ some gi) (hw : ∀ w ∈ (s.plinth pi).waiters, w.group ≠ gi) :
    s.askLease pi gi o = (s.beginWait pi gi o).wakePlinth pi := by
  have hany : ((s.plinth pi).waiters.any fun w => w.group == gi) = false := by simpa using hw
  simp [State.askLease, Plinth.heldBy, hh, hany]

/-- Behind another holder the group goes on waiting (R200). -/
theorem State.askLease_behind {h : Nat} (hh : (s.plinth pi).holder = some h) (hne : h ≠ gi)
    (hw : ∀ w ∈ (s.plinth pi).waiters, w.group ≠ gi) : s.askLease pi gi o = s.beginWait pi gi o := by
  rw [State.askLease_begins (by simpa [hh] using hne) hw]
  exact State.wakePlinth_held (by rw [State.beginWait_plinth]; exact hh)

/-- At a plinth that nobody holds or asks for, a tlease without a release to wait for has its group take the lease at once (R200). -/
theorem State.askLease_granted {p : Op} {g : Group} (hp : tget s.ops o = some p) (hk : p.kind = .lease) (hgate : p.gate = [])
    (hg : tget s.groups gi = some g) (hparked : g.parked = false) (hh : (s.plinth pi).holder = none)
    (hv : (s.plinth pi).handover = none) (hw : (s.plinth pi).waiters = []) :
    (s.askLease pi gi o).harts = s.harts ∧ tget (s.askLease pi gi o).ops o = some { p with st := .done 0#64 } ∧
      ((s.askLease pi gi o).plinth pi).holder = some gi ∧ ((s.askLease pi gi o).plinth pi).cmdLeft = 64 ∧
      ((s.askLease pi gi o).plinth pi).leaseEnd = s.acyc + 4096 := by
  have hwake : s.askLease pi gi o = ((s.beginWait pi gi o).modPlinth pi fun q => q.handTo gi (s.acyc + 16)).grant pi gi := by
    rw [State.askLease_begins (by simp [hh]) (by simp [hw]), State.beginWait_wins hp hgate hg hparked hh hv hw]
  have hwaiters : (((s.beginWait pi gi o).modPlinth pi fun q => q.handTo gi (s.acyc + 16)).plinth pi).waiters =
      [⟨gi, [o], 0, s.ncyc⟩] := by
    rw [State.plinth_modPlinth]
    exact State.beginWait_waiters hw
  obtain ⟨hharts, hdone⟩ := State.grant_one (s := (s.beginWait pi gi o).modPlinth pi _) (State.beginWait_op (pi := pi) (gi := gi) hp) hk
    hwaiters rfl
  rw [hwake, State.grant_plinth]
  exact ⟨hharts, hdone, rfl, rfl, rfl⟩

end

/-! ### The instructions -/

/-- The state in which a tlease has been issued, but for its hart. -/
def State.withLease (s : State) (x : Hart) (rd : RegIdx) : State := s.withOp x (formOf (.tlease rd)) ⟨.lease, .zero, .cl, [], true⟩

/-- The state in which a tlease has been issued, and not yet asked its plinth (R195, R217). -/
def State.leaseIssued (s : State) (x : Hart) (rd : RegIdx) : State :=
  (s.withLease x rd).modHart s.cur fun _ => x.issued rd (formOf (.tlease rd)) s.nextId

section
variable {s : State} {x : Hart} {g : Group}

theorem State.withLease_op (rd : RegIdx) :
    tget (s.withLease x rd).ops s.nextId = some (opOf s x (formOf (.tlease rd)) ⟨.lease, .zero, .cl, [], true⟩) := tget_tset_same ..

theorem State.leaseIssued_hart (rd : RegIdx) (hx : s.hart? s.cur = some x) :
    (s.leaseIssued x rd).hart? s.cur = some (x.issued rd (formOf (.tlease rd)) s.nextId) :=
  State.hart?_modHart (s := s.withLease x rd) hx _

variable (hg : s.groupOf? x = some g) (ha : s.acquiring s.cur = false)
include hg ha

section
variable {rd : RegIdx} (r : Ready s x (tileNames [] [rd]))
include r

/-- A tlease is issued, and then asks its plinth (R195). -/
theorem tlease_asks : RetiresAt (.tlease rd) s ((s.leaseIssued x rd).askLease (s.plinthOf g) x.group s.nextId) x := by
  refine settle_at r rfl _ rfl ?_
  have hissue : (s.opIssue s.cur x rd (formOf (.tlease rd)) ⟨.lease, .zero, .cl, [], true⟩).2 = s.leaseIssued x rd :=
    withOp_eq s x rd _ _ none r.hart s rfl
  simp only [hg, ha, Bool.false_eq_true, if_false, hissue, State.askLease, apply_ite Res.ok]
  rfl

/-- It leaves what the plinth's answer leaves beside its hart. -/
theorem tlease_leaves {t : State} (hask : (s.leaseIssued x rd).askLease (s.plinthOf g) x.group s.nextId =
      t.modHart s.cur fun _ => x.issued rd (formOf (.tlease rd)) s.nextId) :
    RetiresIn (.tlease rd) s t x fun _ => x.issued rd (formOf (.tlease rd)) s.nextId :=
  RetiresAt.retiresIn (hask ▸ tlease_asks hg ha r)

end

theorem trelease_unheld (hh : (s.plinth (s.plinthOf g)).holder ≠ some x.group) (r : Ready s x (tileNames [] [])) :
    Retires .trelease s x x := by
  refine ok_ok r rfl rfl ?_
  simp [hg, ha, Plinth.heldBy, hh]

theorem trelease_held (hh : (s.plinth (s.plinthOf g)).holder = some x.group) (r : Ready s x (tileNames [] [])) :
    RetiresAt .trelease s ((s.withTile x g .trelease ⟨tileNames [] [], .release, 0, 0, none, none⟩ none).tryRelease
      (s.plinthOf g)) x := by
  refine settle_at r rfl _ rfl ?_
  simp [hg, ha, Plinth.heldBy, hh, ← tileIssue_eq]

end

/-- Settles O24: a tlease is issued, and what its plinth then answers is read off the lease there; a trelease is a tile command that the
plinth may end at once. -/
theorem leases : Obligations.Leases := by
  unfold Obligations.Leases
  intro rd s x g hg ha pi p i s1
  refine ⟨fun r => ⟨fun hh => ?held, fun hh hv hw hparked _ hgate => ?granted, fun h hh hne hw => ?behind, fun hh hw => ?joins⟩,
    fun r => ⟨fun hh => trelease_unheld hg ha hh r, fun hh => trelease_held hg ha hh r⟩⟩
  case held =>
    have hdone := State.opDone_lease_modHart (s := s.withLease x rd) (State.withLease_op rd) rfl 1#64 s.cur
    exact tlease_leaves hg ha r ((State.askLease_held (s := s.leaseIssued x rd) hh).trans (hdone _))
  case granted =>
    obtain ⟨hharts, hdone, hholder, hleft, hend⟩ :=
      State.askLease_granted (s := s.leaseIssued x rd) (State.withLease_op rd) rfl hgate hg hparked hh hv hw
    have hhart : ((s.leaseIssued x rd).askLease pi x.group s.nextId).hart? s.cur = some (x.issued rd (formOf i) s.nextId) := by
      rw [State.hart?, hharts]
      exact State.leaseIssued_hart rd r.hart
    exact ⟨_, _, tlease_asks hg ha r, State.hart?_modHart hhart _, hholder, hleft, hend, hdone, rfl⟩
  case behind => exact tlease_leaves hg ha r (State.askLease_behind hh hne hw)
  case joins => exact tlease_leaves hg ha r (State.askLease_joins hh hw)

end Sys2Proof.Machine
end

section
/-! SUPPORT. What tring and radv come to (R202, R203, R382). -/

namespace Sys2Proof.Machine

section
variable {s : State} {x : Hart} {ring : BitVec 3}

/-! ### tring -/

section
variable {rs1 rs2 : RegIdx} (r : Ready s x (tileNames [rs1, rs2] []))
include r

/-- A count of no lines, or of more than 4096, is illegal (R202). -/
theorem tring_count_traps (hn : (x.rx rs2).toNat = 0 ∨ 4096 < (x.rx rs2).toNat) :
    Traps (.tring ring rs1 rs2) s 2 (bitsOfEnc (encode (.tring ring rs1 rs2))) 0 :=
  traps_of rfl r (if_pos hn)

variable (hlow : 1 ≤ (x.rx rs2).toNat) (hhigh : (x.rx rs2).toNat ≤ 4096)
include hlow hhigh

theorem tring_misaligned_traps (hb : (x.rx rs1).toNat % 64 ≠ 0) : Traps (.tring ring rs1 rs2) s 4 (x.rx rs1) 0 :=
  traps_of rfl r ((if_neg (by omega)).trans (if_pos hb))

variable (hb : (x.rx rs1).toNat % 64 = 0)
include hb

/-- Lines outside the bound data granules of the window's home fail (R202, R382). -/
theorem tring_place_traps (hp : s.ringPlace (s.winOf x / 96) x.cluster (x.rx rs1) (x.rx rs2).toNat = false) :
    Traps (.tring ring rs1 rs2) s 5 (x.rx rs1) 0 := by
  refine traps_of rfl r ((if_neg (by omega)).trans ((if_neg (not_not_intro hb)).trans (if_pos ?_)))
  rw [winHome, hp]
  rfl

/-- A ring that no tile command names, and no tring is to set, is set at once when the release is done (R202). -/
theorem tring_sets (hp : s.ringPlace (s.winOf x / 96) x.cluster (x.rx rs1) (x.rx rs2).toNat = true)
    (ha : s.acquiring s.cur = false) (hgate : s.opGate s.cur x .cl [] = []) (hnamed : s.ringNamed (s.winOf x) ring.toNat = false)
    (hpend : (s.tringPending (s.winOf x) ring.toNat fun _ _ => true) = false) :
    RetiresAt (.tring ring rs1 rs2) s (s.setRing (s.winOf x) ring.toNat (x.rx rs1) (x.rx rs2).toNat) x := by
  refine settle_at r rfl _ rfl ((if_neg (by omega)).trans ((if_neg (not_not_intro hb)).trans ?_))
  simp [winHome, hp, ha, hgate, hnamed, hpend]

end

/-! ### radv -/

section
variable {rs1 : RegIdx} (r : Ready s x (tileNames [rs1] []))
include r

/-- A ring without lines is reported before a count that is too large (log 39). -/
theorem radv_empty_traps (hl : s.ringLines (s.winOf x) ring.toNat (fun o => o.hart == s.cur) = 0) :
    Traps (.radv ring rs1) s 50 (BitVec.ofNat 64 (2 ^ 60 * 3 + ring.toNat)) 0 :=
  traps_of rfl r (if_pos hl)

variable (hl : 0 < s.ringLines (s.winOf x) ring.toNat fun o => o.hart == s.cur)
include hl

theorem radv_count_traps (hn : s.ringLines (s.winOf x) ring.toNat (fun o => o.hart == s.cur) < (x.rx rs1).toNat) :
    Traps (.radv ring rs1) s 2 (bitsOfEnc (encode (.radv ring rs1))) 0 :=
  traps_of rfl r ((if_neg hl.ne').trans (if_pos hn))

/-- Where there is room, TAIL moves on once the release is done (R203). -/
theorem radv_advances (hn : (x.rx rs1).toNat ≤ s.ringLines (s.winOf x) ring.toNat fun o => o.hart == s.cur)
    (hpend : (s.tringPending (s.winOf x) ring.toNat fun _ o => o.hart == s.cur) = false) (ha : s.acquiring s.cur = false)
    (hgate : s.fenceGate s.cur x .cl = none) {q : Ring} (hq : tgetD (s.window (s.winOf x)).rings ring.toNat Ring.zero = q)
    (hroom : (q.tail - q.head).toNat + (x.rx rs1).toNat ≤ q.lines) :
    RetiresAt (.radv ring rs1) s (s.modWindow (s.winOf x) fun v =>
      { v with rings := tset v.rings ring.toNat { q with tail := q.tail + BitVec.ofNat 32 (x.rx rs1).toNat } }) x := by
  refine settle_at r rfl _ rfl ((if_neg hl.ne').trans ((if_neg hn.not_gt).trans ?_))
  simp only [hpend, ha, hgate, hq, Bool.false_eq_true, if_false, hroom, if_true]

end

end

/-- Settles O25: the checks in their order, and then the ring as it is left. That radv looks for cause 50 before cause 2 is the model's
choice (log 39). -/
theorem rings : Obligations.Rings := by
  unfold Obligations.Rings
  intro ring rs1 rs2 s x w k q
  exact ⟨fun r => ⟨tring_count_traps r, tring_misaligned_traps r, tring_place_traps r, tring_sets r⟩,
    fun r => ⟨radv_empty_traps r, radv_count_traps r,
      fun hl hn hpend ha hgate hroom => radv_advances r hl hn hpend ha hgate rfl hroom⟩⟩

end Sys2Proof.Machine
end

section
/-! SUPPORT. What the asynchronous instructions come to (R217, R230, R235, R244 to R247, R251, R254, R384). -/

namespace Sys2Proof.Machine

/-- What an asynchronous instruction has left once it has issued, but for its hart: its operation under way, or one that has failed
because its handle names no queue (R246, R389). -/
def OpForm.leaves (F : OpForm) (i : Instr) (s : State) (x : Hart) : State :=
  if badHandle F.issue.kind then (s.withOp x (formOf i) F.issue).opFail s.nextId 7 10 0 0#64 else s.withOp x (formOf i) F.issue

/-- The state in which an asynchronous instruction has issued. -/
def OpForm.issues (F : OpForm) (i : Instr) (s : State) (x : Hart) : State :=
  (F.leaves i s x).modHart s.cur fun _ => (x.countedTo F.counts).issued F.rd (formOf i) s.nextId

/-- An acquire under way holds an asynchronous instruction back, and so do eight accesses one that counts among them (R94). -/
def OpForm.heldBack (F : OpForm) (s : State) : Bool := s.acquiring s.cur || (F.limited && decide (8 ≤ s.outstanding s.cur))

/-- What an asynchronous instruction's own part comes to, by its form. -/
def OpForm.res (F : OpForm) (i : Instr) (s : State) (x : Hart) : Res :=
  match F.trap with
  | some (cause, tval) => .trap cause tval 0 s
  | none => if F.heldBack s then .wait 9 0#64 s else .ok (F.issues i s x)

/-- The instruction runs, and its own part is that of its form. -/
def OpForm.Runs (F : OpForm) (i : Instr) (s : State) (x : Hart) : Prop :=
  F.names.hint = false ∧ ∃ body, exec i s = .next (runHart i F.names body s) ∧ body s.cur x s = F.res i s x

section
variable {F : OpForm} {i : Instr} {s : State} {x : Hart}

theorem OpForm.leaves_good (h : badHandle F.issue.kind = false) : F.leaves i s x = s.withOp x (formOf i) F.issue := by
  simp [OpForm.leaves, h]

theorem OpForm.leaves_bad (h : badHandle F.issue.kind = true) :
    F.leaves i s x = (s.withOp x (formOf i) F.issue).opFail s.nextId 7 10 0 0#64 := if_pos h

theorem OpForm.res_trap {cause : Nat} {tval : Word} (h : F.trap = some (cause, tval)) : F.res i s x = .trap cause tval 0 s := by
  simp only [OpForm.res, h]

theorem OpForm.res_issue (h : F.trap = none) :
    F.res i s x = if F.heldBack s then .wait 9 0#64 s else .ok (F.issues i s x) := by
  simp only [OpForm.res, h]

end

/-! ### The shared bodies, by their forms -/

section
variable {s : State} {x : Hart} (hx : s.hart? s.cur = some x)
include hx

/-- An operation whose home R44 does not count. -/
theorem asyncRes_eq (i : Instr) (names : Names) (rd : RegIdx) (limited : Bool) (p : Issue) (hk : badHandle p.kind = false) :
    asyncRes s s.cur x rd (formOf i) limited p = OpForm.res ⟨names, rd, limited, none, p, none⟩ i s x := by
  rw [OpForm.res_issue rfl, OpForm.issues, OpForm.leaves_good hk, asyncRes]
  exact congrArg (ite _ _ ∘ Res.ok) (withOp_eq s x rd (formOf i) p none hx s rfl)

/-- One whose home R44 counts. -/
theorem asyncCounted_eq (i : Instr) (names : Names) (rd : RegIdx) (a : Word) (p : Issue) (hk : badHandle p.kind = false) :
    asyncCounted s s.cur x a rd (formOf i) p = OpForm.res ⟨names, rd, true, some a, p, none⟩ i s x := by
  have hcount : ((s.opIssue s.cur x rd (formOf i) p).2).countHome s.cur a =
      OpForm.issues ⟨names, rd, true, some a, p, none⟩ i s x := by
    rw [OpForm.issues, OpForm.leaves_good hk, withOp_eq s x rd (formOf i) p none hx s rfl, State.countHome, State.modHart_modHart]
    rfl
  rw [OpForm.res_issue rfl, asyncCounted, asyncRes, ← hcount]
  by_cases hheld : (s.acquiring s.cur || (true && decide (8 ≤ s.outstanding s.cur))) = true
  · rw [if_pos hheld]
    exact (if_pos hheld).symm
  · rw [if_neg hheld]
    exact (if_neg hheld).symm

theorem bankRes_eq (i : Instr) (names : Names) (sc : Scope) (rd rs1 : RegIdx) (n : Nat) (how : FailHow) (kind : Hart → OpKind)
    (hk : badHandle (kind x) = false) :
    bankRes i sc rd rs1 n how kind s.cur x s =
      OpForm.res ⟨names, rd, true, some (x.rx rs1), ⟨kind x, how, sc, [lineOf (x.rx rs1)], true⟩, bankTrap (x.rx rs1) n⟩ i s x := by
  cases ht : bankTrap (x.rx rs1) n with
  | none => exact (bank_pass (h := ht)).trans (asyncCounted_eq hx i names rd _ _ hk)
  | some t => exact (bank_trap ht).trans (OpForm.res_trap rfl).symm

theorem bankWord_eq (i : Instr) (fn : BankFn) (dbl : Bool) (sc : Scope) (rd rs1 rs2 : RegIdx) :
    bankWord i fn dbl sc rd rs1 rs2 s.cur x s = (bankForm x sc rd rs1 rs2 fn dbl).res i s x :=
  bankRes_eq hx i _ sc rd rs1 _ _ _ rfl

theorem bankVred_eq (i : Instr) (fn : VredFn) (sc : Scope) (rd rs1 vs2 : RegIdx) :
    bankVred i fn sc rd rs1 vs2 s.cur x s = (vredForm x sc rd rs1 vs2 fn).res i s x := by
  have hrun := bankRes_eq hx i (vredForm x sc rd rs1 vs2 fn).names sc rd rs1 64 .status
    (fun x => .vred fn (x.rx rs1) (x.vredLanes vs2)) rfl
  rw [vlanes] at hrun
  exact hrun

/-- A queue operation names its home with its handle. -/
theorem queueRes_eq (i : Instr) (sc : Scope) (rd rs1 : RegIdx) (xs : List RegIdx) (kind : Hart → OpKind)
    (hk : badHandle (kind x) = (bitsOf (x.rx rs1).toNat 12 35 != 0)) :
    queueRes i sc rd rs1 kind s.cur x s = (queueForm x sc rd rs1 xs (kind x)).res i s x := by
  have hissue := withOp_eq s x rd (formOf i) ⟨kind x, .zero, sc, [], true⟩ (some (x.rx rs1)) hx _ rfl
  rw [OpForm.res_issue rfl, OpForm.issues, OpForm.leaves, queueRes]
  simp only [queueForm, OpForm.heldBack, hk, bne_iff_ne, hissue, Bool.true_and]
  split
  · rfl
  · split <;> rfl

theorem arriveRes_eq (i : Instr) (sc : Scope) (rd rs1 : RegIdx) (xs : List RegIdx) (early : Bool) (opc : Nat)
    (lanes : Hart → BitVec 64) (fmt : Hart → Nat) :
    arriveRes i sc rd rs1 early opc lanes fmt s.cur x s = (arriveForm s x sc rd rs1 xs early opc (lanes x) (fmt x)).res i s x := by
  cases ht : barrierTrap s x (x.rx rs1) with
  | none =>
    rw [arrive_pass ht, arriveForm, ht]
    exact asyncRes_eq hx i _ rd true _ rfl
  | some t => exact (arrive_trap ht).trans (OpForm.res_trap ht).symm

/-- Bits [2:1] of a send's address are clear and the rest names a mailbox, or it traps (R235, R383). -/
theorem sendRes_eq (i : Instr) (sc : Scope) (rd rs1 rs2 : RegIdx) (kind : Word → Bool → Hart → OpKind)
    (hk : ∀ m nowait, badHandle (kind m nowait x) = false) :
    sendRes i sc rd rs1 kind s.cur x s = (sendForm x sc rd rs1 rs2 fun m nowait => kind m nowait x).res i s x := by
  have hok : (decide ((x.rx rs1).toNat / 2 % 4 = 0) && (mboxOf (BitVec.ofNat 64 ((x.rx rs1).toNat / 8 * 8))).isSome) = true ↔
      bitsOf (x.rx rs1).toNat 1 2 = 0 ∧ (mboxOf (BitVec.ofNat 64 ((x.rx rs1).toNat / 8 * 8))).isSome = true := by
    rw [Bool.and_eq_true, decide_eq_true_eq]
    rfl
  simp only [sendRes, sendTarget, sendForm, hok]
  split
  · next hnamed =>
    split at hnamed
    · cases hnamed
    · next hbad => simp only [OpForm.res, if_neg hbad]
  · next hnamed =>
    split at hnamed
    · next hgood =>
      cases hnamed
      rw [if_pos hgood]
      exact asyncRes_eq hx i _ rd false _ (hk _ _)
    · cases hnamed

theorem cpyk_runs (rd rs1 rs2 : RegIdx) {F : OpForm} (hF : opForm s x (.cpyk rd rs1 rs2) = some F) : F.Runs (.cpyk rd rs1 rs2) s x := by
  cases hF
  refine ⟨rfl, _, rfl, ?_⟩
  dsimp only
  by_cases ha : (x.rx rs1).toNat % 8 = 0
  · by_cases hw : (kickOf (x.rx rs2)).isNone = true
    · simp [ha, hw, OpForm.res]
    · simp only [ne_eq, ha, hw, not_true, if_false]
      exact asyncRes_eq hx _ _ rd false _ rfl
  · simp [ha, OpForm.res]

theorem launch_runs (rd rs1 : RegIdx) (q : BitVec 4) {F : OpForm} (hF : opForm s x (.launch rd rs1 q) = some F) :
    F.Runs (.launch rd rs1 q) s x := by
  cases hF
  refine ⟨rfl, _, rfl, ?_⟩
  dsimp only
  by_cases ha : (x.rx rs1).toNat % 128 = 0
  · simp only [ne_eq, ha, not_true, if_false]
    exact asyncRes_eq hx _ _ rd false _ rfl
  · simp [ha, OpForm.res]

theorem bwait_runs (rd rs1 : RegIdx) {F : OpForm} (hF : opForm s x (.bwait rd rs1) = some F) : F.Runs (.bwait rd rs1) s x := by
  cases hF
  refine ⟨rfl, _, rfl, ?_⟩
  dsimp only
  rw [barrier_eq]
  cases ht : barrierTrap s x (x.rx rs1) with
  | some t => rfl
  | none =>
    by_cases hn : (x.rx rs1).toNat < 64
    · simp only [Option.map_none, hn, if_true, Nat.not_le.mpr hn, decide_false, Bool.false_eq_true, if_false]
      exact asyncRes_eq hx _ _ rd true _ rfl
    · simp only [Option.map_none, hn, if_false, Nat.not_lt.mp hn, decide_true, if_true]
      exact asyncCounted_eq hx _ _ rd _ _ rfl

/-- Every asynchronous instruction runs by its form. -/
theorem opForm_runs {i : Instr} {F : OpForm} (hF : opForm s x i = some F) : F.Runs i s x := by
  have hform := hF
  unfold opForm at hform
  split at hform
  case h_1 | h_2 | h_3 | h_4 | h_5 | h_6 | h_7 | h_8 | h_9 | h_10 | h_11 | h_12 | h_13 | h_14 | h_15 | h_16 | h_17 =>
    cases hform
    exact ⟨rfl, _, rfl, bankWord_eq hx ..⟩
  case h_18 | h_19 | h_20 | h_21 | h_22 | h_23 =>
    cases hform
    exact ⟨rfl, _, rfl, bankVred_eq hx ..⟩
  case h_24 =>
    cases hform
    exact ⟨rfl, _, rfl, queueRes_eq hx _ _ _ _ _ (fun x => .enq (x.rx _) (x.rx _)) rfl⟩
  case h_25 =>
    cases hform
    exact ⟨rfl, _, rfl, queueRes_eq hx _ _ _ _ _ (fun x => .deq (x.rx _)) rfl⟩
  case h_26 =>
    cases hform
    exact ⟨rfl, _, rfl, queueRes_eq hx _ _ _ _ _ (fun x => .len (x.rx _)) rfl⟩
  case h_27 | h_28 =>
    cases hform
    exact ⟨rfl, _, rfl, arriveRes_eq hx _ _ _ _ _ _ _ noLanes noFmt⟩
  case h_29 | h_30 | h_31 | h_32 | h_33 | h_34 =>
    cases hform
    exact ⟨rfl, _, rfl, arriveRes_eq hx _ _ _ _ _ _ _ (fun x => x.rx _) noFmt⟩
  case h_35 =>
    cases hform
    exact ⟨rfl, _, rfl, arriveRes_eq hx _ _ _ _ _ _ _ (fun x => (lo32 (x.rx _)).setWidth 64) fun x => bitsOf (x.rx _).toNat 32 7⟩
  case h_36 => exact bwait_runs hx _ _ hF
  case h_37 =>
    cases hform
    exact ⟨rfl, _, rfl, sendRes_eq hx _ _ _ _ _ (fun m nowait x => .sendImg m nowait (x.rx _)) fun _ _ => rfl⟩
  case h_38 =>
    cases hform
    exact ⟨rfl, _, rfl, sendRes_eq hx _ _ _ _ _ (fun m nowait x => .send m nowait (bytesOfNat 8 (x.rx _).toNat) 8 0) fun _ _ => rfl⟩
  case h_39 => exact cpyk_runs hx _ _ _ hF
  case h_40 => exact launch_runs hx _ _ _ hF
  case h_41 => cases hform

end

section
variable {i : Instr} {s : State} {x : Hart} {F : OpForm} (hF : opForm s x i = some F) (r : Ready s x F.names)
include hF r

theorem opForm_traps {cause : Nat} {tval : Word} (ht : F.trap = some (cause, tval)) : Traps i s cause tval 0 := by
  obtain ⟨_, _, hrun, hbody⟩ := opForm_runs r.hart hF
  exact traps_of hrun r (hbody.trans (F.res_trap ht))

theorem opForm_issues (ht : F.trap = none) (ha : s.acquiring s.cur = false) (hl : F.limited = true → s.outstanding s.cur < 8) :
    RetiresIn i s (F.leaves i s x) x fun _ => (x.countedTo F.counts).issued F.rd (formOf i) s.nextId := by
  obtain ⟨hint, _, hrun, hbody⟩ := opForm_runs r.hart hF
  have hgo : ¬F.heldBack s = true := by simpa [OpForm.heldBack, ha] using hl
  exact settle_in r hint i _ hrun ((hbody.trans (F.res_issue ht)).trans (if_neg hgo))

end

/-- Settles O20: an asynchronous instruction runs by its form, which leaves its operation as the statement does. That the handle counts
its own issue is the model's choice (log 125). -/
theorem asyncIssue : Obligations.AsyncIssue := by
  unfold Obligations.AsyncIssue
  intro i s x F hF r ht ha hl
  have hissues := opForm_issues hF r ht ha hl
  exact ⟨fun hgood => F.leaves_good hgood ▸ hissues, fun hbad => F.leaves_bad hbad ▸ hissues⟩

/-- Settles O21: an asynchronous instruction runs by its form, whose trap comes before anything is issued. -/
theorem asyncTraps : Obligations.AsyncTraps := by
  unfold Obligations.AsyncTraps
  exact fun i s x F cause tval hF r => opForm_traps hF r

end Sys2Proof.Machine
end

section
/-! SUPPORT. What the instructions for a copy engine come to (R226, R228, R232, R384). -/

namespace Sys2Proof.Machine

/-- The operation of a copy engine's instruction (R217). -/
def EngineForm.issue (F : EngineForm) : Issue := ⟨.copy, .status, .sys, [], F.gated⟩

/-- What an instruction for a copy engine has left once it has issued, but for its hart: its operation and its command. -/
def EngineForm.leaves (F : EngineForm) (i : Instr) (s : State) (x : Hart) : State :=
  (s.withOp x (formOf i) F.issue).withCmd x F.what s.nextId

/-- What its own part comes to, by its form. -/
def EngineForm.res (F : EngineForm) (i : Instr) (s : State) (x : Hart) : Res :=
  match F.trap with
  | some (cause, tval) => .trap cause tval 0 s
  | none => engineRes i F.rd F.what F.gated [] s.cur x s

/-- The instruction runs, and its own part is that of its form. -/
def EngineForm.Runs (F : EngineForm) (i : Instr) (s : State) (x : Hart) : Prop :=
  F.names.hint = false ∧ ∃ body, exec i s = .next (runHart i F.names body s) ∧ body s.cur x s = F.res i s x

/-- The commands that have not started at the engine of a hart. -/
def State.queuedAt (s : State) (x : Hart) : Nat := (s.engine (s.engineOf x)).countP fun c => !c.started

/-- An engine has room for 16 commands that have not started (R226). -/
theorem State.engineRoom_iff (s : State) (x : Hart) : s.engineRoom (s.engineOf x) = true ↔ s.queuedAt x < 16 := by
  rw [State.engineRoom, decide_eq_true_eq, State.queuedAt, List.countP_eq_length_filter]

section
variable {i : Instr} {s : State} {x : Hart} {F : EngineForm}

theorem engineRes_full (rd : RegIdx) (what : CopyWhat) (gated : Bool) (hfull : 16 ≤ s.queuedAt x) :
    engineRes i rd what gated [] s.cur x s = .wait 10 0#64 s := by
  have hroom : s.engineRoom (s.engineOf x) = false := by
    rw [← Bool.not_eq_true, State.engineRoom_iff]
    omega
  simp [engineRes, hroom]

theorem engineRes_room (hx : s.hart? s.cur = some x) (ha : s.acquiring s.cur = false) (hroom : s.queuedAt x < 16) :
    engineRes i F.rd F.what F.gated [] s.cur x s =
      .ok ((F.leaves i s x).modHart s.cur fun _ => x.issued F.rd (formOf i) s.nextId) := by
  have hcmd : engineRes i F.rd F.what F.gated [] s.cur x s =
      .ok ((s.opIssue s.cur x F.rd (formOf i) F.issue).2.withCmd x F.what s.nextId) := by
    simp only [engineRes, ha, (s.engineRoom_iff x).mpr hroom, Bool.not_true, Bool.or_self, Bool.false_eq_true, if_false]
    rfl
  rw [hcmd, withOp_eq s x F.rd (formOf i) F.issue none hx s rfl]
  rfl

theorem engineForm_runs (hF : engineForm x i = some F) : F.Runs i s x := by
  unfold engineForm at hF
  split at hF
  case h_1 rd rs1 =>
    cases hF
    refine ⟨rfl, _, rfl, ?_⟩
    by_cases ha : (x.rx rs1).toNat % 16 = 0 <;> simp [EngineForm.res, ha]
  case h_2 | h_3 =>
    cases hF
    exact ⟨rfl, _, rfl, rfl⟩
  case h_4 => cases hF

variable (hF : engineForm x i = some F) (r : Ready s x F.names)
include hF r

theorem engineForm_traps {cause : Nat} {tval : Word} (ht : F.trap = some (cause, tval)) : Traps i s cause tval 0 := by
  obtain ⟨_, _, hrun, hbody⟩ := engineForm_runs (s := s) hF
  exact traps_of hrun r (by rw [hbody, EngineForm.res, ht])

variable (ht : F.trap = none)
include ht

theorem exec_engineForm_waits (hfull : 16 ≤ s.queuedAt x) : exec i s = .next (s.hartWait s.cur 10 0#64) := by
  obtain ⟨_, _, hrun, hbody⟩ := engineForm_runs (s := s) hF
  refine exec_waits hrun r (hbody.trans ?_)
  rw [EngineForm.res, ht]
  exact engineRes_full _ _ _ hfull

theorem engineForm_issues (ha : s.acquiring s.cur = false) (hroom : s.queuedAt x < 16) :
    RetiresIn i s (F.leaves i s x) x fun _ => x.issued F.rd (formOf i) s.nextId := by
  obtain ⟨hint, _, hrun, hbody⟩ := engineForm_runs (s := s) hF
  refine settle_in r hint i _ hrun (hbody.trans ?_)
  rw [EngineForm.res, ht]
  exact engineRes_room r.hart ha hroom

end

/-- The new command stands behind the others of its engine. -/
theorem State.withCmd_engine (s : State) (x : Hart) (what : CopyWhat) (op : Nat) :
    ∃ c, (s.withCmd x what op).engine (s.engineOf x) = s.engine (s.engineOf x) ++ [c] ∧ c.what = what ∧ c.op = some op ∧
      c.started = false := ⟨_, tgetD_tset_same .., rfl, rfl, rfl⟩

/-- Settles O22: an instruction for a copy engine runs by its form, which traps, or waits at a full queue, or leaves its command last
there with its operation. -/
theorem engineIssue : Obligations.EngineIssue := by
  unfold Obligations.EngineIssue
  intro i s x F hF r
  refine ⟨fun ht ha => ⟨fun hroom => ?room, exec_engineForm_waits hF r ht⟩, fun cause tval => engineForm_traps hF r⟩
  case room =>
    have hissues := engineForm_issues hF r ht ha hroom
    obtain ⟨c, hlast, hwhat, hop, hnew⟩ := (s.withOp x (formOf i) F.issue).withCmd_engine x F.what s.nextId
    refine ⟨hissues, _, c, _, hissues, rfl, ?_, hlast, hwhat, hop, hnew, tget_tset_same .., rfl⟩
    exact State.hart?_modHart (s := F.leaves i s x) r.hart _

end Sys2Proof.Machine
end

section
/-! SUPPORT. What gb.emit comes to (R217, R272, R385). -/

namespace Sys2Proof.Machine

/-- The operation of a gb.emit: OUT and TAU as they stand at its issue (R272). -/
def Chisel.emits (c : Chisel) (m : Word) (nowait : Bool) (e : Word) : Issue :=
  ⟨.emit m nowait e c.outdim c.oeta c.olam c.tau, .status, .md, [], true⟩

/-- The edge record lies in the window space of the hart's window home (R385). -/
def State.emitPlace (s : State) (x : Hart) (e : Word) : Bool := inWindowSpace e && vaHome e == winHome (s.winOf x)

/-- The hart once its workspace is live (R262). -/
def Hart.enlivened (x : Hart) : Hart := { x with chisel := { x.chisel with live := true } }

/-- An operation that makes the workspace live as it issues: it looks at nothing of the workspace itself. -/
theorem asyncRes_enlivened {s : State} {x : Hart} (hx : s.hart? s.cur = some x) (ha : s.acquiring s.cur = false) (rd : RegIdx)
    (fo : FormOp) (p : Issue) :
    asyncRes (s.modHart s.cur Hart.enlivened) s.cur x rd fo false p =
      .ok ((s.withOp x fo p).modHart s.cur fun _ => x.enlivened.issued rd fo s.nextId) := by
  have hlive : (s.modHart s.cur Hart.enlivened).hart? s.cur = some x.enlivened := State.hart?_modHart hx _
  have hissue := withOp_eq (s.modHart s.cur Hart.enlivened) x.enlivened rd fo p none hlive _ rfl
  have hacq : (s.modHart s.cur Hart.enlivened).acquiring s.cur = false := ha
  rw [asyncRes, hacq]
  exact congrArg Res.ok (hissue.trans (State.modHart_modHart (s.withOp x fo p) s.cur Hart.enlivened _))

section
variable {rd rs2 rs1 : RegIdx} {s : State} {x : Hart} (r : Ready s x (xNames [rs1, rs2] [rd] .leaves))
include r

theorem gbEmit_empty_traps (ho : x.chisel.outdim = 0) :
    Traps (.gbEmit rd rs2 rs1) s 2 (bitsOfEnc (encode (.gbEmit rd rs2 rs1))) 0 :=
  traps_of rfl r (if_pos ho)

variable (ho : x.chisel.outdim ≠ 0)
include ho

theorem gbEmit_misaligned_traps (he : (x.rx rs2).toNat % 256 ≠ 0) : Traps (.gbEmit rd rs2 rs1) s 6 (x.rx rs2) 0 :=
  traps_of rfl r ((if_neg ho).trans (if_pos he))

variable (he : (x.rx rs2).toNat % 256 = 0)
include he

theorem gbEmit_place_traps (hp : s.emitPlace x (x.rx rs2) = false) : Traps (.gbEmit rd rs2 rs1) s 7 (x.rx rs2) 0 :=
  traps_of rfl r ((if_neg ho).trans ((if_neg (not_not_intro he)).trans (if_pos (by rw [← State.emitPlace, hp]; rfl))))

variable (hp : s.emitPlace x (x.rx rs2) = true)
include hp

theorem gbEmit_mailbox_traps (hm : sendTarget (x.rx rs1) = none) : Traps (.gbEmit rd rs2 rs1) s 7 (x.rx rs1) 0 := by
  refine traps_of rfl r
    ((if_neg ho).trans ((if_neg (not_not_intro he)).trans ((if_neg (by rw [← State.emitPlace, hp]; decide)).trans ?_)))
  simp only [hm]

/-- That LIVE is set at issue is the model's choice (log 163). -/
theorem gbEmit_issues {m : Word} {nowait : Bool} (hm : sendTarget (x.rx rs1) = some (m, nowait)) (ha : s.acquiring s.cur = false) :
    RetiresIn (.gbEmit rd rs2 rs1) s (s.withOp x (formOf (.gbEmit rd rs2 rs1)) (x.chisel.emits m nowait (x.rx rs2))) x fun _ =>
      x.enlivened.issued rd (formOf (.gbEmit rd rs2 rs1)) s.nextId := by
  refine settle_in r rfl _ _ rfl
    ((if_neg ho).trans ((if_neg (not_not_intro he)).trans ((if_neg (by rw [← State.emitPlace, hp]; decide)).trans ?_)))
  simp only [hm, ha, Bool.false_eq_true, if_false]
  exact asyncRes_enlivened r.hart ha ..

end

/-- Settles O29: the checks in their order, and then the operation with OUT and TAU as they stand. That LIVE is set at issue is the
model's choice (log 163). -/
theorem gbEmit : Obligations.GbEmit := by
  unfold Obligations.GbEmit
  intro rd rs2 rs1 s x i e c r
  exact ⟨gbEmit_empty_traps r, gbEmit_misaligned_traps r, gbEmit_place_traps r,
    fun ho he hp => ⟨gbEmit_mailbox_traps r ho he hp, fun m nowait => gbEmit_issues r ho he hp⟩⟩

end Sys2Proof.Machine
end

section
/-! SUPPORT. What the future instructions come to (R218, R221, R222, R374). -/

namespace Sys2Proof.Machine

section
variable {s : State} {x : Hart} {rd rs1 : RegIdx}

theorem fwait_retires (r : Ready s x (xNames [rs1] [] .alone)) : Retires (.fwait rs1) s x x := ok_ok r rfl rfl rfl

/-! ### ftest -/

section
variable (r : Ready s x (futureNames [rd] rs1 false)) (hb : x.isBusy rs1 = false)
include r hb

theorem ftest_retires : Retires (.ftest rd rs1) s x (x.wx rd (if (x.pendingOp rs1).isSome then 0#64 else 1#64)) :=
  retires_of (f := fun y => y.wx rd (if (x.pendingOp rs1).isSome then 0#64 else 1#64)) rfl r rfl (if_neg (by simp [hb]))

theorem ftest_present (hp : x.pendingOp rs1 = none) : Retires (.ftest rd rs1) s x (x.wx rd 1#64) := by
  simpa [hp] using ftest_retires r hb

theorem ftest_pending {o : Nat} (hp : x.pendingOp rs1 = some o) : Retires (.ftest rd rs1) s x (x.wx rd 0#64) := by
  simpa [hp] using ftest_retires r hb

end

/-! ### fpass -/

theorem Hart.fpass_self : x.fpass rs1 rs1 = x := if_pos rfl

/-- A register with no state passes its value alone. -/
theorem Hart.fpass_value (hne : rd ≠ rs1) (hs : tget x.regs rs1.toNat = none) :
    x.fpass rd rs1 = (x.wx rd (x.rx rs1)).wx rs1 0#64 := by
  simp only [Hart.fpass, hne, hs, if_false]

/-- A register that is pending or failed passes its state too; to x0 the operation is detached, or the failure dropped (log 37). -/
theorem Hart.fpass_state {st : RegState} (hne : rd ≠ rs1) (hs : tget x.regs rs1.toNat = some st) :
    x.fpass rd rs1 = { (x.wx rd (x.rx rs1)).wx rs1 0#64 with
      regs := if rd = 0#5 then tdel x.regs rs1.toNat else tset (tdel x.regs rs1.toNat) rd.toNat st } := by
  simp only [Hart.fpass, hne, hs, if_false]

theorem fpass_retires (r : Ready s x (futureNames [rd] rs1 true)) (hb : x.isBusy rs1 = false) :
    Retires (.fpass rd rs1) s x (x.fpass rd rs1) :=
  retires_of (f := fun y => y.fpass rd rs1) rfl r rfl (if_neg (by simp [hb]))

/-! ### fcancel -/

section
variable (r : Ready s x (futureNames [] rs1 true))
include r

theorem fcancel_idle (hp : x.pendingOp rs1 = none) : Retires (.fcancel rs1) s x x := ok_ok r rfl rfl (by simp only [hp])

theorem fcancel_asks {o : Nat} (hp : x.pendingOp rs1 = some o) : RetiresAt (.fcancel rs1) s (s.cancelOp o) x :=
  settle_at r rfl _ rfl (by simp only [hp])

end

/-! ### fwaitall -/

/-- A register that a mask names (R221). -/
def maskNames (mask : Word) (compact : Bool) (k : Nat) : Bool :=
  decide (0 < k) && mask.getLsbD k && (!compact || compactReg (BitVec.ofNat 5 k))

theorem mem_maskRegs {mask : Word} {compact : Bool} {k : Nat} :
    k ∈ maskRegs mask compact ↔ k < 32 ∧ maskNames mask compact k = true := by
  rw [maskRegs, List.mem_filter, List.mem_range]
  rfl

/-- The registers of a mask are listed by their numbers. -/
theorem maskRegs_pairwise (mask : Word) (compact : Bool) : (maskRegs mask compact).Pairwise (· < ·) :=
  List.pairwise_lt_range.filter _

/-- In a list of rising numbers, the first that has an answer is the least. -/
theorem findSome?_of_least {β : Type} {f : Nat → Option β} {l : List Nat} {k : Nat} {b : β} (hl : l.Pairwise (· < ·)) (hk : k ∈ l)
    (hb : f k = some b) (hleast : ∀ j ∈ l, j < k → f j = none) : l.findSome? f = some b := by
  obtain ⟨before, after, rfl⟩ := List.append_of_mem hk
  refine List.findSome?_eq_some_iff.mpr ⟨before, k, after, rfl, hb, fun j hj => hleast j (by simp [hj]) ?_⟩
  exact (List.pairwise_append.mp hl).2.2 j hj k (List.mem_cons_self ..)

/-- The failed registers of a list are none where no register of it has failed. -/
theorem Hart.firstFailed_none {rs : List Nat} (h : ∀ k ∈ rs, ∀ how, tget x.regs k ≠ some (.failed how)) : x.firstFailed rs = none := by
  refine List.findSome?_eq_none_iff.mpr fun k hk => ?_
  split
  · next how hs => exact absurd hs (h k hk how)
  · rfl

/-- The lowest failed register of a mask is found first (R374). -/
theorem Hart.firstFailed_maskRegs {mask : Word} {compact : Bool} {k : Nat} {how : FailHow} (hk : k < 32)
    (hn : maskNames mask compact k = true) (hs : tget x.regs k = some (.failed how))
    (hleast : ∀ j, j < k → maskNames mask compact j = true → ∀ h, tget x.regs j ≠ some (.failed h)) :
    x.firstFailed (maskRegs mask compact) = some (k, how) := by
  refine findSome?_of_least (maskRegs_pairwise ..) (mem_maskRegs.mpr ⟨hk, hn⟩) (by simp only [hs]) fun j hj hlt => ?_
  split
  · next h hf => exact absurd hf (hleast j hlt (mem_maskRegs.mp hj).2 h)
  · rfl

theorem Hart.firstPending_none {rs : List Nat} (h : ∀ k ∈ rs, ∀ o, tget x.regs k ≠ some (.pending o)) :
    x.firstPending rs = none := by
  refine List.findSome?_eq_none_iff.mpr fun k hk => ?_
  split
  · next o hs => exact absurd hs (h k hk o)
  · rfl

section
variable (r : Ready s x (xNames [rs1] [] .alone))
include r

/-- A busy register of the mask is not waited for. -/
theorem fwaitall_retires
    (h : ∀ k, k < 32 → maskNames (x.rx rs1) (s.compactRules x) k = true → ∀ st, tget x.regs k = some st → ∃ l, st = .busy l) :
    Retires (.fwaitall rs1) s x x := by
  have hbusy (k : Nat) (hk : k ∈ maskRegs (x.rx rs1) (s.compactRules x)) (st : RegState) (hs : tget x.regs k = some st) :
      ∃ l, st = .busy l := h k (mem_maskRegs.mp hk).1 (mem_maskRegs.mp hk).2 st hs
  have hfailed : x.firstFailed (maskRegs (x.rx rs1) (s.compactRules x)) = none :=
    Hart.firstFailed_none fun k hk how hs => by simpa using hbusy k hk _ hs
  have hpending : x.firstPending (maskRegs (x.rx rs1) (s.compactRules x)) = none :=
    Hart.firstPending_none fun k hk o hs => by simpa using hbusy k hk _ hs
  exact ok_ok r rfl rfl (by simp only [hfailed, hpending])

/-- The trap clears the register that it reports (R374). -/
theorem exec_fwaitall_traps {k : Nat} {how : FailHow} (hk : k < 32) (hn : maskNames (x.rx rs1) (s.compactRules x) k = true)
    (hs : tget x.regs k = some (.failed how))
    (hleast : ∀ j, j < k → maskNames (x.rx rs1) (s.compactRules x) j = true → ∀ h, tget x.regs j ≠ some (.failed h)) :
    exec (.fwaitall rs1) s = .next ((s.modPair s.cur fun y => y.clearFailed (BitVec.ofNat 5 k) how).takeTrap s.cur 60
      (x.rx (BitVec.ofNat 5 k)) 0 (formOf (.fwaitall rs1)) true) := by
  have hfirst := Hart.firstFailed_maskRegs hk hn hs hleast
  refine next_of_eq ((runHart_ready r ..).trans ?_)
  simp only [hfirst]
  exact settle_trap r ..

end
end

/-- Settles O30: each instruction reads the registers' states as its hypotheses give them. That fpass of a failed register to x0 drops
the failure is the model's choice (log 37). -/
theorem futures : Obligations.Futures := by
  unfold Obligations.Futures
  intro rd rs1 s x
  refine ⟨fwait_retires, fun r hb => ⟨ftest_present r hb, fun o => ftest_pending r hb⟩,
    fun r hb => ⟨?same, fun hne hs => Hart.fpass_value hne hs ▸ fpass_retires r hb,
      fun st hne hs => Hart.fpass_state hne hs ▸ fpass_retires r hb⟩,
    fun r => ⟨fcancel_idle r, fun o => fcancel_asks r⟩,
    fun r => ⟨fwaitall_retires r, fun k how => exec_fwaitall_traps r⟩⟩
  case same =>
    rintro rfl
    have hret := fpass_retires r hb
    rwa [Hart.fpass_self] at hret

end Sys2Proof.Machine
end

section
/-! SUPPORT. What the instructions of a mailbox's receivers come to (R237, R238, R383). -/

namespace Sys2Proof.Machine

/-! ### Receiving -/

/-- `s` with the slot that the hart `cur`, `x`, holds freed (R237). -/
def State.slotFreed (s : State) (x : Hart) : State :=
  (s.freeSlot (s.winOf x) x.heldSlot).modHart s.cur fun y => { y with heldSlot := 0#64 }

/-- The mailboxes that a receiver names (R237). -/
def Hart.recvMask (x : Hart) (rs1 : RegIdx) : Word := x.rx rs1 &&& 0xFFFFFFFF#64

/-- The limit of a recvt has passed since its hart began to wait (R237). -/
def State.limitPast (s : State) (x : Hart) (limit : Option Nat) : Bool :=
  limit.isSome && x.wait.isNone && x.recvEnd != 0 && decide (x.recvEnd < s.timeOf x)

theorem State.limitPast_iff {s : State} {x : Hart} {limit : Option Nat} :
    s.limitPast x limit = true ↔ limit.isSome = true ∧ x.wait = none ∧ x.recvEnd ≠ 0 ∧ x.recvEnd < s.timeOf x := by
  simp [State.limitPast, and_assoc]

/-- The mailbox from which a receiver takes its message. -/
def State.receives (s : State) (x : Hart) (rs1 : RegIdx) : Option Nat :=
  (s.slotFreed x).bestMbox (s.winOf x) ((s.slotFreed x).recvFrom s.cur x (s.winOf x) (x.recvMask rs1))

/-- What a receiver answers that takes nothing and does not wait. -/
def Hart.recvZero (y : Hart) (rd : RegIdx) : Hart := { y.wx rd 0#64 with recvEnd := 0 }

section
variable {s : State} {x : Hart} {rd rs1 : RegIdx} {limit : Option Nat}

/-- With an empty mask, or a limit that is past, the answer is 0. -/
theorem recvRes_zero (h : x.recvMask rs1 = 0#64 ∨ s.limitPast x limit = true) :
    recvRes rd rs1 limit s.cur x s = .ok ((s.slotFreed x).modHart s.cur fun y => y.recvZero rd) := if_pos h

theorem recvRes_takes {m : Nat} (h : ¬(x.recvMask rs1 = 0#64 ∨ s.limitPast x limit = true)) (hm : s.receives x rs1 = some m) :
    recvRes rd rs1 limit s.cur x s = .ok ((s.slotFreed x).takeMsg s.cur x rd (s.winOf x) m) := by
  refine (if_neg h).trans ?_
  split
  · next found =>
    cases found.symm.trans hm
    rfl
  · next found => cases found.symm.trans hm

variable (hm : s.receives x rs1 = none)
include hm

/-- A recvt of limit 0 polls. -/
theorem recvRes_polls : recvRes rd rs1 (some 0) s.cur x s = .ok ((s.slotFreed x).modHart s.cur fun y => y.recvZero rd) := by
  by_cases h : x.recvMask rs1 = 0#64 ∨ s.limitPast x (some 0) = true
  · exact recvRes_zero h
  · refine (if_neg h).trans ?_
    split
    · next found => cases found.symm.trans hm
    · exact if_pos (Or.inl rfl)

/-- A recv waits (R31). -/
theorem recvRes_waits (hmask : x.recvMask rs1 ≠ 0#64) :
    recvRes rd rs1 none s.cur x s = .wait 2 (x.recvMask rs1) (s.slotFreed x) := by
  refine (if_neg (not_or.mpr ⟨hmask, Bool.false_ne_true⟩)).trans ?_
  split
  · next found => cases found.symm.trans hm
  · rfl

end

/-- recv and recvt of these registers, with what they name. -/
def IsReceiver (rd rs1 rs2 : RegIdx) (i : Instr) (n : Names) : Prop :=
  (i, n) = (.recv rd rs1, xNames [rs1] [rd] .enters) ∨ (i, n) = (.recvt rd rs1 rs2, xNames [rs1, rs2] [rd] .enters)

/-- The limit of a recvt. -/
def recvLimit (x : Hart) : Instr → Option Nat
  | .recvt _ _ rs2 => some (x.rx rs2).toNat
  | _ => none

section
variable {rd rs1 rs2 : RegIdx} {i : Instr} {n : Names} {s : State} {x : Hart} (hi : IsReceiver rd rs1 rs2 i n)
include hi

theorem IsReceiver.limit_isSome : (recvLimit x i).isSome = true ↔ i = .recvt rd rs1 rs2 := by
  obtain h | h := hi <;> cases h <;> simp [recvLimit]

/-- A receiver runs by its limit. -/
theorem IsReceiver.runs : n.hint = false ∧ ∃ body, exec i s = .next (runHart i n body s) ∧
    body s.cur x s = recvRes rd rs1 (recvLimit x i) s.cur x s := by
  obtain h | h := hi <;> cases h <;> exact ⟨rfl, _, rfl, rfl⟩

variable (r : Ready s x n)
include r

theorem IsReceiver.retires {t : State} {g : Hart → Hart}
    (h : recvRes rd rs1 (recvLimit x i) s.cur x s = .ok (t.modHart s.cur g)) : RetiresIn i s t x g := by
  obtain ⟨hint, _, hrun, hbody⟩ := hi.runs (s := s) (x := x)
  exact settle_in r hint i g hrun (hbody.trans h)

end

/-- Settles O31: the mask, the limit and the messages of the hart's window choose what a receiver does, which is the same for both. -/
theorem receive : Obligations.Receive := by
  unfold Obligations.Receive
  intro i rd rs1 rs2 s x n hi r w mask s1 passed
  have hrecv : IsReceiver rd rs1 rs2 i n := hi
  have hpassed : s.limitPast x (recvLimit x i) = true ↔ passed := by rw [State.limitPast_iff, hrecv.limit_isSome]
  refine ⟨fun h => ?zero, fun m hmask hpast hm => ?takes, fun hmask hm => ⟨fun ht h0 => ?polls, fun ht => ?waits⟩⟩
  case zero => exact hrecv.retires r (recvRes_zero (h.imp_right hpassed.mpr))
  case takes => exact hrecv.retires r (recvRes_takes (not_or.mpr ⟨hmask, mt hpassed.mp hpast⟩) hm)
  case polls =>
    have hlimit : recvLimit x i = some 0 := by rw [ht, recvLimit, h0]; rfl
    exact hrecv.retires r (hlimit ▸ recvRes_polls hm)
  case waits =>
    obtain ⟨_, _, hrun, hbody⟩ := hrecv.runs (s := s) (x := x)
    have hlimit : recvLimit x i = none := by rw [ht]; rfl
    exact exec_waits hrun r (hbody.trans (hlimit ▸ recvRes_waits hm hmask))

/-! ### mbcfg and mbpeek -/

section
variable {s : State} {x : Hart} {rd rs1 rs2 : RegIdx} {m : Nat}

section
variable (r : Ready s x (xNames [rs1, rs2] [] .leaves))
include r

theorem mbcfg_traps (hm : s.ownMbox x (x.rx rs1) = none) : Traps (.mbcfg rs2 rs1) s 7 (x.rx rs1) 0 :=
  traps_of rfl r (by simp only [hm])

/-- BETA, PRIO, EN and SLOTS are bits [15:8] and [5:0] (R234, R238). -/
theorem mbcfg_writes (hm : s.ownMbox x (x.rx rs1) = some m) (hc : s.ctlReady (s.winOf x) = true) :
    RetiresAt (.mbcfg rs2 rs1) s (s.putConf (s.winOf x) m (putBits (putBits (s.conf (s.winOf x) m) 0 6 ((x.rx rs2).toNat % 2 ^ 6)) 8 8
      ((x.rx rs2).toNat / 2 ^ 8 % 2 ^ 8))) x := by
  refine settle_at r rfl _ rfl ?_
  simp only [hm, hc, Bool.not_true, Bool.false_eq_true, if_false, bitsOf, Nat.pow_zero, Nat.div_one]

end

section
variable (r : Ready s x (xNames [rs1] [rd] .enters))
include r

theorem mbpeek_traps (hm : s.ownMbox x (x.rx rs1) = none) : Traps (.mbpeek rd rs1) s 5 (x.rx rs1) 0 :=
  traps_of rfl r (by simp only [hm])

variable (hm : s.ownMbox x (x.rx rs1) = some m) (hc : s.ctlReady (s.winOf x) = true)
include hm hc

/-- The hart's core has then seen the message's causal time (R318). -/
theorem mbpeek_finds (hh : s.mboxHas (s.winOf x) m = true) :
    RetiresIn (.mbpeek rd rs1) s
      (s.raiseC x.core x.cluster (s.slotCtime (s.winOf x) m (cHead (s.conf (s.winOf x) m) % 8))) x fun y =>
        y.wx rd (slotAddr (s.winOf x) m (cHead (s.conf (s.winOf x) m) % 8)) := by
  refine settle_in r rfl _ _ rfl ?_
  simp [hm, hc, hh, setX]

theorem mbpeek_empty (hh : s.mboxHas (s.winOf x) m = false) : Retires (.mbpeek rd rs1) s x (x.wx rd 0#64) := by
  refine retires_of (f := fun y => y.wx rd 0#64) rfl r rfl ?_
  simp [hm, hc, hh, setX]

end
end

/-- Settles O32: the address names a mailbox of the hart's own window or traps, and the mailbox's word says what is written or found. -/
theorem mailboxes : Obligations.Mailboxes := by
  unfold Obligations.Mailboxes
  intro rd rs1 rs2 s x w a
  exact ⟨fun r => ⟨mbcfg_traps r, fun m => mbcfg_writes r⟩,
    fun r => ⟨mbpeek_traps r, fun m hm hc => ⟨mbpeek_finds r hm hc, mbpeek_empty r hm hc⟩⟩⟩

end Sys2Proof.Machine
end

section
/-! SUPPORT. The bits of the predicate word, and how many of them are set (R257). -/

namespace Sys2Proof.Machine

/-- pwPut replaces bit `d` alone. -/
theorem getLsbD_pwPut (w : W32) (d : RegIdx) (b : Bool) {k : Nat} (hk : k < 32) :
    (pwPut w d b).getLsbD k = if k = d.toNat then b else w.getLsbD k := by
  have hbit : (1#32 <<< d.toNat).getLsbD k = decide (k = d.toNat) := by
    rw [← BitVec.twoPow_eq, BitVec.getLsbD_twoPow, ← Bool.decide_and, decide_eq_decide]
    omega
  cases b
  case false =>
    show (w &&& ~~~(1#32 <<< d.toNat)).getLsbD k = _
    rw [BitVec.getLsbD_and, BitVec.getLsbD_not, hbit]
    split <;> simp [*]
  case true =>
    show (w ||| 1#32 <<< d.toNat).getLsbD k = _
    rw [BitVec.getLsbD_or, hbit]
    split <;> simp [*]

theorem popcountNat_eq_countP (v n : Nat) : popcountNat v n = (List.range n).countP v.testBit := by
  induction n with
  | zero => rfl
  | succ n ih =>
    have hbit : bitsOf v n 1 = (v.testBit n).toNat := (Nat.toNat_testBit v n).symm
    rw [popcountNat, ih, hbit, List.range_succ, List.countP_append, List.countP_singleton]
    cases v.testBit n <;> rfl

/-- What pwpop counts: the bits set in both words. -/
theorem popcountNat_and (w : W32) (v : Word) :
    popcountNat (w &&& lo32 v).toNat 32 = (List.range 32).countP fun k => w.getLsbD k && v.getLsbD k := by
  rw [popcountNat_eq_countP]
  refine List.countP_congr fun k hk => ?_
  have hk : k < 32 := List.mem_range.mp hk
  rw [BitVec.testBit_toNat, BitVec.getLsbD_and, lo32, BitVec.getLsbD_setWidth]
  simp [hk]

/-- An instruction that puts one bit of pw. -/
theorem pwPut_retires {i : Instr} {s : State} {x : Hart} {d : RegIdx} {b : W32 → Bool} (r : Ready s x (xNames [] [] .alone))
    (he : exec i s = .next (runHart i (xNames [] [] .alone) (fun h _ s => setPw s h fun w => pwPut w d (b w)) s)) :
    ∃ w : W32, (∀ k, k < 32 → w.getLsbD k = if k = d.toNat then b x.pw else x.pw.getLsbD k) ∧ Retires i s x { x with pw := w } :=
  ⟨pwPut x.pw d (b x.pw), fun _ => getLsbD_pwPut x.pw d (b x.pw),
    retires_of (f := fun y => { y with pw := pwPut y.pw d (b y.pw) }) he r rfl rfl⟩

/-- Settles O5: pwset and pwclr write pw with the low word of x[rs1], the single-bit instructions put one bit each, and pwpop counts the
bits set in both words. -/
theorem predicateWord : Obligations.PredicateWord := by
  unfold Obligations.PredicateWord
  intro d a b rd rs1 s x
  refine ⟨fun r => ⟨?set, ?clr⟩, fun r => ⟨?and, ?or, ?not⟩, fun r => ?pop⟩
  case set => exact retires_of (f := fun y => { y with pw := y.pw ||| lo32 (x.rx rs1) }) rfl r rfl rfl
  case clr => exact retires_of (f := fun y => { y with pw := y.pw &&& ~~~(lo32 (x.rx rs1)) }) rfl r rfl rfl
  case and => exact pwPut_retires (b := fun w => pwBit w a && pwBit w b) r rfl
  case or => exact pwPut_retires (b := fun w => pwBit w a || pwBit w b) r rfl
  case not => exact pwPut_retires (b := fun w => !(pwBit w a)) r rfl
  case pop =>
    rw [← popcountNat_and]
    exact retires_of (f := fun y => y.wx rd (BitVec.ofNat 64 (popcountNat (x.pw &&& lo32 (x.rx rs1)).toNat 32))) rfl r rfl rfl

end Sys2Proof.Machine
end

section
/-! SUPPORT. What the events of packets come to, for the scheduler core that serves their queue (R287, R292 to R294, R425 to R427). -/

namespace Sys2Proof.Machine

/-! ### The packet at the head of a queue -/

section
variable {s : State} {q k : Nat} {parent : Option Nat} {bs : List Byte} (hq : s.qServer q = some k)
  (hh : s.headPacket q = .pk parent bs) (hf : s.headFirst k q = true)
include hq hh hf

theorem State.selectPacket_fault {sub : Nat} {saw : Option (Ctx × Word)}
    (hc : s.checkPacket (s.qCtx q) parent.isSome (packetWork bs) = .fault sub saw) :
    s.selectPacket q = .leave ((s.sawAt saw).capFault q k sub) := by
  simp only [State.selectPacket, hq, hh, hf, hc, Bool.not_true, Bool.false_eq_true, if_false]

theorem State.selectPacket_pass {w : Work} (hc : s.checkPacket (s.qCtx q) parent.isSome (packetWork bs) = .pass)
    (hw : packetWork bs = w) : s.selectPacket q = .go k parent bs w (s.qCtx q) := by
  subst hw
  simp only [State.selectPacket, hq, hh, hf, hc, Bool.not_true, Bool.false_eq_true, if_false]

end

/-- A packet that its event does not take leaves the same state whatever packet was expected (R426). -/
theorem exec_packet_leave {s t : State} (h : s.selectPacket s.subj = .leave t) :
    ∀ i ∈ [Instr.nop, .launchg, .launchp, .graph, .copy, .signalWrite, .signalAdd, .signalMax, .waitsig, .write, .ib],
      exec i s = .next t := by
  have hsignal (op : Nat) : doSignal op s = t := by simp only [doSignal, h]
  simp only [List.forall_mem_cons, List.not_mem_nil, false_imp_iff, implies_true, and_true]
  refine ⟨?nop, ?launchg, ?launchp, ?graph, ?copy, next_of_eq (hsignal 0), next_of_eq (hsignal 1), next_of_eq (hsignal 2), ?waitsig,
    ?write, ?ib⟩
  case nop => exact next_of_eq (by simp only [doNop, h])
  case launchg => exact next_of_eq (by simp only [doLaunchg, h])
  case launchp => exact next_of_eq (by simp only [doLaunchp, h])
  case graph => exact next_of_eq (by simp only [doGraph, h])
  case copy => exact next_of_eq (by simp only [doCopyPacket, h])
  case waitsig => exact next_of_eq (by simp only [doWaitsig, h])
  case write => exact next_of_eq (by simp only [doWrite, h])
  case ib => exact next_of_eq (by simp only [doIb, h])

/-! ### Words -/

section
variable {s : State} {c : Ctx} {kind : AccKind} {va : Word} {n k key : Nat} {d : GridFor} (hkey : s.unitKey c kind va n = .ok key)
include hkey

theorem State.unitStore_at (f : Nat → Nat) :
    s.unitStore c k kind va n f d = (((s.unitSpend c kind va n).putNat key n (f (s.natAt key n))).wakeLatch key).finishFor d := by
  simp only [State.unitStore, hkey]

end

section
variable {s : State} {c : Ctx} {va v : Word} {k key cmp : Nat} {node : Option (Nat × Nat)} {d : GridFor}
  (hkey : s.unitKey c .load va 8 = .ok key)
include hkey

theorem State.waitTest_holds {pk : Option Nat} (h : cmpHolds cmp (BitVec.ofNat 64 (s.natAt key 8)) v = true) :
    s.waitTest c k cmp va v pk node d = (s.unitSpend c .load va 8).finishFor d := by
  simp only [State.waitTest, hkey, h, if_true]

/-- A wait whose word does not satisfy it yet watches its line, and blocks its queue (R293). -/
theorem State.waitTest_watches {pk : Nat} {p : Packet} (h : cmpHolds cmp (BitVec.ofNat 64 (s.natAt key 8)) v = false)
    (hp : tget (s.unitSpend c .load va 8).packets pk = some p) :
    s.waitTest c k cmp va v (some pk) node d =
      let r := s.unitSpend c .load va 8
      ({ r with
        nextId := r.nextId + 1
        watches := tset r.watches r.nextId ⟨va, key / 64, c.asid, some pk, node, false⟩ } : State).modQueue p.queue fun x =>
          { x with block := some pk } := by
  simp only [State.waitTest, hkey, h, State.fresh, Option.bind_some, hp, Bool.false_eq_true, if_false]

end

/-! ### Packets that are taken -/

section
variable {s : State} {k : Nat} {parent : Option Nat} {bs : List Byte} {c : Ctx}

theorem doNop_takes (h : s.selectPacket s.subj = .go k parent bs .nop c) :
    doNop s = (s.takePacket s.subj parent bs).2.finishFor (.packet (s.takePacket s.subj parent bs).1) := by
  simp only [doNop, h]

theorem doIb_takes {va : Word} {n : Nat} (h : s.selectPacket s.subj = .go k parent bs (.ib va n) c) :
    doIb s = (s.takePacket s.subj parent bs).2 := by
  simp only [doIb, h]

section
variable {r : Word} {own : Option (BitVec 16)} (h : s.selectPacket s.subj = .go k parent bs (.launch r own) c)
  (hd : s.deviceLaunch s.subj = none)
include h hd

theorem doLaunchg_starts {l : Launch} {kh : Khdr} (hl : s.readLaunch c (own.getD c.asid) r false = .ready l kh) :
    doLaunchg s = (((s.takePacket s.subj parent bs).2.launchSpend c r l.khdr).newGrid (own.getD c.asid) r l kh
      (.packet (s.takePacket s.subj parent bs).1) k).2 := by
  simp only [doLaunchg, h, hd, hl, State.justArrived, Option.isSome_none, reduceCtorEq, Bool.false_eq_true, if_false]

/-- A launch that is refused completes at once, and counts never as LATE (R427). -/
theorem doLaunchg_refused {sub : Nat} (hl : s.readLaunch c (own.getD c.asid) r false = .refused sub) :
    doLaunchg s = ((s.takePacket s.subj parent bs).2.refuseLaunch (own.getD c.asid) r k sub).refuseFor
      (.packet (s.takePacket s.subj parent bs).1) := by
  simp only [doLaunchg, h, hd, hl, State.justArrived, Option.isSome_none, reduceCtorEq, Bool.false_eq_true, if_false]

end

theorem doLaunchp_starts {r : Word} {rounds : Nat} {st : List (Word × Launch × Khdr × List (Nat × Nat × Nat))}
    (h : s.selectPacket s.subj = .go k parent bs (.pipe r) c) (hr : s.readPipe c r = .ready rounds st) :
    doLaunchp s = (s.takePacket s.subj parent bs).2.startPipe c.asid k r rounds st (.packet (s.takePacket s.subj parent bs).1) := by
  simp only [doLaunchp, h, hr]

/-- A graph whose table is in reach is taken: every COUNT is its node's PREDS, and the nodes without predecessors are launched; a graph
with none of them is done (R294, R297). -/
theorem doGraph_takes {table : Word} {n : Nat} (h : s.selectPacket s.subj = .go k parent bs (.graph table n) c)
    (hreach : ∀ i, i < n → s.unreached c .store (nodeVa table i) 64 = false) :
    doGraph s =
      let t := (s.takePacket s.subj parent bs).2
      let first := (List.range n).filter fun i => s.predsOf c table i == 0
      let u := (List.range n).foldl (fun (v : State) i => v.putCount c table i (v.predsOf c table i)) { t with nextId := t.nextId + 1 }
      if first.isEmpty then u.finishFor (.packet (s.takePacket s.subj parent bs).1)
      else { u with graphs := tset u.graphs t.nextId ⟨(s.takePacket s.subj parent bs).1, table, n,
        first.map fun i => (i, NodeSt.launched), false⟩ } := by
  have hnone : ((List.range n).find? fun i => s.unreached c .store (nodeVa table i) 64) = none :=
    List.find?_eq_none.mpr fun i hi => Bool.eq_false_iff.mp (hreach i (List.mem_range.mp hi))
  simp only [doGraph, h, hnone, State.fresh]

theorem doCopyPacket_gives {d : Word} {hd : List Byte} {p : Packet} (h : s.selectPacket s.subj = .go k parent bs (.copy d) c)
    (hread : s.readBytes c d 16 = .got hd)
    (hroom : s.engineRoom (copyEngine k (BitVec.ofNat 64 (natOfBytes (hd.drop 8)))) = true)
    (hp : tget (s.takePacket s.subj parent bs).2.packets (s.takePacket s.subj parent bs).1 = some p) :
    doCopyPacket s = (s.takePacket s.subj parent bs).2.giveCopy (copyEngine k (BitVec.ofNat 64 (natOfBytes (hd.drop 8)))) c d p.tag
      p.nodl (.packet (s.takePacket s.subj parent bs).1) := by
  simp only [doCopyPacket, h, hread, hroom, hp, if_true]

theorem doSignal_takes {op : Nat} {va v : Word} (h : s.selectPacket s.subj = .go k parent bs (.signal op va v) c)
    (hreach : s.unreached c .bank va 8 = false) :
    doSignal op s = (s.takePacket s.subj parent bs).2.unitStore c k .bank va 8 (fun old => signalNew op old v.toNat)
      (.packet (s.takePacket s.subj parent bs).1) := by
  simp only [doSignal, h, hreach, ne_eq, not_true_eq_false, Bool.false_eq_true, if_false]

theorem doWaitsig_takes {cmp : Nat} {va v : Word} (h : s.selectPacket s.subj = .go k parent bs (.wait cmp va v) c)
    (hreach : s.unreached c .load va 8 = false) :
    doWaitsig s = (s.takePacket s.subj parent bs).2.waitTest c k cmp va v (some (s.takePacket s.subj parent bs).1) none
      (.packet (s.takePacket s.subj parent bs).1) := by
  simp only [doWaitsig, h, hreach, Bool.false_eq_true, if_false]

theorem doWrite_takes {lg : Nat} {va v : Word} (h : s.selectPacket s.subj = .go k parent bs (.write lg va v) c)
    (hreach : s.unreached c .store va (2 ^ lg) = false) :
    doWrite s = (s.takePacket s.subj parent bs).2.unitStore c k .store va (2 ^ lg) (fun _ => v.toNat)
      (.packet (s.takePacket s.subj parent bs).1) := by
  simp only [doWrite, h, hreach, Bool.false_eq_true, if_false]

end

/-! ### Completion -/

/-- The packet's own completion counter. -/
def Packet.csig (p : Packet) : Word := BitVec.ofNat 64 (bitsOf (natOfBytes p.bytes) 64 64)

/-- The completion counter of the packet's queue, where the packet is no part of an IB. -/
def State.packetQsig (s : State) (p : Packet) : Word := if p.parent.isSome then 0#64 else BitVec.ofNat 64 (s.qfieldD p.queue 320 64)

/-- Both counters of a packet have risen, and it has left its queue. -/
def State.packetGone (s : State) (pk k : Nat) (p : Packet) : State :=
  let s1 := (s.addCsig (s.qCtx p.queue) k p.csig).addCsig (s.qCtx p.queue) k (s.packetQsig p)
  ({ s1 with packets := tdel s1.packets pk } : State).modQueue p.queue fun x =>
    { x with block := if x.block = some pk then none else x.block }

/-- DONE of a queue rises, and LATE with it where the packet was late. -/
def State.countDone (s : State) (q : Nat) (late : Bool) : State :=
  let s4 := s.qput q 288 32 (s.qfieldD q 288 32 + 1)
  if late then s4.qput q 256 32 (s4.qfieldD q 256 32 + 1) else s4

section
variable {s : State} {k : Nat} {p : Packet} (hp : tget s.packets s.subj = some p) (hk : s.qServer p.queue = some k)
  (hc : p.complete = true)
  (hg : s.gateClear (p.gate.getD (s.coreGate k (bitsOf (natOfBytes p.bytes) 9 1 == 1))) = true)
  (hcsig : p.csig ≠ 0#64 → s.unreached (s.qCtx p.queue) .bank p.csig 8 = false)
  (hqsig : s.packetQsig p ≠ 0#64 → s.unreached (s.qCtx p.queue) .bank (s.packetQsig p) 8 = false)
include hcsig hqsig

theorem packetCounters_reached :
    ([p.csig, s.packetQsig p].find? fun a => a != 0#64 && s.unreached (s.qCtx p.queue) .bank a 8) = none := by
  simpa using ⟨hcsig, hqsig⟩

include hp hk hc hg

/-- A packet of an IB completes, and one fewer of the buffer's packets is open (R294). -/
theorem doPacketComplete_inIb {i : Nat} (hi : p.parent = some i) :
    doPacketComplete s =
      let s3 := s.packetGone s.subj k p
      { s3 with packets := tmod s3.packets i fun x => { x with ibOpen := x.ibOpen - 1 } } := by
  have hnone := packetCounters_reached hcsig hqsig
  simp only [Packet.csig, State.packetQsig, hi] at hnone
  simp only [doPacketComplete, hp, hk, hc, hg, hi, hnone, State.packetGone, Packet.csig, State.packetQsig, Bool.not_true,
    Bool.false_eq_true, if_false]

/-- A packet of no IB completes and counts in its queue, whose interrupt goes to no slot where none has the queue (R294, R320). -/
theorem doPacketComplete_counts (hi : p.parent = none)
    (hslots : ∀ i, i < nSlots →
      ((((s.packetGone s.subj k p).countDone p.queue (!p.nodl && !p.failed && tagEarlier p.tag.toNat s.tagNow)).slot i).queue
        ≠ some p.queue)) :
    doPacketComplete s =
      (s.packetGone s.subj k p).countDone p.queue (!p.nodl && !p.failed && tagEarlier p.tag.toNat s.tagNow) := by
  have hnone := packetCounters_reached hcsig hqsig
  simp only [Packet.csig, State.packetQsig, hi] at hnone
  have hslot : ((List.range nSlots).find? fun i =>
      (((s.packetGone s.subj k p).countDone p.queue (!p.nodl && !p.failed && tagEarlier p.tag.toNat s.tagNow)).slot i).queue
        == some p.queue) = none :=
    List.find?_eq_none.mpr fun i hi => by simpa using hslots i (List.mem_range.mp hi)
  simp only [State.packetGone, State.countDone, Packet.csig, State.packetQsig, hi] at hslot
  simp only [doPacketComplete, hp, hk, hc, hg, hi, hnone, hslot, State.packetGone, State.countDone, Packet.csig, State.packetQsig,
    Bool.not_true, Bool.false_eq_true, if_false]

end

/-! ### Launches that enter a device queue -/

/-- The packet of a launch instruction, as it stands in its device queue (R254, R303). -/
def launchBody (r : Word) (o : Op) : Nat := 1 + 2 ^ 128 * r.toNat + 2 ^ 192 * o.ctx.asid.toNat + 2 ^ 208

/-- Where a queue's next packet is written. -/
def State.queueEnd (s : State) (q : Nat) : Word :=
  addrPlus (BitVec.ofNat 64 (s.qfieldD q 0 64)) (64 * (s.qfieldD q 96 32 % 2 ^ s.qfieldD q 128 5))

/-- How many packets of a queue no core has taken. -/
def State.queueLen (s : State) (q : Nat) : Nat := (s.qfieldD q 96 32 + 2 ^ 32 - s.qfieldD q 64 32) % 2 ^ 32

/-- A launch's packet is written, and WRIDX and the queue's launches follow. -/
def State.putLaunch (s : State) (q o key body : Nat) : State :=
  ((s.putNat key 64 body).qput q 96 32 (s.qfieldD q 96 32 + 1)).modQueue q fun x =>
    { x with launches := x.launches ++ [o], headSince := if s.queueLen q = 0 then s.ncyc else x.headSince }

/-- A queue that is not mapped, or is on its way out, has its wake latch set (R291). -/
def State.wakeUnmapped (s : State) (q : Nat) : State :=
  if s.qfieldD q 200 1 = 0 ∨ s.qfieldD q 202 1 = 1 then s.qput q 201 1 1 else s

/-- A launch enters the device queue of its cluster, where a core serves the queue, and it stands, has room and is in reach. -/
theorem doDeviceLaunch_enters {s : State} {o : Op} {r : Word} {i q k key : Nat} {rb : List Byte} (ho : tget s.ops s.subj = some o)
    (hi : o.st = .issued) (hl : s.opLane s.subj o = true) (hg : s.gateClear o.gate = true) (hd : o.drained = true)
    (hk : o.kind = .launch r i) (hdq : 4096 + 16 * o.cluster + i = q) (hq : s.qServer q = some k)
    (hdown : tget s.mod.downs o.ctx.asid.toNat ≠ some s.ncyc) (hv : s.qtValid = true)
    (hrec : s.readBytes (schedCtx 0#16) (s.qtVa (64 * q)) 64 = .got rb) (hbad : s.queueBad q = false)
    (hroom : s.queueLen q < 2 ^ s.qfieldD q 128 5) (hkey : s.unitKey (s.qCtx q) .store (s.queueEnd q) 64 = .ok key) :
    doDeviceLaunch s = ((s.putLaunch q s.subj key (launchBody r o)).wakeUnmapped q).modOp s.subj fun x =>
      { x with st := .waiting, since := s.ncyc } := by
  have hfull := Nat.not_le.mpr hroom
  rw [State.queueLen] at hfull
  rw [State.queueEnd] at hkey
  simp only [doDeviceLaunch, State.whenReady_act ho hi hl hg hd, hk, hdq, hq, hdown, hv, hrec, hbad, hfull, hkey, Bool.not_true,
    Bool.false_eq_true, if_false]
  rfl

/-! ### Watched lines -/

section
variable {s : State} {w : Watch} {i cmp n : Nat} {p : Packet} {va v : Word} (hw : tget s.watches s.subj = some w)
  (hn : w.noticed = true) (hpk : w.pk = some i) (hp : tget s.packets i = some p) (hwork : packetWork p.bytes = .wait cmp va v)
  (hr : s.unitRead (s.qCtx p.queue) w.va 8 = .ok n)
include hw hn hpk hp hwork hr

theorem doWatched_holds (h : cmpHolds cmp (BitVec.ofNat 64 n) v = true) :
    doWatched s =
      (({ s with watches := tdel s.watches s.subj } : State).finishFor (.packet i)).unitSpend (s.qCtx p.queue) .load w.va 8 := by
  simp only [doWatched, hw, hn, hpk, hp, hwork, hr, h, Bool.not_true, Bool.false_eq_true, if_false, if_true]

/-- A watched word that does not satisfy its wait yet is watched on. -/
theorem doWatched_waits (h : cmpHolds cmp (BitVec.ofNat 64 n) v = false) :
    doWatched s = ({ s with watches := tmod s.watches s.subj fun x => { x with noticed := false } } : State).unitSpend (s.qCtx p.queue)
      .load w.va 8 := by
  simp only [doWatched, hw, hn, hpk, hp, hwork, hr, h, Bool.not_true, Bool.false_eq_true, if_false]

end

/-- Settles O56: each event is the branch of its own that the hypotheses choose. What the release of a packet's core waits for is the
model's reading (log 129). -/
theorem packetEvents : Obligations.PacketEvents := by
  unfold Obligations.PacketEvents
  intro s k parent bs q c pk t
  refine ⟨fun hq hh hf => ⟨fun sub saw hc => exec_packet_leave (State.selectPacket_fault hq hh hf hc), fun hc => ?taken⟩, ?complete,
    ?enqueue, ?watched⟩
  case taken =>
    have hgo {w : Work} : packetWork bs = w → s.selectPacket q = .go k parent bs w c := State.selectPacket_pass hq hh hf hc
    refine ⟨?nop, fun r own hw hd => ⟨?starts, ?refused⟩, ?pipe, fun table n hw hreach => ?graph, ?copy, ?signal, ?wait, ?write, ?ib⟩
    case nop => exact fun hw => next_of_eq (doNop_takes (hgo hw))
    case starts => exact fun l h hl => next_of_eq (doLaunchg_starts (hgo hw) hd hl)
    case refused => exact fun sub hl => next_of_eq (doLaunchg_refused (hgo hw) hd hl)
    case pipe => exact fun r rounds st hw hr => next_of_eq (doLaunchp_starts (hgo hw) hr)
    case graph =>
      have hdo := doGraph_takes (hgo hw) hreach
      exact ⟨fun hfirst => next_of_eq (hdo.trans (if_pos (List.isEmpty_iff.mpr hfirst))),
        fun hfirst => next_of_eq (hdo.trans (if_neg (mt List.isEmpty_iff.mp hfirst)))⟩
    case copy => exact fun d hd p hw hread hroom hp => next_of_eq (doCopyPacket_gives (hgo hw) hread hroom hp)
    case signal =>
      intro op va v key hw hreach hkey out
      have hrun : .next (doSignal op s) = out (signalNew op (t.natAt key 8) v.toNat) :=
        next_of_eq ((doSignal_takes (hgo hw) hreach).trans (State.unitStore_at hkey _))
      refine ⟨?write0, ?add, ?max⟩ <;> rintro rfl
      case write0 => exact hrun
      case add => exact hrun
      case max =>
        rw [signalNew, BitVec.ofNat_toNat, BitVec.setWidth_eq] at hrun
        exact hrun
    case wait =>
      intro cmp va v key hw hreach hkey r
      have hdo := doWaitsig_takes (hgo hw) hreach
      exact ⟨fun h => next_of_eq (hdo.trans (State.waitTest_holds hkey h)),
        fun p h hp => next_of_eq (hdo.trans (State.waitTest_watches hkey h hp))⟩
    case write => exact fun lg va v key hw hreach hkey => next_of_eq ((doWrite_takes (hgo hw) hreach).trans (State.unitStore_at hkey _))
    case ib => exact fun va n hw => next_of_eq (doIb_takes (hgo hw))
  case complete =>
    intro p hp hk hdone hg cq csig qsig hcsig hqsig s1 s3
    refine ⟨fun i hi => next_of_eq (doPacketComplete_inIb hp hk hdone hg hcsig hqsig hi), fun hi => ?_⟩
    intro s4 s5 hslots
    exact next_of_eq (doPacketComplete_counts hp hk hdone hg hcsig hqsig hi hslots)
  case enqueue =>
    intro o r i rb key ho hi hg hd hk hl dq wr va hq hdown hv hrec hbad n hroom hkey t1 t2
    exact next_of_eq (doDeviceLaunch_enters ho hi hl hg hd hk rfl hq hdown hv hrec hbad hroom hkey)
  case watched =>
    intro w i p cmp va v n hw hn hpk hp hwork hr
    exact ⟨fun h => next_of_eq (doWatched_holds hw hn hpk hp hwork hr h), fun h => next_of_eq (doWatched_waits hw hn hpk hp hwork hr h)⟩

end Sys2Proof.Machine
end

section
/-! SUPPORT. What the instructions of the chisel unit come to (R263 to R271, R274, R275, R277, R385). -/

namespace Sys2Proof.Machine

/-! ### The unit -/

section
variable {s : State} {x : Hart}

/-- Two changes of a hart that agree on it as it stands are one. -/
theorem State.modHart_congr {h : Nat} {f g : Hart → Hart} (hx : s.hart? h = some x) (hfg : f x = g x) :
    s.modHart h f = s.modHart h g := by
  rw [State.modHart_const hx f, State.modHart_const hx g, hfg]

/-- An instruction of the hart `cur` that finds its unit free takes it, and changes the hart's workspace alone (R263). -/
theorem unitRes_free (h : s.unitFree s.cur x = true) (cost : Nat) (f : Chisel → Chisel) :
    unitRes s s.cur x cost f = .ok ((s.withUnit x cost).modHart s.cur fun y => { y with chisel := f y.chisel }) := if_pos h

end

/-! ### Instructions that read no memory -/

section
variable {i : Instr} {s : State} {x : Hart}

/-- What an instruction runs that needs no more than its unit. -/
def RunsUnit (i : Instr) (s : State) (x : Hart) (F : UnitForm) : Prop :=
  ∃ body, exec i s = .next (runHart i F.names body s) ∧
    (s.unitFree s.cur x = true → body s.cur x s = unitRes s s.cur x F.cost F.work)

theorem unitForm_runs {F : UnitForm} (h : unitForm x i = some F) : F.names.hint = false ∧ RunsUnit i s x F := by
  unfold unitForm at h
  -- In the order of the form: gb.cfg, gb.clr, gb.bel without a record, gb.elim.
  split at h
  case h_1 | h_2 =>
    cases h
    exact ⟨rfl, _, rfl, fun _ => rfl⟩
  case h_3 =>
    obtain ⟨h0, he⟩ := Option.ite_none_right_eq_some.mp h
    cases he
    exact ⟨rfl, _, rfl, fun _ => if_pos h0⟩
  case h_4 a =>
    obtain ⟨hts, he⟩ := Option.ite_none_left_eq_some.mp h
    obtain ⟨c, hc, rfl⟩ := Option.map_eq_some_iff.mp he
    exact ⟨rfl, _, rfl, fun hu => by simp only [List.isEmpty_iff, hts, hu, hc, Bool.not_true, Bool.false_eq_true, if_false]⟩
  case h_5 => cases h

/-- Such an instruction of a ready hart retires with the workspace that its work leaves. -/
theorem RunsUnit.retires {F : UnitForm} (hrun : RunsUnit i s x F) (hint : F.names.hint = false) (r : Ready s x F.names)
    (hu : s.unitFree s.cur x = true) : RetiresIn i s (s.withUnit x F.cost) x fun y => { y with chisel := F.work x.chisel } := by
  obtain ⟨body, he, hb⟩ := hrun
  refine settle_in r hint i _ he ?_
  rw [hb hu, unitRes_free hu]
  exact congrArg Res.ok (State.modHart_congr (s := s.withUnit x F.cost) r.hart rfl)

/-- gb.res gives rd what the last operation of gb.emit left in RES, once there is none of its hart's under way (R274). -/
theorem gbRes_retires {rd : RegIdx} (r : Ready s x (xNames [] [rd] .enters)) (hu : s.unitFree s.cur x = true)
    (hops : ∀ p ∈ s.ops, p.2.hart = s.cur → ∀ m nw e d a b t, p.2.kind ≠ .emit m nw e d a b t) :
    RetiresIn (.gbRes rd) s (s.withUnit x 4) x fun y =>
      { y.wx rd (x.chisel.res.setWidth 64) with chisel := { x.chisel with live := true } } := by
  refine settle_in r rfl _ _ rfl ((if_neg ?none).trans ((if_neg (by rw [hu]; decide)).trans ?_))
  case none =>
    rw [List.any_eq_true]
    rintro ⟨p, hp, hopen⟩
    obtain ⟨hmem, hmine⟩ := List.mem_filter.mp hp
    have hkind := hops p hmem (beq_iff_eq.mp hmine)
    split at hopen
    case h_1 h _ | h_2 h _ => exact hkind _ _ _ _ _ _ _ h
    case h_3 => cases hopen
  exact congrArg Res.ok (State.modHart_congr (s := s.withUnit x 4) r.hart rfl)

section
variable {a : RegIdx} (r : Ready s x (xNames [a] [] .alone))
include r

theorem gbElim_blockless_traps (hb : x.chisel.block (x.rx a).toNat = []) : Traps (.gbElim a) s 2 (bitsOfEnc (encode (.gbElim a))) 0 :=
  traps_of rfl r (if_pos (List.isEmpty_iff.mpr hb))

/-- A block is looked at for being singular once the unit is free; its trap is R416's. -/
theorem gbElim_singular_traps (hb : x.chisel.block (x.rx a).toNat ≠ []) (hu : s.unitFree s.cur x = true)
    (he : x.chisel.elim (x.chisel.block (x.rx a).toNat) = none) : Traps (.gbElim a) s 55 (bitsOfEnc (encode (.gbElim a))) 0 := by
  refine traps_of rfl r ?_
  simp only [List.isEmpty_iff, hb, hu, he, Bool.not_true, Bool.false_eq_true, if_false]

end

end

/-- Settles O26: an instruction of the unit alone runs by its form; gb.res looks for its hart's operations of gb.emit first, and gb.elim
for its block. That gb.res and gb.bel set LIVE is the model's choice (log 42). -/
theorem chiselUnit : Obligations.ChiselUnit := by
  unfold Obligations.ChiselUnit
  intro i s x
  refine ⟨fun F hF r hu => ?_, fun rd r hu hops => gbRes_retires r hu hops,
    fun a r => ⟨gbElim_blockless_traps r, gbElim_singular_traps r⟩⟩
  obtain ⟨hint, hrun⟩ := unitForm_runs (s := s) hF
  exact hrun.retires hint r hu

/-! ### After a read -/

section
variable {s t : State} {x : Hart} {va : Word}

theorem AfterRead.cur (a : AfterRead s t x va) : t.cur = s.cur := by rw [a.rest]

/-- A hart that keeps no answers is as before when they are dropped. -/
theorem AfterRead.keepLog (a : AfterRead s t x va) (hl : x.log = []) : AfterRead s (t.keepLog s.cur []) x va where
  rest := congrArg (fun u : State => { u with harts := (t.keepLog s.cur []).harts }) a.rest
  others h hn := (State.hart?_modHart_ne t _ hn).trans (a.others h hn)
  hart := (State.hart?_modHart a.hart _).trans (congrArg some (by rw [← hl]))

/-- A read changes nothing that the queue of the hart's unit looks at. -/
theorem AfterRead.unitFree (a : AfterRead s t x va) (hx : s.hart? s.cur = some x) : t.unitFree s.cur x = s.unitFree s.cur x := by
  have hcore (c : Nat) : t.core c = s.core c := by
    rw [a.rest]
    rfl
  have hqueue (c : Nat) : t.unitQueue c = s.unitQueue c := by
    unfold State.unitQueue
    rw [hcore]
    refine List.filter_congr fun h _ => ?_
    by_cases hc : h = s.cur
    · rw [hc, a.hart, hx]
    · rw [a.others h hc]
  unfold State.unitFree
  rw [hcore, hqueue]

/-- What an instruction comes to that has read its operand and finds its unit free. -/
theorem AfterRead.retires_unit {i : Instr} {n : Names} {body : Nat → Hart → State → Res} {cost : Nat} {f : Chisel → Chisel}
    (a : AfterRead s t x va) (r : Ready s x n) (hint : n.hint = false) (he : exec i s = .next (runHart i n body s))
    (hu : s.unitFree s.cur x = true) (hb : body s.cur x s = unitRes t s.cur x cost f) :
    RetiresIn i s (t.withUnit x cost) x fun y => { y with chisel := f x.chisel } := by
  have hfree : t.unitFree t.cur x = true := by rw [a.cur, a.unitFree r.hart, hu]
  have hres := unitRes_free hfree cost f
  rw [a.cur] at hres
  exact settle_in r hint i _ he (hb.trans (hres.trans (congrArg Res.ok (State.modHart_congr (s := t.withUnit x cost) a.hart rfl))))

end

/-! ### Records -/

theorem recLen_mono {d e : Nat} (h : d ≤ e) : recLen d ≤ recLen e := by
  unfold recLen
  gcongr

/-- A record holds its header, and is no longer than one of 8 dimensions. -/
theorem recordBytes_bounds (d : Nat) : 16 ≤ recordBytes d ∧ recordBytes d ≤ recLen 8 := by
  unfold recordBytes
  split
  · rename_i hd
    exact ⟨by unfold recLen; omega, recLen_mono hd.2⟩
  · decide

theorem memRead_length (m : List Host.Cell) (k n : Nat) : (memRead m k n).length = n := by
  induction n generalizing k with
  | zero => rfl
  | succ n ih => rw [memRead, List.length_cons, ih]

/-- D stands in the first byte of a record (R265). -/
theorem recD_memRead (m : List Host.Cell) (k : Nat) {n : Nat} (hn : 0 < n) : recD (memRead m k n) = natOfBytes (memRead m k 1) % 16 := by
  obtain ⟨n, rfl⟩ := Nat.exists_eq_succ_of_ne_zero hn.ne'
  rfl

/-- Bytes of the record that stands at a location. -/
def State.recordLen (s : State) (key : Nat) : Nat := recordBytes (natOfBytes (memRead s.mem key 1) % 16)

section
variable {s : State} {x : Hart} {a : Word} {key : Nat} {tag : Option (BitVec 16)}

/-- A port reads a record to its end where its page or granule holds it whole (R268). -/
theorem AfterRead.portMem_record {s1 : State} (ha : AfterRead s s1 x a) {room : Nat} (hroom : s.recordLen key ≤ room)
    (hp : s.poisoned key (s.recordLen key) = false) (h : Option Nat) :
    s1.portMem key tag ((Piece.record (recLen 8)).cut room) h =
      (.data (memRead s.mem key (s.recordLen key)) (tag.getD (s1.tagAt key)) false, s1) := by
  have hlen := Nat.min_eq_right (Nat.le_min.mpr ⟨(recordBytes_bounds (natOfBytes (memRead s.mem key 1) % 16)).2, hroom⟩)
  rw [State.recordLen] at hp ⊢
  simp only [Piece.cut, State.portMem, State.natAt, ha.bytesAt, ha.poisoned, hlen, hp]

/-- A record that its page or granule holds whole, and which nothing holds back, is read as one piece (R268). -/
theorem State.readRecord_whole (hx : s.hart? s.cur = some x) (p : PlainReady s x)
    (hfw : s.forward x a (List.range (s.peekLen s.cur x a)) false = .none) (reach : Reaches s x a 16 .load key tag)
    (hroom : ∀ fill, s.route (Req.hart a 16 .load (x.ctx s.cur)) x.iface = .at (.mem key tag) false fill →
      s.recordLen key ≤ roomOf a fill)
    (hp : s.poisoned key (s.recordLen key) = false) :
    ∃ t g, AfterRead s t x a ∧ s.readRecord s.cur x a = .done [.data (memRead s.mem key (s.recordLen key)) g false] t := by
  obtain ⟨s1, fill, hroute, ha, hplain⟩ :=
    plain_cut (act := .record (recLen 8)) hx p reach (clear_quiet rfl rfl) none false fun _ ho => nomatch ho
  rw [ha.portMem_record (hroom fill hroute) hp] at hplain
  refine ⟨s1.keepLog s.cur [], tag.getD (s1.tagAt key), ha.keepLog p.log, ?_⟩
  have hpos : 0 < s.recordLen key := Nat.lt_of_lt_of_le (by decide) (recordBytes_bounds _).1
  have hd : recordBytes (recD (memRead s.mem key (s.recordLen key))) = s.recordLen key := by rw [recD_memRead _ _ hpos, State.recordLen]
  simp only [State.readRecord, p.log, p.out, p.gate, hfw, hplain, ansBytes_single, hd, memRead_length, List.isEmpty_nil,
    Option.isNone_none, Bool.and_self, if_true, le_refl]

end

section
variable {i : Instr} {s : State} {x : Hart} {F : RecordForm}

/-- What an instruction runs that combines a record. -/
def RunsRecord (i : Instr) (s : State) (x : Hart) (F : RecordForm) : Prop :=
  ∃ body ok f, exec i s = .next (runHart i F.names body s) ∧ body s.cur x s = recordRes i F.addr ok f s.cur x s ∧
    (∀ d, ok x.chisel d = F.takes d) ∧ ∀ d bs c, f c d bs = F.work d bs c

theorem recordForm_runs (h : recordForm x i = some F) : F.names.hint = false ∧ RunsRecord i s x F := by
  unfold recordForm at h
  -- In the order of the form: gb.ldf, gb.addm and gb.subm, gb.bel with a record.
  split at h
  case h_1 =>
    cases h
    exact ⟨rfl, _, _, _, rfl, rfl, fun d => (Bool.decide_and _ _).symm, fun _ _ _ => rfl⟩
  case h_2 | h_3 =>
    cases h
    refine ⟨rfl, _, _, _, rfl, by rw [blockRes], fun d => ?_, fun _ _ _ => rfl⟩
    simp [Bool.and_assoc]
  case h_4 =>
    obtain ⟨h0, he⟩ := Option.ite_none_left_eq_some.mp h
    cases he
    exact ⟨rfl, _, _, _, rfl, if_neg h0, fun _ => rfl, fun _ _ _ => rfl⟩
  case h_5 => cases h

end

section
variable {i : Instr} {s t : State} {h d : Nat} {x : Hart} {a : Word} {ok : Chisel → Nat → Bool} {f : Chisel → Nat → List Byte → Chisel}
  {bs : List Byte} {g : BitVec 16} (ha : a.toNat % 4 = 0) (hread : s.readRecord h x a = .done [.data bs g false] t) (hd : recD bs = d)
include ha hread hd

/-- A record that is read, and whose D the instruction takes, goes to the unit. -/
theorem recordRes_takes (hok : ok x.chisel d = true) (hu : t.unitFree h x = true) :
    recordRes i a ok f h x s = unitRes t h x (4 + (msgValues d + 3) / 4) fun c => f c d bs := by
  simp only [recordRes, ha, hread, Got.andThen, ansPoison, ansBytes_single, hd, hok, hu, ne_eq, not_true_eq_false, List.any_cons,
    List.any_nil, Bool.or_self, Bool.not_true, Bool.false_eq_true, if_false, if_true]

theorem recordRes_refuses (hok : ok x.chisel d = false) : recordRes i a ok f h x s = .trap 2 (bitsOfEnc (encode i)) 0 t := by
  simp only [recordRes, ha, hread, Got.andThen, ansPoison, ansBytes_single, hd, hok, ne_eq, not_true_eq_false, List.any_cons,
    List.any_nil, Bool.or_self, Bool.not_false, Bool.false_eq_true, if_false, if_true]

end

/-- Settles O27: the record is read whole, in one piece, before its D is looked at. That its cause is 2, or 4 for a misaligned address,
is R385's. -/
theorem chiselRecords : Obligations.ChiselRecords := by
  unfold Obligations.ChiselRecords
  intro i s x F key tag hF r d n bs
  obtain ⟨hint, body, ok, f, he, hb, hok, hf⟩ := recordForm_runs (s := s) hF
  refine ⟨fun hm => traps_of he r (hb.trans (if_pos hm)), fun ha p hfw reach hroom hp => ?_⟩
  obtain ⟨t, g, ht, hread⟩ := State.readRecord_whole r.hart p hfw reach hroom hp
  have hd : recD bs = d := recD_memRead s.mem key (Nat.lt_of_lt_of_le (by decide) (recordBytes_bounds d).1)
  refine ⟨fun hk hu => ⟨t, ht, ?_⟩, fun hk => ⟨t, ht, ?_⟩⟩
  · have hres := recordRes_takes (i := i) (f := f) ha hread hd ((hok d).trans hk) ((ht.unitFree r.hart).trans hu)
    simp only [hf] at hres
    exact ht.retires_unit r hint he hu (hb.trans hres)
  · rw [he, runHart_ready r, hb, recordRes_refuses ha hread hd ((hok d).trans hk)]
    exact congrArg _ (settle_trap r _ _ _ _ _ _)

end Sys2Proof.Machine
end

section
/-! SUPPORT. What gb.mean, gb.ldw and gb.stw come to (R76, R271, R275, R385). -/

namespace Sys2Proof.Machine

/-! ### Stores of the unit -/

/-- A store that its access does not cut, or that ends before the cut, is one piece (R76). -/
theorem spanWants_whole {a : Word} {w : Nat} {bytes : List Byte} (h : ∀ k, cutAt a w = some k → bytes.length ≤ k)
    (tag : Option (BitVec 16)) : spanWants a w bytes tag = [⟨a, .store (bytes.map some) tag, .store, true⟩] := by
  unfold spanWants
  cases hc : cutAt a w with
  | none => rfl
  | some k =>
    have hk := h k hc
    dsimp only
    rw [if_pos hk, List.take_of_length_le hk]

section
variable {s : State} {x : Hart} {a : Word} {key w size : Nat} {bytes : List Byte} {tag : Option (BitVec 16)}

theorem AfterWrite.cur {t : State} {bs : List (Option Byte)} (a : AfterWrite s t x va key bs tag) : t.cur = s.cur := by rw [a.rest]

/-- A store of the unit that is one piece, and which nothing holds back, is performed at once. -/
theorem State.spanStore_whole (hx : s.hart? s.cur = some x) (inv : s.Inv) (p : PlainReady s x)
    (hcut : ∀ k, cutAt a w = some k → bytes.length ≤ k)
    (reach : Reaches s x a (Piece.store (bytes.map some) tag).width .store key none) (wr : Writable s x a (.store (bytes.map some) tag)) :
    ∃ t as, AfterWrite s t x a key (bytes.map some) tag ∧
      s.spanStore s.cur x size (spanWants a w bytes tag) = .done as (t.keepLog s.cur []) := by
  obtain ⟨s1, hs1, hplain⟩ := plain_atomic hx p wr reach rfl (fun _ => rfl) (some ⟨size, false⟩)
  rw [spanWants_whole hcut]
  exact ⟨_, _, hs1.portMem_stores inv _ _ _, hplain⟩

end

section
variable {a : RegIdx} {s : State} {x : Hart}

/-! ### gb.mean -/

section
variable (r : Ready s x (xNames [a] [] .leaves))
include r

theorem gbMean_misaligned_traps (h : (x.rx a).toNat % 4 ≠ 0) : Traps (.gbMean a) s 6 (x.rx a) 0 := traps_of rfl r (if_pos h)

variable (h4 : (x.rx a).toNat % 4 = 0) (hu : s.unitFree s.cur x = true)
include h4 hu

theorem gbMean_singular_traps (hm : x.chisel.mean = none) : Traps (.gbMean a) s 55 (bitsOfEnc (encode (.gbMean a))) 0 := by
  refine traps_of rfl r ((if_neg (not_not_intro h4)).trans ((if_neg (by rw [hu]; decide)).trans ?_))
  simp only [hm]

/-- gb.mean as it retires. That LIVE is set is the model's choice (log 42), and so is the width at which its store is cut (log 148). -/
theorem gbMean_retires {mu : List W32} {bytes : List Byte} {key : Nat} (hm : x.chisel.mean = some mu)
    (hbytes : (mu.map fun v => bytesOfNat 4 v.toNat).foldr (· ++ ·) [] = bytes)
    (hcut : ∀ k, cutAt (x.rx a) (2 ^ meanLog x.chisel.dim) = some k → bytes.length ≤ k) (inv : s.Inv) (p : PlainReady s x)
    (reach : Reaches s x (x.rx a) (Piece.store (bytes.map some) none).width .store key none)
    (w : Writable s x (x.rx a) (.store (bytes.map some) none)) :
    ∃ t, AfterWrite s t x (x.rx a) key (bytes.map some) none ∧
      RetiresIn (.gbMean a) s (t.withUnit x (meanCost x.chisel.dim)) x fun y => { y with chisel := { y.chisel with live := true } } := by
  obtain ⟨t, as, ht, hstore⟩ := State.spanStore_whole (size := meanLog x.chisel.dim) r.hart inv p hcut reach w
  refine ⟨t, ht, retiresIn_of rfl r rfl
    ((if_neg (not_not_intro h4)).trans ((if_neg (by rw [hu]; decide)).trans ?_)) fun _ _ => rfl⟩
  simp only [hm, hbytes, hstore, Got.andThen]
  rw [State.withUnit, ht.cur]
  rfl

end

/-! ### Images -/

section
variable (r : Ready s x (xNames [a] [] .leaves))
include r

theorem gbStw_misaligned_traps (h : (x.rx a).toNat % 64 ≠ 0) : Traps (.gbStw a) s 6 (x.rx a) 0 := traps_of rfl r (if_pos h)

theorem gbStw_retires {key : Nat} (h64 : (x.rx a).toNat % 64 = 0) (hu : s.unitFree s.cur x = true) (hcut : cutAt (x.rx a) 512 = none)
    (inv : s.Inv) (p : PlainReady s x)
    (reach : Reaches s x (x.rx a) (Piece.store (x.chisel.image.map some) (some 0x4000#16)).width .store key none)
    (w : Writable s x (x.rx a) (.store (x.chisel.image.map some) (some 0x4000#16))) :
    ∃ t, AfterWrite s t x (x.rx a) key (x.chisel.image.map some) (some 0x4000#16) ∧ RetiresAt (.gbStw a) s (t.withUnit x 4) x := by
  obtain ⟨t, as, ht, hstore⟩ := State.spanStore_whole (w := 512) (size := 9) r.hart inv p (by simp [hcut]) reach w
  refine ⟨t, ht, retiresAt_of rfl r rfl ((if_neg (not_not_intro h64)).trans ((if_neg (by rw [hu]; decide)).trans ?_))⟩
  simp only [hstore, Got.andThen]
  rw [State.withUnit, ht.cur]
  rfl

end

section
variable (r : Ready s x (xNames [a] [] .enters))
include r

theorem gbLdw_misaligned_traps (h : (x.rx a).toNat % 64 ≠ 0) : Traps (.gbLdw a) s 4 (x.rx a) 0 := traps_of rfl r (if_pos h)

theorem gbLdw_retires {key : Nat} {tag : Option (BitVec 16)} (h64 : (x.rx a).toNat % 64 = 0) (hu : s.unitFree s.cur x = true)
    (hcut : cutAt (x.rx a) 512 = none) (p : PlainReady s x) (hun : Unbuffered s x (x.rx a) (.load 512) false)
    (reach : Reaches s x (x.rx a) 512 .load key tag) (hp : s.poisoned key 512 = false) :
    ∃ t, AfterRead s t x (x.rx a) ∧
      RetiresIn (.gbLdw a) s (t.withUnit x 26) x fun y => { y with chisel := chiselOf (memRead s.mem key 512) true } := by
  obtain ⟨s1, hs1, hplain⟩ := plain_one r.hart p reach (clear_reads rfl) none false hun fun _ => rfl
  rw [hs1.portMem_load hp] at hplain
  have ht := hs1.keepLog p.log
  have hwants : loadWants (x.rx a) 512 512 .load = [⟨x.rx a, .load 512, .load, true⟩] := by simp [loadWants, hcut]
  refine ⟨_, ht, ht.retires_unit (f := fun _ => chiselOf (memRead s.mem key 512) true) r rfl rfl hu
    ((if_neg (not_not_intro h64)).trans ?_)⟩
  simp only [hwants, hplain, Got.andThen, ansPoison, List.any_cons, List.any_nil, Bool.or_self, Bool.false_eq_true, if_false,
    (ht.unitFree r.hart).trans hu, if_true, ansBytes_single]

end

end

/-- Settles O28: each access is one piece, which is performed before the unit is taken. Its traps are R385's and R416's; that gb.mean sets
LIVE is the model's choice (log 42), and so is the width at which its store is cut (log 148). -/
theorem chiselImages : Obligations.ChiselImages := by
  unfold Obligations.ChiselImages
  intro a s x key va imageTag
  exact ⟨fun r => ⟨gbMean_misaligned_traps r, gbMean_singular_traps r, fun mu h4 hu hm => gbMean_retires r h4 hu hm rfl,
    gbStw_misaligned_traps r, gbStw_retires r⟩, fun r => ⟨gbLdw_misaligned_traps r, fun tag => gbLdw_retires r⟩⟩

end Sys2Proof.Machine
end

section
/-! SUPPORT. What a trap comes to: in the runtime, in hart firmware, and before an instruction's own part (R365 to R368, R371, R372, R374,
R375, R409). -/

namespace Sys2Proof.Machine

section
variable {s : State} {x : Hart} {h cause sub : Nat} {tval : Word} {fo : FormOp} {sync : Bool}

/-! ### The runtime -/

/-- A table's entry that a map by condition passes over. -/
theorem tget_map_if_not {α : Type} {t : Table α} {c : Nat × α → Bool} {k : Nat} {v : α} (hk : tget t k = some v) (hc : c (k, v) = false)
    (f : α → α) : tget (t.map fun p => if c p then (p.1, f p.2) else p) k = some v := by
  induction t with
  | nil => cases hk
  | cons p r ih =>
    have hkey : (if c p then (p.1, f p.2) else p).1 = p.1 := by split <;> rfl
    rw [tget] at hk
    rw [List.map_cons, tget, hkey]
    split at hk
    case isTrue h =>
      have hp : p = (k, v) := Prod.ext h (Option.some.inj hk)
      rw [if_pos h, hp, hc]
      rfl
    case isFalse h =>
      rw [if_neg h]
      exact ih hk

/-- A change of a pair leaves every hart that is neither half of it. -/
theorem State.hart?_modPair_ne {j : Nat} {z : Hart} (hz : s.hart? j = some z) (hj : j ≠ h)
    (ht : (z.trails && z.pair == some h) = false) (f : Hart → Hart) : (s.modPair h f).hart? j = some z :=
  tget_map_if_not hz (by simp [inPair, hj, ht]) f

theorem Hart.noRuntime_false (hu : x.priv = .u → x.csr.stvec ≠ 0#64)
    (hs : x.priv = .s → (sync = true → x.pc ≠ x.csr.stvec) ∧ cause ≠ 9) : x.noRuntime cause sync = false := by
  unfold Hart.noRuntime
  cases hp : x.priv with
  | u => simp [hu hp]
  | s =>
    obtain ⟨hpc, hcause⟩ := hs hp
    simpa [hcause] using hpc
  | m => rfl

theorem Hart.noRuntime_true
    (hn : (x.priv = .u ∧ x.csr.stvec = 0#64) ∨ (x.priv = .s ∧ ((sync = true ∧ x.pc = x.csr.stvec) ∨ cause = 9))) :
    x.noRuntime cause sync = true := by
  unfold Hart.noRuntime
  obtain ⟨hp, hv⟩ | ⟨hp, ⟨hs, hpc⟩ | hc⟩ := hn
  · simp [hp, hv]
  · simp [hp, hs, hpc]
  · simp [hp, hc]

/-- A trap that a runtime takes changes the hart, and the one that trails it (R366, R410). -/
theorem State.takeTrap_runtime (hx : s.hart? h = some x) (hn : x.noRuntime cause sync = false) (tval : Word) (sub : Nat) (fo : FormOp) :
    s.takeTrap h cause tval sub fo sync = s.modPair h fun y => y.trapped cause tval s.ncyc := by
  simp only [State.takeTrap, hx, hn, Bool.false_eq_true, if_false]

end

/-- Settles O37: the trap is one change of the hart and of the one that trails it, which leaves the registers and what is pending in
them. -/
theorem trapEntry : Obligations.TrapEntry := by
  unfold Obligations.TrapEntry
  intro s h cause tval sub fo sync x hx t hu hs
  have ht : t = s.modPair h fun y => y.trapped cause tval s.ncyc := State.takeTrap_runtime hx (Hart.noRuntime_false hu hs) tval sub fo
  rw [ht]
  exact ⟨⟨_, State.hart?_modPair hx _, rfl, rfl, rfl, rfl, rfl, rfl, rfl, rfl, rfl, rfl, rfl, rfl⟩,
    fun j z hj hz hz' => State.hart?_modPair_ne hz hj hz' _, rfl⟩

section
variable {s : State} {x : Hart} {h cause sub : Nat} {tval : Word} {fo : FormOp} {sync : Bool}

/-! ### Hart firmware -/

/-- The address in the record of a trap, for the causes whose stval is one (R370). -/
theorem addressCause_iff (c : Nat) :
    addressCause c = true ↔ c = 1 ∨ c = 4 ∨ c = 5 ∨ c = 6 ∨ c = 7 ∨ c = 48 ∨ c = 49 := by
  simp [addressCause, or_assoc]

/-- Hart firmware reports a hart's trap and ends the hart (R368). -/
theorem State.fwEnd_at (hx : s.hart? h = some x) (cause sub count : Nat) (tval : Word) (fo : FormOp) :
    s.fwEnd h cause sub count tval fo =
      (s.report x.group ⟨failWord fo cause sub count, if addressCause cause then tval else 0#64, false, x.hidx⟩).endHart h := by
  simp only [State.fwEnd, hx]

theorem State.takeTrap_firmware (hx : s.hart? h = some x) (hn : x.noRuntime cause sync = true) (tval : Word) (sub : Nat) (fo : FormOp) :
    s.takeTrap h cause tval sub fo sync =
      s.fwEnd h cause sub (if cause = 8 ∨ cause = 9 then (x.rx 10#5).toNat % 2 ^ 32 else 0) tval fo := by
  simp only [State.takeTrap, hx, hn, if_true]

/-- A record in the module log leaves every hart present. -/
theorem State.logRec_hart (hx : s.hart? h = some x) (k home d p r c : Nat) : ∃ z, (s.logRec k home d p r c).hart? h = some z := by
  obtain ⟨z, hz, -⟩ := State.hart?_of_roster (State.logRec_roster s k home d p r c) hx
  exact ⟨z, hz⟩

/-- The leading hart of a pair whose requests did not match, as it goes on at `pc` (R409). -/
def Hart.unpaired (x : Hart) (pc : Word) : Hart := { x with cmp := none, released := false, lvq := [], pc := pc, wait := none }

/-- The trailing hart of such a pair, a copy of the leading one. -/
def Hart.recopied (x : Hart) (h : Nat) (pc : Word) (z : Hart) : Hart :=
  { x.unpaired pc with pair := some h, trails := true, slot := z.slot, due := [], plainOut := none, plainAns := none }

/-- A pair after a mismatch: the leading hart goes on, and the trailing one is its copy. -/
def State.resync (s : State) (h : Nat) (x : Hart) (pc : Word) : State :=
  { s with harts := s.harts.map fun p =>
      if p.1 = h then (h, x.unpaired pc) else if p.2.trails && p.2.pair == some h then (p.1, x.recopied h pc p.2) else p }

theorem State.resync_hart {y : Hart} (hy : s.hart? h = some y) (x : Hart) (pc : Word) :
    (s.resync h x pc).hart? h = some (x.unpaired pc) := by
  have hmap (t : Table Hart) (ht : tget t h = some y) : tget (t.map fun p =>
      if p.1 = h then (h, x.unpaired pc) else if p.2.trails && p.2.pair == some h then (p.1, x.recopied h pc p.2) else p) h =
        some (x.unpaired pc) := by
    induction t with
    | nil => cases ht
    | cons p r ih =>
      rw [List.map_cons]
      by_cases hp : p.1 = h
      · simp [tget, hp]
      · rw [tget, if_neg hp] at ht
        have hkey : (if p.2.trails && p.2.pair == some h then (p.1, x.recopied h pc p.2) else p).1 = p.1 := by split <;> rfl
        rw [if_neg hp, tget, hkey, if_neg hp]
        exact ih ht
  exact hmap s.harts hy

theorem State.pairMismatch_supervisor (hp : x.priv = .s) (pc bits : Word) (sub : Nat) :
    s.pairMismatch h x pc bits sub =
      ((s.logRec 15 x.cluster ((failWord (illegalForm bits) 57 sub 0).toNat / 2 ^ 32) 0 0 1).resync h x pc).fwEnd h 57 sub 0
        (failWord (illegalForm bits) 57 sub 0) (illegalForm bits) :=
  if_neg (by rw [hp]; decide)

end

/-- Settles O38: the trap, and the mismatch once it is logged and the pair stands together again, are reported and end the hart. -/
theorem firmwareEnd : Obligations.FirmwareEnd := by
  unfold Obligations.FirmwareEnd
  intro s h cause tval sub fo sync x hx
  refine ⟨fun hn => ?_, fun pc bits hp => ?_⟩
  · rw [State.takeTrap_firmware hx (Hart.noRuntime_true hn), State.fwEnd_at hx]
    simp only [addressCause_iff]
  · intro s1
    obtain ⟨y, hy⟩ := State.logRec_hart hx 15 x.cluster ((failWord (illegalForm bits) 57 sub 0).toNat / 2 ^ 32) 0 0 1
    have hlead := State.resync_hart hy x pc
    refine ⟨s1.resync h x pc, x.unpaired pc, hlead, rfl, rfl, rfl, rfl, ?_⟩
    rw [State.pairMismatch_supervisor hp, State.fwEnd_at hlead]
    rfl

/-! ### Registers that have failed -/

/-- A hart whose x1 has failed, with a handler for its traps. -/
def failedHart : Hart :=
  { Hart.launched 0 0 0 0 0 true 0#64 0#64 0#64 0#16 0x8000#64 0#64 0 0 with regs := [(1, .failed .zero)] }

/-- Hart 0 is no half of a pair as it says itself, and hart 1 says that it trails hart 0. -/
def failedLead : State :=
  { State.reset with harts := [(0, failedHart), (1, { failedHart with pair := some 0, trails := true })] }

/-- An instruction that names x1. -/
def readsFailed : Instr := .baseArithmetic (.lui 1#5 0#20)

/-- Whether x1 of hart 1 has failed, after an outcome. -/
def trailFailed (o : Host.Outcome State Fault Refusal) : Bool := match o with
  | .next t => (t.hart? 1).any fun y => (tget y.regs 1).isSome
  | _ => false

/-- Hart 0 clears its failed register before the trap, and that of the hart which trails it (R374, R410). -/
theorem trailFailed_exec : trailFailed (exec readsFailed failedLead) = false := by decide +kernel

/-- Where hart 0 alone clears it, the register of hart 1 is as it was after the trap. -/
theorem trailFailed_alone :
    trailFailed (.next ((failedLead.modHart 0 fun y => y.clearFailed 1#5 .zero).takeTrap 0 60 (failedHart.rx 1#5) 0 (formOf readsFailed)
      true)) = true := by decide +kernel

/-- Refutes O40: its clause on failed registers says that the reader alone gives up its failed register. Where another hart trails the
reader, the register of that hart is cleared too (R410), though the reader itself names no partner. -/
theorem not_checkOrder : ¬ Obligations.CheckOrder := by
  unfold Obligations.CheckOrder
  intro h
  obtain ⟨-, hfailed⟩ := h (.lui 1#5 0#20) failedLead failedHart rfl rfl rfl
  have hlowest (q : RegIdx) (hq : q ∈ [(1#5 : RegIdx)]) (hlt : q.toNat < (1#5 : RegIdx).toNat) (how : FailHow) :
      tget failedHart.regs q.toNat ≠ some (.failed how) := by
    rw [List.mem_singleton.mp hq] at hlt
    exact absurd hlt (Nat.lt_irrefl _)
  have hexec := hfailed 1#5 .zero rfl (List.mem_singleton_self _) rfl hlowest
  have hkept : trailFailed (exec readsFailed failedLead) = true := (congrArg trailFailed hexec).trans trailFailed_alone
  exact Bool.false_ne_true (trailFailed_exec.symm.trans hkept)

end Sys2Proof.Machine
end

section
/-! SUPPORT. The turn of an event (R445; log 1). -/

namespace Sys2Proof.Machine

/-- A term that no word encodes is an event of the part, but for the two that a fetch makes. -/
theorem isEvent_of_unencoded {i : Instr} (he : encode i = none) (hill : ∀ bits, i ≠ .illegalInstruction bits)
    (hacc : ∀ c u a, i ≠ .instructionAccessFault c u a) : isEvent i = true := by
  unfold isEvent
  rw [he]
  split
  · exact absurd rfl (hill _)
  · exact absurd rfl (hacc _ _ _)
  · rfl

theorem happen_event {i : Instr} {n : Nat} (hev : isEvent i = true) (hwf : i.wf = true) (hsub : i.subjOk n = true) (s : State) :
    happen i n s = if s.frozen.isSome && !(whileFrozen i) then .next s else exec i { s with subj := n } :=
  if_pos (by rw [hev, hwf, hsub]; rfl)

/-- Settles O45: the step is the event's turn (log 1), which a frozen part performs for module reset and the hosts' requests alone. -/
theorem eventTurns : Obligations.EventTurns := by
  unfold Obligations.EventTurns
  intro s dt n i r htape he hill hacc hwf hsub s1
  have hr : s.refresh.tape = ⟨dt, .event i n⟩ :: r := htape
  have hstep : step s = happen i n s1 := by
    simp only [step, turn, hr]
    rfl
  have hfrozen : s1.frozen = s.frozen := rfl
  rw [hstep, happen_event (isEvent_of_unencoded he hill hacc) hwf hsub, hfrozen]
  refine ⟨fun hf => ?_, fun hf => ?_⟩
  · rw [hf]
    rfl
  · rw [Option.isSome_iff_ne_none.mpr hf]
    cases whileFrozen i <;> rfl

end Sys2Proof.Machine
end

section
/-! SUPPORT. What the events of graph nodes, host rings and consistent cuts come to (R296 to R299, R308, R426, R427). -/

namespace Sys2Proof.Machine

/-! ### The range of a COND -/

/-- No other node of the range runs. -/
theorem GraphRun.alone {g : GraphRun} {i first last : Nat} (h : ∀ n ∈ g.nodes, first ≤ n.1 → n.1 ≤ last → n.1 = i) :
    (g.nodes.any fun n => n.1 != i && decide (first ≤ n.1) && decide (n.1 ≤ last)) = false := by
  refine List.any_eq_false.mpr fun n hn => ?_
  simp only [Bool.and_eq_true, bne_iff_ne, decide_eq_true_eq]
  rintro ⟨⟨hne, hfirst⟩, hlast⟩
  exact hne (h n hn hfirst hlast)

/-- Every node of the range is in reach. -/
theorem State.range_reached {s : State} {c : Ctx} {table : Word} {n first last : Nat}
    (h : ∀ j, j < n → first ≤ j → j ≤ last → s.unreached c .store (nodeVa table j) 8 = false) :
    (((List.range n).filter fun j => decide (first ≤ j) && decide (j ≤ last)).find? fun j =>
      s.unreached c .store (nodeVa table j) 8) = none := by
  refine List.find?_eq_none.mpr fun j hj => ?_
  simp only [List.mem_filter, List.mem_range, Bool.and_eq_true, decide_eq_true_eq] at hj
  obtain ⟨hn, hfirst, hlast⟩ := hj
  exact Bool.eq_false_iff.mp (h j hn hfirst hlast)

section
variable {s : State} {g : GraphRun} {p : Packet} {k i : Nat} {c : Ctx} (hg : tget s.graphs s.subj = some g)
  (hc : s.graphCtx g = some (p, k, c))
include hg

/-! ### A launched node -/

/-- A node that works has its entry read, which took its tokens. -/
theorem State.nodeWorks_at (c : Ctx) (i : Nat) :
    s.nodeWorks c s.subj i =
      (s.unitSpend c .load (nodeVa g.table i) 64).modGraph s.subj fun x => { x with nodes := tset x.nodes i .working } := by
  simp only [State.nodeWorks, hg]

include hc

section
variable (hl : tget g.nodes i = some .launched)
include hl

theorem runNode_fault {sub : Nat} {saw : Option (Ctx × Word)} (h : s.checkNode c g.table g.nnodes i = .fault sub saw)
    (act : Work → Packet → Nat → Ctx → State → State) :
    runNode s.subj i act s = (s.sawAt saw).graphFault s.subj p.queue k sub := by
  simp only [runNode, hg, hc, hl, h, ne_eq, not_true_eq_false, if_false]

theorem runNode_pass {bs : List Byte} {w : Work} (h : s.checkNode c g.table g.nnodes i = .pass)
    (hr : s.readBytes c (nodeVa g.table i) 64 = .got bs) (hw : nodeWork bs = w) (act : Work → Packet → Nat → Ctx → State → State) :
    runNode s.subj i act s = act w p k c s := by
  simp only [runNode, hg, hc, hl, h, hr, hw, ne_eq, not_true_eq_false, if_false]

omit hc

/-- An HRING node that no entry of its own keeps waiting runs like every other node. -/
theorem doHring_launched : ∃ act, doHring i s = runNode s.subj i act s ∧
    ∀ rd src flush p k c t, act (.hring rd src flush) p k c t = t.hringGo t.subj i k c rd src flush fun u => u := by
  simp only [doHring, hg, Option.bind_some, hl]
  exact ⟨_, rfl, fun _ _ _ _ _ _ _ => rfl⟩

end

/-- A node whose checks fault stops its graph, whatever node was expected (R426). That the nodes launched and not started are dropped is
the model's choice (log 83). -/
theorem exec_node_fault (hl : tget g.nodes i = some .launched) {sub : Nat} {saw : Option (Ctx × Word)}
    (h : s.checkNode c g.table g.nnodes i = .fault sub saw) :
    ∀ e ∈ [Instr.kern i, .pipe i, .copyNode i, .cond i, .signalNode i, .hring i, .wait i, .join i],
      exec e s = .next ((s.sawAt saw).graphFault s.subj p.queue k sub) := by
  have hrun := runNode_fault hg hc hl h
  obtain ⟨act, hring, -⟩ := doHring_launched hg hl
  simp only [List.forall_mem_cons, List.not_mem_nil, false_imp_iff, implies_true, and_true]
  exact ⟨next_of_eq (hrun _), next_of_eq (hrun _), next_of_eq (hrun _), next_of_eq (hrun _), next_of_eq (hrun _),
    next_of_eq (hring.trans (hrun _)), next_of_eq (hrun _), next_of_eq (hrun _)⟩

/-! ### The work of a node whose checks pass -/

section
variable (hl : tget g.nodes i = some .launched) (hp : s.checkNode c g.table g.nnodes i = .pass) {bs : List Byte}
  (hr : s.readBytes c (nodeVa g.table i) 64 = .got bs)
include hl hp hr

section
variable {r : Word} {own : Option (BitVec 16)} (hw : nodeWork bs = .launch r own)
include hw

theorem doKern_starts {l : Launch} {h : Khdr} (hrec : s.readLaunch c c.asid r false = .ready l h) :
    doKern i s = (((s.nodeWorks c s.subj i).launchSpend c r l.khdr).newGrid c.asid r l h (.node s.subj i) k).2 :=
  (runNode_pass hg hc hl hp hr hw _).trans (by simp only [hrec])

theorem doKern_refused {sub : Nat} (hrec : s.readLaunch c c.asid r false = .refused sub) :
    doKern i s = ((s.nodeWorks c s.subj i).refuseLaunch c.asid r k sub).finishFor (.node s.subj i) :=
  (runNode_pass hg hc hl hp hr hw _).trans (by simp only [hrec])

end

theorem doPipeNode_starts {r : Word} {rounds : Nat} {st : List (Word × Launch × Khdr × List (Nat × Nat × Nat))}
    (hw : nodeWork bs = .pipe r) (hrec : s.readPipe c r = .ready rounds st) :
    doPipeNode i s = (s.nodeWorks c s.subj i).startPipe c.asid k r rounds st (.node s.subj i) :=
  (runNode_pass hg hc hl hp hr hw _).trans (by simp only [hrec])

theorem doCopyNode_gives {d : Word} {hd : List Byte} (hw : nodeWork bs = .copy d) (hread : s.readBytes c d 16 = .got hd)
    (hroom : s.engineRoom (copyEngine k (BitVec.ofNat 64 (natOfBytes (hd.drop 8)))) = true) :
    doCopyNode i s = (s.nodeWorks c s.subj i).giveCopy (copyEngine k (BitVec.ofNat 64 (natOfBytes (hd.drop 8)))) c d p.tag p.nodl
      (.node s.subj i) :=
  (runNode_pass hg hc hl hp hr hw _).trans (by simp only [hread, hroom, if_true])

theorem doSignalNode_changes {op : Nat} {va v : Word} {key : Nat} (hw : nodeWork bs = .signal op va v)
    (hreach : s.unreached c .bank va 8 = false) (hkey : (s.nodeWorks c s.subj i).unitKey c .bank va 8 = .ok key) :
    doSignalNode i s =
      ((((s.nodeWorks c s.subj i).unitSpend c .bank va 8).putNat key 8
        (signalNew op ((s.nodeWorks c s.subj i).natAt key 8) v.toNat)).wakeLatch key).finishFor (.node s.subj i) :=
  (runNode_pass hg hc hl hp hr hw _).trans
    ((if_neg (Bool.eq_false_iff.mp hreach)).trans (State.unitStore_at hkey _))

section
variable {cmp : Nat} {va v : Word} {key : Nat} (hw : nodeWork bs = .wait cmp va v) (hreach : s.unreached c .load va 8 = false)
  (hkey : (s.nodeWorks c s.subj i).unitKey c .load va 8 = .ok key)
include hw hreach hkey

theorem doWaitNode_holds (h : cmpHolds cmp (BitVec.ofNat 64 ((s.nodeWorks c s.subj i).natAt key 8)) v = true) :
    doWaitNode i s = ((s.nodeWorks c s.subj i).unitSpend c .load va 8).finishFor (.node s.subj i) :=
  (runNode_pass hg hc hl hp hr hw _).trans
    ((if_neg (Bool.eq_false_iff.mp hreach)).trans (State.waitTest_holds hkey h))

/-- A WAIT whose word does not satisfy it yet watches its line. -/
theorem doWaitNode_watches (h : cmpHolds cmp (BitVec.ofNat 64 ((s.nodeWorks c s.subj i).natAt key 8)) v = false) :
    doWaitNode i s =
      let r := (s.nodeWorks c s.subj i).unitSpend c .load va 8
      { r with nextId := r.nextId + 1, watches := tset r.watches r.nextId ⟨va, key / 64, c.asid, none, some (s.subj, i), false⟩ } := by
  refine (runNode_pass hg hc hl hp hr hw _).trans ((if_neg (Bool.eq_false_iff.mp hreach)).trans ?_)
  simp only [State.waitTest, hkey, h, State.fresh, Option.bind_none, Bool.false_eq_true, if_false]

end

theorem doJoin_finishes (hw : nodeWork bs = .nop) : doJoin i s = (s.nodeWorks c s.subj i).finishFor (.node s.subj i) :=
  runNode_pass hg hc hl hp hr hw _

theorem doHring_goes {rd src : Word} {flush : Bool} (hw : nodeWork bs = .hring rd src flush) :
    doHring i s = s.hringGo s.subj i k c rd src flush fun u => u := by
  obtain ⟨act, hrun, hact⟩ := doHring_launched hg hl
  exact (hrun.trans (runNode_pass hg hc hl hp hr hw _)).trans (hact ..)

/-! ### COND -/

section
variable {cmp first last exit key : Nat} {va v : Word} (hw : nodeWork bs = .cond cmp va v first last exit)
  (hkey : s.unitKey c .load va 8 = .ok key) (halone : ∀ n ∈ g.nodes, first ≤ n.1 → n.1 ≤ last → n.1 = i)
  (hreach : ∀ j, j < g.nnodes → first ≤ j → j ≤ last → s.unreached c .store (nodeVa g.table j) 8 = false)

include hw hkey halone hreach

/-- A COND whose word satisfies it re-arms its range, and launches its first node (R298). -/
theorem doCond_rearms (h : cmpHolds cmp (BitVec.ofNat 64 (s.natAt key 8)) v = true) (hfirst : first < g.nnodes) :
    doCond i s =
      ((((List.range g.nnodes).filter fun j => decide (first ≤ j) && decide (j ≤ last)).foldl
          (fun (u : State) j => u.putCount c g.table j (u.predsOf c g.table j))
          ((s.unitSpend c .load va 8).modGraph s.subj fun x => { x with nodes := tdel x.nodes i })).modGraph s.subj fun x =>
        { x with nodes := tset x.nodes first .launched }).graphEnd s.subj := by
  refine (runNode_pass hg hc hl hp hr hw _).trans ?_
  simp only [hg, GraphRun.alone halone, hkey, State.range_reached hreach, h, hfirst, Bool.false_eq_true, if_false, if_true]

/-- A COND whose word does not satisfy it leaves by its exit (R298). -/
theorem doCond_exits (h : cmpHolds cmp (BitVec.ofNat 64 (s.natAt key 8)) v = false) (hexit : exit < g.nnodes)
    (hout : s.unreached c .store (nodeVa g.table exit) 8 = false) :
    doCond i s =
      (((s.unitSpend c .load va 8).modGraph s.subj fun x => { x with nodes := tdel x.nodes i }).decNode s.subj c g.table exit).graphEnd
        s.subj := by
  refine (runNode_pass hg hc hl hp hr hw _).trans ?_
  simp only [hg, GraphRun.alone halone, hkey, State.range_reached hreach, h, hexit, hout, Bool.false_eq_true, and_false, if_false, if_true]

end

end

/-! ### Nodes that finish -/

section
variable (hf : tget g.nodes i = some .finished)
include hf

/-- A finished node waits for its core's older stores (R297). That these are the entries of the core's cluster is the model's reading
(log 129). -/
theorem doNodeFinish_waits (hgate : s.gateClear (s.coreGate k false) = false) :
    doNodeFinish i s = (s.drain (s.coreGate k false)).modGraph s.subj fun x =>
      { x with nodes := tset x.nodes i (.releasing (s.coreGate k false)) } := by
  simp only [doNodeFinish, hg, hc, hf, hgate, Bool.not_false, if_true]

theorem doNodeFinish_counts {bs : List Byte} (hgate : s.gateClear (s.coreGate k false) = true) (hfail : g.failed = false)
    (hr : s.readBytes c (nodeVa g.table i) 64 = .got bs)
    (hreach : ∀ x ∈ nodeSuccs bs, x < g.nnodes → s.unreached c .store (nodeVa g.table x) 8 = false) :
    doNodeFinish i s =
      (((nodeSuccs bs).filter fun x => decide (x < g.nnodes)).foldl (fun (t : State) x => t.decNode s.subj c g.table x)
        (s.modGraph s.subj fun x => { x with nodes := tdel x.nodes i })).graphEnd s.subj := by
  have hnone : (((nodeSuccs bs).filter fun x => decide (x < g.nnodes)).find? fun x =>
      s.unreached c .store (nodeVa g.table x) 8) = none := by
    refine List.find?_eq_none.mpr fun x hx => ?_
    obtain ⟨hmem, hn⟩ := List.mem_filter.mp hx
    exact Bool.eq_false_iff.mp (hreach x hmem (of_decide_eq_true hn))
  simp only [doNodeFinish, hg, hc, hf, hgate, hfail, hr, hnone, Bool.not_true, Bool.false_eq_true, if_false]

end

end

/-! ### Host rings -/

section
variable {s : State} {gi i k key : Nat} {c : Ctx} {rd src : Word} {flush : Bool}

/-- The node watches a ring that is full, by its descriptor's line (R299). -/
theorem State.hringGo_full {back : State → State} (hkey : s.unitKey c .store rd 64 = .ok key) (hb : s.hringBusy key = false)
    (hfull : ((hringOf (s.natAt key 64)).wr + 2 ^ 32 - (hringOf (s.natAt key 64)).rd) % 2 ^ 32 = 2 ^ (hringOf (s.natAt key 64)).log) :
    s.hringGo gi i k c rd src flush back =
      let t := s.nodeWorks c gi i
      { t with nextId := t.nextId + 1, watches := tset t.watches t.nextId ⟨rd, key / 64, c.asid, none, some (gi, i), false⟩ } := by
  simp only [State.hringGo, hkey, hb, hfull, State.fresh, Bool.false_eq_true, if_false, if_true]

/-- Where the next entry of a ring stands. -/
def Hring.next (h : Hring) : Word := addrPlus h.base (32 * (h.wr % 2 ^ h.log))

/-- The node's entry is written, with the index behind it. -/
def State.hringPut (s : State) (gi i : Nat) (c : Ctx) (rd src : Word) (key dk : Nat) (b : List Byte) : State :=
  let h := hringOf (s.natAt key 64)
  ((((s.nodeWorks c gi i).unitSpend c .load rd 64).unitSpend c .load src 24).unitSpend c .store h.next 32).putMem dk
    ((b ++ bytesOfNat 8 (h.wr + 1)).map some)

/-- A ring with room takes the node's entry; the index rises once the core's release is done (R299). -/
theorem State.hringGo_puts {back : State → State} {dk : Nat} {b : List Byte} (hkey : s.unitKey c .store rd 64 = .ok key)
    (hb : s.hringBusy key = false)
    (hroom : ((hringOf (s.natAt key 64)).wr + 2 ^ 32 - (hringOf (s.natAt key 64)).rd) % 2 ^ 32 ≠ 2 ^ (hringOf (s.natAt key 64)).log)
    (hread : s.readBytes c src 24 = .got b) (hdst : s.unitKey c .store (hringOf (s.natAt key 64)).next 32 = .ok dk) :
    s.hringGo gi i k c rd src flush back =
      let t := s.hringPut gi i c rd src key dk b
      if t.gateClear (t.coreGate k true) then t.hringRaise gi i c rd flush key
      else (t.drain (t.coreGate k true)).modGraph gi fun x => { x with nodes := tset x.nodes i (.publishing key (t.coreGate k true)) } := by
  rw [Hring.next] at hdst
  simp only [State.hringGo, hkey, hb, hroom, hread, hdst, State.hringPut, Hring.next, Bool.false_eq_true, if_false]
  rfl

/-- Without a coalescing time, WRIDX and PEND rise, and the vector is sent where enough entries, or a flush, ask for it (R299). -/
theorem State.hringRaise_untimed (h : (hringOf (s.natAt key 64)).coalt = 0) :
    s.hringRaise gi i c rd flush key =
      let h := hringOf (s.natAt key 64)
      let pend := (h.pend + 1) % 2 ^ 32
      let t := (s.putNat (key + 8) 4 (h.wr + 1)).putNat (key + 24) 4 pend
      (if max 1 h.coaln ≤ pend ∨ (flush = true ∧ 0 < pend) then t.hringIrq key rd c.asid else t).finishFor (.node gi i) := by
  simp only [State.hringRaise, h, ne_eq, not_true_eq_false, and_false, if_false, Bool.or_eq_true, Bool.and_eq_true, decide_eq_true_eq]

end

/-- An HRING node whose entry is written raises its ring once its release is done. -/
theorem doHring_publishes {s : State} {g : GraphRun} {p : Packet} {k i key : Nat} {c : Ctx} {gate : List Nat} {bs : List Byte}
    {rd src : Word} {flush : Bool} (hg : tget s.graphs s.subj = some g) (hc : s.graphCtx g = some (p, k, c))
    (hn : tget g.nodes i = some (.publishing key gate)) (hgate : s.gateClear gate = true)
    (hr : s.readBytes c (nodeVa g.table i) 64 = .got bs) (hw : nodeWork bs = .hring rd src flush) :
    doHring i s = s.hringRaise s.subj i c rd flush key := by
  simp only [doHring, State.hringGoOn, hg, Option.bind_some, hn, hc, Option.map_some, hgate, hr, hw, Bool.not_true, Bool.false_eq_true,
    if_false]

section
variable {s : State} {t : HrTimer} {key : Nat} (ht : tget s.timers s.subj = some t) (hd : t.due ≤ s.ncyc)
  (hkey : s.unitKey (schedCtx t.asid) .store t.rdesc 64 = .ok key)
include ht hd hkey

theorem doHringTimer_idle (h : (hringOf (s.natAt key 64)).pend = 0) :
    doHringTimer s = { s with timers := tdel s.timers s.subj } := by
  simp only [doHringTimer, ht, Nat.not_lt.mpr hd, hkey, h, if_false, if_true]

theorem doHringTimer_sends (h : (hringOf (s.natAt key 64)).pend ≠ 0) : doHringTimer s = s.hringIrq key t.rdesc t.asid := by
  simp only [doHringTimer, ht, Nat.not_lt.mpr hd, hkey, h, if_false]

end

/-! ### Consistent cuts -/

section
variable {s : State} {gr : Grid} {pk : Nat} (hgr : tget s.grids s.subj = some gr)
include hgr

/-- A cut of a packet's grid begins: its blocks are to stop (R308). That one event begins it is the model's choice (log 87). -/
theorem doCut_begins (hdone : gr.done = .packet pk) (hcut : tget s.cuts s.subj = none) (hleft : gr.ended < gr.launch.bpg) :
    doCut s = ({ s with cuts := tset s.cuts s.subj ⟨some s.subj, none, []⟩ } : State).cutGrid gr := by
  simp only [doCut, hgr, hcut, hdone, hleft, if_true]

/-- A cut is complete once every block of the grid is away or has ended (R308; log 87). -/
theorem doCut_completes {cu : Cut} (hcut : tget s.cuts s.subj = some cu)
    (haway : ∀ b ∈ gr.blocks, ∀ x, tget s.blocks b = some x → blockStopped x = true) :
    doCut s = { s with cuts := tdel s.cuts s.subj } := by
  simp only [doCut, hgr, hcut]
  refine if_pos (List.all_eq_true.mpr fun b hb => ?_)
  cases hx : tget s.blocks b with
  | none => rfl
  | some x => exact haway b hb x hx

end

/-- Settles O57: each event is the branch of its own that the hypotheses choose. What a fault leaves of its graph (log 83), what the
release of a node's core waits for (log 129), and when a cut begins and is complete (log 87) are the model's choices. -/
theorem nodeEvents : Obligations.NodeEvents := by
  unfold Obligations.NodeEvents
  intro s g p k i c bs gi w works me
  refine ⟨fun hg hc => ?node, fun t key ht hd hkey => ?timer, fun gr pk hgr hdone => ?cut⟩
  case timer => exact ⟨fun h => next_of_eq (doHringTimer_idle ht hd hkey h), fun h => next_of_eq (doHringTimer_sends ht hd hkey h)⟩
  case cut =>
    exact ⟨fun hcut hleft => next_of_eq (doCut_begins hgr hdone hcut hleft),
      fun cu hcut haway => next_of_eq (doCut_completes hgr hcut haway)⟩
  case node =>
    have hworks : s.nodeWorks c gi i = works := State.nodeWorks_at hg c i
    clear_value works
    subst hworks
    refine ⟨fun hl => ⟨fun sub saw => exec_node_fault hg hc hl, fun hp hr => ?works⟩, ?publishing,
      fun hf hgate => next_of_eq (doNodeFinish_waits hg hc hf hgate),
      fun hf hgate hfail hr hreach => next_of_eq (doNodeFinish_counts hg hc hf hgate hfail hr hreach)⟩
    case publishing =>
      exact fun key gate rd src flush hn hgate hr hw hcoalt =>
        next_of_eq ((doHring_publishes hg hc hn hgate hr hw).trans (State.hringRaise_untimed hcoalt))
    case works =>
      refine ⟨fun r own hw => ⟨?starts, ?refused⟩, ?pipe, ?copy, ?signal, ?wait, ?join, ?hring, ?cond⟩
      case starts => exact fun l h hrec => next_of_eq (doKern_starts hg hc hl hp hr hw hrec)
      case refused => exact fun sub hrec => next_of_eq (doKern_refused hg hc hl hp hr hw hrec)
      case pipe => exact fun r rounds st hw hrec => next_of_eq (doPipeNode_starts hg hc hl hp hr hw hrec)
      case copy => exact fun d hd hw hread hroom => next_of_eq (doCopyNode_gives hg hc hl hp hr hw hread hroom)
      case signal => exact fun op va v key hw hreach hkey => next_of_eq (doSignalNode_changes hg hc hl hp hr hw hreach hkey)
      case wait =>
        exact fun cmp va v key hw hreach hkey => ⟨fun h => next_of_eq (doWaitNode_holds hg hc hl hp hr hw hreach hkey h),
          fun h => next_of_eq (doWaitNode_watches hg hc hl hp hr hw hreach hkey h)⟩
      case join => exact fun hw => next_of_eq (doJoin_finishes hg hc hl hp hr hw)
      case hring =>
        intro rd src flush key hw hkey hb h
        have hgo := doHring_goes hg hc hl hp hr hw
        refine ⟨fun hfull => next_of_eq (hgo.trans (State.hringGo_full hkey hb hfull)), fun b dk hroom hread hdst => ?_⟩
        have hput := hgo.trans (State.hringGo_puts hkey hb hroom hread hdst)
        exact ⟨fun hgate => next_of_eq (hput.trans (if_pos hgate)),
          fun hgate => next_of_eq (hput.trans (if_neg (Bool.eq_false_iff.mp hgate)))⟩
      case cond =>
        exact fun cmp va v first last exit key hw hkey halone hreach =>
          ⟨fun h hfirst => next_of_eq (doCond_rearms hg hc hl hp hr hw hkey halone hreach h hfirst),
            fun h hexit hout => next_of_eq (doCond_exits hg hc hl hp hr hw hkey halone hreach h hexit hout)⟩

end Sys2Proof.Machine
end
